-- ==== Sys2Proof/Word.lean ====
section
/-! DEFINITION. The words of the machine (R8): byte, halfword, word, dword, and the 96-lane mask of a pack. -/

namespace Sys2Proof

/-- 8 bits (R8). -/
abbrev Byte := BitVec 8
/-- A 32-bit word (R8). -/
abbrev W32 := BitVec 32
/-- A 64-bit dword (R8). -/
abbrev W64 := BitVec 64
/-- One bit per lane of a pack; bit L is lane L (R5, R181). -/
abbrev Mask := BitVec 96

/-- One 32-bit element per lane: lane L is element L, and a lane the list does not hold reads 0. -/
abbrev Row := List W32

/-- A sparse table: keys strictly rising, and no entry equal to what an unlisted key reads as. -/
abbrev SMap (α : Type) := List (Nat × α)

end Sys2Proof
end

