-- ==== Sys2Proof/Machine/Bits.lean ====
section
/-! DEFINITION. Bit fields, extensions, byte order (R8) and lane masks (R13). -/

namespace Sys2Proof.Machine

/-- `x[h:l]` as a number: `n` bits of `x` from bit `l` up (R13). -/
def fld {w : Nat} (x : BitVec w) (l n : Nat) : Nat := (x.extractLsb' l n).toNat

/-- Bit `i` of `x` (R8). -/
def bit {w : Nat} (x : BitVec w) (i : Nat) : Bool := x.getLsbD i

/-- `x` with the `n` bits from `l` up replaced by the low `n` bits of `v`. -/
def putFld {w : Nat} (x : BitVec w) (l n : Nat) (v : Nat) : BitVec w :=
  (x &&& ~~~(((BitVec.ofNat w (2 ^ n - 1))) <<< l)) ||| ((BitVec.ofNat w (v % 2 ^ n)) <<< l)

/-- A flag as a number. -/
def b2n (b : Bool) : Nat := if b then 1 else 0

/-- The bytes of `v`, `n` of them, least significant first (R8). -/
def bytesOf (n : Nat) (v : Nat) : List Byte :=
  (List.range n).map (fun i => BitVec.ofNat 8 (v >>> (8 * i)))

/-- The number whose bytes, least significant first, are `bs` (R8). -/
def ofBytes : List Byte → Nat
  | [] => 0
  | b :: bs => b.toNat + 256 * ofBytes bs

/-- `n` bytes of a number from byte `i` up. -/
def byteFld (v : Nat) (i n : Nat) : Nat := (v >>> (8 * i)) % 2 ^ (8 * n)

/-- All 96 lanes. -/
def lanes : List Nat := List.range 96

/-- The lanes of a mask, ascending. -/
def lanesOf (m : Mask) : List Nat := lanes.filter (fun L => m.getLsbD L)

/-- The mask of the lanes below 96 that satisfy `p`. -/
def maskOf (p : Nat → Bool) : Mask :=
  BitVec.ofNat 96 (lanes.foldr (fun L x => 2 * x + (if p L then 1 else 0)) 0)

/-- The row of zeros (R185). -/
def zeroRow : Row := List.replicate 96 0

/-- The mask of a list of lanes. -/
def maskList (ls : List Nat) : Mask := maskOf (fun L => ls.contains L)

/-- The lowest lane of a mask. -/
def lowest (m : Mask) : Option Nat := lanes.find? (fun L => m.getLsbD L)

/-- Word b of a lane mask: bit i is lane 32b + i (R180). -/
def beatWord (m : Mask) (b : Nat) : W32 := m.extractLsb' (32 * b) 32

/-- `m` with the word of beat `b` replaced (R180). -/
def setBeat (m : Mask) (b : Nat) (v : W32) : Mask := putFld m (32 * b) 32 v.toNat

/-- Lane `L` of a row. -/
def lane (r : Row) (L : Nat) : W32 := r.getD L 0

/-- The row whose lane L is `f L`. -/
def rowOf (f : Nat → W32) : Row := lanes.map f

/-- `old` with the lanes of `m` taken from `new` (R189). -/
def mergeRow (m : Mask) (old new : Row) : Row :=
  rowOf (fun L => if m.getLsbD L then lane new L else lane old L)

/-- A 64-bit lane value from its low and high row (R186). -/
def join64 (lo hi : W32) : W64 := hi ++ lo

/-- The 4-bit byte mask of an access of `n` bytes at byte `o` of a word. -/
def byteMask (o n : Nat) : BitVec 4 := BitVec.ofNat 4 (((2 ^ n - 1) <<< o) % 16)

/-- `old` with the bytes of `m` taken from `new`. -/
def mergeBytes (m : BitVec 4) (old new : W32) : W32 :=
  BitVec.ofNat 32 (((List.range 4).map (fun i =>
    ((if m.getLsbD i then fld new (8 * i) 8 else fld old (8 * i) 8) <<< (8 * i)))).foldr (· + ·) 0)

/-- Sign-extend the low `n` bits of a number to an integer. -/
def sInt (n v : Nat) : Int := let u := v % 2 ^ n; if 2 * u < 2 ^ n then (u : Int) else (u : Int) - 2 ^ n

/-- An integer reduced mod 2^n. -/
def wrapN (n : Nat) (x : Int) : Nat := (x % (2 ^ n : Int)).toNat

/-- `sats(x, n)` (R13). -/
def sats (x : Int) (n : Nat) : Int := max (-(2 ^ (n - 1))) (min x (2 ^ (n - 1) - 1))

/-- `satn(x, n)` (R13). -/
def satn (x : Int) (n : Nat) : Int := max 0 (min x (2 ^ n - 1))

/-- Round `x` up to a multiple of `a`. -/
def alignUp (x a : Nat) : Nat := if a = 0 then x else (x + a - 1) / a * a

end Sys2Proof.Machine
end

