-- ==== Sys2Proof/Config.lean ====
section
/-! DEFINITION. What an implementation fixes and the free values: constants with no body, so that nothing can be proved
of their value. -/

namespace Sys2Proof

/-- One step of /boot/plan (R374, R416): a write of a management register, a structure placed in memory, the ASID of a process,
the XROOT of an address space, a heap, or a launch packet for a queue of the physical function. -/
inductive Machine.PlanStep
  | reg (a : Nat) (v : W64)
  | place (pa : Nat) (bs : List Byte)
  | proc (k asid : Nat)
  | root (k : Nat) (v : W64)
  | heap (k base quota : Nat)
  | launch (q : Nat) (packet : List Byte)
  deriving DecidableEq, Repr

end Sys2Proof

namespace Sys2Proof.Config

/-- A result of VFRCP that is not exact, where it lies within the bound of R243. -/
opaque rcp : W32 → W32
/-- The same for VFRSQ. -/
opaque rsq : W32 → W32
/-- The same for VFEXP2. -/
opaque exp2 : W32 → W32
/-- The same for VFLOG2. -/
opaque log2 : W32 → W32
/-- The same for VFSIN. -/
opaque sin : W32 → W32
/-- The same for VFCOS. -/
opaque cos : W32 → W32
/-- The same for VFTANH. -/
opaque tanh : W32 → W32
/-- A fresh value that the manual leaves open, numbered by the state's counter. -/
opaque freeValue : Nat → W64

/-- The numbers of the trust engine's random bit generator (R24), in the order in which it gives them. -/
opaque drbg : Nat → BitVec 256
/-- A byte of a slice that was keyed without a scrub, by the slice's number of such a keying and the address: what its stored bytes
decrypt to under keys that are not theirs (R31). -/
opaque unrelated : Nat → Nat → Byte

/-- The key of a trusted group under one of its views, by the number that this module gives it (R385, R387). -/
opaque groupKey : Nat → BitVec 256

/-- The dwords of the module's certificate (R392). -/
opaque certificate : Nat → W64

/-- SHA-512 of the boot ROM (R397), whose contents the spec does not give. -/
opaque bootRomHash : Nat
/-- A signature over an image's header verifies under the key that a hash names; the empty hash names the Fiavadra key (R393). The spec
gives none of the public keys: a slot holds the hash of one (R395), and the header holds none. -/
opaque signatureHolds : List W64 → List Byte → List Byte → Bool
/-- The device's signature over a report, as a number of 512 bytes (R397). -/
opaque reportSignature : List Byte → Nat
/-- Where an image's Zumos begins, and the XROOT of ASID 0 of a service core that starts it (R374). -/
opaque zumosEntry : List Byte → W64
opaque zumosRoot : List Byte → Nat → W64

/-- What the bytes of /boot/plan say (R374): the spec gives the file no format. -/
opaque planSteps : List Byte → List Machine.PlanStep
/-- A peer's attestation report, by the number under which it came, carries a signature that holds (R387, R397). -/
opaque reportHolds : Nat → Nat → Bool
/-- A group key as it is wrapped for a peer by RSA-OAEP under its identity key (R387), a number of 512 bytes. -/
opaque wrappedKey : Nat → Nat → Nat

end Sys2Proof.Config
end

