-- ==== Sys2Proof/Syntax.lean ====
section
/-! DEFINITION. The instructions (R104-R125 and the chapters that give their forms) and the device events of the
opcode table, one constructor for each row of spec/opcode_table.json. -/

namespace Sys2Proof

/-- The length of an instruction word (R104). -/
inductive Len | short | long | wide
  deriving DecidableEq, Repr

/-- The fields every word shares (R106): length, STALL, WAITM, SETQ and GUARD. A dovetail word has no guard of its own
(R119) and carries 0b0111 here. -/
structure Ctl where
  len : Len
  stall : BitVec 3
  waitm : BitVec 6
  setq : BitVec 3
  guard : BitVec 4
  deriving DecidableEq, Repr

/-- A uniform register name (R109). -/
abbrev SReg := BitVec 6
/-- An affine register name (R109). -/
abbrev AReg := BitVec 5
/-- A predicate register name (R109). -/
abbrev PReg := BitVec 3
/-- A varying register name, of the v or the w view as the form's type says (R109). -/
abbrev VReg := BitVec 11
/-- An accumulator name of the c view (R109). -/
abbrev CReg := BitVec 4

/-- The four integer types of the short type code (R110, R218). -/
inductive IType | i32 | n32 | i64 | n64
  deriving DecidableEq, Repr

/-- The types of the promotions and reductions: MOD 000-100 (R193). -/
inductive PType | i32 | n32 | i64 | n64 | f32
  deriving DecidableEq, Repr

/-- The float types of the short type code (R110, R235). -/
inductive FType | f32 | f16 | bf16
  deriving DecidableEq, Repr

/-- The types of MODX.TYPE (R110). -/
inductive Ty | i32 | n32 | i64 | n64 | f32 | f16 | bf16 | i8 | n8 | i16 | n16 | mf8 | mf8n
  deriving DecidableEq, Repr

/-- Rounding modes (R110). -/
inductive Rnd | rne | rtz | rup | rdn | sr
  deriving DecidableEq, Repr

/-- Scopes (R80). -/
inductive Scope | pack | core | device | system | fabric
  deriving DecidableEq, Repr

/-- Integer conditions (R221). -/
inductive Cond | eq | ne | lt | le | gt | ge
  deriving DecidableEq, Repr

/-- Float conditions (R240). -/
inductive FCond | eq | ne | lt | le | gt | ge | un | ord
  deriving DecidableEq, Repr

/-- A varying source with its last-use bit (R106, R118). -/
structure VSrc where
  reg : VReg
  last : Bool
  deriving DecidableEq, Repr

/-- A uniform operand or the 32-bit immediate that replaces it (R107). -/
inductive USrc
  | reg (r : SReg)
  | imm (v : W32)
  deriving DecidableEq, Repr

/-- The last operand of a varying form: a varying register, a uniform one (FLG = 1), or an immediate (R221, R237). -/
inductive VOpnd
  | v (x : VSrc)
  | s (r : SReg)
  | imm (v : W32)
  deriving DecidableEq, Repr

/-- The immediate of SMOVI and VMOVI (R226). -/
inductive Imm
  | i32 (v : W32)
  | i64 (v : W64)
  deriving DecidableEq, Repr

/-- The source of PMOV (R221, R231). -/
inductive PMovSrc
  | p (r : PReg)
  | mk (r : SReg)
  deriving DecidableEq, Repr

/-- The placements of VPACK (R246). -/
inductive PackMode | p2 | q01 | q23
  deriving DecidableEq, Repr

/-- The sub-operations of VSHFL (R250). -/
inductive Shfl | idx | up | dn | xor
  deriving DecidableEq, Repr

/-- The operations of VSCAN (R252). -/
inductive ScanOp | add | min | max
  deriving DecidableEq, Repr

/-- The types of VSCAN (R252). -/
inductive ScanTy | i32 | n32 | f32
  deriving DecidableEq, Repr

/-- The counter of VHASH and VDROP: a w register or an affine register (R254). -/
inductive Ctr
  | w (x : VSrc)
  | a (r : AReg)
  deriving DecidableEq, Repr

/-- The address shapes of a memory word (R134). -/
inductive Addr
  | u (r : SReg)
  | a (r : AReg)
  | v (x : VSrc)
  deriving DecidableEq, Repr

/-- The atomic operations (R146). -/
inductive AOp | add | and | or | xor | min | max | xchg | cas | fadd
  deriving DecidableEq, Repr

/-- The conditions of WAITA (R153). -/
inductive WCond | eq | ne | ge | lt
  deriving DecidableEq, Repr

/-- The conditions of BRA (R306). -/
inductive BCond | always | nz | z
  deriving DecidableEq, Repr

/-- The link of CALL and the target of RET: uniform, or varying with .V (R306). -/
inductive Link
  | s (r : SReg)
  | w (r : VReg)
  deriving DecidableEq, Repr

/-- The forms of TLBINV (R360). -/
inductive TlbMode | page | asid | all
  deriving DecidableEq, Repr

/-- The operations that can be paired (R120). -/
inductive HOp
  | vadd | vsub | vand | vor | vxor | vandn | vshl | vshr | vsra | vmin | vmax | vminn | vmaxn
  | vmov | vnot | vabs | vneg | vclz | vpopc
  | vmul | vmulh | vmulhn
  | vfadd | vfsub | vfmin | vfmax
  | vfmul
  | vhadd2 | vhmul2
  deriving DecidableEq, Repr

/-- One half of a dovetail word (R119). -/
structure Half where
  op : HOp
  guard : BitVec 4
  rnd : Rnd
  ty : Ty
  d : VReg
  a : VSrc
  b : VSrc
  deriving DecidableEq, Repr

/-- The instructions and events of the machine. An instruction carries its control fields and its operands in the order
the assembler writes them (R127). An event carries the numbers that say which unit, queue or record it concerns. -/
inductive Instr
  -- uniform integer (R218-R230)
  | sadd (c : Ctl) (ty : IType) (d a : SReg) (b : USrc)
  | ssub (c : Ctl) (ty : IType) (d a : SReg) (b : USrc)
  | smul (c : Ctl) (ty : IType) (d a : SReg) (b : USrc)
  | smulh (c : Ctl) (ty : IType) (d a : SReg) (b : USrc)
  | smulhn (c : Ctl) (ty : IType) (d a : SReg) (b : USrc)
  | sdiv (c : Ctl) (ty : IType) (d a : SReg) (b : USrc)
  | sdivn (c : Ctl) (ty : IType) (d a : SReg) (b : USrc)
  | srem (c : Ctl) (ty : IType) (d a : SReg) (b : USrc)
  | sremn (c : Ctl) (ty : IType) (d a : SReg) (b : USrc)
  | sand (c : Ctl) (ty : IType) (d a : SReg) (b : USrc)
  | sor (c : Ctl) (ty : IType) (d a : SReg) (b : USrc)
  | sxor (c : Ctl) (ty : IType) (d a : SReg) (b : USrc)
  | sandn (c : Ctl) (ty : IType) (d a : SReg) (b : USrc)
  | sshl (c : Ctl) (ty : IType) (d a : SReg) (b : USrc)
  | sshr (c : Ctl) (ty : IType) (d a : SReg) (b : USrc)
  | ssra (c : Ctl) (ty : IType) (d a : SReg) (b : USrc)
  | smin (c : Ctl) (ty : IType) (d a : SReg) (b : USrc)
  | smax (c : Ctl) (ty : IType) (d a : SReg) (b : USrc)
  | sminn (c : Ctl) (ty : IType) (d a : SReg) (b : USrc)
  | smaxn (c : Ctl) (ty : IType) (d a : SReg) (b : USrc)
  | sclz (c : Ctl) (ty : IType) (d a : SReg)
  | spopc (c : Ctl) (ty : IType) (d a : SReg)
  | sbfx (c : Ctl) (ty : IType) (d a : SReg) (desc : USrc)
  | sbfi (c : Ctl) (ty : IType) (d a b : SReg) (desc : USrc)
  | ssel (c : Ctl) (ty : IType) (d a b cnd : SReg)
  | smov (c : Ctl) (ty : IType) (d a : SReg)
  | smovi (c : Ctl) (ty : IType) (d : SReg) (v : Imm)
  | scmp (c : Ctl) (ty : IType) (cond : Cond) (d a : SReg) (b : USrc)
  -- affine and promotion (R182-R200, R232)
  | amovi (c : Ctl) (w64 t : Bool) (d : AReg) (base stride : W32)
  | aadd (c : Ctl) (w64 t : Bool) (d a b : AReg)
  | asub (c : Ctl) (w64 t : Bool) (d a b : AReg)
  | aadds (c : Ctl) (neg w64 t : Bool) (d a : AReg) (b : USrc)
  | amuls (c : Ctl) (w64 t : Bool) (d a : AReg) (b : USrc)
  | ashls (c : Ctl) (w64 t : Bool) (d a : AReg) (b : USrc)
  | psa (c : Ctl) (w64 t : Bool) (d : AReg) (base : SReg) (stride : USrc)
  | psv (c : Ctl) (ty : PType) (d : VReg) (a : SReg)
  | pav (c : Ctl) (ty : IType) (d : VReg) (a : AReg)
  | vpick (c : Ctl) (ty : PType) (d : SReg) (a : VSrc) (i : USrc)
  | vballot (c : Ctl) (beat : BitVec 2) (d : SReg) (a : PReg)
  | vany (c : Ctl) (d : SReg) (a : PReg)
  | vall (c : Ctl) (d : SReg) (a : PReg)
  | vredadd (c : Ctl) (ty : PType) (d : SReg) (a : VSrc)
  | vredmin (c : Ctl) (ty : PType) (d : SReg) (a : VSrc)
  | vredmax (c : Ctl) (ty : PType) (d : SReg) (a : VSrc)
  | agetb (c : Ctl) (n : Bool) (d : SReg) (a : AReg)
  | agets (c : Ctl) (w : Bool) (d : SReg) (a : AReg)
  -- varying integer and predicate (R218-R231)
  | vadd (c : Ctl) (ty : IType) (d : VReg) (a : VSrc) (b : VOpnd)
  | vsub (c : Ctl) (ty : IType) (d : VReg) (a : VSrc) (b : VOpnd)
  | vmul (c : Ctl) (ty : IType) (d : VReg) (a : VSrc) (b : VOpnd)
  | vmulh (c : Ctl) (ty : IType) (d : VReg) (a : VSrc) (b : VOpnd)
  | vmulhn (c : Ctl) (ty : IType) (d : VReg) (a : VSrc) (b : VOpnd)
  | vmad (c : Ctl) (ty : IType) (d : VReg) (a : VSrc) (b : VOpnd) (cc : VSrc)
  | vdiv (c : Ctl) (ty : IType) (d : VReg) (a : VSrc) (b : VOpnd)
  | vdivn (c : Ctl) (ty : IType) (d : VReg) (a : VSrc) (b : VOpnd)
  | vrem (c : Ctl) (ty : IType) (d : VReg) (a : VSrc) (b : VOpnd)
  | vremn (c : Ctl) (ty : IType) (d : VReg) (a : VSrc) (b : VOpnd)
  | vand (c : Ctl) (ty : IType) (d : VReg) (a : VSrc) (b : VOpnd)
  | vor (c : Ctl) (ty : IType) (d : VReg) (a : VSrc) (b : VOpnd)
  | vxor (c : Ctl) (ty : IType) (d : VReg) (a : VSrc) (b : VOpnd)
  | vandn (c : Ctl) (ty : IType) (d : VReg) (a : VSrc) (b : VOpnd)
  | vnot (c : Ctl) (ty : IType) (d : VReg) (a : VSrc)
  | vshl (c : Ctl) (ty : IType) (d : VReg) (a : VSrc) (b : VOpnd)
  | vshr (c : Ctl) (ty : IType) (d : VReg) (a : VSrc) (b : VOpnd)
  | vsra (c : Ctl) (ty : IType) (d : VReg) (a : VSrc) (b : VOpnd)
  | vmin (c : Ctl) (ty : IType) (d : VReg) (a : VSrc) (b : VOpnd)
  | vmax (c : Ctl) (ty : IType) (d : VReg) (a : VSrc) (b : VOpnd)
  | vminn (c : Ctl) (ty : IType) (d : VReg) (a : VSrc) (b : VOpnd)
  | vmaxn (c : Ctl) (ty : IType) (d : VReg) (a : VSrc) (b : VOpnd)
  | vabs (c : Ctl) (ty : IType) (d : VReg) (a : VSrc)
  | vneg (c : Ctl) (ty : IType) (d : VReg) (a : VSrc)
  | vclz (c : Ctl) (ty : IType) (d : VReg) (a : VSrc)
  | vpopc (c : Ctl) (ty : IType) (d : VReg) (a : VSrc)
  | vbfx (c : Ctl) (ty : IType) (d : VReg) (a : VSrc) (desc : USrc)
  | vbfi (c : Ctl) (ty : IType) (d : VReg) (a b : VSrc) (desc : USrc)
  | vsel (c : Ctl) (ty : IType) (d : VReg) (a : VSrc) (b : VOpnd) (p : PReg)
  | vmov (c : Ctl) (ty : IType) (d : VReg) (a : VSrc)
  | vmovi (c : Ctl) (ty : IType) (d : VReg) (v : Imm)
  | vcmp (c : Ctl) (ty : IType) (cond : Cond) (d : PReg) (a : VSrc) (b : VOpnd)
  | vsat (c : Ctl) (ty : IType) (d : VReg) (a : VSrc) (sat : W32)
  | pand (c : Ctl) (d a b : PReg)
  | por (c : Ctl) (d a b : PReg)
  | pxor (c : Ctl) (d a b : PReg)
  | pnot (c : Ctl) (d a : PReg)
  | pmov (c : Ctl) (d : PReg) (a : PMovSrc)
  -- float (R235-R248)
  | vfadd (c : Ctl) (r : Rnd) (d : VReg) (a : VSrc) (b : VOpnd)
  | vfsub (c : Ctl) (r : Rnd) (d : VReg) (a : VSrc) (b : VOpnd)
  | vfmul (c : Ctl) (r : Rnd) (d : VReg) (a : VSrc) (b : VOpnd)
  | vfma (c : Ctl) (r : Rnd) (d : VReg) (a : VSrc) (b : VOpnd) (cc : VSrc)
  | vfmin (c : Ctl) (d : VReg) (a : VSrc) (b : VOpnd)
  | vfmax (c : Ctl) (d : VReg) (a : VSrc) (b : VOpnd)
  | vfcmp (c : Ctl) (cond : FCond) (d : PReg) (a : VSrc) (b : VOpnd)
  | vfclass (c : Ctl) (ty : FType) (d : VReg) (a : VSrc)
  | vfrnd (c : Ctl) (r : Rnd) (d : VReg) (a : VSrc)
  | vfrcp (c : Ctl) (d : VReg) (a : VSrc)
  | vfrsq (c : Ctl) (d : VReg) (a : VSrc)
  | vfsqrt (c : Ctl) (r : Rnd) (d : VReg) (a : VSrc)
  | vfdiv (c : Ctl) (r : Rnd) (d : VReg) (a : VSrc) (b : VOpnd)
  | vfexp2 (c : Ctl) (d : VReg) (a : VSrc)
  | vflog2 (c : Ctl) (d : VReg) (a : VSrc)
  | vfsin (c : Ctl) (d : VReg) (a : VSrc)
  | vfcos (c : Ctl) (d : VReg) (a : VSrc)
  | vftanh (c : Ctl) (d : VReg) (a : VSrc)
  | vcvt (c : Ctl) (dst src : Ty) (r : Rnd) (d : VReg) (a rb : VSrc)
  | vpack (c : Ctl) (m : PackMode) (ty : Ty) (r : Rnd) (d : VReg) (a b rb : VSrc)
  | vunpack (c : Ctl) (ty : Ty) (e : BitVec 3) (d : VReg) (a : VSrc)
  | vhadd2 (c : Ctl) (ty : FType) (r : Rnd) (d : VReg) (a : VSrc) (b : VOpnd)
  | vhmul2 (c : Ctl) (ty : FType) (r : Rnd) (d : VReg) (a : VSrc) (b : VOpnd)
  | vhfma2 (c : Ctl) (ty : FType) (r : Rnd) (d : VReg) (a : VSrc) (b : VOpnd) (cc : VSrc)
  | sfadd (c : Ctl) (ty : FType) (r : Rnd) (d a : SReg) (b : USrc)
  | sfmul (c : Ctl) (ty : FType) (r : Rnd) (d a : SReg) (b : USrc)
  | sfma (c : Ctl) (ty : FType) (r : Rnd) (d a b cc : SReg)
  | sfcvt (c : Ctl) (dst src : Ty) (r : Rnd) (d a rb : SReg)
  -- lane exchange and random (R249-R255)
  | vshfl (c : Ctl) (op : Shfl) (d : VReg) (a : VSrc) (b : VOpnd)
  | vbcast (c : Ctl) (bt : Bool) (d : VReg) (a : VSrc) (i : USrc)
  | vprmt (c : Ctl) (d : VReg) (a b : VSrc) (sel : VOpnd)
  | vscan (c : Ctl) (op : ScanOp) (ex : Bool) (ty : ScanTy) (d : VReg) (a : VSrc) (heads : Option PReg)
  | vdrop (c : Ctl) (all : Bool) (d : PReg) (ctr : Ctr) (key : SReg) (keepv : USrc)
  | vhash (c : Ctl) (lo : Bool) (d : VReg) (ctr : Ctr) (key : SReg)
  -- memory (R132-R154)
  | sld (c : Ctl) (ty : Ty) (nc : Bool) (d base : SReg) (off : BitVec 24)
  | sst (c : Ctl) (ty : Ty) (base : SReg) (off : BitVec 24) (b : SReg)
  | vld (c : Ctl) (ty : Ty) (nc : Bool) (d : VReg) (ad : Addr) (off : BitVec 24)
  | vst (c : Ctl) (ty : Ty) (ad : Addr) (off : BitVec 24) (b : VSrc)
  | vlds (c : Ctl) (ty : Ty) (d : VReg) (ad : Addr) (off : BitVec 24)
  | vsts (c : Ctl) (ty : Ty) (ad : Addr) (off : BitVec 24) (b : VSrc)
  | slds (c : Ctl) (ty : Ty) (d base : SReg) (off : BitVec 24)
  | ssts (c : Ctl) (ty : Ty) (base : SReg) (off : BitVec 24) (b : SReg)
  | vldq (c : Ctl) (ty : Ty) (sc : Scope) (rmask : Byte) (d : VReg) (ad : Addr) (off : BitVec 24)
  | vstl (c : Ctl) (ty : Ty) (sc : Scope) (ad : Addr) (off : BitVec 24) (b : VSrc)
  | sldq (c : Ctl) (ty : Ty) (sc : Scope) (rmask : Byte) (d base : SReg) (off : BitVec 24)
  | sstl (c : Ctl) (ty : Ty) (sc : Scope) (base : SReg) (off : BitVec 24) (b : SReg)
  | vatom (c : Ctl) (op : AOp) (aq rl : Bool) (ty : Ty) (sc : Scope) (d : VReg) (ad : Addr) (off : BitVec 24)
      (b cmp : VSrc)
  | satom (c : Ctl) (op : AOp) (aq rl : Bool) (ty : Ty) (sc : Scope) (d base : SReg) (off : BitVec 24) (b cmp : SReg)
  | vlr (c : Ctl) (ty : Ty) (d : VReg) (ad : Addr) (off : BitVec 24)
  | vsc (c : Ctl) (ty : Ty) (d : PReg) (ad : Addr) (off : BitVec 24) (b : VSrc)
  | fence (c : Ctl) (sc : Scope)
  | acq (c : Ctl) (sc : Scope) (rmask : Byte)
  | rel (c : Ctl) (sc : Scope)
  | invr (c : Ctl) (base : SReg) (off : BitVec 24) (len : SReg)
  | inva (c : Ctl)
  | reg (c : Ctl) (ty : Ty) (ad : Addr) (off : BitVec 24)
  | dereg (c : Ctl) (ty : Ty) (ad : Addr) (off : BitVec 24)
  | pref (c : Ctl) (ty : Ty) (ad : Addr) (off : BitVec 24)
  | waita (c : Ctl) (ty : Ty) (cond : WCond) (d base : SReg) (off : BitVec 24) (b : SReg) (tmo : Option SReg)
  -- transfers, messages, barriers (R161-R178)
  | xfer (c : Ctl) (a : SReg)
  | msgsend (c : Ctl) (ch : BitVec 3) (a : SReg)
  | msgrecv (c : Ctl) (nb : Bool) (d a : SReg)
  | msgfree (c : Ctl) (a b : SReg)
  | barinit (c : Ctl) (a b : SReg)
  | bararr (c : Ctl) (rm : Bool) (d a b : SReg)
  | barwait (c : Ctl) (a b : SReg)
  | bartry (c : Ctl) (d a b : SReg)
  -- matrix (R256-R275)
  | mma (c : Ctl) (z h : Bool) (d : CReg) (a : SReg) (aoff : BitVec 20) (b : SReg) (boff : BitVec 20)
  | mmas (c : Ctl) (z h : Bool) (d : CReg) (a : SReg) (aoff : BitVec 20) (b : SReg) (boff : BitVec 20)
  | mscale (c : Ctl) (z i : Bool) (d p : CReg) (rs : VSrc) (ss : SReg) (soff : BitVec 20)
  | mzero (c : Ctl) (d : CReg)
  | mcvt (c : Ctl) (h : Bool) (ty : Ty) (r : Rnd) (d : VReg) (a : CReg) (key : SReg)
  | tfpin (c : Ctl) (d a : SReg)
  | tfrel (c : Ctl) (all : Bool) (a : SReg)
  -- control (R306-R317)
  | bra (c : Ctl) (cond : BCond) (a : SReg) (off : W32)
  | brv (c : Ctl) (off heel : W32)
  | brx (c : Ctl) (a : VSrc) (tab len : SReg) (heel : W32)
  | call (c : Ctl) (d : Link) (off : W32)
  | ret (c : Ctl) (a : Link)
  | exit (c : Ctl)
  | sync (c : Ctl)
  | waitq (c : Ctl) (all : Bool)
  | yield (c : Ctl)
  | nop (c : Ctl)
  | trap (c : Ctl) (code : BitVec 16)
  | bkpt (c : Ctl)
  | svc (c : Ctl) (each : Bool) (vb : VReg) (heel : W32)
  | qpost (c : Ctl) (d a b : SReg)
  | reggrow (c : Ctl) (d : SReg) (n : USrc)
  | regshrink (c : Ctl) (n : USrc)
  | srd (c : Ctl) (d : SReg) (num : W32)
  | swr (c : Ctl) (num : W32) (a : SReg)
  -- privileged (R360-R369)
  | sres (c : Ctl) (mark : Bool) (n m : SReg)
  | pctxsv (c : Ctl) (d h va : SReg)
  | pctxld (c : Ctl) (d h va : SReg)
  | tlbinv (c : Ctl) (mode : TlbMode) (hub : Bool) (va asid : SReg)
  | mbxsend (c : Ctl) (d tgt p : SReg)
  | mbxrecv (c : Ctl) (nb : Bool) (d : SReg)
  | zap (c : Ctl) (pa len : SReg)
  | halt (c : Ctl)
  | iret (c : Ctl)
  | pstop (c : Ctl) (d h : SReg)
  | pstopGo (c : Ctl) (d h : SReg)
  | pstopEnd (c : Ctl) (d h code : SReg)
  | swrp (c : Ctl) (num : W32) (a : SReg)
  -- the paired word (R119-R122)
  | dovetail (c : Ctl) (x y : Half)
  -- events that other steps put in order
  | uncorrectableError (kind unit addr : Nat)
  | coreQuarantine (core : Nat)
  | partitionEnable (p : Nat)
  | partitionDisable (p : Nat)
  | partitionReset (p : Nat)
  | partitionResetDone (p : Nat)
  | frameRebind (core : Nat) (v : W64)
  | notify (f q : Nat) (idx : W32)
  | cnotify (f : Nat)
  | scStart (cluster : Nat) (v : W64)
  | fnBindWrite (f : Nat) (v : W64)
  | attestationRequest (f : Nat) (v : W64)
  | attResume (f : Nat)
  | ownerEnroll (slot : Nat)
  | ownerRevoke (slot : Nat)
  | migrationGo (f : Nat)
  | migrationForce (f : Nat)
  | migrationDone (f : Nat)
  | tgJoin (g : Nat) (v : W64)
  | tgLeave (g : Nat) (v : W64)
  | viewInstall (g view : Nat) (members : List Nat)
  | verifyDone
  -- timers and loss in the cores (R66, R67, R76)
  | leaseExpiry (core line : Nat)
  | timeBaseBroadcast (core : Nat) (off : Int)
  | broadcastTimeout (core : Nat)
  | coreClockGate (core : Nat)
  | correctedError (kind unit : Nat)
  | l1LineError (core line : Nat)
  -- partitions, frames and walks (R20-R32, R48, R51)
  | sliceScrubDone (sl : Nat)
  | metadataInitDone (sl : Nat)
  | partitionKeyingDone (p : Nat)
  | partitionReleaseDone (p : Nat)
  | frameRebindDone
  | walkReadAnswer (k : Nat)
  -- splits and units of a core (R189, R224, R244, R256-R273, R298-R303, R337, R348, R352)
  | fairnessTimer (core slot : Nat)
  | overdueSplit (core slot i : Nat)
  | heelArrival (core slot i : Nat)
  | splitMeet (core slot i j : Nat)
  | forcedReconvergence (core slot i : Nat)
  | landingBufferWrite (core : Nat)
  | divisionComplete (core : Nat)
  | specialFunctionComplete (core : Nat)
  | tileLineArrival (core k : Nat)
  | matrixExecute (core : Nat)
  | matrixComplete (core : Nat)
  | watchdog (core slot i : Nat)
  | stopComplete (core slot : Nat)
  | waitaTimeout (core slot i : Nat)
  | instructionFetchFault (core slot i : Nat)
  -- transfers and messages (R165-R178)
  | transferAccept (die : Nat)
  | transferChunkStart (die : Nat)
  | transferChunkDone (die k : Nat)
  | messageAppend (k : Nat)
  | creditReturn (k : Nat)
  | remoteArrival (k : Nat)
  | remoteArrivalReply (k : Nat)
  | hubHeldDelivery (k : Nat)
  -- launches and queues (R284-R293, R318-R336)
  | reggrowGrant (core : Nat)
  | registerDeadlock (core : Nat)
  | workgroupDispatch (p : Nat)
  | packEnd (core slot : Nat)
  | launchComplete (l : Nat)
  | engineRound (e : Nat)
  | waitTimeout (f q : Nat)
  | sliceExpiry (p : Nat)
  | laneRotation (lane : Nat)
  | engineFaultResume (k : Nat)
  -- service cores (R368, R369, R374)
  | haltWake (cluster : Nat)
  | mbxrecvWake (cluster : Nat)
  -- the host and the trust engine (R375-R381, R393-R401)
  | hostApertureRead (f off n : Nat)
  | hostApertureWrite (f off : Nat) (bs : List Byte)
  | hostApertureAtomic (f off : Nat) (ty : Ty) (op : AOp) (opd cmp : W64)
  | hostCompletion (ok : Bool)
  | vfFlr (f : Nat)
  | pfFlr
  | attestationDone (f : Nat)
  | activationGo
  | activationDone
  | migrationQuiesced (f : Nat)
  -- peers (R382-R391)
  | brevorData (g src chan view seq coll off : Nat) (bs : List Byte) (ok : Bool)
  | brevorAck (g src chan seq : Nat)
  | brevorNak (g src chan seq : Nat)
  | brevorControl (g src chan view seq kind arg : Nat) (ok : Bool)
  | retransmitTimeout (g dst chan : Nat)
  | collectiveRingPoll (f : Nat)
  | collectiveComplete (k : Nat)
  | ethernetFrameReceive (port kind sock : Nat) (bs : List Byte)
  | nvmeCompletion (k : Nat) (ok : Bool)
  -- bring-up and power (R402-R413)
  | powerGood
  | hubBringupDone
  | clusterBistDone (cluster : Nat) (fails : List W64)
  | fullRateChange
  | recoveryImageLoad (image : List Byte)
  | powerControlTick (sample avg : Nat) (temps : List (Nat × Nat))
  | thermalTrip
  | powerLoss
  | registerWrite (who addr n : Nat) (v : W64)
  -- messages: `src` and `dst` are node numbers, an agent (R7) or 128 + a home slice; the event takes the oldest message
  -- of that channel (R55-R63, R71-R78, R267)
  | rdc (src dst : Nat)
  | rdn (src dst : Nat)
  | regw (src dst : Nat)
  | ewr (src dst : Nat)
  | atm (src dst : Nat)
  | wbd (src dst : Nat)
  | loss (src dst : Nat)
  | zapw (src dst : Nat)
  | notheld (src dst : Nat)
  | race (src dst : Nat)
  | callbackDone (src dst : Nat)
  | staleAck (src dst : Nat)
  | fwd (src dst : Nat)
  | recallWord (src dst : Nat)
  | callback (src dst : Nat)
  | drop (src dst : Nat)
  | grant (src dst : Nat)
  | data (src dst : Nat)
  | faultAnswer (src dst : Nat)
  | stale (src dst : Nat)
  deriving DecidableEq, Repr

end Sys2Proof
end

