-- ==== Sys2Proof/Machine/State.lean ====
section
/-! DEFINITION. The state of the module, as plain data: memory and registrations, the cores with their packs, the
engines, the host side, and the management registers; and the state after reset. -/

namespace Sys2Proof.Machine

/-! ### Homes (R53-R61, R71-R78, R266-R267) -/

/-- What a home records of a word (R54, R58). `cb` is the LAZY callback tag. -/
inductive Reg
  | unreg
  | owned (a : Nat) (ma : BitVec 4) (cb : Bool)
  | split (a : Nat) (ma : BitVec 4) (b : Nat) (mb : BitVec 4) (cb : Bool)
  | lost (a : Nat)
  deriving DecidableEq, Repr

/-- One lane's part of an atomic at the home (R146, R147). -/
structure AtmLane where
  lane : Nat
  op : AOp
  ty : Ty
  opd : W64
  cmp : W64
  deriving DecidableEq, Repr

/-- What a request asks of a home for its words (R57). -/
inductive ROp
  | rdc (acq keep : Bool)
  | rdn
  | regw (m : BitVec 4) (cb : Bool)
  | ewr (m : BitVec 4) (d : W32)
  | atm (ls : List AtmLane)
  | zapw
  /-- the merge that an owner's write-back or the thirteenth pinned way starts: no request follows it (R61, R75) -/
  | drain
  deriving DecidableEq, Repr

/-- A request on one word, or on the two words of a dword atomic, as its home holds it. `bytes` are the bytes the access
itself reads or writes (R73), `check` says whether an owner checks its writer record, `attr` is the attribute of the
requester's translation (0 when the request binds none), and `tag` names the requester's operation. `cov` is
1 when the write that asks covers the word's whole 8-byte granule, and 2 when it covers its line: such a write ends the poison of the
word, one word of it in each request (R28, R34). -/
structure WReq where
  src : Nat
  words : List Nat
  op : ROp
  tag : Nat
  bytes : BitVec 4
  check : Bool
  attr : Nat
  slot : Nat
  cov : Nat
  staleDone : Bool
  deriving DecidableEq, Repr

/-- A request being served that waits for answers: `asked` are the words it has recalled, `need` the owners still to answer for a word,
`got` the bytes written back, `raced` the owners that answered RACE, `stale` the cores still to acknowledge STALE, `cb` the words and owners
whose callback is awaited, `fwd` the owner to which a read has been forwarded. `num` is the number that the recalls of this round carry, so
that an answer to an older recall is told from theirs (R59). -/
structure Txn where
  req : WReq
  asked : List Nat
  need : List (Nat × Nat)
  got : List (Nat × Nat × BitVec 4 × W32)
  raced : List (Nat × Nat)
  stale : List Nat
  cb : List (Nat × Nat)
  fwd : Option Nat
  num : Nat
  deriving DecidableEq, Repr

/-- Which owner request a NOTHELD or RACE answers: a recall by its number. -/
inductive OwnerAsk
  | fwd
  | recallWord (num : Nat)
  | callback
  | drop
  deriving DecidableEq, Repr

/-- The contents of a message between an agent and a home. -/
inductive Body
  | rdc (line : Nat) (acq keep : Bool) (want : List (Nat × BitVec 4)) (tag : Nat) (check : Bool) (attr slot : Nat)
  | rdn (want : List (Nat × BitVec 4)) (tag : Nat) (check : Bool) (attr slot : Nat)
  | regw (w : Nat) (m : BitVec 4) (cb : Bool) (bytes : BitVec 4) (tag : Nat) (check : Bool) (attr slot cov : Nat)
  | ewr (w : Nat) (m : BitVec 4) (d : W32) (tag : Nat) (check : Bool) (attr cov : Nat)
  | atm (ws : List Nat) (ls : List AtmLane) (bytes : BitVec 4) (tag : Nat) (check : Bool) (attr slot : Nat)
  | wbd (w : Nat) (m : BitVec 4) (d : W32)
  | loss (ws : List Nat)
  | zapw (w : Nat) (tag cov : Nat)
  | notheld (w : Nat) (ask : OwnerAsk) (req : Option WReq)
  | race (w : Nat) (ask : OwnerAsk) (req : Option WReq)
  | callbackDone (w : Nat)
  | staleAck (line : Nat)
  | fwd (w : Nat) (req : WReq)
  | recallWord (w : Nat) (bytes : Option (Nat × BitVec 4)) (num : Nat)
  | callback (w : Nat) (bytes : Option (Nat × BitVec 4))
  | drop (w : Nat)
  | grant (w : Nat) (d : Option W32)
  | data (w : Nat) (d : W32) (copy : Bool) (tag : Nat)
  | atmData (olds : List (Nat × W64)) (flags : Nat) (tag : Nat)
  | refill (w : Nat) (m : BitVec 4) (d : W32)
  /-- the value with which an owner answers FWD, on its way to the home, which hands it to the reader (R55, R57) -/
  | fwdData (w : Nat) (d : W32) (req : WReq)
  | fault (w : Nat) (code : Nat) (tag : Nat)
  | stale (line : Nat)
  deriving DecidableEq, Repr

/-- A message in flight; messages of one source and destination arrive in order (R55). A node is an agent number, or
128 + a home slice. -/
structure Msg where
  src : Nat
  dst : Nat
  body : Body
  deriving DecidableEq, Repr

/-! ### The L1, translations, and operations in flight in a core -/

/-- The states of a word of an L1 (R62). -/
inductive L1St | inv | copy | pend | own | dirty
  deriving DecidableEq, Repr

/-- A word of an L1 (R62). `kn` are the bytes whose value is known here (all of them where V is 1 in full), `bm` the bytes
granted to this core, `rq` those of the REGW not yet answered, which the pack of slot `ps` sent. `pm` are the bytes that
the stores waiting for that answer wrote, and `old` and the fields beside it what the word held before them (R434, R137).
`ev` says that the word is written back once it is granted (R63, R151). `cnt` says that the REGW is counted in PREG (R64), `more` are
the REGWs sent after it and not yet answered (bytes, slot, counted), `tg` the slots that have published their pending sets by this
word (R70, R71), and `attr` the attribute of the translation under which it was written (R47). `others` are the packs, the last writer
aside, whose LAZY stores the DIRTY word holds, with their epochs (R70, R72), `lz` those whose LAZY stores a PEND word is registering, and
`cov` what its stores cover together (R34). A word that is OWN and has `pm` not 0 holds the granted half of an 8-byte store that awaits
the other half: to others it is as before the store until then (R137). -/
structure L1Word where
  st : L1St
  val : W32
  kn : BitVec 4
  bm : BitVec 4
  rq : BitVec 4
  ps : Nat
  pm : BitVec 4
  old : W32
  wv : Bool
  wslot : Nat
  wep : Nat
  owv : Bool
  owslot : Nat
  owep : Nat
  ev : Bool
  cnt : Bool
  more : List (BitVec 4 × Nat × Bool)
  tg : List Nat
  attr : Nat
  others : List (Nat × Nat)
  lz : List Nat
  cov : Nat
  deriving DecidableEq, Repr

/-- The fields of an L1 line (R62), with the stamp of its last use for replacement. -/
structure L1Line where
  exp : Nat
  lk : Nat
  asid : Nat
  vpn : Nat
  stamp : Nat
  deriving DecidableEq, Repr

/-- A translation that a buffer holds (R49): page size level, page number and leaf. -/
structure TlbEntry where
  asid : Nat
  level : Nat
  vpn : Nat
  leaf : W64
  deriving DecidableEq, Repr

/-- Who acts: an agent, its pack slot and split (slot and split 0 on a service core). -/
structure Site where
  agent : Nat
  slot : Nat
  split : Nat
  deriving DecidableEq, Repr

/-- A walk under way (R42, R51): the context it walks for, the level whose entry it reads next, the table, and the
splits that wait for it. `killed` says that a TLBINV has hit it (R52). -/
structure Walk where
  agent : Nat
  asid : Nat
  root : W64
  va : Nat
  level : Nat
  table : Nat
  killed : Bool
  waiters : List Site
  deriving DecidableEq, Repr

/-- A page an instruction has resolved, or the fault its translation met. -/
structure Xlat where
  vpn : Nat
  leaf : W64
  level : Nat
  code : Nat
  reason : Nat
  deriving DecidableEq, Repr

/-- Where a class-V result goes. Varying rows are window rows; `wide` names the second row of a w register. -/
inductive Dest
  | none
  | s (r : SReg)
  | v (row : Nat) (wide : Bool)
  | p (r : PReg)
  deriving DecidableEq, Repr

/-- One lane's access of a memory operation: its words still to be answered, the value so far, its fault, the bytes of a word that
its pack had written and not registered when it was issued (they stand over what the home answers, R88, R89), and its leaf's level. -/
structure Acc where
  lane : Nat
  va : Nat
  pa : Nat
  n : Nat
  need : List Nat
  val : W64
  code : Nat
  fva : Nat
  own : List (Nat × BitVec 4 × W32)
  lvl : Nat
  deriving DecidableEq, Repr

/-- The kinds of memory operation that complete by answers. -/
inductive MemKind
  | load
  | store
  | atomic
  | vlr
  | reg
  | dereg
  | zap
  /-- the table of a BRX: its values are kept for the split (R309) -/
  | table
  deriving DecidableEq, Repr

/-- A memory operation that has been issued and is not complete (R137-R139). `acq` and `rel` mark a synchronisation
access (R81), `uni` one address for all lanes, reported as lane 127 (R43); `host` counts the answers still to come from
host memory, and `dead` are the window entries whose last use this is. -/
structure MemOp where
  id : Nat
  slot : Nat
  split : Nat
  pc : W64
  seq : Nat
  kind : MemKind
  ty : Ty
  dest : Dest
  tok : Option Nat
  accs : List Acc
  acq : Bool
  rel : Bool
  uni : Bool
  flags : Nat
  host : Nat
  dead : List (Nat × Nat)
  deriving DecidableEq, Repr

/-- An L1 read in flight (R66, R91): whether its answer may be kept, under which context. -/
structure RdRec where
  tag : Nat
  line : Nat
  keepIt : Bool
  left : Nat
  k : Nat
  lse : Nat
  asid : Nat
  vpn : Nat
  deriving DecidableEq, Repr

/-- A result waiting to be written through the landing buffer (R189); `flags` are ORed into FPF with it (R146). -/
structure Landing where
  slot : Nat
  split : Nat
  seq : Nat
  dest : Dest
  mask : Mask
  lo : Row
  hi : Row
  sval : W64
  tok : Option Nat
  flags : Nat
  deriving DecidableEq, Repr

/-- A division or special-function result in its unit (R224, R244). `flags` are ORed into FPF, `lex` into LEX0-LEX2,
and `trap` says that CTXCFG.DZT raises DIV_ZERO at completion. -/
structure UnitOp where
  slot : Nat
  split : Nat
  pc : W64
  seq : Nat
  dest : Dest
  mask : Mask
  lo : Row
  hi : Row
  sval : W64
  tok : Option Nat
  flags : Nat
  lex : Mask
  trap : Option Nat
  deriving DecidableEq, Repr

/-- A request that has left for host memory through the host port and is not answered (R103, R154). `tag` 0 is a posted
write. -/
inductive HostOp
  | read
  | write (bs : List Byte)
  | atomic (l : AtmLane)
  deriving DecidableEq, Repr

/-- The request, the agent and slot that made it, and the lane of its operation that it serves. -/
structure HostReq where
  src : Nat
  slot : Nat
  tag : Nat
  lane : Nat
  pa : Nat
  n : Nat
  op : HostOp
  deriving DecidableEq, Repr

/-! ### Packs (R179-R200, R276-R317) -/

/-- An affine register (R182). -/
structure Aff where
  b : W64
  st : BitVec 32
  wide : Bool
  deriving DecidableEq, Repr

/-- An entry of the operand window (R118, R188), keyed by window row. -/
structure WEntry where
  seq : Nat
  row : Nat
  mask : Mask
  val : Row
  live : Bool
  due : Nat
  deriving DecidableEq, Repr

/-- A fixed-latency write to a file that has been issued and is not yet performed (R114). -/
inductive FileW
  | s (r : SReg) (v : W64)
  | a (r : AReg) (v : Aff)
  | p (r : PReg) (m v : Mask)
  | tok (q : Nat)
  deriving DecidableEq, Repr

/-- A pending file write, the cycle from which it is seen, and the number of its instruction. -/
structure PWrite where
  due : Nat
  seq : Nat
  w : FileW
  deriving DecidableEq, Repr

/-- What a parked split waits for (R153, R165, R173, R176, R177, R315, R340). Offsets are window offsets. -/
inductive Wait
  | waita (off : Nat) (ty : Ty) (cond : WCond) (ref : W64) (d : SReg) (dl : Option Nat) (tok : Option Nat)
  | barwait (off : Nat) (ph : Bool) (tok : Option Nat)
  /-- `k` orders the receivers of one queue -/
  | msgrecv (off : Nat) (d : SReg) (tok : Option Nat) (k : Nat)
  | msgsend (ch : Nat)
  | xfer (ch n : Nat)
  | svc (entry : Nat) (heel : Option Nat) (tok : Option Nat)
  | reggrow (n : Nat) (d : SReg) (tok : Option Nat)
  /-- a split waiting at issue inside an instruction whose remaining step is made by an event -/
  | step (k : Nat)
  deriving DecidableEq, Repr

/-- The states of a live split (R295). -/
inductive SState
  | ready
  | waiting (w : Wait)
  | heel
  | reconv
  deriving DecidableEq, Repr

/-- A class-V destination that is outstanding, with the number of its instruction and the lanes, row by row, that a later write has
reached first: the result does not overtake it (R116). A uniform or predicate register stands in row 0 of `cut`. -/
structure OutReg where
  seq : Nat
  dest : Dest
  cut : List (Nat × Mask)
  deriving DecidableEq, Repr

/-- A fault as a split met it (R43, R353). -/
structure FaultRec where
  code : Nat
  pc : W64
  fva : W64
  finfo : W64
  lex : Mask
  deriving DecidableEq, Repr

/-- A live split (R295), with its operand window and what it has issued and not yet seen performed. While it is parked,
`after` is where it goes on when it wakes. Its instructions are
numbered from `first`, the next is `seq`; `flushed` is the number from which its window has not left; `tab` is the table
that its BRX has read, and `tidx` the index by which each lane asked for it; `tokAt` are the cycles in which its tokens fell last. `rerun`
says that a stop took it out of a wait, whose instruction runs again (R348, R355). -/
structure Split where
  pc : W64
  owned : Mask
  mask : Mask
  tok : List Nat
  heelRec : Option Nat
  st : SState
  next : Nat
  first : Nat
  seq : Nat
  flushed : Nat
  win : List WEntry
  pw : List PWrite
  out : List OutReg
  hold : Option Nat
  replay : Option Mask
  sec : Option FaultRec
  since : Nat
  waited : Nat
  xl : List Xlat
  phase : Nat
  rc : Option (Mask × List Nat)
  after : W64
  tab : List (Nat × W64)
  tidx : List (Nat × Nat)
  tokAt : List Nat
  rerun : Bool
  deriving DecidableEq, Repr

/-- A heel record (R295). -/
structure Heel where
  pc : W64
  pending : Nat
  parent : Option Nat
  parked : Option Nat
  deriving DecidableEq, Repr

/-- A deferred path (R295). -/
structure Deferred where
  pc : W64
  owned : Mask
  mask : Mask
  heelRec : Option Nat
  deriving DecidableEq, Repr

/-- Why a pack is stopped or stopping (R348, R354): the cause as its save area holds it (R355: 0 pre-emption, 1 a fault, 2 a register
deadlock, 3 a slice, 4 a migration), the record it writes, whether it has been written, and whether the service core has served its faults,
so that the pack can be saved or resumed (R349). -/
structure Stop where
  cause : Nat
  fault : Option FaultRec
  split : Nat
  succ : Bool
  done : Bool
  served : Bool
  deriving DecidableEq, Repr

/-- A resident pack: its launch and place in it, its files, special registers, window (`bad` are its poisoned lanes) and splits. `launch` 0
is no launch. On a service core the one pack of slot 0 holds the core's registers (R356). -/
structure Pack where
  launch : Nat
  wg : Nat
  idx : Nat
  gen : Nat
  lmask : Mask
  live : Mask
  s : SMap W64
  a : SMap Aff
  p : SMap Mask
  spr : SMap W64
  rows : SMap Row
  late : List WEntry
  base : Nat
  size : Nat
  asid : Nat
  root : W64
  preg : Nat
  hostw : Nat
  splits : List (Option Split)
  heels : List (Option Heel)
  deferred : List Deferred
  resv : SMap Nat
  stop : Option Stop
  sq : Nat
  fairSplit : Nat
  fairCount : Nat
  ended : Bool
  bad : SMap Mask
  deriving DecidableEq, Repr

/-- A workgroup's scratchpad window on its core (R158, R168): first byte, size, packs, and a
number that rises with the time at which it became resident. -/
structure WgWin where
  launch : Nat
  wg : Nat
  gen : Nat
  base : Nat
  size : Nat
  slots : List Nat
  order : Nat
  deriving DecidableEq, Repr

/-- An entry of the operand stage (R265-R267); `held` are those of its lines that were read with a clamp. -/
structure StageEntry where
  asid : Nat
  key : W64
  key2 : W64
  key3 : BitVec 32
  size : Nat
  lines : List Nat
  held : List Nat
  stale : Bool
  users : List Nat
  pins : List Nat
  bytes : SMap Byte
  stamp : Nat
  bad : Bool
  deriving DecidableEq, Repr

/-- What a queued matrix instruction computes (R271-R273). -/
inductive MatKind
  | mma (sparse z h : Bool) (fa fb : Nat)
  | mscale (z i : Bool)
  | mzero (m : Mask)
  | mcvt (h : Bool) (ty : Ty) (r : Rnd) (key : W64) (satf : Bool)
  deriving DecidableEq, Repr

/-- A tile record as read at issue (R258). -/
structure TileRec where
  base : W64
  pitch : Nat
  fmt : Nat
  rows : Nat
  cols : Nat
  tr : Bool
  sp : Bool
  mta : Nat
  deriving DecidableEq, Repr

/-- A queued matrix instruction (R256, R257): rows are window rows, `a` and `b` the staged operands, `scale` the metadata or scale bytes
read at issue, `act` its lanes. `withs` are the splits that have joined it, each with its number there (R303). One whose operands are still
being fetched holds its place with `staged` false, and `fetched` says that its fetches have begun; once it runs, `out` and `fl` are what it
will write. -/
structure MatOp where
  id : Nat
  slot : Nat
  split : Nat
  seq : Nat
  kind : MatKind
  crow : Nat
  arow : Nat
  brow : Nat
  ra : TileRec
  rb : TileRec
  abytes : SMap Byte
  bbytes : SMap Byte
  scale : SMap Byte
  tok : Option Nat
  running : Bool
  staged : Bool
  fetched : Bool
  withs : List (Nat × Nat)
  act : Mask
  out : List (Nat × Mask × Row)
  fl : Nat
  deriving DecidableEq, Repr

/-- A tile fetch under way for an instruction of a split (R264): the lines still to read, the bytes so far. -/
structure TileFetch where
  id : Nat
  slot : Nat
  split : Nat
  entry : StageEntry
  todo : List (Nat × Nat)
  /-- the attribute and the level of the leaf that each line was translated by -/
  leaves : SMap (Nat × Nat)
  fault : Option FaultRec
  deriving DecidableEq, Repr

/-- A register request in the core's queue (R292). -/
structure GrowReq where
  slot : Nat
  split : Nat
  n : Nat
  since : Nat
  deriving DecidableEq, Repr

/-- A message of a shard's mailbox (R368). -/
structure Mail where
  src : Nat
  p0 : W64
  p1 : W64
  p2 : W64
  deriving DecidableEq, Repr

/-- A pending event of a service core (R368): kind, source, kennel entry and payload. -/
structure SvcEvent where
  kind : Nat
  src : Nat
  entry : Nat
  p0 : W64
  p1 : W64
  p2 : W64
  deriving DecidableEq, Repr

/-- The units of a core that accept instruction words (R337); a varying word takes one vector pipe, a dovetail word two. -/
inductive IUnit
  | uniform
  | affine
  | memory
  | matrix
  | special
  | exchange
  | control
  | vector (n : Nat)
  deriving DecidableEq, Repr

/-- A core: its clock, its L1 and buffers, its scratchpad array, its units and its packs. A service core has one pack
in slot 0, its own special registers, its mailbox and its pending events. `spbad` are the poisoned 8-byte granules of the array
(R34). -/
structure Core where
  cycle : Nat
  issued : Nat
  /-- the cycle of the last issue with the units of the words issued in it, and the cycles from which the four vector pipes are free,
  rising (R337) -/
  took : Nat × List IUnit
  pipes : List Nat
  skew : Int
  lastBcast : Nat
  /-- the broadcasts of the time base do not reach this core (R67) -/
  mute : Bool
  gated : Bool
  quarantined : Bool
  quietUntil : Nat
  l1 : SMap L1Word
  lines : SMap L1Line
  eco : SMap Nat
  ldv : SMap Nat
  ibuf : SMap (List Byte)
  reads : List RdRec
  /-- callbacks under way (R71): the tagged word, the words that they still register with the slots that count them, and whether the core
  itself began it, to give the tagged word up (R85) -/
  cbs : List (Nat × List (Nat × Nat) × Bool)
  ops : List MemOp
  landing : List Landing
  divq : List UnitOp
  sfuq : List UnitOp
  mq : List MatOp
  stage : List StageEntry
  fetches : List TileFetch
  utlb : List TlbEntry
  sp : SMap Byte
  packs : SMap Pack
  wins : List WgWin
  grow : List GrowReq
  freed : Nat
  spsz : Nat
  evec : W64
  epc : W64
  ecause : W64
  efva : W64
  efinfo : W64
  exl : Bool
  started : Bool
  failed : Bool
  halted : Bool
  mbwait : Option (SReg × Option Nat)
  mailbox : List Mail
  events : List SvcEvent
  spbad : SMap Bool
  deriving DecidableEq, Repr

/-! ### The whole module -/

/-- What moves next: an event, the issue of one instruction by a split, the Zumos shard of a cluster, or time alone. -/
inductive Turn
  | ev (i : Instr)
  | issue (p : Site)
  | zumos (cluster : Nat)
  | pass (ns : Nat)
  /-- a core's own copy of T runs ahead of T by `ns` more (R67) -/
  | drift (core : Nat) (ns : Int)
  /-- the broadcasts of the time base stop reaching a core, or reach it again (R67) -/
  | mute (core : Nat) (on : Bool)
  deriving DecidableEq, Repr

/-- A transfer record (R163). -/
structure XferRec where
  src : Nat
  dst : Nat
  rowlen : Nat
  rows : Nat
  spitch : Nat
  dpitch : Nat
  baroff : Nat
  flagoff : Nat
  flagval : Nat
  dir : Nat
  scope : Nat
  chan : Nat
  baren : Bool
  flgen : Bool
  deriving DecidableEq, Repr

/-- Where a transfer stands: offered by XFER, accepted by the engine, or in progress (R165). -/
inductive XStage | offered | queued | running
  deriving DecidableEq, Repr

/-- A transfer (R165-R167): who issued it, its record, the next chunk, the chunks started and not finished (with whether
their writes are performed), the page it waits for, and the code that ended it. `name` is the channel's MQCH. -/
structure Xfer where
  id : Nat
  agent : Nat
  slot : Nat
  split : Nat
  seq : Nat
  tok : Option Nat
  launch : Nat
  wg : Nat
  idx : Nat
  asid : Nat
  root : W64
  check : Bool
  off : Nat
  r : XferRec
  name : W64
  stage : XStage
  next : Nat
  live : List (Nat × Bool)
  page : Option Nat
  code : Option Nat
  deriving DecidableEq, Repr

/-- An event that found words of memory on their way, to be tried again: a write of FN_BIND, the reset of a function, GO of a migration. -/
inductive Again
  | bind (f : Nat) (v : W64)
  | flr (f : Nat)
  | migrate (f : Nat) (force : Bool)
  deriving DecidableEq, Repr

/-- What travels between workgroups (R172, R175-R178): an entry for a queue, an arrival for a barrier object, or the
reply to an arrival. -/
inductive RKind
  | append (entry : List Byte) (esz : Nat)
  | arrive (n : Nat)
  | reply (v : W64)
  deriving DecidableEq, Repr

/-- A message between workgroups: its issuer (and the transfer and chunk it serves), the workgroup and offset it is for, and
the sender's name. `held` says that it waits at the hub for its workgroup (R168). -/
structure Remote where
  kind : RKind
  agent : Nat
  slot : Nat
  split : Nat
  pc : W64
  seq : Nat
  tok : Option Nat
  dest : SReg
  launch : Nat
  from_ : Nat
  idx : Nat
  chan : Nat
  wg : Nat
  off : Nat
  name : W32
  xfer : Option (Nat × Nat)
  held : Bool
  deriving DecidableEq, Repr

/-- Credits on their way to a pack (R175): the named pack, and the queue that grants them. -/
structure Credit where
  launch : Nat
  to_ : Nat
  idx : Nat
  wg : Nat
  off : Nat
  n : Nat
  deriving DecidableEq, Repr

/-- The sender's name of an appended entry that has not been received (R177). -/
structure Sender where
  launch : Nat
  wg : Nat
  off : Nat
  idx : Nat
  name : W32
  deriving DecidableEq, Repr

/-- A workgroup whose packs are saved in HBM (R355, R365): where, from which core, and in what order it was requeued. -/
structure Saved where
  launch : Nat
  wg : Nat
  area : W64
  core : Nat
  order : Nat
  deriving DecidableEq, Repr

/-- A page fault of an engine's work that the service core of a cluster has not served (R46): `kind` and `id` name the
work (0 a transfer, 1 a queue engine, 2 a collective, 3 a port). -/
structure EngFault where
  cluster : Nat
  kind : Nat
  id : Nat
  asid : Nat
  root : W64
  va : Nat
  reason : Nat
  level : Nat
  deriving DecidableEq, Repr

/-- A filled entry of a set table (R280): a strided entry, or the list of a list entry. -/
structure SetEnt where
  first : Nat
  stride : Nat
  count : Nat
  list : Option (List Nat)
  cohort : Bool
  deriving DecidableEq, Repr

/-- A launch that has been accepted and has not completed (R276-R291). `packs` gives each pack's rows and role, `next`
the next workgroup to dispatch, `ahead` the workgroups placed ahead of their turn, `ended` how many have ended, `waiter` the
packet that waits for it, `node` the graph and node it runs for. -/
structure Launch where
  part : Nat
  fn : Nat
  queue : Nat
  prio : Nat
  proc : Nat
  asid : Nat
  root : W64
  parent : Nat
  entry : W64
  cfg : W64
  threads : Nat
  spsz : Nat
  roles : Bool
  scratch : Nat
  packs : List (Nat × Nat)
  viewv : Nat
  viewc : Nat
  rgn : List W64
  gx : Nat
  gy : Nat
  gz : Nat
  karg : W64
  sets : List (Option SetEnt)
  aff : W64
  next : Nat
  ahead : List Nat
  resident : Nat
  ended : Nat
  children : Nat
  err : Option Nat
  waiter : Nat
  node : Option (Nat × Nat)
  order : Nat
  deriving DecidableEq, Repr


/-- A partition's distributor and lane arbitration (R285, R286, R333-R336): the function that holds the slice, since when, and
the time it gives up for an overrun; the dispatch turns and lane grants left in the level-2 rounds; the launch served last of each
function, process and priority; the cores chosen last, without affinity and for each die; and the queue served last of each function,
process and priority. -/
structure Dist where
  fn : Nat
  start : Nat
  owed : SMap Nat
  expired : Bool
  turns : List (Nat × Nat)
  grants : List (Nat × Nat)
  last : SMap Nat
  rr : Option Nat
  rrDie : SMap Nat
  lastq : SMap Nat
  deriving DecidableEq, Repr

/-- A queue as its engine knows it (R320, R324, R329): the lane that holds it, whether it waits for one, its fetched head
packet and how far that is, what the lane has served since it took the queue, and the engine's own copy of RDIDX, STATE
and ERR once the descriptor could not be written (R328). `fin` is the completion that its packet waits for. `page` is 1 while the
queue waits for a page fault to be served and 2 once it has been without success, here and below; `restart` says that a queue in
ERROR has been seen with VALID 0 (R320); `look` says that a notification has been taken whose read of the descriptor is still to be done. -/
structure QState where
  fn : Nat
  q : Nat
  lane : Option Nat
  wants : Bool
  pkt : Option (List Byte)
  step : Nat
  pos : Nat
  start : Nat
  fin : Option Nat
  served : Nat
  since : Nat
  page : Nat
  restart : Bool
  own : Option (Option Nat × Nat × Nat)
  look : Bool
  deriving DecidableEq, Repr

/-- A completion still to be written (R323): its object, what it records, and whether its record is written. `asid` and
`root` translate the object, and the service core of cluster `cl` hears of its page faults (R46). -/
structure Fin where
  id : Nat
  fn : Nat
  q : Nat
  asid : Nat
  root : W64
  sig : W64
  irq : Bool
  tag : W64
  status : Nat
  code : Nat
  fcode : Nat
  lid : Nat
  time : Nat
  wrote : Bool
  page : Nat
  cl : Nat
  deriving DecidableEq, Repr

/-- A LAUNCH or GRAPH packet whose step is finished and that is not complete (R324). -/
structure OpenPkt where
  id : Nat
  fn : Nat
  q : Nat
  asid : Nat
  root : W64
  sig : W64
  irq : Bool
  tag : W64
  lid : Nat
  cl : Nat
  deriving DecidableEq, Repr

/-- A node of a graph (R330, R331): its launch's fields, its successors, and its STAT entry. -/
structure GNode where
  kdesc : W64
  karg : W64
  settab : W64
  gx : Nat
  gy : Nat
  gz : Nat
  setcnt : Nat
  pred : Nat
  succ : List Nat
  aff : W64
  st : Nat
  code : Nat
  cnt : Nat
  deriving DecidableEq, Repr

/-- A graph that runs (R330-R332): `news` are the node completions that its next step records, `todo` the STAT words still
to be written, `fail` the code of the first STAT write that failed. -/
structure Graph where
  id : Nat
  fn : Nat
  q : Nat
  asid : Nat
  root : W64
  prio : Nat
  proc : Nat
  part : Nat
  stat : Nat
  nodes : List GNode
  news : List (Nat × Nat × Nat)
  todo : List Nat
  fail : Option Nat
  pkt : Nat
  page : Nat
  deriving DecidableEq, Repr

/-- What the module sends to the host (R379, R380): an answer to an aperture request, or an MSI-X message. -/
inductive HostOut
  | data (f : Nat) (bs : List Byte)
  | abort (f : Nat)
  | unsupported (f : Nat)
  | msix (f vec : Nat)
  deriving DecidableEq, Repr

/-- A frame of Brevor transport that has been sent and is not acknowledged, or is to be sent (R384, R385). -/
structure Frame where
  g : Nat
  dst : Nat
  chan : Nat
  seq : Nat
  view : Nat
  kind : Nat
  coll : Nat
  off : Nat
  bs : List Byte
  sent : Nat
  tries : Nat
  deriving DecidableEq, Repr

/-- A trusted group's slot (R386, R387): the group, its view and members, the collectives started in it, the next SEQ to send
and to receive of each peer and channel, and the sponsor that a join request waits for. Of a change that this module collects as the
coordinator: the members that leave and enter, whether a channel asks for a new view (R385), the members asked for a report and those whose
report holds, and the number of the new key with the members that it has been sent to. `offer` says that the coordinator has sent this
module a wrapped key. -/
structure Group where
  joined : Bool
  part : Nat
  gid : Nat
  view : Nat
  members : List Nat
  colls : Nat
  tx : SMap Nat
  rx : SMap Nat
  asked : Option (Nat × Nat)
  leaving : List Nat
  entering : List Nat
  renew : Bool
  reports : List Nat
  proved : List Nat
  newKey : Option (Nat × List Nat)
  offer : Bool
  key : Nat
  deriving DecidableEq, Repr

/-- A collective of this module (R388-R391): its descriptor, what it has received of each member's source (rank, byte offset and bytes), the
ranks whose fields have been compared with its own, and the code that its own accesses met. -/
structure Coll where
  id : Nat
  fn : Nat
  part : Nat
  asid : Nat
  root : W64
  op : Nat
  ty : Nat
  redop : Nat
  slot : Nat
  coll : Nat
  view : Nat
  rootRank : Nat
  src : Nat
  dst : Nat
  count : Nat
  sig : W64
  tag : W64
  started : Bool
  got : List (Nat × Nat × List Byte)
  told : List Nat
  wrote : Nat
  done : Option (Nat × Nat)
  page : Nat
  deriving DecidableEq, Repr

/-- Work of the NVMe controller that is not complete (R372): the shard, in whose queue pair it stands, the entry and lane of the call,
whether it writes, the caller's partition and address space, its buffer, the byte of the flash and the length. -/
structure Flash where
  cluster : Nat
  entry : Nat
  lane : Nat
  write : Bool
  part : Nat
  asid : Nat
  va : Nat
  off : Nat
  n : Nat
  deriving DecidableEq, Repr

/-- A file that a context holds open (R344, R372): its handle, the partition and address space, the directory entry's number, and
whether it may be written. -/
structure OpenFile where
  handle : Nat
  part : Nat
  asid : Nat
  entry : Nat
  write : Bool
  deriving DecidableEq, Repr

/-- A socket of the TCP offload (R373): its shard, its number, its context, what has arrived and what is to be sent. `up` says
that it is connected, to the address and port `peer`. -/
structure Sock where
  cluster : Nat
  id : Nat
  part : Nat
  asid : Nat
  udp : Bool
  up : Bool
  peer : Nat × Nat
  rx : List Byte
  tx : List Byte
  deriving DecidableEq, Repr

/-- A process's heap (R416): its base, quota and top, and the blocks that ALLOC granted and FREE has not taken back. -/
structure Heap where
  base : Nat
  quota : Nat
  top : Nat
  blocks : List (Nat × Nat)
  deriving DecidableEq, Repr

/-- A range that MAP mapped (R344): its context, first VA, pages, attribute as a leaf codes it, W and X. -/
structure MapRange where
  part : Nat
  asid : Nat
  va : Nat
  pages : Nat
  attr : Nat
  w : Bool
  x : Bool
  deriving DecidableEq, Repr

/-- An UNMAP under way (R370): its number, its shard and kennel entry, the space, the range, the next page and the pages left to clear, the
frames taken out, the shards still to be told and those whose ACK is awaited. -/
structure Unmap where
  num : Nat
  cluster : Nat
  entry : Nat
  part : Nat
  asid : Nat
  va : Nat
  pages : Nat
  next : Nat
  left : Nat
  frames : List Nat
  tell : List Nat
  waiting : List Nat
  deriving DecidableEq, Repr

/-- A leaf or a table pointer that a shard is to install (R370): the shard, the entry's address and its old value, and the frame, bound and
zeroed, with the value that names it. -/
structure Install where
  cluster : Nat
  entry : Nat
  old : W64
  frame : Nat
  leaf : W64
  deriving DecidableEq, Repr

/-- A request that a shard has put to another (R371-R373): the VA of its 64 bytes, the shard that asks and the one that is asked, the
kennel entry and lanes that it serves, the context, the call with its arguments, and the extent that a transfer is given (its first byte in
the flash and its length). The spec gives the 64 bytes no layout, so they stand here by their content. -/
structure IoReq where
  va : Nat
  cluster : Nat
  target : Nat
  entry : Nat
  lanes : List Nat
  part : Nat
  asid : Nat
  root : W64
  heap : Nat
  call : List Nat
  extent : Option (Nat × Nat)
  deriving DecidableEq, Repr

/-- A group of a service call that has begun (R342): its shard and kennel entry, its lanes, and the value and status of each lane
that has them. Entry 64 + c stands for a workgroup of core c of the cluster that is to be saved: `lanes` is its launch and number. -/
structure Job where
  cluster : Nat
  entry : Nat
  lanes : List Nat
  res : List (Nat × W64 × Nat)
  deriving DecidableEq, Repr

/-- An attestation report under way (R397). -/
structure Attest where
  fn : Nat
  buf : W64
  deriving DecidableEq, Repr

/-- The keys of a partition (R24): two for AES-256-XTS, one for counter mode, one for GMAC. -/
structure KeySet where
  data : BitVec 256
  tweak : BitVec 256
  counter : BitVec 256
  gmac : BitVec 256
  deriving DecidableEq, Repr

/-- A host write at BAR2 that the port has received and not yet performed (R103, R379). -/
structure AperWrite where
  fn : Nat
  off : Nat
  bs : List Byte
  notify : Option Nat
  deriving DecidableEq, Repr

/-- The state of the module. -/
structure State where
  /-- the global time base T in ns (R65) -/
  time : Nat
  /-- the turns that the outside world and the units have put in order; an empty agenda leaves the choice to the
  machine's own schedule -/
  agenda : List Turn
  /-- the split whose instruction is executed, and the opcode of its word, which says the unit that it takes (R337) -/
  cur : Site
  op : Nat
  /-- the number of free values drawn so far -/
  free : Nat
  /-- the number of the next operation, message tag or stamp -/
  next : Nat
  /-- HBM and host memory by physical address (R14); an unlisted byte reads as 0 -/
  mem : SMap Byte
  /-- the registrations of the words that are not UNREG, by PA / 4 (R53, R54) -/
  regs : SMap Reg
  /-- requests waiting at the homes in arrival order, and those being served (R55) -/
  hq : List WReq
  txns : List Txn
  /-- messages between agents and homes -/
  net : List Msg
  /-- the last use of a home line, for the choice of R75 -/
  l2use : SMap Nat
  /-- requests on their way to host memory, oldest first (R103) -/
  hostq : List HostReq
  /-- the words of poisoned 8-byte granules, and of lines whose integrity check has failed (R34, R28) -/
  poison : SMap Bool
  badline : SMap Bool
  /-- the bound attribute of a frame (R47), and the counters of ENCI lines: minor by line, major by 4 KiB (R26, R27) -/
  frames : SMap Nat
  minor : SMap Nat
  major : SMap Nat
  /-- the keys of the partitions in the trust engine, and those loaded into the crypto engines of the slices (R24) -/
  keys : SMap KeySet
  sliceKeys : SMap KeySet
  /-- the slices whose bytes, where nothing has written them since, are the unrelated values of R31, each with its number -/
  veils : SMap Nat
  /-- when the scrub or metadata initialisation of a slice began (R29, R30) -/
  scrubAt : SMap Nat
  /-- host writes that wait at the host port, in the order of their arrival (R103) -/
  aper : List AperWrite
  /-- the cores whose stage entries clamp a line (R266) -/
  clamps : SMap (List Nat)
  /-- management registers by address / 8 -/
  mgmt : SMap W64
  /-- the cores 0-63 and the service cores 64-95 -/
  cores : SMap Core
  /-- cluster translation buffers, the hub translation buffer, and walks under way (R49, R51) -/
  ctb : SMap (List TlbEntry)
  hubtb : List TlbEntry
  walks : List Walk
  /-- the launches under way, by LAUNCHID (R283) -/
  launches : SMap Launch
  /-- transfers by order of issue, the core served last by each die's engine, and the transfer served last for each core
  (R165) -/
  xfers : List Xfer
  xturn : SMap Nat
  xlast : SMap Nat
  /-- messages between workgroups, credits on their way, and the senders of entries not yet received (R168, R172-R178) -/
  remotes : List Remote
  credits : List Credit
  senders : List Sender
  /-- page faults of engines that wait for a service core (R46) -/
  engfaults : List EngFault
  /-- workgroups that are saved (R365) -/
  saved : List Saved
  /-- answers that have arrived for agents without an L1 (R379) -/
  answers : List (Nat × Body)
  /-- the distributors and lane arbitration of the partitions -/
  dists : SMap Dist
  /-- the parent launch of each packet that QPOST has put into a device queue: function, queue, packet number, parent, and the cluster
  that issued it (R46, R291) -/
  posted : List (Nat × Nat × Nat × Nat × Nat)
  /-- the queues that the engines know, completions to be written, packets whose launches or graphs run, and graphs -/
  queues : List QState
  fins : List Fin
  openPkts : List OpenPkt
  graphs : List Graph
  /-- the ASID of each process (64 f + process entry), and the XROOT of each ASID (65536 × partition + ASID): the spec names
  no register for either -/
  procs : SMap Nat
  roots : SMap W64
  /-- what the module has sent to the host -/
  hostout : List HostOut
  /-- /boot/plan has been read and has been applied (R374), the writes to the partition table that wait for it, and the plan's steps still
  to do -/
  planRead : Bool
  planDone : Bool
  heldWrites : List (Nat × Nat × W64)
  plan : List PlanStep
  /-- the frame and attribute of a rebind under way (R48) -/
  rebind : Option (Nat × Nat)
  /-- tree nodes with an uncorrectable error: partition, level, number (R34); corrected errors of units without a register (R33) -/
  badTree : List (Nat × Nat × Nat)
  /-- what stored tags differ by from those that the contents have, by line, and the nodes of the trees whose stored contents are not those
  that their parents' tags stand for: partition, level, number (R28) -/
  tagDelta : SMap W64
  nodeOff : List (Nat × Nat × Nat)
  /-- poisoned granules of the SRAMs that have no field here: translation and instruction buffers, tables (R33) -/
  srambad : List (Nat × Nat × Nat)
  cec : SMap Nat
  /-- the trust engine's keys, images and fuses (R392-R396):
  the owner slots' key hashes, blown fuses, the straps (the images lie in the flash) -/
  owners : SMap (List W64)
  fuses : Nat
  presence : Bool
  recoveryStrap : Bool
  /-- attestation reports under way, and the functions that have obtained one since they were held (R397, R399) -/
  attests : List Attest
  reported : List Nat
  /-- functions whose migration was forced, with the rest of a migration's work (R401) -/
  forced : List Nat
  /-- trusted groups by slot, frames sent and not acknowledged, frames put on the wire, what has arrived for collectives that this
  module has not started, and collectives (R384-R391) -/
  groups : SMap Group
  outgoing : List Frame
  wire : List Frame
  early : List Frame
  colls : List Coll
  /-- the flash's bytes, its work under way, and sockets (R372, R373) -/
  flash : SMap Byte
  flashq : List Flash
  socks : List Sock
  /-- what Zumos holds: open files, heaps by process (64 f + process entry), MAP ranges, the pools of free frames of the shards, and
  the groups of calls that it serves (R342, R344, R370, R416) -/
  files : List OpenFile
  heaps : SMap Heap
  maps : List MapRange
  pools : SMap (List Nat)
  /-- the frames that hold structures of the plan, the partitions whose pools are built, and the UNMAPs under way (R370) -/
  placed : List Nat
  pooled : List Nat
  unmaps : List Unmap
  jobs : List Job
  /-- entries that shards are about to install, requests between shards, lists of frames that they hand over, by VA, and the shards that
  wait for frames (R370, R371) -/
  installs : List Install
  ioreqs : List IoReq
  frameLists : List (Nat × List Nat)
  frameAsks : List Nat
  /-- how many bytes of the staged image an activation has copied (R398) -/
  copied : Option Nat
  /-- events that found words of memory on their way, to be tried again -/
  again : List Again
  /-- the MSI-X tables of the functions (R376), by 2048 f + offset / 8 -/
  msixTable : SMap W64
  /-- the clusters that have finished their self-test in this boot (R402) -/
  tested : List Nat
  /-- power samples below the limit since when (R410): the power level's and the dies' cool-down starts, and stacks at half rate -/
  cool : SMap Nat
  /-- the clock of each compute die, in eighths of a cycle (R404, R410) -/
  clocks : SMap Nat
  deriving DecidableEq, Repr

/-- A word of an L1 that holds nothing. -/
def L1Word.inv : L1Word :=
  { st := .inv, val := 0, kn := 0, bm := 0, rq := 0, ps := 0, pm := 0, old := 0, wv := false, wslot := 0, wep := 0,
    owv := false, owslot := 0, owep := 0, ev := false, cnt := false, more := [], tg := [], attr := 0,
    others := [], lz := [], cov := 0 }

/-- A core after reset: nothing resident, every register 0, CORE_SRAM.SPSZ 01 (R156), ESTAT.EXL 1 (R359). -/
def Core.init : Core :=
  { cycle := 0, issued := 0, took := (0, []), pipes := [0, 0, 0, 0], skew := 0, lastBcast := 0, mute := false, gated := false,
    quarantined := false, quietUntil := 0, l1 := [],
    lines := [], eco := [], ldv := [], ibuf := [], reads := [], cbs := [], ops := [], landing := [], divq := [], sfuq := [],
    mq := [], stage := [], fetches := [], utlb := [], sp := [], packs := [], wins := [], grow := [], freed := 0,
    spsz := 1, evec := 0, epc := 0, ecause := 0, efva := 0, efinfo := 0, exl := true, started := false, failed := false,
    halted := false, mbwait := none, mailbox := [], events := [], spbad := [] }

/-- A split that holds lanes `m` at `pc`, ready, with nothing in flight. -/
def Split.start (pc : W64) (m : Mask) : Split :=
  { pc := pc, owned := m, mask := m, tok := [0, 0, 0, 0, 0, 0], heelRec := none, st := .ready, next := 0, first := 0,
    seq := 0, flushed := 0, win := [], pw := [], out := [], hold := none, replay := none, sec := none, since := 0, waited := 0,
    xl := [], phase := 0, rc := none, after := 0, tab := [], tidx := [], tokAt := [0, 0, 0, 0, 0, 0], rerun := false }

/-- The heel table and split table of a pack with one split (R295). -/
def Pack.start (pc : W64) (m : Mask) : Pack :=
  { launch := 0, wg := 0, idx := 0, gen := 0, lmask := m, live := m, s := [], a := [], p := [], spr := [], rows := [],
    late := [], base := 0, size := 0, asid := 0, root := 0, preg := 0, hostw := 0,
    splits := [some (Split.start pc m), none, none, none], heels := List.replicate 16 none, deferred := [], resv := [],
    stop := none, sq := 0, fairSplit := 0, fairCount := 0, ended := false, bad := [] }

/-- The module right after reset: nothing is resident, no message is in flight, every management register holds its
reset value, and the boot phase is 0 (R402). -/
def State.reset : State :=
  { time := 0, agenda := [], cur := ⟨0, 0, 0⟩, op := 0, free := 0, next := 1, mem := [], regs := [], hq := [], txns := [],
    net := [], l2use := [], hostq := [], poison := [], badline := [], frames := [], minor := [], major := [], keys := [],
    sliceKeys := [], veils := [], scrubAt := [], aper := [], clamps := [], mgmt := [],
    cores := [], ctb := [], hubtb := [], walks := [], launches := [], xfers := [], xturn := [], xlast := [], remotes := [],
    credits := [], senders := [], engfaults := [], saved := [], answers := [], dists := [],
    posted := [], queues := [], fins := [], openPkts := [], graphs := [], procs := [], roots := [], hostout := [],
    planRead := false, planDone := false, heldWrites := [], plan := [], rebind := none, badTree := [], tagDelta := [],
    nodeOff := [], srambad := [], cec := [], owners := [],
    fuses := 0, presence := false, recoveryStrap := false, attests := [], reported := [], forced := [],
    groups := [], outgoing := [], wire := [], early := [], colls := [], flash := [], flashq := [], socks := [], files := [],
    heaps := [], maps := [], pools := [], placed := [], pooled := [], unmaps := [], jobs := [], installs := [], ioreqs := [],
    frameLists := [], frameAsks := [], copied := none, again := [], msixTable := [], tested := [], cool := [], clocks := [] }

/-- Why a step stops. -/
inductive Fault
  /-- The turn names a core, slot or split that holds nothing: no instruction is being executed there. Raised by every
  instruction's meaning when `cur` is not a resident split. Safe: the hardware has no such turn. -/
  | noContext
  deriving DecidableEq, Repr

/-- Why an instruction has no meaning here. -/
inductive Refusal
  /-- The instruction has no meaning yet. Raised by the dispatch alone. Safe: nothing follows from it. -/
  | notModelled (mnemonic : String)
  deriving DecidableEq, Repr


end Sys2Proof.Machine
end

