-- ==== Sys2Proof/Machine/Ops.lean ====
section
/-! DEFINITION. The named operations over the state: memory, cores, packs and splits, the register files, the operand
window, and taking an exception and returning from one. -/

namespace Sys2Proof.Machine

/-! ### Memory by physical address (R8, R14) -/

/-- The memory slice of a physical address (R15). -/
def sliceOf (pa : Nat) : Nat := (pa >>> 33) % 128

/-- What a byte reads as that `mem` does not list: 0, but in a slice that was keyed without a scrub the unrelated value of R31. -/
def State.unlisted (s : State) (pa : Nat) : Byte :=
  if s.veils.isEmpty || decide (2 ^ 40 ≤ pa) then 0
  else match look s.veils (sliceOf pa) with | some g => Config.unrelated g pa | none => 0

/-- One byte: `mem` lists its difference from what an unlisted byte reads as. -/
def State.byte (s : State) (pa : Nat) : Byte := get 0 s.mem pa ^^^ s.unlisted pa

/-- Write one byte. -/
def State.setByte (s : State) (pa : Nat) (b : Byte) : State := { s with mem := set 0 s.mem pa (b ^^^ s.unlisted pa) }

/-- The `n` bytes from `pa` up as a number. -/
def State.bytes (s : State) (pa n : Nat) : Nat := ofBytes ((List.range n).map (fun i => s.byte (pa + i)))

/-- Write `n` bytes from `pa` up. -/
def State.setBytes (s : State) (pa : Nat) : List Byte → State
  | [] => s
  | b :: bs => (s.setByte pa b).setBytes (pa + 1) bs

/-- The word number `w` (PA / 4). -/
def State.word (s : State) (w : Nat) : W32 := BitVec.ofNat 32 (s.bytes (4 * w) 4)

/-- Write a word. -/
def State.setWord (s : State) (w : Nat) (v : W32) : State := s.setBytes (4 * w) (bytesOf 4 v.toNat)

/-- Host memory lies at and above 2^47 (R14). -/
def isHost (pa : Nat) : Bool := decide (2 ^ 47 ≤ pa)

/-- HBM: 96 slices of 8 GiB (R14, R15). -/
def isHbm (pa : Nat) : Bool := decide (pa < 96 * 2 ^ 33)

/-- The rest of the decode of an HBM address (R15): the stack, the compute die, the 256-byte unit within the slice, its
pseudo-channel within the slice and in the module, and its number within the pseudo-channel. -/
def stackOf (pa : Nat) : Nat := sliceOf pa / 8
def dieOfPa (pa : Nat) : Nat := sliceOf pa / 24
def unitOf (pa : Nat) : Nat := pa % 2 ^ 33 / 256
def channelInSlice (pa : Nat) : Nat := unitOf pa % 48
def channelOf (pa : Nat) : Nat := 384 * stackOf pa + 48 * (sliceOf pa % 8) + channelInSlice pa
def unitInChannel (pa : Nat) : Nat := unitOf pa / 48

/-- The home slice of a physical address (R15). -/
def homeOf (pa : Nat) : Nat :=
  2 * sliceOf pa + ((pa >>> 6) + (pa >>> 14) + (pa >>> 22) + (pa >>> 30)) % 2

/-- A message node: the home slice of a word (see `Msg`). -/
def homeNode (w : Nat) : Nat := 128 + homeOf (4 * w)

/-- Send a message. -/
def State.send (s : State) (src dst : Nat) (b : Body) : State := { s with net := s.net ++ [⟨src, dst, b⟩] }

/-- The next operation number. -/
def State.fresh1 (s : State) : Nat × State := (s.next, { s with next := s.next + 1 })

/-- A free value (see `Config.freeValue`), and the state that has drawn it. -/
def State.draw (s : State) : W64 × State := (Config.freeValue s.free, { s with free := s.free + 1 })

/-! ### Management registers (R11) -/

/-- A management register by address; one that nothing has written reads its reset value. -/
def State.mreg (s : State) (rst : W64) (a : Nat) : W64 := match look s.mgmt (a / 8) with | some v => v | none => rst

/-- Write a management register. -/
def State.setMreg (s : State) (a : Nat) (v : W64) : State := { s with mgmt := ins s.mgmt (a / 8) v }

/-! ### Cores, packs and splits -/

/-- The core of an agent. -/
def State.core (s : State) (a : Nat) : Core := get Core.init s.cores a

/-- Replace the core of an agent. -/
def State.setCore (s : State) (a : Nat) (c : Core) : State := { s with cores := ins s.cores a c }

/-- Change the core of an agent. -/
def State.updCore (s : State) (a : Nat) (f : Core → Core) : State := s.setCore a (f (s.core a))

/-- Change the pack of a slot, if there is one. -/
def Core.updPack (c : Core) (slot : Nat) (f : Pack → Pack) : Core :=
  match look c.packs slot with
  | some p => { c with packs := ins c.packs slot (f p) }
  | none => c

/-- The split in entry `i` of the split table. -/
def Pack.split (p : Pack) (i : Nat) : Option Split := p.splits.getD i none

/-- Put a split, or nothing, in entry `i`. -/
def Pack.setSplit (p : Pack) (i : Nat) (x : Option Split) : Pack := { p with splits := p.splits.set i x }

/-- Change the split in entry `i`, if there is one. -/
def Pack.updSplit (p : Pack) (i : Nat) (f : Split → Split) : Pack :=
  match p.split i with
  | some x => p.setSplit i (some (f x))
  | none => p

/-- Change a split of a core. -/
def Core.updSplit (c : Core) (slot i : Nat) (f : Split → Split) : Core := c.updPack slot (fun p => p.updSplit i f)

/-- A split with what it stands in: the agent, slot and table entry, the core, the pack and the split itself, the
cycle in which its instruction issues, and the window entries (row and number) that the instruction marks dead. -/
structure View where
  s : State
  ag : Nat
  slot : Nat
  ix : Nat
  co : Core
  pk : Pack
  sp : Split
  now : Nat
  dead : List (Nat × Nat)
  deriving DecidableEq, Repr

/-- The cycle in which a split's next instruction can issue (R113). -/
def Core.issueAt (c : Core) (x : Split) : Nat := max (max c.cycle x.next) c.quietUntil

/-- The split at a site. -/
def State.viewAt (s : State) (p : Site) : Option View :=
  match look (s.core p.agent).packs p.slot with
  | none => none
  | some k =>
    match k.split p.split with
    | none => none
    | some x => some ⟨s, p.agent, p.slot, p.split, s.core p.agent, k, x, (s.core p.agent).issueAt x, []⟩

/-- The split that executes (`cur`). -/
def State.view (s : State) : Option View := s.viewAt s.cur

/-- The state with the view's split, pack and core put back. -/
def View.close (v : View) : State :=
  v.s.setCore v.ag { v.co with packs := ins v.co.packs v.slot (v.pk.setSplit v.ix (some v.sp)) }

/-- The state with the view's pack and core put back, its split being gone. -/
def View.closeNoSplit (v : View) : State :=
  v.s.setCore v.ag { v.co with packs := ins v.co.packs v.slot (v.pk.setSplit v.ix none) }

/-- The view executes on a service core (R7). -/
def View.svc (v : View) : Bool := decide (64 ≤ v.ag)

/-- A special register of the pack (R190); one that nothing has written reads 0. -/
def Pack.special (p : Pack) (n : Nat) : W64 := get 0 p.spr n

/-- Write a special register of the pack. -/
def Pack.setSpecial (p : Pack) (n : Nat) (v : W64) : Pack := { p with spr := set 0 p.spr n v }

/-- Special register numbers (R190). -/
def sprCtxcfg : Nat := 0x000
def sprFpf : Nat := 0x001
def sprAfl : Nat := 0x002
def sprLex : Nat := 0x003
def sprCtxerr : Nat := 0x006
def sprFva : Nat := 0x007
def sprFinfo : Nat := 0x008
def sprViewv : Nat := 0x011
def sprViewc : Nat := 0x012
def sprRgn : Nat := 0x018
def sprMqch : Nat := 0x020
def sprCredit : Nat := 0x028

/-- Fields of CTXCFG (R351). -/
def Pack.tk (p : Pack) : Nat := max 6 (min 16 (fld (p.special sprCtxcfg) 0 5))
def Pack.lse (p : Pack) : Nat := fld (p.special sprCtxcfg) 5 8
def Pack.lazyMode (p : Pack) : Bool := bit (p.special sprCtxcfg) 13
def Pack.schk (p : Pack) : Bool := bit (p.special sprCtxcfg) 14
def Pack.dzt (p : Pack) : Bool := bit (p.special sprCtxcfg) 15
def Pack.wd (p : Pack) : Nat := fld (p.special sprCtxcfg) 16 4

/-- The reset value of CTXCFG: TK 10, LSE 64, WD 10 (R351). -/
def ctxcfgReset : W64 := BitVec.ofNat 64 (10 + 64 * 2 ^ 5 + 10 * 2 ^ 16)

/-- OR bits into FPF (R208). -/
def Pack.orFpf (p : Pack) (f : Nat) : Pack := p.setSpecial sprFpf (p.special sprFpf ||| BitVec.ofNat 64 f)

/-- LEX0-LEX2 as one mask (R44). -/
def Pack.lex (p : Pack) : Mask :=
  setBeat (setBeat (setBeat 0 0 ((p.special sprLex).setWidth 32)) 1 ((p.special (sprLex + 1)).setWidth 32)) 2
    ((p.special (sprLex + 2)).setWidth 32)

/-- Write LEX0-LEX2. -/
def Pack.setLex (p : Pack) (m : Mask) : Pack :=
  ((p.setSpecial sprLex ((beatWord m 0).setWidth 64)).setSpecial (sprLex + 1) ((beatWord m 1).setWidth 64)).setSpecial
    (sprLex + 2) ((beatWord m 2).setWidth 64)

/-- OR lanes into LEX0-LEX2. -/
def Pack.orLex (p : Pack) (m : Mask) : Pack := if m = 0 then p else p.setLex (p.lex ||| m)

/-! ### The register files -/

/-- Perform one file write. s63, a0 and p7 discard it; a predicate keeps its other lanes (R179, R181, R182). -/
def Pack.apply (p : Pack) (w : FileW) : Pack :=
  match w with
  | .s r v => if r = 63 then p else { p with s := set 0 p.s r.toNat v }
  | .a r v => if r = 0 then p else { p with a := set ⟨0, 0, true⟩ p.a r.toNat v }
  | .p r m v =>
    if r = 7 then p else { p with p := upd 0 p.p r.toNat (fun old => (old &&& ~~~m) ||| (v &&& m)) }
  | .tok _ => p

/-- One outstanding instruction of a token fewer (R115). -/
def Split.tokDec (x : Split) (q : Nat) : Split := { x with tok := x.tok.set q (x.tok.getD q 0 - 1) }

/-- One outstanding instruction of a token more (R115). -/
def Split.tokInc (x : Split) (q : Nat) : Split := { x with tok := x.tok.set q (x.tok.getD q 0 + 1) }

/-- A token falls in cycle `t`. -/
def Split.tokFall (x : Split) (q t : Nat) : Split := { (x.tokDec q) with tokAt := x.tokAt.set q t }

/-- What a due write does to its own split: a token falls. -/
def Split.applyTok (x : Split) (w : FileW) (t : Nat) : Split :=
  match w with
  | .tok q => x.tokFall q t
  | _ => x

/-- The lanes of a bank row after an entry has been written to it (R118). -/
def Pack.bank (p : Pack) (e : WEntry) : Pack :=
  if e.live then
    { p with
      rows := upd zeroRow p.rows e.row (fun old => mergeRow e.mask old e.val)
      bad := if p.bad.isEmpty then p.bad else upd 0 p.bad e.row (fun m => m &&& ~~~e.mask) }
  else p

/-- Two file writes name one register. -/
def FileW.same (x y : FileW) : Bool :=
  match x, y with
  | .s i _, .s j _ => i == j
  | .a i _, .a j _ => i == j
  | .p i _ _, .p j _ _ => i == j
  | _, _ => false

/-- A file write of instruction `seq` is performed: older class-V results for the register no longer reach it (R116). -/
def Split.overtake (x : Split) (seq : Nat) (w : FileW) : Split :=
  { x with out := x.out.map (fun o =>
      if seq ≤ o.seq then o
      else match o.dest, w with
        | .s a, .s b _ => if a == b then { o with cut := [(0, BitVec.allOnes 96)] } else o
        | .p a, .p b m _ => if a == b then { o with cut := upd 0 o.cut 0 (fun k => k ||| m) } else o
        | _, _ => o) }

/-- The lanes of `m` of a row of the bank are written by instruction `seq`: older class-V results no longer reach them (R116). -/
def Split.overtakeRow (x : Split) (seq row : Nat) (m : Mask) : Split :=
  { x with out := x.out.map (fun o =>
      match o.dest with
      | .v r wide =>
        if o.seq < seq && (r == row || (wide && r + 1 == row)) then { o with cut := upd 0 o.cut row (fun k => k ||| m) } else o
      | _ => o) }

/-- The lanes of a row (of row 0: of a file register) that a class-V result of a split is too late for (R116). -/
def Split.cutOf (x : Split) (seq row : Nat) : Mask :=
  match x.out.find? (fun o => o.seq == seq) with
  | some o => get 0 o.cut row
  | none => 0

/-- Write an entry that left the window live to the bank (R118); no older result overtakes it (R116). -/
def Pack.bankOver (p : Pack) (e : WEntry) : Pack :=
  if e.live then
    { (p.bank e) with splits := p.splits.map (fun x => x.map (fun y => y.overtakeRow e.seq e.row e.mask)) }
  else p

/-- Perform every file write of a split that is due, in issue order. -/
def Pack.settleSplit (p : Pack) (i t : Nat) : Pack :=
  match p.split i with
  | none => p
  | some x =>
    let due := x.pw.filter (fun w => w.due ≤ t)
    if due.isEmpty then p
    else
      (due.foldl (fun q w => q.apply w.w) p).setSplit i
        (some { (due.foldl (fun y w => (y.applyTok w.w w.due).overtake w.seq w.w) x) with pw := x.pw.filter (fun w => t < w.due) })

/-- Perform every write of the pack that is due by cycle `t`: file writes of its splits, and window entries that left
their window before they were due (R114, R116). -/
def Pack.settle (p : Pack) (t : Nat) : Pack :=
  let q := (List.range 4).foldl (fun q i => q.settleSplit i t) p
  if q.late.isEmpty then q
  else
    let due := q.late.filter (fun e => e.due ≤ t)
    due.foldl (fun q e => q.bankOver e) { q with late := q.late.filter (fun e => t < e.due) }

/-- Change the pack of a view, its split in its place. -/
def View.onPack (v : View) (f : Pack → Pack) : View :=
  let p := f (v.pk.setSplit v.ix (some v.sp))
  match p.split v.ix with
  | some x => { v with pk := p, sp := x }
  | none => v

/-- The view with every write performed that is due when its next instruction issues. -/
def View.settle (v : View) : View := v.onPack (fun p => p.settle v.now)

/-- A uniform register as the split reads it (R179, R180, R356). -/
def View.rs (v : View) (r : SReg) : W64 :=
  if r = 63 then 0
  else if !v.svc && (60#6).ule r then (beatWord v.sp.mask (r.toNat - 60)).setWidth 64
  else get 0 v.pk.s r.toNat

/-- An affine register (R182). -/
def View.ra (v : View) (r : AReg) : Aff := if r = 0 then ⟨0, 1, false⟩ else get ⟨0, 0, true⟩ v.pk.a r.toNat

/-- The value lane L reads of an affine register, zero-extended (R182). -/
def Aff.lane (a : Aff) (L : Nat) : W64 :=
  let x := (a.b.toNat : Int) + (L : Int) * a.st.toInt
  BitVec.ofNat 64 (wrapN (if a.wide then 64 else 32) x)

/-- A predicate register (R181). -/
def View.rp (v : View) (r : PReg) : Mask := if r = 7 then BitVec.allOnes 96 else get 0 v.pk.p r.toNat

/-- A guard's lanes (R117). -/
def View.guard (v : View) (g : BitVec 4) : Mask :=
  let p := v.rp (g.setWidth 3)
  if g.getLsbD 3 then ~~~p else p

/-- The newest live entry of the operand window for a row that covers a lane and is due (R118). -/
def winFor (win : List WEntry) (row L t : Nat) : Option WEntry :=
  win.foldl (fun best e =>
    if e.row == row && e.live && e.due ≤ t && e.mask.getLsbD L then
      match best with
      | some b => if b.seq ≤ e.seq then some e else some b
      | none => some e
    else best) none

/-- The siblings of the view's split that keep results in a window of their own. -/
def View.siblings (v : View) : List (Nat × Split) :=
  (List.range 4).filterMap (fun j =>
    if j == v.ix then none
    else match v.pk.split j with
      | some y => if y.win.isEmpty then none else some (j, y)
      | none => none)

/-- The window entry that serves a lane of a row: of the split's own window, or, for a lane that a sibling owns, of the sibling's
(R118, R249). -/
def View.entryFor (v : View) (r L : Nat) : Option WEntry :=
  match v.siblings.find? (fun y => y.2.owned.getLsbD L) with
  | some y => winFor y.2.win r L v.now
  | none => winFor v.sp.win r L v.now

/-- A window row as the split reads it: lane by lane from the operand window that serves the lane, else from the bank (R118, R249). -/
def View.row (v : View) (r : Nat) : Row :=
  let b := get zeroRow v.pk.rows r
  if v.sp.win.any (fun e => e.row == r && e.live) || v.siblings.any (fun y => y.2.win.any (fun e => e.row == r && e.live)) then
    rowOf (fun L => match v.entryFor r L with | some e => lane e.val L | none => lane b L)
  else b

/-- The window with the entries of a list (row and number) marked dead. -/
def killIn (dead : List (Nat × Nat)) (win : List WEntry) : List WEntry :=
  if dead.isEmpty then win
  else win.map (fun e => if dead.contains (e.row, e.seq) then { e with live := false } else e)

/-- The entries of a window that served the lanes of `m` of a row: row and number. -/
def served (win : List WEntry) (r : Nat) (m : Mask) (t : Nat) : List (Nat × Nat) :=
  (lanesOf m).filterMap (fun L => (winFor win r L t).map (fun e => (r, e.seq)))

/-- The entries that served the lanes of `m` of a row are marked dead once the instruction has read all its sources
(R118); those that stand in the window of a sibling, there (R249). -/
def View.kill (v : View) (r : Nat) (m : Mask) : View :=
  let v := v.siblings.foldl (fun (v : View) y =>
    { v with pk := v.pk.updSplit y.1 (fun z => { z with win := killIn (served z.win r (m &&& z.owned) v.now) z.win }) }) v
  let mine := v.siblings.foldl (fun m y => m &&& ~~~y.2.owned) m
  { v with dead := v.dead ++ served v.sp.win r mine v.now }

/-- The operand window with the entries marked dead. -/
def View.winDead (v : View) : List WEntry := killIn v.dead v.sp.win

/-- Rows of the v, w and c views (R186). -/
def View.vrow (v : View) (n : VReg) : Nat := fld (v.pk.special sprViewv) 0 12 + n.toNat
def View.wrow (v : View) (n : VReg) : Nat := fld (v.pk.special sprViewv) 0 12 + 2 * n.toNat
def View.crow (v : View) (n : CReg) : Nat := fld (v.pk.special sprViewc) 0 12 + 128 * n.toNat

/-- A varying register: its row, and the second row of a w register. -/
def View.vreg (v : View) (is64 : Bool) (n : VReg) : Nat × Bool := if is64 then (v.wrow n, true) else (v.vrow n, false)

/-- A varying source, lane by lane; a v element is zero-extended. -/
def View.rv (v : View) (is64 : Bool) (n : VReg) (L : Nat) : W64 :=
  if is64 then join64 (lane (v.row (v.wrow n)) L) (lane (v.row (v.wrow n + 1)) L)
  else (lane (v.row (v.vrow n)) L).setWidth 64

/-- The elements of a varying source, all lanes. -/
def View.rvAll (v : View) (is64 : Bool) (n : VReg) : List W64 :=
  if is64 then
    let lo := v.row (v.wrow n)
    let hi := v.row (v.wrow n + 1)
    lanes.map (fun L => join64 (lane lo L) (lane hi L))
  else
    let lo := v.row (v.vrow n)
    lanes.map (fun L => (lane lo L).setWidth 64)

/-- A lane of a list of elements. -/
def el (xs : List W64) (L : Nat) : W64 := xs.getD L 0

/-- Mark a last use, if its bit is set, of the rows of a source over the lanes it served (R118, R188). -/
def View.lastUse (v : View) (is64 : Bool) (x : VSrc) (m : Mask) : View :=
  if !x.last then v
  else if is64 then (v.kill (v.wrow x.reg) m).kill (v.wrow x.reg + 1) m
  else v.kill (v.vrow x.reg) m

/-- Older pending writes to the register of `w` are performed no later than `w`, at cycle `t` (R114, R116); of a predicate, in the
lanes that `w` writes. -/
def hastenFile (pw : List PWrite) (w : FileW) (t : Nat) : List PWrite :=
  pw.flatMap (fun x =>
    if x.due ≤ t || !x.w.same w then [x]
    else match x.w, w with
      | .p a m v, .p _ n _ =>
        (if m &&& n = 0 then [] else [⟨t, x.seq, .p a (m &&& n) v⟩]) ++
        (if m &&& ~~~n = 0 then [] else [⟨x.due, x.seq, .p a (m &&& ~~~n) v⟩])
      | _, _ => [⟨t, x.seq, x.w⟩])

/-- The same of window rows: older entries for the lanes of `m` of a row are performed no later than at cycle `t`. -/
def hastenRow (es : List WEntry) (seq row : Nat) (m : Mask) (t : Nat) : List WEntry :=
  es.flatMap (fun e =>
    if e.row != row || e.due ≤ t || seq ≤ e.seq || e.mask &&& m = 0 then [e]
    else { e with mask := e.mask &&& m, due := t } ::
      (if e.mask &&& ~~~m = 0 then [] else [{ e with mask := e.mask &&& ~~~m }]))

/-- A file write of the view's instruction is performed `lat` cycles from now. -/
def View.queueFile (v : View) (w : FileW) (lat : Nat) : View :=
  { v with sp := { v.sp with pw := hastenFile v.sp.pw w (v.now + lat) ++ [⟨v.now + lat, v.sp.seq, w⟩] } }

/-- Write mask words: each is ANDed with the owned lanes of its beat, and a mask that would be empty changes nothing
(R180). -/
def Split.setMask (x : Split) (ws : List (Nat × W32)) : Split :=
  let m := ws.foldl (fun m (b, y) => setBeat m b (y &&& beatWord x.owned b)) x.mask
  if m = 0 then x else { x with mask := m }

/-- Write mask words; the next instruction does not issue before the write is performed (R180). -/
def View.wmask (v : View) (ws : List (Nat × W32)) (lat : Nat) : View :=
  { v with sp := { (v.sp.setMask ws) with next := max v.sp.next (v.now + lat) } }

/-- Write a uniform result at its latency (R114, R179, R180). -/
def View.ws (v : View) (r : SReg) (x : W64) (lat : Nat) : View :=
  if r = 63 then v
  else if !v.svc && (60#6).ule r then v.wmask [(r.toNat - 60, x.setWidth 32)] lat
  else v.queueFile (.s r x) lat

/-- Write an affine result. -/
def View.wa (v : View) (r : AReg) (x : Aff) (lat : Nat) : View := v.queueFile (.a r x) lat

/-- Write the lanes of `m` of a predicate; a write to p7 is discarded (R181). -/
def View.wp (v : View) (r : PReg) (m x : Mask) (lat : Nat) : View :=
  if r = 7 then v else v.queueFile (.p r m x) lat

/-- A varying result enters the operand window for the lanes of `m` (R118). -/
def View.wrow1 (v : View) (row : Nat) (m : Mask) (x : Row) (lat : Nat) : View :=
  { v with
    pk := { v.pk with late := hastenRow v.pk.late v.sp.seq row m (v.now + lat) }
    sp := { v.sp with win := hastenRow v.sp.win v.sp.seq row m (v.now + lat) ++ [⟨v.sp.seq, row, m, x, true, v.now + lat⟩] } }

/-- Write a varying register, of the v or the w view, over the lanes of `m`. -/
def View.wv (v : View) (is64 : Bool) (n : VReg) (m : Mask) (f : Nat → W64) (lat : Nat) : View :=
  if is64 then
    (v.wrow1 (v.wrow n) m (rowOf (fun L => (f L).setWidth 32)) lat).wrow1 (v.wrow n + 1) m
      (rowOf (fun L => (f L).extractLsb' 32 32)) lat
  else v.wrow1 (v.vrow n) m (rowOf (fun L => (f L).setWidth 32)) lat

/-- Entries leave a window at cycle `t`, in issue order (R118): a live one goes to the bank, when it is due. -/
def Pack.leave (p : Pack) (es : List WEntry) (t : Nat) : Pack :=
  let es := sortBy (fun x y => decide (x.seq ≤ y.seq)) es
  let q := (es.filter (fun e => e.due ≤ t)).foldl (fun (q : Pack) e => q.bankOver e) p
  { q with late := q.late ++ es.filter (fun e => e.live && decide (t < e.due)) }

/-- The operand window of the split in entry `i` leaves at once, at cycle `t` (R118). -/
def Pack.flushAt (p : Pack) (i t : Nat) : Pack :=
  match p.split i with
  | none => p
  | some x => (p.setSplit i (some { x with win := [], flushed := x.seq })).leave x.win t

/-- The operand window of the view's split leaves at once (R118). -/
def View.flush (v : View) : View := v.onPack (fun p => p.flushAt v.ix v.now)

/-- An older entry that has left its window and is not yet due, for lanes that an entry writes. -/
def WEntry.before (l e : WEntry) : Bool := l.row == e.row && decide (l.seq < e.seq) && decide (l.mask &&& e.mask ≠ 0)

/-- Write a row of the bank after the older results for its lanes that have left their window and are not yet due (R116). -/
def Pack.bankAfter (p : Pack) (e : WEntry) : Pack :=
  let q := (p.late.filter (fun l => l.before e)).foldl (fun (q : Pack) l => q.bankOver { l with mask := l.mask &&& e.mask }) p
  let rest := p.late.flatMap (fun l =>
    if l.before e then (if l.mask &&& ~~~e.mask = 0 then [] else [{ l with mask := l.mask &&& ~~~e.mask }]) else [l])
  ({ q with late := rest } : Pack).bankOver e

/-- A class-V result of instruction `seq` for a uniform or predicate register is performed: after the older writes of its split to
the register, and not over a later one that has been performed (R116). -/
def Pack.applyAt (p : Pack) (i seq : Nat) (w : FileW) : Pack :=
  match p.split i with
  | none => p.apply w
  | some x =>
    let cut := x.cutOf seq 0
    let old (y : PWrite) : Bool := y.w.same w && decide (y.seq < seq)
    let q := (x.pw.filter old).foldl (fun (q : Pack) y => q.apply y.w)
      (p.setSplit i (some ({ x with pw := x.pw.filter (fun y => !old y) }.overtake seq w)))
    match w with
    | .p r m y => q.apply (.p r (m &&& ~~~cut) y)
    | _ => if cut = 0 then q.apply w else q

/-- A result that comes while its split issues nothing is performed after every write of the split to the register. -/
def Pack.applyAfter (p : Pack) (i : Nat) (w : FileW) : Pack :=
  match p.split i with
  | some x => p.applyAt i x.seq w
  | none => p.apply w

/-- A class-V result arrives for a row of a split: as an entry while its word is one of the last eight and the window has
not left since, else in the bank (R118), but for lanes that a later write has reached (R116). -/
def Pack.arriveRow (p : Pack) (i seq row : Nat) (m : Mask) (x : Row) : Pack :=
  match p.split i with
  | some sp =>
    let e : WEntry := ⟨seq, row, m &&& ~~~sp.cutOf seq row, x, true, 0⟩
    if sp.seq ≤ seq + 8 && sp.flushed ≤ seq then
      ({ p with late := hastenRow p.late seq row e.mask 0 } : Pack).setSplit i
        (some { sp with win := hastenRow sp.win seq row e.mask 0 ++ [e] })
    else p.bankAfter e
  | none => p.bankAfter ⟨seq, row, m, x, true, 0⟩

/-! ### Taking an exception (R348, R349, R353, R358) -/

/-- Fault codes (R353). -/
def fcIllegalOp : Nat := 0x01
def fcIllegalField : Nat := 0x02
def fcFetchAlign : Nat := 0x03
def fcIllegalPair : Nat := 0x04
def fcPrivilege : Nat := 0x05
def fcUniformSplit : Nat := 0x06
def fcAffineOverflow : Nat := 0x07
def fcIllegalConvergence : Nat := 0x08
def fcStallShort : Nat := 0x09
def fcViewBounds : Nat := 0x0A
def fcScratchBounds : Nat := 0x0B
def fcPageFault : Nat := 0x0C
def fcProtection : Nat := 0x0D
def fcAliasAttr : Nat := 0x0E
def fcRace : Nat := 0x0F
def fcOwnerLost : Nat := 0x10
def fcIntegrity : Nat := 0x11
def fcDataUe : Nat := 0x12
def fcDivZero : Nat := 0x13
def fcBrxRange : Nat := 0x14
def fcDivergenceDepth : Nat := 0x15
def fcRegGrowDenied : Nat := 0x16
def fcTrap : Nat := 0x17
def fcBreak : Nat := 0x18
def fcMsgDesc : Nat := 0x19
def fcXferRecord : Nat := 0x1A
def fcTileRecord : Nat := 0x1B
def fcSvcRecord : Nat := 0x1C
def fcViewAbort : Nat := 0x1D
def fcWatchdog : Nat := 0x1E

/-- FINFO: reason, level, kind, lane and ASID (R43). -/
def finfo (reason level kind lane asid : Nat) : W64 :=
  BitVec.ofNat 64 (reason % 16 + (level % 4) * 2 ^ 4 + (kind % 8) * 2 ^ 6 + (lane % 128) * 2 ^ 9 + (asid % 65536) * 2 ^ 16)

/-- The record of a fault at the split's instruction: code, FVA, REASON, LEVEL, KIND, LANE and the lanes for LEX. -/
def View.faultRec (v : View) (code : Nat) (fva : W64) (reason level kind ln : Nat) (lex : Mask) : FaultRec :=
  ⟨code, v.sp.pc, fva, finfo reason level kind ln v.pk.asid, lex⟩

/-- The mailbox event that tells a shard of a kennel record, a failed cluster or another event (R368). -/
def State.postEvent (s : State) (cluster : Nat) (e : SvcEvent) : State :=
  s.updCore (64 + cluster) (fun c => if c.events.contains e then c else { c with events := c.events ++ [e] })

/-- PART_CLU of partition `p` (R19): its clusters. PART_CTL.EN is bit 0 of PART_CTL. -/
def partBase (p : Nat) : Nat := 0x10_0000 + 0x40 * p

/-- The partition that owns a cluster, if one is enabled over it (R18, R19). -/
def State.partOfCluster (s : State) (n : Nat) : Option Nat :=
  findBelow 32 (fun p => bit (s.mreg 0 (partBase p)) 0 && bit (s.mreg 0 (partBase p + 0x08)) n)

/-- The service core of the next cluster in ascending number within the partition, wrapping (R358): whether it works is not asked. -/
def State.nextShard (s : State) (n : Nat) : Option Nat :=
  match s.partOfCluster n with
  | none => none
  | some p =>
    ((List.range 32).map (fun k => (n + 1 + k) % 32)).find? (fun m =>
      m != n && bit (s.mreg 0 (partBase p + 0x08)) m)

/-- A fault while EXL = 1 fails the service core: it stops, its cluster's cores are quarantined, their packs end with
the fault's code, and the next shard is told (R358). The quarantine itself is the event CORE_QUARANTINE of each core,
which goes next. -/
def State.failService (s : State) (n code : Nat) : State :=
  let endPack (e : Nat × Pack) : Nat × Pack :=
    (e.1, { e.2 with ended := true, stop := some ⟨1, some ⟨code, 0, 0, 0, 0⟩, 0, false, true, false⟩ })
  let ends (c : Core) : Core := { c with packs := c.packs.map endPack }
  let s := s.updCore (64 + n) (fun c => { c with failed := true })
  let s := (s.updCore (2 * n) ends).updCore (2 * n + 1) ends
  let s := { s with agenda := .ev (.coreQuarantine (2 * n)) :: .ev (.coreQuarantine (2 * n + 1)) :: s.agenda }
  match s.nextShard n with
  | some m => s.postEvent m ⟨5, n, 0, 0, 0, 0⟩
  | none => s

/-- The instructions that the core has issued and that complete by an event are all complete (R358). -/
def Core.drained (c : Core) : Bool :=
  c.ops.isEmpty && c.landing.isEmpty && c.divq.isEmpty && c.sfuq.isEmpty && c.mbwait.isNone

/-- Enter the exception handler of a service core (R358): EPC, ECAUSE, EFVA and EFINFO are written, EXL is set, and the
PC goes to EVEC; the handler issues once every result of the instructions before it is written. `epc` is the faulting
instruction or the successor, as R357 states for the cause. -/
def View.enter (v : View) (cause : Nat) (epc fva info : W64) : State :=
  if v.co.exl then v.close.failService (v.ag - 64) cause
  else
    { v with
      co := { v.co with epc := epc, ecause := BitVec.ofNat 64 (cause % 256), efva := fva, efinfo := info, exl := true }
      pk := { v.pk with stop := none }
      sp := { v.sp with pc := v.co.evec, next := (v.sp.pw.map (fun (w : PWrite) => w.due)).foldl max (v.now + 1), hold := none, xl := [],
                        phase := 0 } }.close

/-- Return from the exception handler (R369): PC := EPC and EXL := 0. -/
def View.eret (v : View) : View :=
  { v with co := { v.co with exl := false }, sp := { v.sp with pc := v.co.epc, next := v.now + 1, xl := [] } }

/-- A pack stops for a fault of one of its splits (R348, R349): the first is the primary fault, and a later one is
recorded in its split's entry. `succ` says that the instruction completed, so the split resumes after it. -/
def Pack.stopFor (p : Pack) (i : Nat) (f : FaultRec) (succ : Bool) : Pack :=
  let p := p.orLex f.lex
  match p.stop with
  | none => { p with stop := some ⟨1, some f, i, succ, false, false⟩ }
  | some _ => p.updSplit i (fun x => { x with sec := some f })

/-- Raise a fault at the view's instruction (R112, R348, R357): the pack of a compute core stops with nothing of the
instruction performed; a service core enters its handler, once the instructions before it are complete (R358). -/
def View.raise (v : View) (f : FaultRec) : State :=
  if v.svc then (if v.co.drained then v.enter f.code f.pc f.fva f.finfo else v.close)
  else
    match v.pk.stop with
    | none =>
      { v with pk := { (v.pk.orLex f.lex) with stop := some ⟨1, some f, v.ix, false, false, false⟩ }
               sp := { v.sp with xl := [] } }.close
    | some _ => { v with pk := v.pk.orLex f.lex, sp := { v.sp with xl := [], sec := some f } }.close

/-- A fault with FVA 0, REASON 0 and LANE 127. -/
def View.raise0 (v : View) (code : Nat) : State := v.raise (v.faultRec code 0 0 0 0 127 0)

end Sys2Proof.Machine
end

