-- ==== Sys2Proof/Machine/Splits.lean ====
section
/-! DEFINITION. Splits, heel records and the deferred list: dividing, merging, ending and forced reconvergence
(R295-R303). -/

namespace Sys2Proof.Machine

/-- The heel record in an entry. -/
def Pack.heel (p : Pack) (i : Nat) : Option Heel := p.heels.getD i none

/-- Put a heel record, or nothing, in an entry. -/
def Pack.setHeel (p : Pack) (i : Nat) (h : Option Heel) : Pack := { p with heels := p.heels.set i h }

/-- The lowest free entry of the heel table (R295). -/
def Pack.freeHeel (p : Pack) : Option Nat := findBelow 16 (fun i => (p.heel i).isNone)

/-- The lowest free entry of the split table. -/
def Pack.freeSplit (p : Pack) : Option Nat := findBelow 4 (fun i => (p.split i).isNone)

/-- The live splits and deferred paths of a pack (R192). -/
def Pack.paths (p : Pack) : Nat := (p.splits.filter (fun x => x.isSome)).length + p.deferred.length

/-- Every token of the split is ready (R115). -/
def Split.quiet (x : Split) : Bool := x.tok.all (fun n => n == 0)

/-- The number from which a new split counts its instructions: above every number used in the pack. -/
def Pack.newSeq (p : Pack) : Nat :=
  (p.splits.foldl (fun n x => match x with | some y => max n y.seq | none => n) p.sq) + 1

/-- Put a new split in an entry (R295, R296): READY at its PC from cycle `t`. -/
def Pack.place (p : Pack) (i t : Nat) (pc : W64) (owned mask : Mask) (r : Option Nat) : Pack :=
  let n := p.newSeq
  { p with sq := n }.setSplit i
    (some { (Split.start pc owned) with
      mask := mask, heelRec := r, next := t, since := t, first := n, seq := n, flushed := n })

/-- Free a split-table entry: the oldest deferred path becomes a live split in it (R301). -/
def Pack.freeEntry (p : Pack) (i t : Nat) : Pack :=
  match p.deferred with
  | [] => { p with sq := p.newSeq }.setSplit i none
  | d :: ds => { p with deferred := ds }.place i t d.pc d.owned d.mask d.heelRec

/-- Write the file results of a split that have not yet been performed, before it goes. -/
def Pack.drainFiles (p : Pack) (i : Nat) : Pack :=
  match p.split i with
  | none => p
  | some x => (x.pw.foldl (fun q w => q.apply w.w) p).setSplit i (some { x with pw := [] })

/-- Merge split `j` into split `i` (R298, R299): owned sets and masks are united, both windows have left, tokens are 0,
and the entry of `j` is freed; what `j` has issued and not yet seen performed is performed in its time. The numbers of `i` go on above
both, and it issues from cycle `t` on, in which the tokens of both are ready. -/
def Pack.mergeInto (p : Pack) (i j t : Nat) : Pack :=
  let p := (p.flushAt i t).flushAt j t
  match p.split i, p.split j with
  | some x, some y =>
    let n := max x.seq y.seq
    (p.setSplit i (some { x with owned := x.owned ||| y.owned, mask := x.mask ||| y.mask, next := max t (max x.next y.next)
                                 pw := x.pw ++ y.pw, seq := n, flushed := n })).freeEntry j t
  | _, _ => p

/-- One path of a record is gone: PENDING falls by 1. -/
def Pack.pendDec (p : Pack) (r : Option Nat) : Pack :=
  match r with
  | none => p
  | some k =>
    match p.heel k with
    | none => p
    | some h => p.setHeel k (some { h with pending := h.pending - 1 })

/-- Complete a record with its parked split: the split is READY at the heel with the parent record (R298, R300). -/
def Pack.complete (p : Pack) (k t : Nat) : Pack :=
  match p.heel k with
  | none => p
  | some h =>
    match h.parked with
    | none => p
    | some j =>
      (p.updSplit j (fun x => { x with st := .ready, pc := h.pc, heelRec := h.parent, next := max x.next t, since := t })).setHeel
        k none

/-- A split arrives at the heel of its innermost record (R298). -/
def Pack.arrive (p : Pack) (i t : Nat) : Pack :=
  match p.split i with
  | none => p
  | some x =>
    match x.heelRec with
    | none => p
    | some k =>
      match p.heel k with
      | none => p
      | some h =>
        let p := p.pendDec (some k)
        let p :=
          match h.parked with
          | some j => p.mergeInto j i t
          | none =>
            let p := (p.flushAt i t).updSplit i (fun x => { x with st := .heel })
            match p.heel k with
            | some h => p.setHeel k (some { h with parked := some i })
            | none => p
        match p.heel k with
        | some h => if h.pending = 0 then p.complete k t else p
        | none => p

/-- A split that owns nothing any more has ended: its records count one path fewer, up to the first that still has one
(R300). `fuel` bounds the chain of parents by the table's 16 entries. -/
def Pack.vanish (p : Pack) (r : Option Nat) (t : Nat) : Nat → Pack
  | 0 => p
  | fuel + 1 =>
    match r with
    | none => p
    | some k =>
      match p.heel k with
      | none => p
      | some h =>
        let p := p.setHeel k (some { h with pending := h.pending - 1 })
        if h.pending - 1 > 0 then p
        else
          match h.parked with
          | some _ => p.complete k t
          | none => (p.setHeel k none).vanish h.parent t fuel

/-- A path of a divergence: where it goes, what it owns and masks. -/
structure Path where
  pc : W64
  owned : Mask
  mask : Mask
  deriving DecidableEq, Repr

/-- There is room for a divergence into `n` paths (R297). -/
def Pack.roomFor (p : Pack) (n : Nat) : Bool :=
  p.freeHeel.isSome &&
  decide (n - 1 ≤ (p.splits.filter (fun x => x.isNone)).length + (32 - p.deferred.length))

/-- Place a further path of a divergence: in a free split-table entry, else at the end of the deferred list (R296). -/
def Pack.addPath (p : Pack) (k : Nat) (t : Nat) (x : Path) : Pack :=
  match p.freeSplit with
  | some j => p.place j t x.pc x.owned x.mask (some k)
  | none => { p with deferred := p.deferred ++ [⟨x.pc, x.owned, x.mask, some k⟩] }

/-- Divide split `i` into the paths given, in path order, with heel `h` (R296): the first path keeps the entry. -/
def Pack.diverge (p : Pack) (i t : Nat) (h : W64) (first : Path) (rest : List Path) : Pack :=
  match p.freeHeel, p.split i with
  | some k, some x =>
    let p := p.setHeel k (some ⟨h, rest.length + 1, x.heelRec, none⟩)
    let p := p.updSplit i (fun x =>
      { x with pc := first.pc, owned := first.owned, mask := first.mask, heelRec := some k, st := .ready, since := t })
    rest.foldl (fun p y => p.addPath k t y) p
  | _, _ => p

/-- A sibling is settled for a pack-wide instruction at PC X (R303). -/
def Split.settled (x : Split) (pc : W64) : Bool :=
  (x.pc == pc && x.hold.isNone && x.sec.isNone) ||
  (match x.st with
    | .waiting _ => true
    | .heel => true
    | .reconv => true
    | .ready => false)

/-- Every sibling of split `i` is settled. -/
def Pack.allSettled (p : Pack) (i : Nat) (pc : W64) : Bool :=
  (List.range 4).all (fun j => j == i || (match p.split j with | none => true | some y => y.settled pc))

/-- A sibling standing at X that can take part: READY or RECONV there, with its tokens ready for a merge. -/
def Split.standsAt (x : Split) (pc : W64) : Bool :=
  x.pc == pc && x.hold.isNone && x.sec.isNone && (match x.st with | .ready => true | .reconv => true | _ => false)

/-- Step 1 of R303: every sibling at X with the same innermost record and ready tokens merges into split `i`. -/
def Pack.mergeAt (p : Pack) (i t : Nat) (pc : W64) : Pack :=
  (List.range 4).foldl (fun p j =>
    match p.split i, p.split j with
    | some x, some y =>
      if j != i && y.standsAt pc && y.heelRec == x.heelRec && x.quiet && y.quiet then
        (p.mergeInto i j t).pendDec x.heelRec
      else p
    | _, _ => p) p

/-- Step 2 of R303: the splits still standing at X beside split `i`, and the union of all masks there. -/
def Pack.joined (p : Pack) (i : Nat) (pc : W64) : List Nat :=
  (List.range 4).filter (fun j => j != i && (match p.split j with | some y => y.standsAt pc | none => false))

/-- The union of the masks of split `i` and of the splits that joined. -/
def Pack.unionMask (p : Pack) (i : Nat) (js : List Nat) : Mask :=
  (i :: js).foldl (fun m j => match p.split j with | some y => m ||| y.mask | none => m) 0

/-- Force reconvergence of split `i` at its PC (R303): merge what merges, and record the union and the splits that go on
with it. -/
def Pack.reconverge (p : Pack) (i t : Nat) : Pack :=
  match p.split i with
  | none => p
  | some x =>
    let p := p.mergeAt i t x.pc
    let js := p.joined i x.pc
    let m := p.unionMask i js
    p.updSplit i (fun x => { x with rc := some (m, js), st := .ready })

/-- The split left its live lanes: retire the lanes of `m` of split `i` (R312). -/
def Pack.retire (p : Pack) (i : Nat) (m : Mask) : Pack :=
  { (p.updSplit i (fun x => { x with owned := x.owned &&& ~~~m, mask := x.mask &&& ~~~m })) with live := p.live &&& ~~~m }

end Sys2Proof.Machine
end

