-- ==== Sys2Proof/WellFormed.lean ====
section
/-! DEFINITION. Which instruction terms have a word: the lengths, types and field limits of R104-R125 and of each
chapter's form tables. A word that breaks one of these faults ILLEGAL_FIELD or, for a length, ILLEGAL_OP (R112). -/

namespace Sys2Proof

/-- The 64-bit integer types, whose varying operands are w names (R220). -/
def IType.is64 : IType → Bool
  | .i32 | .n32 => false
  | .i64 | .n64 => true

/-- The signed types (R218). -/
def IType.signed : IType → Bool
  | .i32 | .i64 => true
  | .n32 | .n64 => false

def PType.is64 : PType → Bool
  | .i64 | .n64 => true
  | _ => false

def Ty.is64 : Ty → Bool
  | .i64 | .n64 => true
  | _ => false

/-- The integer types of the full type code (R110). -/
def Ty.isInt : Ty → Bool
  | .i32 | .n32 | .i64 | .n64 | .i8 | .n8 | .i16 | .n16 => true
  | _ => false

/-- A name of the view the type asks for: w names are w0-w1023 (R109, R186). -/
def nameOk (is64 : Bool) (r : VReg) : Bool := !is64 || r.ult 1024

/-- SETQ is 0-5 or 7 (R106). -/
def Ctl.ok (c : Ctl) : Bool := c.setq != 6

/-- The word's length is one of those listed. -/
def Ctl.lenIn (c : Ctl) (ls : List Len) : Bool := ls.contains c.len

/-- The word is unguarded (R117). -/
def Ctl.unguarded (c : Ctl) : Bool := c.guard == 7

/-- A register operand takes length `lr`, an immediate length `li` (R220). -/
def USrc.lenOk (b : USrc) (c : Ctl) (lr li : Len) : Bool :=
  match b with
  | .reg _ => c.len == lr
  | .imm _ => c.len == li

/-- Bits [31:16] of an immediate are 0 (R221, R253, R255). -/
def USrc.imm16 (b : USrc) : Bool :=
  match b with
  | .reg _ => true
  | .imm v => v.ult 0x10000

/-- The lengths of a two-source varying form: short or long with a register, long with a uniform register, wide with an
immediate; `sh` says whether the form has a short word (R220, R236). -/
def VOpnd.lenOk (b : VOpnd) (c : Ctl) (sh wd : Bool) : Bool :=
  match b with
  | .v _ => c.len == .long || (sh && c.len == .short)
  | .s _ => c.len == .long
  | .imm _ => wd && c.len == .wide

/-- A varying operand is named in the view of the type. -/
def VOpnd.nameOk (b : VOpnd) (is64 : Bool) : Bool :=
  match b with
  | .v x => Sys2Proof.nameOk is64 x.reg
  | _ => true

/-- Only the long word carries a rounding mode; SR is for conversions (R110, R236, R237). -/
def Rnd.lenOk (r : Rnd) (c : Ctl) : Bool := r != .sr && (c.len == .long || r == .rne)

/-- A two-source varying integer form (R220). -/
def wfV2 (c : Ctl) (ty : IType) (d : VReg) (a : VSrc) (b : VOpnd) : Bool :=
  c.ok && b.lenOk c true true && nameOk ty.is64 d && nameOk ty.is64 a.reg && b.nameOk ty.is64

/-- A one-source varying integer form (R220). -/
def wfV1 (c : Ctl) (ty : IType) (d : VReg) (a : VSrc) : Bool :=
  c.ok && c.lenIn [.short] && nameOk ty.is64 d && nameOk ty.is64 a.reg

/-- The two-source uniform forms (R220). -/
def wfU2 (c : Ctl) (b : USrc) : Bool := c.ok && b.lenOk c .short .long

/-- A two-source float form with rounding (R236). -/
def wfF2 (c : Ctl) (r : Rnd) (b : VOpnd) : Bool := c.ok && b.lenOk c true true && r.lenOk c

/-- A 32-bit or 64-bit immediate: long of every type, wide of the 64-bit types (R226). -/
def Imm.ok (v : Imm) (c : Ctl) (is64 : Bool) : Bool :=
  match v with
  | .i32 _ => c.len == .long
  | .i64 _ => c.len == .wide && is64

/-- The types a conversion form accepts, and where SR and its random operand may stand (R245). -/
def cvtOk (dst src : Ty) (r : Rnd) : Bool :=
  dst != src && !(dst.isInt && src.isInt) &&
  (r != .sr || [.f16, .bf16, .mf8, .mf8n, .i8, .n8, .i16, .n16].contains dst)

/-- The random operand is absent unless the rounding is SR (R245). -/
def rbOk (r : Rnd) (rb : VSrc) : Bool := r == .sr || (rb.reg == 0 && !rb.last)

/-- The access types of R135; .F32 is an atomic's alone. -/
def Ty.memOk : Ty → Bool
  | .i8 | .n8 | .i16 | .n16 | .i32 | .n32 | .i64 | .n64 => true
  | _ => false

/-- A short memory word has TYPE .I32 and offset 0 (R132). -/
def memLen (c : Ctl) (ty : Ty) (off : BitVec 24) : Bool :=
  c.ok && (c.len == .wide || (c.len == .short && ty == .i32 && off == 0))

/-- The varying address register is a w name in a global access (R134). -/
def Addr.ok (ad : Addr) (glob : Bool) : Bool :=
  match ad with
  | .v x => nameOk glob x.reg
  | _ => true

/-- A short ordering word has scope DEVICE (R132). -/
def scopeLen (c : Ctl) (sc : Scope) : Bool := c.len == .wide || sc == .device

/-- The types an atomic operation accepts, its scope and its compare operand (R146). -/
def atomOk (op : AOp) (aq rl : Bool) (ty : Ty) (sc : Scope) (cmpZero : Bool) : Bool :=
  (if op == .fadd then ty == .f32 else [Ty.i32, .n32, .i64, .n64].contains ty) &&
  (aq || rl || sc == .pack) && (op == .cas || cmpZero)

/-- A branch offset is a multiple of 4 (R306). -/
def offOk (o : W32) : Bool := o.extractLsb' 0 2 == 0

/-- The special registers of a pack: R190 and the identity registers of R283. -/
def packSpecial (n : W32) : Bool :=
  n.ule 0x008 || (W32le 0x010 n 0x013) || (W32le 0x018 n 0x01F) || (W32le 0x020 n 0x031) || (W32le 0x040 n 0x05F)
where
  /-- `lo ≤ n ≤ hi`. -/
  W32le (lo n hi : W32) : Bool := lo.ule n && n.ule hi

/-- The special registers of a service core itself (R359). -/
def svcSpecial (n : W32) : Bool := (0x100#32).ule n && n.ule 0x105

/-- The types a dovetail half accepts for its operation (R120). -/
def HOp.tyOk (op : HOp) (ty : Ty) : Bool :=
  match op with
  | .vadd | .vsub | .vand | .vor | .vxor | .vandn | .vshl | .vshr | .vsra | .vmov | .vnot | .vabs | .vneg | .vclz
  | .vpopc | .vmul => ty == .i32 || ty == .n32
  | .vmin | .vmax | .vmulh => ty == .i32
  | .vminn | .vmaxn | .vmulhn => ty == .n32
  | .vfadd | .vfsub | .vfmin | .vfmax | .vfmul => ty == .f32
  | .vhadd2 | .vhmul2 => ty == .f16 || ty == .bf16

/-- The pair classes of R120. -/
inductive PairClass | ia | im | fa | fm | hp
  deriving DecidableEq, Repr

/-- The class of an operation (R120). -/
def HOp.cls : HOp → PairClass
  | .vmul | .vmulh | .vmulhn => .im
  | .vfadd | .vfsub | .vfmin | .vfmax => .fa
  | .vfmul => .fm
  | .vhadd2 | .vhmul2 => .hp
  | _ => .ia

/-- One-source operations leave SB and LB at 0 (R120). -/
def HOp.unary : HOp → Bool
  | .vmov | .vnot | .vabs | .vneg | .vclz | .vpopc => true
  | _ => false

/-- The operations whose half has a rounding mode: the others carry RM 00 (R119). Minimum and maximum never round, so
their RM is a rounding field without effect, as in their class FA. -/
def HOp.isFloat (op : HOp) : Bool :=
  match op.cls with
  | .ia | .im => false
  | _ => true

/-- One half by itself: the field checks of R119 and R120. -/
def Half.ok (h : Half) : Bool :=
  h.op.tyOk h.ty && h.rnd != .sr && (h.op.isFloat || h.rnd == .rne) &&
  (!h.op.unary || (h.b.reg == 0 && !h.b.last))

/-- Register numbers in different banks, or the same register (R121). -/
def banksOk (x y : VReg) : Bool := x == y || x.extractLsb' 0 2 != y.extractLsb' 0 2

/-- The pairing rules 2-4 of R121. -/
def pairOk (x y : Half) : Bool :=
  x.op.cls != y.op.cls && banksOk x.a.reg y.a.reg && (x.op.unary || y.op.unary || banksOk x.b.reg y.b.reg) &&
  x.d.extractLsb' 0 2 != y.d.extractLsb' 0 2

/-- The forms with a signedness fixed by the opcode (R218). -/
def wfSgn (ty : IType) (signed : Bool) : Bool := ty.signed == signed

/-- The instruction has a word. An event is no word and is well formed by itself. -/
def wf (i : Instr) : Bool :=
  match i with
  | .sadd c _ _ _ b | .ssub c _ _ _ b | .smul c _ _ _ b | .sand c _ _ _ b | .sor c _ _ _ b | .sxor c _ _ _ b
  | .sandn c _ _ _ b | .sshl c _ _ _ b | .sshr c _ _ _ b | .ssra c _ _ _ b => wfU2 c b
  | .smulh c ty _ _ b | .sdiv c ty _ _ b | .srem c ty _ _ b | .smin c ty _ _ b | .smax c ty _ _ b =>
    wfU2 c b && wfSgn ty true
  | .smulhn c ty _ _ b | .sdivn c ty _ _ b | .sremn c ty _ _ b | .sminn c ty _ _ b | .smaxn c ty _ _ b =>
    wfU2 c b && wfSgn ty false
  | .sclz c _ _ _ | .spopc c _ _ _ | .smov c _ _ _ => c.ok && c.lenIn [.short]
  | .sbfx c _ _ _ b => wfU2 c b && b.imm16
  | .sbfi c _ _ _ _ b => c.ok && b.lenOk c .long .wide && b.imm16
  | .ssel c _ _ _ _ _ => c.ok && c.lenIn [.long]
  | .smovi c ty _ v => c.ok && v.ok c ty.is64
  | .scmp c _ _ _ _ b => c.ok && b.lenOk c .long .wide
  | .amovi c _ _ d _ _ => c.ok && c.lenIn [.wide] && d != 0
  | .aadd c _ _ d _ _ | .asub c _ _ d _ _ => c.ok && c.lenIn [.short] && d != 0
  | .aadds c _ _ _ d _ b | .amuls c _ _ d _ b | .ashls c _ _ d _ b | .psa c _ _ d _ b => wfU2 c b && d != 0
  | .psv c ty d _ => c.ok && c.lenIn [.short] && nameOk ty.is64 d
  | .pav c ty d _ => c.ok && c.lenIn [.short] && nameOk ty.is64 d
  | .vpick c ty _ a i => wfU2 c i && nameOk ty.is64 a.reg
  | .vballot c beat d _ => c.ok && c.lenIn [.short] && (beat != 3 || d.ule 60)
  | .vany c _ _ | .vall c _ _ => c.ok && c.lenIn [.short]
  | .vredadd c ty _ a | .vredmin c ty _ a | .vredmax c ty _ a => c.ok && c.lenIn [.short] && nameOk ty.is64 a.reg
  | .agetb c _ _ _ | .agets c _ _ _ => c.ok && c.lenIn [.short]
  | .vadd c ty d a b | .vsub c ty d a b | .vmul c ty d a b | .vand c ty d a b | .vor c ty d a b | .vxor c ty d a b
  | .vandn c ty d a b | .vshl c ty d a b | .vshr c ty d a b | .vsra c ty d a b => wfV2 c ty d a b
  | .vmulh c ty d a b | .vdiv c ty d a b | .vrem c ty d a b | .vmin c ty d a b | .vmax c ty d a b =>
    wfV2 c ty d a b && wfSgn ty true
  | .vmulhn c ty d a b | .vdivn c ty d a b | .vremn c ty d a b | .vminn c ty d a b | .vmaxn c ty d a b =>
    wfV2 c ty d a b && wfSgn ty false
  | .vmad c ty d a b cc =>
    c.ok && b.lenOk c false false && nameOk ty.is64 d && nameOk ty.is64 a.reg && b.nameOk ty.is64 && nameOk ty.is64 cc.reg
  | .vnot c ty d a | .vabs c ty d a | .vneg c ty d a | .vclz c ty d a | .vpopc c ty d a | .vmov c ty d a => wfV1 c ty d a
  | .vbfx c ty d a b => c.ok && b.lenOk c .short .wide && b.imm16 && nameOk ty.is64 d && nameOk ty.is64 a.reg
  | .vbfi c ty d a b e =>
    c.ok && e.lenOk c .long .wide && e.imm16 && nameOk ty.is64 d && nameOk ty.is64 a.reg && nameOk ty.is64 b.reg
  | .vsel c ty d a b _ =>
    c.ok && b.lenOk c false false && nameOk ty.is64 d && nameOk ty.is64 a.reg && b.nameOk ty.is64
  | .vmovi c ty d v => c.ok && v.ok c ty.is64 && nameOk ty.is64 d
  | .vcmp c ty _ _ a b => c.ok && b.lenOk c false true && nameOk ty.is64 a.reg && b.nameOk ty.is64
  | .vsat c ty d a k =>
    c.ok && c.lenIn [.long] && nameOk ty.is64 d && nameOk ty.is64 a.reg && k.ult 0x100 &&
    k.extractLsb' 0 7 != 0 && (k.extractLsb' 0 7).ule (if ty.is64 then 64 else 32)
  | .pand c _ _ _ | .por c _ _ _ | .pxor c _ _ _ | .pnot c _ _ => c.ok && c.lenIn [.short]
  | .pmov c _ a => c.ok && c.lenIn [.short] && (match a with | .p _ => true | .mk r => r.ule 61)
  | .vfadd c r _ _ b | .vfsub c r _ _ b | .vfmul c r _ _ b | .vfdiv c r _ _ b => wfF2 c r b
  | .vfma c r _ _ b _ => c.ok && b.lenOk c false false && r != .sr
  | .vfmin c _ _ b | .vfmax c _ _ b => c.ok && b.lenOk c true true
  | .vfcmp c _ _ _ b => c.ok && b.lenOk c false true
  | .vfclass c _ _ _ => c.ok && c.lenIn [.short]
  | .vfrnd c r _ _ | .vfsqrt c r _ _ => c.ok && c.lenIn [.short, .long] && r.lenOk c
  | .vfrcp c _ _ | .vfrsq c _ _ | .vfexp2 c _ _ | .vflog2 c _ _ | .vfsin c _ _ | .vfcos c _ _ | .vftanh c _ _ =>
    c.ok && c.lenIn [.short]
  | .vcvt c dst src r d a rb =>
    c.ok && c.lenIn [.long] && cvtOk dst src r && rbOk r rb && nameOk dst.is64 d && nameOk src.is64 a.reg
  | .vpack c m ty r _ _ _ rb =>
    c.ok && c.lenIn [.long] && rbOk r rb &&
    (match m with
      | .p2 => [Ty.f16, .bf16].contains ty
      | _ => [Ty.mf8, .mf8n, .i8, .n8].contains ty)
  | .vunpack c ty e _ _ =>
    c.ok && c.lenIn [.long] &&
    (([Ty.f16, .bf16].contains ty && e.ult 2) || ([Ty.mf8, .mf8n, .i8, .n8].contains ty && e.ult 4))
  | .vhadd2 c ty r _ _ b | .vhmul2 c ty r _ _ b => wfF2 c r b && ty != .f32
  | .vhfma2 c ty r _ _ b _ => c.ok && b.lenOk c false false && r != .sr && ty != .f32
  | .sfadd c _ r _ _ b | .sfmul c _ r _ _ b =>
    c.ok && r.lenOk c && (match b with | .reg _ => c.len != .wide | .imm _ => c.len == .wide)
  | .sfma c _ r _ _ _ _ => c.ok && c.lenIn [.long] && r != .sr
  | .sfcvt c dst src r _ _ rb => c.ok && c.lenIn [.long] && cvtOk dst src r && (r == .sr || rb == 0)
  | .vshfl c op _ _ b =>
    c.ok && (match op, b with
      | .idx, .v _ => c.len == .short
      | .idx, _ => false
      | _, .v _ => false
      | _, .s _ => c.len == .short
      | _, .imm _ => c.len == .wide)
  | .vbcast c _ _ _ i => wfU2 c i
  | .vprmt c _ _ _ sel =>
    c.ok && (match sel with | .v _ => c.len == .long | .s _ => false | .imm v => c.len == .wide && v.ult 0x10000)
  | .vscan c _ _ _ _ _ _ => c.ok && c.lenIn [.long]
  | .vdrop c _ _ ctr _ k => c.ok && k.lenOk c .long .wide && k.imm16 && ctrOk ctr
  | .vhash c lo d ctr _ => c.ok && c.lenIn [.short] && ctrOk ctr && nameOk (!lo) d
  | .sld c ty nc _ _ off => memLen c ty off && ty.memOk && (c.len == .wide || !nc)
  | .sst c ty _ off _ => memLen c ty off && ty.memOk
  | .vld c ty nc d ad off => memLen c ty off && ty.memOk && (c.len == .wide || !nc) && nameOk ty.is64 d && ad.ok true
  | .vst c ty ad off b => memLen c ty off && ty.memOk && ad.ok true && nameOk ty.is64 b.reg
  | .vlds c ty d ad off => memLen c ty off && ty.memOk && nameOk ty.is64 d && ad.ok false
  | .vsts c ty ad off b => memLen c ty off && ty.memOk && ad.ok false && nameOk ty.is64 b.reg
  | .slds c ty _ _ off => memLen c ty off && ty.memOk
  | .ssts c ty _ off _ => memLen c ty off && ty.memOk
  | .vldq c ty sc m d ad off =>
    memLen c ty off && ty.memOk && scopeLen c sc && (c.len == .wide || m == 0) && nameOk ty.is64 d && ad.ok true
  | .vstl c ty sc ad off b => memLen c ty off && ty.memOk && scopeLen c sc && ad.ok true && nameOk ty.is64 b.reg
  | .sldq c ty sc m _ _ off => memLen c ty off && ty.memOk && scopeLen c sc && (c.len == .wide || m == 0)
  | .sstl c ty sc _ off _ => memLen c ty off && ty.memOk && scopeLen c sc
  | .vatom c op aq rl ty sc d ad _ b cmp =>
    c.ok && c.lenIn [.wide] && atomOk op aq rl ty sc (cmp.reg == 0 && !cmp.last) && nameOk ty.is64 d && ad.ok true &&
    nameOk ty.is64 b.reg && nameOk ty.is64 cmp.reg
  | .satom c op aq rl ty sc _ _ _ _ cmp => c.ok && c.lenIn [.wide] && atomOk op aq rl ty sc (cmp == 0)
  | .vlr c ty d ad off => memLen c ty off && word48 ty && nameOk ty.is64 d && ad.ok true
  | .vsc c ty _ ad off b => memLen c ty off && word48 ty && ad.ok true && nameOk ty.is64 b.reg
  | .fence c sc | .rel c sc => c.ok && c.lenIn [.short, .wide] && scopeLen c sc
  | .acq c sc m => c.ok && c.lenIn [.short, .wide] && scopeLen c sc && (c.len == .wide || m == 0)
  | .invr c _ off _ => memLen c .i32 off
  | .inva c => c.ok && c.lenIn [.short, .wide]
  | .reg c ty ad off | .dereg c ty ad off | .pref c ty ad off => memLen c ty off && ty.memOk && ad.ok true
  | .waita c ty cond _ _ off _ tmo =>
    memLen c ty off && word48 ty && (c.len == .wide || cond == .eq) && (tmo.isSome == (c.len == .wide))
  | .xfer c _ | .msgsend c _ _ | .msgrecv c _ _ _ | .msgfree c _ _ | .barinit c _ _ | .bararr c _ _ _ _
  | .barwait c _ _ | .bartry c _ _ _ => c.ok && c.lenIn [.short]
  | .mma c _ _ _ _ _ _ _ | .mmas c _ _ _ _ _ _ _ | .mscale c _ _ _ _ _ _ _ => c.ok && c.lenIn [.wide] && c.unguarded
  | .mzero c _ | .tfpin c _ _ => c.ok && c.lenIn [.short] && c.unguarded
  | .tfrel c all a => c.ok && c.lenIn [.short] && c.unguarded && (!all || a == 0)
  | .mcvt c _ ty r _ _ key =>
    c.ok && c.lenIn [.long] && c.unguarded && [Ty.f16, .bf16, .mf8, .mf8n, .i8].contains ty && (r == .sr || key == 0)
  | .bra c cond a off => c.ok && c.lenIn [.long] && offOk off && (cond != .always || a == 0)
  | .brv c off heel => c.ok && c.lenIn [.wide] && offOk off && offOk heel
  | .brx c _ _ _ heel => c.ok && c.lenIn [.wide] && c.unguarded && offOk heel
  | .call c d off => c.ok && c.lenIn [.long] && offOk off && linkOk d
  | .ret c a => c.ok && c.lenIn [.short] && linkOk a
  | .exit c | .sync c | .yield c | .nop c | .bkpt c => c.ok && c.lenIn [.short]
  | .waitq c _ => c.lenIn [.short] && c.setq == 7
  | .trap c _ => c.ok && c.lenIn [.long]
  | .svc c each _ heel => c.ok && c.lenIn [.long] && offOk heel && (each || heel == 0)
  | .qpost c _ _ _ => c.ok && c.lenIn [.short]
  | .reggrow c _ n | .regshrink c n => wfU2 c n
  | .srd c _ n | .swr c n _ => c.ok && c.lenIn [.long] && (packSpecial n || svcSpecial n)
  | .sres c _ _ m => c.ok && c.lenIn [.short] && c.unguarded && m.ule 61
  | .pctxsv c _ _ _ | .pctxld c _ _ _ | .zap c _ _ | .halt c | .iret c | .pstop c _ _ | .pstopGo c _ _
  | .pstopEnd c _ _ _ => c.ok && c.lenIn [.short] && c.unguarded
  | .tlbinv c m _ va asid =>
    c.ok && c.lenIn [.short] && c.unguarded && (m == .page || va == 0) && (m != .all || asid == 0)
  | .mbxsend c _ _ p => c.ok && c.lenIn [.short] && c.unguarded && p.ule 61
  | .mbxrecv c _ d => c.ok && c.lenIn [.short] && c.unguarded && d.ule 60
  | .swrp c n _ => c.ok && c.lenIn [.long] && c.unguarded && (n == 0 || n == 0x100 || n == 0x101 || n == 0x105)
  | .dovetail c x y => c.ok && c.lenIn [.wide] && c.unguarded && x.ok && y.ok && pairOk x y
  | _ => true
where
  /-- The counter register is a w name (R254). -/
  ctrOk (k : Ctr) : Bool := match k with | .w x => x.reg.ult 1024 | .a _ => true
  /-- The 4- and 8-byte integer types of VLR, VSC and WAITA (R133). -/
  word48 (ty : Ty) : Bool := [Ty.i32, .n32, .i64, .n64].contains ty
  /-- A varying link is a w name (R306). -/
  linkOk (l : Link) : Bool := match l with | .s _ => true | .w r => r.ult 1024

/-- The guard of a word as its `Ctl` holds it; an event has none. -/
def ctlOf (i : Instr) : Option Ctl :=
  match i with
  | .sadd c _ _ _ _ | .ssub c _ _ _ _ | .smul c _ _ _ _ | .smulh c _ _ _ _ | .smulhn c _ _ _ _
  | .sdiv c _ _ _ _ | .sdivn c _ _ _ _ | .srem c _ _ _ _ | .sremn c _ _ _ _ | .sand c _ _ _ _ | .sor c _ _ _ _
  | .sxor c _ _ _ _ | .sandn c _ _ _ _ | .sshl c _ _ _ _ | .sshr c _ _ _ _ | .ssra c _ _ _ _ | .smin c _ _ _ _
  | .smax c _ _ _ _ | .sminn c _ _ _ _ | .smaxn c _ _ _ _ | .sclz c _ _ _ | .spopc c _ _ _ | .sbfx c _ _ _ _
  | .sbfi c _ _ _ _ _ | .ssel c _ _ _ _ _ | .smov c _ _ _ | .smovi c _ _ _ | .scmp c _ _ _ _ _
  | .amovi c _ _ _ _ _ | .aadd c _ _ _ _ _ | .asub c _ _ _ _ _ | .aadds c _ _ _ _ _ _ | .amuls c _ _ _ _ _
  | .ashls c _ _ _ _ _ | .psa c _ _ _ _ _ | .psv c _ _ _ | .pav c _ _ _ | .vpick c _ _ _ _ | .vballot c _ _ _
  | .vany c _ _ | .vall c _ _ | .vredadd c _ _ _ | .vredmin c _ _ _ | .vredmax c _ _ _ | .agetb c _ _ _
  | .agets c _ _ _ | .vadd c _ _ _ _ | .vsub c _ _ _ _ | .vmul c _ _ _ _ | .vmulh c _ _ _ _ | .vmulhn c _ _ _ _
  | .vmad c _ _ _ _ _ | .vdiv c _ _ _ _ | .vdivn c _ _ _ _ | .vrem c _ _ _ _ | .vremn c _ _ _ _
  | .vand c _ _ _ _ | .vor c _ _ _ _ | .vxor c _ _ _ _ | .vandn c _ _ _ _ | .vnot c _ _ _ | .vshl c _ _ _ _
  | .vshr c _ _ _ _ | .vsra c _ _ _ _ | .vmin c _ _ _ _ | .vmax c _ _ _ _ | .vminn c _ _ _ _ | .vmaxn c _ _ _ _
  | .vabs c _ _ _ | .vneg c _ _ _ | .vclz c _ _ _ | .vpopc c _ _ _ | .vbfx c _ _ _ _ | .vbfi c _ _ _ _ _
  | .vsel c _ _ _ _ _ | .vmov c _ _ _ | .vmovi c _ _ _ | .vcmp c _ _ _ _ _ | .vsat c _ _ _ _ | .pand c _ _ _
  | .por c _ _ _ | .pxor c _ _ _ | .pnot c _ _ | .pmov c _ _ | .vfadd c _ _ _ _ | .vfsub c _ _ _ _
  | .vfmul c _ _ _ _ | .vfma c _ _ _ _ _ | .vfmin c _ _ _ | .vfmax c _ _ _ | .vfcmp c _ _ _ _
  | .vfclass c _ _ _ | .vfrnd c _ _ _ | .vfrcp c _ _ | .vfrsq c _ _ | .vfsqrt c _ _ _ | .vfdiv c _ _ _ _
  | .vfexp2 c _ _ | .vflog2 c _ _ | .vfsin c _ _ | .vfcos c _ _ | .vftanh c _ _ | .vcvt c _ _ _ _ _ _
  | .vpack c _ _ _ _ _ _ _ | .vunpack c _ _ _ _ | .vhadd2 c _ _ _ _ _ | .vhmul2 c _ _ _ _ _
  | .vhfma2 c _ _ _ _ _ _ | .sfadd c _ _ _ _ _ | .sfmul c _ _ _ _ _ | .sfma c _ _ _ _ _ _
  | .sfcvt c _ _ _ _ _ _ | .vshfl c _ _ _ _ | .vbcast c _ _ _ _ | .vprmt c _ _ _ _ | .vscan c _ _ _ _ _ _
  | .vdrop c _ _ _ _ _ | .vhash c _ _ _ _ | .sld c _ _ _ _ _ | .sst c _ _ _ _ | .vld c _ _ _ _ _
  | .vst c _ _ _ _ | .vlds c _ _ _ _ | .vsts c _ _ _ _ | .slds c _ _ _ _ | .ssts c _ _ _ _
  | .vldq c _ _ _ _ _ _ | .vstl c _ _ _ _ _ | .sldq c _ _ _ _ _ _ | .sstl c _ _ _ _ _
  | .vatom c _ _ _ _ _ _ _ _ _ _ | .satom c _ _ _ _ _ _ _ _ _ _ | .vlr c _ _ _ _ | .vsc c _ _ _ _ _
  | .fence c _ | .acq c _ _ | .rel c _ | .invr c _ _ _ | .inva c | .reg c _ _ _ | .dereg c _ _ _
  | .pref c _ _ _ | .waita c _ _ _ _ _ _ _ | .xfer c _ | .msgsend c _ _ | .msgrecv c _ _ _ | .msgfree c _ _
  | .barinit c _ _ | .bararr c _ _ _ _ | .barwait c _ _ | .bartry c _ _ _ | .mma c _ _ _ _ _ _ _
  | .mmas c _ _ _ _ _ _ _ | .mscale c _ _ _ _ _ _ _ | .mzero c _ | .mcvt c _ _ _ _ _ _ | .tfpin c _ _
  | .tfrel c _ _ | .bra c _ _ _ | .brv c _ _ | .brx c _ _ _ _ | .call c _ _ | .ret c _ | .exit c | .sync c
  | .waitq c _ | .yield c | .nop c | .trap c _ | .bkpt c | .svc c _ _ _ | .qpost c _ _ _ | .reggrow c _ _
  | .regshrink c _ | .srd c _ _ | .swr c _ _ | .sres c _ _ _ | .pctxsv c _ _ _ | .pctxld c _ _ _
  | .tlbinv c _ _ _ _ | .mbxsend c _ _ _ | .mbxrecv c _ _ | .zap c _ _ | .halt c | .iret c | .pstop c _ _
  | .pstopGo c _ _ | .pstopEnd c _ _ _ | .swrp c _ _ | .dovetail c _ _ => some c
  | _ => none

/-- On a service core every word is unguarded, CALL.V and RET.V do not exist, and a special register is one of R190 or
R359; on a compute core it is one of R190 (R117, R190, R306, R359). -/
def wfOn (service : Bool) (i : Instr) : Bool :=
  wf i &&
  (match i with
    | .call _ (.w _) _ | .ret _ (.w _) => !service
    | .srd _ _ n | .swr _ n _ => packSpecial n || service
    | _ => true) &&
  (!service || (match ctlOf i with | some c => c.unguarded | none => true))

end Sys2Proof
end

