-- ==== Sys2Proof/Machine/Issue.lean ====
section
/-! DEFINITION. How a split issues one instruction word: the waits, the checks of R112 from the scoreboard on, the guard,
forced reconvergence, and what every issued word does to its split (R112-R118, R192, R303). -/

namespace Sys2Proof.Machine

/-- A register as the scoreboard tracks it (R116). -/
inductive RegRef
  | s (r : SReg)
  | a (r : AReg)
  | p (r : PReg)
  | row (n : Nat)
  deriving DecidableEq, Repr

/-- How an instruction uses a register: sources with their field (0 DST, 1 SA, 2 SB, 3 SC), and destinations. -/
inductive Use
  | s (f : Nat) (r : SReg)
  | a (f : Nat) (r : AReg)
  | p (f : Nat) (r : PReg)
  | v (f : Nat) (is64 : Bool) (r : VReg)
  /-- `n` consecutive v registers from `r` on as sources -/
  | vs (f : Nat) (r : VReg) (n : Nat)
  | c (f : Nat) (r : CReg)
  | ds (r : SReg)
  | da (r : AReg)
  | dp (r : PReg)
  | dv (is64 : Bool) (r : VReg)
  /-- `n` consecutive v registers as destination -/
  | dvs (r : VReg) (n : Nat)
  | dc (r : CReg)
  deriving DecidableEq, Repr

/-- What an instruction's own part answers. -/
inductive Res
  /-- performed; the split goes on at the sequential successor -/
  | done (v : View)
  /-- performed; the split goes on at another PC -/
  | jump (v : View) (pc : W64)
  /-- a precise fault: nothing of the instruction is performed -/
  | fault (f : FaultRec)
  /-- performed, and then a fault that resumes at the successor -/
  | trap (v : View) (f : FaultRec)
  /-- the instruction waits at issue: nothing changes now -/
  | wait
  /-- the instruction waits at issue after a part of its effect (a release, a started walk) -/
  | hold (v : View)
  /-- the state after the instruction, with its split already placed -/
  | state (s : State)

/-- The varying field reaches past the window: the last row a name covers must lie below VWIN.SIZE (R187). -/
def View.outside (v : View) (u : Use) : Option Nat :=
  let chk (f last : Nat) : Option Nat := if last < v.pk.size then none else some f
  match u with
  | .v f is64 r => chk f (if is64 then v.wrow r + 1 else v.vrow r)
  | .vs f r n => chk f (v.vrow r + n - 1)
  | .c f r => chk f (v.crow r + 127)
  | .dv is64 r => chk 0 (if is64 then v.wrow r + 1 else v.vrow r)
  | .dvs r n => chk 0 (v.vrow r + n - 1)
  | .dc r => chk 0 (v.crow r + 127)
  | _ => none

/-- The field that FVA names of those that are out of bounds: R187 gives no order among several of one instruction, and the lowest is the
model's choice (see the assumption log). -/
def View.viewFault (v : View) (us : List Use) : Option FaultRec :=
  let fs := us.filterMap v.outside
  (findBelow 4 (fun f => fs.contains f)).map (fun f => v.faultRec fcViewBounds (BitVec.ofNat 64 f) 0 0 0 127 0)

/-- The registers a use reads, with its field. -/
def View.reads (v : View) (u : Use) : List (Nat × RegRef) :=
  match u with
  | .s f r => [(f, .s r)]
  | .a f r => [(f, .a r)]
  | .p f r => [(f, .p r)]
  | .v f is64 r => if is64 then [(f, .row (v.wrow r)), (f, .row (v.wrow r + 1))] else [(f, .row (v.vrow r))]
  | .vs f r n => (List.range n).map (fun k => (f, .row (v.vrow r + k)))
  | .c f r => (List.range 128).map (fun k => (f, .row (v.crow r + k)))
  | _ => []

/-- The registers a use writes. -/
def View.writes (v : View) (u : Use) : List RegRef :=
  match u with
  | .ds r => [.s r]
  | .da r => [.a r]
  | .dp r => [.p r]
  | .dv is64 r => if is64 then [.row (v.wrow r), .row (v.wrow r + 1)] else [.row (v.vrow r)]
  | .dvs r n => (List.range n).map (fun k => .row (v.vrow r + k))
  | .dc r => (List.range 128).map (fun k => .row (v.crow r + k))
  | _ => []

/-- An outstanding class-V destination covers a register. -/
def Dest.covers (d : Dest) (r : RegRef) : Bool :=
  match d, r with
  | .s x, .s y => x == y
  | .p x, .p y => x == y
  | .v row wide, .row n => row == n || (wide && row + 1 == n)
  | _, _ => false

/-- A matrix instruction of the split that is not complete writes the row (R257). -/
def MatOp.covers (m : MatOp) (n : Nat) : Bool :=
  match m.kind with
  | .mcvt _ ty _ _ _ => m.crow ≤ n && n < m.crow + (if ty == .f16 || ty == .bf16 then 64 else 32)
  | _ => m.crow ≤ n && n < m.crow + 128

/-- A matrix instruction names the row as a source (R257). -/
def MatOp.reads (m : MatOp) (n : Nat) : Bool :=
  match m.kind with
  | .mscale _ _ => (m.arow ≤ n && n < m.arow + 128) || n == m.brow
  | .mcvt _ _ _ _ _ => m.arow ≤ n && n < m.arow + 128
  | _ => false

/-- The split that an instruction number belongs to still stands in its entry. -/
def Split.holds (x : Split) (seq : Nat) : Bool := decide (x.first ≤ seq) && decide (seq < x.seq)

/-- The queued instruction is one that the split has issued, or has joined (R303). -/
def View.issuedOp (v : View) (m : MatOp) : Bool :=
  m.slot == v.slot && ((m.split == v.ix && v.sp.holds m.seq) || m.withs.any (fun w => w.1 == v.ix && v.sp.holds w.2))

/-- A matrix instruction of the split that is not complete names the row, so that a later write of it must wait (R257). -/
def View.matrixNames (v : View) (r : RegRef) : Bool :=
  match r with
  | .row n => v.co.mq.any (fun m => v.issuedOp m && (m.reads n || m.covers n))
  | _ => false

/-- A class-V write of the split to the register has not arrived (R116). -/
def View.pendingV (v : View) (r : RegRef) : Bool :=
  v.sp.out.any (fun o => o.dest.covers r) ||
  (match r with
    | .row n => v.co.mq.any (fun m => v.issuedOp m && m.covers n)
    | _ => false)

/-- A write of the split to the register has been issued and is not performed (R116). -/
def View.pending (v : View) (r : RegRef) : Bool :=
  v.pendingV r ||
  (match r with
    | .s x => v.sp.pw.any (fun w => match w.w with | .s y _ => x == y | _ => false)
    | .a x => v.sp.pw.any (fun w => match w.w with | .a y _ => x == y | _ => false)
    | .p x => v.sp.pw.any (fun w => match w.w with | .p y _ _ => x == y | _ => false)
    | .row n =>
      v.sp.win.any (fun e => e.row == n && v.now < e.due) ||
      v.pk.late.any (fun e => e.row == n && v.now < e.due && e.mask &&& v.sp.owned != 0))

/-- The checking scoreboard: the lowest field whose register has a write pending (R116). -/
def View.stallFault (v : View) (us : List Use) : Option FaultRec :=
  if !v.pk.schk then none
  else
    let fs := (us.flatMap v.reads).filterMap (fun x => if v.pending x.2 then some x.1 else none)
    (findBelow 4 (fun f => fs.contains f)).map (fun f => v.faultRec fcStallShort (BitVec.ofNat 64 f) 0 0 0 127 0)

/-- A part of a word: a guard, and the uses of the operation under it. A dovetail word has two, the half X first (R122). -/
abbrev Part := BitVec 4 × List Use

/-- The uses of a word. -/
def usesOf (ps : List Part) : List Use := ps.flatMap (fun p => p.2)

/-- A guard whose predicate has a write pending faults STALL_SHORT too (R116, R117); its field has no number, so FVA is a
free value. -/
def View.stallGuard (v : View) (g : BitVec 4) : Option State :=
  if v.pk.schk && v.pending (.p (g.setWidth 3)) then
    let d := v.s.draw
    some ({ v with s := d.2 }.raise (v.faultRec fcStallShort d.1 0 0 0 127 0))
  else none

/-- The checking scoreboard over a word (R116): the first part with a source, and then a guard, that has a write pending (R122). -/
def View.stalls (v : View) (ps : List Part) : Option State :=
  ps.findSome? (fun p => match v.stallFault p.2 with | some f => some (v.raise f) | none => v.stallGuard p.1)

/-- The use writes a uniform register other than s60-s63, or an affine register (R192). -/
def Use.uniform (u : Use) : Bool :=
  match u with
  | .ds r => r.ult 60
  | .da _ => true
  | _ => false

/-- The pack is divided, or the split's mask is not the live mask (R192). -/
def View.divided (v : View) : Bool := !v.svc && (v.pk.paths != 1 || v.sp.mask != v.pk.live)

/-- The poisoned lanes of a row that no window entry serves (R34, R118). -/
def View.rowBad (v : View) (n : Nat) : Mask :=
  let m := get 0 v.pk.bad n
  if m = 0 then 0 else maskOf (fun L => m.getLsbD L && (v.entryFor n L).isNone)

/-- A source row holds a poisoned granule that no window entry covers (R34): the lowest field. -/
def View.rowFault (v : View) (us : List Use) : Option FaultRec :=
  if v.pk.bad.isEmpty then none
  else
    let hit (x : Nat × RegRef) : Option Nat := match x.2 with
      | .row n => if v.rowBad n != 0 then some x.1 else none
      | _ => none
    let fs := (us.flatMap v.reads).filterMap hit
    (findBelow 4 (fun f => fs.contains f)).map (fun f => v.faultRec fcDataUe (BitVec.ofNat 64 f) 0 0 0 127 0)

/-- The UNIFORM_SPLIT check of R192. -/
def View.uniformFault (v : View) (us : List Use) : Option FaultRec :=
  if v.divided && us.any (fun u => u.uniform) then some (v.faultRec fcUniformSplit 0 0 0 0 127 0) else none

/-- The split has issued its instruction and has not completed it there: it holds a place in the matrix queue (R256), or is inside a
release or another instruction of several steps. One whose fault is recorded has not. -/
def Split.begun (y : Split) (c : Core) (slot i : Nat) (stop : Option Stop) : Bool :=
  y.sec.isNone && (match y.st with | .ready => true | .reconv => true | _ => false) &&
  (y.phase != 0 || c.mq.any (fun m => m.slot == slot && m.split == i && !m.staged)) &&
  (match stop with
    | some x => !(x.split == i && (match x.fault with | some f => f.pc == y.pc | none => false))
    | none => true)

/-- The pack lets the split issue: it runs, or it is stopping and the split's instruction has already issued (R348). -/
def View.mayGoOn (v : View) : Bool :=
  match v.pk.stop with
  | none => true
  | some x => !x.done && v.sp.begun v.co v.slot v.ix v.pk.stop

/-- The instruction can issue: the split is READY (or in RECONV, to try again), its pack runs, and no earlier instruction
holds it before its fault horizon (R138, R348); its core's clock is not gated (R67). -/
def View.canIssue (v : View) : Bool :=
  v.mayGoOn && !v.pk.ended && v.sp.hold.isNone && v.sp.sec.isNone && !v.co.quarantined && !v.co.failed && !v.co.gated &&
  !v.co.halted && v.co.mbwait.isNone &&
  (match v.sp.st with | .ready => true | .reconv => true | _ => false)

/-- The cycle from which a token named in WAITM is ready: its remaining falls are all of known date, or the token waits
for an event (R115). -/
def View.tokenAt (v : View) (q t : Nat) : Option Nat :=
  let falls := v.sp.pw.filterMap (fun w => match w.w with | .tok k => if k == q then some w.due else none | _ => none)
  if v.sp.tok.getD q 0 ≤ falls.length then some (falls.foldl max t) else none

/-- The cycle from which every token of a mask is ready. -/
def View.tokensAt (v : View) (m : BitVec 6) : Option Nat :=
  (List.range 6).foldl (fun t q =>
    match t with
    | none => none
    | some t => if m.getLsbD q then v.tokenAt q t else some t) (some v.now)

/-- The unit that takes a word, by its opcode (R114, R123, R337). -/
def unitOfOp (op : Nat) : IUnit :=
  if (5 ≤ op ∧ op ≤ 8) ∨ (0x3E ≤ op ∧ op ≤ 0x41) ∨ (0x69 ≤ op ∧ op ≤ 0x71) then .special
  else if op ≤ 0x1F ∨ (0x78 ≤ op ∧ op ≤ 0x7B) then .uniform
  else if op ≤ 0x26 ∨ op = 0x30 ∨ op = 0x31 then .affine
  else if (0x29 ≤ op ∧ op ≤ 0x2F) ∨ (0x88 ≤ op ∧ op ≤ 0x8F) then .exchange
  else if op ≤ 0x8F then .vector 1
  else if op ≤ 0xBF then .memory
  else if op ≤ 0xC7 then .matrix
  else if op = 0xFF then .vector 2
  else .control

/-- The first cycle from `t` on in which a core has a word left to issue and the unit accepts it (R337). -/
def Core.accepts (c : Core) (u : IUnit) (t : Nat) : Nat :=
  let full := decide (2 ≤ c.took.2.length) || (match u with | .vector _ => false | _ => c.took.2.contains u)
  let t := if t = c.took.1 && full then t + 1 else t
  match u with
  | .vector n => max t (c.pipes.getD (n - 1) 0)
  | _ => t

/-- A word issues in cycle `t`: the unit has taken it; a vector pipe is free again three cycles later (R113, R337). -/
def Core.takes (c : Core) (u : IUnit) (t : Nat) : Core :=
  { c with
    took := (t, if t = c.took.1 then c.took.2 ++ [u] else [u])
    pipes := match u with | .vector n => c.pipes.drop n ++ List.replicate n (t + 3) | _ => c.pipes }

/-- The cycle from `t` on in which the core takes the view's word. A service core has one split and no such units. -/
def View.slotAt (v : View) (t : Nat) : Nat := if v.svc then t else v.co.accepts (unitOfOp v.s.op) t

/-- The view at the cycle in which its instruction issues, every due write performed; none while it waits (R115), or while a matrix
instruction that is not complete names a row it writes (R257). -/
def View.ready (v : View) (c : Ctl) (waits : BitVec 6) (us : List Use) : Option View :=
  if !v.canIssue then none
  else
    match v.tokensAt (c.waitm ||| waits) with
    | none => none
    | some t =>
      let v := { v with now := v.slotAt t }.settle
      if c.setq.toNat < 6 && 63 ≤ v.sp.tok.getD c.setq.toNat 0 then none
      else if (v.stallFault us).isNone && (us.flatMap v.writes).any v.matrixNames then none
      else some v

/-- The sequential successor of the instruction (R105): past its bytes, and past offset 28 of a block. -/
def succPc (pc : W64) (n : Nat) : W64 :=
  let e := pc + BitVec.ofNat 64 n
  if fld e 0 5 = 28 then e + 4 else e

/-- The bytes of a word's length (R104). -/
def lenBytes (l : Len) : Nat := match l with | .short => 8 | .long => 12 | .wide => 16

/-- The entries of a window that leave it when word `seq` has issued: they are eight words old (R118). Those of `kept` stay until the word
has passed its fault horizon, and are dead then. -/
def agedOut (kept : List (Nat × Nat)) (win : List WEntry) (seq : Nat) : List WEntry :=
  win.filter (fun e => decide (e.seq + 8 ≤ seq) && !kept.contains (e.row, e.seq))

/-- The entries that stay. -/
def agedIn (kept : List (Nat × Nat)) (win : List WEntry) (seq : Nat) : List WEntry :=
  win.filter (fun e => decide (seq < e.seq + 8) || kept.contains (e.row, e.seq))

/-- The entries of a window over the lanes of `m`. -/
def overMask (es : List WEntry) (m : Mask) : List WEntry :=
  es.filterMap (fun e => if e.mask &&& m = 0 then none else some { e with mask := e.mask &&& m })

/-- A split that joined a word goes on after it (R303): the word is the next of its own, and its lanes' results stand in its own
window. -/
def Pack.follow (p : Pack) (j : Nat) (results : List WEntry) (pc : W64) (t stall : Nat) : Pack :=
  match p.split j with
  | none => p
  | some y =>
    let es := (overMask results y.owned).map (fun e => { e with seq := y.seq })
    let win := es.foldl (fun w e => hastenRow w e.seq e.row e.mask e.due ++ [e]) (agedIn [] y.win y.seq)
    (p.setSplit j (some { y with
      pc := pc, st := .ready, since := t, seq := y.seq + 1, next := max y.next (t + 1 + stall), win := win
      xl := [], phase := 0, rc := none, replay := none })).leave (agedOut [] y.win y.seq) t

/-- The splits that have joined the word (R303). -/
def View.joins (v : View) : List Nat := match v.sp.rc with | some (_, js) => js | none => []

/-- The word has issued (R113, R118, R302): its number is taken, entries eight words old leave the window but for those of `kept`, the
next issue is STALL cycles later, and the fairness count follows. The splits that joined it go on with it. -/
def View.finishKeep (v : View) (kept : List (Nat × Nat)) (c : Ctl) (pc : W64) : View :=
  let t := v.now
  let win := v.winDead
  let js := v.joins
  let theirs := js.foldl (fun (m : Mask) j => match v.pk.split j with | some y => m ||| y.owned | none => m) 0
  let results := win.filter (fun e => e.seq == v.sp.seq)
  let stays := agedIn kept win v.sp.seq
  let stays := if js.isEmpty then stays else stays.filter (fun e => e.seq != v.sp.seq) ++ overMask results (~~~theirs)
  let w : View := ({ v with sp := { v.sp with
      pc := pc, seq := v.sp.seq + 1, win := stays, next := max v.sp.next (t + 1 + c.stall.toNat)
      st := (match v.sp.st with | .reconv => .ready | x => x)
      since := t, xl := [], phase := 0, rc := none, replay := none } } : View).onPack (fun p =>
    js.foldl (fun (p : Pack) j => p.follow j results pc t c.stall.toNat) (p.leave (agedOut kept win v.sp.seq) t))
  let waiting := (List.range 4).any (fun j => j != w.ix && (match w.pk.split j with
    | some y => decide (y.st = SState.ready) | none => false))
  let n := if w.pk.fairSplit = w.ix then w.pk.fairCount + 1 else 1
  { w with
    dead := []
    co := { (if w.svc then w.co else w.co.takes (unitOfOp w.s.op) t) with cycle := t, issued := w.co.issued + 1 }
    pk := { w.pk with fairSplit := w.ix, fairCount := if waiting then n else 0 } }

/-- The word has issued, and nothing of its window waits for a fault horizon. -/
def View.finish (v : View) (c : Ctl) (pc : W64) : View := v.finishKeep [] c pc

/-- The successor of the view's instruction. -/
def View.succ (v : View) (c : Ctl) : W64 := succPc v.sp.pc (lenBytes c.len)

/-- A fixed-latency instruction with a token: it falls when the result is written (R115). -/
def View.tokenFor (v : View) (c : Ctl) (lat : Nat) : View :=
  if c.setq.toNat < 6 then
    { v with sp := { (v.sp.tokInc c.setq.toNat) with pw := v.sp.pw ++ [⟨v.now + lat, v.sp.seq, .tok c.setq.toNat⟩] } }
  else v

/-- The token of a class-V instruction: it rises now and falls when the instruction completes (R115). -/
def View.tokenV (v : View) (c : Ctl) : View × Option Nat :=
  if c.setq.toNat < 6 then ({ v with sp := v.sp.tokInc c.setq.toNat }, some c.setq.toNat) else (v, none)

/-- The register discards what is written to it: s63 and p7 (R179, R181). -/
def Dest.discards (d : Dest) : Bool := match d with | .none => true | .s r => r == 63 | .p r => r == 7 | .v _ _ => false

/-- A class-V destination becomes outstanding; one that discards the write has none pending (R116). -/
def View.outV (v : View) (d : Dest) : View :=
  if d.discards then v else { v with sp := { v.sp with out := v.sp.out ++ [⟨v.sp.seq, d, []⟩] } }

/-- An instruction that completes and then faults (R347, R353): its split stands at the successor, and its pack stops; a service
core enters its handler with EPC at the successor (R357). -/
def View.trapAfter (w : View) (c : Ctl) (pc : W64) (f : FaultRec) : State :=
  let w := w.finish c pc
  if w.svc then w.enter f.code w.sp.pc f.fva f.finfo
  else { w with pk := { (w.pk.orLex f.lex) with stop := some ⟨1, some f, w.ix, true, false, false⟩ } }.close

/-- Put an answer of an instruction's own part into the state. -/
def View.answer (v : View) (c : Ctl) (r : Res) (s0 : State) : State :=
  match r with
  | .done w => (w.finish c (v.succ c)).close
  | .jump w pc => (w.finish c pc).close
  | .fault f => v.raise f
  | .trap w f => w.trapAfter c (v.succ c) f
  | .wait => s0
  | .hold w => w.close
  | .state s => s

/-- ACT of the view's instruction: the split's mask, or the union of a reconvergence, cut to the replayed lanes and to
the guard (R117, R303, R349). -/
def View.act (v : View) (g : BitVec 4) : Mask :=
  let m := match v.sp.rc with | some (m, _) => m | none => v.sp.mask
  let m := match v.sp.replay with | some r => m &&& r | none => m
  m &&& v.guard g

/-- ACT over several guards: the lanes in which some of them lets the word act. -/
def View.acts (v : View) (gs : List (BitVec 4)) : Mask := gs.foldl (fun m g => m ||| v.act g) 0

/-- ACT over the parts of a word: the lanes in which some part acts. -/
def View.actOf (v : View) (ps : List Part) : Mask := v.acts (ps.map (fun p => p.1))

/-- The poison check over a word: the first part that acts and reads a poisoned row (R34, R122). -/
def View.rowFaults (v : View) (ps : List Part) : Option FaultRec :=
  ps.findSome? (fun p => if v.act p.1 = 0 then none else v.rowFault p.2)

/-- Force reconvergence for a pack-wide instruction whose siblings are settled (R303). -/
def View.reconverge (v : View) : View := v.onPack (fun p => p.reconverge v.ix v.now)

/-- Issue one instruction: its waits, the scoreboard, forced reconvergence for a pack-wide one, the guard, the bounds of
its varying names, UNIFORM_SPLIT, and then its own part over ACT (R112). A split whose siblings are not settled enters
RECONV. `waits` are tokens it waits for beside WAITM, `ps` its parts, `chk` the uses whose bounds are checked. -/
def issueG (c : Ctl) (ps : List Part) (waits : BitVec 6) (chk : View → List Use) (wide : Bool)
    (body : View → Mask → Res) (s : State) : Host.Outcome State Fault Refusal :=
  match s.view with
  | none => .fault .noContext
  | some v0 =>
    match v0.ready c waits (usesOf ps) with
    | none => .next s
    | some v =>
      match v.stalls ps with
      | some t => .next t
      | none =>
        if wide && !v.pk.allSettled v.ix v.sp.pc then
          .next { v with sp := { v.sp with
            st := .reconv
            since := if v.sp.st = SState.reconv then v.sp.since else v.now
            waited := if v.sp.st = SState.reconv then v.sp.waited else v.s.time } }.close
        else
          let v := if wide then v.reconverge else v
          let act := v.actOf ps
          if act = 0 then .next ((v.finish c (v.succ c)).close)
          else
            match v.viewFault (chk v) with
            | some f => .next (v.raise f)
            | none =>
              match v.uniformFault (usesOf ps), v.rowFaults ps with
              | some f, _ => .next (v.raise f)
              | none, some f => .next (v.raise f)
              | none, none => .next (v.answer c (body v act) s)

/-- Issue an instruction with one guard, checked over all its uses. -/
def issueW (c : Ctl) (g : BitVec 4) (waits : BitVec 6) (us : List Use) (wide : Bool) (body : View → Mask → Res) (s : State) :
    Host.Outcome State Fault Refusal :=
  issueG c [(g, us)] waits (fun _ => us) wide body s

/-- Issue an instruction that waits for its WAITM only. -/
def issue (c : Ctl) (us : List Use) (body : View → Mask → Res) (s : State) : Host.Outcome State Fault Refusal :=
  issueW c c.guard 0 us false body s

/-- Issue a pack-wide instruction (R303). -/
def issueWide (c : Ctl) (us : List Use) (body : View → Mask → Res) (s : State) : Host.Outcome State Fault Refusal :=
  issueW c c.guard 0 us true body s

/-- Latencies of the fixed classes (R114). -/
def latU : Nat := 2
def latA : Nat := 2
def latVI : Nat := 4
def latVF : Nat := 6
def latX : Nat := 8

end Sys2Proof.Machine
end

