-- ==== Sys2Proof/Machine/Flags.lean ====
section
/-! DEFINITION. The flags of FPF, AFL and LEX0-LEX2, and the integer operations that set them (R202, R207, R208). -/

namespace Sys2Proof.Machine

/-! ### The bits of FPF (R207) -/

def flNV : Nat := 1
def flDZ : Nat := 2
def flOF : Nat := 4
def flUF : Nat := 8
def flNX : Nat := 16
def flDZI : Nat := 32
def flDVO : Nat := 64
def flOVF32 : Nat := 128
def flSATH : Nat := 256
def flIOVF : Nat := 512

/-- A result with the flags that it raises. -/
structure FR where
  val : W64
  fl : Nat
  deriving DecidableEq, Repr

/-- The flags of the lanes of `m` together (R208). -/
def flagsOf (m : Mask) (f : Nat → FR) : Nat := (lanesOf m).foldl (fun x L => x ||| (f L).fl) 0

/-- FPF.SATF of the view's pack or service core (R205). -/
def View.satf (v : View) : Bool := bit (v.pk.special sprFpf) 16

/-- OR flags into FPF (R208). -/
def View.orFpf (v : View) (f : Nat) : View := { v with pk := v.pk.orFpf f }

/-- Set AFL.AOV (R184, R191). -/
def View.setAov (v : View) : View :=
  { v with pk := v.pk.setSpecial sprAfl (v.pk.special sprAfl ||| 1) }

/-! ### Integer types (R201, R218, R219) -/

/-- The width of a type in bits. -/
def itW (t : IType) : Nat := match t with | .i32 | .n32 => 32 | .i64 | .n64 => 64

/-- The type names a w register (R186). -/
def it64 (t : IType) : Bool := match t with | .i32 | .n32 => false | .i64 | .n64 => true

/-- The type is signed. -/
def itS (t : IType) : Bool := match t with | .i32 | .i64 => true | .n32 | .n64 => false

/-- The w bits of an operand, without sign. -/
def itU (t : IType) (x : W64) : Nat := x.toNat % 2 ^ itW t

/-- The operand read signed. -/
def itI (t : IType) (x : W64) : Int := sInt (itW t) x.toNat

/-- The operand read as the type states (R219). -/
def itRead (t : IType) (x : W64) : Int := if itS t then itI t x else (itU t x : Int)

/-- The w-bit result of an exact value (R201). -/
def itRes (t : IType) (x : Int) : W64 := BitVec.ofNat 64 (wrapN (itW t) x)

/-- A uniform result extended to 64 bits (R219). -/
def itExt (t : IType) (x : W64) : W64 :=
  match t with
  | .i32 => (x.setWidth 32).signExtend 64
  | .n32 => (x.setWidth 32).setWidth 64
  | .i64 | .n64 => x

/-- IMM32 as a value operand (R221). -/
def itImm (t : IType) (x : W32) : W64 := if itS t then x.signExtend 64 else x.setWidth 64

/-! ### The two-source and one-source operations (R222, R223, R225) -/

def opAdd (t : IType) (a b : W64) : W64 := itRes t (itI t a + itI t b)
def opSub (t : IType) (a b : W64) : W64 := itRes t (itI t a - itI t b)
def opMul (t : IType) (a b : W64) : W64 := itRes t (itI t a * itI t b)
def opMulh (t : IType) (a b : W64) : W64 := itRes t (itI t a * itI t b / (2 ^ itW t : Nat))
def opMulhn (t : IType) (a b : W64) : W64 := itRes t ((itU t a * itU t b / 2 ^ itW t : Nat) : Int)
def opAnd (t : IType) (a b : W64) : W64 := itRes t (itU t (a &&& b) : Int)
def opOr (t : IType) (a b : W64) : W64 := itRes t (itU t (a ||| b) : Int)
def opXor (t : IType) (a b : W64) : W64 := itRes t (itU t (a ^^^ b) : Int)
def opAndn (t : IType) (a b : W64) : W64 := itRes t (itU t (a &&& ~~~b) : Int)
def opMin (t : IType) (a b : W64) : W64 := itRes t (min (itI t a) (itI t b))
def opMax (t : IType) (a b : W64) : W64 := itRes t (max (itI t a) (itI t b))
def opMinn (t : IType) (a b : W64) : W64 := itRes t (min (itU t a) (itU t b) : Nat)
def opMaxn (t : IType) (a b : W64) : W64 := itRes t (max (itU t a) (itU t b) : Nat)

/-- The count of a shift: bits 7:0 of the operand (R223). -/
def shCount (b : W64) : Nat := fld b 0 8

def opShl (t : IType) (a b : W64) : W64 :=
  if shCount b < itW t then itRes t (itU t a * 2 ^ shCount b : Nat) else 0
def opShr (t : IType) (a b : W64) : W64 :=
  if shCount b < itW t then itRes t (itU t a / 2 ^ shCount b : Nat) else 0
def opSra (t : IType) (a b : W64) : W64 :=
  itRes t (if shCount b < itW t then itI t a / (2 ^ shCount b : Nat) else if itI t a < 0 then -1 else 0)

def opMov (t : IType) (a : W64) : W64 := itRes t (itU t a : Int)
def opNot (t : IType) (a : W64) : W64 := itRes t (itU t (~~~a) : Int)
def opNeg (t : IType) (a : W64) : W64 := itRes t (0 - itI t a)
def opAbs (t : IType) (a : W64) : W64 := if itS t then itRes t (itI t a).natAbs else opMov t a

/-- The number of one bits below bit `n`. -/
def popc (x : Nat) : Nat → Nat
  | 0 => 0
  | n + 1 => (x >>> n) % 2 + popc x n

/-- The number of leading zeros of the `n`-bit `x`. -/
def clz (x n : Nat) : Nat := if x % 2 ^ n = 0 then n else n - 1 - (x % 2 ^ n).log2

def opClz (t : IType) (a : W64) : W64 := BitVec.ofNat 64 (clz (itU t a) (itW t))
def opPopc (t : IType) (a : W64) : W64 := BitVec.ofNat 64 (popc (itU t a) (itW t))

/-! ### Division (R202) -/

/-- The quotient, with its flags. `lane` of the flags: DZI or DVO. -/
def opQuot (t : IType) (sg : Bool) (a b : W64) : FR :=
  if itU t b = 0 then ⟨itRes t (-1), flDZI⟩
  else if sg then
    ⟨itRes t ((itI t a).tdiv (itI t b)),
     if itI t b = -1 ∧ itI t a = -(2 ^ (itW t - 1) : Nat) then flDVO else 0⟩
  else ⟨itRes t ((itU t a / itU t b : Nat) : Int), 0⟩

/-- The remainder, with its flags. -/
def opRem (t : IType) (sg : Bool) (a b : W64) : FR :=
  if itU t b = 0 then ⟨itRes t (itU t a : Int), flDZI⟩
  else if sg then
    ⟨itRes t ((itI t a).tmod (itI t b)),
     if itI t b = -1 ∧ itI t a = -(2 ^ (itW t - 1) : Nat) then flDVO else 0⟩
  else ⟨itRes t ((itU t a % itU t b : Nat) : Int), 0⟩

/-! ### Bit fields (R227) -/

/-- BFX over a descriptor. -/
def opBfx (t : IType) (a : W64) (desc : Nat) : W64 :=
  let p := desc % 256
  let n := min (desc / 256 % 256) (itW t - p)
  if itW t ≤ p || n = 0 then 0
  else
    let f := (itU t a >>> p) % 2 ^ n
    itRes t (if itS t then sInt n f else (f : Int))

/-- BFI over a descriptor. -/
def opBfi (t : IType) (a b : W64) (desc : Nat) : W64 :=
  let p := desc % 256
  let n := min (desc / 256 % 256) (itW t - p)
  if itW t ≤ p || n = 0 then opMov t a
  else opMov t (putFld a p n b.toNat)

/-- An integer condition (R229). -/
def opCmp (t : IType) (c : Cond) (a b : W64) : Bool :=
  match c with
  | .eq => decide (itU t a = itU t b)
  | .ne => decide (itU t a ≠ itU t b)
  | .lt => decide (itRead t a < itRead t b)
  | .le => decide (itRead t a ≤ itRead t b)
  | .gt => decide (itRead t a > itRead t b)
  | .ge => decide (itRead t a ≥ itRead t b)

/-- VSAT (R230): bits 6:0 of the control are the target width, bit 7 chooses an unsigned range. -/
def opSat (t : IType) (a : W64) (ctl : W32) : W64 :=
  let n := fld ctl 0 7
  itRes t (if bit ctl 7 then satn (itRead t a) n else sats (itRead t a) n)

end Sys2Proof.Machine
end

