-- ==== Sys2Proof/Machine/Numbers.lean ====
section
/-! DEFINITION. The float formats, rounding, MF8 and MF8N, conversions, and the mixing function (R203-R215). A finite
value is exact: a sign, a natural number and a power of two. -/

namespace Sys2Proof.Machine

/-- A value of a format: a NaN, an infinity, or (−1)^neg × m × 2^e. -/
inductive FV
  | nan (signalling : Bool)
  | inf (neg : Bool)
  | fin (neg : Bool) (m : Nat) (e : Int)
  deriving DecidableEq, Repr

/-- A binary format (R203): exponent bits, fraction bits, bias. -/
structure FFmt where
  ew : Nat
  fw : Nat
  bias : Nat
  deriving DecidableEq, Repr

def fp32 : FFmt := ⟨8, 23, 127⟩
def fp16 : FFmt := ⟨5, 10, 15⟩
def bf16 : FFmt := ⟨8, 7, 127⟩

/-- The format of a float type (R235). -/
def ftFmt (t : FType) : FFmt := match t with | .f32 => fp32 | .f16 => fp16 | .bf16 => bf16

/-- The canonical NaN (R203, R204). -/
def FFmt.qnan (f : FFmt) : Nat := (2 ^ f.ew - 1) * 2 ^ f.fw + 2 ^ (f.fw - 1)

/-- An infinity. -/
def FFmt.infBits (f : FFmt) (neg : Bool) : Nat := b2n neg * 2 ^ (f.ew + f.fw) + (2 ^ f.ew - 1) * 2 ^ f.fw

/-- The largest finite value of a sign. -/
def FFmt.maxBits (f : FFmt) (neg : Bool) : Nat := f.infBits neg - 1

/-- The value of the low bits of `x` in a format (R203). -/
def FFmt.unpack (f : FFmt) (x : Nat) : FV :=
  let fr := x % 2 ^ f.fw
  let ex := (x / 2 ^ f.fw) % 2 ^ f.ew
  let neg := (x / 2 ^ (f.fw + f.ew)) % 2 == 1
  if ex = 2 ^ f.ew - 1 then
    if fr = 0 then .inf neg else .nan (decide (fr < 2 ^ (f.fw - 1)))
  else if ex = 0 then .fin neg fr (1 - (f.bias : Int) - f.fw)
  else .fin neg (fr + 2 ^ f.fw) ((ex : Int) - f.bias - f.fw)

/-- `m × 2^e` compared with nothing lost: `m` shifted up by a non-negative exponent. -/
def shl (m : Nat) (e : Int) : Nat := m <<< e.toNat

/-- The choice of a rounding mode between the two neighbours of an inexact magnitude (R205, R206): `q` the lower one,
`rem / 2^sh` what is cut off. -/
def roundsUp (r : Rnd) (neg : Bool) (q rem sh rnd : Nat) : Bool :=
  match r with
  | .rne => decide (2 * rem > 2 ^ sh) || (decide (2 * rem = 2 ^ sh) && decide (q % 2 = 1))
  | .rtz => false
  | .rup => !neg
  | .rdn => neg
  | .sr => decide (2 ^ 16 ≤ (rem * 2 ^ 16) / 2 ^ sh + rnd)

/-- A magnitude `m × 2^e` rounded to a multiple of 2^q: the multiple, and whether it differs. -/
def roundTo (r : Rnd) (neg : Bool) (m : Nat) (e q : Int) (rnd : Nat) : Nat × Bool :=
  if q ≤ e then (shl m (e - q), false)
  else
    let sh := (q - e).toNat
    let lo := m >>> sh
    let rem := m % 2 ^ sh
    if rem = 0 then (lo, false) else (lo + b2n (roundsUp r neg lo rem sh rnd), true)

/-- An overflowed result (R205): ±∞ or ±largest, with OF and NX. -/
def FFmt.overflow (f : FFmt) (r : Rnd) (neg sat : Bool) : Nat × Nat :=
  let toInf := match r with | .rne => true | .rtz => false | .rup => !neg | .rdn => neg | .sr => false
  (if toInf && !sat then f.infBits neg else f.maxBits neg, flOF + flNX)

/-- Round an exact value once to a format (R205, R206): its bits and flags. `sat` is FPF.SATF for a conversion to a
16-bit format. A zero takes its sign from `neg`; SR gives +0. -/
def FFmt.round (f : FFmt) (r : Rnd) (sat : Bool) (rnd : Nat) (neg : Bool) (m : Nat) (e : Int) : Nat × Nat :=
  let sgn := b2n neg * 2 ^ (f.ew + f.fw)
  if m = 0 then (sgn, 0)
  else
    let top : Int := (m.log2 : Int) + e
    let emin : Int := 1 - (f.bias : Int)
    let q : Int := max (top - f.fw) (emin - f.fw)
    let (n, nx) := roundTo r neg m e q rnd
    let ex : Int := if n < 2 ^ f.fw then 0 else q + f.fw + f.bias + (if n < 2 ^ (f.fw + 1) then 0 else 1)
    -- under SR a magnitude above the largest finite value overflows whatever the random bits
    let (lo, lx) := roundTo .rtz neg m e q 0
    let above := decide (r = .sr) && decide (top + f.bias = 2 ^ f.ew - 2) && decide (lo = 2 ^ (f.fw + 1) - 1) && lx
    if above || (2 ^ f.ew - 1 : Int) ≤ ex then f.overflow r neg sat
    else
      let fr := if n < 2 ^ (f.fw + 1) then n % 2 ^ f.fw else 0
      -- the result as if the exponent had no lower bound (tininess after rounding)
      let (n', _) := roundTo r neg m e (top - f.fw) rnd
      let tiny := if r = .sr then decide (n < 2 ^ f.fw) else decide (top < emin) && !(decide (top + 1 = emin) && decide (n' = 2 ^ (f.fw + 1)))
      if n = 0 && decide (r = .sr) then (0, flUF + flNX)
      else (sgn + ex.toNat * 2 ^ f.fw + fr, (if nx then flNX else 0) + (if nx && tiny then flUF else 0))

/-- The bits of a value in a format, rounded once (R205, R213): a NaN is canonical and a signalling one sets NV. -/
def FFmt.of (f : FFmt) (r : Rnd) (sat : Bool) (rnd : Nat) (x : FV) : FR :=
  match x with
  | .nan s => ⟨BitVec.ofNat 64 f.qnan, if s then flNV else 0⟩
  | .inf n => ⟨BitVec.ofNat 64 (f.infBits n), 0⟩
  | .fin n m e => let (b, fl) := f.round r sat rnd n m e; ⟨BitVec.ofNat 64 b, fl⟩

/-! ### Arithmetic (R204, R238) -/

/-- An exact result, or a special one with its flags. -/
structure Exact where
  v : FV
  fl : Nat
  deriving DecidableEq, Repr

/-- A signalling NaN among the operands. -/
def FV.isSnan (x : FV) : Bool := match x with | .nan s => s | _ => false

/-- A NaN. -/
def FV.isNan (x : FV) : Bool := match x with | .nan _ => true | _ => false

/-- The NaN that an operation over NaN operands gives. -/
def nanOf (xs : List FV) : Exact := ⟨.nan false, if xs.any (fun x => x.isSnan) then flNV else 0⟩

/-- The invalid result. -/
def invalid : Exact := ⟨.nan false, flNV⟩

/-- A finite value negated. -/
def FV.neg (x : FV) : FV := match x with | .nan s => .nan s | .inf n => .inf (!n) | .fin n m e => .fin (!n) m e

/-- The signed multiple of 2^q that a finite value is, for q at most its exponent. -/
def sgnMag (n : Bool) (m : Nat) : Int := if n then -(m : Int) else m

/-- The sum of two finite values, exact; an exact zero takes the sign of R238. -/
def finAdd (r : Rnd) (n1 : Bool) (m1 : Nat) (e1 : Int) (n2 : Bool) (m2 : Nat) (e2 : Int) : FV :=
  if m1 = 0 && m2 = 0 then .fin (if n1 = n2 then n1 else decide (r = .rdn)) 0 0
  else
    let q := min e1 e2
    let x := sgnMag n1 (shl m1 (e1 - q)) + sgnMag n2 (shl m2 (e2 - q))
    if x = 0 then .fin (decide (r = .rdn)) 0 0 else .fin (decide (x < 0)) x.natAbs q

/-- a + b (R204, R238). -/
def fAdd (r : Rnd) (a b : FV) : Exact :=
  match a, b with
  | .nan _, _ => nanOf [a, b]
  | _, .nan _ => nanOf [a, b]
  | .inf n, .inf k => if n = k then ⟨.inf n, 0⟩ else invalid
  | .inf n, .fin _ _ _ => ⟨.inf n, 0⟩
  | .fin _ _ _, .inf n => ⟨.inf n, 0⟩
  | .fin n1 m1 e1, .fin n2 m2 e2 => ⟨finAdd r n1 m1 e1 n2 m2 e2, 0⟩

/-- a − b: a NaN operand is a NaN still. -/
def fSub (r : Rnd) (a b : FV) : Exact := fAdd r a b.neg

/-- a × b, exact. -/
def fMul (a b : FV) : Exact :=
  match a, b with
  | .nan _, _ => nanOf [a, b]
  | _, .nan _ => nanOf [a, b]
  | .inf n, .inf k => ⟨.inf (n != k), 0⟩
  | .inf n, .fin k m _ => if m = 0 then invalid else ⟨.inf (n != k), 0⟩
  | .fin k m _, .inf n => if m = 0 then invalid else ⟨.inf (n != k), 0⟩
  | .fin n1 m1 e1, .fin n2 m2 e2 => ⟨.fin (n1 != n2) (m1 * m2) (e1 + e2), 0⟩

/-- a × b + c without rounding the product: 0 × ∞ sets NV whatever the addend (R204). -/
def fMa (r : Rnd) (a b c : FV) : Exact :=
  let p := fMul a b
  let s := fAdd r p.v c
  ⟨s.v, p.fl ||| s.fl⟩

/-- a / b: enough bits of the quotient, and a last bit that says whether more follow. -/
def fDiv (a b : FV) : Exact :=
  match a, b with
  | .nan _, _ => nanOf [a, b]
  | _, .nan _ => nanOf [a, b]
  | .inf _, .inf _ => invalid
  | .inf n, .fin k _ _ => ⟨.inf (n != k), 0⟩
  | .fin n _ _, .inf k => ⟨.fin (n != k) 0 0, 0⟩
  | .fin n1 m1 e1, .fin n2 m2 e2 =>
    if m2 = 0 then (if m1 = 0 then invalid else ⟨.inf (n1 != n2), flDZ⟩)
    else if m1 = 0 then ⟨.fin (n1 != n2) 0 0, 0⟩
    else
      let q := (m1 <<< 64) / m2
      ⟨.fin (n1 != n2) (2 * q + b2n (decide ((m1 <<< 64) % m2 ≠ 0))) (e1 - e2 - 65), 0⟩

/-- The integer square root of `n`, bit by bit from bit `k − 1` down. -/
def isqrt (n : Nat) : Nat → Nat → Nat
  | 0, r => r
  | k + 1, r => if (r + 2 ^ k) * (r + 2 ^ k) ≤ n then isqrt n k (r + 2 ^ k) else isqrt n k r

/-- √a. -/
def fSqrt (a : FV) : Exact :=
  match a with
  | .nan _ => nanOf [a]
  | .inf n => if n then invalid else ⟨.inf false, 0⟩
  | .fin n m e =>
    if m = 0 then ⟨.fin n 0 0, 0⟩
    else if n then invalid
    else
      let (m, e) := if e % 2 = 0 then (m, e) else (2 * m, e - 1)
      let big := m <<< 64
      let s := isqrt big 48 0
      ⟨.fin false (2 * s + b2n (decide (s * s ≠ big))) (e / 2 - 33), 0⟩

/-- Round an exact result to a format. -/
def Exact.to (x : Exact) (f : FFmt) (r : Rnd) : FR :=
  let y := f.of r false 0 x.v
  ⟨y.val, y.fl ||| x.fl⟩

/-- A lane element, or the low bits of a uniform register, in a format. -/
def FFmt.get (f : FFmt) (x : W64) : FV := f.unpack x.toNat

def opFadd (f : FFmt) (r : Rnd) (a b : W64) : FR := (fAdd r (f.get a) (f.get b)).to f r
def opFsub (f : FFmt) (r : Rnd) (a b : W64) : FR := (fSub r (f.get a) (f.get b)).to f r
def opFmul (f : FFmt) (r : Rnd) (a b : W64) : FR := (fMul (f.get a) (f.get b)).to f r
def opFma (f : FFmt) (r : Rnd) (a b c : W64) : FR := (fMa r (f.get a) (f.get b) (f.get c)).to f r
def opFdiv (r : Rnd) (a b : W64) : FR := (fDiv (fp32.get a) (fp32.get b)).to fp32 r
def opFsqrt (r : Rnd) (a : W64) : FR := (fSqrt (fp32.get a)).to fp32 r

/-- The value as an ordering key: −0 below +0 (R239). -/
def FV.less (x y : FV) : Bool :=
  match x, y with
  | .inf n, .inf k => n && !k
  | .inf n, _ => n
  | _, .inf k => !k
  | .fin n1 m1 e1, .fin n2 m2 e2 =>
    let q := min e1 e2
    let a := sgnMag n1 (shl m1 (e1 - q))
    let b := sgnMag n2 (shl m2 (e2 - q))
    decide (a < b) || (decide (a = b) && n1 && !n2)
  | _, _ => false

/-- The values are equal, −0 and +0 alike (R240). -/
def FV.same (x y : FV) : Bool :=
  match x, y with
  | .inf n, .inf k => n == k
  | .fin n1 m1 e1, .fin n2 m2 e2 =>
    let q := min e1 e2
    decide (sgnMag n1 (shl m1 (e1 - q)) = sgnMag n2 (shl m2 (e2 - q)))
  | _, _ => false

/-- IEEE minimumNumber and maximumNumber over FP32 bits (R239). -/
def opFmm (mx : Bool) (a b : W64) : FR :=
  let x := fp32.get a
  let y := fp32.get b
  let fl := if x.isSnan || y.isSnan then flNV else 0
  let aa := (a.setWidth 32).setWidth 64
  let bb := (b.setWidth 32).setWidth 64
  if x.isNan && y.isNan then ⟨BitVec.ofNat 64 fp32.qnan, fl⟩
  else if x.isNan then ⟨bb, fl⟩
  else if y.isNan then ⟨aa, fl⟩
  else if mx then ⟨if x.less y then bb else aa, fl⟩
  else ⟨if y.less x then bb else aa, fl⟩

/-- VFCMP (R240): the condition and its flags. -/
def opFcmp (c : FCond) (a b : W64) : Bool × Nat :=
  let x := fp32.get a
  let y := fp32.get b
  let un := x.isNan || y.isNan
  let sn := x.isSnan || y.isSnan
  let lt := !un && x.less y && !(x.same y)
  let gt := !un && y.less x && !(x.same y)
  let eq := !un && x.same y
  let loud := match c with | .lt | .le | .gt | .ge => true | _ => false
  (match c with
    | .eq => eq | .ne => !eq | .lt => lt | .le => lt || eq | .gt => gt | .ge => gt || eq | .un => un | .ord => !un,
   if sn || (un && loud) then flNV else 0)

/-- VFCLASS (R241): one bit. -/
def opFclass (f : FFmt) (a : W64) : W64 :=
  let k := match f.get a with
    | .nan s => if s then 8 else 9
    | .inf n => if n then 0 else 7
    | .fin n m _ =>
      if m = 0 then (if n then 3 else 4)
      else if m < 2 ^ f.fw then (if n then 2 else 5)
      else (if n then 1 else 6)
  BitVec.ofNat 64 (2 ^ k)

/-- VFRND (R242). -/
def opFrnd (r : Rnd) (a : W64) : FR :=
  match fp32.get a with
  | .nan s => ⟨BitVec.ofNat 64 fp32.qnan, if s then flNV else 0⟩
  | .inf n => ⟨BitVec.ofNat 64 (fp32.infBits n), 0⟩
  | .fin n m e =>
    let (k, nx) := roundTo r n m e 0 0
    ⟨BitVec.ofNat 64 (fp32.round .rne false 0 n k 0).1, if nx then flNX else 0⟩

/-! ### MF8 and MF8N (R210-R212) -/

/-- The length of the run of leading body bits equal to body bit 6, from bit `i − 1` down. -/
def runLen (body : Nat) (x : Bool) : Nat → Nat
  | 0 => 0
  | i + 1 => if body.testBit i = x then 1 + runLen body x i else 0

/-- The magnitude of a positive body, in units of 2^−12 (R210, R211). -/
def mf8Mag (n : Bool) (body : Nat) : Nat :=
  if body = 0 then 0
  else
    let x := body.testBit 6
    let k := runLen body x 7
    let m := 6 - k
    let rg : Int := if x then (k : Int) - 1 else -(k : Int)
    let w := if n then m else m - 1
    let e : Nat := if n || m = 0 then 0 else (body / 2 ^ (m - 1)) % 2
    let ex : Int := if n then rg else 2 * rg + e
    -- (2^w + f) × 2^(ex − w), in units of 2^−12
    let num := 2 ^ w + body % 2 ^ w
    let s : Int := ex - w + 12
    if 0 ≤ s then shl num s else num / 2 ^ (-s).toNat

/-- The value of a byte (R210, R211). -/
def mf8Get (n : Bool) (b : Nat) : FV :=
  let b := b % 256
  if b = 0x80 then .nan false else .fin (decide (128 ≤ b)) (mf8Mag n (b % 128)) (-12)

/-- The largest body whose magnitude is at most `num / 2^k` (units of 2^−12), found bit by bit. -/
def mf8Floor (n : Bool) (num k : Nat) : Nat → Nat → Nat
  | 0, b => b
  | i + 1, b => if mf8Mag n (b + 2 ^ i) * 2 ^ k ≤ num then mf8Floor n num k i (b + 2 ^ i) else mf8Floor n num k i b

/-- A conversion into MF8 or MF8N (R206, R212). -/
def mf8Of (n : Bool) (r : Rnd) (rnd : Nat) (x : FV) : FR :=
  match x with
  | .nan s => ⟨0x80, if s then flNV else 0⟩
  | .inf neg => ⟨if neg then 0xFF else 0x7F, flOF + flNX⟩
  | .fin neg m e =>
    let sg := if neg then 128 else 0
    let num := if 0 ≤ e + 12 then shl m (e + 12) else m
    let k := (-(e + 12)).toNat
    let b := mf8Floor n num k 7 0
    let lo := mf8Mag n b * 2 ^ k
    if lo = num then ⟨BitVec.ofNat 64 (if b = 0 then 0 else sg + b), 0⟩
    else if b = 127 then ⟨BitVec.ofNat 64 (sg + 127), flOF + flNX⟩
    else
      let gap := mf8Mag n (b + 1) * 2 ^ k - lo
      let rem := num - lo
      let up := match r with
        | .rne => decide (2 * rem > gap) || (decide (2 * rem = gap) && decide (b % 2 = 1))
        | .rtz => false
        | .rup => !neg
        | .rdn => neg
        | .sr => decide (2 ^ 16 ≤ (rem * 2 ^ 16) / gap + rnd)
      let y := b + b2n up
      ⟨BitVec.ofNat 64 (if y = 0 then 0 else sg + y), flNX + (if b = 0 then flUF else 0)⟩

/-! ### Conversions (R213, R214, R245-R247) -/

/-- The width and signedness of an integer type, if the type is one (R110). -/
def tyInt (t : Ty) : Option (Nat × Bool) :=
  match t with
  | .i32 => some (32, true) | .n32 => some (32, false) | .i64 => some (64, true) | .n64 => some (64, false)
  | .i8 => some (8, true) | .n8 => some (8, false) | .i16 => some (16, true) | .n16 => some (16, false)
  | _ => none

/-- The type takes a w register. -/
def ty64 (t : Ty) : Bool := match t with | .i64 | .n64 => true | _ => false

/-- The exact value of an element of a type (R245). -/
def tyGet (t : Ty) (x : W64) : FV :=
  match t with
  | .f32 => fp32.unpack x.toNat
  | .f16 => fp16.unpack x.toNat
  | .bf16 => bf16.unpack x.toNat
  | .mf8 => mf8Get false x.toNat
  | .mf8n => mf8Get true x.toNat
  | _ =>
    match tyInt t with
    | some (w, s) =>
      let v : Int := if s then sInt w x.toNat else (x.toNat % 2 ^ w : Nat)
      .fin (decide (v < 0)) v.natAbs 0
    | none => .fin false 0 0

/-- A float converted to an integer type (R206, R214): the result as an integer of `w` bits. -/
def intOf (w : Nat) (s : Bool) (r : Rnd) (rnd : Nat) (x : FV) : FR :=
  let lo : Int := if s then -(2 ^ (w - 1) : Nat) else 0
  let hi : Int := if s then (2 ^ (w - 1) : Nat) - 1 else (2 ^ w : Nat) - 1
  let put (v : Int) : W64 := BitVec.ofNat 64 (wrapN w v)
  match x with
  | .nan _ => ⟨0, flNV⟩
  | .inf n => ⟨put (if n then lo else hi), flNV⟩
  | .fin n m e =>
    let (k, nx) := roundTo r n m e 0 rnd
    let v := sgnMag n k
    -- under SR a source outside the range gives the bound whatever the random bits
    let (fl, _) := roundTo .rdn n m e 0 0
    let (cl, _) := roundTo .rup n m e 0 0
    let out := if r = .sr then decide (sgnMag n fl < lo) || decide (hi < sgnMag n cl)
      else decide (v < lo) || decide (hi < v)
    if out then ⟨put (if n then lo else hi), flNV⟩ else ⟨put v, if nx then flNX else 0⟩

/-- One value converted (R245). The result is placed as R209 in 32 bits, or 64 for a 64-bit integer. -/
def cvt (dst src : Ty) (r : Rnd) (satf : Bool) (rnd : Nat) (x : W64) : FR :=
  let v := tyGet src x
  match dst with
  | .f32 => fp32.of r false rnd v
  | .f16 => fp16.of r satf rnd v
  | .bf16 => bf16.of r satf rnd v
  | .mf8 => mf8Of false r rnd v
  | .mf8n => mf8Of true r rnd v
  | _ =>
    match tyInt dst with
    | some (w, s) =>
      let y := intOf w s r rnd v
      ⟨if s && w < 32 then ((BitVec.ofNat 32 (wrapN 32 (sInt w y.val.toNat))).setWidth 64) else y.val, y.fl⟩
    | none => ⟨0, 0⟩

/-- Element `e` of a packed value as FP32 (R247). -/
def unpackEl (t : Ty) (e : Nat) (x : W64) : FR :=
  match t with
  | .f16 | .bf16 => cvt .f32 t .rne false 0 (x >>> (16 * e))
  | _ => cvt .f32 t .rne false 0 (x >>> (8 * e))

/-- Both elements of a pair through an operation of their format (R238). -/
def pairOp (f : W64 → W64 → FR) (a b : W64) : FR :=
  let x := f (a &&& 0xFFFF) (b &&& 0xFFFF)
  let y := f ((a >>> 16) &&& 0xFFFF) ((b >>> 16) &&& 0xFFFF)
  ⟨x.val ||| (y.val <<< 16), x.fl ||| y.fl⟩

/-- The same with an addend. -/
def pairOp3 (f : W64 → W64 → W64 → FR) (a b c : W64) : FR :=
  let x := f (a &&& 0xFFFF) (b &&& 0xFFFF) (c &&& 0xFFFF)
  let y := f ((a >>> 16) &&& 0xFFFF) ((b >>> 16) &&& 0xFFFF) ((c >>> 16) &&& 0xFFFF)
  ⟨x.val ||| (y.val <<< 16), x.fl ||| y.fl⟩

/-! ### The mixing function (R215) -/

/-- mix64. -/
def mix64 (x : W64) : W64 :=
  let x := x ^^^ (x >>> 31)
  let x := x * 0x7FB5D329728EA185
  let x := x ^^^ (x >>> 27)
  let x := x * 0x81DADEF4BC2DD44D
  x ^^^ (x >>> 33)

end Sys2Proof.Machine
end

