-- ==== Sys2Proof/Machine/Operands.lean ====
section
/-! DEFINITION. The operand forms of the uniform, affine and varying instructions: what a source reads, what it uses for
the scoreboard and the bounds check, and how results and completions are delivered (R106-R109, R116-R118, R219-R222). -/

namespace Sys2Proof.Machine

/-! ### Sources -/

/-- A uniform operand, or the immediate that replaces it. -/
def View.us (v : View) (u : USrc) (imm : W32 → W64) : W64 :=
  match u with
  | .reg r => v.rs r
  | .imm x => imm x

/-- The uses of a uniform operand in field `f`. -/
def useU (f : Nat) (u : USrc) : List Use := match u with | .reg r => [.s f r] | .imm _ => []

/-- The use of a varying source. -/
def useV (f : Nat) (is64 : Bool) (x : VSrc) : Use := .v f is64 x.reg

/-- The uses of the last operand of a varying form. -/
def useO (f : Nat) (is64 : Bool) (o : VOpnd) : List Use :=
  match o with | .v x => [.v f is64 x.reg] | .s r => [.s f r] | .imm _ => []

/-- The elements of a varying source, all lanes. -/
def View.vs (v : View) (is64 : Bool) (x : VSrc) : List W64 := v.rvAll is64 x.reg

/-- The elements of the last operand of a varying form: a uniform register or an immediate is the same in every lane. -/
def View.vo (v : View) (is64 : Bool) (o : VOpnd) (imm : W32 → W64) : List W64 :=
  match o with
  | .v x => v.rvAll is64 x.reg
  | .s r => List.replicate 96 (v.rs r)
  | .imm x => List.replicate 96 (imm x)

/-- Mark the last use of the last operand. -/
def View.lastO (v : View) (is64 : Bool) (o : VOpnd) (m : Mask) : View :=
  match o with | .v x => v.lastUse is64 x m | _ => v

/-- An immediate zero-extended. -/
def imm0 (x : W32) : W64 := x.setWidth 64

/-! ### Results -/

/-- A uniform result at the latency of class U, with the instruction's token. -/
def View.putS (v : View) (c : Ctl) (d : SReg) (x : W64) (lat : Nat) : View := (v.ws d x lat).tokenFor c lat

/-- An affine result. -/
def View.putA (v : View) (c : Ctl) (d : AReg) (x : Aff) : View := (v.wa d x latA).tokenFor c latA

/-- A predicate result over the lanes of `m`. -/
def View.putP (v : View) (c : Ctl) (d : PReg) (m x : Mask) (lat : Nat) : View := (v.wp d m x lat).tokenFor c lat

/-- A varying result over the lanes of `m`. -/
def View.putV (v : View) (c : Ctl) (is64 : Bool) (d : VReg) (m : Mask) (xs : List W64) (lat : Nat) : View :=
  (v.wv is64 d m (el xs) lat).tokenFor c lat

/-- The results of an operation with flags over the lanes of `m`; other lanes hold nothing. -/
def overLanes (m : Mask) (f : Nat → FR) : List FR := lanes.map (fun L => if m.getLsbD L then f L else ⟨0, 0⟩)

/-- The values of a list of results. -/
def valsOf (xs : List FR) : List W64 := xs.map (fun x => x.val)

/-- The flags of a list of results together. -/
def flsOf (xs : List FR) : Nat := xs.foldl (fun f x => f ||| x.fl) 0

/-- The lanes whose results carry a flag of the set `f`. -/
def lanesWith (xs : List FR) (f : Nat) : Mask := maskOf (fun L => decide ((xs.getD L ⟨0, 0⟩).fl &&& f ≠ 0))

/-- The row of the low halves, and of the high halves, of a list of elements. -/
def loRow (xs : List W64) : Row := xs.map (fun x => x.setWidth 32)
def hiRow (xs : List W64) : Row := xs.map (fun x => x.extractLsb' 32 32)

/-! ### Delivery of a class-V result (R115, R116, R118, R189) -/

/-- A split hears in cycle `t` that its instruction `seq` is complete: its destinations are no longer outstanding and its token falls. -/
def Pack.retireOp (p : Pack) (i seq : Nat) (tok : Option Nat) (t : Nat) : Pack :=
  p.updSplit i (fun x =>
    if x.holds seq then
      let x := { x with out := x.out.filter (fun o => o.seq != seq), hold := if x.hold = some seq then none else x.hold }
      match tok with | some q => x.tokFall q t | none => x
    else x)

/-- A mask word of a compute core (R180). -/
def maskWord (svc : Bool) (r : SReg) : Bool := !svc && decide (60 ≤ r.toNat) && decide (r.toNat < 63)

/-- Write a class-V result to its destination over the producer's lanes; a mask word is the split's own (R180). -/
def Pack.deliver (p : Pack) (svc : Bool) (i seq : Nat) (d : Dest) (m : Mask) (lo hi : Row) (sval : W64) : Pack :=
  let live := match p.split i with | some x => x.holds seq | none => false
  match d with
  | .none => p
  | .s r =>
    if maskWord svc r then
      p.updSplit i (fun x => if x.holds seq then x.setMask [(r.toNat - 60, sval.setWidth 32)] else x)
    else if live then p.applyAt i seq (.s r sval) else p.apply (.s r sval)
  | .p r =>
    let w : FileW := .p r m (maskOf (fun L => lane lo L != 0))
    if live then p.applyAt i seq w else p.apply w
  | .v row wide =>
    let put (p : Pack) (row : Nat) (x : Row) : Pack :=
      if live then p.arriveRow i seq row m x else p.bankAfter ⟨seq, row, m, x, true, 0⟩
    let p := put p row lo
    if wide then put p (row + 1) hi else p

/-- A varying destination as window rows. -/
def View.destV (v : View) (is64 : Bool) (d : VReg) : Dest :=
  if is64 then .v (v.wrow d) true else .v (v.vrow d) false

/-- A class-V instruction leaves: its destination is outstanding, its token rises, and the split is held while `held`, or
while its destination is a mask word (R115, R116, R138, R180). -/
def View.leave (v : View) (c : Ctl) (d : Dest) (held : Bool) : View × Option Nat :=
  let mw := match d with | .s r => maskWord v.svc r | _ => false
  let v := v.outV d
  let (v, q) := v.tokenV c
  (if held || mw then { v with sp := { v.sp with hold := some v.sp.seq } } else v, q)

end Sys2Proof.Machine
end

