-- ==== Sys2Proof/Machine/Affine.lean ====
section
/-! DEFINITION. Affine arithmetic, and the instructions that move values between the three shapes (R182-R200, R232). -/

namespace Sys2Proof.Machine

/-- The base of an affine register read signed at its own width (R183). -/
def Aff.base (x : Aff) : Int := sInt (if x.wide then 64 else 32) x.b.toNat

/-- The signed value that lane L reads (R184). -/
def Aff.sval (x : Aff) (L : Nat) : Int := sInt (if x.wide then 64 else 32) (x.lane L).toNat

/-- Store an affine result (R183, R184, R232): base and stride before the reduction, and the exact value of each lane. A 64-bit
stride that 32 bits cannot hold faults in every form; a lane out of range faults in the .T form and else sets AOV. A fault names the
lowest lane out of range, or 127 when the stride alone cannot be held. -/
def View.affine (v : View) (c : Ctl) (act : Mask) (wide t : Bool) (d : AReg) (base stride : Int) (exact : Nat → Int) : Res :=
  let w := if wide then 64 else 32
  let bad := (lanesOf act).find? (fun L => decide (exact L < -(2 ^ (w - 1) : Nat)) || decide ((2 ^ (w - 1) : Nat) ≤ exact L))
  let badStride := wide && (decide (stride < -(2 ^ 31 : Nat)) || decide ((2 ^ 31 : Nat) ≤ stride))
  if badStride || (t && bad.isSome) then .fault (v.faultRec fcAffineOverflow 0 0 0 0 (bad.getD 127) 0)
  else
    let x : Aff := ⟨BitVec.ofNat 64 (wrapN w base), BitVec.ofNat 32 (wrapN 32 stride), wide⟩
    let v := if bad.isSome then v.setAov else v
    .done (v.putA c d x)

/-- AMOVI (R232). -/
def execAmovi (c : Ctl) (w64 t : Bool) (d : AReg) (base stride : W32) (s : State) : Host.Outcome State Fault Refusal :=
  issue c [.da d] (fun v act =>
    v.affine c act w64 t d base.toInt stride.toInt (fun L => base.toInt + (L : Int) * stride.toInt)) s

/-- AADD (R232). -/
def execAadd (c : Ctl) (w64 t : Bool) (d a b : AReg) (s : State) : Host.Outcome State Fault Refusal :=
  issue c [.da d, .a 1 a, .a 2 b] (fun v act =>
    let x := v.ra a
    let y := v.ra b
    v.affine c act w64 t d (x.base + y.base) (x.st.toInt + y.st.toInt) (fun L => x.sval L + y.sval L)) s

/-- ASUB (R232). -/
def execAsub (c : Ctl) (w64 t : Bool) (d a b : AReg) (s : State) : Host.Outcome State Fault Refusal :=
  issue c [.da d, .a 1 a, .a 2 b] (fun v act =>
    let x := v.ra a
    let y := v.ra b
    v.affine c act w64 t d (x.base - y.base) (x.st.toInt - y.st.toInt) (fun L => x.sval L - y.sval L)) s

/-- The uniform operand of an affine form, signed (R232). -/
def View.ua (v : View) (b : USrc) : Int := (v.us b (fun x => x.signExtend 64)).toInt

/-- AADDS, with .NEG a difference (R232). -/
def execAadds (c : Ctl) (neg w64 t : Bool) (d a : AReg) (b : USrc) (s : State) : Host.Outcome State Fault Refusal :=
  issue c ([.da d, .a 1 a] ++ useU 2 b) (fun v act =>
    let x := v.ra a
    let u := if neg then -(v.ua b) else v.ua b
    v.affine c act w64 t d (x.base + u) x.st.toInt (fun L => x.sval L + u)) s

/-- AMULS (R232). -/
def execAmuls (c : Ctl) (w64 t : Bool) (d a : AReg) (b : USrc) (s : State) : Host.Outcome State Fault Refusal :=
  issue c ([.da d, .a 1 a] ++ useU 2 b) (fun v act =>
    let x := v.ra a
    let u := v.ua b
    v.affine c act w64 t d (x.base * u) (x.st.toInt * u) (fun L => x.sval L * u)) s

/-- ASHLS: the amount is u mod 64 (R183, R232). -/
def execAshls (c : Ctl) (w64 t : Bool) (d a : AReg) (b : USrc) (s : State) : Host.Outcome State Fault Refusal :=
  issue c ([.da d, .a 1 a] ++ useU 2 b) (fun v act =>
    let x := v.ra a
    let k : Int := (2 ^ (v.ua b % 64).toNat : Nat)
    v.affine c act w64 t d (x.base * k) (x.st.toInt * k) (fun L => x.sval L * k)) s

/-- PSA (R195): a uniform base and a 32-bit stride. -/
def execPsa (c : Ctl) (w64 t : Bool) (d : AReg) (base : SReg) (stride : USrc) (s : State) : Host.Outcome State Fault Refusal :=
  issue c ([.da d, .s 1 base] ++ useU 2 stride) (fun v act =>
    let b := sInt (if w64 then 64 else 32) (v.rs base).toNat
    let st := sInt 32 (v.us stride imm0).toNat
    v.affine c act w64 t d b st (fun L => b + (L : Int) * st)) s

/-- The type of a promotion names a w register (R193). -/
def pt64 (t : PType) : Bool := match t with | .i64 | .n64 => true | _ => false

/-- The integer type of a promotion; .F32 moves 32 bits as .N32 does (R196, R197). -/
def ptInt (t : PType) : IType := match t with | .i32 => .i32 | .n32 => .n32 | .i64 => .i64 | .n64 => .n64 | .f32 => .n32

/-- PSV (R196). -/
def execPsv (c : Ctl) (t : PType) (d : VReg) (a : SReg) (s : State) : Host.Outcome State Fault Refusal :=
  issue c [.dv (pt64 t) d, .s 1 a] (fun v act =>
    .done (v.putV c (pt64 t) d act (List.replicate 96 (v.rs a)) latVI)) s

/-- PAV (R196): a 32-bit affine value is extended as the type states. -/
def execPav (c : Ctl) (t : IType) (d : VReg) (a : AReg) (s : State) : Host.Outcome State Fault Refusal :=
  issue c [.dv (it64 t) d, .a 1 a] (fun v act =>
    let x := v.ra a
    .done (v.putV c (it64 t) d act
      (lanes.map (fun L => if itS t && !x.wide then ((x.lane L).setWidth 32).signExtend 64 else x.lane L)) latVI)) s

/-- VPICK (R194, R197): one lane of a varying register, whatever the lane's state. -/
def execVpick (c : Ctl) (t : PType) (d : SReg) (a : VSrc) (i : USrc) (s : State) : Host.Outcome State Fault Refusal :=
  issueWide c ([.ds d, useV 1 (pt64 t) a] ++ useU 2 i) (fun v _ =>
    let L := (v.us i imm0).toNat % 96
    let x := v.rv (pt64 t) a.reg L
    .done ((v.lastUse (pt64 t) a (maskList [L])).putS c d (itExt (ptInt t) x) latX)) s

/-- The lanes of ACT in which a predicate is 1 (R198). -/
def View.vote (v : View) (a : PReg) (act : Mask) : Mask := v.rp a &&& act

/-- VBALLOT (R198): the word of one beat, or with .ALL the three words in one write; mask words are written together. -/
def execVballot (c : Ctl) (beat : BitVec 2) (d : SReg) (a : PReg) (s : State) : Host.Outcome State Fault Refusal :=
  if beat = 3 then
    issueWide c [.ds d, .ds (d + 1), .ds (d + 2), .p 1 a] (fun v act =>
      let m := v.vote a act
      let ws := [(d, beatWord m 0), (d + 1, beatWord m 1), (d + 2, beatWord m 2)]
      let mk := ws.filterMap (fun (r, x) => if maskWord v.svc r then some (r.toNat - 60, x) else none)
      let w := (ws.filter (fun (r, _) => !maskWord v.svc r)).foldl (fun w (r, x) => w.ws r (x.setWidth 64) latX) v
      .done ((if mk.isEmpty then w else w.wmask mk latX).tokenFor c latX)) s
  else
    issueWide c [.ds d, .p 1 a] (fun v act =>
      .done (v.putS c d ((beatWord (v.vote a act) beat.toNat).setWidth 64) latX)) s

/-- VANY (R198). -/
def execVany (c : Ctl) (d : SReg) (a : PReg) (s : State) : Host.Outcome State Fault Refusal :=
  issueWide c [.ds d, .p 1 a] (fun v act => .done (v.putS c d (if v.vote a act = 0 then 0 else 1) latX)) s

/-- VALL (R198). -/
def execVall (c : Ctl) (d : SReg) (a : PReg) (s : State) : Host.Outcome State Fault Refusal :=
  issueWide c [.ds d, .p 1 a] (fun v act => .done (v.putS c d (if v.vote a act = act then 1 else 0) latX)) s

/-- The elements of the lanes of ACT, ascending (R199). -/
def View.actEls (v : View) (is64 : Bool) (a : VSrc) (act : Mask) : List W64 :=
  let xs := v.vs is64 a
  (lanesOf act).map (fun L => el xs L)

/-- A float reduction in ascending lane order: its flags, and a NaN lane gives the canonical NaN (R199). -/
def foldF (op : W64 → W64 → FR) (xs : List W64) : FR :=
  match xs with
  | [] => ⟨0, 0⟩
  | x :: xs =>
    let sn := (x :: xs).any (fun y => (fp32.get y).isSnan)
    let r := xs.foldl (fun (acc : FR) y => let z := op acc.val y; ⟨z.val, acc.fl ||| z.fl⟩) ⟨(x.setWidth 32).setWidth 64, 0⟩
    ⟨if (x :: xs).any (fun y => (fp32.get y).isNan) then BitVec.ofNat 64 fp32.qnan else r.val,
     r.fl ||| (if sn then flNV else 0)⟩

/-- A reduction over ACT into one uniform value (R199): `int` combines the lane values, `flt` the float ones. -/
def reduce (int : List Int → Int) (flt : W64 → W64 → FR) (c : Ctl) (t : PType) (d : SReg) (a : VSrc) (s : State) : Host.Outcome State Fault Refusal :=
  issueWide c [.ds d, useV 1 (pt64 t) a] (fun v act =>
    let xs := v.actEls (pt64 t) a act
    let v := v.lastUse (pt64 t) a act
    match t with
    | .f32 =>
      let r := foldF flt xs
      .done ((v.orFpf r.fl).putS c d r.val latX)
    | _ => .done (v.putS c d (BitVec.ofInt 64 (int (xs.map (itRead (ptInt t))))) latX)) s

/-- VREDADD (R199). -/
def execVredadd (c : Ctl) (t : PType) (d : SReg) (a : VSrc) (s : State) : Host.Outcome State Fault Refusal :=
  reduce (fun xs => xs.foldl (· + ·) 0) (opFadd fp32 .rne) c t d a s

/-- The fold of a non-empty list. -/
def fold1 (f : Int → Int → Int) (xs : List Int) : Int := match xs with | [] => 0 | x :: xs => xs.foldl f x

/-- VREDMIN (R199). -/
def execVredmin (c : Ctl) (t : PType) (d : SReg) (a : VSrc) (s : State) : Host.Outcome State Fault Refusal := reduce (fold1 min) (opFmm false) c t d a s

/-- VREDMAX (R199). -/
def execVredmax (c : Ctl) (t : PType) (d : SReg) (a : VSrc) (s : State) : Host.Outcome State Fault Refusal := reduce (fold1 max) (opFmm true) c t d a s

/-- AGETB (R200). -/
def execAgetb (c : Ctl) (n : Bool) (d : SReg) (a : AReg) (s : State) : Host.Outcome State Fault Refusal :=
  issue c [.ds d, .a 1 a] (fun v _ =>
    let x := v.ra a
    .done (v.putS c d (if x.wide || n then x.b else (x.b.setWidth 32).signExtend 64) latA)) s

/-- AGETS: the stride, or with .W the width (R200). -/
def execAgets (c : Ctl) (w : Bool) (d : SReg) (a : AReg) (s : State) : Host.Outcome State Fault Refusal :=
  issue c [.ds d, .a 1 a] (fun v _ =>
    let x := v.ra a
    .done (v.putS c d (if w then (if x.wide then 64 else 32) else x.st.signExtend 64) latA)) s

end Sys2Proof.Machine
end

