-- ==== Sys2Proof/Machine/Crypto.lean ====
section
/-! DEFINITION. What the crypto engines of a slice store for a line, its tag, and the integrity tree above it (R22, R24, R26, R27), the
seal of a frame (R385), and SHA-512 (R393, R397). The state holds the bytes that an access reads; the stored ciphertext, the tags, the
tree and its root are functions of it. -/

namespace Sys2Proof.Machine

/-! ### AES-256 (FIPS 197) -/

/-- Multiplication by x in GF(2^8). -/
def xtime (a : Byte) : Byte := (a <<< 1) ^^^ (if a.getLsbD 7 then 0x1B else 0)

/-- Multiplication in GF(2^8), over the bits of the first factor. -/
def gmul (a b : Byte) : Byte :=
  ((List.range 8).foldl (fun (r : Byte × Byte) i => (if a.getLsbD i then r.1 ^^^ r.2 else r.1, xtime r.2)) (0, b)).1

/-- The inverse in GF(2^8), 0 for 0: the 254th power. -/
def ginv (a : Byte) : Byte :=
  let p2 := gmul a a
  let p4 := gmul p2 p2
  let p8 := gmul p4 p4
  let p16 := gmul p8 p8
  let p32 := gmul p16 p16
  let p64 := gmul p32 p32
  gmul p2 (gmul p4 (gmul p8 (gmul p16 (gmul p32 (gmul p64 (gmul p64 p64))))))

/-- The S-box. -/
def sbox (a : Byte) : Byte :=
  let b := ginv a
  b ^^^ b.rotateLeft 1 ^^^ b.rotateLeft 2 ^^^ b.rotateLeft 3 ^^^ b.rotateLeft 4 ^^^ 0x63

/-- The bytes of a list of 16, combined with those of a round key. -/
def xorBytes (a b : List Byte) : List Byte := List.zipWith (fun x y => x ^^^ y) a b

/-- ShiftRows over the 16 bytes, column by column. -/
def shiftRows (a : List Byte) : List Byte := (List.range 16).map (fun i => a.getD ((i + 4 * (i % 4)) % 16) 0)

/-- MixColumns over the 16 bytes. -/
def mixColumns (a : List Byte) : List Byte :=
  (List.range 16).map (fun i =>
    let b (k : Nat) : Byte := a.getD (i / 4 * 4 + (i + k) % 4) 0
    gmul 2 (b 0) ^^^ gmul 3 (b 1) ^^^ b 2 ^^^ b 3)

/-- The next four key bytes of the schedule of AES-256: word `i` from the word before it and the word eight before. -/
def keyWord (i : Nat) (before eight : List Byte) : List Byte :=
  let rcon : Byte := (List.range (i / 8 - 1)).foldl (fun (r : Byte) _ => xtime r) 1
  let t :=
    if i % 8 = 0 then xorBytes ((before.drop 1 ++ before.take 1).map sbox) [rcon, 0, 0, 0]
    else if i % 8 = 4 then before.map sbox
    else before
  xorBytes eight t

/-- The bytes of a number, most significant first. -/
def beBytes (n v : Nat) : List Byte := (bytesOf n v).reverse

/-- The 60 words of the key schedule. -/
def keyWords (key : BitVec 256) : List (List Byte) :=
  let ks := beBytes 32 key.toNat
  let first := (List.range 8).map (fun i => (ks.drop (4 * i)).take 4)
  (List.range 52).foldl (fun (w : List (List Byte)) i => w ++ [keyWord (i + 8) (w.getD (i + 7) []) (w.getD i [])]) first

/-- AES-256 of one block of 16 bytes. -/
def aes256 (key : BitVec 256) (block : List Byte) : List Byte :=
  let ws := keyWords key
  let rk (r : Nat) : List Byte := ((ws.drop (4 * r)).take 4).flatten
  let mid := (List.range 13).foldl (fun (b : List Byte) r => xorBytes (mixColumns (shiftRows (b.map sbox))) (rk (r + 1)))
    (xorBytes block (rk 0))
  xorBytes (shiftRows (mid.map sbox)) (rk 14)

/-! ### XTS, counter mode and GMAC over one line (R22) -/

/-- The tweak of the next block of a data unit: multiplication by x in GF(2^128), least significant byte first. -/
def xtsNext (t : Nat) : Nat := (2 * t) % 2 ^ 128 ^^^ (if t < 2 ^ 127 then 0 else 0x87)

/-- A line under AES-256-XTS: the data unit is the line and the tweak its address / 64. -/
def xtsLine (k : KeySet) (line : Nat) (bs : List Byte) : List Byte :=
  let t0 := ofBytes (aes256 k.tweak (bytesOf 16 line))
  ((List.range 4).foldl (fun (r : List Byte × Nat) i =>
    let t := bytesOf 16 r.2
    (r.1 ++ xorBytes (aes256 k.data (xorBytes ((bs.drop (16 * i)).take 16) t)) t, xtsNext r.2)) ([], t0)).1

/-- A line under AES-256 counter mode. R22 gives no layout of the counter block: here the address / 64, the line's counter and the
number of the block (see the assumption log). -/
def ctrLine (k : KeySet) (line major minor : Nat) (bs : List Byte) : List Byte :=
  (List.range 4).flatMap (fun i =>
    xorBytes ((bs.drop (16 * i)).take 16) (aes256 k.counter (beBytes 5 line ++ beBytes 8 major ++ beBytes 2 minor ++ [BitVec.ofNat 8 i])))

/-- Multiplication in the field of GCM, most significant bit first. -/
def ghashMul (x y : BitVec 128) : BitVec 128 :=
  ((List.range 128).foldl (fun (r : BitVec 128 × BitVec 128) i =>
    (if x.getMsbD i then r.1 ^^^ r.2 else r.1, (r.2 >>> 1) ^^^ (if r.2.getLsbD 0 then 0xE1#128 <<< 120 else 0))) (0, y)).1

/-- A block as a number of the field. -/
def blockNat (bs : List Byte) : BitVec 128 := BitVec.ofNat 128 (ofBytes bs.reverse)

/-- Bits 63:0 of the AES-256-GMAC tag of blocks of 16 bytes under a nonce of 12 bytes. -/
def gmacTag (k : KeySet) (nonce : List Byte) (blocks : List (List Byte)) : W64 :=
  let h := blockNat (aes256 k.gmac (List.replicate 16 0))
  let len : BitVec 128 := BitVec.ofNat 128 (128 * blocks.length) <<< 64
  let g := ghashMul (blocks.foldl (fun (y : BitVec 128) b => ghashMul (y ^^^ blockNat b) h) 0 ^^^ len) h
  (g ^^^ blockNat (aes256 k.gmac (nonce ++ [0, 0, 0, 1]))).setWidth 64

/-- AES-256-GCM of bytes under a nonce of 12 bytes, with additional data: the ciphertext, and the 16-byte tag (R385). -/
def gcmSeal (key : BitVec 256) (nonce aad bs : List Byte) : List Byte × List Byte :=
  let h := blockNat (aes256 key (List.replicate 16 0))
  let ct := (List.range ((bs.length + 15) / 16)).flatMap (fun i =>
    xorBytes ((bs.drop (16 * i)).take 16) (aes256 key (nonce ++ beBytes 4 (i + 2))))
  let blocks (x : List Byte) : List (List Byte) :=
    (List.range ((x.length + 15) / 16)).map (fun i => ((x.drop (16 * i)).take 16 ++ List.replicate 15 0).take 16)
  let len := beBytes 8 (8 * aad.length) ++ beBytes 8 (8 * ct.length)
  let g := (blocks aad ++ blocks ct ++ [len]).foldl (fun (y : BitVec 128) b => ghashMul (y ^^^ blockNat b) h) 0
  (ct, beBytes 16 (g ^^^ blockNat (aes256 key (nonce ++ [0, 0, 0, 1]))).toNat)

/-! ### SHA-512 (FIPS 180-4) -/

/-- The largest number whose `k`-th power is at most `n`, bit by bit from above `r`. -/
def rootBelow (k n : Nat) : Nat → Nat → Nat
  | 0, r => r
  | b + 1, r => rootBelow k n b (if (r + 2 ^ b) ^ k ≤ n then r + 2 ^ b else r)

/-- The first 80 prime numbers. -/
def shaPrimes : List Nat :=
  [2, 3, 5, 7, 11, 13, 17, 19, 23, 29, 31, 37, 41, 43, 47, 53, 59, 61, 67, 71,
    73, 79, 83, 89, 97, 101, 103, 107, 109, 113, 127, 131, 137, 139, 149, 151, 157, 163, 167, 173,
    179, 181, 191, 193, 197, 199, 211, 223, 227, 229, 233, 239, 241, 251, 257, 263, 269, 271, 277, 281,
    283, 293, 307, 311, 313, 317, 331, 337, 347, 349, 353, 359, 367, 373, 379, 383, 389, 397, 401, 409]

/-- The first 64 bits of the fraction of a `k`-th root. -/
def rootFraction (k p : Nat) : W64 := BitVec.ofNat 64 (rootBelow k (p * 2 ^ (64 * k)) 72 0)

/-- The round constants, and the first hash value. -/
def shaK : List W64 := shaPrimes.map (rootFraction 3)
def shaH : List W64 := (shaPrimes.take 8).map (rootFraction 2)

/-- The message schedule of a block of 128 bytes. -/
def shaSchedule (block : List Byte) : List W64 :=
  let first := (List.range 16).map (fun i => BitVec.ofNat 64 (ofBytes ((block.drop (8 * i)).take 8).reverse))
  (List.range 64).foldl (fun (w : List W64) i =>
    let x := w.getD (i + 1) 0
    let y := w.getD (i + 14) 0
    w ++ [(y.rotateRight 19 ^^^ y.rotateRight 61 ^^^ (y >>> 6)) + w.getD (i + 9) 0 + (x.rotateRight 1 ^^^ x.rotateRight 8 ^^^ (x >>> 7)) +
      w.getD i 0]) first

/-- One round over the eight working variables. -/
def shaRound (v : List W64) (kw : W64) : List W64 :=
  let x (i : Nat) : W64 := v.getD i 0
  let t1 := x 7 + ((x 4).rotateRight 14 ^^^ (x 4).rotateRight 18 ^^^ (x 4).rotateRight 41) + ((x 4 &&& x 5) ^^^ (~~~(x 4) &&& x 6)) + kw
  let t2 := ((x 0).rotateRight 28 ^^^ (x 0).rotateRight 34 ^^^ (x 0).rotateRight 39) + ((x 0 &&& x 1) ^^^ (x 0 &&& x 2) ^^^ (x 1 &&& x 2))
  [t1 + t2, x 0, x 1, x 2, x 3 + t1, x 4, x 5, x 6]

/-- The hash value after a block. -/
def shaBlock (h : List W64) (block : List Byte) : List W64 :=
  List.zipWith (· + ·) h ((List.zipWith (· + ·) shaK (shaSchedule block)).foldl shaRound h)

/-- SHA-512 of bytes; its 64 bytes as a number, the first the least significant. -/
def sha512 (bs : List Byte) : Nat :=
  let n := bs.length
  let padded := bs ++ [0x80] ++ List.replicate ((239 - n % 128) % 128) 0 ++ beBytes 16 (8 * n)
  let h := (List.range (padded.length / 128)).foldl (fun (h : List W64) i => shaBlock h ((padded.drop (128 * i)).take 128)) shaH
  ofBytes (h.flatMap (fun w => beBytes 8 w.toNat))

/-- Bytes in blocks of 16. -/
def blocksOf (n : Nat) (bs : List Byte) : List (List Byte) := (List.range n).map (fun i => (bs.drop (16 * i)).take 16)

/-! ### What the slices store (R22, R26) -/

/-- The keys that the crypto engine of a slice holds. -/
def State.keysOf (s : State) (sl : Nat) : KeySet := get ⟨0, 0, 0, 0⟩ s.sliceKeys sl

/-- The 64 bytes that HBM holds for a line: plaintext for CLR, ciphertext for ENC and ENCI. -/
def State.storedLine (s : State) (line : Nat) : List Byte :=
  let bs := (List.range 64).map (fun i => s.byte (64 * line + i))
  let k := s.keysOf (sliceOf (64 * line))
  match get 0 s.frames (line / 1024) with
  | 2 => xtsLine k line bs
  | 3 => ctrLine k line (get 0 s.major (line / 64)) (get 0 s.minor line) bs
  | _ => bs

/-- The tag that an ENCI line's contents have: over its ciphertext, its address / 64 and its counter, the 64-bit major and the minor one. -/
def State.lineTag (s : State) (line : Nat) : W64 :=
  let nonce := beBytes 5 line ++ beBytes 5 (get 0 s.major (line / 64)) ++ beBytes 2 (get 0 s.minor line)
  gmacTag (s.keysOf (sliceOf (64 * line))) nonce (blocksOf 4 (s.storedLine line) ++
    [beBytes 8 line ++ beBytes 8 (get 0 s.major (line / 64)), beBytes 8 (get 0 s.minor line) ++ List.replicate 8 0])

/-- The tag that the metadata region holds for a line. -/
def State.storedTag (s : State) (line : Nat) : W64 := s.lineTag line ^^^ get 0 s.tagDelta line

/-- A counter block: the major counter and 64 minor counters of 7 bits. -/
def State.counterBlock (s : State) (b : Nat) : List Byte :=
  bytesOf 64 (get 0 s.major b % 2 ^ 64 + ((List.range 64).map (fun i => get 0 s.minor (64 * b + i) % 128 * 2 ^ (64 + 7 * i))).foldl (· + ·) 0)

/-- The counter blocks that a slice of 8 GiB holds (R26): those of its lower 7 GiB. -/
def sliceBlocks : Nat := 1835008

/-- The slices of a partition, ascending, as its registers name them (R19). -/
def State.treeSlices (s : State) (p : Nat) : List Nat :=
  (List.range 96).filter (fun i =>
    if i < 64 then bit (s.mreg 0 (partBase p + 0x10)) i else bit (s.mreg 0 (partBase p + 0x18)) (i - 64))

/-- Counter block `i` of a partition, the slices ascending (R26): the number of the 4 KiB that it covers. -/
def State.treeBlock (s : State) (p i : Nat) : Option Nat :=
  ((s.treeSlices p)[i / sliceBlocks]?).map (fun sl => sl * 2 ^ 21 + i % sliceBlocks)

/-- The tag that stands over node `i` of a level of a partition's tree, under the GMAC key of the partition: level 0 are the counter blocks,
and a node of a higher level holds the tags of its eight children. -/
def State.nodeTag (s : State) (p : Nat) : Nat → Nat → W64
  | 0, i =>
    match s.treeBlock p i with
    | some b => gmacTag (get ⟨0, 0, 0, 0⟩ s.keys p) (beBytes 12 i) (blocksOf 4 (s.counterBlock b))
    | none => 0
  | l + 1, i =>
    gmacTag (get ⟨0, 0, 0, 0⟩ s.keys p) (beBytes 4 (l + 1) ++ beBytes 8 i)
      (blocksOf 4 ((List.range 8).flatMap (fun j => bytesOf 8 (s.nodeTag p l (8 * i + j)).toNat)))

/-- How many levels stand between `n` counter blocks and the root of eight tags. -/
def treeLevels : Nat → Nat → Nat
  | 0, _ => 0
  | fuel + 1, n => if n ≤ 8 then 0 else 1 + treeLevels fuel ((n + 7) / 8)

/-- The root of a partition's tree, which the trust engine holds: eight tags over all its counter blocks (R26). -/
def State.treeRoot (s : State) (p : Nat) : List W64 :=
  (List.range 8).map (fun i => s.nodeTag p (treeLevels 32 ((s.treeSlices p).length * sliceBlocks)) i)

end Sys2Proof.Machine
end

