-- ==== Sys2Proof/Machine/Errors.lean ====
section
/-! DEFINITION. The hub error log and the owner of a slice (R29, R35). -/

namespace Sys2Proof.Machine

/-- Addresses of SLICE_STAT and of the error log (R29, R35), and the reset value of SLICE_STAT. -/
def sliceStat (sl : Nat) : Nat := 0x11_0000 + 8 * sl
def errLog (i : Nat) : Nat := 0x12_0000 + 32 * i
def errHead : Nat := 0x12_8000
def sliceStatReset : W64 := 0xFF00

/-- The key of the number of records that have been logged, among the counters without a register. -/
def logCount : Nat := 0

/-- The partition that owns a slice, if any (R29). -/
def State.sliceOwner (s : State) (sl : Nat) : Option Nat :=
  let o := fld (s.mreg sliceStatReset (sliceStat sl)) 8 8
  if o = 0xFF then none else some o

/-- The service cores of a partition hear of an event. -/
def State.postPart (s : State) (p : Nat) (e : SvcEvent) : State :=
  ((List.range 32).filter (fun n => bit (s.mreg 0 (partBase p + 0x08)) n)).foldl (fun (s : State) n => s.postEvent n e) s

/-- Add a record to the hub error log (R35): the oldest of 1,024 goes when the ring is full. The first record has index 0. -/
def State.logError (s : State) (kind pa : Nat) (part : Option Nat) (die unit info : Nat) : State :=
  let n := get 0 s.cec logCount
  let i := n % 1024
  let p := part.getD 0xFF
  let a := errLog i
  let s := (s.setMreg a (BitVec.ofNat 64 s.time)).setMreg (a + 8) (BitVec.ofNat 64 pa)
  let s := s.setMreg (a + 16) (BitVec.ofNat 64 (kind + p * 2 ^ 8 + die * 2 ^ 16 + unit % 256 * 2 ^ 24 + info * 2 ^ 32))
  let s := s.setMreg (a + 24) 0
  let lost := bit (s.mreg 0 errHead) 16 || decide (1024 ≤ n)
  let s := s.setMreg errHead (BitVec.ofNat 64 (i + b2n lost * 2 ^ 16))
  let s := { s with cec := set 0 s.cec logCount (n + 1), hostout := s.hostout ++ [.msix 0 516] }
  match part with
  | some p => s.postPart p ⟨4, 0, 0, 0, 0, 0⟩
  | none => s

end Sys2Proof.Machine
end

