-- ==== Sys2Proof/Machine/Home.lean ====
section
/-! DEFINITION. The home slices: what a home does with each request, answer and report on a word, in the order of their
arrival (R53-R61, R71, R73, R75-R77, R266, R267). -/

namespace Sys2Proof.Machine

/-- The registration of a word. -/
def State.reg (s : State) (w : Nat) : Reg := get .unreg s.regs w

/-- Record a word's registration. -/
def State.setReg (s : State) (w : Nat) (r : Reg) : State := { s with regs := set .unreg s.regs w r }

/-- The owners of a word with the bytes each owns (R54). -/
def regOwners (r : Reg) : List (Nat × BitVec 4) :=
  match r with
  | .owned a m _ => [(a, m)]
  | .split a ma b mb _ => [(a, ma), (b, mb)]
  | _ => []

/-- The callback tag (R54). -/
def regCb (r : Reg) : Bool := match r with | .owned _ _ cb => cb | .split _ _ _ _ cb => cb | _ => false

/-- The registration with its callback tag cleared. -/
def regNoCb (r : Reg) : Reg :=
  match r with | .owned a m _ => .owned a m false | .split a ma b mb _ => .split a ma b mb false | r => r

/-- The frame of a word. -/
def frameOf (w : Nat) : Nat := w / 2 ^ 14

/-- Attributes as FRAME_REBIND codes them (R47, R48): 0 UNSET, 1 CLR, 2 ENC, 3 ENCI. -/
def attrEnci : Nat := 3

/-- The word lies in an ENCI frame whose line has not been written since its metadata were initialised (R27). -/
def State.freshEnci (s : State) (w : Nat) : Bool := get 0 s.frames (frameOf w) == attrEnci && get 0 s.minor (w / 16) == 0

/-- A word as its home reads it: an ENCI line whose minor counter is 0 reads zeros (R27). -/
def State.homeWord (s : State) (w : Nat) : W32 := if s.freshEnci w then 0 else s.word w

/-- The line becomes zeros, and its tag holds. -/
def State.zeroLine (s : State) (l : Nat) : State :=
  let s := { s with
    badline := (List.range 16).foldl (fun (m : SMap Bool) i => set false m (16 * l + i) false) s.badline
    tagDelta := set 0 s.tagDelta l 0 }
  (List.range 16).foldl (fun (s : State) i => s.setWord (16 * l + i) 0) s

/-- The place of a word's counter block among those of its partition, slices ascending (R26), and the partition. -/
def State.blockOf (s : State) (w : Nat) : Option (Nat × Nat) :=
  let sl := sliceOf (4 * w)
  (findBelow 32 (fun p => bit (s.mreg 0 (partBase p)) 0 && (s.treeSlices p).contains sl)).map (fun p =>
    (p, ((s.treeSlices p).filter (fun i => decide (i < sl))).length * sliceBlocks + (4 * w) % 2 ^ 33 / 4096))

/-- A node of a list stands above the word's counter block: one of level k stands over 8^k of them. -/
def State.nodeAbove (s : State) (ns : List (Nat × Nat × Nat)) (w : Nat) : Bool :=
  !ns.isEmpty && (match s.blockOf w with
    | some (p, b) => ns.any (fun t => t.1 == p && b / 8 ^ t.2.1 == t.2.2)
    | none => false)

/-- A write of a line updates its tag, its counter block and every node up to the root (R27): what is stored there is what the contents
have. -/
def State.retag (s : State) (w : Nat) : State :=
  { s with
    tagDelta := set 0 s.tagDelta (w / 16) 0
    nodeOff := s.nodeOff.filter (fun t => !(s.nodeAbove [t] w)) }

/-- Count a write of an ENCI line (R27): its minor counter rises, and where it would pass 127 the major counter rises and
every minor counter of the 4 KiB becomes 1. The first write makes the rest of the line the zeros that it read as, and so does the rise of
the major counter for every other line that had not been written. -/
def State.countEnci (s : State) (w : Nat) : State :=
  if get 0 s.frames (frameOf w) = attrEnci then
    let l := w / 16
    let n := get 0 s.minor l
    let s := s.retag w
    if n = 0 then { s.zeroLine l with minor := set 0 s.minor l 1 }
    else if n < 127 then { s with minor := set 0 s.minor l (n + 1) }
    else
      let b := l / 64
      let fresh := (List.range 64).filter (fun i => get 0 s.minor (64 * b + i) == 0)
      let t := fresh.foldl (fun (s : State) i => s.zeroLine (64 * b + i)) s
      { t with major := upd 0 s.major b (· + 1), minor := (List.range 64).foldl (fun m i => set 0 m (64 * b + i) 1) s.minor }
  else s

/-- Bytes of a word, without a count. -/
def State.putWord (s : State) (w : Nat) (m : BitVec 4) (d : W32) : State := s.setWord w (mergeBytes m (s.word w) d)

/-- The home writes bytes of a word: one write of its line. -/
def State.homeWrite (s : State) (w : Nat) (m : BitVec 4) (d : W32) : State := (s.countEnci w).putWord w m d

/-- End the poison of a word that is written by a write that covers its granule, or its whole line (R28, R34). -/
def State.clearPoison (s : State) (w cov : Nat) : State :=
  let s := if 1 ≤ cov then { s with poison := set false s.poison w false } else s
  if 2 ≤ cov then { s with badline := set false s.badline w false } else s

/-- A node of the integrity tree above the word has failed (R34). -/
def State.underBadNode (s : State) (w : Nat) : Bool := get 0 s.frames (frameOf w) == attrEnci && s.nodeAbove s.badTree w

/-- A check of an access to an ENCI line fails (R28): its stored tag, or a node between its counter block and the root, is not what the
contents below it have. A line whose minor counter is 0 checks nothing (R27), and one that has failed is poisoned already. -/
def State.tagFails (s : State) (w : Nat) : Bool :=
  get 0 s.frames (frameOf w) == attrEnci && get 0 s.minor (w / 16) != 0 && !get false s.badline w &&
  (get 0 s.tagDelta (w / 16) != 0 || s.nodeAbove s.nodeOff w)

/-- The check of an access (R28, R35): where it fails, the line is poisoned as an integrity failure, and the failure is logged. -/
def State.inspect (s : State) (w : Nat) : State :=
  if s.tagFails w then
    let l := w / 16
    ({ s with
      tagDelta := set 0 s.tagDelta l 0
      badline := (List.range 16).foldl (fun (m : SMap Bool) i => set false m (16 * l + i) true) s.badline } : State).logError 7 (64 * l)
      (s.sliceOwner (sliceOf (64 * l))) (sliceOf (64 * l) / 24) (homeOf (64 * l)) 0
  else s

/-- The fault that stored bits give an access to an unregistered word (R28, R34): a read of poison, or a write that does
not cover it. -/
def State.storedFault (s : State) (w cov : Nat) (write : Bool) : Option Nat :=
  if s.underBadNode w then some fcIntegrity
  else if get false s.badline w && !s.freshEnci w && !(write && decide (2 ≤ cov)) then some fcIntegrity
  else if get false s.poison w && !(write && decide (1 ≤ cov)) then some fcDataUe
  else none

/-- The request writes (R266). -/
def opWrites (o : ROp) : Bool := match o with | .rdc _ _ | .rdn | .drain => false | _ => true

/-- What serving a request comes to. -/
inductive Served
  | done (s : State)
  | txn (s : State) (t : Txn)
  | blocked (s : State)

/-- Refuse a request: the requester takes a FAULT for word `w`. -/
def State.refuse (s : State) (r : WReq) (w code : Nat) : State :=
  match r.op with
  | .drain => s
  | _ => s.send (homeNode w) r.src (.fault w code r.tag)

/-- A request that waits for nothing yet. -/
def txnOf (r : WReq) : Txn := ⟨r, [], [], [], [], [], [], none, 0⟩

/-- What an owner checks of a request (R73): the bytes of a checked request of another agent. -/
def askOf (r : WReq) (owner : Nat) : Option (Nat × BitVec 4) := if r.check && r.src != owner then some (r.src, r.bytes) else none

/-- Recall every owner of the words given (R61): an owner checks the bytes of a checked request of another agent. -/
def State.recallAll (s : State) (r : WReq) (ws : List Nat) : Served :=
  let os := ws.flatMap (fun w => (regOwners (s.reg w)).map (fun o => (w, o.1)))
  let (num, s) := s.fresh1
  let s := os.foldl (fun s o => s.send (homeNode o.1) o.2 (.recallWord o.1 (askOf r o.2) num)) s
  .txn s { (txnOf r) with asked := ws, need := os, num := num }

/-- Run the callback of every owner of a tagged word (R71). R71 names OWNA, since the tag is the owner's; where a word that is tagged
has two owners either may have tagged it, so both are asked, and one that has published nothing answers at once. -/
def State.callbacks (s : State) (r : WReq) (ws : List Nat) : Served :=
  let os := ws.flatMap (fun w => (regOwners (s.reg w)).map (fun o => (w, o.1)))
  .txn (os.foldl (fun s o => s.send (homeNode o.1) o.2 (.callback o.1 (askOf r o.2))) s) { (txnOf r) with cb := os }

/-- Bring the words home: first the callback of a tagged word, then the recalls (R58, R71). -/
def State.gather (s : State) (r : WReq) (ws : List Nat) : Served :=
  let tagged := ws.filter (fun w => regCb (s.reg w))
  if tagged.isEmpty then s.recallAll r ws else s.callbacks r tagged

/-- The set of a home slice that holds a line (R53). -/
def homeSet (line : Nat) : Nat × Nat := (homeOf (64 * line), line % 2048)

/-- The lines of a set that registrations pin (R75), each once. -/
def State.pinned (s : State) (line : Nat) : List Nat :=
  (s.regs.foldl (fun (ls : List Nat) e =>
    let l := e.1 / 16
    if homeSet l == homeSet line && !ls.contains l then l :: ls else ls) [])

/-- A line becomes pinned: if twelve others of its set are, the registered words of the least recently used are recalled
first (R75). R75 does not say what happens where the words of that line are all LOST, which no recall brings home: nothing is recalled,
and the fill waits until an EWR or a ZAPW makes one UNREG (see the assumption log). -/
def State.makeRoom (s : State) (line : Nat) : Option State :=
  let ls := s.pinned line
  if ls.contains line || ls.length < 12 then none
  else
    match ls.foldl (fun (b : Option (Nat × Nat)) l =>
        let u := get 0 s.l2use l
        match b with | some (v, _) => if u < v then some (u, l) else b | none => some (u, l)) none with
    | none => none
    | some (_, l) =>
      let ws := ((List.range 16).map (fun i => 16 * l + i)).filter (fun w =>
        !(regOwners (s.reg w)).isEmpty &&
        !(s.hq.any (fun r => r.op == .drain && r.words == [w])) && !(s.txns.any (fun t => t.req.words.contains w)))
      some { s with hq := s.hq ++ ws.map (fun w => ⟨128, [w], .drain, 0, 0, false, 0, 0, 0, false⟩) }

/-- A home line has been used. -/
def State.touch (s : State) (w : Nat) : State := { s with l2use := set 0 s.l2use (w / 16) s.next, next := s.next + 1 }

/-- One atomic operation on an old value (R146): the new value and the flags of FADD. -/
def atomOp (l : AtmLane) (old : W64) : FR :=
  let t : IType := match l.ty with | .i32 => .i32 | .n32 => .n32 | .i64 => .i64 | _ => .n64
  let t := match l.ty with | .f32 => .n32 | _ => t
  match l.op with
  | .add => ⟨opAdd t old l.opd, 0⟩
  | .and => ⟨opAnd t old l.opd, 0⟩
  | .or => ⟨opOr t old l.opd, 0⟩
  | .xor => ⟨opXor t old l.opd, 0⟩
  | .min => ⟨if itS t then opMin t old l.opd else opMinn t old l.opd, 0⟩
  | .max => ⟨if itS t then opMax t old l.opd else opMaxn t old l.opd, 0⟩
  | .xchg => ⟨opMov t l.opd, 0⟩
  | .cas => ⟨if itU t old = itU t l.cmp then opMov t l.opd else opMov t old, 0⟩
  | .fadd => opFadd fp32 .rne old l.opd

/-- The operations of the lanes in ascending order (R147): each lane's old value, the final value, the flags. -/
def atomLanes : List AtmLane → W64 → List (Nat × W64) × W64 × Nat
  | [], v => ([], v, 0)
  | l :: ls, v =>
    let y := atomOp l v
    let (olds, z, fl) := atomLanes ls y.val
    ((l.lane, v) :: olds, z, y.fl ||| fl)

/-- The value of one word, or of the two words of a dword. -/
def State.wordsVal (s : State) (ws : List Nat) : W64 :=
  match ws with
  | [w] => (s.homeWord w).setWidth 64
  | w :: x :: _ => join64 (s.homeWord w) (s.homeWord x)
  | [] => 0

/-- Perform an atomic on unregistered words: one write of their line. -/
def State.atomAt (s : State) (r : WReq) (ls : List AtmLane) : State :=
  let w := r.words.headD 0
  let (olds, v, fl) := atomLanes ls (s.wordsVal r.words)
  let s := (s.touch w).countEnci w
  let s := match r.words with
    | [w] => s.putWord w 15 (v.setWidth 32)
    | w :: x :: _ => (s.putWord w 15 (v.setWidth 32)).putWord x 15 (v.extractLsb' 32 32)
    | [] => s
  s.send (homeNode w) r.src (.atmData olds fl r.tag)

/-- Register the bytes `m` of an unregistered or lost word. -/
def State.register (s : State) (r : WReq) (w : Nat) (m : BitVec 4) (cb : Bool) : Served :=
  match s.makeRoom (w / 16) with
  | some s => .blocked s
  | none =>
    let s := (s.clearPoison w r.cov).touch w
    .done ((s.setReg w (.owned r.src m cb)).send (homeNode w) r.src (.grant w (some (s.homeWord w))))

/-- Serve a read of one word (R58). `copy` lets the reader keep an unregistered word. A read that is forwarded holds its word until the
owner has answered, so that nothing overtakes it (R55). Only an acquire of another agent runs the callback (R71). A word of the line that no
load reads carries no bytes: a fault stays without an answer of its own, and no value is kept. -/
def State.serveRead (s : State) (r : WReq) (w : Nat) (copy acq : Bool) : Served :=
  match s.reg w with
  | .unreg =>
    match s.storedFault w 0 false with
    | some c => if r.bytes = 0 then .done (s.send (homeNode w) r.src (.data w 0 false r.tag)) else .done (s.refuse r w c)
    | none => .done ((s.touch w).send (homeNode w) r.src (.data w (s.homeWord w) copy r.tag))
  | .owned a _ cb =>
    if cb && acq && a != r.src then s.callbacks r [w]
    else .txn ((s.touch w).send (homeNode w) a (.fwd w r)) { (txnOf r) with fwd := some a }
  | .split _ _ _ _ _ => s.gather r [w]
  | .lost _ =>
    if r.bytes = 0 then .done (s.send (homeNode w) r.src (.data w 0 false r.tag)) else .done (s.refuse r w fcOwnerLost)

/-- Serve a request to register bytes of one word (R58). R58 does not say what CB becomes where a word that is registered takes a
further registration: the old and the new tag are joined, since each owner that tagged it still holds its pending set (see the
assumption log). -/
def State.serveRegw (s : State) (r : WReq) (w : Nat) (m : BitVec 4) (cb : Bool) : Served :=
  let grant (s : State) (x : Reg) : Served := .done (((s.setReg w x).touch w).send (homeNode w) r.src (.grant w none))
  match s.reg w with
  | .unreg =>
    match s.storedFault w r.cov true with
    | some c => .done (s.refuse r w c)
    | none => s.register r w m cb
  | .owned a ma c =>
    if a = r.src then grant s (.owned a (ma ||| m) (c || cb))
    else if m &&& ma = 0 then grant s (.split a ma r.src m (c || cb))
    else s.gather r [w]
  | .split a ma b mb c =>
    if a = r.src && m &&& mb = 0 then grant s (.split a (ma ||| m) b mb (c || cb))
    else if b = r.src && m &&& ma = 0 then grant s (.split a ma b (mb ||| m) (c || cb))
    else s.gather r [w]
  | .lost _ =>
    match s.storedFault w r.cov true with
    | some c => .done (s.refuse r w c)
    | none => (s.setWord w 0).register r w m cb

/-- Serve a write that leaves the word unregistered (R58, R60). -/
def State.serveEwr (s : State) (r : WReq) (w : Nat) (m : BitVec 4) (d : W32) : Served :=
  match s.reg w with
  | .unreg =>
    match s.storedFault w r.cov true with
    | some c => .done (s.refuse r w c)
    | none => .done (((s.clearPoison w r.cov).touch w).homeWrite w m d)
  | .lost _ =>
    match s.storedFault w r.cov true with
    | some c => .done (s.refuse r w c)
    | none => .done (((((s.clearPoison w r.cov).touch w).setReg w .unreg).setWord w 0).homeWrite w m d)
  | _ => s.gather r [w]

/-- Serve an atomic (R58, R146). -/
def State.serveAtm (s : State) (r : WReq) (ls : List AtmLane) : Served :=
  match r.words.find? (fun w => match s.reg w with | .lost _ => true | _ => false) with
  | some w => .done (s.refuse r w fcOwnerLost)
  | none =>
    let held := r.words.filter (fun w => s.reg w != .unreg)
    if !held.isEmpty then s.gather r held
    else
      match r.words.findSome? (fun w => (s.storedFault w 0 false).map (fun c => (w, c))) with
      | some (w, c) => .done (s.refuse r w c)
      | none => .done (s.atomAt r ls)

/-- Serve ZAPW (R58, R77): a write of the word, which poison that it does not cover refuses (R34). -/
def State.serveZap (s : State) (r : WReq) (w : Nat) : Served :=
  match s.storedFault w r.cov true with
  | some c => .done (s.refuse r w c)
  | none =>
    let s := (regOwners (s.reg w)).foldl (fun s o => s.send (homeNode w) o.1 (.drop w)) ((s.clearPoison w r.cov).touch w)
    .done ((((s.setReg w .unreg).countEnci w).setWord w 0).send (homeNode w) r.src (.data w 0 false r.tag))

/-- The attribute of a request against its frame's (R42 check 11, R47): a bound frame of another attribute refuses it, and
a request that is performed binds an UNSET one. -/
def State.bindAttr (s : State) (r : WReq) (w : Nat) : Option State :=
  let f := get 0 s.frames (frameOf w)
  if r.attr = 0 || r.attr = f then some s
  else if f = 0 then some { s with frames := set 0 s.frames (frameOf w) r.attr }
  else none

/-- The compute cores that hear STALE before a write to a line is accepted (R267): those of the partition whose slice holds it, while some
core clamps it. -/
def State.staleCores (s : State) (line : Nat) : List Nat :=
  if (get [] s.clamps line).isEmpty then []
  else
    match s.blockOf (16 * line) with
    | some (p, _) => (List.range 64).filter (fun n => bit (s.mreg 0 (partBase p + 0x08)) (n / 2))
    | none => get [] s.clamps line

/-- Serving the request changes what the line holds (R267): it writes, or it merges a SPLIT word. -/
def State.changes (s : State) (r : WReq) : Bool :=
  opWrites r.op || r.words.any (fun w => match s.reg w with | .split .. => true | _ => false)

/-- Below a failed node of the tree every access faults, whatever holds the word (R34). -/
def State.badPage (s : State) (r : WReq) (w : Nat) : Bool :=
  (match r.op with | .drain => false | .rdc _ _ => r.bytes != 0 | _ => true) && s.underBadNode w

/-- Serve one request whose words nothing else holds (R58), after the check of the lines that it reads or writes in memory (R28). A write
to a clamped line, or a merge of a word of it, first sends STALE (R266, R267). -/
def State.serve (s : State) (r : WReq) : Served :=
  let w := r.words.headD 0
  let s := if r.op == .drain then s else (r.words.filter (fun w => (regOwners (s.reg w)).isEmpty)).foldl (fun (s : State) w => s.inspect w) s
  let held := s.staleCores (w / 16)
  if s.changes r && !r.staleDone && !held.isEmpty then
    .txn (held.foldl (fun s a => s.send (homeNode w) a (.stale (w / 16))) s) { (txnOf r) with stale := held }
  else if s.badPage r w then .done (s.refuse r w fcIntegrity)
  else
    match s.bindAttr r w with
    | none => .done (s.refuse r w fcAliasAttr)
    | some b =>
      let out := match r.op with
        | .rdc acq keepIt => b.serveRead r w keepIt acq
        | .rdn => b.serveRead r w false false
        | .regw m cb => b.serveRegw r w m cb
        | .ewr m d => b.serveEwr r w m d
        | .atm ls => b.serveAtm r ls
        | .zapw => b.serveZap r w
        | .drain => if (regOwners (s.reg w)).isEmpty then .done s else b.gather r [w]
      -- an access that is refused, or not performed now, binds nothing (R47)
      let refused (t : State) : Bool := match t.net.getLast? with | some ⟨_, _, .fault _ _ _⟩ => true | _ => false
      match out with
      | .done t => .done (if refused t then { t with frames := s.frames } else t)
      | .txn t x => .txn { t with frames := s.frames } x
      | .blocked t => .blocked { t with frames := s.frames }

/-- The word's frame is being rebound: an access waits (R48). -/
def State.rebinding (s : State) (w : Nat) : Bool := match s.rebind with | some (f, _) => frameOf w == f | none => false

/-- Another request holds a word of this one. -/
def overlap (a b : List Nat) : Bool := a.any (fun w => b.contains w)

/-- Serve the waiting requests in order; a request whose word is held, or stands behind an earlier one, waits (R55). -/
def pumpList : List WReq → List WReq → State → State
  | [], kept, s => { s with hq := kept ++ s.hq }
  | r :: rs, kept, s =>
    if kept.any (fun k => overlap k.words r.words) || s.txns.any (fun t => overlap t.req.words r.words) ||
        r.words.any s.rebinding then
      pumpList rs (kept ++ [r]) s
    else
      match s.serve r with
      | .done s => pumpList rs kept s
      | .txn s t => pumpList rs kept { s with txns := s.txns ++ [t] }
      | .blocked s => pumpList rs (kept ++ [r]) s

/-- Serve what can be served; requests that arose are served too. -/
def State.pump (s : State) : State :=
  let s := pumpList s.hq [] { s with hq := [] }
  pumpList s.hq [] { s with hq := [] }

/-- A request arrives at its home. -/
def State.arrive (s : State) (r : WReq) : State := { s with hq := s.hq ++ [r] }.pump

/-- The bytes written back by an owner of a word. -/
def gotOf (t : Txn) (w a : Nat) : Option (BitVec 4 × W32) :=
  t.got.findSome? (fun g => if g.1 == w && g.2.1 == a then some g.2.2 else none)

/-- A word after its recalls have been answered (R61): composed and unregistered, unchanged where every owner answered
RACE, or left with the owner that did after it has taken the other's bytes. R61 does not say what becomes of CB there: the tag stays,
since the owner that stays may hold a pending set (see the assumption log). -/
def State.mergeWord (s : State) (t : Txn) (w : Nat) : State :=
  match s.reg w with
  | .owned a _ _ =>
    match gotOf t w a with
    | some (_, d) => (s.setReg w .unreg).homeWrite w 15 d
    | none => if t.raced.contains (w, a) then s else s.setReg w .unreg
  | .split a ma b mb cb =>
    match gotOf t w a, gotOf t w b with
    | some (_, x), some (_, y) => (s.setReg w .unreg).homeWrite w 15 (mergeBytes mb x y)
    | some (_, x), none =>
      if t.raced.contains (w, b) then
        ((s.homeWrite w (~~~mb) x).setReg w (.owned b mb cb)).send (homeNode w) b (.refill w (~~~mb) x)
      else (s.setReg w .unreg).homeWrite w (~~~mb) x
    | none, some (_, y) =>
      if t.raced.contains (w, a) then
        ((s.homeWrite w mb y).setReg w (.owned a ma cb)).send (homeNode w) a (.refill w mb y)
      else (s.setReg w .unreg).homeWrite w mb y
    | none, none => if t.raced.contains (w, a) && t.raced.contains (w, b) then s else s.setReg w .unreg
  | _ => s

/-- The owners of a transaction's words that have not written them back. -/
def State.stillOwn (s : State) (t : Txn) : List (Nat × Nat) :=
  t.req.words.flatMap (fun w => ((regOwners (s.reg w)).filter (fun o => (gotOf t w o.1).isNone)).map (fun o => (w, o.1)))

/-- A transaction goes on when it waits for nothing more: where an owner has written its bytes back unasked (R61) the others are recalled
now, its words are merged, and its request is refused after a RACE and served again otherwise, unless a rebind of its frame has begun
(R48). -/
def State.advance (s : State) (t : Txn) : State :=
  if !(t.need.isEmpty && t.stale.isEmpty && t.cb.isEmpty && t.fwd.isNone) then { s with txns := s.txns ++ [t] }
  else if t.asked.isEmpty && !t.got.isEmpty && !(s.stillOwn t).isEmpty then
    let os := s.stillOwn t
    let (num, s) := s.fresh1
    let s := os.foldl (fun s o => s.send (homeNode o.1) o.2 (.recallWord o.1 (askOf t.req o.2) num)) s
    { s with txns := s.txns ++ [{ t with asked := t.req.words, need := os, num := num }] }
  else
    let s := (if t.got.isEmpty then t.asked else t.req.words).foldl (fun s w => s.mergeWord t w) s
    if !t.raced.isEmpty then (s.refuse t.req (t.req.words.headD 0) fcRace).pump
    else if t.req.words.any s.rebinding then { s with hq := t.req :: s.hq }.pump
    else
      match s.serve t.req with
      | .done s => s.pump
      | .txn s t => { s with txns := s.txns ++ [t] }
      | .blocked s => { s with hq := t.req :: s.hq }.pump

/-- Take out the transaction that satisfies `p`. -/
def takeTxn (p : Txn → Bool) : List Txn → Option (Txn × List Txn)
  | [] => none
  | t :: ts => if p t then some (t, ts) else (takeTxn p ts).map (fun r => (r.1, t :: r.2))

/-- Change the transaction that waits for an answer of owner `a` on word `w`, and let it go on. -/
def State.answerTxn (s : State) (p : Txn → Bool) (f : Txn → Txn) : Option State :=
  match takeTxn p s.txns with
  | some (t, ts) => some ({ s with txns := ts }.advance (f t))
  | none => none

/-- Every stage entry that holds the line becomes stale at once: STALE to each core and its acknowledgement in one step (R267). -/
def State.staleAll (s : State) (line : Nat) : State :=
  if (get [] s.clamps line).isEmpty then s
  else { s with cores := s.cores.map (fun e => (e.1, { e.2 with
    stage := e.2.stage.map (fun (x : StageEntry) => if x.lines.contains line then { x with stale := true } else x)
    fetches := e.2.fetches.map (fun (f : TileFetch) =>
      if f.entry.lines.contains line then { f with entry := { f.entry with stale := true } } else f) })) }

/-- The transaction waits for a recall's answer. -/
def waitsFor (w a : Nat) (t : Txn) : Bool := t.need.contains (w, a)

/-- The word's read has been forwarded to the agent. -/
def fwdTo (w a : Nat) (t : Txn) : Bool := t.fwd == some a && t.req.words == [w]

/-- The value of a forwarded read has come back to the home, which hands it to the reader, and the word is free (R55, R57, R58). -/
def State.fwdDone (s : State) (a w : Nat) (r : WReq) (d : W32) : State :=
  let s := s.send (homeNode w) r.src (.data w d false r.tag)
  match takeTxn (fwdTo w a) s.txns with
  | some (_, ts) => { s with txns := ts }.pump
  | none => s

/-- An owner of a SPLIT word writes it back unasked (R61): a request that is held on the word takes the bytes; else the other owner is
recalled, after the callback of a tagged word (R58). -/
def State.splitWbd (s : State) (a w other : Nat) (m : BitVec 4) (d : W32) (cb : Bool) : State :=
  match takeTxn (fun t => t.req.words.contains w && t.asked.isEmpty) s.txns with
  | some (t, ts) => ({ s with txns := ts } : State).advance { t with got := t.got ++ [(w, a, m, d)] }
  | none =>
    let r : WReq := ⟨128, [w], .drain, 0, 0, false, 0, 0, 0, true⟩
    let t : Txn := { (txnOf r) with got := [(w, a, m, d)] }
    if cb then { (s.send (homeNode w) other (.callback w none)) with txns := s.txns ++ [{ t with cb := [(w, other)] }] }
    else s.advance t

/-- WBD (R58, R59, R61): the answer to a recall, an owner's own write-back, which is a use of the line (R53), or nothing. -/
def State.takeWbd (s : State) (a w : Nat) (m : BitVec 4) (d : W32) : State :=
  match s.answerTxn (waitsFor w a) (fun t =>
      { t with need := t.need.filter (fun n => n != (w, a)), got := t.got ++ [(w, a, m, d)] }) with
  | some s => s
  | none =>
    match s.reg w with
    | .owned b _ _ => if b = a then (((s.touch w).setReg w .unreg).homeWrite w 15 d).pump else s
    | .split x _ y _ cb =>
      if a = x || a = y then ((s.staleAll (w / 16)).touch w).splitWbd a w (if a = x then y else x) m d cb
      else s
    | _ => s

/-- An awaited answer of a callback is there. -/
def State.answerCb (s : State) (a w : Nat) : State :=
  (s.answerTxn (fun t => t.cb.contains (w, a)) (fun t => { t with cb := t.cb.filter (fun n => n != (w, a)) })).getD s

/-- A word is lost by agent `a` (R58, R76): only one that it owns is, and the stage entries of its line are stale (R267). -/
def State.loseWord (s : State) (a w : Nat) : State :=
  let s := if (regOwners (s.reg w)).any (fun o => o.1 == a) then ((s.staleAll (w / 16)).touch w).setReg w (.lost a) else s
  match s.answerTxn (waitsFor w a) (fun t => { t with need := t.need.filter (fun n => n != (w, a)) }) with
  | some s => s
  | none => s.answerCb a w

/-- NOTHELD (R59): a forwarded read is served again before anything that arrived after it, and an answer to a recall that a WBD has
answered is discarded. -/
def State.takeNotheld (s : State) (a w : Nat) (ask : OwnerAsk) (_req : Option WReq) : State :=
  match ask with
  | .fwd => (s.answerTxn (fwdTo w a) (fun t => { t with fwd := none })).getD s
  | .recallWord num =>
    ((s.answerTxn (fun t => waitsFor w a t && t.num == num) (fun t => { t with need := t.need.filter (fun n => n != (w, a)) }))).getD s
  | .callback => s.answerCb a w
  | .drop => s

/-- The request that a transaction serves is refused with RACE, and nothing else changes (R73); bytes that an owner has written back
meanwhile are merged all the same (R61). -/
def State.raceTxn (s : State) (p : Txn → Bool) (w : Nat) : State :=
  match takeTxn p s.txns with
  | some (t, ts) =>
    let s := ({ s with txns := ts } : State).refuse t.req w fcRace
    if t.got.isEmpty then s.pump
    else s.advance { t with req := ⟨128, t.req.words, .drain, 0, 0, false, 0, 0, 0, true⟩, cb := [], fwd := none }
  | none => s

/-- RACE (R73). -/
def State.takeRace (s : State) (a w : Nat) (ask : OwnerAsk) (_req : Option WReq) : State :=
  match ask with
  | .fwd => s.raceTxn (fwdTo w a) w
  | .recallWord num =>
    ((s.answerTxn (fun t => waitsFor w a t && t.num == num) (fun t =>
      { t with need := t.need.filter (fun n => n != (w, a)), raced := t.raced ++ [(w, a)] }))).getD s
  | .callback => s.raceTxn (fun t => t.cb.contains (w, a)) w
  | .drop => s

/-- CALLBACK_DONE: the tag is cleared once every owner asked has answered, and the held request goes on (R71). -/
def State.takeCallbackDone (s : State) (a w : Nat) : State :=
  let last := s.txns.all (fun t => !t.cb.contains (w, a) || t.cb.all (fun n => n.1 != w || n.2 == a))
  (if last then s.setReg w (regNoCb (s.reg w)) else s).answerCb a w

/-- STALE_ACK: once every core has acknowledged, the held write goes on (R267). -/
def State.takeStaleAck (s : State) (a line : Nat) : State :=
  (s.answerTxn (fun t => t.stale.contains a && t.req.words.any (fun w => w / 16 == line)) (fun t =>
    let st := t.stale.filter (fun x => x != a)
    { t with stale := st, req := if st.isEmpty then { t.req with staleDone := true } else t.req })).getD s

end Sys2Proof.Machine
end

