-- ==== Sys2Proof/Machine/L1.lean ====
section
/-! DEFINITION. The L1 of a core: its words and lines, leases, writer records, what an owner answers to a home, how
answers reach the operations that wait for them, self-invalidation and releases (R62-R78, R91-R94, R137, R434). -/

namespace Sys2Proof.Machine

/-! ### Words, lines and leases -/

/-- A core's own copy of T (R67). -/
def State.coreT (s : State) (a : Nat) : Nat := ((s.time : Int) + (s.core a).skew).toNat

/-- The tick counter for exponent `k` (R65). -/
def tickAt (t k : Nat) : Nat := (t >>> k) % 65536

/-- A COPY word of the line is usable at `t` (R66). -/
def L1Line.usable (l : L1Line) (t : Nat) : Bool :=
  let d := (l.exp + 65536 - tickAt t (l.lk + 6)) % 65536
  decide (1 ≤ d) && decide (d ≤ 32767)

/-- A word as the L1 stores it. -/
def Core.raw (c : Core) (w : Nat) : L1Word := get .inv c.l1 w

/-- A line's fields. -/
def Core.line (c : Core) (l : Nat) : Option L1Line := look c.lines l

/-- A word as the core may use it at `t`: a COPY whose lease has run out is INV. -/
def Core.word (c : Core) (t w : Nat) : L1Word :=
  let x := c.raw w
  if x.st = .copy && !(match c.line (w / 16) with | some l => l.usable t | none => false) then .inv else x

/-- Store a word. -/
def Core.setWord (c : Core) (w : Nat) (x : L1Word) : Core := { c with l1 := set .inv c.l1 w x }

/-- The ways of the L1 (R155). -/
def Core.ways (c : Core) : Nat := match c.spsz with | 0 => 12 | 2 => 4 | _ => 8

/-- The core writes registered words: service cores keep no writer record (R60). -/
def records (a : Nat) : Bool := decide (a < 64)

/-- Cancel every reservation on a word (R78, R148); an entry holds the address and the size. -/
def Core.cancel (c : Core) (w : Nat) : Core :=
  { c with packs := c.packs.map (fun e =>
      (e.1, { e.2 with resv := e.2.resv.filter (fun r => !(decide (r.2 / 16 < 4 * w + 4) && decide (4 * w < r.2 / 16 + r.2 % 16))) })) }

/-- A stage entry that holds the line is stale (R267). -/
def StageEntry.staleBy (e : StageEntry) (line : Nat) : StageEntry := if e.lines.contains line then { e with stale := true } else e

/-- Every stage entry of the core, staged or being fetched, that holds the line is stale (R267). -/
def Core.markStale (c : Core) (line : Nat) : Core :=
  if c.stage.isEmpty && c.fetches.isEmpty then c
  else
    { c with
      stage := c.stage.map (fun (e : StageEntry) => e.staleBy line)
      fetches := c.fetches.map (fun (f : TileFetch) => { f with entry := f.entry.staleBy line }) }

/-- The words of a line. -/
def lineWords (l : Nat) : List Nat := (List.range 16).map (fun i => 16 * l + i)

/-- Drop the COPY words of one line. -/
def Core.dropLine (c : Core) (l : Nat) : Core :=
  (lineWords l).foldl (fun c w => if (c.raw w).st = L1St.copy then c.setWord w .inv else c) c

/-- A pack drops every reservation of its lanes (R148). -/
def Pack.noResv (p : Pack) : Pack := { p with resv := [] }

/-- PREG of the pack in a slot changes by `f` (R64). -/
def Core.preg (c : Core) (slot : Nat) (f : Nat → Nat) : Core := c.updPack slot (fun p => { p with preg := f p.preg })

/-- ECO and LDV of a slot (R72). -/
def Core.ecoOf (c : Core) (slot : Nat) : Nat := get 0 c.eco slot
def Core.ldvOf (c : Core) (slot : Nat) : Nat := get 0 c.ldv slot

/-- The check of R73 for a request of another agent on bytes `b`. -/
def Core.racyOther (c : Core) (x : L1Word) (b : BitVec 4) : Bool :=
  x.wv && b &&& x.bm != 0 && decide (c.ldvOf x.wslot ≤ x.wep)

/-- The check of R73 for another pack of the same core: of the bytes that this core owns (R84). -/
def Core.racySame (c : Core) (x : L1Word) (slot : Nat) (b : BitVec 4) : Bool :=
  x.wv && b &&& x.bm != 0 && x.wslot != slot && decide (x.wep = c.ecoOf x.wslot)

/-- The value of a held word without the stores that wait for their REGW, or for that of their other half (R137, R434). -/
def L1Word.granted (x : L1Word) : W32 := mergeBytes x.pm x.val x.old

/-- Write back an OWN word and drop it (R58, R63). -/
def State.writeBack (s : State) (a w : Nat) : State :=
  let x := (s.core a).raw w
  (s.send a (homeNode w) (.wbd w x.bm x.granted)).updCore a (fun c => (c.cancel w).setWord w .inv)

/-- PREG of the pack in a slot (R64). -/
def Core.pregOf (c : Core) (slot : Nat) : Nat := match look c.packs slot with | some p => p.preg | none => 0

/-- Ask the home to register a word's bytes `m` for the pack of a slot; the word is PEND (R63). `cnt` says that PREG counts it (R64). A
word that awaits an answer already queues the new request behind it. With `cb` the slot has published its pending set by this word
(R70). -/
def State.sendRegw (s : State) (a w : Nat) (x : L1Word) (m : BitVec 4) (slot : Nat) (cb : Bool) (bytes : BitVec 4)
    (check : Bool) (attr cov : Nat) (cnt : Bool) : State :=
  let x : L1Word := { x with tg := if cb && !x.tg.contains slot then x.tg ++ [slot] else x.tg }
  let x : L1Word :=
    if x.st = .pend then { x with more := x.more ++ [(m, slot, cnt)] }
    else { x with st := .pend, rq := x.rq ||| m, ps := slot, cnt := cnt }
  (s.updCore a (fun c =>
    let c := c.setWord w x
    if cnt then c.preg slot (· + 1) else c)).send a (homeNode w) (.regw w m cb bytes 0 check attr slot cov)

/-- The packs whose LAZY stores a DIRTY word holds. -/
def L1Word.writers (x : L1Word) : List Nat := (x.wslot :: x.others.map (fun e => e.1)).dedup

/-- Register a DIRTY word on behalf of the pack of a slot (R63), under the attribute of the store that wrote it (R47) and with what its
stores cover (R34). -/
def State.registerFor (s : State) (a w slot : Nat) (ev cnt : Bool) : State :=
  let x := (s.core a).raw w
  if x.st ≠ .dirty then s
  else s.sendRegw a w { x with ev := x.ev || ev, old := x.val, others := [], lz := x.writers } x.pm slot false x.pm false x.attr x.cov cnt

/-- Register a DIRTY word for another pack of the core, or for DEREG (R63, R151), which PREG does not count (R64). -/
def State.publish (s : State) (a w : Nat) (ev : Bool) : State := s.registerFor a w ((s.core a).raw w).wslot ev false

/-- Register a DIRTY word for a slot as a callback or an eviction does (R63, R71), which PREG counts. While PREG stands at 1,023 the word
stays DIRTY, to be registered after a GRANT (R64). -/
def State.registerDirty (s : State) (a w slot : Nat) (ev : Bool) : State :=
  let x := (s.core a).raw w
  if x.st = .dirty && 1023 ≤ (s.core a).pregOf slot then s.updCore a (fun c => c.setWord w { x with ev := x.ev || ev })
  else s.registerFor a w slot ev true

/-- The pack of a slot wrote the word before its last release: the last writer or another (R70). -/
def L1Word.pendingOf (x : L1Word) (slot eco : Nat) : Bool :=
  (x.wslot == slot && decide (x.wep < eco)) || x.others.any (fun o => o.1 == slot && decide (o.2 < eco))

/-- The pending set of a slot (R70): its DIRTY words written before its last release. -/
def Core.pendingSet (c : Core) (slot : Nat) : List Nat :=
  (c.l1.filter (fun e => e.2.st == .dirty && e.2.pendingOf slot (c.ecoOf slot))).map (fun e => e.1)

/-- The words of a slot's LAZY stores whose registration is under way. -/
def Core.carried (c : Core) (slot : Nat) : List Nat :=
  (c.l1.filter (fun e => e.2.st == .pend && e.2.lz.contains slot)).map (fun e => e.1)

/-- A callback, or a release, of a slot waits for these words (R70, R71). -/
def Core.unpublished (c : Core) (slot : Nat) : List Nat := c.pendingSet slot ++ c.carried slot

/-- Register the pending sets of the packs that have published them by a word, and wait for the grants as a callback does (R71). `own`
says that the core does it to give the word up. -/
def State.startCallback (s : State) (a w : Nat) (own : Bool) : State :=
  let c := s.core a
  let x := c.raw w
  let more := (c.cbs.filter (fun q => q.1 == w)).flatMap (fun q => q.2.1)
  let ws := (x.tg.flatMap (fun k => (c.unpublished k).map (fun y => (y, k)))) ++ more
  let s := s.updCore a (fun c => { (c.setWord w { x with tg := [] }) with cbs := c.cbs ++ [(w, ws.dedup, own)] })
  ws.foldl (fun s e => s.registerDirty a e.1 e.2 false) s

/-- Give an OWN word up (R58, R63): it is written back, once the pending sets that hang on it are registered, since its WBD clears the tag
at the home (R58, R85). The granted half of an 8-byte store stays until the other half is answered (R137). -/
def State.giveWord (s : State) (a w : Nat) : State :=
  let c := s.core a
  let x := c.raw w
  if x.st ≠ .own || x.pm ≠ 0 || c.cbs.any (fun q => q.1 == w && q.2.2) then s
  else if (x.tg.flatMap (fun k => c.unpublished k)).isEmpty && !c.cbs.any (fun q => q.1 == w) then s.writeBack a w
  else s.startCallback a w true

/-- The lines of the L1 that share the set of a line (R155). -/
def Core.setLines (c : Core) (line : Nat) : SMap L1Line := c.lines.filter (fun e => e.1 % 512 == line % 512)

/-- The line is absent and its set has no free way. -/
def Core.setFull (c : Core) (line : Nat) : Bool := (c.line line).isNone && decide (c.ways ≤ (c.setLines line).length)

/-- Make room for a new line in its set: the least recently used line without a PEND word leaves (R63, R155). A line with
DIRTY or tagged words first registers what is unregistered, and its words leave at the grants. -/
def State.evictFor (s : State) (a line : Nat) : State :=
  let c := s.core a
  let ls := c.setLines line
  if ls.length < c.ways then s
  else
    let free := ls.filter (fun e => (lineWords e.1).all (fun w => (c.raw w).st != .pend))
    match free.foldl (fun (b : Option (Nat × L1Line)) e => match b with
        | some x => if e.2.stamp < x.2.stamp then some e else b
        | none => some e) none with
    | none => s
    | some (l, _) =>
      let s := (lineWords l).foldl (fun s w =>
        match ((s.core a).raw w).st with
        | .own => s.giveWord a w
        | .dirty => s.registerDirty a w ((s.core a).raw w).wslot true
        | .copy => s.updCore a (fun c => c.setWord w .inv)
        | _ => s) s
      if (lineWords l).all (fun w => ((s.core a).raw w).st = .inv) then s.updCore a (fun c => { c with lines := del c.lines l }) else s

/-- The line of a word is present and has just been used; a new one carries the access's ASID and page (R62). -/
def State.useLine (s : State) (a line asid vpn : Nat) : State :=
  let s1 := { s with next := s.next + 1 }
  match (s.core a).line line with
  | some l => s1.updCore a (fun c => { c with lines := ins c.lines line { l with stamp := s.next } })
  | none => (s1.evictFor a line).updCore a (fun c => { c with lines := ins c.lines line ⟨0, 0, asid, vpn, s.next⟩ })

/-! ### Completion of memory operations (R137, R139) -/

/-- The bytes of a type (R135). -/
def tyBytes (t : Ty) : Nat :=
  match t with
  | .i8 | .n8 | .mf8 | .mf8n => 1
  | .i16 | .n16 | .f16 | .bf16 => 2
  | .i64 | .n64 => 8
  | _ => 4

/-- A loaded value extended as R135 states: to 32 bits in a varying register, to 64 in a uniform one. -/
def tyLoad (t : Ty) (uniform : Bool) (x : W64) : W64 :=
  let w := if uniform then 64 else 32
  match t with
  | .i8 => BitVec.ofNat 64 (wrapN w (sInt 8 x.toNat))
  | .i16 => BitVec.ofNat 64 (wrapN w (sInt 16 x.toNat))
  | .i32 => BitVec.ofNat 64 (wrapN w (sInt 32 x.toNat))
  | .n8 => BitVec.ofNat 64 (x.toNat % 2 ^ 8)
  | .n16 => BitVec.ofNat 64 (x.toNat % 2 ^ 16)
  | .i64 | .n64 => x
  | _ => BitVec.ofNat 64 (x.toNat % 2 ^ 32)

/-- The words of an access. -/
def wordsOf (pa n : Nat) : List Nat := if n = 8 then [pa / 4, pa / 4 + 1] else [pa / 4]

/-- The bytes of a word that an access of `n` bytes at `pa` touches. -/
def accBytes (pa n w : Nat) : BitVec 4 := if n = 8 then 15 else if pa / 4 = w then byteMask (pa % 4) n else 0

/-- The bytes that the access's own pack had written before it, laid over an answered word (R89). -/
def Acc.over (x : Acc) (w : Nat) (d : W32) : W32 :=
  match x.own.find? (fun o => o.1 == w) with | some o => mergeBytes o.2.1 d o.2.2 | none => d

/-- An access takes the value of one of its words. -/
def Acc.take (x : Acc) (w : Nat) (d : W32) : Acc :=
  if !x.need.contains w then x
  else
    let d := x.over w d
    let v : W64 :=
      if x.n = 8 then (if x.pa / 4 = w then join64 d (x.val.extractLsb' 32 32) else join64 (x.val.setWidth 32) d)
      else BitVec.ofNat 64 (byteFld d.toNat (x.pa % 4) x.n)
    { x with val := v, need := x.need.filter (fun y => y != w) }

/-- An access fails at one of its words: OWNER_LOST names the lowest lost word (R76). -/
def Acc.fail (x : Acc) (w code : Nat) : Acc :=
  if !x.need.contains w then x
  else
    let fva := if code = fcOwnerLost then x.va + 4 * w - x.pa / 4 * 4 - x.pa % 4 else x.va
    let keepOld := x.code ≠ 0 && (x.code ≠ code || x.fva ≤ fva)
    { x with need := x.need.filter (fun y => y != w), code := if keepOld then x.code else code,
             fva := if keepOld then x.fva else fva }

/-- The operation has every answer. -/
def MemOp.complete (m : MemOp) : Bool := m.accs.all (fun x => x.need.isEmpty) && m.host == 0

/-- FINFO.KIND of a memory operation (R43). -/
def kindNo (k : MemKind) : Nat := match k with | .load | .dereg | .table => 0 | .atomic => 2 | _ => 1

/-- The lanes of the accesses that satisfy `p`. -/
def accLanes (xs : List Acc) (p : Acc → Bool) : Mask := maskList ((xs.filter p).map (fun x => x.lane))

/-- The operation writes a register. -/
def Dest.isNone (d : Dest) : Bool := match d with | .none => true | .s r => r == 63 | .p r => r == 7 | _ => false

/-- The result of an operation, for the landing buffer: the lanes that succeeded. -/
def MemOp.landing (m : MemOp) : Landing :=
  let ok := m.accs.filter (fun x => x.code == 0)
  let uni := match m.dest with | .s _ => true | _ => false
  let at_ (L : Nat) : W64 := match ok.find? (fun x => x.lane == L) with | some x => tyLoad m.ty uni x.val | none => 0
  let vs := if uni then [] else lanes.map at_
  ⟨m.slot, m.split, m.seq, m.dest, accLanes ok (fun _ => true), loRow vs, hiRow vs, at_ 127, m.tok, m.flags⟩

/-- A store, or another operation without a register result, is complete. -/
def Core.retire (c : Core) (m : MemOp) : Core := c.updPack m.slot (fun p => p.retireOp m.split m.seq m.tok c.cycle)

/-- A split passes the fault horizon of its instruction (R138); one that writes a mask word stays held until the write. The
entries whose last use it was are dead, unless it faults and runs again (R118, R137). -/
def Core.passHorizon (c : Core) (a : Nat) (m : MemOp) : Core :=
  let mw := match m.dest with | .s r => maskWord (decide (64 ≤ a)) r | _ => false
  let gone := m.accs.all (fun x => x.code == 0)
  c.updSplit m.slot m.split (fun x =>
    let x := if gone && !m.dead.isEmpty then
        { x with win := killIn m.dead x.win }
      else x
    let x := if m.kind = .table && gone then { x with tab := m.accs.map (fun z => (z.lane, z.val)) } else x
    if !mw && x.hold = some m.seq then { x with hold := none } else x)

/-- Drop the COPY words of the lines that satisfy `p`; a read in flight for such a line keeps nothing (R68, R91). -/
def Core.dropCopies (c : Core) (p : Nat → L1Line → Bool) : Core :=
  let hit (l : Nat) : Bool := match c.line l with | some x => p l x | none => false
  { c with
    l1 := c.l1.filter (fun e => !(e.2.st == .copy && hit (e.1 / 16)))
    reads := c.reads.map (fun r => if p r.line ⟨0, 0, r.asid, r.vpn, 0⟩ then { r with keepIt := false } else r) }

/-- The line's fill address lies in one of the windows that a mask names (R68, R92). -/
def Pack.inWindows (p : Pack) (mask : Byte) (vpn : Nat) : Bool :=
  (List.range 8).any (fun i =>
    let r := p.special (sprRgn + i)
    mask.getLsbD i && decide (fld r 0 41 ≤ vpn) && decide (vpn < fld r 0 41 + fld r 41 23))

/-- Self-invalidate the core of a pack (R68, R91): all COPY words, or with a region mask those in the windows and those
filled under another ASID. The instruction buffer empties (R433), and the pack's reservations are dropped (R148). -/
def Core.selfInvalidate (c : Core) (slot : Nat) (mask : Byte) : Core :=
  match look c.packs slot with
  | none => c
  | some p =>
    let c := if mask = 0 then c.dropCopies (fun _ _ => true)
      else c.dropCopies (fun _ l => l.asid != p.asid || p.inWindows mask l.vpn)
    { c with ibuf := [] }.updPack slot (fun p => p.noResv)

/-- The fault of a pack whose instruction has been issued: its PC goes back to it, restricted to the lanes `replay`, and
the pack stops (R137, R348). A service core enters its handler once it has drained (R357, R358). -/
def State.lateFault (s : State) (a slot split : Nat) (f : FaultRec) (replay : Option Mask) : State :=
  if 64 ≤ a then
    let s := s.updCore a (fun c => c.updPack slot (fun p =>
      { (p.updSplit split (fun x => { x with pc := f.pc, hold := none })) with stop := some ⟨1, some f, split, false, false, false⟩ }))
    match s.viewAt ⟨a, slot, split⟩ with
    | some v => if v.co.drained then v.enter f.code f.pc f.fva f.finfo else s
    | none => s
  else
    s.updCore a (fun c => c.updPack slot (fun p =>
      (p.updSplit split (fun x => { x with pc := f.pc, replay := replay, hold := none, st := .ready })).stopFor split f false))

/-- A lane of a store that fails performs nothing (R137): a word of it that was granted takes back the bytes and the writer record that it
held before. -/
def Core.undo (c : Core) (m : MemOp) : Core :=
  if m.kind ≠ .store then c
  else (m.accs.filter (fun z => z.code != 0 && z.n == 8)).foldl (fun (c : Core) z => (wordsOf z.pa z.n).foldl (fun (c : Core) w =>
    let x := c.raw w
    if x.st = .own && x.pm != 0 then c.setWord w { x with val := x.granted, pm := 0, wv := x.owv, wslot := x.owslot, wep := x.owep } else c) c) c

/-- An 8-byte store to the word awaits its other word, or has failed there. -/
def Core.openHalf (c : Core) (w : Nat) : Bool :=
  c.ops.any (fun m => m.kind == .store && m.accs.any (fun z => z.n == 8 && (wordsOf z.pa z.n).contains w && (!z.need.isEmpty || z.code != 0)))

/-- The granted words of a list that no 8-byte store holds back any more show what was stored (R137). -/
def Core.commit (c : Core) (ws : List Nat) : Core :=
  ws.foldl (fun (c : Core) w =>
    let x := c.raw w
    if x.st = .own && x.pm != 0 && !c.openHalf w then c.setWord w { x with pm := 0 } else c) c

/-- The words of an 8-byte store that the core holds already stay as they were before it, to others, while its other word is asked for. -/
def Core.holdHalves (c before : Core) (accs : List Acc) : Core :=
  (accs.filter (fun z => z.n == 8 && !z.need.isEmpty)).foldl (fun (c : Core) z =>
    ((wordsOf z.pa z.n).filter (fun w => !z.need.contains w)).foldl (fun (c : Core) w =>
      let x := c.raw w
      if x.st = .own && x.pm = 0 then c.setWord w { x with pm := 15, old := (before.raw w).granted } else c) c) c

/-- Complete a memory operation whose answers are all there: results go to the landing buffer, and failing lanes fault precisely (R137), of
which a BRX runs again in full (R309). The .AQ half of an atomic drops the copies now (R91). The flags of FADD go into FPF with the
destination (R146). -/
def State.finishOp (s : State) (a : Nat) (m : MemOp) : State :=
  let c := s.core a
  let c := { c with ops := c.ops.filter (fun x => x.id != m.id) }.undo m
  let c := if m.kind = .store then c.commit (m.accs.flatMap (fun z => if z.n = 8 then wordsOf z.pa z.n else [])) else c
  let bad := m.accs.filter (fun x => x.code != 0)
  let okAny := m.accs.any (fun x => x.code == 0)
  let c := if m.kind = .atomic && m.acq then c.selfInvalidate m.slot 0 else c
  let c := c.passHorizon a m
  let c := if m.dest.isNone || !okAny then (c.updPack m.slot (fun p => p.orFpf m.flags)).retire m else { c with landing := c.landing ++ [m.landing] }
  let s := s.setCore a c
  match bad with
  | [] => s
  | b :: bs =>
    let x := bs.foldl (fun x y => if y.lane < x.lane then y else x) b
    let once := decide (x.lane = 127)
    let lex := if once then 0 else accLanes bad (fun _ => true)
    let reason := if x.code = fcAliasAttr then 9 else 0
    let asid := match look c.packs m.slot with | some p => p.asid | none => 0
    s.lateFault a m.slot m.split ⟨x.code, m.pc, BitVec.ofNat 64 x.fva, finfo reason (if reason = 9 then x.lvl else 0) (kindNo m.kind)
      (if m.uni then 127 else x.lane) asid, lex⟩
      (if once || m.kind = .table then none else some lex)

/-- The lanes of a VLR whose last awaited word is `w`, all of whose words the core now owns, take their values as granted
and record their reservations: address and size (R148). -/
def Core.vlrGrant (c : Core) (w : Nat) : Core :=
  let ripe (z : Acc) : Bool := z.code == 0 && z.need == [w] && (wordsOf z.pa z.n).all (fun y => (c.raw y).st == L1St.own)
  let value (z : Acc) : Acc :=
    let y := (wordsOf z.pa z.n).foldl (fun (y : Acc) q => y.take q (c.raw q).val) { z with need := wordsOf z.pa z.n }
    { y with need := [] }
  c.ops.foldl (fun (c : Core) m =>
    if m.kind = .vlr then
      let rs := m.accs.filter ripe
      let c := c.updPack m.slot (fun p => { p with resv := rs.foldl (fun r z => ins r z.lane (z.pa * 16 + z.n)) p.resv })
      { c with ops := c.ops.map (fun o => if o.id == m.id then { o with accs := o.accs.map (fun z => if ripe z then value z else z) } else o) }
    else c) c

/-- Complete every operation of a core that has its answers. -/
def State.settleOps (s : State) (a : Nat) : State :=
  ((s.core a).ops.filter (fun m => m.complete)).foldl (fun s m => s.finishOp a m) s

/-- Change every operation of a core. -/
def Core.mapOps (c : Core) (f : MemOp → MemOp) : Core := { c with ops := c.ops.map f }

/-- The operation waits for grants. -/
def MemKind.granted (k : MemKind) : Bool := match k with | .store | .vlr | .reg | .dereg => true | _ => false

/-! ### Answers (R57, R63, R137, R434) -/

/-- The word that the core gives up of itself is written back, now that its pending sets are registered, and a DEREG that waited for it
is complete (R85, R151). -/
def State.letGo (s : State) (a w : Nat) : State :=
  let s := s.giveWord a w
  if ((s.core a).raw w).st = .own then s
  else (s.updCore a (fun c => c.mapOps (fun m =>
    if m.kind = .dereg then { m with accs := m.accs.map (fun z => z.take w 0) } else m))).settleOps a

/-- A callback is answered, and a word given up, once every word it registered is granted (R71). -/
def State.settleCallbacks (s : State) (a : Nat) : State :=
  let c := s.core a
  let done := c.cbs.filter (fun x => x.2.1.isEmpty)
  done.foldl (fun s x => if x.2.2 then s.letGo a x.1 else s.send a (homeNode x.1) (.callbackDone x.1))
    (s.setCore a { c with cbs := c.cbs.filter (fun x => !x.2.1.isEmpty) })

/-- The next request that the word awaits, or OWN (R63): a word whose REGWs are all answered. -/
def L1Word.answered (x : L1Word) : L1Word :=
  match x.more with
  | [] => { x with st := .own, rq := 0, pm := 0, ev := false, cnt := false }
  | (m, slot, cnt) :: r => { x with rq := m, ps := slot, cnt := cnt, more := r, pm := x.pm &&& ~~~x.bm }

/-- PREG counts one registration fewer, if it counted this one (R64). -/
def Core.pregDown (c : Core) (x : L1Word) : Core := if x.cnt then c.preg x.ps (· - 1) else c

/-- The access has the grant it needs of the word: the bytes it writes, every byte of a registration, and every answer for a release
store and for DEREG (R90, R138, R139). -/
def grantedFor (m : MemOp) (z : Acc) (w : Nat) (y : L1Word) : Bool :=
  if y.st = .own then true
  else if m.rel || m.kind = .dereg then false
  else (if m.kind = .store then accBytes z.pa z.n w else 15) &&& ~~~y.bm == 0

/-- Words of the pending sets that callbacks have still to register, now that PREG has fallen (R64, R71). -/
def State.pushCallbacks (s : State) (a : Nat) : State :=
  (s.core a).cbs.foldl (fun (s : State) q => q.2.1.foldl (fun (s : State) e => s.registerDirty a e.1 e.2 false) s) s

/-- A callback no longer awaits the word. -/
def Core.cbDone (c : Core) (w : Nat) : Core := { c with cbs := c.cbs.map (fun q => (q.1, q.2.1.filter (fun z => z.1 != w), q.2.2)) }

/-- GRANT (R58, R63): with data, the word with the pending store's bytes over it. The half of an 8-byte store stays hidden until the other
half is answered (R137). -/
def State.onGrant (s : State) (a w : Nat) (d : Option W32) : State :=
  let c := s.core a
  let x := c.raw w
  if x.st ≠ .pend then s
  else
    let y : L1Word := match d with
      | some v => { x with val := mergeBytes x.pm v x.val, old := v, kn := 15, bm := x.rq }
      | none => { x with kn := x.kn ||| x.rq, bm := x.bm ||| x.rq }
    let y : L1Word := { y.answered with pm := if x.more.isEmpty then x.pm else y.answered.pm, lz := [] }
    let c := ((c.setWord w y).pregDown x).vlrGrant w
    let got (m : MemOp) (z : Acc) : Acc :=
      if z.need.contains w && grantedFor m z w y && !(m.kind == .dereg && !y.tg.isEmpty) then z.take w y.val else z
    let c := (c.mapOps (fun m => if m.kind.granted then { m with accs := m.accs.map (got m) } else m)).cbDone w
    let s := s.setCore a (c.commit [w / 2 * 2, w / 2 * 2 + 1])
    let s := if x.ev && y.st = .own then s.giveWord a w else s
    ((s.settleOps a).pushCallbacks a).settleCallbacks a

/-- A REGW is refused (R137, R434): the bytes that waited for it take back what they held before the stores, and the word is INV, or OWN
with the bytes it had, unless another REGW of it is unanswered. -/
def State.onRefusal (s : State) (a w code : Nat) : State :=
  let c := s.core a
  let x := c.raw w
  if x.st ≠ .pend then s
  else
    let h := x.pm &&& x.rq
    let back : L1Word := { x with val := mergeBytes h x.val x.old, kn := x.kn &&& ~~~h, pm := x.pm &&& ~~~h, lz := [] }
    let y : L1Word :=
      if !x.more.isEmpty then back.answered
      else if x.bm = 0 then L1Word.inv
      else { back.answered with wv := x.owv, wslot := x.owslot, wep := x.owep }
    let c := (c.setWord w y).pregDown x
    let refused (m : MemOp) (z : Acc) : Acc :=
      if m.kind = .store && accBytes z.pa z.n w &&& x.rq == 0 then z else z.fail w code
    let c := (c.mapOps (fun m => if m.kind.granted then { m with accs := m.accs.map (refused m) } else m)).cbDone w
    (((s.setCore a c).settleOps a).pushCallbacks a).settleCallbacks a

/-- One answer fewer is awaited for a line read. -/
def Core.countRead (c : Core) (tag line : Nat) : Core :=
  let rs := c.reads.map (fun r => if r.tag == tag && r.line == line then { r with left := r.left - 1 } else r)
  { c with reads := rs.filter (fun r => r.left != 0) }

/-- The answer of a line read may be kept: the word becomes COPY, in a line that is present or for which there is room, under the lease
of the reader's context (R66). The COPY words of a line whose lease has run out are dropped before it is renewed. -/
def State.keepCopy (s : State) (a w : Nat) (d : W32) (r : RdRec) : State :=
  let l := w / 16
  let s := if ((s.core a).line l).isNone then s.evictFor a l else s
  if (s.core a).setFull l then s
  else
    let t := s.coreT a
    let s := s.updCore a (fun c => match c.line l with | some x => if x.usable t then c else c.dropLine l | none => c)
    (s.useLine a l r.asid r.vpn).updCore a (fun c =>
      let c := c.setWord w { L1Word.inv with st := .copy, val := d, kn := 15 }
      match c.line l with
      | some x =>
        let x : L1Line := { x with lk := r.k - 6, exp := (tickAt t r.k + r.lse) % 65536, asid := r.asid, vpn := r.vpn }
        { c with lines := ins c.lines l x }
      | none => c)

/-- DATA of a read (R58, R66, R91): the value goes to the operation, and a copy is kept where the answer and the read allow
it. An older copy of a word whose answer is not kept is dropped, so that no later read of the core goes back (R86). -/
def State.onData (s : State) (a w : Nat) (d : W32) (copy : Bool) (tag : Nat) : State :=
  let c := s.core a
  let x := c.raw w
  let rec_ := c.reads.find? (fun r => r.tag == tag && r.line == w / 16)
  let c := c.mapOps (fun m => if m.id == tag then { m with accs := m.accs.map (fun z => z.take w d) } else m)
  let s := s.setCore a (c.countRead tag (w / 16))
  let s := match rec_ with
    | some r =>
      if copy && r.keepIt && (x.st == L1St.inv || x.st == L1St.copy) then s.keepCopy a w d r
      else if x.st == L1St.copy then s.updCore a (fun c => c.setWord w .inv)
      else s
    | none => if x.st = L1St.copy then s.updCore a (fun c => c.setWord w .inv) else s
  s.settleOps a

/-- The answer of an atomic (R146, R147): each lane's old value. A copy of a word that it wrote is dropped, so that no later
read of the core is older (R86). -/
def State.onAtmData (s : State) (a : Nat) (olds : List (Nat × W64)) (flags tag : Nat) : State :=
  let c := s.core a
  let zs : List Acc := (c.ops.filter (fun m => m.id == tag)).flatMap (fun m => m.accs)
  let ws := (zs.filter (fun z => olds.any (fun o => o.1 == z.lane))).flatMap (fun z => wordsOf z.pa z.n)
  let c : Core := ws.foldl (fun (c : Core) w => if (c.raw w).st = L1St.copy then c.setWord w L1Word.inv else c) c
  let c : Core := { c with reads := c.reads.map (fun (r : RdRec) => if ws.any (fun w => w / 16 == r.line) then { r with keepIt := false } else r) }
  let put (z : Acc) : Acc := match olds.find? (fun o => o.1 == z.lane) with
    | some o => { z with val := o.2, need := [] }
    | none => z
  let c := c.mapOps (fun m => if m.id == tag then { m with flags := m.flags ||| flags, accs := m.accs.map put } else m)
  (s.setCore a c).settleOps a

/-- FAULT (R58, R73, R76): the refusal of a REGW, or of the accesses of an operation that wait for the word. An atomic on
two words fails as one. -/
def State.onFault (s : State) (a w code tag : Nat) : State :=
  if tag = 0 then s.onRefusal a w code
  else
    let c := s.core a
    let put (atom : Bool) (z : Acc) : Acc :=
      if atom && (wordsOf z.pa z.n).contains w then { z with need := [w] }.fail w code else z.fail w code
    let c := c.mapOps (fun m => if m.id == tag then { m with accs := m.accs.map (put (decide (m.kind = .atomic))) } else m)
    ((s.setCore a (c.countRead tag (w / 16))).settleOps a)

/-! ### What an owner answers (R58, R59, R63, R71, R73, R434) -/

/-- The core holds granted bytes of the word. -/
def L1Word.holds (x : L1Word) : Bool := x.st == .own || (x.st == .pend && x.bm != 0)

/-- FWD: the value goes back to the home, which hands it to the reader (R57, R63). -/
def State.onFwd (s : State) (a w : Nat) (r : WReq) : State :=
  let c := s.core a
  let x := c.raw w
  if c.quarantined then (s.send a (homeNode w) (.loss [w])).send a (homeNode w) (.notheld w .fwd (some r))
  else if !x.holds then s.send a (homeNode w) (.notheld w .fwd (some r))
  else if r.check && r.src != a && c.racyOther x r.bytes then s.send a (homeNode w) (.race w .fwd (some r))
  else s.send a (homeNode w) (.fwdData w x.granted r)

/-- The bytes that a recall or a callback carries meet an unreleased writer record (R73). -/
def Core.racyAsk (c : Core) (x : L1Word) (bytes : Option (Nat × BitVec 4)) : Bool :=
  match bytes with | some (_, b) => c.racyOther x b | none => false

/-- The granted half of an 8-byte store is recalled (R137, R434): the value before the store is written back, and the word is asked for
again, as though it were still awaited. -/
def State.giveHalf (s : State) (a w : Nat) : State :=
  let x := (s.core a).raw w
  let eager := match look (s.core a).packs x.wslot with | some p => !p.lazyMode | none => false
  let s := (s.send a (homeNode w) (.wbd w x.bm x.granted)).updCore a (fun c =>
    (c.cancel w).mapOps (fun m => if m.kind = .store then { m with accs := m.accs.map (fun z =>
      if z.n = 8 && (wordsOf z.pa z.n).contains w && !z.need.isEmpty then { z with need := z.need ++ [w] } else z) } else m))
  s.sendRegw a w { x with st := .inv, bm := 0, rq := 0, kn := x.pm, more := [], tg := [] } x.pm x.wslot false x.pm eager x.attr x.cov eager

/-- RECALL: `bytes` names the agent and the bytes to check, if any. A word whose REGW is outstanding stays PEND. -/
def State.onRecall (s : State) (a w : Nat) (bytes : Option (Nat × BitVec 4)) (num : Nat) : State :=
  let c := s.core a
  let x := c.raw w
  if c.quarantined then (s.send a (homeNode w) (.loss [w])).send a (homeNode w) (.notheld w (.recallWord num) none)
  else if !x.holds then s.send a (homeNode w) (.notheld w (.recallWord num) none)
  else if c.racyAsk x bytes then s.send a (homeNode w) (.race w (.recallWord num) none)
  else if x.st = .own then (if x.pm = 0 then s.writeBack a w else s.giveHalf a w)
  else
    (s.send a (homeNode w) (.wbd w x.bm x.granted)).updCore a (fun c =>
      (c.cancel w).setWord w { x with bm := 0, kn := x.pm })

/-- DROP: the granted bytes are discarded without write-back. -/
def State.onDrop (s : State) (a w : Nat) : State :=
  let c := s.core a
  let x := c.raw w
  if c.quarantined || !x.holds then s.send a (homeNode w) (.notheld w .drop none)
  else if x.st = .own then s.updCore a (fun c => (c.cancel w).setWord w .inv)
  else s.updCore a (fun c => (c.cancel w).setWord w { x with bm := 0, kn := x.pm })

/-- CALLBACK (R71, R73): after the check of a checked request, register the pending sets of the packs that have published them by the
word, and answer when every word is granted. The reservations of the word are cancelled (R78). -/
def State.onCallback (s : State) (a w : Nat) (bytes : Option (Nat × BitVec 4)) : State :=
  let c := s.core a
  let x := c.raw w
  if c.quarantined then (s.send a (homeNode w) (.loss [w])).send a (homeNode w) (.notheld w .callback none)
  else if !x.holds then s.send a (homeNode w) (.notheld w .callback none)
  else if c.racyAsk x bytes then s.send a (homeNode w) (.race w .callback none)
  else (s.startCallback a w false).settleCallbacks a

/-- The bytes that a merge sends to the owner that raced (R61): those outside its own. -/
def State.onRefill (s : State) (a w : Nat) (m : BitVec 4) (d : W32) : State :=
  s.updCore a (fun c =>
    let x := c.raw w
    if x.holds then
      c.setWord w { x with val := mergeBytes (m &&& ~~~x.bm &&& ~~~x.pm) x.val d, old := mergeBytes (m &&& ~~~x.bm) x.old d,
                           kn := x.kn ||| m }
    else c)

/-- STALE (R267): every stage entry that holds the line is stale; the core acknowledges. The clamps stay (R266). -/
def State.onStale (s : State) (a line : Nat) : State :=
  (s.updCore a (fun c => c.markStale line)).send a (128 + homeOf (64 * line)) (.staleAck line)

/-! ### The stage's hold on its entries and lines (R265, R266) -/

/-- The numbers of the queued instructions and of the fetches of a core. -/
def Core.stageUsers (c : Core) : List Nat := c.mq.map (fun m => m.id) ++ c.fetches.map (fun f => f.id)

/-- The entry is held by a queued instruction, a fetch, or a pin of a resident pack. -/
def Core.holdsEntry (c : Core) (e : StageEntry) : Bool :=
  e.users.any (fun u => c.stageUsers.contains u) || e.pins.any (fun k => (look c.packs k).isSome)

/-- A core clamps a line: by an entry, or by a fetch under way. -/
def Core.clampsLine (c : Core) (line : Nat) : Bool :=
  c.stage.any (fun (e : StageEntry) => e.held.contains line && c.holdsEntry e) ||
  c.fetches.any (fun (f : TileFetch) => f.entry.held.contains line)

/-- Entries that nothing holds go, and the clamps of the core on lines that it holds no more are released (R266). -/
def State.reapStage (s : State) (a : Nat) : State :=
  let s := s.updCore a (fun c => { c with stage := c.stage.filter (fun (e : StageEntry) => c.holdsEntry e) })
  let c := s.core a
  let left (e : Nat × List Nat) : Nat × List Nat := (e.1, if c.clampsLine e.1 then e.2 else e.2.filter (fun x => x != a))
  let held := (s.clamps.map left).filter (fun e => !e.2.isEmpty)
  { s with clamps := held }

end Sys2Proof.Machine
end

