-- ==== Sys2Proof/Machine/Translate.lean ====
section
/-! DEFINITION. Address translation: the table walk, the checks of R42 in their order, the translation buffers, and the
coherent value of a word for the agents that read it at once (R36-R52, R57, R60). -/

namespace Sys2Proof.Machine

/-! ### Partitions (R17-R23) -/

/-- The partition's register at an offset (R19). -/
def State.part (s : State) (p off : Nat) : W64 := s.mreg 0 (partBase p + off)

/-- The slice belongs to the partition (R19). -/
def State.hasSlice (s : State) (p sl : Nat) : Bool :=
  if sl < 64 then bit (s.part p 0x10) sl else decide (sl < 96) && bit (s.part p 0x18) (sl - 64)

/-- PART_CTL.PROT and PART_CTL.IE. -/
def State.partProt (s : State) (p : Nat) : Bool := bit (s.part p 0) 1
def State.partIe (s : State) (p : Nat) : Bool := bit (s.part p 0) 2

/-- The partition of an agent that works for one (R18): compute and service cores. -/
def State.partOfAgent (s : State) (a : Nat) : Option Nat :=
  if a < 64 then s.partOfCluster (a / 2) else if a < 96 then s.partOfCluster (a - 64) else none

/-- A physical address that a translation of the partition may reach (R14, R18, R26): host memory, or HBM in a slice of the
partition and outside its metadata region. -/
def State.reachable (s : State) (p : Option Nat) (pa : Nat) : Bool :=
  if isHost pa then true
  else
    match p with
    | none => false
    | some p =>
      isHbm pa && s.hasSlice p (sliceOf pa) && !(s.partIe p && decide (0x1_C000_0000 ≤ pa % 2 ^ 33))

/-! ### Leaves and checks (R39, R40, R42) -/

/-- The page size of a level in bits. -/
def levelShift (l : Nat) : Nat := 16 + 10 * l

/-- What a check answers: the fault code, the reason and the level of FINFO. -/
structure Flaw where
  code : Nat
  reason : Nat
  level : Nat
  deriving DecidableEq, Repr

/-- Kinds of access (R43). -/
def kRead : Nat := 0
def kWrite : Nat := 1
def kAtomic : Nat := 2
def kFetch : Nat := 3
def kTile : Nat := 4
def kTransfer : Nat := 5
def kWalker : Nat := 6

/-- The KIND of a translation's fault: a code that only a walker's read meets is the walker's (R41, R43). -/
def kindOf (code kind : Nat) : Nat :=
  if code = fcDataUe || code = fcIntegrity || code = fcRace || code = fcOwnerLost then kWalker else kind

/-- Who translates: its partition, whether it is a service core, the kind of its access, and whether it writes. -/
structure Who where
  part : Option Nat
  svc : Bool
  kind : Nat
  write : Bool
  deriving DecidableEq, Repr

/-- R36: bits 63:57 equal bit 56. -/
def canonical (va : Nat) : Bool :=
  let t := (va % 2 ^ 64) / 2 ^ 56
  decide (t = 0) || decide (t = 255)

/-- The page number VA[56:16]. -/
def vpnOf (va : Nat) : Nat := (va / 2 ^ 16) % 2 ^ 41

/-- The physical address that a leaf gives (R37, R40). -/
def leafPa (leaf : W64) (level va : Nat) : Nat :=
  let sh := levelShift level
  (fld leaf 16 32 * 2 ^ 16) / 2 ^ sh * 2 ^ sh + va % 2 ^ sh

/-- The attribute of a leaf as FRAME_REBIND codes it: 1 CLR, 2 ENC, 3 ENCI. -/
def leafAttr (leaf : W64) : Nat := fld leaf 6 2 + 1

/-- Checks 5 to 8 of R42, on the leaf. -/
def leafFlaw (q : Who) (leaf : W64) (level : Nat) : Option Flaw :=
  if bit leaf 4 && !q.svc then some ⟨fcProtection, 6, level⟩
  else if q.kind == kFetch && !bit leaf 3 then some ⟨fcProtection, 5, level⟩
  else if q.write && !bit leaf 2 then some ⟨fcProtection, 4, level⟩
  else if q.write && !bit leaf 5 then some ⟨fcPageFault, 3, level⟩
  else none

/-- The attribute that an access meets at a frame: the bound one, or, while a rebind of the frame runs, the one that the rebind
gives it, since the access waits for its end (R47, R48). -/
def State.frameAttr (s : State) (f : Nat) : Nat :=
  match s.rebind with
  | some (g, at_) => if g = f then at_ else get 0 s.frames f
  | none => get 0 s.frames f

/-- Checks 9 to 11 of R42, on the physical address of the access. -/
def State.paFlaw (s : State) (q : Who) (leaf : W64) (level pa : Nat) : Option Flaw :=
  if !s.reachable q.part pa then some ⟨fcProtection, 7, level⟩
  else
    let at_ := leafAttr leaf
    let prot := match q.part with | some p => s.partProt p | none => false
    let ie := match q.part with | some p => s.partIe p | none => false
    if at_ = 1 && prot then some ⟨fcProtection, 8, level⟩
    else if isHost pa then (if at_ = 2 || at_ = 3 then some ⟨fcProtection, 8, level⟩ else none)
    else if at_ = 3 && !ie then some ⟨fcProtection, 8, level⟩
    else
      let f := s.frameAttr (pa / 2 ^ 16)
      if f ≠ 0 && f ≠ at_ then some ⟨fcAliasAttr, 9, level⟩ else none

/-- XROOT: checks 2 and 3 (R38, R42). -/
def State.rootFlaw (s : State) (p : Option Nat) (root : W64) : Option Flaw :=
  if !bit root 0 then some ⟨fcPageFault, 0, 3⟩
  else
    let t := fld root 14 34 * 2 ^ 14
    if isHost t || !s.reachable p t then some ⟨fcProtection, 10, 3⟩ else none

/-- The address of a table's entry for a VA. -/
def entryAddr (table level va : Nat) : Nat :=
  table + 8 * ((va / 2 ^ levelShift level) % (if level = 3 then 2048 else 1024))

/-- What one entry says (R39, R40, R42 checks 2 to 4). -/
inductive EntryRes
  | flaw (f : Flaw)
  | next (table : Nat)
  | leaf
  deriving DecidableEq, Repr

/-- Judge one entry: V, then NEXT of a non-leaf entry, then the fields. -/
def State.judge (s : State) (p : Option Nat) (e : W64) (level : Nat) : EntryRes :=
  if !bit e 0 then .flaw ⟨fcPageFault, 0, level⟩
  else if !bit e 1 then
    let t := fld e 13 35 * 2 ^ 13
    if level ≠ 0 && (isHost t || !s.reachable p t) then .flaw ⟨fcProtection, 10, level - 1⟩
    else if level = 0 || fld e 48 16 ≠ 0 || fld e 2 11 ≠ 0 then .flaw ⟨fcPageFault, 2, level⟩
    else .next t
  else if level = 3 || fld e 48 16 ≠ 0 || fld e 12 4 ≠ 0 || fld e 6 2 = 3 ||
      fld e 16 (10 * level) ≠ 0 then .flaw ⟨fcPageFault, 2, level⟩
  else .leaf

/-! ### The coherent value of a word, for agents without an L1 (R57, R60) -/

/-- A message concerns a word. -/
def Body.about (b : Body) (w : Nat) : Bool :=
  match b with
  | .rdc _ _ _ _ _ _ _ _ => false
  | .rdn _ _ _ _ _ => false
  | .regw x .. => x == w
  | .ewr x .. => x == w
  | .atm ws .. => ws.contains w
  | .wbd x .. => x == w
  | .loss ws => ws.contains w
  | .zapw x .. => x == w
  | .notheld x .. => x == w
  | .race x .. => x == w
  | .callbackDone x => x == w
  | .staleAck l => w / 16 == l
  | .fwd x _ => x == w
  | .recallWord x _ _ => x == w
  | .callback x _ => x == w
  | .drop x => x == w
  | .grant x _ => x == w
  | .data .. => false
  | .atmData .. => false
  | .refill x .. => x == w
  | .fwdData x .. => x == w
  | .fault .. => false
  | .stale l => w / 16 == l

/-- Nothing concerning the word is under way, so an agent without an L1 is served at once (R55). -/
def State.quietWord (s : State) (w : Nat) : Bool :=
  !(s.hq.any (fun r => r.words.contains w)) && !(s.txns.any (fun t => t.req.words.contains w)) &&
  !(s.net.any (fun m => m.body.about w)) && !s.rebinding w

/-- The value that an owner's L1 returns for a word (R434). -/
def State.ownerWord (s : State) (a w : Nat) : W32 := ((s.core a).raw w).granted

/-- Who reads or writes at once: its agent and whether owners check its bytes (R73). -/
structure Reader where
  agent : Nat
  check : Bool
  deriving DecidableEq, Repr

/-- The owner refuses a request for bytes `b` (R73). -/
def State.ownerRaces (s : State) (q : Reader) (a w : Nat) (b : BitVec 4) : Bool :=
  q.check && a != q.agent && (s.core a).racyOther ((s.core a).raw w) b

/-- The value of a word, without a change of any state: a SPLIT word is composed (R61). -/
def State.peekWord (s : State) (w : Nat) : W32 :=
  match s.reg w with
  | .unreg => s.word w
  | .owned a _ _ => s.ownerWord a w
  | .split a _ b mb _ => mergeBytes mb (s.ownerWord a w) (s.ownerWord b w)
  | .lost _ => 0

/-- An owner drops the word as a RECALL makes it (R63, R434). -/
def State.dropOwner (s : State) (a w : Nat) : State :=
  s.updCore a (fun c =>
    let x := c.raw w
    let c := c.cancel w
    if x.st == .pend then c.setWord w { x with bm := 0, kn := x.pm } else c.setWord w L1Word.inv)

/-- Bring a word home (R58, R61): it becomes UNREG with its value. -/
def State.bringHome (s : State) (w : Nat) : State :=
  let v := s.peekWord w
  let os := regOwners (s.reg w)
  if os.isEmpty then s
  else ((os.foldl (fun s o => s.dropOwner o.1 w) s).setReg w .unreg).homeWrite w 15 v

/-- What an access at once comes to; one that must wait may have started a callback (R71). -/
inductive Sync (α : Type)
  | ok (x : α)
  | fault (code : Nat)
  | busy (s : State)

/-- The word can be served at once: nothing concerns it, and no callback is due (R71). -/
def State.ready (s : State) (w : Nat) : Bool := s.quietWord w && !regCb (s.reg w)

/-- A word is brought home by its home, which runs the callback and the merge, for a request on its bytes `b` that is not served at
once: the owners check those bytes (R61, R71, R73). -/
def State.drainWord (s : State) (q : Reader) (w : Nat) (b : BitVec 4) : State :=
  if !(regOwners (s.reg w)).isEmpty && s.quietWord w then s.arrive ⟨q.agent, [w], .drain, 0, b, q.check, 0, 0, 0, false⟩ else s

/-- An owner of the word is quarantined: the hub answers for it with LOSS (R76). -/
def State.goneOwner (s : State) (w : Nat) : Option Nat :=
  ((regOwners (s.reg w)).find? (fun o => (s.core o.1).quarantined)).map (fun o => o.1)

/-- The word's owners refuse a request for bytes `b` (R61, R73): every owner does, or one does and the word is tagged, so that its
callback is refused. Where one of two owners does, the other's bytes are brought home first. -/
def State.raceNow (s : State) (q : Reader) (w : Nat) (b : BitVec 4) : Bool :=
  let os := regOwners (s.reg w)
  if regCb (s.reg w) then os.any (fun o => s.ownerRaces q o.1 w b)
  else !os.isEmpty && os.all (fun o => s.ownerRaces q o.1 w b)

/-- One of the word's owners refuses a request for bytes `b`. -/
def State.raceSome (s : State) (q : Reader) (w : Nat) (b : BitVec 4) : Bool :=
  (regOwners (s.reg w)).any (fun o => s.ownerRaces q o.1 w b)

/-- RDN of one word, bytes `b` of which are read (R58): the value and the state after it. A check of the line that fails is recorded first
(R28). -/
def State.readWord (s : State) (q : Reader) (w : Nat) (b : BitVec 4) : Sync (W32 × State) :=
  if !s.quietWord w then .busy s
  else if s.underBadNode w then .fault fcIntegrity
  else if (regOwners (s.reg w)).isEmpty && s.tagFails w then .busy (s.inspect w)
  else
    match s.goneOwner w with
    | some a => .busy (s.loseWord a w)
    | none =>
      if s.raceNow q w b then .fault fcRace
      else
        match s.reg w with
        | .unreg =>
          match s.storedFault w 0 false with
          | some c => .fault c
          | none => .ok (s.homeWord w, s.touch w)
        | .owned a _ _ => .ok (s.ownerWord a w, s.touch w)
        | .split _ _ _ _ cb =>
          if cb || s.raceSome q w b then .busy (s.drainWord q w b)
          else let s := ((s.staleAll (w / 16)).bringHome w).touch w; .ok (s.word w, s)
        | .lost _ => .fault fcOwnerLost

/-- EWR of one word (R58), but for the count of its line. -/
def State.writeWord (s : State) (q : Reader) (w : Nat) (m : BitVec 4) (d : W32) (cov : Nat) : Sync State :=
  if !s.quietWord w then .busy s
  else if s.underBadNode w then .fault fcIntegrity
  else
    match s.goneOwner w with
    | some a => .busy (s.loseWord a w)
    | none =>
      if s.raceNow q w m then .fault fcRace
      else if regCb (s.reg w) || s.raceSome q w m then .busy (s.drainWord q w m)
      else
        let s := (s.staleAll (w / 16)).touch w
        match s.reg w with
        | .unreg =>
          match s.storedFault w cov true with
          | some c => .fault c
          | none => .ok ((s.clearPoison w cov).putWord w m d)
        | .lost _ =>
          match s.storedFault w cov true with
          | some c => .fault c
          | none => .ok ((((s.clearPoison w cov).setReg w .unreg).setWord w 0).putWord w m d)
        | _ => .ok ((s.bringHome w).putWord w m d)

/-- The words that `n` bytes at `pa` touch, with the bytes in each. -/
def spanWords (pa n : Nat) : List (Nat × BitVec 4) :=
  (List.range ((pa % 4 + n + 3) / 4)).map (fun i =>
    let lo := if i = 0 then pa % 4 else 0
    let hi := min 4 (pa % 4 + n - 4 * i)
    (pa / 4 + i, byteMask lo (hi - lo)))

/-- Read `n` bytes of HBM at once. -/
def State.readBytes (s : State) (q : Reader) (pa n : Nat) : Sync (List Byte × State) :=
  let go := (spanWords pa n).foldl (fun (r : Sync (List Byte × State)) e =>
    match r with
    | .ok (bs, s) =>
      match s.readWord q e.1 e.2 with
      | .ok (d, s) => .ok (bs ++ bytesOf 4 d.toNat, s)
      | .fault c => .fault c
      | .busy s => .busy s
    | r => r) (.ok ([], s))
  match go with
  | .ok (bs, s) => .ok ((bs.drop (pa % 4)).take n, s)
  | r => r

/-- How much of a word's granule and line a write of `n` bytes at `pa` covers (R28, R34). -/
def covers (pa n w : Nat) : Nat :=
  if pa ≤ w / 16 * 64 && w / 16 * 64 + 64 ≤ pa + n then 2
  else if pa ≤ w / 2 * 8 && w / 2 * 8 + 8 ≤ pa + n then 1 else 0

/-- Write bytes of HBM at once, each line in one write (R27). -/
def State.writeBytes (s : State) (q : Reader) (pa : Nat) (bs : List Byte) : Sync State :=
  let ws := spanWords pa bs.length
  match ws.find? (fun e => !s.ready e.1), ws.find? (fun e => (regOwners (s.reg e.1)).isEmpty && s.tagFails e.1) with
  | some e, _ => if s.raceNow q e.1 e.2 then .fault fcRace else .busy (s.drainWord q e.1 e.2)
  | none, some e => .busy (s.inspect e.1)
  | none, none =>
    let s := ((ws.map (fun e => e.1 / 16)).dedup).foldl (fun (s : State) l => s.countEnci (16 * l)) s
    let padded := List.replicate (pa % 4) 0 ++ bs ++ [0, 0, 0]
    (ws.zipIdx).foldl (fun (r : Sync State) e =>
      match r with
      | .ok s => s.writeWord q e.1.1 e.1.2 (BitVec.ofNat 32 (ofBytes ((padded.drop (4 * e.2)).take 4))) (covers pa bs.length e.1.1)
      | r => r) (.ok s)

/-- Bind an UNSET frame at the first access performed there (R47). -/
def State.bindFrame (s : State) (pa attr : Nat) : State :=
  if isHost pa || attr = 0 || get 0 s.frames (pa / 2 ^ 16) ≠ 0 then s
  else { s with frames := set 0 s.frames (pa / 2 ^ 16) attr }

/-- The access meets a frame that is bound to another attribute (R47). -/
def State.aliased (s : State) (pa attr : Nat) : Bool :=
  !isHost pa && attr != 0 && get 0 s.frames (pa / 2 ^ 16) != 0 && get 0 s.frames (pa / 2 ^ 16) != attr

/-! ### Translation buffers (R49, R52) -/

/-- The entry covers a page of an address space. -/
def TlbEntry.hits (e : TlbEntry) (asid va : Nat) : Bool :=
  e.asid == asid && e.vpn == (va % 2 ^ 57) / 2 ^ levelShift e.level

/-- Put an entry first, keeping at most `n`. -/
def tlbPut (n : Nat) (e : TlbEntry) (l : List TlbEntry) : List TlbEntry :=
  (e :: l.filter (fun x => x != e)).take n

/-- The set of a cluster or hub buffer (R49). R49 gives the formula for 256 sets, and of the hub's 128 it says that they are organised in
the same way: both parts of the formula are taken mod 128 there (see the assumption log). -/
def tlbSet (sets : Nat) (e : TlbEntry) : Nat := (e.vpn % sets) ^^^ (e.asid % 256 % sets)

/-- Put an entry in a set-associative buffer of 16 ways. -/
def tlbPutSet (sets : Nat) (e : TlbEntry) (l : List TlbEntry) : List TlbEntry :=
  let same := (l.filter (fun x => x != e && tlbSet sets x == tlbSet sets e)).take 15
  e :: same ++ l.filter (fun x => tlbSet sets x != tlbSet sets e)

/-- The cluster of a core. -/
def clusterOf (a : Nat) : Nat := if a < 64 then a / 2 else a - 64

/-- The size of a core's micro-buffer (R49). -/
def utlbSize (a : Nat) : Nat := if a < 64 then 64 else 16

/-- An entry may serve an access: one with D = 0 serves reads only (R52). -/
def TlbEntry.serves (e : TlbEntry) (write : Bool) : Bool := !(write && bit e.leaf 2 && !bit e.leaf 5)

/-- Look an address up in a core's micro-buffer and in its cluster's buffer, which fills the micro-buffer: the entry, and whether the
micro-buffer held it. A write drops an entry with W = 1 and D = 0. -/
def State.lookupTlb (s : State) (a asid va : Nat) (write : Bool) : Option (TlbEntry × Bool) × State :=
  let cl := clusterOf a
  let keepE (l : List TlbEntry) := l.filter (fun e => !e.hits asid va || e.serves write)
  let u := keepE (s.core a).utlb
  let k := keepE (get [] s.ctb cl)
  let s := { (s.updCore a (fun c => { c with utlb := u })) with ctb := set [] s.ctb cl k }
  match u.find? (fun e => e.hits asid va), k.find? (fun e => e.hits asid va) with
  | some e, _ => (some (e, true), s.updCore a (fun c => { c with utlb := tlbPut (utlbSize a) e c.utlb }))
  | none, some e =>
    (some (e, false), { (s.updCore a (fun c => { c with utlb := tlbPut (utlbSize a) e c.utlb })) with
      ctb := set [] s.ctb cl (tlbPutSet 256 e k) })
  | none, none => (none, s)

/-- The walks of a cluster, oldest first: the walker runs the first eight (R51). -/
def State.clusterWalks (s : State) (cl : Nat) : List Walk := s.walks.filter (fun k => clusterOf k.agent == cl)

/-- Join or start a walk (R51). A core waits for 16 pages at most, and the walker holds 64: a miss beyond them stalls. -/
def State.startWalk (s : State) (a asid : Nat) (root : W64) (va : Nat) (who : Site) : State :=
  let same (k : Walk) : Bool := clusterOf k.agent == clusterOf a && k.asid == asid && vpnOf k.va == vpnOf va && !k.killed
  let mine (k : Walk) : Bool := k.waiters.any (fun p => p.agent == a)
  if 16 ≤ (s.walks.filter mine).length && !(s.walks.any (fun k => same k && mine k)) then s
  else if s.walks.any same then
    { s with walks := s.walks.map (fun k =>
        if same k && !k.waiters.contains who then { k with waiters := k.waiters ++ [who] } else k) }
  else if 64 ≤ (s.clusterWalks (clusterOf a)).length then s
  else { s with walks := s.walks ++ [⟨a, asid, root, va, 3, fld root 14 34 * 2 ^ 14, false, [who]⟩] }

/-- What a split's page comes to now: its leaf, its flaw, or a wait for a walk or for the cluster's buffer. -/
inductive PageRes
  | leaf (leaf : W64) (level : Nat)
  | flaw (f : Flaw)
  | walk

/-- Remember a page for the rest of the instruction: it is looked up once (R50). REASON 1 marks one that came from a buffer. -/
def Split.remember (x : Split) (va : Nat) (e : TlbEntry) : Split :=
  { x with xl := x.xl.filter (fun z => z.vpn != vpnOf va) ++ [⟨vpnOf va, e.leaf, e.level, 0, 1⟩] }

/-- Look a page up in the buffers, or have it walked. A hit in the cluster's buffer takes 12 cycles (R50). -/
def View.seek (v : View) (va : Nat) (write : Bool) : PageRes × View :=
  match v.s.rootFlaw (v.s.partOfAgent v.ag) v.pk.root with
  | some f => (.flaw f, v)
  | none =>
    let s := v.s.setCore v.ag v.co
    let (e, s) := s.lookupTlb v.ag v.pk.asid va write
    match e with
    | some (e, near) =>
      let v := { v with s := s, co := s.core v.ag, sp := v.sp.remember va e }
      if near then (.leaf e.leaf e.level, v) else (.walk, { v with sp := { v.sp with next := max v.sp.next (v.now + 12) } })
    | none =>
      let s := s.startWalk v.ag v.pk.asid v.pk.root va ⟨v.ag, v.slot, v.ix⟩
      (.walk, { v with s := s, co := s.core v.ag })

/-- What an instruction has resolved of a page that serves an access: a buffered leaf with W = 1 and D = 0 serves reads only (R52). -/
def Split.resolved (x : Split) (va : Nat) (write : Bool) : Option Xlat :=
  x.xl.find? (fun z => z.vpn == vpnOf va && !(write && z.code == 0 && z.reason == 1 && bit z.leaf 2 && !bit z.leaf 5))

/-- Resolve the page of a VA for a split: what this instruction has already resolved, then the buffers, then a walk. -/
def View.page (v : View) (va : Nat) (write : Bool) : PageRes × View :=
  if !canonical va then (.flaw ⟨fcPageFault, 1, 3⟩, v)
  else
    match v.sp.resolved va write with
    | some x => (if x.code = 0 then .leaf x.leaf x.level else .flaw ⟨x.code, x.reason, x.level⟩, v)
    | none => v.seek va write

/-- One lane's address, translated, with its leaf's level. -/
structure LaneAddr where
  lane : Nat
  va : Nat
  pa : Nat
  attr : Nat
  lvl : Nat
  deriving DecidableEq, Repr

/-- A lane whose check failed. -/
structure LaneFlaw where
  lane : Nat
  fva : Nat
  f : Flaw
  deriving DecidableEq, Repr

/-- What the translation of an instruction's lanes comes to. -/
structure Xlated where
  v : View
  waiting : Bool
  good : List LaneAddr
  bad : List LaneFlaw

/-- Translate the lanes of a memory instruction (R42, R44, R136): the alignment check first, then the checks of R42 in their
order. The level of an ALIGN fault, for which no table is read, is 0: R43 gives none (see the assumption log). -/
def View.translate (v : View) (kind : Nat) (write : Bool) (n : Nat) (ls : List (Nat × Nat)) : Xlated :=
  let q : Who := ⟨v.s.partOfAgent v.ag, v.svc, kind, write⟩
  ls.foldl (fun (r : Xlated) x =>
    let (L, va) := x
    if va % n ≠ 0 then { r with bad := r.bad ++ [⟨L, va, fcProtection, 11, 0⟩] }
    else
      match r.v.page va write with
      | (.walk, w) => { r with v := w, waiting := true }
      | (.flaw f, w) => { r with v := w, bad := r.bad ++ [⟨L, va, f⟩] }
      | (.leaf leaf level, w) =>
        match leafFlaw q leaf level with
        | some f => { r with v := w, bad := r.bad ++ [⟨L, va, f⟩] }
        | none =>
          let pa := leafPa leaf level va
          match w.s.paFlaw q leaf level pa with
          | some f => { r with v := w, bad := r.bad ++ [⟨L, va, f⟩] }
          | none => { r with v := w, good := r.good ++ [⟨L, va, pa, if isHost pa then 0 else leafAttr leaf, level⟩] }) ⟨v, false, [], []⟩

/-- The fault of an instruction whose lanes failed their checks (R44): the lowest lane's, and every lane with its code.
`uni` says that all lanes share one address (R43). -/
def View.laneFault (v : View) (kind : Nat) (uni : Bool) (bad : List LaneFlaw) : Option FaultRec :=
  match bad with
  | [] => none
  | b :: bs =>
    let x := bs.foldl (fun x y => if y.lane < x.lane then y else x) b
    let lex := if x.lane = 127 then 0 else maskList (((b :: bs).filter (fun y => y.f.code == x.f.code)).map (fun y => y.lane))
    some (v.faultRec x.f.code (BitVec.ofNat 64 x.fva) x.f.reason x.f.level (kindOf x.f.code kind) (if uni then 127 else x.lane) lex)

/-! ### Walks (R41, R42, R51, R52) -/

/-- Give a walk's result to the splits that wait for it. -/
def State.deliverWalk (s : State) (k : Walk) (x : Xlat) : State :=
  k.waiters.foldl (fun s p => s.updCore p.agent (fun c => c.updSplit p.slot p.split (fun y =>
    { y with xl := y.xl.filter (fun z => z.vpn != x.vpn) ++ [x] }))) s

/-- Drop a walk. -/
def State.dropWalk (s : State) (k : Walk) : State := { s with walks := s.walks.erase k }

/-- A walk takes the entry of its level. A killed walk ends, and its waiters walk again. A leaf
completes every pending walk of the cluster that it covers (R51). The read is the core's (R41, R73). R41 has a table read under the
attribute bound to its frame; R47 does not say whether it binds an UNSET one: it binds nothing (see the assumption log). -/
def State.walkEntry (s : State) (k : Walk) : State :=
    if !s.walks.contains k then s
    else if k.killed then s.dropWalk k
    else
      let pt := s.partOfAgent k.agent
      let vpn := vpnOf k.va
      match s.readBytes ⟨k.agent, true⟩ (entryAddr k.table k.level k.va) 8 with
      | .busy s => s
      | .fault c => (s.dropWalk k).deliverWalk k ⟨vpn, 0, k.level, c, 0⟩
      | .ok (bs, s) =>
        let e : W64 := BitVec.ofNat 64 (ofBytes bs)
        match s.judge pt e k.level with
        | .flaw f => (s.dropWalk k).deliverWalk k ⟨vpn, 0, f.level, f.code, f.reason⟩
        | .next t => { s with walks := s.walks.map (fun j => if j == k then { k with level := k.level - 1, table := t } else j) }
        | .leaf =>
          let te : TlbEntry := ⟨k.asid, k.level, (k.va % 2 ^ 57) / 2 ^ levelShift k.level, e⟩
          let cl := clusterOf k.agent
          let covered (j : Walk) : Bool := clusterOf j.agent == cl && te.hits j.asid j.va && !j.killed
          let done : List Walk := s.walks.filter covered
          let s := { s with walks := s.walks.filter (fun j => !covered j), ctb := set [] s.ctb cl (tlbPutSet 256 te (get [] s.ctb cl)) }
          let agents : List Nat := (done.flatMap (fun j => j.waiters.map (fun p => p.agent))).dedup
          let s := agents.foldl (fun (s : State) a => s.updCore a (fun c => { c with utlb := tlbPut (utlbSize a) te c.utlb })) s
          done.foldl (fun (s : State) j => s.deliverWalk j ⟨vpnOf j.va, e, k.level, 0, 0⟩) s

/-- WALK_READ_ANSWER of walk `i`, one of the eight that its cluster's walker runs: the line of its next entry arrives, and serves every
walk of the cluster whose next entry lies in it (R51). -/
def State.walkStep (s : State) (i : Nat) : State :=
  match s.walks[i]? with
  | none => s
  | some k =>
    let ks := s.clusterWalks (clusterOf k.agent)
    if !(ks.take 8).contains k then s
    else
      let at_ (j : Walk) : Nat := entryAddr j.table j.level j.va / 64
      (ks.filter (fun j => at_ j == at_ k)).foldl (fun (s : State) j => s.walkEntry j) s

end Sys2Proof.Machine
end

