-- ==== Sys2Proof/Machine/Scratch.lean ====
section
/-! DEFINITION. The scratchpad array of a core: the windows of its workgroups, reads and writes, and the splits that a
write or a barrier step wakes (R98, R136, R143, R153, R158, R169-R173). -/

namespace Sys2Proof.Machine

/-- The window of the workgroup that the pack of a slot belongs to (R158). -/
def Core.winOf (c : Core) (slot : Nat) : Option WgWin := c.wins.find? (fun w => w.slots.contains slot)

/-- The size of the array's scratchpad, the system region included (R155). -/
def Core.spBytes (c : Core) : Nat := match c.spsz with | 0 => 262144 | 2 => 524288 | _ => 393216

/-- The system region: the top 16 KiB (R155). -/
def Core.sysBase (c : Core) : Nat := c.spBytes - 16384

/-- `n` bytes of the array from `a` up. -/
def Core.spRead (c : Core) (a n : Nat) : List Byte := (List.range n).map (fun i => get 0 c.sp (a + i))

/-- `n` bytes of the array as a number. -/
def Core.spNum (c : Core) (a n : Nat) : Nat := ofBytes (c.spRead a n)

/-- Put bytes into the array. -/
def Core.spPut (c : Core) (a : Nat) : List Byte → Core
  | [] => c
  | b :: bs => ({ c with sp := set 0 c.sp a b } : Core).spPut (a + 1) bs

/-- A poisoned granule of the array that `n` bytes at `a` touch (R34): a write passes the granules that it covers. -/
def Core.spPoison (c : Core) (a n : Nat) (write : Bool) : Bool :=
  !c.spbad.isEmpty && (List.range ((a % 8 + n + 7) / 8)).any (fun i =>
    let g := a / 8 + i
    get false c.spbad g && !(write && decide (a ≤ 8 * g) && decide (8 * g + 8 ≤ a + n)))

/-- Clear the poison of the granules that a list of byte offsets covers whole (R34). -/
def Core.spClean (c : Core) (covered : Nat → Bool) : Core :=
  if c.spbad.isEmpty then c
  else { c with spbad := c.spbad.filter (fun e => !((List.range 8).all (fun i => covered (8 * e.1 + i)))) }

/-- The comparison of WAITA (R153). -/
def waitaHolds (t : Ty) (cond : WCond) (x ref : Nat) : Bool :=
  let n := 8 * tyBytes t
  let a : Int := match t with | .i32 | .i64 => sInt n x | _ => ((x % 2 ^ n : Nat) : Int)
  let b : Int := match t with | .i32 | .i64 => sInt n ref | _ => ((ref % 2 ^ n : Nat) : Int)
  match cond with
  | .eq => decide (a = b)
  | .ne => decide (a ≠ b)
  | .ge => decide (b ≤ a)
  | .lt => decide (a < b)

/-- A parked split wakes at cycle `t`: it goes on after its instruction (R118). -/
def Pack.wake (p : Pack) (i t : Nat) : Pack :=
  p.updSplit i (fun x => { x with st := .ready, pc := x.after, since := t, next := max x.next t })

/-- A parked split wakes to issue its instruction again. -/
def Pack.retry (p : Pack) (i t : Nat) : Pack :=
  p.updSplit i (fun x => { x with st := .ready, since := t, next := max x.next t })

/-- A token of a split falls. -/
def Pack.tokDown (p : Pack) (i : Nat) (tok : Option Nat) : Pack :=
  match tok with | some q => p.updSplit i (fun x => x.tokDec q) | none => p

/-- Write the status of a woken split: a uniform register, or a mask word of the split. -/
def Pack.status (p : Pack) (i : Nat) (d : SReg) (v : W64) : Pack :=
  if maskWord false d then p.updSplit i (fun x => x.setMask [(d.toNat - 60, v.setWidth 32)])
  else p.applyAfter i (.s d v)

/-- Wake a split that waits in WAITA with status `v`. -/
def Pack.wakeWaita (p : Pack) (i t : Nat) (d : SReg) (tok : Option Nat) (v : W64) : Pack :=
  ((p.wake i t).status i d v).tokDown i tok

/-- Every split of the workgroup that waits on a word which the bytes `[lo, hi)` of the window touch looks again (R153). -/
def Core.wakeWaits (c : Core) (w : WgWin) (lo hi : Nat) : Core :=
  let look1 (c : Core) (slot i : Nat) : Core :=
    match (look c.packs slot).bind (fun p => p.split i) with
    | some x =>
      match x.st with
      | .waiting (.waita off ty cond ref d _ tok) =>
        if lo < off + tyBytes ty && off < hi && waitaHolds ty cond (c.spNum (w.base + off) (tyBytes ty)) ref.toNat then
          c.updPack slot (fun p => p.wakeWaita i c.cycle d tok 0)
        else c
      | _ => c
    | none => c
  w.slots.foldl (fun c slot => (List.range 4).foldl (fun c i => look1 c slot i) c) c

/-- One write to a window at offset `off`: the bytes reach the array, and WAITA looks (R98, R153). -/
def Core.spStore (c : Core) (w : WgWin) (off : Nat) (bs : List Byte) : Core :=
  let lo := w.base + off
  ((c.spPut lo bs).spClean (fun a => decide (lo ≤ a) && decide (a < lo + bs.length))).wakeWaits w off (off + bs.length)

/-! ### Barrier objects (R169-R173) -/

/-- A barrier object (R169). `res` holds the bits that barrier operations leave unchanged. -/
structure Bar where
  bytes : Nat
  arr : Nat
  exp : Nat
  res : Nat
  ph : Bool
  deriving DecidableEq, Repr

/-- Read the object at an offset. -/
def Core.bar (c : Core) (w : WgWin) (off : Nat) : Bar :=
  let a := w.base + off
  let lo := c.spNum a 4
  ⟨c.spNum (a + 12) 4, c.spNum (a + 8) 4, c.spNum (a + 4) 4, lo / 2, decide (lo % 2 = 1)⟩

/-- R170: the phase flips when every arrival and every byte is in. -/
def Bar.eval (b : Bar) : Bar := if b.arr = b.exp ∧ b.bytes = 0 then { b with ph := !b.ph, arr := 0 } else b

/-- The bytes of an object. -/
def Bar.toBytes (b : Bar) : List Byte :=
  bytesOf 4 (2 * b.res + b2n b.ph) ++ bytesOf 4 b.exp ++ bytesOf 4 b.arr ++ bytesOf 4 b.bytes

/-- A step of R170 on an object: splits that wait to leave the other phase wake, in slot and table order (R173). -/
def Core.wakeBar (c : Core) (w : WgWin) (off : Nat) (ph : Bool) : Core :=
  let look1 (c : Core) (slot i : Nat) : Core :=
    match (look c.packs slot).bind (fun p => p.split i) with
    | some x =>
      match x.st with
      | .waiting (.barwait o p0 tok) =>
        if o == off && p0 != ph then c.updPack slot (fun p => (p.wake i c.cycle).tokDown i tok) else c
      | _ => c
    | none => c
  w.slots.foldl (fun c slot => (List.range 4).foldl (fun c i => look1 c slot i) c) c

/-- Write an object after a barrier operation (R170). -/
def Core.setBar (c : Core) (w : WgWin) (off : Nat) (b : Bar) : Core :=
  (c.spStore w off b.toBytes).wakeBar w off b.ph

/-- R172: arrivals. The object, and the result. -/
def Bar.arrive (b : Bar) (n : Nat) : Bar × W64 :=
  let a := b.arr + n
  let ovr := decide (b.exp < a)
  let b1 : Bar := { b with arr := if ovr then b.exp else a }
  let b2 := b1.eval
  (b2, BitVec.ofNat 64 (b2n b.ph + 2 * b2n (b2.ph != b.ph) + 4 * b2n ovr))

/-- A transfer's decrement (R170): never below 0. -/
def Bar.deliver (b : Bar) (n : Nat) : Bar := { b with bytes := b.bytes - n }.eval

/-- An offset fails R136 and R158 for `n` bytes in a window of the given size: the reason. -/
def spFlaw (size so n : Nat) : Option Nat :=
  if so % n ≠ 0 then some 11 else if size < so + n then some 12 else none

/-- The size of the window of a view's pack; a pack without one has none. -/
def View.spSize (v : View) : Nat := match v.co.winOf v.slot with | some w => w.size | none => 0

/-- The record of the lanes (with their offsets and reasons) of a scratchpad instruction that fail with a code (R44, R136). -/
def View.spRec (v : View) (code kind : Nat) (once uni : Bool) (bad : List (Nat × Nat × Nat)) : Option FaultRec :=
  match bad with
  | [] => none
  | b :: bs =>
    let x := bs.foldl (fun x y => if y.1 < x.1 then y else x) b
    some (v.faultRec code (BitVec.ofNat 64 x.2.1) x.2.2 0 kind (if uni then 127 else x.1)
      (if once then 0 else maskList ((b :: bs).map (fun y => y.1))))

/-- SCRATCH_BOUNDS for the lanes of an instruction whose offsets fail (R44, R136). -/
def View.spBounds (v : View) (kind n : Nat) (once uni : Bool) (ls : List (Nat × Nat)) : Option FaultRec :=
  v.spRec fcScratchBounds kind once uni (ls.filterMap (fun x => (spFlaw v.spSize x.2 n).map (fun r => (x.1, x.2, r))))

/-- The lane meets poison (R34): the granules that the lanes of one store cover together are written over. -/
def View.spUe (v : View) (write : Bool) (n : Nat) (ls : List (Nat × Nat)) (x : Nat × Nat) : Bool :=
  let base := match v.co.winOf v.slot with | some w => w.base | none => 0
  let covered (g : Nat) : Bool := write && (List.range 8).all (fun i =>
    ls.any (fun x => decide (base + x.2 ≤ 8 * g + i) && decide (8 * g + i < base + x.2 + n)))
  v.co.spPoison (base + x.2) n write && !covered ((base + x.2) / 8)

/-- The fault of an instruction that reaches the scratchpad in one step: its bounds, then poison (R34, R136). -/
def View.spFault (v : View) (kind n : Nat) (once uni : Bool) (ls : List (Nat × Nat)) : Option FaultRec :=
  match v.spBounds kind n once uni ls with
  | some f => some f
  | none => v.spRec fcDataUe kind once uni ((ls.filter (fun x => v.spUe (kind != 0) n ls x)).map (fun x => (x.1, x.2, 0)))

end Sys2Proof.Machine
end

