-- ==== Sys2Proof/Machine/Access.lean ====
section
/-! DEFINITION. The parts that every memory instruction shares: addresses, the two phases, releases, and what an access
does to the words of the L1 and to its messages (R63, R72, R90-R95, R134-R142, R148). -/

namespace Sys2Proof.Machine

/-! ### Addresses (R134) -/

/-- The addresses of the lanes of `m`; an address sum wraps at 64 bits. -/
def View.eas (v : View) (ad : Addr) (off : BitVec 24) (m : Mask) : List (Nat × Nat) :=
  let o : W64 := off.signExtend 64
  match ad with
  | .u r => let e := (v.rs r + o).toNat; (lanesOf m).map (fun L => (L, e))
  | .a r => let x := v.ra r; (lanesOf m).map (fun L => (L, (x.lane L + o).toNat))
  | .v x => let xs := v.rvAll true x.reg; (lanesOf m).map (fun L => (L, (el xs L + o).toNat))

/-- The scratchpad offsets of the lanes of `m`; an offset sum wraps at 32 bits. -/
def View.sos (v : View) (ad : Addr) (off : BitVec 24) (m : Mask) : List (Nat × Nat) :=
  let o : W64 := off.signExtend 64
  match ad with
  | .u r => let e := (v.rs r + o).toNat % 2 ^ 32; (lanesOf m).map (fun L => (L, e))
  | .a r => let x := v.ra r; (lanesOf m).map (fun L => (L, (x.lane L + o).toNat % 2 ^ 32))
  | .v x => let xs := v.rvAll false x.reg; (lanesOf m).map (fun L => (L, (el xs L + o).toNat % 2 ^ 32))

/-- The one address of a once-acting form, reported as lane 127 (R43). -/
def View.ea1 (v : View) (base : SReg) (off : BitVec 24) : List (Nat × Nat) := [(127, (v.rs base + off.signExtend 64).toNat)]

/-- The one scratchpad offset of a once-acting form. -/
def View.so1 (v : View) (base : SReg) (off : BitVec 24) : List (Nat × Nat) :=
  [(127, (v.rs base + off.signExtend 64).toNat % 2 ^ 32)]

/-- All lanes share one address. -/
def adU (ad : Addr) : Bool := match ad with | .u _ => true | _ => false

/-- The uses of an address; `g` says that it is a global one, whose varying register is a w register. -/
def useAddr (g : Bool) (ad : Addr) : List Use :=
  match ad with | .u r => [.s 1 r] | .a r => [.a 1 r] | .v x => [.v 1 g x.reg]

/-- Mark the last use of an address register. -/
def View.lastAddr (v : View) (g : Bool) (ad : Addr) (m : Mask) : View :=
  match ad with | .v x => v.lastUse g x m | _ => v

/-! ### Phase 1 (R137) -/

/-- What an access asks of translation: FINFO.KIND, whether it writes, its size, whether one address serves all lanes, and
whether host memory refuses it. -/
structure Ask where
  kind : Nat
  write : Bool
  n : Nat
  uni : Bool
  hostop : LaneAddr → Bool

/-- Phase 1: translate and check every lane. R42 and R43 give the HOSTOP fault of R148, R151 and R154 no level: it is 0 (see the
assumption log). -/
def View.phase1 (v : View) (q : Ask) (ls : List (Nat × Nat)) : Except Res (View × List LaneAddr) :=
  let x := v.translate q.kind q.write q.n ls
  if x.waiting then .error (.hold x.v)
  else
    let host : List LaneFlaw := (x.good.filter (fun g => isHost g.pa && q.hostop g)).map (fun g =>
      ⟨g.lane, g.va, ⟨fcProtection, 13, 0⟩⟩)
    match x.v.laneFault q.kind q.uni (x.bad ++ host) with
    | some f => .error (.fault f)
    | none => .ok (x.v, x.good)

/-- The view of the same split in another state. -/
def View.reopen (v : View) (s : State) : View :=
  match s.viewAt ⟨v.ag, v.slot, v.ix⟩ with
  | some w => { w with now := v.now, dead := v.dead }
  | none => v

/-! ### Ordering (R90-R95) -/

/-- An operation of the view's pack that satisfies `p` is not complete. -/
def View.outstanding (v : View) (p : MemOp → Bool) : Bool := v.co.ops.any (fun m => m.slot == v.slot && p m)

/-- A release that another split of the pack has issued is past its counters and not performed: its split is still at issue (R90). -/
def View.sibRelease (v : View) : Bool :=
  !v.svc && (List.range 4).any (fun j => j != v.ix && (match v.pk.split j with | some y => y.phase != 0 | none => false))

/-- A synchronisation access of the pack is under way (R90, R91). -/
def View.syncBusy (v : View) : Bool := v.outstanding (fun m => m.acq || m.rel) || v.sibRelease

/-- A tile fetch of the pack, a plain read (R264), is not complete. -/
def View.fetching (v : View) : Bool := v.co.fetches.any (fun (f : TileFetch) => f.slot == v.slot && f.fault.isNone && !f.todo.isEmpty)

/-- An acquire of the pack is under way: nothing later is issued (R91). -/
def View.acqBusy (v : View) : Bool := v.outstanding (fun m => m.acq)

/-- The operation is a load or an atomic, whose answer a release waits for (R94). -/
def MemKind.reads (k : MemKind) : Bool := match k with | .load | .atomic | .vlr | .table => true | _ => false

/-- Scopes as numbers (R80). -/
def scopeNo (sc : Scope) : Nat := match sc with | .pack => 0 | .core => 1 | .device => 2 | .system => 3 | .fabric => 4

/-- Clear the writer records of a slot (R72), and what it has published: its pending set is empty then (R71). -/
def Core.clearRecords (c : Core) (slot : Nat) : Core :=
  { c with l1 := c.l1.map (fun e => (e.1, { e.2 with
      wv := e.2.wv && e.2.wslot != slot, owv := e.2.owv && e.2.owslot != slot, tg := e.2.tg.filter (fun k => k != slot),
      others := e.2.others.filter (fun o => o.1 != slot) })) }

/-- The DIRTY words that the pack of a slot wrote, last or before another pack of the core did. -/
def Core.dirtyOf (c : Core) (slot : Nat) : List Nat :=
  (c.l1.filter (fun e => e.2.st == L1St.dirty && e.2.writers.contains slot)).map (fun e => e.1)

/-- A stage of a release. -/
inductive Rel
  | wait
  | hold (v : View)
  | go (v : View)

/-- ECO and LDV rise (R72). -/
def Core.bumpEco (c : Core) (slot : Nat) (dv : Bool) : Core :=
  let e := c.ecoOf slot
  let n := if e = 0xFFF then 0 else e + 1
  let c := if e = 0xFFF then c.clearRecords slot else c
  { c with eco := set 0 c.eco slot n, ldv := if dv then set 0 c.ldv slot n else c.ldv }

/-- A release at scope `sc` before its own access (R94, R70, R72): phase 0 waits and counts; with `all`, a LAZY pack then
registers its whole pending set, as far as PREG allows at a time (R64), and waits for the grants in phase 1; from phase 2 on it is past
the release. -/
def View.release (v : View) (sc : Scope) (all : Bool) : Rel :=
  let n := scopeNo sc
  if 2 ≤ v.sp.phase then .go v
  else if v.sp.phase = 1 then
    let ws := v.co.pendingSet v.slot
    if !ws.isEmpty && v.pk.preg < 1023 then .hold (v.reopen (ws.foldl (fun s w => s.registerDirty v.ag w v.slot false) v.close))
    else if !(v.co.unpublished v.slot).isEmpty || v.pk.preg ≠ 0 then .wait else .go { v with sp := { v.sp with phase := 2 } }
  else if v.syncBusy || v.outstanding (fun m => m.kind.reads) || v.fetching then .wait
  else if !v.pk.lazyMode && v.pk.preg ≠ 0 then .wait
  else if 3 ≤ n && v.pk.hostw ≠ 0 then .wait
  else if n = 0 || v.svc then .go { v with sp := { v.sp with phase := 2 } }
  else
    let dirty := v.co.dirtyOf v.slot
    if v.co.ecoOf v.slot = 0xFFF && !dirty.isEmpty then
      .hold (v.reopen (dirty.foldl (fun s w => s.registerDirty v.ag w v.slot false) v.close))
    else if v.co.ecoOf v.slot = 0xFFF && (v.pk.preg ≠ 0 || !(v.co.carried v.slot).isEmpty) then .wait
    else
      let v := { v with co := v.co.bumpEco v.slot (decide (2 ≤ n)) }
      if v.pk.lazyMode && all then
        let ws := v.co.pendingSet v.slot
        if (v.co.unpublished v.slot).isEmpty then .go { v with sp := { v.sp with phase := 2 } }
        else
          let v := { v with sp := { v.sp with phase := 1 } }
          .hold (v.reopen (ws.foldl (fun s w => s.registerDirty v.ag w v.slot false) v.close))
      else .go { v with sp := { v.sp with phase := 2 } }

/-! ### Phase 2: leaving as an operation (R137-R139) -/

/-- The instruction leaves: its operation joins those of the core, `act` performs what it does at once (given the
operation's number), and whatever is complete completes. With `early`, its token does not wait for the operation. -/
def View.begin (v : View) (c : Ctl) (early : Bool) (o : MemOp) (act : Nat → State → State) : Res :=
  let dead := v.dead
  let v := { v with dead := [] }
  let (w, tok) :=
    if early then ((v.tokenFor c 1).leave { c with setq := 7 } o.dest true) else v.leave c o.dest true
  let (id, s) := ((w.finishKeep dead c (w.succ c)).close).fresh1
  let o : MemOp := { o with id := id, slot := v.slot, split := v.ix, pc := v.sp.pc, seq := v.sp.seq, tok := tok, dead := dead }
  let s := s.updCore v.ag (fun k => { k with ops := k.ops ++ [o] })
  .state ((act id s).settleOps v.ag)

/-- The operation leaves while its instruction stays at issue; the split is held until it is complete. -/
def View.beginHere (v : View) (o : MemOp) (act : Nat → State → State) : Res :=
  let w := { v with sp := { v.sp with hold := some v.sp.seq } }
  let (id, s) := w.close.fresh1
  let o : MemOp := { o with id := id, slot := v.slot, split := v.ix, pc := v.sp.pc, seq := v.sp.seq }
  let s := s.updCore v.ag (fun k => { k with ops := k.ops ++ [o] })
  .state ((act id s).settleOps v.ag)

/-- An operation before it leaves. -/
def memOp (k : MemKind) (t : Ty) (d : Dest) (accs : List Acc) : MemOp :=
  { id := 0, slot := 0, split := 0, pc := 0, seq := 0, kind := k, ty := t, dest := d, tok := none, accs := accs,
    acq := false, rel := false, uni := false, flags := 0, host := 0, dead := [] }

/-- The access of a lane: nothing answered yet. -/
def accOf (g : LaneAddr) (n : Nat) (need : List Nat) : Acc := ⟨g.lane, g.va, g.pa, n, need, 0, 0, 0, [], g.lvl⟩

/-- A word that an instruction touches: the bytes its lanes touch there, its virtual page and the attribute. -/
structure Touch where
  w : Nat
  b : BitVec 4
  vpn : Nat
  attr : Nat
  deriving DecidableEq, Repr

/-- The words of the accesses, each once. -/
def touches (n : Nat) (gs : List LaneAddr) : List Touch :=
  gs.foldl (fun ts g =>
    (wordsOf g.pa n).foldl (fun (ts : List Touch) w =>
      let b := accBytes g.pa n w
      if ts.any (fun t => t.w == w) then ts.map (fun t => if t.w == w then { t with b := t.b ||| b } else t)
      else ts ++ [⟨w, b, vpnOf g.va, g.attr⟩]) ts) []

/-- The lines of a list of words, each once. -/
def linesOf (ws : List Nat) : List Nat := (ws.map (fun w => w / 16)).dedup

/-- The lines that are present are used (R155). -/
def State.usePresent (s : State) (a : Nat) (ts : List Touch) : State :=
  (linesOf (ts.map (fun t => t.w))).foldl (fun s l => if ((s.core a).line l).isSome then s.useLine a l 0 0 else s) s

/-- The lines of the words are present and used: the set of one line may give up others of them, which stay nevertheless. -/
def State.useAll (s : State) (a asid : Nat) (ts : List Touch) : State :=
  let s := ts.foldl (fun (s : State) t =>
    if ((s.core a).line (t.w / 16)).isSome then s else s.useLine a (t.w / 16) asid t.vpn) (s.usePresent a ts)
  ts.foldl (fun (s : State) t =>
    if ((s.core a).line (t.w / 16)).isSome then s
    else s.updCore a (fun c => { c with lines := ins c.lines (t.w / 16) ⟨0, 0, asid, t.vpn, s.next⟩ })) s

/-- The set of one of the lines, all of which an instruction needs, holds more lines than it has ways, and one of another instruction
among them, which is still to leave (R63, R155). -/
def Core.crowded (c : Core) (ls : List Nat) : Bool :=
  ls.any (fun l => decide (c.ways < (c.setLines l).length) && (c.setLines l).any (fun e => !ls.contains e.1))

/-- Evict for the lines that are absent, without taking their places. -/
def State.evictAll (s : State) (a : Nat) (ls : List Nat) : State :=
  ls.foldl (fun (s : State) l => if ((s.core a).line l).isSome then s else s.evictFor a l) s

/-! ### Loads (R63, R141) -/

/-- A load of bytes `b` must wait for the word (R63): another pack's PEND word, bytes a PEND word does not know, or another pack's half of
an 8-byte store (R137). -/
def L1Word.stallsLoad (x : L1Word) (slot : Nat) (b : BitVec 4) : Bool :=
  (x.st == L1St.pend && (x.ps != slot || x.more.any (fun r => r.2.1 != slot) || b &&& ~~~x.kn != 0)) ||
  (x.st == L1St.own && x.pm != 0 && x.wslot != slot)

/-- An atomic of the pack on one of the words is not answered: a later access of the pack to it waits, so that the two are performed in
the order of their issue (R89). -/
def View.atomHolds (v : View) (ws : List Nat) : Bool :=
  v.outstanding (fun m => m.kind == .atomic && m.accs.any (fun z => z.need.any (fun w => ws.contains w)))

/-- A load of bytes `b` hits the word. -/
def L1Word.hit (x : L1Word) (b : BitVec 4) : Bool :=
  match x.st with
  | .copy => true
  | .own | .pend | .dirty => b &&& ~~~x.kn == 0
  | .inv => false

/-- A lane's words as the L1 serves them: a word below a failed node (`bad`) or another pack's unreleased bytes (R73) fail the lane, a hit
gives its value, the rest are awaited. Bytes of an awaited word that the pack has written and not registered stand over the answer (R88,
R89). -/
def Core.serveAcc (c : Core) (bad : Nat → Bool) (t slot : Nat) (check : Bool) (n : Nat) (g : LaneAddr) : Acc :=
  (wordsOf g.pa n).foldl (fun (z : Acc) w =>
    let x := c.word t w
    let b := accBytes g.pa n w
    if bad w then z.fail w fcIntegrity
    else if check && x.st != L1St.copy && c.racySame x slot b then z.fail w fcRace
    else if !x.hit b then (if x.st = L1St.dirty then { z with own := z.own ++ [(w, x.kn, x.val)] } else z)
    else z.take w x.val) (accOf g n (wordsOf g.pa n))

/-- Ask the homes for the words that the accesses await, line by line (R57, R66): RDC, or RDN where nothing is to be kept. -/
def State.askWords (s : State) (a slot id : Nat) (p : Pack) (plain acq check : Bool) (ts : List Touch) : State :=
  (linesOf (ts.map (fun t => t.w))).foldl (fun s l =>
    let us := ts.filter (fun t => t.w / 16 == l)
    let want := us.map (fun t => (t.w, t.b))
    let u := us.headD ⟨0, 0, 0, 0⟩
    if plain then s.send a (homeNode (16 * l)) (.rdn want id check u.attr slot)
    else
      (s.updCore a (fun c => { c with reads := c.reads ++ [⟨id, l, true, 16, p.tk, p.lse, p.asid, u.vpn⟩] })).send a
        (homeNode (16 * l)) (.rdc l acq true want id check u.attr slot)) s

/-- Requests to host memory for the distinct addresses of the lanes (R103). -/
def State.hostReads (s : State) (a slot id n : Nat) (pas : List Nat) : State :=
  { s with hostq := s.hostq ++ pas.map (fun pa => ⟨a, slot, id, 0, pa, n, .read⟩) }

/-- The words of a load that its words in the L1 make wait (R63): those that another pack of the core has written and not
registered, which are registered first. -/
def View.loadOthers (v : View) (n : Nat) (good : List LaneAddr) : List Touch :=
  (touches n (good.filter (fun g => !isHost g.pa))).filter (fun x =>
    ((v.close.core v.ag).raw x.w).st == L1St.dirty && ((v.close.core v.ag).raw x.w).writers != [v.slot])

/-- A word of a load is pending, or awaits an atomic of the pack, and makes the load wait (R63, R89). -/
def View.loadStalls (v : View) (n : Nat) (good : List LaneAddr) : Bool :=
  let ts := touches n (good.filter (fun g => !isHost g.pa))
  ts.any (fun x => ((v.close.core v.ag).raw x.w).stallsLoad v.slot x.b) || v.atomHolds (ts.map (fun x => x.w))

/-- A load that nothing makes wait (R63, R91, R141, R145): the words that the L1 holds are served at once, the others are asked
for at their homes or at the host. -/
def View.loadGo (v : View) (leave : View → MemOp → (Nat → State → State) → Res) (kind : MemKind) (ty : Ty) (uni nc acq : Bool)
    (rmask : Byte) (d : Dest) (good : List LaneAddr) : Res :=
  let n := tyBytes ty
  let hbm := good.filter (fun g => !isHost g.pa)
  let pas := ((good.filter (fun g => isHost g.pa)).map (fun g => g.pa)).dedup
  let ts := touches n hbm
  let a := v.ag
  let s := v.close
  let t := s.coreT a
  let s := if acq then s.updCore a (fun k => k.selfInvalidate v.slot rmask) else s
  let s := s.usePresent a ts
  let check := !v.pk.lazyMode && !acq
  let accs := hbm.map (fun g => (s.core a).serveAcc s.underBadNode t v.slot check n g) ++
    (good.filter (fun g => isHost g.pa)).map (fun g => accOf g n [])
  let miss := ts.filter (fun x => accs.any (fun z => z.code == 0 && z.need.contains x.w))
  let accs := accs.map (fun z => if z.code = 0 then z else { z with need := [] })
  let plain := nc || v.pk.lse == 0
  let v := v.reopen s
  leave v { (memOp kind ty d accs) with acq := acq, uni := uni, host := pas.length }
    (fun id s => (s.askWords a v.slot id v.pk plain acq check miss).hostReads a v.slot id n pas)

/-- A load, after its lanes' addresses are formed (R141, R145). -/
def View.loadWith (v : View) (leave : View → MemOp → (Nat → State → State) → Res) (kind : MemKind) (ty : Ty) (uni nc acq : Bool)
    (rmask : Byte) (d : Dest) (ls : List (Nat × Nat)) : Res :=
  let n := tyBytes ty
  if v.acqBusy || (acq && v.syncBusy) then .wait
  else
    match v.phase1 ⟨kRead, false, n, uni, fun _ => false⟩ ls with
    | .error r => r
    | .ok (v, good) =>
      let others := v.loadOthers n good
      if !others.isEmpty then .hold (v.reopen (others.foldl (fun s x => s.publish v.ag x.w false) v.close))
      else if v.loadStalls n good then .hold v
      else v.loadGo leave kind ty uni nc acq rmask d good

/-- A load of an instruction that leaves with it. -/
def View.load (v : View) (c : Ctl) (ty : Ty) (uni nc acq : Bool) (rmask : Byte) (d : Dest) (ls : List (Nat × Nat)) : Res :=
  v.loadWith (fun w o act => w.begin c false o act) .load ty uni nc acq rmask d ls

/-! ### Stores and registrations (R63, R72, R142) -/

/-- A word that an instruction registers: the bytes `m` it needs, the bytes `dm` it writes with value `d`, and the bytes `b`
that its access touches. -/
structure Claim where
  w : Nat
  m : BitVec 4
  dm : BitVec 4
  d : W32
  b : BitVec 4
  vpn : Nat
  attr : Nat
  cov : Nat
  deriving DecidableEq, Repr

/-- How the words are claimed: LAZY stores mark DIRTY, a LAZY release store sets CB, the writer record becomes `wr`, and PREG counts
the registrations where `cnt` says so (R64). -/
structure Claiming where
  lz : Bool
  cb : Bool
  check : Bool
  wr : Option Bool
  ownDirty : Bool
  cnt : Bool
  deriving DecidableEq, Repr

/-- The word with the writer record of slot `slot` (R72); `none` leaves it. A DIRTY word keeps its other writers beside it. -/
def L1Word.record (x : L1Word) (wr : Option Bool) (slot eco : Nat) : L1Word :=
  let others := if x.st = .dirty then ((x.wslot, x.wep) :: x.others).filter (fun o => o.1 != slot) else x.others
  match wr with
  | some b => { x with wv := b, wslot := slot, wep := eco, others := others }
  | none => x

/-- The bytes of a word for which no REGW has been sent. -/
def L1Word.unasked (x : L1Word) (m : BitVec 4) : BitVec 4 :=
  m &&& ~~~(x.more.foldl (fun (b : BitVec 4) r => b ||| r.1) (x.rq ||| x.bm))

/-- The DIRTY word must first be registered as it stands (R63). -/
def L1Word.mustRegister (x : L1Word) (slot : Nat) (q : Claiming) : Bool :=
  x.st == L1St.dirty && !q.lz && !(q.ownDirty && x.writers == [slot])

/-- The claim sends a REGW. -/
def L1Word.asks (x : L1Word) (q : Claiming) (m : BitVec 4) : Bool :=
  match x.st with
  | .inv | .copy | .dirty => !q.lz
  | .own => q.cb || m &&& ~~~x.bm != 0
  | .pend => q.cb || x.unasked m != 0

/-- Claim one word (R63): the state after it, and whether a grant is awaited. A write of a PEND word waits for nothing: its data is
written, and the bytes that no REGW asks for are asked for behind the others. A VLR cancels no reservation (R148). -/
def State.claim (s : State) (a slot : Nat) (q : Claiming) (k : Claim) : State × Bool :=
  let c := (if q.wr.isSome then (s.core a).cancel k.w else s.core a).markStale (k.w / 16)
  let s := s.setCore a c
  let x := c.raw k.w
  let eco := c.ecoOf slot
  let y := ({ x with val := mergeBytes k.dm x.val k.d, kn := x.kn ||| k.dm } : L1Word).record q.wr slot eco
  let y : L1Word := { y with owv := x.wv, owslot := x.wslot, owep := x.wep, attr := k.attr, cov := k.cov }
  let put (z : L1Word) : State := s.setCore a (c.setWord k.w z)
  let ask (z : L1Word) (m : BitVec 4) : State := s.sendRegw a k.w z m slot q.cb k.b q.check k.attr k.cov q.cnt
  match x.st with
  | .inv | .copy =>
    let z : L1Word := { y with val := mergeBytes k.dm 0 k.d, kn := k.dm, pm := k.dm, bm := 0, rq := 0, ev := false, cnt := false, more := [], tg := [],
                               others := [] }
    if q.lz then (put { z with st := L1St.dirty }, false) else (ask { z with old := 0 } k.m, true)
  | .own =>
    if x.asks q k.m then
      (ask { y with pm := x.pm ||| k.dm, old := x.granted } (if q.cb then k.m else k.m &&& ~~~x.bm), true)
    else (put { y with pm := x.pm &&& ~~~k.dm }, false)
  | .pend =>
    let z : L1Word := { y with pm := x.pm ||| (k.dm &&& ~~~x.bm), owv := x.owv, owslot := x.owslot, owep := x.owep,
                               old := mergeBytes (k.dm &&& ~~~x.bm &&& ~~~x.pm) x.old x.val }
    (if x.asks q k.m then ask z (if q.cb then k.m else x.unasked k.m) else put z, q.cb || k.m &&& ~~~x.bm != 0)
  | .dirty =>
    let z : L1Word := { y with pm := x.pm ||| k.dm, cov := max x.cov k.cov }
    if q.lz then (put z, false) else (ask { z with old := 0, others := [] } (k.m ||| x.pm), true)

/-- The lanes' data merged word by word, lanes ascending, so that the highest lane's byte remains (R142). -/
def storeWords (n : Nat) (xs : List (LaneAddr × W64)) : List Claim :=
  let put (cs : List Claim) (w : Nat) (b : BitVec 4) (d : W32) (g : LaneAddr) : List Claim :=
    if cs.any (fun c => c.w == w) then
      cs.map (fun c => if c.w == w then { c with m := c.m ||| b, dm := c.dm ||| b, b := c.b ||| b, d := mergeBytes b c.d d } else c)
    else cs ++ [⟨w, b, b, mergeBytes b 0 d, b, vpnOf g.va, g.attr, 0⟩]
  xs.foldl (fun cs e =>
    let (g, x) := e
    if n = 8 then put (put cs (g.pa / 4) 15 (x.setWidth 32) g) (g.pa / 4 + 1) 15 (x.extractLsb' 32 32) g
    else put cs (g.pa / 4) (byteMask (g.pa % 4) n) (BitVec.ofNat 32 (x.toNat * 2 ^ (8 * (g.pa % 4)))) g) []

/-- How much of its granule and line each word's instruction covers (R28, R34). -/
def withCover (cs : List Claim) : List Claim :=
  let full (w : Nat) : Bool := cs.any (fun c => c.w == w && c.dm == 15)
  cs.map (fun c =>
    { c with cov := if (List.range 16).all (fun i => full (c.w / 16 * 16 + i)) then 2
                    else if full (c.w / 2 * 2) && full (c.w / 2 * 2 + 1) then 1 else 0 })

/-- Claim words in turn; the words for which a grant is awaited. -/
def State.claimAll (s : State) (a slot : Nat) (q : Claiming) (cs : List Claim) : State × List Nat :=
  cs.foldl (fun (r : State × List Nat) k =>
    let (s, ask) := r.1.claim a slot q k
    (s, if ask then r.2 ++ [k.w] else r.2)) (s, [])

/-- What a claim of words comes to before it is performed: a wait, or the lanes that fail the check of their own core. -/
inductive Ready
  | wait (v : View)
  | go (s : State) (bad : List Nat)

/-- The waits of a claim (R63, R64, R89), and the words that fail: those that another pack of the core has written and not released (R73),
and those below a failed node of the integrity tree (R34). -/
def View.readyClaims (v : View) (q : Claiming) (cs : List Claim) : Ready :=
  let a := v.ag
  let s := v.close.useAll a v.pk.asid (cs.map (fun k => ⟨k.w, k.b, k.vpn, k.attr⟩))
  let c := s.core a
  let first := cs.filter (fun k => (c.raw k.w).mustRegister v.slot q)
  let held (x : L1Word) : Bool := x.st == L1St.own || x.st == L1St.pend
  let ls := linesOf (cs.map (fun k => k.w))
  if !first.isEmpty then .wait (v.reopen (first.foldl (fun s k => s.publish a k.w false) s))
  else if v.atomHolds (cs.map (fun k => k.w)) then .wait (v.reopen s)
  else if c.crowded ls then .wait (v.reopen (v.close.evictAll a ls))
  else if q.cnt && 1023 < v.pk.preg + (cs.filter (fun k => (c.raw k.w).asks q k.m)).length then .wait (v.reopen s)
  else .go s ((cs.filter (fun k => s.underBadNode k.w || (q.check && held (c.raw k.w) && c.racySame (c.raw k.w) v.slot k.b))).map (fun k => k.w))

/-- The code with which a word fails the check of a claim: it lies below a failed node (R34), or races (R73). -/
def State.claimCode (s : State) (w : Nat) : Nat := if s.underBadNode w then fcIntegrity else fcRace

/-- The accesses of lanes whose words are claimed: those that fail at once, with the word's code, and those that await grants. -/
def claimAccs (code : Nat → Nat) (n : Nat) (bad need : List Nat) (gs : List LaneAddr) : List Acc :=
  gs.map (fun g =>
    let ws := wordsOf g.pa n
    match ws.find? (fun w => bad.contains w) with
    | some w => { (accOf g n [w]).fail w (code w) with need := [] }
    | none => accOf g n (ws.filter (fun w => need.contains w)))

/-- The lane touches none of the words. -/
def clearOf (n : Nat) (bad : List Nat) (g : LaneAddr) : Bool := (wordsOf g.pa n).all (fun w => !bad.contains w)

/-- Keep, of several lanes with one address, the highest. -/
def lastPa : List (LaneAddr × W64) → List (LaneAddr × W64)
  | [] => []
  | x :: xs => if xs.any (fun y => y.1.pa == x.1.pa) then lastPa xs else x :: lastPa xs

/-- Posted writes to host memory, in lane order (R103). -/
def State.hostWrites (s : State) (a slot n : Nat) (xs : List (LaneAddr × W64)) : State :=
  let ys := lastPa xs
  let s := s.updCore a (fun c => c.updPack slot (fun p => { p with hostw := p.hostw + ys.length }))
  { s with hostq := s.hostq ++ ys.map (fun e => ⟨a, slot, 0, e.1.lane, e.1.pa, n, .write (bytesOf n e.2.toNat)⟩) }

/-- How a store claims its words (R63, R72): a LAZY release store sets CB. -/
def View.storeClaiming (v : View) (rel : Option Scope) : Claiming :=
  let lz := v.pk.lazyMode
  let cb := lz && (match rel with | some sc => scopeNo sc ≠ 0 | none => false)
  ⟨lz && !cb, cb, !lz, some (rel.isNone && records v.ag), cb, !lz⟩

/-- The lanes of a store that go to HBM, with their data. -/
def hbmData (data : Nat → W64) (good : List LaneAddr) : List (LaneAddr × W64) :=
  (good.filter (fun g => !isHost g.pa)).map (fun g => (g, data g.lane))

/-- A store that nothing makes wait (R63, R103, R142): its words are claimed, its writes to host memory are posted. -/
def View.storeGo (v : View) (c : Ctl) (ty : Ty) (uni : Bool) (rel : Option Scope) (data : Nat → W64) (good : List LaneAddr)
    (s : State) (bad : List Nat) : Res :=
  let n := tyBytes ty
  let hbm := good.filter (fun g => !isHost g.pa)
  let host := good.filter (fun g => isHost g.pa)
  let cs := withCover (storeWords n ((hbmData data good).filter (fun e => clearOf n bad e.1)))
  let co := s.core v.ag
  let (s, need) := s.claimAll v.ag v.slot (v.storeClaiming rel) cs
  let accs := claimAccs s.claimCode n bad need hbm
  let s := s.updCore v.ag (fun k => k.holdHalves co accs)
  let s := s.hostWrites v.ag v.slot n (host.map (fun g => (g, data g.lane)))
  let accs := accs ++ host.map (fun g => accOf g n [])
  (v.reopen s).begin c rel.isNone { (memOp .store ty .none accs) with rel := rel.isSome, uni := uni } (fun _ s => s)

/-- A store, after its lanes' addresses are formed (R142, R145): `rel` is the scope of a release store. -/
def View.store (v : View) (c : Ctl) (ty : Ty) (uni : Bool) (rel : Option Scope) (data : Nat → W64) (ls : List (Nat × Nat)) : Res :=
  let n := tyBytes ty
  if v.acqBusy then .wait
  else
    match v.phase1 ⟨kWrite, true, n, uni, fun _ => false⟩ ls with
    | .error r => r
    | .ok (v, good) =>
      match (match rel with | some sc => v.release sc false | none => .go v) with
      | .wait => .hold v
      | .hold v => .hold v
      | .go v =>
        match v.readyClaims (v.storeClaiming rel) (withCover (storeWords n (hbmData data good))) with
        | .wait v => .hold v
        | .go s bad => v.storeGo c ty uni rel data good s bad

end Sys2Proof.Machine
end

