-- ==== Sys2Proof/Machine/Memory.lean ====
section
/-! DEFINITION. The memory instructions (R132-R154): loads, stores, scratchpad accesses, atomics, reservations, ordering,
dropping, registration, prefetch and WAITA, and the landing buffer's write (R189). -/

namespace Sys2Proof.Machine

/-! ### Loads and stores of global memory (R141, R142, R145) -/

/-- A varying load. -/
def loadV (c : Ctl) (ty : Ty) (nc acq : Bool) (rmask : Byte) (d : VReg) (ad : Addr) (off : BitVec 24) (s : State) :
    Host.Outcome State Fault Refusal :=
  issue c ([.dv (ty64 ty) d] ++ useAddr true ad) (fun v m =>
    (v.lastAddr true ad m).load c ty (adU ad) nc acq rmask (v.destV (ty64 ty) d) (v.eas ad off m)) s

/-- A uniform load. -/
def View.loadS (v : View) (c : Ctl) (ty : Ty) (nc acq : Bool) (rmask : Byte) (d base : SReg) (off : BitVec 24) : Res :=
  v.load c ty true nc acq rmask (.s d) (v.ea1 base off)

/-- A varying store. -/
def storeV (c : Ctl) (ty : Ty) (rel : Option Scope) (ad : Addr) (off : BitVec 24) (b : VSrc) (s : State) :
    Host.Outcome State Fault Refusal :=
  issue c (useAddr true ad ++ [useV 2 (ty64 ty) b]) (fun v m =>
    let xs := v.vs (ty64 ty) b
    ((v.lastAddr true ad m).lastUse (ty64 ty) b m).store c ty (adU ad) rel (el xs) (v.eas ad off m)) s

/-- A uniform store. -/
def View.storeS (v : View) (c : Ctl) (ty : Ty) (rel : Option Scope) (base : SReg) (off : BitVec 24) (b : SReg) : Res :=
  v.store c ty true rel (fun _ => v.rs b) (v.ea1 base off)

/-- VLD (R141). -/
def execVld (c : Ctl) (ty : Ty) (nc : Bool) (d : VReg) (ad : Addr) (off : BitVec 24) (s : State) :
    Host.Outcome State Fault Refusal := loadV c ty nc false 0 d ad off s

/-- VST (R142). -/
def execVst (c : Ctl) (ty : Ty) (ad : Addr) (off : BitVec 24) (b : VSrc) (s : State) : Host.Outcome State Fault Refusal :=
  storeV c ty none ad off b s

/-- VLDQ (R145). -/
def execVldq (c : Ctl) (ty : Ty) (_sc : Scope) (rmask : Byte) (d : VReg) (ad : Addr) (off : BitVec 24) (s : State) :
    Host.Outcome State Fault Refusal := loadV c ty false true rmask d ad off s

/-- VSTL (R145). -/
def execVstl (c : Ctl) (ty : Ty) (sc : Scope) (ad : Addr) (off : BitVec 24) (b : VSrc) (s : State) :
    Host.Outcome State Fault Refusal := storeV c ty (some sc) ad off b s

/-! ### The scratchpad (R143) -/

/-- The access of a lane to the scratchpad; one that meets poison fails (R34, R137). -/
def View.spAcc (v : View) (write : Bool) (n : Nat) (ls : List (Nat × Nat)) (x : Nat × Nat) : Acc :=
  let z := accOf ⟨x.1, x.2, x.2, 0, 0⟩ n []
  if v.spUe write n ls x then { z with code := fcDataUe, fva := x.2 } else z

/-- The operation of a scratchpad load: each lane's bytes of the window. -/
def View.spLoadOp (v : View) (ty : Ty) (uni : Bool) (d : Dest) (ls : List (Nat × Nat)) (w : WgWin) : MemOp :=
  let n := tyBytes ty
  let accs := ls.map (fun x => { (v.spAcc false n ls x) with val := BitVec.ofNat 64 (v.co.spNum (w.base + x.2) n) })
  { (memOp .load ty d accs) with uni := uni }

/-- A scratchpad load: the values land at once in the landing buffer. -/
def View.spLoad (v : View) (c : Ctl) (ty : Ty) (once uni : Bool) (d : Dest) (ls : List (Nat × Nat)) : Res :=
  let n := tyBytes ty
  match v.spBounds kRead n once uni ls, v.co.winOf v.slot with
  | some f, _ => .fault f
  | none, none => .wait
  | none, some w => v.begin c false (v.spLoadOp ty uni d ls w) (fun _ s => s)

/-- The words of the window that a scratchpad store writes, with the bytes it writes in each. -/
def spClaims (n : Nat) (data : Nat → W64) (ls : List (Nat × Nat)) : List Claim :=
  storeWords n (ls.map (fun x => (⟨x.1, x.2, x.2, 0, 0⟩, data x.1)))

/-- One beat of a scratchpad store: word by word, or dword by dword, in rising offsets, each in one write, the highest lane's byte
remaining (R142, R143, R153). -/
def Core.spBeat (co : Core) (w : WgWin) (n : Nat) (data : Nat → W64) (ls : List (Nat × Nat)) : Core :=
  let up : List Nat → List Nat := sortBy (fun x y => decide (x ≤ y))
  if n = 8 then
    (up ((ls.map (fun x => x.2)).dedup)).foldl (fun (co : Core) o =>
      match (ls.filter (fun x => x.2 == o)).getLast? with
      | some x => co.spStore w o (bytesOf 8 (data x.1).toNat)
      | none => co) co
  else
    let cs := spClaims n data ls
    (up (cs.map (fun k => k.w))).foldl (fun (co : Core) o =>
      match cs.find? (fun k => k.w == o) with
      | some k => co.spStore w (4 * o) (bytesOf 4 (mergeBytes k.dm (BitVec.ofNat 32 (co.spNum (w.base + 4 * o) 4)) k.d).toNat)
      | none => co) co

/-- The scratchpad after a store: beat by beat (R143). -/
def Core.spWrites (co : Core) (w : WgWin) (n : Nat) (data : Nat → W64) (ls : List (Nat × Nat)) : Core :=
  let covered (a : Nat) : Bool := ls.any (fun x => decide (w.base + x.2 ≤ a) && decide (a < w.base + x.2 + n))
  ((List.range 4).foldl (fun (co : Core) b => co.spBeat w n data (ls.filter (fun x => x.1 / 32 == b))) co).spClean covered

/-- A scratchpad store. -/
def View.spStore (v : View) (c : Ctl) (ty : Ty) (once uni : Bool) (data : Nat → W64) (ls : List (Nat × Nat)) : Res :=
  let n := tyBytes ty
  match v.spBounds kWrite n once uni ls, v.co.winOf v.slot with
  | some f, _ => .fault f
  | none, none => .wait
  | none, some w =>
    let ok := ls.filter (fun x => !v.spUe true n ls x)
    v.begin c true { (memOp .store ty .none (ls.map (fun x => v.spAcc true n ls x))) with uni := uni }
      (fun _ s => s.updCore v.ag (fun co => co.spWrites w n data ok))

/-- VLDS (R143). -/
def execVlds (c : Ctl) (ty : Ty) (d : VReg) (ad : Addr) (off : BitVec 24) (s : State) : Host.Outcome State Fault Refusal :=
  issue c ([.dv (ty64 ty) d] ++ useAddr false ad) (fun v m =>
    (v.lastAddr false ad m).spLoad c ty false (adU ad) (v.destV (ty64 ty) d) (v.sos ad off m)) s

/-- VSTS (R143). -/
def execVsts (c : Ctl) (ty : Ty) (ad : Addr) (off : BitVec 24) (b : VSrc) (s : State) : Host.Outcome State Fault Refusal :=
  issue c (useAddr false ad ++ [useV 2 (ty64 ty) b]) (fun v m =>
    let xs := v.vs (ty64 ty) b
    ((v.lastAddr false ad m).lastUse (ty64 ty) b m).spStore c ty false (adU ad) (el xs) (v.sos ad off m)) s

/-- SLDS (R143). -/
def execSlds (c : Ctl) (ty : Ty) (d base : SReg) (off : BitVec 24) (s : State) : Host.Outcome State Fault Refusal :=
  issue c [.ds d, .s 1 base] (fun v _ => v.spLoad c ty true true (.s d) (v.so1 base off)) s

/-- SSTS (R143). -/
def execSsts (c : Ctl) (ty : Ty) (base : SReg) (off : BitVec 24) (b : SReg) (s : State) : Host.Outcome State Fault Refusal :=
  issue c [.s 1 base, .s 2 b] (fun v _ => v.spStore c ty true true (fun _ => v.rs b) (v.so1 base off)) s

/-! ### Atomics (R146, R147, R154) -/

/-- The atomics that the host port can send (R154). -/
def hostAtomic (op : AOp) : Bool := match op with | .add | .xchg | .cas => true | _ => false

/-- The words of the accesses, claimed whole without data. -/
def wholeClaims (n : Nat) (gs : List LaneAddr) (full : Bool) : List Claim :=
  (touches n gs).map (fun t => ⟨t.w, 15, 0, 0, if full then 15 else t.b, t.vpn, t.attr, 0⟩)

/-- The lanes' accesses grouped by address: one ATM for each word or dword, lanes ascending (R147). -/
def groupPa (gs : List LaneAddr) : List (List LaneAddr) :=
  ((gs.map (fun g => g.pa)).dedup).map (fun pa => gs.filter (fun g => g.pa == pa))

/-- A copy of a word is dropped before an atomic on it is sent; a word that the core owns is recalled by its home, with the checks and the
callback of R61, R71 and R73. -/
def State.yieldWord (s : State) (a w : Nat) : State :=
  s.updCore a (fun k => let k := k.cancel w; if (k.raw w).st = .copy then k.setWord w .inv else k)

/-- Reads in flight of the lines keep nothing. -/
def Core.unkeep (c : Core) (ls : List Nat) : Core :=
  { c with reads := c.reads.map (fun (r : RdRec) => if ls.contains r.line then { r with keepIt := false } else r) }

/-- An atomic that nothing makes wait: the core drops its copies of the words, and sends one ATM for each word or dword, or
the operation to the host (R60, R147, R154). -/
def View.atomicGo (v : View) (c : Ctl) (op : AOp) (aq rl : Bool) (ty : Ty) (uni : Bool) (d : Dest)
    (opd cmp : Nat → W64) (good : List LaneAddr) : Res :=
  let n := tyBytes ty
  let a := v.ag
  let hbm := good.filter (fun g => !isHost g.pa)
  let host := good.filter (fun g => isHost g.pa)
  let part (g : LaneAddr) : AtmLane := ⟨g.lane, op, ty, opd g.lane, cmp g.lane⟩
  let accs := hbm.map (fun g => accOf g n (wordsOf g.pa n)) ++ host.map (fun g => accOf g n [])
  let ws := (touches n hbm).map (fun t => t.w)
  let s := (ws.foldl (fun (s : State) w => s.yieldWord a w) v.close).updCore a (fun k => k.unkeep (linesOf ws))
  let check := !v.pk.lazyMode && !aq
  let send (id : Nat) (s : State) (gs : List LaneAddr) : State :=
    let g := gs.headD ⟨0, 0, 0, 0, 0⟩
    s.send a (homeNode (g.pa / 4)) (.atm (wordsOf g.pa n) (gs.map part) (accBytes g.pa n (g.pa / 4)) id check g.attr v.slot)
  (v.reopen s).begin c false { (memOp .atomic ty d accs) with acq := aq, rel := rl, uni := uni, host := host.length }
    (fun id s =>
      let s := (groupPa hbm).foldl (send id) s
      { s with hostq := s.hostq ++ host.map (fun g => ⟨a, v.slot, id, g.lane, g.pa, n, .atomic (part g)⟩) })

/-- How a LAZY .RL atomic registers its words before it is sent (R94): whole, with CB = 1 and no writer record. -/
def syncClaiming : Claiming := ⟨false, true, false, some false, true, false⟩

/-- What an atomic still waits for once its release is over: a word that the core has not registered, or that awaits an answer, and
with `cb` the registration of its words with CB = 1 (R94), which phase 3 has asked for. -/
def View.atomicWait (v : View) (n : Nat) (cb : Bool) (good : List LaneAddr) : Option View :=
  let hbm := good.filter (fun g => !isHost g.pa)
  let ts := touches n hbm
  if cb && v.sp.phase = 2 && !hbm.isEmpty then
    match v.readyClaims syncClaiming (wholeClaims n hbm true) with
    | .wait w => some w
    | .go s _ =>
      let s := (s.claimAll v.ag v.slot syncClaiming (wholeClaims n hbm true)).1
      let w := v.reopen s
      some { w with sp := { w.sp with phase := 3 } }
  else
    let st (t : Touch) : L1St := ((v.close.core v.ag).raw t.w).st
    if ts.any (fun t => st t == L1St.dirty) then
      some (v.reopen (ts.foldl (fun (s : State) t => s.publish v.ag t.w false) v.close))
    else if ts.any (fun t => st t == L1St.pend) then some v
    else none

/-- An atomic, after its lanes' addresses are formed. A LAZY .RL atomic first registers the words that it synchronises on with CB = 1
(R94); since its ATM leaves them UNREG (R58), the recall that it causes at the home runs their callback, which publishes the pending set.
R90's table has no row for it: it is performed when its ATM is accepted (see the assumption log). -/
def View.atomic (v : View) (c : Ctl) (op : AOp) (aq rl : Bool) (ty : Ty) (sc : Scope) (uni : Bool) (d : Dest)
    (opd cmp : Nat → W64) (ls : List (Nat × Nat)) : Res :=
  if v.acqBusy || (aq && v.syncBusy) then .wait
  else
    match v.phase1 ⟨kAtomic, true, tyBytes ty, uni, fun _ => !hostAtomic op⟩ ls with
    | .error r => r
    | .ok (v, good) =>
      match (if rl then v.release sc false else .go v) with
      | .wait => .hold v
      | .hold v => .hold v
      | .go v =>
        match v.atomicWait (tyBytes ty) (rl && v.pk.lazyMode && !v.svc && scopeNo sc != 0) good with
        | some w => .hold w
        | none => v.atomicGo c op aq rl ty uni d opd cmp good

/-- VATOM (R146, R147). -/
def execVatom (c : Ctl) (op : AOp) (aq rl : Bool) (ty : Ty) (sc : Scope) (d : VReg) (ad : Addr) (off : BitVec 24)
    (b cmp : VSrc) (s : State) : Host.Outcome State Fault Refusal :=
  let k := ty64 ty
  let cas := decide (op = AOp.cas)
  issue c ([.dv k d] ++ useAddr true ad ++ [useV 2 k b] ++ (if cas then [useV 3 k cmp] else [])) (fun v m =>
    let xs := v.vs k b
    let ys := if cas then v.vs k cmp else []
    let w := (v.lastAddr true ad m).lastUse k b m
    let w := if cas then w.lastUse k cmp m else w
    w.atomic c op aq rl ty sc (adU ad) (v.destV k d) (el xs) (el ys) (v.eas ad off m)) s

/-! ### Reservations (R148) and registration (R151) -/

/-- How a VLR or a REG claims its words: registered with data, the writer record of a VLR left as it is. -/
def View.wholeClaiming (v : View) (wr : Option Bool) : Claiming := ⟨false, false, !v.pk.lazyMode, wr, true, !v.pk.lazyMode⟩

/-- A VLR that nothing makes wait (R148): its words are claimed, and lanes whose words are held have their reservations at
once. -/
def View.vlrGo (v : View) (c : Ctl) (ty : Ty) (uni : Bool) (d : Dest) (good : List LaneAddr) (s : State) (bad : List Nat) : Res :=
  let n := tyBytes ty
  let (s, need) := s.claimAll v.ag v.slot (v.wholeClaiming none) (wholeClaims n (good.filter (clearOf n bad)) false)
  let k := s.core v.ag
  let accs := (claimAccs s.claimCode n bad need good).map (fun z =>
    if z.code ≠ 0 || !z.need.isEmpty then z
    else
      let y := (wordsOf z.pa n).foldl (fun (y : Acc) w => y.take w (k.raw w).val) { z with need := wordsOf z.pa n }
      { y with need := [] })
  -- a new VLR replaces the lane's reservation; lanes whose words are held have theirs at once
  let lanesIn := good.map (fun g => g.lane)
  let now := accs.filter (fun z => z.code == 0 && z.need.isEmpty)
  let s := s.updCore v.ag (fun k => k.updPack v.slot (fun p =>
    { p with resv := now.foldl (fun r z => ins r z.lane (z.pa * 16 + z.n)) (p.resv.filter (fun e => !lanesIn.contains e.1)) }))
  (v.reopen s).begin c false { (memOp .vlr ty d accs) with uni := uni } (fun _ s => s)

/-- VLR (R148). -/
def View.vlr (v : View) (c : Ctl) (ty : Ty) (uni : Bool) (d : Dest) (ls : List (Nat × Nat)) : Res :=
  let n := tyBytes ty
  if v.acqBusy then .wait
  else
    match v.phase1 ⟨kWrite, true, n, uni, fun _ => true⟩ ls with
    | .error r => r
    | .ok (v, good) =>
      match v.readyClaims (v.wholeClaiming none) (wholeClaims n good false) with
      | .wait v => .hold v
      | .go s bad => v.vlrGo c ty uni d good s bad

/-- VLR (R148). -/
def execVlr (c : Ctl) (ty : Ty) (d : VReg) (ad : Addr) (off : BitVec 24) (s : State) : Host.Outcome State Fault Refusal :=
  issue c ([.dv (ty64 ty) d] ++ useAddr true ad) (fun v m =>
    (v.lastAddr true ad m).vlr c ty (adU ad) (v.destV (ty64 ty) d) (v.eas ad off m)) s

/-- The lane's reservation names the words of the access, and they are still owned here (R148). -/
def Core.reserved (c : Core) (slot : Nat) (g : LaneAddr) (n : Nat) : Bool :=
  match (look c.packs slot).bind (fun p => look p.resv g.lane) with
  | some r =>
    let held := wordsOf (r / 16) (r % 16)
    (wordsOf g.pa n).all (fun w => held.contains w && (c.raw w).st == L1St.own)
  | none => false

/-- The lanes whose conditional store succeeds: the lowest lane on each word (R148). -/
def vscLanes (c : Core) (slot n : Nat) : List LaneAddr → List Nat → List LaneAddr
  | [], _ => []
  | g :: gs, taken =>
    if c.reserved slot g n && !taken.contains (g.pa / 4) then g :: vscLanes c slot n gs (g.pa / 4 :: taken)
    else vscLanes c slot n gs taken

/-- A VSC past its checks (R148): the lanes that hold their reservations store, each word once, and the predicate tells which. A lane below
a failed node of the integrity tree faults (R34). -/
def View.vscGo (v : View) (c : Ctl) (ty : Ty) (uni : Bool) (d : PReg) (data : Nat → W64) (good : List LaneAddr) : Res :=
  let n := tyBytes ty
  let down (g : LaneAddr) : Option Nat := (wordsOf g.pa n).find? (fun w => v.s.underBadNode w)
  let ok := vscLanes v.co v.slot n (good.filter (fun g => (down g).isNone)) []
  let q : Claiming := ⟨false, false, false, some (records v.ag), true, false⟩
  let cs := withCover (storeWords n (ok.map (fun g => (g, data g.lane))))
  let (s, _) := v.close.claimAll v.ag v.slot q cs
  let lanesIn := good.map (fun g => g.lane)
  let s := s.updCore v.ag (fun k => k.updPack v.slot (fun p => { p with resv := p.resv.filter (fun e => !lanesIn.contains e.1) }))
  let accs := good.map (fun g => match down g with
    | some w => { ((accOf g n [w]).fail w fcIntegrity) with need := [] }
    | none => { (accOf g n []) with val := if ok.any (fun h => h.lane == g.lane) then 1 else 0 })
  (v.reopen s).begin c false { (memOp .load .n32 (.p d) accs) with uni := uni } (fun _ s => s)

/-- VSC (R148). -/
def View.vsc (v : View) (c : Ctl) (ty : Ty) (uni : Bool) (d : PReg) (data : Nat → W64) (ls : List (Nat × Nat)) : Res :=
  if v.acqBusy then .wait
  else
    match v.phase1 ⟨kWrite, true, tyBytes ty, uni, fun _ => true⟩ ls with
    | .error r => r
    | .ok (v, good) =>
      if v.atomHolds (good.flatMap (fun g => wordsOf g.pa (tyBytes ty))) then .hold v else v.vscGo c ty uni d data good

/-- VSC (R148). -/
def execVsc (c : Ctl) (ty : Ty) (d : PReg) (ad : Addr) (off : BitVec 24) (b : VSrc) (s : State) :
    Host.Outcome State Fault Refusal :=
  issue c ([.dp d] ++ useAddr true ad ++ [useV 2 (ty64 ty) b]) (fun v m =>
    let xs := v.vs (ty64 ty) b
    ((v.lastAddr true ad m).lastUse (ty64 ty) b m).vsc c ty (adU ad) d (el xs) (v.eas ad off m)) s

/-- A REG that nothing makes wait (R151). -/
def View.regGo (v : View) (c : Ctl) (ty : Ty) (uni : Bool) (good : List LaneAddr) (s : State) (bad : List Nat) : Res :=
  let n := tyBytes ty
  let (s, need) := s.claimAll v.ag v.slot (v.wholeClaiming (some (records v.ag))) (wholeClaims n (good.filter (clearOf n bad)) true)
  (v.reopen s).begin c false { (memOp .reg ty .none (claimAccs s.claimCode n bad need good)) with uni := uni } (fun _ s => s)

/-- REG (R151). -/
def execReg (c : Ctl) (ty : Ty) (ad : Addr) (off : BitVec 24) (s : State) : Host.Outcome State Fault Refusal :=
  issue c (useAddr true ad) (fun v m =>
    let n := tyBytes ty
    if v.acqBusy then .wait
    else
      match (v.lastAddr true ad m).phase1 ⟨kWrite, true, n, (adU ad), fun _ => true⟩ (v.eas ad off m) with
      | .error r => r
      | .ok (v, good) =>
        match v.readyClaims (v.wholeClaiming (some (records v.ag))) (wholeClaims n good true) with
        | .wait v => .hold v
        | .go s bad => v.regGo c ty (adU ad) good s bad) s

/-- DEREG of one word (R151): written back, after its registration where it is DIRTY or PEND, and after that of the pending sets which hang
on it; whether the write-back is still to come. -/
def State.deregWord (s : State) (a w : Nat) : State × Bool :=
  let s := s.updCore a (fun c => c.cancel w)
  let x := (s.core a).raw w
  match x.st with
  | .dirty => (s.publish a w true, true)
  | .own => let t := s.giveWord a w; (t, ((t.core a).raw w).st == .own)
  | .pend => (s.updCore a (fun c => c.setWord w { x with ev := true }), true)
  | _ => (s, false)

/-- A DEREG past its checks (R151). -/
def View.deregGo (v : View) (c : Ctl) (ty : Ty) (uni : Bool) (good : List LaneAddr) : Res :=
  let n := tyBytes ty
  let (s, need) := (touches n good).foldl (fun (r : State × List Nat) t =>
    let (s, ask) := r.1.deregWord v.ag t.w
    (s, if ask then r.2 ++ [t.w] else r.2)) (v.close, [])
  (v.reopen s).begin c false { (memOp .dereg ty .none (claimAccs s.claimCode n [] need good)) with uni := uni } (fun _ s => s)

/-- DEREG (R151). -/
def execDereg (c : Ctl) (ty : Ty) (ad : Addr) (off : BitVec 24) (s : State) : Host.Outcome State Fault Refusal :=
  issue c (useAddr true ad) (fun v m =>
    if v.acqBusy then .wait
    else
      match (v.lastAddr true ad m).phase1 ⟨kRead, false, tyBytes ty, (adU ad), fun _ => true⟩ (v.eas ad off m) with
      | .error r => r
      | .ok (v, good) =>
        let ws := good.flatMap (fun g => wordsOf g.pa (tyBytes ty))
        if v.atomHolds ws || ws.any (fun w => (v.co.raw w).st == L1St.own && (v.co.raw w).pm != 0) then .hold v
        else v.deregGo c ty (adU ad) good) s

/-- A PREF past translation (R152): RDC for each line that the lanes touch and of which the L1 holds no word; a lane on host memory, or with
a word that is registered, asks for nothing. -/
def View.prefGo (v : View) (c : Ctl) (ty : Ty) (good : List LaneAddr) : View :=
  let n := tyBytes ty
  let ts := touches n (good.filter (fun g => !isHost g.pa && (wordsOf g.pa n).all (fun w => v.s.reg w == .unreg)))
  let t := v.s.coreT v.ag
  let miss := if v.pk.lse = 0 then [] else ts.filter (fun q =>
    (lineWords (q.w / 16)).all (fun w => (v.co.word t w).st == L1St.inv))
  let (id, s) := v.close.fresh1
  let s := (linesOf (miss.map (fun q => q.w))).foldl (fun s l =>
    let u := (miss.find? (fun q => q.w / 16 == l)).getD ⟨0, 0, 0, 0⟩
    (s.updCore v.ag (fun k => { k with reads := k.reads ++ [⟨id, l, true, 16, v.pk.tk, v.pk.lse, v.pk.asid, u.vpn⟩] })).send
      v.ag (homeNode (16 * l)) (.rdc l false true [] id false u.attr v.slot)) s
  (v.reopen s).tokenFor c 1

/-- PREF (R152): a lane whose checks fail is dropped. -/
def execPref (c : Ctl) (ty : Ty) (ad : Addr) (off : BitVec 24) (s : State) : Host.Outcome State Fault Refusal :=
  issue c (useAddr true ad) (fun v m =>
    if v.acqBusy then .wait
    else
      let x := (v.lastAddr true ad m).translate kRead false (tyBytes ty) (v.eas ad off m)
      if x.waiting then .hold x.v else .done (x.v.prefGo c ty x.good)) s

/-! ### Ordering and dropping (R149, R150) -/

/-- FENCE (R95). -/
def execFence (c : Ctl) (sc : Scope) (s : State) : Host.Outcome State Fault Refusal :=
  issue c [] (fun v _ =>
    if v.outstanding (fun m => m.kind.reads || m.acq) || v.fetching then .wait
    else if 2 ≤ scopeNo sc && v.pk.preg ≠ 0 then .wait
    else if 3 ≤ scopeNo sc && v.pk.hostw ≠ 0 then .wait
    else .done (v.tokenFor c 1)) s

/-- ACQ (R91, R149). -/
def execAcq (c : Ctl) (_sc : Scope) (rmask : Byte) (s : State) : Host.Outcome State Fault Refusal :=
  issue c [] (fun v _ =>
    if v.syncBusy then .wait
    else
      let s := v.close.updCore v.ag (fun k => k.selfInvalidate v.slot rmask)
      .done ((v.reopen s).tokenFor c 4)) s

/-- REL (R94, R149). -/
def execRel (c : Ctl) (sc : Scope) (s : State) : Host.Outcome State Fault Refusal :=
  issue c [] (fun v _ =>
    match v.release sc true with
    | .wait => .wait
    | .hold v => .hold v
    | .go v => .done (v.tokenFor c 1)) s

/-- The fill address of a line: its page and its place in it (R150). -/
def L1Line.va (x : L1Line) (line : Nat) : Nat := x.vpn * 2 ^ 16 + 64 * line % 2 ^ 16

/-- INVR (R150). -/
def execInvr (c : Ctl) (base : SReg) (off : BitVec 24) (len : SReg) (s : State) : Host.Outcome State Fault Refusal :=
  issue c [.s 1 base, .s 2 len] (fun v _ =>
    let lo := (v.rs base + off.signExtend 64).toNat
    let hi := min (lo + (v.rs len).toNat) (2 ^ 57)
    let co := v.co.dropCopies (fun l x => x.asid != v.pk.asid || (decide (lo ≤ x.va l) && decide (x.va l < hi)))
    .done ({ v with co := co }.tokenFor c 4)) s

/-- INVA (R150): the instruction buffer empties too (R433). -/
def execInva (c : Ctl) (s : State) : Host.Outcome State Fault Refusal :=
  issue c [] (fun v _ =>
    let co : Core := { (v.co.dropCopies (fun _ _ => true)) with ibuf := [] }
    .done ({ v with co := co }.tokenFor c 4)) s

/-! ### WAITA (R153) -/

/-- The split parks at cycle `now`: its window leaves, and it goes on after its instruction when it wakes (R118). -/
def View.park (v : View) (c : Ctl) (w : Wait) : State :=
  let pc := v.sp.pc
  let v := v.flush.finish c pc
  { v with sp := { v.sp with st := .waiting w, after := succPc pc (lenBytes c.len), waited := v.s.time } }.close

/-- The split parks before its instruction has issued, and issues it again when it wakes. -/
def View.parkRetry (v : View) (w : Wait) : State :=
  let v := v.flush
  { v with sp := { v.sp with st := .waiting w, since := v.now, waited := v.s.time } }.close

/-- A uniform result of class V that is ready at once, for the landing buffer. -/
def View.landS (v : View) (c : Ctl) (d : SReg) (x : W64) : Res :=
  v.begin c false (memOp .load .n64 (.s d) [{ (accOf ⟨127, 0, 0, 0, 0⟩ 8 []) with val := x }]) (fun _ s => s)

/-- The time at which a WAITA ends unfulfilled: so many ticks from now, or never (R153). -/
def View.deadline (v : View) (tmo : Option SReg) : Option Nat :=
  match tmo with
  | some r => if v.rs r = 0 then none else some (v.s.coreT v.ag + (v.rs r).toNat % 2 ^ 32 * 2 ^ v.pk.tk)
  | none => none

/-- WAITA (R153). -/
def execWaita (c : Ctl) (ty : Ty) (cond : WCond) (d base : SReg) (off : BitVec 24) (b : SReg) (tmo : Option SReg)
    (s : State) : Host.Outcome State Fault Refusal :=
  issue c ([.ds d, .s 1 base, .s 2 b] ++ (match tmo with | some r => [.s 3 r] | none => [])) (fun v _ =>
    let n := tyBytes ty
    let ls := v.so1 base off
    let so := (ls.headD (0, 0)).2
    match v.spFault kRead n true true ls, v.co.winOf v.slot with
    | some f, _ => .fault f
    | none, none => .wait
    | none, some w =>
      if waitaHolds ty cond (v.co.spNum (w.base + so) n) (v.rs b).toNat then v.landS c d 0
      else
        let dl := v.deadline tmo
        let (v, tok) := v.tokenV c
        .state (v.park c (.waita so ty cond (v.rs b) d dl tok))) s

/-- WAITA_TIMEOUT of a split (R153): status 1 once the deadline has passed. -/
def execWaitaTimeout (n slot i : Nat) (s : State) : Host.Outcome State Fault Refusal :=
  match (look (s.core n).packs slot).bind (fun p => p.split i) with
  | some x =>
    match x.st with
    | .waiting (.waita _ _ _ _ d (some dl) tok) =>
      if dl ≤ s.coreT n then .next (s.updCore n (fun c => c.updPack slot (fun p => p.wakeWaita i c.cycle d tok 1))) else .next s
    | _ => .next s
  | none => .next s

/-! ### The landing buffer (R189) -/

/-- LANDING_BUFFER_WRITE of core `n`: the oldest result is written over its lanes, the flags of an FADD go into FPF with it (R146), and
its token falls (R139). -/
def execLandingBufferWrite (n : Nat) (s : State) : Host.Outcome State Fault Refusal :=
  match (s.core n).landing with
  | [] => .next s
  | x :: rest =>
    .next (s.updCore n (fun c => ({ c with landing := rest } : Core).updPack x.slot (fun p =>
      ((p.orFpf x.flags).deliver (decide (64 ≤ n)) x.split x.seq x.dest x.mask x.lo x.hi x.sval).retireOp x.split x.seq x.tok c.cycle)))

end Sys2Proof.Machine
end

