-- ==== Sys2Proof/Machine/Engine.lean ====
section
/-! DEFINITION. How the hub's engines and ports reach memory: their translation through the hub buffer, and coherent reads,
writes and atomics that are performed within one step (R46, R49, R57-R60, R103). -/

namespace Sys2Proof.Machine

/-- For whom an engine works: its agent number, the partition, the address space, the kind of its accesses, and whether
owners check its bytes (R46, R73). -/
structure Eng where
  agent : Nat
  part : Option Nat
  asid : Nat
  root : W64
  kind : Nat
  check : Bool
  deriving DecidableEq, Repr

/-- What an engine's access comes to: done, a fault, or a wait for words that others hold. -/
inductive EngRes (α : Type)
  | ok (x : α) (s : State)
  | fault (va : Nat) (f : Flaw)
  | busy (s : State)

/-- Go on after an access that is done. -/
def EngRes.andThen {α β : Type} (r : EngRes α) (f : α → State → EngRes β) : EngRes β :=
  match r with
  | .ok x s => f x s
  | .fault va g => .fault va g
  | .busy s => .busy s

/-- Walk a table from an entry down (R41, R42). A fault of the walker's own read is told from one of the access by 4 in its level, of
which FINFO holds two bits (R43). -/
def State.walkFrom (p : Option Nat) (r : Reader) (va : Nat) : Nat → Nat → Nat → State → EngRes (W64 × Nat)
  | 0, _, level, _ => .fault va ⟨fcPageFault, 2, level⟩
  | fuel + 1, table, level, s =>
    match s.readBytes r (entryAddr table level va) 8 with
    | .busy s => .busy s
    | .fault c => .fault va ⟨c, 0, level + 4⟩
    | .ok (bs, s) =>
      let e : W64 := BitVec.ofNat 64 (ofBytes bs)
      match s.judge p e level with
      | .flaw f => .fault va f
      | .next t => State.walkFrom p r va fuel t (level - 1) s
      | .leaf => .ok (e, level) s

/-- The walk of an engine's page. -/
def State.engWalk (s : State) (q : Eng) (va : Nat) : EngRes (TlbEntry) :=
  (State.walkFrom q.part ⟨q.agent, q.check⟩ va 4 (fld q.root 14 34 * 2 ^ 14) 3 s).andThen (fun x s =>
    .ok ⟨q.asid, x.2, (va % 2 ^ 57) / 2 ^ levelShift x.2, x.1⟩ s)

/-- The leaf of an engine's page: from the hub buffer, or by a walk that fills it; a service core uses its cluster's buffers (R49). -/
def State.engLeaf (s : State) (q : Eng) (va : Nat) (write : Bool) : EngRes (W64 × Nat) :=
  if !canonical va then .fault va ⟨fcPageFault, 1, 3⟩
  else
    match s.rootFlaw q.part q.root with
    | some f => .fault va f
    | none =>
      if 64 ≤ q.agent && q.agent < 96 then
        match s.lookupTlb q.agent q.asid va write with
        | (some e, s) => .ok (e.1.leaf, e.1.level) s
        | (none, s) =>
          (s.engWalk q va).andThen (fun te s =>
            let cl := clusterOf q.agent
            let s := { s with ctb := set [] s.ctb cl (tlbPutSet 256 te (get [] s.ctb cl)) }
            .ok (te.leaf, te.level) (s.updCore q.agent (fun c => { c with utlb := tlbPut (utlbSize q.agent) te c.utlb })))
      else
      let kept := s.hubtb.filter (fun e => !e.hits q.asid va || e.serves write)
      match kept.find? (fun e => e.hits q.asid va) with
      | some e => .ok (e.leaf, e.level) { s with hubtb := tlbPutSet 128 e kept }
      | none =>
        (({ s with hubtb := kept } : State).engWalk q va).andThen (fun te s =>
          .ok (te.leaf, te.level) { s with hubtb := tlbPutSet 128 te s.hubtb })

/-- Translate one address of an engine (R42, R46): its physical address and attribute. -/
def State.engXlate (s : State) (q : Eng) (va : Nat) (write : Bool) : EngRes (Nat × Nat) :=
  (s.engLeaf q va write).andThen (fun x s =>
    let who : Who := ⟨q.part, decide (64 ≤ q.agent) && decide (q.agent < 96), q.kind, write⟩
    match leafFlaw who x.1 x.2 with
    | some f => .fault va f
    | none =>
      let pa := leafPa x.1 x.2 va
      match s.paFlaw who x.1 x.2 pa with
      | some f => .fault va f
      | none => .ok (pa, if isHost pa then 0 else leafAttr x.1) s)

/-- The pieces of a range that lie in one 64 KiB page each; `fuel` bounds their number. -/
def pieces : Nat → Nat → Nat → List (Nat × Nat)
  | 0, _, _ => []
  | fuel + 1, va, n =>
    if n = 0 then []
    else
      let k := min n (2 ^ 16 - va % 2 ^ 16)
      (va, k) :: pieces fuel (va + k) (n - k)

/-- The pieces of `n` bytes from `va`. -/
def piecesOf (va n : Nat) : List (Nat × Nat) := pieces (n / 2 ^ 16 + 2) va n

/-- Read `n` bytes within one page. -/
def State.engRead1 (s : State) (q : Eng) (va n : Nat) : EngRes (List Byte) :=
  (s.engXlate q va false).andThen (fun x s =>
    if isHost x.1 then .ok ((List.range n).map (fun i => s.byte (x.1 + i))) s
    else
      match (s.bindFrame x.1 x.2).readBytes ⟨q.agent, q.check⟩ x.1 n with
      | .ok (bs, s) => .ok bs s
      | .fault c => .fault va ⟨c, 0, 0⟩
      | .busy t => .busy { t with frames := s.frames })

/-- Write bytes within one page. -/
def State.engWrite1 (s : State) (q : Eng) (va : Nat) (bs : List Byte) : EngRes Unit :=
  (s.engXlate q va true).andThen (fun x s =>
    if isHost x.1 then .ok () (s.setBytes x.1 bs)
    else
      match (s.bindFrame x.1 x.2).writeBytes ⟨q.agent, q.check⟩ x.1 bs with
      | .ok s => .ok () s
      | .fault c => .fault va ⟨c, 0, 0⟩
      | .busy t => .busy { t with frames := s.frames })

/-- Read `n` bytes from a VA, by RDN at the homes or from host memory (R57, R103). -/
def State.engRead (s : State) (q : Eng) (va n : Nat) : EngRes (List Byte) :=
  (piecesOf va n).foldl (fun r p =>
    r.andThen (fun bs s => (s.engRead1 q p.1 p.2).andThen (fun more s => .ok (bs ++ more) s))) (.ok [] s)

/-- Write bytes at a VA, by EWR or to host memory (R60, R103). -/
def State.engWrite (s : State) (q : Eng) (va : Nat) (bs : List Byte) : EngRes Unit :=
  (piecesOf va bs.length).foldl (fun r p =>
    r.andThen (fun _ s => s.engWrite1 q p.1 ((bs.drop (p.1 - va)).take p.2))) (.ok () s)

/-- Read a number. -/
def State.engNum (s : State) (q : Eng) (va n : Nat) : EngRes Nat :=
  (s.engRead q va n).andThen (fun bs s => .ok (ofBytes bs) s)

/-- One atomic step on a dword at a VA (R326): the old value. A word that is owned is brought home first, as ATM does. -/
def State.engAtom (s : State) (q : Eng) (va : Nat) (f : W64 → W64) : EngRes W64 :=
  (s.engXlate q va true).andThen (fun x s =>
    let r : Reader := ⟨q.agent, q.check⟩
    let done (old : Nat) (s : State) : EngRes W64 :=
      let o : W64 := BitVec.ofNat 64 old
      .ok o (s.setBytes x.1 (bytesOf 8 (f o).toNat))
    if isHost x.1 then done (s.bytes x.1 8) s
    else
      let w := x.1 / 4
      match [w, w + 1].find? (fun w => !s.ready w) with
      | some w => if s.raceNow r w 15 then .fault va ⟨fcRace, 0, 0⟩ else .busy (s.drainWord r w 15)
      | none =>
        match (s.bindFrame x.1 x.2).readBytes r x.1 8 with
        | .ok (bs, s) => done (ofBytes bs) ((((s.staleAll (w / 16)).bringHome w).bringHome (w + 1)).countEnci w)
        | .fault c => .fault va ⟨c, 0, 0⟩
        | .busy t => .busy { t with frames := s.frames })

/-- A read by physical address for a partition, checked as a translation's is (R18). -/
def State.readAt (s : State) (p : Nat) (r : Reader) (pa n : Nat) : Sync (List Byte × State) :=
  if s.reachable (some p) pa then s.readBytes r pa n else .fault fcProtection

/-- A write by physical address for a partition (R18). -/
def State.writeAt (s : State) (p : Nat) (r : Reader) (pa : Nat) (bs : List Byte) : Sync State :=
  if s.reachable (some p) pa then s.writeBytes r pa bs else .fault fcProtection

/-- Tell the service core of a cluster of an engine's page fault (R46); the work waits. -/
def State.engPageFault (s : State) (cluster kind id : Nat) (q : Eng) (va : Nat) (f : Flaw) : State :=
  { s with engfaults := s.engfaults ++ [⟨cluster, kind, id, q.asid, q.root, va, f.reason, f.level⟩] }

/-- The KIND of an engine's fault (R43). -/
def engKind (f : Flaw) (kind : Nat) : Nat := if 4 ≤ f.level then kWalker else kind

/-- A cluster's lowest-numbered partition member: the cluster that serves an engine whose work no cluster issued. -/
def State.clusterFor (s : State) (p : Option Nat) : Nat :=
  match p with
  | none => 0
  | some p => (findBelow 32 (fun n => bit (s.part p 0x08) n)).getD 0

end Sys2Proof.Machine
end

