-- ==== Sys2Proof/Machine/Exchange.lean ====
section
/-! DEFINITION. Transfers, message queues and barrier objects: the eight instructions, the transfer engines, the message
units and the hub between workgroups (R99-R100, R160-R178). -/

namespace Sys2Proof.Machine

/-! ### Names and windows (R160, R168) -/

/-- The window of a workgroup, wherever it is resident: the core and the window. -/
def State.findWin (s : State) (launch wg : Nat) : Option (Nat × WgWin) :=
  (List.range 64).findSome? (fun n =>
    ((s.core n).wins.find? (fun w => w.launch == launch && w.wg == wg)).map (fun w => (n, w)))

/-- The members of a filled set (R280). -/
def SetEnt.member (e : SetEnt) (m : Nat) : Option Nat :=
  if e.count ≤ m then none
  else match e.list with
    | some l => l[m]?
    | none => some (e.first + m * e.stride)

/-- The index of a workgroup in a set. -/
def SetEnt.indexOf (e : SetEnt) (wg : Nat) : Option Nat :=
  match e.list with
  | some l => l.findIdx? (fun x => x == wg)
  | none =>
    if e.stride = 0 then (if wg = e.first ∧ e.count ≠ 0 then some 0 else none)
    else if e.first ≤ wg && (wg - e.first) % e.stride == 0 && decide ((wg - e.first) / e.stride < e.count) then
      some ((wg - e.first) / e.stride)
    else none

/-- An entry of a launch's set table, if it is filled. -/
def Launch.set (l : Launch) (i : Nat) : Option SetEnt := (l.sets[i]?).bind id

/-- The size of a workgroup's window (R158). -/
def Launch.winSize (l : Launch) : Nat := alignUp l.scratch 4096

/-- Resolve a remote name for a workgroup of a launch (R160): the target workgroup and the offset, for an object of `n`
bytes. -/
def State.resolve (s : State) (launch wg : Nat) (name : W64) (n : Nat) : Option (Nat × Nat) :=
  match look s.launches launch with
  | none => none
  | some l =>
    match l.set (fld name 20 8) with
    | none => none
    | some e =>
      match e.member (fld name 28 20), e.indexOf wg with
      | some t, some _ => if (spFlaw l.winSize (fld name 0 20) n).isNone then some (t, fld name 0 20) else none
      | _, _ => none

/-- The sender's name that a receiver sees (R177): the set through which it named the queue, its own member index in that
set, its pack index. -/
def State.senderName (s : State) (launch wg idx set : Nat) : W32 :=
  let mem := ((look s.launches launch).bind (fun l => (l.set set).bind (fun e => e.indexOf wg))).getD 0
  BitVec.ofNat 32 (set % 256 + (mem % 2 ^ 20) * 2 ^ 8 + (idx % 16) * 2 ^ 28)

/-- A check of an instruction's scratchpad operand (R158): its offset and window, or the fault. -/
def View.operand (v : View) (off align n kind : Nat) : Except FaultRec (WgWin) :=
  let bad (r : Nat) : Except FaultRec WgWin := .error (v.faultRec fcScratchBounds (BitVec.ofNat 64 off) r 0 kind 127 0)
  if off % align ≠ 0 then bad 11
  else match v.co.winOf v.slot with
    | some w =>
      if w.size < off + n then bad 12
      else if v.co.spPoison (w.base + off) n false then .error (v.faultRec fcDataUe (BitVec.ofNat 64 off) 0 0 kind 127 0)
      else .ok w
    | none => bad 12

/-- A register taken as a scratchpad offset (R161). -/
def View.soReg (v : View) (r : SReg) : Nat := (v.rs r).toNat % 2 ^ 32

/-! ### Barrier instructions (R171-R173) -/

/-- Change the core with the view's split and pack put back into it; splits that the change wakes are seen. -/
def View.onCore (v : View) (f : Core → Core) : View :=
  let co := f { v.co with packs := ins v.co.packs v.slot (v.pk.setSplit v.ix (some v.sp)) }
  match look co.packs v.slot with
  | some p => { v with co := co, pk := p, sp := (p.split v.ix).getD v.sp }
  | none => { v with co := co }

/-- Put a changed window object in place and go on: the result, if any, lands through the landing buffer. -/
def View.objDone (v : View) (c : Ctl) (f : Core → Core) (d : SReg) (x : W64) : Res := (v.onCore f).landS c d x

/-- BARINIT (R171). -/
def execBarinit (c : Ctl) (a b : SReg) (s : State) : Host.Outcome State Fault Refusal :=
  issue c [.s 1 a, .s 2 b] (fun v _ =>
    let off := v.soReg a
    match v.operand off 16 16 kWrite with
    | .error f => .fault f
    | .ok w =>
      let e := (v.rs b).toNat % 2 ^ 32
      let o := v.co.bar w off
      v.objDone c (fun co => co.setBar w off ⟨0, 0, if e = 0 then 1 else e, o.res, false⟩) 63 0) s

/-- BARARR, local and remote (R172). -/
def execBararr (c : Ctl) (rm : Bool) (d a b : SReg) (s : State) : Host.Outcome State Fault Refusal :=
  issue c [.ds d, .s 1 a, .s 2 b] (fun v _ =>
    let n := (v.rs b).toNat % 2 ^ 32
    if rm then
      match v.s.resolve v.pk.launch v.pk.wg (v.rs a) 16 with
      | none => .fault (v.faultRec fcScratchBounds (BitVec.ofNat 64 (fld (v.rs a) 0 20)) 14 0 kWrite 127 0)
      | some (wg, off) =>
        let pc := v.sp.pc
        let seq := v.sp.seq
        let (w, tok) := v.leave c (.s d) true
        let r : Remote := ⟨.arrive n, v.ag, v.slot, v.ix, pc, seq, tok, d, v.pk.launch, v.pk.wg, v.pk.idx, 8, wg, off, 0, none, false⟩
        let s := (w.finish c (w.succ c)).close
        .state { s with remotes := s.remotes ++ [r] }
    else
      let off := v.soReg a
      match v.operand off 16 16 kWrite with
      | .error f => .fault f
      | .ok w =>
        let (o, x) := (v.co.bar w off).arrive n
        v.objDone c (fun co => co.setBar w off o) d x) s

/-- BARWAIT (R173): a step of R170 on the object, which the splits that are parked there see too. -/
def execBarwait (c : Ctl) (a b : SReg) (s : State) : Host.Outcome State Fault Refusal :=
  issue c [.s 1 a, .s 2 b] (fun v _ =>
    let off := v.soReg a
    let ph := bit (v.rs b) 0
    match v.operand off 16 16 kRead with
    | .error f => .fault f
    | .ok w =>
      let now := (v.co.bar w off).ph
      let v := v.onCore (fun co => co.wakeBar w off now)
      if now != ph then .done (v.tokenFor c 1)
      else
        let (v, tok) := v.tokenV c
        .state (v.park c (.barwait off ph tok))) s

/-- BARTRY (R173), a step of R170 as BARWAIT is. -/
def execBartry (c : Ctl) (d a b : SReg) (s : State) : Host.Outcome State Fault Refusal :=
  issue c [.ds d, .s 1 a, .s 2 b] (fun v _ =>
    let off := v.soReg a
    match v.operand off 16 16 kRead with
    | .error f => .fault f
    | .ok w =>
      let now := (v.co.bar w off).ph
      v.objDone c (fun co => co.wakeBar w off now) d (BitVec.ofNat 64 (b2n (now != bit (v.rs b) 0)))) s

/-! ### Queue descriptors (R174, R178) -/

/-- A queue descriptor. `bad` says that VALID is 0 or a reserved field is not 0. -/
structure QDesc where
  ring : Nat
  depth : Nat
  esz : Nat
  bad : Bool
  head : Nat
  tail : Nat
  count : Nat
  out : Nat
  appended : Nat
  deriving DecidableEq, Repr

/-- Read the descriptor at an offset. -/
def Core.qdesc (c : Core) (w : WgWin) (off : Nat) : QDesc :=
  let f (o n : Nat) : Nat := c.spNum (w.base + off + o) n
  ⟨f 0 4, f 4 2, f 6 1 % 16, f 7 1 != 1 || f 6 1 / 16 != 0 || f 24 8 != 0, f 8 2, f 10 2, f 12 4, f 16 4, f 20 4⟩

/-- The size of an entry. -/
def eszBytes (e : Nat) : Nat := 16 * (e + 1)

/-- The checks that every queue step makes, in the order of their reasons (R178): `esz` is the sender's entry size code. -/
def QDesc.flaw (d : QDesc) (size : Nat) (esz : Option Nat) : Option Nat :=
  if d.bad then some 0
  else if d.depth = 0 || 4096 < d.depth then some 1
  else if (match esz with | some e => e != d.esz | none => false) then some 2
  else if d.ring % eszBytes d.esz ≠ 0 || size < d.ring + d.depth * eszBytes d.esz then some 3
  else if d.depth ≤ d.head || d.depth ≤ d.tail || d.depth < d.out + d.count then some 4
  else none

/-- Write the hardware fields of a descriptor back. -/
def Core.setQdesc (c : Core) (w : WgWin) (off : Nat) (d : QDesc) : Core :=
  c.spStore w (off + 8) (bytesOf 2 d.head ++ bytesOf 2 d.tail ++ bytesOf 4 d.count ++ bytesOf 4 d.out ++ bytesOf 4 (d.appended % 2 ^ 32))

/-- A refused queue step (R178). -/
def View.queueFault (v : View) (off reason : Nat) : Res :=
  .fault (v.faultRec fcMsgDesc (BitVec.ofNat 64 off) reason 0 0 127 0)

/-- The name of the oldest unreceived entry at an index, forgotten as it is taken; an entry that no append wrote has no
stated name (a free value). -/
def State.takeSender (s : State) (launch wg off idx : Nat) : W32 × State :=
  let p (x : Sender) : Bool := x.launch == launch && x.wg == wg && x.off == off && x.idx == idx
  match s.senders.find? p with
  | some x => (x.name, { s with senders := s.senders.filter (fun y => !p y) })
  | none => let (v, s) := s.draw; (v.setWidth 32, s)

/-- Receive the head entry of a descriptor that holds one (R177): the value for DST, the descriptor after it. -/
def QDesc.take (d : QDesc) (name : W32) : W64 × QDesc :=
  (BitVec.ofNat 64 ((d.ring + d.head * eszBytes d.esz) % 2 ^ 32 + name.toNat * 2 ^ 32),
    { d with head := (d.head + 1) % d.depth, count := d.count - 1 })

/-- MSGRECV (R177). -/
def execMsgrecv (c : Ctl) (nb : Bool) (d a : SReg) (s : State) : Host.Outcome State Fault Refusal :=
  issue c [.ds d, .s 1 a] (fun v _ =>
    let off := v.soReg a
    match v.operand off 32 32 kWrite with
    | .error f => .fault f
    | .ok w =>
      let q := v.co.qdesc w off
      match q.flaw w.size none with
      | some r => v.queueFault off r
      | none =>
        if q.count = 0 then
          if nb then v.landS c d (BitVec.allOnes 64)
          else
            let k := v.s.next
            let (v, tok) := { v with s := { v.s with next := k + 1 } }.tokenV c
            .state (v.park c (.msgrecv off d tok k))
        else
          let (name, s) := v.s.takeSender w.launch w.wg off q.head
          let (x, q) := q.take name
          { v with s := s }.objDone c (fun co => co.setQdesc w off q) d x) s

/-- MSGFREE (R178). -/
def execMsgfree (c : Ctl) (a b : SReg) (s : State) : Host.Outcome State Fault Refusal :=
  issue c [.s 1 a, .s 2 b] (fun v _ =>
    let off := v.soReg a
    match v.operand off 32 32 kWrite with
    | .error f => .fault f
    | .ok w =>
      let q := v.co.qdesc w off
      let n := (v.rs b).toNat % 2 ^ 32
      let name := fld (v.rs b) 32 32
      match q.flaw w.size none with
      | some r => v.queueFault off r
      | none =>
        if n = 0 || q.depth < q.out + q.count + n then v.queueFault off 5
        else
          let who := ((look v.s.launches v.pk.launch).bind (fun l => (l.set (name % 256)).bind (fun e =>
            if (e.indexOf v.pk.wg).isSome then e.member (name / 2 ^ 8 % 2 ^ 20) else none)))
          let cs : List Credit := match who with
            | some t => [⟨v.pk.launch, t, name / 2 ^ 28, v.pk.wg, off, n⟩]
            | none => []
          let v := { v with s := { v.s with credits := v.s.credits ++ cs } }
          v.objDone c (fun co => co.setQdesc w off { q with out := q.out + n }) 63 0) s

/-! ### MSGSEND and appends (R175, R176) -/

/-- MQCHn and CREDITn (R175). -/
def Pack.mqch (p : Pack) (n : Nat) : W64 := p.special (sprMqch + n)
def Pack.credit (p : Pack) (n : Nat) : Nat := fld (p.special (sprCredit + n)) 0 16
def Pack.setCredit (p : Pack) (n x : Nat) : Pack := p.setSpecial (sprCredit + n) (BitVec.ofNat 64 (x % 2 ^ 16))

/-- A transfer of the pack that still appends to a channel (R176). -/
def State.s2rBusy (s : State) (agent slot ch : Nat) : Bool :=
  s.xfers.any (fun x => x.agent == agent && x.slot == slot && x.r.dir == 2 && x.r.chan == ch)

/-- An entry leaves on channel `n` for the queue at offset `doff` of a workgroup (R176): a credit less, and a message under way. -/
def View.sendEntry (v : View) (c : Ctl) (n : Nat) (entry : List Byte) (wg doff : Nat) : State :=
  let m := v.pk.mqch n
  let name := v.s.senderName v.pk.launch v.pk.wg v.pk.idx (fld m 20 8)
  let pc := v.sp.pc
  let seq := v.sp.seq
  let (x, tok) := { v with pk := v.pk.setCredit n (v.pk.credit n - 1) }.leave c .none true
  let r : Remote := ⟨.append entry (fld m 48 4), v.ag, v.slot, v.ix, pc, seq, tok, 63, v.pk.launch, v.pk.wg, v.pk.idx, n, wg, doff,
    name, none, false⟩
  let s := (x.finish c (x.succ c)).close
  { s with remotes := s.remotes ++ [r] }

/-- MSGSEND (R176). -/
def execMsgsend (c : Ctl) (ch : BitVec 3) (a : SReg) (s : State) : Host.Outcome State Fault Refusal :=
  issue c [.s 1 a] (fun v _ =>
    let n := ch.toNat
    let m := v.pk.mqch n
    let esz := fld m 48 4
    let off := v.soReg a
    match v.operand off 16 (eszBytes esz) kRead with
    | .error f => .fault f
    | .ok w =>
      if !bit m 63 then v.queueFault (fld m 0 20) 6
      else
        match v.s.resolve v.pk.launch v.pk.wg m 32 with
        | none => v.queueFault (fld m 0 20) 7
        | some (wg, doff) =>
          if v.pk.credit n = 0 || v.s.s2rBusy v.ag v.slot n then .state (v.parkRetry (.msgsend n))
          else
            .state (v.sendEntry c n (v.co.spRead (w.base + off) (eszBytes esz)) wg doff)) s

/-- The parked receivers of a queue, oldest first. -/
def Core.receivers (c : Core) (w : WgWin) (off : Nat) : List (Nat × Nat × Nat × SReg × Option Nat) :=
  let all := w.slots.flatMap (fun slot => (List.range 4).filterMap (fun i =>
    match (look c.packs slot).bind (fun p => p.split i) with
    | some x => match x.st with
      | .waiting (.msgrecv o d tok k) => if o = off then some (k, slot, i, d, tok) else none
      | _ => none
    | none => none))
  sortBy (fun x y => decide (x.1 ≤ y.1)) all

/-- The oldest parked receiver takes the head entry (R177). -/
def State.wakeReceiver (s : State) (n : Nat) (w : WgWin) (off : Nat) : State :=
  let c := s.core n
  match c.receivers w off with
  | [] => s
  | (_, slot, i, d, tok) :: _ =>
    let q := c.qdesc w off
    if (q.flaw w.size none).isSome || q.count = 0 then s
    else
      let (name, s) := s.takeSender w.launch w.wg off q.head
      let (x, q) := q.take name
      s.updCore n (fun c => ((c.setQdesc w off q).updPack slot (fun p => ((p.wake i c.cycle).status i d x).tokDown i tok)))

/-- Splits of a pack that wait for credits resume once they suffice (R176). -/
def State.wakeCredit (s : State) (n slot : Nat) : State :=
  match look (s.core n).packs slot with
  | none => s
  | some p =>
    let go (i : Nat) : Bool := match p.split i with
      | some x => match x.st with
        | .waiting (.msgsend ch) => decide (1 ≤ p.credit ch) && !s.s2rBusy n slot ch
        | .waiting (.xfer ch k) => decide (k ≤ p.credit ch)
        | _ => false
      | none => false
    s.updCore n (fun c => c.updPack slot (fun p => (List.range 4).foldl (fun p i => if go i then p.retry i c.cycle else p) p))

/-- What an append comes to at its target (R34, R176, R178): the refusal's code and reason, or the state after it. -/
def State.appendAt (s : State) (n : Nat) (w : WgWin) (r : Remote) (entry : List Byte) (esz : Nat) : Except (Nat × Nat) State :=
  let q := (s.core n).qdesc w r.off
  if (s.core n).spPoison (w.base + r.off) 32 false then .error (fcDataUe, 0)
  else
  match q.flaw w.size (some esz) with
  | some x => .error (fcMsgDesc, x)
  | none =>
    if q.out = 0 then .error (fcMsgDesc, 5)
    else
      let d : QDesc := { q with tail := (q.tail + 1) % q.depth, count := q.count + 1, out := q.out - 1, appended := q.appended + 1 }
      let s := s.updCore n (fun c => (c.spStore w (q.ring + q.tail * eszBytes q.esz) entry).setQdesc w r.off d)
      let kept : List Sender := s.senders.filter (fun (x : Sender) =>
        !(x.launch == w.launch && x.wg == w.wg && x.off == r.off && x.idx == q.tail))
      let one : Sender := ⟨w.launch, w.wg, r.off, q.tail, r.name⟩
      let s : State := { s with senders := kept ++ [one] }
      .ok (s.wakeReceiver n w r.off)

/-- A pack latches the failure of a transfer it issued (R167, R350). -/
def Pack.latchXfer (p : Pack) (code : Nat) : Pack :=
  let e := p.special sprCtxerr
  let e := putFld e 8 8 code
  p.setSpecial sprCtxerr (if fld e 0 8 = 0 then putFld e 0 8 code else e)

/-- A split waits in one of the waits that end its pack once its launch has failed (R290). -/
def Split.parkedForEnd (x : Split) : Bool :=
  match x.st with
  | .waiting (.svc _ _ _) => false
  | .waiting _ => true
  | _ => false

/-- A pack of a failed launch is ended: one of its splits is parked, or waits for a remote arrival, or for an append that the hub holds
(R168, R290). -/
def State.parkedPack (s : State) (n slot : Nat) (p : Pack) : Bool :=
  p.splits.any (fun x => match x with | some y => y.parkedForEnd | none => false) ||
  s.remotes.any (fun (r : Remote) => r.agent == n && r.slot == slot && (match r.kind with | .append _ _ => r.held && r.xfer.isNone | _ => true))

/-- End every parked pack of a launch (R290). -/
def State.endParked (s : State) (l : Nat) : State :=
  (List.range 64).foldl (fun (s : State) n =>
    let hit (e : Nat × Pack) : Bool := e.2.launch == l && s.parkedPack n e.1 e.2
    if (s.core n).packs.any hit then
      s.updCore n (fun c => { c with packs := c.packs.map (fun (e : Nat × Pack) => if hit e then (e.1, { e.2 with ended := true }) else e) })
    else s) s

/-- A launch fails with a code, unless it already has, and its parked packs are ended (R290). -/
def State.launchError (s : State) (l code : Nat) : State :=
  match look s.launches l with
  | some x =>
    if x.err.isSome then s else ({ s with launches := ins s.launches l { x with err := some code } } : State).endParked l
  | none => s

/-- The slot of a pack of a workgroup on its core. -/
def Core.slotOf (c : Core) (launch wg idx : Nat) : Option Nat :=
  (List.range 24).find? (fun k => match look c.packs k with
    | some p => p.launch == launch && p.wg == wg && p.idx == idx
    | none => false)

/-- A transfer ends with a code (R167): no chunk follows, its pack latches the code, and its launch fails. -/
def State.xferFail (s : State) (x : Xfer) (code : Nat) : State :=
  let s := { s with
    xfers := s.xfers.filter (fun y => y.id != x.id)
    remotes := s.remotes.filter (fun r => match r.xfer with | some (i, _) => i != x.id | none => true) }
  let s := match s.findWin x.launch x.wg with
    | some (n, _) => match (s.core n).slotOf x.launch x.wg x.idx with
      | some k => (s.updCore n (fun c => c.updPack k (fun p => p.latchXfer code))).wakeCredit n k
      | none => s
    | none => s
  s.launchError x.launch code

/-- Change one transfer. -/
def State.updXfer (s : State) (id : Nat) (f : Xfer → Xfer) : State :=
  { s with xfers := s.xfers.map (fun y => if y.id == id then f y else y) }

/-- A chunk's writes are all performed. -/
def State.chunkReady (s : State) (id k : Nat) : State :=
  s.updXfer id (fun x => { x with live := x.live.map (fun e => if e.1 == k then (k, true) else e) })

/-- A message between workgroups is refused: its instruction completes with a fault at its issuer (R178). -/
def State.remoteFault (s : State) (r : Remote) (code reason : Nat) : State :=
  let s := s.updCore r.agent (fun c => c.updPack r.slot (fun p => p.retireOp r.split r.seq r.tok c.cycle))
  let asid := match look (s.core r.agent).packs r.slot with | some p => p.asid | none => 0
  s.lateFault r.agent r.slot r.split ⟨code, r.pc, BitVec.ofNat 64 r.off, finfo reason 0 0 127 asid, 0⟩ none

/-- An append is performed or refused at its target; `i` is its place among the messages under way. -/
def State.performAppend (s : State) (i : Nat) (r : Remote) (entry : List Byte) (esz : Nat) : State :=
  match s.findWin r.launch r.wg with
  | none => { s with remotes := s.remotes.set i { r with held := true } }
  | some (n, w) =>
    let t := { s with remotes := s.remotes.eraseIdx i }
    match t.appendAt n w r entry esz, r.xfer with
    | .ok t, none => t.updCore r.agent (fun c => c.updPack r.slot (fun p => p.retireOp r.split r.seq r.tok c.cycle))
    | .ok t, some (id, k) => t.chunkReady id k
    | .error (code, reason), none =>
      (t.updCore r.agent (fun c => c.updPack r.slot (fun p => p.setCredit r.chan (p.credit r.chan + 1)))).remoteFault r code reason
    | .error (code, _), some (id, _) =>
      match t.xfers.find? (fun x => x.id == id) with
      | some x => t.xferFail x code
      | none => t

/-- Two messages were sent on one channel of one pack. -/
def Remote.sameChannel (r q : Remote) : Bool :=
  r.launch == q.launch && r.from_ == q.from_ && r.idx == q.idx && r.chan == q.chan

/-- The chunks of a transfer (R166). -/
def Xfer.chunks (x : Xfer) : Nat :=
  if x.r.dir = 2 then x.r.rowlen / eszBytes (fld x.name 48 4) else x.r.rows * ((x.r.rowlen + 4095) / 4096)

/-- Every entry of an S2R transfer has been appended (R166). -/
def Xfer.appended (x : Xfer) : Bool := decide (x.chunks ≤ x.next) && x.live.all (fun e => e.2)

/-- The message is the next of its channel in the issue order of the MSGSEND and S2R transfers (R176). The entries of one transfer are
sent in ascending order, and a later transfer's wait for them. -/
def State.channelTurn (s : State) (i : Nat) (r : Remote) : Bool :=
  match r.xfer with
  | none => (s.remotes.take i).all (fun q => !r.sameChannel q)
  | some (id, _) =>
    (s.remotes.take i).all (fun q => !r.sameChannel q || (match q.xfer with | some (j, _) => decide (id < j) | none => false)) &&
    s.xfers.all (fun (x : Xfer) => decide (id ≤ x.id) || x.r.dir != 2 || x.r.chan != r.chan ||
      !(x.launch == r.launch && x.wg == r.from_ && x.idx == r.idx) || x.appended)

/-- Deliver message `i`, if it is of the kind given and the first of its channel: an append, or an arrival (R172). -/
def State.deliverRemote (s : State) (i : Nat) (append : Bool) : State :=
  match s.remotes[i]? with
  | none => s
  | some r =>
    match r.kind with
    | .append e esz => if append && s.channelTurn i r then s.performAppend i r e esz else s
    | .arrive n =>
      if append then s
      else
        match s.findWin r.launch r.wg with
        | none => { s with remotes := s.remotes.set i { r with held := true } }
        | some (k, w) =>
          if (s.core k).spPoison (w.base + r.off) 16 false then ({ s with remotes := s.remotes.eraseIdx i } : State).remoteFault r fcDataUe 0
          else
          let (o, x) := ((s.core k).bar w r.off).arrive n
          { (s.updCore k (fun c => c.setBar w r.off o)) with remotes := s.remotes.set i { r with kind := .reply x, held := false } }
    | .reply _ => s

/-- MESSAGE_APPEND of message `i` (R176). -/
def execMessageAppend (i : Nat) (s : State) : Host.Outcome State Fault Refusal := .next (s.deliverRemote i true)

/-- REMOTE_ARRIVAL of message `i` (R172). -/
def execRemoteArrival (i : Nat) (s : State) : Host.Outcome State Fault Refusal := .next (s.deliverRemote i false)

/-- HUB_HELD_DELIVERY of message `i` (R168): a held message goes on once its workgroup is resident. -/
def execHubHeldDelivery (i : Nat) (s : State) : Host.Outcome State Fault Refusal :=
  match s.remotes[i]? with
  | some r => if r.held then .next ((s.deliverRemote i true).deliverRemote i false) else .next s
  | none => .next s

/-- REMOTE_ARRIVAL_REPLY of message `i` (R172): the result is written at the issuer. -/
def execRemoteArrivalReply (i : Nat) (s : State) : Host.Outcome State Fault Refusal :=
  match s.remotes[i]? with
  | some r =>
    match r.kind with
    | .reply x =>
      let t := { s with remotes := s.remotes.eraseIdx i }
      .next (t.updCore r.agent (fun c => c.updPack r.slot (fun p =>
        ((if r.dest = 63 then p else p.deliver false r.split r.seq (.s r.dest) 0 [] [] x).retireOp r.split r.seq r.tok c.cycle))))
    | _ => .next s
  | none => .next s

/-- The channel that a credit return names (R175): the lowest whose name resolves to the queue. -/
def State.channelFor (s : State) (p : Pack) (c : Credit) : Option Nat :=
  findBelow 8 (fun n => bit (p.mqch n) 63 && decide (s.resolve p.launch p.wg (p.mqch n) 32 = some (c.wg, c.off)))

/-! ### Transfers (R163-R167) -/

/-- Read a transfer record, and whether a reserved field is set. -/
def Core.xferRec (c : Core) (w : WgWin) (off : Nat) : XferRec × Bool :=
  let f (o n : Nat) : Nat := c.spNum (w.base + off + o) n
  let ctl := f 47 1
  (⟨f 0 8, f 8 8, f 16 4, f 20 2, f 24 4, f 28 4, f 32 4, f 36 4, f 40 4, f 44 1, f 45 1, f 46 1, ctl % 2 = 1, ctl / 2 % 2 = 1⟩,
    f 22 2 != 0 || f 48 16 != 0 || ctl / 4 != 0)

/-- The checks of R164 in their order: the reason of the first that fails. -/
def View.xferFlaw (v : View) (w : WgWin) (r : XferRec) (res : Bool) : Option Nat :=
  let m := v.pk.mqch r.chan
  let esz := eszBytes (fld m 48 4)
  let al (x : Nat) : Bool := x % 4 != 0
  let so := if r.dir = 0 then r.dst else r.src
  let pitch := if r.dir = 0 then r.dpitch else r.spitch
  if res then some 0
  else if 2 < r.dir || 4 < r.scope || 7 < r.chan || (r.chan ≠ 0 && r.dir ≠ 2) then some 1
  else if r.rowlen < 4 || r.rows = 0 ||
      (r.dir = 2 && (r.rows ≠ 1 || r.dst ≠ 0 || r.dpitch ≠ 0 || r.rowlen % esz ≠ 0 || 4096 < r.rowlen / esz)) then some 2
  else if al r.rowlen || al r.src || al r.dst || al r.spitch || al r.dpitch || (r.baren && r.baroff % 16 != 0) ||
      (r.flgen && al r.flagoff) then some 3
  else if w.size < so + (r.rows - 1) * pitch + r.rowlen || (r.baren && w.size < r.baroff + 16) ||
      (r.flgen && w.size < r.flagoff + 4) then some 4
  else if r.baren && 2 ^ 32 ≤ (v.co.bar w r.baroff).bytes + r.rowlen * r.rows then some 5
  else if r.dir = 2 && !bit m 63 then some 6
  else none

/-- A scope by its code (R80). -/
def scopeOf (n : Nat) : Scope := match n with | 0 => .pack | 1 => .core | 2 => .device | 3 => .system | _ => .fabric

/-- The credits that a record takes from its channel (R165): one for each queue entry of an S2R. -/
def View.recordCredits (v : View) (r : XferRec) : Nat := if r.dir = 2 then r.rowlen / eszBytes (fld (v.pk.mqch r.chan) 48 4) else 0

/-- They leave the channel before the release (R165). -/
def View.takeCredits (v : View) (r : XferRec) : View :=
  if r.dir = 2 then { v with pk := v.pk.setCredit r.chan (v.pk.credit r.chan - v.recordCredits r) } else v

/-- A record past its checks, its credits and its release (R165): the barrier counts its bytes, and a copy of the record is offered to the
die's engine. -/
def View.offerRecord (v : View) (c : Ctl) (off : Nat) (r : XferRec) : State :=
  let m := v.pk.mqch r.chan
  let v := match v.co.winOf v.slot with
    | some w =>
      let o := v.co.bar w r.baroff
      if r.baren then v.onCore (fun co => co.setBar w r.baroff { o with bytes := o.bytes + r.rowlen * r.rows }) else v
    | none => v
  let seq := v.sp.seq
  let (x, tok) := v.leave c .none true
  let s := (x.finish c (x.succ c)).close
  let t : Xfer := ⟨s.next, v.ag, v.slot, v.ix, seq, tok, v.pk.launch, v.pk.wg, v.pk.idx, v.pk.asid, v.pk.root,
    !v.pk.lazyMode, off, r, m, .offered, 0, [], none, none⟩
  { s with xfers := s.xfers ++ [t], next := s.next + 1 }

/-- The view whose release the record awaits (R165): its credits taken, once. An XFER that has taken them is in the phases from 10 up, those
of the release plus 10. -/
def View.pastCredits (v : View) (r : XferRec) : View :=
  if 10 ≤ v.sp.phase then { v with sp := { v.sp with phase := v.sp.phase - 10 } } else v.takeCredits r

/-- The release of XFER (R165). -/
def View.releaseRecord (v : View) (r : XferRec) : Rel :=
  let past := decide (10 ≤ v.sp.phase)
  let mark (w : View) : View := { w with sp := { w.sp with phase := w.sp.phase + 10 } }
  match (v.pastCredits r).release (scopeOf r.scope) true with
  | .wait => if past || r.dir ≠ 2 then .wait else .hold (mark (v.pastCredits r))
  | .hold w => .hold (mark w)
  | .go w => .go w

/-- XFER (R165). -/
def execXfer (c : Ctl) (a : SReg) (s : State) : Host.Outcome State Fault Refusal :=
  issue c [.s 1 a] (fun v _ =>
    let off := v.soReg a
    match v.operand off 64 64 kRead with
    | .error f => .fault f
    | .ok w =>
      let (r, res) := v.co.xferRec w off
      match v.xferFlaw w r res with
      | some x => .fault (v.faultRec fcXferRecord (BitVec.ofNat 64 off) x 0 0 127 0)
      | none =>
        if r.baren && v.co.spPoison (w.base + r.baroff) 16 false then .fault (v.faultRec fcDataUe (BitVec.ofNat 64 r.baroff) 0 0 kRead 127 0)
        else
        let e := v.recordCredits r
        if v.sp.phase < 10 && v.pk.credit r.chan < e then .state (v.parkRetry (.xfer r.chan e))
        else
          match v.releaseRecord r with
          | .wait => .wait
          | .hold v => .hold v
          | .go v => .state (v.offerRecord c off r)) s

/-- The die of a core (R5). -/
def dieOf (a : Nat) : Nat := a / 16

/-- Chunk `k`: its place in the source, in the destination, and its bytes. -/
def Xfer.chunk (x : Xfer) (k : Nat) : Nat × Nat × Nat :=
  if x.r.dir = 2 then
    let e := eszBytes (fld x.name 48 4)
    (x.r.src + k * e, 0, e)
  else
    let per := (x.r.rowlen + 4095) / 4096
    let o := 4096 * (k % per)
    (x.r.src + k / per * x.r.spitch + o, x.r.dst + k / per * x.r.dpitch + o, min 4096 (x.r.rowlen - o))

/-- TRANSFER_ACCEPT of a die (R165): the oldest offered record is accepted if the queue has room, and its XFER completes. -/
def execTransferAccept (die : Nat) (s : State) : Host.Outcome State Fault Refusal :=
  let mine := s.xfers.filter (fun x => dieOf x.agent == die)
  match mine.find? (fun x => x.stage == XStage.offered) with
  | none => .next s
  | some x =>
    if 256 ≤ (mine.filter (fun y => y.stage != XStage.offered)).length then .next s
    else
      let t := s.updXfer x.id (fun y => { y with stage := .queued })
      .next (t.updCore x.agent (fun c => c.updPack x.slot (fun p => p.retireOp x.split x.seq x.tok c.cycle)))

/-- A core's oldest waiting records enter progress while fewer than 16 are in it (R165). -/
def enterList (n : Nat) : Nat → List Xfer → List Xfer
  | _, [] => []
  | k, x :: xs =>
    if x.agent = n && x.stage = XStage.queued && k < 16 then { x with stage := .running } :: enterList n (k + 1) xs
    else x :: enterList n k xs

/-- The records of a core that are in progress. -/
def State.enterProgress (s : State) (n : Nat) : State :=
  { s with xfers := enterList n ((s.xfers.filter (fun x => x.agent == n && x.stage == XStage.running)).length) s.xfers }

/-- A record has a chunk that the engine can start. -/
def Xfer.startable (x : Xfer) : Bool := x.stage == XStage.running && x.page.isNone && decide (x.next < x.chunks)

/-- The engine's identity for a transfer (R7, R46). -/
def State.xferEng (s : State) (x : Xfer) : Eng := ⟨100 + dieOf x.agent, s.partOfAgent x.agent, x.asid, x.root, kTransfer, x.check⟩

/-- Translate a chunk's pages before it starts (R46). -/
def State.xferProbe (s : State) (x : Xfer) (k : Nat) : EngRes Unit :=
  let (src, dst, n) := x.chunk k
  if x.r.dir = 2 then .ok () s
  else
    let write := decide (x.r.dir = 1)
    (piecesOf (if write then dst else src) n).foldl (fun r p =>
      r.andThen (fun _ s => (s.engXlate (s.xferEng x) p.1 write).andThen (fun _ s => .ok () s))) (.ok () s)

/-- A transfer meets a fault (R46, R167): it waits for a PAGE_FAULT to be served, and any other code ends it. -/
def State.xferFault (s : State) (x : Xfer) (va : Nat) (f : Flaw) : State :=
  if f.code = fcPageFault then
    (s.updXfer x.id (fun y => { y with page := some va })).engPageFault
      (clusterOf x.agent) 0 x.id (s.xferEng x) va f
  else s.xferFail x f.code

/-- Start the next chunk of a record (R165). -/
def State.startChunk (s : State) (x : Xfer) : State :=
  match s.xferProbe x x.next with
  | .busy s => s
  | .fault va f => s.xferFault x va f
  | .ok _ s =>
    let k := x.next
    let s : State := { (s.updXfer x.id (fun y => { y with next := k + 1, live := y.live ++ [(k, false)] })) with
      xturn := set 0 s.xturn (dieOf x.agent) (x.agent + 1)
      xlast := set 0 s.xlast x.agent x.id }
    if x.r.dir ≠ 2 then s
    else
      match s.findWin x.launch x.wg, s.resolve x.launch x.wg x.name 32 with
      | some (n, w), some (wg, off) =>
        let (src, _, b) := x.chunk k
        if (s.core n).spPoison (w.base + src) b false then s.xferFail x fcDataUe
        else
        let name := s.senderName x.launch x.wg x.idx (fld x.name 20 8)
        { s with remotes := s.remotes ++ [⟨.append ((s.core n).spRead (w.base + src) b) (fld x.name 48 4), x.agent, x.slot,
            x.split, 0, x.seq, none, 63, x.launch, x.wg, x.idx, x.r.chan, wg, off, name, some (x.id, k), false⟩] }
      | some _, none => s.xferFail x fcMsgDesc
      | none, _ => s

/-- TRANSFER_CHUNK_START of a die (R165): strict rotation among its cores, then among the core's records. -/
def execTransferChunkStart (die : Nat) (s : State) : Host.Outcome State Fault Refusal :=
  let s := (List.range 16).foldl (fun s i => s.enterProgress (16 * die + i)) s
  let turn := get 0 s.xturn die
  let order := (List.range 16).map (fun i => 16 * die + (turn + i) % 16)
  match order.find? (fun n => s.xfers.any (fun x => x.agent == n && x.startable)) with
  | none => .next s
  | some n =>
    let xs := s.xfers.filter (fun x => x.agent == n && x.startable)
    match (xs.find? (fun x => get 0 s.xlast n < x.id)).orElse (fun _ => xs.head?) with
    | some x => .next (s.startChunk x)
    | none => .next s

/-- Perform the writes of a chunk (R166). -/
def State.moveChunk (s : State) (x : Xfer) (k : Nat) : EngRes Unit :=
  let (src, dst, n) := x.chunk k
  match s.findWin x.launch x.wg with
  | none => .busy s
  | some (c, w) =>
    if x.r.dir ≠ 0 && (s.core c).spPoison (w.base + src) n false then .fault src ⟨fcDataUe, 0, 0⟩
    else if x.r.dir = 0 && (s.core c).spPoison (w.base + dst) n true then .fault dst ⟨fcDataUe, 0, 0⟩
    else if x.r.dir = 0 then
      (s.engRead (s.xferEng x) src n).andThen (fun bs s => .ok () (s.updCore c (fun co => co.spStore w dst bs)))
    else s.engWrite (s.xferEng x) dst ((s.core c).spRead (w.base + src) n)

/-- A chunk has been performed (R166): its bytes leave the barrier's count, and after the last one the flag is written. A poisoned object or
flag ends the transfer (R34, R167). -/
def State.chunkEnd (s : State) (x : Xfer) (k : Nat) : State :=
  match s.findWin x.launch x.wg with
  | none => s
  | some (n, w) =>
    let bytes := (x.chunk k).2.2
    let last := x.next = x.chunks && (x.live.filter (fun e => e.1 != k)).isEmpty
    if x.r.baren && (s.core n).spPoison (w.base + x.r.baroff) 16 false then s.xferFail x fcDataUe
    else if last && x.r.flgen && (s.core n).spPoison (w.base + x.r.flagoff) 4 true then s.xferFail x fcDataUe
    else
    let s := if x.r.baren then s.updCore n (fun c => c.setBar w x.r.baroff ((c.bar w x.r.baroff).deliver bytes)) else s
    let live := x.live.filter (fun e => e.1 != k)
    if live.isEmpty && x.next = x.chunks then
      let s := if x.r.flgen then s.updCore n (fun c => c.spStore w x.r.flagoff (bytesOf 4 x.r.flagval)) else s
      let s := { s with xfers := s.xfers.filter (fun y => y.id != x.id) }
      (s.enterProgress x.agent).wakeCredit x.agent x.slot
    else s.updXfer x.id (fun y => { y with live := live })

/-- TRANSFER_CHUNK_DONE: chunk `k` of the chunks under way on a die is performed (R166). -/
def execTransferChunkDone (die k : Nat) (s : State) : Host.Outcome State Fault Refusal :=
  let all := (s.xfers.filter (fun x => dieOf x.agent == die && x.page.isNone)).flatMap (fun x => x.live.map (fun e => (x, e)))
  match all[k]? with
  | none => .next s
  | some (x, (j, ready)) =>
    if x.r.dir = 2 then .next (if ready then s.chunkEnd x j else s)
    else
      match s.moveChunk x j with
      | .busy s => .next s
      | .fault va f => .next (s.xferFault x va f)
      | .ok _ s => .next (s.chunkEnd x j)

end Sys2Proof.Machine
end

