-- ==== Sys2Proof/Machine/Matrix.lean ====
section
/-! DEFINITION. The matrix unit: tile records, the tile fetch unit with its stage, clamps and pins, the queue, and the
arithmetic of MMA, MMAS, MSCALE, MZERO and MCVT (R216, R217, R256-R275). -/

namespace Sys2Proof.Machine

/-! ### Tile records (R258-R263) -/

/-- A field of a record. -/
def recNum (bs : List Byte) (o n : Nat) : Nat := ofBytes ((bs.drop o).take n)

/-- A record's fields. -/
def tileRec (bs : List Byte) : TileRec :=
  ⟨BitVec.ofNat 64 (recNum bs 0 8), recNum bs 8 4, recNum bs 12 1, recNum bs 14 2, recNum bs 16 2, recNum bs 18 1 % 2 == 1,
    recNum bs 18 1 / 2 % 2 == 1, recNum bs 20 4⟩

/-- Bytes of an element of a format (R259). -/
def fmtBytes (f : Nat) : Nat := match f with | 5 | 6 => 2 | 4 => 4 | _ => 1

/-- A data format of R259. -/
def fmtData (f : Nat) : Bool := [4, 5, 6, 7, 11, 12].contains f

/-- The depth of an MMA, or of an MMAS (R259). R259 gives an MMAS with .F32 no depth, and reason 2 SHAPE is checked before reason 4 PAIR
that refuses it: SHAPE takes the 8 of the MMA (see the assumption log). -/
def fmtDepth (f : Nat) (sparse : Bool) : Nat :=
  match f with
  | 5 | 6 => if sparse then 64 else 32
  | 4 => 8
  | _ => if sparse then 128 else 64

/-- The products of one group (R216). -/
def fmtGroup (f : Nat) : Nat := match f with | 5 | 6 => 16 | 4 => 4 | _ => 32

/-- How a record's operand is used. -/
inductive TileUse
  | a (sparse : Bool)
  | b (sparse : Bool)
  | pin
  deriving DecidableEq, Repr

/-- SHAPE fails (R261, R274). -/
def TileRec.misshapen (r : TileRec) (u : TileUse) : Bool :=
  let zero := r.rows == 0 || r.cols == 0
  match u with
  | .a sp => zero || decide (96 < r.rows) || decide (fmtDepth r.fmt sp < r.cols) || (r.sp && r.cols % 4 != 0)
  | .b sp => zero || decide (fmtDepth r.fmt sp < r.rows) || decide (128 < r.cols)
  | .pin =>
    let k := fmtDepth r.fmt true
    zero || !((decide (r.rows ≤ 96) && decide (r.cols ≤ k)) || (decide (r.rows ≤ k) && decide (r.cols ≤ 128)))

/-- The first of reasons 0 to 3 that a data record fails (R261). -/
def recordFlaw (bs : List Byte) (u : TileUse) : Option Nat :=
  let r := tileRec bs
  if recNum bs 13 1 ≠ 0 || recNum bs 18 2 / 4 ≠ 0 || recNum bs 24 8 ≠ 0 || (!r.sp && r.mta ≠ 0) then some 0
  else if !fmtData r.fmt || (u == TileUse.pin && r.sp) then some 1
  else if r.misshapen u then some 2
  else if r.base.toNat % 16 ≠ 0 || r.pitch % 16 ≠ 0 then some 3
  else none

/-- PAIR fails (R259, R261). -/
def pairFlaw (a b : TileRec) (sparse h : Bool) : Bool :=
  let mf (f : Nat) : Bool := f == 11 || f == 12
  !((mf a.fmt && mf b.fmt) || a.fmt == b.fmt) || (h && a.fmt == 7) ||
  (sparse && (a.fmt == 4 || !a.sp || a.tr)) || b.sp || (!sparse && a.sp)

/-- Bytes of a metadata row (R263). -/
def metaRow (cols : Nat) : Nat := (cols + 3) / 4

/-- META fails: the metadata record `bs`, in a window of `size` bytes, does not fit A (R263). -/
def metaFlaw (bs : List Byte) (a : TileRec) (size : Nat) : Bool :=
  let r := tileRec bs
  let base := recNum bs 0 4
  r.fmt != 0x10 || recNum bs 18 2 != 0 || r.mta != 0 || recNum bs 13 1 != 0 || recNum bs 24 8 != 0 || recNum bs 4 4 != 0 ||
  r.rows != a.rows || r.cols != a.cols / 2 || base % 256 != 0 || r.pitch % 8 != 0 || decide (r.pitch < metaRow r.cols) ||
  decide (size < base + (r.rows - 1) * r.pitch + metaRow r.cols)

/-- The stored rows of an operand: their number and the bytes of each (R260, R262). -/
def TileRec.stored (r : TileRec) : Nat × Nat :=
  let es := fmtBytes r.fmt
  if r.sp then (r.rows, r.cols / 2 * es) else if r.tr then (r.cols, r.rows * es) else (r.rows, r.cols * es)

/-- The byte ranges that hold elements: addresses are formed with wrap64. -/
def TileRec.segments (r : TileRec) : List (Nat × Nat) :=
  let (n, len) := r.stored
  (List.range n).map (fun k => ((r.base.toNat + k * r.pitch) % 2 ^ 64, len))

/-- The VAs of the lines that hold elements, ascending, each once. -/
def TileRec.lines (r : TileRec) : List Nat :=
  let ls := r.segments.flatMap (fun g => (List.range ((g.1 % 64 + g.2 + 63) / 64)).map (fun i => ((g.1 / 64 + i) * 64) % 2 ^ 64))
  sortBy (fun x y => decide (x ≤ y)) ls.dedup

/-- The bytes of word `i` of a line that hold elements. -/
def TileRec.wordBytes (segs : List (Nat × Nat)) (line i : Nat) : BitVec 4 :=
  BitVec.ofNat 4 (((List.range 4).map (fun b =>
    let x := line + 4 * i + b
    if segs.any (fun g => decide ((x + 2 ^ 64 - g.1) % 2 ^ 64 < g.2)) then 2 ^ b else 0)).foldl (· + ·) 0)

/-- The size of a staged operand (R265). -/
def TileRec.bytes (r : TileRec) : Nat := let (n, len) := r.stored; n * len

/-! ### The stage (R264-R267) -/

/-- The entry that a record's operand takes, empty. -/
def stageFor (asid : Nat) (bs : List Byte) : StageEntry :=
  let r := tileRec bs
  { asid := asid, key := BitVec.ofNat 64 (recNum bs 0 8), key2 := BitVec.ofNat 64 (recNum bs 8 8), key3 := BitVec.ofNat 32 (recNum bs 16 4),
    size := r.bytes, lines := [], held := [], stale := false, users := [], pins := [], bytes := [], stamp := 0, bad := false }

/-- The record that an entry's key gives. -/
def StageEntry.record (e : StageEntry) : TileRec := tileRec (bytesOf 8 e.key.toNat ++ bytesOf 8 e.key2.toNat ++ bytesOf 4 e.key3.toNat)

/-- Two entries have equal keys (R265). -/
def StageEntry.sameKey (e f : StageEntry) : Bool := e.asid == f.asid && e.key == f.key && e.key2 == f.key2 && e.key3 == f.key3

/-- An entry that may be reused (R267). -/
def Core.reusable (c : Core) (e : StageEntry) : Bool := !e.stale && !e.bad && e.lines.all (fun l => e.held.contains l) && c.holdsEntry e

/-- The place in the queue of the instruction that a split is issuing, whose operands are not all staged (R256). -/
def MatOp.placeOf (m : MatOp) (slot split : Nat) : Bool := m.slot == slot && m.split == split && !m.staged

/-- A queued instruction of the core, `mine` aside, holds a clamp on the line, by an entry or by its own fetch. -/
def Core.queuedClamp (c : Core) (mine : MatOp → Bool) (line : Nat) : Bool :=
  let qs := c.mq.filter (fun m => !mine m)
  c.stage.any (fun (e : StageEntry) => e.held.contains line && e.users.any (fun u => qs.any (fun m => m.id == u))) ||
  c.fetches.any (fun (f : TileFetch) => f.entry.held.contains line && qs.any (fun m => m.placeOf f.slot f.split))

/-- What clamping one more line in its set comes to (R266). -/
inductive Clamp | yes | without | wait
  deriving DecidableEq, Repr

/-- Room for one more clamp in a line's set, for the instruction that a split of core `a` is issuing (R266). -/
def State.clampRoom (s : State) (a slot split line : Nat) : Clamp :=
  let others := (s.clamps.filter (fun (e : Nat × List Nat) => e.1 != line && homeSet e.1 == homeSet line && !e.2.isEmpty)).map (fun e => e.1)
  if others.length < 4 then .yes
  else if others.any (fun l => (List.range 64).any (fun b =>
      (s.core b).queuedClamp (fun m => b == a && m.placeOf slot split) l)) then .wait
  else .without

/-- One word of a line as the tile fetch unit reads it (R264): from the core's own L1 where it is registered or written there,
else by RDN. -/
def State.tileWord (s : State) (a slot : Nat) (check : Bool) (w : Nat) (b : BitVec 4) : Sync (W32 × State) :=
  if b = 0 then .ok (0, s)
  else
    let c := s.core a
    let x := c.raw w
    let home (s : State) : Sync (W32 × State) := s.readWord ⟨a, check⟩ w b
    match x.st with
    | .pend => .busy s
    | .dirty =>
      if x.writers ≠ [slot] then .busy (s.publish a w false)
      else if b &&& ~~~x.kn = 0 then .ok (x.val, s)
      else
        match home s with
        | .ok (d, s) => .ok (mergeBytes x.kn d x.val, s)
        | r => r
    | .own =>
      if check && c.racySame x slot b then .fault fcRace
      else if b &&& ~~~x.kn = 0 then .ok (x.val, s)
      else home s
    | _ => home s

/-- The line's words, with the bytes that hold elements. -/
def State.tileLine (s : State) (a slot : Nat) (check : Bool) (segs : List (Nat × Nat)) (va pa : Nat) : Sync (List Byte × State) :=
  (List.range 16).foldl (fun (r : Sync (List Byte × State)) i =>
    match r with
    | .ok (bs, s) =>
      (match s.tileWord a slot check (pa / 4 + i) (TileRec.wordBytes segs va i) with
        | .ok (d, s) => .ok (bs ++ bytesOf 4 d.toNat, s)
        | .fault c => .fault c
        | .busy s => .busy s)
    | r => r) (.ok ([], s))

/-- A fetch's line has arrived: its bytes, by address. -/
def StageEntry.addLine (e : StageEntry) (va line : Nat) (bs : List Byte) (clamped : Bool) : StageEntry :=
  { e with
    lines := e.lines ++ [line], held := if clamped then e.held ++ [line] else e.held
    bytes := (bs.zipIdx).foldl (fun (m : SMap Byte) x => set 0 m (va + x.2) x.1) e.bytes }

/-- Fetch number `k` of core `a` changes. -/
def Core.updFetch (c : Core) (k : Nat) (f : TileFetch → TileFetch) : Core :=
  { c with fetches := (c.fetches.zipIdx).map (fun x => if x.2 = k then f x.1 else x.1) }

/-- The number that an entry is staged for: that of the instruction's place in the queue, or of its fetch. -/
def Core.userOf (c : Core) (f : TileFetch) : Nat := match c.mq.find? (fun m => m.placeOf f.slot f.split) with | some m => m.id | none => f.id

/-- TILE_LINE_ARRIVAL of fetch `k` of a core, the first that is not complete (R256, R264, R266): its next line is read, clamped and
staged, or its fault is recorded; the entry is staged with its last line. The read meets the frame's attribute where it arrives: it binds
an UNSET frame, faults ALIAS_ATTR at one that another attribute has bound, and waits for the end of a rebind (R47, R48). -/
def execTileLineArrival (a k : Nat) (s : State) : Host.Outcome State Fault Refusal :=
  let c := s.core a
  match c.fetches[k]? with
  | none => .next s
  | some f =>
    match f.fault, f.todo, look c.packs f.slot with
    | none, (va, pa) :: rest, some p =>
      let line := pa / 64
      let room := s.clampRoom a f.slot f.split line
      let leaf := get (0, 0) f.leaves va
      let stop (s : State) (code reason level : Nat) : State :=
        let pc : W64 := match p.split f.split with | some x => x.pc | none => 0
        let r : FaultRec := ⟨code, pc, BitVec.ofNat 64 va, finfo reason level kTile 127 p.asid, 0⟩
        s.updCore a (fun c => c.updFetch k (fun f => { f with fault := some r }))
      if room = Clamp.wait || (c.fetches.take k).any (fun g => g.fault.isNone && !g.todo.isEmpty) || s.rebinding (pa / 4) then .next s
      else if s.aliased pa leaf.1 then .next (stop s fcAliasAttr 9 leaf.2)
      else
        let s := s.updCore a (fun c => c.dropCopies (fun l _ => l == line))
        (match s.tileLine a f.slot (!p.lazyMode) f.entry.record.segments va pa with
          | .busy t => .next t
          | .fault code => .next (stop s code 0 0)
          | .ok (bs, t) =>
            let t := t.bindFrame pa leaf.1
            let yes := room == Clamp.yes
            let e := f.entry.addLine va line bs yes
            let t := if yes then { t with clamps := upd [] t.clamps line (fun l => if l.contains a then l else l ++ [a]) } else t
            .next (t.updCore a (fun c =>
              let c := c.updFetch k (fun f => { f with todo := rest, entry := e })
              if rest.isEmpty then { c with stage := c.stage ++ [{ e with users := [c.userOf f] }] } else c)))
    | _, _, _ => .next s

/-- Where the staging of an operand stands for a split. -/
inductive Staged
  | ready (stamp : Nat) (bytes : SMap Byte)
  | fetching
  | failed (f : FaultRec)
  | missing

/-- The entry is held already for the instruction that the split is issuing. -/
def View.ownsEntry (v : View) (e : StageEntry) : Bool :=
  !e.bad && v.co.mq.any (fun m => m.placeOf v.slot v.ix && e.users.contains m.id)

/-- Find a wanted operand: a fetch of the split, or an entry to reuse (R267). -/
def View.findTile (v : View) (w : StageEntry) : Staged :=
  match v.co.fetches.find? (fun (f : TileFetch) => f.slot == v.slot && f.split == v.ix && f.entry.sameKey w) with
  | some f =>
    (match f.fault with
      | some r => .failed r
      | none => if f.todo.isEmpty then .ready f.entry.stamp f.entry.bytes else .fetching)
  | none =>
    match v.co.stage.find? (fun (e : StageEntry) => e.sameKey w && (v.co.reusable e || v.ownsEntry e)) with
    | some e => .ready e.stamp e.bytes
    | none => .missing

/-- What staging the operands of an instruction comes to. -/
inductive Staging
  | wait
  | hold (v : View)
  | fault (v : View) (f : FaultRec)
  | go (v : View) (ops : List (Nat × SMap Byte))

/-- The fetches of the split, and its place in the queue, are given up. -/
def View.dropFetches (v : View) : View :=
  { v with co := { v.co with
      fetches := v.co.fetches.filter (fun (f : TileFetch) => !(f.slot == v.slot && f.split == v.ix))
      mq := v.co.mq.filter (fun m => !m.placeOf v.slot v.ix) } }

/-- The instruction has its place in the queue. -/
def View.hasPlace (v : View) : Bool := v.co.mq.any (fun m => m.placeOf v.slot v.ix)

/-- The instruction takes its place in the queue, while its operands are fetched (R256). -/
def View.takePlace (v : View) (m : MatOp) : View :=
  if v.hasPlace then v
  else
    let op : MatOp := { m with id := v.s.next, slot := v.slot, split := v.ix, seq := v.sp.seq, staged := false, fetched := false }
    { v with s := { v.s with next := v.s.next + 1 }, co := { v.co with mq := v.co.mq ++ [op] } }

/-- It is the instruction's turn to fetch (R256): every one ahead of it in the queue has begun to. TFPIN, which has no place there, goes
after all that stand in it. -/
def View.myTurn (v : View) : Bool := (v.co.mq.takeWhile (fun m => !m.placeOf v.slot v.ix)).all (fun m => m.staged || m.fetched)

/-- The queued instruction has begun to fetch, and the entries that it reuses are held for it (R266, R267). -/
def View.holdTiles (v : View) (ws : List StageEntry) : View :=
  let ids := (v.co.mq.filter (fun m => m.placeOf v.slot v.ix)).map (fun m => m.id)
  { v with co := { v.co with
      mq := v.co.mq.map (fun m => if m.placeOf v.slot v.ix then { m with fetched := true } else m)
      stage := v.co.stage.map (fun (e : StageEntry) =>
        if ws.any (fun w => e.sameKey w) && v.co.reusable e then { e with users := e.users ++ ids.filter (fun i => !e.users.contains i) } else e) } }

/-- Start the fetches of operands that no entry holds: translation first, over all their lines, then room (R264, R265, R270). While an
acquire of the pack is under way nothing is read (R91). `all` are the instruction's operands. -/
def View.startTiles (v : View) (all ws : List StageEntry) : Staging :=
  let ls := (ws.flatMap (fun w => w.record.lines)).dedup
  let x := v.translate kTile false 1 (ls.map (fun l => (127, l)))
  if v.acqBusy then .hold v
  else if x.waiting then .hold x.v
  else
    let host : List LaneFlaw := (x.good.filter (fun g => isHost g.pa)).map (fun g => ⟨127, g.va, ⟨fcProtection, 13, 0⟩⟩)
    match x.bad ++ host with
    | b :: bs =>
      let y := bs.foldl (fun (y z : LaneFlaw) => if z.fva < y.fva then z else y) b
      .fault v.dropFetches (v.faultRec y.f.code (BitVec.ofNat 64 y.fva) y.f.reason y.f.level (kindOf y.f.code kTile) 127 0)
    | [] =>
      let w := x.v
      let s := w.close.reapStage w.ag
      let c := s.core w.ag
      let open_ := c.fetches.filter (fun (f : TileFetch) => !f.todo.isEmpty)
      let used := (c.stage.map (fun (e : StageEntry) => e.size)).foldl (· + ·) 0 + (open_.map (fun f => f.entry.size)).foldl (· + ·) 0
      if 64 < c.stage.length + open_.length + ws.length || 262144 < used + (ws.map (fun e => e.size)).foldl (· + ·) 0 then .wait
      else
        let pa (va : Nat) : Nat := match x.good.find? (fun g => g.va == va) with | some g => g.pa | none => 0
        let mk (i : Nat) (e : StageEntry) : TileFetch :=
          ⟨s.next + i, w.slot, w.ix, { e with stamp := s.next + i }, e.record.lines.map (fun l => (l, pa l)),
            x.good.foldl (fun (m : SMap (Nat × Nat)) g => set (0, 0) m g.va (g.attr, g.lvl)) [], none⟩
        let fs := (ws.zipIdx).map (fun y => mk y.2 y.1)
        let s := { s with next := s.next + ws.length }
        .hold ((w.reopen (s.updCore w.ag (fun c => { c with fetches := c.fetches ++ fs }))).holdTiles all)

/-- Distinct keys. -/
def dedupKeys : List StageEntry → List StageEntry
  | [] => []
  | e :: es => if es.any (fun f => f.sameKey e) then dedupKeys es else e :: dedupKeys es

/-- Stage the operands of an instruction (R264-R267, R270). -/
def View.stageAll (v : View) (ws : List StageEntry) : Staging :=
  let found := ws.map (fun w => (w, v.findTile w))
  let missing := found.filterMap (fun x => match x.2 with | .missing => some x.1 | _ => none)
  if !missing.isEmpty then v.startTiles ws (dedupKeys missing)
  else if found.any (fun x => match x.2 with | .fetching => true | _ => false) then .wait
  else
    let fs := found.filterMap (fun x => match x.2 with | .failed f => some f | _ => none)
    match fs with
    | f :: more =>
      let g := more.foldl (fun (a b : FaultRec) => if b.fva.toNat < a.fva.toNat then b else a) f
      .fault v.dropFetches { g with pc := v.sp.pc }
    | [] => .go v (found.filterMap (fun x => match x.2 with | .ready n b => some (n, b) | _ => none))

/-! ### Issue (R257, R268-R270) -/

/-- The splits that have joined the view's word, as they stand. -/
def View.joined (v : View) : List Split := v.joins.filterMap (fun j => v.pk.split j)

/-- The window of every split that has joined the word is emptied too. -/
def View.flushJoined (v : View) : View := v.onPack (fun p => v.joins.foldl (fun (p : Pack) j => p.flushAt j v.now) p)

/-- The view with the window of the split, and of those that joined the word (R303), empty and every write in it performed (R257); none
while a class-V write of theirs to one of the rows is outstanding. -/
def View.matrixReady (v : View) (rows : Nat → Bool) : Option View :=
  let outs := v.sp.out ++ v.joined.flatMap (fun x => x.out)
  if outs.any (fun o => match o.dest with | .v r wide => rows r || (wide && rows (r + 1)) | _ => false) then none
  else
    let ds := (v.sp.win ++ v.joined.flatMap (fun x => x.win) ++ v.pk.late).map (fun (e : WEntry) => e.due)
    some (({ v with now := ds.foldl max v.now } : View).settle.flush.flushJoined)

/-- The lanes of the launch mask that are missing (R269). -/
def View.missingLane (v : View) (act : Mask) : Option FaultRec :=
  (lowest (v.pk.lmask &&& ~~~act)).map (fun L => v.faultRec fcIllegalConvergence 0 0 0 0 L 0)

/-- A record's bytes, or the fault of its offset (R258). -/
def View.tileAt (v : View) (off : Nat) : Except FaultRec (List Byte) :=
  match v.spFault kRead 32 true true [(127, off)], v.co.winOf v.slot with
  | some f, _ => .error f
  | none, some w => .ok (v.co.spRead (w.base + off) 32)
  | none, none => .ok []

/-- A TILE_RECORD fault (R261). -/
def View.tileFault (v : View) (off reason : Nat) : FaultRec := v.faultRec fcTileRecord (BitVec.ofNat 64 off) reason 0 0 127 0

/-- Poison in a byte range of the window (R34): the fault of the first poisoned granule. -/
def View.spRangeUe (v : View) (off n : Nat) : Option FaultRec :=
  ((List.range ((n + 7) / 8 + 1)).map (fun i => off / 8 * 8 + 8 * i)).findSome? (fun o =>
    if o < off + n then v.spRec fcDataUe kRead true true (if v.spUe false 8 [] (127, o) then [(127, o, 0)] else []) else none)

/-- A byte range of the window added to a map, from `at_` up. -/
def View.spInto (v : View) (at_ off n : Nat) (m : SMap Byte) : SMap Byte :=
  match v.co.winOf v.slot with
  | some w => ((v.co.spRead (w.base + off) n).zipIdx).foldl (fun (m : SMap Byte) x => set 0 m (at_ + x.2) x.1) m
  | none => m

/-- A byte range of the window as a map from 0 up. -/
def View.spMap (v : View) (off n : Nat) : SMap Byte := v.spInto 0 off n []

/-- The rows of a metadata tile (R262): where each begins, from MBASE. -/
def metaRows (m : TileRec) : List Nat := (List.range m.rows).map (fun i => i * m.pitch)

/-- Poison in the metadata bytes of a tile at `base` (R34, R262). -/
def View.metaUe (v : View) (base : Nat) (m : TileRec) : Option FaultRec := (metaRows m).findSome? (fun o => v.spRangeUe (base + o) (metaRow m.cols))

/-- The metadata bytes of a tile at `base`, by their offset there (R262). -/
def View.metaMap (v : View) (base : Nat) (m : TileRec) : SMap Byte :=
  (metaRows m).foldl (fun (r : SMap Byte) o => v.spInto o (base + o) (metaRow m.cols) r) []

/-- An instruction enters the queue, or stands in the place it has taken there, with its operands (R256): it passes its horizon, and its
entries are held for it. -/
def View.enqueue (v : View) (c : Ctl) (ops : List (Nat × SMap Byte)) (m : MatOp) : Res :=
  let (w, tok) := v.tokenV c
  let t := (w.finish c (w.succ c)).close
  let (id, s) := match v.co.mq.find? (fun m => m.placeOf v.slot v.ix) with | some o => (o.id, t) | none => t.fresh1
  let mine (f : TileFetch) : Bool := f.slot == v.slot && f.split == v.ix
  let op : MatOp := { m with
    id := id, slot := v.slot, split := v.ix, seq := v.sp.seq, tok := tok
    withs := v.joins.filterMap (fun j => (v.pk.split j).map (fun x => (j, x.seq))) }
  .state (s.updCore v.ag (fun k => { k with
    mq := if v.hasPlace then k.mq.map (fun o => if o.placeOf v.slot v.ix then op else o) else k.mq ++ [op]
    fetches := k.fetches.filter (fun f => !mine f)
    stage := k.stage.map (fun (e : StageEntry) => if ops.any (fun o => o.1 == e.stamp) && !e.users.contains id then { e with users := e.users ++ [id] } else e) }))

/-- A queued instruction without its number. -/
def matOp (k : MatKind) (crow : Nat) : MatOp :=
  let r : TileRec := ⟨0, 0, 0, 0, 0, false, false, 0⟩
  { id := 0, slot := 0, split := 0, seq := 0, kind := k, crow := crow, arow := 0, brow := 0, ra := r, rb := r, abytes := [], bbytes := [],
    scale := [], tok := none, running := false, staged := true, fetched := true, withs := [], act := 0, out := [], fl := 0 }

/-- The tile rows from `r` on contain a row. -/
def tileHas (r n : Nat) : Bool := decide (r ≤ n) && decide (n < r + 128)

/-- MMA and MMAS at issue. -/
def View.multiply (v : View) (c : Ctl) (sparse z h : Bool) (d : CReg) (a : SReg) (ao : BitVec 20) (b : SReg) (bo : BitVec 20)
    (act : Mask) : Res :=
  let oa := ((v.rs a).toNat + ao.toNat) % 2 ^ 32
  let ob := ((v.rs b).toNat + bo.toNat) % 2 ^ 32
  match v.missingLane act, v.tileAt oa, v.tileAt ob with
  | some f, _, _ => .fault f
  | none, .error f, _ => .fault f
  | none, .ok _, .error f => .fault f
  | none, .ok ba, .ok bb =>
    let ra := tileRec ba
    let rb := tileRec bb
    let size := v.spSize
    let mt : List Byte := match v.tileAt ra.mta with | .ok x => x | .error _ => []
    match recordFlaw ba (.a sparse), recordFlaw bb (.b sparse) with
    | some r, _ => .fault (v.tileFault oa r)
    | none, some r => .fault (v.tileFault ob r)
    | none, none =>
      let m := tileRec mt
      let out := ra.mta % 32 != 0 || decide (size < ra.mta + 32)
      if pairFlaw ra rb sparse h then .fault (v.tileFault oa 4)
      else if sparse && out then .fault (v.tileFault ra.mta 5)
      else
        match if sparse then v.spRangeUe ra.mta 32 else none with
        | some f => .fault f
        | none =>
          if sparse && metaFlaw mt ra size then .fault (v.tileFault ra.mta 5)
          else
            match if sparse then v.metaUe (recNum mt 0 4) m else none with
            | some f => .fault f
            | none =>
              if !v.hasPlace && 8 ≤ v.co.mq.length then .wait
              else
                let op := { (matOp (.mma sparse z h m.pitch 0) (v.crow d)) with ra := ra, rb := rb, act := act }
                let v := v.takePlace op
                let ws := [stageFor v.pk.asid ba, stageFor v.pk.asid bb]
                if !v.myTurn then .hold v
                else
                match v.stageAll ws with
                | .wait => .hold v
                | .hold v => .hold v
                | .fault w f => .state (w.raise f)
                | .go v ops =>
                  match v.matrixReady (tileHas (v.crow d)) with
                  | none => .hold (v.holdTiles ws)
                  | some v =>
                    let bytes (i : Nat) : SMap Byte := match ops[i]? with | some o => o.2 | none => []
                    v.enqueue c ops { op with
                      abytes := bytes 0, bbytes := bytes 1, scale := if sparse then v.metaMap (recNum mt 0 4) m else [] }

/-- MMA (R271). -/
def execMma (c : Ctl) (z h : Bool) (d : CReg) (a : SReg) (ao : BitVec 20) (b : SReg) (bo : BitVec 20) (s : State) :
    Host.Outcome State Fault Refusal :=
  issueG c [(c.guard, [.s 1 a, .s 2 b])] 0 (fun _ => [.dc d]) true (fun v act => v.multiply c false z h d a ao b bo act) s

/-- MMAS (R262, R271). -/
def execMmas (c : Ctl) (z h : Bool) (d : CReg) (a : SReg) (ao : BitVec 20) (b : SReg) (bo : BitVec 20) (s : State) :
    Host.Outcome State Fault Refusal :=
  issueG c [(c.guard, [.s 1 a, .s 2 b])] 0 (fun _ => [.dc d]) true (fun v act => v.multiply c true z h d a ao b bo act) s

/-- The 512 scale bytes are out of bounds, misaligned or poisoned (R272). -/
def View.scaleFault (v : View) (so : Nat) : Option FaultRec :=
  match spFlaw v.spSize so 16 with
  | some 11 => some (v.faultRec fcScratchBounds (BitVec.ofNat 64 so) 11 0 kRead 127 0)
  | _ =>
    if v.spSize < so + 512 then some (v.faultRec fcScratchBounds (BitVec.ofNat 64 so) 12 0 kRead 127 0)
    else (List.range 64).findSome? (fun i => v.spFault kRead 8 true true [(127, so + 8 * i)])

/-- MSCALE (R272). -/
def execMscale (c : Ctl) (z i : Bool) (d p : CReg) (rs : VSrc) (ss : SReg) (soff : BitVec 20) (s : State) :
    Host.Outcome State Fault Refusal :=
  issueG c [(c.guard, [.s 3 ss])] 0 (fun _ => [.dc d, .c 1 p, useV 2 false rs]) true (fun v act =>
    let so := ((v.rs ss).toNat + soff.toNat) % 2 ^ 32
    match v.missingLane act, v.scaleFault so with
    | some f, _ => .fault f
    | none, some f => .fault f
    | none, none =>
      if 8 ≤ v.co.mq.length then .wait
      else
        match v.matrixReady (fun n => tileHas (v.crow d) n || tileHas (v.crow p) n || n == v.vrow rs.reg) with
        | none => .wait
        | some v =>
          v.enqueue c [] { (matOp (.mscale z i) (v.crow d)) with
            arow := v.crow p, brow := v.vrow rs.reg, scale := v.spMap so 512, act := act }) s

/-- MZERO (R273). -/
def execMzero (c : Ctl) (d : CReg) (s : State) : Host.Outcome State Fault Refusal :=
  issueG c [(c.guard, [])] 0 (fun _ => [.dc d]) false (fun v act =>
    if 8 ≤ v.co.mq.length then .wait
    else
      match v.matrixReady (tileHas (v.crow d)) with
      | none => .wait
      | some v => v.enqueue c [] (matOp (.mzero act) (v.crow d))) s

/-- The registers that MCVT writes (R273). -/
def mcvtRows (ty : Ty) : Nat := if ty = .f16 || ty = .bf16 then 64 else 32

/-- MCVT (R273). -/
def execMcvt (c : Ctl) (h : Bool) (ty : Ty) (r : Rnd) (d : VReg) (a : CReg) (key : SReg) (s : State) :
    Host.Outcome State Fault Refusal :=
  issueG c [(c.guard, if r = .sr then [.s 2 key] else [])] 0 (fun _ => [.dvs d (mcvtRows ty), .c 1 a]) true (fun v act =>
    match v.missingLane act with
    | some f => .fault f
    | none =>
      if 8 ≤ v.co.mq.length then .wait
      else
        match v.matrixReady (fun n => tileHas (v.crow a) n || (decide (v.vrow d ≤ n) && decide (n < v.vrow d + mcvtRows ty))) with
        | none => .wait
        | some v => v.enqueue c [] { (matOp (.mcvt h ty r (v.rs key) (bit (v.pk.special sprFpf) 16)) (v.vrow d)) with arow := v.crow a, act := act }) s

/-! ### Pins (R265, R274) -/

/-- The pins of a core, with the sizes of their entries. -/
def Core.pinSizes (c : Core) : List Nat := c.stage.flatMap (fun (e : StageEntry) => e.pins.map (fun _ => e.size))

/-- TFPIN. -/
def execTfpin (c : Ctl) (d a : SReg) (s : State) : Host.Outcome State Fault Refusal :=
  issue c [.ds d, .s 1 a] (fun v _ =>
    let off := (v.rs a).toNat % 2 ^ 32
    match v.tileAt off with
    | .error f => .fault f
    | .ok bs =>
      match recordFlaw bs .pin with
      | some r => .fault (v.tileFault off r)
      | none =>
        let w := stageFor v.pk.asid bs
        let sizes := v.co.pinSizes
        if v.co.stage.any (fun (e : StageEntry) => e.sameKey w && e.pins.contains v.slot) then v.dropFetches.landS c d 0
        else if 8 ≤ sizes.length || 131072 < sizes.foldl (· + ·) 0 + w.size then v.dropFetches.landS c d 1
        else
          if !v.myTurn then .wait
          else
          match v.stageAll [w] with
          | .wait => .wait
          | .hold v => .hold v
          | .fault w f => .state (w.raise f)
          | .go v ops =>
            let co := v.co
            let pin (e : StageEntry) : StageEntry :=
              if ops.any (fun o => o.1 == e.stamp) then { e with pins := e.pins ++ [v.slot] } else e
            ({ v with co := { co with stage := co.stage.map pin } } : View).dropFetches.landS c d 0) s

/-- TFREL and TFREL.ALL. -/
def execTfrel (c : Ctl) (all : Bool) (a : SReg) (s : State) : Host.Outcome State Fault Refusal :=
  issue c (if all then [] else [.s 1 a]) (fun v _ =>
    let go (p : StageEntry → Bool) : Res :=
      let co := v.co
      let free (e : StageEntry) : StageEntry := if p e then { e with pins := e.pins.filter (fun k => k != v.slot) } else e
      let w : View := { v with co := { co with stage := co.stage.map free } }
      .done ((w.reopen (w.close.reapStage v.ag)).tokenFor c 1)
    if all then go (fun _ => true)
    else
      match v.tileAt ((v.rs a).toNat % 2 ^ 32) with
      | .error f => .fault f
      | .ok bs => go (fun e => e.sameKey (stageFor v.pk.asid bs))) s

/-! ### The arithmetic (R216, R217, R271-R273) -/

/-- An element of a format. -/
def fmtVal (f x : Nat) : FV :=
  match f with
  | 4 => fp32.unpack x
  | 5 => fp16.unpack x
  | 6 => bf16.unpack x
  | 11 => mf8Get false x
  | 12 => mf8Get true x
  | _ => let y := sInt 8 x; .fin (decide (y < 0)) y.natAbs 0

/-- The raw bits of stored element `e` of stored row `r`. -/
def TileRec.raw (t : TileRec) (bs : SMap Byte) (r e : Nat) : Nat :=
  let es := fmtBytes t.fmt
  let at_ := (t.base.toNat + r * t.pitch + e * es) % 2 ^ 64
  ofBytes ((List.range es).map (fun i => get 0 bs (at_ + i)))

/-- A logical element of a dense operand: zero outside ROWS and COLS (R260). -/
def TileRec.dense (t : TileRec) (bs : SMap Byte) (i k : Nat) : FV :=
  if i < t.rows && k < t.cols then fmtVal t.fmt (if t.tr then t.raw bs k i else t.raw bs i k) else .fin false 0 0

/-- The elements that row `i` of a sparse A holds at logical `k`: its stored elements there, or a zero (R262). -/
def TileRec.sparse (t : TileRec) (bs mt : SMap Byte) (pitch i k : Nat) : List FV :=
  let idx (e : Nat) : Nat := (get (0 : Byte) mt (i * pitch + e / 4)).toNat / 4 ^ (e % 4) % 4
  let es := if i < t.rows then [2 * (k / 4), 2 * (k / 4) + 1].filter (fun e => decide (e < t.cols / 2) && idx e == k % 4) else []
  if es.isEmpty then [.fin false 0 0] else es.map (fun e => fmtVal t.fmt (t.raw bs i e))

/-- The sum of a group of products and its flags: a NaN, an infinity, or the exact sum rounded to FP32 (R216). -/
def groupSum (ps : List Exact) : FV × Nat :=
  let inf (n : Bool) : Bool := ps.any (fun p => p.v == FV.inf n)
  if ps.any (fun p => p.v.isNan) || (inf false && inf true) then (.nan false, flNV)
  else if inf false then (.inf false, 0)
  else if inf true then (.inf true, 0)
  else
    let sum := ps.foldl (fun (a : FV) p => match a, p.v with
      | .fin n1 m1 e1, .fin n2 m2 e2 => finAdd .rne n1 m1 e1 n2 m2 e2
      | _, _ => a) (.fin false 0 0)
    let g := fp32.unpack (fp32.of .rne false 0 sum).val.toNat
    match g with
    | .inf n => (.inf n, flOVF32)
    | _ => (g, 0)

/-- acc + g in FP32, or in FP16 with saturation (R216, R217): the accumulator's bits and the flags. -/
def accAdd (h : Bool) (acc : Nat × Nat) (g : FV × Nat) : Nat × Nat :=
  let f := if h then fp16 else fp32
  let x := fAdd .rne (f.unpack acc.1) g.1
  match x.v with
  | .nan _ => (f.qnan, acc.2 ||| g.2 ||| flNV)
  | .inf n => (f.infBits n, acc.2 ||| g.2)
  | .fin n m e =>
    let y := (f.of .rne false 0 (.fin n m e)).val.toNat
    match f.unpack y with
    | .inf n => if h then (f.maxBits n, acc.2 ||| g.2 ||| flSATH) else (y, acc.2 ||| g.2 ||| flOVF32)
    | _ => (y, acc.2 ||| g.2)

/-- acc + g in INT32 (R216, R217). -/
def accInt (acc : Nat × Nat) (g : Int) : Nat × Nat :=
  let x := sInt 32 acc.1 + g
  (wrapN 32 x, if x < -(2 ^ 31) ∨ 2 ^ 31 ≤ x then acc.2 ||| flIOVF else acc.2)

/-- A list in pieces of `n`; `fuel` bounds their number. -/
def chunksOf {α : Type} (n : Nat) : Nat → List α → List (List α)
  | 0, _ => []
  | fuel + 1, xs => if xs.isEmpty then [] else xs.take n :: chunksOf n fuel (xs.drop n)

/-- The value of an integer element. -/
def FV.int (x : FV) : Int := match x with | .fin n m _ => sgnMag n m | _ => 0

/-- One element of C: `a` gives A's elements for each k, `b` those of B. -/
def mmaEl (fmt : Nat) (h z : Bool) (a : List (List FV)) (b : List FV) (old : W32) : Nat × Nat :=
  let start : Nat := if z then 0 else if h then old.toNat % 2 ^ 16 else old.toNat
  let prods := (a.zip b).map (fun x => x.1.map (fun y => fMul y x.2))
  let groups := (chunksOf (fmtGroup fmt) 8 prods).map (fun g => g.flatten)
  if fmt = 7 then groups.foldl (fun acc g => accInt acc ((g.map (fun p => p.v.int)).foldl (· + ·) 0)) (start, 0)
  else groups.foldl (fun acc g => accAdd h acc (groupSum g)) (start, 0)

/-- The destination rows of an instruction with their lanes, and its flags. -/
structure MatRes where
  rows : List (Nat × Mask × Row)
  fl : Nat

/-- Rows from elements: value and flags of lane i of row j. Lanes outside ACT raise no flag (R208). -/
def matRows (act : Mask) (crow n : Nat) (f : Nat → Nat → Nat × Nat) : MatRes :=
  let cols := (List.range n).map (fun j => lanes.map (fun i => f i j))
  ⟨(cols.zipIdx).map (fun x => (crow + x.2, BitVec.allOnes 96, x.1.map (fun y => BitVec.ofNat 32 y.1))),
    cols.foldl (fun fl c => (c.zipIdx).foldl (fun fl y => if act.getLsbD y.2 then fl ||| y.1.2 else fl) fl) 0⟩

/-- An element of a window row. -/
def Pack.el (p : Pack) (row L : Nat) : W32 := lane (get zeroRow p.rows row) L

/-- MMA or MMAS in the array. -/
def MatOp.multiply (m : MatOp) (p : Pack) (sparse z h : Bool) (pitch : Nat) : MatRes :=
  let k := fmtDepth m.ra.fmt sparse
  let ks := List.range k
  let as := lanes.map (fun i => ks.map (fun j =>
    if sparse then m.ra.sparse m.abytes m.scale pitch i j else [m.ra.dense m.abytes i j]))
  let bs := (List.range 128).map (fun j => ks.map (fun i => m.rb.dense m.bbytes i j))
  matRows m.act m.crow 128 (fun i j => mmaEl m.ra.fmt h z (as.getD i []) (bs.getD j []) (p.el (m.crow + j) i))

/-- One element of MSCALE (R272). -/
def scaleEl (sa sb p c : FV) : Nat × Nat :=
  if sa.isNan || sb.isNan || p.isNan || c.isNan then (fp32.qnan, flNV)
  else
    let q := fMul sa sb
    let r := fMul q.v p
    let x := fAdd .rne r.v c
    match x.v with
    | .nan _ => (fp32.qnan, flNV)
    | .inf n => (fp32.infBits n, 0)
    | .fin n m e =>
      if m = 0 then (0, 0)
      else
        let y := (fp32.of .rne false 0 (.fin n m e)).val.toNat
        match fp32.unpack y with
        | .inf _ => (y, flOVF32)
        | _ => (y, 0)

/-- MSCALE in the array. -/
def MatOp.rescale (m : MatOp) (p : Pack) (z i : Bool) : MatRes :=
  let part (x : W32) : FV := if i then (let y := sInt 32 x.toNat; .fin (decide (y < 0)) y.natAbs 0) else fp32.unpack x.toNat
  let sb (j : Nat) : FV := fp32.unpack (ofBytes ((List.range 4).map (fun k => get (0 : Byte) m.scale (4 * j + k))))
  matRows m.act m.crow 128 (fun L j =>
    scaleEl (fp32.unpack (p.el m.brow L).toNat) (sb j) (part (p.el (m.arow + j) L))
      (if z then .fin false 0 0 else fp32.unpack (p.el (m.crow + j) L).toNat))

/-- One converted element of MCVT: its bits and flags. `satf` is FPF.SATF as the instruction met it at issue (R317). -/
def MatOp.cvtEl (m : MatOp) (p : Pack) (h : Bool) (ty : Ty) (r : Rnd) (key : W64) (satf : Bool) (i j : Nat) : Nat × Nat :=
  let x := p.el (m.arow + j) i
  let rnd := fld (mix64 (key ^^^ BitVec.ofNat 64 (128 * i + j))) 0 16
  let y := cvt ty (if h then .f16 else .f32) r satf rnd (if h then (x &&& 0xFFFF).setWidth 64 else x.setWidth 64)
  (y.val.toNat, y.fl)

/-- MCVT in the array. -/
def MatOp.convert (m : MatOp) (p : Pack) (h : Bool) (ty : Ty) (r : Rnd) (key : W64) (satf : Bool) : MatRes :=
  let n := 128 / mcvtRows ty
  let w := 32 / n
  matRows m.act m.crow (mcvtRows ty) (fun i q =>
    (List.range n).foldl (fun (acc : Nat × Nat) b =>
      let y := m.cvtEl p h ty r key satf i (n * q + b)
      (acc.1 + y.1 % 2 ^ w * 2 ^ (w * b), acc.2 ||| y.2)) (0, 0))

/-- What a queued instruction writes. -/
def MatOp.result (m : MatOp) (p : Pack) : MatRes :=
  match m.kind with
  | .mma sparse z h pitch _ => m.multiply p sparse z h pitch
  | .mscale z i => m.rescale p z i
  | .mzero act => ⟨(List.range 128).map (fun j => (m.crow + j, act, zeroRow)), 0⟩
  | .mcvt h ty r key satf => m.convert p h ty r key satf

/-! ### The queue (R256, R257) -/

/-- MATRIX_EXECUTE: the array, if it is free, starts the instruction at the head of the queue once its operands are staged; the rows that
it reads are read now (R271). -/
def execMatrixExecute (a : Nat) (s : State) : Host.Outcome State Fault Refusal :=
  match (s.core a).mq with
  | [] => .next s
  | m :: rest =>
    match look (s.core a).packs m.slot with
    | none => .next s
    | some p =>
      if m.running || !m.staged then .next s
      else
        let r := m.result p
        .next (s.updCore a (fun c => { c with mq := { m with running := true, out := r.rows, fl := r.fl } :: rest }))

/-- MATRIX_COMPLETE: the running instruction writes its rows and flags, its token falls, and its clamps are released. -/
def execMatrixComplete (a : Nat) (s : State) : Host.Outcome State Fault Refusal :=
  match (s.core a).mq with
  | [] => .next s
  | m :: rest =>
    if !m.running then .next s
    else
      let put (p : Pack) : Pack :=
        ((m.out.foldl (fun (p : Pack) x => p.bankAfter ⟨m.seq, x.1, x.2.1, x.2.2, true, 0⟩) p).orFpf m.fl).retireOp m.split m.seq m.tok (s.core a).cycle
      .next ((s.updCore a (fun c => ({ c with mq := rest } : Core).updPack m.slot put)).reapStage a)

end Sys2Proof.Machine
end

