-- ==== Sys2Proof/Machine/Coherence.lean ====
section
/-! DEFINITION. The events of the registration protocol: each takes the oldest message of one channel, if it is of the
event's kind, at a home, an owner or a requester; and the events of a core's L1 and time base (R55-R78, R267). -/

namespace Sys2Proof.Machine

/-- Take the oldest message of a channel (R55). -/
def takeMsg (src dst : Nat) : List Msg → Option (Body × List Msg)
  | [] => none
  | m :: ms => if m.src = src ∧ m.dst = dst then some (m.body, ms) else (takeMsg src dst ms).map (fun r => (r.1, m :: r.2))

/-- The oldest message of a channel, handed to what its kind does; another kind, or no message, changes nothing. -/
def State.onMsg (s : State) (src dst : Nat) (f : Body → State → Option State) : Host.Outcome State Fault Refusal :=
  match takeMsg src dst s.net with
  | some (b, ms) => .next ((f b { s with net := ms }).getD s)
  | none => .next s

/-- An answer for an agent without an L1 is kept for it (R379). -/
def State.portAnswer (s : State) (a : Nat) (b : Body) : State := { s with answers := s.answers ++ [(a, b)] }

/-- An agent with an L1: a compute core or a service core (R7). -/
def hasL1 (a : Nat) : Bool := decide (a < 96)

/-! ### At a home (R58, R59, R71, R73, R77, R267) -/

/-- RDC: the line is asked for word by word; a word that no load asked for carries no bytes. -/
def execRdc (src dst : Nat) (s : State) : Host.Outcome State Fault Refusal :=
  s.onMsg src dst (fun b s => match b with
    | .rdc l acq keep want tag check attr slot =>
      some ((List.range 16).foldl (fun (s : State) i =>
        let w := 16 * l + i
        let bytes := match want.find? (fun x => x.1 == w) with | some x => x.2 | none => 0
        s.arrive ⟨src, [w], .rdc acq keep, tag, bytes, check, attr, slot, 0, false⟩) s)
    | _ => none)

/-- RDN. -/
def execRdn (src dst : Nat) (s : State) : Host.Outcome State Fault Refusal :=
  s.onMsg src dst (fun b s => match b with
    | .rdn want tag check attr slot =>
      some (want.foldl (fun (s : State) x => s.arrive ⟨src, [x.1], .rdn, tag, x.2, check, attr, slot, 0, false⟩) s)
    | _ => none)

/-- REGW. -/
def execRegw (src dst : Nat) (s : State) : Host.Outcome State Fault Refusal :=
  s.onMsg src dst (fun b s => match b with
    | .regw w m cb bytes tag check attr slot cov => some (s.arrive ⟨src, [w], .regw m cb, tag, bytes, check, attr, slot, cov, false⟩)
    | _ => none)

/-- EWR. -/
def execEwr (src dst : Nat) (s : State) : Host.Outcome State Fault Refusal :=
  s.onMsg src dst (fun b s => match b with
    | .ewr w m d tag check attr cov => some (s.arrive ⟨src, [w], .ewr m d, tag, m, check, attr, 0, cov, false⟩)
    | _ => none)

/-- ATM. -/
def execAtm (src dst : Nat) (s : State) : Host.Outcome State Fault Refusal :=
  s.onMsg src dst (fun b s => match b with
    | .atm ws ls bytes tag check attr slot => some (s.arrive ⟨src, ws, .atm ls, tag, bytes, check, attr, slot, 0, false⟩)
    | _ => none)

/-- WBD. -/
def execWbd (src dst : Nat) (s : State) : Host.Outcome State Fault Refusal :=
  s.onMsg src dst (fun b s => match b with
    | .wbd w m d => some (s.takeWbd src w m d)
    | _ => none)

/-- LOSS. -/
def execLoss (src dst : Nat) (s : State) : Host.Outcome State Fault Refusal :=
  s.onMsg src dst (fun b s => match b with
    | .loss ws => some (ws.foldl (fun (s : State) w => s.loseWord src w) s).pump
    | _ => none)

/-- ZAPW. -/
def execZapw (src dst : Nat) (s : State) : Host.Outcome State Fault Refusal :=
  s.onMsg src dst (fun b s => match b with
    | .zapw w tag cov => some (s.arrive ⟨src, [w], .zapw, tag, 15, false, 0, 0, cov, false⟩)
    | _ => none)

/-- NOTHELD. -/
def execNotheld (src dst : Nat) (s : State) : Host.Outcome State Fault Refusal :=
  s.onMsg src dst (fun b s => match b with
    | .notheld w ask req => some (s.takeNotheld src w ask req)
    | _ => none)

/-- RACE. -/
def execRace (src dst : Nat) (s : State) : Host.Outcome State Fault Refusal :=
  s.onMsg src dst (fun b s => match b with
    | .race w ask req => some (s.takeRace src w ask req)
    | _ => none)

/-- CALLBACK_DONE. -/
def execCallbackDone (src dst : Nat) (s : State) : Host.Outcome State Fault Refusal :=
  s.onMsg src dst (fun b s => match b with
    | .callbackDone w => some (s.takeCallbackDone src w)
    | _ => none)

/-- STALE_ACK. -/
def execStaleAck (src dst : Nat) (s : State) : Host.Outcome State Fault Refusal :=
  s.onMsg src dst (fun b s => match b with
    | .staleAck l => some (s.takeStaleAck src l)
    | _ => none)

/-! ### At an owner or a requester (R58, R61, R63, R71, R76, R267, R434) -/

/-- FWD. -/
def execFwd (src dst : Nat) (s : State) : Host.Outcome State Fault Refusal :=
  s.onMsg src dst (fun b s => match b with
    | .fwd w r => some (s.onFwd dst w r)
    | _ => none)

/-- RECALL. -/
def execRecallWord (src dst : Nat) (s : State) : Host.Outcome State Fault Refusal :=
  s.onMsg src dst (fun b s => match b with
    | .recallWord w bytes num => some (s.onRecall dst w bytes num)
    | _ => none)

/-- CALLBACK. -/
def execCallback (src dst : Nat) (s : State) : Host.Outcome State Fault Refusal :=
  s.onMsg src dst (fun b s => match b with
    | .callback w bytes => some (s.onCallback dst w bytes)
    | _ => none)

/-- DROP. -/
def execDrop (src dst : Nat) (s : State) : Host.Outcome State Fault Refusal :=
  s.onMsg src dst (fun b s => match b with
    | .drop w => some (s.onDrop dst w)
    | _ => none)

/-- GRANT. -/
def execGrant (src dst : Nat) (s : State) : Host.Outcome State Fault Refusal :=
  s.onMsg src dst (fun b s => match b with
    | .grant w d => some (s.onGrant dst w d)
    | _ => none)

/-- DATA: the value of a read or of an atomic, the bytes that a merge sends to the owner that raced (R61), or, at a home, the value with
which an owner answers FWD (R57). -/
def execData (src dst : Nat) (s : State) : Host.Outcome State Fault Refusal :=
  s.onMsg src dst (fun b s => match b with
    | .data w d copy tag => some (if hasL1 dst then s.onData dst w d copy tag else s.portAnswer dst b)
    | .atmData olds fl tag => some (if hasL1 dst then s.onAtmData dst olds fl tag else s.portAnswer dst b)
    | .refill w m d => some (s.onRefill dst w m d)
    | .fwdData w d r => some (s.fwdDone src w r d)
    | _ => none)

/-- A pack is ended with a code: it issues nothing more, and its launch fails unless the end is by its own lanes (R289,
R290). -/
def State.endPack (s : State) (n slot code : Nat) : State :=
  match look (s.core n).packs slot with
  | none => s
  | some p =>
    let e := p.special sprCtxerr
    let e := putFld (if fld e 0 8 = 0 then putFld e 0 8 code else e) 8 8 code
    (s.updCore n (fun c => c.updPack slot (fun p => { (p.setSpecial sprCtxerr e) with ended := true }))).launchError p.launch code

/-- The refusal of a REGW by which the core registered LAZY stores: they never reach the home, and no instruction waits for them, so the
packs that made them end with the code (see the assumption log). -/
def State.refuseStores (s : State) (a w code : Nat) : State :=
  let x := (s.core a).raw w
  let s := s.onFault a w code 0
  if x.st = .pend then x.lz.foldl (fun (s : State) k => s.endPack a k code) s else s

/-- FAULT. -/
def execFaultAnswer (src dst : Nat) (s : State) : Host.Outcome State Fault Refusal :=
  s.onMsg src dst (fun b s => match b with
    | .fault w code tag => some (if !hasL1 dst then s.portAnswer dst b else if tag = 0 then s.refuseStores dst w code else s.onFault dst w code tag)
    | _ => none)

/-- STALE. -/
def execStale (src dst : Nat) (s : State) : Host.Outcome State Fault Refusal :=
  s.onMsg src dst (fun b s => match b with
    | .stale l => some (s.onStale dst l)
    | _ => none)

/-! ### Leases and the time base (R66, R67) -/

/-- LEASE_EXPIRY of a line of core `n` (R66): nothing happens before the lease has run out. -/
def execLeaseExpiry (n line : Nat) (s : State) : Host.Outcome State Fault Refusal :=
  match (s.core n).line line with
  | some l => .next (if l.usable (s.coreT n) then s else s.updCore n (fun c => c.dropLine line))
  | none => .next s

/-- A broadcast of T at time `t` reaches a core, whose own copy differs from it by `d` ns: one that differs by more than 256 ns drops
every COPY word, and so does one that comes more than 256 ns after the last; the core takes the broadcast value (R67). -/
def Core.hearTime (c : Core) (t : Nat) (d : Int) : Core :=
  let c := if 256 < d.natAbs || c.lastBcast + 256 < t then c.dropCopies (fun _ _ => true) else c
  { c with skew := 0, lastBcast := t }

/-- TIME_BASE_BROADCAST at core `n`, whose own copy has run ahead of T by `off` ns more by then (R67). -/
def execTimeBaseBroadcast (n : Nat) (off : Int) (s : State) : Host.Outcome State Fault Refusal :=
  .next (s.updCore n (fun c => c.hearTime s.time (c.skew + off)))

/-- BROADCAST_TIMEOUT of core `n` (R67): no broadcast for more than 256 ns drops every COPY word. -/
def execBroadcastTimeout (n : Nat) (s : State) : Host.Outcome State Fault Refusal :=
  .next (if (s.core n).lastBcast + 256 < s.time then s.updCore n (fun c => c.dropCopies (fun _ _ => true)) else s)

/-- A core's own copy of T passes from `t0` to `t1`: the COPY words of every line whose lease runs out meanwhile are dropped (R66). -/
def Core.expire (c : Core) (t0 t1 : Nat) : Core :=
  c.lines.foldl (fun (c : Core) e =>
    let k := e.2.lk + 6
    let left := (e.2.exp + 65536 - tickAt t0 k) % 65536
    if e.2.usable t0 && decide ((t1 >>> k) - (t0 >>> k) < left) then c else c.dropLine e.1) c

/-- A core's own copy of T runs ahead of T by `ns` more (R67). -/
def State.driftCore (s : State) (n : Nat) (ns : Int) : State :=
  let t := s.updCore n (fun c => { c with skew := c.skew + ns })
  t.updCore n (fun c => c.expire (s.coreT n) (t.coreT n))

/-- The broadcasts stop reaching a core, or reach it again (R67). -/
def State.muteCore (s : State) (n : Nat) (on : Bool) : State := s.updCore n (fun c => { c with mute := on })

/-- Give up all coherence state (R67): OWN words are written back, DIRTY words registered and then written back, COPY words
dropped. -/
def State.giveUp (s : State) (a : Nat) : State :=
  let s := (s.core a).l1.foldl (fun (s : State) e =>
    match e.2.st with
    | .own => s.giveWord a e.1
    | .dirty => s.registerDirty a e.1 e.2.wslot true
    | .pend => s.updCore a (fun c => c.setWord e.1 { e.2 with ev := true })
    | _ => s) s
  s.updCore a (fun c =>
    let c := c.dropCopies (fun _ _ => true)
    { c with lines := c.lines.filter (fun l => (lineWords l.1).any (fun w => (c.raw w).st != L1St.inv)) })

/-- CORE_CLOCK_GATE of core `n` (R67): only with no pack resident, which a service core that is not halted always has; the gate closes once
nothing is registered or asked for. -/
def execCoreClockGate (n : Nat) (s : State) : Host.Outcome State Fault Refusal :=
  if (if n < 64 then !(s.core n).packs.isEmpty else !(s.core n).halted) then .next s
  else
    let t := s.giveUp n
    .next (t.updCore n (fun c => { c with gated := c.l1.isEmpty && c.reads.isEmpty && c.ops.isEmpty }))

/-! ### Loss of an owner (R76) -/

/-- L1_LINE_ERROR (R76): LOSS for the line's OWN words, DATA_UE for every pack with a DIRTY word there, COPY words dropped. -/
def State.l1Error (s : State) (n line : Nat) : State :=
  let c := s.core n
  let own := (lineWords line).filter (fun w => (c.raw w).st == L1St.own)
  let slots := ((lineWords line).filter (fun w => (c.raw w).st == L1St.dirty)).flatMap (fun w => (c.raw w).writers)
  let s := if own.isEmpty then s else s.send n (homeNode (16 * line)) (.loss own)
  let s := s.updCore n (fun c => (lineWords line).foldl (fun c w =>
    if (c.raw w).st = L1St.pend then c else (c.cancel w).setWord w .inv) c)
  slots.dedup.foldl (fun (s : State) k => s.endPack n k fcDataUe) s

/-- A core clamps no line any more (R266). -/
def State.releaseClamps (s : State) (n : Nat) : State :=
  { s with clamps := s.clamps.filterMap (fun e =>
      let l := e.2.filter (fun a => a != n)
      if l.isEmpty then none else some (e.1, l)) }

/-- CORE_QUARANTINE (R76): every home marks the words that the core owns LOST, the hub answers for the core, and its clamps end (R266). -/
def State.quarantine (s : State) (n : Nat) : State :=
  let s := (s.updCore n (fun c => { c with quarantined := true })).releaseClamps n
  let ws := (s.regs.filter (fun e => (regOwners e.2).any (fun o => o.1 == n))).map (fun e => e.1)
  (ws.foldl (fun (s : State) w => s.loseWord n w) s).pump

/-- CORE_QUARANTINE. -/
def execCoreQuarantine (n : Nat) (s : State) : Host.Outcome State Fault Refusal := .next (s.quarantine n)

end Sys2Proof.Machine
end

