-- ==== Sys2Proof/Machine/Registers.lean ====
section
/-! DEFINITION. The special registers that SRD, SWR and SWRP name, with their access rules, and the two instructions SRD and
SWR (R159, R190, R191, R207, R283, R317, R359). -/

namespace Sys2Proof.Machine

/-! ### Identity registers (R283) -/

/-- The sets that a workgroup belongs to, ascending, with its member index and the set's count. -/
def Launch.memberships (l : Launch) (wg : Nat) : List (Nat × Nat × Nat) :=
  (List.range l.sets.length).filterMap (fun i =>
    (l.set i).bind (fun e => (e.indexOf wg).map (fun m => (i, m, e.count))))

/-- K of a launch. -/
def Launch.k (l : Launch) : Nat := l.packs.length

/-- An identity register of a pack of the launch. -/
def Launch.identity (l : Launch) (p : Pack) (agent n : Nat) : Nat :=
  let ms := l.memberships p.wg
  match n with
  | 0x040 => p.wg
  | 0x041 => p.wg % l.gx
  | 0x042 => p.wg / l.gx % l.gy
  | 0x043 => p.wg / l.gx / l.gy
  | 0x044 => l.gx
  | 0x045 => l.gy
  | 0x046 => l.gz
  | 0x047 => p.idx + l.k * 2 ^ 4 + (match l.packs[p.idx]? with | some x => x.2 | none => 3) * 2 ^ 10
  | 0x048 => if l.roles then 96 * l.k else l.threads
  | 0x049 => l.karg.toNat
  | 0x04A => p.launch
  | 0x04B => l.parent
  | 0x04C | 0x04D | 0x04E | 0x04F =>
    match ms[n - 0x04C]? with | some (i, m, _) => i * 2 ^ 20 + m * 2 ^ 28 | none => 2 ^ 64 - 1
  | 0x050 | 0x051 | 0x052 | 0x053 => match ms[n - 0x050]? with | some (_, _, c) => c | none => 0
  | 0x054 => agent
  | _ => 0

/-! ### SRD -/

/-- ESTAT (R359): EXL, the cluster, and the owning partition or 0xFF. -/
def View.estat (v : View) : W64 :=
  let part := match v.s.partOfAgent v.ag with | some p => p | none => 0xFF
  BitVec.ofNat 64 (b2n v.co.exl + (v.ag - 64) * 2 ^ 8 + part * 2 ^ 16)

/-- The value that SRD reads (R190, R283, R359). -/
def View.srdVal (v : View) (n : Nat) : W64 :=
  if v.svc && 0x100 ≤ n then
    match n with
    | 0x100 => v.co.evec
    | 0x101 => v.co.epc
    | 0x102 => v.co.ecause
    | 0x103 => v.co.efva
    | 0x104 => v.co.efinfo
    | _ => v.estat
  else if n = 0x010 then BitVec.ofNat 64 (v.pk.size + v.pk.base * 2 ^ 16)
  else if n = 0x013 then BitVec.ofNat 64 v.spSize
  else if n = 0x030 then BitVec.ofNat 64 (v.s.coreT v.ag)
  else if n = 0x031 then BitVec.ofNat 64 (tickAt (v.s.coreT v.ag) v.pk.tk)
  else if 0x040 ≤ n && n < 0x060 then
    match look v.s.launches v.pk.launch with
    | some l => BitVec.ofNat 64 (l.identity v.pk v.ag n)
    | none => 0
  else v.pk.special n

/-- SRD (R317). -/
def execSrd (c : Ctl) (d : SReg) (num : W32) (s : State) : Host.Outcome State Fault Refusal :=
  issue c [.ds d] (fun v _ => .done (v.putS c d (v.srdVal num.toNat) latU)) s

/-! ### SWR -/

/-- The bits of a register that a write of 1 clears, and those that a write sets (R190, R191, R207, R44, R92, R175). -/
def swrMasks (n : Nat) : W64 × W64 :=
  if n = sprFpf then (0x3FF, 0x10000)
  else if n = sprAfl then (1, 0)
  else if 3 ≤ n && n ≤ 5 then (0xFFFFFFFF, 0)
  else if n = sprViewv || n = sprViewc then (0, 0xFFF)
  else if sprRgn ≤ n && n < sprRgn + 8 then (0, BitVec.allOnes 64)
  else if sprMqch ≤ n && n < sprMqch + 8 then (0, 0x800FFFFFFFFFFFFF)
  else (0, 0)

/-- The value of a register after a write. -/
def swrVal (n : Nat) (old x : W64) : W64 :=
  let (w1c, rw) := swrMasks n
  ((old &&& ~~~(w1c &&& x)) &&& ~~~rw) ||| (x &&& rw)

/-- Write a special register: one that ignores writes keeps its value, and MQCHn empties its CREDITn (R175). -/
def Pack.swr (p : Pack) (n : Nat) (x : W64) : Pack :=
  let q := p.setSpecial n (swrVal n (p.special n) x)
  if sprMqch ≤ n && n < sprMqch + 8 then q.setCredit (n - sprMqch) 0 else q

/-- The split has issued instructions whose flags or lanes are still to be recorded (R208). -/
def View.flagsComing (v : View) : Bool :=
  v.co.divq.any (fun o => o.slot == v.slot && o.split == v.ix) || v.co.sfuq.any (fun o => o.slot == v.slot && o.split == v.ix) ||
  v.co.mq.any (fun o => o.slot == v.slot && o.split == v.ix) || v.co.landing.any (fun o => o.slot == v.slot && o.split == v.ix) ||
  v.co.ops.any (fun o => o.slot == v.slot && o.split == v.ix && (match o.kind with | .atomic => true | _ => false))

/-- SWR (R317): the write is performed at issue, so the split's next instruction sees it. -/
def execSwr (c : Ctl) (num : W32) (a : SReg) (s : State) : Host.Outcome State Fault Refusal :=
  issue c [.s 1 a] (fun v _ =>
    let n := num.toNat
    if 1 ≤ n && n ≤ 5 && v.flagsComing then .wait
    else .done ({ v with pk := v.pk.swr n (v.rs a) }.tokenFor c 1)) s

/-- The bits of a register that are not reserved; the others read as 0 wherever its value comes from (R11, R43, R92, R175, R191, R207,
R350, R351). -/
def sprBits (n : Nat) : W64 :=
  if n = sprCtxcfg then 0x1FFFFF
  else if n = sprCtxerr || n = sprFinfo then 0xFFFFFFFF
  else if n = sprFva then BitVec.allOnes 64
  else if sprCredit ≤ n && n < sprCredit + 8 then 0xFFFF
  else (swrMasks n).1 ||| (swrMasks n).2

/-- The bits of an XROOT that are not reserved: V and BASE (R38). -/
def rootBits : W64 := 0xFFFFFFFFC001

/-! ### SWRP (R356, R359, R369) -/

/-- CTXCFG as a service core writes it: REL stays 0, and reserved bits stay 0 (R351, R356). -/
def svcCtxcfg (x : W64) : W64 := x &&& 0x1FDFFF

/-- SWRP. -/
def execSwrp (c : Ctl) (num : W32) (a : SReg) (s : State) : Host.Outcome State Fault Refusal :=
  issue c [.s 1 a] (fun v _ =>
    let x := v.rs a
    let w := match num.toNat with
      | 0x000 => { v with pk := v.pk.setSpecial sprCtxcfg (svcCtxcfg x) }
      | 0x100 => { v with co := { v.co with evec := x &&& ~~~3#64 } }
      | 0x101 => { v with co := { v.co with epc := x } }
      | 0x105 => { v with co := { v.co with exl := bit x 0 } }
      | _ => v
    .done (w.tokenFor c 1)) s

end Sys2Proof.Machine
end

