-- ==== Sys2Proof/Machine/Control.lean ====
section
/-! DEFINITION. The control instructions, and the events among the splits of a pack: arrival at a heel, splits that meet,
forced reconvergence and the two timers of issue (R295-R313, R337). -/

namespace Sys2Proof.Machine

/-- A PC-relative target (R306). -/
def View.rel (v : View) (off : W32) : W64 := v.sp.pc + off.signExtend 64

/-- BRA (R307). -/
def execBra (c : Ctl) (cond : BCond) (a : SReg) (off : W32) (s : State) : Host.Outcome State Fault Refusal :=
  issue c (match cond with | .always => [] | _ => [.s 1 a]) (fun v _ =>
    let take := match cond with | .always => true | .nz => v.rs a != 0 | .z => v.rs a == 0
    .jump (v.tokenFor c 1) (if take then v.rel off else v.succ c)) s

/-- CALL: the link is the sequential successor; CALL.V writes it in the lanes of ACT (R310). -/
def execCall (c : Ctl) (d : Link) (off : W32) (s : State) : Host.Outcome State Fault Refusal :=
  issue c (match d with | .s r => [.ds r] | .w r => [.dv true r]) (fun v m =>
    let link := v.succ c
    let w := match d with
      | .s r => v.putS c r link latU
      | .w r => v.putV c true r m (List.replicate 96 link) latVI
    .jump w (v.rel off)) s

/-- RET: to the link, or to that of the lowest lane of ACT (R311). -/
def execRet (c : Ctl) (a : Link) (s : State) : Host.Outcome State Fault Refusal :=
  issue c (match a with | .s r => [.s 1 r] | .w r => [.v 1 true r]) (fun v m =>
    let t := match a with
      | .s r => v.rs r
      | .w r => v.rv true r ((lowest m).getD 0)
    .jump (v.tokenFor c 1) t) s

/-! ### Divergence (R296, R297, R308, R309) -/

/-- The view when every token of its split is ready, or none while it must wait (R115). -/
def View.tokensReady (v : View) : Option View :=
  (v.tokensAt 0x3F).map (fun t => { v with now := t }.settle)

/-- The entries whose last use the instruction is are dead (R118). -/
def View.markDead (v : View) : View := { v with dead := [], sp := { v.sp with win := v.winDead } }

/-- Divide the split (R296): the first path keeps the entry and what is owned outside the mask. -/
def View.split (v : View) (c : Ctl) (heel : W64) (first : Path) (rest : List Path) : State :=
  let w := (v.tokenFor c 1).markDead.flush.finish c first.pc
  let p := w.pk.setSplit w.ix (some w.sp)
  let p := p.diverge w.ix w.sp.next heel first rest
  match p.split w.ix with
  | some x => { w with pk := p, sp := x }.close
  | none => w.close

/-- The tokens that a BRV waits for beside WAITM: all of them where it diverges by the guard as it stands once WAITM is over (R115). The
wait depends on the guard, which R112 has read after every wait: it is read then again (see the assumption log). -/
def State.brvWaits (s : State) (c : Ctl) : BitVec 6 :=
  match s.view.bind (fun v => v.ready c 0 []) with
  | some v => let m := v.act c.guard; if m != 0 && m != v.sp.mask then 0x3F else 0
  | none => 0

/-- BRV (R308). -/
def execBrv (c : Ctl) (off heel : W32) (s : State) : Host.Outcome State Fault Refusal :=
  issueW c c.guard (s.brvWaits c) [] false (fun v m =>
    let f := v.sp.mask &&& ~~~m
    if f = 0 then .jump (v.tokenFor c 1) (v.rel off)
    else
      match v.tokensReady with
      | none => .wait
      | some v =>
        let p := v.pk.setSplit v.ix (some v.sp)
        if !p.roomFor 2 then .state (v.raise (v.faultRec fcDivergenceDepth 0 0 0 0 127 0))
        else
          .state (v.split c (v.rel heel) ⟨v.succ c, v.sp.owned &&& ~~~m, f⟩ [⟨v.rel off, m, m⟩])) s

/-- The lanes grouped by target, in the order of the lowest index that names each (R309). -/
def brxGroups (xs : List (Nat × Nat × W64)) : List (W64 × Mask) :=
  let sorted := sortBy (fun x y => decide (x.2.1 ≤ y.2.1)) xs
  let ts := sorted.foldl (fun (ts : List W64) x => if ts.contains x.2.2 then ts else ts ++ [x.2.2]) []
  ts.map (fun t => (t, maskList ((xs.filter (fun x => x.2.2 == t)).map (fun x => x.1))))

/-- The index of a lane of a BRX: the one by which it asked for its target, or the register's. -/
def View.brxIdx (v : View) (a : VSrc) (L : Nat) : Nat :=
  match v.sp.tidx.find? (fun e => e.1 == L) with | some e => e.2 | none => (v.rv false a.reg L).toNat

/-- BRX (R309): the indexes are read and checked and the table is read by plain loads, and the branch is made once its values are there. -/
def execBrx (c : Ctl) (a : VSrc) (tab len : SReg) (heel : W32) (s : State) : Host.Outcome State Fault Refusal :=
  issue c [useV 1 false a, .s 2 tab, .s 3 len] (fun v m =>
    let idx (L : Nat) : Nat := v.brxIdx a L
    let n := (v.rs len).toNat % 2 ^ 32
    let bad := (lanesOf m).filter (fun L => decide (n ≤ idx L))
    match bad with
    | L :: _ =>
      .state ({ v with pk := v.pk.setLex 0 }.raise
        (v.faultRec fcBrxRange (BitVec.ofNat 64 (idx L)) 0 0 kRead L (maskList bad)))
    | [] =>
      if v.sp.tab.isEmpty then
        v.loadWith (fun w o act => ({ w with sp := { w.sp with tidx := (lanesOf m).map (fun L => (L, idx L)) } } : View).beginHere o act)
          .table .n64 false false false 0 .none
          ((lanesOf m).map (fun L => (L, (v.rs tab + BitVec.ofNat 64 (8 * idx L)).toNat)))
      else
        let gs := brxGroups ((lanesOf m).map (fun L =>
          (L, idx L, match v.sp.tab.find? (fun e => e.1 == L) with | some e => e.2 | none => 0)))
        let w : View := { v.lastUse false a m with sp := { v.sp with tab := [], tidx := [] } }
        match gs with
        | [] => .done w
        | [(t, _)] => .jump (w.tokenFor c 1) t
        | (t, g) :: rest =>
          match w.tokensReady with
          | none => .wait
          | some w =>
            let p := w.pk.setSplit w.ix (some w.sp)
            if !p.roomFor gs.length then
              .state (w.raise (w.faultRec fcDivergenceDepth 0 0 0 0 127 0))
            else
              .state (w.split c (v.rel heel) ⟨t, (w.sp.owned &&& ~~~w.sp.mask) ||| g, g⟩
                (rest.map (fun e => ⟨e.1, e.2, e.2⟩)))) s

/-! ### Ending lanes (R300, R312) -/

/-- The split in entry `i` owns nothing that runs: it ends, and its records count one path fewer (R300). -/
def Pack.endSplit (p : Pack) (i t : Nat) : Pack :=
  match p.split i with
  | none => p
  | some x =>
    let p := (p.retire i x.owned).drainFiles i
    (p.vanish x.heelRec t 16).freeEntry i t

/-- The pack ends once no lane is left (R289). -/
def Pack.endIfEmpty (p : Pack) : Pack := if p.live = 0 then { p with ended := true } else p

/-- The lanes of ACT leave their split, and the pack (R312); the split's operand window leaves too (R118). -/
def View.exitLanes (v : View) (c : Ctl) (m : Mask) : State :=
  let w := (v.tokenFor c 1).flush.finish c (v.succ c)
  let p := (w.pk.setSplit w.ix (some w.sp)).retire w.ix m
  let p := match p.split w.ix with
    | some x => if x.mask = 0 then p.endSplit w.ix (w.now + 1) else p
    | none => p
  w.s.setCore w.ag { w.co with packs := ins w.co.packs w.slot p.endIfEmpty }

/-- EXIT (R312). On a service core it enters the handler with cause 0x21 (R357). -/
def execExit (c : Ctl) (s : State) : Host.Outcome State Fault Refusal :=
  issue c [] (fun v m =>
    if v.svc then
      if v.co.drained then .trap (v.tokenFor c 1) (v.faultRec 0x21 0 0 0 0 127 0) else .wait
    else .state (v.exitLanes c m)) s

/-! ### SYNC, WAITQ, YIELD, NOP (R304, R313) -/

/-- SYNC. -/
def execSync (c : Ctl) (s : State) : Host.Outcome State Fault Refusal :=
  issueWide c [] (fun v _ => .done (v.tokenFor c 1)) s

/-- WAITQ: its waits come before the guard. -/
def execWaitq (c : Ctl) (all : Bool) (s : State) : Host.Outcome State Fault Refusal :=
  issueW c c.guard (if all then 0x3F else 0) [] false (fun v _ => .done v) s

/-- The split gives up the pack's issue for the cycle after it (R302, R313): no split of the pack issues before two cycles later,
and the fairness count starts again. -/
def View.yieldIssue (v : View) (c : Ctl) : State :=
  let w := (v.tokenFor c 1).finish c (v.succ c)
  let late (x : Split) : Split := { x with next := max x.next (w.now + 2) }
  let p := (List.range 4).foldl (fun (p : Pack) i => p.updSplit i late) w.pk
  { w with pk := { p with fairCount := 0 }, sp := late w.sp }.close

/-- YIELD. -/
def execYield (c : Ctl) (s : State) : Host.Outcome State Fault Refusal := issue c [] (fun v _ => .state (v.yieldIssue c)) s

/-- NOP. -/
def execNop (c : Ctl) (s : State) : Host.Outcome State Fault Refusal :=
  issue c [] (fun v _ => .done (v.tokenFor c 1)) s

/-! ### Splits that meet -/

/-- A split at a site with every token ready, its results performed; none while it has not passed a fault horizon. -/
def State.quietAt (s : State) (p : Site) : Option View :=
  (s.viewAt p).bind (fun v =>
    if v.sp.hold.isSome || v.sp.sec.isSome || v.pk.stop.isSome || v.pk.ended then none else v.tokensReady)

/-- The split stands at the heel of its innermost record (R298). -/
def View.atHeel (v : View) : Bool :=
  match v.sp.heelRec.bind (fun k => v.pk.heel k) with
  | some h => v.sp.pc == h.pc
  | none => false

/-- HEEL_ARRIVAL (R298). -/
def execHeelArrival (n slot i : Nat) (s : State) : Host.Outcome State Fault Refusal :=
  match s.quietAt ⟨n, slot, i⟩ with
  | none => .next s
  | some v =>
    if v.atHeel && (match v.sp.st with | .ready => true | .reconv => true | _ => false) then
      let p := (v.pk.setSplit v.ix (some v.sp)).arrive v.ix v.now
      .next (v.s.setCore n { v.co with packs := ins v.co.packs slot p })
    else .next s

/-- The sibling of split `i` that has stood READY longest (R302). -/
def Pack.longestReady (p : Pack) (i : Nat) : Option Nat :=
  ((List.range 4).foldl (fun (b : Option (Nat × Nat)) j =>
    if j = i then b
    else match p.split j with
      | some y =>
        if y.st = SState.ready then
          (match b with | some (t, _) => if y.since < t then some (y.since, j) else b | none => some (y.since, j))
        else b
      | none => b) none).map (fun e => e.2)

/-- A split has issued 64 words in a row while siblings stand READY: the pack's next issue is that of the one that has waited longest, and
no other split's (R302). -/
def View.mustYield (v : View) : Bool :=
  v.pk.stop.isNone && decide (64 ≤ v.pk.fairCount) && (match v.pk.longestReady v.pk.fairSplit with | some j => j != v.ix | none => false)

/-- Split `p`, selected to issue, meets split `j` of its pack (R299): both are READY at one PC with one innermost record and ready
tokens. The views of both, every due write performed. -/
def State.meets (s : State) (p : Site) (j : Nat) : Option (View × View) :=
  match s.quietAt p with
  | none => none
  | some v =>
    let t := v.s.setCore p.agent { v.co with packs := ins v.co.packs p.slot (v.pk.setSplit v.ix (some v.sp)) }
    match t.quietAt ⟨p.agent, p.slot, j⟩ with
    | none => none
    | some w =>
      if p.split != j && v.canIssue && !v.atHeel && !v.mustYield && decide (v.sp.st = SState.ready) && decide (w.sp.st = SState.ready) &&
          v.sp.pc == w.sp.pc && v.sp.heelRec == w.sp.heelRec then some (v, w)
      else none

/-- SPLIT_MEET (R299): split `i`, selected to issue, meets split `j`, READY at the same PC with the same record. -/
def execSplitMeet (n slot i j : Nat) (s : State) : Host.Outcome State Fault Refusal :=
  match s.meets ⟨n, slot, i⟩ j with
  | none => .next s
  | some (v, w) =>
    let p := ((w.pk.setSplit j (some w.sp)).mergeInto i j (max v.now w.now)).pendDec v.sp.heelRec
    .next (w.s.setCore n { w.co with packs := ins w.co.packs slot p })

/-- FORCED_RECONVERGENCE (R303): a split in RECONV whose siblings are settled takes the splits that stand at its PC with
it; its instruction then issues over their union, which its issue forms again. -/
def execForcedReconvergence (n slot i : Nat) (s : State) : Host.Outcome State Fault Refusal :=
  match s.viewAt ⟨n, slot, i⟩ with
  | none => .next s
  | some v =>
    if v.sp.st = SState.reconv && v.pk.stop.isNone && v.pk.allSettled i v.sp.pc then
      let t := v.reconverge.close
      .next { t with agenda := .issue ⟨n, slot, i⟩ :: t.agenda }
    else .next s

/-- FAIRNESS_TIMER (R302): at 64 the sibling that has waited longest takes the pack's next issue. -/
def execFairnessTimer (n slot : Nat) (s : State) : Host.Outcome State Fault Refusal :=
  match look (s.core n).packs slot with
  | none => .next s
  | some p =>
    if p.fairCount < 64 then .next s
    else
      match p.longestReady p.fairSplit with
      | none => .next s
      | some j =>
        let t := s.updCore n (fun c => c.updPack slot (fun p => { p with fairCount := 0 }))
        .next { t with agenda := .issue ⟨n, slot, j⟩ :: t.agenda }

end Sys2Proof.Machine
end

