-- ==== Sys2Proof/Machine/Stops.lean ====
section
/-! DEFINITION. How a pack leaves its instruction stream: SVC, TRAP and BKPT, the stop of a pack with its kennel record, its
resumption, and the watchdog (R102, R338-R354). -/

namespace Sys2Proof.Machine

/-! ### The kennel (R341) -/

/-- A kennel record before its lanes are done. -/
structure KRec where
  kind : Nat
  flags : Nat
  core : Nat
  slot : Nat
  split : Nat
  code : Nat
  vb : Nat
  lanes : Mask
  pc : W64
  fva : W64
  finfo : W64
  launch : Nat
  asid : Nat
  heel : Nat
  deriving DecidableEq, Repr

/-- The 64 bytes of a record. -/
def KRec.toBytes (r : KRec) : List Byte :=
  bytesOf 1 r.kind ++ bytesOf 1 r.flags ++ bytesOf 1 r.core ++ bytesOf 1 r.slot ++ bytesOf 1 r.split ++ bytesOf 1 r.code ++
  bytesOf 2 r.vb ++ bytesOf 12 r.lanes.toNat ++ bytesOf 12 0 ++ bytesOf 8 r.pc.toNat ++ bytesOf 8 r.fva.toNat ++
  bytesOf 8 r.finfo.toNat ++ bytesOf 4 r.launch ++ bytesOf 2 r.asid ++ bytesOf 1 r.heel ++ bytesOf 1 0

/-- Where entry `e` of a core's kennel lies in its array. -/
def Core.kennel (c : Core) (e : Nat) : Nat := c.sysBase + 64 * e

/-- A field of a kennel entry. -/
def Core.kfield (c : Core) (e off n : Nat) : Nat := c.spNum (c.kennel e + off) n

/-- LANES and DONE of an entry. -/
def Core.klanes (c : Core) (e : Nat) : Mask := BitVec.ofNat 96 (c.kfield e 8 12)
def Core.kdone (c : Core) (e : Nat) : Mask := BitVec.ofNat 96 (c.kfield e 20 12)

/-- Free an entry. -/
def Core.kfree (c : Core) (e : Nat) : Core := c.spPut (c.kennel e) [0]

/-- A free shared entry (R341). -/
def Core.freeShared (c : Core) : Option Nat := ((List.range 8).map (fun i => 24 + i)).find? (fun e => c.kfield e 0 1 == 0)

/-- Tell the service core of a record in entry `e` of core `n` (R348, R368). -/
def State.signal (s : State) (n e : Nat) : State := s.postEvent (n / 2) ⟨2, n % 2, 32 * (n % 2) + e, 0, 0, 0⟩

/-! ### SVC, TRAP, BKPT (R338-R340, R347, R357) -/

/-- The pack has queued matrix instructions (R275). -/
def View.matrixBusy (v : View) : Bool := v.co.mq.any (fun m => m.slot == v.slot)

/-- The pins of a slot are released, and its users leave the entries (R275). -/
def Core.unpin (c : Core) (slot : Nat) : Core :=
  { c with stage := c.stage.map (fun (e : StageEntry) => { e with pins := e.pins.filter (fun k => k != slot) }) }

/-- The heel that SVC.EACH takes: the record's entry, and the pack with it (R340). -/
def View.svcHeel (v : View) (each : Bool) (heel : W32) : Option (Option Nat × View) :=
  if !each then some (none, v)
  else
    match v.pk.freeHeel with
    | none => none
    | some k =>
      some (some k, { v with
        pk := v.pk.setHeel k (some ⟨v.rel heel, 1, v.sp.heelRec, none⟩)
        sp := { v.sp with heelRec := some k } })

/-- The record of an SVC in shared entry `e` is written, the split parks in it, and the service core is told (R340, R341). The pack's
pins and clamps end (R275), and so do its reservations (R148). -/
def View.svcPark (v : View) (c : Ctl) (each : Bool) (vb : VReg) (m : Mask) (e : Nat) (h : Option Nat) : State :=
  let r : KRec := ⟨1, b2n each, v.ag, v.slot, v.ix, 0, v.vrow vb, m, v.sp.pc, 0, 0, v.pk.launch, v.pk.asid,
    match h with | some k => k | none => 0xFF⟩
  let (v, tok) := v.tokenV c
  let co := (v.co.spPut (v.co.kennel e) r.toBytes).unpin v.slot
  ((({ v with co := co, pk := v.pk.noResv } : View).park c (.svc e h tok)).reapStage v.ag).signal v.ag e

/-- SVC of a pack (R340). -/
def View.svcCall (v : View) (c : Ctl) (each : Bool) (vb : VReg) (heel : W32) (m : Mask) : Res :=
  let row := v.row (v.vrow vb)
  let bad := maskOf (fun L => m.getLsbD L && fld (lane row L) 16 16 != 0)
  match lowest bad with
  | some L => .state ({ v with pk := v.pk.setLex 0 }.raise (v.faultRec fcSvcRecord 0 0 0 0 L bad))
  | none =>
    if each && v.pk.freeHeel.isNone then .fault (v.faultRec fcDivergenceDepth 0 0 0 0 127 0)
    else
      match v.co.freeShared with
      | none => .wait
      | some e =>
        if v.matrixBusy then .wait
        else
          match v.release .device true with
          | .wait => .wait
          | .hold v => .hold v
          | .go v =>
            match v.svcHeel each heel with
            | none => .fault (v.faultRec fcDivergenceDepth 0 0 0 0 127 0)
            | some (h, v) => .state (v.svcPark c each vb m e h)

/-- SVC (R340); on a service core it enters the handler with cause 0x20 (R357). -/
def execSvc (c : Ctl) (each : Bool) (vb : VReg) (heel : W32) (s : State) : Host.Outcome State Fault Refusal :=
  if 64 ≤ s.cur.agent then
    issue c [] (fun v _ => if v.co.drained then .trap (v.tokenFor c 1) (v.faultRec 0x20 0 0 0 0 127 0) else .wait) s
  else issueG c [(c.guard, [.v 1 false vb])] 0 (fun _ => [.vs 1 vb 6]) false (fun v m => v.svcCall c each vb heel m) s

/-- TRAP (R347). -/
def execTrap (c : Ctl) (code : BitVec 16) (s : State) : Host.Outcome State Fault Refusal :=
  issue c [] (fun v _ =>
    if v.svc && !v.co.drained then .wait
    else .trap (v.tokenFor c 1) (v.faultRec fcTrap (code.setWidth 64) 0 0 0 127 0)) s

/-- BKPT (R347). -/
def execBkpt (c : Ctl) (s : State) : Host.Outcome State Fault Refusal :=
  issue c [] (fun v _ =>
    if v.svc && !v.co.drained then .wait
    else .trap (v.tokenFor c 1) (v.faultRec fcBreak 0 0 0 0 127 0)) s

/-! ### The stop (R102, R348, R349, R354) -/

/-- Instructions of the pack of a slot are under way (R348): operations, results on their way to a register, queued
matrix instructions, those whose operands are still fetched among them, and instructions of several steps that have begun. -/
def State.packBusy (s : State) (n slot : Nat) : Bool :=
  let c := s.core n
  let begun : Bool := match look c.packs slot with
    | some p => (List.range 4).any (fun i => match p.split i with | some y => y.begun c slot i p.stop | none => false)
    | none => false
  begun || c.ops.any (fun m => m.slot == slot) || c.landing.any (fun x => x.slot == slot) || c.divq.any (fun x => x.slot == slot) ||
  c.sfuq.any (fun x => x.slot == slot) || c.mq.any (fun m => m.slot == slot && m.staged)

/-- The same, with messages and transfer records that have not been accepted. -/
def State.packSending (s : State) (n slot : Nat) : Bool :=
  s.remotes.any (fun (r : Remote) => r.agent == n && r.slot == slot && r.xfer.isNone) ||
  s.xfers.any (fun (x : Xfer) => x.agent == n && x.slot == slot && x.stage == XStage.offered)

/-- The last cycle at which a result of the pack is performed. -/
def Pack.lastDue (p : Pack) : Nat :=
  let ds := p.splits.flatMap (fun x => match x with
    | some (y : Split) => y.pw.map (fun w => w.due) ++ y.win.map (fun e => e.due)
    | none => [])
  (ds ++ p.late.map (fun e => e.due)).foldl max 0

/-- Every result is performed, and every operand window has left (R348). -/
def Pack.quieten (p : Pack) (t : Nat) : Pack :=
  let q := p.settle (max t p.lastDue)
  (List.range 4).foldl (fun (q : Pack) i => q.flushAt i (max t p.lastDue)) q

/-- The words a release of the whole pack still has to register (R102): it asks for them, and answers none once the last
is granted. -/
def State.releasing (s : State) (n slot : Nat) : Option State :=
  let dirty := (s.core n).dirtyOf slot
  if !dirty.isEmpty then some (dirty.foldl (fun (s : State) w => s.registerDirty n w slot false) s)
  else
    match look (s.core n).packs slot with
    | some p => if p.preg ≠ 0 || !((s.core n).carried slot).isEmpty then some s else none
    | none => none

/-- A split leaves its wait, to run its instruction again; one parked in SVC stays (R348). -/
def Split.leaveWait (x : Split) (t : Nat) : Split :=
  match x.st with
  | .waiting (.svc _ _ _) => { x with hold := none, xl := [], phase := 0, tab := [], tidx := [] }
  | .waiting _ => { x with st := .ready, rerun := true, since := t, tok := [0, 0, 0, 0, 0, 0], hold := none, xl := [], phase := 0, tab := [], tidx := [] }
  | _ => { x with tok := [0, 0, 0, 0, 0, 0], hold := none, xl := [], phase := 0, tab := [], tidx := [] }

/-- Change every split of a pack. -/
def Pack.mapSplits (p : Pack) (f : Split → Split) : Pack := { p with splits := p.splits.map (fun x => x.map f) }

/-- The faults that the splits of a pack recorded beside the primary one, in table order (R349). -/
def Pack.secondary (p : Pack) : List FaultRec :=
  p.splits.filterMap (fun x => x.bind (fun (y : Split) => y.sec))

/-- CTXERR after a primary fault (R350). -/
def latchErr (e : W64) (code : Nat) : W64 :=
  let e := if fld e 0 8 = 0 then putFld e 0 8 code else e
  let n := fld e 16 16
  putFld (putFld e 8 8 code) 16 16 (if n = 0xFFFF then n else n + 1)

/-- The record of step 6, and the registers that a FAULT record goes with (R348, R354). -/
def State.recordStop (s : State) (n slot : Nat) (p : Pack) (x : Stop) : State :=
  let c := s.core n
  let put (p : Pack) (r : KRec) : State :=
    let c := (({ c with packs := ins c.packs slot p } : Core).spPut (c.kennel slot) r.toBytes)
    (s.setCore n c).signal n slot
  let stopped := { p with stop := some { x with done := true } }
  match x.fault with
  | some f =>
    let q := (((stopped.setSpecial sprCtxerr (latchErr (p.special sprCtxerr) f.code)).setSpecial sprFva f.fva).setSpecial
      sprFinfo f.finfo)
    put q ⟨2, 0, n, slot, x.split, f.code, 0, f.lex, f.pc, f.fva, f.finfo, p.launch, p.asid, 0xFF⟩
  | none =>
    let code := match p.secondary with | f :: _ => f.code | [] => 0
    put stopped ⟨3, 0, n, slot, 0, code, 0, 0, 0, 0, 0, p.launch, p.asid, 0xFF⟩

/-- Take a stop as far as it can go now (R348): everything issued completes, the windows leave, the pack releases, parked
splits leave their waits, and the record is written. -/
def State.stopPack (s : State) (n slot : Nat) : State :=
  match look (s.core n).packs slot with
  | none => s
  | some p =>
    match p.stop with
    | none => s
    | some x =>
      if x.done || s.packBusy n slot || s.packSending n slot then s
      else
        match s.releasing n slot with
        | some t => t
        | none =>
          let c := s.core n
          let c := (c.bumpEco slot true).unpin slot
          let c : Core := { c with
            grow := c.grow.filter (fun g => g.slot != slot), fetches := c.fetches.filter (fun f => f.slot != slot)
            mq := c.mq.filter (fun m => m.slot != slot) }
          let p := ((p.quieten c.cycle).mapSplits (fun y => y.leaveWait c.cycle)).noResv
          ((s.setCore n c).reapStage n).recordStop n slot p x

/-- STOP_COMPLETE (R348); a service core whose instructions are complete enters its handler (R358). -/
def execStopComplete (n slot : Nat) (s : State) : Host.Outcome State Fault Refusal :=
  if 64 ≤ n then
    match s.viewAt ⟨n, slot, 0⟩ with
    | some v =>
      match v.pk.stop with
      | some x =>
        (match x.fault with
          | some f => .next (if v.co.drained then v.enter f.code f.pc f.fva f.finfo else s)
          | none => .next s)
      | none => .next s
    | none => .next s
  else .next (s.stopPack n slot)

/-- The acquire of R102 and R282: the whole L1 of the core, and its instruction buffer. -/
def Core.acquireAll (c : Core) : Core := { (c.dropCopies (fun _ _ => true)) with ibuf := [] }

/-- The LEX bits of the lanes that run again are cleared (R349). -/
def Pack.lexAgain (p : Pack) : Pack :=
  let again := p.splits.foldl (fun (m : Mask) x => match x with | some (y : Split) => m ||| y.replay.getD 0 | none => m) 0
  if again = 0 then p else p.setLex (p.lex &&& ~~~again)

/-- Resume a stopped resident pack (R349, R354): its faults are recovered, the LEX bits of the lanes that run again are
cleared, and the pack acquires. -/
def State.resumePack (s : State) (n slot : Nat) : State :=
  s.updCore n (fun c =>
    let c := c.acquireAll.kfree slot
    c.updPack slot (fun p =>
      { (p.lexAgain.mapSplits (fun y => { y with sec := none, rerun := false, next := max y.next c.cycle, since := c.cycle })) with stop := none }))

/-! ### Resumption of an SVC (R346) -/

/-- The lanes of a group have their results: the split, or a new split, goes on (R346). A pack that is stopped keeps its split parked until
all its calling lanes have theirs (R354). -/
def Pack.svcResume (p : Pack) (i t : Nat) (each : Bool) (heel : Option Nat) (tok : Option Nat) (g lanes done : Mask) : Pack :=
  match p.split i with
  | none => p
  | some x =>
    if !each then (if done = lanes then (p.wake i t).tokDown i tok else p)
    else
      -- the calling lanes still in S whose results had not been delivered before G
      let waiting := lanes &&& x.owned &&& ~~~(done &&& ~~~g)
      if waiting &&& ~~~g = 0 then (p.wake i t).tokDown i tok
      else if (match p.stop with | some y => y.done | none => false) then p
      else
        match p.freeSplit with
        | none => p
        | some j =>
          let p := p.updSplit i (fun x => { x with owned := x.owned &&& ~~~g, mask := x.mask &&& ~~~g })
          let p := p.place j t x.after g g heel
          match heel.bind (fun k => (p.heel k).map (fun h => (k, h))) with
          | some (k, h) => p.setHeel k (some { h with pending := h.pending + 1 })
          | none => p

/-! ### The watchdog (R352) -/

/-- The split is in a state that the watchdog measures. -/
def Split.watched (x : Split) : Bool :=
  match x.st with
  | .reconv => true
  | .waiting (.waita _ _ _ _ _ dl _) => dl.isNone
  | .waiting (.barwait _ _ _) => true
  | .waiting (.msgrecv _ _ _ _) => true
  | .waiting (.msgsend _) => true
  | .waiting (.xfer _ _) => true
  | _ => false

/-- WATCHDOG of a split: once it has waited for 2^(WD + 6) µs it faults at its waiting instruction. -/
def execWatchdog (n slot i : Nat) (s : State) : Host.Outcome State Fault Refusal :=
  match s.viewAt ⟨n, slot, i⟩ with
  | none => .next s
  | some v =>
    if v.sp.watched && v.pk.wd ≠ 0 && v.pk.stop.isNone && !v.pk.ended &&
        decide (v.sp.waited + 2 ^ (v.pk.wd + 6) * 1000 ≤ s.time) then
      .next (v.raise0 fcWatchdog)
    else .next s

end Sys2Proof.Machine
end

