-- ==== Sys2Proof/Machine/Launch.lean ====
section
/-! DEFINITION. Launches and workgroups: the fit rule, the distributor, how a pack starts and ends, a launch's completion, and
register requests (R157, R168, R276-R293, R315, R316, R333, R335). -/

namespace Sys2Proof.Machine

/-- The workgroups of a launch (R276). -/
def Launch.total (l : Launch) : Nat := l.gx * l.gy * l.gz

/-! ### The fit rule (R284) -/

/-- Rows of the varying space (R185). -/
def spaceRows : Nat := 2730

/-- The lowest start of a free run of `n` within `size`, given the runs in use. -/
def lowestRun (size n : Nat) (used : List (Nat × Nat)) : Option Nat :=
  let starts := sortBy (fun x y => decide (x ≤ y)) (0 :: used.map (fun u => u.1 + u.2))
  starts.find? (fun b => decide (b + n ≤ size) && used.all (fun u => decide (b + n ≤ u.1) || decide (u.1 + u.2 ≤ b)))

/-- The rows that the packs of a core hold. -/
def Core.usedRows (c : Core) : List (Nat × Nat) := c.packs.map (fun e => (e.2.base, e.2.size))

/-- The rows that no pack holds. -/
def Core.freeRows (c : Core) : Nat := spaceRows - (c.usedRows.map (fun u => u.2)).foldl (· + ·) 0

/-- The first rows for packs of the sizes given, each the lowest free run in what the earlier ones leave. -/
def rowRuns : List Nat → List (Nat × Nat) → Option (List Nat)
  | [], _ => some []
  | n :: ns, used =>
    match lowestRun spaceRows n used with
    | none => none
    | some b => (rowRuns ns (used ++ [(b, n)])).map (fun bs => b :: bs)

/-- The free slots of a core, ascending. -/
def Core.freeSlots (c : Core) : List Nat := (List.range 24).filter (fun k => (look c.packs k).isNone)

/-- The scratchpad of a split, below the system region (R155). -/
def spUsable (spsz : Nat) : Nat := (match spsz with | 0 => 262144 | 2 => 524288 | _ => 393216) - 16384

/-- Where a workgroup goes on a core: its slots, the first rows of its windows, and its scratchpad window. -/
structure Place where
  core : Nat
  slots : List Nat
  bases : List Nat
  sp : Nat
  deriving DecidableEq, Repr

/-- A transfer, an append or an arrival into the core's scratchpad is in flight (R156). -/
def State.spTraffic (s : State) (n : Nat) : Bool :=
  s.xfers.any (fun (x : Xfer) => match s.findWin x.launch x.wg with | some (k, _) => k == n | none => false) ||
  s.remotes.any (fun (r : Remote) => match s.findWin r.launch r.wg with | some (k, _) => k == n | none => false)

/-- CORE_SRAM.BUSY (R156). -/
def State.coreBusy (s : State) (n : Nat) : Bool :=
  !(s.core n).packs.isEmpty || !(s.core n).wins.isEmpty || s.spTraffic n

/-- CLU_STAT.ST of a cluster (R408). -/
def cluStat (n : Nat) : Nat := 0x1D_0100 + 8 * n
def State.clusterSt (s : State) (n : Nat) : Nat := fld (s.mreg 0 (cluStat n)) 0 2

/-- The core is eligible for a launch with split `spsz` (R284). -/
def State.eligible (s : State) (n spsz : Nat) : Bool :=
  s.clusterSt (n / 2) == 2 && !(s.core n).quarantined && ((s.core n).spsz == spsz || !s.coreBusy n)

/-- Whether and where the packs of the row counts given, with a window of `sp` bytes, fit on a core (R284). -/
def State.fits (s : State) (n spsz sp : Nat) (rows : List Nat) : Option Place :=
  let c := s.core n
  if !s.eligible n spsz then none
  else
    let free := c.freeSlots
    if free.length < rows.length then none
    else
      match rowRuns rows c.usedRows, lowestRun (spUsable spsz) sp (c.wins.map (fun w => (w.base, w.size))) with
      | some bs, some b => some ⟨n, free.take rows.length, bs, b⟩
      | _, _ => none

/-! ### A change of the split (R157) -/

/-- Rewrite a core's split: the L1 gives up its state, the array is cleared, and the system region moves to the new top with what is
poisoned of it (R34). The core issues nothing for 2,048 cycles. -/
def State.changeSplit (s : State) (n spsz : Nat) : State :=
  if (s.core n).spsz = spsz then s
  else
    (s.giveUp n).updCore n (fun c =>
      let lo := c.sysBase
      let sys := (c.sp.filter (fun e => decide (lo ≤ e.1))).map (fun e => (e.1 - lo, e.2))
      let bad := (c.spbad.filter (fun e => decide (lo ≤ 8 * e.1))).map (fun e => (e.1 - lo / 8, e.2))
      let c : Core := { c with spsz := spsz, sp := [], spbad := [], quietUntil := c.cycle + 2048 }
      { c with sp := sys.map (fun e => (c.sysBase + e.1, e.2)), spbad := bad.map (fun e => (c.sysBase / 8 + e.1, e.2)) })

/-! ### A pack at its start (R277, R282) -/

/-- The launch mask of pack `k`. -/
def Launch.mask (l : Launch) (k : Nat) : Mask :=
  if l.roles then BitVec.allOnes 96 else maskOf (fun L => decide (96 * k + L < l.threads))

/-- Bits of CTXCFG that the descriptor gives (R351). -/
def ctxcfgMask : W64 := 0x1FFFFF

/-- Pack `k` of a workgroup as it starts. -/
def Launch.newPack (l : Launch) (id wg k base gen : Nat) : Pack :=
  let m := l.mask k
  let role := match l.packs[k]? with | some x => x | none => (0, 3)
  let p : Pack := { (Pack.start l.entry m) with
    launch := id, wg := wg, idx := k, gen := gen, base := base, size := role.1, asid := l.asid, root := l.root }
  let p := (p.setSpecial sprCtxcfg (l.cfg &&& ctxcfgMask)).setSpecial sprViewv (BitVec.ofNat 64 (l.viewv % 4096))
  let p := p.setSpecial sprViewc (BitVec.ofNat 64 (l.viewc % 4096))
  let p := (List.range 8).foldl (fun (p : Pack) i => p.setSpecial (sprRgn + i) (l.rgn.getD i 0)) p
  let packid := k + l.k * 2 ^ 4 + role.2 * 2 ^ 10
  { p with s := Machine.set 0 (Machine.set 0 (Machine.set 0 (Machine.set 0 [] 0 l.karg) 1 (BitVec.ofNat 64 wg)) 2 (BitVec.ofNat 64 packid)) 3 (BitVec.ofNat 64 (96 * k)) }

/-- Split entries issue from the core's present cycle on. -/
def Pack.fromCycle (p : Pack) (t : Nat) : Pack := p.mapSplits (fun y => { y with next := max y.next t, since := t })

/-- Make a workgroup resident with the packs given (R284): its slots, rows and window are taken in one step, and its core
acquires before its first instruction. The window's bytes are `img`, or zeros, with valid ECC (R158). -/
def State.settleIn (s : State) (pl : Place) (launch wg spsz size : Nat) (packs : List Pack) (img : List Byte) : State :=
  let s := s.changeSplit pl.core spsz
  let k := s.next
  let s := { s with next := k + 1 }
  s.updCore pl.core (fun c =>
    let c : Core := { c.acquireAll with gated := false, wins := c.wins ++ [⟨launch, wg, k, pl.sp, size, pl.slots, k⟩] }
    let c : Core := { c with sp := c.sp.filter (fun e => !(decide (pl.sp ≤ e.1) && decide (e.1 < pl.sp + size))) }
    let c := (c.spPut pl.sp img).spClean (fun a => decide (pl.sp ≤ a) && decide (a < pl.sp + size))
    ((pl.slots.zip pl.bases).zip packs).foldl (fun (c : Core) e =>
      let p : Pack := { e.2 with base := e.1.2, gen := k }
      { c with packs := ins c.packs e.1.1 (p.fromCycle (max c.cycle c.quietUntil)), eco := set 0 c.eco e.1.1 0, ldv := set 0 c.ldv e.1.1 0 }) c)

/-- Start workgroup `wg` of a launch at a place (R282). -/
def State.startWg (s : State) (id : Nat) (l : Launch) (wg : Nat) (pl : Place) : State :=
  let packs := (List.range l.k).map (fun k => l.newPack id wg k 0 0)
  let s := s.settleIn pl id wg l.spsz l.winSize packs []
  { s with launches := ins s.launches id { l with resident := l.resident + 1 } }

/-! ### The distributor (R285-R287, R333) -/

/-- VCP_BASE of a function (R319). -/
def vcpBase (f : Nat) : Nat := 0x16_0000 + 8 * f

/-- The physical address of a function's VCP page, if it has one. -/
def State.vcpPage (s : State) (f : Nat) : Option Nat :=
  let r := s.mreg 0 (vcpBase f)
  if bit r 0 then some (fld r 16 32 * 2 ^ 16) else none

/-- FN_BIND of a function (R377). -/
def fnBind (f : Nat) : Nat := 0x17_0000 + 8 * f
def State.bound (s : State) (f : Nat) : Bool := bit (s.mreg 0 (fnBind f)) 0
def State.fnPart (s : State) (f : Nat) : Nat := fld (s.mreg 0 (fnBind f)) 8 8

/-- FN_STAT.HELD, and MIG_CTL.ST other than IDLE and REFUSED: the function's work does not run (R399-R401). -/
def fnStat (f : Nat) : Nat := 0x1_0000_0000 + 0x1_0000 * f
def migCtl (f : Nat) : Nat := 0x18_0000 + 8 * f
def State.fnHeld (s : State) (f : Nat) : Bool := bit (s.mreg 0 (fnStat f)) 9
def State.fnQuiet (s : State) (f : Nat) : Bool := let st := fld (s.mreg 0 (migCtl f)) 8 2; st == 1 || st == 2
def actCtl : Nat := 0x1C_8000
def State.activating (s : State) : Bool := fld (s.mreg 0 actCtl) 1 3 == 1
def State.fnStopped (s : State) (f : Nat) : Bool := s.fnHeld f || s.fnQuiet f || s.activating

/-- The WEIGHT of a process as the VCP page holds it, read by agent `ag` (R319, R333): bits [7:0] of its entry; a page that cannot be read
gives 0, and one whose words others hold is read once they have answered. -/
def State.weight (s : State) (ag f proc : Nat) : Sync (Nat × State) :=
  match s.vcpPage f with
  | none => .ok (0, s)
  | some pa =>
    match s.readAt (s.fnPart f) ⟨ag, false⟩ (pa + 0x8000 + 16 * proc) 1 with
    | .ok (bs, s) => .ok (ofBytes bs, s)
    | .fault _ => .ok (0, s)
    | .busy s => .busy s

/-- A new level-2 round: every process with its weight, where that is not 0 (R333). -/
def State.roundOf (s : State) (ag f : Nat) : Sync (List (Nat × Nat) × State) :=
  (List.range 64).foldl (fun (r : Sync (List (Nat × Nat) × State)) p =>
    match r with
    | .ok (ls, s) =>
      (match s.weight ag f p with
        | .ok (n, s) => .ok (if n = 0 then ls else ls ++ [(p, n)], s)
        | .fault c => .fault c
        | .busy s => .busy s)
    | r => r) (.ok ([], s))

/-- Take one turn of a process. -/
def takeTurn (ts : List (Nat × Nat)) (proc : Nat) : List (Nat × Nat) :=
  (ts.map (fun e => if e.1 == proc then (e.1, e.2 - 1) else e)).filter (fun e => e.2 != 0)

/-- A partition's arbitration state. -/
def Dist.init : Dist :=
  { fn := 0, start := 0, owed := [], expired := false, turns := [], grants := [], last := [], rr := none, rrDie := [], lastq := [] }
def State.dist (s : State) (p : Nat) : Dist := get Dist.init s.dists p
def State.setDist (s : State) (p : Nat) (d : Dist) : State := { s with dists := ins s.dists p d }

/-- PART_STAT.ST of a partition (R19). -/
def State.partSt (s : State) (p : Nat) : Nat := fld (s.part p 0x30) 0 3

/-- The cores of a partition, ascending. -/
def State.partCores (s : State) (p : Nat) : List Nat :=
  (List.range 64).filter (fun n => bit (s.part p 0x08) (n / 2))

/-- The next workgroup of a launch to be dispatched: those placed ahead of their turn are skipped (R287). -/
def nextWg (ahead : List Nat) : Nat → Nat → Nat
  | 0, n => n
  | fuel + 1, n => if ahead.contains n then nextWg ahead fuel (n + 1) else n
def Launch.nextWg (l : Launch) : Nat := Machine.nextWg l.ahead (l.ahead.length + 1) l.next

/-- The launch has a workgroup to dispatch. -/
def Launch.waiting (l : Launch) : Bool := l.err.isNone && decide (l.nextWg < l.total)

/-- The cohort of a workgroup: its members ascending, or the workgroup alone (R287). -/
def Launch.cohort (l : Launch) (wg : Nat) : List Nat :=
  match l.sets.findSome? (fun x => x.bind (fun (e : SetEnt) => if e.cohort && (e.indexOf wg).isSome then some e else none)) with
  | some e => sortBy (fun x y => decide (x ≤ y)) ((List.range e.count).filterMap e.member)
  | none => [wg]

/-- Where a workgroup's affinity entry places it (R286): on any core, on a die, or not before a message on the words read is done. -/
inductive Aim
  | any (s : State)
  | die (d : Nat) (s : State)
  | busy (s : State)

/-- The affinity entry of a workgroup, read and translated through the hub (R286). R7 gives the distributor no agent number: its reads
are those of agent 96 (see the assumption log). -/
def State.affDie (s : State) (p : Nat) (l : Launch) (wg : Nat) : Aim :=
  if l.aff = 0 then .any s
  else
    let q : Eng := ⟨96, some p, l.asid, l.root, kTransfer, true⟩
    match s.engNum q (l.aff + BitVec.ofNat 64 (8 * wg)).toNat 8 with
    | .busy t => .busy t
    | .fault _ _ => .any s
    | .ok va s =>
      if va = 0 then .any s
      else
        match s.engXlate q va false with
        | .busy t => .busy t
        | .fault _ _ => .any s
        | .ok (pa, _) s =>
          let d := sliceOf pa / 24
          if !isHost pa && (s.partCores p).any (fun n => n / 16 == d) then .die d s else .any s

/-- The workgroup is placed by affinity. -/
def State.aimed (s : State) (p : Nat) (l : Launch) (wg : Nat) : Bool := match s.affDie p l wg with | .die _ _ => true | _ => false

/-- `ls` in rotation, from the one after `after` on. -/
def rotation (ls : List Nat) (after : Option Nat) : List Nat :=
  match after with
  | none => ls
  | some a => ls.filter (fun n => decide (a < n)) ++ ls.filter (fun n => decide (n ≤ a))

/-- What placing comes to: no place, a wait for a message on the affinity table's words, or the state after it. -/
inductive Placed
  | none
  | busy (s : State)
  | done (s : State)

/-- Place one workgroup (R286): the state after it, with the position it moves. -/
def State.placeWg (s : State) (p id wg : Nat) : Placed :=
  match look s.launches id with
  | none => .none
  | some l =>
    let d := s.dist p
    let rows := l.packs.map (fun x => x.1)
    let try1 (s : State) (ns : List Nat) : Option Place := ns.findSome? (fun n => s.fits n l.spsz l.winSize rows)
    match s.affDie p l wg with
    | .busy t => .busy t
    | .die die s =>
      match try1 s (rotation ((s.partCores p).filter (fun n => n / 16 == die)) (look d.rrDie die)) with
      | some pl => .done ((s.startWg id l wg pl).setDist p { d with rrDie := ins d.rrDie die pl.core })
      | none => .none
    | .any s =>
      match try1 s (rotation (s.partCores p) d.rr) with
      | some pl => .done ((s.startWg id l wg pl).setDist p { d with rr := some pl.core })
      | none => .none

/-- Place every member of a list, or none. -/
def placeAll (p id : Nat) : List Nat → State → Placed
  | [], s => .done s
  | w :: ws, s => match s.placeWg p id w with | .done t => placeAll p id ws t | r => r

/-- Place a workgroup with its cohort in one step (R287): in ascending index, or, where affinity leaves the members that it places no
room so, with those first. While a message on the words of an affinity entry is under way, none is placed. -/
def State.placeCohort (s : State) (p id : Nat) (l : Launch) (ws : List Nat) : Placed :=
  match ws.findSome? (fun w => match s.affDie p l w with | .busy t => some t | _ => none) with
  | some t => .busy t
  | none =>
    match placeAll p id ws s with
    | .done t => .done t
    | .busy _ => .busy s
    | .none =>
      match placeAll p id (ws.filter (fun w => s.aimed p l w) ++ ws.filter (fun w => !s.aimed p l w)) s with
      | .done t => .done t
      | _ => .none

/-- Dispatch the next workgroup of a launch, with its cohort (R285, R287). -/
def State.dispatchNext (s : State) (p id : Nat) : Placed :=
  match look s.launches id with
  | none => .none
  | some l =>
    let wg := l.nextWg
    let ws := l.cohort wg
    match s.placeCohort p id l ws with
    | .done t =>
      (match look t.launches id with
        | some x =>
          let gone := (x.ahead ++ ws.filter (fun w => w != wg)).filter (fun w => decide (wg < w))
          .done { t with launches := ins t.launches id { x with next := wg + 1, ahead := gone } }
        | none => .none)
    | r => r

/-- The function has work for the distributor or the lanes (R333): an unfinished launch, or a queue that holds work. -/
def State.fnWork (s : State) (p f : Nat) : Bool :=
  s.bound f && s.fnPart f == p && !s.fnStopped f &&
  (s.launches.any (fun e => e.2.part == p && e.2.fn == f) || s.queues.any (fun (q : QState) => q.fn == f && (q.wants || q.lane.isSome)))

/-- The next function with work after `f`, in ascending number, wrapping. -/
def State.nextFn (s : State) (p f : Nat) : Option Nat :=
  ((List.range 385).map (fun i => (f + 1 + i) % 385)).find? (fun g => s.fnWork p g)

/-- PART_SCHED of a partition, and the slice that it gives in ns (R334). -/
def partSched (p : Nat) : Nat := 0x15_0000 + 0x40 * p
def State.sliceLen (s : State) (p : Nat) : Nat := (fld (s.mreg 9 (partSched p)) 0 6 + 1) * 1000000

/-- The next function with work whose slice is longer than what it owes (R333, R335): one that owes more gives the slice up, and owes
the rest. `fuel` bounds the search. -/
def State.nextSlice (s : State) (p f : Nat) (owed : SMap Nat) : Nat → Option Nat × SMap Nat
  | 0 => (s.nextFn p f, owed)
  | fuel + 1 =>
    match s.nextFn p f with
    | none => (none, owed)
    | some g => if s.sliceLen p < get 0 owed g then s.nextSlice p g (set 0 owed g (get 0 owed g - s.sliceLen p)) fuel else (some g, owed)

/-- The slice belongs to a function with work: one without work gives it up (R333, R335). -/
def State.currentFn (s : State) (p : Nat) : State :=
  let d := s.dist p
  if s.fnWork p d.fn then s
  else
    match s.nextSlice p d.fn d.owed 1000 with
    | (some f, owed) => s.setDist p { d with fn := f, start := s.time, expired := false, turns := [], grants := [], owed := owed }
    | (none, _) => s

/-- The rotation that a function, process and priority have of their own. -/
def turnKey (fn proc prio : Nat) : Nat := 8 * (64 * fn + proc) + prio
def Launch.turnKey (l : Launch) : Nat := Machine.turnKey l.fn l.proc l.prio

/-- The launches of a process in the order that the distributor serves them: highest priority first, equal ones in rotation
after the one of their function, process and priority that was served last (R285). -/
def launchOrder (last : SMap Nat) (ls : List (Nat × Launch)) : List (Nat × Launch) :=
  let rank (e : Nat × Launch) : Nat × Nat :=
    (7 - e.2.prio, if get 0 last e.2.turnKey < e.2.order then e.2.order else e.2.order + 2 ^ 64)
  sortBy (fun x y => decide ((rank x).1 < (rank y).1) || (decide ((rank x).1 = (rank y).1) && decide ((rank x).2 ≤ (rank y).2))) ls

/-- Dispatch for the first launch of a process that has a place: the turn moves its rotation. -/
def State.dispatchProc (s : State) (p f proc : Nat) : Placed :=
  let ls := s.launches.filter (fun e => e.2.part == p && e.2.fn == f && e.2.proc == proc && e.2.waiting)
  (launchOrder (s.dist p).last ls).foldl (fun (r : Placed) e =>
    match r with
    | .none =>
      (match s.dispatchNext p e.1 with
        | .done t => let d := t.dist p; .done (t.setDist p { d with last := set 0 d.last e.2.turnKey e.2.order })
        | r => r)
    | r => r) .none

/-- Dispatch within a level-2 round: the lowest process with a turn left and a workgroup that fits. -/
def State.dispatchIn (s : State) (p f : Nat) (turns : List (Nat × Nat)) : Placed :=
  turns.foldl (fun (r : Placed) e =>
    match r with
    | .none =>
      (match s.dispatchProc p f e.1 with
        | .done t => let d := t.dist p; .done (t.setDist p { d with turns := takeTurn turns e.1 })
        | r => r)
    | r => r) .none

/-- A saved workgroup of the partition's current function waits to be placed again, ahead of new ones (R285). -/
def State.savedWaiting (s : State) (p f : Nat) : Bool :=
  s.saved.any (fun (x : Saved) => match look s.launches x.launch with | some l => l.part == p && l.fn == f | none => false)

/-- WORKGROUP_DISPATCH of a partition's distributor (R284-R287, R333). -/
def execWorkgroupDispatch (p : Nat) (s : State) : Host.Outcome State Fault Refusal :=
  if s.partSt p ≠ 3 then .next s
  else
    let t := s.currentFn p
    let d := t.dist p
    if d.expired || t.fnStopped d.fn || t.savedWaiting p d.fn then .next s
    else
      match t.dispatchIn p d.fn d.turns with
      | .done u => .next u
      | .busy u => .next u
      | .none =>
        match t.roundOf 96 d.fn with
        | .busy u => .next u
        | .fault _ => .next s
        | .ok (turns, u) =>
          match u.dispatchIn p d.fn turns with
          | .done u => .next u
          | .busy u => .next u
          | .none => .next s

/-! ### The end of a pack and of a launch (R168, R289-R291) -/

/-- A workgroup's window is not in use by a transfer, an append or an arrival (R168). -/
def State.windowQuiet (s : State) (launch wg : Nat) : Bool :=
  !(s.xfers.any (fun (x : Xfer) => x.launch == launch && x.wg == wg)) &&
  !(s.remotes.any (fun (r : Remote) => r.launch == launch && r.wg == wg && (match r.kind with | .reply _ => false | _ => true)))

/-- Messages, transfers and walks of a pack that has gone no longer answer to its slot. -/
def State.detach (s : State) (n slot : Nat) : State :=
  { s with
    walks := s.walks.map (fun (k : Walk) => { k with waiters := k.waiters.filter (fun x => !(x.agent == n && x.slot == slot)) })
    remotes := s.remotes.map (fun (r : Remote) => if r.agent == n && r.slot == slot then { r with slot := 24 } else r)
    xfers := s.xfers.map (fun (x : Xfer) => if x.agent == n && x.slot == slot then { x with slot := 24 } else x) }

/-- The shared kennel entries of a slot; those of a saved pack that once held it are not among them (R341). -/
def Core.callsOf (c : Core) (slot : Nat) : List Nat :=
  ((List.range 8).map (fun i => 24 + i)).filter (fun e => c.kfield e 0 1 == 1 && c.kfield e 3 1 == slot && c.kfield e 1 1 / 2 % 2 == 0)

/-- Free the shared kennel entries of a slot. -/
def Core.freeCalls (c : Core) (slot : Nat) : Core := (c.callsOf slot).foldl (fun (c : Core) e => c.kfree e) c

/-- The calls of some kennel entries of a core are not served further: their groups are dropped, and flash work for them delivers no
result. -/
def State.dropJobs (s : State) (n : Nat) (es : List Nat) : State :=
  let mine (cl e : Nat) : Bool := cl == n / 2 && es.any (fun k => k + 32 * (n % 2) == e)
  { s with
    jobs := s.jobs.filter (fun (j : Job) => !mine j.cluster j.entry)
    flashq := s.flashq.map (fun (f : Flash) => if mine f.cluster f.entry then { f with entry := 64 } else f) }

/-- The slot and the rows of a pack are free, and the slot's records and counters go (R72, R289, R292). -/
def Core.dropPack (c : Core) (slot : Nat) : Core :=
  let c := (c.clearRecords slot).unpin slot
  { c with
    packs := del c.packs slot
    ops := c.ops.filter (fun m => m.slot != slot)
    landing := c.landing.filter (fun x => x.slot != slot)
    divq := c.divq.filter (fun x => x.slot != slot)
    sfuq := c.sfuq.filter (fun x => x.slot != slot)
    mq := c.mq.filter (fun x => x.slot != slot)
    grow := c.grow.filter (fun g => g.slot != slot)
    fetches := c.fetches.filter (fun f => f.slot != slot)
    eco := del c.eco slot
    ldv := del c.ldv slot
    freed := c.cycle }

/-- A workgroup's window is released, with the names of entries not received. -/
def State.dropWindow (s : State) (n launch wg : Nat) : State :=
  let s := s.updCore n (fun c => { c with wins := c.wins.filter (fun w => !(w.launch == launch && w.wg == wg)) })
  { s with senders := s.senders.filter (fun (x : Sender) => !(x.launch == launch && x.wg == wg)) }

/-- The pack's slot goes; with the last pack of its workgroup the workgroup ends (R289). -/
def State.removePack (s : State) (n slot launch wg : Nat) (last : Bool) : State :=
  let s := ((s.detach n slot).dropJobs n (s.core n |>.callsOf slot)).updCore n (fun c => (c.freeCalls slot).dropPack slot)
  let s := s.reapStage n
  if !last then s
  else
    let s := s.dropWindow n launch wg
    match look s.launches launch with
    | some l => { s with launches := ins s.launches launch { l with resident := l.resident - 1, ended := l.ended + 1 } }
    | none => s

/-- The pack ends, or is parked while its launch has failed (R290). -/
def State.packEnding (s : State) (n slot : Nat) (p : Pack) : Bool :=
  p.ended || ((match look s.launches p.launch with | some l => l.err.isSome | none => false) && s.parkedPack n slot p)

/-- The end of a pack, as far as it can go now (R289). -/
def State.packEnd (s : State) (n slot : Nat) : State :=
  match look (s.core n).packs slot with
  | none => s
  | some p =>
    if !s.packEnding n slot p then s
    else
      let s := if p.ended then s else s.updCore n (fun c => c.updPack slot (fun p => { p with ended := true }))
      let s := match p.stop with
        | some ⟨_, some f, _, _, _, _⟩ => s.launchError p.launch f.code
        | _ => s
      let dead := (s.core n).quarantined
      if s.packBusy n slot && !dead then s
      else
        match (if dead then none else s.releasing n slot) with
        | some t => t
        | none =>
          if p.hostw ≠ 0 && !dead then s
          else
            let others := (s.core n).packs.any (fun e => e.1 != slot && e.2.launch == p.launch && e.2.wg == p.wg)
            if !others && !(s.windowQuiet p.launch p.wg) then s
            else s.removePack n slot p.launch p.wg (!others)

/-- PACK_END (R289, R290). -/
def execPackEnd (n slot : Nat) (s : State) : Host.Outcome State Fault Refusal := .next (s.packEnd n slot)

/-- Nothing of the launch runs or will run, and the launches it posted are complete (R289). -/
def State.launchOver (s : State) (id : Nat) (l : Launch) : Bool :=
  l.resident == 0 && l.children == 0 && !(s.saved.any (fun (x : Saved) => x.launch == id)) &&
  (l.err.isSome || !l.waiting)

/-- The status and code of a completed launch (R323). -/
def Launch.status (l : Launch) : Nat × Nat := match l.err with | some c => (2, c) | none => (1, 0)

/-- The completion of an open packet (R323). -/
def OpenPkt.fin (o : OpenPkt) (status code fcode time : Nat) : Fin :=
  ⟨o.id, o.fn, o.q, o.asid, o.root, o.sig, o.irq, o.tag, status, code, fcode, o.lid, time, false, 0, o.cl⟩

/-- The packet that waits for a launch is complete: its completion is to be written (R323). -/
def State.pktDone (s : State) (k status code fcode : Nat) : State :=
  match s.openPkts.find? (fun (o : OpenPkt) => o.id == k) with
  | none => s
  | some o => { s with fins := s.fins ++ [o.fin status code fcode s.time] }

/-- A graph hears that its node's launch is complete (R331). -/
def State.nodeDone (s : State) (g node status code : Nat) : State :=
  let st := match status with | 1 => 2 | 3 => 4 | _ => 3
  { s with graphs := s.graphs.map (fun (x : Graph) => if x.id == g then { x with news := x.news ++ [(node, st, code)] } else x) }

/-- LAUNCH_COMPLETE (R289, R291, R323). -/
def execLaunchComplete (id : Nat) (s : State) : Host.Outcome State Fault Refusal :=
  match look s.launches id with
  | none => .next s
  | some l =>
    if !s.launchOver id l then .next s
    else
      let (st, code) := l.status
      let s := { s with
        launches := del s.launches id
        remotes := s.remotes.filter (fun (r : Remote) => r.launch != id)
        credits := s.credits.filter (fun (r : Credit) => r.launch != id) }
      let s := match look s.launches l.parent with
        | some q => { s with launches := ins s.launches l.parent { q with children := q.children - 1 } }
        | none => s
      let s := match l.node with
        | some (g, node) => s.nodeDone g node st code
        | none => s
      .next (s.pktDone l.waiter st code 0)

/-! ### Register requests (R292, R293, R315, R316) -/

/-- The rows an instruction names (R315). -/
def View.rowsOf (v : View) (n : USrc) : Nat := match n with | .reg r => (v.rs r).toNat % 2 ^ 32 | .imm x => x.toNat

/-- REGGROW (R315). -/
def execReggrow (c : Ctl) (d : SReg) (n : USrc) (s : State) : Host.Outcome State Fault Refusal :=
  issue c ([.ds d] ++ useU 1 n) (fun v _ =>
    let r := v.rowsOf n
    if r ≤ v.pk.size then v.landS c d (BitVec.ofNat 64 v.pk.size)
    else if spaceRows < r then .fault (v.faultRec fcRegGrowDenied 0 0 0 0 127 0)
    else
      let (v, tok) := v.tokenV c
      let co : Core := { v.co with grow := v.co.grow ++ [⟨v.slot, v.ix, r, v.co.cycle⟩] }
      .state (({ v with co := co } : View).park c (.reggrow r d tok))) s

/-- A grant: the parked split goes on with the size it now has. -/
def Core.grantGrow (c : Core) (g : GrowReq) (x : W64) : Core :=
  c.updPack g.slot (fun p =>
    match p.split g.split with
    | some y =>
      match y.st with
      | .waiting (.reggrow _ d tok) => ((p.wake g.split c.cycle).status g.split d x).tokDown g.split tok
      | _ => p
    | none => p)

/-- The other windows move toward row 0, packed in ascending order of their first rows (R292): the row after the last. A
moved window's pack issues nothing while it is copied, at 2 rows a cycle. -/
def packWindows (t : Nat) : List (Nat × Pack) → Nat → List (Nat × Pack) × Nat
  | [], at_ => ([], at_)
  | (k, p) :: ps, at_ =>
    let q : Pack := if p.base = at_ then p else p.fromCycle (t + (p.size + 1) / 2)
    let r := packWindows t ps (at_ + p.size)
    ((k, { q with base := at_ }) :: r.1, r.2)

/-- Grow the window of a slot to `n` rows: in place where the rows above it are free, else after the others have moved. -/
def Core.growTo (c : Core) (slot n : Nat) : Core :=
  match look c.packs slot with
  | none => c
  | some p =>
    let others := c.packs.filter (fun e => e.1 != slot)
    let clear := decide (p.base + n ≤ spaceRows) &&
      others.all (fun e => decide (p.base + n ≤ e.2.base) || decide (e.2.base + e.2.size ≤ p.base))
    if clear then c.updPack slot (fun p => { p with size := n })
    else
      let sorted := sortBy (fun x y => decide (x.2.base ≤ y.2.base)) others
      let (moved, top) := packWindows c.cycle sorted 0
      let c : Core := { c with packs := moved.foldl (fun (m : SMap Pack) e => ins m e.1 e.2) c.packs }
      c.updPack slot (fun p =>
        { (if p.base = top then p else p.fromCycle (c.cycle + (p.size + 1) / 2)) with base := top, size := n })

/-- REGGROW_GRANT: the request at the head of a core's queue is granted once its rows are free; one that its window already
covers is done at once (R292, R315). -/
def execReggrowGrant (n : Nat) (s : State) : Host.Outcome State Fault Refusal :=
  let c := s.core n
  match c.grow with
  | [] => .next s
  | g :: rest =>
    match look c.packs g.slot with
    | none => .next (s.setCore n { c with grow := rest })
    | some p =>
      let c1 : Core := { c with grow := rest }
      if g.n ≤ p.size then .next (s.setCore n (c1.grantGrow g (BitVec.ofNat 64 p.size)))
      else if g.n - p.size ≤ c.freeRows then
        .next (s.setCore n ((c1.growTo g.slot g.n).grantGrow g (BitVec.ofNat 64 g.n)))
      else .next s

/-- A pack waits in REGGROW. -/
def Pack.growing (p : Pack) : Bool :=
  p.splits.any (fun x => match x with
    | some y => (match y.st with | .waiting (.reggrow _ _ _) => true | _ => false)
    | none => false)

/-- REGISTER_DEADLOCK of a core (R293): every pack waits in REGGROW, or the head has waited 65,536 cycles and no rows have been
freed; the service core is told. -/
def execRegisterDeadlock (n : Nat) (s : State) : Host.Outcome State Fault Refusal :=
  let c := s.core n
  match c.grow with
  | [] => .next s
  | g :: _ =>
    if c.packs.all (fun e => e.2.growing) || (decide (g.since + 65536 ≤ c.cycle) && decide (c.freed + 65536 ≤ c.cycle)) then
      .next (s.postEvent (n / 2) ⟨3, n % 2, 0, 0, 0, 0⟩)
    else .next s

/-- The destination holds a row at or above `n`. -/
def Dest.above (d : Dest) (n : Nat) : Bool := match d with | .v row wide => decide (n ≤ row + b2n wide) | _ => false

/-- An issued instruction of the pack, also of a split that has ended or merged since, has still to write a row at or above `n` (R316). -/
def View.highWrites (v : View) (n : Nat) : Bool :=
  v.co.ops.any (fun m => m.slot == v.slot && m.dest.above n) || v.co.landing.any (fun x => x.slot == v.slot && x.dest.above n) ||
  v.co.divq.any (fun x => x.slot == v.slot && x.dest.above n) || v.co.sfuq.any (fun x => x.slot == v.slot && x.dest.above n) ||
  v.co.mq.any (fun m => m.slot == v.slot && (List.range (spaceRows - n)).any (fun k => m.covers (n + k)))

/-- Discard the operand-window entries for rows at or above `n`, in every split (R316). -/
def View.dropHigh (v : View) (n : Nat) : View :=
  let cut (x : Split) : Split := { x with win := x.win.filter (fun e => decide (e.row < n)) }
  { v with pk := { (v.pk.mapSplits cut) with late := v.pk.late.filter (fun e => decide (e.row < n)) }, sp := cut v.sp }

/-- REGSHRINK (R316). -/
def execRegshrink (c : Ctl) (n : USrc) (s : State) : Host.Outcome State Fault Refusal :=
  issue c (useU 1 n) (fun v _ =>
    let r := max 1 (v.rowsOf n)
    if v.pk.size ≤ r then .done (v.tokenFor c 1)
    else
      let w := v.dropHigh r
      if w.highWrites r then .hold w
      else
        .done ({ w with
          pk := { w.pk with size := r, rows := keep (fun k => decide (k < r)) w.pk.rows, bad := keep (fun k => decide (k < r)) w.pk.bad }
          co := { w.co with freed := w.now } }.tokenFor c 1)) s

end Sys2Proof.Machine
end

