-- ==== Sys2Proof/Machine/Manage.lean ====
section
/-! DEFINITION. The management registers: who reaches them, what a read returns, and what a write does (R11, R156, R374,
R377, R414, R415, and the register maps of the chapters). A write that starts work puts that work's event at the front
of the agenda. -/

namespace Sys2Proof.Machine

/-! ### Register maps -/

/-- A register's reset value, the bits that a write sets, and those that a 1 clears (R11). -/
structure RegMap where
  rst : W64
  rw : W64
  w1c : W64
  deriving DecidableEq, Repr

/-- A register that no write changes. -/
def roReg (rst : W64) : RegMap := ⟨rst, 0, 0⟩

/-- `a` is register number `i` of `n`, `step` bytes apart from `b`. -/
def inRange (b step n a : Nat) : Option Nat :=
  if b ≤ a && a < b + step * n && (a - b) % step == 0 then some ((a - b) / step) else none

/-- PART_CTL … PART_KEYS (R19, R24), PART_SCHED aside; offsets within an entry. -/
def partMap (off : Nat) : RegMap :=
  match off with
  | 0x00 => roReg 0
  | 0x08 => ⟨0, 0xFFFFFFFF, 0⟩
  | 0x10 => ⟨0, BitVec.allOnes 64, 0⟩
  | 0x18 => ⟨0, 0xFFFFFFFF, 0⟩
  | 0x20 => ⟨0, 0xFF, 0⟩
  | 0x28 => ⟨0, 0x3F, 0⟩
  | 0x30 => ⟨0, 0, 0xFF00⟩
  | _ => roReg 0

/-- Addresses of the registers below. -/
def frameRebindReg : Nat := 0x13_0000
def coreSram (n : Nat) : Nat := 0x14_0000 + 0x40 * n
def migSet (i : Nat) : Nat := 0x18_1000 + 4 * i
def tgStat (g : Nat) : Nat := 0x1A_0000 + 0x40 * g
def tgCtl (g : Nat) : Nat := tgStat g + 8
def portCfg (n : Nat) : Nat := 0x1B_0000 + 0x40 * n
def peerId : Nat := 0x1B_0400
def certBase : Nat := 0x1C_0000
def ownEnroll : Nat := 0x1C_4000
def ownSlot : Nat := 0x1C_4008
def ownHash (i : Nat) : Nat := 0x1C_4040 + 8 * i
def bootStat : Nat := 0x1D_0000
def scStartReg : Nat := 0x1D_0200
def bistLog (i : Nat) : Nat := 0x1D_1000 + 8 * i
def pwrLim : Nat := 0x1E_0000
def pwrStat : Nat := 0x1E_0008
def diePwr (d : Nat) : Nat := 0x1E_0040 + 8 * d
def groupRec (g : Nat) : Nat := 0x200_0000 + 0x8_0000 * g

/-- BAR0 of function f stands at fnStat f (R376). -/
def attReq (f : Nat) : Nat := fnStat f + 0x800
def attStat (f : Nat) : Nat := fnStat f + 0x808

/-- Where the staging area stands in the management window of the physical function (R376, R398): the spec says that it is written through
the window, and gives neither its address nor its size (see the assumption log). -/
def stagingPort : Nat := 0x20_0000
def areaSize : Nat := 0xE0_0000

/-- The parts of the flash: the writable image and the staging area, each of areaSize bytes, the module namespace and the namespaces of the
partitions (R372, R393, R398). -/
def stagingBase : Nat := 2 ^ 40
def moduleNs : Nat := 2 ^ 42
def partNs (p : Nat) : Nat := 2 ^ 48 * (p + 1)

/-- The address lies in the staging area's part of the window. -/
def isStaging (a : Nat) : Bool := decide (stagingPort ≤ a) && decide (a < stagingPort + areaSize)

/-! ### The flash and the Zumos store (R2, R372, R374) -/

/-- Bytes of the flash. -/
def State.flashBytes (s : State) (a n : Nat) : List Byte := (List.range n).map (fun i => get 0 s.flash (a + i))
def State.flashNum (s : State) (a n : Nat) : Nat := ofBytes (s.flashBytes a n)
def State.flashPut (s : State) (a : Nat) (bs : List Byte) : State :=
  { s with flash := (bs.zipIdx).foldl (fun (m : SMap Byte) (e : Byte × Nat) => set 0 m (a + e.2) e.1) s.flash }

/-- The address in the flash of entry `i` of directory block `b` of the store in a namespace. -/
def dirEnt (ns b i : Nat) : Nat := ns + 4096 * b + 128 * i

/-- The directory's blocks: entry 31 without a path chains the next. -/
def State.dirBlocks (s : State) (ns : Nat) : Nat → Nat → List Nat
  | 0, _ => []
  | fuel + 1, b =>
    let e := dirEnt ns b 31
    let nx := s.flashNum (e + 96) 8
    if s.flashNum e 1 = 0 && nx ≠ 0 then b :: s.dirBlocks ns fuel nx else [b]

/-- The directory of a namespace: the addresses of its entries that hold a path. -/
def State.dirEntries (s : State) (ns : Nat) : List Nat :=
  ((s.dirBlocks ns 65536 0).flatMap (fun b => (List.range 32).map (fun i => dirEnt ns b i))).filter (fun e => s.flashNum e 1 != 0)

/-- The entry of a path. -/
def State.dirFind (s : State) (ns : Nat) (path : List Byte) : Option Nat :=
  (s.dirEntries ns).find? (fun e => s.flashBytes e 96 == path ++ List.replicate (96 - path.length) 0)

/-- The first block after every extent and directory block. -/
def State.nextBlock (s : State) (ns : Nat) : Nat :=
  max (((s.dirEntries ns).map (fun e => s.flashNum (e + 96) 8 + 65536)).foldl max 1)
    (((s.dirBlocks ns 65536 0).map (fun b => b + 1)).foldl max 1)

/-- The bytes of the flash complex that are spoken for (R2, R372): the reserved namespace, and every other namespace up to its last block.
-/
def State.flashUsed (s : State) : Nat :=
  2 * areaSize + ((moduleNs :: (List.range 32).map partNs).map (fun ns => 4096 * s.nextBlock ns)).foldl (· + ·) 0

/-- Reset values that are not 0. -/
def pwrLimReset : W64 := BitVec.ofNat 64 (1800 + 2000 * 2 ^ 16 + 95 * 2 ^ 32)
def diePwrReset : W64 := BitVec.ofNat 64 (10 * 2 ^ 8)

/-- The map of the register at an 8-byte address (R415); an unlisted address reads 0 and ignores writes (R414). -/
def regMap (a : Nat) : RegMap :=
  match inRange 0x10_0000 0x40 32 (a / 0x40 * 0x40) with
  | some _ => partMap (a % 0x40)
  | none =>
    if (inRange 0x11_0000 8 96 a).isSome then ⟨sliceStatReset, 0, 0xFFFFFFFF00000000⟩
    else if 0x12_0000 ≤ a && a < 0x12_8000 then roReg 0
    else if a = errHead then ⟨0, 0, 0x10000⟩
    else if (inRange 0x15_0000 0x40 32 a).isSome then ⟨9, 0x7F, 0⟩
    else if (inRange 0x16_0000 8 385 a).isSome then ⟨0, 0xFFFFFFFF0001, 0⟩
    else if (inRange 0x17_0000 8 385 a).isSome then ⟨0, 0xFFFFFF01, 0⟩
    else if 0x18_1000 ≤ a && a < 0x18_2000 then ⟨0, BitVec.allOnes 64, 0⟩
    else if (inRange 0x1A_0000 0x40 16 a).isSome then ⟨0xFF00, 0, 0xFFFF000000000000⟩
    else if (inRange 0x1B_0000 0x40 8 a).isSome then ⟨0xFF, 0xFFFFFFFFFFFF03FF, 0⟩
    else if a = peerId then ⟨0, 0xFFFFF, 0⟩
    else if a = ownEnroll then ⟨0, 0x1E, 0⟩
    else if (inRange 0x1C_4040 8 8 a).isSome then ⟨0, BitVec.allOnes 64, 0⟩
    else if a = bootStat then ⟨0, 0, 8⟩
    else if a = pwrLim then ⟨pwrLimReset, 0x7F0FFF0FFF, 0⟩
    else if a = pwrStat then ⟨0, 0, 0xFFFF0000⟩
    else if (inRange 0x1E_0040 8 4 a).isSome then roReg diePwrReset
    else roReg 0

/-- PART_CTL.EN (R19). -/
def State.enabled (s : State) (p : Nat) : Bool := bit (s.part p 0) 0

/-- A register's stored value. -/
def State.regVal (s : State) (a : Nat) : W64 := s.mreg (regMap a).rst a

/-- Put a field of a register. -/
def State.putReg (s : State) (a l n v : Nat) : State := s.setMreg a (putFld (s.regVal a) l n v)

/-! ### Reads -/

/-- CORE_SRAM (R156). -/
def State.coreSramVal (s : State) (n : Nat) : W64 :=
  let c := s.core n
  let used := (c.wins.map (fun w => w.size)).foldl (· + ·) 0
  BitVec.ofNat 64 (c.spsz + c.ways * 2 ^ 8 + ((c.sysBase - used) / 4096) * 2 ^ 16 + b2n (s.coreBusy n) * 2 ^ 32)

/-- A trusted-group record (R386): 4-byte words of the view, the own rank and the members. -/
def State.groupWord (s : State) (g o : Nat) : Nat :=
  match look s.groups g with
  | none => 0
  | some x =>
    if !x.joined then 0
    else if o = 0 then x.view
    else if o = 4 then (x.members.findIdx? (fun m => m == fld (s.regVal peerId) 0 20)).getD 0
    else if 16 ≤ o then (x.members[(o - 16) / 4]?).getD 0
    else 0

/-- TG_STAT (R386): V, PART, GROUP and NMEM of the slot, and the drop count. -/
def State.tgStatVal (s : State) (g : Nat) : W64 :=
  let drop := fld (s.regVal (tgStat g)) 48 16
  match look s.groups g with
  | some x =>
    if x.joined then BitVec.ofNat 64 (1 + x.part * 2 ^ 8 + x.gid * 2 ^ 16 + (x.members.length % 2 ^ 16) * 2 ^ 32 + drop * 2 ^ 48)
    else BitVec.ofNat 64 (0xFF00 + drop * 2 ^ 48)
  | none => BitVec.ofNat 64 (0xFF00 + drop * 2 ^ 48)

/-- The physical function, a virtual function, or a service core. -/
inductive Party
  | fn (f : Nat)
  | sc (n : Nat)
  deriving DecidableEq, Repr

/-- The party that a number names: 0 the physical function, 1 to 384 a virtual function, 1000 + n the service core of
cluster n. -/
def partyOf (w : Nat) : Party := if 1000 ≤ w then .sc (w - 1000) else .fn w

/-- The party reaches the management registers at `a` (R376, R377, R414). -/
def Party.reaches (w : Party) (a : Nat) : Bool :=
  match w with
  | .fn f =>
    (f == 0 && decide (a < 0x100_0000)) ||
    (decide (f ≤ 384) && decide (fnStat f ≤ a) && decide (a < fnStat (f + 1)))
  | .sc _ => decide (a < 0x1_0000_0000)

/-- A service core belongs to the partition of a group slot. -/
def State.ownsSlot (s : State) (w : Party) (g : Nat) : Bool :=
  match w, look s.groups g with
  | .sc n, some x => x.part == (s.partOfCluster n).getD 0xFF
  | .sc _, none => true
  | .fn f, _ => f == 0

/-- FN_STAT of a function (R378). -/
def State.fnStatVal (s : State) (f : Nat) : W64 :=
  putFld (putFld (s.mreg 0 (fnStat f)) 0 8 (s.fnPart f)) 8 1 (b2n (s.bound f))

/-- 8 bytes of BAR0 of a function at an offset (R376, R378, R397). No vector is ever pending, since messages go at once. -/
def State.bar0Read (s : State) (f o : Nat) : W64 :=
  if o = 0 then s.fnStatVal f
  else if o = 0x800 then s.mreg 0 (attReq f) &&& 0x01FFFFFFFFFFFF80
  else if o = 0x808 then s.mreg 0 (attStat f)
  else if 0x2000 ≤ o && o < 0x4080 then get 0 s.msixTable (2048 * f + (o - 0x2000) / 8)
  else 0

/-- How far a scrub of 8,192 MiB in 24.5 ms, or a metadata initialisation of 1,024 MiB in 3.1 ms, has come after `t` ns (R29, R30); at
half the HBM's rate both take twice as long (R403). The spec gives the times as about; PROG passes the last MiB when the work is done (see
the assumption log). -/
def progAt (init half : Bool) (t : Nat) : Nat :=
  let t := if half then t / 2 else t
  if init then min 1023 (t * 1024 / 3100000) else min 8191 (t * 8192 / 24500000)

/-- Every HBM stack runs at half rate: reduced service, and the phases before it that let slices be assigned (R403). -/
def State.halfRate (s : State) : Bool := fld (s.regVal bootStat) 0 3 == 3 || fld (s.regVal bootStat) 0 3 == 4

/-- SLICE_STAT (R29): while the slice is busy, PROG is the progress of its scrub or initialisation. -/
def State.sliceStatVal (s : State) (sl : Nat) : W64 :=
  let v := s.regVal (sliceStat sl)
  let init := s.partSt (fld v 8 8) == 2
  if bit v 1 then putFld v 16 14 (progAt init s.halfRate (s.time - get 0 s.scrubAt sl)) else v

/-- The 8 bytes of a management register as a party reads them. -/
def State.regRead (s : State) (w : Party) (a : Nat) : W64 :=
  if !w.reaches a then 0
  else if isStaging a then (if w = .fn 0 then BitVec.ofNat 64 (s.flashNum (stagingBase + (a - stagingPort)) 8) else 0)
  else if 0x1_0000_0000 ≤ a then s.bar0Read ((a - 0x1_0000_0000) / 0x1_0000) (a % 0x1_0000)
  else
    match inRange 0x14_0000 0x40 64 a, inRange 0x11_0000 8 96 a with
    | some n, _ => s.coreSramVal n
    | none, some sl => s.sliceStatVal sl
    | none, none =>
      match inRange 0x1A_0000 0x40 16 a with
      | some g => if s.ownsSlot w g then s.tgStatVal g else 0
      | none =>
        match inRange 0x15_0000 0x40 32 a with
        | some p => putFld (s.regVal a) 16 9 (s.dist p).fn
        | none =>
          if a = ownSlot then BitVec.ofNat 64 (b2n (look s.owners 1).isSome + 2 * b2n (look s.owners 2).isSome)
          else if a = frameRebindReg then (if s.rebind.isSome then 0x8000000000000000 else 0)
          else if certBase ≤ a && a < certBase + 8192 then Config.certificate ((a - certBase) / 8)
          else if 0x200_0000 ≤ a && a < 0x200_0000 + 0x8_0000 * 16 then
            let g := (a - 0x200_0000) / 0x8_0000
            let o := (a - 0x200_0000) % 0x8_0000
            if s.ownsSlot w g then BitVec.ofNat 64 (s.groupWord g o + s.groupWord g (o + 4) * 2 ^ 32) else 0
          else s.regVal a

/-- A read of `n` bytes, 4 or 8, at a management address (R414). -/
def State.mgmtRead (s : State) (w : Party) (a n : Nat) : Nat := byteFld (s.regRead w (a / 8 * 8)).toNat (a % 8) n

/-! ### Writes -/

/-- The event that a write starts goes next. -/
def State.next1 (s : State) (i : Instr) : State := { s with agenda := .ev i :: s.agenda }

/-- The value of a register after a write of `x` over the bits `m` (R11). -/
def RegMap.after (r : RegMap) (old x m : W64) : W64 :=
  let set := r.rw &&& m
  ((old &&& ~~~set) ||| (x &&& set)) &&& ~~~(r.w1c &&& x &&& m)

/-- A plain write: RW bits are set, W1C bits cleared. -/
def State.regPlain (s : State) (a : Nat) (x m : W64) : State := s.setMreg a ((regMap a).after (s.regVal a) x m)

/-- A write to a partition's entry (R19, R21): all but EN and RST change only while EN = 0. In SCRUBBING, KEYING and READY the table has
both an event EN := 0 and an event RST := 1 and does not say which a write of both is: here it is EN := 0 (see the assumption log). -/
def State.partWrite (s : State) (p off : Nat) (x m : W64) : State :=
  let a := partBase p + off
  let en := s.enabled p
  let st := s.partSt p
  if off = 0 then
    if !bit m 0 then s
    else
      let s1 := if en then s else s.setMreg a (putFld (s.part p 0) 1 2 (fld x 1 2))
      if st = 4 || st = 5 then s1
      else if st = 0 then (if bit x 0 then s1.next1 (.partitionEnable p) else s1)
      else if !bit x 0 then s1.next1 (.partitionDisable p)
      else if bit x 3 then s1.next1 (.partitionReset p)
      else s1
  else if off = 0x30 then s.regPlain a x m
  else if en then s
  else s.regPlain a x m

/-- PWR_LIM: a value outside a field's range is clamped (R413). -/
def clampLim (x : W64) : W64 :=
  let c (v lo hi : Nat) : Nat := max lo (min v hi)
  BitVec.ofNat 64 (c (fld x 0 12) 600 1800 + c (fld x 16 12) 600 2000 * 2 ^ 16 + c (fld x 32 7) 70 100 * 2 ^ 32)

/-- A write to VCP_BASE: a frame outside the function's partition leaves V at 0 (R319). -/
def State.vcpWrite (s : State) (f : Nat) (x m : W64) : State :=
  let v := (regMap (vcpBase f)).after (s.regVal (vcpBase f)) x m
  let pa := fld v 16 32 * 2 ^ 16
  let ok := !isHost pa && s.reachable (some (s.fnPart f)) pa
  s.setMreg (vcpBase f) (if ok then v else v &&& ~~~1#64)

/-- MIG_CTL (R400): DONE, and GO with or without FORCE. -/
def State.migWrite (s : State) (f : Nat) (x m : W64) : State :=
  if bit (x &&& m) 2 then s.next1 (.migrationDone f)
  else if bit (x &&& m) 0 then (if bit (x &&& m) 1 then s.next1 (.migrationForce f) else s.next1 (.migrationGo f))
  else s

/-- OWN_ENROLL (R395). -/
def State.enrollWrite (s : State) (x m : W64) : State :=
  let s := s.regPlain ownEnroll x m
  if !bit (x &&& m) 0 then s
  else
    let r := s.regVal ownEnroll
    match fld r 1 2 with
    | 1 => s.next1 (.ownerEnroll (fld r 3 2))
    | 2 => s.next1 (.ownerRevoke (fld r 3 2))
    | _ => s.putReg ownEnroll 8 2 2

/-- A write to BAR0 of a function (R319, R376, R388, R397, R399). -/
def State.bar0Write (s : State) (f o : Nat) (x m : W64) : State :=
  let mix (old set : W64) : W64 := (old &&& ~~~(set &&& m)) ||| (x &&& set &&& m)
  if o = 0x800 then
    let v := mix (s.mreg 0 (attReq f)) 0x01FFFFFFFFFFFF80
    let s := s.setMreg (attReq f) v
    if bit (x &&& m) 0 then s.next1 (.attestationRequest f v) else s
  else if o = 0x810 then (if bit (x &&& m) 0 then s.next1 (.attResume f) else s)
  else if o = 0x900 then s.next1 (.cnotify f)
  else if 0x1000 ≤ o && o < 0x2000 then
    (if bit m 0 then s.next1 (.notify f ((o - 0x1000) / 8) ((x &&& m).setWidth 32)) else s)
  else if 0x2000 ≤ o && o < 0x4080 then
    { s with msixTable := upd 0 s.msixTable (2048 * f + (o - 0x2000) / 8) (fun old => mix old (BitVec.allOnes 64)) }
  else s

/-- A write into the staging area of the reserved namespace, at a byte of it (R398). -/
def State.stagingWrite (s : State) (o : Nat) (x m : W64) : State :=
  (List.range 8).foldl (fun (s : State) i =>
    if bit m (8 * i) then { s with flash := set 0 s.flash (stagingBase + o + i) (x.extractLsb' (8 * i) 8) } else s) s

/-- A write of the bits `m` of the 8-byte register at `a` by a party that reaches it. -/
def State.regWrite (s : State) (w : Party) (a : Nat) (x m : W64) : State :=
  if isStaging a then (if w = .fn 0 then s.stagingWrite (a - stagingPort) x m else s)
  else if 0x1_0000_0000 ≤ a then s.bar0Write ((a - 0x1_0000_0000) / 0x1_0000) (a % 0x1_0000) x m
  else
  match inRange 0x10_0000 0x40 32 (a / 0x40 * 0x40) with
  | some p =>
    if w = .fn 0 && !s.planDone then { s with heldWrites := s.heldWrites ++ [(a, m.toNat, x)] }
    else s.partWrite p (a % 0x40) x m
  | none =>
    match inRange 0x14_0000 0x40 64 a with
    | some n =>
      let v := fld x 0 2
      if bit m 0 && v ≠ 3 && !s.coreBusy n then s.changeSplit n v else s
    | none =>
      match inRange 0x16_0000 8 385 a, inRange 0x17_0000 8 385 a with
      | some f, _ => s.vcpWrite f x m
      | none, some f => if w = .fn 0 then s.next1 (.fnBindWrite f ((regMap a).after (s.regVal a) x m)) else s
      | none, none =>
        match inRange 0x18_0008 8 384 a, inRange 0x1A_0008 0x40 16 a, inRange 0x1B_0000 0x40 8 a with
        | some i, _, _ => s.migWrite (i + 1) x m
        | none, some g, _ =>
          (match w with
            | .sc n =>
              if !s.ownsSlot (.sc n) g then s
              else if fld (x &&& m) 0 2 = 1 then s.next1 (.tgJoin g (putFld (x &&& m) 38 26 ((s.partOfCluster n).getD 0xFF)))
              else if fld (x &&& m) 0 2 = 2 then s.next1 (.tgLeave g (x &&& m))
              else s
            | .fn _ => s)
        | none, none, some n => if bit (s.regVal bootStat) (36 + n) then s else s.regPlain a x m
        | none, none, none =>
          if a = frameRebindReg then
            (match w with | .sc n => s.next1 (.frameRebind n (x &&& m)) | .fn _ => s)
          else if a = scStartReg then
            (match w with | .sc n => s.next1 (.scStart n (x &&& m)) | .fn _ => s)
          else if a = ownEnroll then (if w = .fn 0 then s.enrollWrite x m else s)
          else if a = actCtl then (if bit (x &&& m) 0 && w = .fn 0 then s.next1 .activationGo else s)
          else if a = pwrLim then s.setMreg a (clampLim ((regMap a).after (s.regVal a) x m))
          else if (regMap a).rw = 0 && (regMap a).w1c = 0 then s
          else s.regPlain a x m

/-- The bits that `n` bytes at offset `o` of an 8-byte register cover. -/
def writeMask (o n : Nat) : W64 := BitVec.ofNat 64 ((2 ^ (8 * n) - 1) * 2 ^ (8 * o))

/-- A write of `n` bytes, 4 or 8, at a management address (R414). -/
def State.mgmtWrite (s : State) (w : Party) (a n : Nat) (v : W64) : State :=
  if !w.reaches a then s else s.regWrite w (a / 8 * 8) (v <<< (8 * (a % 8))) (writeMask (a % 8) n)

/-- REGISTER_WRITE (R11, R414): a naturally aligned write of 4 or 8 bytes by the party `who` (see `partyOf`). -/
def execRegisterWrite (who addr n : Nat) (v : W64) (s : State) : Host.Outcome State Fault Refusal :=
  if (n = 4 || n = 8) && addr % n = 0 then .next (s.mgmtWrite (partyOf who) addr n v) else .next s

end Sys2Proof.Machine
end

