-- ==== Sys2Proof/Machine/Partition.lean ====
section
/-! DEFINITION. Hard partitions and memory errors: enabling, disabling and resetting a partition, scrubs and metadata, keys,
rebinding a frame, and the error log (R17-R35, R47, R48). -/

namespace Sys2Proof.Machine

/-! ### The error log (R33-R35) -/

/-- Add 1 to a 16-bit counter field, saturating. -/
def State.count16 (s : State) (a l : Nat) : State :=
  let v := fld (s.regVal a) l 16
  if v = 0xFFFF then s else s.putReg a l 16 (v + 1)

/-- The die of a core, or of a service core by its agent number. -/
def dieOfCore (a : Nat) : Nat := if a < 64 then a / 16 else (a - 64) / 8

/-- A record with an ECC syndrome in INFO (R35): the spec states no code, so the syndrome is a free value. -/
def State.logEcc (s : State) (kind pa : Nat) (part : Option Nat) (die unit : Nat) : State :=
  let (z, s) := s.draw
  s.logError kind pa part die unit (z.toNat % 2 ^ 32)

/-- CORRECTED_ERROR of a unit (R33, R35): `kind` as the log names it, `unit` its number: for HBM (1) the memory slice, for L2 (2) the home
slice, otherwise the agent number of the core. The UNIT of a record is a home slice for memory: R35 does not say which of the two of a
memory slice, and the model gives the even one (see the assumption log). -/
def execCorrectedError (kind unit : Nat) (s : State) : Host.Outcome State Fault Refusal :=
  if kind = 1 then
    let s := s.count16 (sliceStat unit) 32
    .next (if fld (s.regVal (sliceStat unit)) 32 16 = 0x1000 then s.logEcc 9 0 (s.sliceOwner unit) (unit / 24) (2 * unit) else s)
  else
    let k := 1 + kind * 2 ^ 16 + unit
    let n := get 0 s.cec k
    let s := if n = 0xFFFF then s else { s with cec := set 0 s.cec k (n + 1) }
    .next (if n + 1 = 0x1000 then
        (if kind = 2 then s.logEcc 9 0 (s.sliceOwner (unit / 2)) (unit / 48) unit
          else s.logEcc 9 0 (s.partOfAgent unit) (dieOfCore unit) unit)
      else s)

/-- The 8 lanes' bytes of a granule of a row: the lanes of the two words at byte `o`. -/
def granuleLanes (o : Nat) : Mask := maskList [o % 384 / 8 * 2, o % 384 / 8 * 2 + 1]

/-- The pack whose window holds a row of the core's varying space, with the row in the window. -/
def Core.rowHolder (c : Core) (row : Nat) : Option (Nat × Nat) :=
  (c.packs.find? (fun e => decide (e.2.base ≤ row) && decide (row < e.2.base + e.2.size))).map (fun e => (e.1, row - e.2.base))

/-- An uncorrectable error of a partition's unit counts in its PART_STAT.UEC (R19). -/
def State.countUe (s : State) (p : Option Nat) : State := match p with | some p => s.count16 (partBase p + 0x30) 32 | none => s

/-- A record of an uncorrectable error in the SRAM of a core. -/
def State.coreUe (s : State) (kind pa a : Nat) : State :=
  (s.countUe (s.partOfAgent a)).logEcc kind pa (s.partOfAgent a) (dieOfCore a) a

/-- L1_LINE_ERROR (R34, R35, R76): what the line held, and the record. -/
def execL1LineError (n line : Nat) (s : State) : Host.Outcome State Fault Refusal := .next ((s.l1Error n line).coreUe 3 (64 * line) n)

/-- Stored bits of an ENCI line or of its tree are not those that were written (R28): what is wrong is its tag (`what` 1), or the stored
contents of the node of level `what` - 2 above it, 0 being its counter block; with `what` 0 a check of the line has failed already. -/
def State.tamper (s : State) (what addr : Nat) : State :=
  let w := addr / 4
  if get 0 s.frames (frameOf w) ≠ attrEnci then s
  else
    match what with
    | 0 => ({ s with tagDelta := set 0 s.tagDelta (addr / 64) 1 } : State).inspect w
    | 1 => let z := s.draw; { z.2 with tagDelta := set 0 z.2.tagDelta (addr / 64) (if z.1 = 0 then 1 else z.1) }
    | k + 2 => match s.blockOf w with | some (p, b) => { s with nodeOff := s.nodeOff ++ [(p, k, b / 8 ^ k)] } | none => s

/-- UNCORRECTABLE_ERROR (R33-R35, R76): `addr` is a physical address in memory (kinds 1, 2, 7), an L1 line (3), a byte of the
array (4) or of the varying space (5), an entry of the operand stage (6), or the number of a tree node (8), whose level and
partition `unit` holds as 32 × level + partition; otherwise `unit` is the agent number of the core. Of kind 7 `unit` says what is wrong
(see `State.tamper`). Kinds from 10 on are the SRAMs without a field here, translation and instruction buffers and tables: the granule is
poisoned (R33); R34 gives no access that meets it, and R35 no KIND for its record, which is a free value. The record of kind 8 has DIE 4
and UNIT 0: R35 does not say where a tree node lies (see the assumption log). -/
def execUncorrectableError (kind unit addr : Nat) (s : State) : Host.Outcome State Fault Refusal :=
  match kind with
  | 1 | 2 =>
    let sl := sliceOf addr
    let p := s.sliceOwner sl
    let s := { s with poison := set false (set false s.poison (addr / 8 * 2) true) (addr / 8 * 2 + 1) true }
    .next (((s.count16 (sliceStat sl) 48).countUe p).logEcc kind addr p (sl / 24) (homeOf addr))
  | 3 => .next ((s.l1Error unit addr).coreUe 3 (64 * addr) unit)
  | 4 =>
    let s := s.updCore unit (fun c => { c with spbad := set false c.spbad (addr / 8) true })
    .next (s.coreUe 4 0 unit)
  | 5 =>
    let s := match (s.core unit).rowHolder (addr / 384) with
      | some (slot, row) => s.updCore unit (fun c => c.updPack slot (fun p => { p with bad := upd 0 p.bad row (fun m => m ||| granuleLanes addr) }))
      | none => s
    .next (s.coreUe 5 0 unit)
  | 6 =>
    let s := s.updCore unit (fun c => { c with stage := c.stage.mapIdx (fun i (e : StageEntry) => if i = addr then { e with bad := true } else e) })
    .next (s.coreUe 6 0 unit)
  | 7 => .next (s.tamper unit addr)
  | 8 =>
    let p := unit % 32
    let s := { s with badTree := s.badTree ++ [(p, unit / 32, addr)] }
    .next ((s.countUe (some p)).logError 8 0 (some p) 4 0 (unit / 32))
  | k =>
    if k < 10 then .next s
    else
      let z := ({ s with srambad := s.srambad ++ [(k, unit, addr / 8)] } : State).draw
      .next (z.2.coreUe (z.1.toNat % 256) 0 unit)

/-! ### The state machine of a partition (R20, R21, R24, R31) -/

/-- The clusters and slices named by a partition's registers. -/
def State.partClusters (s : State) (p : Nat) : List Nat := (List.range 32).filter (fun n => bit (s.part p 0x08) n)
def State.partSlices (s : State) (p : Nat) : List Nat := (List.range 96).filter (fun sl => s.hasSlice p sl)

/-- The other enabled partitions. -/
def State.others (s : State) (p : Nat) : List Nat := (List.range 32).filter (fun q => q != p && s.enabled q)

/-- The lanes of the unfenced queue engines (R407). -/
def State.laneLimit (s : State) : Nat := 32 * ((List.range 4).filter (fun e => !bit (s.regVal bootStat) (32 + e))).length

/-- A slice belongs to another partition: an enabled one names it, or one that is RELEASING still owns it (R20, R21, R29). -/
def State.taken (s : State) (p sl : Nat) : Bool :=
  (s.others p).any (fun q => s.hasSlice q sl) || (match s.sliceOwner sl with | some q => q != p | none => false)

/-- The slices that a partition owns (R29). -/
def State.ownSlices (s : State) (p : Nat) : List Nat := (List.range 96).filter (fun sl => s.sliceOwner sl == some p)

/-- The reason an enable is refused, checked in the order of the table (R20). -/
def State.enableFlaw (s : State) (p : Nat) : Option Nat :=
  let cl := s.partClusters p
  let sl := s.partSlices p
  let ln := fld (s.part p 0x20) 0 8
  let vc := fld (s.part p 0x28) 0 6
  let sum (f : Nat → Nat) : Nat := ((s.others p).map f).foldl (· + ·) 0
  if cl.isEmpty || sl.isEmpty then some 1
  else if (s.others p).any (fun q => cl.any (fun n => (s.partClusters q).contains n)) then some 2
  else if sl.any (fun n => s.taken p n) then some 3
  else if cl.any (fun n => s.clusterSt n == 3) || sl.any (fun n => bit (s.regVal (sliceStat n)) 2) then some 4
  else if ln = 0 || s.laneLimit < ln + sum (fun q => fld (s.part q 0x20) 0 8) then some 5
  else if vc = 0 || 46 < vc + sum (fun q => fld (s.part q 0x28) 0 6) then some 6
  else if s.partIe p && !s.partProt p then some 7
  else if cl.any (fun n => s.clusterSt n == 0 || s.clusterSt n == 1) then some 8
  else none

/-- Fields of PART_STAT and SLICE_STAT. -/
def State.setSt (s : State) (p st : Nat) : State := s.putReg (partBase p + 0x30) 0 3 st
def State.setPend (s : State) (p n : Nat) : State := s.putReg (partBase p + 0x30) 16 16 n
def State.pend (s : State) (p : Nat) : Nat := fld (s.part p 0x30) 16 16
def State.setClean (s : State) (sl : Nat) (b : Bool) : State := s.putReg (sliceStat sl) 0 1 (b2n b)
def State.clean (s : State) (sl : Nat) : Bool := bit (s.regVal (sliceStat sl)) 0
def State.sliceBusy (s : State) (sl : Nat) : Bool := bit (s.regVal (sliceStat sl)) 1

/-- A scrub or a metadata initialisation starts, or starts again, at offset 0 (R30, R32). -/
def State.startSlice (s : State) (sl : Nat) : State :=
  let s := (s.putReg (sliceStat sl) 1 1 1).putReg (sliceStat sl) 16 14 0
  { s with scrubAt := ins s.scrubAt sl s.time }

/-- It stops. -/
def State.stopSlice (s : State) (sl prog : Nat) : State :=
  let s := (s.putReg (sliceStat sl) 1 1 0).putReg (sliceStat sl) 16 14 prog
  { s with scrubAt := del s.scrubAt sl }

/-- A new key set, of the next numbers of the trust engine's generator (R24). -/
def State.newKeys (s : State) (p : Nat) : State :=
  let a := partBase p + 0x38
  let k (i : Nat) : BitVec 256 := Config.drbg (s.free + i)
  let s := { s with keys := ins s.keys p ⟨k 0, k 1, k 2, k 3⟩, free := s.free + 4 }
  s.putReg a 0 32 ((fld (s.regVal a) 0 32 + 1) % 2 ^ 32)

/-- The key set of a partition is loaded into the crypto engines of its slices (R24). -/
def State.loadKeys (s : State) (p : Nat) : State :=
  match look s.keys p with
  | some k => (s.partSlices p).foldl (fun (s : State) sl => { s with sliceKeys := ins s.sliceKeys sl k }) s
  | none => s

/-- KEYING: keys are loaded and, with IE, the metadata regions initialised (R21); no slice is keyed yet (R19). -/
def State.startKeying (s : State) (p : Nat) : State :=
  let sl := s.partSlices p
  let s := (s.setSt p 2).setPend p sl.length
  if s.partIe p then sl.foldl (fun (s : State) x => s.startSlice x) s else s

/-- SCRUBBING: each slice that is not CLEAN is scrubbed, or, in a partition with PROT = 1 and IE = 1, may be keyed without a scrub; with
none to scrub, KEYING follows at once (R21, R31). The spec does not say which of the two ways a device takes: a free value does (see the
assumption log). -/
def State.startScrub (s : State) (p : Nat) : State :=
  let (z, s) := s.draw
  let keyed := s.partProt p && s.partIe p && bit z 0
  let dirty := if keyed then [] else (s.partSlices p).filter (fun sl => !s.clean sl)
  let s := (dirty.foldl (fun (s : State) x => s.startSlice x) (s.setSt p 1)).setPend p dirty.length
  if dirty.isEmpty then s.startKeying p else s

/-- PARTITION_ENABLE (R20, R21). After a module failure no partition is enabled (R407). -/
def execPartitionEnable (p : Nat) (s : State) : Host.Outcome State Fault Refusal :=
  if s.partSt p ≠ 0 || s.enabled p || fld (s.regVal bootStat) 0 3 = 7 then .next s
  else
    match s.enableFlaw p with
    | some e => .next (s.putReg (partBase p + 0x30) 8 8 e)
    | none =>
      let s := (s.putReg (partBase p) 0 1 1).putReg (partBase p + 0x30) 32 16 0
      let s := (s.partSlices p).foldl (fun (s : State) sl => s.putReg (sliceStat sl) 8 8 p) s
      .next ((s.newKeys p).startScrub p)

/-- A slice's frames are UNSET, and nothing of it is poisoned (R30, R47). R34 does not say whether poison outlives a partition's reset that
keys the slice without a scrub: the reset in READY ends it (see the assumption log). -/
def State.wipeMarks (s : State) (sl : Nat) : State :=
  let lo := sl * 2 ^ 33
  let keepOut (u : Nat) (k : Nat) : Bool := !(decide (lo ≤ k * u) && decide (k * u < lo + 2 ^ 33))
  { s with
    frames := keep (keepOut (2 ^ 16)) s.frames
    poison := keep (keepOut 4) s.poison
    badline := keep (keepOut 4) s.badline
    tagDelta := keep (keepOut 64) s.tagDelta
    minor := keep (keepOut 64) s.minor
    major := keep (keepOut 4096) s.major }

/-- One slice fewer is pending. -/
def State.pendDown (s : State) (p : Nat) : State := s.setPend p (s.pend p - 1)

/-- SLICE_SCRUB_DONE (R30): every line is zero, and the slice is CLEAN. -/
def execSliceScrubDone (sl : Nat) (s : State) : Host.Outcome State Fault Refusal :=
  match s.sliceOwner sl with
  | none => .next s
  | some p =>
    if !s.sliceBusy sl || s.clean sl || !(s.partSt p = 1 || s.partSt p = 5) then .next s
    else
      let lo := sl * 2 ^ 33
      let s := { s with mem := keep (fun a => !(decide (lo ≤ a) && decide (a < lo + 2 ^ 33))) s.mem }
      let s := { s with veils := del s.veils sl }
      let s := (((s.wipeMarks sl).stopSlice sl 8192).setClean sl true).pendDown p
      .next (if s.partSt p = 1 && s.pend p = 0 then s.startKeying p else s)

/-- What a slice that has not been scrubbed holds under fresh keys: its stored bytes decrypt to unrelated values (R31). -/
def State.veilSlice (s : State) (sl : Nat) : State :=
  let lo := sl * 2 ^ 33
  let k := s.next
  { s with next := k + 1, veils := ins s.veils sl k, mem := keep (fun a => !(decide (lo ≤ a) && decide (a < lo + 2 ^ 33))) s.mem }

/-- The tree of a partition is consistent again (R27, R34). -/
def State.freshTree (s : State) (p : Nat) : State :=
  { s with badTree := s.badTree.filter (fun t => t.1 != p), nodeOff := s.nodeOff.filter (fun t => t.1 != p) }

/-- METADATA_INIT_DONE (R27, R31): every counter of the slice is 0, and its frames are UNSET. PROG is defined as the progress of a scrub;
the model leaves it at the 1,024 MiB that the initialisation covered (see the assumption log). -/
def execMetadataInitDone (sl : Nat) (s : State) : Host.Outcome State Fault Refusal :=
  match s.sliceOwner sl with
  | none => .next s
  | some p =>
    if !s.sliceBusy sl || s.partSt p ≠ 2 then .next s
    else
      let s := s.freshTree p
      let kept := s.poison
      let s : State := { (s.wipeMarks sl) with poison := kept }
      let s := if s.clean sl then s else s.veilSlice sl
      .next ((s.stopSlice sl 1024).pendDown p)

/-- PARTITION_KEYING_DONE (R21, R31): once no slice's metadata are being initialised the keys are loaded: READY, and CLEAN is 0 from then
on. -/
def execPartitionKeyingDone (p : Nat) (s : State) : Host.Outcome State Fault Refusal :=
  if s.partSt p = 2 && (s.partSlices p).all (fun sl => !s.sliceBusy sl) then
    .next ((s.partSlices p).foldl (fun (s : State) sl => s.setClean sl false) (((s.loadKeys p).setPend p 0).setSt p 3))
  else .next s

/-- A slice leaves its partition. -/
def State.freeSlice (s : State) (sl : Nat) : State := s.putReg (sliceStat sl) 8 8 0xFF

/-- PARTITION_RESET_DONE: RESETTING goes on to SCRUBBING (R21). -/
def execPartitionResetDone (p : Nat) (s : State) : Host.Outcome State Fault Refusal :=
  if s.partSt p = 4 then .next (s.startScrub p) else .next s

/-- PARTITION_RELEASE_DONE: the scrubbed slices are free (R21). -/
def execPartitionReleaseDone (p : Nat) (s : State) : Host.Outcome State Fault Refusal :=
  if s.partSt p = 5 && s.pend p = 0 then
    .next (((s.ownSlices p).foldl (fun (s : State) sl => s.freeSlice sl) s).setSt p 0)
  else .next s

/-! ### Rebinding a frame (R48) -/

/-- A rebind begins: registrations in the frame are dropped without write-back. -/
def State.rebindStart (s : State) (core f at_ : Nat) : State :=
  let pa := f * 2 ^ 16
  if s.rebind.isSome || isHost pa || !s.reachable (s.partOfCluster core) pa then s
  else
    let ws := (s.regs.filter (fun e => frameOf e.1 == f)).map (fun e => e.1)
    let s := ws.foldl (fun (s : State) w =>
      ((regOwners (s.reg w)).foldl (fun (s : State) o => s.dropOwner o.1 w) s).setReg w .unreg) s
    { s with rebind := some (f, at_) }

/-- A rebind ends: the frame's lines are zeros under the new attribute, and the accesses that waited proceed. -/
def State.rebindEnd (s : State) : State :=
  match s.rebind with
  | none => s
  | some (f, at_) =>
    let lo := f * 2 ^ 16
    let inF (u : Nat) (k : Nat) : Bool := !(decide (lo ≤ k * u) && decide (k * u < lo + 2 ^ 16))
    let s : State := if (look s.veils (sliceOf lo)).isSome then s.setBytes lo (List.replicate (2 ^ 16) 0) else { s with mem := keep (inF 1) s.mem }
    let s : State := { s with
      poison := keep (inF 4) s.poison
      badline := keep (inF 4) s.badline
      tagDelta := keep (inF 64) s.tagDelta
      frames := set 0 s.frames f at_
      rebind := none }
    let s := if at_ = attrEnci then (List.range 1024).foldl (fun (s : State) i => s.countEnci (f * 2 ^ 14 + 16 * i)) s else s
    s.pump

/-- FRAME_REBIND by the service core of a cluster. -/
def execFrameRebind (core : Nat) (v : W64) (s : State) : Host.Outcome State Fault Refusal :=
  .next (s.rebindStart core (fld v 16 32) (fld v 0 2))

/-- FRAME_REBIND_DONE. -/
def execFrameRebindDone (s : State) : Host.Outcome State Fault Refusal := .next s.rebindEnd

end Sys2Proof.Machine
end

