-- ==== Sys2Proof/Machine/Queues.lean ====
section
/-! DEFINITION. Queues and queue engines: descriptors, packets, completions, launches with their checks, graphs, the engine
rounds, arbitration, and QPOST (R278-R281, R291, R314, R318-R336, R46). -/

namespace Sys2Proof.Machine

/-! ### Engine work that may wait for a page (R46) -/

/-- What a piece of engine work comes to: done, a wait (for words that others hold, or for a page), or a fault code. -/
inductive Work (α : Type)
  | ok (x : α) (s : State)
  | busy (s : State)
  | page (s : State)
  | failed (code : Nat)

/-- An access whose page faults first go to a service core; `page` is 2 once that has been without success. -/
def EngRes.work {α : Type} (r : EngRes α) (s : State) (page cluster kind id : Nat) (q : Eng) : Work α :=
  match r with
  | .ok x s => .ok x s
  | .busy s => .busy s
  | .fault va f => if f.code = fcPageFault && page ≠ 2 then .page (s.engPageFault cluster kind id q va f) else .failed f.code

/-! ### Descriptors (R319-R321) -/

/-- The agent that reads and writes for work of the hub that no lane holds and the spec gives no agent (see the assumption log). -/
def engAgent : Nat := 96

/-- The collective engine of R7. -/
def collAgent : Nat := 113

/-- The queue engine of a queue that holds no lane. R318 has a lane read for a queue and does not say which reads its descriptor, or
writes a completion, while it holds none: the lowest engine in service does (see the assumption log). -/
def State.idleEngine (s : State) : Nat := 96 + (findBelow 4 (fun e => !bit (s.regVal bootStat) (32 + e))).getD 0

/-- A function's queue descriptor. -/
structure QDescr where
  ring : Nat
  log2n : Nat
  prio : Nat
  proc : Nat
  valid : Bool
  device : Bool
  rd : Nat
  wr : Nat
  st : Nat
  err : Nat
  reserved : Bool
  deriving DecidableEq, Repr

/-- The fields of 64 descriptor bytes. -/
def qdescOf (bs : List Byte) : QDescr :=
  ⟨recNum bs 0 8, recNum bs 8 1, recNum bs 9 1 % 8, recNum bs 10 1, recNum bs 11 1 % 2 == 1, recNum bs 11 1 / 2 % 2 == 1, recNum bs 12 4,
    recNum bs 16 4, recNum bs 20 1, recNum bs 21 1, recNum bs 9 1 / 8 != 0 || recNum bs 11 1 / 4 != 0 || recNum bs 22 42 != 0⟩

/-- What the engine knows of a queue. -/
def State.queue (s : State) (f q : Nat) : Option QState := s.queues.find? (fun x => x.fn == f && x.q == q)

/-- The queue engine that serves a queue (R7, R318): that of its lane. -/
def State.engOf (s : State) (f q : Nat) : Nat :=
  match (s.queue f q).bind (fun (x : QState) => x.lane) with | some l => 96 + l / 32 | none => s.idleEngine

/-- The physical address of a descriptor. -/
def State.descPa (s : State) (f q : Nat) : Option Nat := (s.vcpPage f).map (fun pa => pa + 64 * q)

/-- What reading a descriptor comes to; `busy` waits for words that others hold. -/
inductive DescRes
  | none
  | busy (s : State)
  | fault (code : Nat)
  | ok (d : QDescr)

/-- Read a descriptor. -/
def State.desc (s : State) (f q : Nat) : DescRes :=
  match s.descPa f q with
  | none => .none
  | some pa =>
    match s.readAt (s.fnPart f) ⟨s.engOf f q, true⟩ pa 64 with
    | .ok (bs, _) => .ok (qdescOf bs)
    | .busy t => .busy t
    | .fault c => .fault c

/-- The error of a valid descriptor (R320): RES, FIELD, then ALIGN. -/
def QDescr.flaw (d : QDescr) : Option Nat :=
  if d.reserved then some 2
  else if d.log2n < 4 || 16 < d.log2n || 63 < d.proc then some 7
  else if d.ring % 64 ≠ 0 then some 3
  else none

/-- Packets in the ring: WRIDX − RDIDX mod 2^32. -/
def QDescr.held (d : QDescr) : Nat := (d.wr + 2 ^ 32 - d.rd) % 2 ^ 32

/-- A queue that the engine hears of for the first time. -/
def QState.fresh (f q : Nat) : QState :=
  { fn := f, q := q, lane := none, wants := false, pkt := none, step := 0, pos := 0, start := 0, fin := none, served := 0, since := 0,
    page := 0, restart := false, own := none, look := false }

/-- Change what the engine knows of a queue. -/
def State.updQueue (s : State) (f q : Nat) (g : QState → QState) : State :=
  if (s.queue f q).isSome then { s with queues := s.queues.map (fun x => if x.fn == f && x.q == q then g x else x) }
  else { s with queues := s.queues ++ [g (QState.fresh f q)] }

/-- The descriptor as the engine has it: its own copy of RDIDX (if it has one), STATE and ERR stands while it could not be written
(R328). -/
def QState.view (x : QState) (d : QDescr) : QDescr :=
  match x.own with | some (rd, st, err) => { d with rd := rd.getD d.rd, st := st, err := err } | none => d

/-- A message-signalled interrupt of a function (R380). -/
def State.interrupt (s : State) (f vec : Nat) : State := { s with hostout := s.hostout ++ [.msix f vec] }

/-- FN_STAT.QF, QIDX and QCODE after a descriptor that could not be written (R328, R378). -/
def State.recordQf (s : State) (f q code : Nat) : State :=
  let v := s.mreg 0 (fnStat f)
  s.setMreg (fnStat f) (putFld (putFld (putFld v 32 1 1) 33 9 q) 42 8 code)

/-- What writing a descriptor's fields comes to: done; kept in the engine's own copy, since the write failed (R328); or a wait for words
that others hold. -/
inductive Put
  | done (s : State)
  | kept (s : State)
  | busy (s : State)

/-- The state that a write of a descriptor leaves. -/
def Put.state (r : Put) : State := match r with | .done s => s | .kept s => s | .busy s => s

/-- What follows a write that does not wait. -/
def Put.map (r : Put) (f : State → State) : Put := match r with | .done s => .done (f s) | .kept s => .kept (f s) | .busy s => .busy s

/-- Write RDIDX (where it is given), STATE and ERR of a descriptor. A write that fails leaves them in the engine's own copy, the function
hears of it, and the queue is served no further (R328). -/
def State.putFields (s : State) (f q : Nat) (rd : Option Nat) (st err : Nat) : Put :=
  match s.descPa f q with
  | none => .done s
  | some pa =>
    let r : Reader := ⟨s.engOf f q, true⟩
    let first : Sync State := match rd with | some n => s.writeAt (s.fnPart f) r (pa + 12) (bytesOf 4 n) | none => .ok s
    let go : Sync State := match first with
      | .ok s => s.writeAt (s.fnPart f) r (pa + 20) (bytesOf 1 st ++ bytesOf 1 err)
      | r => r
    match go with
    | .ok s => .done s
    | .busy t => .busy t
    | .fault c =>
      let keep (x : QState) : QState :=
        { x with own := some (match rd with | some n => some n | none => x.own.bind (fun o => o.1), st, err), lane := none, wants := false }
      .kept (((s.updQueue f q keep).recordQf f q c).interrupt f 512)

/-- Write RDIDX, STATE and ERR of a descriptor. -/
def State.putDesc (s : State) (f q : Nat) (d : QDescr) : Put := s.putFields f q (some d.rd) d.st d.err

/-- A queue that has gone to ERROR loses its lane (R328). -/
def State.queueStopped (s : State) (f q : Nat) : State :=
  s.updQueue f q (fun x =>
    { x with lane := none, wants := false, pkt := none, step := 0, pos := 0, fin := none, page := 0, restart := false })

/-- The fields of ERROR are written, and the function hears of it once (R328). -/
def Put.stopped (r : Put) (f q : Nat) : Put :=
  match r with
  | .done s => .done ((s.queueStopped f q).interrupt f 512)
  | r => r.map (fun s => s.queueStopped f q)

/-- The queue goes to ERROR with a reason (R328). -/
def State.queueError (s : State) (f q : Nat) (d : QDescr) (err : Nat) : Put := (s.putFields f q (some d.rd) 2 err).stopped f q

/-- The queue goes to ERROR with READ, its descriptor having met a fault: RDIDX stays as it is (R328). -/
def State.queueUnread (s : State) (f q : Nat) : Put := (s.putFields f q none 2 5).stopped f q

/-! ### Notifications (R319-R321, R328) -/

/-- FN_STAT.QF clears when its queue is made VALID again (R378). -/
def State.clearQf (s : State) (f q : Nat) : State :=
  if fld (s.mreg 0 (fnStat f)) 33 9 = q then s.setMreg (fnStat f) (putFld (s.mreg 0 (fnStat f)) 32 1 0) else s

/-- The queue is in ERROR with OVERRUN (R328). A COPY under way, and a packet whose completion is owed, are earlier packets: they run to
their end first, and RDIDX passes them; the polls of a WAIT have no effect, and it starts again. -/
def State.overrun (s : State) (f q : Nat) (x : QState) (d : QDescr) : Put :=
  if x.pkt.isSome && (x.step == 1 || x.step == 4 || x.step == 5) then
    .done (s.updQueue f q (fun y => { y with step := if y.step = 1 then 3 else if y.step = 4 then 14 else 34 }))
  else if 3 = x.step || 10 ≤ x.step then .done s
  else s.queueError f q d 4

/-- The engine's own copy has been written back, and the queue runs again (R320, R328). -/
def QState.restarted (x : QState) : QState := { x with own := none, restart := false }

/-- A queue that has been seen with VALID 0 is VALID again (R320, R328, R378): one in ERROR goes to IDLE. -/
def State.revalid (s : State) (f q : Nat) (x : QState) (d : QDescr) : Put :=
  if !x.restart then .done s
  else if x.own.isSome || d.st == 2 then (s.putDesc f q { (x.view d) with st := 0, err := 0 }).map (fun t => (t.updQueue f q QState.restarted).clearQf f q)
  else .done ((s.updQueue f q QState.restarted).clearQf f q)

/-- The engine reads the descriptor after a notification: an error, or work that waits for a lane. A read or a write of it that waits for
others is tried again in the next round. -/
def State.lookAt (s : State) (f q : Nat) : State :=
  let later (t : State) : State := t.updQueue f q (fun x => { x with look := true })
  let outcome (r : Put) : State := match r with | .busy t => later t | r => r.state
  let s := if (s.queue f q).isSome then s.updQueue f q (fun x => { x with look := false }) else s
  match s.desc f q with
  | .none => s
  | .busy t => later t
  | .fault _ => outcome (s.queueUnread f q)
  | .ok d0 =>
    let x := (s.queue f q).getD (QState.fresh f q)
    if !d0.valid then s.updQueue f q (fun x => { x with restart := true })
    else
      match s.revalid f q x d0 with
      | .busy t => later t
      | .kept t => t
      | .done s =>
        let again := x.restart && (x.own.isSome || d0.st == 2)
        let d := if again then { (x.view d0) with st := 0, err := 0 } else x.view d0
        if d.st = 2 then s
        else
          match d.flaw with
          | some e => outcome (s.queueError f q d e)
          | none =>
            if 2 ^ d.log2n < d.held then outcome (s.overrun f q x d)
            else if d.held = 0 then s
            else s.updQueue f q (fun x => if x.lane.isNone then { x with wants := true } else x)

/-- A notification is performed (R319, R321): WRIDX is stored, and the engine reads the descriptor. A device queue takes none, and while
VCP_BASE.V is 0 they are ignored. -/
def State.notify (s : State) (f q : Nat) (idx : W32) : Put :=
  match s.descPa f q, s.desc f q with
  | some pa, .ok d =>
    if d.device then .done s
    else
      (match s.writeAt (s.fnPart f) ⟨s.engOf f q, true⟩ (pa + 16) (bytesOf 4 idx.toNat) with
        | .ok t => .done (t.lookAt f q)
        | .busy t => .busy t
        | .fault _ => s.queueError f q d 5)
  | some _, .fault _ => .done (s.lookAt f q)
  | some _, .busy t => .busy t
  | _, _ => .done s

/-- A write of the function waits at the host port. -/
def State.aperBusy (s : State) (f : Nat) : Bool := s.aper.any (fun (w : AperWrite) => w.fn == f)

/-- NOTIFY (R103, R319, R321): a write of the function, which follows its earlier ones; one that must wait for them, or for words that
others hold, joins those that wait at the host port. A function that is not bound answers Unsupported Request (R377). -/
def execNotify (f q : Nat) (idx : W32) (s : State) : Host.Outcome State Fault Refusal :=
  let wait (t : State) : State := { t with aper := t.aper ++ [⟨f, 0, bytesOf 4 idx.toNat, some q⟩] }
  if !s.bound f then .next { s with hostout := s.hostout ++ [.unsupported f] }
  else if s.aperBusy f then .next (wait s)
  else match s.notify f q idx with | .busy t => .next (wait t) | r => .next r.state

/-! ### Packets (R322, R326, R328) -/

/-- The first check of a packet that fails (R328): TYPE, RES, ALIGN, FIELD. -/
def packetFlaw (bs : List Byte) : Option Nat :=
  let t := recNum bs 0 1
  let aux := recNum bs 2 2
  let z (o n : Nat) : Bool := recNum bs o n == 0
  let res := recNum bs 1 1 / 4 != 0 || (match t with
    | 1 => !z 54 2
    | 2 => !(z 2 2 && z 26 30)
    | 3 => !(z 2 2 && z 32 24)
    | 4 => !z 48 8
    | 5 => !(z 2 2 && z 25 31)
    | 6 => !(z 2 2 && z 25 3 && z 32 24)
    | 8 => !(z 2 2 && z 16 40)
    | _ => !(z 2 2 && z 8 48))
  let align := recNum bs 56 8 % 32 != 0 || (match t with
    | 2 => recNum bs 8 8 % 64 != 0 || recNum bs 16 8 % 4 != 0
    | 5 | 6 | 8 => recNum bs 8 8 % 8 != 0
    | _ => false)
  let field := match t with
    | 1 => decide (256 < aux)
    | 2 => decide (recNum bs 24 2 = 0) || decide (4096 < recNum bs 24 2)
    | 3 => decide (recNum bs 24 8 = 0) || decide (2 ^ 40 < recNum bs 24 8)
    | 4 => decide (aux = 0) || decide (32 < aux)
    | 5 => decide (2 < recNum bs 24 1)
    | 6 => decide (3 < recNum bs 24 1)
    | _ => false
  if t = 0 || 0x0A ≤ t then some 1 else if res then some 2 else if align then some 3 else if field then some 7 else none

/-- A queue's address space: that of its process. -/
def State.queueSpace (s : State) (f proc : Nat) : Nat × W64 :=
  let asid := get 0 s.procs (64 * f + proc)
  (asid, get 0 s.roots (65536 * s.fnPart f + asid))

/-- The engine of lane group `e` in an address space of a partition. -/
def queueEng (agent p asid : Nat) (root : W64) : Eng := ⟨agent, some p, asid, root, kTransfer, true⟩

/-! ### Completions (R323) -/

/-- A completion that is done: its packet is open no more. -/
def State.finDone (s : State) (f : Fin) : State :=
  let s := { s with fins := s.fins.filter (fun x => x.id != f.id), openPkts := s.openPkts.filter (fun o => o.id != f.id) }
  if f.irq then s.interrupt f.fn f.q else s

/-- The engine that writes a completion (R7, R323): that of the queue's lane, or for a collective the collective engine. -/
def State.finAgent (s : State) (f : Fin) : Nat := if 512 ≤ f.q then collAgent else s.engOf f.fn f.q

/-- Take a completion as far as it can go: bytes [31:8] by EWR, then the decrement by ATM, then the interrupt. A SIG that
faults ends the queue with READ. -/
def State.runFin (s : State) (f : Fin) : State :=
  if f.sig = 0 then s.finDone f
  else
    let p := s.fnPart f.fn
    let q := queueEng (s.finAgent f) p f.asid f.root
    let cl := f.cl
    let upd (g : Fin → Fin) (s : State) : State := { s with fins := s.fins.map (fun x => if x.id == f.id then g x else x) }
    let drop (s : State) : State :=
      { s with fins := s.fins.filter (fun x => x.id != f.id), openPkts := s.openPkts.filter (fun o => o.id != f.id) }
    let lost (s : State) : State :=
      if 512 ≤ f.q then drop s
      else match s.desc f.fn f.q with
      | .ok d => match s.queueError f.fn f.q (((s.queue f.fn f.q).getD (QState.fresh f.fn f.q)).view d) 5 with | .busy t => t | r => drop r.state
      | .fault _ => match s.queueUnread f.fn f.q with | .busy t => t | r => drop r.state
      | .busy t => t
      | .none => drop s
    let dec (s : State) : State :=
      match (s.engAtom q f.sig.toNat (fun v => v - 1)).work s f.page cl 4 f.id q with
      | .ok _ s => s.finDone f
      | .busy s => s
      | .page s => upd (fun x => { x with page := 1 }) s
      | .failed _ => lost s
    if f.page = 1 then s
    else if f.wrote then dec s
    else
      let rec_ := bytesOf 1 f.status ++ bytesOf 1 f.code ++ bytesOf 1 f.fcode ++ bytesOf 1 0 ++ bytesOf 4 f.lid ++ bytesOf 8 f.time ++
        bytesOf 8 f.tag.toNat
      match (s.engWrite q (f.sig + 8).toNat rec_).work s f.page cl 4 f.id q with
      | .ok _ s => dec (upd (fun x => { x with wrote := true }) s)
      | .busy s => s
      | .page s => upd (fun x => { x with page := 1 }) s
      | .failed _ => lost s

/-- Take every completion as far as it can go. -/
def State.runFins (s : State) : State := s.fins.foldl (fun (s : State) f => s.runFin f) s

/-- A packet's completion record; the service core of cluster `cl` hears of its page faults. -/
def packetFin (id f q asid : Nat) (root : W64) (bs : List Byte) (status code fcode lid time cl : Nat) : Fin :=
  ⟨id, f, q, asid, root, BitVec.ofNat 64 (recNum bs 56 8), recNum bs 1 1 / 2 % 2 == 1, BitVec.ofNat 64 (recNum bs 4 4), status, code, fcode, lid,
    time, false, 0, cl⟩

/-- The open packet of an accepted LAUNCH or GRAPH. -/
def openPkt (id f q asid : Nat) (root : W64) (bs : List Byte) (lid cl : Nat) : OpenPkt :=
  ⟨id, f, q, asid, root, BitVec.ofNat 64 (recNum bs 56 8), recNum bs 1 1 / 2 % 2 == 1, BitVec.ofNat 64 (recNum bs 4 4), lid, cl⟩

/-- The parent launch of a packet that QPOST has put into a device queue, and the cluster that issued it. -/
def State.postOf (s : State) (f q n : Nat) : Option (Nat × Nat) :=
  (s.posted.find? (fun y => y.1 == f && y.2.1 == q && y.2.2.1 == n)).map (fun y => y.2.2.2)

/-- The cluster whose service core hears of a page fault of packet `n` of a queue (R46): the one that posted it. -/
def State.workCluster (s : State) (f q n : Nat) : Nat :=
  match s.postOf f q n with | some y => y.2 | none => s.clusterFor (some (s.fnPart f))

/-- Every earlier packet of the queue has completed (R324). -/
def State.allComplete (s : State) (f q : Nat) : Bool :=
  !(s.openPkts.any (fun (o : OpenPkt) => o.fn == f && o.q == q)) && !(s.fins.any (fun (x : Fin) => x.fn == f && x.q == q))

/-! ### Launches (R278-R281, R325) -/

/-- What starts a launch: a packet's body, a graph's node (R278). -/
structure Ask0 where
  kdesc : Nat
  karg : W64
  settab : Nat
  setcnt : Nat
  aff : W64
  gx : Nat
  gy : Nat
  gz : Nat
  threads : Nat
  deriving DecidableEq, Repr

/-- The reads that a launch makes: done, or the reason that refuses it with the code of reason 6. -/
inductive Checked (α : Type)
  | ok (x : α)
  | refused (reason fcode : Nat)

/-- DESC (R279, R281): the descriptor's own fields, with the reserved bits of CFG (R351), VIEWV and VIEWC (R191). -/
def descBad (bs : List Byte) (threads : Nat) : Bool :=
  let roles := recNum bs 19 1 % 2 == 1
  let ent (k : Nat) : Nat := recNum bs (32 + 2 * k) 2
  let rows (k : Nat) : Nat := ent k % 4096
  let k := (findBelow 16 (fun i => rows i == 0)).getD 16
  recNum bs 0 8 % 4 != 0 || decide (3 < recNum bs 18 1) || recNum bs 18 1 == 3 || decide (1 < recNum bs 19 1) || recNum bs 30 2 != 0 ||
  decide (2 ^ 21 ≤ recNum bs 8 8) || decide (4096 ≤ recNum bs 26 2) || decide (4096 ≤ recNum bs 28 2) ||
  (if roles then
      recNum bs 16 2 != 0 || recNum bs 24 2 != 0 || threads != 0 || k == 0 ||
      (List.range 16).any (fun i => decide (0x4000 ≤ ent i) || decide (2730 < rows i) || (decide (k ≤ i) && ent i != 0))
    else
      recNum bs 16 2 == 0 || decide (1536 < recNum bs 16 2) || recNum bs 24 2 == 0 || decide (2730 < recNum bs 24 2) || recNum bs 32 32 != 0 ||
      decide (1536 < threads))

/-- The packs of a workgroup: rows and role (R277, R279). -/
def descPacks (bs : List Byte) (threads : Nat) : List (Nat × Nat) :=
  if recNum bs 19 1 % 2 = 1 then
    ((List.range 16).map (fun k => (recNum bs (32 + 2 * k) 2 % 4096, recNum bs (32 + 2 * k) 2 / 4096 % 4))).filter (fun x => x.1 != 0)
  else
    let t := if threads = 0 then recNum bs 16 2 else threads
    List.replicate ((t + 95) / 96) (recNum bs 24 2, 3)

/-- The entry of a set table, before its members are read: none is unfilled. -/
def setRaw (bs : List Byte) : Option (Nat × Nat × Nat × Nat) :=
  if recNum bs 8 4 = 0 then none else some (recNum bs 0 8, recNum bs 8 4, recNum bs 12 1, recNum bs 13 1)

/-- Members of a set all lie in the grid, and none comes twice. -/
def SetEnt.bad (e : SetEnt) (total : Nat) : Bool :=
  match e.list with
  | some l => l.any (fun n => decide (total ≤ n)) || l.dedup.length != l.length
  | none => decide (total ≤ e.first + (e.count - 1) * e.stride) || (e.stride == 0 && decide (1 < e.count))

/-- Every member of a set. -/
def SetEnt.members (e : SetEnt) : List Nat := (List.range e.count).filterMap e.member

/-- A workgroup is in more than four entries, or in more than one cohort. -/
def setsBad (sets : List (Option SetEnt)) : Bool :=
  let es := sets.filterMap id
  let ms := es.flatMap (fun (e : SetEnt) => e.members)
  let cs := (es.filter (fun (e : SetEnt) => e.cohort)).flatMap (fun e => e.members)
  ms.any (fun w => decide (4 < ms.count w)) || cs.any (fun w => decide (1 < cs.count w))

/-- A read whose fault is kept and not taken: READ is the last check of R281. A page fault that a service core may still recover is taken
first: the work waits at the page (R46); `page` is 2 once that has been without success. -/
def EngRes.keepFault {α : Type} (r : EngRes α) (s : State) (page : Nat) : EngRes (Option α × Option (Nat × Flaw)) :=
  match r with
  | .ok x s => .ok (some x, none) s
  | .fault va f => if f.code = fcPageFault && page ≠ 2 then .fault va f else .ok (none, some (va, f)) s
  | .busy s => .busy s

/-- A set table as far as it has been read: its entries, whether one of them is refused, and the first fault that a read met. -/
structure SetTab where
  sets : List (Option SetEnt)
  bad : Bool
  fault : Option (Nat × Flaw)
  deriving DecidableEq, Repr

/-- One more entry. -/
def SetTab.add (t : SetTab) (total : Nat) (e : SetEnt) : SetTab := { t with sets := t.sets ++ [some e], bad := t.bad || e.bad total }

/-- One more entry that is unfilled, or could not be read. -/
def SetTab.skip (t : SetTab) (f : Option (Nat × Flaw)) : SetTab :=
  { t with sets := t.sets ++ [none], fault := match t.fault with | some x => some x | none => f }

/-- Read the entries of a set table in turn (R280, R281). R281 names no reason for a COUNT above 1,048,576, the bound that R280 gives it:
such an entry is refused with SET (see the assumption log). -/
def State.readSets (q : Eng) (page tab total : Nat) : Nat → Nat → SetTab → State → EngRes SetTab
  | 0, _, acc, s => .ok acc s
  | k + 1, i, acc, s =>
    ((s.engRead q (tab + 16 * i) 16).keepFault s page).andThen (fun r s =>
      match r with
      | (none, f) => State.readSets q page tab total k (i + 1) (acc.skip f) s
      | (some bs, _) =>
        match setRaw bs with
        | none => State.readSets q page tab total k (i + 1) (acc.skip none) s
        | some (base, cnt, kind, fl) =>
          if 1 < fl || recNum bs 14 2 ≠ 0 || 1 < kind || 1048576 < cnt || (kind = 1 && base % 4 ≠ 0) then .ok { acc with bad := true } s
          else if kind = 0 then
            State.readSets q page tab total k (i + 1) (acc.add total ⟨base % 2 ^ 32, base / 2 ^ 32, cnt, none, fl == 1⟩) s
          else
            ((s.engRead q base (4 * cnt)).keepFault s page).andThen (fun r s =>
              match r with
              | (none, f) => State.readSets q page tab total k (i + 1) (acc.skip f) s
              | (some ls, _) =>
                let e : SetEnt := ⟨0, 0, cnt, some ((List.range cnt).map (fun m => recNum ls (4 * m) 4)), fl == 1⟩
                State.readSets q page tab total k (i + 1) (acc.add total e) s))

/-- How many workgroups fit on an empty core (R284). -/
def perCore (rows : List Nat) (spsz size : Nat) : Nat :=
  let n := min (24 / rows.length) (2730 / rows.foldl (· + ·) 0)
  if size = 0 then n else min n (spUsable spsz / size)

/-- FIT (R281): an empty core cannot hold one workgroup of the descriptor's. -/
def descFits (bs : List Byte) (threads : Nat) : Bool :=
  let packs := descPacks bs threads
  decide (packs.length ≤ 24) && decide ((packs.map (fun x => x.1)).foldl (· + ·) 0 ≤ 2730) &&
  decide (alignUp (recNum bs 20 4) 4096 ≤ spUsable (recNum bs 18 1))

/-- COHORT (R281): a cohort has more members than the partition's cores hold when they are empty. -/
def State.cohortFits (s : State) (p : Nat) (bs : List Byte) (threads : Nat) (sets : List (Option SetEnt)) : Bool :=
  let rows := (descPacks bs threads).map (fun x => x.1)
  let cores := (s.partCores p).filter (fun n => s.clusterSt (n / 2) == 2 && !(s.core n).quarantined)
  let room := cores.length * perCore rows (recNum bs 18 1) (alignUp (recNum bs 20 4) 4096)
  sets.all (fun x => match x with | some (e : SetEnt) => !e.cohort || decide (e.count ≤ room) | none => true)

/-- The launch that a descriptor, a set table and the packet's fields give (R278, R279). -/
def launchOf (q : Eng) (p fn qn prio proc parent : Nat) (a : Ask0) (bs : List Byte) (sets : List (Option SetEnt)) : Launch :=
  { part := p, fn := fn, queue := qn, prio := prio, proc := proc, asid := q.asid, root := q.root, parent := parent
    entry := BitVec.ofNat 64 (recNum bs 0 8), cfg := BitVec.ofNat 64 (recNum bs 8 8)
    threads := if a.threads = 0 then recNum bs 16 2 else a.threads, spsz := recNum bs 18 1, roles := recNum bs 19 1 % 2 == 1
    scratch := recNum bs 20 4, packs := descPacks bs a.threads, viewv := recNum bs 26 2, viewc := recNum bs 28 2
    rgn := (List.range 8).map (fun i => BitVec.ofNat 64 (recNum bs (64 + 8 * i) 8))
    gx := a.gx, gy := a.gy, gz := a.gz, karg := a.karg, sets := sets, aff := a.aff, next := 0, ahead := [], resident := 0
    ended := 0, children := 0, err := none, waiter := 0, node := none, order := 0 }

/-- The checks of R281 in their order, and the launch they let through. READ is the last: what could not be read fails no check before
it. -/
def State.checkLaunch (s : State) (q : Eng) (page p fn qn prio proc parent : Nat) (a : Ask0) : EngRes (Checked Launch) :=
  if a.kdesc % 64 ≠ 0 || 1536 < a.threads then .ok (.refused 1 0) s
  else
    ((s.engRead q a.kdesc 128).keepFault s page).andThen (fun d s =>
      let known (f : List Byte → Bool) : Bool := match d.1 with | some bs => f bs | none => false
      if known (fun bs => descBad bs a.threads) then .ok (.refused 1 0) s
      else if a.gx = 0 || a.gy = 0 || a.gz = 0 || 2 ^ 32 < a.gx * a.gy * a.gz then .ok (.refused 2 0) s
      else if known (fun bs => !descFits bs a.threads) then .ok (.refused 3 0) s
      else if 256 < a.setcnt then .ok (.refused 4 0) s
      else
        (State.readSets q page a.settab (a.gx * a.gy * a.gz) a.setcnt 0 ⟨[], false, none⟩ s).andThen (fun t s =>
          if t.bad || setsBad t.sets then .ok (.refused 4 0) s
          else if known (fun bs => !s.cohortFits p bs a.threads t.sets) then .ok (.refused 5 0) s
          else
            match d, t.fault with
            | (_, some (va, f)), _ => .fault va f
            | _, some (va, f) => .fault va f
            | (some bs, none), none => .ok (.ok (launchOf q p fn qn prio proc parent a bs t.sets)) s
            | (none, none), none => .ok (.refused 6 0) s))

/-- A LAUNCHID: 32 bits, not 0, and unique among the unfinished launches (R283): the counter's, or the lowest that is free. -/
def State.launchId (s : State) : Nat :=
  let n := s.next % 2 ^ 32
  if n = 0 || (look s.launches n).isSome then
    ((List.range (s.launches.length + 1)).map (fun i => i + 1)).find? (fun i => (look s.launches i).isNone) |>.getD 1
  else n

/-- The distributor accepts a launch. -/
def State.accept (s : State) (l : Launch) : Nat × State :=
  let id := s.launchId
  (id, { s with next := s.next + 1, launches := ins s.launches id { l with order := s.next } })

/-- The fields of a LAUNCH packet (R325). -/
def launchAsk (bs : List Byte) : Ask0 :=
  ⟨recNum bs 8 8, BitVec.ofNat 64 (recNum bs 16 8), recNum bs 24 8, recNum bs 2 2, BitVec.ofNat 64 (recNum bs 32 8), recNum bs 40 4 + 1,
    recNum bs 44 4 + 1, recNum bs 48 4 + 1, recNum bs 52 2⟩

/-! ### Graphs (R330-R332) -/

/-- A node of a graph table. -/
def nodeOf (bs : List Byte) : GNode :=
  { kdesc := BitVec.ofNat 64 (recNum bs 0 8), karg := BitVec.ofNat 64 (recNum bs 8 8), settab := BitVec.ofNat 64 (recNum bs 16 8)
    gx := recNum bs 24 4 + 1, gy := recNum bs 28 4 + 1, gz := recNum bs 32 4 + 1, setcnt := recNum bs 36 2, pred := recNum bs 38 2
    succ := ((List.range 8).map (fun i => recNum bs (40 + 2 * i) 2)).filter (fun x => x != 0xFFFF)
    aff := BitVec.ofNat 64 (recNum bs 56 8), st := 0, code := 0, cnt := recNum bs 38 2 }

/-- The check of a table: an index that is not below NODES, then a PRED that differs from the times the node is named. -/
def tableFlaw (ns : List GNode) : Option Nat :=
  if ns.any (fun n => n.succ.any (fun i => decide (ns.length ≤ i))) then some 1
  else if (ns.zipIdx).any (fun x => (ns.flatMap (fun n => n.succ)).count x.2 != x.1.pred) then some 2
  else none

/-- A node's launch. -/
def GNode.ask (n : GNode) : Ask0 := ⟨n.kdesc.toNat, n.karg, n.settab.toNat, n.setcnt, n.aff, n.gx, n.gy, n.gz, 0⟩

/-- The STAT word of a node (R331). -/
def GNode.stat (n : GNode) : Nat := n.st + n.code * 2 ^ 8 + n.cnt * 2 ^ 16

/-- Change a graph. -/
def State.updGraph (s : State) (id : Nat) (f : Graph → Graph) : State :=
  { s with graphs := s.graphs.map (fun g => if g.id == id then f g else g) }

/-- A node changes, and its STAT word is to be written. -/
def Graph.setNode (g : Graph) (i : Nat) (n : GNode) : Graph :=
  { g with nodes := g.nodes.set i n, todo := if g.todo.contains i then g.todo else g.todo ++ [i] }

/-- The completion of a node's launch: ST, and with DONE one predecessor fewer for each time a successor is named. -/
def Graph.take (g : Graph) (x : Nat × Nat × Nat) : Graph :=
  match g.nodes[x.1]? with
  | none => g
  | some n =>
    let g := g.setNode x.1 { n with st := x.2.1, code := x.2.2 }
    if x.2.1 ≠ 2 then g
    else n.succ.foldl (fun (g : Graph) j => match g.nodes[j]? with
      | some m => g.setNode j { m with cnt := m.cnt - 1 }
      | none => g) g

/-- Write the STAT words that are to be written; the first failure stops the graph. -/
def State.writeStats (s : State) (id e : Nat) : List Nat → State
  | [] => s
  | i :: is =>
    match s.graphs.find? (fun g => g.id == id) with
    | none => s
    | some g =>
      let q := queueEng (96 + e) g.part g.asid g.root
      let w := match g.nodes[i]? with | some n => n.stat | none => 0
      let gone (s : State) : State := s.updGraph id (fun g => { g with todo := g.todo.filter (fun k => k != i), page := 0 })
      match (s.engWrite q ((g.stat + 4 * i) % 2 ^ 64) (bytesOf 4 w)).work s g.page (s.clusterFor (some g.part)) 5 id q with
      | .busy s => s
      | .page s => s.updGraph id (fun g => { g with page := 1 })
      | .ok _ s => State.writeStats (gone s) id e is
      | .failed c =>
        State.writeStats ((gone s).updGraph id (fun g => { g with fail := some (g.fail.getD c) })) id e is

/-- Start the ready nodes, in ascending index; the STAT word of each is written before the next starts (R331). -/
def State.startNodes (s : State) (id e : Nat) : List Nat → State
  | [] => s
  | i :: is =>
    match s.graphs.find? (fun g => g.id == id) with
    | none => s
    | some g =>
      match g.nodes[i]? with
      | none => s
      | some n =>
        if g.page = 1 || g.fail.isSome || !g.todo.isEmpty then s
        else
          let q := queueEng (96 + e) g.part g.asid g.root
          let put (m : GNode) (s : State) : State :=
            State.startNodes ((s.updGraph id (fun g => { (g.setNode i m) with page := 0 })).writeStats id e [i]) id e is
          match (s.checkLaunch q g.page g.part g.fn g.q g.prio g.proc 0 n.ask).work s g.page (s.clusterFor (some g.part)) 5 id q with
          | .busy s => s
          | .page s => s.updGraph id (fun g => { g with page := 1 })
          | .failed _ => put { n with st := 4, code := 6 } s
          | .ok (.refused r _) s => put { n with st := 4, code := r } s
          | .ok (.ok l) s => put { n with st := 1 } (s.accept { l with node := some (id, i) }).2

/-- The status and code of a graph that ends (R332). -/
def Graph.result (g : Graph) : Nat × Nat :=
  match g.fail with
  | some c => (2, c)
  | none =>
    if g.nodes.all (fun n => n.st == 2) then (1, 0)
    else (4, match g.nodes.find? (fun n => n.st == 3) with | some n => n.code | none => 0)

/-- The ready nodes. -/
def Graph.ready (g : Graph) : List Nat :=
  if g.fail.isSome then [] else (List.range g.nodes.length).filter (fun i => match g.nodes[i]? with | some n => n.cnt == 0 && n.st == 0 | none => false)

/-- A graph's round once its STAT words are written (R331, R332). -/
def State.graphRound (s : State) (e : Nat) (g : Graph) : State :=
  if g.page = 1 || !g.todo.isEmpty then s
  else
    let news := sortBy (fun x y => decide (x.1 ≤ y.1)) g.news
    let s := s.updGraph g.id (fun g => { (news.foldl (fun (g : Graph) x => g.take x) g) with news := [] })
    let todo := match s.graphs.find? (fun x => x.id == g.id) with | some x => x.todo | none => []
    let s := s.writeStats g.id e todo
    let ready := match s.graphs.find? (fun x => x.id == g.id) with | some x => x.ready | none => []
    let s := s.startNodes g.id e ready
    match s.graphs.find? (fun x => x.id == g.id) with
    | none => s
    | some x =>
      if x.page = 1 || !x.todo.isEmpty || !x.news.isEmpty || !x.ready.isEmpty || x.nodes.any (fun n => n.st == 1) then s
      else
        let (st, code) := x.result
        { s with graphs := s.graphs.filter (fun y => y.id != x.id) }.pktDone x.pkt st code 0

/-! ### One step of a packet (R324-R329) -/

/-- The state of a queue's packet: 0 not started, 1 under way, 2 polling, 3 under way and errs with OVERRUN once it is done, 4 waits for its
completion, 5 finished, 10 + r waits for its completion and then errs, 30 + r finished and errs, 20 + r errs where it stands. -/
def QState.switchable (x : QState) : Bool := x.pkt.isNone || x.step == 0 || x.step == 2

/-- The state of a packet while it is under way, and once its completion is owed. -/
def QState.onWay (x : QState) : Nat := if x.step = 3 then 3 else 1
def QState.owed (x : QState) : Nat := if x.step = 3 then 14 else 4

/-- One step of a graph (R331): the STAT words that are still to be written come first, at the start every one with ST = 0. -/
def State.graphStep (s : State) (e : Nat) (g : Graph) : State :=
  if g.page = 1 then s
  else
    let s := s.writeStats g.id e g.todo
    match s.graphs.find? (fun x => x.id == g.id) with
    | none => s
    | some x => s.graphRound e x

/-- A packet's effect is done with a status: its completion is owed. `next` is the state that follows the completion. -/
def State.owe (s : State) (x : QState) (cl asid : Nat) (root : W64) (status code next : Nat) : State :=
  let id := s.next
  let f := packetFin id x.fn x.q asid root (x.pkt.getD []) status code 0 0 s.time cl
  { s with next := id + 1, fins := s.fins ++ [f] }.updQueue x.fn x.q (fun y => { y with step := next, fin := some id, page := 0 })

/-- WAIT's condition (R326). -/
def waitHolds (cond : Nat) (v cmp : W64) : Bool :=
  match cond with | 0 => v == cmp | 1 => v != cmp | 2 => decide (cmp.toInt ≤ v.toInt) | _ => decide (v.toInt < cmp.toInt)

/-- Why a copy stops: its share of a round is done, a wait for words that others hold, or a fault. -/
inductive CopyEnd
  | paused
  | busy
  | fault (va : Nat) (f : Flaw)

/-- Copy 4 KiB pieces in ascending order: how far it gets, the state then, and why it stops. -/
def State.copyPieces (q : Eng) (src dst len : Nat) : Nat → Nat → State → Nat × State × CopyEnd
  | 0, pos, s => (pos, s, .paused)
  | fuel + 1, pos, s =>
    if len ≤ pos then (pos, s, .paused)
    else
      let n := min 4096 (len - pos)
      match (s.engRead q (src + pos) n).andThen (fun bs s => s.engWrite q (dst + pos) bs) with
      | .ok _ t => State.copyPieces q src dst len fuel (pos + n) t
      | .busy t => (pos, t, .busy)
      | .fault va f => (pos, s, .fault va f)

/-- One step of the packet that a lane of engine `e` holds, once its fences let it start. -/
def State.stepPacket (s : State) (e : Nat) (x : QState) (d : QDescr) (bs : List Byte) : State :=
  let p := s.fnPart x.fn
  let (asid, root) := s.queueSpace x.fn d.proc
  let q := queueEng (96 + e) p asid root
  let cl := s.workCluster x.fn x.q d.rd
  let id := 512 * x.fn + x.q
  let upd (g : QState → QState) (s : State) : State := s.updQueue x.fn x.q g
  let waitPage (s : State) : State := upd (fun y => { y with page := 1 }) s
  let data {α : Type} (r : EngRes α) : State := match r.work s x.page cl 1 id q with
    | .ok _ s => s.owe x cl asid root 1 0 4
    | .busy s => s
    | .page s => waitPage s
    | .failed c => s.owe x cl asid root 2 c 4
  match recNum bs 0 1 with
  | 1 =>
    let n := d.rd
    let par := match s.postOf x.fn x.q n with | some y => y.1 | none => 0
    let unpost (s : State) : State := { s with posted := s.posted.filter (fun y => !(y.1 == x.fn && y.2.1 == x.q && y.2.2.1 == n)) }
    let refuse (r fc : Nat) (s : State) : State :=
      let s := match look s.launches par with
        | some l => { s with launches := ins s.launches par { l with children := l.children - 1 } }
        | none => s
      let k := s.next
      let f := packetFin k x.fn x.q asid root bs 3 r fc 0 s.time cl
      upd (fun y => { y with step := 5, page := 0 }) (unpost { s with next := k + 1, fins := s.fins ++ [f] })
    match (s.checkLaunch q x.page p x.fn x.q d.prio d.proc par (launchAsk bs)).work s x.page cl 1 id q with
    | .busy s => s
    | .page s => waitPage s
    | .failed c => refuse 6 c s
    | .ok (.refused r fc) s => refuse r fc s
    | .ok (.ok l) s =>
      let k := s.next
      let (lid, s) := { s with next := k + 1 }.accept { l with waiter := k }
      let o := openPkt k x.fn x.q asid root bs lid cl
      upd (fun y => { y with step := 5, page := 0 }) (unpost { s with openPkts := s.openPkts ++ [o] })
  | 2 =>
    let n := recNum bs 24 2
    match (s.engRead q (recNum bs 8 8) (64 * n)).work s x.page cl 1 id q with
    | .busy s => s
    | .page s => waitPage s
    | r =>
      let k := s.next
      let refuse (code fc : Nat) (s : State) : State :=
        let f := packetFin k x.fn x.q asid root bs 3 code fc 0 s.time cl
        upd (fun y => { y with step := 5, page := 0 }) { s with next := k + 1, fins := s.fins ++ [f] }
      match r with
      | .failed c => refuse 6 c s
      | .ok tb s =>
        let ns := (List.range n).map (fun i => nodeOf ((tb.drop (64 * i)).take 64))
        (match tableFlaw ns with
          | some c => refuse c 0 s
          | none =>
            let g : Graph := ⟨k + 1, x.fn, x.q, asid, root, d.prio, d.proc, p, recNum bs 16 8, ns, [], List.range n, none, k, 0⟩
            let o := openPkt k x.fn x.q asid root bs 0 cl
            upd (fun y => { y with step := 5, page := 0 })
              { s with next := k + 2, openPkts := s.openPkts ++ [o], graphs := s.graphs ++ [g] })
      | _ => s
  | 3 =>
    let (pos, t, e) := State.copyPieces q (recNum bs 8 8) (recNum bs 16 8) (recNum bs 24 8) 64 x.pos s
    (match e with
      | .paused =>
        if recNum bs 24 8 ≤ pos then t.owe x cl asid root 1 0 x.owed else upd (fun y => { y with pos := pos, step := y.onWay, page := 0 }) t
      | .busy => upd (fun y => { y with pos := pos, step := y.onWay }) t
      | .fault va f =>
        -- a page that has been waited for without success is the one that faults again where the copy has not moved on
        if f.code = fcPageFault && !(x.page = 2 && pos = x.pos) then
          upd (fun y => { y with pos := pos, step := y.onWay, page := 1 }) (t.engPageFault cl 1 id q va f)
        else t.owe x cl asid root 2 f.code x.owed)
  | 4 => data (s.engWrite q (recNum bs 40 8) ((bs.drop 8).take (recNum bs 2 2)))
  | 5 =>
    let opd : W64 := BitVec.ofNat 64 (recNum bs 16 8)
    data (s.engAtom q (recNum bs 8 8) (fun v => match recNum bs 24 1 with | 0 => opd | 1 => v + opd | _ => v - opd))
  | 6 =>
    let start := if x.step = 2 then x.start else s.time
    (match (s.engNum q (recNum bs 8 8) 8).work s x.page cl 1 id q with
      | .busy s => upd (fun y => { y with step := 2, start := start }) s
      | .page s => upd (fun y => { y with step := 2, start := start, page := 1 }) s
      | .failed c => s.owe x cl asid root 2 c 15
      | .ok v s =>
        if waitHolds (recNum bs 24 1) (BitVec.ofNat 64 v) (BitVec.ofNat 64 (recNum bs 16 8)) then s.owe x cl asid root 1 0 4
        else upd (fun y => { y with step := 2, start := start, page := 0 }) s)
  | 8 => data (s.engWrite q (recNum bs 8 8) (bytesOf 8 s.time))
  | _ => s.owe x cl asid root 1 0 4

/-- The group of a packet in a round (R329): its place in the fixed order. A FENCE wait counts as the BARRIER group. -/
def State.groupOf (s : State) (x : QState) (bs : List Byte) : Nat :=
  let held := recNum bs 1 1 % 2 == 1 && x.step == 0 && !s.allComplete x.fn x.q
  if held then 1
  else match recNum bs 0 1 with | 6 => 0 | 7 => 1 | 5 => 2 | 4 => 3 | 3 => 4 | 2 => 5 | 1 => 6 | 8 => 7 | _ => 8

/-- Serve a lane's packet in its group: a fence or a barrier that is not met holds it. -/
def State.serveLane (s : State) (e grp : Nat) (x : QState) : State :=
  match s.queue x.fn x.q with
  | none => s
  | some x =>
    match x.pkt, s.desc x.fn x.q with
    | some bs, .ok d =>
      if 3 < x.step || x.page = 1 || s.groupOf x bs ≠ grp then s
      else if (recNum bs 1 1 % 2 = 1 || recNum bs 0 1 = 7) && x.step = 0 && !s.allComplete x.fn x.q then s
      else s.stepPacket e x (x.view d) bs
    | _, _ => s

/-- A finished packet: RDIDX passes it, and an error that it leaves is recorded (R324, R328). -/
def State.settleQueue (s : State) (f q : Nat) : State :=
  match s.queue f q, s.desc f q with
  | some x, .ok d0 =>
    let d := x.view d0
    let st := if (x.step = 4 || (10 ≤ x.step && x.step < 20)) && !(s.fins.any (fun y => some y.id == x.fin)) then
        (if x.step = 4 then 5 else x.step + 20) else x.step
    if st = 5 || 30 ≤ st then
      let d1 := { d with rd := (d.rd + 1) % 2 ^ 32 }
      let passed (s : State) : State :=
        s.updQueue f q (fun y => { y with pkt := none, step := 0, pos := 0, fin := none, page := 0, served := y.served + 1 })
      match s.putDesc f q d1 with
      | .busy t => t
      | .kept s => passed s
      | .done s =>
        if st < 30 then passed s
        else match (passed s).queueError f q d1 (st - 30) with
          | .busy t => t.updQueue f q (fun y => { y with pkt := some [], step := st - 10 })
          | r => r.state
    else if 20 ≤ st then (s.queueError f q d (st - 20)).state
    else s
  | some _, .busy t => t
  | _, _ => s

/-! ### Lanes and arbitration (R318, R333-R336) -/

/-- The lanes of the unfenced engines. -/
def State.liveLanes (s : State) : List Nat := (List.range 128).filter (fun l => !bit (s.regVal bootStat) (32 + l / 32))

/-- The lanes of a partition: in ascending partition number and ascending lane (R318). -/
def State.partLanes (s : State) (p : Nat) : List Nat :=
  let before := ((List.range p).map (fun q => if s.enabled q then fld (s.part q 0x20) 0 8 else 0)).foldl (· + ·) 0
  if s.enabled p then (s.liveLanes.drop before).take (fld (s.part p 0x20) 0 8) else []

/-- The queues of a function that wait for a lane, with their process and priority. -/
def State.waitingQueues (s : State) (f : Nat) : List (QState × Nat × Nat) :=
  (s.queues.filter (fun x => x.fn == f && x.wants && x.lane.isNone && x.own.isNone)).filterMap (fun x =>
    match s.desc x.fn x.q with | .ok d => if d.valid then some (x, d.proc, d.prio) else none | _ => none)

/-- The queue that R333 ranks first, with the grants left after it: the lowest process with a grant left, its highest
priority, and round robin by queue index. -/
def State.firstQueue (s : State) (p : Nat) (grants : List (Nat × Nat)) : Option (QState × Nat × Nat) :=
  let d := s.dist p
  let ws := s.waitingQueues d.fn
  match grants.find? (fun g => ws.any (fun w => w.2.1 == g.1)) with
  | none => none
  | some g =>
    let mine := ws.filter (fun w => w.2.1 == g.1)
    let top := (mine.map (fun w => w.2.2)).foldl max 0
    let best := sortBy (fun x y => decide (x.1.q ≤ y.1.q)) (mine.filter (fun w => w.2.2 == top))
    let last := get 512 d.lastq (turnKey d.fn g.1 top)
    match best.find? (fun w => decide (last < w.1.q)), best with
    | some w, _ => some w
    | none, w :: _ => some w
    | none, [] => none

/-- The lane goes to the queue that ranks first with the grants given, and STATE is ACTIVE; none where no queue has a grant. A queue whose
descriptor cannot be written is served no further, and one whose words others hold waits for them. -/
def State.grantLane (s : State) (p lane : Nat) (gs : List (Nat × Nat)) : Option State :=
  (s.firstQueue p gs).map (fun w =>
    let x := w.1
    let d := s.dist p
    let t := s.setDist p { d with grants := takeTurn gs w.2.1, lastq := ins d.lastq (turnKey d.fn w.2.1 w.2.2) x.q }
    match t.desc x.fn x.q with
    | .ok d0 =>
      (match t.putDesc x.fn x.q { (x.view d0) with st := 1 } with
        | .done t => t.updQueue x.fn x.q (fun y => { y with lane := some lane, wants := false, served := 0, since := s.time })
        | .kept t => t
        | .busy _ => match s.putDesc x.fn x.q { (x.view d0) with st := 1 } with | .busy u => u | _ => s)
    | _ => s)

/-- A free lane of a partition takes the queue that ranks first of the partition's current function; its engine reads the weights at the
start of a level-2 round (R333). -/
def State.fillLane (s : State) (p lane : Nat) : State :=
  if s.queues.any (fun x => x.lane == some lane) then s
  else
    let s := s.currentFn p
    let d := s.dist p
    if d.expired || s.fnStopped d.fn || !s.bound d.fn || s.fnPart d.fn ≠ p || (s.waitingQueues d.fn).isEmpty then s
    else
      match s.grantLane p lane d.grants with
      | some t => t
      | none =>
        match s.roundOf (96 + lane / 32) d.fn with
        | .ok (gs, t) => (t.grantLane p lane gs).getD s
        | .busy t => t
        | .fault _ => s

/-- A queue gives up its lane, and waits for one again if it still holds work. -/
def State.leaveLane (s : State) (f q : Nat) (again : Bool) : State := s.updQueue f q (fun y => { y with lane := none, wants := again })

/-- The queue's lane at the start of a round: an invalid or empty queue gives it up, as does one whose function's slice is
over, and a queue without a packet fetches its head packet (R320, R328, R329, R335, R336). -/
def State.openLane (s : State) (e : Nat) (x : QState) : State :=
  match s.desc x.fn x.q with
  | .none => s.leaveLane x.fn x.q false
  | .busy t => t
  | .fault _ => (s.queueUnread x.fn x.q).state
  | .ok d0 =>
    let d := x.view d0
    let p := s.fnPart x.fn
    let dist := s.dist p
    if !d.valid && !x.switchable then s
    else if !d.valid then (s.updQueue x.fn x.q (fun y => { y with pkt := none, step := 0, page := 0, restart := true })).leaveLane x.fn x.q false
    else
      match d.flaw with
      | some r => (s.queueError x.fn x.q d r).state
      | none =>
        if !x.switchable then s
        else if dist.expired || dist.fn ≠ x.fn || s.fnStopped x.fn then s.leaveLane x.fn x.q true
        else if d.held = 0 then
          (match s.putDesc x.fn x.q { d with st := 0 } with | .busy t => t | r => r.state.leaveLane x.fn x.q false)
        else if x.pkt.isSome || x.page = 1 then s
        else
          let (asid, root) := s.queueSpace x.fn d.proc
          let q := queueEng (96 + e) p asid root
          let slot := d.ring + 64 * (d.rd % 2 ^ d.log2n)
          match (s.engRead q slot 64).work s x.page (s.workCluster x.fn x.q d.rd) 1 (512 * x.fn + x.q) q with
          | .busy s => s
          | .page s => s.updQueue x.fn x.q (fun y => { y with page := 1 })
          | .failed _ => (s.queueError x.fn x.q d 5).state
          | .ok bs s =>
            match packetFlaw bs with
            | some r => (s.queueError x.fn x.q d r).state
            | none => s.updQueue x.fn x.q (fun y => { y with pkt := some bs, step := 0, pos := 0, page := 0 })

/-- The queues that hold lanes of an engine, in ascending lane. -/
def State.engineQueues (s : State) (e : Nat) : List QState :=
  sortBy (fun x y => decide (x.lane.getD 0 ≤ y.lane.getD 0))
    (s.queues.filter (fun x => match x.lane with | some l => l / 32 == e | none => false))

/-- A queue in ERROR, or one whose descriptor could not be written, is looked at in each round, so that its restart is seen, and so is one
whose notification is not yet served (R320, R328). -/
def State.recheck (s : State) (x : QState) : State :=
  if x.look then s.lookAt x.fn x.q
  else if x.lane.isSome || x.wants then s
  else match s.desc x.fn x.q with
    | .ok d =>
      let qf := x.restart && bit (s.mreg 0 (fnStat x.fn)) 32 && fld (s.mreg 0 (fnStat x.fn)) 33 9 == x.q
      if d.st = 2 || x.own.isSome || qf then s.lookAt x.fn x.q else s
    | _ => s

/-- What is waiting to be written or to be retried of every queue. -/
def State.settleAll (s : State) : State := s.queues.foldl (fun (s : State) x => s.settleQueue x.fn x.q) s.runFins

/-- Every queue that is known is looked at again. -/
def State.recheckAll (s : State) : State := s.queues.foldl (fun (s : State) x => s.recheck x) s

/-- The free lanes of engine `e` take queues, partition by partition (R333-R336). -/
def State.fillLanes (s : State) (e : Nat) : State :=
  ((List.range 32).filter (fun p => s.partSt p == 3)).foldl (fun (s : State) p =>
    ((s.partLanes p).filter (fun l => l / 32 == e)).foldl (fun (s : State) l => s.fillLane p l) s) s

/-- The lanes of engine `e` fetch their head packets. -/
def State.openLanes (s : State) (e : Nat) : State := (s.engineQueues e).foldl (fun (s : State) x => s.openLane e x) s

/-- The groups of a round of engine `e` in their order (R329): in each, the lanes ascending, in the GRAPH group each with the running graphs
of its queue first; those of queues that hold no lane come last. -/
def State.serveGroups (s : State) (e : Nat) : State :=
  let qs := s.engineQueues e
  (List.range 9).foldl (fun (s : State) grp =>
    let running (s : State) (want : Graph → Bool) : State :=
      if grp = 5 then (s.graphs.filter want).foldl (fun (s : State) g => s.graphStep e g) s else s
    let s := qs.foldl (fun (s : State) x => (running s (fun g => g.fn == x.fn && g.q == x.q)).serveLane e grp x) s
    let laneless (g : Graph) : Bool := !(qs.any (fun x => g.fn == x.fn && g.q == x.q)) && s.engOf g.fn g.q == 96 + e
    running s laneless) s

/-- ENGINE_ROUND of engine `e` (R329): completions that are owed, free lanes, head packets, then one step for each lane in the
order of the groups, and what its packets leave. A fenced engine serves nothing (R407). -/
def execEngineRound (e : Nat) (s : State) : Host.Outcome State Fault Refusal :=
  if bit (s.regVal bootStat) (32 + e) then .next s
  else .next ((((s.settleAll.recheckAll.fillLanes e).openLanes e).serveGroups e).settleAll)

/-- WAIT_TIMEOUT of a queue (R327). -/
def execWaitTimeout (f q : Nat) (s : State) : Host.Outcome State Fault Refusal :=
  match s.queue f q, s.desc f q with
  | some x, .ok d =>
    (match x.pkt with
      | some bs =>
        let tmo := recNum bs 28 4
        if recNum bs 0 1 = 6 && x.step = 2 && tmo ≠ 0 && x.start + tmo * 1000 ≤ s.time then
          let (asid, root) := s.queueSpace f d.proc
          .next (((s.owe x (s.workCluster f q d.rd) asid root 6 0 16).runFins).settleQueue f q)
        else .next s
      | none => .next s)
  | _, _ => .next s

/-- The slice of a partition in ns (R334), less what the function owes (R335). -/
def State.sliceNs (s : State) (p : Nat) : Nat :=
  s.sliceLen p - get 0 (s.dist p).owed (s.dist p).fn

/-- The resident packs of a function in a partition: core and slot. -/
def State.fnPacks (s : State) (p f : Nat) : List (Nat × Nat) :=
  (s.partCores p).flatMap (fun n => ((s.core n).packs.filter (fun e => match look s.launches e.2.launch with
    | some l => l.fn == f
    | none => false)).map (fun e => (n, e.1)))

/-- A pack is pre-empted for a cause (R335, R354, R355). -/
def State.preempt (s : State) (n slot cause : Nat) : State :=
  let st : Stop := ⟨cause, none, 0, false, false, false⟩
  s.updCore n (fun c => c.updPack slot (fun p => if p.stop.isNone && !p.ended then { p with stop := some st } else p))

/-- SLICE_EXPIRY of a partition (R333-R335): with other work waiting, the current function's dispatch stops and, with DRAIN 0,
its packs are pre-empted; the next function takes over once every lane and, with DRAIN 0, every pack of it has gone. -/
def execSliceExpiry (p : Nat) (s : State) : Host.Outcome State Fault Refusal :=
  let d := s.dist p
  let drain := bit (s.regVal (partSched p)) 6
  if !d.expired then
    if s.time < d.start + s.sliceNs p then .next s
    else
      match s.nextFn p d.fn with
      | none => .next s
      | some g =>
        if g = d.fn then .next (s.setDist p { d with start := s.time, owed := set 0 d.owed d.fn 0 })
        else
          let s := s.setDist p { d with expired := true }
          .next (if drain then s else (s.fnPacks p d.fn).foldl (fun (s : State) x => s.preempt x.1 x.2 3) s)
  else if s.queues.any (fun x => x.fn == d.fn && x.lane.isSome) || (!drain && !(s.fnPacks p d.fn).isEmpty) then .next s
  else
    let late := s.time - (d.start + s.sliceNs p)
    let owed := set 0 d.owed d.fn late
    match s.nextSlice p d.fn owed 1000 with
    | (none, owed) => .next (s.setDist p { d with expired := false, start := s.time, owed := owed })
    | (some g, owed) => .next (s.setDist p { d with fn := g, start := s.time, expired := false, turns := [], grants := [], owed := owed })

/-- LANE_ROTATION (R336). -/
def execLaneRotation (lane : Nat) (s : State) : Host.Outcome State Fault Refusal :=
  match s.queues.find? (fun x => x.lane == some lane) with
  | none => .next s
  | some x =>
    let p := s.fnPart x.fn
    let others := s.waitingQueues (s.dist p).fn
    if (16 ≤ x.served || x.since + 100000 ≤ s.time) && !others.isEmpty && x.switchable then .next (s.leaveLane x.fn x.q true) else .next s

/-- ENGINE_FAULT_RESUME of page fault `k` (R46): the work goes on from its page; one whose page still faults has not been
recovered, and its work meets the fault for good. -/
def execEngineFaultResume (k : Nat) (s : State) : Host.Outcome State Fault Refusal :=
  match s.engfaults[k]? with
  | none => .next s
  | some x =>
    let s := { s with engfaults := s.engfaults.eraseIdx k }
    let agent := match x.kind with | 2 | 6 => collAgent | 3 => 105 | _ => engAgent
    let q := queueEng agent ((s.partOfCluster x.cluster).getD 0) x.asid x.root
    let ok := match s.engXlate q x.va (x.reason == 3) with | .fault _ f => f.code != fcPageFault | _ => true
    let n := if ok then 0 else 2
    match x.kind with
    | 0 =>
      (match s.xfers.find? (fun (y : Xfer) => y.id == x.id) with
        | some y => .next (if ok then s.updXfer x.id (fun z => { z with page := none }) else s.xferFail { y with page := none } fcPageFault)
        | none => .next s)
    | 1 => .next (s.updQueue (x.id / 512) (x.id % 512) (fun y => { y with page := n }))
    | 2 => .next { s with colls := s.colls.map (fun (c : Coll) => if c.id == x.id then { c with page := n } else c) }
    | 4 => .next { s with fins := s.fins.map (fun (f : Fin) => if f.id == x.id then { f with page := n } else f) }
    | 5 => .next (s.updGraph x.id (fun g => { g with page := n }))
    | _ => .next s

/-! ### QPOST (R291, R314, R321) -/

/-- The 64 bytes of a packet as RDN reads them for a pack: the core keeps no older COPY of them (R86), and the read binds an UNSET frame
(R47). -/
def View.readPacket (v : View) (g : LaneAddr) (va : Nat) : Sync (List Byte × State) :=
  if isHost g.pa then .ok ((List.range 64).map (fun i => v.s.byte (g.pa + i)), v.close)
  else
    match (v.close.updCore v.ag (fun c => c.dropCopies (fun l _ => l == g.pa / 64))).tileLine v.ag v.slot (!v.pk.lazyMode) [(va, 64)] va g.pa with
    | .ok (bs, s) => .ok (bs, s.bindFrame g.pa g.attr)
    | r => r

/-- What a handle names: a device queue with its descriptor, none of them (status 2), or one whose descriptor is being written. -/
inductive DevQueue
  | none
  | busy (s : State)
  | ok (f q : Nat) (d : QDescr)

/-- The device queue that a handle names. -/
def View.deviceQueue (v : View) (h : W64) : DevQueue :=
  let f := fld h 9 9
  let q := fld h 0 9
  if h.toNat / 2 ^ 18 ≠ 0 || 384 < f || !v.s.bound f || some (v.s.fnPart f) != v.s.partOfAgent v.ag then .none
  else match v.s.desc f q with
    | .ok d => if d.valid && d.device then .ok f q d else .none
    | .busy t => .busy t
    | _ => .none

/-- Append a packet to a device queue and notify the engine. -/
def State.postPacket (s : State) (ag f q : Nat) (d : QDescr) (bs : List Byte) (parent : Nat) : Sync State :=
  let (asid, root) := s.queueSpace f d.proc
  let e : Eng := ⟨ag, some (s.fnPart f), asid, root, kTransfer, true⟩
  match s.engWrite e (d.ring + 64 * (d.wr % 2 ^ d.log2n)) bs with
  | .busy s => .busy s
  | .fault _ g => .fault g.code
  | .ok _ s =>
    match s.descPa f q with
    | none => .fault 0
    | some pa =>
      match s.writeAt (s.fnPart f) ⟨ag, true⟩ (pa + 16) (bytesOf 4 ((d.wr + 1) % 2 ^ 32)) with
      | .busy s => .busy s
      | .fault c => .fault c
      | .ok s =>
        let s := { s with posted := s.posted ++ [(f, q, d.wr, parent, clusterOf ag)] }
        let s := match look s.launches parent with
          | some l => { s with launches := ins s.launches parent { l with children := l.children + 1 } }
          | none => s
        .ok (s.lookAt f q)

/-- QPOST. -/
def execQpost (c : Ctl) (d a b : SReg) (s : State) : Host.Outcome State Fault Refusal :=
  issue c [.ds d, .s 1 a, .s 2 b] (fun v _ =>
    let va := (v.rs a).toNat
    if va % 64 ≠ 0 then .fault (v.faultRec fcProtection (BitVec.ofNat 64 va) 11 0 kRead 127 0)
    else
      let x := v.translate kRead false 1 [(127, va)]
      if x.waiting then .hold x.v
      else
        match v.laneFault kRead true x.bad, x.good with
        | some f, _ => .fault f
        | none, [] => .wait
        | none, g :: _ =>
          -- the read follows the pack's earlier writes to host memory (R103)
          if isHost g.pa && x.v.pk.hostw ≠ 0 then .wait
          else
          match x.v.release .device true with
          | .wait => .wait
          | .hold v => .hold v
          | .go v =>
            match v.readPacket g va with
            | .busy s => .hold (v.reopen s)
            | .fault code => .fault (v.faultRec code (BitVec.ofNat 64 va) 0 0 kRead 127 0)
            | .ok (bs, s) =>
              let v := v.reopen s
              match v.deviceQueue (v.rs b) with
              | .none => v.landS c d 2
              | .busy t => .hold (v.reopen t)
              | .ok f q qd =>
                if recNum bs 0 1 ≠ 1 then v.landS c d 3
                else if 2 ^ qd.log2n ≤ qd.held then v.landS c d 1
                else
                  match v.close.postPacket v.ag f q qd bs v.pk.launch with
                  | .busy s => .hold (v.reopen s)
                  | .fault _ => v.landS c d 2
                  | .ok s => (v.reopen s).landS c d 0) s

end Sys2Proof.Machine
end

