-- ==== Sys2Proof/Machine/Peers.lean ====
section
/-! DEFINITION. Peer modules: frames of Brevor transport, trusted groups, the collective engine, and the frames that the ports
receive for sockets and recovery (R101, R382-R391). -/

namespace Sys2Proof.Machine

/-! ### Groups and frames (R384-R387) -/

/-- This module's peer identifier (R384). -/
def State.me (s : State) : Nat := fld (s.regVal peerId) 0 20

/-- KIND of a frame (R384). -/
def frData : Nat := 0
def frAck : Nat := 1
def frNak : Nat := 2
def frControl : Nat := 3

/-- What a CONTROL frame says; the spec names these messages and gives them no codes. -/
def ctlJoin : Nat := 0
def ctlRefuse : Nat := 1
def ctlLeave : Nat := 2
def ctlAbort : Nat := 3
def ctlFields : Nat := 4
def ctlPass : Nat := 5
def ctlAskReport : Nat := 6
def ctlReport : Nat := 7
def ctlKey : Nat := 8
def ctlRenew : Nat := 9

/-- Change a group's slot. -/
def State.updGroup (s : State) (g : Nat) (f : Group → Group) : State :=
  match look s.groups g with
  | some x => { s with groups := ins s.groups g (f x) }
  | none => s

/-- Some port carries Brevor transport for a partition (R383). -/
def State.brevorPort (s : State) (p : Nat) : Bool :=
  (List.range 8).any (fun n => bit (s.regVal (portCfg n)) 8 && fld (s.regVal (portCfg n)) 0 8 == p && !bit (s.regVal bootStat) (36 + n))

/-- Some port carries Brevor transport. -/
def State.brevorAny (s : State) : Bool := (List.range 32).any (fun p => s.brevorPort p)

/-- The key of a channel with a peer. -/
def chanKey (peer chan : Nat) : Nat := 256 * peer + chan

/-- What a frame carries (R384): the bytes of the collective's buffer, or of a CONTROL frame what it says, its argument and what goes with
it. The spec gives CONTROL frames no layout. -/
def Frame.payload (f : Frame) : List Byte := if f.kind = frControl then bytesOf 1 f.coll ++ bytesOf 16 f.off ++ f.bs else f.bs

/-- The 32 bytes of a frame's header (R384). -/
def State.frameHeader (s : State) (f : Frame) : List Byte :=
  let gid := match look s.groups f.g with | some x => x.gid | none => 0
  bytesOf 1 (1 + 16 * f.kind) ++ bytesOf 1 f.chan ++ bytesOf 2 gid ++ bytesOf 4 f.view ++ bytesOf 3 s.me ++ bytesOf 3 f.dst ++
  bytesOf 2 f.payload.length ++ bytesOf 4 f.seq ++ bytesOf 8 (if f.kind = frControl then 0 else f.off) ++
  bytesOf 4 (if f.kind = frControl then 0 else f.coll)

/-- The 96-bit nonce of a frame (R385). -/
def frameNonce (view src chan seq : Nat) : List Byte := bytesOf 4 view ++ bytesOf 3 src ++ bytesOf 1 chan ++ bytesOf 4 seq

/-- What the wire carries of a DATA or CONTROL frame: the header, the payload sealed under the group's key, and the tag (R385). -/
def State.frameBytes (s : State) (f : Frame) : List Byte :=
  let key := match look s.groups f.g with | some x => Config.groupKey x.key | none => 0
  let h := s.frameHeader f
  let c := gcmSeal key (frameNonce f.view s.me f.chan f.seq) h f.payload
  h ++ c.1 ++ c.2

/-- The port that carries a group's frames: none has them while no port of its partition has BRV (R383). -/
def State.carries (s : State) (g : Nat) : Bool := match look s.groups g with | some x => s.brevorPort x.part | none => s.brevorAny

/-- Send a frame of a group that is to be acknowledged (R385). One that no port carries waits for its retransmission; one whose channel has
used up its numbers is not sent, since the view that it belongs to is being replaced. -/
def State.pushFrame (s : State) (g dst chan kind coll off : Nat) (bs : List Byte) : State :=
  match look s.groups g with
  | none => s
  | some x =>
    let q := get 0 x.tx (chanKey dst chan)
    let fr : Frame := ⟨g, dst, chan, q, x.view, kind, coll, off, bs, s.time, 0⟩
    if 0xFFFF_FFFF ≤ q then s
    else
      { s.updGroup g (fun x => { x with tx := set 0 x.tx (chanKey dst chan) (q + 1) }) with
        outgoing := s.outgoing ++ [fr], wire := if s.carries g then s.wire ++ [fr] else s.wire }

/-- Put a frame on the wire that nothing acknowledges: ACK, NAK, and what passes before a view holds the peer. -/
def State.putFrame (s : State) (g dst chan seq view kind coll off : Nat) : State :=
  let fr : Frame := ⟨g, dst, chan, seq, view, kind, coll, off, [], s.time, 0⟩
  if s.carries g then { s with wire := s.wire ++ [fr] } else s

/-- The coordinator of a change that removes some members (R387). -/
def Group.coordinator (x : Group) (gone : List Nat) : Option Nat := (x.members.filter (fun m => !gone.contains m)).head?

/-- The members that the changes collected by this module make. -/
def Group.nextMembers (x : Group) : List Nat :=
  sortBy (fun a b => decide (a ≤ b)) ((x.members.filter (fun m => !x.leaving.contains m)) ++ (x.entering.filter (fun m => !x.members.contains m)))

/-- This module, as the coordinator, has a change to make: other members, or the same under a new view (R385, R387). -/
def Group.changing (x : Group) : Bool := x.renew || x.nextMembers != x.members

/-- Step 2 of R387: every other member of the new view that has not been asked is asked for an attestation report. -/
def State.askReports (s : State) (g : Nat) (x : Group) : State :=
  let todo := x.nextMembers.filter (fun m => m != s.me && !x.reports.contains m)
  let s := s.updGroup g (fun x => { x with reports := x.reports ++ todo })
  todo.foldl (fun (s : State) m =>
    if x.members.contains m then s.pushFrame g m 0 frControl ctlAskReport 0 [] else s.putFrame g m 0 0 x.view frControl ctlAskReport 0) s

/-- Steps 3 and 4 of R387: once every report holds, the trust engine makes a fresh key, and each member is sent it, wrapped under that
member's identity key. -/
def State.sendKeys (s : State) (g : Nat) (x : Group) : State :=
  let others := x.nextMembers.filter (fun m => m != s.me)
  if x.newKey.isSome || !others.all (fun m => x.proved.contains m) then s
  else
    let k := s.next
    let s := ({ s with next := k + 1 } : State).updGroup g (fun x => { x with newKey := some (k, others) })
    others.foldl (fun (s : State) m =>
      if x.members.contains m then s.pushFrame g m 0 frControl ctlKey k (bytesOf 512 (Config.wrappedKey m k))
      else s.putFrame g m 0 0 x.view frControl ctlKey k) s

/-- The coordinator takes a change as far as it can go (R387). -/
def State.changeView (s : State) (g : Nat) : State :=
  match look s.groups g with
  | none => s
  | some x =>
    if !x.joined || !x.changing || x.coordinator x.leaving ≠ some s.me then s
    else
      let s := s.askReports g x
      match look s.groups g with | some x => s.sendKeys g x | none => s

/-- A change that this module collects grows: a key made before it is not used. -/
def State.addChange (s : State) (g : Nat) (f : Group → Group) : State := (s.updGroup g (fun x => { f x with newKey := none })).changeView g

/-- A channel has used up its numbers: the coordinator is to form a new view with the same members (R385). It is told on CHAN 255, which
carries nothing else. -/
def State.wearOut (s : State) (g : Nat) : State :=
  match look s.groups g with
  | none => s
  | some x =>
    match x.coordinator x.leaving with
    | none => s
    | some k => if k = s.me then s.addChange g (fun x => { x with renew := true }) else s.pushFrame g k 255 frControl ctlRenew 0 []

/-- Send a frame of a group; the last that its channel has a number for asks for a new view. -/
def State.sendFrame (s : State) (g dst chan kind coll off : Nat) (bs : List Byte) : State :=
  let last := match look s.groups g with | some x => get 0 x.tx (chanKey dst chan) == 0xFFFF_FFFE | none => false
  let s := s.pushFrame g dst chan kind coll off bs
  if last then s.wearOut g else s

/-- This module collects a change, or tells the coordinator of it. -/
def State.askLeave (s : State) (g peer : Nat) : State :=
  match look s.groups g with
  | none => s
  | some x =>
    if !x.joined || !x.members.contains peer then s
    else
      let gone := if x.leaving.contains peer then x.leaving else x.leaving ++ [peer]
      match x.coordinator gone with
      | none => s
      | some k =>
        if k ≠ s.me then s.sendFrame g k 0 frControl ctlLeave peer []
        else if x.leaving.contains peer then s.changeView g
        else s.addChange g (fun x => { x with leaving := gone })

/-- As the coordinator, this module takes a peer into the next view (R387). -/
def State.letIn (s : State) (g peer : Nat) : State :=
  match look s.groups g with
  | some x => if x.entering.contains peer then s.changeView g else s.addChange g (fun x => { x with entering := x.entering ++ [peer] })
  | none => s

/-- The service cores of a slot's partition hear of its view (R368, R387). -/
def State.postView (s : State) (g : Nat) (x : Group) (left : Bool) : State :=
  s.postPart x.part ⟨6, g, 0, BitVec.ofNat 64 x.view, BitVec.ofNat 64 x.members.length, BitVec.ofNat 64 (b2n left)⟩

/-! ### Collectives (R388-R391) -/

/-- Change one collective. -/
def State.updColl (s : State) (id : Nat) (f : Coll → Coll) : State :=
  { s with colls := s.colls.map (fun (c : Coll) => if c.id == id then f c else c) }

/-- A collective ends with a status and a code, through its SIG object (R391). -/
def State.endColl (s : State) (c : Coll) (status code : Nat) : State :=
  let f : Fin := ⟨s.next, c.fn, 512, c.asid, c.root, c.sig, false, c.tag, status, code, 0, 0, s.time, false, 0,
    s.clusterFor (some c.part)⟩
  ({ s with
      next := s.next + 1
      colls := s.colls.filter (fun (x : Coll) => x.id != c.id)
      early := s.early.filter (fun (x : Frame) => !(x.g == c.slot && x.coll == c.coll))
      fins := s.fins ++ [f] } : State).runFins

/-- VIEW_ABORT (R391). -/
def State.abortColl (s : State) (c : Coll) : State := s.endColl c 5 fcViewAbort

/-- Every collective of a slot under a view ends with VIEW_ABORT. -/
def State.abortSlot (s : State) (g view : Nat) : State :=
  (s.colls.filter (fun (c : Coll) => c.slot == g && c.view == view)).foldl (fun (s : State) c => s.abortColl c) s

/-- The other members of a collective's group. -/
def State.peersOf (s : State) (g : Nat) : List Nat :=
  match look s.groups g with
  | some x => x.members.filter (fun m => m != s.me)
  | none => []

/-- A collective fails here: it ends with ERROR and the code, and the other members hear of it (R391). -/
def State.failColl (s : State) (c : Coll) (code : Nat) : State :=
  ((s.peersOf c.slot).foldl (fun (s : State) m => s.sendFrame c.slot m 0 frControl ctlAbort c.coll []) s).endColl c 2 code

/-- The rank of a member (R386). -/
def Group.rank (x : Group) (m : Nat) : Nat := (x.members.findIdx? (fun k => k == m)).getD 0

/-- The bytes of an element. -/
def Coll.esz (c : Coll) : Nat := if c.ty = 0 || c.ty = 4 then 4 else 2

/-- The fields that the members must agree on (R391). -/
def Coll.fields (c : Coll) : Nat := c.op + 8 * c.ty + 128 * c.redop + 1024 * c.count

/-- The bytes of this module's source: n × COUNT elements for REDUCESCATTER, none for BROADCAST except at the root. -/
def Coll.srcBytes (c : Coll) (n rank : Nat) : Nat :=
  match c.op with
  | 3 => n * c.count * c.esz
  | 4 => if rank = c.rootRank then c.count * c.esz else 0
  | _ => c.count * c.esz

/-- The bytes of the source of the member of rank `q` that this module takes, and where they begin there. -/
def Coll.part_ (c : Coll) (rank q : Nat) : Nat × Nat :=
  match c.op with
  | 3 => (rank * c.count * c.esz, c.count * c.esz)
  | 4 => (0, if q = c.rootRank then c.count * c.esz else 0)
  | _ => (0, c.count * c.esz)

/-- Send bytes in frames of at most 8,192 (R384). -/
def State.sendBytes (s : State) (g dst coll : Nat) : Nat → Nat → List Byte → State
  | 0, _, _ => s
  | fuel + 1, off, bs =>
    if bs.isEmpty then s
    else (s.sendFrame g dst 0 frData coll off (bs.take 8192)).sendBytes g dst coll fuel (off + 8192) (bs.drop 8192)

/-- The engine's address space for a collective. -/
def Coll.eng (c : Coll) : Eng := ⟨collAgent, some c.part, c.asid, c.root, kTransfer, true⟩

/-- Start a collective: its source is read, and every other member is sent its part and the fields (R390, R391). One that a member has
already ended with ERROR (an early abort is a CONTROL frame whose fields are 0) ends with VIEW_ABORT. -/
def State.startColl (s : State) (c : Coll) : State :=
  match look s.groups c.slot with
  | none => s.abortColl c
  | some x =>
    let n := x.members.length
    let r := x.rank s.me
    let cl := s.clusterFor (some c.part)
    if c.page = 1 then s
    else if bit (s.regVal bootStat) 44 then s.endColl c 3 3
    else if s.early.any (fun (f : Frame) => f.g == c.slot && f.kind == frControl && f.coll == c.coll && f.off == 0) then s.abortColl c
    else
      match (s.engRead c.eng c.src (c.srcBytes n r)).work s c.page cl 2 c.id c.eng with
      | .busy s => s
      | .page s => s.updColl c.id (fun c => { c with page := 1 })
      | .failed code => s.failColl c code
      | .ok bs s =>
        let mine : List Byte := (bs.drop (c.part_ r r).1).take (c.part_ r r).2
        let got : List (Nat × Nat × List Byte) := (s.early.filter (fun (f : Frame) => f.g == c.slot && f.coll == c.coll && f.kind == frData)).map
          (fun (f : Frame) => (x.rank f.dst, f.off, f.bs))
        let told := (s.early.filter (fun (f : Frame) => f.g == c.slot && f.coll == c.coll && f.kind == frControl && f.off == c.fields)).map
          (fun (f : Frame) => x.rank f.dst)
        let s := s.updColl c.id (fun c => { c with
          started := true, page := 0, got := c.got ++ got ++ [(r, (c.part_ r r).1, mine)], told := c.told ++ told })
        let s := (x.members.filter (fun m => m != s.me)).foldl (fun (s : State) m =>
          let p := c.part_ (x.rank m) r
          (s.sendFrame c.slot m 0 frControl ctlFields (c.coll + 2 ^ 32 * c.fields) []).sendBytes c.slot m c.coll (bs.length / 8192 + 1) p.1
            ((bs.drop p.1).take p.2)) s
        if s.early.any (fun (f : Frame) => f.g == c.slot && f.kind == frControl && f.coll == c.coll && f.off != c.fields) then
          s.failColl c fcIllegalField
        else s

/-- The byte at an offset of the source of rank `q`, if a frame has brought it (R384). -/
def Coll.byteOf (c : Coll) (q i : Nat) : Option Byte :=
  (c.got.find? (fun e => e.1 == q && decide (e.2.1 ≤ i) && decide (i < e.2.1 + e.2.2.length))).bind (fun e => e.2.2[i - e.2.1]?)

/-- What the member of rank `rank` takes of the source of rank `q`, as far as it has arrived, in the order of the offsets. -/
def Coll.gotOf (c : Coll) (rank q : Nat) : List Byte :=
  (List.range (c.part_ rank q).2).filterMap (fun i => c.byteOf q ((c.part_ rank q).1 + i))

/-- Everything that this module takes has arrived, and every other member's fields agree with its own (R391). -/
def Coll.full (c : Coll) (n rank : Nat) : Bool :=
  (List.range n).all (fun q => (q == rank || c.told.contains q) && decide ((c.gotOf rank q).length = (c.part_ rank q).2))

/-- The elements of bytes. -/
def elems (sz : Nat) (bs : List Byte) : List W64 :=
  (List.range (bs.length / sz)).map (fun i => BitVec.ofNat 64 (ofBytes ((bs.drop (sz * i)).take sz)))

/-- The format of a collective's TYPE. -/
def collFmt (ty : Nat) : FFmt := match ty with | 5 => fp16 | 6 => bf16 | _ => fp32

/-- The minimumNumber or maximumNumber of two elements of a format (R239). -/
def fmtMinMax (f : FFmt) (mx : Bool) (a b : W64) : W64 :=
  let x := f.get a
  let y := f.get b
  if x.isNan && y.isNan then BitVec.ofNat 64 f.qnan
  else if x.isNan then b
  else if y.isNan then a
  else if mx then (if x.less y then b else a)
  else if y.less x then b else a

/-- One step of red (R390). -/
def Coll.redOp (c : Coll) (a b : W64) : W64 :=
  if c.ty = 0 then
    let x : W32 := a.setWidth 32
    let y : W32 := b.setWidth 32
    let z : W32 := match c.redop with
      | 0 => x + y
      | 1 => if y.slt x then y else x
      | _ => if x.slt y then y else x
    z.setWidth 64
  else
    match c.redop with
    | 0 => (opFadd (collFmt c.ty) .rne a b).val
    | 1 => fmtMinMax (collFmt c.ty) false a b
    | _ => fmtMinMax (collFmt c.ty) true a b

/-- The destination's bytes (R390): the fold in ascending rank, the concatenation, or the root's source. -/
def Coll.result (c : Coll) (n rank : Nat) : List Byte :=
  let of (q : Nat) : List Byte := c.gotOf rank q
  match c.op with
  | 2 => ((List.range n).map of).flatten
  | 4 => of c.rootRank
  | _ =>
    let xs := (List.range (n - 1)).foldl (fun (acc : List W64) q => List.zipWith c.redOp acc (elems c.esz (of (q + 1)))) (elems c.esz (of 0))
    (xs.map (fun v => bytesOf c.esz v.toNat)).flatten

/-- COLLECTIVE_COMPLETE of collective `k` (R390, R391): its source is read if it could not be before; once everything has arrived the
destination is written and the completion owed. -/
def execCollectiveComplete (k : Nat) (s : State) : Host.Outcome State Fault Refusal :=
  match s.colls[k]? with
  | none => .next s.runFins
  | some c =>
    match c.done, look s.groups c.slot with
    | some (st, code), _ => .next (s.endColl c st code)
    | none, none => .next (s.abortColl c)
    | none, some x =>
      if bit (s.regVal bootStat) 44 then .next (s.endColl c 3 3)
      else if !x.joined || x.view ≠ c.view then .next (s.abortColl c)
      else if !c.started then .next (s.startColl c)
      else
        let n := x.members.length
        if c.page = 1 || !c.full n (x.rank s.me) then .next s
        else
          match (s.engWrite c.eng c.dst (c.result n (x.rank s.me))).work s c.page (s.clusterFor (some c.part)) 2 c.id c.eng with
          | .busy s => .next s
          | .page s => .next (s.updColl c.id (fun c => { c with page := 1 }))
          | .failed code => .next (s.failColl c code)
          | .ok _ s => .next (s.endColl c 1 0)

/-- The status with which a descriptor is refused or aborted at its start, if any (R389, R391): with the collective engine fenced every one
is refused with CODE 3 (R407). -/
def State.collFlaw (s : State) (c : Coll) (res : Bool) : Option (Nat × Nat) :=
  let bad := c.op = 0 || 4 < c.op || !([0, 4, 5, 6].contains c.ty) || 2 < c.redop || ((c.op = 2 || c.op = 4) && c.redop ≠ 0) || res ||
    (c.op ≠ 4 && c.rootRank ≠ 0) || c.count = 0 || 2 ^ 32 < c.count || 15 < c.slot
  if bit (s.regVal bootStat) 44 then some (3, 3)
  else if bad then some (3, 1)
  else
    match look s.groups c.slot with
    | none => some (3, 2)
    | some x =>
      if !x.joined || x.part ≠ c.part then some (3, 2)
      else if c.op = 4 && x.members.length ≤ c.rootRank then some (3, 1)
      else if c.view ≠ x.view then some (5, fcViewAbort)
      else none

/-- Take the descriptor at the head of a ring: it is the group's next (R388) if the slot holds a group of the function's partition. -/
def State.takeColl (s : State) (f asid : Nat) (root : W64) (bs : List Byte) : State :=
  let slot := recNum bs 4 2
  let mine (x : Group) : Bool := x.joined && x.part == s.fnPart f
  let coll := match look s.groups slot with | some x => x.colls + 1 | none => 0
  let c : Coll :=
    { id := s.next, fn := f, part := s.fnPart f, asid := asid, root := root, op := recNum bs 0 1, ty := recNum bs 1 1, redop := recNum bs 2 1,
      slot := slot, coll := coll, view := recNum bs 8 4, rootRank := recNum bs 12 4, src := recNum bs 16 8, dst := recNum bs 24 8,
      count := recNum bs 32 8, sig := BitVec.ofNat 64 (recNum bs 40 8), tag := BitVec.ofNat 64 (recNum bs 48 4), started := false, got := [], told := [],
      wrote := 0, done := none, page := 0 }
  let res := recNum bs 3 1 != 0 || recNum bs 6 2 != 0 || recNum bs 52 12 != 0
  let flaw := s.collFlaw c res
  let s := { (s.updGroup slot (fun x => if mine x then { x with colls := x.colls + 1 } else x)) with next := s.next + 1, colls := s.colls ++ [c] }
  match flaw with
  | some (st, code) => s.endColl c st code
  | none => s.startColl c

/-- COLLECTIVE_RING_POLL of a function (R388): the next descriptor of its ring is taken, once the one before it has started. A page fault of
the slot goes to the service core (R46); for another fault the spec states no outcome, and the ring stays where it is (see the assumption
log). -/
def execCollectiveRingPoll (f : Nat) (s : State) : Host.Outcome State Fault Refusal :=
  match s.vcpPage f with
  | none => .next s
  | some page =>
    if !s.bound f || s.fnStopped f then .next s
    else
      let pa := page + 0x8400
      let part := s.fnPart f
      -- WRIDX is the word that a release submits: its pending set is published before the engine reads (R101)
      let wr := (pa + 16) / 4
      if regCb (s.reg wr) && !s.raceNow ⟨collAgent, true⟩ wr 15 then .next (s.drainWord ⟨collAgent, true⟩ wr 15)
      else
      -- a slot's page fault is being served (R46), or an earlier descriptor of the ring has not started (R388)
      if s.engfaults.any (fun x => x.kind == 6 && x.id == f) || s.colls.any (fun (c : Coll) => c.fn == f && !c.started && c.done.isNone) then .next s
      else
      match s.readAt part ⟨collAgent, true⟩ pa 64 with
      | .busy t => .next t
      | .fault _ => .next s
      | .ok (rg, s) =>
        let n := recNum rg 8 1
        let rd := recNum rg 12 4
        if recNum rg 10 1 % 2 = 0 || n < 4 || 12 < n || rd = recNum rg 16 4 then .next s
        else
          let (asid, root) := s.queueSpace f (recNum rg 9 1 % 64)
          let q : Eng := ⟨collAgent, some part, asid, root, kTransfer, true⟩
          match s.engRead q (recNum rg 0 8 + 64 * (rd % 2 ^ n)) 64 with
          | .busy t => .next t
          | .fault va g => .next (if g.code = fcPageFault then s.engPageFault (s.clusterFor (some part)) 6 f q va g else s)
          | .ok bs t =>
            match t.writeAt part ⟨collAgent, true⟩ (pa + 12) (bytesOf 4 ((rd + 1) % 2 ^ 32)) with
            | .ok t => .next (t.takeColl f asid root bs)
            | .busy t => .next t
            | .fault _ => .next s

/-- CNOTIFY (R376, R388): the ring is read at once. -/
def execCnotify (f : Nat) (s : State) : Host.Outcome State Fault Refusal :=
  if s.bound f then execCollectiveRingPoll f s else .next { s with hostout := s.hostout ++ [.unsupported f] }

/-! ### Receiving (R385, R387) -/

/-- The frame passes the checks of R385; one that fails is counted. -/
def State.frameGood (s : State) (g src view : Nat) (ok : Bool) : Bool :=
  match look s.groups g with
  | some x => x.joined && ok && view == x.view && x.members.contains src
  | none => false
def State.dropFrame (s : State) (g : Nat) : State := s.count16 (tgStat g) 48

/-- The order of a channel (R385): a frame in order is taken and acknowledged; an old one is acknowledged again, and one after a gap
refused. -/
def State.inOrder (s : State) (g src chan seq view : Nat) : Bool × State :=
  match look s.groups g with
  | none => (false, s)
  | some x =>
    let want := get 0 x.rx (chanKey src chan)
    if seq = want then
      (true, (s.updGroup g (fun x => { x with rx := set 0 x.rx (chanKey src chan) (want + 1) })).putFrame g src chan seq view frAck 0 0)
    else if seq < want then (false, s.putFrame g src chan (want - 1) view frAck 0 0)
    else (false, s.putFrame g src chan want view frNak 0 0)

/-- BREVOR_DATA (R385, R390). `ok` says that the frame's tag holds. -/
def execBrevorData (g src chan view seq coll off : Nat) (bs : List Byte) (ok : Bool) (s : State) : Host.Outcome State Fault Refusal :=
  match look s.groups g with
  | none => .next s
  | some x =>
    if !s.brevorPort x.part then .next s
    else if !s.frameGood g src view ok || 8192 < bs.length then .next (s.dropFrame g)
    else
      match s.inOrder g src chan seq view with
      | (false, t) => .next t
      | (true, t) =>
        match t.colls.find? (fun (c : Coll) => c.slot == g && c.coll == coll && c.view == view && c.started) with
        | some c => .next (t.updColl c.id (fun c => { c with got := c.got ++ [(x.rank src, off, bs)] }))
        | none => .next { t with early := t.early ++ [⟨g, src, chan, seq, view, frData, coll, off, bs, t.time, 0⟩] }

/-- A frame of a member of the slot's view reaches this module through a port of its partition (R383, R385). -/
def State.fromMember (s : State) (g src : Nat) : Bool :=
  match look s.groups g with
  | some x => x.joined && s.brevorPort x.part && x.members.contains src
  | none => false

/-- BREVOR_ACK: frames up to `seq` have arrived (R385). One that is no member's is dropped. -/
def execBrevorAck (g src chan seq : Nat) (s : State) : Host.Outcome State Fault Refusal :=
  if !s.fromMember g src then .next s
  else .next { s with outgoing := s.outgoing.filter (fun (f : Frame) => !(f.g == g && f.dst == src && f.chan == chan && decide (f.seq ≤ seq))) }

/-- Send the frames of a channel from a number on again. -/
def State.resend (s : State) (g dst chan seq : Nat) : State :=
  let hit (f : Frame) : Bool := f.g == g && f.dst == dst && f.chan == chan && decide (seq ≤ f.seq)
  { s with
    wire := if s.carries g then s.wire ++ s.outgoing.filter hit else s.wire
    outgoing := s.outgoing.map (fun (f : Frame) => if hit f then { f with sent := s.time, tries := f.tries + 1 } else f) }

/-- A destination is lost after 64 retransmissions of one frame: a leave is requested (R385, R387). -/
def State.loseWorn (s : State) (g dst chan : Nat) : State :=
  if s.outgoing.any (fun (f : Frame) => f.g == g && f.dst == dst && f.chan == chan && decide (64 ≤ f.tries)) then
    ({ s with outgoing := s.outgoing.filter (fun (f : Frame) => !(f.g == g && f.dst == dst)) } : State).askLeave g dst
  else s.resend g dst chan 0

/-- BREVOR_NAK: the receiver awaits `seq`; what came before has arrived, and it and what follows is sent again (R385). -/
def execBrevorNak (g src chan seq : Nat) (s : State) : Host.Outcome State Fault Refusal :=
  if !s.fromMember g src then .next s
  else
  let s := { s with outgoing := s.outgoing.filter (fun (f : Frame) => !(f.g == g && f.dst == src && f.chan == chan && decide (f.seq < seq))) }
  .next (s.loseWorn g src chan)

/-- RETRANSMIT_TIMEOUT of a channel: 20 µs without an acknowledgement (R385). -/
def execRetransmitTimeout (g dst chan : Nat) (s : State) : Host.Outcome State Fault Refusal :=
  match s.outgoing.find? (fun (f : Frame) => f.g == g && f.dst == dst && f.chan == chan) with
  | none => .next s
  | some f => if s.time < f.sent + 20000 then .next s else .next (s.loseWorn g dst chan)

/-- A join request at its sponsor (R387): a member passes it to the coordinator. A frame for which no port carries Brevor transport is
dropped (R383). -/
def State.sponsor (s : State) (g src gid : Nat) : State :=
  match look s.groups g with
  | none => if s.brevorAny then s.putFrame g src 0 0 0 frControl ctlRefuse gid else s
  | some x =>
    if !s.brevorPort x.part then s
    else if !x.joined || x.gid ≠ gid then s.putFrame g src 0 0 0 frControl ctlRefuse gid
    else
      match x.coordinator x.leaving with
      | none => s
      | some k =>
        if k = s.me then s.letIn g src else s.sendFrame g k 0 frControl ctlPass src []

/-- A report has come for the change that this module coordinates (R387): one whose signature holds counts, and a peer whose report does not
hold is not admitted, or leaves. -/
def State.takeReport (s : State) (g src num : Nat) : State :=
  match look s.groups g with
  | none => s
  | some x =>
    if Config.reportHolds src num then (s.updGroup g (fun x => { x with proved := x.proved ++ [src] })).changeView g
    else if x.members.contains src then s.askLeave g src
    else s.addChange g (fun x => { x with entering := x.entering.filter (fun m => m != src) })

/-- This module is asked for its report, and gives it to the coordinator (R387): as an attestation of R397, numbered by this module. -/
def State.giveReport (s : State) (g src : Nat) (x : Group) : State :=
  let k := s.next
  let s := { s with next := k + 1 }
  if x.joined then s.pushFrame g src 0 frControl ctlReport k [] else s.putFrame g src 0 0 0 frControl ctlReport k

/-- What passes before the two share a view (R387): the request for a report and the wrapped key at a module that has asked to join, and its
report at the coordinator. -/
def State.beforeView (s : State) (g src kind arg : Nat) (x : Group) : Option State :=
  if !x.joined && x.asked.isSome && kind = ctlAskReport then some (s.giveReport g src x)
  else if !x.joined && x.asked.isSome && kind = ctlKey then some (s.updGroup g (fun x => { x with offer := true }))
  else if x.joined && kind = ctlReport && x.entering.contains src then some (s.takeReport g src arg)
  else none

/-- BREVOR_CONTROL (R385, R387, R391): `kind` is what the frame says and `arg` its argument. What passes before the two share a view is
exempt from the checks of R385. -/
def execBrevorControl (g src chan view seq kind arg : Nat) (ok : Bool) (s : State) : Host.Outcome State Fault Refusal :=
  if kind = ctlJoin then .next (s.sponsor g src arg)
  else
    match look s.groups g with
    | none => .next s
    | some x =>
      if kind = ctlRefuse then
        .next (if s.brevorPort x.part && !x.joined && x.asked == some (src, arg) then { s with groups := del s.groups g } else s)
      else if !s.brevorPort x.part then .next s
      else
        match s.beforeView g src kind arg x with
        | some t => .next t
        | none =>
        if !s.frameGood g src view ok then .next (s.dropFrame g)
        else
        match s.inOrder g src chan seq view with
        | (false, t) => .next t
        | (true, t) =>
          if kind = ctlLeave then .next (t.askLeave g arg)
          else if kind = ctlPass then
            .next (t.letIn g arg)
          else if kind = ctlAskReport then .next (t.giveReport g src x)
          else if kind = ctlReport then .next (t.takeReport g src arg)
          else if kind = ctlKey then .next (t.updGroup g (fun x => { x with offer := true }))
          else if kind = ctlRenew then .next (t.addChange g (fun x => { x with renew := true }))
          else if kind = ctlAbort then
            .next (if t.colls.any (fun (c : Coll) => c.slot == g && c.coll == arg) then
                (t.colls.filter (fun (c : Coll) => c.slot == g && c.coll == arg)).foldl (fun (t : State) c => t.abortColl c) t
              else { t with early := t.early ++ [⟨g, src, chan, seq, view, frControl, arg, 0, [], t.time, 0⟩] })
          else if kind = ctlFields then
            match t.colls.find? (fun (c : Coll) => c.slot == g && c.coll == arg % 2 ^ 32 && c.started) with
            | some c =>
              .next (if c.fields = arg / 2 ^ 32 then t.updColl c.id (fun c => { c with told := c.told ++ [x.rank src] })
                else t.failColl c fcIllegalField)
            | none =>
              .next { t with early := t.early ++ [⟨g, src, chan, seq, view, frControl, arg % 2 ^ 32, arg / 2 ^ 32, [], t.time, 0⟩] }
          else .next t

/-! ### Changing a group (R387) -/

/-- A group that this module creates, or asks to join. -/
def Group.fresh (part gid key : Nat) : Group :=
  { joined := false, part := part, gid := gid, view := 0, members := [], colls := 0, tx := [], rx := [], asked := none, leaving := [],
    entering := [], renew := false, reports := [], proved := [], newKey := none, offer := false, key := key }

/-- The group without what belongs to a change that is over. -/
def Group.settled (x : Group) : Group :=
  { x with tx := [], rx := [], asked := none, leaving := [], entering := [], renew := false, reports := [], proved := [], newKey := none, offer := false }

/-- TG_JOIN (R387): bits [45:38] of the value hold the partition of the service core that wrote TG_CTL. -/
def execTgJoin (g : Nat) (v : W64) (s : State) : Host.Outcome State Fault Refusal :=
  let peer := fld v 2 20
  let gid := fld v 22 16
  let x := Group.fresh (fld v 38 8) gid s.next
  let free := match look s.groups g with | some x => !x.joined | none => true
  if !free || s.me = 0 then .next s
  else if peer = s.me then
    .next { s with next := s.next + 1, groups := ins s.groups g { x with joined := true, view := 1, members := [s.me] } }
  else
    .next (({ s with next := s.next + 1, groups := ins s.groups g { x with asked := some (peer, gid) } } : State).putFrame g peer 0 0 0 frControl
      ctlJoin gid)

/-- The slot holds no group any more. -/
def State.leaveSlot (s : State) (g : Nat) (x : Group) : State :=
  (({ s with
      groups := ins s.groups g { x.settled with joined := false }
      outgoing := s.outgoing.filter (fun (f : Frame) => f.g != g)
      early := s.early.filter (fun (f : Frame) => f.g != g) } : State).postView g x true)

/-- TG_LEAVE (R387). The last member that leaves dissolves the group. -/
def execTgLeave (g : Nat) (v : W64) (s : State) : Host.Outcome State Fault Refusal :=
  match look s.groups g with
  | none => .next s
  | some x =>
    let peer := fld v 2 20
    if !x.joined then .next s
    else if x.members = [peer] then .next ((s.abortSlot g x.view).leaveSlot g { x with view := x.view + 1, members := [] })
    else .next (s.askLeave g peer)

/-- A list of members as the record holds it: ascending, each once, none 0. -/
def membersOk (ms : List Nat) : Bool :=
  (ms.zip (ms.drop 1)).all (fun e => decide (e.1 < e.2)) && ms.all (fun m => decide (0 < m) && decide (m < 2 ^ 20)) && !ms.isEmpty

/-- The install is one that may happen: the next view of a joined group, for which this module, being its coordinator, has made the key, or
the coordinator has sent it one, or which leaves it out; or the first view of a group that this module has asked to join and whose key has
come. -/
def State.mayInstall (s : State) (x : Group) (view : Nat) (ms : List Nat) : Bool :=
  membersOk ms &&
  (if x.joined then
    view == x.view + 1 &&
    (if x.coordinator x.leaving = some s.me then ms == x.nextMembers && x.changing && x.newKey.isSome else x.offer || !ms.contains s.me)
  else x.asked.isSome && x.offer && ms.contains s.me)

/-- VIEW_INSTALL (R385, R387): the trust engine installs the key of the next view. -/
def execViewInstall (g view : Nat) (members : List Nat) (s : State) : Host.Outcome State Fault Refusal :=
  match look s.groups g with
  | none => .next s
  | some x =>
    if !s.mayInstall x view members then .next s
    else
      let y : Group := { x.settled with joined := true, view := view, members := members, key := (x.newKey.map (fun k => k.1)).getD s.next }
      let s := ({ s with next := s.next + 1 } : State).abortSlot g x.view
      if !members.contains s.me then .next (s.leaveSlot g y)
      else
        .next (({ s with
            groups := ins s.groups g y
            outgoing := s.outgoing.filter (fun (f : Frame) => f.g != g)
            early := s.early.filter (fun (f : Frame) => f.g != g) } : State).postView g y false)

/-! ### Other frames (R373, R383, R394) -/

/-- A number of `n` bytes at an offset, as the network's headers write it. -/
def netNum (bs : List Byte) (o n : Nat) : Nat := ofBytes ((bs.drop o).take n).reverse

/-- The UDP datagram of an Ethernet frame that reaches a station (R382): its destination port and its payload. A VLAN tag is taken off; an
IP fragment, of IPv4 or of IPv6, is dropped, and so is priority flow control, which only delays what the port sends. The layouts are those
of the standards that R382 names (see the assumption log). -/
def udpOf (mac : Nat) (bs : List Byte) : Option (Nat × List Byte) :=
  let bs' := if netNum bs 12 2 = 0x8100 then bs.drop 18 else bs.drop 14
  let type := if netNum bs 12 2 = 0x8100 then netNum bs 16 2 else netNum bs 12 2
  let udp (ip : List Byte) (o : Nat) : Option (Nat × List Byte) := some (netNum ip (o + 2) 2, (ip.drop (o + 8)).take (netNum ip (o + 4) 2 - 8))
  if netNum bs 0 6 ≠ mac && netNum bs 0 1 % 2 = 0 then none
  else if type = 0x0800 then
    (if netNum bs' 6 2 % 0x4000 ≠ 0 || netNum bs' 9 1 ≠ 17 then none else udp bs' (4 * (netNum bs' 0 1 % 16)))
  else if type = 0x86DD then (if netNum bs' 6 1 ≠ 17 then none else udp bs' 40)
  else none

/-- The slot of a group identifier for frames of a partition's ports: one that holds the group, or asks to join it. -/
def State.slotOfGroup (s : State) (part gid : Nat) : Option Nat :=
  (s.groups.find? (fun e => e.2.part == part && e.2.gid == gid && (e.2.joined || e.2.asked.isSome))).map (fun e => e.1)

/-- A frame of Brevor transport as a port receives it (R384, R385): VER and the destination are checked, GROUP names the slot, the tag is
checked and the payload opened under the group's key. ACK and NAK must be of the current view. What passes before the two share a view bears
no tag that the receiver could check, and is taken as it is; a join request at a module without the group's slot is answered from slot 0. -/
def State.brevorIn (s : State) (part : Nat) (bs : List Byte) : Host.Outcome State Fault Refusal :=
  let h := bs.take 32
  let f (o n : Nat) : Nat := recNum h o n
  let src := f 8 3 % 2 ^ 20
  let n := f 14 2
  if bs.length < 32 || f 0 1 % 16 ≠ 1 || f 11 3 % 2 ^ 20 ≠ s.me then .next s
  else
    let slot := s.slotOfGroup part (f 2 2)
    let g := slot.getD 0
    let x := (slot.bind (fun g => look s.groups g))
    let key := match x with | some x => Config.groupKey x.key | none => 0
    let ct := (bs.drop 32).take n
    let nonce := frameNonce (f 4 4) src (f 1 1) (f 16 4)
    let pt := (gcmSeal key nonce h ct).1
    let ok := (gcmSeal key nonce h pt).2 == (bs.drop (32 + n)).take 16
    let current := match x with | some x => x.joined && x.view == f 4 4 | none => false
    match f 0 1 / 16 with
    | 0 => if slot.isSome then execBrevorData g src (f 1 1) (f 4 4) (f 16 4) (f 28 4) (f 20 8) pt ok s else .next s
    | 1 => if current then execBrevorAck g src (f 1 1) (f 16 4) s else .next s
    | 2 => if current then execBrevorNak g src (f 1 1) (f 16 4) s else .next s
    | 3 =>
      let say := if ok then pt else ct
      let kind := recNum say 0 1
      if kind = ctlJoin then execBrevorControl g src (f 1 1) (f 4 4) (f 16 4) kind (f 2 2) ok s
      else if slot.isSome then execBrevorControl g src (f 1 1) (f 4 4) (f 16 4) kind (recNum say 1 16) ok s
      else .next s
    | _ => .next s

/-- ETHERNET_FRAME_RECEIVE: `kind` 0 is what the TCP offload and 1 what UDP brings for socket `sock`, over IPv4 (R382), 2 a block of a
recovery image at byte `sock`, and 3 a frame as the port receives it, of which Brevor transport is taken, in UDP with destination port
23,118. Anything else, and a frame whose traffic belongs to no enabled function of the port, is dropped (R383). -/
def execEthernetFrameReceive (port kind sock : Nat) (bs : List Byte) (s : State) : Host.Outcome State Fault Refusal :=
  let cfg := s.regVal (portCfg port)
  if 8 ≤ port || 9216 < bs.length || bit (s.regVal bootStat) (36 + port) then .next s
  else if kind = 2 then
    if port = 0 && fld (s.regVal bootStat) 0 3 = 6 && sock + bs.length ≤ areaSize then .next (s.flashPut (stagingBase + sock) bs)
    else .next s
  else if kind = 3 then
    match udpOf (fld cfg 16 48) bs with
    | some (23118, data) => if bit cfg 8 && decide (fld cfg 0 8 < 32) then s.brevorIn (fld cfg 0 8) data else .next s
    | _ => .next s
  else if !bit cfg 9 || 1 < kind then .next s
  else
    .next { s with socks := s.socks.map (fun (k : Sock) =>
      if k.id == sock && k.part == fld cfg 0 8 && k.udp == (kind == 1) then { k with rx := k.rx ++ bs } else k) }

end Sys2Proof.Machine
end

