-- ==== Sys2Proof/Machine/Service.lean ====
section
/-! DEFINITION. The service cores: SLD, SST, SLDQ and SSTL with the windows that only they reach, and the privileged
instructions (R356-R369). -/

namespace Sys2Proof.Machine

/-! ### The windows of ASID 0 (R361, R414) -/

/-- Where an address of a service core lies. -/
inductive Reach
  /-- translated memory -/
  | mem
  /-- the array of core `c` of the cluster, at byte `o` -/
  | sram (c o : Nat)
  /-- the varying window of a slot of core `c`, at byte `o` -/
  | rows (c slot o : Nat)
  /-- a management address -/
  | mgmt (x : Nat)
  deriving DecidableEq, Repr

/-- The window that a VA falls in. -/
def reachOf (va : Nat) : Reach :=
  if va < 0xFFFF_FE00_0000_0000 then .mem
  else if va < 0xFFFF_FE01_0000_0000 then
    let x := va - 0xFFFF_FE00_0000_0000
    .sram (x / 2 ^ 20) (x % 2 ^ 20)
  else if va < 0xFFFF_FE02_0000_0000 then
    let x := va - 0xFFFF_FE01_0000_0000
    .rows (x / 2 ^ 25) (x % 2 ^ 25 / 2 ^ 20) (x % 2 ^ 20)
  else if va < 0xFFFF_FF00_0000_0000 then .mem
  else .mgmt (va - 0xFFFF_FF00_0000_0000)

/-- The cluster of a service core's view. -/
def View.cluster (v : View) : Nat := v.ag - 64

/-- The compute core of the cluster that a window or a handle names. -/
def View.mate (v : View) (c : Nat) : Nat := 2 * v.cluster + c

/-- The lanes of a window row that the bytes `[o, o + n)` of its image touch; a write passes the 8-byte granules that it covers. -/
def Pack.rowPoison (p : Pack) (o n : Nat) (write : Bool) : Bool :=
  !(write && n == 8) && (get 0 p.bad (o / 384) &&& maskList [o % 384 / 4, (o % 384 + n - 1) / 4]) != 0

/-- The flaw of an access of `n` bytes to a window (R361, R414), its code and REASON: an alignment check first, then the bounds, then the
stop, and poison last (R34). -/
def View.reachFlaw (v : View) (va n : Nat) (write : Bool) : Option (Nat × Nat) :=
  if va % n ≠ 0 then some (fcProtection, 11)
  else
    match reachOf va with
    | .mem => none
    | .mgmt _ => none
    | .sram c o =>
      if 2 ≤ c || (v.s.core (v.mate c)).spBytes < o + n then some (fcProtection, 12)
      else if (v.s.core (v.mate c)).spPoison o n write then some (fcDataUe, 0)
      else none
    | .rows c slot o =>
      if 2 ≤ c then some (fcProtection, 12)
      else
        match look (v.s.core (v.mate c)).packs slot with
        | none => some (fcProtection, 12)
        | some p =>
          if 384 * p.size < o + n then some (fcProtection, 12)
          else if write && !(match p.stop with | some x => x.done | none => false) then some (fcProtection, 13)
          else if p.rowPoison o n write then some (fcDataUe, 0)
          else none

/-- The bytes of a window row image: lane L of row r at 384 r + 4 L. -/
def Pack.rowByte (p : Pack) (o : Nat) : Nat :=
  byteFld (lane (get zeroRow p.rows (o / 384)) (o % 384 / 4)).toNat (o % 4) 1

/-- Write one byte of the window image. -/
def Pack.setRowByte (p : Pack) (o : Nat) (b : Byte) : Pack :=
  { p with rows := upd zeroRow p.rows (o / 384) (fun r =>
      r.set (o % 384 / 4) (putFld (lane r (o % 384 / 4)) (8 * (o % 4)) 8 b.toNat)) }

/-- Write bytes of the window image from `o` up. -/
def Pack.putRowBytes (p : Pack) (o : Nat) : List Byte → Pack
  | [] => p
  | b :: bs => (p.setRowByte o b).putRowBytes (o + 1) bs

/-- The same, where a whole granule ends its poison (R34). -/
def Pack.setRowBytes (p : Pack) (o : Nat) (bs : List Byte) : Pack :=
  let q := p.putRowBytes o bs
  if bs.length = 8 && !q.bad.isEmpty then
    { q with bad := upd 0 q.bad (o / 384) (fun m => m &&& ~~~maskList [o % 384 / 4, o % 384 / 4 + 1]) }
  else q

/-- A read of `n` bytes of a window. -/
def View.reachRead (v : View) (va n : Nat) : Nat :=
  match reachOf va with
  | .mem => 0
  | .sram c o => (v.s.core (v.mate c)).spNum o n
  | .rows c slot o =>
    (match look (v.s.core (v.mate c)).packs slot with
      | some p => ofBytes ((List.range n).map (fun i => BitVec.ofNat 8 (p.rowByte (o + i))))
      | none => 0)
  | .mgmt x => v.s.mgmtRead (.sc v.cluster) x n

/-- A write to a core's array: through the workgroup's window where it lies in one, so that waiting splits see it. -/
def Core.arrayStore (c : Core) (o : Nat) (bs : List Byte) : Core :=
  match c.wins.find? (fun w => decide (w.base ≤ o) && decide (o < w.base + w.size)) with
  | some w => c.spStore w (o - w.base) bs
  | none => (c.spPut o bs).spClean (fun a => decide (o ≤ a) && decide (a < o + bs.length))

/-- A write of `n` bytes of a window. -/
def View.reachWrite (v : View) (va n : Nat) (x : W64) : State :=
  match reachOf va with
  | .mem => v.s
  | .sram c o => v.s.updCore (v.mate c) (fun k => k.arrayStore o (bytesOf n x.toNat))
  | .rows c slot o => v.s.updCore (v.mate c) (fun k => k.updPack slot (fun p => p.setRowBytes o (bytesOf n x.toNat)))
  | .mgmt a => v.s.mgmtWrite (.sc v.cluster) a n x

/-- The address of a uniform access lies in a window that a service core alone reaches. -/
def View.windowed (v : View) (base : SReg) (off : BitVec 24) : Option Nat :=
  let va := (v.rs base + off.signExtend 64).toNat
  if v.svc && reachOf va != Reach.mem then some va else none

/-- A fault at a VA. -/
def View.vaFault (v : View) (va : Nat) (x : Nat × Nat) (kind : Nat) : Res :=
  .fault (v.faultRec x.1 (BitVec.ofNat 64 va) x.2 0 kind 127 0)

/-- A PROTECTION fault at a VA. -/
def View.protFault (v : View) (va reason kind : Nat) : Res := v.vaFault va (fcProtection, reason) kind

/-- SLD (R141, R361). -/
def execSld (c : Ctl) (ty : Ty) (nc : Bool) (d base : SReg) (off : BitVec 24) (s : State) : Host.Outcome State Fault Refusal :=
  issue c [.ds d, .s 1 base] (fun v _ =>
    match v.windowed base off with
    | none => v.loadS c ty nc false 0 d base off
    | some va =>
      match v.reachFlaw va (tyBytes ty) false with
      | some x => v.vaFault va x kRead
      | none => v.landS c d (tyLoad ty true (BitVec.ofNat 64 (v.reachRead va (tyBytes ty))))) s

/-- SST (R142, R361). -/
def execSst (c : Ctl) (ty : Ty) (base : SReg) (off : BitVec 24) (b : SReg) (s : State) : Host.Outcome State Fault Refusal :=
  issue c [.s 1 base, .s 2 b] (fun v _ =>
    match v.windowed base off with
    | none => v.storeS c ty none base off b
    | some va =>
      match v.reachFlaw va (tyBytes ty) true with
      | some x => v.vaFault va x kWrite
      | none =>
        let x := v.rs b
        .done ({ v with s := v.reachWrite va (tyBytes ty) x }.tokenFor c 1)) s

/-- SLDQ (R145, R361). -/
def execSldq (c : Ctl) (ty : Ty) (_sc : Scope) (rmask : Byte) (d base : SReg) (off : BitVec 24) (s : State) :
    Host.Outcome State Fault Refusal :=
  issue c [.ds d, .s 1 base] (fun v _ =>
    match v.windowed base off with
    | none => v.loadS c ty false true rmask d base off
    | some va => v.protFault va 13 kRead) s

/-- SSTL (R145, R361). -/
def execSstl (c : Ctl) (ty : Ty) (sc : Scope) (base : SReg) (off : BitVec 24) (b : SReg) (s : State) :
    Host.Outcome State Fault Refusal :=
  issue c [.s 1 base, .s 2 b] (fun v _ =>
    match v.windowed base off with
    | none => v.storeS c ty (some sc) base off b
    | some va => v.protFault va 13 kWrite) s

/-- SATOM (R146, R361). -/
def execSatom (c : Ctl) (op : AOp) (aq rl : Bool) (ty : Ty) (sc : Scope) (d base : SReg) (off : BitVec 24) (b cmp : SReg)
    (s : State) : Host.Outcome State Fault Refusal :=
  let cas := decide (op = AOp.cas)
  issue c ([.ds d, .s 1 base, .s 2 b] ++ (if cas then [.s 3 cmp] else [])) (fun v _ =>
    match v.windowed base off with
    | none => v.atomic c op aq rl ty sc true (.s d) (fun _ => v.rs b) (fun _ => v.rs cmp) (v.ea1 base off)
    | some va => v.protFault va 13 kAtomic) s

/-! ### SRES (R363, R346) -/

/-- The mask that three registers give. -/
def View.mask3 (v : View) (r : SReg) : Mask :=
  setBeat (setBeat (setBeat 0 0 ((v.rs r).setWidth 32)) 1 ((v.rs (r + 1)).setWidth 32)) 2 ((v.rs (r + 2)).setWidth 32)

/-- Write rows VB to VB + 2 of the calling pack from the staging block of entry `e`, over `m` (R362, R363). -/
def Core.deliverRows (c : Core) (e slot vb : Nat) (m : Mask) : Core :=
  let block := c.sysBase + 0x800 + 1152 * (e - 24)
  let row (r : Nat) : Row := rowOf (fun L => BitVec.ofNat 32 (c.spNum (block + 384 * r + 4 * L) 4))
  c.updPack slot (fun p => (List.range 3).foldl (fun (p : Pack) r =>
    if vb + r < p.size then p.bankAfter ⟨p.newSeq, vb + r, m, row r, true, 0⟩ else p) p)

/-- Add lanes to DONE of an entry. -/
def Core.addDone (c : Core) (e : Nat) (m : Mask) : Core := c.spPut (c.kennel e + 20) (bytesOf 12 (c.kdone e ||| m).toNat)

/-- The calling split of an entry, parked in it. -/
def Core.caller (c : Core) (e : Nat) : Option (Option Nat × Option Nat) :=
  match look c.packs (c.kfield e 3 1) with
  | none => none
  | some p =>
    match p.split (c.kfield e 4 1) with
    | some (x : Split) => (match x.st with
      | .waiting (.svc k heel tok) => if k = e then some (heel, tok) else none
      | _ => none)
    | none => none

/-- The results of a group are delivered to a resident pack (R343, R346, R363): rows, DONE, the resumption with its acquire,
and the entry's return to FREE once every calling lane has resumed. -/
def Core.deliver (c : Core) (e : Nat) (m : Mask) : Core :=
  let slot := c.kfield e 3 1
  let c := (c.deliverRows e slot (c.kfield e 6 2) m).addDone e m
  let c := match c.caller e with
    | none => c
    | some (heel, tok) =>
      c.acquireAll.updPack slot (fun p =>
        p.svcResume (c.kfield e 4 1) c.cycle (c.kfield e 1 1 % 2 == 1) heel tok m (c.klanes e) (c.kdone e))
  if c.kdone e = c.klanes e then c.kfree e else c

/-- SRES. -/
def execSres (c : Ctl) (mark : Bool) (n m : SReg) (s : State) : Host.Outcome State Fault Refusal :=
  issue c [.s 1 n, .s 2 m, .s 2 (m + 1), .s 2 (m + 2)] (fun v _ =>
    let k := (v.rs n).toNat % 64
    let core := v.mate (k / 32)
    let e := k % 32
    let q := v.s.core core
    let g := v.mask3 m
    let saved := q.kfield e 1 1 / 2 % 2 == 1
    let block := q.sysBase + 0x800 + 1152 * (e - 24)
    let bad := ((List.range 3).flatMap (fun r => (lanesOf g).map (fun L => block + 384 * r + 4 * L))).find? (fun a => q.spPoison a 4 false)
    if q.kfield e 0 1 ≠ 1 || g &&& ~~~(q.klanes e &&& ~~~(q.kdone e)) ≠ 0 || saved != mark then
      .fault (v.faultRec fcSvcRecord 0 0 0 0 127 0)
    else if !mark && bad.isSome then
      v.vaFault (0xFFFF_FE00_0000_0000 + 2 ^ 20 * (k / 32) + bad.getD 0) (fcDataUe, 0) kRead
    else if mark then .done ({ v with s := v.s.updCore core (fun c => c.addDone e g) }.tokenFor c 1)
    else
      match v.release .device true with
      | .wait => .wait
      | .hold v => .hold v
      | .go v => .done ({ v with s := v.s.updCore core (fun c => c.deliver e g) }.tokenFor c 1)) s

/-! ### Pack handles, PSTOP (R360, R364) -/

/-- The core and slot that a handle names (R360). -/
def View.handle (v : View) (h : W64) : Option (Nat × Nat) :=
  if h &&& ~~~0x11F#64 ≠ 0 || 23 < fld h 0 5 then none else some (v.mate (fld h 8 1), fld h 0 5)

/-- The pack of a handle, unless it has ended. -/
def View.handlePack (v : View) (h : W64) : Option (Nat × Nat × Pack) :=
  match v.handle h with
  | none => none
  | some (n, slot) =>
    match look (v.s.core n).packs slot with
    | some p => if p.ended then none else some (n, slot, p)
    | none => none

/-- The pack is stopped: its record is written (R348). -/
def Pack.stopped (p : Pack) : Bool := match p.stop with | some x => x.done | none => false

/-- PSTOP: the stop is asked for in phase 0, and phase 1 waits for its record. -/
def execPstop (c : Ctl) (d h : SReg) (s : State) : Host.Outcome State Fault Refusal :=
  issue c [.ds d, .s 1 h] (fun v _ =>
    match v.handlePack (v.rs h) with
    | none => v.landS c d 2
    | some (n, slot, p) =>
      if p.stopped then v.landS c d (if v.sp.phase = 1 then 0 else 1)
      else if v.sp.phase = 1 then .wait
      else
        match p.stop with
        | some _ => .wait
        | none =>
          let st : Stop := ⟨0, none, 0, false, false, false⟩
          .hold { v with
            s := v.s.updCore n (fun c => c.updPack slot (fun p => { p with stop := some st }))
            sp := { v.sp with phase := 1 } }) s

/-- PSTOP.GO: resume a stopped pack in place, and free its record's entry. -/
def execPstopGo (c : Ctl) (d h : SReg) (s : State) : Host.Outcome State Fault Refusal :=
  issue c [.ds d, .s 1 h] (fun v _ =>
    match v.handlePack (v.rs h) with
    | none => v.landS c d 2
    | some (n, slot, p) => if p.stopped then { v with s := v.s.resumePack n slot }.landS c d 0 else v.landS c d 2) s

/-- A stopped pack ends with a code: its entry is free, and its launch fails (R289, R290, R364). VIEW_ABORT is latched in CTXERR (R353). -/
def State.killPack (s : State) (n slot : Nat) (p : Pack) (code : Nat) : State :=
  let end1 (p : Pack) : Pack :=
    let p := if code = fcViewAbort then p.setSpecial sprCtxerr (latchErr (p.special sprCtxerr) code) else p
    { p with ended := true, stop := none }
  (s.updCore n (fun c => (c.kfree slot).updPack slot end1)).launchError p.launch code

/-- PSTOP.END: end a stopped pack with a code; phase 1 waits until it has gone (R289, R290). -/
def execPstopEnd (c : Ctl) (d h code : SReg) (s : State) : Host.Outcome State Fault Refusal :=
  issue c [.ds d, .s 1 h, .s 2 code] (fun v _ =>
    if v.sp.phase = 1 then
      match v.handle (v.rs h) with
      | some (n, slot) =>
        (match look (v.s.core n).packs slot with
          | some p => if p.ended then .wait else v.landS c d 0
          | none => v.landS c d 0)
      | none => v.landS c d 0
    else
      match v.handlePack (v.rs h) with
      | none => v.landS c d 2
      | some (n, slot, p) =>
        if !p.stopped then v.landS c d 2
        else .hold { v with s := v.s.killPack n slot p (fld (v.rs code) 0 8), sp := { v.sp with phase := 1 } }) s

/-! ### The save area (R355) -/

/-- A PC, a set and a set of lanes, as the image holds them. -/
def lanesBytes (m : Mask) : List Byte := bytesOf 12 m.toNat
def optByte (x : Option Nat) : List Byte := bytesOf 1 (x.getD 0xFF)
def zeros (n : Nat) : List Byte := List.replicate n 0

/-- The 64 bytes of a split entry. A split that left a wait to run its instruction again is saved as one that waits (kind 2). -/
def splitImage (x : Option Split) : List Byte :=
  match x with
  | none => zeros 64
  | some y =>
    let st : Nat × Nat × Option Nat := match y.st with
      | .ready => (if y.rerun then (2, 2, none) else (1, 0, none))
      | .waiting (.svc e _ _) => (2, 1, some e)
      | .waiting _ => (2, 2, none)
      | .heel => (3, 0, none)
      | .reconv => (4, 0, none)
    bytesOf 8 y.pc.toNat ++ lanesBytes y.owned ++ lanesBytes y.mask ++ bytesOf 1 st.1 ++ bytesOf 1 st.2.1 ++ optByte y.heelRec ++
    optByte st.2.2 ++ bytesOf 1 (match y.sec with | some f => f.code | none => 0) ++ zeros 11 ++
    lanesBytes (y.replay.getD 0) ++ zeros 4

/-- The 16 bytes of a heel record. -/
def heelImage (x : Option Heel) : List Byte :=
  match x with
  | none => zeros 16
  | some h => bytesOf 8 h.pc.toNat ++ bytesOf 1 h.pending ++ optByte h.parent ++ optByte h.parked ++ bytesOf 1 1 ++ zeros 4

/-- The 32 bytes of a deferred path. -/
def deferredImage (x : Option Deferred) : List Byte :=
  match x with
  | none => zeros 32
  | some d => bytesOf 8 d.pc.toNat ++ lanesBytes d.owned ++ lanesBytes d.mask

/-- The two dwords of an affine register: B, then S with the tag (1 for 64) in bit 32. -/
def affImage (a : Aff) : List Byte := bytesOf 8 a.b.toNat ++ bytesOf 4 a.st.toNat ++ bytesOf 4 (b2n a.wide)

/-- A special register's dword. -/
def Pack.sprImage (p : Pack) (n : Nat) : List Byte := bytesOf 8 (p.special n).toNat

/-- The first 4 KiB of a pack area. -/
def Pack.areaHead (p : Pack) : List Byte :=
  let f : Nat × Nat := match p.stop with
    | some x => (x.cause, match x.fault with | some f => f.code | none => 0)
    | none => (0, 0)
  let header := bytesOf 4 p.launch ++ bytesOf 2 p.asid ++ zeros 2 ++ bytesOf 8 (p.root &&& rootBits).toNat ++ bytesOf 8 p.wg ++ bytesOf 1 p.idx ++
    bytesOf 1 f.1 ++ bytesOf 1 f.2 ++ zeros 5 ++ p.sprImage sprCtxcfg ++ p.sprImage sprCtxerr ++ p.sprImage sprFva ++
    p.sprImage sprFinfo ++ bytesOf 8 (p.size + p.base * 2 ^ 16) ++ zeros 56
  let splits := (List.range 4).flatMap (fun i => splitImage (p.split i))
  let heels := (List.range 16).flatMap (fun i => heelImage (p.heels.getD i none))
  let defs := (List.range 32).flatMap (fun i => deferredImage p.deferred[i]?)
  let sfile := (List.range 64).flatMap (fun r => bytesOf 8 (if r < 60 then (get 0 p.s r).toNat else 0))
  let afile := (List.range 32).flatMap (fun r => affImage (if r = 0 then ⟨0, 1, false⟩ else get ⟨0, 0, true⟩ p.a r))
  let pfile := (List.range 8).flatMap (fun r => lanesBytes (if r = 7 then BitVec.allOnes 96 else get 0 p.p r)) ++ zeros 32
  let views := [sprViewv, sprViewc].flatMap p.sprImage ++ (List.range 8).flatMap (fun i => p.sprImage (sprRgn + i)) ++
    (List.range 8).flatMap (fun i => p.sprImage (sprMqch + i)) ++ (List.range 8).flatMap (fun i => p.sprImage (sprCredit + i)) ++
    zeros 48
  let flags := [sprFpf, sprAfl, sprLex, sprLex + 1, sprLex + 2].flatMap p.sprImage ++ zeros 24
  let ext := (List.range 32).flatMap (fun i => optByte ((p.deferred[i]?).bind (fun (d : Deferred) => d.heelRec)))
  header ++ splits ++ heels ++ defs ++ sfile ++ afile ++ pfile ++ zeros 64 ++ views ++ flags ++ ext ++ bytesOf 4 p.deferred.length ++
    zeros 860

/-- The varying window's image. -/
def Pack.rowsImage (p : Pack) : List Byte :=
  (List.range p.size).flatMap (fun r => let row := get zeroRow p.rows r; lanes.flatMap (fun L => bytesOf 4 (lane row L).toNat))

/-- A pack area, rounded up to 4 KiB. -/
def packAreaSize (size : Nat) : Nat := alignUp (4096 + 384 * size) 4096
def Pack.area (p : Pack) : List Byte := p.areaHead ++ p.rowsImage ++ zeros (packAreaSize p.size - 4096 - 384 * p.size)

/-- The workgroup header: K, SPSZ, and SCRATCH. -/
def wgHeader (k spsz scratch : Nat) : List Byte := bytesOf 1 k ++ bytesOf 1 spsz ++ zeros 2 ++ bytesOf 4 scratch ++ zeros 4088

/-- The engine that stands for the save and restore accesses of a service core: its address space is ASID 0. -/
def View.saver (v : View) (kind : Nat) : Eng := ⟨v.ag, v.s.partOfAgent v.ag, 0, v.pk.root, kind, false⟩

/-- The engine of a shard's own address space. -/
def State.shardEng (s : State) (n kind : Nat) : Eng :=
  ⟨64 + n, s.partOfCluster n, 0, (match look (s.core (64 + n)).packs 0 with | some p => p.root | none => 0), kind, false⟩

/-- The slots of the workgroup that a slot belongs to, in pack order. -/
def Core.wgSlots (c : Core) (p : Pack) : List Nat :=
  (sortBy (fun x y => decide (x.2.idx ≤ y.2.idx)) (c.packs.filter (fun e => e.2.launch == p.launch && e.2.wg == p.wg))).map
    (fun e => e.1)

/-- SAVED := 1 in the SVC entries of the slots. -/
def Core.markSaved (c : Core) (slots : List Nat) : Core :=
  ((List.range 8).map (fun i => 24 + i)).foldl (fun (c : Core) e =>
    if c.kfield e 0 1 = 1 && slots.contains (c.kfield e 3 1) then c.spPut (c.kennel e + 1) (bytesOf 1 (c.kfield e 1 1 % 2 + 2)) else c) c

/-- The workgroup leaves its core for its save area (R365). -/
def State.unseat (s : State) (n : Nat) (p : Pack) (slots : List Nat) (area : W64) : State :=
  let s := slots.foldl (fun (s : State) k => s.detach n k) s
  let s := s.updCore n (fun c =>
    let c := slots.foldl (fun (c : Core) k => (c.kfree k).dropPack k) (c.markSaved slots)
    { c with wins := c.wins.filter (fun w => !(w.launch == p.launch && w.wg == p.wg)) })
  let x : Saved := ⟨p.launch, p.wg, area, n, s.next⟩
  { s with
    next := s.next + 1
    saved := s.saved ++ [x]
    launches := match look s.launches p.launch with
      | some l => ins s.launches p.launch { l with resident := l.resident - 1 }
      | none => s.launches }

/-- The image of a workgroup (R355): the header, the window, and the packs in their order. -/
def State.wgBytes (s : State) (n : Nat) (p : Pack) (packs : List Pack) : List Byte :=
  let co := s.core n
  let win : WgWin := (co.wins.find? (fun w => w.launch == p.launch && w.wg == p.wg)).getD ⟨0, 0, 0, 0, 0, [], 0⟩
  let scratch := match look s.launches p.launch with | some l => l.scratch | none => win.size
  wgHeader packs.length co.spsz scratch ++ co.spRead win.base win.size ++ packs.flatMap (fun q => q.area)

/-- The first byte that a save would read and that is poisoned, as a window of R361 has its VA (R34). -/
def Core.savePoison (c : Core) (n : Nat) (w : WgWin) (slots : List Nat) : Option Nat :=
  match (List.range (w.size / 8)).find? (fun i => c.spPoison (w.base + 8 * i) 8 false) with
  | some i => some (0xFFFF_FE00_0000_0000 + 2 ^ 20 * (n % 2) + w.base + 8 * i)
  | none =>
    slots.findSome? (fun k =>
      (look c.packs k).bind (fun (p : Pack) =>
        ((p.bad.filter (fun e => e.2 != 0 && decide (e.1 < p.size))).head?).map (fun e =>
          0xFFFF_FE01_0000_0000 + 2 ^ 25 * (n % 2) + 2 ^ 20 * k + 384 * e.1 + 4 * ((lowest e.2).getD 0))))

/-- Save the workgroup of pack `p` on core `n`, whose packs are stopped and whose window is quiet: the area is written, and the core is
left (R365). A poisoned byte of the image is the save's own read, and ends it (R34). -/
def State.saveWg (s : State) (q : Eng) (n : Nat) (p : Pack) (area : W64) : EngRes Unit :=
  let slots := (s.core n).wgSlots p
  let packs := slots.filterMap (fun k => look (s.core n).packs k)
  match (s.core n).savePoison n (((s.core n).wins.find? (fun w => w.launch == p.launch && w.wg == p.wg)).getD ⟨0, 0, 0, 0, 0, [], 0⟩) slots with
  | some va => .fault va ⟨fcDataUe, 0, 0⟩
  | none =>
    (s.engWrite q area.toNat (s.wgBytes n p packs)).andThen (fun _ s =>
      .ok () ((s.updCore q.agent (fun k => k.dropCopies (fun _ _ => true))).unseat n p slots area))

/-- The packs of a workgroup on a core. -/
def Core.wgPacks (c : Core) (p : Pack) : List Pack := (c.wgSlots p).filterMap (fun k => look c.packs k)

/-- PCTXSV (R365). -/
def execPctxsv (c : Ctl) (d h va : SReg) (s : State) : Host.Outcome State Fault Refusal :=
  issue c [.ds d, .s 1 h, .s 2 va] (fun v _ =>
    match v.handlePack (v.rs h) with
    | none => v.landS c d 2
    | some (n, _, p) =>
      let a := (v.rs va).toNat
      if a % 4096 ≠ 0 then v.protFault a 11 kWrite
      else if ((v.s.core n).wgPacks p).any (fun q => !q.stopped) then v.landS c d 1
      else if !v.s.windowQuiet p.launch p.wg then .wait
      else
        match v.close.saveWg (v.saver kWrite) n p (v.rs va) with
        | .busy s => .hold (v.reopen s)
        | .fault x f => .fault (v.faultRec f.code (BitVec.ofNat 64 x) f.reason f.level (engKind f kWrite) 127 0)
        | .ok _ s => (v.reopen s).landS c d 0) s

/-! ### PCTXLD (R365) -/

/-- A field of an image. -/
def imgNum (bs : List Byte) (o n : Nat) : Nat := ofBytes ((bs.drop o).take n)

/-- VWIN.SIZE of a pack area. -/
def imgRows (bs : List Byte) : Nat := imgNum bs 64 2 % 4096

/-- The first byte of a pack area's first 4 KiB that is reserved and not 0, the other bits of XROOT among them, or a state or wait code
outside R355. -/
def badByte (bs : List Byte) : Option Nat :=
  let reserved (o : Nat) : Bool :=
    (o = 6 || o = 7) || (27 ≤ o && o < 32) || (72 ≤ o && o < 128) ||
    (0x80 ≤ o && o < 0x180 && ((37 ≤ o % 64 && o % 64 < 48) || 60 ≤ o % 64)) ||
    (0x180 ≤ o && o < 0x280 && 12 ≤ o % 16) ||
    (0xAE0 ≤ o && o < 0xB00) || (0xC10 ≤ o && o < 0xC40) || (0xC68 ≤ o && o < 0xC80) || 0xCA4 ≤ o
  let root (o : Nat) : Bool := 8 ≤ o && o < 16 && BitVec.ofNat 64 (imgNum bs o 1 * 2 ^ (8 * (o - 8))) &&& ~~~rootBits != 0
  let code (o : Nat) : Bool :=
    0x80 ≤ o && o < 0x180 && ((o % 64 == 32 && 4 < imgNum bs o 1) || (o % 64 == 33 && 2 < imgNum bs o 1))
  (List.range 4096).find? (fun o => (reserved o && imgNum bs o 1 ≠ 0) || root o || code o)

/-- An optional entry number. -/
def imgOpt (bs : List Byte) (o : Nat) : Option Nat := let x := imgNum bs o 1; if x = 0xFF then none else some x

/-- A set of lanes. -/
def imgMask (bs : List Byte) (o : Nat) : Mask := BitVec.ofNat 96 (imgNum bs o 12)

/-- A split entry of the image, restored at time `t`. A wait of kind 2 is run again, and the time of the watchdog begins anew (R352). -/
def splitOf (t : Nat) (bs : List Byte) (i : Nat) : Option Split :=
  let o := 0x80 + 64 * i
  let st : SState := match imgNum bs (o + 32) 1 with | 3 => .heel | 4 => .reconv | _ => .ready
  let r := imgMask bs (o + 48)
  if imgNum bs (o + 32) 1 = 0 then none
  else
    some { (Split.start (BitVec.ofNat 64 (imgNum bs o 8)) (imgMask bs (o + 8))) with
      mask := imgMask bs (o + 20), st := st, heelRec := imgOpt bs (o + 34), replay := if r = 0 then none else some r, waited := t }

/-- A split of the image waits in SVC. -/
def svcWaits (bs : List Byte) : Bool :=
  (List.range 4).any (fun i => imgNum bs (0x80 + 64 * i + 32) 1 == 2 && imgNum bs (0x80 + 64 * i + 33) 1 == 1)

/-- A heel record of the image. -/
def heelOf (bs : List Byte) (i : Nat) : Option Heel :=
  let o := 0x180 + 16 * i
  if imgNum bs (o + 11) 1 % 2 = 0 then none
  else some ⟨BitVec.ofNat 64 (imgNum bs o 8), imgNum bs (o + 8) 1, imgOpt bs (o + 9), imgOpt bs (o + 10)⟩

/-- A deferred path of the image. -/
def deferredOf (bs : List Byte) (i : Nat) : Deferred :=
  let o := 0x280 + 32 * i
  ⟨BitVec.ofNat 64 (imgNum bs o 8), imgMask bs (o + 8), imgMask bs (o + 20), imgOpt bs (0xC80 + i)⟩

/-- The pack that an area's first 4 KiB and its rows give at time `t`; a reserved bit of a register reads as 0 (R11), and so does B[63:32]
of an affine register of width 32 (R182). -/
def packOf (t : Nat) (lmask : Mask) (bs : List Byte) (rows : List Byte) : Pack :=
  let spr (p : Pack) (n o : Nat) : Pack := p.setSpecial n (BitVec.ofNat 64 (imgNum bs o 8) &&& sprBits n)
  let splits := (List.range 4).map (fun i => splitOf t bs i)
  let defs := (List.range (min 32 (imgNum bs 0xCA0 4))).map (fun i => deferredOf bs i)
  let live := (splits.foldl (fun (m : Mask) x => match x with | some (y : Split) => m ||| y.owned | none => m) 0) |||
    (defs.foldl (fun (m : Mask) d => m ||| d.owned) 0)
  let size := imgRows bs
  let p : Pack := { (Pack.start 0 lmask) with
    launch := imgNum bs 0 4, asid := imgNum bs 4 2, root := BitVec.ofNat 64 (imgNum bs 8 8) &&& rootBits, wg := imgNum bs 16 8, idx := imgNum bs 24 1,
    size := size, live := live, splits := splits, deferred := defs, heels := (List.range 16).map (fun i => heelOf bs i) }
  let p := spr (spr (spr (spr p sprCtxcfg 32) sprCtxerr 40) sprFva 48) sprFinfo 56
  let p := (List.range 8).foldl (fun (p : Pack) i =>
    spr (spr (spr p (sprRgn + i) (0xB50 + 8 * i)) (sprMqch + i) (0xB90 + 8 * i)) (sprCredit + i) (0xBD0 + 8 * i))
    (spr (spr p sprViewv 0xB40) sprViewc 0xB48)
  let p := spr (spr (spr (spr (spr p sprFpf 0xC40) sprAfl 0xC48) sprLex 0xC50) (sprLex + 1) 0xC58) (sprLex + 2) 0xC60
  let aff (r : Nat) : Aff :=
    let wide := imgNum bs (0x88C + 16 * r) 4 % 2 == 1
    ⟨BitVec.ofNat 64 (imgNum bs (0x880 + 16 * r) (if wide then 8 else 4)), BitVec.ofNat 32 (imgNum bs (0x888 + 16 * r) 4), wide⟩
  { p with
    s := (List.range 60).foldl (fun m r => Machine.set 0 m r (BitVec.ofNat 64 (imgNum bs (0x680 + 8 * r) 8))) []
    a := (List.range 31).foldl (fun m r => Machine.set ⟨0, 0, true⟩ m (r + 1) (aff (r + 1))) []
    p := (List.range 7).foldl (fun m r => Machine.set 0 m r (imgMask bs (0xA80 + 12 * r))) []
    rows := (List.range size).foldl (fun m r =>
      Machine.set zeroRow m r (rowOf (fun L => BitVec.ofNat 32 (imgNum rows (384 * r + 4 * L) 4)))) [] }

/-- What reading an image comes to: its packs, a bad byte, or a wait. -/
structure WgImage where
  k : Nat
  spsz : Nat
  scratch : Nat
  win : List Byte
  heads : List (List Byte)
  rows : List (List Byte)
  bad : Option Nat

/-- Read the pack area at `va`: the image with it, and where the next one begins, unless a byte of it is bad. -/
def State.readArea (s : State) (q : Eng) (va : Nat) (w : WgImage) : EngRes (WgImage × Option Nat) :=
  (s.engRead q va 4096).andThen (fun head s =>
    match badByte head with
    | some o => .ok ({ w with bad := some (w.bad.getD (va + o)) }, none) s
    | none =>
      let size := imgRows head
      (s.engRead q (va + 4096) (384 * size)).andThen (fun rows s =>
        .ok ({ w with heads := w.heads ++ [head], rows := w.rows ++ [rows] }, some (va + packAreaSize size)) s))

/-- Read the pack areas from `va` up. -/
def State.readAreas (q : Eng) : Nat → Nat → WgImage → State → EngRes WgImage
  | 0, _, w, s => .ok w s
  | k + 1, va, w, s => (s.readArea q va w).andThen (fun x s =>
      match x.2 with
      | none => .ok x.1 s
      | some next => State.readAreas q k next x.1 s)

/-- The pack areas of the image saved at `area`: the VA of each, with its first 4 KiB. -/
def WgImage.areas (w : WgImage) (area : Nat) : List (Nat × List Byte) :=
  let sizes := w.heads.map (fun h => packAreaSize (imgRows h))
  (w.heads.zipIdx).map (fun h => (area + 4096 + alignUp w.scratch 4096 + (sizes.take h.2).foldl (· + ·) 0, h.1))

/-- Read a workgroup's image: every pack area that its header counts; a window that no array holds is not read. -/
def State.readImage (s : State) (q : Eng) (va : Nat) : EngRes WgImage :=
  (s.engRead q va 4096).andThen (fun h s =>
    let reserved (o : Nat) : Bool := o = 2 || o = 3 || 8 ≤ o
    let w : WgImage := ⟨imgNum h 0 1, imgNum h 1 1, imgNum h 4 4, [], [], [], none⟩
    match (List.range 4096).find? (fun o => reserved o && imgNum h o 1 ≠ 0) with
    | some o => .ok { w with bad := some (va + o) } s
    | none =>
      let size := alignUp w.scratch 4096
      (s.engRead q (va + 4096) (if 2 ^ 20 < size then 0 else size)).andThen (fun win s => State.readAreas q w.k (va + 4096 + size) { w with win := win } s))

/-- What loading a workgroup comes to: the address of a bad byte, or a status. -/
inductive LoadRes
  | bad (va : Nat)
  | status (k : Nat)
  deriving DecidableEq, Repr

/-- Load the workgroup saved at `a` onto core `n` (R365): the image is checked, then the fit, then the waits, and nothing is written
before. -/
def State.loadWg (s : State) (q : Eng) (n a : Nat) : EngRes LoadRes :=
  (s.readImage q a).andThen (fun w s =>
    match w.bad with
    | some x => .ok (.bad x) s
    | none =>
      let id := imgNum (w.heads.headD []) 0 4
      let wg := imgNum (w.heads.headD []) 16 8
      match look s.launches id, s.fits n w.spsz (alignUp w.scratch 4096) (w.heads.map imgRows) with
      | some l, some pl =>
        if w.heads.any svcWaits then .ok (.status 3) s
        else
          let packs := (w.heads.zip w.rows).map (fun e => (packOf s.time (l.mask (imgNum e.1 24 1)) e.1 e.2).lexAgain)
          let s := s.settleIn pl id wg w.spsz (alignUp w.scratch 4096) packs w.win
          .ok (.status 0) { s with
            launches := ins s.launches id { l with resident := l.resident + 1 }
            saved := s.saved.filter (fun (x : Saved) => !(x.launch == id && x.wg == wg)) }
      | _, _ => .ok (.status 1) s)

/-- Add credits to the CREDIT dword of a saved pack, in its image (R175, R355); ones that match no channel of it are discarded. -/
def State.creditSaved (s : State) (c : Credit) (x : Saved) : EngRes Unit :=
  let q := s.shardEng (x.core / 2) kWrite
  (s.readImage q x.area.toNat).andThen (fun w s =>
    match (w.areas x.area.toNat).find? (fun h => imgNum h.2 24 1 == c.idx) with
    | none => .ok () s
    | some h =>
      let p := packOf s.time 0 h.2 []
      match s.channelFor p c with
      | none => .ok () s
      | some ch => s.engWrite q (h.1 + 0xBD0 + 8 * ch) (bytesOf 8 ((p.setCredit ch (p.credit ch + c.n)).special (sprCredit + ch)).toNat))

/-- CREDIT_RETURN number `i` (R175): added to its channel, or to the image of a saved pack, or discarded. -/
def execCreditReturn (i : Nat) (s : State) : Host.Outcome State Fault Refusal :=
  match s.credits[i]? with
  | none => .next s
  | some c =>
    let t := { s with credits := s.credits.eraseIdx i }
    match s.findWin c.launch c.to_ with
    | none =>
      (match s.saved.find? (fun (x : Saved) => x.launch == c.launch && x.wg == c.to_) with
        | none => .next t
        | some x =>
          match t.creditSaved c x with
          | .ok _ t => .next t
          | .busy t => .next { t with credits := s.credits }
          | .fault _ _ => .next s)
    | some (n, _) =>
      match (s.core n).slotOf c.launch c.to_ c.idx with
      | none => .next t
      | some k =>
        match (look (s.core n).packs k).bind (fun p => s.channelFor p c) with
        | none => .next t
        | some ch => .next ((t.updCore n (fun co => co.updPack k (fun p => p.setCredit ch (p.credit ch + c.n)))).wakeCredit n k)

/-- PCTXLD (R365). -/
def execPctxld (c : Ctl) (d h va : SReg) (s : State) : Host.Outcome State Fault Refusal :=
  issue c [.ds d, .s 1 h, .s 2 va] (fun v _ =>
    let hv := v.rs h
    let a := (v.rs va).toNat
    if hv &&& ~~~0x11F#64 ≠ 0 then v.landS c d 2
    else if a % 4096 ≠ 0 then v.protFault a 11 kRead
    else
      match v.close.loadWg (v.saver kRead) (v.mate (fld hv 8 1)) a with
      | .busy s => .hold (v.reopen s)
      | .fault x f => .fault (v.faultRec f.code (BitVec.ofNat 64 x) f.reason f.level (engKind f kRead) 127 0)
      | .ok (.bad x) _ => .fault (v.faultRec fcIllegalField (BitVec.ofNat 64 x) 0 0 0 127 0)
      | .ok (.status k) s => (v.reopen s).landS c d (BitVec.ofNat 64 k)) s

/-! ### TLBINV (R52, R366) -/

/-- Which translations TLBINV drops. -/
def tlbHit (mode : TlbMode) (asid va : Nat) (e : TlbEntry) : Bool :=
  match mode with
  | .page => e.hits asid va
  | .asid => e.asid == asid
  | .all => true

/-- The cores of a cluster: two compute cores and the service core. -/
def clusterAgents (n : Nat) : List Nat := [2 * n, 2 * n + 1, 64 + n]

/-- Drop translations from a cluster's buffers, and from the hub's; walks under way that may come to a page that matches end without a
result, whatever its size, and pages that waiting instructions have resolved are resolved again. -/
def State.dropTlb (s : State) (cl : Nat) (hub : Bool) (mode : TlbMode) (asid va : Nat) : State :=
  let hit := tlbHit mode asid va
  let kill (k : Walk) : Walk :=
    if clusterOf k.agent == cl && hit ⟨k.asid, 2, (k.va % 2 ^ 57) / 2 ^ levelShift 2, 0⟩ then { k with killed := true } else k
  let redo (p : Pack) : Pack :=
    if mode == TlbMode.all || p.asid == asid then p.mapSplits (fun x => { x with xl := [] }) else p
  let cut (c : Core) : Core :=
    { c with utlb := c.utlb.filter (fun e => !hit e), packs := c.packs.map (fun e => (e.1, redo e.2)) }
  let s := (clusterAgents cl).foldl (fun (s : State) a => s.updCore a cut) s
  { s with
    ctb := Machine.set [] s.ctb cl ((get [] s.ctb cl).filter (fun e => !hit e))
    hubtb := if hub then s.hubtb.filter (fun e => !hit e) else s.hubtb
    walks := s.walks.map kill }

/-- TLBINV: phase 0 drops; the phase after it, one above the last operation's number, waits for the operations that began
before, tile fetches among them. -/
def execTlbinv (c : Ctl) (mode : TlbMode) (hub : Bool) (va asid : SReg) (s : State) : Host.Outcome State Fault Refusal :=
  issue c [.s 1 va, .s 2 asid] (fun v _ =>
    if v.sp.phase = 0 then
      let s := v.close.dropTlb v.cluster hub mode ((v.rs asid).toNat % 65536) (v.rs va).toNat
      let w := v.reopen s
      .hold { w with sp := { w.sp with phase := s.next + 1 } }
    else
      let s := v.close
      if (clusterAgents v.cluster).any (fun a => (s.core a).ops.any (fun o => decide (o.id < v.sp.phase)) ||
          (s.core a).fetches.any (fun f => decide (f.id < v.sp.phase) && !f.todo.isEmpty && f.fault.isNone)) then .wait
      else .done (v.tokenFor c 1)) s

/-! ### Mailboxes (R368) -/

/-- Phase 3 is over once every cluster is READY or FENCED (R402). -/
def State.bootAdvance (s : State) : State :=
  if fld (s.regVal bootStat) 0 3 = 3 && (List.range 32).all (fun n => s.clusterSt n == 2 || s.clusterSt n == 3) then s.putReg bootStat 0 3 4 else s

/-- The shard that started the others of its die: the lowest cluster of the die that has started (R374). -/
def State.dieShard (s : State) (d : Nat) : Option Nat := ((List.range 8).map (fun i => 8 * d + i)).find? (fun n => (s.core (64 + n)).started)

/-- A cluster whose shard answers its die shard is READY (R374, R408). -/
def State.bootAnswer (s : State) (n to_ : Nat) : State :=
  if s.clusterSt n = 1 && (s.core (64 + n)).started && n != to_ && s.dieShard (n / 8) = some to_ then (s.putReg (cluStat n) 0 2 2).bootAdvance
  else s

/-- MBXSEND. -/
def execMbxsend (c : Ctl) (d tgt p : SReg) (s : State) : Host.Outcome State Fault Refusal :=
  issue c [.ds d, .s 1 tgt, .s 2 p, .s 2 (p + 1), .s 2 (p + 2)] (fun v _ =>
    match v.release .device true with
    | .wait => .wait
    | .hold v => .hold v
    | .go v =>
      let t := v.rs tgt
      let n := fld t 0 5
      let s := v.close
      let away := match s.partOfCluster n with | some q => s.partOfCluster v.cluster != some q | none => false
      if t.toNat / 32 ≠ 0 || s.clusterSt n == 3 || (s.core (64 + n)).failed || away then v.landS c d 2
      else if 64 ≤ (s.core (64 + n)).mailbox.length then v.landS c d 1
      else
        let m : Mail := ⟨v.cluster, v.rs p, v.rs (p + 1), v.rs (p + 2)⟩
        (v.reopen ((s.updCore (64 + n) (fun k => { k with mailbox := k.mailbox ++ [m] })).bootAnswer v.cluster n)).landS c d 0) s

/-- The order in which pending events are taken. -/
def SvcEvent.rank (e : SvcEvent) : Nat :=
  match e.kind with
  | 5 => e.src
  | 2 => 1000 + e.entry
  | 3 => 2000 + e.src
  | 4 => 3000
  | _ => 4000 + e.src

/-- The first pending event. -/
def Core.firstEvent (c : Core) : Option SvcEvent :=
  c.events.foldl (fun (b : Option SvcEvent) e => match b with | some x => if e.rank < x.rank then some e else b | none => some e) none

/-- An event or a message is pending. -/
def Core.pendingEvent (c : Core) : Bool := !c.events.isEmpty || !c.mailbox.isEmpty

/-- Take the first event: the four values, and whether it acquires (a MSG does). -/
def Core.takeEvent (c : Core) : Option (List W64 × Core) :=
  match c.firstEvent with
  | some e =>
    let w := BitVec.ofNat 64 (e.kind + e.src * 2 ^ 8 + (if e.kind = 2 then e.entry * 2 ^ 16 else 0))
    let ps : List W64 := if e.kind = 6 then [e.p0, e.p1, e.p2] else [0, 0, 0]
    some (w :: ps, { c with events := c.events.filter (fun x => x != e) })
  | none =>
    match c.mailbox with
    | [] => none
    | m :: ms =>
      let c : Core := { c with mailbox := ms }
      some ([BitVec.ofNat 64 (1 + m.src * 2 ^ 8), m.p0, m.p1, m.p2], c.selfInvalidate 0 0)

/-- MBXRECV. -/
def execMbxrecv (c : Ctl) (nb : Bool) (d : SReg) (s : State) : Host.Outcome State Fault Refusal :=
  issue c [.ds d, .ds (d + 1), .ds (d + 2), .ds (d + 3)] (fun v _ =>
    match v.co.takeEvent with
    | some (xs, _) =>
      let s := v.close.updCore v.ag (fun k => match k.takeEvent with | some r => r.2 | none => k)
      let w := v.reopen s
      .done (((xs.zip (List.range 4)).foldl (fun (w : View) e => w.ws (d + BitVec.ofNat 6 e.2) e.1 latU) w).tokenFor c latU)
    | none =>
      if nb then v.landS c d 0
      else
        let (v, tok) := v.tokenV c
        let w := v.finish c (v.succ c)
        let co : Core := { w.co with mbwait := some (d, tok) }
        .state ({ w with co := co } : View).close) s

/-- MBXRECV_WAKE: an event has come for a waiting MBXRECV. -/
def execMbxrecvWake (n : Nat) (s : State) : Host.Outcome State Fault Refusal :=
  let c := s.core (64 + n)
  match c.mbwait, c.takeEvent with
  | some (d, tok), some (xs, c) =>
    let put (p : Pack) : Pack :=
      ((xs.zip (List.range 4)).foldl (fun (p : Pack) e => p.applyAfter 0 (.s (d + BitVec.ofNat 6 e.2) e.1)) p).tokDown 0 tok
    .next (s.setCore (64 + n) ({ c with mbwait := none } : Core) |>.updCore (64 + n) (fun k => k.updPack 0 put))
  | _, _ => .next s

/-! ### ZAP, HALT, IRET (R367, R369) -/

/-- ZAP. -/
def execZap (c : Ctl) (pa len : SReg) (s : State) : Host.Outcome State Fault Refusal :=
  issue c [.s 1 pa, .s 2 len] (fun v _ =>
    let a := (v.rs pa).toNat
    let n := (v.rs len).toNat
    if a % 4 ≠ 0 || n % 4 ≠ 0 then v.protFault a 11 kWrite
    else if n = 0 then .done (v.tokenFor c 1)
    else if a / 2 ^ 16 ≠ (a + n - 1) / 2 ^ 16 || !isHbm a || !v.s.reachable (v.s.partOfAgent v.ag) a then v.protFault a 7 kWrite
    else
      let ws := (List.range (n / 4)).map (fun i => a / 4 + i)
      let accs := ws.map (fun w => accOf ⟨127, 4 * w, 4 * w, 0, 0⟩ 4 [w])
      v.begin c false (memOp .zap .n32 .none accs) (fun id s =>
        ws.foldl (fun (s : State) w => s.send v.ag (homeNode w) (.zapw w id (covers a n w))) s)) s

/-- HALT: with no event pending the clock is gated, after the core has given its words back (R67). -/
def execHalt (c : Ctl) (s : State) : Host.Outcome State Fault Refusal :=
  issue c [] (fun v _ =>
    if v.co.pendingEvent then .done (v.tokenFor c 1)
    else if !v.co.drained then .wait
    else
      let s := ((v.tokenFor c 1).finish c (v.succ c)).close.giveUp v.ag
      .state (s.updCore v.ag (fun k => { k with halted := true }))) s

/-- HALT_WAKE: an event is pending for a halted service core. -/
def execHaltWake (n : Nat) (s : State) : Host.Outcome State Fault Refusal :=
  let c := s.core (64 + n)
  if c.halted && c.pendingEvent then .next (s.setCore (64 + n) { c with halted := false, gated := false }) else .next s

/-- IRET. -/
def execIret (c : Ctl) (s : State) : Host.Outcome State Fault Refusal :=
  issue c [] (fun v _ =>
    if !v.co.exl then .fault (v.faultRec fcIllegalOp 0 0 0 0 127 0)
    else .jump v.eret v.co.epc) s

end Sys2Proof.Machine
end

