-- ==== Sys2Proof/Machine/Host.lean ====
section
/-! DEFINITION. The host and the trust engine: answers from host memory, the memory aperture, binding and resetting functions,
attestation, owner keys, live activation and live migration (R103, R154, R375-R381, R392-R401). -/

namespace Sys2Proof.Machine

/-! ### Host memory (R103, R154) -/

/-- An answer reaches an operation of a core: a lane takes its value, or fails; one answer fewer is awaited. -/
def State.hostAnswer (s : State) (h : HostReq) (f : Acc → Acc) : State :=
  (s.updCore h.src (fun c => c.mapOps (fun m =>
    if m.id == h.tag then { m with host := m.host - 1, accs := m.accs.map f } else m))).settleOps h.src

/-- HOST_COMPLETION of the oldest request to host memory (R103, R154): it is performed and answered, or (`ok` false) the host answers
Unsupported Request, and the lanes fault DATA_UE in phase 2. A posted write has no answer: it only leaves. -/
def execHostCompletion (ok : Bool) (s : State) : Host.Outcome State Fault Refusal :=
  match s.hostq with
  | [] => .next s
  | h :: rest =>
    let s := { s with hostq := rest }
    let hit (z : Acc) : Bool := z.pa == h.pa && z.need.isEmpty
    let ue (z : Acc) : Acc := if z.code = 0 then { z with code := fcDataUe, fva := z.va } else z
    match h.op with
    | .write bs =>
      let s := if ok then s.setBytes h.pa bs else s
      .next (s.updCore h.src (fun c => c.updPack h.slot (fun p => { p with hostw := p.hostw - 1 })))
    | .read =>
      let v : W64 := BitVec.ofNat 64 (s.bytes h.pa h.n)
      .next (s.hostAnswer h (fun z => if hit z then (if ok then { z with val := v } else ue z) else z))
    | .atomic l =>
      let old : W64 := BitVec.ofNat 64 (s.bytes h.pa h.n)
      let s := if ok then s.setBytes h.pa (bytesOf h.n (atomOp l old).val.toNat) else s
      .next (s.hostAnswer h (fun z => if z.lane == h.lane && hit z then (if ok then { z with val := old } else ue z) else z))

/-! ### The memory aperture (R379) -/

/-- The XROOT of an address space of a partition. -/
def State.rootOf (s : State) (p asid : Nat) : W64 := get 0 s.roots (65536 * p + asid)

/-- The address space that a function's aperture and reports reach. -/
def State.apertureEng (s : State) (f kind : Nat) : Eng :=
  let p := s.fnPart f
  let asid := fld (s.mreg 0 (fnBind f)) 16 16
  ⟨104, some p, asid, s.rootOf p asid, kind, false⟩

/-- The aperture is closed (R377, R379). A request that needs ATS, PASID or peer-to-peer routing is one for no function of the module: its
event bears a number above 384, and it completes as UR (R375). -/
def State.apertureClosed (s : State) (f off : Nat) : Bool :=
  384 < f || !s.bound f || s.partProt (s.fnPart f) || decide (2 ^ 36 ≤ off)

/-- HAE rises, saturating (R378, R379). -/
def State.countHae (s : State) (f : Nat) : State :=
  let n := fld (s.mreg 0 (fnStat f)) 16 16
  if n = 0xFFFF then s else s.setMreg (fnStat f) (putFld (s.mreg 0 (fnStat f)) 16 16 (n + 1))

/-- The module answers the host. -/
def State.answerHost (s : State) (o : HostOut) : State := { s with hostout := s.hostout ++ [o] }

/-- Every page of a range passes its checks. -/
def State.engCheck (s : State) (q : Eng) (va n : Nat) (write : Bool) : EngRes Unit :=
  (piecesOf va n).foldl (fun r p => r.andThen (fun _ s => (s.engXlate q p.1 write).andThen (fun _ s => .ok () s))) (.ok () s)

/-- Perform one write of the host port: a notification (R319), or a write of memory, which a fault discards and counts (R379). -/
def State.aperWrite (s : State) (w : AperWrite) : EngRes Unit :=
  match w.notify with
  | some n => (match s.notify w.fn n (BitVec.ofNat 32 (ofBytes w.bs)) with | .busy t => .busy t | r => .ok () r.state)
  | none =>
  let q := s.apertureEng w.fn kWrite
  match (s.engCheck q w.off w.bs.length true).andThen (fun _ s => s.engWrite q w.off w.bs) with
  | .ok _ s => .ok () s
  | .busy s => .busy s
  | .fault _ _ => .ok () (s.countHae w.fn)

/-- Perform the writes that wait at the host port, those of one function in their order (R103): one whose words are on their way holds
back its function's later ones. -/
def State.drainAper (s : State) : State :=
  (s.aper.foldl (fun (r : State × List Nat) w =>
    if r.2.contains w.fn then r
    else
      match r.1.aperWrite w with
      | .ok _ t => ({ t with aper := t.aper.erase w }, r.2)
      | .busy t => (t, w.fn :: r.2)
      | .fault _ _ => r) (s, [])).1

/-- HOST_APERTURE_READ (R379). A read follows the function's earlier writes; one that must wait for them or for words on their way is
offered again. -/
def execHostApertureRead (f off n : Nat) (s : State) : Host.Outcome State Fault Refusal :=
  let s := s.drainAper
  if s.apertureClosed f off then .next (s.answerHost (.unsupported f))
  else if s.aperBusy f then .next s
  else
    match s.engRead (s.apertureEng f kRead) off n with
    | .ok bs s => .next (s.answerHost (.data f bs))
    | .busy s => .next s
    | .fault _ _ => .next ((s.countHae f).answerHost (.abort f))

/-- HOST_APERTURE_WRITE (R103, R379): the write joins those that wait at the port, which are performed as far as they can be. -/
def execHostApertureWrite (f off : Nat) (bs : List Byte) (s : State) : Host.Outcome State Fault Refusal :=
  if s.apertureClosed f off then .next (s.answerHost (.unsupported f))
  else .next ({ s with aper := s.aper ++ [⟨f, off, bs, none⟩] } : State).drainAper

/-- HOST_APERTURE_ATOMIC (R375, R379): FetchAdd, Swap and CAS of 32 and 64 bits; anything else is Unsupported Request. -/
def execHostApertureAtomic (f off : Nat) (ty : Ty) (op : AOp) (opd cmp : W64) (s : State) : Host.Outcome State Fault Refusal :=
  let known := (op == AOp.add || op == AOp.xchg || op == AOp.cas) && (tyBytes ty == 4 || tyBytes ty == 8)
  let s := s.drainAper
  if s.apertureClosed f off || !known || off % tyBytes ty ≠ 0 then .next (s.answerHost (.unsupported f))
  else if s.aperBusy f then .next s
  else
    let q := s.apertureEng f kAtomic
    let l : AtmLane := ⟨0, op, ty, opd, cmp⟩
    let go : EngRes (List Byte) := (s.engCheck q off (tyBytes ty) true).andThen (fun _ s =>
      (s.engRead q off (tyBytes ty)).andThen (fun bs s =>
        (s.engWrite q off (bytesOf (tyBytes ty) (atomOp l (BitVec.ofNat 64 (ofBytes bs))).val.toNat)).andThen (fun _ s => .ok bs s)))
    match go with
    | .ok bs s => .next (s.answerHost (.data f bs))
    | .busy s => .next s
    | .fault _ _ => .next ((s.countHae f).answerHost (.abort f))

/-! ### Functions (R377, R381) -/

/-- Some queue of the function has VALID = 1. A descriptor whose read faults counts by the byte that its home holds. -/
def State.anyValid (s : State) (f : Nat) : Bool :=
  (List.range 512).any (fun q =>
    match s.desc f q, s.descPa f q with
    | .ok d, _ => d.valid
    | .fault _, some pa => s.bytes (pa + 11) 1 % 2 == 1
    | _, _ => false)

/-- A descriptor of the function has words on their way: the state with the first of them brought home. -/
def State.descBusy (s : State) (f : Nat) : Option State :=
  (List.range 512).findSome? (fun q => match s.desc f q with | .busy t => some t | _ => none)

/-- An event that found words on their way is tried again. -/
def State.later (s : State) (i : Again) : State := if s.again.contains i then s else { s with again := s.again ++ [i] }

/-- MIG_CTL.ST (R400). -/
def State.migSt (s : State) (f : Nat) : Nat := fld (s.mreg 0 (migCtl f)) 8 2

/-- FN_BIND_WRITE (R377, R378): HAE counts from the binding. Of a bound function the descriptors are read first. -/
def execFnBindWrite (f : Nat) (v : W64) (s : State) : Host.Outcome State Fault Refusal :=
  match (if s.bound f then s.descBusy f else none) with
  | some t => .next (t.later (.bind f v))
  | none =>
  if (s.bound f && s.anyValid f) || (f ≠ 0 && s.migSt f ≠ 0) then .next s
  else .next ((s.setMreg (fnBind f) v).setMreg (fnStat f) (putFld (s.mreg 0 (fnStat f)) 16 16 0))

/-- Clear VALID of the function's descriptors; with words of them on their way it is to be tried again from the state given. -/
def State.clearValid (s : State) (f : Nat) : Except State State :=
  (List.range 512).foldl (fun (r : Except State State) q =>
    r.bind (fun s =>
      match s.descPa f q, s.desc f q with
      | some pa, .ok d =>
        if !d.valid then .ok s
        else
          match s.readBytes ⟨engAgent, false⟩ (pa + 11) 1 with
          | .ok (bs, s) =>
            (match s.writeBytes ⟨engAgent, false⟩ (pa + 11) (bytesOf 1 (ofBytes bs / 2 * 2)) with
              | .ok s => .ok s
              | .busy t => .error t
              | .fault _ => .ok s)
          | .busy t => .error t
          | .fault _ => .ok s
      | _, .busy t => .error t
      | _, _ => .ok s)) (.ok s)

/-- The packs of a launch end at once, and with them its saved workgroups and what they are doing (R381). -/
def State.killLaunch (s : State) (id : Nat) : State :=
  let mine (e : Nat × Pack) : Bool := e.2.launch == id
  let s := (List.range 64).foldl (fun (s : State) n =>
    ((s.core n).packs.filter mine).foldl (fun (s : State) e =>
      let others := (s.core n).packs.any (fun x => x.1 != e.1 && x.2.launch == id && x.2.wg == e.2.wg)
      s.removePack n e.1 id e.2.wg (!others)) s) s
  let s := (List.range 64).foldl (fun (s : State) n =>
    let es := ((List.range 8).map (fun i => 24 + i)).filter (fun e => (s.core n).kfield e 0 1 == 1 && (s.core n).kfield e 56 4 == id)
    if es.isEmpty then s else (s.dropJobs n es).updCore n (fun c => es.foldl (fun (c : Core) e => c.kfree e) c)) s
  let s := { s with
    saved := s.saved.filter (fun (x : Saved) => x.launch != id)
    xfers := s.xfers.filter (fun (x : Xfer) => x.launch != id)
    remotes := s.remotes.filter (fun (r : Remote) => r.launch != id)
    credits := s.credits.filter (fun (c : Credit) => c.launch != id)
    senders := s.senders.filter (fun (x : Sender) => x.launch != id) }
  match look s.launches id with
  | some l => { s with launches := ins s.launches id { l with err := some 0, resident := 0 } }
  | none => s

/-- A queue after a reset of its function: nothing of its packets is left, and its descriptor has been seen with VALID 0 (R320, R378). -/
def QState.flushed (x : QState) : QState := { (QState.fresh x.fn x.q) with own := x.own, restart := true }

/-- Packets posted into a function's device queues are gone: their parents await them no more (R291, R381). -/
def State.dropPosted (s : State) (f : Nat) : State :=
  (s.posted.filter (fun e => e.1 == f)).foldl (fun (s : State) e =>
    match look s.launches e.2.2.2.1 with
    | some l => { s with launches := ins s.launches e.2.2.2.1 { l with children := l.children - 1 } }
    | none => s) s

/-- VF_FLR (R381): its queues are invalid at once, and its launches complete with ERROR and CODE 0. -/
def execVfFlr (f : Nat) (s : State) : Host.Outcome State Fault Refusal :=
  if f = 0 || 384 < f then .next s
  else
    match s.clearValid f with
    | .error t => .next (t.later (.flr f))
    | .ok s =>
      let ids := (s.launches.filter (fun e => e.2.fn == f)).map (fun e => e.1)
      let s := s.dropPosted f
      let s := { s with
        queues := s.queues.map (fun (x : QState) => if x.fn == f then x.flushed else x)
        graphs := s.graphs.filter (fun (g : Graph) => g.fn != f)
        posted := s.posted.filter (fun e => e.1 != f)
        aper := s.aper.filter (fun (w : AperWrite) => w.fn != f) }
      .next (ids.foldl (fun (s : State) id => s.killLaunch id) s)

/-- What a module reset keeps (R381): the fuses and the owner keys of the trust engine, the flash with the plan in it, the straps, and
what stands outside the module: host memory and what has been sent. -/
def State.moduleReset (s : State) : State :=
  { (State.reset.putReg bootStat 3 1 (fld (s.regVal bootStat) 3 1)) with
    owners := s.owners, fuses := s.fuses, presence := s.presence, recoveryStrap := s.recoveryStrap, flash := s.flash,
    hostout := s.hostout, wire := s.wire, free := s.free, mem := keep isHost s.mem }

/-- PF_FLR (R381, R31, R32). -/
def execPfFlr (s : State) : Host.Outcome State Fault Refusal := .next s.moduleReset

/-! ### Images, owners, fuses (R393-R396) -/

/-- The body length that a header names; one that the area does not hold is not accepted. -/
def imageLen (h : List Byte) : Nat := recNum h 16 8

/-- An image with its header, as the flash holds it. -/
def State.imageBytes (s : State) (base : Nat) : List Byte :=
  let n := imageLen (s.flashBytes base 1024)
  s.flashBytes base (1024 + if 1024 + n ≤ areaSize then n else 0)

/-- The key that a signer field names (R392, R393): none is an empty slot. -/
def State.signerKey (s : State) (k : Nat) : Option (List W64) := if k = 0 then some [] else look s.owners k

/-- An image is accepted (R393, R396). -/
def State.imageOk (s : State) (img : List Byte) : Bool :=
  let h := img.take 1024
  let svn := recNum h 8 1
  recNum h 0 8 == 0x4D58363446570001 && decide (svn ≤ 128) && decide (recNum h 9 1 ≤ 2) && recNum h 11 5 == 0 &&
  recNum h 88 424 == 0 && decide (1024 + imageLen h ≤ areaSize) && decide (s.fuses ≤ svn) &&
  sha512 (img.drop 1024) == recNum h 24 64 &&
  (match s.signerKey (recNum h 9 1) with
    | some k => Config.signatureHolds k (h.take 512) (h.drop 512)
    | none => false)

/-- Blow the fuses that an image asks for (R396). -/
def State.blow (s : State) (img : List Byte) : State := if recNum img 10 1 = 1 then { s with fuses := max s.fuses (recNum img 8 1) } else s

/-- OWN_ENROLL.ST (R395). -/
def State.enrolled (s : State) (st : Nat) : State := s.putReg ownEnroll 8 2 st

/-- OWNER_ENROLL of a slot (R395). -/
def execOwnerEnroll (slot : Nat) (s : State) : Host.Outcome State Fault Refusal :=
  if !s.presence || slot = 0 || 2 < slot || (look s.owners slot).isSome then .next (s.enrolled 2)
  else .next (({ s with owners := ins s.owners slot ((List.range 8).map (fun i => s.regVal (ownHash i))) } : State).enrolled 1)

/-- OWNER_REVOKE of a slot (R395). -/
def execOwnerRevoke (slot : Nat) (s : State) : Host.Outcome State Fault Refusal :=
  if !s.presence || slot = 0 || 2 < slot || (look s.owners slot).isNone then .next (s.enrolled 2)
  else .next (({ s with owners := del s.owners slot } : State).enrolled 1)

/-! ### Attestation (R397, R399) -/

/-- The VA that BUF names (R397): VA[56:7], which a canonical address (R36) extends by copies of bit 56. -/
def attBuf (v : W64) : W64 := ((v >>> 7).setWidth 50 ++ (0 : BitVec 7)).signExtend 64

/-- ATTESTATION_REQUEST (R397): ignored while a report is under way. -/
def execAttestationRequest (f : Nat) (v : W64) (s : State) : Host.Outcome State Fault Refusal :=
  if fld (s.mreg 0 (attStat f)) 0 2 = 1 then .next s
  else
    let s := s.setMreg (attStat f) 1
    .next { s with attests := s.attests ++ [⟨f, attBuf v⟩] }

/-- The first 512 bytes of a report (R397). -/
def State.report (s : State) (f : Nat) (nonce : List Byte) : List Byte :=
  let img := s.imageBytes 0
  let p := s.fnPart f
  let key := match s.signerKey (recNum img 9 1) with | some k => k | none => []
  nonce ++ bytesOf 64 (sha512 img) ++ bytesOf 64 Config.bootRomHash ++ ((key.map (fun x => bytesOf 8 x.toNat)).flatten ++ bytesOf 64 0).take 64 ++
  bytesOf 1 (recNum img 8 1) ++ bytesOf 1 s.fuses ++ bytesOf 2 f ++ bytesOf 1 p ++ bytesOf 1 (b2n (s.partProt p) + 2 * b2n (s.partIe p)) ++
  bytesOf 4 (fld (s.part p 0x38) 0 32) ++ bytesOf 3 s.me ++ bytesOf 243 0

/-- ATTESTATION_DONE of a function (R397): the nonce is read and the report written, or the buffer has faulted. -/
def execAttestationDone (f : Nat) (s : State) : Host.Outcome State Fault Refusal :=
  match s.attests.find? (fun (a : Attest) => a.fn == f) with
  | none => .next s
  | some a =>
    let q := s.apertureEng f kRead
    let closed (s : State) (st : Nat) : State := { (s.setMreg (attStat f) (BitVec.ofNat 64 st)) with attests := s.attests.filter (fun (b : Attest) => b.fn != f) }
    match (s.engCheck q (a.buf.toNat + 128) 1024 true).andThen (fun _ s => s.engRead q a.buf.toNat 64) with
    | .busy s => .next s
    | .fault _ _ => .next (closed s 3)
    | .ok nonce s =>
      let r := s.report f nonce
      match s.engWrite { q with kind := kWrite } (a.buf.toNat + 128) (r ++ bytesOf 512 (Config.reportSignature r)) with
      | .busy s => .next s
      | .fault _ _ => .next (closed s 3)
      | .ok _ s =>
        let s := closed s 2
        let s := if s.fnHeld f && !s.reported.contains f then { s with reported := s.reported ++ [f] } else s
        .next (s.interrupt f 513)

/-- ATT_RESUME (R399): HELD clears once the function has obtained a report. -/
def execAttResume (f : Nat) (s : State) : Host.Outcome State Fault Refusal :=
  if s.reported.contains f then
    .next { (s.setMreg (fnStat f) (putFld (s.mreg 0 (fnStat f)) 9 1 0)) with reported := s.reported.filter (fun g => g != f) }
  else .next s

/-! ### Live activation (R398) -/

/-- ACT_CTL.ST. -/
def State.setAct (s : State) (st : Nat) : State := s.setMreg actCtl (BitVec.ofNat 64 (2 * st))

/-- Every resident pack is pre-empted. -/
def State.preemptAll (s : State) (cause : Nat) (want : Nat → Bool) : State :=
  (List.range 64).foldl (fun (s : State) n =>
    ((s.core n).packs.filter (fun (e : Nat × Pack) => want e.2.launch)).foldl (fun (s : State) (e : Nat × Pack) => s.preempt n e.1 cause) s) s

/-- ACTIVATION_GO (R398): refused while a migration is not idle; the staged image is checked; the queues stop and the packs are
pre-empted. -/
def execActivationGo (s : State) : Host.Outcome State Fault Refusal :=
  if s.activating then .next s
  else if (List.range 384).any (fun i => s.migSt (i + 1) != 0) then .next (s.setAct 3)
  else if !s.imageOk (s.imageBytes stagingBase) then .next (s.setAct 4)
  else .next ((s.setAct 1).preemptAll 0 (fun _ => true))

/-- A secured session ends: every group's key is dropped (R398). -/
def State.dropSessions (s : State) : State :=
  let s := (s.colls.filter (fun (c : Coll) => c.done.isNone)).foldl (fun (s : State) c => s.abortColl c) s
  { s with
    groups := s.groups.map (fun (e : Nat × Group) => (e.1, { e.2.settled with joined := false, members := [] }))
    outgoing := []
    early := []
    socks := s.socks.map (fun (k : Sock) => if k.udp then k else { k with up := false, rx := [], tx := [] }) }

/-- HELD := 1 in every bound function; only a report obtained after this activation counts for a RESUME (R399). -/
def State.holdAll (s : State) : State :=
  (List.range 385).foldl (fun (s : State) f => if s.bound f then s.setMreg (fnStat f) (putFld (s.mreg 0 (fnStat f)) 9 1 1) else s)
    { s with reported := [] }

/-- The firmware of a service core starts at the image's Zumos entry (R374, R398): its shard's memory stays. -/
def State.startShard (s : State) (n : Nat) (img : List Byte) : State :=
  let root := Config.zumosRoot img n
  s.updCore (64 + n) (fun c =>
    let p := (look c.packs 0).getD (Pack.start 0 1)
    let p : Pack := { p with asid := 0, root := root, stop := none, splits := [some (Split.start (Config.zumosEntry img) 1), none, none, none] }
    let p := if (look c.packs 0).isSome then p else p.setSpecial sprCtxcfg ctxcfgReset
    { c with packs := ins c.packs 0 p, exl := true, started := true, failed := false, halted := false, mbwait := none })

/-- A partition's keys are rotated (R25): its memory keeps its contents, and every one of its slices that holds keys rewrites its ENC and
ENCI lines under the new ones, before anything of the partition resumes. -/
def State.rotateKeys (s : State) (p : Nat) : State :=
  let t := s.newKeys p
  if s.partSt p = 3 then t.loadKeys p else t

/-- Steps 3 and 4 of an activation (R398), and the beginning of step 5: the sessions end, the keys rotate, and the writable image's header
is erased, so that it fails R393 until the copy is complete. -/
def State.beginCopy (s : State) : State :=
  let s := s.dropSessions.holdAll
  let s := ((List.range 32).filter (fun p => s.enabled p)).foldl (fun (s : State) p => s.rotateKeys p) s
  { s.flashPut 0 (List.replicate 1024 0) with copied := some 1024 }

/-- ACTIVATION_DONE (R398): once every lane has given up its queue and every pack is saved, the staged image is copied, 4 KiB of its body at
a time and its header last; with that the fuses are blown and the firmware restarts. -/
def execActivationDone (s : State) : Host.Outcome State Fault Refusal :=
  let empty := (List.range 64).all (fun n => (s.core n).packs.isEmpty) && s.queues.all (fun (x : QState) => x.lane.isNone)
  if !s.activating || !empty then .next s
  else
    match s.copied with
    | none => .next s.beginCopy
    | some k =>
    let img := s.imageBytes stagingBase
    if k < img.length then .next { s.flashPut k ((img.drop k).take 4096) with copied := some (k + 4096) }
    else
    let s := { s.flashPut 0 (img.take 1024) with copied := none }
    let s := s.blow img
    let s := ((List.range 32).filter (fun n => (s.core (64 + n)).started)).foldl (fun (s : State) n => s.startShard n img) s
    .next ((s.setAct 2).interrupt 0 514)

/-! ### Live migration (R400, R401) -/

/-- MIG_CTL.ST and REASON are set, and the function hears of a change of ST (R400). -/
def State.setMig (s : State) (f st reason : Nat) : State :=
  let t := (s.putReg (migCtl f) 8 2 st).putReg (migCtl f) 16 8 reason
  if s.migSt f = st then t else t.interrupt f 515

/-- The migration set (R401): peer identifiers up to the first zero word. -/
def State.migPeers (s : State) : List Nat :=
  ((List.range 1024).map (fun i => fld (s.mreg 0 (migSet i / 8 * 8)) (32 * (i % 2)) 32)).takeWhile (fun x => x != 0)

/-- The collectives of the function that a WAIT at `va` waits on (R401): its own SIG, or a DST on a group that has a member outside the
migration set, this module among them. -/
def State.waitedColls (s : State) (part asid va : Nat) : List Coll :=
  s.colls.filter (fun (c : Coll) =>
    c.done.isNone && c.part == part && c.asid == asid &&
    ((c.sig != 0 && decide (c.sig.toNat ≤ va) && decide (va < c.sig.toNat + 32)) ||
     (decide (c.dst ≤ va) && decide (va < c.dst + c.count * c.esz * (if c.op = 2 then (s.peersOf c.slot).length + 1 else 1)) &&
       (match look s.groups c.slot with | some x => x.members.any (fun m => !s.migPeers.contains m) | none => false))))

/-- The head packet of a queue that has not taken effect (R401): what the engine knows of the queue, the packet with it, and its descriptor.
-/
def State.headOf (s : State) (f q : Nat) : EngRes (Option (QState × List Byte × QDescr)) :=
  match s.desc f q with
  | .busy t => .busy t
  | .ok d0 =>
    let x := (s.queue f q).getD (QState.fresh f q)
    let d := x.view d0
    if !d.valid || d.st = 2 || d.flaw.isSome then .ok none s
    else
      match x.pkt with
      | some bs => .ok (if x.step = 0 || x.step = 2 then some (x, bs, d) else none) s
      | none =>
        if d.held = 0 then .ok none s
        else
          let (asid, root) := s.queueSpace f d.proc
          match s.engRead (queueEng (s.engOf f q) (s.fnPart f) asid root) (d.ring + 64 * (d.rd % 2 ^ d.log2n)) 64 with
          | .ok bs s => .ok (some ({ x with pkt := some bs }, bs, d)) s
          | .busy t => .busy t
          | .fault _ _ => .ok none s
  | _ => .ok none s

/-- A queue's head packet is an unsatisfied WAIT on peers (R401): the queue with the packet, and what it waits on. -/
def State.peerWait (s : State) (f q : Nat) : EngRes (Option (QState × List Coll)) :=
  (s.headOf f q).andThen (fun h s =>
    match h with
    | none => .ok none s
    | some (x, bs, d) =>
      let (asid, root) := s.queueSpace f d.proc
      let cs := s.waitedColls (s.fnPart f) asid (recNum bs 8 8)
      if recNum bs 0 1 ≠ 6 || cs.isEmpty then .ok none s
      else
        match s.engNum (queueEng (s.engOf f q) (s.fnPart f) asid root) (recNum bs 8 8) 8 with
        | .busy t => .busy t
        | .fault _ _ => .ok none s
        | .ok v s =>
          .ok (if waitHolds (recNum bs 24 1) (BitVec.ofNat 64 v) (BitVec.ofNat 64 (recNum bs 16 8)) then none else some (x, cs)) s)

/-- The queues of a function that wait on a peer, each with what it waits on. -/
def State.peerWaits (s : State) (f : Nat) : EngRes (List (QState × List Coll)) :=
  (List.range 512).foldl (fun r q => r.andThen (fun ws s => (s.peerWait f q).andThen (fun w s => .ok (ws ++ w.toList) s))) (.ok [] s)

/-- The packs of the function's launches are pre-empted, and ST is QUIESCING. -/
def State.quiesce (s : State) (f : Nat) : State :=
  (s.preemptAll 4 (fun l => match look s.launches l with | some x => x.fn == f | none => false)).setMig f 1 0

/-- GO of a migration (R400, R401). -/
def State.migrate (s : State) (f : Nat) (force : Bool) : State :=
  let st := s.migSt f
  if f = 0 || 384 < f || st = 1 || st = 2 then s
  else if s.activating then s.setMig f 3 3
  else if s.partProt (s.fnPart f) then s.setMig f 3 2
  else
    match s.peerWaits f with
    | .busy t => t.later (.migrate f force)
    | .fault _ _ => s
    | .ok ws s =>
    if !ws.isEmpty && !force then s.setMig f 3 1
    else
      let s := ws.foldl (fun (s : State) w =>
        match s.desc w.1.fn w.1.q with
        | .ok d =>
          let (asid, root) := s.queueSpace f d.proc
          let s := w.2.foldl (fun (s : State) c => s.abortColl c) s
          let s := s.updQueue w.1.fn w.1.q (fun y => { y with pkt := w.1.pkt })
          ((s.owe w.1 (s.workCluster f w.1.q d.rd) asid root 5 fcViewAbort 4).runFins).settleQueue f w.1.q
        | _ => s) s
      ({ s with forced := if force then s.forced.filter (fun g => g != f) ++ [f] else s.forced } : State).quiesce f

/-- MIGRATION_GO (R401). -/
def execMigrationGo (f : Nat) (s : State) : Host.Outcome State Fault Refusal := .next (s.migrate f false)

/-- MIGRATION_FORCE: GO with FORCE (R401). -/
def execMigrationForce (f : Nat) (s : State) : Host.Outcome State Fault Refusal := .next (s.migrate f true)

/-- Try an event again. -/
def State.tryAgain (s : State) (a : Again) : Host.Outcome State Fault Refusal :=
  let s := { s with again := s.again.erase a }
  match a with
  | .bind f v => execFnBindWrite f v s
  | .flr f => execVfFlr f s
  | .migrate f force => .next (s.migrate f force)

/-- MIGRATION_QUIESCED: the queues have stopped at switch points and the packs are saved (R401). -/
def execMigrationQuiesced (f : Nat) (s : State) : Host.Outcome State Fault Refusal :=
  let busy := s.queues.any (fun (x : QState) => x.fn == f && x.lane.isSome) ||
    (List.range 64).any (fun n => (s.core n).packs.any (fun e => match look s.launches e.2.launch with | some l => l.fn == f | none => false))
  if s.migSt f = 1 && !busy then .next (s.setMig f 2 0) else .next s

/-- MIGRATION_DONE: DONE is written, and the function's work runs again (R400, R401). -/
def execMigrationDone (f : Nat) (s : State) : Host.Outcome State Fault Refusal :=
  if s.migSt f = 0 then .next s else .next (({ s with forced := s.forced.filter (fun g => g != f) } : State).setMig f 0 0)

end Sys2Proof.Machine
end

