-- ==== Sys2Proof/Machine/Boot.lean ====
section
/-! DEFINITION. Bring-up, self-test and fencing, the start of the shards, power and temperature (R32, R374, R394, R402-R413). -/

namespace Sys2Proof.Machine

/-- BOOT_STAT.PHASE (R405). -/
def State.phase (s : State) : Nat := fld (s.regVal bootStat) 0 3
def State.setPhase (s : State) (n : Nat) : State := s.putReg bootStat 0 3 n

/-- POWER_GOOD: the boot ROM starts the trust engine, and no slice is CLEAN (R31, R402). It also ends phase 0 of a module reset. -/
def execPowerGood (s : State) : Host.Outcome State Fault Refusal :=
  if s.phase ≠ 0 then .next s
  else .next (((List.range 96).foldl (fun (s : State) sl => s.setClean sl false) s).setPhase 1)

/-- VERIFY_DONE: the writable image is accepted, or the recovery image runs (R393, R394, R396, R402). -/
def execVerifyDone (s : State) : Host.Outcome State Fault Refusal :=
  if s.phase ≠ 1 then .next s
  else
    let img := s.imageBytes 0
    if s.recoveryStrap || !s.imageOk img then .next (s.setPhase 6) else .next ((s.blow img).setPhase 2)

/-- A cluster's self-test begins. -/
def State.startTest (s : State) (n : Nat) : State := s.putReg (cluStat n) 0 2 1

/-- HUB_BRINGUP_DONE: no slice is CLEAN, and cluster 8d of each die is tested (R31, R402). -/
def execHubBringupDone (s : State) : Host.Outcome State Fault Refusal :=
  if s.phase ≠ 2 then .next s
  else
    let s := (List.range 96).foldl (fun (s : State) sl => s.setClean sl false) s
    .next ((((List.range 4).foldl (fun (s : State) d => s.startTest (8 * d)) s)).setPhase 3)

/-- Fields of a unit code (R406). -/
def unitBlock (u : Nat) : Nat := u / 2 ^ 16 % 256
def unitInst (u : Nat) : Nat := u / 2 ^ 8 % 64
def unitCluster (u : Nat) : Nat := u / 2 ^ 3 % 8
def unitDieOf (u : Nat) : Nat := u % 8

/-- A cluster is fenced: its cores take no part any more, and its service core runs no shard (R402, R407). -/
def State.fenceCluster (s : State) (n : Nat) : State := (s.updCore (64 + n) (fun c => { c with started := false })).putReg (cluStat n) 0 2 3

/-- A queue engine is fenced: its queues wait for lanes of the others (R407). -/
def State.dropLanes (s : State) (e : Nat) : State :=
  { s with queues := s.queues.map (fun (x : QState) =>
      match x.lane with | some l => if l / 32 = e then { x with lane := none, wants := true } else x | none => x) }

/-- What a failing unit fences (R407); FAILB names the unit that caused FAILED, the first (R405). -/
def State.fence (s : State) (u : Nat) : State :=
  let b := unitBlock u
  let d := unitDieOf u
  let sl (s : State) (k : Nat) : State := s.putReg (sliceStat k) 2 1 1
  if 1 ≤ b && b ≤ 9 then
    let n := 8 * d + unitCluster u
    let f := fld (s.regVal (cluStat n)) 8 8
    (s.fenceCluster n).putReg (cluStat n) 8 8 (min 255 (f + 1))
  else if b = 0x0A then sl s ((48 * d + unitInst u) / 2)
  else if b = 0x0B then sl s (24 * d + unitInst u)
  else if b = 0x16 then
    let e := if d < 4 then d else unitInst u
    (List.range 8).foldl (fun (s : State) i => s.fenceCluster (8 * e + i)) s
  else if b = 0x10 then (s.dropLanes (unitInst u % 4)).putReg bootStat (32 + unitInst u % 4) 1 1
  else if b = 0x11 then s.putReg bootStat (36 + unitInst u % 8) 1 1
  else if b = 0x15 then s.putReg bootStat 44 1 1
  else if b = 0x0C || b = 0x12 || b = 0x13 || b = 0x14 then 
    if s.phase = 7 then s else (s.setPhase 7).putReg bootStat 24 8 b
  else s

/-- Add a failure to BIST_LOG: those after the 256th are dropped (R405, R409). Byte 7 is 0. -/
def State.logBist (s : State) (e : W64) : State :=
  let n := fld (s.regVal bootStat) 8 9
  if 256 ≤ n then s else (s.setMreg (bistLog n) (e &&& 0x00FFFFFFFFFFFFFF)).putReg bootStat 8 9 (n + 1)

/-- The cluster of the die that is tested next. -/
def State.nextTest (s : State) (n : Nat) : State :=
  if n % 8 = 7 then s else if s.clusterSt (n + 1) = 0 then s.startTest (n + 1) else s

/-- CLUSTER_BIST_DONE (R374, R402, R406-R409): the failures are logged and fence their units. The first cluster of its die that passes is
the die shard: Zumos starts there, and the cluster is READY. -/
def execClusterBistDone (n : Nat) (fails : List W64) (s : State) : Host.Outcome State Fault Refusal :=
  if !(s.phase = 3 || s.phase = 4) || 32 ≤ n || s.clusterSt n ≠ 1 || s.tested.contains n then .next s
  else
    let s := fails.foldl (fun (s : State) e => (s.logBist e).fence (fld e 0 32)) s
    let s := { s with tested := s.tested ++ [n] }
    let s := if s.clusterSt n = 3 || (s.dieShard (n / 8)).isSome then s else (s.startShard n (s.imageBytes 0)).putReg (cluStat n) 0 2 2
    .next ((s.nextTest n).bootAdvance)

/-- SC_START written by the service core of a cluster (R374): writes that name a fenced or started cluster, or one that has not passed its
test, are ignored. -/
def execScStart (_cluster : Nat) (v : W64) (s : State) : Host.Outcome State Fault Refusal :=
  let n := fld v 0 5
  if s.clusterSt n = 3 || (s.core (64 + n)).started || !s.tested.contains n then .next s else .next (s.startShard n (s.imageBytes 0))

/-- A die's effective level (R403, R410): reduced service is phases 3 and 4. -/
def State.setLevel (s : State) (d : Nat) : State :=
  let pl := fld (s.regVal pwrStat) 12 4
  let tl := fld (s.regVal (diePwr d)) 12 4
  s.putReg (diePwr d) 8 4 (max (max pl tl) (if s.phase = 5 then 0 else 10))

/-- A scrub or metadata initialisation under way at half rate goes on at full rate from where it has come (R403, R404). -/
def State.fullRateScrubs (s : State) : State :=
  { s with scrubAt := s.scrubAt.map (fun e => (e.1, s.time - (s.time - e.2) / 2)) }

/-- FULL_RATE_CHANGE (R404): the module runs at full rate. -/
def execFullRateChange (s : State) : Host.Outcome State Fault Refusal :=
  if s.phase ≠ 4 then .next s
  else .next ((List.range 4).foldl (fun (s : State) d => s.setLevel d) (s.fullRateScrubs.setPhase 5))

/-- RECOVERY_IMAGE_LOAD: the recovery image checks an image, writes it and resets the module (R394, R396). -/
def execRecoveryImageLoad (image : List Byte) (s : State) : Host.Outcome State Fault Refusal :=
  if s.phase = 6 && s.imageOk image then
    .next (s.flashPut 0 image).moduleReset
  else .next s

/-- A level that rises at once while `hot`, and falls by 1 each time that it has been `cool` for 10 ms: the level and the start of the cool
time (0 for none) after this sample (R410). -/
def levelStep (t : Nat) (hot cool : Bool) (level start : Nat) : Nat × Nat :=
  if hot then (min 10 (level + 1), 0)
  else if !cool then (level, 0)
  else if start = 0 then (level, t + 1)
  else if start + 10000000 ≤ t + 1 then (level - 1, t + 1)
  else (level, start)

/-- The thermal part of a sample, for one die: junction and hottest stack in °C (R410, R413). -/
def State.dieTick (s : State) (d tj ht : Nat) : State :=
  let thr := fld (s.regVal pwrLim) 32 7
  let (lv, st) := levelStep s.time (decide (thr ≤ tj)) (decide (tj < thr - 5)) (fld (s.regVal (diePwr d)) 12 4) (get 0 s.cool (1 + d))
  let half := if 95 ≤ ht then 1 else if ht < 90 then 0 else fld (s.regVal (diePwr d)) 24 1
  let s := { s with cool := set 0 s.cool (1 + d) st }
  (((s.putReg (diePwr d) 0 8 tj).putReg (diePwr d) 12 4 lv).putReg (diePwr d) 16 8 ht).putReg (diePwr d) 24 1 half

/-- POWER_CONTROL_TICK, every 100 µs (R410, R413): the power of the last interval and the average over 1 s in W, and for each die the
hottest junction and the hottest stack in °C. -/
def execPowerControlTick (sample avg : Nat) (temps : List (Nat × Nat)) (s : State) : Host.Outcome State Fault Refusal :=
  let sust := fld (s.regVal pwrLim) 0 12
  let peak := fld (s.regVal pwrLim) 16 12
  let (pl, st) := levelStep s.time (decide (peak < sample) || decide (sust < avg)) (decide (avg + 50 < sust)) (fld (s.regVal pwrStat) 12 4)
    (get 0 s.cool 0)
  let s := { s with cool := set 0 s.cool 0 st }
  let s := (s.putReg pwrStat 0 12 (min 4095 avg)).putReg pwrStat 12 4 pl
  let s := ((temps.take 4).zipIdx).foldl (fun (s : State) e => s.dieTick e.2 e.1.1 e.1.2) s
  let s := (List.range 4).foldl (fun (s : State) d => s.setLevel d) s
  let hot := (List.range 4).any (fun d => fld (s.regVal (diePwr d)) 8 4 != 0)
  let s := if hot && s.phase = 5 then s.count16 pwrStat 16 else s
  .next ((s.putReg pwrStat 32 1 (b2n (pl != 0))).putReg pwrStat 33 1
    (b2n ((List.range 4).any (fun d => fld (s.regVal (diePwr d)) 12 4 != 0))))

/-- THERMAL_TRIP (R411): everything stops and is lost; TRIP is 1. -/
def execThermalTrip (s : State) : Host.Outcome State Fault Refusal := .next (s.moduleReset.putReg bootStat 3 1 1)

/-- POWER_LOSS (R32): everything in the module is lost, but for fuses, owner keys and flash; it is no thermal trip (R405). -/
def execPowerLoss (s : State) : Host.Outcome State Fault Refusal := .next (s.moduleReset.putReg bootStat 3 1 0)

end Sys2Proof.Machine
end

