-- ==== Sys2Proof/Machine/Dovetail.lean ====
section
/-! DEFINITION. The dovetail word: two vector operations that issue as one (R119-R122, R234, R248). -/

namespace Sys2Proof.Machine

/-- The integer type of a half. -/
def halfI (t : Ty) : IType := match t with | .i32 => .i32 | _ => .n32

/-- The packed format of a half. -/
def halfF (t : Ty) : FFmt := match t with | .bf16 => bf16 | _ => fp16

/-- One lane of a half's operation (R234, R248). -/
def halfOp (h : Half) (a b : W64) : FR :=
  let t := halfI h.ty
  match h.op with
  | .vadd => ⟨opAdd t a b, 0⟩ | .vsub => ⟨opSub t a b, 0⟩
  | .vand => ⟨opAnd t a b, 0⟩ | .vor => ⟨opOr t a b, 0⟩ | .vxor => ⟨opXor t a b, 0⟩ | .vandn => ⟨opAndn t a b, 0⟩
  | .vshl => ⟨opShl t a b, 0⟩ | .vshr => ⟨opShr t a b, 0⟩ | .vsra => ⟨opSra t a b, 0⟩
  | .vmin => ⟨opMin t a b, 0⟩ | .vmax => ⟨opMax t a b, 0⟩ | .vminn => ⟨opMinn t a b, 0⟩ | .vmaxn => ⟨opMaxn t a b, 0⟩
  | .vmov => ⟨opMov t a, 0⟩ | .vnot => ⟨opNot t a, 0⟩ | .vabs => ⟨opAbs t a, 0⟩ | .vneg => ⟨opNeg t a, 0⟩
  | .vclz => ⟨opClz t a, 0⟩ | .vpopc => ⟨opPopc t a, 0⟩
  | .vmul => ⟨opMul t a b, 0⟩ | .vmulh => ⟨opMulh t a b, 0⟩ | .vmulhn => ⟨opMulhn t a b, 0⟩
  | .vfadd => opFadd fp32 h.rnd a b | .vfsub => opFsub fp32 h.rnd a b
  | .vfmin => opFmm false a b | .vfmax => opFmm true a b
  | .vfmul => opFmul fp32 h.rnd a b
  | .vhadd2 => pairOp (opFadd (halfF h.ty) h.rnd) a b
  | .vhmul2 => pairOp (opFmul (halfF h.ty) h.rnd) a b

/-- The latency of a half: class VI or VF (R114). -/
def halfLat (h : Half) : Nat := if h.op.isFloat then latVF else latVI

/-- The uses of a half; a one-source operation reads no SB (R120). -/
def halfUses (h : Half) : List Use :=
  [.dv false h.d, useV 1 false h.a] ++ (if h.op.unary then [] else [useV 2 false h.b])

/-- The results of a half over its lanes, from the registers as they stand before the word. -/
def View.half (v : View) (h : Half) (m : Mask) : List FR :=
  let xs := v.vs false h.a
  let ys := if h.op.unary then [] else v.vs false h.b
  overLanes m (fun L => halfOp h (el xs L) (el ys L))

/-- Mark the last uses of a half. -/
def View.lastHalf (v : View) (h : Half) (m : Mask) : View :=
  let v := v.lastUse false h.a m
  if h.op.unary then v else v.lastUse false h.b m

/-- A half's results; a half in which no lane acts writes nothing (R117). -/
def View.putHalf (v : View) (h : Half) (m : Mask) (xs : List FR) : View :=
  if m = 0 then v else v.wv false h.d m (el (valsOf xs)) (halfLat h)

/-- The dovetail word (R122): both halves read before either writes; each acts on its own ACT; the token falls when the
slower half is written. -/
def execDovetail (c : Ctl) (x y : Half) (s : State) : Host.Outcome State Fault Refusal :=
  issueG c [(x.guard, halfUses x), (y.guard, halfUses y)] 0
    (fun v => (if v.act x.guard = 0 then [] else
        (if (v.viewFault (halfUses x)).isSome || v.act y.guard = 0 then halfUses x else halfUses x ++ halfUses y)) ++
      (if v.act x.guard = 0 then halfUses y else []))
    false
    (fun v _ =>
      let mx := v.act x.guard
      let my := v.act y.guard
      let rx := v.half x mx
      let ry := v.half y my
      let w := ((v.lastHalf x mx).lastHalf y my).orFpf (flsOf rx ||| flsOf ry)
      .done (((w.putHalf x mx rx).putHalf y my ry).tokenFor c (max (halfLat x) (halfLat y)))) s

end Sys2Proof.Machine
end

