-- ==== Sys2Proof/Decode.lean ====
section
/-! DEFINITION. The words of R104-R125: their fields, the decoder with the checks of R112 in order, and the encoder. -/

namespace Sys2Proof

/-! ### The fields of a word -/

/-- The first 64 bits of every word (R106). -/
structure Base where
  mod : BitVec 3
  lb : BitVec 1
  la : BitVec 1
  sb : BitVec 11
  sa : BitVec 11
  dst : BitVec 11
  guard : BitVec 4
  setq : BitVec 3
  waitm : BitVec 6
  stall : BitVec 3
  op : BitVec 8
  len : BitVec 2
  deriving DecidableEq, Repr

/-- The bits of the base word (R106). -/
def Base.bits (b : Base) : BitVec 64 :=
  b.mod ++ (b.lb ++ (b.la ++ (b.sb ++ (b.sa ++ (b.dst ++ (b.guard ++ (b.setq ++ (b.waitm ++ (b.stall ++
    (b.op ++ b.len))))))))))

/-- The fields of 64 bits (R106). -/
def Base.ofBits (w : BitVec 64) : Base :=
  { mod := w.extractLsb' 61 3, lb := w.extractLsb' 60 1, la := w.extractLsb' 59 1, sb := w.extractLsb' 48 11,
    sa := w.extractLsb' 37 11, dst := w.extractLsb' 26 11, guard := w.extractLsb' 22 4, setq := w.extractLsb' 19 3,
    waitm := w.extractLsb' 13 6, stall := w.extractLsb' 10 3, op := w.extractLsb' 2 8, len := w.extractLsb' 0 2 }

/-- Bits [95:64] of layout L-X (R107). -/
structure LX where
  res : BitVec 12
  flg : BitVec 1
  rsc : BitVec 3
  ty : BitVec 4
  lc : BitVec 1
  sc : BitVec 11
  deriving DecidableEq, Repr

def LX.bits (x : LX) : W32 := x.res ++ (x.flg ++ (x.rsc ++ (x.ty ++ (x.lc ++ x.sc))))

def LX.ofBits (w : W32) : LX :=
  { res := w.extractLsb' 20 12, flg := w.extractLsb' 19 1, rsc := w.extractLsb' 16 3, ty := w.extractLsb' 12 4,
    lc := w.extractLsb' 11 1, sc := w.extractLsb' 0 11 }

/-- An instruction word: the base, bits [95:64] and bits [127:96]; a shorter word has zeros above its end. -/
structure Word where
  base : BitVec 64
  ext : W32
  imm : W32
  deriving DecidableEq, Repr

/-- The length that the LEN bits give, or none for 00 (R104). -/
def lenOf (b : BitVec 2) : Option Len :=
  match b with
  | 1 => some .short
  | 2 => some .long
  | 3 => some .wide
  | _ => none

def Len.code : Len → BitVec 2
  | .short => 1
  | .long => 2
  | .wide => 3

/-- The bytes of a length (R104). -/
def Len.bytes : Len → Nat
  | .short => 8
  | .long => 12
  | .wide => 16

/-! ### Codes (R110, R221, R240, R250) -/

def IType.code : IType → BitVec 3
  | .i32 => 0 | .n32 => 1 | .i64 => 2 | .n64 => 3

def itypeOf (m : BitVec 3) : Option IType :=
  match m with
  | 0 => some .i32 | 1 => some .n32 | 2 => some .i64 | 3 => some .n64 | _ => none

def PType.code : PType → BitVec 3
  | .i32 => 0 | .n32 => 1 | .i64 => 2 | .n64 => 3 | .f32 => 4

def ptypeOf (m : BitVec 3) : Option PType :=
  match m with
  | 0 => some .i32 | 1 => some .n32 | 2 => some .i64 | 3 => some .n64 | 4 => some .f32 | _ => none

def FType.code : FType → BitVec 3
  | .f32 => 4 | .f16 => 5 | .bf16 => 6

def ftypeOf (m : BitVec 3) : Option FType :=
  match m with
  | 4 => some .f32 | 5 => some .f16 | 6 => some .bf16 | _ => none

def Ty.code : Ty → BitVec 4
  | .i32 => 0 | .n32 => 1 | .i64 => 2 | .n64 => 3 | .f32 => 4 | .f16 => 5 | .bf16 => 6 | .i8 => 7 | .n8 => 8
  | .i16 => 9 | .n16 => 10 | .mf8 => 11 | .mf8n => 12

def tyOf (m : BitVec 4) : Option Ty :=
  match m with
  | 0 => some .i32 | 1 => some .n32 | 2 => some .i64 | 3 => some .n64 | 4 => some .f32 | 5 => some .f16
  | 6 => some .bf16 | 7 => some .i8 | 8 => some .n8 | 9 => some .i16 | 10 => some .n16 | 11 => some .mf8
  | 12 => some .mf8n | _ => none

def Rnd.code : Rnd → BitVec 3
  | .rne => 0 | .rtz => 1 | .rup => 2 | .rdn => 3 | .sr => 4

def rndOf (m : BitVec 3) : Option Rnd :=
  match m with
  | 0 => some .rne | 1 => some .rtz | 2 => some .rup | 3 => some .rdn | 4 => some .sr | _ => none

def Scope.code : Scope → BitVec 3
  | .pack => 0 | .core => 1 | .device => 2 | .system => 3 | .fabric => 4

def scopeOf (m : BitVec 3) : Option Scope :=
  match m with
  | 0 => some .pack | 1 => some .core | 2 => some .device | 3 => some .system | 4 => some .fabric | _ => none

def Cond.code : Cond → BitVec 3
  | .eq => 0 | .ne => 1 | .lt => 2 | .le => 3 | .gt => 4 | .ge => 5

def condOf (m : BitVec 3) : Option Cond :=
  match m with
  | 0 => some .eq | 1 => some .ne | 2 => some .lt | 3 => some .le | 4 => some .gt | 5 => some .ge | _ => none

def FCond.code : FCond → BitVec 3
  | .eq => 0 | .ne => 1 | .lt => 2 | .le => 3 | .gt => 4 | .ge => 5 | .un => 6 | .ord => 7

def fcondOf (m : BitVec 3) : FCond :=
  match m with
  | 0 => .eq | 1 => .ne | 2 => .lt | 3 => .le | 4 => .gt | 5 => .ge | 6 => .un | _ => .ord

def Shfl.code : Shfl → BitVec 3
  | .idx => 0 | .up => 1 | .dn => 2 | .xor => 3

def shflOf (m : BitVec 3) : Option Shfl :=
  match m with
  | 0 => some .idx | 1 => some .up | 2 => some .dn | 3 => some .xor | _ => none

def PackMode.code : PackMode → BitVec 3
  | .p2 => 0 | .q01 => 1 | .q23 => 2

def packOf (m : BitVec 3) : Option PackMode :=
  match m with
  | 0 => some .p2 | 1 => some .q01 | 2 => some .q23 | _ => none

def AOp.code : AOp → BitVec 4
  | .add => 0 | .and => 1 | .or => 2 | .xor => 3 | .min => 4 | .max => 5 | .xchg => 6 | .cas => 7 | .fadd => 8

def aopOf (m : BitVec 4) : Option AOp :=
  match m with
  | 0 => some .add | 1 => some .and | 2 => some .or | 3 => some .xor | 4 => some .min | 5 => some .max
  | 6 => some .xchg | 7 => some .cas | 8 => some .fadd | _ => none

def WCond.code : WCond → BitVec 2
  | .eq => 0 | .ne => 1 | .ge => 2 | .lt => 3

def wcondOf (m : BitVec 2) : WCond :=
  match m with
  | 0 => .eq | 1 => .ne | 2 => .ge | _ => .lt

def BCond.code : BCond → BitVec 3
  | .always => 0 | .nz => 1 | .z => 2

def bcondOf (m : BitVec 3) : Option BCond :=
  match m with
  | 0 => some .always | 1 => some .nz | 2 => some .z | _ => none

def TlbMode.code : TlbMode → BitVec 2
  | .page => 0 | .asid => 1 | .all => 2

def tlbOf (m : BitVec 2) : Option TlbMode :=
  match m with
  | 0 => some .page | 1 => some .asid | 2 => some .all | _ => none

/-- A flag bit of a MOD or MODX field. -/
def flag1 (b : Bool) : BitVec 1 := BitVec.ofBool b

/-! ### The encoder: one helper for each layout -/

/-- The register and sub-operation fields of a base word. -/
structure Regs where
  mod : BitVec 3 := 0
  dst : BitVec 11 := 0
  sa : BitVec 11 := 0
  la : Bool := false
  sb : BitVec 11 := 0
  lb : Bool := false
  deriving DecidableEq, Repr

def baseOf (c : Ctl) (op : BitVec 8) (r : Regs) : BitVec 64 :=
  Base.bits { mod := r.mod, lb := flag1 r.lb, la := flag1 r.la, sb := r.sb, sa := r.sa, dst := r.dst, guard := c.guard,
              setq := c.setq, waitm := c.waitm, stall := c.stall, op := op, len := c.len.code }

def wordOf (c : Ctl) (op : BitVec 8) (r : Regs) (ext : W32 := 0) (imm : W32 := 0) : Word := ⟨baseOf c op r, ext, imm⟩

def lxOf (flg : Bool := false) (rsc : BitVec 3 := 0) (ty : BitVec 4 := 0) (sc : BitVec 11 := 0) (lc : Bool := false) : W32 :=
  LX.bits { res := 0, flg := flag1 flg, rsc := rsc, ty := ty, lc := flag1 lc, sc := sc }

/-- A register name in an 11-bit field (R109). -/
def fldReg {n : Nat} (r : BitVec n) : BitVec 11 := r.setWidth 11

/-- Short with a register, long L-I with an immediate (R220). -/
def encSL (c : Ctl) (op : BitVec 8) (r : Regs) (b : USrc) : Word :=
  match b with
  | .reg x => wordOf c op { r with sb := fldReg x }
  | .imm v => wordOf c op r v

/-- A descriptor or keep operand: SC of a long word, or IMM32 of a wide one (R220, R236). -/
def encLW (c : Ctl) (op : BitVec 8) (r : Regs) (k : USrc) : Word :=
  match k with
  | .reg x => wordOf c op r (lxOf (sc := fldReg x))
  | .imm v => wordOf c op r 0 v

/-- A two-source varying form in its short, long or wide word (R220, R236). -/
def encV (c : Ctl) (op : BitVec 8) (r : Regs) (b : VOpnd) (rsc : BitVec 3 := 0) (sc : BitVec 11 := 0) (lc : Bool := false) :
    Word :=
  match b with
  | .v x =>
    if c.len == .short then wordOf c op { r with sb := x.reg, lb := x.last }
    else wordOf c op { r with sb := x.reg, lb := x.last } (lxOf false rsc 0 sc lc)
  | .s x => wordOf c op { r with sb := fldReg x } (lxOf true rsc 0 sc lc)
  | .imm v => wordOf c op r (lxOf false rsc 0 sc lc) v

/-- The operand fields of an address (R134): MOD, SA and LA. -/
def Addr.regs (ad : Addr) (r : Regs) : Regs :=
  match ad with
  | .u x => { r with mod := 0, sa := fldReg x }
  | .a x => { r with mod := 1, sa := fldReg x }
  | .v x => { r with mod := 2, sa := x.reg, la := x.last }

/-- A memory word: everything above the base is 0 in the short word (R132). -/
def encM (c : Ctl) (op : BitVec 8) (r : Regs) (ty : Ty) (off : BitVec 24) (x8 : Byte := 0) (flg : Bool := false)
    (rsc : BitVec 3 := 0) (sc : BitVec 11 := 0) (lc : Bool := false) : Word :=
  if c.len == .short then wordOf c op r else wordOf c op r (lxOf flg rsc ty.code sc lc) (x8 ++ off)

/-- MOD of an affine form: .NEG, w = 64, .T (R221). -/
def affMod (neg w64 t : Bool) : BitVec 3 := flag1 neg ++ (flag1 w64 ++ flag1 t)

/-- MODX.RSC of an atomic (R133). -/
def atomX8 (op : AOp) (aq rl : Bool) : Byte := (0 : BitVec 2) ++ (flag1 rl ++ (flag1 aq ++ op.code))

/-- Opcode of a paired operation (R123). -/
def HOp.code : HOp → BitVec 8
  | .vadd => 0x38 | .vsub => 0x39 | .vmul => 0x3A | .vmulh => 0x3B | .vmulhn => 0x3C | .vand => 0x42 | .vor => 0x43
  | .vxor => 0x44 | .vandn => 0x45 | .vnot => 0x46 | .vshl => 0x47 | .vshr => 0x48 | .vsra => 0x49 | .vmin => 0x4A
  | .vmax => 0x4B | .vminn => 0x4C | .vmaxn => 0x4D | .vabs => 0x4E | .vneg => 0x4F | .vclz => 0x50 | .vpopc => 0x51
  | .vmov => 0x55 | .vfadd => 0x60 | .vfsub => 0x61 | .vfmul => 0x62 | .vfmin => 0x64 | .vfmax => 0x65
  | .vhadd2 => 0x75 | .vhmul2 => 0x76

def hopOf (b : BitVec 8) : Option HOp :=
  match b with
  | 0x38 => some .vadd | 0x39 => some .vsub | 0x3A => some .vmul | 0x3B => some .vmulh | 0x3C => some .vmulhn
  | 0x42 => some .vand | 0x43 => some .vor | 0x44 => some .vxor | 0x45 => some .vandn | 0x46 => some .vnot
  | 0x47 => some .vshl | 0x48 => some .vshr | 0x49 => some .vsra | 0x4A => some .vmin | 0x4B => some .vmax
  | 0x4C => some .vminn | 0x4D => some .vmaxn | 0x4E => some .vabs | 0x4F => some .vneg | 0x50 => some .vclz
  | 0x51 => some .vpopc | 0x55 => some .vmov | 0x60 => some .vfadd | 0x61 => some .vfsub | 0x62 => some .vfmul
  | 0x64 => some .vfmin | 0x65 => some .vfmax | 0x75 => some .vhadd2 | 0x76 => some .vhmul2 | _ => none

/-- The 53 bits of a half (R119). -/
def Half.bits (h : Half) : BitVec 53 :=
  (0 : BitVec 1) ++ (h.rnd.code.setWidth 2 ++ (h.ty.code.setWidth 3 ++ (flag1 h.b.last ++ (flag1 h.a.last ++
    (h.b.reg ++ (h.a.reg ++ (h.d ++ (h.guard ++ h.op.code))))))))

/-- The word of a dovetail pair (R119): half Y, half X, then SETQ, WAITM, STALL, OP and LEN. -/
def encDovetail (c : Ctl) (x y : Half) : Word :=
  let w : BitVec 128 := y.bits ++ (x.bits ++ (c.setq ++ (c.waitm ++ (c.stall ++ ((0xFF : BitVec 8) ++ c.len.code)))))
  ⟨w.extractLsb' 0 64, w.extractLsb' 64 32, w.extractLsb' 96 32⟩

/-- The W-M bits of a matrix word above 63, as the two upper words (R268). -/
def encWM (c : Ctl) (op : BitVec 8) (r : Regs) (hi : BitVec 64) : Word :=
  wordOf c op r (hi.extractLsb' 0 32) (hi.extractLsb' 32 32)

/-- A 64-bit immediate or offset pair as the two upper words (R108). -/
def encWI (c : Ctl) (op : BitVec 8) (r : Regs) (lo hi : W32) : Word := wordOf c op r lo hi

/-- SMOVI and VMOVI (R226). -/
def encImm (c : Ctl) (op : BitVec 8) (r : Regs) (v : Imm) : Word :=
  match v with
  | .i32 x => wordOf c op r x
  | .i64 x => wordOf c op r (x.extractLsb' 0 32) (x.extractLsb' 32 32)

/-- A uniform two-source integer form. -/
def encU2 (c : Ctl) (op : BitVec 8) (ty : IType) (d a : SReg) (b : USrc) : Word :=
  encSL c op { mod := ty.code, dst := fldReg d, sa := fldReg a } b

/-- A varying two-source integer form. -/
def encV2 (c : Ctl) (op : BitVec 8) (ty : IType) (d : VReg) (a : VSrc) (b : VOpnd) : Word :=
  encV c op { mod := ty.code, dst := d, sa := a.reg, la := a.last } b

/-- A varying one-source form. -/
def encV1 (c : Ctl) (op : BitVec 8) (m : BitVec 3) (d : VReg) (a : VSrc) : Word :=
  wordOf c op { mod := m, dst := d, sa := a.reg, la := a.last }

/-- A float one-source form with rounding in its long word. -/
def encFR (c : Ctl) (op : BitVec 8) (r : Rnd) (d : VReg) (a : VSrc) : Word :=
  wordOf c op { mod := 4, dst := d, sa := a.reg, la := a.last } (if c.len == .long then lxOf (rsc := r.code) else 0)

/-- A two-source float form. -/
def encF2 (c : Ctl) (op : BitVec 8) (m : BitVec 3) (r : Rnd) (d : VReg) (a : VSrc) (b : VOpnd) : Word :=
  encV c op { mod := m, dst := d, sa := a.reg, la := a.last } b r.code

/-- The counter operand of VHASH and VDROP: MOD[1], SA and LA (R254). -/
def Ctr.regs (k : Ctr) (m0 : Bool) (r : Regs) : Regs :=
  match k with
  | .w x => { r with mod := (0 : BitVec 1) ++ ((0 : BitVec 1) ++ flag1 m0), sa := x.reg, la := x.last }
  | .a x => { r with mod := (0 : BitVec 1) ++ ((1 : BitVec 1) ++ flag1 m0), sa := fldReg x }

/-- The word of an instruction (R106-R108 and the form tables); an event has none. -/
def encode (i : Instr) : Option Word :=
  match i with
  | .sadd c t d a b => some (encU2 c 0x00 t d a b)
  | .ssub c t d a b => some (encU2 c 0x01 t d a b)
  | .smul c t d a b => some (encU2 c 0x02 t d a b)
  | .smulh c t d a b => some (encU2 c 0x03 t d a b)
  | .smulhn c t d a b => some (encU2 c 0x04 t d a b)
  | .sdiv c t d a b => some (encU2 c 0x05 t d a b)
  | .sdivn c t d a b => some (encU2 c 0x06 t d a b)
  | .srem c t d a b => some (encU2 c 0x07 t d a b)
  | .sremn c t d a b => some (encU2 c 0x08 t d a b)
  | .sand c t d a b => some (encU2 c 0x09 t d a b)
  | .sor c t d a b => some (encU2 c 0x0A t d a b)
  | .sxor c t d a b => some (encU2 c 0x0B t d a b)
  | .sandn c t d a b => some (encU2 c 0x0C t d a b)
  | .sshl c t d a b => some (encU2 c 0x0D t d a b)
  | .sshr c t d a b => some (encU2 c 0x0E t d a b)
  | .ssra c t d a b => some (encU2 c 0x0F t d a b)
  | .smin c t d a b => some (encU2 c 0x10 t d a b)
  | .smax c t d a b => some (encU2 c 0x11 t d a b)
  | .sminn c t d a b => some (encU2 c 0x12 t d a b)
  | .smaxn c t d a b => some (encU2 c 0x13 t d a b)
  | .sclz c t d a => some (wordOf c 0x14 { mod := t.code, dst := fldReg d, sa := fldReg a })
  | .spopc c t d a => some (wordOf c 0x15 { mod := t.code, dst := fldReg d, sa := fldReg a })
  | .sbfx c t d a b => some (encU2 c 0x16 t d a b)
  | .sbfi c t d a b k => some (encLW c 0x17 { mod := t.code, dst := fldReg d, sa := fldReg a, sb := fldReg b } k)
  | .ssel c t d a b k =>
    some (wordOf c 0x18 { mod := t.code, dst := fldReg d, sa := fldReg a, sb := fldReg b } (lxOf (sc := fldReg k)))
  | .smov c t d a => some (wordOf c 0x19 { mod := t.code, dst := fldReg d, sa := fldReg a })
  | .smovi c t d v => some (encImm c 0x1A { mod := t.code, dst := fldReg d } v)
  | .scmp c t k d a b =>
    some (match b with
      | .reg r =>
        wordOf c 0x1B { mod := t.code, dst := fldReg d, sa := fldReg a, sb := fldReg r } (lxOf (rsc := k.code))
      | .imm v => wordOf c 0x1B { mod := t.code, dst := fldReg d, sa := fldReg a } (lxOf (rsc := k.code)) v)
  | .amovi c w t d b s => some (encWI c 0x20 { mod := affMod false w t, dst := fldReg d } b s)
  | .aadd c w t d a b =>
    some (wordOf c 0x21 { mod := affMod false w t, dst := fldReg d, sa := fldReg a, sb := fldReg b })
  | .asub c w t d a b =>
    some (wordOf c 0x22 { mod := affMod false w t, dst := fldReg d, sa := fldReg a, sb := fldReg b })
  | .aadds c n w t d a b => some (encSL c 0x23 { mod := affMod n w t, dst := fldReg d, sa := fldReg a } b)
  | .amuls c w t d a b => some (encSL c 0x24 { mod := affMod false w t, dst := fldReg d, sa := fldReg a } b)
  | .ashls c w t d a b => some (encSL c 0x25 { mod := affMod false w t, dst := fldReg d, sa := fldReg a } b)
  | .psa c w t d a b => some (encSL c 0x26 { mod := affMod false w t, dst := fldReg d, sa := fldReg a } b)
  | .psv c t d a => some (wordOf c 0x27 { mod := t.code, dst := d, sa := fldReg a })
  | .pav c t d a => some (wordOf c 0x28 { mod := t.code, dst := d, sa := fldReg a })
  | .vpick c t d a i => some (encSL c 0x29 { mod := t.code, dst := fldReg d, sa := a.reg, la := a.last } i)
  | .vballot c b d a => some (wordOf c 0x2A { mod := b.setWidth 3, dst := fldReg d, sa := fldReg a })
  | .vany c d a => some (wordOf c 0x2B { dst := fldReg d, sa := fldReg a })
  | .vall c d a => some (wordOf c 0x2C { dst := fldReg d, sa := fldReg a })
  | .vredadd c t d a => some (encV1 c 0x2D t.code (fldReg d) a)
  | .vredmin c t d a => some (encV1 c 0x2E t.code (fldReg d) a)
  | .vredmax c t d a => some (encV1 c 0x2F t.code (fldReg d) a)
  | .agetb c n d a => some (wordOf c 0x30 { mod := (flag1 n).setWidth 3, dst := fldReg d, sa := fldReg a })
  | .agets c w d a => some (wordOf c 0x31 { mod := (flag1 w).setWidth 3, dst := fldReg d, sa := fldReg a })
  | .vadd c t d a b => some (encV2 c 0x38 t d a b)
  | .vsub c t d a b => some (encV2 c 0x39 t d a b)
  | .vmul c t d a b => some (encV2 c 0x3A t d a b)
  | .vmulh c t d a b => some (encV2 c 0x3B t d a b)
  | .vmulhn c t d a b => some (encV2 c 0x3C t d a b)
  | .vmad c t d a b k => some (encV c 0x3D { mod := t.code, dst := d, sa := a.reg, la := a.last } b 0 k.reg k.last)
  | .vdiv c t d a b => some (encV2 c 0x3E t d a b)
  | .vdivn c t d a b => some (encV2 c 0x3F t d a b)
  | .vrem c t d a b => some (encV2 c 0x40 t d a b)
  | .vremn c t d a b => some (encV2 c 0x41 t d a b)
  | .vand c t d a b => some (encV2 c 0x42 t d a b)
  | .vor c t d a b => some (encV2 c 0x43 t d a b)
  | .vxor c t d a b => some (encV2 c 0x44 t d a b)
  | .vandn c t d a b => some (encV2 c 0x45 t d a b)
  | .vnot c t d a => some (encV1 c 0x46 t.code d a)
  | .vshl c t d a b => some (encV2 c 0x47 t d a b)
  | .vshr c t d a b => some (encV2 c 0x48 t d a b)
  | .vsra c t d a b => some (encV2 c 0x49 t d a b)
  | .vmin c t d a b => some (encV2 c 0x4A t d a b)
  | .vmax c t d a b => some (encV2 c 0x4B t d a b)
  | .vminn c t d a b => some (encV2 c 0x4C t d a b)
  | .vmaxn c t d a b => some (encV2 c 0x4D t d a b)
  | .vabs c t d a => some (encV1 c 0x4E t.code d a)
  | .vneg c t d a => some (encV1 c 0x4F t.code d a)
  | .vclz c t d a => some (encV1 c 0x50 t.code d a)
  | .vpopc c t d a => some (encV1 c 0x51 t.code d a)
  | .vbfx c t d a k =>
    some (match k with
      | .reg r => wordOf c 0x52 { mod := t.code, dst := d, sa := a.reg, la := a.last, sb := fldReg r }
      | .imm v => wordOf c 0x52 { mod := t.code, dst := d, sa := a.reg, la := a.last } 0 v)
  | .vbfi c t d a b k =>
    some (encLW c 0x53 { mod := t.code, dst := d, sa := a.reg, la := a.last, sb := b.reg, lb := b.last } k)
  | .vsel c t d a b p => some (encV c 0x54 { mod := t.code, dst := d, sa := a.reg, la := a.last } b 0 (fldReg p))
  | .vmov c t d a => some (encV1 c 0x55 t.code d a)
  | .vmovi c t d v => some (encImm c 0x56 { mod := t.code, dst := d } v)
  | .vcmp c t k d a b =>
    some (encV c 0x57 { mod := t.code, dst := fldReg d, sa := a.reg, la := a.last } b k.code)
  | .vsat c t d a k => some (wordOf c 0x58 { mod := t.code, dst := d, sa := a.reg, la := a.last } k)
  | .pand c d a b => some (wordOf c 0x59 { dst := fldReg d, sa := fldReg a, sb := fldReg b })
  | .por c d a b => some (wordOf c 0x5A { dst := fldReg d, sa := fldReg a, sb := fldReg b })
  | .pxor c d a b => some (wordOf c 0x5B { dst := fldReg d, sa := fldReg a, sb := fldReg b })
  | .pnot c d a => some (wordOf c 0x5C { dst := fldReg d, sa := fldReg a })
  | .pmov c d a =>
    some (match a with
      | .p r => wordOf c 0x5D { dst := fldReg d, sa := fldReg r }
      | .mk r => wordOf c 0x5D { mod := 1, dst := fldReg d, sa := fldReg r })
  | .vfadd c r d a b => some (encF2 c 0x60 4 r d a b)
  | .vfsub c r d a b => some (encF2 c 0x61 4 r d a b)
  | .vfmul c r d a b => some (encF2 c 0x62 4 r d a b)
  | .vfma c r d a b k => some (encV c 0x63 { mod := 4, dst := d, sa := a.reg, la := a.last } b r.code k.reg k.last)
  | .vfmin c d a b => some (encF2 c 0x64 4 .rne d a b)
  | .vfmax c d a b => some (encF2 c 0x65 4 .rne d a b)
  | .vfcmp c k d a b => some (encV c 0x66 { mod := 4, dst := fldReg d, sa := a.reg, la := a.last } b k.code)
  | .vfclass c t d a => some (encV1 c 0x67 t.code d a)
  | .vfrnd c r d a => some (encFR c 0x68 r d a)
  | .vfrcp c d a => some (encV1 c 0x69 4 d a)
  | .vfrsq c d a => some (encV1 c 0x6A 4 d a)
  | .vfsqrt c r d a => some (encFR c 0x6B r d a)
  | .vfdiv c r d a b => some (encF2 c 0x6C 4 r d a b)
  | .vfexp2 c d a => some (encV1 c 0x6D 4 d a)
  | .vflog2 c d a => some (encV1 c 0x6E 4 d a)
  | .vfsin c d a => some (encV1 c 0x6F 4 d a)
  | .vfcos c d a => some (encV1 c 0x70 4 d a)
  | .vftanh c d a => some (encV1 c 0x71 4 d a)
  | .vcvt c t f r d a rb =>
    some (wordOf c 0x72 { dst := d, sa := a.reg, la := a.last, sb := rb.reg, lb := rb.last }
      (lxOf false r.code f.code (fldReg t.code)))
  | .vpack c m t r d a b rb =>
    some (wordOf c 0x73 { mod := m.code, dst := d, sa := a.reg, la := a.last, sb := b.reg, lb := b.last }
      (lxOf false r.code t.code rb.reg rb.last))
  | .vunpack c t e d a =>
    some (wordOf c 0x74 { mod := e, dst := d, sa := a.reg, la := a.last } (lxOf (ty := t.code)))
  | .vhadd2 c t r d a b => some (encF2 c 0x75 t.code r d a b)
  | .vhmul2 c t r d a b => some (encF2 c 0x76 t.code r d a b)
  | .vhfma2 c t r d a b k =>
    some (encV c 0x77 { mod := t.code, dst := d, sa := a.reg, la := a.last } b r.code k.reg k.last)
  | .sfadd c t r d a b => some (encSF c 0x78 t r d a b)
  | .sfmul c t r d a b => some (encSF c 0x79 t r d a b)
  | .sfma c t r d a b k =>
    some (wordOf c 0x7A { mod := t.code, dst := fldReg d, sa := fldReg a, sb := fldReg b }
      (lxOf false r.code 0 (fldReg k)))
  | .sfcvt c t f r d a rb =>
    some (wordOf c 0x7B { dst := fldReg d, sa := fldReg a, sb := fldReg rb } (lxOf false r.code f.code (fldReg t.code)))
  | .vshfl c o d a b =>
    some (match b with
      | .v x => wordOf c 0x88 { mod := o.code, dst := d, sa := a.reg, la := a.last, sb := x.reg, lb := x.last }
      | .s r => wordOf c 0x88 { mod := o.code, dst := d, sa := a.reg, la := a.last, sb := fldReg r }
      | .imm v => wordOf c 0x88 { mod := o.code, dst := d, sa := a.reg, la := a.last } 0 v)
  | .vbcast c bt d a i => some (encSL c 0x89 { mod := (flag1 bt).setWidth 3, dst := d, sa := a.reg, la := a.last } i)
  | .vprmt c d a b k =>
    some (match k with
      | .v x =>
        wordOf c 0x8A { dst := d, sa := a.reg, la := a.last, sb := b.reg, lb := b.last } (lxOf (sc := x.reg) (lc := x.last))
      | .s r => wordOf c 0x8A { dst := d, sa := a.reg, la := a.last, sb := b.reg, lb := b.last } (lxOf (sc := fldReg r))
      | .imm v => wordOf c 0x8A { dst := d, sa := a.reg, la := a.last, sb := b.reg, lb := b.last } 0 v)
  | .vscan c o ex t d a hd =>
    let m : BitVec 3 := (match o with | .add => (0 : BitVec 2) | .min => 1 | .max => 2) ++ flag1 ex
    let tc : BitVec 4 := match t with | .i32 => 0 | .n32 => 1 | .f32 => 4
    some (match hd with
      | some p => wordOf c 0x8B { mod := m, dst := d, sa := a.reg, la := a.last, sb := fldReg p } (lxOf true 0 tc)
      | none => wordOf c 0x8B { mod := m, dst := d, sa := a.reg, la := a.last } (lxOf false 0 tc))
  | .vdrop c al d k key kp => some (encLW c 0x8C (k.regs al { dst := fldReg d, sb := fldReg key }) kp)
  | .vhash c lo d k key => some (wordOf c 0x8D (k.regs lo { dst := d, sb := fldReg key }))
  | .sld c t nc d b o => some (encM c 0x90 { dst := fldReg d, sa := fldReg b } t o 0 nc)
  | .sst c t b o x => some (encM c 0x91 { sa := fldReg b, sb := fldReg x } t o)
  | .vld c t nc d ad o => some (encM c 0x92 (ad.regs { dst := d }) t o 0 nc)
  | .vst c t ad o x => some (encM c 0x93 (ad.regs { sb := x.reg, lb := x.last }) t o)
  | .vlds c t d ad o => some (encM c 0x94 (ad.regs { dst := d }) t o)
  | .vsts c t ad o x => some (encM c 0x95 (ad.regs { sb := x.reg, lb := x.last }) t o)
  | .slds c t d b o => some (encM c 0x96 { dst := fldReg d, sa := fldReg b } t o)
  | .ssts c t b o x => some (encM c 0x97 { sa := fldReg b, sb := fldReg x } t o)
  | .vldq c t sc m d ad o => some (encM c 0x98 (ad.regs { dst := d }) t o m false sc.code)
  | .vstl c t sc ad o x => some (encM c 0x99 (ad.regs { sb := x.reg, lb := x.last }) t o 0 false sc.code)
  | .sldq c t sc m d b o => some (encM c 0x9A { dst := fldReg d, sa := fldReg b } t o m false sc.code)
  | .sstl c t sc b o x => some (encM c 0x9B { sa := fldReg b, sb := fldReg x } t o 0 false sc.code)
  | .vatom c op aq rl t sc d ad o b k =>
    some (encM c 0x9C (ad.regs { dst := d, sb := b.reg, lb := b.last }) t o (atomX8 op aq rl) false sc.code k.reg k.last)
  | .satom c op aq rl t sc d ba o b k =>
    some (encM c 0x9D { dst := fldReg d, sa := fldReg ba, sb := fldReg b } t o (atomX8 op aq rl) false sc.code (fldReg k))
  | .vlr c t d ad o => some (encM c 0x9E (ad.regs { dst := d }) t o)
  | .vsc c t d ad o b => some (encM c 0x9F (ad.regs { dst := fldReg d, sb := b.reg, lb := b.last }) t o)
  | .fence c sc => some (encM c 0xA0 {} .i32 0 0 false sc.code)
  | .acq c sc m => some (encM c 0xA1 {} .i32 0 m false sc.code)
  | .rel c sc => some (encM c 0xA2 {} .i32 0 0 false sc.code)
  | .invr c b o l => some (encM c 0xA3 { sa := fldReg b, sb := fldReg l } .i32 o)
  | .inva c => some (encM c 0xA4 {} .i32 0)
  | .reg c t ad o => some (encM c 0xA5 (ad.regs {}) t o)
  | .dereg c t ad o => some (encM c 0xA6 (ad.regs {}) t o)
  | .pref c t ad o => some (encM c 0xA7 (ad.regs {}) t o)
  | .waita c t k d b o x tm =>
    some (encM c 0xA8 { dst := fldReg d, sa := fldReg b, sb := fldReg x } t o (k.code.setWidth 8) false 0
      (match tm with | some r => fldReg r | none => 0))
  | .xfer c a => some (wordOf c 0xB0 { sa := fldReg a })
  | .msgsend c ch a => some (wordOf c 0xB1 { mod := ch, sa := fldReg a })
  | .msgrecv c nb d a => some (wordOf c 0xB2 { mod := (flag1 nb).setWidth 3, dst := fldReg d, sa := fldReg a })
  | .msgfree c a b => some (wordOf c 0xB3 { sa := fldReg a, sb := fldReg b })
  | .barinit c a b => some (wordOf c 0xB4 { sa := fldReg a, sb := fldReg b })
  | .bararr c rm d a b =>
    some (wordOf c 0xB5 { mod := (flag1 rm).setWidth 3, dst := fldReg d, sa := fldReg a, sb := fldReg b })
  | .barwait c a b => some (wordOf c 0xB6 { sa := fldReg a, sb := fldReg b })
  | .bartry c d a b => some (wordOf c 0xB7 { dst := fldReg d, sa := fldReg a, sb := fldReg b })
  | .mma c z h d a ao b bo =>
    some (encWM c 0xC0 { mod := affMod false h z, dst := fldReg d, sa := fldReg a, sb := fldReg b }
      ((0 : BitVec 24) ++ (bo ++ ao)))
  | .mmas c z h d a ao b bo =>
    some (encWM c 0xC1 { mod := affMod false h z, dst := fldReg d, sa := fldReg a, sb := fldReg b }
      ((0 : BitVec 24) ++ (bo ++ ao)))
  | .mscale c z i d p rs ss so =>
    some (encWM c 0xC2 { mod := affMod false i z, dst := fldReg d, sa := fldReg p, sb := rs.reg, lb := rs.last }
      ((0 : BitVec 38) ++ (so ++ ss)))
  | .mzero c d => some (wordOf c 0xC3 { dst := fldReg d })
  | .mcvt c h t r d a key =>
    some (wordOf c 0xC4 { mod := (flag1 h).setWidth 3, dst := d, sa := fldReg a, sb := fldReg key }
      (lxOf false r.code t.code))
  | .tfpin c d a => some (wordOf c 0xC5 { dst := fldReg d, sa := fldReg a })
  | .tfrel c al a => some (wordOf c 0xC6 { mod := (flag1 al).setWidth 3, sa := fldReg a })
  | .bra c k a o => some (wordOf c 0xC8 { mod := k.code, sa := fldReg a } o)
  | .brv c o h => some (encWI c 0xC9 {} o h)
  | .brx c a tb l h =>
    some (wordOf c 0xCA { sa := a.reg, la := a.last, sb := fldReg tb } (lxOf (sc := fldReg l)) h)
  | .call c d o =>
    some (match d with
      | .s r => wordOf c 0xCB { dst := fldReg r } o
      | .w r => wordOf c 0xCB { mod := 1, dst := r } o)
  | .ret c a =>
    some (match a with
      | .s r => wordOf c 0xCC { sa := fldReg r }
      | .w r => wordOf c 0xCC { mod := 1, sa := r })
  | .exit c => some (wordOf c 0xCD {})
  | .sync c => some (wordOf c 0xCE {})
  | .waitq c al => some (wordOf c 0xCF { mod := (flag1 al).setWidth 3 })
  | .yield c => some (wordOf c 0xD0 {})
  | .nop c => some (wordOf c 0xD1 {})
  | .trap c k => some (wordOf c 0xD2 {} (k.setWidth 32))
  | .bkpt c => some (wordOf c 0xD3 {})
  | .svc c e v h => some (wordOf c 0xD4 { mod := (flag1 e).setWidth 3, sa := v } h)
  | .qpost c d a b => some (wordOf c 0xD5 { dst := fldReg d, sa := fldReg a, sb := fldReg b })
  | .reggrow c d n => some (encN c 0xD6 { dst := fldReg d } n)
  | .regshrink c n => some (encN c 0xD7 {} n)
  | .srd c d n => some (wordOf c 0xD8 { dst := fldReg d } n)
  | .swr c n a => some (wordOf c 0xD9 { sa := fldReg a } n)
  | .sres c m n k => some (wordOf c 0xE0 { mod := (flag1 m).setWidth 3, sa := fldReg n, sb := fldReg k })
  | .pctxsv c d h v => some (wordOf c 0xE1 { dst := fldReg d, sa := fldReg h, sb := fldReg v })
  | .pctxld c d h v => some (wordOf c 0xE2 { dst := fldReg d, sa := fldReg h, sb := fldReg v })
  | .tlbinv c m h v a => some (wordOf c 0xE3 { mod := flag1 h ++ m.code, sa := fldReg v, sb := fldReg a })
  | .mbxsend c d t p => some (wordOf c 0xE4 { dst := fldReg d, sa := fldReg t, sb := fldReg p })
  | .mbxrecv c nb d => some (wordOf c 0xE5 { mod := (flag1 nb).setWidth 3, dst := fldReg d })
  | .zap c p l => some (wordOf c 0xE6 { sa := fldReg p, sb := fldReg l })
  | .halt c => some (wordOf c 0xE7 {})
  | .iret c => some (wordOf c 0xE8 {})
  | .pstop c d h => some (wordOf c 0xE9 { dst := fldReg d, sa := fldReg h })
  | .pstopGo c d h => some (wordOf c 0xE9 { mod := 1, dst := fldReg d, sa := fldReg h })
  | .pstopEnd c d h k => some (wordOf c 0xE9 { mod := 2, dst := fldReg d, sa := fldReg h, sb := fldReg k })
  | .swrp c n a => some (wordOf c 0xEA { sa := fldReg a } n)
  | .dovetail c x y => some (encDovetail c x y)
  | _ => none
where
  /-- A uniform float form: short or long with a register, wide with an immediate (R236). -/
  encSF (c : Ctl) (op : BitVec 8) (t : FType) (r : Rnd) (d a : SReg) (b : USrc) : Word :=
    match b with
    | .reg x =>
      wordOf c op { mod := t.code, dst := fldReg d, sa := fldReg a, sb := fldReg x }
        (if c.len == .long then lxOf (rsc := r.code) else 0)
    | .imm v => wordOf c op { mod := t.code, dst := fldReg d, sa := fldReg a } 0 v
  /-- REGGROW and REGSHRINK: the row count is SA of a short word, IMM32 of a long one (R306). -/
  encN (c : Ctl) (op : BitVec 8) (r : Regs) (n : USrc) : Word :=
    match n with
    | .reg x => wordOf c op { r with sa := fldReg x }
    | .imm v => wordOf c op r v

/-! ### The decoder -/

/-- Why a word is refused, in the words of R112: the fault it raises. -/
inductive DecErr | illegalOp | privilege | illegalField | illegalPair
  deriving DecidableEq, Repr

/-- The control fields of a word. -/
def ctlOfBase (b : Base) (l : Len) : Ctl := ⟨l, b.stall, b.waitm, b.setq, b.guard⟩

/-- The low bits of a register field (R109). -/
def sName (f : BitVec 11) : SReg := f.setWidth 6
def aName (f : BitVec 11) : AReg := f.setWidth 5
def pName (f : BitVec 11) : PReg := f.setWidth 3
def cName (f : BitVec 11) : CReg := f.setWidth 4

/-- A one-bit field as a flag. -/
def on (b : BitVec 1) : Bool := b == 1

/-- A word being read: its length, base fields, L-X fields, and the words above bit 63. -/
structure Rd where
  len : Len
  b : Base
  x : LX
  ext : W32
  imm : W32
  deriving DecidableEq, Repr

def Rd.c (r : Rd) : Ctl := ctlOfBase r.b r.len
def Rd.va (r : Rd) : VSrc := ⟨r.b.sa, on r.b.la⟩
def Rd.vb (r : Rd) : VSrc := ⟨r.b.sb, on r.b.lb⟩
def Rd.vc (r : Rd) : VSrc := ⟨r.x.sc, on r.x.lc⟩
/-- SB, or the immediate of a word that is not of length `l`. -/
def Rd.ub (r : Rd) (l : Len) : USrc :=
  if r.len = l then .reg (sName r.b.sb) else .imm (if r.len = .long then r.ext else r.imm)
/-- SC of a long word, or the immediate of a wide one. -/
def Rd.uc (r : Rd) : USrc := if r.len = .long then .reg (sName r.x.sc) else .imm r.imm
/-- The last operand of a varying form (R220, R236). -/
def Rd.vo (r : Rd) : VOpnd :=
  match r.len with
  | .short => .v r.vb
  | .long => if on r.x.flg then .s (sName r.b.sb) else .v r.vb
  | .wide => .imm r.imm
def Rd.off (r : Rd) : BitVec 24 := r.imm.extractLsb' 0 24
def Rd.x8 (r : Rd) : Byte := r.imm.extractLsb' 24 8
/-- The address by its shape (R134). -/
def Rd.addr (r : Rd) : Option Addr :=
  match r.b.mod with
  | 0 => some (.u (sName r.b.sa))
  | 1 => some (.a (aName r.b.sa))
  | 2 => some (.v r.va)
  | _ => none
/-- The access type; .I32 in a short word (R132). -/
def Rd.mty (r : Rd) : Option Ty := if r.len = .short then some .i32 else tyOf r.x.ty
/-- The scope; DEVICE in a short ordering word (R132). -/
def Rd.scope (r : Rd) : Option Scope := if r.len = .short then some .device else scopeOf r.x.rsc
def Rd.imm64 (r : Rd) : W64 := r.imm ++ r.ext
def Rd.im (r : Rd) : Imm := if r.len = .long then .i32 r.ext else .i64 r.imm64
/-- The rounding mode: RNE outside the long word (R237). -/
def Rd.rnd (r : Rd) : Option Rnd := if r.len = .long then rndOf r.x.rsc else some .rne
def Rd.m0 (r : Rd) : Bool := r.b.mod.getLsbD 0
def Rd.m1 (r : Rd) : Bool := r.b.mod.getLsbD 1
def Rd.m2 (r : Rd) : Bool := r.b.mod.getLsbD 2
def Rd.ctr (r : Rd) : Ctr := if r.m1 then .a (aName r.b.sa) else .w r.va

/-- A uniform two-source integer form. -/
def rdU2 (k : Ctl → IType → SReg → SReg → USrc → Instr) (r : Rd) : Option Instr :=
  (itypeOf r.b.mod).map (fun t => k r.c t (sName r.b.dst) (sName r.b.sa) (r.ub .short))
/-- A uniform one-source integer form. -/
def rdU1 (k : Ctl → IType → SReg → SReg → Instr) (r : Rd) : Option Instr :=
  (itypeOf r.b.mod).map (fun t => k r.c t (sName r.b.dst) (sName r.b.sa))
/-- A varying two-source integer form. -/
def rdV2 (k : Ctl → IType → VReg → VSrc → VOpnd → Instr) (r : Rd) : Option Instr :=
  (itypeOf r.b.mod).map (fun t => k r.c t r.b.dst r.va r.vo)
/-- A varying one-source integer form. -/
def rdV1 (k : Ctl → IType → VReg → VSrc → Instr) (r : Rd) : Option Instr :=
  (itypeOf r.b.mod).map (fun t => k r.c t r.b.dst r.va)
/-- An affine form with a uniform operand. -/
def rdAU (k : Ctl → Bool → Bool → AReg → AReg → USrc → Instr) (r : Rd) : Option Instr :=
  some (k r.c r.m1 r.m0 (aName r.b.dst) (aName r.b.sa) (r.ub .short))
/-- A two-source float form. -/
def rdF2 (k : Ctl → Rnd → VReg → VSrc → VOpnd → Instr) (r : Rd) : Option Instr :=
  r.rnd.map (fun m => k r.c m r.b.dst r.va r.vo)
/-- A one-source float form with rounding. -/
def rdFR (k : Ctl → Rnd → VReg → VSrc → Instr) (r : Rd) : Option Instr :=
  r.rnd.map (fun m => k r.c m r.b.dst r.va)
/-- A reduction. -/
def rdRed (k : Ctl → PType → SReg → VSrc → Instr) (r : Rd) : Option Instr :=
  (ptypeOf r.b.mod).map (fun t => k r.c t (sName r.b.dst) r.va)
/-- A packed two-source float form. -/
def rdH2 (k : Ctl → FType → Rnd → VReg → VSrc → VOpnd → Instr) (r : Rd) : Option Instr :=
  match ftypeOf r.b.mod, r.rnd with
  | some t, some m => some (k r.c t m r.b.dst r.va r.vo)
  | _, _ => none
/-- A uniform float form. -/
def rdSF (k : Ctl → FType → Rnd → SReg → SReg → USrc → Instr) (r : Rd) : Option Instr :=
  match ftypeOf r.b.mod, r.rnd with
  | some t, some m =>
    some (k r.c t m (sName r.b.dst) (sName r.b.sa) (if r.len = .wide then .imm r.imm else .reg (sName r.b.sb)))
  | _, _ => none
/-- A memory form with an address of any shape. -/
def rdM (k : Ctl → Ty → Addr → BitVec 24 → Option Instr) (r : Rd) : Option Instr :=
  match r.mty, r.addr with
  | some t, some ad => k r.c t ad r.off
  | _, _ => none
/-- A memory form with a uniform address. -/
def rdMU (k : Ctl → Ty → SReg → BitVec 24 → Option Instr) (r : Rd) : Option Instr :=
  match r.mty, r.b.mod with
  | some t, 0 => k r.c t (sName r.b.sa) r.off
  | _, _ => none
/-- An atomic: operation and ordering bits of X8 (R146). -/
def rdAtom (k : AOp → Bool → Bool → Scope → Option Instr) (r : Rd) : Option Instr :=
  match aopOf (r.x8.extractLsb' 0 4), scopeOf r.x.rsc with
  | some o, some s => k o (r.x8.getLsbD 4) (r.x8.getLsbD 5) s
  | _, _ => none
/-- A form of three uniform registers. -/
def rdS3 (k : Ctl → SReg → SReg → SReg → Instr) (r : Rd) : Option Instr :=
  some (k r.c (sName r.b.dst) (sName r.b.sa) (sName r.b.sb))
/-- A form of two uniform source registers. -/
def rdS2 (k : Ctl → SReg → SReg → Instr) (r : Rd) : Option Instr :=
  some (k r.c (sName r.b.sa) (sName r.b.sb))
/-- A predicate form. -/
def rdP2 (k : Ctl → PReg → PReg → PReg → Instr) (r : Rd) : Option Instr :=
  some (k r.c (pName r.b.dst) (pName r.b.sa) (pName r.b.sb))
/-- REGGROW's and REGSHRINK's row count. -/
def Rd.n (r : Rd) : USrc := if r.len = .short then .reg (sName r.b.sa) else .imm r.ext
/-- The 64 bits above the base word. -/
def Rd.hi (r : Rd) : BitVec 64 := r.imm64

/-- The instruction of a word by its opcode (R123). A code that stands for nothing gives none. -/
def parse (r : Rd) : Option Instr :=
  match r.b.op.toNat with
  | 0x00 => rdU2 .sadd r
  | 0x01 => rdU2 .ssub r
  | 0x02 => rdU2 .smul r
  | 0x03 => rdU2 .smulh r
  | 0x04 => rdU2 .smulhn r
  | 0x05 => rdU2 .sdiv r
  | 0x06 => rdU2 .sdivn r
  | 0x07 => rdU2 .srem r
  | 0x08 => rdU2 .sremn r
  | 0x09 => rdU2 .sand r
  | 0x0A => rdU2 .sor r
  | 0x0B => rdU2 .sxor r
  | 0x0C => rdU2 .sandn r
  | 0x0D => rdU2 .sshl r
  | 0x0E => rdU2 .sshr r
  | 0x0F => rdU2 .ssra r
  | 0x10 => rdU2 .smin r
  | 0x11 => rdU2 .smax r
  | 0x12 => rdU2 .sminn r
  | 0x13 => rdU2 .smaxn r
  | 0x14 => rdU1 .sclz r
  | 0x15 => rdU1 .spopc r
  | 0x16 => rdU2 .sbfx r
  | 0x17 => (itypeOf r.b.mod).map (fun t => .sbfi r.c t (sName r.b.dst) (sName r.b.sa) (sName r.b.sb) r.uc)
  | 0x18 =>
    (itypeOf r.b.mod).map (fun t => .ssel r.c t (sName r.b.dst) (sName r.b.sa) (sName r.b.sb) (sName r.x.sc))
  | 0x19 => rdU1 .smov r
  | 0x1A => (itypeOf r.b.mod).map (fun t => .smovi r.c t (sName r.b.dst) r.im)
  | 0x1B =>
    match itypeOf r.b.mod, condOf r.x.rsc with
    | some t, some k => some (.scmp r.c t k (sName r.b.dst) (sName r.b.sa) (r.ub .long))
    | _, _ => none
  | 0x20 => some (.amovi r.c r.m1 r.m0 (aName r.b.dst) r.ext r.imm)
  | 0x21 => some (.aadd r.c r.m1 r.m0 (aName r.b.dst) (aName r.b.sa) (aName r.b.sb))
  | 0x22 => some (.asub r.c r.m1 r.m0 (aName r.b.dst) (aName r.b.sa) (aName r.b.sb))
  | 0x23 => rdAU (fun c => .aadds c r.m2) r
  | 0x24 => rdAU .amuls r
  | 0x25 => rdAU .ashls r
  | 0x26 => some (.psa r.c r.m1 r.m0 (aName r.b.dst) (sName r.b.sa) (r.ub .short))
  | 0x27 => (ptypeOf r.b.mod).map (fun t => .psv r.c t r.b.dst (sName r.b.sa))
  | 0x28 => (itypeOf r.b.mod).map (fun t => .pav r.c t r.b.dst (aName r.b.sa))
  | 0x29 => (ptypeOf r.b.mod).map (fun t => .vpick r.c t (sName r.b.dst) r.va (r.ub .short))
  | 0x2A => some (.vballot r.c (r.b.mod.setWidth 2) (sName r.b.dst) (pName r.b.sa))
  | 0x2B => some (.vany r.c (sName r.b.dst) (pName r.b.sa))
  | 0x2C => some (.vall r.c (sName r.b.dst) (pName r.b.sa))
  | 0x2D => rdRed .vredadd r
  | 0x2E => rdRed .vredmin r
  | 0x2F => rdRed .vredmax r
  | 0x30 => some (.agetb r.c r.m0 (sName r.b.dst) (aName r.b.sa))
  | 0x31 => some (.agets r.c r.m0 (sName r.b.dst) (aName r.b.sa))
  | 0x38 => rdV2 .vadd r
  | 0x39 => rdV2 .vsub r
  | 0x3A => rdV2 .vmul r
  | 0x3B => rdV2 .vmulh r
  | 0x3C => rdV2 .vmulhn r
  | 0x3D => (itypeOf r.b.mod).map (fun t => .vmad r.c t r.b.dst r.va r.vo r.vc)
  | 0x3E => rdV2 .vdiv r
  | 0x3F => rdV2 .vdivn r
  | 0x40 => rdV2 .vrem r
  | 0x41 => rdV2 .vremn r
  | 0x42 => rdV2 .vand r
  | 0x43 => rdV2 .vor r
  | 0x44 => rdV2 .vxor r
  | 0x45 => rdV2 .vandn r
  | 0x46 => rdV1 .vnot r
  | 0x47 => rdV2 .vshl r
  | 0x48 => rdV2 .vshr r
  | 0x49 => rdV2 .vsra r
  | 0x4A => rdV2 .vmin r
  | 0x4B => rdV2 .vmax r
  | 0x4C => rdV2 .vminn r
  | 0x4D => rdV2 .vmaxn r
  | 0x4E => rdV1 .vabs r
  | 0x4F => rdV1 .vneg r
  | 0x50 => rdV1 .vclz r
  | 0x51 => rdV1 .vpopc r
  | 0x52 => (itypeOf r.b.mod).map (fun t => .vbfx r.c t r.b.dst r.va (r.ub .short))
  | 0x53 => (itypeOf r.b.mod).map (fun t => .vbfi r.c t r.b.dst r.va r.vb r.uc)
  | 0x54 => (itypeOf r.b.mod).map (fun t => .vsel r.c t r.b.dst r.va r.vo (pName r.x.sc))
  | 0x55 => rdV1 .vmov r
  | 0x56 => (itypeOf r.b.mod).map (fun t => .vmovi r.c t r.b.dst r.im)
  | 0x57 =>
    match itypeOf r.b.mod, condOf r.x.rsc with
    | some t, some k => some (.vcmp r.c t k (pName r.b.dst) r.va r.vo)
    | _, _ => none
  | 0x58 => (itypeOf r.b.mod).map (fun t => .vsat r.c t r.b.dst r.va r.ext)
  | 0x59 => rdP2 .pand r
  | 0x5A => rdP2 .por r
  | 0x5B => rdP2 .pxor r
  | 0x5C => some (.pnot r.c (pName r.b.dst) (pName r.b.sa))
  | 0x5D => some (.pmov r.c (pName r.b.dst) (if r.m0 then .mk (sName r.b.sa) else .p (pName r.b.sa)))
  | 0x60 => rdF2 .vfadd r
  | 0x61 => rdF2 .vfsub r
  | 0x62 => rdF2 .vfmul r
  | 0x63 => r.rnd.map (fun m => .vfma r.c m r.b.dst r.va r.vo r.vc)
  | 0x64 => some (.vfmin r.c r.b.dst r.va r.vo)
  | 0x65 => some (.vfmax r.c r.b.dst r.va r.vo)
  | 0x66 => some (.vfcmp r.c (fcondOf r.x.rsc) (pName r.b.dst) r.va r.vo)
  | 0x67 => (ftypeOf r.b.mod).map (fun t => .vfclass r.c t r.b.dst r.va)
  | 0x68 => rdFR .vfrnd r
  | 0x69 => some (.vfrcp r.c r.b.dst r.va)
  | 0x6A => some (.vfrsq r.c r.b.dst r.va)
  | 0x6B => rdFR .vfsqrt r
  | 0x6C => rdF2 .vfdiv r
  | 0x6D => some (.vfexp2 r.c r.b.dst r.va)
  | 0x6E => some (.vflog2 r.c r.b.dst r.va)
  | 0x6F => some (.vfsin r.c r.b.dst r.va)
  | 0x70 => some (.vfcos r.c r.b.dst r.va)
  | 0x71 => some (.vftanh r.c r.b.dst r.va)
  | 0x72 =>
    match tyOf (r.x.sc.extractLsb' 0 4), tyOf r.x.ty, r.rnd with
    | some t, some f, some m => some (.vcvt r.c t f m r.b.dst r.va r.vb)
    | _, _, _ => none
  | 0x73 =>
    match packOf r.b.mod, tyOf r.x.ty, r.rnd with
    | some k, some t, some m => some (.vpack r.c k t m r.b.dst r.va r.vb r.vc)
    | _, _, _ => none
  | 0x74 => (tyOf r.x.ty).map (fun t => .vunpack r.c t r.b.mod r.b.dst r.va)
  | 0x75 => rdH2 .vhadd2 r
  | 0x76 => rdH2 .vhmul2 r
  | 0x77 => rdH2 (fun c t m d a b => .vhfma2 c t m d a b r.vc) r
  | 0x78 => rdSF .sfadd r
  | 0x79 => rdSF .sfmul r
  | 0x7A =>
    match ftypeOf r.b.mod, r.rnd with
    | some t, some m => some (.sfma r.c t m (sName r.b.dst) (sName r.b.sa) (sName r.b.sb) (sName r.x.sc))
    | _, _ => none
  | 0x7B =>
    match tyOf (r.x.sc.extractLsb' 0 4), tyOf r.x.ty, r.rnd with
    | some t, some f, some m => some (.sfcvt r.c t f m (sName r.b.dst) (sName r.b.sa) (sName r.b.sb))
    | _, _, _ => none
  | 0x88 =>
    (shflOf r.b.mod).map (fun o => .vshfl r.c o r.b.dst r.va
      (if r.len = .short then (if o = .idx then .v r.vb else .s (sName r.b.sb)) else .imm r.imm))
  | 0x89 => some (.vbcast r.c r.m0 r.b.dst r.va (r.ub .short))
  | 0x8A => some (.vprmt r.c r.b.dst r.va r.vb (if r.len = .long then .v r.vc else .imm r.imm))
  | 0x8B =>
    let t : Option ScanTy := match r.x.ty with | 0 => some .i32 | 1 => some .n32 | 4 => some .f32 | _ => none
    let o : Option ScanOp :=
      match r.b.mod.extractLsb' 1 2 with | 0 => some .add | 1 => some .min | 2 => some .max | _ => none
    match t, o with
    | some t, some o =>
      some (.vscan r.c o r.m0 t r.b.dst r.va (if on r.x.flg then some (pName r.b.sb) else none))
    | _, _ => none
  | 0x8C => some (.vdrop r.c r.m0 (pName r.b.dst) r.ctr (sName r.b.sb) r.uc)
  | 0x8D => some (.vhash r.c r.m0 r.b.dst r.ctr (sName r.b.sb))
  | 0x90 => rdMU (fun c t b o => some (.sld c t (on r.x.flg) (sName r.b.dst) b o)) r
  | 0x91 => rdMU (fun c t b o => some (.sst c t b o (sName r.b.sb))) r
  | 0x92 => rdM (fun c t ad o => some (.vld c t (on r.x.flg) r.b.dst ad o)) r
  | 0x93 => rdM (fun c t ad o => some (.vst c t ad o r.vb)) r
  | 0x94 => rdM (fun c t ad o => some (.vlds c t r.b.dst ad o)) r
  | 0x95 => rdM (fun c t ad o => some (.vsts c t ad o r.vb)) r
  | 0x96 => rdMU (fun c t b o => some (.slds c t (sName r.b.dst) b o)) r
  | 0x97 => rdMU (fun c t b o => some (.ssts c t b o (sName r.b.sb))) r
  | 0x98 => rdM (fun c t ad o => r.scope.map (fun s => .vldq c t s r.x8 r.b.dst ad o)) r
  | 0x99 => rdM (fun c t ad o => r.scope.map (fun s => .vstl c t s ad o r.vb)) r
  | 0x9A => rdMU (fun c t b o => r.scope.map (fun s => .sldq c t s r.x8 (sName r.b.dst) b o)) r
  | 0x9B => rdMU (fun c t b o => r.scope.map (fun s => .sstl c t s b o (sName r.b.sb))) r
  | 0x9C => rdM (fun c t ad o => rdAtom (fun k aq rl s => some (.vatom c k aq rl t s r.b.dst ad o r.vb r.vc)) r) r
  | 0x9D =>
    rdMU (fun c t b o =>
      rdAtom (fun k aq rl s => some (.satom c k aq rl t s (sName r.b.dst) b o (sName r.b.sb) (sName r.x.sc))) r) r
  | 0x9E => rdM (fun c t ad o => some (.vlr c t r.b.dst ad o)) r
  | 0x9F => rdM (fun c t ad o => some (.vsc c t (pName r.b.dst) ad o r.vb)) r
  | 0xA0 => r.scope.map (fun s => .fence r.c s)
  | 0xA1 => r.scope.map (fun s => .acq r.c s r.x8)
  | 0xA2 => r.scope.map (fun s => .rel r.c s)
  | 0xA3 => rdMU (fun c _ b o => some (.invr c b o (sName r.b.sb))) r
  | 0xA4 => some (.inva r.c)
  | 0xA5 => rdM (fun c t ad o => some (.reg c t ad o)) r
  | 0xA6 => rdM (fun c t ad o => some (.dereg c t ad o)) r
  | 0xA7 => rdM (fun c t ad o => some (.pref c t ad o)) r
  | 0xA8 =>
    rdMU (fun c t b o =>
      some (.waita c t (wcondOf (r.x8.extractLsb' 0 2)) (sName r.b.dst) b o (sName r.b.sb)
        (if r.len = .wide then some (sName r.x.sc) else none))) r
  | 0xB0 => some (.xfer r.c (sName r.b.sa))
  | 0xB1 => some (.msgsend r.c r.b.mod (sName r.b.sa))
  | 0xB2 => some (.msgrecv r.c r.m0 (sName r.b.dst) (sName r.b.sa))
  | 0xB3 => rdS2 .msgfree r
  | 0xB4 => rdS2 .barinit r
  | 0xB5 => some (.bararr r.c r.m0 (sName r.b.dst) (sName r.b.sa) (sName r.b.sb))
  | 0xB6 => rdS2 .barwait r
  | 0xB7 => rdS3 .bartry r
  | 0xC0 =>
    some (.mma r.c r.m0 r.m1 (cName r.b.dst) (sName r.b.sa) (r.hi.extractLsb' 0 20) (sName r.b.sb) (r.hi.extractLsb' 20 20))
  | 0xC1 =>
    some (.mmas r.c r.m0 r.m1 (cName r.b.dst) (sName r.b.sa) (r.hi.extractLsb' 0 20) (sName r.b.sb)
      (r.hi.extractLsb' 20 20))
  | 0xC2 =>
    some (.mscale r.c r.m0 r.m1 (cName r.b.dst) (cName r.b.sa) r.vb (r.hi.extractLsb' 0 6) (r.hi.extractLsb' 6 20))
  | 0xC3 => some (.mzero r.c (cName r.b.dst))
  | 0xC4 =>
    match tyOf r.x.ty, r.rnd with
    | some t, some m => some (.mcvt r.c r.m0 t m r.b.dst (cName r.b.sa) (sName r.b.sb))
    | _, _ => none
  | 0xC5 => some (.tfpin r.c (sName r.b.dst) (sName r.b.sa))
  | 0xC6 => some (.tfrel r.c r.m0 (sName r.b.sa))
  | 0xC8 => (bcondOf r.b.mod).map (fun k => .bra r.c k (sName r.b.sa) r.ext)
  | 0xC9 => some (.brv r.c r.ext r.imm)
  | 0xCA => some (.brx r.c r.va (sName r.b.sb) (sName r.x.sc) r.imm)
  | 0xCB => some (.call r.c (if r.m0 then .w r.b.dst else .s (sName r.b.dst)) r.ext)
  | 0xCC => some (.ret r.c (if r.m0 then .w r.b.sa else .s (sName r.b.sa)))
  | 0xCD => some (.exit r.c)
  | 0xCE => some (.sync r.c)
  | 0xCF => some (.waitq r.c r.m0)
  | 0xD0 => some (.yield r.c)
  | 0xD1 => some (.nop r.c)
  | 0xD2 => some (.trap r.c (r.ext.setWidth 16))
  | 0xD3 => some (.bkpt r.c)
  | 0xD4 => some (.svc r.c r.m0 r.b.sa r.ext)
  | 0xD5 => rdS3 .qpost r
  | 0xD6 => some (.reggrow r.c (sName r.b.dst) r.n)
  | 0xD7 => some (.regshrink r.c r.n)
  | 0xD8 => some (.srd r.c (sName r.b.dst) r.ext)
  | 0xD9 => some (.swr r.c r.ext (sName r.b.sa))
  | 0xE0 => some (.sres r.c r.m0 (sName r.b.sa) (sName r.b.sb))
  | 0xE1 => rdS3 .pctxsv r
  | 0xE2 => rdS3 .pctxld r
  | 0xE3 =>
    (tlbOf (r.b.mod.setWidth 2)).map (fun m => .tlbinv r.c m r.m2 (sName r.b.sa) (sName r.b.sb))
  | 0xE4 => rdS3 .mbxsend r
  | 0xE5 => some (.mbxrecv r.c r.m0 (sName r.b.dst))
  | 0xE6 => rdS2 .zap r
  | 0xE7 => some (.halt r.c)
  | 0xE8 => some (.iret r.c)
  | 0xE9 =>
    match r.b.mod with
    | 0 => some (.pstop r.c (sName r.b.dst) (sName r.b.sa))
    | 1 => some (.pstopGo r.c (sName r.b.dst) (sName r.b.sa))
    | 2 => some (.pstopEnd r.c (sName r.b.dst) (sName r.b.sa) (sName r.b.sb))
    | _ => none
  | 0xEA => some (.swrp r.c r.ext (sName r.b.sa))
  | _ => none

/-- A word as the decoder reads it. -/
def Word.rd (w : Word) (l : Len) : Rd := ⟨l, Base.ofBits w.base, LX.ofBits w.ext, w.ext, w.imm⟩

/-- OP is assigned (check 5 of R112, R123). -/
def opAssigned (op : Nat) : Bool :=
  op ≤ 0x1B || (0x20 ≤ op && op ≤ 0x31) || (0x38 ≤ op && op ≤ 0x5D) || (0x60 ≤ op && op ≤ 0x7B) ||
  (0x88 ≤ op && op ≤ 0x8D) || (0x90 ≤ op && op ≤ 0xA8) || (0xB0 ≤ op && op ≤ 0xB7) || (0xC0 ≤ op && op ≤ 0xC6) ||
  (0xC8 ≤ op && op ≤ 0xD9) || (0xE0 ≤ op && op ≤ 0xEA) || op == 0xFF

/-- The opcodes a service core executes (R125). -/
def opService (op : Nat) : Bool :=
  op ≤ 0x1B || (0x78 ≤ op && op ≤ 0x7B) || [0x90, 0x91, 0x9A, 0x9B, 0x9D, 0xA0, 0xA1, 0xA2].contains op ||
  [0xC8, 0xCB, 0xCC, 0xCD, 0xCF, 0xD0, 0xD1, 0xD2, 0xD3, 0xD4, 0xD8, 0xD9].contains op || (0xE0 ≤ op && op ≤ 0xEA)

/-- The lengths defined for an assigned opcode (R193, R220, R236, R133, R161, R268, R306, R338, R360). -/
def opLens (op : Nat) : List Len :=
  if op == 0xFF then [.wide]
  else if op ≤ 0x13 || op == 0x16 then [.short, .long]
  else if [0x17, 0x1A, 0x1B].contains op then [.long, .wide]
  else if op == 0x18 then [.long]
  else if op ≤ 0x1B then [.short]
  else if op == 0x20 then [.wide]
  else if [0x23, 0x24, 0x25, 0x26, 0x29].contains op then [.short, .long]
  else if op ≤ 0x31 then [.short]
  else if op == 0x3D then [.long]
  else if [0x46, 0x4E, 0x4F, 0x50, 0x51, 0x55].contains op then [.short]
  else if op ≤ 0x51 then [.short, .long, .wide]
  else if op == 0x52 then [.short, .wide]
  else if op == 0x54 || op == 0x58 then [.long]
  else if op ≤ 0x57 then [.long, .wide]
  else if op ≤ 0x5D then [.short]
  else if op == 0x63 then [.long]
  else if op == 0x66 then [.long, .wide]
  else if op == 0x68 || op == 0x6B then [.short, .long]
  else if [0x67, 0x69, 0x6A, 0x6D, 0x6E, 0x6F, 0x70, 0x71].contains op then [.short]
  else if [0x72, 0x73, 0x74, 0x77, 0x7A, 0x7B].contains op then [.long]
  else if op ≤ 0x7B then [.short, .long, .wide]
  else if op == 0x88 then [.short, .wide]
  else if op == 0x89 then [.short, .long]
  else if op == 0x8A || op == 0x8C then [.long, .wide]
  else if op == 0x8B then [.long]
  else if op == 0x8D then [.short]
  else if op == 0x9C || op == 0x9D then [.wide]
  else if op ≤ 0xA8 then [.short, .wide]
  else if op ≤ 0xB7 then [.short]
  else if op ≤ 0xC2 then [.wide]
  else if op == 0xC4 then [.long]
  else if op ≤ 0xC6 then [.short]
  else if op == 0xC8 || op == 0xCB then [.long]
  else if op == 0xC9 || op == 0xCA then [.wide]
  else if op == 0xD2 || op == 0xD4 || op == 0xD8 || op == 0xD9 || op == 0xEA then [.long]
  else if op == 0xD6 || op == 0xD7 then [.short, .long]
  else [.short]

/-- The short word of an opcode with a MOD and register fields, unguarded and with no token (R106). -/
def shortWord (op m d a b : Nat) : Word :=
  ⟨BitVec.ofNat 64 (1 + op * 2 ^ 2 + 7 * 2 ^ 19 + 7 * 2 ^ 22 + d * 2 ^ 26 + a * 2 ^ 37 + b * 2 ^ 48 + m * 2 ^ 61), 0, 0⟩

/-- The short form of an operation accepts a MOD with some registers; an operation without a short form has nothing checked here. -/
def shortModOk (op m : Nat) : Bool :=
  !(opAssigned op && (opLens op).contains .short) ||
  (List.range 8).any (fun k =>
    let w := shortWord op m (k % 2) (k / 2 % 2) (k / 4)
    match parse (w.rd .short) with
    | none => false
    | some i => decide (encode i = some w) && (wfOn false i || wfOn true i))

/-- Check 8 of R112 on a half's MOD: 111 is no type, and the rest is as the short form of the operation checks it (R119, R121). -/
def halfModOk (op : Nat) (m : Nat) : Bool :=
  if m == 7 then false
  else if (hopOf (BitVec.ofNat 8 op)).isNone then shortModOk op m
  else if [0x3B, 0x4A, 0x4B].contains op then m == 0 || m == 2
  else if [0x3C, 0x4C, 0x4D].contains op then m == 1 || m == 3
  else if op ≤ 0x55 then m ≤ 3
  else if op == 0x75 || op == 0x76 then 5 ≤ m && m ≤ 6
  else m == 4

/-- The 53 bits of a half, and its fields (R119). -/
def halfRm (h : BitVec 53) : BitVec 2 := h.extractLsb' 50 2
def halfMod (h : BitVec 53) : BitVec 3 := h.extractLsb' 47 3
def halfOp (h : BitVec 53) : BitVec 8 := h.extractLsb' 0 8

/-- The field checks of a half: its reserved bit, MOD, RM and unused fields (R119, R121 rule 1). -/
def halfFieldsOk (h : BitVec 53) : Bool :=
  !h.getLsbD 52 && halfModOk (halfOp h).toNat (halfMod h).toNat &&
  (match hopOf (halfOp h) with
    | some o => (o.isFloat || halfRm h == 0) && (!o.unary || (h.extractLsb' 34 11 == 0 && !h.getLsbD 46))
    | none => (0x60 ≤ (halfOp h).toNat && (halfOp h).toNat ≤ 0x7B) || halfRm h == 0)

/-- A half whose operation and type R120 lists. -/
def halfOf (h : BitVec 53) : Option Half :=
  match hopOf (halfOp h), tyOf ((halfMod h).setWidth 4), rndOf ((halfRm h).setWidth 3) with
  | some o, some t, some r =>
    if o.tyOk t then
      some { op := o, guard := h.extractLsb' 8 4, rnd := r, ty := t, d := h.extractLsb' 12 11,
             a := ⟨h.extractLsb' 23 11, h.getLsbD 45⟩, b := ⟨h.extractLsb' 34 11, h.getLsbD 46⟩ }
    else none
  | _, _, _ => none

/-- The 128 bits of a wide word. -/
def Word.wide (w : Word) : BitVec 128 := w.imm ++ (w.ext ++ w.base)

/-- A dovetail word, checks 8 and 9 of R112. -/
def decodeDovetail (w : Word) : Except DecErr Instr :=
  let x := w.wide.extractLsb' 22 53
  let y := w.wide.extractLsb' 75 53
  let b := Base.ofBits w.base
  if b.setq == 6 || !halfFieldsOk x || !halfFieldsOk y then .error .illegalField
  else
    match halfOf x, halfOf y with
    | some hx, some hy =>
      if pairOk hx hy then .ok (.dovetail ⟨.wide, b.stall, b.waitm, b.setq, 7⟩ hx hy) else .error .illegalPair
    | _, _ => .error .illegalPair

/-- Checks 3 and 5 to 9 of R112 on one word, on a compute core or a service core. -/
def decodeWord (service : Bool) (w : Word) : Except DecErr Instr :=
  let op := ((Base.ofBits w.base).op).toNat
  match lenOf (Base.ofBits w.base).len with
  | none => .error .illegalOp
  | some l =>
    if !opAssigned op then .error .illegalOp
    else if !service && 0xE0 ≤ op && op ≤ 0xEF then .error .privilege
    else if service && !opService op then .error .illegalOp
    else if !(opLens op).contains l then .error .illegalOp
    else if op == 0xFF then decodeDovetail w
    else
      match parse (w.rd l) with
      | none => .error .illegalField
      | some i => if encode i = some w && wfOn service i then .ok i else .error .illegalField

/-- The number whose bytes, least significant first, are the list (R8). -/
def leNat : List Byte → Nat
  | [] => 0
  | b :: bs => b.toNat + 256 * leNat bs

/-- Bits above an instruction's own length are not part of its word. -/
def trimWord (w : BitVec 128) : Word :=
  match lenOf (w.extractLsb' 0 2) with
  | some .wide => ⟨w.extractLsb' 0 64, w.extractLsb' 64 32, w.extractLsb' 96 32⟩
  | some .long => ⟨w.extractLsb' 0 64, w.extractLsb' 64 32, 0⟩
  | _ => ⟨w.extractLsb' 0 64, 0, 0⟩

/-- The decoder on any bytes: the word they begin with (bytes that are not there read as 0), its checks, and the bytes
after it. A refusal keeps no bytes. -/
def decode (service : Bool) (bs : List Byte) : Except DecErr (Instr × List Byte) :=
  let w := BitVec.ofNat 128 (leNat (bs.take 16))
  match decodeWord service (trimWord w) with
  | .error e => .error e
  | .ok i =>
    .ok (i, bs.drop (match lenOf (w.extractLsb' 0 2) with | some l => l.bytes | none => 0))

/-- The bytes of a word in memory order (R8). -/
def Word.toBytes (w : Word) : List Byte :=
  let n := match lenOf (Base.ofBits w.base).len with | some l => l.bytes | none => 8
  (List.range n).map (fun i => w.wide.extractLsb' (8 * i) 8)

/-- The instruction that the decoder reads from the table's bits: they are laid out as bytes, least significant first. A
word with an opcode of the privileged group is read as a service core reads it. -/
def decodeTableWord (nbits w : Nat) : Option Instr :=
  let bs := (List.range 16).map (fun i => BitVec.ofNat 8 ((w % 2 ^ nbits) >>> (8 * i)))
  let op := (w >>> 2) % 256
  match decode (decide (0xE0 ≤ op ∧ op ≤ 0xEF)) bs with
  | .ok (i, _) => some i
  | .error _ => none

end Sys2Proof
end

