-- ==== Sys2Proof/Machine/Fetch.lean ====
section
/-! DEFINITION. Instruction fetch: the block at a split's PC through the core's instruction buffer, checks 1 to 9 of R112,
and the walks that translations wait for (R51, R105, R112, R433). -/

namespace Sys2Proof.Machine

/-- What reading a fetch block comes to: its bytes, a word that cannot be read with its code, or a wait. -/
inductive Block
  | ok (bs : List Byte) (s : State)
  | fault (off code : Nat)
  | busy (s : State)

/-- Read the 32-byte block at a physical address at the homes of its words, by RDN (R433). Fetches are never checked for races
(R73). -/
def State.readBlock (s : State) (agent pa : Nat) : Block :=
  if isHost pa then .ok ((List.range 32).map (fun i => s.byte (pa + i))) s
  else
    (List.range 8).foldl (fun (r : Block) i =>
      match r with
      | .ok bs s =>
        match s.readWord ⟨agent, false⟩ (pa / 4 + i) 15 with
        | .ok (d, s) => .ok (bs ++ bytesOf 4 d.toNat) s
        | .fault c => .fault (4 * i) c
        | .busy s => .busy s
      | r => r) (.ok [] s)

/-- What the fetch at a split's PC comes to: the bytes from the PC to the end of its block, a fault, or a wait. -/
inductive Fetched
  | bytes (v : View) (bs : List Byte)
  | flaw (v : View) (f : FaultRec)
  | wait (s : State)

/-- A fetch fault's record: KIND 3, LANE 127 (R43). -/
def View.fetchFault (v : View) (code : Nat) (fva : Nat) (reason level : Nat) : FaultRec :=
  v.faultRec code (BitVec.ofNat 64 fva) reason level kFetch 127 0

/-- The record of a fetch whose translation fails: that of a walker's read has KIND 6 (R43). -/
def View.fetchFlaw (v : View) (f : Flaw) (pc : Nat) : FaultRec :=
  v.faultRec f.code (BitVec.ofNat 64 pc) f.reason f.level (kindOf f.code kFetch) 127 0

/-- Fetch the block of the split's PC: translate it with KIND 3, and read it unless the core's buffer holds it (R105, R112
check 1, R433). -/
def View.fetch (v : View) : Fetched :=
  let pc := v.sp.pc.toNat
  let q : Who := ⟨v.s.partOfAgent v.ag, v.svc, kFetch, false⟩
  match v.page pc false with
  | (.walk, w) => .wait w.close
  | (.flaw f, w) => .flaw w (w.fetchFlaw f pc)
  | (.leaf leaf level, w) =>
    match leafFlaw q leaf level with
    | some f => .flaw w (w.fetchFlaw f pc)
    | none =>
      let pa := leafPa leaf level pc
      match w.s.paFlaw q leaf level pa with
      | some f => .flaw w (w.fetchFlaw f pc)
      | none =>
        match look w.co.ibuf (pa / 32) with
        | some bs => .bytes w (bs.drop (pc % 32))
        | none =>
          match (w.s.setCore w.ag w.co).readBlock w.ag (pa / 32 * 32) with
          | .busy s => .wait s
          | .fault off c => .flaw w (w.fetchFault c (pc / 32 * 32 + off) 0 0)
          | .ok bs s =>
            let s := if isHost pa then s else s.bindFrame pa (leafAttr leaf)
            let co : Core := s.core w.ag
            .bytes { w with s := s, co := { co with ibuf := ins co.ibuf (pa / 32) bs } } (bs.drop (pc % 32))

/-- The code of a word that the decoder refuses (R112 checks 3 to 9). -/
def decCode : DecErr → Nat
  | .illegalOp => fcIllegalOp
  | .privilege => fcPrivilege
  | .illegalField => fcIllegalField
  | .illegalPair => fcIllegalPair

/-- What the next issue of a split comes to: an instruction to execute with its opcode, a word or a fetch that faults, with the check of
R112 that it fails, or nothing yet. -/
inductive Looked
  | run (i : Instr) (op : Nat) (s : State)
  | flaw (check : Nat) (v : View) (f : FaultRec)
  | wait (s : State)

/-- Checks 1 to 9 of R112 at a split that can issue. Checks 5 to 9 are made once the word's waits are over: its WAITM, and a SETQ
token at 63 (R115). -/
def View.lookIssue (v : View) : Looked :=
  match v.fetch with
  | .wait s => .wait s
  | .flaw w f => .flaw 1 w f
  | .bytes w bs =>
    let pc := w.sp.pc.toNat
    if pc % 4 ≠ 0 then .flaw 2 w (w.faultRec fcFetchAlign w.sp.pc 0 0 0 127 0)
    else
      let b0 := ofBytes (bs.take 8)
      match lenOf (BitVec.ofNat 2 b0) with
      | none => .flaw 3 w (w.faultRec fcIllegalOp 0 0 0 0 127 0)
      | some l =>
        if 32 < pc % 32 + l.bytes then .flaw 4 w (w.faultRec fcFetchAlign w.sp.pc 0 0 0 127 0)
        else
          match decode w.svc bs with
          | .ok (i, _) => .run i (b0 / 4 % 256) w.close
          | .error e =>
            let setq := b0 / 2 ^ 19 % 8
            match w.tokensAt (BitVec.ofNat 6 (b0 / 2 ^ 13)) with
            | none => .wait w.close
            | some t =>
              let x := ({ w with now := t } : View).settle
              if setq < 6 && 63 ≤ x.sp.tok.getD setq 0 then .wait w.close
              else .flaw 5 { w with now := t } (w.faultRec (decCode e) 0 0 0 0 127 0)

/-- The tokens that an instruction waits for at issue (R115, R313). -/
def waitsOf (i : Instr) : BitVec 6 :=
  match i with
  | .waitq _ true => 0x3F
  | _ => match ctlOf i with | some c => c.waitm | none => 0

/-- The cycle from which a split that can issue has been issuable without a break (R337): it was READY, its STALL had passed, and the tokens
that its word waits for had fallen; none while it waits for one. -/
def View.issuableFrom (v : View) : Option Nat :=
  match v.lookIssue with
  | .run i _ _ =>
    if (List.range 6).all (fun q => !(waitsOf i).getLsbD q || v.sp.tok.getD q 0 == 0) then
      some ((List.range 6).foldl (fun t q => if (waitsOf i).getLsbD q then max t (v.sp.tokAt.getD q 0) else t) (max v.sp.since v.sp.next))
    else none
  | .flaw _ _ _ => some (max v.sp.since v.sp.next)
  | .wait _ => none

/-- The split is overdue (R337): it has been issuable for 1,024 consecutive cycles without issuing. -/
def View.overdue (v : View) : Bool :=
  decide (max v.sp.since v.sp.next + 1024 ≤ v.co.cycle) && v.canIssue &&
  (match v.issuableFrom with | some t => decide (t + 1024 ≤ v.co.cycle) | none => false)

/-- The split at a site may be selected to issue: it can issue, it does not stand at its heel with ready tokens (R298), it does
not owe the issue to a sibling, unless it is overdue (R302, R337), and it meets no sibling, with which it would merge first (R299). -/
def State.selectable (s : State) (p : Site) : Option View :=
  match s.viewAt p with
  | none => none
  | some v =>
    if v.canIssue && !v.atHeel && (!v.mustYield || v.overdue) && (List.range 4).all (fun j => (s.meets p j).isNone) then some v else none

/-- OVERDUE_SPLIT (R337): a split that has been issuable for 1,024 cycles without issuing takes the next word. -/
def execOverdueSplit (n slot i : Nat) (s : State) : Host.Outcome State Fault Refusal :=
  match s.viewAt ⟨n, slot, i⟩ with
  | none => .next s
  | some v => .next (if v.overdue then { s with agenda := .issue ⟨n, slot, i⟩ :: s.agenda } else s)

/-- INSTRUCTION_FETCH_FAULT (R112): the fetch or the decoding at the split's PC fails, and the fault is raised there. Where it
does not fail, nothing happens. -/
def execInstructionFetchFault (n slot i : Nat) (s : State) : Host.Outcome State Fault Refusal :=
  match s.selectable ⟨n, slot, i⟩ with
  | none => .next s
  | some v =>
    match v.lookIssue with
    | .flaw _ w f => .next (w.raise f)
    | .run _ _ _ => .next s
    | .wait t => .next t

/-- WALK_READ_ANSWER (R42, R51). -/
def execWalkReadAnswer (k : Nat) (s : State) : Host.Outcome State Fault Refusal := .next (s.walkStep k)

end Sys2Proof.Machine
end

