-- ==== Sys2Proof/Machine/Special.lean ====
section
/-! DEFINITION. The special functions (R243). The exact cases and the flags are the manual's. Where the manual gives an
error bound only, the result is a free value of Config held to that bound: a value outside the bound is replaced by the
rounded exact result. The exact result is computed in fixed point with 512 fraction bits, far below every bound. -/

namespace Sys2Proof.Machine

/-- The fraction bits of the fixed-point values below. -/
def fxF : Nat := 512

/-- ln 2 in fixed point, rounded down. -/
def fxLn2 : Nat := 0xb17217f7d1cf79abc9e3b39803f2f6af40f343267298b62d8a0d175b8baafa2be7b876206debac98559552fb4afa1b10ed2eae35c138214427573b291169b825

/-- π / 2 in fixed point, rounded down. -/
def fxHalfPi : Nat := 0x1921fb54442d18469898cc51701b839a252049c1114cf98e804177d4c76273644a29410f31c6809bbdf2a33679a748636605614dbe4be286e9fc26adadaa3848b

/-- One in fixed point. -/
def fxOne : Nat := 2 ^ fxF

/-- A product of fixed-point values. -/
def fxMul (a b : Nat) : Nat := (a * b) >>> fxF

/-- A magnitude m × 2^e in fixed point, rounded down. -/
def fxOf (m : Nat) (e : Int) : Nat := let s := e + fxF; if 0 ≤ s then shl m s else m >>> (-s).toNat

/-- The sum of the first terms of y^k / k!, from the term `t` of index `k` on. -/
def fxExpSum (y : Nat) : Nat → Nat → Nat → Nat
  | 0, _, _ => 0
  | n + 1, k, t => t + fxExpSum y n (k + 1) (fxMul t y / (k + 1))

/-- e^y for 0 ≤ y < 1 in fixed point. -/
def fxExp (y : Nat) : Nat := fxExpSum y 110 0 fxOne

/-- The alternating sum of every second term: cos from index 0, sin from index 1. -/
def fxTrigSum (y2 : Nat) : Nat → Nat → Int → Int
  | 0, _, _ => 0
  | n + 1, k, t => t + fxTrigSum y2 n (k + 2) (-((t * y2) / (2 ^ fxF : Nat) / ((k + 1) * (k + 2) : Nat)))

/-- sin y and cos y for 0 ≤ y < 2 in fixed point. -/
def fxSin (y : Nat) : Int := fxTrigSum (fxMul y y) 70 1 y
def fxCos (y : Nat) : Int := fxTrigSum (fxMul y y) 70 0 fxOne

/-- The sum of z^k / k over odd k, from the power `t` of index `k` on. -/
def fxAtanhSum (z2 : Nat) : Nat → Nat → Nat → Nat
  | 0, _, _ => 0
  | n + 1, k, t => t / k + fxAtanhSum z2 n (k + 2) (fxMul t z2)

/-- ln of a fixed-point value in [1, 2). -/
def fxLn (x : Nat) : Nat :=
  let z := ((x - fxOne) <<< fxF) / (x + fxOne)
  2 * fxAtanhSum (fxMul z z) 170 1 z

/-- 2^x for a signed fixed-point x, as a power of two and a fixed-point mantissa. -/
def fxExp2 (x : Int) : Int × Nat :=
  let n := x / (2 ^ fxF : Nat)
  (n, fxExp (fxMul (x - n * (2 ^ fxF : Nat)).toNat fxLn2))

/-- The sine, or the cosine, of a fixed-point magnitude (R243). -/
def fxTrig (cosine : Bool) (x : Nat) : Int :=
  let y := x % fxHalfPi
  match (x / fxHalfPi + b2n cosine) % 4 with
  | 0 => fxSin y
  | 1 => fxCos y
  | 2 => -(fxSin y)
  | _ => -(fxCos y)

/-- `r` lies within 2^tol of num × 2^ex, up to the error of the fixed-point value. -/
def near (r : FV) (num ex tol : Int) : Bool :=
  match r with
  | .fin n m e =>
    let q := min (min e ex) tol
    decide ((sgnMag n (shl m (e - q)) - num * (2 ^ (ex - q).toNat : Nat)).natAbs ≤ 2 ^ (tol - q).toNat + 2 ^ (ex + 20 - q).toNat)
  | _ => false

/-- The binade of num × 2^ex. -/
def binade (num ex : Int) : Int := (num.natAbs.log2 : Int) + ex

/-- A finite value below 2^−126: a zero or a subnormal. -/
def FV.tiny (r : FV) : Bool := match r with | .fin _ m e => decide (m = 0) || decide ((m.log2 : Int) + e < -126) | _ => false

/-- Within 2^k ulp of num × 2^ex, an ulp being the spacing of FP32 values at its binade; a zero or subnormal result, which only a value
below 2^−126 has, is held to no bound (R243). -/
def ulps (k : Nat) (r : FV) (num ex : Int) : Bool :=
  near r num ex (max (binade num ex - 23) (-149) + k) || (decide (binade num ex < -126) && r.tiny)

/-- The sine and cosine bound: 2 ulp, or 2^−44 below 2^−20 (R243). -/
def trigOk (r : FV) (num ex : Int) : Bool :=
  if binade num ex < -20 then near r num ex (-44) else near r num ex (binade num ex - 22)

/-- A result that the manual bounds: the free value if `ok`, else the rounded exact one; NX always, UF for a subnormal or
zero result, OF for an infinite one (R243). -/
def bounded (free : W32) (ok : FV → Bool) (num ex : Int) : FR :=
  let b := if ok (fp32.unpack free.toNat) then free.toNat
    else (fp32.round .rne false 0 (decide (num < 0)) num.natAbs ex).1
  ⟨BitVec.ofNat 64 b, flNX + (if (b >>> 23) % 256 = 0 then flUF else 0) + (if (b >>> 23) % 256 = 255 then flOF else 0)⟩

/-- An exact FP32 result. -/
def exactly (neg : Bool) (m : Nat) (e : Int) (fl : Nat) : FR :=
  ⟨BitVec.ofNat 64 (fp32.round .rne false 0 neg m e).1, fl⟩

/-- An infinity. -/
def infinity (neg : Bool) (fl : Nat) : FR := ⟨BitVec.ofNat 64 (fp32.infBits neg), fl⟩

/-- The NaN of a NaN source, or of an invalid one. -/
def nanFR (fl : Nat) : FR := ⟨BitVec.ofNat 64 fp32.qnan, fl⟩

/-- `m` is a power of two. -/
def pow2 (m : Nat) : Bool := decide (m ≠ 0) && decide (m = 2 ^ m.log2)

/-- VFRCP. -/
def opFrcp (x : W64) : FR :=
  match fp32.get x with
  | .nan s => nanFR (if s then flNV else 0)
  | .inf n => exactly n 0 0 0
  | .fin n m e =>
    if m = 0 then infinity n flDZ
    else
      let top := (m.log2 : Int) + e
      if pow2 m && decide (-top ≤ 127) && decide (-126 ≤ -top) then exactly n 1 (-top) 0
      else if top < -128 || (pow2 m && decide (top = -128)) then infinity n (flOF + flNX)
      else
        let num := sgnMag n ((2 ^ (m.log2 + 200)) / m)
        let ex := -(m.log2 : Int) - 200 - e
        bounded (Config.rcp (x.setWidth 32)) (fun r => ulps 0 r num ex) num ex

/-- VFRSQ. -/
def opFrsq (x : W64) : FR :=
  match fp32.get x with
  | .nan s => nanFR (if s then flNV else 0)
  | .inf n => if n then nanFR flNV else exactly false 0 0 0
  | .fin n m e =>
    if m = 0 then infinity n flDZ
    else if n then nanFR flNV
    else
      let top := (m.log2 : Int) + e
      if pow2 m && decide (top % 2 = 0) then exactly false 1 (-(top / 2)) 0
      else
        -- 1/√(m × 2^e) with e made even: √(2^300 / m) × 2^(−150 − e/2)
        let (m, e) := if e % 2 = 0 then (m, e) else (2 * m, e - 1)
        let num : Int := isqrt (2 ^ 300 / m) 151 0
        let ex := -150 - e / 2
        bounded (Config.rsq (x.setWidth 32)) (fun r => ulps 0 r num ex) num ex

/-- VFEXP2. -/
def opFexp2 (x : W64) : FR :=
  match fp32.get x with
  | .nan s => nanFR (if s then flNV else 0)
  | .inf n => if n then exactly false 0 0 0 else infinity false 0
  | .fin n m e =>
    let v := sgnMag n (fxOf m e)
    let i : Int := v / (2 ^ fxF : Nat)
    if 128 ≤ i then infinity false (flOF + flNX)
    else if v ≤ -150 * (2 ^ fxF : Nat) then exactly false 0 0 (flUF + flNX)
    else if v % (2 ^ fxF : Nat) = 0 then exactly false 1 i 0
    else
      let (k, y) := fxExp2 v
      bounded (Config.exp2 (x.setWidth 32)) (fun r => ulps 1 r y (k - fxF)) y (k - fxF)

/-- VFLOG2. -/
def opFlog2 (x : W64) : FR :=
  match fp32.get x with
  | .nan s => nanFR (if s then flNV else 0)
  | .inf n => if n then nanFR flNV else infinity false 0
  | .fin n m e =>
    if m = 0 then infinity true flDZ
    else if n then nanFR flNV
    else
      let top := (m.log2 : Int) + e
      if pow2 m then exactly (decide (top < 0)) top.natAbs 0 0
      else
        let l := (fxLn (fxOf m (-(m.log2 : Int))) <<< fxF) / fxLn2
        let v : Int := top * (2 ^ fxF : Nat) + l
        let inner := decide (top = -1) || decide (top = 0)
        bounded (Config.log2 (x.setWidth 32)) (fun r =>
          ulps 1 r v (-(fxF : Int)) || (inner && near r v (-(fxF : Int)) (-22))) v (-(fxF : Int))

/-- VFSIN. -/
def opFsin (x : W64) : FR :=
  match fp32.get x with
  | .nan s => nanFR (if s then flNV else 0)
  | .inf _ => nanFR flNV
  | .fin n m e =>
    if m = 0 then exactly n 0 0 0
    else
      let v := fxTrig false (fxOf m e)
      let v := if n then -v else v
      bounded (Config.sin (x.setWidth 32)) (fun r => trigOk r v (-(fxF : Int))) v (-(fxF : Int))

/-- VFCOS. -/
def opFcos (x : W64) : FR :=
  match fp32.get x with
  | .nan s => nanFR (if s then flNV else 0)
  | .inf _ => nanFR flNV
  | .fin _ m e =>
    if m = 0 then exactly false 1 0 0
    else
      let v := fxTrig true (fxOf m e)
      bounded (Config.cos (x.setWidth 32)) (fun r => trigOk r v (-(fxF : Int))) v (-(fxF : Int))

/-- VFTANH: (y − 1) / (y + 1) with y = e^(2|x|), and 1 where that differs from 1 by less than the bound. -/
def opFtanh (x : W64) : FR :=
  match fp32.get x with
  | .nan s => nanFR (if s then flNV else 0)
  | .inf n => exactly n 1 0 0
  | .fin n m e =>
    if m = 0 then exactly n 0 0 0
    else
      let a := fxOf m (e + 1)
      let v :=
        if 128 * fxOne ≤ a then fxOne - 1
        else
          let k := a / fxLn2
          let y := fxExp (a % fxLn2) <<< k
          ((y - fxOne) <<< fxF) / (y + fxOne)
      let v := sgnMag n v
      bounded (Config.tanh (x.setWidth 32)) (fun r => ulps 1 r v (-(fxF : Int))) v (-(fxF : Int))

end Sys2Proof.Machine
end

