-- ==== Sys2Proof/Machine/Float.lean ====
section
/-! DEFINITION. The float instructions and conversions (R235-R248). The class-V ones enter the special-function unit (R244). -/

namespace Sys2Proof.Machine

/-- A two-source float operation per lane of ACT; the flags of the lanes go to FPF (R208, R238). -/
def float2 (op : W64 → W64 → FR) (c : Ctl) (d : VReg) (a : VSrc) (b : VOpnd) (s : State) : Host.Outcome State Fault Refusal :=
  issue c ([.dv false d, useV 1 false a] ++ useO 2 false b) (fun v act =>
    let xs := v.vs false a
    let ys := v.vo false b imm0
    let rs := overLanes act (fun L => op (el xs L) (el ys L))
    .done ((((v.lastUse false a act).lastO false b act).orFpf (flsOf rs)).putV c false d act (valsOf rs) latVF)) s

/-- A one-source float operation. -/
def float1 (op : W64 → FR) (c : Ctl) (d : VReg) (a : VSrc) (s : State) : Host.Outcome State Fault Refusal :=
  issue c [.dv false d, useV 1 false a] (fun v act =>
    let xs := v.vs false a
    let rs := overLanes act (fun L => op (el xs L))
    .done (((v.lastUse false a act).orFpf (flsOf rs)).putV c false d act (valsOf rs) latVF)) s

/-- A three-source float operation. -/
def float3 (op : W64 → W64 → W64 → FR) (c : Ctl) (d : VReg) (a : VSrc) (b : VOpnd) (cc : VSrc) (s : State) : Host.Outcome State Fault Refusal :=
  issue c ([.dv false d, useV 1 false a, useV 3 false cc] ++ useO 2 false b) (fun v act =>
    let xs := v.vs false a
    let ys := v.vo false b imm0
    let zs := v.vs false cc
    let rs := overLanes act (fun L => op (el xs L) (el ys L) (el zs L))
    .done (((((v.lastUse false a act).lastO false b act).lastUse false cc act).orFpf (flsOf rs)).putV c false d act
      (valsOf rs) latVF)) s

/-- An operation enters the special-function unit of its core (R244). -/
def View.special (v : View) (c : Ctl) (d : VReg) (m : Mask) (rs : List FR) : View :=
  let (w, q) := v.leave c (v.destV false d) false
  { w with co := { w.co with sfuq := w.co.sfuq ++
      [⟨v.slot, v.ix, v.sp.pc, v.sp.seq, v.destV false d, m, loRow (valsOf rs), [], 0, q, flsOf rs, 0, none⟩] } }

/-- A one-source class-V float operation. -/
def special1 (op : W64 → FR) (c : Ctl) (d : VReg) (a : VSrc) (s : State) : Host.Outcome State Fault Refusal :=
  issue c [.dv false d, useV 1 false a] (fun v act =>
    let xs := v.vs false a
    .done ((v.lastUse false a act).special c d act (overLanes act (fun L => op (el xs L))))) s

/-- VFADD (R238). -/
def execVfadd (c : Ctl) (r : Rnd) (d : VReg) (a : VSrc) (b : VOpnd) (s : State) : Host.Outcome State Fault Refusal :=
  float2 (opFadd fp32 r) c d a b s

/-- VFSUB (R238). -/
def execVfsub (c : Ctl) (r : Rnd) (d : VReg) (a : VSrc) (b : VOpnd) (s : State) : Host.Outcome State Fault Refusal :=
  float2 (opFsub fp32 r) c d a b s

/-- VFMUL (R238). -/
def execVfmul (c : Ctl) (r : Rnd) (d : VReg) (a : VSrc) (b : VOpnd) (s : State) : Host.Outcome State Fault Refusal :=
  float2 (opFmul fp32 r) c d a b s

/-- VFMA (R238). -/
def execVfma (c : Ctl) (r : Rnd) (d : VReg) (a : VSrc) (b : VOpnd) (cc : VSrc) (s : State) : Host.Outcome State Fault Refusal :=
  float3 (opFma fp32 r) c d a b cc s

/-- VFMIN (R239). -/
def execVfmin (c : Ctl) (d : VReg) (a : VSrc) (b : VOpnd) (s : State) : Host.Outcome State Fault Refusal := float2 (opFmm false) c d a b s

/-- VFMAX (R239). -/
def execVfmax (c : Ctl) (d : VReg) (a : VSrc) (b : VOpnd) (s : State) : Host.Outcome State Fault Refusal := float2 (opFmm true) c d a b s

/-- VFCMP (R240). -/
def execVfcmp (c : Ctl) (cond : FCond) (d : PReg) (a : VSrc) (b : VOpnd) (s : State) : Host.Outcome State Fault Refusal :=
  issue c ([.dp d, useV 1 false a] ++ useO 2 false b) (fun v act =>
    let xs := v.vs false a
    let ys := v.vo false b imm0
    let rs := overLanes act (fun L => let (x, f) := opFcmp cond (el xs L) (el ys L); ⟨BitVec.ofNat 64 (b2n x), f⟩)
    .done ((((v.lastUse false a act).lastO false b act).orFpf (flsOf rs)).putP c d act
      (maskOf (fun L => (rs.getD L ⟨0, 0⟩).val = 1)) latVF)) s

/-- VFCLASS (R241). -/
def execVfclass (c : Ctl) (ty : FType) (d : VReg) (a : VSrc) (s : State) : Host.Outcome State Fault Refusal :=
  issue c [.dv false d, useV 1 false a] (fun v act =>
    let xs := v.vs false a
    .done ((v.lastUse false a act).putV c false d act (valsOf (overLanes act (fun L => ⟨opFclass (ftFmt ty) (el xs L), 0⟩))) latVF)) s

/-- VFRND (R242). -/
def execVfrnd (c : Ctl) (r : Rnd) (d : VReg) (a : VSrc) (s : State) : Host.Outcome State Fault Refusal := float1 (opFrnd r) c d a s

/-- VFRCP (R243). -/
def execVfrcp (c : Ctl) (d : VReg) (a : VSrc) (s : State) : Host.Outcome State Fault Refusal := special1 opFrcp c d a s

/-- VFRSQ (R243). -/
def execVfrsq (c : Ctl) (d : VReg) (a : VSrc) (s : State) : Host.Outcome State Fault Refusal := special1 opFrsq c d a s

/-- VFSQRT (R238). -/
def execVfsqrt (c : Ctl) (r : Rnd) (d : VReg) (a : VSrc) (s : State) : Host.Outcome State Fault Refusal := special1 (opFsqrt r) c d a s

/-- VFDIV (R238). -/
def execVfdiv (c : Ctl) (r : Rnd) (d : VReg) (a : VSrc) (b : VOpnd) (s : State) : Host.Outcome State Fault Refusal :=
  issue c ([.dv false d, useV 1 false a] ++ useO 2 false b) (fun v act =>
    let xs := v.vs false a
    let ys := v.vo false b imm0
    .done (((v.lastUse false a act).lastO false b act).special c d act
      (overLanes act (fun L => opFdiv r (el xs L) (el ys L))))) s

/-- VFEXP2 (R243). -/
def execVfexp2 (c : Ctl) (d : VReg) (a : VSrc) (s : State) : Host.Outcome State Fault Refusal := special1 opFexp2 c d a s

/-- VFLOG2 (R243). -/
def execVflog2 (c : Ctl) (d : VReg) (a : VSrc) (s : State) : Host.Outcome State Fault Refusal := special1 opFlog2 c d a s

/-- VFSIN (R243). -/
def execVfsin (c : Ctl) (d : VReg) (a : VSrc) (s : State) : Host.Outcome State Fault Refusal := special1 opFsin c d a s

/-- VFCOS (R243). -/
def execVfcos (c : Ctl) (d : VReg) (a : VSrc) (s : State) : Host.Outcome State Fault Refusal := special1 opFcos c d a s

/-- VFTANH (R243). -/
def execVftanh (c : Ctl) (d : VReg) (a : VSrc) (s : State) : Host.Outcome State Fault Refusal := special1 opFtanh c d a s

/-- The uses of a random operand, which only SR reads (R245, R246). -/
def useR (f : Nat) (r : Rnd) (x : VSrc) : List Use := if r = .sr then [useV f false x] else []

/-- VCVT (R245). -/
def execVcvt (c : Ctl) (dst src : Ty) (r : Rnd) (d : VReg) (a rb : VSrc) (s : State) : Host.Outcome State Fault Refusal :=
  issue c ([.dv (ty64 dst) d, useV 1 (ty64 src) a] ++ useR 2 r rb) (fun v act =>
    let xs := v.vs (ty64 src) a
    let ys := if r = .sr then v.vs false rb else []
    let rs := overLanes act (fun L => cvt dst src r v.satf (fld (el ys L) 0 16) (el xs L))
    let w := (v.lastUse (ty64 src) a act).lastUse false rb act
    .done ((w.orFpf (flsOf rs)).putV c (ty64 dst) d act (valsOf rs) latVF)) s

/-- VPACK (R246): the two converted elements of a lane, and where they go; a quad keeps its other two bytes. -/
def packLane (m : PackMode) (ty : Ty) (r : Rnd) (satf : Bool) (rnd old x y : W64) : FR :=
  let p := cvt ty .f32 r satf (fld rnd 0 16) x
  let q := cvt ty .f32 r satf (fld rnd 16 16) y
  let z : Nat := match m with
    | .p2 => fld p.val 0 16 + fld q.val 0 16 * 2 ^ 16
    | .q01 => fld p.val 0 8 + fld q.val 0 8 * 2 ^ 8 + fld old 16 16 * 2 ^ 16
    | .q23 => fld old 0 16 + fld p.val 0 8 * 2 ^ 16 + fld q.val 0 8 * 2 ^ 24
  ⟨BitVec.ofNat 64 z, p.fl ||| q.fl⟩

/-- VPACK (R246). -/
def execVpack (c : Ctl) (m : PackMode) (ty : Ty) (r : Rnd) (d : VReg) (a b rb : VSrc) (s : State) : Host.Outcome State Fault Refusal :=
  issue c ([.dv false d, useV 1 false a, useV 2 false b] ++ useR 3 r rb ++ (if m = .p2 then [] else [.v 0 false d]))
    (fun v act =>
      let xs := v.vs false a
      let ys := v.vs false b
      let zs := if r = .sr then v.vs false rb else []
      let old := v.rvAll false d
      let rs := overLanes act (fun L => packLane m ty r v.satf (el zs L) (el old L) (el xs L) (el ys L))
      let w := ((v.lastUse false a act).lastUse false b act).lastUse false rb act
      .done ((w.orFpf (flsOf rs)).putV c false d act (valsOf rs) latVF)) s

/-- VUNPACK (R247). -/
def execVunpack (c : Ctl) (ty : Ty) (e : BitVec 3) (d : VReg) (a : VSrc) (s : State) : Host.Outcome State Fault Refusal :=
  float1 (unpackEl ty e.toNat) c d a s

/-- VHADD2 (R238). -/
def execVhadd2 (c : Ctl) (ty : FType) (r : Rnd) (d : VReg) (a : VSrc) (b : VOpnd) (s : State) : Host.Outcome State Fault Refusal :=
  float2 (pairOp (opFadd (ftFmt ty) r)) c d a b s

/-- VHMUL2 (R238). -/
def execVhmul2 (c : Ctl) (ty : FType) (r : Rnd) (d : VReg) (a : VSrc) (b : VOpnd) (s : State) : Host.Outcome State Fault Refusal :=
  float2 (pairOp (opFmul (ftFmt ty) r)) c d a b s

/-- VHFMA2 (R238). -/
def execVhfma2 (c : Ctl) (ty : FType) (r : Rnd) (d : VReg) (a : VSrc) (b : VOpnd) (cc : VSrc) (s : State) : Host.Outcome State Fault Refusal :=
  float3 (pairOp3 (opFma (ftFmt ty) r)) c d a b cc s

/-- SFADD (R238). -/
def execSfadd (c : Ctl) (ty : FType) (r : Rnd) (d a : SReg) (b : USrc) (s : State) : Host.Outcome State Fault Refusal :=
  issue c ([.ds d, .s 1 a] ++ useU 2 b) (fun v _ =>
    let y := opFadd (ftFmt ty) r (v.rs a) (v.us b imm0)
    .done ((v.orFpf y.fl).putS c d y.val latU)) s

/-- SFMUL (R238). -/
def execSfmul (c : Ctl) (ty : FType) (r : Rnd) (d a : SReg) (b : USrc) (s : State) : Host.Outcome State Fault Refusal :=
  issue c ([.ds d, .s 1 a] ++ useU 2 b) (fun v _ =>
    let y := opFmul (ftFmt ty) r (v.rs a) (v.us b imm0)
    .done ((v.orFpf y.fl).putS c d y.val latU)) s

/-- SFMA (R238). -/
def execSfma (c : Ctl) (ty : FType) (r : Rnd) (d a b cc : SReg) (s : State) : Host.Outcome State Fault Refusal :=
  issue c [.ds d, .s 1 a, .s 2 b, .s 3 cc] (fun v _ =>
    let y := opFma (ftFmt ty) r (v.rs a) (v.rs b) (v.rs cc)
    .done ((v.orFpf y.fl).putS c d y.val latU)) s

/-- The result of SFCVT: a signed integer is sign-extended to 64 bits (R245). -/
def sfcvtExt (dst : Ty) (x : W64) : W64 :=
  match tyInt dst with
  | some (w, true) => if w < 64 then (x.setWidth 32).signExtend 64 else x
  | _ => x

/-- SFCVT (R245). -/
def execSfcvt (c : Ctl) (dst src : Ty) (r : Rnd) (d a rb : SReg) (s : State) : Host.Outcome State Fault Refusal :=
  issue c ([.ds d, .s 1 a] ++ (if r = .sr then [.s 2 rb] else [])) (fun v _ =>
    let y := cvt dst src r v.satf (fld (v.rs rb) 0 16) (v.rs a)
    .done ((v.orFpf y.fl).putS c d (sfcvtExt dst y.val) latU)) s

end Sys2Proof.Machine
end

