-- ==== Sys2Proof/Machine/Lane.lean ====
section
/-! DEFINITION. Lane exchange, scans, and the random instructions (R249-R255). -/

namespace Sys2Proof.Machine

/-- The source lane of a shuffle, if it lies in the pack (R250). -/
def shflLane (op : Shfl) (L d : Nat) : Option Nat :=
  let j := match op with
    | .idx => some d
    | .up => if d ≤ L then some (L - d) else none
    | .dn => some (L + d)
    | .xor => some (L ^^^ d)
  match j with
  | some j => if j < 96 then some j else none
  | none => none

/-- VSHFL (R250): a lane whose source lies outside the pack keeps its own element. -/
def execVshfl (c : Ctl) (op : Shfl) (d : VReg) (a : VSrc) (b : VOpnd) (s : State) : Host.Outcome State Fault Refusal :=
  issueWide c ([.dv false d, useV 1 false a] ++ useO 2 false b) (fun v act =>
    let xs := v.vs false a
    let ys := v.vo false b imm0
    let src (L : Nat) : Nat := (shflLane op L (fld (el ys L) 0 32)).getD L
    let w := (v.lastUse false a (maskList ((lanesOf act).map src))).lastO false b act
    .done (w.putV c false d act (lanes.map (fun L => el xs (src L))) latX)) s

/-- VBCAST (R251). -/
def execVbcast (c : Ctl) (bt : Bool) (d : VReg) (a : VSrc) (i : USrc) (s : State) : Host.Outcome State Fault Refusal :=
  issueWide c ([.dv false d, useV 1 false a] ++ useU 2 i) (fun v act =>
    let xs := v.vs false a
    let k := (v.us i imm0).toNat
    let src (L : Nat) : Nat := if bt then 32 * (L / 32) + k % 32 else k % 96
    let w := v.lastUse false a (maskList ((lanesOf act).map src))
    .done (w.putV c false d act (lanes.map (fun L => el xs (src L))) latX)) s

/-- VPRMT for one lane (R253): eight source bytes and four selector nibbles. -/
def prmt (a b sel : W64) : W64 :=
  let src := fld a 0 32 + fld b 0 32 * 2 ^ 32
  let out (n : Nat) : Nat :=
    let k := (src >>> (8 * fld sel (4 * n) 3)) % 256
    if bit sel (4 * n + 3) then (if 128 ≤ k then 255 else 0) else k
  BitVec.ofNat 64 (out 0 + out 1 * 2 ^ 8 + out 2 * 2 ^ 16 + out 3 * 2 ^ 24)

/-- VPRMT (R253). -/
def execVprmt (c : Ctl) (d : VReg) (a b : VSrc) (sel : VOpnd) (s : State) : Host.Outcome State Fault Refusal :=
  issue c ([.dv false d, useV 1 false a, useV 2 false b] ++ useO 3 false sel) (fun v act =>
    let xs := v.vs false a
    let ys := v.vs false b
    let zs := v.vo false sel imm0
    let w := ((v.lastUse false a act).lastUse false b act).lastO false sel act
    .done (w.putV c false d act (lanes.map (fun L => prmt (el xs L) (el ys L) (el zs L))) latX)) s

/-- The operation of a scan and its identity (R252). -/
def scanOp (op : ScanOp) (ty : ScanTy) (x y : W64) : FR :=
  match ty, op with
  | .f32, .add => opFadd fp32 .rne x y
  | .f32, .min => opFmm false x y
  | .f32, .max => opFmm true x y
  | .i32, .add => ⟨opAdd .i32 x y, 0⟩
  | .i32, .min => ⟨opMin .i32 x y, 0⟩
  | .i32, .max => ⟨opMax .i32 x y, 0⟩
  | .n32, .add => ⟨opAdd .n32 x y, 0⟩
  | .n32, .min => ⟨opMinn .n32 x y, 0⟩
  | .n32, .max => ⟨opMaxn .n32 x y, 0⟩

/-- The identity of a scan (R252). -/
def scanId (op : ScanOp) (ty : ScanTy) : W64 :=
  match ty, op with
  | _, .add => 0
  | .f32, .min => 0x7F800000
  | .f32, .max => 0xFF800000
  | .i32, .min => 0x7FFFFFFF
  | .i32, .max => 0x80000000
  | .n32, .min => 0xFFFFFFFF
  | .n32, .max => 0

/-- The scan over the lanes given (R252): the lane results and the flags. -/
def scan (op : ScanOp) (ty : ScanTy) (ex : Bool) (heads : Mask) (xs : List W64) : List Nat → W64 → List (Nat × W64) × Nat
  | [], _ => ([], 0)
  | L :: ls, acc =>
    let acc := if heads.getLsbD L then scanId op ty else acc
    let y := scanOp op ty acc (el xs L)
    let (rest, fl) := scan op ty ex heads xs ls y.val
    ((L, if ex then acc else y.val) :: rest, y.fl ||| fl)

/-- The value that a list of lane results gives a lane. -/
def pick (rs : List (Nat × W64)) (L : Nat) : W64 := get 0 rs L

/-- VSCAN (R252). -/
def execVscan (c : Ctl) (op : ScanOp) (ex : Bool) (ty : ScanTy) (d : VReg) (a : VSrc) (heads : Option PReg) (s : State) : Host.Outcome State Fault Refusal :=
  issueWide c ([.dv false d, useV 1 false a] ++ (match heads with | some p => [.p 2 p] | none => [])) (fun v act =>
    let xs := v.vs false a
    let h := match heads with | some p => v.rp p | none => 0
    let (rs, fl) := scan op ty ex h xs (lanesOf act) (scanId op ty)
    .done (((v.lastUse false a act).orFpf fl).putV c false d act (lanes.map (pick rs)) latX)) s

/-- The uses of a counter (R254). -/
def useCtr (x : Ctr) : List Use := match x with | .w y => [useV 1 true y] | .a r => [.a 1 r]

/-- The counters, lane by lane (R254). -/
def View.counters (v : View) (x : Ctr) : List W64 :=
  match x with | .w y => v.vs true y | .a r => lanes.map (v.ra r).lane

/-- Mark the last use of a counter. -/
def View.lastCtr (v : View) (x : Ctr) (m : Mask) : View := match x with | .w y => v.lastUse true y m | .a _ => v

/-- VDROP (R255). -/
def execVdrop (c : Ctl) (all : Bool) (d : PReg) (ctr : Ctr) (key : SReg) (keepv : USrc) (s : State) : Host.Outcome State Fault Refusal :=
  issue c ([.dp d, .s 2 key] ++ useCtr ctr ++ useU 3 keepv) (fun v act =>
    let xs := v.counters ctr
    let k := fld (v.us keepv imm0) 0 16
    let kept := maskOf (fun L => all || decide (fld (mix64 (el xs L ^^^ v.rs key)) 0 16 < k))
    .done ((v.lastCtr ctr act).putP c d act kept latX)) s

/-- VHASH (R254). -/
def execVhash (c : Ctl) (lo : Bool) (d : VReg) (ctr : Ctr) (key : SReg) (s : State) : Host.Outcome State Fault Refusal :=
  issue c ([.dv (!lo) d, .s 2 key] ++ useCtr ctr) (fun v act =>
    let xs := v.counters ctr
    .done ((v.lastCtr ctr act).putV c (!lo) d act (xs.map (fun x => mix64 (x ^^^ v.rs key))) latX)) s

end Sys2Proof.Machine
end

