-- ==== Sys2Proof/Machine/Release.lean ====
section
/-! DEFINITION. The end of a partition's work: what a reset or a release drops, and the two events that leave READY (R21, R24, R31,
R32). -/

namespace Sys2Proof.Machine

/-- The core after a reset of its partition (R21): no pack, an empty L1, a cleared array. Its clock goes on. -/
def Core.wiped (c : Core) : Core :=
  { Core.init with
    cycle := c.cycle, issued := c.issued, skew := c.skew, lastBcast := c.lastBcast, quietUntil := c.quietUntil, utlb := c.utlb
    spsz := c.spsz, gated := c.gated, quarantined := c.quarantined, mute := c.mute }

/-- A service core keeps its registers and loses what its L1 holds. -/
def Core.wipedL1 (c : Core) : Core := { c with l1 := [], lines := [], reads := [], cbs := [], ops := [], ibuf := [] }

/-- The queue's packet has started and its effect is not done: a COPY, WRITE, SIGNAL, WAIT or TIMESTAMP under way, or a step that waits for
a page. -/
def QState.underWay (x : QState) : Bool := x.pkt.isSome && (x.step == 1 || x.step == 2 || (x.step == 0 && x.page != 0))

/-- The packet that a queue has under way ends with ERROR (R21). -/
def State.endUnderWay (s : State) (x : QState) : State :=
  match s.desc x.fn x.q with
  | .ok d => let a := s.queueSpace x.fn d.proc; s.owe x (s.workCluster x.fn x.q d.rd) a.1 a.2 2 0 4
  | _ => s

/-- Drop everything that a reset of partition `p` ends (R21): packs, registrations without write-back, L1s and scratchpads,
launches, transfers and messages; work that the queue engines hold ends with ERROR. -/
def State.wipePartition (s : State) (p : Nat) : State :=
  let cl := s.partClusters p
  let agent (a : Nat) : Bool := if a < 64 then cl.contains (a / 2) else decide (a < 96) && cl.contains (a - 64)
  let sl := s.partSlices p
  let mine (w : Nat) : Bool := sl.contains (sliceOf (4 * w))
  let node (x : Nat) : Bool := if x < 128 then agent x else sl.contains ((x - 128) / 2)
  let fns := (List.range 385).filter (fun f => s.bound f && s.fnPart f == p)
  let lids := (s.launches.filter (fun e => e.2.part == p)).map (fun e => e.1)
  let s := cl.foldl (fun (s : State) n =>
    ((s.updCore (2 * n) Core.wiped).updCore (2 * n + 1) Core.wiped).updCore (64 + n) Core.wipedL1) s
  let ended := (s.openPkts.filter (fun o => fns.contains o.fn)).map (fun (o : OpenPkt) => o.fin 2 0 0 s.time)
  let s := (s.queues.filter (fun (x : QState) => fns.contains x.fn && x.underWay)).foldl (fun (s : State) x => s.endUnderWay x) s
  { s with
    regs := keep (fun w => !mine w) s.regs
    hq := s.hq.filter (fun r => !(r.words.any mine))
    txns := s.txns.filter (fun t => !(t.req.words.any mine))
    net := s.net.filter (fun m => !(node m.src) && !(node m.dst))
    clamps := keep (fun l => !mine (16 * l)) s.clamps
    hostq := s.hostq.filter (fun h => !(agent h.src))
    walks := s.walks.filter (fun k => !(agent k.agent))
    launches := s.launches.filter (fun e => e.2.part != p)
    xfers := s.xfers.filter (fun x => !(lids.contains x.launch))
    remotes := s.remotes.filter (fun r => !(lids.contains r.launch))
    credits := s.credits.filter (fun c => !(lids.contains c.launch))
    senders := s.senders.filter (fun x => !(lids.contains x.launch))
    saved := s.saved.filter (fun x => !(lids.contains x.launch))
    engfaults := s.engfaults.filter (fun e => !(cl.contains e.cluster))
    aper := s.aper.filter (fun (w : AperWrite) => !fns.contains w.fn)
    dists := del s.dists p
    queues := s.queues.filter (fun q => !(fns.contains q.fn))
    graphs := s.graphs.filter (fun g => g.part != p)
    maps := s.maps.filter (fun m => m.part != p)
    unmaps := s.unmaps.filter (fun u => u.part != p)
    jobs := s.jobs.filter (fun j => !cl.contains j.cluster)
    pools := keep (fun n => !cl.contains n) s.pools
    placed := s.placed.filter (fun f => !sl.contains (f / 131072))
    pooled := s.pooled.filter (fun k => k != p)
    colls := s.colls.map (fun (c : Coll) => if c.part == p && c.done.isNone then { c with done := some (2, 0) } else c)
    fins := s.fins ++ ended }

/-- PARTITION_DISABLE (R21, R32). In SCRUBBING, and in KEYING of a partition with IE = 0, a slice whose scrub had finished stays CLEAN: R21
says both that one written by a scrub stays not CLEAN and that only an unfinished one does (see the assumption log). -/
def execPartitionDisable (p : Nat) (s : State) : Host.Outcome State Fault Refusal :=
  match s.partSt p with
  | 1 | 2 =>
    let st := s.partSt p
    let s := (s.partSlices p).foldl (fun (s : State) sl =>
      let s := if s.sliceBusy sl || (st == 2 && s.partIe p) then (s.stopSlice sl 0).setClean sl false else s
      s.freeSlice sl) s
    .next (((s.putReg (partBase p) 0 1 0).setSt p 0).setPend p 0)
  | 3 =>
    let s := ((s.wipePartition p).newKeys p).putReg (partBase p) 0 1 0
    let sl := s.partSlices p
    let s := sl.foldl (fun (s : State) x => (s.setClean x false).startSlice x) s
    .next ((s.setSt p 5).setPend p sl.length)
  | _ => .next s

/-- PARTITION_RESET (R21, R24, R31). -/
def execPartitionReset (p : Nat) (s : State) : Host.Outcome State Fault Refusal :=
  match s.partSt p with
  | 1 | 2 =>
    let s := (s.partSlices p).foldl (fun (s : State) sl => s.setClean sl false) (s.newKeys p)
    .next (s.startScrub p)
  | 3 =>
    let s := (s.wipePartition p).newKeys p
    let s := (s.partSlices p).foldl (fun (s : State) sl => (s.setClean sl false).wipeMarks sl) s
    .next ((s.freshTree p).setSt p 4)
  | _ => .next s

end Sys2Proof.Machine
end

