-- ==== Sys2Proof/Machine/Uniform.lean ====
section
/-! DEFINITION. The uniform integer instructions (R218-R229): each acts once for the split. The four divisions enter the division
unit (R224). -/

namespace Sys2Proof.Machine

/-- A two-source uniform operation (R222, R223). -/
def uniform2 (op : IType → W64 → W64 → W64) (c : Ctl) (t : IType) (d a : SReg) (b : USrc) (s : State) :
    Host.Outcome State Fault Refusal :=
  issue c ([.ds d, .s 1 a] ++ useU 2 b) (fun v _ =>
    .done (v.putS c d (itExt t (op t (v.rs a) (v.us b (itImm t)))) latU)) s

/-- A one-source uniform operation (R225). -/
def uniform1 (op : IType → W64 → W64) (c : Ctl) (t : IType) (d a : SReg) (s : State) : Host.Outcome State Fault Refusal :=
  issue c [.ds d, .s 1 a] (fun v _ => .done (v.putS c d (itExt t (op t (v.rs a))) latU)) s

/-- A division enters the division unit of its core (R224). With DZT = 1 its split issues nothing until it completes,
and a zero divisor raises DIV_ZERO then, with the lowest such lane (R202). -/
def View.divide (v : View) (c : Ctl) (d : Dest) (m : Mask) (lo hi : Row) (sval : W64) (fl : Nat) (lex : Mask)
    (zero : Option Nat) : View :=
  let dzt := !v.svc && v.pk.dzt
  let (w, q) := v.leave c d dzt
  { w with co := { w.co with divq := w.co.divq ++
      [⟨v.slot, v.ix, v.sp.pc, v.sp.seq, d, m, lo, hi, sval, q, fl, lex, if dzt then zero else none⟩] } }

/-- A uniform division or remainder (R202, R224). -/
def uniformDiv (op : IType → Bool → W64 → W64 → FR) (sg : Bool) (c : Ctl) (t : IType) (d a : SReg) (b : USrc)
    (s : State) : Host.Outcome State Fault Refusal :=
  issue c ([.ds d, .s 1 a] ++ useU 2 b) (fun v _ =>
    let r := op t sg (v.rs a) (v.us b (itImm t))
    .done (v.divide c (.s d) 0 [] [] (itExt t r.val) r.fl 0 (if r.fl &&& flDZI ≠ 0 then some 127 else none))) s

/-- SADD (R222). -/
def execSadd (c : Ctl) (t : IType) (d a : SReg) (b : USrc) (s : State) : Host.Outcome State Fault Refusal :=
  uniform2 opAdd c t d a b s

/-- SSUB (R222). -/
def execSsub (c : Ctl) (t : IType) (d a : SReg) (b : USrc) (s : State) : Host.Outcome State Fault Refusal :=
  uniform2 opSub c t d a b s

/-- SMUL (R222). -/
def execSmul (c : Ctl) (t : IType) (d a : SReg) (b : USrc) (s : State) : Host.Outcome State Fault Refusal :=
  uniform2 opMul c t d a b s

/-- SMULH (R222). -/
def execSmulh (c : Ctl) (t : IType) (d a : SReg) (b : USrc) (s : State) : Host.Outcome State Fault Refusal :=
  uniform2 opMulh c t d a b s

/-- SMULHN (R222). -/
def execSmulhn (c : Ctl) (t : IType) (d a : SReg) (b : USrc) (s : State) : Host.Outcome State Fault Refusal :=
  uniform2 opMulhn c t d a b s

/-- SDIV (R202, R224). -/
def execSdiv (c : Ctl) (t : IType) (d a : SReg) (b : USrc) (s : State) : Host.Outcome State Fault Refusal :=
  uniformDiv opQuot true c t d a b s

/-- SDIVN (R202, R224). -/
def execSdivn (c : Ctl) (t : IType) (d a : SReg) (b : USrc) (s : State) : Host.Outcome State Fault Refusal :=
  uniformDiv opQuot false c t d a b s

/-- SREM (R202, R224). -/
def execSrem (c : Ctl) (t : IType) (d a : SReg) (b : USrc) (s : State) : Host.Outcome State Fault Refusal :=
  uniformDiv opRem true c t d a b s

/-- SREMN (R202, R224). -/
def execSremn (c : Ctl) (t : IType) (d a : SReg) (b : USrc) (s : State) : Host.Outcome State Fault Refusal :=
  uniformDiv opRem false c t d a b s

/-- SAND (R222). -/
def execSand (c : Ctl) (t : IType) (d a : SReg) (b : USrc) (s : State) : Host.Outcome State Fault Refusal :=
  uniform2 opAnd c t d a b s

/-- SOR (R222). -/
def execSor (c : Ctl) (t : IType) (d a : SReg) (b : USrc) (s : State) : Host.Outcome State Fault Refusal :=
  uniform2 opOr c t d a b s

/-- SXOR (R222). -/
def execSxor (c : Ctl) (t : IType) (d a : SReg) (b : USrc) (s : State) : Host.Outcome State Fault Refusal :=
  uniform2 opXor c t d a b s

/-- SANDN (R222). -/
def execSandn (c : Ctl) (t : IType) (d a : SReg) (b : USrc) (s : State) : Host.Outcome State Fault Refusal :=
  uniform2 opAndn c t d a b s

/-- SSHL (R223). -/
def execSshl (c : Ctl) (t : IType) (d a : SReg) (b : USrc) (s : State) : Host.Outcome State Fault Refusal :=
  uniform2 opShl c t d a b s

/-- SSHR (R223). -/
def execSshr (c : Ctl) (t : IType) (d a : SReg) (b : USrc) (s : State) : Host.Outcome State Fault Refusal :=
  uniform2 opShr c t d a b s

/-- SSRA (R223). -/
def execSsra (c : Ctl) (t : IType) (d a : SReg) (b : USrc) (s : State) : Host.Outcome State Fault Refusal :=
  uniform2 opSra c t d a b s

/-- SMIN (R222). -/
def execSmin (c : Ctl) (t : IType) (d a : SReg) (b : USrc) (s : State) : Host.Outcome State Fault Refusal :=
  uniform2 opMin c t d a b s

/-- SMAX (R222). -/
def execSmax (c : Ctl) (t : IType) (d a : SReg) (b : USrc) (s : State) : Host.Outcome State Fault Refusal :=
  uniform2 opMax c t d a b s

/-- SMINN (R222). -/
def execSminn (c : Ctl) (t : IType) (d a : SReg) (b : USrc) (s : State) : Host.Outcome State Fault Refusal :=
  uniform2 opMinn c t d a b s

/-- SMAXN (R222). -/
def execSmaxn (c : Ctl) (t : IType) (d a : SReg) (b : USrc) (s : State) : Host.Outcome State Fault Refusal :=
  uniform2 opMaxn c t d a b s

/-- SCLZ (R225). -/
def execSclz (c : Ctl) (t : IType) (d a : SReg) (s : State) : Host.Outcome State Fault Refusal :=
  uniform1 opClz c t d a s

/-- SPOPC (R225). -/
def execSpopc (c : Ctl) (t : IType) (d a : SReg) (s : State) : Host.Outcome State Fault Refusal :=
  uniform1 opPopc c t d a s

/-- SMOV (R225). -/
def execSmov (c : Ctl) (t : IType) (d a : SReg) (s : State) : Host.Outcome State Fault Refusal :=
  uniform1 opMov c t d a s

/-- SBFX (R227). -/
def execSbfx (c : Ctl) (t : IType) (d a : SReg) (desc : USrc) (s : State) : Host.Outcome State Fault Refusal :=
  issue c ([.ds d, .s 1 a] ++ useU 2 desc) (fun v _ =>
    .done (v.putS c d (itExt t (opBfx t (v.rs a) (v.us desc imm0).toNat)) latU)) s

/-- SBFI (R227). -/
def execSbfi (c : Ctl) (t : IType) (d a b : SReg) (desc : USrc) (s : State) : Host.Outcome State Fault Refusal :=
  issue c ([.ds d, .s 1 a, .s 2 b] ++ useU 3 desc) (fun v _ =>
    .done (v.putS c d (itExt t (opBfi t (v.rs a) (v.rs b) (v.us desc imm0).toNat)) latU)) s

/-- SSEL (R229): the test covers all 64 bits of the condition register. -/
def execSsel (c : Ctl) (t : IType) (d a b cnd : SReg) (s : State) : Host.Outcome State Fault Refusal :=
  issue c [.ds d, .s 1 a, .s 2 b, .s 3 cnd] (fun v _ =>
    .done (v.putS c d (itExt t (if v.rs cnd ≠ 0 then v.rs a else v.rs b)) latU)) s

/-- SMOVI (R226). -/
def execSmovi (c : Ctl) (t : IType) (d : SReg) (x : Imm) (s : State) : Host.Outcome State Fault Refusal :=
  issue c [.ds d] (fun v _ =>
    .done (v.putS c d (itExt t (match x with | .i32 y => itImm t y | .i64 y => y)) latU)) s

/-- SCMP (R229). -/
def execScmp (c : Ctl) (t : IType) (cond : Cond) (d a : SReg) (b : USrc) (s : State) : Host.Outcome State Fault Refusal :=
  issue c ([.ds d, .s 1 a] ++ useU 2 b) (fun v _ =>
    .done (v.putS c d (if opCmp t cond (v.rs a) (v.us b (itImm t)) then 1 else 0) latU)) s

end Sys2Proof.Machine
end

