-- ==== Sys2Proof/Machine/Units.lean ====
section
/-! DEFINITION. The division unit and the special-function unit of a core: their results are written, in issue order, by
the two events that name the core (R224, R244). -/

namespace Sys2Proof.Machine

/-- Write the results and flags of a unit's operation; its token falls. A DIV_ZERO stops the pack, which resumes at the
instruction after the division (R202). -/
def Core.unitDone (co : Core) (svc : Bool) (op : UnitOp) : Core :=
  co.updPack op.slot (fun p =>
    let p := ((p.orFpf op.flags).orLex op.lex).deliver svc op.split op.seq op.dest op.mask op.lo op.hi op.sval
    let p := p.retireOp op.split op.seq op.tok co.cycle
    match op.trap with
    | some L => p.stopFor op.split ⟨fcDivZero, op.pc, 0, finfo 0 0 0 L p.asid, op.lex⟩ true
    | none => p)

/-- DIVISION_COMPLETE of core `n` (R224). -/
def execDivisionComplete (n : Nat) (s : State) : Host.Outcome State Fault Refusal :=
  match (s.core n).divq with
  | [] => .next s
  | op :: rest => .next (s.updCore n (fun c => ({ c with divq := rest } : Core).unitDone (decide (64 ≤ n)) op))

/-- SPECIAL_FUNCTION_COMPLETE of core `n` (R244). -/
def execSpecialFunctionComplete (n : Nat) (s : State) : Host.Outcome State Fault Refusal :=
  match (s.core n).sfuq with
  | [] => .next s
  | op :: rest => .next (s.updCore n (fun c => ({ c with sfuq := rest } : Core).unitDone (decide (64 ≤ n)) op))

end Sys2Proof.Machine
end

