-- ==== Sys2Proof/Machine/Varying.lean ====
section
/-! DEFINITION. The varying integer instructions and the predicate instructions (R218-R231): each acts per lane of ACT. -/

namespace Sys2Proof.Machine

/-- A two-source varying operation (R222, R223). -/
def varying2 (op : IType → W64 → W64 → W64) (c : Ctl) (t : IType) (d : VReg) (a : VSrc) (b : VOpnd) (s : State) : Host.Outcome State Fault Refusal :=
  issue c ([.dv (it64 t) d, useV 1 (it64 t) a] ++ useO 2 (it64 t) b) (fun v act =>
    let xs := v.vs (it64 t) a
    let ys := v.vo (it64 t) b (itImm t)
    .done (((v.lastUse (it64 t) a act).lastO (it64 t) b act).putV c (it64 t) d act
      (lanes.map (fun L => op t (el xs L) (el ys L))) latVI)) s

/-- A one-source varying operation (R225). -/
def varying1 (op : IType → W64 → W64) (c : Ctl) (t : IType) (d : VReg) (a : VSrc) (s : State) : Host.Outcome State Fault Refusal :=
  issue c [.dv (it64 t) d, useV 1 (it64 t) a] (fun v act =>
    let xs := v.vs (it64 t) a
    .done ((v.lastUse (it64 t) a act).putV c (it64 t) d act (xs.map (op t)) latVI)) s

/-- A varying division or remainder enters the division unit; the lanes that R202 records go to LEX0-LEX2 (R224). -/
def varyingDiv (op : IType → Bool → W64 → W64 → FR) (sg : Bool) (c : Ctl) (t : IType) (d : VReg) (a : VSrc) (b : VOpnd)
    (s : State) : Host.Outcome State Fault Refusal :=
  issue c ([.dv (it64 t) d, useV 1 (it64 t) a] ++ useO 2 (it64 t) b) (fun v act =>
    let xs := v.vs (it64 t) a
    let ys := v.vo (it64 t) b (itImm t)
    let rs := overLanes act (fun L => op t sg (el xs L) (el ys L))
    let w := (v.lastUse (it64 t) a act).lastO (it64 t) b act
    .done (w.divide c (v.destV (it64 t) d) act (loRow (valsOf rs)) (hiRow (valsOf rs)) 0 (flsOf rs)
      (lanesWith rs (flDZI + flDVO)) (lowest (lanesWith rs flDZI)))) s

/-- VADD (R222). -/
def execVadd (c : Ctl) (t : IType) (d : VReg) (a : VSrc) (b : VOpnd) (s : State) : Host.Outcome State Fault Refusal :=
  varying2 opAdd c t d a b s

/-- VSUB (R222). -/
def execVsub (c : Ctl) (t : IType) (d : VReg) (a : VSrc) (b : VOpnd) (s : State) : Host.Outcome State Fault Refusal :=
  varying2 opSub c t d a b s

/-- VMUL (R222). -/
def execVmul (c : Ctl) (t : IType) (d : VReg) (a : VSrc) (b : VOpnd) (s : State) : Host.Outcome State Fault Refusal :=
  varying2 opMul c t d a b s

/-- VMULH (R222). -/
def execVmulh (c : Ctl) (t : IType) (d : VReg) (a : VSrc) (b : VOpnd) (s : State) : Host.Outcome State Fault Refusal :=
  varying2 opMulh c t d a b s

/-- VMULHN (R222). -/
def execVmulhn (c : Ctl) (t : IType) (d : VReg) (a : VSrc) (b : VOpnd) (s : State) : Host.Outcome State Fault Refusal :=
  varying2 opMulhn c t d a b s

/-- VMAD (R228). -/
def execVmad (c : Ctl) (t : IType) (d : VReg) (a : VSrc) (b : VOpnd) (cc : VSrc) (s : State) : Host.Outcome State Fault Refusal :=
  issue c ([.dv (it64 t) d, useV 1 (it64 t) a, useV 3 (it64 t) cc] ++ useO 2 (it64 t) b) (fun v act =>
    let xs := v.vs (it64 t) a
    let ys := v.vo (it64 t) b (itImm t)
    let zs := v.vs (it64 t) cc
    .done ((((v.lastUse (it64 t) a act).lastO (it64 t) b act).lastUse (it64 t) cc act).putV c (it64 t) d act
      (lanes.map (fun L => opAdd t (opMul t (el xs L) (el ys L)) (el zs L))) latVI)) s

/-- VDIV (R202, R224). -/
def execVdiv (c : Ctl) (t : IType) (d : VReg) (a : VSrc) (b : VOpnd) (s : State) : Host.Outcome State Fault Refusal :=
  varyingDiv opQuot true c t d a b s

/-- VDIVN (R202, R224). -/
def execVdivn (c : Ctl) (t : IType) (d : VReg) (a : VSrc) (b : VOpnd) (s : State) : Host.Outcome State Fault Refusal :=
  varyingDiv opQuot false c t d a b s

/-- VREM (R202, R224). -/
def execVrem (c : Ctl) (t : IType) (d : VReg) (a : VSrc) (b : VOpnd) (s : State) : Host.Outcome State Fault Refusal :=
  varyingDiv opRem true c t d a b s

/-- VREMN (R202, R224). -/
def execVremn (c : Ctl) (t : IType) (d : VReg) (a : VSrc) (b : VOpnd) (s : State) : Host.Outcome State Fault Refusal :=
  varyingDiv opRem false c t d a b s

/-- VAND (R222). -/
def execVand (c : Ctl) (t : IType) (d : VReg) (a : VSrc) (b : VOpnd) (s : State) : Host.Outcome State Fault Refusal :=
  varying2 opAnd c t d a b s

/-- VOR (R222). -/
def execVor (c : Ctl) (t : IType) (d : VReg) (a : VSrc) (b : VOpnd) (s : State) : Host.Outcome State Fault Refusal :=
  varying2 opOr c t d a b s

/-- VXOR (R222). -/
def execVxor (c : Ctl) (t : IType) (d : VReg) (a : VSrc) (b : VOpnd) (s : State) : Host.Outcome State Fault Refusal :=
  varying2 opXor c t d a b s

/-- VANDN (R222). -/
def execVandn (c : Ctl) (t : IType) (d : VReg) (a : VSrc) (b : VOpnd) (s : State) : Host.Outcome State Fault Refusal :=
  varying2 opAndn c t d a b s

/-- VSHL (R223). -/
def execVshl (c : Ctl) (t : IType) (d : VReg) (a : VSrc) (b : VOpnd) (s : State) : Host.Outcome State Fault Refusal :=
  varying2 opShl c t d a b s

/-- VSHR (R223). -/
def execVshr (c : Ctl) (t : IType) (d : VReg) (a : VSrc) (b : VOpnd) (s : State) : Host.Outcome State Fault Refusal :=
  varying2 opShr c t d a b s

/-- VSRA (R223). -/
def execVsra (c : Ctl) (t : IType) (d : VReg) (a : VSrc) (b : VOpnd) (s : State) : Host.Outcome State Fault Refusal :=
  varying2 opSra c t d a b s

/-- VMIN (R222). -/
def execVmin (c : Ctl) (t : IType) (d : VReg) (a : VSrc) (b : VOpnd) (s : State) : Host.Outcome State Fault Refusal :=
  varying2 opMin c t d a b s

/-- VMAX (R222). -/
def execVmax (c : Ctl) (t : IType) (d : VReg) (a : VSrc) (b : VOpnd) (s : State) : Host.Outcome State Fault Refusal :=
  varying2 opMax c t d a b s

/-- VMINN (R222). -/
def execVminn (c : Ctl) (t : IType) (d : VReg) (a : VSrc) (b : VOpnd) (s : State) : Host.Outcome State Fault Refusal :=
  varying2 opMinn c t d a b s

/-- VMAXN (R222). -/
def execVmaxn (c : Ctl) (t : IType) (d : VReg) (a : VSrc) (b : VOpnd) (s : State) : Host.Outcome State Fault Refusal :=
  varying2 opMaxn c t d a b s

/-- VNOT (R225). -/
def execVnot (c : Ctl) (t : IType) (d : VReg) (a : VSrc) (s : State) : Host.Outcome State Fault Refusal :=
  varying1 opNot c t d a s

/-- VABS (R225). -/
def execVabs (c : Ctl) (t : IType) (d : VReg) (a : VSrc) (s : State) : Host.Outcome State Fault Refusal :=
  varying1 opAbs c t d a s

/-- VNEG (R225). -/
def execVneg (c : Ctl) (t : IType) (d : VReg) (a : VSrc) (s : State) : Host.Outcome State Fault Refusal :=
  varying1 opNeg c t d a s

/-- VCLZ (R225). -/
def execVclz (c : Ctl) (t : IType) (d : VReg) (a : VSrc) (s : State) : Host.Outcome State Fault Refusal :=
  varying1 opClz c t d a s

/-- VPOPC (R225). -/
def execVpopc (c : Ctl) (t : IType) (d : VReg) (a : VSrc) (s : State) : Host.Outcome State Fault Refusal :=
  varying1 opPopc c t d a s

/-- VMOV (R225). -/
def execVmov (c : Ctl) (t : IType) (d : VReg) (a : VSrc) (s : State) : Host.Outcome State Fault Refusal :=
  varying1 opMov c t d a s

/-- VBFX: one descriptor for all lanes (R227). -/
def execVbfx (c : Ctl) (t : IType) (d : VReg) (a : VSrc) (desc : USrc) (s : State) : Host.Outcome State Fault Refusal :=
  issue c ([.dv (it64 t) d, useV 1 (it64 t) a] ++ useU 2 desc) (fun v act =>
    let xs := v.vs (it64 t) a
    let k := (v.us desc imm0).toNat
    .done ((v.lastUse (it64 t) a act).putV c (it64 t) d act (xs.map (fun x => opBfx t x k)) latVI)) s

/-- VBFI (R227). -/
def execVbfi (c : Ctl) (t : IType) (d : VReg) (a b : VSrc) (desc : USrc) (s : State) : Host.Outcome State Fault Refusal :=
  issue c ([.dv (it64 t) d, useV 1 (it64 t) a, useV 2 (it64 t) b] ++ useU 3 desc) (fun v act =>
    let xs := v.vs (it64 t) a
    let ys := v.vs (it64 t) b
    let k := (v.us desc imm0).toNat
    .done (((v.lastUse (it64 t) a act).lastUse (it64 t) b act).putV c (it64 t) d act
      (lanes.map (fun L => opBfi t (el xs L) (el ys L) k)) latVI)) s

/-- VSEL (R229). -/
def execVsel (c : Ctl) (t : IType) (d : VReg) (a : VSrc) (b : VOpnd) (p : PReg) (s : State) : Host.Outcome State Fault Refusal :=
  issue c ([.dv (it64 t) d, useV 1 (it64 t) a, .p 3 p] ++ useO 2 (it64 t) b) (fun v act =>
    let xs := v.vs (it64 t) a
    let ys := v.vo (it64 t) b (itImm t)
    let m := v.rp p
    .done (((v.lastUse (it64 t) a act).lastO (it64 t) b act).putV c (it64 t) d act
      (lanes.map (fun L => if m.getLsbD L then el xs L else el ys L)) latVI)) s

/-- VMOVI (R226). -/
def execVmovi (c : Ctl) (t : IType) (d : VReg) (x : Imm) (s : State) : Host.Outcome State Fault Refusal :=
  issue c [.dv (it64 t) d] (fun v act =>
    .done (v.putV c (it64 t) d act (List.replicate 96 (match x with | .i32 y => itImm t y | .i64 y => y)) latVI)) s

/-- VCMP (R229). -/
def execVcmp (c : Ctl) (t : IType) (cond : Cond) (d : PReg) (a : VSrc) (b : VOpnd) (s : State) : Host.Outcome State Fault Refusal :=
  issue c ([.dp d, useV 1 (it64 t) a] ++ useO 2 (it64 t) b) (fun v act =>
    let xs := v.vs (it64 t) a
    let ys := v.vo (it64 t) b (itImm t)
    .done (((v.lastUse (it64 t) a act).lastO (it64 t) b act).putP c d act
      (maskOf (fun L => opCmp t cond (el xs L) (el ys L))) latVI)) s

/-- VSAT (R230). -/
def execVsat (c : Ctl) (t : IType) (d : VReg) (a : VSrc) (sat : W32) (s : State) : Host.Outcome State Fault Refusal :=
  issue c [.dv (it64 t) d, useV 1 (it64 t) a] (fun v act =>
    let xs := v.vs (it64 t) a
    .done ((v.lastUse (it64 t) a act).putV c (it64 t) d act (xs.map (fun x => opSat t x sat)) latVI)) s

/-- A two-source predicate operation (R231). -/
def predicate2 (op : Mask → Mask → Mask) (c : Ctl) (d a b : PReg) (s : State) : Host.Outcome State Fault Refusal :=
  issue c [.dp d, .p 1 a, .p 2 b] (fun v act => .done (v.putP c d act (op (v.rp a) (v.rp b)) latVI)) s

/-- PAND (R231). -/
def execPand (c : Ctl) (d a b : PReg) (s : State) : Host.Outcome State Fault Refusal := predicate2 (· &&& ·) c d a b s

/-- POR (R231). -/
def execPor (c : Ctl) (d a b : PReg) (s : State) : Host.Outcome State Fault Refusal := predicate2 (· ||| ·) c d a b s

/-- PXOR (R231). -/
def execPxor (c : Ctl) (d a b : PReg) (s : State) : Host.Outcome State Fault Refusal := predicate2 (· ^^^ ·) c d a b s

/-- PNOT (R231). -/
def execPnot (c : Ctl) (d a : PReg) (s : State) : Host.Outcome State Fault Refusal :=
  issue c [.dp d, .p 1 a] (fun v act => .done (v.putP c d act (~~~(v.rp a)) latVI)) s

/-- PMOV, and with .MK the lanes of three uniform words (R231). -/
def execPmov (c : Ctl) (d : PReg) (a : PMovSrc) (s : State) : Host.Outcome State Fault Refusal :=
  match a with
  | .p r => issue c [.dp d, .p 1 r] (fun v act => .done (v.putP c d act (v.rp r) latVI)) s
  | .mk r =>
    issue c [.dp d, .s 1 r, .s 1 (r + 1), .s 1 (r + 2)] (fun v act =>
      .done (v.putP c d act
        (setBeat (setBeat (setBeat 0 0 ((v.rs r).setWidth 32)) 1 ((v.rs (r + 1)).setWidth 32)) 2
          ((v.rs (r + 2)).setWidth 32)) latVI)) s

end Sys2Proof.Machine
end

