-- ==== Sys2Proof/Machine/Zumos.lean ====
section
/-! DEFINITION. What Zumos does on the service cores: the plan, anonymous pages, faults and stops, saving and restoring, the service
calls, files and sockets (R290, R293, R342-R349, R354, R370-R374, R416-R418). -/

namespace Sys2Proof.Machine

/-- An address space that Zumos serves. -/
structure Space where
  part : Nat
  asid : Nat
  root : W64
  deriving DecidableEq, Repr

/-- The NVMe controller as it moves a caller's bytes (R372). R7 gives the controller no agent number: its transfers, and the shards' own
reads of a caller's path and log text, are made as agent 96 (see the assumption log). -/
def Space.eng (x : Space) : Eng := queueEng engAgent x.part x.asid x.root

/-- The port that carries the sockets of a partition (R383): the lowest that it owns with its TCP offload enabled. -/
def State.tcpPort (s : State) (part : Nat) : Option Nat :=
  (List.range 8).find? (fun n =>
    bit (s.regVal (portCfg n)) 9 && fld (s.regVal (portCfg n)) 0 8 == part && !bit (s.regVal bootStat) (36 + n))

/-- That port as it moves a caller's bytes: agent 105 + n (R382). -/
def Space.portEng (x : Space) (n : Nat) : Eng := queueEng (105 + n) x.part x.asid x.root

/-- The space of an ASID of a partition, and of a pack on a core. -/
def State.space (s : State) (part asid : Nat) : Space := ⟨part, asid, get 0 s.roots (65536 * part + asid)⟩
def State.packSpace (s : State) (n : Nat) (p : Pack) : Space := ⟨(s.partOfCluster (n / 2)).getD 0, p.asid, p.root⟩

/-! ### Anonymous pages (R370, R416, R418) -/

/-- `[a, a + n)` and `[b, b + m)` share a byte. -/
def overlaps (a n b m : Nat) : Bool := decide (a < b + m) && decide (b < a + n)

/-- The heaps of an address space. -/
def State.heapsIn (s : State) (x : Space) : List Heap :=
  (s.heaps.filter (fun e => s.fnPart (e.1 / 64) == x.part && get 0 s.procs e.1 == x.asid)).map (fun e => e.2)

/-- The MAP ranges of an address space. -/
def State.mapsIn (s : State) (x : Space) : List MapRange := s.maps.filter (fun (m : MapRange) => m.part == x.part && m.asid == x.asid)

/-- The bytes of the 64 KiB pages that a heap covers. -/
def Heap.span (h : Heap) : Nat := if h.quota = 0 then 0 else alignUp (h.base + h.quota) 65536 - h.base / 65536 * 65536

/-- The leaf, but for its frame and D, of an anonymous page. -/
def State.anonLeaf (s : State) (x : Space) (va : Nat) : Option W64 :=
  if (s.heapsIn x).any (fun h => overlaps va 1 (h.base / 65536 * 65536) h.span) then
    some (BitVec.ofNat 64 (7 + 64 * b2n (s.partProt x.part)))
  else
    ((s.mapsIn x).find? (fun m => overlaps va 1 m.va (65536 * m.pages))).map (fun m =>
      BitVec.ofNat 64 (3 + 4 * b2n m.w + 8 * b2n m.x + 64 * m.attr))

/-- The type of a Zumos message (R371). -/
def msgInval : Nat := 1
def msgAck : Nat := 2
def msgFrames : Nat := 3
def msgIoreq : Nat := 4
def msgIodone : Nat := 5
def msgRestore : Nat := 6

/-- A shard sends a message to another: its type, a number of 16 bits and one of 40 beside it in dword 0, and dwords 1 and 2. -/
def State.sendMail (s : State) (from_ to_ type a b : Nat) (p1 p2 : W64) : State :=
  s.updCore (64 + to_) (fun k => { k with
    mailbox := k.mailbox ++ [⟨from_, BitVec.ofNat 64 (type + a * 2 ^ 8 + b * 2 ^ 24), p1, p2⟩] })

/-- A mailbox has room. -/
def State.mailRoom (s : State) (n : Nat) : Bool := decide ((s.core (64 + n)).mailbox.length < 64)

/-- A shard runs: its service core has started, has not failed and is not fenced. -/
def State.shardRuns (s : State) (n : Nat) : Bool := (s.core (64 + n)).started && !(s.core (64 + n)).failed && s.clusterSt n != 3

/-- A shard whose pool is empty asks another of its partition that has frames for 16 of them, with FRAMES, and waits for the answer (R371).
How many it asks for, and whom, is Zumos's affair. -/
def State.askFrames (s : State) (n : Nat) : State :=
  if s.frameAsks.contains n then s
  else
    match (List.range 32).find? (fun m => m != n && s.partOfCluster m == s.partOfCluster n && s.shardRuns m && s.mailRoom m &&
        !(get [] s.pools m).isEmpty) with
    | none => s
    | some m => { s.sendMail n m msgFrames 0 0 16 0 with frameAsks := s.frameAsks ++ [n] }

/-- A frame returns to a shard's pool. -/
def State.giveFrame (s : State) (n f : Nat) : State := { s with pools := upd [] s.pools n (fun l => l ++ [f]) }

/-- Step 1 of R370: a frame from the shard's pool, zeroed and bound to an attribute (R48), and what the shard is about to install with it; a
shard without one asks for more. -/
def State.takeFrame (s : State) (n attr entry : Nat) (old bits : W64) : State :=
  if s.rebind.isSome then s
  else
    match get [] s.pools n with
    | [] => s.askFrames n
    | f :: fs =>
      let s := (({ s with pools := set [] s.pools n fs } : State).rebindStart n f attr).rebindEnd
      { s with installs := s.installs ++ [⟨n, entry, old, f, BitVec.ofNat 64 (f * 65536) ||| bits⟩] }

/-- What Zumos writes at a page's entry. -/
inductive LeafAct
  /-- a leaf, but for its frame, where none is valid -/
  | install (leaf : W64)
  /-- D of the leaf -/
  | dirty
  /-- no leaf: the frame returns to the pool -/
  | clear
  deriving DecidableEq, Repr

/-- Write an entry: SATOM.OR.RL of D, or the clearing of a leaf (R370). The entry is read and written at its home in one step, and a shard's
writes are accepted before, so that the release waits for nothing. -/
def State.putEntry (s : State) (n va level a : Nat) (v : W64) : EngRes Unit :=
  match s.writeBytes ⟨64 + n, false⟩ a (bytesOf 8 v.toNat) with
  | .ok s => .ok () s
  | .busy s => .busy s
  | .fault c => .fault va ⟨c, 0, level⟩

/-- Steps 2 and 3 of R370: SATOM.CAS.RL of the entry, expecting its old value; where another shard has been first, the frame returns to its
pool, and the entry found is used. -/
def State.casEntry (s : State) (i : Install) : State :=
  let gone (s : State) : State := { s with installs := s.installs.filter (fun (j : Install) => j != i) }
  match s.readBytes ⟨64 + i.cluster, false⟩ i.entry 8 with
  | .busy s => s
  | .fault _ => (gone s).giveFrame i.cluster i.frame
  | .ok (bs, s) =>
    if BitVec.ofNat 64 (ofBytes bs) ≠ i.old then (gone s).giveFrame i.cluster i.frame
    else
      match s.writeBytes ⟨64 + i.cluster, false⟩ i.entry (bytesOf 8 i.leaf.toNat) with
      | .ok s => gone s
      | .busy s => s
      | .fault _ => (gone s).giveFrame i.cluster i.frame

/-- A shard carries out the oldest install that it has begun. -/
def State.installTurn (s : State) (n : Nat) : State :=
  match s.installs.find? (fun (i : Install) => i.cluster == n) with
  | some i => s.casEntry i
  | none => s

/-- Walk down to the entry of a page and act there; tables that an install misses take frames of their own (R370). The frame that a
cleared leaf held is the answer. An install ends here with its frame taken, and waits for the turn that writes the entry. -/
def State.leafAct (n : Nat) (x : Space) (va : Nat) (act : LeafAct) : Nat → Nat → Nat → State → EngRes (Option Nat)
  | 0, _, _, s => .ok none s
  | fuel + 1, table, level, s =>
    let a := entryAddr table level va
    match s.readBytes ⟨64 + n, false⟩ a 8 with
    | .busy s => .busy s
    | .fault c => .fault va ⟨c, 0, level⟩
    | .ok (bs, s) =>
      let old : W64 := BitVec.ofNat 64 (ofBytes bs)
      if !bit old 0 then
        match act with
        | .install leaf =>
          let attr := if level = 0 then leafAttr leaf else 1 + b2n (s.partProt x.part)
          if s.installs.any (fun (i : Install) => i.cluster == n && i.entry == a) then .busy s
          else .busy (s.takeFrame n attr a old (if level = 0 then leaf else 1))
        | _ => .ok none s
      else
        match s.judge (some x.part) old level with
        | .next t => State.leafAct n x va act fuel t (level - 1) s
        | .flaw f => .fault va f
        | .leaf =>
          match act with
          | .install _ => .ok none s
          | .dirty => (s.putEntry n va level a (old ||| 0x20)).andThen (fun _ s => .ok none s)
          | .clear =>
            if level = 0 then (s.putEntry n va level a 0).andThen (fun _ s => .ok (some (fld old 16 32)) s) else .ok none s

/-- Act on the entry of a page of an address space. -/
def State.pageAct (s : State) (n : Nat) (x : Space) (va : Nat) (act : LeafAct) : EngRes (Option Nat) :=
  State.leafAct n x va act 4 (fld x.root 14 34 * 2 ^ 14) 3 s

/-- Serve a page fault (R45, R370, R418): whether it is recovered. `w` says that the access writes. -/
def State.servePage (s : State) (n : Nat) (x : Space) (va reason : Nat) (w : Bool) : EngRes Bool :=
  let go (act : LeafAct) : EngRes Bool :=
    match s.pageAct n x va act with
    | .ok _ s => .ok true s
    | .busy s => .busy s
    | .fault _ _ => .ok false s
  if !canonical va || (s.rootFlaw (some x.part) x.root).isSome then .ok false s
  else if reason = 3 then go .dirty
  else if reason ≠ 0 then .ok false s
  else match s.anonLeaf x va with
    | some leaf => go (.install (leaf ||| (if w then 0x20 else 0)))
    | none => .ok false s

/-- An access to a caller's bytes: a page fault is served and the access tried again; none means that the VA cannot be translated. -/
def State.userAccess {α : Type} (s : State) (n : Nat) (x : Space) (w : Bool) (r : EngRes α) : EngRes (Option α) :=
  match r with
  | .ok a s => .ok (some a) s
  | .busy s => .busy s
  | .fault va f =>
    if f.code ≠ fcPageFault then .ok none s
    else
      match s.servePage n x va f.reason w with
      | .ok true s => .busy s
      | .busy s => .busy s
      | _ => .ok none s

/-! ### Heaps and mappings (R344, R416, R417) -/

/-- A page of the range is mapped. -/
def State.anyMapped (s : State) (x : Space) (va : Nat) : Nat → EngRes Bool
  | 0 => .ok false s
  | n + 1 =>
    match State.walkFrom (some x.part) ⟨engAgent, false⟩ va 4 (fld x.root 14 34 * 2 ^ 14) 3 s with
    | .ok _ _ => .ok true s
    | .busy t => .busy t
    | .fault _ _ => s.anyMapped x (va + 65536) n

/-- The range of pages overlaps a heap, a MAP range or a mapped page. -/
def State.rangeUsed (s : State) (x : Space) (va pages : Nat) : EngRes Bool :=
  if (s.heapsIn x).any (fun h => overlaps va (65536 * pages) (h.base / 65536 * 65536) h.span) ||
    (s.mapsIn x).any (fun m => overlaps va (65536 * pages) m.va (65536 * m.pages)) then .ok true s
  else s.anyMapped x va pages

/-- The first unused range at or after page `k`, wrapping at 2^40 pages. -/
def State.freeRange (s : State) (x : Space) (pages : Nat) : Nat → Nat → EngRes (Option Nat)
  | 0, _ => .ok none s
  | fuel + 1, k =>
    if k + pages ≤ 2 ^ 40 then
      (s.rangeUsed x (65536 * k) pages).andThen (fun used _ =>
        if used then s.freeRange x pages fuel ((k + 1) % 2 ^ 40) else .ok (some (65536 * k)) s)
    else s.freeRange x pages fuel ((k + 1) % 2 ^ 40)

/-- A call number and its five arguments. -/
structure SvcCall where
  num : Nat
  a1 : Nat
  a2 : Nat
  a3 : Nat
  a4 : Nat
  a5 : Nat
  deriving DecidableEq, Repr

/-- The pair a1:a2, and the pair a2:a3. -/
def SvcCall.pair1 (k : SvcCall) : Nat := k.a1 + k.a2 * 2 ^ 32
def SvcCall.pair2 (k : SvcCall) : Nat := k.a2 + k.a3 * 2 ^ 32

/-- What a group comes to: the values and statuses of its lanes, flash work for one lane, or a wait. -/
inductive CallRes
  | done (r : List (Nat × W64 × Nat)) (s : State)
  | flash (f : Flash) (s : State)
  | busy (s : State)

/-- The caller of a group: the shard, the kennel entry, the space and the heap's number. -/
structure Caller where
  n : Nat
  entry : Nat
  x : Space
  heap : Nat
  deriving DecidableEq, Repr

/-- One result for all lanes; a failure's value is 0. -/
def allLanes (lanes : List Nat) (v : W64) (st : Nat) (s : State) : CallRes := .done (lanes.map (fun L => (L, v, st))) s
def allFail (lanes : List Nat) (st : Nat) (s : State) : CallRes := allLanes lanes 0 st s

/-- ALLOC (R417): the blocks in ascending lane order, until one would exceed the quota. -/
def placeBlocks (al size : Nat) : List Nat → Heap → List (Nat × W64 × Nat) × Heap
  | [], h => ([], h)
  | L :: ls, h =>
    let start := alignUp h.top al
    if h.quota < start + size - h.base then ((L :: ls).map (fun k => (k, 0, 1)), h)
    else
      let r := placeBlocks al size ls { h with top := start + size, blocks := h.blocks ++ [(start, size)] }
      ((L, BitVec.ofNat 64 start, 0) :: r.1, r.2)

def State.svcAlloc (s : State) (c : Caller) (k : SvcCall) (lanes : List Nat) : CallRes :=
  let lg := if k.a3 = 0 then 6 else k.a3
  if k.pair1 = 0 || 2 ^ 40 < k.pair1 || lg < 6 || 16 < lg then allFail lanes 2 s
  else
    match look s.heaps c.heap with
    | none => allFail lanes 1 s
    | some h =>
      let r := placeBlocks (2 ^ lg) k.pair1 lanes h
      .done r.1 { s with heaps := ins s.heaps c.heap r.2 }

/-- FREE. -/
def State.svcFree (s : State) (c : Caller) (k : SvcCall) (lanes : List Nat) : CallRes :=
  match look s.heaps c.heap with
  | none => allFail lanes 2 s
  | some h =>
    if h.blocks.any (fun b => b.1 == k.pair1) then
      allLanes lanes 0 0 { s with heaps := ins s.heaps c.heap { h with blocks := h.blocks.filter (fun b => b.1 != k.pair1) } }
    else allFail lanes 2 s

/-- MAP. -/
def State.svcMap (s : State) (c : Caller) (k : SvcCall) (lanes : List Nat) : CallRes :=
  let add (s : State) (va : Nat) : CallRes :=
    let m : MapRange := ⟨c.x.part, c.x.asid, va, k.a3, k.a4 % 4, bit (BitVec.ofNat 64 k.a4) 2, bit (BitVec.ofNat 64 k.a4) 3⟩
    allLanes lanes (BitVec.ofNat 64 va) 0 { s with maps := s.maps ++ [m] }
  if k.a3 = 0 || k.a4 % 4 = 3 || 16 ≤ k.a4 then allFail lanes 2 s
  else if k.pair1 = 0 then
    let (z, s) := s.draw
    match s.freeRange c.x k.a3 (2 ^ 40) (z.toNat % 2 ^ 40) with
    | .ok (some va) s => add s va
    | .busy s => .busy s
    | _ => allFail lanes 1 s
  else if k.pair1 % 65536 ≠ 0 || !canonical k.pair1 || !canonical (k.pair1 + 65536 * k.a3 - 1) || 2 ^ 64 < k.pair1 + 65536 * k.a3 then
    allFail lanes 2 s
  else
    match s.rangeUsed c.x k.pair1 k.a3 with
    | .ok false s => add s k.pair1
    | .busy s => .busy s
    | _ => allFail lanes 12 s

/-- Clear the leaves that an UNMAP still has to clear, as far as it can go. -/
def State.clearPages (n : Nat) (x : Space) : Nat → Unmap → State → Unmap × State
  | 0, u, s => (u, s)
  | fuel + 1, u, s =>
    if u.left = 0 then (u, s)
    else
      let on (f : List Nat) : Unmap := { u with next := u.next + 65536, left := u.left - 1, frames := u.frames ++ f }
      match s.pageAct n x u.next .clear with
      | .busy s => (u, s)
      | .fault _ _ => State.clearPages n x fuel (on []) s
      | .ok f s => State.clearPages n x fuel (on f.toList) s

/-- An access of an address space is under way in a cluster. -/
def State.spaceBusy (s : State) (cl asid : Nat) : Bool :=
  (clusterAgents cl).any (fun n =>
    let mine (slot : Nat) : Bool := match look (s.core n).packs slot with | some p => p.asid == asid | none => false
    (s.core n).ops.any (fun o => mine o.slot) || (s.core n).fetches.any (fun f => mine f.slot && !f.todo.isEmpty && f.fault.isNone))

/-- The shards whose clusters run an ASID of a partition: a pack of it is resident there, or a translation of it is held (R370). -/
def State.runners (s : State) (part asid : Nat) : List Nat :=
  (List.range 32).filter (fun m => s.partOfCluster m == some part && !(s.core (64 + m)).failed &&
    ((clusterAgents m).any (fun n => (s.core n).packs.any (fun e => e.2.asid == asid)) ||
      (get [] s.ctb m).any (fun e => e.asid == asid)))

/-- A shard drops the translations of an ASID with TLBINV (R370): done once the accesses that began before are complete (R52). -/
def State.shardInval (s : State) (cl asid : Nat) : Bool × State :=
  let t := s.dropTlb cl true .asid asid 0
  (!t.spaceBusy cl asid, t)

/-- Tell the shards of an UNMAP in turn: the acting shard drops its own translations, and INVAL goes to the others. -/
def State.tellShards : List Nat → Unmap → State → Unmap × State
  | [], u, s => (u, s)
  | m :: ms, u, s =>
    if m = u.cluster then
      let r := s.shardInval m u.asid
      if r.1 then State.tellShards ms { u with tell := ms } r.2 else (u, r.2)
    else if !s.mailRoom m then (u, s)
    else
      State.tellShards ms { u with tell := ms, waiting := u.waiting ++ [m] }
        (s.sendMail u.cluster m msgInval u.asid u.num (BitVec.ofNat 64 u.va) (BitVec.ofNat 64 u.pages))

/-- Take an UNMAP as far as it can go: the leaves, then the shards. -/
def State.unmapGo (s : State) (x : Space) (u : Unmap) : Unmap × State :=
  let r := State.clearPages u.cluster x u.left u s
  if r.1.left ≠ 0 then r
  else
    let u := if u.left ≠ 0 then { r.1 with tell := r.2.runners u.part u.asid } else r.1
    State.tellShards u.tell u r.2

/-- The MAP ranges once a part of one is gone. -/
def cutRange (m : MapRange) (va stop : Nat) : List MapRange :=
  [{ m with pages := (va - m.va) / 65536 }, { m with va := stop, pages := (m.va + 65536 * m.pages - stop) / 65536 }].filter
    (fun (r : MapRange) => r.pages != 0)

/-- UNMAP (R344, R370): the leaves are cleared, every shard whose cluster runs the ASID drops its translations and answers, and only then
are the frames free again. -/
def State.svcUnmap (s : State) (c : Caller) (k : SvcCall) (lanes : List Nat) : CallRes :=
  let va := k.pair1
  let stop := va + 65536 * k.a3
  let mine (u : Unmap) : Bool := u.cluster == c.n && u.entry == c.entry && u.va == va && u.pages == k.a3
  let fresh : Unmap := ⟨s.next, c.n, c.entry, c.x.part, c.x.asid, va, k.a3, va, k.a3, [], [], []⟩
  match (s.mapsIn c.x).find? (fun m => decide (m.va ≤ va) && decide (stop ≤ m.va + 65536 * m.pages)) with
  | none => allFail lanes 2 s
  | some m =>
    if va % 65536 ≠ 0 || k.a3 = 0 then allFail lanes 2 s
    else
      let r := ({ s with next := s.next + 1 } : State).unmapGo c.x ((s.unmaps.find? mine).getD fresh)
      let u := r.1
      let s := { r.2 with unmaps := r.2.unmaps.filter (fun y => !mine y) }
      if u.left ≠ 0 || !u.tell.isEmpty || !u.waiting.isEmpty then .busy { s with unmaps := s.unmaps ++ [u] }
      else
        allLanes lanes 0 0 { (u.frames.foldl (fun (s : State) f => s.giveFrame c.n f) s) with
          maps := s.maps.filter (fun (r : MapRange) => r != m) ++ cutRange m va stop }

/-! ### Files (R372) -/

/-- Create a file: a free entry (of a new directory block where every block is full) and 65,536 blocks; none where the module's 8 TB do
not hold them (R2, R5). -/
def State.createFile (s : State) (part : Nat) (path : List Byte) : Option (Nat × State) :=
  let ns := partNs part
  let bs := s.dirBlocks ns 65536 0
  let slots := (bs.flatMap (fun b => (List.range 31).map (fun i => dirEnt ns b i))).filter (fun e => s.flashNum e 1 == 0)
  let nb := s.nextBlock ns
  if 8000000000000 < s.flashUsed + 4096 * 65537 then none
  else
    let write (e first : Nat) (s : State) : Nat × State :=
      (e, s.flashPut e (path ++ List.replicate (96 - path.length) 0 ++ bytesOf 8 first ++ bytesOf 24 0))
    match slots with
    | e :: _ => some (write e nb s)
    | [] => some (write (dirEnt ns nb 0) (nb + 1) (s.flashPut (dirEnt ns (bs.getLastD 0) 31 + 96) (bytesOf 8 nb)))

/-- Read a path ending in a zero byte, of at most 95 bytes. -/
def State.readPath (x : Space) : Nat → Nat → List Byte → State → EngRes (Option (List Byte))
  | 0, _, _, s => .ok none s
  | fuel + 1, va, acc, s =>
    (s.engRead x.eng va 1).andThen (fun b s => if b = [0] then .ok (some acc) s else State.readPath x fuel (va + 1) (acc ++ b) s)

/-- OPEN. -/
def State.svcOpen (s : State) (c : Caller) (k : SvcCall) (lanes : List Nat) : CallRes :=
  match s.userAccess c.n c.x false (State.readPath c.x 96 k.pair1 [] s) with
  | .busy s => .busy s
  | .fault _ _ => allFail lanes 13 s
  | .ok none s => allFail lanes 13 s
  | .ok (some none) s => allFail lanes 2 s
  | .ok (some (some path)) s =>
    if path.isEmpty || 8 ≤ k.a3 then allFail lanes 2 s
    else
      let w := k.a3 % 2 == 1
      let opened (e : Nat) (s : State) : CallRes :=
        let s := if 4 ≤ k.a3 then s.flashPut (e + 104) (bytesOf 8 0) else s
        let f : OpenFile := ⟨s.next % 2 ^ 32, c.x.part, c.x.asid, e, w⟩
        allLanes lanes (BitVec.ofNat 64 f.handle) 0 { s with next := s.next + 1, files := s.files ++ [f] }
      match s.dirFind (partNs c.x.part) path with
      | some e => opened e s
      | none =>
        if k.a3 / 2 % 2 = 0 then allFail lanes 3 s
        else match s.createFile c.x.part path with | some (e, s) => opened e s | none => allFail lanes 9 s

/-- The open file that a handle of the context names. -/
def State.fileOf (s : State) (x : Space) (h : Nat) : Option OpenFile :=
  s.files.find? (fun (f : OpenFile) => f.handle == h && f.part == x.part && f.asid == x.asid)

/-- PREAD and PWRITE of one lane: the transfer goes to the flash. -/
def State.svcFile (s : State) (c : Caller) (k : SvcCall) (lanes : List Nat) (w : Bool) : CallRes :=
  match s.fileOf c.x k.a1 with
  | none => allFail lanes 4 s
  | some f =>
    let off := 4096 * k.a5
    let len := s.flashNum (f.entry + 104) 8
    let n := if w then k.a4 else min k.a4 (len - off)
    if w && !f.write then allFail lanes 7 s
    else if w && 65536 * 4096 < off + n then allFail lanes 9 s
    else if n = 0 then allLanes lanes 0 0 s
    else .flash ⟨c.n, c.entry, lanes.headD 0, w, c.x.part, c.x.asid, k.pair2, partNs f.part + 4096 * s.flashNum (f.entry + 96) 8 + off, n⟩ s

/-! ### Sockets (R373) -/

/-- The socket of a context. -/
def State.sockOf (s : State) (x : Space) (h : Nat) : Option Sock :=
  s.socks.find? (fun (k : Sock) => k.id == h && k.part == x.part && k.asid == x.asid)
def State.putSock (s : State) (k : Sock) : State := { s with socks := s.socks.map (fun (y : Sock) => if y.id == k.id then k else y) }

/-- SOCKET. -/
def State.svcSocket (s : State) (c : Caller) (k : SvcCall) (lanes : List Nat) : CallRes :=
  if 1 < k.a1 then allFail lanes 2 s
  else
    let y : Sock := ⟨c.n, s.next % 2 ^ 32, c.x.part, c.x.asid, k.a1 == 1, false, (0, 0), [], []⟩
    allLanes lanes (BitVec.ofNat 64 y.id) 0 { s with next := s.next + 1, socks := s.socks ++ [y] }

/-- CONNECT: what a peer answers over TCP is a free value. Without a port that carries the partition's sockets the status is IO. -/
def State.svcConnect (s : State) (c : Caller) (k : SvcCall) (lanes : List Nat) : CallRes :=
  match s.sockOf c.x k.a1 with
  | none => allFail lanes 4 s
  | some y =>
    let up (s : State) : CallRes := allLanes lanes 0 0 (s.putSock { y with up := true, peer := (k.a2, k.a3 % 65536) })
    if (s.tcpPort c.x.part).isNone then allFail lanes 5 s
    else if y.udp then up s
    else
      let (z, s) := s.draw
      match z.toNat % 3 with
      | 0 => up s
      | 1 => allFail lanes 10 s
      | _ => allFail lanes 11 s

/-- SEND: the room of the buffer is a free value. -/
def State.svcSend (s : State) (c : Caller) (k : SvcCall) (lanes : List Nat) : CallRes :=
  match s.sockOf c.x k.a1 with
  | none => allFail lanes 4 s
  | some y =>
    match s.tcpPort c.x.part with
    | none => allFail lanes 5 s
    | some port =>
    if !y.up then allFail lanes 5 s
    else if k.a4 = 0 then allLanes lanes 0 0 s
    else
      let (z, s) := s.draw
      let n := min k.a4 z.toNat
      if n = 0 then allFail lanes 8 s
      else
        match s.userAccess c.n c.x false (s.engRead (c.x.portEng port) k.pair2 n) with
        | .busy s => .busy s
        | .ok (some bs) s => allLanes lanes (BitVec.ofNat 64 n) 0 (s.putSock { y with tx := y.tx ++ bs })
        | _ => allFail lanes 13 s

/-- RECV. -/
def State.svcRecv (s : State) (c : Caller) (k : SvcCall) (lanes : List Nat) : CallRes :=
  match s.sockOf c.x k.a1 with
  | none => allFail lanes 4 s
  | some y =>
    let n := min k.a4 y.rx.length
    if y.rx.isEmpty then allFail lanes 8 s
    else
      match s.userAccess c.n c.x true (s.engWrite (c.x.portEng ((s.tcpPort c.x.part).getD 0)) k.pair2 (y.rx.take n)) with
      | .busy s => .busy s
      | .ok (some _) s => allLanes lanes (BitVec.ofNat 64 n) 0 (s.putSock { y with rx := y.rx.drop n })
      | _ => allFail lanes 13 s

/-- LOG. -/
def State.svcLog (s : State) (c : Caller) (k : SvcCall) (lanes : List Nat) : CallRes :=
  if 4096 < k.a3 then allFail lanes 2 s
  else
    match s.userAccess c.n c.x false (s.engRead c.x.eng k.pair1 k.a3) with
    | .busy s => .busy s
    | .ok (some _) s => allLanes lanes (BitVec.ofNat 64 k.a3) 0 s
    | _ => allFail lanes 13 s

/-- One group of a call (R344, R345). -/
def State.svcGroup (s : State) (c : Caller) (k : SvcCall) (lanes : List Nat) : CallRes :=
  match k.num with
  | 0x00 => allLanes lanes 0 0 s
  | 0x01 => s.svcAlloc c k lanes
  | 0x02 => s.svcFree c k lanes
  | 0x03 => s.svcMap c k lanes
  | 0x04 => s.svcUnmap c k lanes
  | 0x10 => s.svcOpen c k lanes
  | 0x11 =>
    (match s.fileOf c.x k.a1 with
      | some f => allLanes lanes 0 0 { s with files := s.files.filter (fun (g : OpenFile) => g != f) }
      | none =>
        match s.sockOf c.x k.a1 with
        | some y => allLanes lanes 0 0 { s with socks := s.socks.filter (fun (z : Sock) => z != y) }
        | none => allFail lanes 4 s)
  | 0x12 => s.svcFile c k lanes false
  | 0x13 => s.svcFile c k lanes true
  | 0x14 => (match s.fileOf c.x k.a1 with | some _ => allLanes lanes 0 0 s | none => allFail lanes 4 s)
  | 0x20 => s.svcSocket c k lanes
  | 0x21 => s.svcConnect c k lanes
  | 0x22 => s.svcSend c k lanes
  | 0x23 => s.svcRecv c k lanes
  | 0x30 => allLanes lanes (BitVec.ofNat 64 s.time) 0 s
  | 0x31 => s.svcLog c k lanes
  | _ => allFail lanes 6 s

/-! ### Delivery (R343, R346, R354) -/

/-- The staging rows of an entry hold the results of lanes (R362). -/
def Core.stageRes (c : Core) (e : Nat) (r : List (Nat × W64 × Nat)) : Core :=
  let block := c.sysBase + 0x800 + 1152 * (e - 24)
  r.foldl (fun (c : Core) (x : Nat × W64 × Nat) =>
    ((c.spPut (block + 4 * x.1) (bytesOf 4 (fld x.2.1 0 32))).spPut (block + 384 + 4 * x.1) (bytesOf 4 x.2.2)).spPut
      (block + 768 + 4 * x.1) (bytesOf 4 (fld x.2.1 32 32))) c

/-- The pack area, by its VA, of the saved workgroup whose image waits on entry `e` of core `n`, with its split. -/
def State.savedCaller (s : State) (q : Eng) (n e : Nat) : EngRes (Option (Nat × Nat)) :=
  let launch := (s.core n).kfield e 56 4
  (s.saved.filter (fun (x : Saved) => x.launch == launch && x.core == n)).foldl (fun r x =>
    r.andThen (fun found s =>
      if found.isSome then .ok found s
      else
        (s.readImage q x.area.toNat).andThen (fun w s =>
          .ok ((w.areas x.area.toNat).findSome? (fun h => ((List.range 4).find? (fun j =>
            imgNum h.2 (0x80 + 64 * j + 32) 1 == 2 && imgNum h.2 (0x80 + 64 * j + 33) 1 == 1 && imgNum h.2 (0x80 + 64 * j + 35) 1 == e)).map
              (fun j => (h.1, j)))) s))) (.ok none s)

/-- Results for a saved pack: its rows in the image, DONE, and, once DONE is LANES, the split READY at its successor and the entry free. -/
def State.deliverSaved (s : State) (cl n e : Nat) (r : List (Nat × W64 × Nat)) (m : Mask) : EngRes Unit :=
  let q := s.shardEng cl kWrite
  (s.savedCaller q n e).andThen (fun found s =>
    match found with
    | none => .ok () (s.updCore n (fun c => c.kfree e))
    | some (area, j) =>
      let vb := (s.core n).kfield e 6 2
      (s.engNum q (area + 64) 2).andThen (fun sz s =>
        let size := sz % 4096
        let put (row : Nat) (f : W64 × Nat → Nat) (s : State) : EngRes Unit :=
          if size ≤ vb + row then .ok () s
          else r.foldl (fun t x => t.andThen (fun _ s => s.engWrite q (area + 4096 + 384 * (vb + row) + 4 * x.1) (bytesOf 4 (f x.2)))) (.ok () s)
        (put 0 (fun x => fld x.1 0 32) s).andThen (fun _ s =>
          (put 1 (fun x => x.2) s).andThen (fun _ s =>
            (put 2 (fun x => fld x.1 32 32) s).andThen (fun _ s =>
              let s := s.updCore n (fun c => c.addDone e m)
              let c := s.core n
              if c.kdone e ≠ c.klanes e then .ok () s
              else
                let o := area + 0x80 + 64 * j
                (s.engWrite q o (bytesOf 8 (succPc (BitVec.ofNat 64 (c.kfield e 32 8)) 12).toNat)).andThen (fun _ s =>
                  (s.engWrite q (o + 32) [1, 0]).andThen (fun _ s =>
                    (s.engWrite q (o + 35) [0xFF]).andThen (fun _ s => .ok () (s.updCore n (fun c => c.kfree e))))))))))

/-- Deliver the results of a group of entry `e` (0-63) of a cluster. -/
def State.deliverGroup (s : State) (cl e : Nat) (r : List (Nat × W64 × Nat)) : EngRes Unit :=
  let n := 2 * cl + e / 32
  let k := e % 32
  let m := maskOf (fun L => r.any (fun x => x.1 == L))
  if (s.core n).kfield k 0 1 ≠ 1 then .ok () s
  else if (s.core n).kfield k 1 1 / 2 % 2 = 1 then s.deliverSaved cl n k r m
  else .ok () (s.updCore n (fun c => (c.stageRes k r).deliver k m))

/-- Deliver every group that has all its results. -/
def State.deliverJobs (s : State) (cl : Nat) : State :=
  s.jobs.foldl (fun (s : State) (j : Job) =>
    if j.cluster = cl && j.entry < 64 && j.res.length = j.lanes.length then
      match s.deliverGroup cl j.entry j.res with
      | .ok _ s => { s with jobs := s.jobs.filter (fun (k : Job) => k != j) }
      | .busy s => s
      | .fault _ _ => s
    else s) s

/-- NVME_COMPLETION of the flash work at position `k` (R372): the bytes move between the flash and the caller's buffer; `ok` is false for a
flash error. -/
def execNvmeCompletion (k : Nat) (ok : Bool) (s : State) : Host.Outcome State Fault Refusal :=
  match s.flashq[k]? with
  | none => .next s
  | some f =>
    let finish (v st : Nat) (s : State) : Host.Outcome State Fault Refusal :=
      let res (j : Job) : Job :=
        if j.cluster == f.cluster && j.entry == f.entry && j.lanes.contains f.lane then { j with res := j.res ++ [(f.lane, BitVec.ofNat 64 v, st)] } else j
      .next (({ s with flashq := s.flashq.eraseIdx k, jobs := s.jobs.map res } : State).deliverJobs f.cluster)
    let x := s.space f.part f.asid
    if !ok then finish 0 5 s
    else if f.write then
      match s.userAccess f.cluster x false (s.engRead x.eng f.va f.n) with
      | .busy s => .next s
      | .ok (some bs) s =>
        let s := s.flashPut f.off bs
        -- the file grows to the end of the write
        let b := (f.off - partNs f.part) / 4096
        let grow (s : State) (e : Nat) : State :=
          let first := s.flashNum (e + 96) 8
          if first ≤ b && b < first + 65536 then
            s.flashPut (e + 104) (bytesOf 8 (max (s.flashNum (e + 104) 8) (f.off + f.n - partNs f.part - 4096 * first)))
          else s
        finish f.n 0 ((s.dirEntries (partNs f.part)).foldl grow s)
      | _ => finish 0 13 s
    else
      match s.userAccess f.cluster x true (s.engWrite x.eng f.va (s.flashBytes f.off f.n)) with
      | .busy s => .next s
      | .ok (some _) s => finish f.n 0 s
      | _ => finish 0 13 s

/-! ### Service calls (R342) -/

/-- The call of a lane of an entry. -/
def Core.callAt (c : Core) (e L : Nat) : SvcCall :=
  let rows : SMap Row := match look c.packs (c.kfield e 3 1) with | some p => p.rows | none => []
  let a (r : Nat) : Nat := (lane (get zeroRow rows (c.kfield e 6 2 + r)) L).toNat
  ⟨a 0 % 65536, a 1, a 2, a 3, a 4, a 5⟩

/-- The calls whose lanes are never grouped. -/
def singleCall (num : Nat) : Bool := num == 0x02 || num == 0x12 || num == 0x13 || num == 0x22 || num == 0x23 || num == 0x31

/-- The I/O shard of a partition (R372): that of its lowest cluster. -/
def State.ioShard (s : State) (part : Nat) : Option Nat := (List.range 32).find? (fun n => s.partOfCluster n == some part)

/-- The shard that a call reaches: the I/O shard for what needs the directory, a socket's own for SEND and RECV (R372, R373), and else the
caller's. -/
def State.callShard (s : State) (c : Caller) (k : SvcCall) : Nat :=
  if k.num = 0x10 || k.num = 0x12 || k.num = 0x13 then (s.ioShard c.x.part).getD c.n
  else if k.num = 0x22 || k.num = 0x23 then (match s.sockOf c.x k.a1 with | some y => y.cluster | none => c.n)
  else c.n

/-- Put a call to another shard, with IOREQ (R371): none while its mailbox is full. -/
def State.ask (s : State) (c : Caller) (k : SvcCall) (lanes : List Nat) (t : Nat) : Option State :=
  if !s.mailRoom t then none
  else
    let va := s.next
    let r : IoReq := ⟨va, c.n, t, c.entry, lanes, c.x.part, c.x.asid, c.x.root, c.heap, [k.num, k.a1, k.a2, k.a3, k.a4, k.a5], none⟩
    some { (({ s with next := s.next + 1 } : State).sendMail c.n t msgIoreq 0 0 (BitVec.ofNat 64 va) 0) with ioreqs := s.ioreqs ++ [r] }

/-- The call and the caller of a request. -/
def IoReq.svc (r : IoReq) : SvcCall :=
  ⟨r.call.getD 0 0, r.call.getD 1 0, r.call.getD 2 0, r.call.getD 3 0, r.call.getD 4 0, r.call.getD 5 0⟩
def IoReq.space (r : IoReq) : Space := ⟨r.part, r.asid, r.root⟩

/-- The groups that a shard serves at a time are those of one kennel entry (R342): the entries of a cluster whose service has begun and is
not complete. -/
def State.openEntries (s : State) (cl : Nat) : List Nat :=
  (List.range 64).filter (fun e =>
    let c := s.core (2 * cl + e / 32)
    let k := e % 32
    s.jobs.any (fun (j : Job) => j.cluster == cl && j.entry == e) || s.unmaps.any (fun (u : Unmap) => u.cluster == cl && u.entry == e) ||
    (c.kfield k 0 1 == 1 && c.kdone k != 0 && c.kdone k != c.klanes k))

/-- Begin the next group of entry `e` (0-63), in ascending order of the lowest lanes; with the last the event is served. A call that another
shard serves is put to it; where that one has failed, the call fails with IO. -/
def State.serveCall (s : State) (cl e : Nat) (ev : SvcEvent) : State :=
  let n := 2 * cl + e / 32
  let k := e % 32
  let c := s.core n
  let served (s : State) : State := s.updCore (64 + cl) (fun q => { q with events := q.events.filter (fun x => x != ev) })
  let begun (L : Nat) : Bool := (c.kdone k).getLsbD L || s.jobs.any (fun (j : Job) => j.cluster == cl && j.entry == e && j.lanes.contains L)
  let left := (List.range 96).filter (fun L => (c.klanes k).getLsbD L && !begun L)
  if c.kfield k 0 1 ≠ 1 then served s
  else
    match left with
    | [] => served s
    | L :: _ =>
      let call := c.callAt k L
      let lanes := if singleCall call.num then [L] else left.filter (fun M => c.callAt k M == call)
      let launch := look s.launches (c.kfield k 56 4)
      let x := s.space ((s.partOfCluster cl).getD 0) (c.kfield k 60 2)
      let x := match look c.packs (c.kfield k 3 1) with | some p => s.packSpace n p | none => x
      let heap := match launch with | some l => 64 * l.fn + l.proc | none => 64 * 512
      let me : Caller := ⟨cl, e, x, heap⟩
      let t := s.callShard me call
      if t ≠ cl then
        if !s.shardRuns t then ({ s with jobs := s.jobs ++ [⟨cl, e, lanes, lanes.map (fun L => (L, 0, 5))⟩] } : State).deliverJobs cl
        else
          match s.ask me call lanes t with
          | some s => { s with jobs := s.jobs ++ [⟨cl, e, lanes, []⟩] }
          | none => s
      else
      match s.svcGroup me call lanes with
      | .busy s => s
      | .done r s => ({ s with jobs := s.jobs ++ [⟨cl, e, lanes, r⟩] } : State).deliverJobs cl
      | .flash f s => { s with jobs := s.jobs ++ [⟨cl, e, lanes, []⟩], flashq := s.flashq ++ [f] }

/-! ### Faults and stops (R293, R335, R349, R353, R354) -/

/-- Serve one fault of a pack on core `n`: whether it is recovered (R353). -/
def State.serveFault (s : State) (cl n : Nat) (p : Pack) (f : FaultRec) : EngRes Bool :=
  let x := s.packSpace n p
  let kind := fld f.finfo 6 3
  if f.code = fcPageFault then s.servePage cl x f.fva.toNat (fld f.finfo 0 4) (kind == kWrite || kind == kAtomic)
  else if f.code = fcOwnerLost then
    match s.engXlate { x.eng with kind := kRead } f.fva.toNat false with
    | .busy s => .busy s
    | .fault _ _ => .ok false s
    | .ok (pa, _) s =>
      let w := pa / 4
      if !(match s.reg w with | .lost _ => true | _ => false) then .ok true s
      else if !s.ready w then .busy (s.drainWord ⟨64 + cl, false⟩ w 15)
      else
        let s := (regOwners (s.reg w)).foldl (fun (s : State) o => s.dropOwner o.1 w) s
        .ok true (((s.setReg w .unreg).setWord w 0).countEnci w)
  else .ok false s

/-- Serve the faults of a stopped pack, the primary one first: the code of the first that is not recovered. -/
def State.serveFaults (cl n : Nat) (p : Pack) : List FaultRec → State → EngRes (Option Nat)
  | [], s => .ok none s
  | f :: fs, s => (s.serveFault cl n p f).andThen (fun ok s => if ok then State.serveFaults cl n p fs s else .ok (some f.code) s)

/-- The workgroup of a pack is to be saved: its function's slice has expired without DRAIN, its function or the module stops, or a register
deadlock chose it. -/
def State.mustSave (s : State) (n : Nat) (p : Pack) : Bool :=
  s.jobs.any (fun (j : Job) => j.cluster == n / 2 && j.entry == 64 + n % 2 && j.lanes == [p.launch, p.wg]) ||
  (match look s.launches p.launch with
    | none => false
    | some l =>
      s.fnStopped l.fn || ((s.dist l.part).expired && (s.dist l.part).fn == l.fn && !bit (s.regVal (partSched l.part)) 6))

/-- A stopped pack holds no fault that the service core has not served (R347, R349, R354). -/
def Pack.settledStop (p : Pack) : Bool :=
  match p.stop with
  | some x => x.done && (x.served || (x.fault.isNone && p.secondary.isEmpty))
  | none => false

/-- Save a stopped workgroup, once every pack of it is stopped with its faults served, its window is quiet and its calls have begun (R342,
R349, R365). The area is where Zumos chooses. -/
def State.trySave (s : State) (cl n : Nat) (p : Pack) : State :=
  let c := s.core n
  let slots := c.wgSlots p
  let unbegun := (s.core (64 + cl)).events.any (fun e => e.kind == 2 && e.entry / 32 == n % 2 && decide (24 ≤ e.entry % 32))
  if (c.wgPacks p).any (fun q => !q.settledStop) || !s.windowQuiet p.launch p.wg || unbegun then s
  else
    let (z, s) := s.draw
    match s.saveWg (s.shardEng cl kWrite) n p (z &&& 0x00FFFFFFFFFFF000) with
    | .ok _ s =>
      let mine (e : SvcEvent) : Bool := e.kind == 2 && e.entry / 32 == n % 2 && slots.contains (e.entry % 32)
      let s := s.updCore (64 + cl) (fun q => { q with events := q.events.filter (fun e => !mine e) })
      { s with jobs := s.jobs.filter (fun (j : Job) => !(j.cluster == cl && j.entry == 64 + n % 2 && j.lanes == [p.launch, p.wg])) }
    | .busy s => s
    | .fault _ f =>
      -- a workgroup whose image holds poison cannot be saved: its packs end with the code that the save met (R34)
      if f.code ≠ fcDataUe then s
      else
        slots.foldl (fun (s : State) k =>
          match look (s.core n).packs k with | some q => s.killPack n k q fcDataUe | none => s) s

/-- Serve the record of a stopped pack: its workgroup is saved, or its faults are served and it is resumed, held or ended. -/
def State.serveStop (s : State) (cl e : Nat) (ev : SvcEvent) : State :=
  let n := 2 * cl + e / 32
  let k := e % 32
  let served (s : State) : State := s.updCore (64 + cl) (fun q => { q with events := q.events.filter (fun x => x != ev) })
  match look (s.core n).packs k with
  | none => served s
  | some p =>
    if p.ended || !p.stopped then served s
    else
      let faults := (match p.stop with | some x => (match x.fault with | some f => [f] | none => []) | none => []) ++ p.secondary
      match (if p.settledStop then .ok none s else State.serveFaults cl n p faults s) with
      | .busy s => s
      | .fault _ _ => s
      | .ok (some code) s =>
        let held := bit (p.special sprCtxcfg) 20 && (code == fcTrap || code == fcBreak || code == fcWatchdog)
        served (if held then s else s.killPack n k p code)
      | .ok none s =>
        let s := s.updCore n (fun c => c.updPack k (fun q => { q with stop := q.stop.map (fun (x : Stop) => { x with served := true }) }))
        if s.mustSave n p then s.trySave cl n p else served (s.resumePack n k)

/-- REGDEAD (R293): the workgroup that became resident last among those with a pack waiting in REGGROW is stopped to be saved, with its
cohort. -/
def State.serveRegdead (s : State) (n : Nat) : State :=
  let c := s.core n
  let growing := c.wins.filter (fun (w : WgWin) => c.packs.any (fun e => e.2.launch == w.launch && e.2.wg == w.wg && e.2.growing))
  match growing.foldl (fun (b : Option WgWin) w => match b with | some x => if x.order < w.order then some w else b | none => some w) none with
  | none => s
  | some w =>
    let wgs := match look s.launches w.launch with | some l => l.cohort w.wg | none => [w.wg]
    (List.range 64).foldl (fun (s : State) m =>
      ((s.core m).wins.filter (fun (x : WgWin) => x.launch == w.launch && wgs.contains x.wg)).foldl (fun (s : State) x =>
        let s := ((s.core m).packs.filter (fun e => e.2.launch == x.launch && e.2.wg == x.wg)).foldl (fun (s : State) e => s.preempt m e.1 2) s
        { s with jobs := s.jobs ++ [⟨m / 2, 64 + m % 2, [x.launch, x.wg], []⟩] }) s) s

/-! ### Restoring (R285, R287, R365, R371) -/

/-- Load the workgroup at an area onto the first core of a list that takes it. -/
def State.loadAny (s : State) (cores : List Nat) (area : Nat) : Option State :=
  cores.findSome? (fun n => match s.loadWg (s.shardEng (n / 2) kRead) n area with | .ok (.status 0) t => some t | _ => none)

/-- Load several workgroups, or none: every assignment of them to the cores is tried (R287, R294). -/
def loadAll (cores : List Nat) : List Nat → State → Option State
  | [], s => some s
  | a :: as_, s =>
    cores.findSome? (fun n => match s.loadWg (s.shardEng (n / 2) kRead) n a with | .ok (.status 0) t => loadAll cores as_ t | _ => none)

/-- Bring home the words of some images that are on their way: the state to go on with, if any are. -/
def State.fetchImages (q : Eng) : List Nat → State → Option State
  | [], _ => none
  | a :: as_, s => match s.readImage q a with | .busy t => some t | _ => State.fetchImages q as_ s

/-- Restore the oldest saved workgroup that has room, with its cohort, once every member of that has left its core (R287): its function
holds the slice and is not stopped. -/
def State.restore (s : State) (cl : Nat) : State :=
  match s.partOfCluster cl with
  | none => s
  | some p =>
    let d := s.dist p
    if d.expired || s.fnStopped d.fn then s
    else
      ((s.saved.filter (fun (x : Saved) => x.core / 2 == cl)).findSome? (fun x =>
        match look s.launches x.launch with
        | none => none
        | some l =>
          if l.part ≠ p || l.fn ≠ d.fn then none
          else
            let wgs := l.cohort x.wg
            let here := (List.range 64).any (fun m => (s.core m).wins.any (fun (w : WgWin) => w.launch == x.launch && wgs.contains w.wg))
            if here then none
            else
            let areas := (s.saved.filter (fun (y : Saved) => y.launch == x.launch && wgs.contains y.wg)).map (fun (y : Saved) => y.area.toNat)
            match State.fetchImages (s.shardEng cl kRead) areas s with
            | some t => some t
            | none => loadAll (s.partCores p) areas s)).getD s

/-! ### The plan (R374) -/

/-- The module shard: that of the lowest cluster of the module that passes its test (R402), once it runs. -/
def State.moduleShard (s : State) : Option Nat :=
  match (List.range 32).find? (fun n => s.clusterSt n != 3) with
  | some n => if (s.core (64 + n)).started then some n else none
  | none => none

/-- The clusters and slices that self-test has fenced, as sets. -/
def State.fencedClusters (s : State) : W64 :=
  BitVec.ofNat 64 ((List.range 32).foldl (fun a n => if s.clusterSt n = 3 then a + 2 ^ n else a) 0)
def State.fencedSlices (s : State) (base : Nat) : W64 :=
  BitVec.ofNat 64 ((List.range 64).foldl (fun a i => if base + i < 96 && bit (s.regVal (sliceStat (base + i))) 2 then a + 2 ^ i else a) 0)

/-- A write of the plan: before EN a partition's sets lose what is fenced by then, and EN waits until every cluster that is left is READY.
-/
def State.planWrite (s : State) (n a : Nat) (v : W64) : Option State :=
  let w (s : State) (a : Nat) (v : W64) : State := s.regWrite (.sc n) a v (BitVec.allOnes 64)
  match inRange 0x10_0000 0x40 32 (a / 0x40 * 0x40) with
  | none => some (w s a v)
  | some p =>
    if a % 0x40 = 0 && bit v 0 then
      let s := w s (a + 0x08) (s.part p 0x08 &&& ~~~s.fencedClusters)
      let s := w s (a + 0x10) (s.part p 0x10 &&& ~~~s.fencedSlices 0)
      let s := w s (a + 0x18) (s.part p 0x18 &&& ~~~s.fencedSlices 64)
      if (List.range 32).any (fun c => bit (s.part p 0x08) c && s.clusterSt c != 2) then none else some (w s a v)
    else some (w s a v)

/-- Apply one step of the plan, or none while it has to wait. -/
def State.planStep (s : State) (n : Nat) : PlanStep → Option State
  | .reg a v => s.planWrite n a v
  | .place pa bs =>
    if (List.range 32).any (fun p => s.partSt p == 3 && s.reachable (some p) pa) && !isHost pa then
      (match s.writeBytes ⟨64 + n, false⟩ pa bs with
        | .ok s => some { s with placed := s.placed ++ (List.range ((pa % 65536 + bs.length + 65535) / 65536)).map (fun i => pa / 65536 + i) }
        | .busy s => some { s with plan := .place pa bs :: s.plan } | .fault _ => some s)
    else if (List.range 32).any (fun p => bit (s.part p 0) 0 && s.partSt p != 3) then none
    else some s
  | .proc k asid => some { s with procs := set 0 s.procs k asid }
  | .root k v => some { s with roots := set 0 s.roots k v }
  | .heap k base quota => some { s with heaps := ins s.heaps k ⟨base, quota, base, []⟩ }
  | .launch q bs =>
    match s.desc 0 q with
    | .ok d =>
      (match s.postPacket 96 0 q d bs 0 with
        | .ok t => some { t with posted := s.posted }
        | .busy t => some { t with plan := .launch q bs :: t.plan }
        | .fault _ => some s)
    | .busy t => some { t with plan := .launch q bs :: t.plan }
    | _ => some s

/-- The bytes of /boot/plan, in the store of the module namespace; none where there is no such file (R374). -/
def State.planFile (s : State) : List Byte :=
  match s.dirFind moduleNs [0x2F, 0x62, 0x6F, 0x6F, 0x74, 0x2F, 0x70, 0x6C, 0x61, 0x6E] with
  | none => []
  | some e => s.flashBytes (moduleNs + 4096 * s.flashNum (e + 96) 8) (s.flashNum (e + 104) 8)

/-- The module shard's turn at the plan: it reads the file, and then takes step by step; after the last step the writes that wait at the hub
are performed. -/
def State.applyPlan (s : State) (n : Nat) : State :=
  if s.planDone || s.moduleShard ≠ some n then s
  else if !s.planRead then { s with planRead := true, plan := if s.planFile.isEmpty then [] else Config.planSteps s.planFile }
  else
    match s.plan with
    | x :: rest => (({ s with plan := rest } : State).planStep n x).getD s
    | [] =>
      let held := s.heldWrites
      held.foldl (fun (s : State) e => s.regWrite (.fn 0) e.1 e.2.2 (BitVec.ofNat 64 e.2.1)) { s with planDone := true, heldWrites := [] }

/-! ### The pools of free frames (R370) -/

/-- A table, or a leaf under it at any page size, covers a frame. -/
def State.tableUses (s : State) (f : Nat) : Nat → Nat → Nat → Bool
  | 0, _, _ => false
  | fuel + 1, table, level =>
    table / 65536 == f ||
    (List.range (if level = 3 then 2048 else 1024)).any (fun i =>
      let e : W64 := BitVec.ofNat 64 (s.bytes (table + 8 * i) 8)
      if !bit e 0 then false
      else if bit e 1 then fld e 16 32 / 2 ^ (10 * level) == f / 2 ^ (10 * level)
      else s.tableUses f fuel (fld e 13 35 * 2 ^ 13) (level - 1))

/-- The roots of the page tables of a partition: those of its address spaces, and those of its shards. -/
def State.partRoots (s : State) (p : Nat) : List W64 :=
  (s.roots.filter (fun e => e.1 / 65536 == p)).map (fun e => e.2) ++
  ((List.range 32).filter (fun n => s.partOfCluster n == some p)).filterMap (fun n =>
    (look (s.core (64 + n)).packs 0).map (fun (q : Pack) => q.root))

/-- A frame that no pool may hold: it lies under a leaf, or holds a table, a VCP page or a structure of the plan. -/
def State.frameTaken (s : State) (p f : Nat) : Bool :=
  s.placed.contains f || (List.range 385).any (fun n => s.vcpPage n == some (65536 * f)) ||
  (s.partRoots p).any (fun r => bit r 0 && s.tableUses f 4 (fld r 14 34 * 2 ^ 14) 3)

/-- The free frames of a partition, rising. -/
def State.freeFrames (s : State) (p : Nat) : List Nat :=
  ((List.range 96).filter (fun sl => s.hasSlice p sl)).flatMap (fun sl =>
    ((List.range 131072).map (fun i => 131072 * sl + i)).filter (fun f => s.reachable (some p) (65536 * f) && !s.frameTaken p f))

/-- Build the pools of a partition's shards: the free frames go round them (R370). -/
def State.buildPools (s : State) (p : Nat) : State :=
  let shards := (List.range 32).filter (fun n => s.partOfCluster n == some p)
  let fs := (s.freeFrames p).zipIdx
  { (shards.zipIdx.foldl (fun (s : State) c =>
      { s with pools := set [] s.pools c.1 ((fs.filter (fun f => f.2 % shards.length == c.2)).map (fun f => f.1)) }) s) with
    pooled := s.pooled ++ [p] }

/-- The module shard builds the pools of a partition that is READY and has none, once the plan is applied. -/
def State.poolTurn (s : State) (n : Nat) : State :=
  if !s.planDone || s.moduleShard ≠ some n then s
  else match (List.range 32).find? (fun p => s.partSt p == 3 && !s.pooled.contains p) with
    | some p => s.buildPools p
    | none => s

/-! ### A shard's turn -/

/-- FRAMES at a shard (R371): asked for frames, it gives what its pool has of them as a list; given a list, it adds them. -/
def State.serveFrames (s : State) (cl : Nat) (m : Mail) : State :=
  if m.p1 ≠ 0 then
    let pool := get [] s.pools cl
    let n := m.p1.toNat
    { ({ s with next := s.next + 1, pools := set [] s.pools cl (pool.drop n) } : State).sendMail cl m.src msgFrames 0 0 0 (BitVec.ofNat 64 s.next) with
      frameLists := s.frameLists ++ [(s.next, pool.take n)] }
  else
    let fs := match s.frameLists.find? (fun e => e.1 == m.p2.toNat) with | some e => e.2 | none => []
    { fs.foldl (fun (s : State) f => s.giveFrame cl f) s with
      frameLists := s.frameLists.filter (fun e => e.1 != m.p2.toNat), frameAsks := s.frameAsks.filter (fun k => k != cl) }

/-- IOREQ at a shard (R371-R373): the call is served as its own shard would serve it, and IODONE goes back with the value and the status. Of
PREAD and PWRITE it gives the extent, and the transfer is the asking shard's. -/
def State.serveIoreq (s : State) (cl : Nat) (m : Mail) (take : State → State) : State :=
  match s.ioreqs.find? (fun (r : IoReq) => r.target == cl && r.va == m.p1.toNat) with
  | none => take s
  | some r =>
    let reply (v : W64) (st : Nat) (s : State) : State := (take s).sendMail cl r.cluster msgIodone st 0 m.p1 v
    match s.svcGroup ⟨cl, r.entry, r.space, r.heap⟩ r.svc r.lanes with
    | .busy s => s
    | .done ((_, v, st) :: _) s => reply v st s
    | .done [] s => reply 0 0 s
    | .flash f s =>
      reply 0 0 { s with ioreqs := s.ioreqs.map (fun (k : IoReq) => if k.va == r.va then { k with extent := some (f.off, f.n) } else k) }

/-- IODONE at the shard that asked (R371): the results of its lanes have come, or the extent of its transfer, which enters its own NVMe
queue pair (R372). -/
def State.serveIodone (s : State) (cl : Nat) (m : Mail) : State :=
  match s.ioreqs.find? (fun (r : IoReq) => r.cluster == cl && r.va == m.p1.toNat) with
  | none => s
  | some r =>
    let s := { s with ioreqs := s.ioreqs.filter (fun (k : IoReq) => k.va != r.va) }
    match r.extent with
    | some (off, n) =>
      { s with flashq := s.flashq ++ [⟨cl, r.entry, r.lanes.headD 0, r.svc.num == 0x13, r.part, r.asid, r.svc.pair2, off, n⟩] }
    | none =>
      let res (j : Job) : Job :=
        if j.cluster == cl && j.entry == r.entry && j.lanes == r.lanes then
          { j with res := r.lanes.map (fun L => (L, m.p2, fld m.p0 8 16)) } else j
      ({ s with jobs := s.jobs.map res } : State).deliverJobs cl

/-- A message of another shard (R371): INVAL is carried out and, once the accesses that began before are complete, answered; an ACK ends the
wait of the UNMAP whose number it bears; FRAMES, IOREQ and IODONE are served; RESTORE loads a workgroup. A message that is to be answered
waits for room in the other's mailbox. Other types are consumed: a started shard's answer to its die shard is one (R374). -/
def State.serveMail (s : State) (cl : Nat) (m : Mail) : State :=
  let take (s : State) : State := s.updCore (64 + cl) (fun q => { q with mailbox := q.mailbox.drop 1 })
  let type := fld m.p0 0 8
  if type = msgInval then
    let r := s.shardInval cl (fld m.p0 8 16)
    if !r.1 || !s.mailRoom m.src then r.2 else (take r.2).sendMail cl m.src msgAck 0 0 (BitVec.ofNat 64 (fld m.p0 24 40)) 0
  else if type = msgAck then
    { (take s) with unmaps := s.unmaps.map (fun u =>
        if u.cluster == cl && BitVec.ofNat 64 u.num == m.p1 then { u with waiting := u.waiting.filter (fun k => k != m.src) } else u) }
  else if type = msgFrames then (if m.p1 ≠ 0 && !s.mailRoom m.src then s else (take s).serveFrames cl m)
  else if type = msgIoreq then (if !s.mailRoom m.src then s else s.serveIoreq cl m take)
  else if type = msgIodone then (take s).serveIodone cl m
  else if type = msgRestore then ((take s).loadAny [2 * cl, 2 * cl + 1] m.p1.toNat).getD (take s)
  else take s

/-- Serve one event. -/
def State.serveEvent (s : State) (cl : Nat) (e : SvcEvent) : State :=
  let served (s : State) : State := s.updCore (64 + cl) (fun q => { q with events := q.events.filter (fun x => x != e) })
  if e.kind = 2 then (if 24 ≤ e.entry % 32 then s.serveCall cl e.entry e else s.serveStop cl e.entry e)
  else if e.kind = 3 then served (s.serveRegdead (2 * cl + e.src))
  else served s

/-- The start of shards (R374): a shard that has been started answers its die shard with a message, which makes its cluster READY; the die
shard starts those that have passed their test. -/
def State.serveBoot (s : State) (n : Nat) : State :=
  match s.dieShard (n / 8) with
  | none => s
  | some d =>
    if d ≠ n then (if s.clusterSt n = 1 && s.mailRoom d then (s.sendMail n d 0 0 0 0 0).bootAnswer n d else s)
    else
      match (List.range 8).find? (fun i => s.clusterSt (8 * (n / 8) + i) == 1 && s.tested.contains (8 * (n / 8) + i) &&
          !(s.core (64 + 8 * (n / 8) + i)).started) with
      | some i => s.startShard (8 * (n / 8) + i) (s.imageBytes 0)
      | none => s

/-- Serve a page fault of an engine (R46), and let the work go on. -/
def State.serveEngine (s : State) (cl : Nat) : State :=
  match s.engfaults.findIdx? (fun (f : EngFault) => f.cluster == cl) with
  | none => s
  | some i =>
    match s.engfaults[i]? with
    | none => s
    | some f =>
      match s.servePage cl ⟨(s.partOfCluster cl).getD 0, f.asid, f.root⟩ f.va f.reason false with
      | .busy s => s
      | .fault _ _ => s
      | .ok _ s => (match execEngineFaultResume i s with | .next t => t | _ => s)

/-- The first of some changes that changes the state. -/
def firstChange (s : State) : List (State → State) → State
  | [] => s
  | f :: fs => let t := f s; if t = s then firstChange s fs else t

/-- A turn of Zumos on the service core of a cluster. Calls are begun before a workgroup is saved, those of one kennel entry at a time
(R342); otherwise events are taken in the order of R368. -/
def State.zumosTurn (s : State) (n : Nat) : State :=
  let c := s.core (64 + n)
  if !s.shardRuns n then s
  else
    let es := sortBy (fun x y => decide (x.rank ≤ y.rank)) c.events
    let svc := es.filter (fun e => e.kind == 2 && decide (24 ≤ e.entry % 32))
    let rest := es.filter (fun e => !svc.contains e)
    let calls := match s.openEntries n with
      | [] => svc.take 1
      | opens => svc.filter (fun e => opens.contains e.entry)
    firstChange s ((fun (s : State) => s.serveBoot n) :: (fun (s : State) => s.installTurn n) :: (fun (s : State) => s.deliverJobs n) ::
      (calls ++ rest).map (fun e => fun (s : State) => s.serveEvent n e) ++
      c.mailbox.head?.toList.map (fun m => fun (s : State) => s.serveMail n m) ++
      [(fun (s : State) => s.serveEngine n), (fun (s : State) => s.restore n), (fun (s : State) => s.applyPlan n),
        (fun (s : State) => s.poolTurn n)])

end Sys2Proof.Machine
end

