-- ==== Sys2Proof/Machine/Dispatch.lean ====
section
/-! DEFINITION. The dispatch: one arm for each constructor of Instr. -/

namespace Sys2Proof.Machine

/-- What an instruction or event does (each arm calls its own meaning). -/
def exec (i : Instr) (s : State) : Host.Outcome State Fault Refusal :=
  match i with
  | .sadd c ty d a b => Sys2Proof.Machine.execSadd c ty d a b s
  | .ssub c ty d a b => Sys2Proof.Machine.execSsub c ty d a b s
  | .smul c ty d a b => Sys2Proof.Machine.execSmul c ty d a b s
  | .smulh c ty d a b => Sys2Proof.Machine.execSmulh c ty d a b s
  | .smulhn c ty d a b => Sys2Proof.Machine.execSmulhn c ty d a b s
  | .sdiv c ty d a b => Sys2Proof.Machine.execSdiv c ty d a b s
  | .sdivn c ty d a b => Sys2Proof.Machine.execSdivn c ty d a b s
  | .srem c ty d a b => Sys2Proof.Machine.execSrem c ty d a b s
  | .sremn c ty d a b => Sys2Proof.Machine.execSremn c ty d a b s
  | .sand c ty d a b => Sys2Proof.Machine.execSand c ty d a b s
  | .sor c ty d a b => Sys2Proof.Machine.execSor c ty d a b s
  | .sxor c ty d a b => Sys2Proof.Machine.execSxor c ty d a b s
  | .sandn c ty d a b => Sys2Proof.Machine.execSandn c ty d a b s
  | .sshl c ty d a b => Sys2Proof.Machine.execSshl c ty d a b s
  | .sshr c ty d a b => Sys2Proof.Machine.execSshr c ty d a b s
  | .ssra c ty d a b => Sys2Proof.Machine.execSsra c ty d a b s
  | .smin c ty d a b => Sys2Proof.Machine.execSmin c ty d a b s
  | .smax c ty d a b => Sys2Proof.Machine.execSmax c ty d a b s
  | .sminn c ty d a b => Sys2Proof.Machine.execSminn c ty d a b s
  | .smaxn c ty d a b => Sys2Proof.Machine.execSmaxn c ty d a b s
  | .sclz c ty d a => Sys2Proof.Machine.execSclz c ty d a s
  | .spopc c ty d a => Sys2Proof.Machine.execSpopc c ty d a s
  | .sbfx c ty d a desc => Sys2Proof.Machine.execSbfx c ty d a desc s
  | .sbfi c ty d a b desc => Sys2Proof.Machine.execSbfi c ty d a b desc s
  | .ssel c ty d a b cnd => Sys2Proof.Machine.execSsel c ty d a b cnd s
  | .smov c ty d a => Sys2Proof.Machine.execSmov c ty d a s
  | .smovi c ty d v => Sys2Proof.Machine.execSmovi c ty d v s
  | .scmp c ty cond d a b => Sys2Proof.Machine.execScmp c ty cond d a b s
  | .amovi c w64 t d base stride => Sys2Proof.Machine.execAmovi c w64 t d base stride s
  | .aadd c w64 t d a b => Sys2Proof.Machine.execAadd c w64 t d a b s
  | .asub c w64 t d a b => Sys2Proof.Machine.execAsub c w64 t d a b s
  | .aadds c neg w64 t d a b => Sys2Proof.Machine.execAadds c neg w64 t d a b s
  | .amuls c w64 t d a b => Sys2Proof.Machine.execAmuls c w64 t d a b s
  | .ashls c w64 t d a b => Sys2Proof.Machine.execAshls c w64 t d a b s
  | .psa c w64 t d base stride => Sys2Proof.Machine.execPsa c w64 t d base stride s
  | .psv c ty d a => Sys2Proof.Machine.execPsv c ty d a s
  | .pav c ty d a => Sys2Proof.Machine.execPav c ty d a s
  | .vpick c ty d a idx => Sys2Proof.Machine.execVpick c ty d a idx s
  | .vballot c beat d a => Sys2Proof.Machine.execVballot c beat d a s
  | .vany c d a => Sys2Proof.Machine.execVany c d a s
  | .vall c d a => Sys2Proof.Machine.execVall c d a s
  | .vredadd c ty d a => Sys2Proof.Machine.execVredadd c ty d a s
  | .vredmin c ty d a => Sys2Proof.Machine.execVredmin c ty d a s
  | .vredmax c ty d a => Sys2Proof.Machine.execVredmax c ty d a s
  | .agetb c n d a => Sys2Proof.Machine.execAgetb c n d a s
  | .agets c w d a => Sys2Proof.Machine.execAgets c w d a s
  | .vadd c ty d a b => Sys2Proof.Machine.execVadd c ty d a b s
  | .vsub c ty d a b => Sys2Proof.Machine.execVsub c ty d a b s
  | .vmul c ty d a b => Sys2Proof.Machine.execVmul c ty d a b s
  | .vmulh c ty d a b => Sys2Proof.Machine.execVmulh c ty d a b s
  | .vmulhn c ty d a b => Sys2Proof.Machine.execVmulhn c ty d a b s
  | .vmad c ty d a b cc => Sys2Proof.Machine.execVmad c ty d a b cc s
  | .vdiv c ty d a b => Sys2Proof.Machine.execVdiv c ty d a b s
  | .vdivn c ty d a b => Sys2Proof.Machine.execVdivn c ty d a b s
  | .vrem c ty d a b => Sys2Proof.Machine.execVrem c ty d a b s
  | .vremn c ty d a b => Sys2Proof.Machine.execVremn c ty d a b s
  | .vand c ty d a b => Sys2Proof.Machine.execVand c ty d a b s
  | .vor c ty d a b => Sys2Proof.Machine.execVor c ty d a b s
  | .vxor c ty d a b => Sys2Proof.Machine.execVxor c ty d a b s
  | .vandn c ty d a b => Sys2Proof.Machine.execVandn c ty d a b s
  | .vnot c ty d a => Sys2Proof.Machine.execVnot c ty d a s
  | .vshl c ty d a b => Sys2Proof.Machine.execVshl c ty d a b s
  | .vshr c ty d a b => Sys2Proof.Machine.execVshr c ty d a b s
  | .vsra c ty d a b => Sys2Proof.Machine.execVsra c ty d a b s
  | .vmin c ty d a b => Sys2Proof.Machine.execVmin c ty d a b s
  | .vmax c ty d a b => Sys2Proof.Machine.execVmax c ty d a b s
  | .vminn c ty d a b => Sys2Proof.Machine.execVminn c ty d a b s
  | .vmaxn c ty d a b => Sys2Proof.Machine.execVmaxn c ty d a b s
  | .vabs c ty d a => Sys2Proof.Machine.execVabs c ty d a s
  | .vneg c ty d a => Sys2Proof.Machine.execVneg c ty d a s
  | .vclz c ty d a => Sys2Proof.Machine.execVclz c ty d a s
  | .vpopc c ty d a => Sys2Proof.Machine.execVpopc c ty d a s
  | .vbfx c ty d a desc => Sys2Proof.Machine.execVbfx c ty d a desc s
  | .vbfi c ty d a b desc => Sys2Proof.Machine.execVbfi c ty d a b desc s
  | .vsel c ty d a b p => Sys2Proof.Machine.execVsel c ty d a b p s
  | .vmov c ty d a => Sys2Proof.Machine.execVmov c ty d a s
  | .vmovi c ty d v => Sys2Proof.Machine.execVmovi c ty d v s
  | .vcmp c ty cond d a b => Sys2Proof.Machine.execVcmp c ty cond d a b s
  | .vsat c ty d a sat => Sys2Proof.Machine.execVsat c ty d a sat s
  | .pand c d a b => Sys2Proof.Machine.execPand c d a b s
  | .por c d a b => Sys2Proof.Machine.execPor c d a b s
  | .pxor c d a b => Sys2Proof.Machine.execPxor c d a b s
  | .pnot c d a => Sys2Proof.Machine.execPnot c d a s
  | .pmov c d a => Sys2Proof.Machine.execPmov c d a s
  | .vfadd c r d a b => Sys2Proof.Machine.execVfadd c r d a b s
  | .vfsub c r d a b => Sys2Proof.Machine.execVfsub c r d a b s
  | .vfmul c r d a b => Sys2Proof.Machine.execVfmul c r d a b s
  | .vfma c r d a b cc => Sys2Proof.Machine.execVfma c r d a b cc s
  | .vfmin c d a b => Sys2Proof.Machine.execVfmin c d a b s
  | .vfmax c d a b => Sys2Proof.Machine.execVfmax c d a b s
  | .vfcmp c cond d a b => Sys2Proof.Machine.execVfcmp c cond d a b s
  | .vfclass c ty d a => Sys2Proof.Machine.execVfclass c ty d a s
  | .vfrnd c r d a => Sys2Proof.Machine.execVfrnd c r d a s
  | .vfrcp c d a => Sys2Proof.Machine.execVfrcp c d a s
  | .vfrsq c d a => Sys2Proof.Machine.execVfrsq c d a s
  | .vfsqrt c r d a => Sys2Proof.Machine.execVfsqrt c r d a s
  | .vfdiv c r d a b => Sys2Proof.Machine.execVfdiv c r d a b s
  | .vfexp2 c d a => Sys2Proof.Machine.execVfexp2 c d a s
  | .vflog2 c d a => Sys2Proof.Machine.execVflog2 c d a s
  | .vfsin c d a => Sys2Proof.Machine.execVfsin c d a s
  | .vfcos c d a => Sys2Proof.Machine.execVfcos c d a s
  | .vftanh c d a => Sys2Proof.Machine.execVftanh c d a s
  | .vcvt c dst src r d a rb => Sys2Proof.Machine.execVcvt c dst src r d a rb s
  | .vpack c m ty r d a b rb => Sys2Proof.Machine.execVpack c m ty r d a b rb s
  | .vunpack c ty e d a => Sys2Proof.Machine.execVunpack c ty e d a s
  | .vhadd2 c ty r d a b => Sys2Proof.Machine.execVhadd2 c ty r d a b s
  | .vhmul2 c ty r d a b => Sys2Proof.Machine.execVhmul2 c ty r d a b s
  | .vhfma2 c ty r d a b cc => Sys2Proof.Machine.execVhfma2 c ty r d a b cc s
  | .sfadd c ty r d a b => Sys2Proof.Machine.execSfadd c ty r d a b s
  | .sfmul c ty r d a b => Sys2Proof.Machine.execSfmul c ty r d a b s
  | .sfma c ty r d a b cc => Sys2Proof.Machine.execSfma c ty r d a b cc s
  | .sfcvt c dst src r d a rb => Sys2Proof.Machine.execSfcvt c dst src r d a rb s
  | .vshfl c op d a b => Sys2Proof.Machine.execVshfl c op d a b s
  | .vbcast c bt d a idx => Sys2Proof.Machine.execVbcast c bt d a idx s
  | .vprmt c d a b sel => Sys2Proof.Machine.execVprmt c d a b sel s
  | .vscan c op ex ty d a heads => Sys2Proof.Machine.execVscan c op ex ty d a heads s
  | .vdrop c all d ctr key keepv => Sys2Proof.Machine.execVdrop c all d ctr key keepv s
  | .vhash c lo d ctr key => Sys2Proof.Machine.execVhash c lo d ctr key s
  | .sld c ty nc d base off => Sys2Proof.Machine.execSld c ty nc d base off s
  | .sst c ty base off b => Sys2Proof.Machine.execSst c ty base off b s
  | .vld c ty nc d ad off => Sys2Proof.Machine.execVld c ty nc d ad off s
  | .vst c ty ad off b => Sys2Proof.Machine.execVst c ty ad off b s
  | .vlds c ty d ad off => Sys2Proof.Machine.execVlds c ty d ad off s
  | .vsts c ty ad off b => Sys2Proof.Machine.execVsts c ty ad off b s
  | .slds c ty d base off => Sys2Proof.Machine.execSlds c ty d base off s
  | .ssts c ty base off b => Sys2Proof.Machine.execSsts c ty base off b s
  | .vldq c ty sc rmask d ad off => Sys2Proof.Machine.execVldq c ty sc rmask d ad off s
  | .vstl c ty sc ad off b => Sys2Proof.Machine.execVstl c ty sc ad off b s
  | .sldq c ty sc rmask d base off => Sys2Proof.Machine.execSldq c ty sc rmask d base off s
  | .sstl c ty sc base off b => Sys2Proof.Machine.execSstl c ty sc base off b s
  | .vatom c op aq rl ty sc d ad off b cmp => Sys2Proof.Machine.execVatom c op aq rl ty sc d ad off b cmp s
  | .satom c op aq rl ty sc d base off b cmp => Sys2Proof.Machine.execSatom c op aq rl ty sc d base off b cmp s
  | .vlr c ty d ad off => Sys2Proof.Machine.execVlr c ty d ad off s
  | .vsc c ty d ad off b => Sys2Proof.Machine.execVsc c ty d ad off b s
  | .fence c sc => Sys2Proof.Machine.execFence c sc s
  | .acq c sc rmask => Sys2Proof.Machine.execAcq c sc rmask s
  | .rel c sc => Sys2Proof.Machine.execRel c sc s
  | .invr c base off len => Sys2Proof.Machine.execInvr c base off len s
  | .inva c => Sys2Proof.Machine.execInva c s
  | .reg c ty ad off => Sys2Proof.Machine.execReg c ty ad off s
  | .dereg c ty ad off => Sys2Proof.Machine.execDereg c ty ad off s
  | .pref c ty ad off => Sys2Proof.Machine.execPref c ty ad off s
  | .waita c ty cond d base off b tmo => Sys2Proof.Machine.execWaita c ty cond d base off b tmo s
  | .xfer c a => Sys2Proof.Machine.execXfer c a s
  | .msgsend c ch a => Sys2Proof.Machine.execMsgsend c ch a s
  | .msgrecv c nb d a => Sys2Proof.Machine.execMsgrecv c nb d a s
  | .msgfree c a b => Sys2Proof.Machine.execMsgfree c a b s
  | .barinit c a b => Sys2Proof.Machine.execBarinit c a b s
  | .bararr c rm d a b => Sys2Proof.Machine.execBararr c rm d a b s
  | .barwait c a b => Sys2Proof.Machine.execBarwait c a b s
  | .bartry c d a b => Sys2Proof.Machine.execBartry c d a b s
  | .mma c z h d a aoff b boff => Sys2Proof.Machine.execMma c z h d a aoff b boff s
  | .mmas c z h d a aoff b boff => Sys2Proof.Machine.execMmas c z h d a aoff b boff s
  | .mscale c z idx d p rs ss soff => Sys2Proof.Machine.execMscale c z idx d p rs ss soff s
  | .mzero c d => Sys2Proof.Machine.execMzero c d s
  | .mcvt c h ty r d a key => Sys2Proof.Machine.execMcvt c h ty r d a key s
  | .tfpin c d a => Sys2Proof.Machine.execTfpin c d a s
  | .tfrel c all a => Sys2Proof.Machine.execTfrel c all a s
  | .bra c cond a off => Sys2Proof.Machine.execBra c cond a off s
  | .brv c off heel => Sys2Proof.Machine.execBrv c off heel s
  | .brx c a tab len heel => Sys2Proof.Machine.execBrx c a tab len heel s
  | .call c d off => Sys2Proof.Machine.execCall c d off s
  | .ret c a => Sys2Proof.Machine.execRet c a s
  | .exit c => Sys2Proof.Machine.execExit c s
  | .sync c => Sys2Proof.Machine.execSync c s
  | .waitq c all => Sys2Proof.Machine.execWaitq c all s
  | .yield c => Sys2Proof.Machine.execYield c s
  | .nop c => Sys2Proof.Machine.execNop c s
  | .trap c code => Sys2Proof.Machine.execTrap c code s
  | .bkpt c => Sys2Proof.Machine.execBkpt c s
  | .svc c each vb heel => Sys2Proof.Machine.execSvc c each vb heel s
  | .qpost c d a b => Sys2Proof.Machine.execQpost c d a b s
  | .reggrow c d n => Sys2Proof.Machine.execReggrow c d n s
  | .regshrink c n => Sys2Proof.Machine.execRegshrink c n s
  | .srd c d num => Sys2Proof.Machine.execSrd c d num s
  | .swr c num a => Sys2Proof.Machine.execSwr c num a s
  | .sres c mark n m => Sys2Proof.Machine.execSres c mark n m s
  | .pctxsv c d h va => Sys2Proof.Machine.execPctxsv c d h va s
  | .pctxld c d h va => Sys2Proof.Machine.execPctxld c d h va s
  | .tlbinv c mode hub va asid => Sys2Proof.Machine.execTlbinv c mode hub va asid s
  | .mbxsend c d tgt p => Sys2Proof.Machine.execMbxsend c d tgt p s
  | .mbxrecv c nb d => Sys2Proof.Machine.execMbxrecv c nb d s
  | .zap c pa len => Sys2Proof.Machine.execZap c pa len s
  | .halt c => Sys2Proof.Machine.execHalt c s
  | .iret c => Sys2Proof.Machine.execIret c s
  | .pstop c d h => Sys2Proof.Machine.execPstop c d h s
  | .pstopGo c d h => Sys2Proof.Machine.execPstopGo c d h s
  | .pstopEnd c d h code => Sys2Proof.Machine.execPstopEnd c d h code s
  | .swrp c num a => Sys2Proof.Machine.execSwrp c num a s
  | .dovetail c x y => Sys2Proof.Machine.execDovetail c x y s
  | .uncorrectableError kind unit addr => Sys2Proof.Machine.execUncorrectableError kind unit addr s
  | .coreQuarantine core => Sys2Proof.Machine.execCoreQuarantine core s
  | .partitionEnable p => Sys2Proof.Machine.execPartitionEnable p s
  | .partitionDisable p => Sys2Proof.Machine.execPartitionDisable p s
  | .partitionReset p => Sys2Proof.Machine.execPartitionReset p s
  | .partitionResetDone p => Sys2Proof.Machine.execPartitionResetDone p s
  | .frameRebind core v => Sys2Proof.Machine.execFrameRebind core v s
  | .notify f q idx => Sys2Proof.Machine.execNotify f q idx s
  | .cnotify f => Sys2Proof.Machine.execCnotify f s
  | .scStart cluster v => Sys2Proof.Machine.execScStart cluster v s
  | .fnBindWrite f v => Sys2Proof.Machine.execFnBindWrite f v s
  | .attestationRequest f v => Sys2Proof.Machine.execAttestationRequest f v s
  | .attResume f => Sys2Proof.Machine.execAttResume f s
  | .ownerEnroll slot => Sys2Proof.Machine.execOwnerEnroll slot s
  | .ownerRevoke slot => Sys2Proof.Machine.execOwnerRevoke slot s
  | .migrationGo f => Sys2Proof.Machine.execMigrationGo f s
  | .migrationForce f => Sys2Proof.Machine.execMigrationForce f s
  | .migrationDone f => Sys2Proof.Machine.execMigrationDone f s
  | .tgJoin g v => Sys2Proof.Machine.execTgJoin g v s
  | .tgLeave g v => Sys2Proof.Machine.execTgLeave g v s
  | .viewInstall g view members => Sys2Proof.Machine.execViewInstall g view members s
  | .verifyDone => Sys2Proof.Machine.execVerifyDone s
  | .leaseExpiry core line => Sys2Proof.Machine.execLeaseExpiry core line s
  | .timeBaseBroadcast core off => Sys2Proof.Machine.execTimeBaseBroadcast core off s
  | .broadcastTimeout core => Sys2Proof.Machine.execBroadcastTimeout core s
  | .coreClockGate core => Sys2Proof.Machine.execCoreClockGate core s
  | .correctedError kind unit => Sys2Proof.Machine.execCorrectedError kind unit s
  | .l1LineError core line => Sys2Proof.Machine.execL1LineError core line s
  | .sliceScrubDone sl => Sys2Proof.Machine.execSliceScrubDone sl s
  | .metadataInitDone sl => Sys2Proof.Machine.execMetadataInitDone sl s
  | .partitionKeyingDone p => Sys2Proof.Machine.execPartitionKeyingDone p s
  | .partitionReleaseDone p => Sys2Proof.Machine.execPartitionReleaseDone p s
  | .frameRebindDone => Sys2Proof.Machine.execFrameRebindDone s
  | .walkReadAnswer k => Sys2Proof.Machine.execWalkReadAnswer k s
  | .fairnessTimer core slot => Sys2Proof.Machine.execFairnessTimer core slot s
  | .overdueSplit core slot idx => Sys2Proof.Machine.execOverdueSplit core slot idx s
  | .heelArrival core slot idx => Sys2Proof.Machine.execHeelArrival core slot idx s
  | .splitMeet core slot idx j => Sys2Proof.Machine.execSplitMeet core slot idx j s
  | .forcedReconvergence core slot idx => Sys2Proof.Machine.execForcedReconvergence core slot idx s
  | .landingBufferWrite core => Sys2Proof.Machine.execLandingBufferWrite core s
  | .divisionComplete core => Sys2Proof.Machine.execDivisionComplete core s
  | .specialFunctionComplete core => Sys2Proof.Machine.execSpecialFunctionComplete core s
  | .tileLineArrival core k => Sys2Proof.Machine.execTileLineArrival core k s
  | .matrixExecute core => Sys2Proof.Machine.execMatrixExecute core s
  | .matrixComplete core => Sys2Proof.Machine.execMatrixComplete core s
  | .watchdog core slot idx => Sys2Proof.Machine.execWatchdog core slot idx s
  | .stopComplete core slot => Sys2Proof.Machine.execStopComplete core slot s
  | .waitaTimeout core slot idx => Sys2Proof.Machine.execWaitaTimeout core slot idx s
  | .instructionFetchFault core slot idx => Sys2Proof.Machine.execInstructionFetchFault core slot idx s
  | .transferAccept die => Sys2Proof.Machine.execTransferAccept die s
  | .transferChunkStart die => Sys2Proof.Machine.execTransferChunkStart die s
  | .transferChunkDone die k => Sys2Proof.Machine.execTransferChunkDone die k s
  | .messageAppend k => Sys2Proof.Machine.execMessageAppend k s
  | .creditReturn k => Sys2Proof.Machine.execCreditReturn k s
  | .remoteArrival k => Sys2Proof.Machine.execRemoteArrival k s
  | .remoteArrivalReply k => Sys2Proof.Machine.execRemoteArrivalReply k s
  | .hubHeldDelivery k => Sys2Proof.Machine.execHubHeldDelivery k s
  | .reggrowGrant core => Sys2Proof.Machine.execReggrowGrant core s
  | .registerDeadlock core => Sys2Proof.Machine.execRegisterDeadlock core s
  | .workgroupDispatch p => Sys2Proof.Machine.execWorkgroupDispatch p s
  | .packEnd core slot => Sys2Proof.Machine.execPackEnd core slot s
  | .launchComplete l => Sys2Proof.Machine.execLaunchComplete l s
  | .engineRound e => Sys2Proof.Machine.execEngineRound e s
  | .waitTimeout f q => Sys2Proof.Machine.execWaitTimeout f q s
  | .sliceExpiry p => Sys2Proof.Machine.execSliceExpiry p s
  | .laneRotation lane => Sys2Proof.Machine.execLaneRotation lane s
  | .engineFaultResume k => Sys2Proof.Machine.execEngineFaultResume k s
  | .haltWake cluster => Sys2Proof.Machine.execHaltWake cluster s
  | .mbxrecvWake cluster => Sys2Proof.Machine.execMbxrecvWake cluster s
  | .hostApertureRead f off n => Sys2Proof.Machine.execHostApertureRead f off n s
  | .hostApertureWrite f off bs => Sys2Proof.Machine.execHostApertureWrite f off bs s
  | .hostApertureAtomic f off ty op opd cmp => Sys2Proof.Machine.execHostApertureAtomic f off ty op opd cmp s
  | .hostCompletion ok => Sys2Proof.Machine.execHostCompletion ok s
  | .vfFlr f => Sys2Proof.Machine.execVfFlr f s
  | .pfFlr => Sys2Proof.Machine.execPfFlr s
  | .attestationDone f => Sys2Proof.Machine.execAttestationDone f s
  | .activationGo => Sys2Proof.Machine.execActivationGo s
  | .activationDone => Sys2Proof.Machine.execActivationDone s
  | .migrationQuiesced f => Sys2Proof.Machine.execMigrationQuiesced f s
  | .brevorData g src chan view seq coll off bs ok => Sys2Proof.Machine.execBrevorData g src chan view seq coll off bs ok s
  | .brevorAck g src chan seq => Sys2Proof.Machine.execBrevorAck g src chan seq s
  | .brevorNak g src chan seq => Sys2Proof.Machine.execBrevorNak g src chan seq s
  | .brevorControl g src chan view seq kind arg ok => Sys2Proof.Machine.execBrevorControl g src chan view seq kind arg ok s
  | .retransmitTimeout g dst chan => Sys2Proof.Machine.execRetransmitTimeout g dst chan s
  | .collectiveRingPoll f => Sys2Proof.Machine.execCollectiveRingPoll f s
  | .collectiveComplete k => Sys2Proof.Machine.execCollectiveComplete k s
  | .ethernetFrameReceive port kind sock bs => Sys2Proof.Machine.execEthernetFrameReceive port kind sock bs s
  | .nvmeCompletion k ok => Sys2Proof.Machine.execNvmeCompletion k ok s
  | .powerGood => Sys2Proof.Machine.execPowerGood s
  | .hubBringupDone => Sys2Proof.Machine.execHubBringupDone s
  | .clusterBistDone cluster fails => Sys2Proof.Machine.execClusterBistDone cluster fails s
  | .fullRateChange => Sys2Proof.Machine.execFullRateChange s
  | .recoveryImageLoad image => Sys2Proof.Machine.execRecoveryImageLoad image s
  | .powerControlTick sample avg temps => Sys2Proof.Machine.execPowerControlTick sample avg temps s
  | .thermalTrip => Sys2Proof.Machine.execThermalTrip s
  | .powerLoss => Sys2Proof.Machine.execPowerLoss s
  | .registerWrite who addr n v => Sys2Proof.Machine.execRegisterWrite who addr n v s
  | .rdc src dst => Sys2Proof.Machine.execRdc src dst s
  | .rdn src dst => Sys2Proof.Machine.execRdn src dst s
  | .regw src dst => Sys2Proof.Machine.execRegw src dst s
  | .ewr src dst => Sys2Proof.Machine.execEwr src dst s
  | .atm src dst => Sys2Proof.Machine.execAtm src dst s
  | .wbd src dst => Sys2Proof.Machine.execWbd src dst s
  | .loss src dst => Sys2Proof.Machine.execLoss src dst s
  | .zapw src dst => Sys2Proof.Machine.execZapw src dst s
  | .notheld src dst => Sys2Proof.Machine.execNotheld src dst s
  | .race src dst => Sys2Proof.Machine.execRace src dst s
  | .callbackDone src dst => Sys2Proof.Machine.execCallbackDone src dst s
  | .staleAck src dst => Sys2Proof.Machine.execStaleAck src dst s
  | .fwd src dst => Sys2Proof.Machine.execFwd src dst s
  | .recallWord src dst => Sys2Proof.Machine.execRecallWord src dst s
  | .callback src dst => Sys2Proof.Machine.execCallback src dst s
  | .drop src dst => Sys2Proof.Machine.execDrop src dst s
  | .grant src dst => Sys2Proof.Machine.execGrant src dst s
  | .data src dst => Sys2Proof.Machine.execData src dst s
  | .faultAnswer src dst => Sys2Proof.Machine.execFaultAnswer src dst s
  | .stale src dst => Sys2Proof.Machine.execStale src dst s

end Sys2Proof.Machine
end

