-- ==== Sys2Proof/Machine/Schedule.lean ====
section
/-! DEFINITION. The next issue of a split, and the machine's own schedule: what happens next while nothing outside orders it. The spec
fixes no order among the agents; this is one order (see the assumption log). -/

namespace Sys2Proof.Machine

/-- The state that an event leaves. -/
def after (o : Host.Outcome State Fault Refusal) (s : State) : State := match o with | .next t => t | _ => s

/-- Issue the next word of the split at a site: it is fetched, checked (R112) and executed, or its fault is raised. -/
def State.issueSite (s : State) (p : Site) : Host.Outcome State Fault Refusal :=
  match s.selectable p with
  | none => .next s
  | some v =>
    match v.lookIssue with
    | .run i op t => exec i { t with cur := p, op := op }
    | .flaw _ w f => .next (w.raise f)
    | .wait t => .next t

/-- The clock of a compute die in eighths of a cycle per ns: 2.5 GHz less 125 MHz for each LEVEL (R403, R410). -/
def State.rate (s : State) (d : Nat) : Nat := 20 - fld (s.regVal (diePwr d)) 8 4

/-- The broadcasts of T from one moment to another at a core (R67): it hears the one of each 64 ns; one that hears none for more than 256
ns drops its COPY words. -/
def Core.hears (c : Core) (t0 t1 : Nat) : Core :=
  if c.mute then (if c.lastBcast + 256 < t1 then c.dropCopies (fun _ _ => true) else c)
  else if t0 / 64 = t1 / 64 then c
  else { (c.hearTime ((t0 / 64 + 1) * 64) c.skew) with lastBcast := t1 / 64 * 64 }

/-- T advances (R65, R67): the clock of every core follows at its die's rate (R404, R410), the broadcasts of each 64 ns reach the
cores that hear them, and leases run out (R66). -/
def State.pass (s : State) (ns : Nat) : State :=
  let clocks := (List.range 4).foldl (fun (m : SMap Nat) d => set 0 m d (get 0 m d + ns * s.rate d)) s.clocks
  let u : State := { s with
    time := s.time + ns, clocks := clocks
    cores := s.cores.map (fun e =>
      (e.1, { (e.2.hears s.time (s.time + ns)) with cycle := max e.2.cycle (get 0 clocks (dieOfCore e.1) / 8) })) }
  { u with cores := u.cores.map (fun e => (e.1, e.2.expire (s.coreT e.1) (u.coreT e.1))) }

/-- Deliver the oldest message of the channel that a message belongs to. -/
def State.deliverMsg (s : State) (m : Msg) : State :=
  match takeMsg m.src m.dst s.net with
  | none => s
  | some (b, _) =>
    after (match b with
      | .rdc .. => execRdc m.src m.dst s
      | .rdn .. => execRdn m.src m.dst s
      | .regw .. => execRegw m.src m.dst s
      | .ewr .. => execEwr m.src m.dst s
      | .atm .. => execAtm m.src m.dst s
      | .wbd .. => execWbd m.src m.dst s
      | .loss .. => execLoss m.src m.dst s
      | .zapw .. => execZapw m.src m.dst s
      | .notheld .. => execNotheld m.src m.dst s
      | .race .. => execRace m.src m.dst s
      | .callbackDone .. => execCallbackDone m.src m.dst s
      | .staleAck .. => execStaleAck m.src m.dst s
      | .fwd .. => execFwd m.src m.dst s
      | .recallWord .. => execRecallWord m.src m.dst s
      | .callback .. => execCallback m.src m.dst s
      | .drop .. => execDrop m.src m.dst s
      | .grant .. => execGrant m.src m.dst s
      | .data .. => execData m.src m.dst s
      | .atmData .. => execData m.src m.dst s
      | .refill .. => execData m.src m.dst s
      | .fwdData .. => execData m.src m.dst s
      | .fault .. => execFaultAnswer m.src m.dst s
      | .stale .. => execStale m.src m.dst s) s

/-- A state change that an event makes. -/
abbrev Change := State → State
def ev (f : State → Host.Outcome State Fault Refusal) : Change := fun s => after (f s) s

/-- What a pack of a core may do by itself. -/
def packEvents (n slot : Nat) : List Change :=
  [ev (execStopComplete n slot), ev (execPackEnd n slot)] ++
  (List.range 4).flatMap (fun i =>
    [ev (execHeelArrival n slot i), ev (execForcedReconvergence n slot i), ev (execWaitaTimeout n slot i), ev (execWatchdog n slot i)] ++
    ((List.range 4).filter (fun j => j != i)).map (fun j => ev (execSplitMeet n slot i j)))

/-- What a core may do by itself, but for issuing. -/
def State.coreEvents (s : State) (n : Nat) : List Change :=
  let c := s.core n
  [ev (execLandingBufferWrite n), ev (execDivisionComplete n), ev (execSpecialFunctionComplete n)] ++
  (List.range c.fetches.length).map (fun k => ev (execTileLineArrival n k)) ++
  [ev (execMatrixComplete n), ev (execMatrixExecute n)] ++
  c.packs.flatMap (fun e => packEvents n e.1) ++
  [ev (execReggrowGrant n), ev (execRegisterDeadlock n)] ++ (if c.mute then [ev (execBroadcastTimeout n)] else []) ++
  c.lines.map (fun e => ev (execLeaseExpiry n e.1))

/-- The sites of a core by the age of their packs; within a pack, the longest waiting first (R302, R337). -/
def Core.order (c : Core) (n : Nat) : List Site :=
  let packs := sortBy (fun x y => decide (x.2.gen < y.2.gen) || (x.2.gen == y.2.gen && decide (x.1 ≤ y.1))) c.packs
  let since (slot i : Nat) : Nat := match (look c.packs slot).bind (fun p => p.split i) with | some x => max x.since x.next | none => 0
  packs.flatMap (fun e => (sortBy (fun i j => decide (since e.1 i ≤ since e.1 j)) (List.range 4)).map (fun i => (⟨n, e.1, i⟩ : Site)))

/-- The cycle in which the word of a split that may be selected issues: its STALL passed, its tokens ready, a word of the core left and
its unit free (R337); none while it waits. -/
def State.issueCycle (s : State) (p : Site) : Option Nat :=
  (s.selectable p).bind (fun v =>
    match v.lookIssue with
    | .run i op t => ({ t with cur := p, op := op } : State).view.bind (fun w => (w.tokensAt (waitsOf i)).map w.slotAt)
    | _ => some v.now)

/-- The sites of a core in the order in which they may issue (R302, R337): overdue splits first, the longest waiting first among them, then
by the age of the packs. -/
def State.issueOrder (s : State) (n : Nat) : List Site :=
  let all := (s.core n).order n
  let late := all.filterMap (fun p => (s.viewAt p).bind (fun v => if v.overdue then v.issuableFrom.map (fun t => (t, p)) else none))
  (sortBy (fun x y => decide (x.1 ≤ y.1)) late).map (fun e => e.2) ++ all

/-- The issues of a core that its clock allows by the end of the present nanosecond, cycle by cycle, and within a cycle in the order of
the core's choice. A service core that runs Zumos takes Zumos's turns. -/
def State.coreIssues (s : State) (n : Nat) : List Site :=
  let c := s.core n
  let d := dieOfCore n
  if decide (64 ≤ n) && c.started then []
  else
    let due := (s.issueOrder n).filterMap (fun p => (s.issueCycle p).bind (fun k =>
      if 8 * k ≤ get 0 s.clocks d + s.rate d then some (k, p) else none))
    (sortBy (fun x y => decide (x.1 ≤ y.1)) due).map (fun e => e.2)

/-- Events of the network, the walkers, the transfer engines, host memory and the flash. -/
def State.moveEvents (s : State) : List Change :=
  s.net.map (fun m => fun (t : State) => t.deliverMsg m) ++
  (List.range s.walks.length).map (fun k => ev (execWalkReadAnswer k)) ++
  (List.range 4).flatMap (fun d => [ev (execTransferAccept d), ev (execTransferChunkStart d), ev (execTransferChunkDone d 0)]) ++
  (List.range s.remotes.length).flatMap (fun k => [ev (execMessageAppend k), ev (execRemoteArrival k), ev (execRemoteArrivalReply k), ev (execHubHeldDelivery k)]) ++
  (List.range s.credits.length).map (fun k => ev (execCreditReturn k)) ++
  [ev (execHostCompletion true), fun (t : State) => t.drainAper] ++ (List.range s.flashq.length).map (fun k => ev (execNvmeCompletion k true))

/-- Events of the engines, the distributors and the partitions. -/
def State.hubEvents (s : State) : List Change :=
  (List.range 4).map (fun e => ev (execEngineRound e)) ++
  s.queues.map (fun (q : QState) => ev (execWaitTimeout q.fn q.q)) ++
  (List.range 128).map (fun l => ev (execLaneRotation l)) ++
  ((List.range 32).filter (fun p => s.partSt p != 0)).flatMap (fun p =>
    [ev (execSliceExpiry p), ev (execWorkgroupDispatch p), ev (execPartitionKeyingDone p), ev (execPartitionResetDone p),
     ev (execPartitionReleaseDone p)]) ++
  s.launches.map (fun e => ev (execLaunchComplete e.1)) ++
  ((List.range 96).filter (fun sl => (s.sliceOwner sl).isSome)).flatMap (fun sl => [ev (execSliceScrubDone sl), ev (execMetadataInitDone sl)]) ++
  [ev execFrameRebindDone] ++
  (List.range 385).flatMap (fun f => if s.bound f then [ev (execCollectiveRingPoll f), ev (execMigrationQuiesced f)] else []) ++
  (List.range s.colls.length).map (fun k => ev (execCollectiveComplete k)) ++
  s.outgoing.map (fun (f : Frame) => ev (execRetransmitTimeout f.g f.dst f.chan)) ++
  s.attests.map (fun (a : Attest) => ev (execAttestationDone a.fn)) ++
  s.again.map (fun i => ev (fun (s : State) => s.tryAgain i)) ++
  [ev execActivationDone]

/-- Events of the service cores. -/
def shardEvents : List Change :=
  (List.range 32).flatMap (fun n => [ev (execHaltWake n), ev (execMbxrecvWake n), fun (s : State) => s.zumosTurn n])

/-- Events of bring-up; self-test finds no failure. -/
def bootEvents : List Change :=
  [ev execPowerGood, ev execVerifyDone, ev execHubBringupDone] ++ (List.range 32).map (fun n => ev (execClusterBistDone n [])) ++ [ev execFullRateChange]

/-- The first issue that changes the state. -/
def firstIssue (s : State) : List Site → Option (Host.Outcome State Fault Refusal)
  | [] => none
  | p :: ps =>
    match s.issueSite p with
    | .next t => if t = s then firstIssue s ps else some (.next t)
    | o => some o

/-- The machine's own schedule: the first event that changes the state, else the first issue, else T advances by 1 ns. -/
def State.scheduled (s : State) : Host.Outcome State Fault Refusal :=
  let t := firstChange s (s.moveEvents ++ s.cores.flatMap (fun e => s.coreEvents e.1) ++ s.hubEvents ++ shardEvents ++ bootEvents)
  if t ≠ s then .next t
  else (firstIssue s (s.cores.flatMap (fun e => s.coreIssues e.1))).getD (.next (s.pass 1))

end Sys2Proof.Machine
end

