-- ==== Sys2Proof/Machine/Step.lean ====
section
/-! DEFINITION. One step of the machine, and where a step finds an instruction. -/

namespace Sys2Proof.Machine

/-- One step: the first turn of the agenda, or, with an empty agenda, what the machine's own schedule has next. An instruction is not an
event: it runs where it is fetched. -/
def step (s : State) : Host.Outcome State Fault Refusal :=
  match s.agenda with
  | [] => s.scheduled
  | .issue p :: rest => ({ s with agenda := rest } : State).issueSite p
  | .ev i :: rest => if (ctlOf i).isSome then .next { s with agenda := rest } else exec i { s with agenda := rest }
  | .zumos n :: rest => .next (({ s with agenda := rest } : State).zumosTurn n)
  | .pass ns :: rest => .next (({ s with agenda := rest } : State).pass ns)
  | .drift n ns :: rest => .next (({ s with agenda := rest } : State).driftCore n ns)
  | .mute n on :: rest => .next (({ s with agenda := rest } : State).muteCore n on)

/-- Where the placed instruction lies: VA 0, PA 0, in a page that may be read, written and executed. -/
def placedLeaf : W64 := 0x2F
def placedRoot : W64 := 0x100001

/-- The pack that runs the placed instruction: slot 0 of core 0, or of service core 0. -/
def placedPack (agent : Nat) : Pack :=
  let p := (Pack.start 0 (if agent < 64 then BitVec.allOnes 96 else 1)).setSpecial sprCtxcfg ctxcfgReset
  if agent < 64 then { p with asid := 1, root := placedRoot, size := 64 } else { p with root := placedRoot }

/-- The instruction stored where the next step fetches it: its words, least significant byte first, at PA 0; partition 0 enabled over
cluster 0 and slice 0; a pack of core 0 (of service core 0, for a privileged instruction) at its first word, with its page in the
translation micro-buffer; and its issue next on the agenda. -/
def State.withFetchWord (s : State) (nbits w : Nat) : State :=
  let op := (w >>> 2) % 256
  let agent := if 0xE0 ≤ op ∧ op ≤ 0xEF then 64 else 0
  let p := placedPack agent
  let bs := (List.range 16).map (fun i => BitVec.ofNat 8 ((w % 2 ^ nbits) >>> (8 * i)))
  let s := ((s.setMreg (partBase 0) 1).setMreg (partBase 0 + 0x08) 1).setMreg (partBase 0 + 0x10) 1
  let s := s.setBytes 0 bs
  let place (c : Core) : Core := { c with packs := ins c.packs 0 p, ibuf := [], utlb := [⟨p.asid, 0, 0, placedLeaf⟩] }
  { (s.updCore agent place) with agenda := [.issue ⟨agent, 0, 0⟩] }

end Sys2Proof.Machine
end

