-- ==== Sys2Proof/Safety.lean ====
section
/-! DEFINITION. The terms in which claims about a run are made: memory in its canonical form, a split whose masks are as R180
asks, and an instruction word that issues without waiting and without a fault (R112). -/

namespace Sys2Proof.Machine

/-- Memory is in its canonical form: addresses strictly rising, and no byte listed that equals what an unlisted address
reads as (0). -/
def Memory.wf (m : List Host.Cell) : Bool := canon 0 m

/-- A split's mask holds a lane, and only lanes that the split owns (R180). -/
def Split.maskOk (x : Split) : Bool := decide (x.mask ≠ 0) && decide (x.mask &&& ~~~x.owned = 0)

/-- Every split and every deferred path of a pack has a mask as R180 and R296 ask. -/
def Pack.masksOk (p : Pack) : Bool :=
  p.splits.all (fun x => match x with | some y => y.maskOk | none => true) &&
  p.deferred.all (fun d => decide (d.mask ≠ 0) && decide (d.mask &&& ~~~d.owned = 0))

/-- Every split of every resident pack has a mask as R180 asks. -/
def State.masksOk (s : State) : Bool := s.cores.all (fun e => e.2.packs.all (fun k => k.2.masksOk))

/-- Nothing but a core's own state, the counter of free values and the agenda differs: what a register-only instruction may
change. -/
def State.sameOutside (s t : State) : Prop := t = { s with cores := t.cores, free := t.free, agenda := t.agenda }

/-- The word of an instruction issues at the view `v` with the lanes `m` of ACT (R112, R115-R117): the executing split is
resident and can issue, every token it waits for is ready, no scoreboard check fails, a pack-wide word has reconverged, the
varying names lie in the window, and UNIFORM_SPLIT does not apply. `v` holds every write that is due. -/
def Issues (c : Ctl) (ps : List Part) (waits : BitVec 6) (chk : View → List Use) (wide : Bool) (s : State) (v : View) (m : Mask) :
    Prop :=
  ∃ v0 v1 : View, s.view = some v0 ∧ v0.ready c waits (usesOf ps) = some v1 ∧ v1.stalls ps = none ∧
    (wide = true → v1.pk.allSettled v1.ix v1.sp.pc = true) ∧ v = (if wide then v1.reconverge else v1) ∧ m = v.actOf ps ∧
    m ≠ 0 ∧ v.viewFault (chk v) = none ∧ v.uniformFault (usesOf ps) = none ∧ v.rowFaults ps = none

/-- The word of an instruction with one guard, checked over all its uses, issues. -/
def IssuesW (c : Ctl) (us : List Use) (wide : Bool) (s : State) (v : View) (m : Mask) : Prop :=
  Issues c [(c.guard, us)] 0 (fun _ => us) wide s v m

/-- The state after an instruction whose view is `w` when its own part is done: the split goes on at the successor. -/
def View.after (w : View) (c : Ctl) (pc : W64) : State := (w.finish c pc).close

/-- A core executes the opcode of a word: a service core those of R125, a compute core all but the privileged group. -/
def runsOn (svc : Bool) (w : Word) : Bool :=
  let op := ((Base.ofBits w.base).op).toNat
  if svc then opService op else !(decide (0xE0 ≤ op) && decide (op ≤ 0xEF))

/-- The state that an instruction's own part answers where it has placed its split itself. -/
def Res.placed (r : Res) (s : State) : State := match r with | .state t => t | _ => s

/-- The two-source integer operations: the uniform and the varying instruction, and the exact value whose low w bits are the result
(R222, R223). A shift count is bits 7:0 of the second source. -/
def twoSource : List ((Ctl → IType → SReg → SReg → USrc → Instr) × (Ctl → IType → VReg → VSrc → VOpnd → Instr) ×
    (IType → W64 → W64 → Int)) :=
  [(.sadd, .vadd, fun t x y => itI t x + itI t y),
   (.ssub, .vsub, fun t x y => itI t x - itI t y),
   (.smul, .vmul, fun t x y => itI t x * itI t y),
   (.smulh, .vmulh, fun t x y => itI t x * itI t y / (2 ^ itW t : Nat)),
   (.smulhn, .vmulhn, fun t x y => (itU t x : Int) * itU t y / (2 ^ itW t : Nat)),
   (.sand, .vand, fun _ x y => (x &&& y).toNat),
   (.sor, .vor, fun _ x y => (x ||| y).toNat),
   (.sxor, .vxor, fun _ x y => (x ^^^ y).toNat),
   (.sandn, .vandn, fun _ x y => (x &&& ~~~y).toNat),
   (.sshl, .vshl, fun t x y => (itU t x : Int) * 2 ^ (y.toNat % 256)),
   (.sshr, .vshr, fun t x y => (itU t x : Int) / (2 ^ (y.toNat % 256) : Nat)),
   (.ssra, .vsra, fun t x y => itI t x / (2 ^ (y.toNat % 256) : Nat)),
   (.smin, .vmin, fun t x y => if itI t x ≤ itI t y then itI t x else itI t y),
   (.smax, .vmax, fun t x y => if itI t x ≤ itI t y then itI t y else itI t x),
   (.sminn, .vminn, fun t x y => if itU t x ≤ itU t y then (itU t x : Int) else itU t y),
   (.smaxn, .vmaxn, fun t x y => if itU t x ≤ itU t y then (itU t y : Int) else itU t x)]

/-- The divisions and remainders of R224: the uniform and the varying instruction, and the operation of R202 with its signedness. -/
def divisions : List ((Ctl → IType → SReg → SReg → USrc → Instr) × (Ctl → IType → VReg → VSrc → VOpnd → Instr) ×
    (IType → Bool → W64 → W64 → FR) × Bool) :=
  [(.sdiv, .vdiv, opQuot, true), (.sdivn, .vdivn, opQuot, false), (.srem, .vrem, opRem, true), (.sremn, .vremn, opRem, false)]

/-- A signed w-bit range holds the exact value of every lane of ACT (R184). -/
def laneFits (w64 : Bool) (m : Mask) (exact : Nat → Int) : Prop :=
  ∀ L, L < 96 → m.getLsbD L = true →
    -(2 ^ (if w64 then 63 else 31) : Int) ≤ exact L ∧ exact L < (2 ^ (if w64 then 63 else 31) : Int)

/-- A 64-bit result's stride fits 32 bits (R183). -/
def strideFits (w64 : Bool) (stride : Int) : Prop := w64 = true → -(2 ^ 31 : Int) ≤ stride ∧ stride < (2 ^ 31 : Int)

/-- What storing an affine result comes to (R183, R184): `x` is the value before the reduction. In range it is stored; a lane out of
range sets AFL.AOV, or, in the .T form, faults AFFINE_OVERFLOW; a stride out of range faults in every form. The fault names the lowest
lane of ACT that is out of range, or lane 127 when the stride alone cannot be held (R232). -/
def AffineResult (v : View) (c : Ctl) (m : Mask) (w64 t : Bool) (d : AReg) (base stride : Int) (exact : Nat → Int)
    (o : Host.Outcome State Fault Refusal) : Prop :=
  let x : Aff := ⟨BitVec.ofNat 64 (wrapN (if w64 then 64 else 32) base), BitVec.ofNat 32 (wrapN 32 stride), w64⟩
  (strideFits w64 stride → laneFits w64 m exact → o = .next ((v.putA c d x).after c (v.succ c))) ∧
  (strideFits w64 stride → ¬ laneFits w64 m exact → t = false → o = .next ((v.setAov.putA c d x).after c (v.succ c))) ∧
  (t = true ∨ ¬ strideFits w64 stride → ∀ L, L < 96 → m.getLsbD L = true →
    (exact L < -(2 ^ (if w64 then 63 else 31) : Int) ∨ (2 ^ (if w64 then 63 else 31) : Int) ≤ exact L) →
    (∀ K, K < L → m.getLsbD K = true →
      -(2 ^ (if w64 then 63 else 31) : Int) ≤ exact K ∧ exact K < (2 ^ (if w64 then 63 else 31) : Int)) →
    o = .next (v.raise (v.faultRec fcAffineOverflow 0 0 0 0 L 0))) ∧
  (¬ strideFits w64 stride → laneFits w64 m exact → o = .next (v.raise (v.faultRec fcAffineOverflow 0 0 0 0 127 0)))

/-- Nothing makes a load wait (R63, R91, R137): no acquire is under way, its lanes pass phase 1 with the accesses `good` at the
view `w`, and no word of theirs is another pack's unregistered one or pending. -/
def View.loadClear (u w : View) (n : Nat) (uni acq : Bool) (ls : List (Nat × Nat)) (good : List LaneAddr) : Prop :=
  u.acqBusy = false ∧ (acq = true → u.syncBusy = false) ∧ u.phase1 ⟨kRead, false, n, uni, fun _ => false⟩ ls = .ok (w, good) ∧
  w.loadOthers n good = [] ∧ w.loadStalls n good = false

/-- Nothing makes a store wait: no acquire is under way, its lanes pass phase 1, a release store's release is over (R94), and its
words can be claimed from the state `t`, those of `bad` failing the check of their own core (R63, R73). -/
def View.storeClear (u w : View) (n : Nat) (uni : Bool) (rel : Option Scope) (data : Nat → W64) (ls : List (Nat × Nat))
    (good : List LaneAddr) (t : State) (bad : List Nat) : Prop :=
  u.acqBusy = false ∧
  ∃ x : View, u.phase1 ⟨kWrite, true, n, uni, fun _ => false⟩ ls = .ok (x, good) ∧
    (match rel with | none => w = x | some sc => x.release sc false = .go w) ∧
    w.readyClaims (w.storeClaiming rel) (withCover (storeWords n (hbmData data good))) = .go t bad

/-- Nothing makes an atomic wait: no acquire (with .AQ, no synchronisation access) is under way, its lanes pass phase 1, the release
of .RL is over (R91, R94, R154), and no word of its awaits a registration. -/
def View.atomicClear (u w : View) (op : AOp) (aq rl : Bool) (n : Nat) (sc : Scope) (uni : Bool) (ls : List (Nat × Nat))
    (good : List LaneAddr) : Prop :=
  u.acqBusy = false ∧ (aq = true → u.syncBusy = false) ∧
  ∃ x : View, u.phase1 ⟨kAtomic, true, n, uni, fun _ => !hostAtomic op⟩ ls = .ok (x, good) ∧
    (if rl = true then x.release sc false = .go w else w = x) ∧
    w.atomicWait n (rl && w.pk.lazyMode && !w.svc && scopeNo sc != 0) good = none

/-- Nothing makes a VLR or a REG wait. -/
def View.wholeClear (u w : View) (n : Nat) (uni : Bool) (wr : Option Bool) (full : Bool) (ls : List (Nat × Nat)) (good : List LaneAddr)
    (t : State) (bad : List Nat) : Prop :=
  u.acqBusy = false ∧ u.phase1 ⟨kWrite, true, n, uni, fun _ => true⟩ ls = .ok (w, good) ∧
  w.readyClaims (w.wholeClaiming wr) (wholeClaims n good full) = .go t bad

/-! ### Conditions on a state and operands alone, under which an access completes -/

/-- The leaf and level that serve an access of the view's split at a VA: what the instruction has resolved of the page, or the entry of
the core's micro-buffer that covers it (R49, R50, R52). -/
def View.leafAt (v : View) (va : Nat) (write : Bool) : Option (W64 × Nat) :=
  match v.sp.resolved va write with
  | some x => if x.code = 0 then some (x.leaf, x.level) else none
  | none => (v.co.utlb.find? (fun e => e.hits v.pk.asid va && e.serves write)).map (fun e => (e.leaf, e.level))

/-- A lane's physical address under the leaf that serves it (R37, R40). -/
def View.laneAt (v : View) (write : Bool) (x : Nat × Nat) : Option LaneAddr :=
  (v.leafAt x.2 write).map (fun l =>
    let pa := leafPa l.1 l.2 x.2
    ⟨x.1, x.2, pa, if isHost pa then 0 else leafAttr l.1, l.2⟩)

/-- The lanes' physical addresses. -/
def View.located (v : View) (write : Bool) (ls : List (Nat × Nat)) : List LaneAddr := ls.filterMap (v.laneAt write)

/-- Every lane's address is aligned and canonical, its page is resolved or buffered, and no check of R42 fails: XROOT is valid, and the
leaf and the frame allow the access. The micro-buffer holds no more than its entries, and one for a page. -/
abbrev View.mapped (v : View) (kind : Nat) (write : Bool) (n : Nat) (ls : List (Nat × Nat)) : Prop :=
  let q : Who := ⟨v.s.partOfAgent v.ag, v.svc, kind, write⟩
  v.s.rootFlaw q.part v.pk.root = none ∧ v.co.utlb.length ≤ utlbSize v.ag ∧
  ∀ x ∈ ls, x.2 % n = 0 ∧ canonical x.2 = true ∧
    (∀ e ∈ v.co.utlb, ∀ f ∈ v.co.utlb, e.hits v.pk.asid x.2 = true → f.hits v.pk.asid x.2 = true → e = f) ∧
    ∃ l ∈ v.leafAt x.2 write, leafFlaw q l.1 l.2 = none ∧ v.s.paFlaw q l.1 l.2 (leafPa l.1 l.2 x.2) = none

/-- The HBM words of located lanes. -/
def hbmWords (n : Nat) (gs : List LaneAddr) : List Nat := (gs.filter (fun g => !isHost g.pa)).flatMap (fun g => wordsOf g.pa n)

/-- A load is free to go (R63, R91, R141): no acquire of the pack is under way (an acquire itself: no synchronisation access), its lanes
are mapped, no atomic of the pack is unanswered on a word of theirs (R89), and none of the words awaits a grant, or holds another pack's
unregistered store or half of an 8-byte store. -/
abbrev View.loadable (v : View) (n : Nat) (acq : Bool) (ls : List (Nat × Nat)) : Prop :=
  v.acqBusy = false ∧ (acq = true → v.syncBusy = false) ∧ v.mapped kRead false n ls ∧
  v.atomHolds (hbmWords n (v.located false ls)) = false ∧
  ∀ w ∈ hbmWords n (v.located false ls), (v.co.raw w).st ≠ .pend ∧ ((v.co.raw w).st = .dirty → (v.co.raw w).writers = [v.slot]) ∧
    ((v.co.raw w).st = .own → (v.co.raw w).pm = 0 ∨ (v.co.raw w).wslot = v.slot)

/-- Nothing is left for a release at the scope to wait for (R70, R72, R94). At issue: no synchronisation access, read or tile fetch of the
pack is under way, PREG is 0 but in a LAZY pack, from SYSTEM on no host write is; beyond the pack's own scope, where ECO is to wrap,
nothing is unregistered, and with `all` a LAZY pack has nothing unregistered. Later: the registrations it began are granted, or it is past
them. -/
abbrev View.releasable (v : View) (sc : Scope) (all : Bool) : Prop :=
  2 ≤ v.sp.phase ∨ (v.sp.phase = 1 ∧ v.co.unpublished v.slot = [] ∧ v.pk.preg = 0) ∨
  (v.sp.phase = 0 ∧ v.syncBusy = false ∧ v.outstanding (fun m => m.kind.reads) = false ∧ v.fetching = false ∧
    (v.pk.lazyMode = false → v.pk.preg = 0) ∧ (3 ≤ scopeNo sc → v.pk.hostw = 0) ∧
    (scopeNo sc ≠ 0 → v.svc = false →
      (v.co.ecoOf v.slot = 0xFFF → v.co.dirtyOf v.slot = [] ∧ v.co.carried v.slot = [] ∧ v.pk.preg = 0) ∧
      (all = true → v.pk.lazyMode = true → v.co.dirtyOf v.slot = [] ∧ v.co.carried v.slot = [])))

/-- The L1 takes the lines of these words without giving one up (R63, R155): the lines are listed once each, and every set has ways for
the lines that are absent. -/
abbrev Core.roomFor (c : Core) (ws : List Nat) : Prop :=
  (c.lines.map (fun e => e.1)).Pairwise (· < ·) ∧
  ∀ l ∈ linesOf ws, (c.setLines l).length +
    ((linesOf ws).filter (fun k => decide (k % 512 = l % 512) && (c.line k).isNone)).length ≤ c.ways

/-- Words may be claimed (R63, R64, R89): their lines have room, PREG can count a registration of each, no atomic of the pack is unanswered
on one of them, and none is an unregistered word that must be registered first. -/
abbrev View.claimable (v : View) (q : Claiming) (cs : List Claim) : Prop :=
  v.co.roomFor (cs.map (fun k => k.w)) ∧ (q.cnt = true → v.pk.preg + cs.length ≤ 1023) ∧ v.atomHolds (cs.map (fun k => k.w)) = false ∧
  ∀ k ∈ cs, (v.co.raw k.w).mustRegister v.slot q = false

/-- Words may be given back (R64, R89, R137): no atomic of the pack is unanswered on one of them, and none holds half of an 8-byte store. -/
abbrev View.returnable (v : View) (ws : List Nat) : Prop :=
  v.atomHolds ws = false ∧ ∀ w ∈ ws, (v.co.raw w).st = .own → (v.co.raw w).pm = 0

/-- A store is free to go (R63, R91, R94, R142). -/
abbrev View.storable (v : View) (n : Nat) (rel : Option Scope) (data : Nat → W64) (ls : List (Nat × Nat)) : Prop :=
  v.acqBusy = false ∧ v.mapped kWrite true n ls ∧
  (∀ sc ∈ rel, v.releasable sc false) ∧
  v.claimable (v.storeClaiming rel) (withCover (storeWords n (hbmData data (v.located true ls))))

/-- An atomic is free to go (R91, R94, R146, R154): host memory takes the operation, .RL has released (a LAZY pack's has registered its
word too), and no word awaits a registration or a grant. -/
abbrev View.atomicReady (v : View) (op : AOp) (aq rl : Bool) (n : Nat) (sc : Scope) (ls : List (Nat × Nat)) : Prop :=
  v.acqBusy = false ∧ (aq = true → v.syncBusy = false) ∧ v.mapped kAtomic true n ls ∧
  (∀ g ∈ v.located true ls, isHost g.pa = true → hostAtomic op = true) ∧
  (rl = true → v.sp.phase = 3 ∨ ((v.pk.lazyMode = false ∨ v.svc = true ∨ scopeNo sc = 0) ∧ v.releasable sc false)) ∧
  ∀ w ∈ hbmWords n (v.located true ls), (v.co.raw w).st ≠ .pend ∧ (v.co.raw w).st ≠ .dirty

/-- A VLR, VSC, REG or DEREG names HBM: it is free to go once its lanes are mapped and no acquire is under way (R148, R151). -/
abbrev View.wordsReady (v : View) (kind : Nat) (write : Bool) (n : Nat) (ls : List (Nat × Nat)) : Prop :=
  v.acqBusy = false ∧ v.mapped kind write n ls ∧ ∀ g ∈ v.located write ls, isHost g.pa = false

/-- No class-V result of the split, or of one that has joined its word, is still to be written to the rows (R257, R303). -/
abbrev View.rowsFree (v : View) (rows : Nat → Bool) : Prop :=
  (v.sp.out ++ v.joined.flatMap (fun x => x.out)).all (fun o => match o.dest with | .v r wide => !rows r && !(wide && rows (r + 1)) | _ => true) = true

/-- A tile operand stands staged for the split: every fetch of its own is complete without a fault, and there is one, or the stage holds
an entry that can be used again (R264, R265, R267). -/
abbrev View.staged (v : View) (e : StageEntry) : Prop :=
  let mine (f : TileFetch) : Bool := f.slot == v.slot && f.split == v.ix && f.entry.sameKey e
  (∀ f ∈ v.co.fetches, mine f = true → f.fault = none ∧ f.todo = []) ∧
  ((∃ f ∈ v.co.fetches, mine f = true) ∨ ∃ x ∈ v.co.stage, x.sameKey e = true ∧ v.co.reusable x = true)

/-! ### Conditions under which an access at once completes -/

/-- Nothing stands in the way of an access at once to a word (R28, R34, R55, R57, R60): nothing concerning it is under way, its home holds
it, and it is marked neither as poison nor as of a line that failed. -/
abbrev State.restful (s : State) (w : Nat) : Prop :=
  s.quietWord w = true ∧ s.reg w = .unreg ∧ get false s.poison w = false ∧ get false s.badline w = false

/-- Every tag and every node of the integrity trees is that of the contents, and no node has failed (R28, R34). -/
abbrev State.treeSound (s : State) : Prop := s.badTree = [] ∧ s.tagDelta = [] ∧ s.nodeOff = []

/-- Every word that `n` bytes at `pa` touch is so, and the integrity trees are sound. -/
abbrev State.restfulAt (s : State) (pa n : Nat) : Prop := s.treeSound ∧ ∀ w ∈ spanWords pa n, s.restful w.1

/-- The buffer that an engine's pages are looked up in first: a service core's micro-buffer, or the hub's (R49). -/
def State.buffer (s : State) (agent : Nat) : List TlbEntry :=
  if 64 ≤ agent && agent < 96 then (s.core agent).utlb else s.hubtb

/-- A buffer holds no more than its entries: 16 of a micro-buffer, 16 of each of the hub's sets (R49). -/
def bufferFits (agent : Nat) (l : List TlbEntry) : Bool :=
  if 64 ≤ agent && agent < 96 then decide (l.length ≤ utlbSize agent)
  else l.all (fun e => decide ((l.filter (fun x => tlbSet 128 x == tlbSet 128 e)).length ≤ 16))

/-- Who translates for an engine. -/
def Eng.who (q : Eng) (write : Bool) : Who := ⟨q.part, decide (64 ≤ q.agent) && decide (q.agent < 96), q.kind, write⟩

/-- The buffered entry that serves an engine's access. -/
def State.pageOf (s : State) (q : Eng) (va : Nat) (write : Bool) : Option TlbEntry :=
  (s.buffer q.agent).find? (fun e => e.hits q.asid va && e.serves write)

/-- An engine reaches `n` bytes at a VA at once (R42, R46, R47, R57, R60): XROOT is valid; every page of them is canonical and buffered, by
one entry, and no check of R42 fails; and it lies in host memory, or in a frame bound to its attribute whose words nothing stands in the
way of. -/
abbrev State.reaches (s : State) (q : Eng) (va n : Nat) (write : Bool) : Prop :=
  s.rootFlaw q.part q.root = none ∧ bufferFits q.agent (s.buffer q.agent) = true ∧ s.treeSound ∧
  ∀ p ∈ piecesOf va n, canonical p.1 = true ∧
    (∀ e ∈ s.buffer q.agent, ∀ f ∈ s.buffer q.agent, e.hits q.asid p.1 = true → f.hits q.asid p.1 = true → e = f) ∧
    ∃ e ∈ s.pageOf q p.1 write,
      leafFlaw (q.who write) e.leaf e.level = none ∧ s.paFlaw (q.who write) e.leaf e.level (leafPa e.leaf e.level p.1) = none ∧
      (isHost (leafPa e.leaf e.level p.1) = true ∨
        (get 0 s.frames (leafPa e.leaf e.level p.1 / 2 ^ 16) = leafAttr e.leaf ∧
          ∀ w ∈ spanWords (leafPa e.leaf e.level p.1) p.2, s.restful w.1))

/-- The bytes that the homes hold at a PA. -/
def State.homeBytes (s : State) (pa n : Nat) : List Byte :=
  (((spanWords pa n).flatMap (fun e => bytesOf 4 (s.homeWord e.1).toNat)).drop (pa % 4)).take n

/-- The bytes that an engine that reaches them reads at a VA. -/
def State.engBytes (s : State) (q : Eng) (va n : Nat) : List Byte :=
  (piecesOf va n).flatMap (fun p =>
    match s.pageOf q p.1 false with
    | some e =>
      let pa := leafPa e.leaf e.level p.1
      if isHost pa then (List.range p.2).map (fun i => s.byte (pa + i)) else s.homeBytes pa p.2
    | none => [])

/-- An engine reads the bytes `bs` at a VA at once. -/
abbrev State.reads (s : State) (q : Eng) (va n : Nat) (bs : List Byte) : Prop := s.reaches q va n false ∧ s.engBytes q va n = bs

/-- The pack areas of a workgroup's image (R355) stand at a VA: the first 4 KiB of each, without a fault, and its rows. -/
def State.areasRead (s : State) (q : Eng) : Nat → List (List Byte) → List (List Byte) → Prop
  | _, [], [] => True
  | va, h :: hs, r :: rs => s.reads q va 4096 h ∧ badByte h = none ∧ s.reads q (va + 4096) (384 * imgRows h) r ∧
      s.areasRead q (va + packAreaSize (imgRows h)) hs rs
  | _, _, _ => False

/-- The tile fetch unit reads bytes `b` of a word at once (R264): none of them holds an element; or the core's own L1 has no registered or
written value and the home serves it; or it has every byte asked for, and refuses none. -/
abbrev State.tileServed (s : State) (a slot : Nat) (check : Bool) (w : Nat) (b : BitVec 4) : Prop :=
  b = 0 ∨
  (let x := (s.core a).raw w
   ((x.st = .inv ∨ x.st = .copy) ∧ s.restful w) ∨ (x.st = .dirty ∧ x.writers = [slot] ∧ b &&& ~~~x.kn = 0) ∨
   (x.st = .own ∧ b &&& ~~~x.kn = 0 ∧ (check = true → (s.core a).racySame x slot b = false)))

/-- The word that the tile fetch unit then reads: 0 where no byte holds an element, the home's, or the L1's. -/
def State.tileValue (s : State) (a w : Nat) (b : BitVec 4) : W32 :=
  let x := (s.core a).raw w
  if b = 0 then 0 else if x.st = .inv ∨ x.st = .copy then s.homeWord w else x.val

/-- The state that reads a packet: its core keeps no COPY of the line (R86). -/
def View.packetState (v : View) (g : LaneAddr) : State := v.close.updCore v.ag (fun c => c.dropCopies (fun l _ => l == g.pa / 64))

/-- A packet can be read at once at a located address (R47, R103, R291): no write of the pack to host memory is under way; or the integrity
trees are sound, the frame is bound to the leaf's attribute, and the packet's words are served as a tile's are. -/
abbrev View.packetReady (v : View) (g : LaneAddr) (va : Nat) : Prop :=
  if isHost g.pa = true then v.pk.hostw = 0
  else v.s.treeSound ∧ get 0 v.s.frames (g.pa / 2 ^ 16) = g.attr ∧
    ∀ k, k < 16 → (v.packetState g).tileServed v.ag v.slot (!v.pk.lazyMode) (g.pa / 4 + k) (TileRec.wordBytes [(va, 64)] va k)

/-- The packet's 64 bytes. -/
def View.packetBytes (v : View) (g : LaneAddr) (va : Nat) : List Byte :=
  if isHost g.pa then (List.range 64).map (fun i => v.s.byte (g.pa + i))
  else (List.range 16).flatMap (fun k => bytesOf 4 ((v.packetState g).tileValue v.ag (g.pa / 4 + k) (TileRec.wordBytes [(va, 64)] va k)).toNat)

/-- The byte that a scratchpad store of `n` bytes a lane puts at byte `a` of the array, if a lane stores there: the last lane's of
the list. -/
def spByteOf (base n : Nat) (data : Nat → W64) (ls : List (Nat × Nat)) (a : Nat) : Option Byte :=
  (ls.reverse.find? (fun x => decide (base + x.2 ≤ a) && decide (a < base + x.2 + n))).map (fun x =>
    BitVec.ofNat 8 ((data x.1).toNat / 256 ^ (a - base - x.2)))

/-- The instructions of the table, events apart, whose effect lies in their own pack, in the units of their core that compute, and in
the mask and registers of their split: they reach no memory, scratchpad, message or service. -/
def registerOnly (i : Instr) : Bool :=
  (ctlOf i).isSome &&
  (match i with
    | .sld .. | .sst .. | .vld .. | .vst .. | .vlds .. | .vsts .. | .slds .. | .ssts .. | .vldq .. | .vstl .. | .sldq .. | .sstl ..
    | .vatom .. | .satom .. | .vlr .. | .vsc .. | .fence .. | .acq .. | .rel .. | .invr .. | .inva .. | .reg .. | .dereg .. | .pref ..
    | .waita .. | .xfer .. | .msgsend .. | .msgrecv .. | .msgfree .. | .barinit .. | .bararr .. | .barwait .. | .bartry ..
    | .mma .. | .mmas .. | .mscale .. | .mzero .. | .mcvt .. | .tfpin .. | .tfrel .. | .brx .. | .svc .. | .qpost .. | .reggrow ..
    | .regshrink .. | .sres .. | .pctxsv .. | .pctxld .. | .tlbinv .. | .mbxsend .. | .mbxrecv .. | .zap .. | .halt .. | .iret ..
    | .pstop .. | .pstopGo .. | .pstopEnd .. | .swrp .. => false
    | _ => true)

end Sys2Proof.Machine
end

