-- ==== Sys2Proof/Certificates/Slice0/Obligations.lean ====
section
/-! DEFINITION. The statements about this machine for the provers (see OBLIGATIONS.json). -/

section
open Sys2Proof Sys2Proof.Machine

/-- For every instruction of the table, on a compute core and on a service core: if it is well formed there, the encoder gives it a
word, and the core executes its opcode, then the decoder reads that word as the instruction, with every operand it has. -/
def Obligations.EncodeDecode : Prop :=
  ∀ (svc : Bool) (i : Instr) (w : Word),
    wfOn svc i = true → encode i = some w → runsOn svc w = true → decodeWord svc w = .ok i

/-- A word that the decoder accepts is the word that the encoder gives its instruction, bit for bit, the instruction is well formed on
that core, and the core executes its opcode: no bit of an accepted word is ignored. -/
def Obligations.DecodeEncode : Prop :=
  ∀ (svc : Bool) (w : Word) (i : Instr),
    decodeWord svc w = .ok i → encode i = some w ∧ wfOn svc i = true ∧ runsOn svc w = true

/-- A reserved length code or an unassigned opcode is ILLEGAL_OP; an assigned privileged opcode on a compute core is PRIVILEGE; an opcode
that a service core does not execute is ILLEGAL_OP there. The unassigned opcodes are the gaps of the opcode table. -/
def Obligations.RefusedOpcodes : Prop :=
  (∀ (svc : Bool) (w : Word), lenOf (Base.ofBits w.base).len = none → decodeWord svc w = .error .illegalOp) ∧
  (∀ (svc : Bool) (w : Word) (l : Len) (n : Nat), lenOf (Base.ofBits w.base).len = some l → n = (Base.ofBits w.base).op.toNat →
    (0x1C ≤ n ∧ n ≤ 0x1F ∨ 0x32 ≤ n ∧ n ≤ 0x37 ∨ 0x5E ≤ n ∧ n ≤ 0x5F ∨ 0x7C ≤ n ∧ n ≤ 0x87 ∨ 0x8E ≤ n ∧ n ≤ 0x8F ∨
      0xA9 ≤ n ∧ n ≤ 0xAF ∨ 0xB8 ≤ n ∧ n ≤ 0xBF ∨ n = 0xC7 ∨ 0xDA ≤ n ∧ n ≤ 0xDF ∨ 0xEB ≤ n ∧ n ≤ 0xFE) →
    decodeWord svc w = .error .illegalOp) ∧
  (∀ (w : Word) (l : Len) (n : Nat), lenOf (Base.ofBits w.base).len = some l → n = (Base.ofBits w.base).op.toNat →
    0xE0 ≤ n → n ≤ 0xEA → decodeWord false w = .error .privilege) ∧
  (∀ (w : Word) (l : Len) (n : Nat), lenOf (Base.ofBits w.base).len = some l → n = (Base.ofBits w.base).op.toNat →
    opAssigned n = true → opService n = false → decodeWord true w = .error .illegalOp)

/-- Words written out in the spec's examples decode to the instructions they stand for: NOP, IRET, SRES s4, s8, a wide VCMP with an
immediate, a short VADD of w registers, and SVC.EACH. -/
def Obligations.DecodedWords : Prop :=
  decodeWord false ⟨0x01F80345, 0, 0⟩ = .ok (.nop ⟨.short, 0, 0, 7, 7⟩) ∧
  decodeWord true ⟨0x01F803A1, 0, 0⟩ = .ok (.iret ⟨.short, 0, 0, 7, 7⟩) ∧
  decodeWord true ⟨0x0008008001F80381, 0, 0⟩ = .ok (.sres ⟨.short, 0, 0, 7, 7⟩ false 4 8) ∧
  decodeWord false ⟨0x0007014005F82D5E, 0x000D0000, 0⟩ =
    .ok (.vcmp ⟨.long, 3, 1, 7, 7⟩ .i32 .ge 1 ⟨10, false⟩ (.s 7)) ∧
  decodeWord false ⟨0x2000050001C80352, 0x00000048, 0⟩ = .ok (.svc ⟨.long, 0, 0, 1, 7⟩ true 40 0x48)

/-- When the next turn is the issue of a split that may be selected, its fetch gives bytes, its PC is aligned, its word lies in its
32-byte block, and the bytes decode to an instruction, the step is exec of that instruction at the state after the fetch, with `cur`
naming the split and `op` the word's opcode. exec itself moves the PC past the word, to the sequential successor or the branch target. -/
def Obligations.StepRunsIssue : Prop :=
  ∀ (s : State) (p : Site) (rest : List Turn) (v w : View) (bs tail : List Byte) (l : Len) (i : Instr),
    s.agenda = .issue p :: rest → ({ s with agenda := rest } : State).selectable p = some v → v.fetch = .bytes w bs →
    w.sp.pc.toNat % 4 = 0 → lenOf (BitVec.ofNat 2 (ofBytes (bs.take 8))) = some l → w.sp.pc.toNat % 32 + l.bytes ≤ 32 →
    decode w.svc bs = .ok (i, tail) → step s = exec i { w.close with cur := p, op := ofBytes (bs.take 8) / 4 % 256 }

/-- When the fetch gives bytes that the checks of alignment, length, block or decoding refuse, the step raises the check's fault at the
split (a word that decoding refuses, once the tokens of its WAITM are ready and its SETQ token is below 63). A turn that is an event runs
that event; a turn that is an instruction of a core does nothing, for it runs only where it is fetched; a Zumos turn is the shard's own
step; a turn of time advances T. The agenda itself is the model's (see the assumption log, entry 1). -/
def Obligations.StepOtherwise : Prop :=
  (∀ (s : State) (p : Site) (rest : List Turn) (v w : View) (bs : List Byte),
    s.agenda = .issue p :: rest → ({ s with agenda := rest } : State).selectable p = some v → v.fetch = .bytes w bs →
    (w.sp.pc.toNat % 4 ≠ 0 → step s = .next (w.raise (w.faultRec fcFetchAlign w.sp.pc 0 0 0 127 0))) ∧
    (w.sp.pc.toNat % 4 = 0 → lenOf (BitVec.ofNat 2 (ofBytes (bs.take 8))) = none →
      step s = .next (w.raise (w.faultRec fcIllegalOp 0 0 0 0 127 0))) ∧
    (∀ (l : Len), w.sp.pc.toNat % 4 = 0 → lenOf (BitVec.ofNat 2 (ofBytes (bs.take 8))) = some l → 32 < w.sp.pc.toNat % 32 + l.bytes →
      step s = .next (w.raise (w.faultRec fcFetchAlign w.sp.pc 0 0 0 127 0))) ∧
    (∀ (l : Len) (e : DecErr) (t : Nat), w.sp.pc.toNat % 4 = 0 → lenOf (BitVec.ofNat 2 (ofBytes (bs.take 8))) = some l →
      w.sp.pc.toNat % 32 + l.bytes ≤ 32 → decode w.svc bs = .error e →
      w.tokensAt (BitVec.ofNat 6 (ofBytes (bs.take 8) / 2 ^ 13)) = some t →
      (ofBytes (bs.take 8) / 2 ^ 19 % 8 < 6 →
        ({ w with now := t } : View).settle.sp.tok.getD (ofBytes (bs.take 8) / 2 ^ 19 % 8) 0 < 63) →
      step s = .next (({ w with now := t } : View).raise (w.faultRec (decCode e) 0 0 0 0 127 0)))) ∧
  (∀ (s : State) (rest : List Turn),
    (∀ i, s.agenda = .ev i :: rest → ctlOf i = none → step s = exec i { s with agenda := rest }) ∧
    (∀ i c, s.agenda = .ev i :: rest → ctlOf i = some c → step s = .next { s with agenda := rest }) ∧
    (∀ n, s.agenda = .zumos n :: rest → step s = .next (({ s with agenda := rest } : State).zumosTurn n)) ∧
    (∀ ns, s.agenda = .pass ns :: rest → step s = .next (({ s with agenda := rest } : State).pass ns)))

/-- Every instruction, in every state in which `cur` names a resident split, and every event in every state, has a next state; an
instruction without a resident split faults noContext. No meaning refuses. -/
def Obligations.ExecAnswers : Prop :=
  (∀ (i : Instr) (s : State), s.view ≠ none → ∃ t, exec i s = .next t) ∧
  (∀ (i : Instr) (s : State), ctlOf i = none → ∃ t, exec i s = .next t) ∧
  (∀ (i : Instr) (c : Ctl) (s : State), ctlOf i = some c → s.view = none → exec i s = .fault .noContext)

/-- From every state, reachable or not, the machine's step answers a next state: no turn, no fetched word and no choice of the machine's
own schedule ends in a fault or a refusal. Faults of instructions are exceptions taken by next states. -/
def Obligations.StepAnswers : Prop := ∀ s : State, ∃ t, step s = .next t

/-- A word whose split cannot issue, or one of whose tokens is not ready, or which writes a row that a queued matrix instruction of its
split names, leaves the whole state as it was: it does not issue, and nothing of it is performed. Shown for the two-source integer
operations, NOP and the stores. -/
def Obligations.WaitsForTokens : Prop :=
  (∀ e ∈ twoSource, ∀ (c : Ctl) (t : IType) (d a : SReg) (b : USrc) (s : State) (v : View),
    s.view = some v → v.ready c 0 ([.ds d, .s 1 a] ++ useU 2 b) = none → exec (e.1 c t d a b) s = .next s) ∧
  (∀ (c : Ctl) (s : State) (v : View), s.view = some v → v.ready c 0 [] = none → exec (.nop c) s = .next s) ∧
  (∀ (c : Ctl) (ty : Ty) (ad : Addr) (off : BitVec 24) (b : VSrc) (s : State) (v : View),
    s.view = some v → v.ready c 0 (useAddr true ad ++ [useV 2 (ty64 ty) b]) = none → exec (.vst c ty ad off b) s = .next s)

/-- A two-source integer operation that issues with no lane in ACT changes no register, flag or memory: its split goes on at the
sequential successor, and no token rises. -/
def Obligations.GuardedOff : Prop :=
  ∀ e ∈ twoSource, ∀ (c : Ctl) (t : IType) (d a : SReg) (b : USrc) (s : State) (v0 v : View),
    s.view = some v0 → v0.ready c 0 ([.ds d, .s 1 a] ++ useU 2 b) = some v →
    v.stalls [(c.guard, [.ds d, .s 1 a] ++ useU 2 b)] = none → v.act c.guard = 0 →
    exec (e.1 c t d a b) s = .next (v.after c (v.succ c))

/-- For each two-source integer operation of R222 and R223, whenever its word issues: the uniform form writes its register with the exact
value's low w bits, extended as R219 states, at the latency of class U; the varying form writes the lanes of ACT of its register with
the low w bits of each lane's value at the latency of class VI. Nothing else of the instruction's is written, and the split goes on at
the sequential successor. -/
def Obligations.IntegerTwoSource : Prop :=
  ∀ e ∈ twoSource, ∀ (c : Ctl) (t : IType) (s : State) (v : View) (m : Mask),
    (∀ (d a : SReg) (b : USrc), IssuesW c ([.ds d, .s 1 a] ++ useU 2 b) false s v m →
      exec (e.1 c t d a b) s =
        .next ((v.putS c d (itExt t (itRes t (e.2.2 t (v.rs a) (v.us b (itImm t))))) latU).after c (v.succ c))) ∧
    (∀ (d : VReg) (a : VSrc) (b : VOpnd), IssuesW c ([.dv (it64 t) d, useV 1 (it64 t) a] ++ useO 2 (it64 t) b) false s v m →
      exec (e.2.1 c t d a b) s =
        .next ((((v.lastUse (it64 t) a m).lastO (it64 t) b m).putV c (it64 t) d m
          (lanes.map (fun L => itRes t (e.2.2 t (el (v.vs (it64 t) a) L) (el (v.vo (it64 t) b (itImm t)) L)))) latVI).after
          c (v.succ c)))

/-- SCLZ, SPOPC, SMOV, SBFX, SBFI, SSEL, SMOVI and SCMP: whenever the word issues, the uniform register is written, at the latency of
class U, with the count, copy, field, choice, immediate or comparison, extended as R219 states. -/
def Obligations.UniformOther : Prop :=
  ∀ (c : Ctl) (t : IType) (d a b : SReg) (s : State) (v : View) (m : Mask),
    (IssuesW c [.ds d, .s 1 a] false s v m →
      exec (.sclz c t d a) s = .next ((v.putS c d (itExt t (opClz t (v.rs a))) latU).after c (v.succ c)) ∧
      exec (.spopc c t d a) s = .next ((v.putS c d (itExt t (opPopc t (v.rs a))) latU).after c (v.succ c)) ∧
      exec (.smov c t d a) s = .next ((v.putS c d (itExt t (v.rs a)) latU).after c (v.succ c))) ∧
    (∀ desc : USrc, IssuesW c ([.ds d, .s 1 a] ++ useU 2 desc) false s v m →
      exec (.sbfx c t d a desc) s =
        .next ((v.putS c d (itExt t (opBfx t (v.rs a) (v.us desc imm0).toNat)) latU).after c (v.succ c))) ∧
    (∀ desc : USrc, IssuesW c ([.ds d, .s 1 a, .s 2 b] ++ useU 3 desc) false s v m →
      exec (.sbfi c t d a b desc) s =
        .next ((v.putS c d (itExt t (opBfi t (v.rs a) (v.rs b) (v.us desc imm0).toNat)) latU).after c (v.succ c))) ∧
    (∀ k : SReg, IssuesW c [.ds d, .s 1 a, .s 2 b, .s 3 k] false s v m →
      exec (.ssel c t d a b k) s =
        .next ((v.putS c d (itExt t (if v.rs k = 0 then v.rs b else v.rs a)) latU).after c (v.succ c))) ∧
    (IssuesW c [.ds d] false s v m →
      (∀ x : W32, exec (.smovi c t d (.i32 x)) s = .next ((v.putS c d (itExt t (itImm t x)) latU).after c (v.succ c))) ∧
      (∀ x : W64, exec (.smovi c t d (.i64 x)) s = .next ((v.putS c d (itExt t x) latU).after c (v.succ c)))) ∧
    (∀ (k : Cond) (y : USrc), IssuesW c ([.ds d, .s 1 a] ++ useU 2 y) false s v m →
      exec (.scmp c t k d a y) s =
        .next ((v.putS c d (if opCmp t k (v.rs a) (v.us y (itImm t)) then 1 else 0) latU).after c (v.succ c)))

/-- VNOT, VABS, VNEG, VCLZ, VPOPC, VMOV, VBFX, VBFI, VSEL, VMOVI, VCMP, VSAT and VMAD: whenever the word issues, the lanes of ACT of the
destination are written at the latency of class VI. -/
def Obligations.VaryingOther : Prop :=
  ∀ (c : Ctl) (t : IType) (d : VReg) (a b : VSrc) (s : State) (v : View) (m : Mask),
    (IssuesW c [.dv (it64 t) d, useV 1 (it64 t) a] false s v m →
      (∀ e ∈ ([(.vnot, opNot), (.vabs, opAbs), (.vneg, opNeg), (.vclz, opClz), (.vpopc, opPopc), (.vmov, opMov)] :
          List ((Ctl → IType → VReg → VSrc → Instr) × (IType → W64 → W64))),
        exec (e.1 c t d a) s =
          .next (((v.lastUse (it64 t) a m).putV c (it64 t) d m ((v.vs (it64 t) a).map (e.2 t)) latVI).after c (v.succ c))) ∧
      (∀ x : W32, exec (.vsat c t d a x) s =
        .next (((v.lastUse (it64 t) a m).putV c (it64 t) d m ((v.vs (it64 t) a).map (fun y => opSat t y x)) latVI).after c
          (v.succ c)))) ∧
    (∀ desc : USrc, IssuesW c ([.dv (it64 t) d, useV 1 (it64 t) a] ++ useU 2 desc) false s v m →
      exec (.vbfx c t d a desc) s =
        .next (((v.lastUse (it64 t) a m).putV c (it64 t) d m
          ((v.vs (it64 t) a).map (fun x => opBfx t x (v.us desc imm0).toNat)) latVI).after c (v.succ c))) ∧
    (∀ desc : USrc, IssuesW c ([.dv (it64 t) d, useV 1 (it64 t) a, useV 2 (it64 t) b] ++ useU 3 desc) false s v m →
      exec (.vbfi c t d a b desc) s =
        .next ((((v.lastUse (it64 t) a m).lastUse (it64 t) b m).putV c (it64 t) d m
          (lanes.map (fun L => opBfi t (el (v.vs (it64 t) a) L) (el (v.vs (it64 t) b) L) (v.us desc imm0).toNat)) latVI).after c
          (v.succ c))) ∧
    (∀ (y : VOpnd) (p : PReg), IssuesW c ([.dv (it64 t) d, useV 1 (it64 t) a, .p 3 p] ++ useO 2 (it64 t) y) false s v m →
      exec (.vsel c t d a y p) s =
        .next ((((v.lastUse (it64 t) a m).lastO (it64 t) y m).putV c (it64 t) d m
          (lanes.map (fun L => if (v.rp p).getLsbD L then el (v.vs (it64 t) a) L else el (v.vo (it64 t) y (itImm t)) L)) latVI).after
          c (v.succ c))) ∧
    (IssuesW c [.dv (it64 t) d] false s v m →
      (∀ x : W32, exec (.vmovi c t d (.i32 x)) s =
        .next ((v.putV c (it64 t) d m (List.replicate 96 (itImm t x)) latVI).after c (v.succ c))) ∧
      (∀ x : W64, exec (.vmovi c t d (.i64 x)) s =
        .next ((v.putV c (it64 t) d m (List.replicate 96 x) latVI).after c (v.succ c)))) ∧
    (∀ (k : Cond) (p : PReg) (y : VOpnd), IssuesW c ([.dp p, useV 1 (it64 t) a] ++ useO 2 (it64 t) y) false s v m →
      exec (.vcmp c t k p a y) s =
        .next ((((v.lastUse (it64 t) a m).lastO (it64 t) y m).putP c p m
          (maskOf (fun L => opCmp t k (el (v.vs (it64 t) a) L) (el (v.vo (it64 t) y (itImm t)) L))) latVI).after c (v.succ c))) ∧
    (∀ (y : VOpnd), IssuesW c ([.dv (it64 t) d, useV 1 (it64 t) a, useV 3 (it64 t) b] ++ useO 2 (it64 t) y) false s v m →
      exec (.vmad c t d a y b) s =
        .next (((((v.lastUse (it64 t) a m).lastO (it64 t) y m).lastUse (it64 t) b m).putV c (it64 t) d m
          (lanes.map (fun L => opAdd t (opMul t (el (v.vs (it64 t) a) L) (el (v.vo (it64 t) y (itImm t)) L)) (el (v.vs (it64 t) b) L)))
          latVI).after c (v.succ c)))

/-- SDIV, SDIVN, SREM, SREMN and their varying forms: whenever the word issues, the operation enters its core's division unit with the
quotient or remainder of R202 for its register (for the lanes of ACT), its FPF flags, the lanes for LEX0-LEX2, and, with CTXCFG.DZT, the
lane that raises DIV_ZERO; its destination is outstanding and its token rises. -/
def Obligations.Divisions : Prop :=
  ∀ e ∈ divisions, ∀ (c : Ctl) (t : IType) (s : State) (v : View) (m : Mask),
    (∀ (d a : SReg) (b : USrc), IssuesW c ([.ds d, .s 1 a] ++ useU 2 b) false s v m →
      let r := e.2.2.1 t e.2.2.2 (v.rs a) (v.us b (itImm t))
      exec (e.1 c t d a b) s = .next ((v.divide c (.s d) 0 [] [] (itExt t r.val) r.fl 0
        (if r.fl &&& flDZI ≠ 0 then some 127 else none)).after c (v.succ c))) ∧
    (∀ (d : VReg) (a : VSrc) (b : VOpnd), IssuesW c ([.dv (it64 t) d, useV 1 (it64 t) a] ++ useO 2 (it64 t) b) false s v m →
      let rs := overLanes m (fun L => e.2.2.1 t e.2.2.2 (el (v.vs (it64 t) a) L) (el (v.vo (it64 t) b (itImm t)) L))
      exec (e.2.1 c t d a b) s = .next ((((v.lastUse (it64 t) a m).lastO (it64 t) b m).divide c (v.destV (it64 t) d) m
        (loRow (valsOf rs)) (hiRow (valsOf rs)) 0 (flsOf rs) (lanesWith rs (flDZI + flDVO)) (lowest (lanesWith rs flDZI))).after c
        (v.succ c)))

/-- Over every pair of n-bit operands: with y ≠ 0 and no overflow the quotient is trunc(x / y), the remainder x − q y, and no flag is set;
with y = 0 the quotient is all ones, the remainder x, and DZI is set; signed MIN / −1 gives MIN and 0 and sets DVO. -/
def Obligations.DivisionValues : Prop :=
  ∀ (t : IType) (x y : W64),
    (itU t y = 0 → ∀ sg : Bool,
      itU t (opQuot t sg x y).val = 2 ^ itW t - 1 ∧ itU t (opRem t sg x y).val = itU t x ∧
      (opQuot t sg x y).fl = flDZI ∧ (opRem t sg x y).fl = flDZI) ∧
    (itU t y ≠ 0 →
      itU t (opQuot t false x y).val = itU t x / itU t y ∧
      itU t (opRem t false x y).val = itU t x - itU t x / itU t y * itU t y ∧
      (opQuot t false x y).fl = 0 ∧ (opRem t false x y).fl = 0) ∧
    (itU t y ≠ 0 → ¬(itI t x = -(2 ^ (itW t - 1) : Int) ∧ itI t y = -1) →
      itI t (opQuot t true x y).val = (itI t x).tdiv (itI t y) ∧
      itI t (opRem t true x y).val = itI t x - (itI t x).tdiv (itI t y) * itI t y ∧
      (opQuot t true x y).fl = 0 ∧ (opRem t true x y).fl = 0) ∧
    (itI t x = -(2 ^ (itW t - 1) : Int) → itI t y = -1 →
      itI t (opQuot t true x y).val = -(2 ^ (itW t - 1) : Int) ∧ itI t (opRem t true x y).val = 0 ∧
      (opQuot t true x y).fl = flDVO ∧ (opRem t true x y).fl = flDVO)

/-- DIVISION_COMPLETE and SPECIAL_FUNCTION_COMPLETE take the oldest operation of the unit: its flags join FPF, its lanes LEX0-LEX2, its
results are delivered, its token falls, and a division that raises DIV_ZERO stops the pack at the successor. LANDING_BUFFER_WRITE writes
the oldest result with its flags, and its token falls. An empty unit or buffer changes nothing. -/
def Obligations.UnitCompletions : Prop :=
  ∀ (n : Nat) (s : State),
    (∀ op rest, (s.core n).divq = op :: rest → exec (.divisionComplete n) s =
      .next (s.setCore n (({ (s.core n) with divq := rest } : Core).unitDone (decide (64 ≤ n)) op))) ∧
    ((s.core n).divq = [] → exec (.divisionComplete n) s = .next s) ∧
    (∀ op rest, (s.core n).sfuq = op :: rest → exec (.specialFunctionComplete n) s =
      .next (s.setCore n (({ (s.core n) with sfuq := rest } : Core).unitDone (decide (64 ≤ n)) op))) ∧
    ((s.core n).sfuq = [] → exec (.specialFunctionComplete n) s = .next s) ∧
    (∀ x rest, (s.core n).landing = x :: rest → exec (.landingBufferWrite n) s =
      .next (s.setCore n (({ (s.core n) with landing := rest } : Core).updPack x.slot (fun p =>
        ((p.orFpf x.flags).deliver (decide (64 ≤ n)) x.split x.seq x.dest x.mask x.lo x.hi x.sval).retireOp x.split x.seq x.tok
          (s.core n).cycle)))) ∧
    ((s.core n).landing = [] → exec (.landingBufferWrite n) s = .next s)

/-- PAND, POR, PXOR, PNOT and PMOV: whenever the word issues, the lanes of ACT of the destination predicate are written at the latency of
class VI with the lanes' conjunction, disjunction, difference, negation or copy; PMOV.MK takes them from three uniform words. -/
def Obligations.Predicates : Prop :=
  ∀ (c : Ctl) (d a b : PReg) (s : State) (v : View) (m : Mask),
    (IssuesW c [.dp d, .p 1 a, .p 2 b] false s v m →
      exec (.pand c d a b) s = .next ((v.putP c d m (v.rp a &&& v.rp b) latVI).after c (v.succ c)) ∧
      exec (.por c d a b) s = .next ((v.putP c d m (v.rp a ||| v.rp b) latVI).after c (v.succ c)) ∧
      exec (.pxor c d a b) s = .next ((v.putP c d m (v.rp a ^^^ v.rp b) latVI).after c (v.succ c))) ∧
    (IssuesW c [.dp d, .p 1 a] false s v m →
      exec (.pnot c d a) s = .next ((v.putP c d m (~~~(v.rp a)) latVI).after c (v.succ c)) ∧
      exec (.pmov c d (.p a)) s = .next ((v.putP c d m (v.rp a) latVI).after c (v.succ c))) ∧
    (∀ r : SReg, IssuesW c [.dp d, .s 1 r, .s 1 (r + 1), .s 1 (r + 2)] false s v m →
      ∃ x : Mask, exec (.pmov c d (.mk r)) s = .next ((v.putP c d m x latVI).after c (v.succ c)) ∧
        ∀ L, L < 96 → x.getLsbD L = (v.rs (r + BitVec.ofNat 6 (L / 32))).getLsbD (L % 32))

/-- AMOVI, AADD, ASUB, AADDS (and .NEG), AMULS, ASHLS and PSA: the base and stride that each computes, and the exact value of lane L, give
the outcome of R184. A 32-bit register reads sign-extended; the lane's own value, not base + L × stride, is what the two-register forms
combine. -/
def Obligations.Affine : Prop :=
  ∀ (c : Ctl) (w64 t : Bool) (d a b : AReg) (s : State) (v : View) (m : Mask),
    (IssuesW c [.da d] false s v m → ∀ base stride : W32,
      AffineResult v c m w64 t d base.toInt stride.toInt (fun L => base.toInt + L * stride.toInt)
        (exec (.amovi c w64 t d base stride) s)) ∧
    (IssuesW c [.da d, .a 1 a, .a 2 b] false s v m →
      AffineResult v c m w64 t d ((v.ra a).base + (v.ra b).base) ((v.ra a).st.toInt + (v.ra b).st.toInt)
        (fun L => (v.ra a).sval L + (v.ra b).sval L) (exec (.aadd c w64 t d a b) s) ∧
      AffineResult v c m w64 t d ((v.ra a).base - (v.ra b).base) ((v.ra a).st.toInt - (v.ra b).st.toInt)
        (fun L => (v.ra a).sval L - (v.ra b).sval L) (exec (.asub c w64 t d a b) s)) ∧
    (∀ y : USrc, IssuesW c ([.da d, .a 1 a] ++ useU 2 y) false s v m →
      AffineResult v c m w64 t d ((v.ra a).base + v.ua y) (v.ra a).st.toInt (fun L => (v.ra a).sval L + v.ua y)
        (exec (.aadds c false w64 t d a y) s) ∧
      AffineResult v c m w64 t d ((v.ra a).base - v.ua y) (v.ra a).st.toInt (fun L => (v.ra a).sval L - v.ua y)
        (exec (.aadds c true w64 t d a y) s) ∧
      AffineResult v c m w64 t d ((v.ra a).base * v.ua y) ((v.ra a).st.toInt * v.ua y) (fun L => (v.ra a).sval L * v.ua y)
        (exec (.amuls c w64 t d a y) s) ∧
      AffineResult v c m w64 t d ((v.ra a).base * 2 ^ (v.ua y % 64).toNat) ((v.ra a).st.toInt * 2 ^ (v.ua y % 64).toNat)
        (fun L => (v.ra a).sval L * 2 ^ (v.ua y % 64).toNat) (exec (.ashls c w64 t d a y) s)) ∧
    (∀ (r : SReg) (y : USrc), IssuesW c ([.da d, .s 1 r] ++ useU 2 y) false s v m →
      AffineResult v c m w64 t d (sInt (if w64 then 64 else 32) (v.rs r).toNat) (sInt 32 (v.us y imm0).toNat)
        (fun L => sInt (if w64 then 64 else 32) (v.rs r).toNat + L * sInt 32 (v.us y imm0).toNat)
        (exec (.psa c w64 t d r y) s))

/-- PSV copies a uniform value to the lanes of ACT; PAV each lane's affine value, a 32-bit one extended as the type states; VPICK one lane
(the index mod 96) to a uniform register, whatever the lane's state; AGETB the base, sign-extended from 32 bits unless wide or .N, and
AGETS the stride, or with .W the width. -/
def Obligations.Promotions : Prop :=
  ∀ (c : Ctl) (s : State) (v : View) (m : Mask),
    (∀ (t : PType) (d : VReg) (a : SReg), IssuesW c [.dv (pt64 t) d, .s 1 a] false s v m →
      exec (.psv c t d a) s = .next ((v.putV c (pt64 t) d m (List.replicate 96 (v.rs a)) latVI).after c (v.succ c))) ∧
    (∀ (t : IType) (d : VReg) (a : AReg), IssuesW c [.dv (it64 t) d, .a 1 a] false s v m →
      exec (.pav c t d a) s = .next ((v.putV c (it64 t) d m
        (lanes.map (fun L => if itS t && !(v.ra a).wide then (((v.ra a).lane L).setWidth 32).signExtend 64 else (v.ra a).lane L))
        latVI).after c (v.succ c))) ∧
    (∀ (t : PType) (d : SReg) (a : VSrc) (i : USrc), IssuesW c ([.ds d, useV 1 (pt64 t) a] ++ useU 2 i) true s v m →
      exec (.vpick c t d a i) s = .next (((v.lastUse (pt64 t) a (maskList [(v.us i imm0).toNat % 96])).putS c d
        (itExt (ptInt t) (v.rv (pt64 t) a.reg ((v.us i imm0).toNat % 96))) latX).after c (v.succ c))) ∧
    (∀ (n : Bool) (d : SReg) (a : AReg), IssuesW c [.ds d, .a 1 a] false s v m →
      exec (.agetb c n d a) s = .next ((v.putS c d
        (if (v.ra a).wide || n then (v.ra a).b else ((v.ra a).b.setWidth 32).signExtend 64) latA).after c (v.succ c)) ∧
      exec (.agets c false d a) s = .next ((v.putS c d ((v.ra a).st.signExtend 64) latA).after c (v.succ c)) ∧
      exec (.agets c true d a) s = .next ((v.putS c d (if (v.ra a).wide then 64 else 32) latA).after c (v.succ c)))

/-- The votes of the lanes of ACT: VBALLOT writes the word of one beat, or with .ALL the three words in one write (mask words together);
VANY and VALL write 0 or 1. The reductions combine the lanes of ACT in ascending order: integers exactly and then reduced, floats with
their flags. Each is pack-wide: it issues over the reconverged lanes. -/
def Obligations.VotesAndReductions : Prop :=
  ∀ (c : Ctl) (s : State) (v : View) (m : Mask),
    (∀ (d : SReg) (a : PReg) (beat : BitVec 2), beat ≠ 3 → IssuesW c [.ds d, .p 1 a] true s v m →
      exec (.vballot c beat d a) s =
        .next ((v.putS c d ((beatWord (v.rp a &&& m) beat.toNat).setWidth 64) latX).after c (v.succ c))) ∧
    (∀ (d : SReg) (a : PReg), d.toNat + 2 < 60 → IssuesW c [.ds d, .ds (d + 1), .ds (d + 2), .p 1 a] true s v m →
      exec (.vballot c 3 d a) s =
        .next (((((v.ws d ((beatWord (v.rp a &&& m) 0).setWidth 64) latX).ws (d + 1) ((beatWord (v.rp a &&& m) 1).setWidth 64)
          latX).ws (d + 2) ((beatWord (v.rp a &&& m) 2).setWidth 64) latX).tokenFor c latX).after c (v.succ c))) ∧
    (∀ (a : PReg), v.svc = false → IssuesW c [.ds 60, .ds 61, .ds 62, .p 1 a] true s v m →
      exec (.vballot c 3 60 a) s =
        .next (((v.wmask [(0, beatWord (v.rp a &&& m) 0), (1, beatWord (v.rp a &&& m) 1), (2, beatWord (v.rp a &&& m) 2)]
          latX).tokenFor c latX).after c (v.succ c))) ∧
    (∀ (d : SReg) (a : PReg), IssuesW c [.ds d, .p 1 a] true s v m →
      exec (.vany c d a) s = .next ((v.putS c d (if v.rp a &&& m = 0 then 0 else 1) latX).after c (v.succ c)) ∧
      exec (.vall c d a) s = .next ((v.putS c d (if v.rp a &&& m = m then 1 else 0) latX).after c (v.succ c))) ∧
    (∀ (t : PType) (d : SReg) (a : VSrc), t ≠ .f32 → IssuesW c [.ds d, useV 1 (pt64 t) a] true s v m →
      exec (.vredadd c t d a) s = .next (((v.lastUse (pt64 t) a m).putS c d
        (BitVec.ofInt 64 (((v.actEls (pt64 t) a m).map (itRead (ptInt t))).foldl (· + ·) 0)) latX).after c (v.succ c)) ∧
      exec (.vredmin c t d a) s = .next (((v.lastUse (pt64 t) a m).putS c d
        (BitVec.ofInt 64 (fold1 min ((v.actEls (pt64 t) a m).map (itRead (ptInt t))))) latX).after c (v.succ c)) ∧
      exec (.vredmax c t d a) s = .next (((v.lastUse (pt64 t) a m).putS c d
        (BitVec.ofInt 64 (fold1 max ((v.actEls (pt64 t) a m).map (itRead (ptInt t))))) latX).after c (v.succ c))) ∧
    (∀ (d : SReg) (a : VSrc), IssuesW c [.ds d, useV 1 false a] true s v m →
      ∀ e ∈ ([(.vredadd, opFadd fp32 .rne), (.vredmin, opFmm false), (.vredmax, opFmm true)] :
          List ((Ctl → PType → SReg → VSrc → Instr) × (W64 → W64 → FR))),
        exec (e.1 c .f32 d a) s = .next ((((v.lastUse false a m).orFpf (foldF e.2 (v.actEls false a m)).fl).putS c d
          (foldF e.2 (v.actEls false a m)).val latX).after c (v.succ c)))

/-- VFADD, VFSUB, VFMUL, VFMIN, VFMAX, VHADD2, VHMUL2, VFMA, VHFMA2, VFCLASS, VFRND, VUNPACK, VFCMP, SFADD, SFMUL and SFMA: whenever the
word issues it completes, each lane of ACT (or the uniform register) receives its operation's result, the flags of all lanes of ACT are ORed
into FPF (VFCLASS raises none), and the split goes on at the sequential successor. -/
def Obligations.FloatFixed : Prop :=
  ∀ (c : Ctl) (d : VReg) (a b : VSrc) (s : State) (v : View) (m : Mask),
    (∀ y : VOpnd, IssuesW c ([.dv false d, useV 1 false a] ++ useO 2 false y) false s v m →
      let gone := (v.lastUse false a m).lastO false y m
      let each (f : W64 → W64 → FR) : List FR := overLanes m (fun L => f (el (v.vs false a) L) (el (v.vo false y imm0) L))
      let done (rs : List FR) : State := ((gone.orFpf (flsOf rs)).putV c false d m (valsOf rs) latVF).after c (v.succ c)
      (∀ r : Rnd,
        exec (.vfadd c r d a y) s = .next (done (each (opFadd fp32 r))) ∧
        exec (.vfsub c r d a y) s = .next (done (each (opFsub fp32 r))) ∧
        exec (.vfmul c r d a y) s = .next (done (each (opFmul fp32 r)))) ∧
      exec (.vfmin c d a y) s = .next (done (each (opFmm false))) ∧
      exec (.vfmax c d a y) s = .next (done (each (opFmm true))) ∧
      (∀ (ty : FType) (r : Rnd),
        exec (.vhadd2 c ty r d a y) s = .next (done (each (pairOp (opFadd (ftFmt ty) r)))) ∧
        exec (.vhmul2 c ty r d a y) s = .next (done (each (pairOp (opFmul (ftFmt ty) r)))))) ∧
    (∀ y : VOpnd, IssuesW c ([.dv false d, useV 1 false a, useV 3 false b] ++ useO 2 false y) false s v m →
      let gone := ((v.lastUse false a m).lastO false y m).lastUse false b m
      let each (f : W64 → W64 → W64 → FR) : List FR :=
        overLanes m (fun L => f (el (v.vs false a) L) (el (v.vo false y imm0) L) (el (v.vs false b) L))
      let done (rs : List FR) : State := ((gone.orFpf (flsOf rs)).putV c false d m (valsOf rs) latVF).after c (v.succ c)
      ∀ r : Rnd, exec (.vfma c r d a y b) s = .next (done (each (opFma fp32 r))) ∧
        ∀ ty : FType, exec (.vhfma2 c ty r d a y b) s = .next (done (each (pairOp3 (opFma (ftFmt ty) r))))) ∧
    (IssuesW c [.dv false d, useV 1 false a] false s v m →
      let each (f : W64 → FR) : List FR := overLanes m (fun L => f (el (v.vs false a) L))
      let done (rs : List FR) : State :=
        (((v.lastUse false a m).orFpf (flsOf rs)).putV c false d m (valsOf rs) latVF).after c (v.succ c)
      (∀ ty : FType, exec (.vfclass c ty d a) s = .next (((v.lastUse false a m).putV c false d m
        (valsOf (each (fun x => ⟨opFclass (ftFmt ty) x, 0⟩))) latVF).after c (v.succ c))) ∧
      (∀ r : Rnd, exec (.vfrnd c r d a) s = .next (done (each (opFrnd r)))) ∧
      (∀ (ty : Ty) (k : BitVec 3), exec (.vunpack c ty k d a) s = .next (done (each (unpackEl ty k.toNat))))) ∧
    (∀ (k : FCond) (p : PReg) (y : VOpnd), IssuesW c ([.dp p, useV 1 false a] ++ useO 2 false y) false s v m →
      let hit (L : Nat) : Bool × Nat := opFcmp k (el (v.vs false a) L) (el (v.vo false y imm0) L)
      exec (.vfcmp c k p a y) s = .next (((((v.lastUse false a m).lastO false y m).orFpf
        (flsOf (overLanes m (fun L => ⟨0, (hit L).2⟩)))).putP c p m (maskOf (fun L => m.getLsbD L && (hit L).1)) latVF).after c
          (v.succ c))) ∧
    (∀ (ty : FType) (r : Rnd) (x y : SReg) (z : USrc), IssuesW c ([.ds x, .s 1 y] ++ useU 2 z) false s v m →
      exec (.sfadd c ty r x y z) s = .next (((v.orFpf (opFadd (ftFmt ty) r (v.rs y) (v.us z imm0)).fl).putS c x
        (opFadd (ftFmt ty) r (v.rs y) (v.us z imm0)).val latU).after c (v.succ c)) ∧
      exec (.sfmul c ty r x y z) s = .next (((v.orFpf (opFmul (ftFmt ty) r (v.rs y) (v.us z imm0)).fl).putS c x
        (opFmul (ftFmt ty) r (v.rs y) (v.us z imm0)).val latU).after c (v.succ c))) ∧
    (∀ (ty : FType) (r : Rnd) (x y z w : SReg), IssuesW c [.ds x, .s 1 y, .s 2 z, .s 3 w] false s v m →
      exec (.sfma c ty r x y z w) s = .next (((v.orFpf (opFma (ftFmt ty) r (v.rs y) (v.rs z) (v.rs w)).fl).putS c x
        (opFma (ftFmt ty) r (v.rs y) (v.rs z) (v.rs w)).val latU).after c (v.succ c)))

/-- The conversions, whenever the word issues: each lane of ACT converts its element once, SR with the low 16 bits of its random operand
(VPACK: the low and high half for its two elements), and a quad keeps its other two bytes; SFCVT converts one uniform value and extends
a signed result. The flags join FPF. -/
def Obligations.Conversions : Prop :=
  ∀ (c : Ctl) (r : Rnd) (d : VReg) (a b rb : VSrc) (s : State) (v : View) (m : Mask),
    (∀ dst src : Ty, IssuesW c ([.dv (ty64 dst) d, useV 1 (ty64 src) a] ++ useR 2 r rb) false s v m →
      let ys := if r = .sr then v.vs false rb else []
      let rs := overLanes m (fun L => cvt dst src r v.satf (fld (el ys L) 0 16) (el (v.vs (ty64 src) a) L))
      exec (.vcvt c dst src r d a rb) s = .next (((((v.lastUse (ty64 src) a m).lastUse false rb m).orFpf (flsOf rs)).putV c (ty64 dst) d
        m (valsOf rs) latVF).after c (v.succ c))) ∧
    (∀ (k : PackMode) (ty : Ty),
      IssuesW c ([.dv false d, useV 1 false a, useV 2 false b] ++ useR 3 r rb ++ (if k = .p2 then [] else [.v 0 false d])) false s v m →
      let zs := if r = .sr then v.vs false rb else []
      let rs := overLanes m (fun L =>
        packLane k ty r v.satf (el zs L) (el (v.rvAll false d) L) (el (v.vs false a) L) (el (v.vs false b) L))
      exec (.vpack c k ty r d a b rb) s = .next ((((((v.lastUse false a m).lastUse false b m).lastUse false rb m).orFpf
        (flsOf rs)).putV c false d m (valsOf rs) latVF).after c (v.succ c))) ∧
    (∀ (dst src : Ty) (x y z : SReg), IssuesW c ([.ds x, .s 1 y] ++ (if r = .sr then [.s 2 z] else [])) false s v m →
      let q := cvt dst src r v.satf (fld (v.rs z) 0 16) (v.rs y)
      exec (.sfcvt c dst src r x y z) s = .next (((v.orFpf q.fl).putS c x (sfcvtExt dst q.val) latU).after c (v.succ c)))

/-- VFRCP, VFRSQ, VFSQRT, VFDIV, VFEXP2, VFLOG2, VFSIN, VFCOS and VFTANH: whenever the word issues, the operation enters the
special-function unit of its core with the results and flags of the lanes of ACT; its destination is outstanding and its token rises. -/
def Obligations.FloatUnit : Prop :=
  ∀ (c : Ctl) (r : Rnd) (d : VReg) (a : VSrc) (s : State) (v : View) (m : Mask),
    (IssuesW c [.dv false d, useV 1 false a] false s v m →
      ∀ e ∈ ([(.vfrcp c d a, opFrcp), (.vfrsq c d a, opFrsq), (.vfsqrt c r d a, opFsqrt r), (.vfexp2 c d a, opFexp2),
              (.vflog2 c d a, opFlog2), (.vfsin c d a, opFsin), (.vfcos c d a, opFcos), (.vftanh c d a, opFtanh)] :
          List (Instr × (W64 → FR))),
        exec e.1 s = .next (((v.lastUse false a m).special c d m (overLanes m (fun L => e.2 (el (v.vs false a) L)))).after c
          (v.succ c))) ∧
    (∀ y : VOpnd, IssuesW c ([.dv false d, useV 1 false a] ++ useO 2 false y) false s v m →
      exec (.vfdiv c r d a y) s = .next ((((v.lastUse false a m).lastO false y m).special c d m
        (overLanes m (fun L => opFdiv r (el (v.vs false a) L) (el (v.vo false y imm0) L)))).after c (v.succ c)))

/-- A shuffle gives each lane of ACT the element of its source lane, or its own where the source lies outside the pack; a broadcast that of
one lane, of the pack or of its beat; VPRMT four selected bytes of its two sources; a scan the running result over the lanes of ACT in
ascending order, restarted at a head. The destination is written at the latency of class X. -/
def Obligations.LaneExchange : Prop :=
  ∀ (c : Ctl) (d : VReg) (a b : VSrc) (s : State) (v : View) (m : Mask),
    (∀ (op : Shfl) (y : VOpnd), IssuesW c ([.dv false d, useV 1 false a] ++ useO 2 false y) true s v m →
      let src := fun L => (shflLane op L (fld (el (v.vo false y imm0) L) 0 32)).getD L
      exec (.vshfl c op d a y) s = .next ((((v.lastUse false a (maskList ((lanesOf m).map src))).lastO false y m).putV c false d m
        (lanes.map (fun L => el (v.vs false a) (src L))) latX).after c (v.succ c))) ∧
    (∀ (bt : Bool) (i : USrc), IssuesW c ([.dv false d, useV 1 false a] ++ useU 2 i) true s v m →
      let src := fun L => if bt then 32 * (L / 32) + (v.us i imm0).toNat % 32 else (v.us i imm0).toNat % 96
      exec (.vbcast c bt d a i) s = .next (((v.lastUse false a (maskList ((lanesOf m).map src))).putV c false d m
        (lanes.map (fun L => el (v.vs false a) (src L))) latX).after c (v.succ c))) ∧
    (∀ y : VOpnd, IssuesW c ([.dv false d, useV 1 false a, useV 2 false b] ++ useO 3 false y) false s v m →
      exec (.vprmt c d a b y) s = .next (((((v.lastUse false a m).lastUse false b m).lastO false y m).putV c false d m
        (lanes.map (fun L => prmt (el (v.vs false a) L) (el (v.vs false b) L) (el (v.vo false y imm0) L))) latX).after c (v.succ c))) ∧
    (∀ (op : ScanOp) (ex : Bool) (ty : ScanTy) (h : Option PReg),
      IssuesW c ([.dv false d, useV 1 false a] ++ (match h with | some p => [.p 2 p] | none => [])) true s v m →
      let r := scan op ty ex (match h with | some p => v.rp p | none => 0) (v.vs false a) (lanesOf m) (scanId op ty)
      exec (.vscan c op ex ty d a h) s = .next ((((v.lastUse false a m).orFpf r.2).putV c false d m (lanes.map (pick r.1)) latX).after c
        (v.succ c)))

/-- VHASH mixes each lane's counter with the key; VDROP keeps a lane where the low 16 bits of that mix lie below the keep value, and with
.ALL every lane. -/
def Obligations.RandomInstructions : Prop :=
  ∀ (c : Ctl) (x : Ctr) (key : SReg) (s : State) (v : View) (m : Mask),
    (∀ (lo : Bool) (d : VReg), IssuesW c ([.dv (!lo) d, .s 2 key] ++ useCtr x) false s v m →
      exec (.vhash c lo d x key) s = .next (((v.lastCtr x m).putV c (!lo) d m
        ((v.counters x).map (fun y => mix64 (y ^^^ v.rs key))) latX).after c (v.succ c))) ∧
    (∀ (all : Bool) (d : PReg) (k : USrc), IssuesW c ([.dp d, .s 2 key] ++ useCtr x ++ useU 3 k) false s v m →
      ∃ kept : Mask, exec (.vdrop c all d x key k) s = .next (((v.lastCtr x m).putP c d m kept latX).after c (v.succ c)) ∧
        ∀ L, L < 96 → kept.getLsbD L =
          (all || decide ((mix64 (el (v.counters x) L ^^^ v.rs key)).toNat % 2 ^ 16 < (v.us k imm0).toNat % 2 ^ 16)))

/-- Both halves of a dovetail word read their sources as they stand before it, each writes the lanes of its own ACT (nothing where that is
empty), their flags join FPF together, and the token falls when the slower half is written. -/
def Obligations.DovetailWord : Prop :=
  ∀ (c : Ctl) (x y : Half) (s : State) (v : View) (m : Mask),
    Issues c [(x.guard, halfUses x), (y.guard, halfUses y)] 0
      (fun v => (if v.act x.guard = 0 then [] else
          (if (v.viewFault (halfUses x)).isSome || v.act y.guard = 0 then halfUses x else halfUses x ++ halfUses y)) ++
        (if v.act x.guard = 0 then halfUses y else [])) false s v m →
    let rx := v.half x (v.act x.guard)
    let ry := v.half y (v.act y.guard)
    exec (.dovetail c x y) s = .next (((((((v.lastHalf x (v.act x.guard)).lastHalf y (v.act y.guard)).orFpf
      (flsOf rx ||| flsOf ry)).putHalf x (v.act x.guard) rx).putHalf y (v.act y.guard) ry).tokenFor c (max (halfLat x) (halfLat y))).after
      c (v.succ c))

/-- Whenever the word issues and nothing makes the load wait: it leaves as one operation over the accesses of its lanes. The words that
the L1 holds are served at once, the others are asked for at their homes (RDC, or RDN with .NC) or at the host; VLDQ and SLDQ acquire
first. The lanes are mapped, and no word of theirs is pending or another pack's unregistered store: then every load does so, its lanes'
accesses at the addresses that the leaves of their pages give. -/
def Obligations.GlobalLoads : Prop :=
  ∀ (c : Ctl) (ty : Ty) (off : BitVec 24) (s : State) (v w : View) (m : Mask) (good : List LaneAddr),
    let leave : View → MemOp → (Nat → State → State) → Res := fun x o act => x.begin c false o act
    (∀ (d : VReg) (ad : Addr), IssuesW c ([.dv (ty64 ty) d] ++ useAddr true ad) false s v m →
      let u := v.lastAddr true ad m
      (∀ nc : Bool, u.loadClear w (tyBytes ty) (adU ad) false (v.eas ad off m) good →
        exec (.vld c ty nc d ad off) s = .next ((w.loadGo leave .load ty (adU ad) nc false 0 (v.destV (ty64 ty) d) good).placed s)) ∧
      (∀ nc : Bool, u.loadable (tyBytes ty) false (v.eas ad off m) →
        let at_ := u.located false (v.eas ad off m)
        ∃ x, u.loadClear x (tyBytes ty) (adU ad) false (v.eas ad off m) at_ ∧
          exec (.vld c ty nc d ad off) s = .next ((x.loadGo leave .load ty (adU ad) nc false 0 (v.destV (ty64 ty) d) at_).placed s)) ∧
      (∀ (sc : Scope) (rmask : Byte), u.loadable (tyBytes ty) true (v.eas ad off m) →
        let at_ := u.located false (v.eas ad off m)
        ∃ x, u.loadClear x (tyBytes ty) (adU ad) true (v.eas ad off m) at_ ∧
          exec (.vldq c ty sc rmask d ad off) s =
            .next ((x.loadGo leave .load ty (adU ad) false true rmask (v.destV (ty64 ty) d) at_).placed s)) ∧
      (∀ (sc : Scope) (rmask : Byte), u.loadClear w (tyBytes ty) (adU ad) true (v.eas ad off m) good →
        exec (.vldq c ty sc rmask d ad off) s =
          .next ((w.loadGo leave .load ty (adU ad) false true rmask (v.destV (ty64 ty) d) good).placed s))) ∧
    (∀ (d base : SReg), IssuesW c [.ds d, .s 1 base] false s v m → v.windowed base off = none →
      (∀ nc : Bool, v.loadClear w (tyBytes ty) true false (v.ea1 base off) good →
        exec (.sld c ty nc d base off) s = .next ((w.loadGo leave .load ty true nc false 0 (.s d) good).placed s)) ∧
      (∀ nc : Bool, v.loadable (tyBytes ty) false (v.ea1 base off) →
        let at_ := v.located false (v.ea1 base off)
        ∃ x, v.loadClear x (tyBytes ty) true false (v.ea1 base off) at_ ∧
          exec (.sld c ty nc d base off) s = .next ((x.loadGo leave .load ty true nc false 0 (.s d) at_).placed s)) ∧
      (∀ (sc : Scope) (rmask : Byte), v.loadable (tyBytes ty) true (v.ea1 base off) →
        let at_ := v.located false (v.ea1 base off)
        ∃ x, v.loadClear x (tyBytes ty) true true (v.ea1 base off) at_ ∧
          exec (.sldq c ty sc rmask d base off) s = .next ((x.loadGo leave .load ty true false true rmask (.s d) at_).placed s)) ∧
      (∀ (sc : Scope) (rmask : Byte), v.loadClear w (tyBytes ty) true true (v.ea1 base off) good →
        exec (.sldq c ty sc rmask d base off) s = .next ((w.loadGo leave .load ty true false true rmask (.s d) good).placed s)))

/-- Whenever the word issues and nothing makes the store wait: the words of its lanes are claimed with the lanes' bytes, the highest lane's
byte remaining, and the writes to host memory are posted. VSTL and SSTL do so after the release at their scope. The lanes are
mapped, a release has nothing left to wait for, and the words may be claimed: then every store does so at the addresses that the leaves of
its lanes' pages give. -/
def Obligations.GlobalStores : Prop :=
  ∀ (c : Ctl) (ty : Ty) (off : BitVec 24) (s t : State) (v w : View) (m : Mask) (good : List LaneAddr) (bad : List Nat),
    (∀ (ad : Addr) (b : VSrc), IssuesW c (useAddr true ad ++ [useV 2 (ty64 ty) b]) false s v m →
      let u := (v.lastAddr true ad m).lastUse (ty64 ty) b m
      let data := el (v.vs (ty64 ty) b)
      (u.storeClear w (tyBytes ty) (adU ad) none data (v.eas ad off m) good t bad →
        exec (.vst c ty ad off b) s = .next ((w.storeGo c ty (adU ad) none data good t bad).placed s)) ∧
      (u.storable (tyBytes ty) none data (v.eas ad off m) →
        let at_ := u.located true (v.eas ad off m)
        ∃ x r no, u.storeClear x (tyBytes ty) (adU ad) none data (v.eas ad off m) at_ r no ∧
          exec (.vst c ty ad off b) s = .next ((x.storeGo c ty (adU ad) none data at_ r no).placed s)) ∧
      (∀ sc : Scope, u.storable (tyBytes ty) (some sc) data (v.eas ad off m) →
        let at_ := u.located true (v.eas ad off m)
        ∃ x r no, u.storeClear x (tyBytes ty) (adU ad) (some sc) data (v.eas ad off m) at_ r no ∧
          exec (.vstl c ty sc ad off b) s = .next ((x.storeGo c ty (adU ad) (some sc) data at_ r no).placed s)) ∧
      (∀ sc : Scope, u.storeClear w (tyBytes ty) (adU ad) (some sc) data (v.eas ad off m) good t bad →
        exec (.vstl c ty sc ad off b) s = .next ((w.storeGo c ty (adU ad) (some sc) data good t bad).placed s))) ∧
    (∀ (base b : SReg), IssuesW c [.s 1 base, .s 2 b] false s v m → v.windowed base off = none →
      (v.storeClear w (tyBytes ty) true none (fun _ => v.rs b) (v.ea1 base off) good t bad →
        exec (.sst c ty base off b) s = .next ((w.storeGo c ty true none (fun _ => v.rs b) good t bad).placed s)) ∧
      (v.storable (tyBytes ty) none (fun _ => v.rs b) (v.ea1 base off) →
        let at_ := v.located true (v.ea1 base off)
        ∃ x r no, v.storeClear x (tyBytes ty) true none (fun _ => v.rs b) (v.ea1 base off) at_ r no ∧
          exec (.sst c ty base off b) s = .next ((x.storeGo c ty true none (fun _ => v.rs b) at_ r no).placed s)) ∧
      (∀ sc : Scope, v.storable (tyBytes ty) (some sc) (fun _ => v.rs b) (v.ea1 base off) →
        let at_ := v.located true (v.ea1 base off)
        ∃ x r no, v.storeClear x (tyBytes ty) true (some sc) (fun _ => v.rs b) (v.ea1 base off) at_ r no ∧
          exec (.sstl c ty sc base off b) s = .next ((x.storeGo c ty true (some sc) (fun _ => v.rs b) at_ r no).placed s)) ∧
      (∀ sc : Scope, v.storeClear w (tyBytes ty) true (some sc) (fun _ => v.rs b) (v.ea1 base off) good t bad →
        exec (.sstl c ty sc base off b) s = .next ((w.storeGo c ty true (some sc) (fun _ => v.rs b) good t bad).placed s)))

/-- On a service core, SLD and SST of an address in a window of R361 read or write there at once where alignment and bounds hold, and fault
with the flaw's code and reason where they do not (a poisoned row or granule: DATA_UE); SLDQ, SSTL and SATOM of such an address fault
PROTECTION with reason 13. -/
def Obligations.ServiceWindows : Prop :=
  ∀ (c : Ctl) (ty : Ty) (off : BitVec 24) (s : State) (v : View) (m : Mask) (va : Nat),
    (∀ (d base : SReg), IssuesW c [.ds d, .s 1 base] false s v m → v.windowed base off = some va →
      (∀ nc : Bool, v.reachFlaw va (tyBytes ty) false = none → exec (.sld c ty nc d base off) s =
        .next ((v.landS c d (tyLoad ty true (BitVec.ofNat 64 (v.reachRead va (tyBytes ty))))).placed s)) ∧
      (∀ (nc : Bool) (r : Nat × Nat), v.reachFlaw va (tyBytes ty) false = some r → exec (.sld c ty nc d base off) s =
        .next (v.raise (v.faultRec r.1 (BitVec.ofNat 64 va) r.2 0 kRead 127 0))) ∧
      (∀ (sc : Scope) (rmask : Byte), exec (.sldq c ty sc rmask d base off) s =
        .next (v.raise (v.faultRec fcProtection (BitVec.ofNat 64 va) 13 0 kRead 127 0)))) ∧
    (∀ (base b : SReg), IssuesW c [.s 1 base, .s 2 b] false s v m → v.windowed base off = some va →
      (v.reachFlaw va (tyBytes ty) true = none → exec (.sst c ty base off b) s =
        .next ((({ v with s := v.reachWrite va (tyBytes ty) (v.rs b) } : View).tokenFor c 1).after c (v.succ c))) ∧
      (∀ r : Nat × Nat, v.reachFlaw va (tyBytes ty) true = some r → exec (.sst c ty base off b) s =
        .next (v.raise (v.faultRec r.1 (BitVec.ofNat 64 va) r.2 0 kWrite 127 0))) ∧
      (∀ sc : Scope, exec (.sstl c ty sc base off b) s =
        .next (v.raise (v.faultRec fcProtection (BitVec.ofNat 64 va) 13 0 kWrite 127 0)))) ∧
    (∀ (op : AOp) (aq rl : Bool) (sc : Scope) (d base b cmp : SReg),
      IssuesW c ([.ds d, .s 1 base, .s 2 b] ++ (if op = .cas then [.s 3 cmp] else [])) false s v m → v.windowed base off = some va →
      exec (.satom c op aq rl ty sc d base off b cmp) s =
        .next (v.raise (v.faultRec fcProtection (BitVec.ofNat 64 va) 13 0 kAtomic 127 0)))

/-- Whenever the word issues, the pack's workgroup has a window and no lane's offset fails: each lane's value is the bytes of the window at
its offset, and the result lands at once; a lane that meets poison fails DATA_UE once the others are performed. A lane whose offset fails
faults SCRATCH_BOUNDS before anything is performed. -/
def Obligations.ScratchLoads : Prop :=
  ∀ (c : Ctl) (ty : Ty) (off : BitVec 24) (s : State) (v : View) (m : Mask),
    (∀ (d : VReg) (ad : Addr), IssuesW c ([.dv (ty64 ty) d] ++ useAddr false ad) false s v m →
      let u := v.lastAddr false ad m
      (∀ f, u.spBounds kRead (tyBytes ty) false (adU ad) (v.sos ad off m) = some f → exec (.vlds c ty d ad off) s = .next (v.raise f)) ∧
      (∀ w, u.spBounds kRead (tyBytes ty) false (adU ad) (v.sos ad off m) = none → v.co.winOf v.slot = some w →
        exec (.vlds c ty d ad off) s =
          .next ((u.begin c false (u.spLoadOp ty (adU ad) (v.destV (ty64 ty) d) (v.sos ad off m) w) (fun _ s => s)).placed s))) ∧
    (∀ (d base : SReg), IssuesW c [.ds d, .s 1 base] false s v m →
      (∀ f, v.spBounds kRead (tyBytes ty) true true (v.so1 base off) = some f → exec (.slds c ty d base off) s = .next (v.raise f)) ∧
      (∀ w, v.spBounds kRead (tyBytes ty) true true (v.so1 base off) = none → v.co.winOf v.slot = some w →
        exec (.slds c ty d base off) s =
          .next ((v.begin c false (v.spLoadOp ty true (.s d) (v.so1 base off) w) (fun _ s => s)).placed s)))

/-- Whenever the word issues on a compute core, the pack's workgroup has a window and no lane's offset fails: the store completes; each byte
of the core's array that a lane stores to holds that lane's byte (of several lanes, the highest's), every other byte of the array, every
other core's array and all of memory are unchanged. A lane whose offset fails faults SCRATCH_BOUNDS before anything is performed. -/
def Obligations.ScratchStores : Prop :=
  ∀ (c : Ctl) (ty : Ty) (off : BitVec 24) (s : State) (v : View) (m : Mask) (w : WgWin), v.svc = false → v.co.winOf v.slot = some w →
    let left (data : Nat → W64) (ls : List (Nat × Nat)) (t : State) : Prop :=
      t.mem = s.mem ∧ (∀ n, n ≠ s.cur.agent → (t.core n).sp = (s.core n).sp) ∧
      ∀ a, get 0 (t.core s.cur.agent).sp a = (spByteOf w.base (tyBytes ty) data ls a).getD (get 0 (s.core s.cur.agent).sp a)
    (∀ (ad : Addr) (b : VSrc), IssuesW c (useAddr false ad ++ [useV 2 (ty64 ty) b]) false s v m →
      let u := (v.lastAddr false ad m).lastUse (ty64 ty) b m
      (∀ f, u.spBounds kWrite (tyBytes ty) false (adU ad) (v.sos ad off m) = some f → exec (.vsts c ty ad off b) s = .next (v.raise f)) ∧
      (u.spFault kWrite (tyBytes ty) false (adU ad) (v.sos ad off m) = none →
        ∃ t, exec (.vsts c ty ad off b) s = .next t ∧ left (el (v.vs (ty64 ty) b)) (v.sos ad off m) t)) ∧
    (∀ (base b : SReg), IssuesW c [.s 1 base, .s 2 b] false s v m →
      (∀ f, v.spBounds kWrite (tyBytes ty) true true (v.so1 base off) = some f → exec (.ssts c ty base off b) s = .next (v.raise f)) ∧
      (v.spFault kWrite (tyBytes ty) true true (v.so1 base off) = none →
        ∃ t, exec (.ssts c ty base off b) s = .next t ∧ left (fun _ => v.rs b) (v.so1 base off) t))

/-- Whenever the word issues and nothing makes the atomic wait: the core gives up its own hold on the words, and the atomic leaves with one
ATM for each distinct word or dword, its lanes ascending, or with its operations to host memory. .RL releases first, .AQ acquires. The lanes
are mapped, host memory takes the operation, the release is over and no word awaits a registration: then every atomic does so at the
addresses that the leaves of its lanes' pages give. -/
def Obligations.Atomics : Prop :=
  ∀ (c : Ctl) (op : AOp) (aq rl : Bool) (ty : Ty) (sc : Scope) (off : BitVec 24) (s : State) (v w : View) (m : Mask)
    (good : List LaneAddr),
    (∀ (d : VReg) (ad : Addr) (b cmp : VSrc),
      IssuesW c ([.dv (ty64 ty) d] ++ useAddr true ad ++ [useV 2 (ty64 ty) b] ++ (if op = .cas then [useV 3 (ty64 ty) cmp] else []))
        false s v m →
      let u := (v.lastAddr true ad m).lastUse (ty64 ty) b m
      let u := if op = .cas then u.lastUse (ty64 ty) cmp m else u
      (u.atomicClear w op aq rl (tyBytes ty) sc (adU ad) (v.eas ad off m) good →
      exec (.vatom c op aq rl ty sc d ad off b cmp) s =
        .next ((w.atomicGo c op aq rl ty (adU ad) (v.destV (ty64 ty) d) (el (v.vs (ty64 ty) b))
          (el (if op = .cas then v.vs (ty64 ty) cmp else [])) good).placed s)) ∧
      (u.atomicReady op aq rl (tyBytes ty) sc (v.eas ad off m) →
        let at_ := u.located true (v.eas ad off m)
        ∃ x, u.atomicClear x op aq rl (tyBytes ty) sc (adU ad) (v.eas ad off m) at_ ∧
          exec (.vatom c op aq rl ty sc d ad off b cmp) s =
            .next ((x.atomicGo c op aq rl ty (adU ad) (v.destV (ty64 ty) d) (el (v.vs (ty64 ty) b))
              (el (if op = .cas then v.vs (ty64 ty) cmp else [])) at_).placed s))) ∧
    (∀ (d base b cmp : SReg), IssuesW c ([.ds d, .s 1 base, .s 2 b] ++ (if op = .cas then [.s 3 cmp] else [])) false s v m →
      v.windowed base off = none →
      (v.atomicClear w op aq rl (tyBytes ty) sc true (v.ea1 base off) good →
      exec (.satom c op aq rl ty sc d base off b cmp) s =
        .next ((w.atomicGo c op aq rl ty true (.s d) (fun _ => v.rs b) (fun _ => v.rs cmp) good).placed s)) ∧
      (v.atomicReady op aq rl (tyBytes ty) sc (v.ea1 base off) →
        let at_ := v.located true (v.ea1 base off)
        ∃ x, v.atomicClear x op aq rl (tyBytes ty) sc true (v.ea1 base off) at_ ∧
          exec (.satom c op aq rl ty sc d base off b cmp) s =
            .next ((x.atomicGo c op aq rl ty true (.s d) (fun _ => v.rs b) (fun _ => v.rs cmp) at_).placed s)))

/-- Whenever the word issues and nothing makes it wait: VLR and REG claim their words whole, VLR recording its lanes' reservations; VSC
stores for the lanes whose reservations hold, the lowest lane of each word, and writes its predicate; DEREG writes its words back, once no
atomic of its pack is unanswered on them; PREF asks for the lines its lanes touch and the L1 lacks, and drops lanes that fail. The lanes are
mapped to HBM and their words may be claimed: then each does so at the addresses that the leaves of its lanes' pages give. -/
def Obligations.ReservationsAndRegistration : Prop :=
  ∀ (c : Ctl) (ty : Ty) (ad : Addr) (off : BitVec 24) (s t : State) (v w : View) (m : Mask) (good : List LaneAddr) (bad : List Nat),
    let u := v.lastAddr true ad m
    let ls := v.eas ad off m
    let n := tyBytes ty
    (∀ d : VReg, IssuesW c ([.dv (ty64 ty) d] ++ useAddr true ad) false s v m →
      (u.wholeClear w n (adU ad) none false ls good t bad →
        exec (.vlr c ty d ad off) s = .next ((w.vlrGo c ty (adU ad) (v.destV (ty64 ty) d) good t bad).placed s)) ∧
      (u.wordsReady kWrite true n ls → u.claimable (u.wholeClaiming none) (wholeClaims n (u.located true ls) false) →
        ∃ x r no, u.wholeClear x n (adU ad) none false ls (u.located true ls) r no ∧
          exec (.vlr c ty d ad off) s = .next ((x.vlrGo c ty (adU ad) (v.destV (ty64 ty) d) (u.located true ls) r no).placed s))) ∧
    (∀ (d : PReg) (b : VSrc), IssuesW c ([.dp d] ++ useAddr true ad ++ [useV 2 (ty64 ty) b]) false s v m →
      let k := u.lastUse (ty64 ty) b m
      (v.acqBusy = false → k.phase1 ⟨kWrite, true, n, adU ad, fun _ => true⟩ ls = .ok (w, good) →
        exec (.vsc c ty d ad off b) s = .next ((w.vscGo c ty (adU ad) d (el (v.vs (ty64 ty) b)) good).placed s)) ∧
      (k.wordsReady kWrite true n ls →
        ∃ x, k.phase1 ⟨kWrite, true, n, adU ad, fun _ => true⟩ ls = .ok (x, k.located true ls) ∧
          exec (.vsc c ty d ad off b) s = .next ((x.vscGo c ty (adU ad) d (el (v.vs (ty64 ty) b)) (k.located true ls)).placed s))) ∧
    (IssuesW c (useAddr true ad) false s v m →
      (u.wholeClear w n (adU ad) (some (records w.ag)) true ls good t bad →
        exec (.reg c ty ad off) s = .next ((w.regGo c ty (adU ad) good t bad).placed s)) ∧
      (u.wordsReady kWrite true n ls →
        u.claimable (u.wholeClaiming (some (records u.ag))) (wholeClaims n (u.located true ls) true) →
        ∃ x r no, u.wholeClear x n (adU ad) (some (records x.ag)) true ls (u.located true ls) r no ∧
          exec (.reg c ty ad off) s = .next ((x.regGo c ty (adU ad) (u.located true ls) r no).placed s)) ∧
      (v.acqBusy = false → u.phase1 ⟨kRead, false, n, adU ad, fun _ => true⟩ ls = .ok (w, good) →
        w.returnable (good.flatMap (fun g => wordsOf g.pa n)) →
        exec (.dereg c ty ad off) s = .next ((w.deregGo c ty (adU ad) good).placed s)) ∧
      (u.wordsReady kRead false n ls → u.returnable ((u.located false ls).flatMap (fun g => wordsOf g.pa n)) →
        ∃ x, u.phase1 ⟨kRead, false, n, adU ad, fun _ => true⟩ ls = .ok (x, u.located false ls) ∧
          exec (.dereg c ty ad off) s = .next ((x.deregGo c ty (adU ad) (u.located false ls)).placed s)) ∧
      (u.acqBusy = false → u.mapped kRead false n ls →
        exec (.pref c ty ad off) s =
          .next (((u.translate kRead false n ls).v.prefGo c ty (u.located false ls)).after c (v.succ c))) ∧
      (v.acqBusy = false → (u.translate kRead false n ls).waiting = false →
        exec (.pref c ty ad off) s =
          .next (((u.translate kRead false n ls).v.prefGo c ty (u.translate kRead false n ls).good).after c
            (v.succ c))))

/-- FENCE completes when no load, tile fetch, atomic or acquire of the pack is under way and its registrations and host writes are in as far
as its scope asks; ACQ drops copies of the whole L1 or of the windows its mask names; REL completes when its release is over, which it is
once nothing is left for it to wait for. -/
def Obligations.Ordering : Prop :=
  ∀ (c : Ctl) (s : State) (v : View) (m : Mask), IssuesW c [] false s v m →
    (∀ sc : Scope, v.outstanding (fun o => o.kind.reads || o.acq) = false → v.fetching = false → (2 ≤ scopeNo sc → v.pk.preg = 0) →
      (3 ≤ scopeNo sc → v.pk.hostw = 0) → exec (.fence c sc) s = .next ((v.tokenFor c 1).after c (v.succ c))) ∧
    (∀ (sc : Scope) (rmask : Byte), v.syncBusy = false → exec (.acq c sc rmask) s =
      .next (((v.reopen (v.close.updCore v.ag (fun k => k.selfInvalidate v.slot rmask))).tokenFor c 4).after c (v.succ c))) ∧
    (∀ (sc : Scope) (w : View), v.release sc true = .go w → exec (.rel c sc) s = .next ((w.tokenFor c 1).after c (v.succ c))) ∧
    (∀ sc : Scope, v.releasable sc true →
      ∃ w, v.release sc true = .go w ∧ exec (.rel c sc) s = .next ((w.tokenFor c 1).after c (v.succ c)))

/-- INVA drops every COPY word of the core's L1. INVR drops the COPY words of every line that was filled under another ASID, or whose fill
address lies in [ea, min(ea + len, 2^57)), ea = wrap64(s[SA] + OFF). Words in another state, and the COPY words of every other line, are
kept. Both complete without a fault whatever their operands, with a token that falls after 4 cycles, and change nothing outside their core:
they send no message, begin no walk and wait for nothing. (INVA empties the instruction buffer too, as R433 states.) -/
def Obligations.Dropping : Prop :=
  ∀ (c : Ctl) (s : State) (v : View) (m : Mask),
    (IssuesW c [] false s v m → ∃ t, exec (.inva c) s = .next t ∧ s.sameOutside t ∧
      t = (({ v with co := { (v.co.dropCopies (fun _ _ => true)) with ibuf := [] } } : View).tokenFor c 4).after c (v.succ c) ∧
      (∀ now w, ((t.core v.ag).word now w).st ≠ .copy) ∧ (∀ w, (v.co.raw w).st ≠ .copy → (t.core v.ag).raw w = v.co.raw w)) ∧
    (∀ (base len : SReg) (off : BitVec 24), IssuesW c [.s 1 base, .s 2 len] false s v m →
      let lo := (v.rs base + off.signExtend 64).toNat
      let hi := min (lo + (v.rs len).toNat) (2 ^ 57)
      ∃ t, exec (.invr c base off len) s = .next t ∧ s.sameOutside t ∧
        t = (({ v with co := v.co.dropCopies (fun l x =>
          x.asid != v.pk.asid || (decide (lo ≤ x.va l) && decide (x.va l < hi))) } : View).tokenFor c 4).after c (v.succ c) ∧
        (∀ w, (v.co.raw w).st ≠ .copy → (t.core v.ag).raw w = v.co.raw w) ∧
        (∀ l x, v.co.line l = some x →
          (x.asid ≠ v.pk.asid ∨ lo ≤ x.va l ∧ x.va l < hi → ∀ now i, i < 16 → ((t.core v.ag).word now (16 * l + i)).st ≠ .copy) ∧
          (¬(x.asid ≠ v.pk.asid ∨ lo ≤ x.va l ∧ x.va l < hi) →
            ∀ i, i < 16 → (t.core v.ag).raw (16 * l + i) = v.co.raw (16 * l + i))))

/-- WAITA whose operand is in bounds: if the comparison holds at issue it completes with status 0; otherwise its split parks on the word,
with a deadline where a non-zero time-out is given, and its token rises. WAITA_TIMEOUT wakes a split whose deadline has passed with status
1. -/
def Obligations.WaitOnAddress : Prop :=
  (∀ (c : Ctl) (ty : Ty) (k : WCond) (d base b : SReg) (off : BitVec 24) (tmo : Option SReg) (s : State) (v : View) (m : Mask) (w : WgWin),
    IssuesW c ([.ds d, .s 1 base, .s 2 b] ++ (match tmo with | some r => [.s 3 r] | none => [])) false s v m →
    v.spFault kRead (tyBytes ty) true true (v.so1 base off) = none → v.co.winOf v.slot = some w →
    let so := (v.rs base + off.signExtend 64).toNat % 2 ^ 32
    let x := v.co.spNum (w.base + so) (tyBytes ty)
    (waitaHolds ty k x (v.rs b).toNat = true → exec (.waita c ty k d base off b tmo) s = .next ((v.landS c d 0).placed s)) ∧
    (waitaHolds ty k x (v.rs b).toNat = false → exec (.waita c ty k d base off b tmo) s =
      .next ((v.tokenV c).1.park c (.waita so ty k (v.rs b) d (v.deadline tmo) (v.tokenV c).2)))) ∧
  (∀ (n slot i dl : Nat) (s : State) (x : Split) (off : Nat) (ty : Ty) (k : WCond) (r : W64) (d : SReg) (tok : Option Nat),
    (look (s.core n).packs slot).bind (fun p => p.split i) = some x → x.st = .waiting (.waita off ty k r d (some dl) tok) →
    dl ≤ s.coreT n → exec (.waitaTimeout n slot i) s =
      .next (s.updCore n (fun c => c.updPack slot (fun p => p.wakeWaita i c.cycle d tok 1))))

/-- On an aligned object inside the window: BARINIT writes arrivals 0, bytes 0, phase 0 and the expected count (at least 1), keeping the
reserved bits; BARARR adds its arrivals, evaluates R170 and returns the phase before with the flip and overflow bits; BARWAIT goes on if the
phase is not the one named and parks otherwise; BARTRY returns whether it is; both are steps of R170, at which waiting splits look again. A
misaligned or outlying object faults. An arrival of n on an object with expected count E: below E the arrivals add up and the phase stays;
at E, or above (they saturate at E and the overflow bit is set), the phase flips and the arrivals return to 0 if no bytes are outstanding;
the result's bit 0 is the phase before, bit 1 the flip. -/
def Obligations.BarrierObjects : Prop :=
  (∀ (c : Ctl) (d a b : SReg) (s : State) (v : View) (m : Mask),
      let off := (v.rs a).toNat % 2 ^ 32
      let n := (v.rs b).toNat % 2 ^ 32
      (IssuesW c [.s 1 a, .s 2 b] false s v m →
        (∀ w, v.operand off 16 16 kWrite = .ok w → exec (.barinit c a b) s =
          .next ((v.objDone c (fun co => co.setBar w off ⟨0, 0, max n 1, (v.co.bar w off).res, false⟩) 63 0).placed s)) ∧
        (∀ f, v.operand off 16 16 kWrite = .error f → exec (.barinit c a b) s = .next (v.raise f)) ∧
        (∀ w, v.operand off 16 16 kRead = .ok w → (v.co.bar w off).ph ≠ (v.rs b).getLsbD 0 →
          exec (.barwait c a b) s = .next (((v.onCore (fun co => co.wakeBar w off (v.co.bar w off).ph)).tokenFor c 1).after c
            (v.succ c))) ∧
        (∀ w, v.operand off 16 16 kRead = .ok w → (v.co.bar w off).ph = (v.rs b).getLsbD 0 →
          let u := v.onCore (fun co => co.wakeBar w off (v.co.bar w off).ph)
          exec (.barwait c a b) s = .next ((u.tokenV c).1.park c (.barwait off ((v.rs b).getLsbD 0) (u.tokenV c).2)))) ∧
      (IssuesW c [.ds d, .s 1 a, .s 2 b] false s v m →
        (∀ w, v.operand off 16 16 kWrite = .ok w → exec (.bararr c false d a b) s =
          .next ((v.objDone c (fun co => co.setBar w off ((v.co.bar w off).arrive n).1) d ((v.co.bar w off).arrive n).2).placed s)) ∧
        (∀ f, v.operand off 16 16 kWrite = .error f → exec (.bararr c false d a b) s = .next (v.raise f)) ∧
        (∀ w, v.operand off 16 16 kRead = .ok w → exec (.bartry c d a b) s =
          .next ((v.objDone c (fun co => co.wakeBar w off (v.co.bar w off).ph) d
            (if (v.co.bar w off).ph = (v.rs b).getLsbD 0 then 0 else 1)).placed s)))) ∧
  (∀ (b : Bar) (n : Nat),
      (b.arrive n).1.exp = b.exp ∧ (b.arrive n).1.bytes = b.bytes ∧ (b.arrive n).1.res = b.res ∧
      (b.arr + n < b.exp → (b.arrive n).1.arr = b.arr + n ∧ (b.arrive n).1.ph = b.ph ∧ (b.arrive n).2 = if b.ph then 1 else 0) ∧
      (b.arr + n = b.exp → b.bytes = 0 → (b.arrive n).1.arr = 0 ∧ (b.arrive n).1.ph = !b.ph ∧
        (b.arrive n).2 = if b.ph then 3 else 2) ∧
      (b.arr + n = b.exp → b.bytes ≠ 0 → (b.arrive n).1.arr = b.exp ∧ (b.arrive n).1.ph = b.ph ∧
        (b.arrive n).2 = if b.ph then 1 else 0) ∧
      (b.exp < b.arr + n → b.bytes = 0 → (b.arrive n).1.arr = 0 ∧ (b.arrive n).1.ph = !b.ph ∧
        (b.arrive n).2 = if b.ph then 7 else 6) ∧
      (b.exp < b.arr + n → b.bytes ≠ 0 → (b.arrive n).1.arr = b.exp ∧ (b.arrive n).1.ph = b.ph ∧
        (b.arrive n).2 = if b.ph then 5 else 4))

/-- With the descriptor in bounds and sound: MSGRECV of a queue that holds an entry writes the entry's offset and its sender's name and
takes it; of an empty one it parks, or with .NB writes all ones. MSGFREE of 1 to DEPTH − OUT − COUNT slots adds them to OUT and sends the
credits to the named sender. MSGSEND on a bound channel with credit takes one credit and sends the entry, and without parks. A failed check
faults MSG_DESC with its reason. -/
def Obligations.Messages : Prop :=
  ∀ (c : Ctl) (d a b : SReg) (s : State) (v : View) (m : Mask) (w : WgWin),
    let off := (v.rs a).toNat % 2 ^ 32
    let q := v.co.qdesc w off
    (∀ nb : Bool, IssuesW c [.ds d, .s 1 a] false s v m → v.operand off 32 32 kWrite = .ok w →
      (∀ r, q.flaw w.size none = some r →
        exec (.msgrecv c nb d a) s = .next (v.raise (v.faultRec fcMsgDesc (BitVec.ofNat 64 off) r 0 0 127 0))) ∧
      (q.flaw w.size none = none → q.count ≠ 0 →
        let r := v.s.takeSender w.launch w.wg off q.head
        exec (.msgrecv c nb d a) s = .next ((({ v with s := r.2 } : View).objDone c (fun co =>
          co.setQdesc w off { q with head := (q.head + 1) % q.depth, count := q.count - 1 }) d
          (BitVec.ofNat 64 ((q.ring + q.head * (16 * (q.esz + 1))) % 2 ^ 32 + r.1.toNat * 2 ^ 32))).placed s)) ∧
      (q.flaw w.size none = none → q.count = 0 → nb = true →
        exec (.msgrecv c nb d a) s = .next ((v.landS c d (BitVec.allOnes 64)).placed s)) ∧
      (q.flaw w.size none = none → q.count = 0 → nb = false →
        let r := ({ v with s := { v.s with next := v.s.next + 1 } } : View).tokenV c
        exec (.msgrecv c nb d a) s = .next (r.1.park c (.msgrecv off d r.2 v.s.next)))) ∧
    (IssuesW c [.s 1 a, .s 2 b] false s v m → v.operand off 32 32 kWrite = .ok w → q.flaw w.size none = none →
      let n := (v.rs b).toNat % 2 ^ 32
      ((n = 0 ∨ q.depth < q.out + q.count + n) →
        exec (.msgfree c a b) s = .next (v.raise (v.faultRec fcMsgDesc (BitVec.ofNat 64 off) 5 0 0 127 0))) ∧
      (1 ≤ n → q.out + q.count + n ≤ q.depth →
        ∃ cs : List Credit, (∀ x ∈ cs, x.n = n ∧ x.wg = v.pk.wg ∧ x.off = off ∧ x.launch = v.pk.launch) ∧ cs.length ≤ 1 ∧
          exec (.msgfree c a b) s = .next ((({ v with s := { v.s with credits := v.s.credits ++ cs } } : View).objDone c
            (fun co => co.setQdesc w off { q with out := q.out + n }) 63 0).placed s))) ∧
    (∀ ch : BitVec 3, IssuesW c [.s 1 a] false s v m →
      let x := v.pk.mqch ch.toNat
      v.operand off 16 (16 * (fld x 48 4 + 1)) kRead = .ok w →
      (x.getLsbD 63 = false →
        exec (.msgsend c ch a) s = .next (v.raise (v.faultRec fcMsgDesc (BitVec.ofNat 64 (fld x 0 20)) 6 0 0 127 0))) ∧
      (x.getLsbD 63 = true → v.s.resolve v.pk.launch v.pk.wg x 32 = none →
        exec (.msgsend c ch a) s = .next (v.raise (v.faultRec fcMsgDesc (BitVec.ofNat 64 (fld x 0 20)) 7 0 0 127 0))) ∧
      (∀ wg doff, x.getLsbD 63 = true → v.s.resolve v.pk.launch v.pk.wg x 32 = some (wg, doff) →
        (v.pk.credit ch.toNat ≠ 0 → v.s.s2rBusy v.ag v.slot ch.toNat = false → exec (.msgsend c ch a) s =
          .next (v.sendEntry c ch.toNat (v.co.spRead (w.base + off) (16 * (fld x 48 4 + 1))) wg doff)) ∧
        (v.pk.credit ch.toNat = 0 → exec (.msgsend c ch a) s = .next (v.parkRetry (.msgsend ch.toNat)))))

/-- XFER of a record that passes R164 takes its credits, once, then releases at its scope, counts its bytes on its barrier and offers its
record to the die's engine; without the credits its split parks; the release is over once nothing is left for it to wait for; a record that
fails faults XFER_RECORD with the reason. BARARR.RM whose name resolves leaves with an arrival for the object; a name that does not resolve
faults SCRATCH_BOUNDS with reason 14. -/
def Obligations.TransfersAndRemoteArrivals : Prop :=
  (∀ (c : Ctl) (a : SReg) (s : State) (v : View) (m : Mask) (w : WgWin), IssuesW c [.s 1 a] false s v m →
    let off := (v.rs a).toNat % 2 ^ 32
    v.operand off 64 64 kRead = .ok w →
    let r := (v.co.xferRec w off).1
    let e := if r.dir = 2 then r.rowlen / (16 * (fld (v.pk.mqch r.chan) 48 4 + 1)) else 0
    (∀ x, v.xferFlaw w r (v.co.xferRec w off).2 = some x →
      exec (.xfer c a) s = .next (v.raise (v.faultRec fcXferRecord (BitVec.ofNat 64 off) x 0 0 127 0))) ∧
    (v.xferFlaw w r (v.co.xferRec w off).2 = none → (r.baren = true → v.co.spPoison (w.base + r.baroff) 16 false = false) →
      (v.sp.phase < 10 → v.pk.credit r.chan < e → exec (.xfer c a) s = .next (v.parkRetry (.xfer r.chan e))) ∧
      (v.sp.phase < 10 → v.pastCredits r =
        if r.dir = 2 then { v with pk := v.pk.setCredit r.chan (v.pk.credit r.chan - e) } else v) ∧
      (∀ x : View, 10 ≤ v.sp.phase ∨ e ≤ v.pk.credit r.chan → (v.pastCredits r).release (scopeOf r.scope) true = .go x →
        exec (.xfer c a) s = .next (x.offerRecord c off r)) ∧
      (10 ≤ v.sp.phase ∨ e ≤ v.pk.credit r.chan → (v.pastCredits r).releasable (scopeOf r.scope) true →
        ∃ x, (v.pastCredits r).release (scopeOf r.scope) true = .go x ∧ exec (.xfer c a) s = .next (x.offerRecord c off r)))) ∧
  (∀ (c : Ctl) (d a b : SReg) (s : State) (v : View) (m : Mask), IssuesW c [.ds d, .s 1 a, .s 2 b] false s v m →
    (v.s.resolve v.pk.launch v.pk.wg (v.rs a) 16 = none → exec (.bararr c true d a b) s =
      .next (v.raise (v.faultRec fcScratchBounds (BitVec.ofNat 64 (fld (v.rs a) 0 20)) 14 0 kWrite 127 0))) ∧
    (∀ wg off, v.s.resolve v.pk.launch v.pk.wg (v.rs a) 16 = some (wg, off) →
      let r := v.leave c (.s d) true
      let t := r.1.after c (r.1.succ c)
      exec (.bararr c true d a b) s = .next { t with remotes := t.remotes ++
        [⟨.arrive ((v.rs b).toNat % 2 ^ 32), v.ag, v.slot, v.ix, v.sp.pc, v.sp.seq, r.2, d, v.pk.launch, v.pk.wg, v.pk.idx, 8, wg, off, 0,
          none, false⟩] }))

/-- With every live lane in ACT, sound records, staged operands and no outstanding class-V write to its rows, a matrix instruction enters
its core's queue of 8, where it may hold a place already, with the operands it takes: MMA and MMAS, whose turn to fetch has come, their
staged tiles (MMAS its metadata), MSCALE 512 scale bytes, MCVT its key and the saturation that FPF.SATF gives at issue. MZERO asks no more
than its own lanes. A missing live lane faults ILLEGAL_CONVERGENCE, a bad record TILE_RECORD. -/
def Obligations.MatrixIssue : Prop :=
  ∀ (c : Ctl) (s : State) (v : View) (m : Mask),
    (∀ (sparse z h : Bool) (d : CReg) (a b : SReg) (ao bo : BitVec 20),
      Issues c [(c.guard, [.s 1 a, .s 2 b])] 0 (fun _ => [.dc d]) true s v m →
      let oa := ((v.rs a).toNat + ao.toNat) % 2 ^ 32
      let ob := ((v.rs b).toNat + bo.toNat) % 2 ^ 32
      let o := exec (if sparse then .mmas c z h d a ao b bo else .mma c z h d a ao b bo) s
      (∀ f, v.missingLane m = some f → o = .next (v.raise f)) ∧
      (∀ ba bb r, v.missingLane m = none → v.tileAt oa = .ok ba → v.tileAt ob = .ok bb → recordFlaw ba (.a sparse) = some r →
        o = .next (v.raise (v.faultRec fcTileRecord (BitVec.ofNat 64 oa) r 0 0 127 0))) ∧
      (∀ (ba bb : List Byte) (w x : View) (ops : List (Nat × SMap Byte)),
        let ra := tileRec ba
        let rb := tileRec bb
        let mt : List Byte := match v.tileAt ra.mta with | .ok y => y | .error _ => []
        v.missingLane m = none → v.tileAt oa = .ok ba → v.tileAt ob = .ok bb → recordFlaw ba (.a sparse) = none →
        recordFlaw bb (.b sparse) = none → pairFlaw ra rb sparse h = false →
        let op : MatOp := { (matOp (.mma sparse z h (tileRec mt).pitch 0) (v.crow d)) with ra := ra, rb := rb, act := m }
        (sparse = true → ra.mta % 32 = 0 ∧ ra.mta + 32 ≤ v.spSize ∧ v.spRangeUe ra.mta 32 = none ∧ metaFlaw mt ra v.spSize = false ∧
          v.metaUe (recNum mt 0 4) (tileRec mt) = none) →
        v.hasPlace = true ∨ v.co.mq.length < 8 → (v.takePlace op).myTurn = true →
        (v.takePlace op).stageAll [stageFor v.pk.asid ba, stageFor v.pk.asid bb] = .go w ops →
        w.matrixReady (tileHas (w.crow d)) = some x →
        o = .next ((x.enqueue c ops { op with
          abytes := (match ops[0]? with | some y => y.2 | none => []), bbytes := (match ops[1]? with | some y => y.2 | none => []),
          scale := if sparse then x.metaMap (recNum mt 0 4) (tileRec mt) else [] }).placed s)) ∧
      (∀ (ba bb : List Byte),
        let ra := tileRec ba
        let rb := tileRec bb
        let mt : List Byte := match v.tileAt ra.mta with | .ok y => y | .error _ => []
        v.missingLane m = none → v.tileAt oa = .ok ba → v.tileAt ob = .ok bb → recordFlaw ba (.a sparse) = none →
        recordFlaw bb (.b sparse) = none → pairFlaw ra rb sparse h = false →
        let op : MatOp := { (matOp (.mma sparse z h (tileRec mt).pitch 0) (v.crow d)) with ra := ra, rb := rb, act := m }
        (sparse = true → ra.mta % 32 = 0 ∧ ra.mta + 32 ≤ v.spSize ∧ v.spRangeUe ra.mta 32 = none ∧ metaFlaw mt ra v.spSize = false ∧
          v.metaUe (recNum mt 0 4) (tileRec mt) = none) →
        v.hasPlace = true ∨ v.co.mq.length < 8 → (v.takePlace op).myTurn = true → v.staged (stageFor v.pk.asid ba) → v.staged (stageFor v.pk.asid bb) →
        v.rowsFree (tileHas (v.crow d)) →
        ∃ ops x, (v.takePlace op).stageAll [stageFor v.pk.asid ba, stageFor v.pk.asid bb] = .go (v.takePlace op) ops ∧
          (v.takePlace op).matrixReady (tileHas (v.crow d)) = some x ∧
          o = .next ((x.enqueue c ops { op with
            abytes := (match ops[0]? with | some y => y.2 | none => []), bbytes := (match ops[1]? with | some y => y.2 | none => []),
            scale := if sparse then x.metaMap (recNum mt 0 4) (tileRec mt) else [] }).placed s))) ∧
    (∀ (z i : Bool) (d p : CReg) (rs : VSrc) (ss : SReg) (soff : BitVec 20) (x : View),
      Issues c [(c.guard, [.s 3 ss])] 0 (fun _ => [.dc d, .c 1 p, useV 2 false rs]) true s v m →
      let so := ((v.rs ss).toNat + soff.toNat) % 2 ^ 32
      v.missingLane m = none → v.scaleFault so = none → v.co.mq.length < 8 →
      v.matrixReady (fun n => tileHas (v.crow d) n || tileHas (v.crow p) n || n == v.vrow rs.reg) = some x →
      exec (.mscale c z i d p rs ss soff) s = .next ((x.enqueue c [] { (matOp (.mscale z i) (x.crow d)) with
        arow := x.crow p, brow := x.vrow rs.reg, scale := x.spMap so 512, act := m }).placed s)) ∧
    (∀ (z i : Bool) (d p : CReg) (rs : VSrc) (ss : SReg) (soff : BitVec 20),
      Issues c [(c.guard, [.s 3 ss])] 0 (fun _ => [.dc d, .c 1 p, useV 2 false rs]) true s v m →
      let so := ((v.rs ss).toNat + soff.toNat) % 2 ^ 32
      let rows : Nat → Bool := fun n => tileHas (v.crow d) n || tileHas (v.crow p) n || n == v.vrow rs.reg
      v.missingLane m = none → v.scaleFault so = none → v.co.mq.length < 8 → v.rowsFree rows →
      ∃ x, v.matrixReady rows = some x ∧
        exec (.mscale c z i d p rs ss soff) s = .next ((x.enqueue c [] { (matOp (.mscale z i) (x.crow d)) with
          arow := x.crow p, brow := x.vrow rs.reg, scale := x.spMap so 512, act := m }).placed s)) ∧
    (∀ (d : CReg) (x : View), Issues c [(c.guard, [])] 0 (fun _ => [.dc d]) false s v m → v.co.mq.length < 8 →
      v.matrixReady (tileHas (v.crow d)) = some x →
      exec (.mzero c d) s = .next ((x.enqueue c [] (matOp (.mzero m) (x.crow d))).placed s)) ∧
    (∀ d : CReg, Issues c [(c.guard, [])] 0 (fun _ => [.dc d]) false s v m → v.co.mq.length < 8 → v.rowsFree (tileHas (v.crow d)) →
      ∃ x, v.matrixReady (tileHas (v.crow d)) = some x ∧
        exec (.mzero c d) s = .next ((x.enqueue c [] (matOp (.mzero m) (x.crow d))).placed s)) ∧
    (∀ (h : Bool) (ty : Ty) (r : Rnd) (d : VReg) (a : CReg) (key : SReg) (x : View),
      Issues c [(c.guard, if r = .sr then [.s 2 key] else [])] 0 (fun _ => [.dvs d (mcvtRows ty), .c 1 a]) true s v m →
      v.missingLane m = none → v.co.mq.length < 8 →
      v.matrixReady (fun n => tileHas (v.crow a) n || (decide (v.vrow d ≤ n) && decide (n < v.vrow d + mcvtRows ty))) = some x →
      exec (.mcvt c h ty r d a key) s =
        .next ((x.enqueue c [] { (matOp (.mcvt h ty r (x.rs key) (bit (x.pk.special sprFpf) 16)) (x.vrow d)) with arow := x.crow a, act := m }).placed s)) ∧
    (∀ (h : Bool) (ty : Ty) (r : Rnd) (d : VReg) (a : CReg) (key : SReg),
      Issues c [(c.guard, if r = .sr then [.s 2 key] else [])] 0 (fun _ => [.dvs d (mcvtRows ty), .c 1 a]) true s v m →
      let rows : Nat → Bool := fun n => tileHas (v.crow a) n || (decide (v.vrow d ≤ n) && decide (n < v.vrow d + mcvtRows ty))
      v.missingLane m = none → v.co.mq.length < 8 → v.rowsFree rows →
      ∃ x, v.matrixReady rows = some x ∧ exec (.mcvt c h ty r d a key) s =
        .next ((x.enqueue c [] { (matOp (.mcvt h ty r (x.rs key) (bit (x.pk.special sprFpf) 16)) (x.vrow d)) with arow := x.crow a, act := m }).placed s))

/-- TFPIN of a sound record writes 0 when the pack already pins the operand, 1 when the core's pins have no room, and otherwise pins the
staged entry and writes 0; a bad record faults TILE_RECORD. TFREL releases the pack's pin of its operand, TFREL.ALL every pin of the
pack, and entries that nothing holds leave the stage. -/
def Obligations.TilePins : Prop :=
  ∀ (c : Ctl) (d a : SReg) (s : State) (v : View) (m : Mask) (bs : List Byte),
    let off := (v.rs a).toNat % 2 ^ 32
    let e := stageFor v.pk.asid bs
    let pinned := v.co.stage.any (fun (x : StageEntry) => x.sameKey e && x.pins.contains v.slot)
    let full := decide (8 ≤ v.co.pinSizes.length) || decide (131072 < v.co.pinSizes.foldl (· + ·) 0 + e.size)
    let freed (p : StageEntry → Bool) : View := { v with co := { v.co with stage := v.co.stage.map (fun (x : StageEntry) =>
      if p x then { x with pins := x.pins.filter (fun k => k != v.slot) } else x) } }
    (IssuesW c [.ds d, .s 1 a] false s v m → v.tileAt off = .ok bs →
      (∀ r, recordFlaw bs .pin = some r →
        exec (.tfpin c d a) s = .next (v.raise (v.faultRec fcTileRecord (BitVec.ofNat 64 off) r 0 0 127 0))) ∧
      (recordFlaw bs .pin = none →
        (pinned = true → exec (.tfpin c d a) s = .next ((v.dropFetches.landS c d 0).placed s)) ∧
        (pinned = false → full = true → exec (.tfpin c d a) s = .next ((v.dropFetches.landS c d 1).placed s)) ∧
        (∀ (w : View) (ops : List (Nat × SMap Byte)), pinned = false → full = false → v.myTurn = true → v.stageAll [e] = .go w ops →
          exec (.tfpin c d a) s = .next ((({ w with co := { w.co with stage := w.co.stage.map (fun (x : StageEntry) =>
            if ops.any (fun o => o.1 == x.stamp) then { x with pins := x.pins ++ [w.slot] } else x) } } : View).dropFetches.landS c d
            0).placed s)) ∧
        (pinned = false → full = false → v.myTurn = true → v.staged e → ∃ ops, v.stageAll [e] = .go v ops ∧
          exec (.tfpin c d a) s = .next ((({ v with co := { v.co with stage := v.co.stage.map (fun (x : StageEntry) =>
            if ops.any (fun o => o.1 == x.stamp) then { x with pins := x.pins ++ [v.slot] } else x) } } : View).dropFetches.landS c d
            0).placed s)))) ∧
    (IssuesW c [] false s v m → let w := freed (fun _ => true)
      exec (.tfrel c true a) s = .next (((w.reopen (w.close.reapStage v.ag)).tokenFor c 1).after c (v.succ c))) ∧
    (IssuesW c [.s 1 a] false s v m → v.tileAt off = .ok bs → let w := freed (fun x => x.sameKey e)
      exec (.tfrel c false a) s = .next (((w.reopen (w.close.reapStage v.ag)).tokenFor c 1).after c (v.succ c)))

/-- CALL with a uniform link (written at the latency of class U), and CALL.V with a varying one (the lanes of ACT, class VI), write the
sequential successor and go on at PC + sext(IMM32), once for the split; a link of s63 is discarded; when no lane acts the split goes on at
the successor with nothing written. In a divided pack the plain form faults UNIFORM_SPLIT unless its link is s60 to s63, and CALL.V runs. -/
def Obligations.Call : Prop :=
  ∀ (c : Ctl) (off : W32) (s : State) (v : View) (m : Mask),
    (∀ r : SReg, IssuesW c [.ds r] false s v m →
      exec (.call c (.s r) off) s = .next ((v.putS c r (v.succ c) latU).after c (v.sp.pc + off.signExtend 64))) ∧
    (∀ r : VReg, IssuesW c [.dv true r] false s v m →
      exec (.call c (.w r) off) s =
        .next ((v.putV c true r m (List.replicate 96 (v.succ c)) latVI).after c (v.sp.pc + off.signExtend 64))) ∧
    v.putS c 63 (v.succ c) latU = v.tokenFor c latU ∧
    (∀ (l : Link) (v0 : View), s.view = some v0 →
      let us : List Use := match l with | .s r => [.ds r] | .w r => [.dv true r]
      v0.ready c 0 us = some v → v.stalls [(c.guard, us)] = none →
      (v.act c.guard = 0 → exec (.call c l off) s = .next (v.after c (v.succ c))) ∧
      (∀ r : SReg, l = .s r → v.act c.guard ≠ 0 → r.toNat < 60 → v.divided = true →
        exec (.call c l off) s = .next (v.raise (v.faultRec fcUniformSplit 0 0 0 0 127 0)))) ∧
    (∀ r : VReg, v.uniformFault [.dv true r] = none)

/-- BRA goes to PC + sext(IMM32) when its condition on the uniform register holds, else to the successor; RET to its link, or that of the
lowest lane of ACT; SYNC issues over the reconverged lanes and only advances; WAITQ waits for its tokens (.ALL: all six) and only advances;
YIELD keeps the pack from issuing for the next cycle; NOP only advances; EXIT retires the lanes of ACT. -/
def Obligations.Control : Prop :=
  ∀ (c : Ctl) (s : State) (v : View) (m : Mask),
    (IssuesW c [] false s v m →
      (∀ (a : SReg) (off : W32), exec (.bra c .always a off) s = .next ((v.tokenFor c 1).after c (v.sp.pc + off.signExtend 64))) ∧
      exec (.nop c) s = .next ((v.tokenFor c 1).after c (v.succ c)) ∧
      exec (.waitq c false) s = .next (v.after c (v.succ c)) ∧
      exec (.yield c) s = .next (v.yieldIssue c) ∧
      (v.svc = false → exec (.exit c) s = .next (v.exitLanes c m))) ∧
    (∀ (a : SReg) (off : W32), IssuesW c [.s 1 a] false s v m →
      exec (.bra c .nz a off) s =
        .next ((v.tokenFor c 1).after c (if v.rs a = 0 then v.succ c else v.sp.pc + off.signExtend 64)) ∧
      exec (.bra c .z a off) s =
        .next ((v.tokenFor c 1).after c (if v.rs a = 0 then v.sp.pc + off.signExtend 64 else v.succ c)) ∧
      exec (.ret c (.s a)) s = .next ((v.tokenFor c 1).after c (v.rs a))) ∧
    (∀ r : VReg, IssuesW c [.v 1 true r] false s v m →
      ∃ L, m.getLsbD L = true ∧ (∀ K, K < L → m.getLsbD K = false) ∧
        exec (.ret c (.w r)) s = .next ((v.tokenFor c 1).after c (v.rv true r L))) ∧
    (IssuesW c [] true s v m → exec (.sync c) s = .next ((v.tokenFor c 1).after c (v.succ c))) ∧
    (Issues c [(c.guard, [])] 0x3F (fun _ => []) false s v m → exec (.waitq c true) s = .next (v.after c (v.succ c)))

/-- BRV whose lanes all go one way branches; one that divides by its guard waits for every token of its split, faults DIVERGENCE_DEPTH
without room, and otherwise leaves the falling lanes in its entry with a new path for the taken ones and a heel record. BRX faults BRX_RANGE
with the lowest lane out of range, loads its table (at once where its entries are mapped and no word of them is pending), and then branches,
to the target that its lanes share, or divides over the distinct targets in the order of their indices. -/
def Obligations.Divergence : Prop :=
  ∀ (c : Ctl) (s : State) (v : View) (m : Mask) (heel : W32),
    (∀ v0 x : View, s.view = some v0 → v0.ready c 0 [] = some x →
      s.brvWaits c = if x.act c.guard ≠ 0 ∧ x.act c.guard ≠ x.sp.mask then 0x3F else 0) ∧
    (∀ off : W32, Issues c [(c.guard, [])] (s.brvWaits c) (fun _ => []) false s v m →
      (v.sp.mask &&& ~~~m = 0 → exec (.brv c off heel) s = .next ((v.tokenFor c 1).after c (v.rel off))) ∧
      (∀ w : View, v.sp.mask &&& ~~~m ≠ 0 → v.tokensReady = some w →
        ((w.pk.setSplit w.ix (some w.sp)).roomFor 2 = false →
          exec (.brv c off heel) s = .next (w.raise (w.faultRec fcDivergenceDepth 0 0 0 0 127 0))) ∧
        ((w.pk.setSplit w.ix (some w.sp)).roomFor 2 = true →
          exec (.brv c off heel) s = .next (w.split c (w.rel heel)
            ⟨w.succ c, w.sp.owned &&& ~~~m, v.sp.mask &&& ~~~m⟩ [⟨w.rel off, m, m⟩])))) ∧
    (∀ (a : VSrc) (tab len : SReg), IssuesW c [useV 1 false a, .s 2 tab, .s 3 len] false s v m →
      let idx (L : Nat) : Nat := v.brxIdx a L
      let n := (v.rs len).toNat % 2 ^ 32
      let leave (y : View) (o : MemOp) (act : Nat → State → State) : Res :=
        ({ y with sp := { y.sp with tidx := (lanesOf m).map (fun L => (L, idx L)) } } : View).beginHere o act
      let at_ (L : Nat) : W64 := match v.sp.tab.find? (fun e => e.1 == L) with | some e => e.2 | none => 0
      let gs := brxGroups ((lanesOf m).map (fun L => (L, idx L, at_ L)))
      let w : View := { v.lastUse false a m with sp := { v.sp with tab := [], tidx := [] } }
      (v.sp.tidx = [] → ∀ L, idx L = (v.rv false a.reg L).toNat) ∧
      (∀ L rest, (lanesOf m).filter (fun L => decide (n ≤ idx L)) = L :: rest → exec (.brx c a tab len heel) s =
        .next (({ v with pk := v.pk.setLex 0 } : View).raise
          (v.faultRec fcBrxRange (BitVec.ofNat 64 (idx L)) 0 0 kRead L (maskList (L :: rest))))) ∧
      ((lanesOf m).filter (fun L => decide (n ≤ idx L)) = [] →
        (∀ (x : View) (good : List LaneAddr), v.sp.tab = [] →
          v.loadClear x 8 false false ((lanesOf m).map (fun L => (L, (v.rs tab + BitVec.ofNat 64 (8 * idx L)).toNat))) good →
          exec (.brx c a tab len heel) s =
            .next ((x.loadGo leave .table .n64 false false false 0 .none good).placed s)) ∧
        (let ls := (lanesOf m).map (fun L => (L, (v.rs tab + BitVec.ofNat 64 (8 * idx L)).toNat))
         v.sp.tab = [] → v.loadable 8 false ls → ∃ x, v.loadClear x 8 false false ls (v.located false ls) ∧
           exec (.brx c a tab len heel) s =
             .next ((x.loadGo leave .table .n64 false false false 0 .none (v.located false ls)).placed s)) ∧
        (∀ t, v.sp.tab ≠ [] → (∀ L ∈ lanesOf m, at_ L = t) → exec (.brx c a tab len heel) s = .next ((w.tokenFor c 1).after c t)) ∧
        (∀ t g, v.sp.tab ≠ [] → gs = [(t, g)] → exec (.brx c a tab len heel) s = .next ((w.tokenFor c 1).after c t)) ∧
        (∀ t g h rest x, v.sp.tab ≠ [] → gs = (t, g) :: h :: rest → w.tokensReady = some x →
          (x.pk.setSplit x.ix (some x.sp)).roomFor gs.length = true →
          exec (.brx c a tab len heel) s = .next (x.split c (v.rel heel) ⟨t, (x.sp.owned &&& ~~~x.sp.mask) ||| g, g⟩
            ((h :: rest).map (fun e => ⟨e.1, e.2, e.2⟩))))))

/-- TRAP raises TRAP with FVA IMM32[15:0], BKPT raises BREAK with FVA 0, both with LANE 127, after the word has completed: the split stands
at the successor. SVC of a pack with sound call rows, a free shared entry and its release over writes its record and parks its split; a call
row with bits above 15 faults SVC_RECORD at the lowest such lane. On a service core SVC and EXIT enter the handler with 0x20 and 0x21. -/
def Obligations.Traps : Prop :=
  ∀ (c : Ctl) (s : State) (v : View) (m : Mask),
    (IssuesW c [] false s v m → (v.svc = true → v.co.drained = true) →
      (∀ code : BitVec 16, exec (.trap c code) s =
        .next ((v.tokenFor c 1).trapAfter c (v.succ c) (v.faultRec 0x17 (code.setWidth 64) 0 0 0 127 0))) ∧
      exec (.bkpt c) s = .next ((v.tokenFor c 1).trapAfter c (v.succ c) (v.faultRec 0x18 0 0 0 0 127 0)) ∧
      (v.svc = true → exec (.exit c) s = .next ((v.tokenFor c 1).trapAfter c (v.succ c) (v.faultRec 0x21 0 0 0 0 127 0))) ∧
      (64 ≤ s.cur.agent → ∀ (each : Bool) (vb : VReg) (heel : W32), exec (.svc c each vb heel) s =
        .next ((v.tokenFor c 1).trapAfter c (v.succ c) (v.faultRec 0x20 0 0 0 0 127 0)))) ∧
    (∀ (each : Bool) (vb : VReg) (heel : W32), s.cur.agent < 64 →
      Issues c [(c.guard, [.v 1 false vb])] 0 (fun _ => [.vs 1 vb 6]) false s v m →
      let bad := maskOf (fun L => m.getLsbD L && fld (lane (v.row (v.vrow vb)) L) 16 16 != 0)
      (∀ L, lowest bad = some L → exec (.svc c each vb heel) s =
        .next (({ v with pk := v.pk.setLex 0 } : View).raise (v.faultRec fcSvcRecord 0 0 0 0 L bad))) ∧
      (lowest bad = none → each = true → v.pk.freeHeel = none →
        exec (.svc c each vb heel) s = .next (v.raise (v.faultRec fcDivergenceDepth 0 0 0 0 127 0))) ∧
      (∀ (e : Nat) (w x : View) (h : Option Nat), lowest bad = none → (each = true → v.pk.freeHeel ≠ none) →
        v.co.freeShared = some e → v.matrixBusy = false → v.release .device true = .go w → w.svcHeel each heel = some (h, x) →
        exec (.svc c each vb heel) s = .next (x.svcPark c each vb m e h)) ∧
      (∀ e : Nat, lowest bad = none → (each = true → v.pk.freeHeel ≠ none) → v.co.freeShared = some e → v.matrixBusy = false →
        v.releasable .device true → ∃ w x h, v.release .device true = .go w ∧ w.svcHeel each heel = some (h, x) ∧
          exec (.svc c each vb heel) s = .next (x.svcPark c each vb m e h)))

/-- On a compute core the pack stops with the fault as its primary one, its lanes join LEX0-LEX2, the split's PC stays at the instruction
and no register of the files or rows changes. On a service core that has drained, with EXL 0: EPC, ECAUSE, EFVA and EFINFO are written, EXL
is set and the split's PC is EVEC. Memory and every other core are unchanged in both. -/
def Obligations.ExceptionTaken : Prop :=
  ∀ (v : View) (f : FaultRec), v.ix < v.pk.splits.length →
    let t := v.raise f
    (v.svc = false → v.pk.stop = none →
      ∃ (p : Pack) (x : Split), look (t.core v.ag).packs v.slot = some p ∧ p.split v.ix = some x ∧
        p.stop = some ⟨1, some f, v.ix, false, false, false⟩ ∧ x.pc = v.sp.pc ∧ p.lex = v.pk.lex ||| f.lex ∧ p.s = v.pk.s ∧ p.a = v.pk.a ∧
        p.p = v.pk.p ∧ p.rows = v.pk.rows ∧ t.mem = v.s.mem ∧ ∀ n, n ≠ v.ag → t.core n = v.s.core n) ∧
    (v.svc = true → v.co.drained = true → v.co.exl = false →
      ∃ (p : Pack) (x : Split), look (t.core v.ag).packs v.slot = some p ∧ p.split v.ix = some x ∧ x.pc = v.co.evec ∧
        (t.core v.ag).epc = f.pc ∧ (t.core v.ag).ecause = BitVec.ofNat 64 (f.code % 256) ∧ (t.core v.ag).efva = f.fva ∧
        (t.core v.ag).efinfo = f.finfo ∧ (t.core v.ag).exl = true ∧ p.s = v.pk.s ∧ t.mem = v.s.mem ∧
        ∀ n, n ≠ v.ag → t.core n = v.s.core n)

/-- IRET in the handler: the split goes on at EPC and ESTAT.EXL is 0; the other exception registers, memory, every other core and the
uniform registers are unchanged. Outside the handler it is ILLEGAL_OP. -/
def Obligations.ExceptionReturn : Prop :=
  ∀ (c : Ctl) (s : State) (v : View) (m : Mask), IssuesW c [] false s v m → v.ix < v.pk.splits.length →
    (v.co.exl = false → exec (.iret c) s = .next (v.raise (v.faultRec 0x01 0 0 0 0 127 0))) ∧
    (v.co.exl = true → ∃ (t : State) (p : Pack) (x : Split), exec (.iret c) s = .next t ∧
      look (t.core v.ag).packs v.slot = some p ∧ p.split v.ix = some x ∧ x.pc = v.co.epc ∧ p.s = v.pk.s ∧
      (t.core v.ag).exl = false ∧ (t.core v.ag).epc = v.co.epc ∧ (t.core v.ag).evec = v.co.evec ∧ (t.core v.ag).ecause = v.co.ecause ∧
      t.mem = s.mem ∧ ∀ n, n ≠ v.ag → t.core n = s.core n)

/-- The record that ends a stop: a stop for a fault writes a FAULT record with the fault's code, PC, FVA, FINFO and lanes into the slot's
kennel entry, latches CTXERR, FVA and FINFO, and the pack is stopped; CTXERR keeps its first code, takes the latest, and counts, saturating
at 0xFFFF. STOP_COMPLETE of a pack whose instructions are complete and whose words are registered writes it. -/
def Obligations.StopRecord : Prop :=
  (∀ (e : W64) (code : Nat), code < 256 → code ≠ 0 →
    fld (latchErr e code) 0 8 = (if fld e 0 8 = 0 then code else fld e 0 8) ∧ fld (latchErr e code) 8 8 = code ∧
    fld (latchErr e code) 16 16 = min (fld e 16 16 + 1) 0xFFFF) ∧
  (∀ (s : State) (n slot : Nat) (p : Pack) (x : Stop) (f : FaultRec), x.fault = some f → n < 64 →
    let t := s.recordStop n slot p x
    ∃ q : Pack, look (t.core n).packs slot = some q ∧ q.stopped = true ∧ q.special sprFva = f.fva ∧ q.special sprFinfo = f.finfo ∧
      q.special sprCtxerr = latchErr (p.special sprCtxerr) f.code ∧ t.mem = s.mem ∧
      (t.core n).spRead ((s.core n).kennel slot) 64 =
        (⟨2, 0, n, slot, x.split, f.code, 0, f.lex, f.pc, f.fva, f.finfo, p.launch, p.asid, 0xFF⟩ : KRec).toBytes) ∧
  (∀ (s : State) (n slot : Nat), n < 64 → exec (.stopComplete n slot) s = .next (s.stopPack n slot)) ∧
  (∀ (s : State) (slot n : Nat) (v : View) (x : Stop) (f : FaultRec), 64 ≤ n → s.viewAt ⟨n, slot, 0⟩ = some v → v.pk.stop = some x →
    x.fault = some f → v.co.drained = true → exec (.stopComplete n slot) s = .next (v.enter f.code f.pc f.fva f.finfo))

/-- p7 reads as all ones and a write to it is discarded; a predicate write changes exactly the lanes it names of exactly its register; p0–p6
are 0 in a pack that starts; an instruction that writes only predicates and varying registers never faults UNIFORM_SPLIT. -/
def Obligations.PredicateRegisters : Prop :=
  (∀ v : View, v.rp 7 = BitVec.allOnes 96) ∧ (∀ (p : Pack) (m x : Mask), p.apply (.p 7 m x) = p) ∧
  (∀ (v : View) (r q : PReg) (m x : Mask) (L : Nat), r ≠ 7 → L < 96 →
    (({ v with pk := v.pk.apply (.p r m x) } : View).rp q).getLsbD L =
      if q = r ∧ m.getLsbD L = true then x.getLsbD L else (v.rp q).getLsbD L) ∧
  (∀ (v : View) (pc : W64) (m : Mask) (r : PReg), r ≠ 7 → ({ v with pk := Pack.start pc m } : View).rp r = 0) ∧
  (∀ (v : View) (us : List Use), (∀ u ∈ us, (∀ r, u ≠ .ds r) ∧ ∀ r, u ≠ .da r) → v.uniformFault us = none)

/-- SRD writes the register's value; SWR changes exactly the bits that the register's access column lets a write change (FPF: bits 9:0
cleared by 1, bit 16 set; AFL.AOV and LEX0-LEX2 cleared by 1; VIEWV, VIEWC, RGN and MQCH written, MQCH with its CREDIT cleared); SWRP writes
EVEC, EPC, ESTAT.EXL or CTXCFG of a service core. REGGROW of no more rows than the window has writes its size, of more than the core has
faults REG_GROW_DENIED, and otherwise joins the queue and parks. REGSHRINK frees the rows at the top. QPOST writes the status that R291
states. -/
def Obligations.SpecialRegisters : Prop :=
  ∀ (c : Ctl) (s : State) (v : View) (m : Mask),
    (∀ (d : SReg) (n : W32), IssuesW c [.ds d] false s v m →
      exec (.srd c d n) s = .next ((v.putS c d (v.srdVal n.toNat) latU).after c (v.succ c))) ∧
    (∀ (a : SReg) (n : W32), IssuesW c [.s 1 a] false s v m →
      ((1 ≤ n.toNat → n.toNat ≤ 5 → v.flagsComing = false) →
        exec (.swr c n a) s = .next ((({ v with pk := v.pk.swr n.toNat (v.rs a) } : View).tokenFor c 1).after c (v.succ c))) ∧
      exec (.swrp c 0x100 a) s =
        .next ((({ v with co := { v.co with evec := v.rs a &&& ~~~3#64 } } : View).tokenFor c 1).after c (v.succ c)) ∧
      exec (.swrp c 0x101 a) s = .next ((({ v with co := { v.co with epc := v.rs a } } : View).tokenFor c 1).after c (v.succ c)) ∧
      exec (.swrp c 0x105 a) s =
        .next ((({ v with co := { v.co with exl := (v.rs a).getLsbD 0 } } : View).tokenFor c 1).after c (v.succ c)) ∧
      exec (.swrp c 0 a) s =
        .next ((({ v with pk := v.pk.setSpecial 0 (v.rs a &&& 0x1FDFFF) } : View).tokenFor c 1).after c (v.succ c))) ∧
    (∀ (n : Nat) (x : W64),
      let q := v.pk.setSpecial n (swrVal n (v.pk.special n) x)
      v.pk.swr n x = if 0x020 ≤ n ∧ n < 0x028 then q.setCredit (n - 0x020) 0 else q) ∧
    (∀ (old x : W64) (b : Nat), b < 64 →
      (swrVal 0x001 old x).getLsbD b =
        (if b < 10 then old.getLsbD b && !x.getLsbD b else if b = 16 then x.getLsbD b else old.getLsbD b) ∧
      (swrVal 0x002 old x).getLsbD b = (if b = 0 then old.getLsbD b && !x.getLsbD b else old.getLsbD b) ∧
      (∀ n, 3 ≤ n → n ≤ 5 → (swrVal n old x).getLsbD b = (if b < 32 then old.getLsbD b && !x.getLsbD b else old.getLsbD b)) ∧
      (∀ n, n = 0x011 ∨ n = 0x012 → (swrVal n old x).getLsbD b = (if b < 12 then x.getLsbD b else old.getLsbD b)) ∧
      (∀ n, 0x018 ≤ n → n < 0x020 → (swrVal n old x).getLsbD b = x.getLsbD b) ∧
      (∀ n, 0x020 ≤ n → n < 0x028 → (swrVal n old x).getLsbD b = (if b < 52 ∨ b = 63 then x.getLsbD b else old.getLsbD b)) ∧
      (∀ n, n = 0x000 ∨ 0x006 ≤ n ∧ n ≤ 0x010 ∨ 0x013 ≤ n ∧ n ≤ 0x017 ∨ 0x028 ≤ n → swrVal n old x = old)) ∧
    (∀ (d : SReg) (n : USrc), IssuesW c ([.ds d] ++ useU 1 n) false s v m →
      (v.rowsOf n ≤ v.pk.size → exec (.reggrow c d n) s = .next ((v.landS c d (BitVec.ofNat 64 v.pk.size)).placed s)) ∧
      (v.pk.size < v.rowsOf n → 2730 < v.rowsOf n →
        exec (.reggrow c d n) s = .next (v.raise (v.faultRec fcRegGrowDenied 0 0 0 0 127 0))) ∧
      (v.pk.size < v.rowsOf n → v.rowsOf n ≤ 2730 → exec (.reggrow c d n) s =
        .next (({ (v.tokenV c).1 with co := { v.co with grow := v.co.grow ++ [⟨v.slot, v.ix, v.rowsOf n, v.co.cycle⟩] } } : View).park c
          (.reggrow (v.rowsOf n) d (v.tokenV c).2)))) ∧
    (∀ n : USrc, IssuesW c (useU 1 n) false s v m →
      let r := max 1 (v.rowsOf n)
      let w := v.dropHigh r
      (v.pk.size ≤ r → exec (.regshrink c n) s = .next ((v.tokenFor c 1).after c (v.succ c))) ∧
      (r < v.pk.size → w.highWrites r = false → exec (.regshrink c n) s = .next ((({ w with
        pk := { w.pk with size := r, rows := keep (fun k => decide (k < r)) w.pk.rows, bad := keep (fun k => decide (k < r)) w.pk.bad }
        co := { w.co with freed := w.now } } : View).tokenFor c 1).after c (v.succ c)))) ∧
    (∀ (d a b : SReg) (g : LaneAddr) (gs : List LaneAddr) (w : View) (bs : List Byte) (t : State),
      IssuesW c [.ds d, .s 1 a, .s 2 b] false s v m →
      let x := v.translate kRead false 1 [(127, (v.rs a).toNat)]
      (v.rs a).toNat % 64 = 0 → x.waiting = false → v.laneFault kRead true x.bad = none → x.good = g :: gs →
      (isHost g.pa = true → x.v.pk.hostw = 0) → x.v.release .device true = .go w → w.readPacket g (v.rs a).toNat = .ok (bs, t) →
      let y := w.reopen t
      (y.deviceQueue (y.rs b) = .none → exec (.qpost c d a b) s = .next ((y.landS c d 2).placed s)) ∧
      (∀ f q qd, y.deviceQueue (y.rs b) = .ok f q qd →
        (recNum bs 0 1 ≠ 1 → exec (.qpost c d a b) s = .next ((y.landS c d 3).placed s)) ∧
        (recNum bs 0 1 = 1 → 2 ^ qd.log2n ≤ qd.held → exec (.qpost c d a b) s = .next ((y.landS c d 1).placed s)) ∧
        (∀ u, recNum bs 0 1 = 1 → qd.held < 2 ^ qd.log2n → y.close.postPacket y.ag f q qd bs y.pk.launch = .ok u →
          exec (.qpost c d a b) s = .next (((y.reopen u).landS c d 0).placed s)))) ∧
    (∀ (d a b : SReg) (g : LaneAddr) (pa : Nat), IssuesW c [.ds d, .s 1 a, .s 2 b] false s v m →
      let va := (v.rs a).toNat
      let f := fld (v.rs b) 9 9
      let q := fld (v.rs b) 0 9
      let bs := v.packetBytes g va
      va % 64 = 0 → v.mapped kRead false 1 [(127, va)] → v.located false [(127, va)] = [g] → v.packetReady g va →
      v.releasable .device true → recNum bs 0 1 = 1 →
      (v.rs b).toNat / 2 ^ 18 = 0 → f ≤ 384 → v.s.bound f = true → v.s.partOfAgent v.ag = some (v.s.fnPart f) →
      v.s.descPa f q = some pa → v.s.reachable (some (v.s.fnPart f)) pa = true → v.s.reachable (some (v.s.fnPart f)) (pa + 16) = true →
      v.s.restfulAt pa 64 →
      let qd := qdescOf (v.s.homeBytes pa 64)
      let sp := v.s.queueSpace f qd.proc
      qd.valid = true → qd.device = true → qd.held < 2 ^ qd.log2n →
      v.close.reaches ⟨v.ag, some (v.s.fnPart f), sp.1, sp.2, kTransfer, true⟩ (qd.ring + 64 * (qd.wr % 2 ^ qd.log2n)) 64 true →
      ∃ w t u, (v.translate kRead false 1 [(127, va)]).v.release .device true = .go w ∧ w.readPacket g va = .ok (bs, t) ∧
        (let y := w.reopen t
         y.close.postPacket y.ag f q qd bs y.pk.launch = .ok u ∧
         exec (.qpost c d a b) s = .next (((y.reopen u).landS c d 0).placed s)))

/-- SRES of a sound mask records or delivers its lanes' results, and faults SVC_RECORD otherwise. PSTOP asks for the stop, and writes 0 when
it has happened, 1 if the pack was stopped before; .GO and .END act on a stopped pack; a handle of nothing is status 2. PCTXSV and PCTXLD
save and load a workgroup. TLBINV drops translations and completes after the accesses begun before it. MBXSEND appends a message, MBXRECV
takes the first event, ZAP sends a ZAPW for each word of its range, HALT without an event gates the core once it has drained. -/
def Obligations.ServiceInstructions : Prop :=
  ∀ (c : Ctl) (d a b : SReg) (s : State) (v : View) (m : Mask),
    (∀ mark : Bool, IssuesW c [.s 1 a, .s 2 b, .s 2 (b + 1), .s 2 (b + 2)] false s v m →
      let core := v.mate ((v.rs a).toNat % 64 / 32)
      let e := (v.rs a).toNat % 32
      let q := v.s.core core
      let sound := q.kfield e 0 1 = 1 ∧ v.mask3 b &&& ~~~(q.klanes e &&& ~~~(q.kdone e)) = 0 ∧ (q.kfield e 1 1 / 2 % 2 = 1 ↔ mark = true)
      (¬ sound → exec (.sres c mark a b) s = .next (v.raise (v.faultRec fcSvcRecord 0 0 0 0 127 0))) ∧
      (sound → mark = true → exec (.sres c mark a b) s =
        .next ((({ v with s := v.s.updCore core (fun k => k.addDone e (v.mask3 b)) } : View).tokenFor c 1).after c (v.succ c))) ∧
      (∀ w, sound → mark = false →
        (lanes.any (fun L => (v.mask3 b).getLsbD L && (List.range 3).any (fun r =>
          q.spPoison (q.sysBase + 0x800 + 1152 * (e - 24) + 384 * r + 4 * L) 4 false))) = false →
        v.release .device true = .go w → exec (.sres c mark a b) s =
        .next ((({ w with s := w.s.updCore core (fun k => k.deliver e (v.mask3 b)) } : View).tokenFor c 1).after c (v.succ c))) ∧
      (sound → mark = false →
        (lanes.any (fun L => (v.mask3 b).getLsbD L && (List.range 3).any (fun r =>
          q.spPoison (q.sysBase + 0x800 + 1152 * (e - 24) + 384 * r + 4 * L) 4 false))) = false →
        v.releasable .device true → ∃ w, v.release .device true = .go w ∧ exec (.sres c mark a b) s =
        .next ((({ w with s := w.s.updCore core (fun k => k.deliver e (v.mask3 b)) } : View).tokenFor c 1).after c (v.succ c)))) ∧
    (IssuesW c [.ds d, .s 1 a] false s v m →
      (v.handlePack (v.rs a) = none → exec (.pstop c d a) s = .next ((v.landS c d 2).placed s) ∧
        exec (.pstopGo c d a) s = .next ((v.landS c d 2).placed s)) ∧
      (∀ n slot p, v.handlePack (v.rs a) = some (n, slot, p) →
        (p.stopped = true → exec (.pstop c d a) s = .next ((v.landS c d (if v.sp.phase = 1 then 0 else 1)).placed s) ∧
          exec (.pstopGo c d a) s = .next ((({ v with s := v.s.resumePack n slot } : View).landS c d 0).placed s)) ∧
        (p.stopped = false → exec (.pstopGo c d a) s = .next ((v.landS c d 2).placed s)) ∧
        (p.stop = none → v.sp.phase ≠ 1 → exec (.pstop c d a) s = .next ({ v with
          s := v.s.updCore n (fun k => k.updPack slot (fun p => { p with stop := some ⟨0, none, 0, false, false, false⟩ }))
          sp := { v.sp with phase := 1 } } : View).close))) ∧
    (IssuesW c [.ds d, .s 1 a, .s 2 b] false s v m →
      (v.sp.phase ≠ 1 → v.handlePack (v.rs a) = none → exec (.pstopEnd c d a b) s = .next ((v.landS c d 2).placed s)) ∧
      (∀ n slot p, v.sp.phase ≠ 1 → v.handlePack (v.rs a) = some (n, slot, p) →
        (p.stopped = false → exec (.pstopEnd c d a b) s = .next ((v.landS c d 2).placed s)) ∧
        (p.stopped = true → exec (.pstopEnd c d a b) s =
          .next ({ v with s := v.s.killPack n slot p (fld (v.rs b) 0 8), sp := { v.sp with phase := 1 } } : View).close)) ∧
      (∀ n slot, v.sp.phase = 1 → v.handle (v.rs a) = some (n, slot) → look (v.s.core n).packs slot = none →
        exec (.pstopEnd c d a b) s = .next ((v.landS c d 0).placed s)) ∧
      (v.handlePack (v.rs a) = none → exec (.pctxsv c d a b) s = .next ((v.landS c d 2).placed s)) ∧
      (∀ n slot p t, v.handlePack (v.rs a) = some (n, slot, p) → (v.rs b).toNat % 4096 = 0 →
        ((v.s.core n).wgPacks p).any (fun q => !q.stopped) = false → v.s.windowQuiet p.launch p.wg = true →
        v.close.saveWg (v.saver kWrite) n p (v.rs b) = .ok () t →
        exec (.pctxsv c d a b) s = .next (((v.reopen t).landS c d 0).placed s)) ∧
      (∀ k t, v.rs a &&& ~~~0x11F#64 = 0 → (v.rs b).toNat % 4096 = 0 →
        v.close.loadWg (v.saver kRead) (v.mate (fld (v.rs a) 8 1)) (v.rs b).toNat = .ok (.status k) t →
        exec (.pctxld c d a b) s = .next (((v.reopen t).landS c d (BitVec.ofNat 64 k)).placed s)) ∧
      (∀ n slot p, v.handlePack (v.rs a) = some (n, slot, p) → (v.rs b).toNat % 4096 = 0 →
        ((v.s.core n).wgPacks p).any (fun q => !q.stopped) = false → v.s.windowQuiet p.launch p.wg = true →
        let x := v.close
        let slots := (x.core n).wgSlots p
        let win := ((x.core n).wins.find? (fun w => w.launch == p.launch && w.wg == p.wg)).getD ⟨0, 0, 0, 0, 0, [], 0⟩
        (x.core n).savePoison n win slots = none →
        x.reaches (v.saver kWrite) (v.rs b).toNat (x.wgBytes n p (slots.filterMap (fun k => look (x.core n).packs k))).length true →
        ∃ t, x.saveWg (v.saver kWrite) n p (v.rs b) = .ok () t ∧ exec (.pctxsv c d a b) s = .next (((v.reopen t).landS c d 0).placed s)) ∧
      (∀ (h win : List Byte) (heads rows : List (List Byte)) (l : Launch) (pl : Place), v.rs a &&& ~~~0x11F#64 = 0 → (v.rs b).toNat % 4096 = 0 →
        let x := v.close
        let q := v.saver kRead
        let va := (v.rs b).toNat
        let size := alignUp (imgNum h 4 4) 4096
        x.reads q va 4096 h → (∀ o, o < 4096 → o = 2 ∨ o = 3 ∨ 8 ≤ o → imgNum h o 1 = 0) → imgNum h 0 1 = heads.length →
        heads.length ≤ 24 → size ≤ 2 ^ 20 → x.reads q (va + 4096) size win → x.areasRead q (va + 4096 + size) heads rows →
        heads.any svcWaits = false → look x.launches (imgNum (heads.headD []) 0 4) = some l →
        x.fits (v.mate (fld (v.rs a) 8 1)) (imgNum h 1 1) size (heads.map imgRows) = some pl →
        ∃ t, x.loadWg q (v.mate (fld (v.rs a) 8 1)) va = .ok (.status 0) t ∧
          exec (.pctxld c d a b) s = .next (((v.reopen t).landS c d 0).placed s))) ∧
    (∀ (mode : TlbMode) (hub : Bool), IssuesW c [.s 1 a, .s 2 b] false s v m →
      (v.sp.phase = 0 →
        let t := v.close.dropTlb v.cluster hub mode ((v.rs b).toNat % 65536) (v.rs a).toNat
        exec (.tlbinv c mode hub a b) s =
          .next ({ v.reopen t with sp := { (v.reopen t).sp with phase := t.next + 1 } } : View).close) ∧
      (v.sp.phase ≠ 0 →
        (clusterAgents v.cluster).any (fun n => (v.close.core n).ops.any (fun o => decide (o.id < v.sp.phase)) ||
          (v.close.core n).fetches.any (fun f => decide (f.id < v.sp.phase) && !f.todo.isEmpty && f.fault.isNone)) = false →
        exec (.tlbinv c mode hub a b) s = .next ((v.tokenFor c 1).after c (v.succ c)))) ∧
    (∀ (w : View), IssuesW c [.ds d, .s 1 a, .s 2 b, .s 2 (b + 1), .s 2 (b + 2)] false s v m → v.release .device true = .go w →
      let n := fld (w.rs a) 0 5
      let away := match w.close.partOfCluster n with | some q => w.close.partOfCluster w.cluster != some q | none => false
      let barred := decide ((w.rs a).toNat / 32 ≠ 0) || w.close.clusterSt n == 3 || (w.close.core (64 + n)).failed || away
      (barred = true → exec (.mbxsend c d a b) s = .next ((w.landS c d 2).placed s)) ∧
      (barred = false → 64 ≤ (w.close.core (64 + n)).mailbox.length → exec (.mbxsend c d a b) s = .next ((w.landS c d 1).placed s)) ∧
      (barred = false → (w.close.core (64 + n)).mailbox.length < 64 → exec (.mbxsend c d a b) s =
        .next (((w.reopen ((w.close.updCore (64 + n) (fun k => { k with mailbox := k.mailbox ++
          [⟨w.cluster, w.rs b, w.rs (b + 1), w.rs (b + 2)⟩] })).bootAnswer w.cluster n)).landS c d 0).placed s))) ∧
    (IssuesW c [.ds d, .s 1 a, .s 2 b, .s 2 (b + 1), .s 2 (b + 2)] false s v m → v.releasable .device true →
      let n := fld (v.rs a) 0 5
      (v.rs a).toNat / 32 = 0 → v.s.clusterSt n ≠ 3 → (v.close.core (64 + n)).failed = false →
      (∀ q, v.s.partOfCluster n = some q → v.s.partOfCluster v.cluster = some q) → (v.close.core (64 + n)).mailbox.length < 64 →
      ∃ w, v.release .device true = .go w ∧ exec (.mbxsend c d a b) s =
        .next (((w.reopen ((w.close.updCore (64 + n) (fun k => { k with mailbox := k.mailbox ++
          [⟨v.cluster, v.rs b, v.rs (b + 1), v.rs (b + 2)⟩] })).bootAnswer v.cluster n)).landS c d 0).placed s)) ∧
    (∀ nb : Bool, IssuesW c [.ds d, .ds (d + 1), .ds (d + 2), .ds (d + 3)] false s v m →
      (∀ xs k, v.co.takeEvent = some (xs, k) →
        let w := v.reopen (v.close.updCore v.ag (fun k => match k.takeEvent with | some r => r.2 | none => k))
        exec (.mbxrecv c nb d) s = .next ((((xs.zip (List.range 4)).foldl (fun (w : View) e =>
          w.ws (d + BitVec.ofNat 6 e.2) e.1 latU) w).tokenFor c latU).after c (v.succ c))) ∧
      (v.co.takeEvent = none → nb = true → exec (.mbxrecv c nb d) s = .next ((v.landS c d 0).placed s)) ∧
      (v.co.takeEvent = none → nb = false →
        let w := (v.tokenV c).1.finish c ((v.tokenV c).1.succ c)
        exec (.mbxrecv c nb d) s = .next ({ w with co := { w.co with mbwait := some (d, (v.tokenV c).2) } } : View).close)) ∧
    (IssuesW c [.s 1 a, .s 2 b] false s v m →
      let pa := (v.rs a).toNat
      let n := (v.rs b).toNat
      ((pa % 4 ≠ 0 ∨ n % 4 ≠ 0) → exec (.zap c a b) s =
        .next (v.raise (v.faultRec fcProtection (BitVec.ofNat 64 pa) 11 0 kWrite 127 0))) ∧
      (pa % 4 = 0 → n = 0 → exec (.zap c a b) s = .next ((v.tokenFor c 1).after c (v.succ c))) ∧
      (pa % 4 = 0 → n % 4 = 0 → n ≠ 0 →
        (pa / 2 ^ 16 ≠ (pa + n - 1) / 2 ^ 16 ∨ isHbm pa = false ∨ v.s.reachable (v.s.partOfAgent v.ag) pa = false) →
        exec (.zap c a b) s = .next (v.raise (v.faultRec fcProtection (BitVec.ofNat 64 pa) 7 0 kWrite 127 0))) ∧
      (pa % 4 = 0 → n % 4 = 0 → n ≠ 0 → pa / 2 ^ 16 = (pa + n - 1) / 2 ^ 16 → isHbm pa = true →
        v.s.reachable (v.s.partOfAgent v.ag) pa = true →
        let ws := (List.range (n / 4)).map (fun i => pa / 4 + i)
        exec (.zap c a b) s = .next ((v.begin c false (memOp .zap .n32 .none (ws.map (fun w => accOf ⟨127, 4 * w, 4 * w, 0, 0⟩ 4 [w])))
          (fun id s => ws.foldl (fun (s : State) w => s.send v.ag (homeNode w) (.zapw w id (covers pa n w))) s)).placed s))) ∧
    (IssuesW c [] false s v m →
      (v.co.pendingEvent = true → exec (.halt c) s = .next ((v.tokenFor c 1).after c (v.succ c))) ∧
      (v.co.pendingEvent = false → v.co.drained = true → exec (.halt c) s =
        .next ((((v.tokenFor c 1).after c (v.succ c)).giveUp v.ag).updCore v.ag (fun k => { k with halted := true }))))

/-- Whatever a register-only instruction of a compute core does, from any state: memory, messages, registrations, queues, host and every
part of the machine outside the cores are unchanged; so is every other core; and of its own core all but the cycle count, the words and
units taken, the packs, and the division and special-function queues; and of the packs, every pack but its own. -/
def Obligations.RegisterFrame : Prop :=
  ∀ (i : Instr) (s t : State), registerOnly i = true → s.cur.agent < 64 → exec i s = .next t →
    s.sameOutside t ∧ (∀ n, n ≠ s.cur.agent → t.core n = s.core n) ∧
    (let k := t.core s.cur.agent
     k = { (s.core s.cur.agent) with cycle := k.cycle, issued := k.issued, took := k.took, pipes := k.pipes, packs := k.packs, divq := k.divq, sfuq := k.sfuq }) ∧
    ∀ slot, slot ≠ s.cur.slot → look (t.core s.cur.agent).packs slot = look (s.core s.cur.agent).packs slot

/-- If every split and every deferred path of every pack has a mask that is not empty and lies in its owned set, then so it is after any
register-only instruction: writes of the mask words, divergence, merging, forced reconvergence and EXIT keep it. -/
def Obligations.MasksKept : Prop :=
  ∀ (i : Instr) (s t : State), registerOnly i = true → s.masksOk = true → exec i s = .next t → t.masksOk = true

/-- Memory's list has rising addresses and no byte that equals what an unlisted address reads as; every step of the machine, whatever its
turn or the event its own schedule chooses, keeps it so. -/
def Obligations.MemoryCanonical : Prop :=
  ∀ s t : State, Memory.wf s.mem = true → step s = .next t → Memory.wf t.mem = true

/-- After reset: T is 0, memory lists nothing and is canonical, nothing is resident, in flight or waiting, every core has CORE_SRAM.SPSZ 01
and a service core ESTAT.EXL 1; the registers with stated reset values hold them: SLICE_STAT.PART 0xFF, PART_SCHED 9, PWR_LIM 1800 W, 2000 W
and 95 °C, BOOT_STAT.PHASE 0; a starting CTXCFG holds TK 10, LSE 64 and WD 10. Registers for which the spec gives no value read 0, which is
the model's choice (assumption log entry 2). -/
def Obligations.ResetState : Prop :=
  State.reset.time = 0 ∧ Memory.wf State.reset.mem = true ∧ State.reset.masksOk = true ∧ (∀ a, State.reset.byte a = 0) ∧
  State.reset.net = [] ∧ State.reset.launches = [] ∧ State.reset.queues = [] ∧ State.reset.xfers = [] ∧ State.reset.hostq = [] ∧
  (∀ n, (State.reset.core n).packs = [] ∧ (State.reset.core n).spsz = 1 ∧ (State.reset.core n).exl = true ∧
    (State.reset.core n).ops = [] ∧ (State.reset.core n).evec = 0) ∧
  (∀ sl, sl < 96 → fld (State.reset.regVal (sliceStat sl)) 8 8 = 0xFF) ∧ (∀ p, p < 32 → State.reset.regVal (partSched p) = 9) ∧
  fld (State.reset.regVal pwrLim) 0 12 = 1800 ∧ fld (State.reset.regVal pwrLim) 16 12 = 2000 ∧ fld (State.reset.regVal pwrLim) 32 7 = 95 ∧
  fld (State.reset.regVal bootStat) 0 3 = 0 ∧
  fld ctxcfgReset 0 5 = 10 ∧ fld ctxcfgReset 5 8 = 64 ∧ fld ctxcfgReset 16 4 = 10

/-- A message event whose kind is that of the oldest message of its channel takes that message and lets the home, the owner or the requester
do what its kind says: requests and write-backs arrive at the home word by word, FWD, RECALL, CALLBACK and DROP act at the owner, and
GRANT, DATA, FAULT and STALE at the requester, the DATA of an owner's answer to FWD at the home; an agent without an L1 keeps its answers at
its port. -/
def Obligations.CoherenceMessages : Prop :=
  ∀ (src dst : Nat) (s : State) (b : Body) (ms : List Msg), takeMsg src dst s.net = some (b, ms) →
    let u : State := { s with net := ms }
    (∀ l acq keep want tag check attr slot, b = .rdc l acq keep want tag check attr slot → exec (.rdc src dst) s =
      .next ((List.range 16).foldl (fun (t : State) i => t.arrive ⟨src, [16 * l + i], .rdc acq keep, tag,
        (match want.find? (fun x => x.1 == 16 * l + i) with | some x => x.2 | none => 0), check, attr, slot, 0, false⟩) u)) ∧
    (∀ want tag check attr slot, b = .rdn want tag check attr slot → exec (.rdn src dst) s =
      .next (want.foldl (fun (t : State) x => t.arrive ⟨src, [x.1], .rdn, tag, x.2, check, attr, slot, 0, false⟩) u)) ∧
    (∀ w m cb bytes tag check attr slot cov, b = .regw w m cb bytes tag check attr slot cov →
      exec (.regw src dst) s = .next (u.arrive ⟨src, [w], .regw m cb, tag, bytes, check, attr, slot, cov, false⟩)) ∧
    (∀ w m d tag check attr cov, b = .ewr w m d tag check attr cov →
      exec (.ewr src dst) s = .next (u.arrive ⟨src, [w], .ewr m d, tag, m, check, attr, 0, cov, false⟩)) ∧
    (∀ ws ls bytes tag check attr slot, b = .atm ws ls bytes tag check attr slot →
      exec (.atm src dst) s = .next (u.arrive ⟨src, ws, .atm ls, tag, bytes, check, attr, slot, 0, false⟩)) ∧
    (∀ w tag cov, b = .zapw w tag cov → exec (.zapw src dst) s = .next (u.arrive ⟨src, [w], .zapw, tag, 15, false, 0, 0, cov, false⟩)) ∧
    (∀ w m d, b = .wbd w m d → exec (.wbd src dst) s = .next (u.takeWbd src w m d)) ∧
    (∀ ws, b = .loss ws → exec (.loss src dst) s = .next (ws.foldl (fun (t : State) w => t.loseWord src w) u).pump) ∧
    (∀ w ask req, b = .notheld w ask req → exec (.notheld src dst) s = .next (u.takeNotheld src w ask req)) ∧
    (∀ w ask req, b = .race w ask req → exec (.race src dst) s = .next (u.takeRace src w ask req)) ∧
    (∀ w, b = .callbackDone w → exec (.callbackDone src dst) s = .next (u.takeCallbackDone src w)) ∧
    (∀ l, b = .staleAck l → exec (.staleAck src dst) s = .next (u.takeStaleAck src l)) ∧
    (∀ w r, b = .fwd w r → exec (.fwd src dst) s = .next (u.onFwd dst w r)) ∧
    (∀ w bytes num, b = .recallWord w bytes num → exec (.recallWord src dst) s = .next (u.onRecall dst w bytes num)) ∧
    (∀ w bytes, b = .callback w bytes → exec (.callback src dst) s = .next (u.onCallback dst w bytes)) ∧
    (∀ w, b = .drop w → exec (.drop src dst) s = .next (u.onDrop dst w)) ∧
    (∀ w d, b = .grant w d → exec (.grant src dst) s = .next (u.onGrant dst w d)) ∧
    (∀ w d copy tag, b = .data w d copy tag → exec (.data src dst) s =
      .next (if hasL1 dst = true then u.onData dst w d copy tag else u.portAnswer dst b)) ∧
    (∀ olds fl tag, b = .atmData olds fl tag → exec (.data src dst) s =
      .next (if hasL1 dst = true then u.onAtmData dst olds fl tag else u.portAnswer dst b)) ∧
    (∀ w m d, b = .refill w m d → exec (.data src dst) s = .next (u.onRefill dst w m d)) ∧
    (∀ w d r, b = .fwdData w d r → exec (.data src dst) s = .next (u.fwdDone src w r d)) ∧
    (∀ w code tag, b = .fault w code tag → exec (.faultAnswer src dst) s =
      .next (if hasL1 dst = false then u.portAnswer dst b else if tag = 0 then u.refuseStores dst w code else u.onFault dst w code tag)) ∧
    (∀ l, b = .stale l → exec (.stale src dst) s = .next (u.onStale dst l))

/-- Under the condition that each event's rule states, the event acts: a lease that has run out drops its line, a broadcast ends the skew, a
silent time base drops every COPY word, a starved split issues, an arrived split joins its heel, two splits at one place merge, a split
alone in waiting takes its lanes back, the watchdog faults WATCHDOG, register requests are granted in order, and a woken service core takes
its event. -/
def Obligations.CoreEvents : Prop :=
  ∀ (n slot i j : Nat) (s : State),
    (∀ line l, (s.core n).line line = some l → l.usable (s.coreT n) = false →
      exec (.leaseExpiry n line) s = .next (s.updCore n (fun c => c.dropLine line))) ∧
    (∀ off : Int, exec (.timeBaseBroadcast n off) s = .next (s.updCore n (fun c =>
      { (if 256 < (c.skew + off).natAbs ∨ c.lastBcast + 256 < s.time then c.dropCopies (fun _ _ => true) else c) with
        skew := 0, lastBcast := s.time }))) ∧
    ((s.core n).lastBcast + 256 < s.time →
      exec (.broadcastTimeout n) s = .next (s.updCore n (fun c => c.dropCopies (fun _ _ => true)))) ∧
    (64 ≤ n ∧ (s.core n).halted = true ∨ n < 64 ∧ (s.core n).packs = [] → exec (.coreClockGate n) s = .next ((s.giveUp n).updCore n (fun c =>
      { c with gated := c.l1.isEmpty && c.reads.isEmpty && c.ops.isEmpty }))) ∧
    (∀ line, exec (.l1LineError n line) s = .next ((s.l1Error n line).coreUe 3 (64 * line) n)) ∧
    exec (.coreQuarantine n) s = .next (s.quarantine n) ∧
    (∀ unit, (let t := s.count16 (sliceStat unit) 32
      exec (.correctedError 1 unit) s =
        .next (if fld (t.regVal (sliceStat unit)) 32 16 = 0x1000 then t.logEcc 9 0 (t.sliceOwner unit) (unit / 24) (2 * unit) else t))) ∧
    (∀ line, exec (.uncorrectableError 3 n line) s = .next ((s.l1Error n line).coreUe 3 (64 * line) n)) ∧
    (∀ k addr, k = 1 ∨ k = 2 → ∃ t, exec (.uncorrectableError k n addr) s = .next t ∧
      get false t.poison (addr / 8 * 2) = true ∧ get false t.poison (addr / 8 * 2 + 1) = true) ∧
    (∀ p q, look (s.core n).packs slot = some p → 64 ≤ p.fairCount → p.longestReady p.fairSplit = some q →
      let t := s.updCore n (fun c => c.updPack slot (fun p => { p with fairCount := 0 }))
      exec (.fairnessTimer n slot) s = .next { t with agenda := .issue ⟨n, slot, q⟩ :: t.agenda }) ∧
    (∀ v, s.viewAt ⟨n, slot, i⟩ = some v → v.overdue = true →
      exec (.overdueSplit n slot i) s = .next { s with agenda := .issue ⟨n, slot, i⟩ :: s.agenda }) ∧
    (∀ v, s.quietAt ⟨n, slot, i⟩ = some v → v.atHeel = true → v.sp.st = .ready ∨ v.sp.st = .reconv →
      exec (.heelArrival n slot i) s = .next (v.s.setCore n { v.co with
        packs := ins v.co.packs slot ((v.pk.setSplit v.ix (some v.sp)).arrive v.ix v.now) })) ∧
    (∀ v w, s.quietAt ⟨n, slot, i⟩ = some v →
      (v.s.setCore n { v.co with packs := ins v.co.packs slot (v.pk.setSplit v.ix (some v.sp)) }).quietAt ⟨n, slot, j⟩ = some w →
      i ≠ j → v.canIssue = true → v.atHeel = false → v.mustYield = false →
      v.sp.st = .ready → w.sp.st = .ready → v.sp.pc = w.sp.pc → v.sp.heelRec = w.sp.heelRec →
      exec (.splitMeet n slot i j) s = .next (w.s.setCore n { w.co with
        packs := ins w.co.packs slot (((w.pk.setSplit j (some w.sp)).mergeInto i j (max v.now w.now)).pendDec v.sp.heelRec) })) ∧
    (∀ v, s.viewAt ⟨n, slot, i⟩ = some v → v.sp.st = .reconv → v.pk.stop = none → v.pk.allSettled i v.sp.pc = true →
      exec (.forcedReconvergence n slot i) s =
        .next { v.reconverge.close with agenda := .issue ⟨n, slot, i⟩ :: v.reconverge.close.agenda }) ∧
    (∀ v, s.viewAt ⟨n, slot, i⟩ = some v → v.sp.watched = true → v.pk.wd ≠ 0 → v.pk.stop = none → v.pk.ended = false →
      v.sp.waited + 2 ^ (v.pk.wd + 6) * 1000 ≤ s.time → exec (.watchdog n slot i) s = .next (v.raise0 fcWatchdog)) ∧
    (∀ v k w f, s.selectable ⟨n, slot, i⟩ = some v → v.lookIssue = .flaw k w f →
      exec (.instructionFetchFault n slot i) s = .next (w.raise f)) ∧
    exec (.walkReadAnswer i) s = .next (s.walkStep i) ∧
    (∀ f p va pa rest bs t, (s.core n).fetches[i]? = some f → f.fault = none → f.todo = (va, pa) :: rest →
      look (s.core n).packs f.slot = some p → s.clampRoom n f.slot f.split (pa / 64) ≠ .wait →
      ((s.core n).fetches.take i).any (fun g => g.fault.isNone && !g.todo.isEmpty) = false →
      s.rebinding (pa / 4) = false → s.aliased pa (get (0, 0) f.leaves va).1 = false →
      (s.updCore n (fun c => c.dropCopies (fun l _ => l == pa / 64))).tileLine n f.slot (!p.lazyMode) f.entry.record.segments va pa =
        .ok (bs, t) →
      let yes := s.clampRoom n f.slot f.split (pa / 64) == .yes
      let e := f.entry.addLine va (pa / 64) bs yes
      let t := t.bindFrame pa (get (0, 0) f.leaves va).1
      let t := if yes = true then
        { t with clamps := upd [] t.clamps (pa / 64) (fun l => if l.contains n then l else l ++ [n]) } else t
      exec (.tileLineArrival n i) s = .next (t.updCore n (fun c =>
        let c := c.updFetch i (fun f => { f with todo := rest, entry := e })
        if rest.isEmpty = true then { c with stage := c.stage ++ [{ e with users := [c.userOf f] }] } else c))) ∧
    (∀ m rest, (s.core n).mq = m :: rest →
      (∀ p, look (s.core n).packs m.slot = some p → m.running = false → m.staged = true → exec (.matrixExecute n) s = .next
        (s.updCore n (fun c => { c with mq := { m with running := true, out := (m.result p).rows, fl := (m.result p).fl } :: rest }))) ∧
      (m.running = true → exec (.matrixComplete n) s = .next ((s.updCore n (fun c =>
        ({ c with mq := rest } : Core).updPack m.slot (fun (p : Pack) =>
          ((m.out.foldl (fun (p : Pack) x => p.bankAfter ⟨m.seq, x.1, x.2.1, x.2.2, true, 0⟩) p).orFpf m.fl).retireOp m.split m.seq
            m.tok (s.core n).cycle))).reapStage n))) ∧
    (∀ g rest p, (s.core n).grow = g :: rest → look (s.core n).packs g.slot = some p →
      let c : Core := { s.core n with grow := rest }
      (g.n ≤ p.size → exec (.reggrowGrant n) s = .next (s.setCore n (c.grantGrow g (BitVec.ofNat 64 p.size)))) ∧
      (p.size < g.n → g.n - p.size ≤ (s.core n).freeRows →
        exec (.reggrowGrant n) s = .next (s.setCore n ((c.growTo g.slot g.n).grantGrow g (BitVec.ofNat 64 g.n))))) ∧
    (∀ g rest, (s.core n).grow = g :: rest → (s.core n).packs.all (fun e => e.2.growing) = true →
      exec (.registerDeadlock n) s = .next (s.postEvent (n / 2) ⟨3, n % 2, 0, 0, 0, 0⟩)) ∧
    ((s.core (64 + n)).halted = true → (s.core (64 + n)).pendingEvent = true →
      exec (.haltWake n) s = .next (s.setCore (64 + n) { s.core (64 + n) with halted := false, gated := false })) ∧
    (∀ d tok xs k, (s.core (64 + n)).mbwait = some (d, tok) → (s.core (64 + n)).takeEvent = some (xs, k) →
      exec (.mbxrecvWake n) s = .next ((s.setCore (64 + n) { k with mbwait := none }).updCore (64 + n) (fun c => c.updPack 0 (fun p =>
        ((xs.zip (List.range 4)).foldl (fun (p : Pack) e => p.applyAfter 0 (.s (d + BitVec.ofNat 6 e.2) e.1)) p).tokDown 0 tok)))) ∧
    (∀ f p va pa rest, (s.core n).fetches[i]? = some f → f.fault = none → f.todo = (va, pa) :: rest →
      look (s.core n).packs f.slot = some p → s.clampRoom n f.slot f.split (pa / 64) ≠ .wait →
      ((s.core n).fetches.take i).any (fun g => g.fault.isNone && !g.todo.isEmpty) = false →
      s.rebinding (pa / 4) = false → s.aliased pa (get (0, 0) f.leaves va).1 = false → s.treeSound →
      let u := s.updCore n (fun c => c.dropCopies (fun l _ => l == pa / 64))
      (∀ k, k < 16 → u.tileServed n f.slot (!p.lazyMode) (pa / 4 + k) (TileRec.wordBytes f.entry.record.segments va k)) →
      ∃ bs t, u.tileLine n f.slot (!p.lazyMode) f.entry.record.segments va pa = .ok (bs, t) ∧
        (let yes := s.clampRoom n f.slot f.split (pa / 64) == .yes
         let e := f.entry.addLine va (pa / 64) bs yes
         let t := t.bindFrame pa (get (0, 0) f.leaves va).1
         let t := if yes = true then
           { t with clamps := upd [] t.clamps (pa / 64) (fun l => if l.contains n then l else l ++ [n]) } else t
         exec (.tileLineArrival n i) s = .next (t.updCore n (fun c =>
           let c := c.updFetch i (fun f => { f with todo := rest, entry := e })
           if rest.isEmpty = true then { c with stage := c.stage ++ [{ e with users := [c.userOf f] }] } else c))))

/-- Under the condition that its rule states, each of these events acts: a die accepts its oldest offered transfer while it has room for
256, starts and ends chunks in their order, messages and arrivals are delivered, credits return to the pack they name, a READY partition's
distributor places the next workgroup, a launch that is over completes its packet, a round of an engine that is not fenced serves its lanes,
a WAIT past its time limit completes with status 6, and a NOTIFY waits for its function's earlier writes and then writes WRIDX. -/
def Obligations.ExchangeAndQueueEvents : Prop :=
  ∀ (n k : Nat) (s : State),
    (∀ x, (s.xfers.filter (fun x => dieOf x.agent == n)).find? (fun x => x.stage == XStage.offered) = some x →
      ((s.xfers.filter (fun x => dieOf x.agent == n)).filter (fun y => y.stage != XStage.offered)).length < 256 →
      exec (.transferAccept n) s = .next ((s.updXfer x.id (fun y => { y with stage := .queued })).updCore x.agent (fun c =>
        c.updPack x.slot (fun p => p.retireOp x.split x.seq x.tok c.cycle)))) ∧
    (∀ m x, (let t := (List.range 16).foldl (fun (s : State) i => s.enterProgress (16 * n + i)) s
      ((List.range 16).map (fun i => 16 * n + (get 0 t.xturn n + i) % 16)).find? (fun m => t.xfers.any (fun x => x.agent == m && x.startable)) =
        some m →
      ((t.xfers.filter (fun x => x.agent == m && x.startable)).find? (fun x => get 0 t.xlast m < x.id)) = some x →
      exec (.transferChunkStart n) s = .next (t.startChunk x))) ∧
    (∀ x j ready, ((s.xfers.filter (fun x => dieOf x.agent == n && x.page.isNone)).flatMap (fun x => x.live.map (fun e => (x, e))))[k]? =
        some (x, (j, ready)) →
      (x.r.dir = 2 → ready = true → exec (.transferChunkDone n k) s = .next (s.chunkEnd x j)) ∧
      (∀ u t, x.r.dir ≠ 2 → s.moveChunk x j = .ok u t → exec (.transferChunkDone n k) s = .next (t.chunkEnd x j)) ∧
      (∀ va f, x.r.dir ≠ 2 → s.moveChunk x j = .fault va f → exec (.transferChunkDone n k) s = .next (s.xferFault x va f))) ∧
    exec (.messageAppend k) s = .next (s.deliverRemote k true) ∧ exec (.remoteArrival k) s = .next (s.deliverRemote k false) ∧
    (∀ r, s.remotes[k]? = some r →
      (r.held = true → exec (.hubHeldDelivery k) s = .next ((s.deliverRemote k true).deliverRemote k false)) ∧
      (∀ x, r.kind = .reply x → exec (.remoteArrivalReply k) s =
        .next (({ s with remotes := s.remotes.eraseIdx k } : State).updCore r.agent (fun c => c.updPack r.slot (fun p =>
          ((if r.dest = 63 then p else p.deliver false r.split r.seq (.s r.dest) 0 [] [] x).retireOp r.split r.seq r.tok c.cycle)))))) ∧
    (∀ c m w i p ch, s.credits[k]? = some c → s.findWin c.launch c.to_ = some (m, w) →
      (s.core m).slotOf c.launch c.to_ c.idx = some i → look (s.core m).packs i = some p → s.channelFor p c = some ch →
      exec (.creditReturn k) s = .next ((({ s with credits := s.credits.eraseIdx k } : State).updCore m (fun co =>
        co.updPack i (fun p => p.setCredit ch (p.credit ch + c.n)))).wakeCredit m i)) ∧
    (s.partSt n = 3 →
      let t := s.currentFn n
      let d := t.dist n
      d.expired = false → t.fnStopped d.fn = false → t.savedWaiting n d.fn = false →
      exec (.workgroupDispatch n) s = .next (match t.dispatchIn n d.fn d.turns with
        | .done u => u
        | .busy u => u
        | .none => match t.roundOf 96 d.fn with
          | .busy u => u
          | .fault _ => s
          | .ok (turns, u) => match u.dispatchIn n d.fn turns with | .done w => w | .busy w => w | .none => s)) ∧
    exec (.packEnd n k) s = .next (s.packEnd n k) ∧
    (∀ l, look s.launches k = some l → s.launchOver k l = true → l.node = none → look s.launches l.parent = none →
      exec (.launchComplete k) s =
        .next (({ s with
          launches := del s.launches k
          remotes := s.remotes.filter (fun (r : Remote) => r.launch != k)
          credits := s.credits.filter (fun (r : Credit) => r.launch != k) } : State).pktDone l.waiter l.status.1 l.status.2 0)) ∧
    (exec (.engineRound n) s = .next (if (s.regVal bootStat).getLsbD (32 + n) = true then s
      else (((s.settleAll.recheckAll.fillLanes n).openLanes n).serveGroups n).settleAll)) ∧
    (∀ x d bs, s.queue n k = some x → s.desc n k = .ok d → x.pkt = some bs → recNum bs 0 1 = 6 → x.step = 2 → recNum bs 28 4 ≠ 0 →
      x.start + recNum bs 28 4 * 1000 ≤ s.time →
      exec (.waitTimeout n k) s = .next (((s.owe x (s.workCluster n k d.rd) (s.queueSpace n d.proc).1 (s.queueSpace n d.proc).2 6 0
        16).runFins).settleQueue n k)) ∧
    (∀ g, (s.dist n).expired = false → (s.dist n).start + s.sliceNs n ≤ s.time → s.nextFn n (s.dist n).fn = some g →
      (g = (s.dist n).fn → exec (.sliceExpiry n) s =
        .next (s.setDist n { s.dist n with start := s.time, owed := set 0 (s.dist n).owed (s.dist n).fn 0 })) ∧
      (g ≠ (s.dist n).fn → bit (s.regVal (partSched n)) 6 = true →
        exec (.sliceExpiry n) s = .next (s.setDist n { s.dist n with expired := true }))) ∧
    (∀ x, s.queues.find? (fun x => x.lane == some k) = some x → 16 ≤ x.served ∨ x.since + 100000 ≤ s.time →
      s.waitingQueues (s.dist (s.fnPart x.fn)).fn ≠ [] → x.switchable = true →
      exec (.laneRotation k) s = .next (s.leaveLane x.fn x.q true)) ∧
    (∀ x f, s.engfaults[k]? = some x → x.kind = 1 →
      let t : State := { s with engfaults := s.engfaults.eraseIdx k }
      t.engXlate (queueEng engAgent ((t.partOfCluster x.cluster).getD 0) x.asid x.root) x.va (x.reason == 3) = .fault x.va f →
      exec (.engineFaultResume k) s = .next (t.updQueue (x.id / 512) (x.id % 512) (fun y =>
        { y with page := if f.code = fcPageFault then 2 else 0 }))) ∧
    (∀ idx : W32,
      (s.bound n = false → exec (.notify n k idx) s = .next { s with hostout := s.hostout ++ [.unsupported n] }) ∧
      (∀ pa d t, s.bound n = true → s.aperBusy n = false → s.descPa n k = some pa → s.desc n k = .ok d → d.device = false →
        s.writeAt (s.fnPart n) ⟨s.engOf n k, true⟩ (pa + 16) (bytesOf 4 idx.toNat) = .ok t →
        exec (.notify n k idx) s = .next (t.lookAt n k)) ∧
      (s.bound n = true → s.aperBusy n = true →
        exec (.notify n k idx) s = .next { s with aper := s.aper ++ [⟨n, 0, bytesOf 4 idx.toNat, some k⟩] })) ∧
    (s.bound n = false → exec (.cnotify n) s = .next { s with hostout := s.hostout ++ [.unsupported n] }) ∧
    (s.bound n = true → exec (.cnotify n) s = exec (.collectiveRingPoll n) s) ∧
    (∀ x j ready, ((s.xfers.filter (fun x => dieOf x.agent == n && x.page.isNone)).flatMap (fun x => x.live.map (fun e => (x, e))))[k]? =
        some (x, (j, ready)) → ∀ m w, s.findWin x.launch x.wg = some (m, w) →
      let a := (x.chunk j).1
      let b := (x.chunk j).2.1
      let len := (x.chunk j).2.2
      (x.r.dir = 0 → (s.core m).spPoison (w.base + b) len true = false → s.reaches (s.xferEng x) a len false →
        ∃ t, s.engRead (s.xferEng x) a len = .ok (s.engBytes (s.xferEng x) a len) t ∧ exec (.transferChunkDone n k) s =
          .next ((t.updCore m (fun co => co.spStore w b (s.engBytes (s.xferEng x) a len))).chunkEnd x j)) ∧
      (x.r.dir = 1 → (s.core m).spPoison (w.base + a) len false = false →
        let bs := (s.core m).spRead (w.base + a) len
        s.reaches (s.xferEng x) b bs.length true →
        ∃ t, s.engWrite (s.xferEng x) b bs = .ok () t ∧ exec (.transferChunkDone n k) s = .next (t.chunkEnd x j))) ∧
    (∀ (pa : Nat) (idx : W32), s.bound n = true → s.aperBusy n = false → s.descPa n k = some pa → s.reachable (some (s.fnPart n)) pa = true →
      s.reachable (some (s.fnPart n)) (pa + 16) = true → s.restfulAt pa 64 → (qdescOf (s.homeBytes pa 64)).device = false →
      ∃ t, s.writeAt (s.fnPart n) ⟨s.engOf n k, true⟩ (pa + 16) (bytesOf 4 idx.toNat) = .ok t ∧
        exec (.notify n k idx) s = .next (t.lookAt n k)) ∧
    (∀ x bs pa, s.queue n k = some x → s.descPa n k = some pa → s.reachable (some (s.fnPart n)) pa = true → s.restfulAt pa 64 →
      x.pkt = some bs → recNum bs 0 1 = 6 → x.step = 2 → recNum bs 28 4 ≠ 0 → x.start + recNum bs 28 4 * 1000 ≤ s.time →
      let d := qdescOf (s.homeBytes pa 64)
      let sp := s.queueSpace n d.proc
      exec (.waitTimeout n k) s = .next (((s.owe x (s.workCluster n k d.rd) sp.1 sp.2 6 0 16).runFins).settleQueue n k)) ∧
    (∀ x, s.engfaults[k]? = some x → x.kind = 1 →
      s.reaches (queueEng engAgent ((s.partOfCluster x.cluster).getD 0) x.asid x.root) x.va 1 (x.reason == 3) →
      exec (.engineFaultResume k) s = .next (({ s with engfaults := s.engfaults.eraseIdx k } : State).updQueue (x.id / 512) (x.id % 512)
        (fun y => { y with page := 0 })))

/-- Under the condition that its rule states, each of these events acts: aperture requests read, write and update memory and are answered,
host memory completes, a function's reset ends its work, PF_FLR resets the module, owners are enrolled only with presence, a report is
asked for, made and resumed from, activation and migration pass through their states, frames are taken in order, acknowledged or lost,
groups are joined, left and viewed, collectives start and end, and the network and the flash deliver. -/
def Obligations.HostAndPeerEvents : Prop :=
  ∀ (f : Nat) (s : State),
    (∀ off n, s.aper = [] →
      (s.apertureClosed f off = true → exec (.hostApertureRead f off n) s = .next (s.answerHost (.unsupported f))) ∧
      (∀ bs t, s.apertureClosed f off = false → s.engRead (s.apertureEng f kRead) off n = .ok bs t →
        exec (.hostApertureRead f off n) s = .next (t.answerHost (.data f bs)))) ∧
    (∀ off bs, let a : AperWrite := ⟨f, off, bs, none⟩
      let r : State := { s with aper := s.aper ++ [a] }
      (s.apertureClosed f off = true → exec (.hostApertureWrite f off bs) s = .next (s.answerHost (.unsupported f))) ∧
      (s.apertureClosed f off = false → exec (.hostApertureWrite f off bs) s = .next r.drainAper) ∧
      (∀ u v t w, s.apertureClosed f off = false → s.aper = [] → r.engCheck (r.apertureEng f kWrite) off bs.length true = .ok u t →
        t.engWrite (r.apertureEng f kWrite) off bs = .ok v w →
        exec (.hostApertureWrite f off bs) s = .next { w with aper := w.aper.erase a })) ∧
    (∀ off opd cmp u v bs t w x, s.aper = [] → s.apertureClosed f off = false → off % 4 = 0 →
      let q := s.apertureEng f kAtomic
      s.engCheck q off 4 true = .ok u t → t.engRead q off 4 = .ok bs w →
      w.engWrite q off (bytesOf 4 (atomOp ⟨0, .add, .n32, opd, cmp⟩ (BitVec.ofNat 64 (ofBytes bs))).val.toNat) = .ok v x →
      exec (.hostApertureAtomic f off .n32 .add opd cmp) s = .next (x.answerHost (.data f bs))) ∧
    (∀ h rest bs, s.hostq = h :: rest → h.op = .write bs → exec (.hostCompletion true) s =
      .next ((({ s with hostq := rest } : State).setBytes h.pa bs).updCore h.src (fun c =>
        c.updPack h.slot (fun p => { p with hostw := p.hostw - 1 })))) ∧
    (∀ v : W64, (s.bound f = false ∨ s.descBusy f = none ∧ s.anyValid f = false) → f = 0 ∨ s.migSt f = 0 → exec (.fnBindWrite f v) s =
      .next ((s.setMreg (fnBind f) v).setMreg (fnStat f) (putFld (s.mreg 0 (fnStat f)) 16 16 0))) ∧
    (∀ t, 0 < f → f ≤ 384 → s.clearValid f = .ok t → exec (.vfFlr f) s =
      .next (((t.launches.filter (fun e => e.2.fn == f)).map (fun e => e.1)).foldl (fun (t : State) id => t.killLaunch id)
        (let u := t.dropPosted f
         { u with
           queues := u.queues.map (fun (x : QState) => if x.fn == f then x.flushed else x)
           graphs := u.graphs.filter (fun (g : Graph) => g.fn != f)
           posted := u.posted.filter (fun e => e.1 != f)
           aper := u.aper.filter (fun (w : AperWrite) => w.fn != f) }))) ∧
    exec .pfFlr s = .next s.moduleReset ∧
    (∀ who addr n (v : W64), n = 4 ∨ n = 8 → addr % n = 0 →
      exec (.registerWrite who addr n v) s = .next (s.mgmtWrite (partyOf who) addr n v)) ∧
    (s.presence = false → exec (.ownerEnroll f) s = .next (s.enrolled 2) ∧ exec (.ownerRevoke f) s = .next (s.enrolled 2)) ∧
    (s.presence = true → f = 1 ∨ f = 2 → look s.owners f = none → exec (.ownerEnroll f) s =
      .next (({ s with owners := ins s.owners f ((List.range 8).map (fun i => s.regVal (ownHash i))) } : State).enrolled 1)) ∧
    (∀ o, s.presence = true → f = 1 ∨ f = 2 → look s.owners f = some o →
      exec (.ownerRevoke f) s = .next (({ s with owners := del s.owners f } : State).enrolled 1)) ∧
    (∀ v : W64, fld (s.mreg 0 (attStat f)) 0 2 ≠ 1 → exec (.attestationRequest f v) s = .next { (s.setMreg (attStat f) 1) with
      attests := (s.setMreg (attStat f) 1).attests ++ [⟨f, attBuf v⟩] }) ∧
    (∀ (v : W64) (b : Nat), b < 64 → (attBuf v).getLsbD b = (if b < 7 then false else if b < 57 then v.getLsbD b else v.getLsbD 56)) ∧
    (∀ a nonce r t u w, s.attests.find? (fun (a : Attest) => a.fn == f) = some a →
      s.engCheck (s.apertureEng f kRead) (a.buf.toNat + 128) 1024 true = .ok r t →
      t.engRead (s.apertureEng f kRead) a.buf.toNat 64 = .ok nonce u →
      u.engWrite { s.apertureEng f kRead with kind := kWrite } (a.buf.toNat + 128)
        (u.report f nonce ++ bytesOf 512 (Config.reportSignature (u.report f nonce))) = .ok () w →
      let x : State := { (w.setMreg (attStat f) 2) with attests := w.attests.filter (fun (b : Attest) => b.fn != f) }
      (x.fnHeld f = false → exec (.attestationDone f) s = .next (x.interrupt f 513)) ∧
      (x.fnHeld f = true → x.reported.contains f = false →
        exec (.attestationDone f) s = .next (({ x with reported := x.reported ++ [f] } : State).interrupt f 513))) ∧
    (s.reported.contains f = true → exec (.attResume f) s = .next { (s.setMreg (fnStat f) (putFld (s.mreg 0 (fnStat f)) 9 1 0)) with
      reported := s.reported.filter (fun g => g != f) }) ∧
    (s.activating = false → (List.range 384).any (fun i => s.migSt (i + 1) != 0) = false → s.imageOk (s.imageBytes stagingBase) = true →
      exec .activationGo s = .next ((s.setAct 1).preemptAll 0 (fun _ => true))) ∧
    (s.activating = true → (List.range 64).all (fun n => (s.core n).packs.isEmpty) = true →
      s.queues.all (fun (x : QState) => x.lane.isNone) = true →
      (s.copied = none →
        let t := s.dropSessions.holdAll
        let t := ((List.range 32).filter (fun p => t.enabled p)).foldl (fun (t : State) p => t.rotateKeys p) t
        exec .activationDone s = .next { t.flashPut 0 (List.replicate 1024 0) with copied := some 1024 }) ∧
      (∀ k, s.copied = some k →
        let img := s.imageBytes stagingBase
        (k < img.length → exec .activationDone s = .next { s.flashPut k ((img.drop k).take 4096) with copied := some (k + 4096) }) ∧
        (img.length ≤ k →
          let t := ({ s.flashPut 0 (img.take 1024) with copied := none } : State).blow img
          let t := ((List.range 32).filter (fun n => (t.core (64 + n)).started)).foldl (fun (t : State) n => t.startShard n img) t
          exec .activationDone s = .next ((t.setAct 2).interrupt 0 514)))) ∧
    exec (.migrationGo f) s = .next (s.migrate f false) ∧ exec (.migrationForce f) s = .next (s.migrate f true) ∧
    (s.migSt f = 1 → s.queues.any (fun (x : QState) => x.fn == f && x.lane.isSome) = false →
      (∀ n, n < 64 → ∀ e ∈ (s.core n).packs, ∀ l, look s.launches e.2.launch = some l → l.fn ≠ f) →
      exec (.migrationQuiesced f) s = .next (s.setMig f 2 0)) ∧
    (s.migSt f ≠ 0 → exec (.migrationDone f) s =
      .next (({ s with forced := s.forced.filter (fun g => g != f) } : State).setMig f 0 0)) ∧
    (∀ st reason, let t := (s.putReg (migCtl f) 8 2 st).putReg (migCtl f) 16 8 reason
      s.setMig f st reason = if s.migSt f = st then t else t.interrupt f 515) ∧
    (∀ src chan seq, s.fromMember f src = true → exec (.brevorAck f src chan seq) s = .next { s with
        outgoing := s.outgoing.filter (fun (x : Frame) => !(x.g == f && x.dst == src && x.chan == chan && decide (x.seq ≤ seq))) } ∧
      exec (.brevorNak f src chan seq) s = .next (({ s with
        outgoing := s.outgoing.filter (fun (x : Frame) => !(x.g == f && x.dst == src && x.chan == chan && decide (x.seq < seq))) } : State).loseWorn f src
          chan)) ∧
    (∀ dst chan x, s.outgoing.find? (fun (x : Frame) => x.g == f && x.dst == dst && x.chan == chan) = some x → x.sent + 20000 ≤ s.time →
      exec (.retransmitTimeout f dst chan) s = .next (s.loseWorn f dst chan)) ∧
    (∀ x src chan view seq coll off bs ok, look s.groups f = some x → s.brevorPort x.part = true →
      (s.frameGood f src view ok = false ∨ 8192 < bs.length →
        exec (.brevorData f src chan view seq coll off bs ok) s = .next (s.dropFrame f)) ∧
      (∀ t, s.frameGood f src view ok = true → bs.length ≤ 8192 → s.inOrder f src chan seq view = (false, t) →
        exec (.brevorData f src chan view seq coll off bs ok) s = .next t) ∧
      (∀ t c, s.frameGood f src view ok = true → bs.length ≤ 8192 → s.inOrder f src chan seq view = (true, t) →
        t.colls.find? (fun (c : Coll) => c.slot == f && c.coll == coll && c.view == view && c.started) = some c →
        exec (.brevorData f src chan view seq coll off bs ok) s =
          .next (t.updColl c.id (fun c => { c with got := c.got ++ [(x.rank src, off, bs)] })))) ∧
    (∀ src chan view seq arg ok, exec (.brevorControl f src chan view seq ctlJoin arg ok) s = .next (s.sponsor f src arg) ∧
      (∀ x t, look s.groups f = some x → s.brevorPort x.part = true → s.frameGood f src view ok = true →
        s.beforeView f src ctlLeave arg x = none ∧
        (s.inOrder f src chan seq view = (true, t) → exec (.brevorControl f src chan view seq ctlLeave arg ok) s = .next (t.askLeave f arg)))) ∧
    (∀ v : W64, look s.groups f = none → s.me ≠ 0 →
      let x := Group.fresh (fld v 38 8) (fld v 22 16) s.next
      (fld v 2 20 = s.me → exec (.tgJoin f v) s = .next { s with
        next := s.next + 1, groups := ins s.groups f { x with joined := true, view := 1, members := [s.me] } }) ∧
      (fld v 2 20 ≠ s.me → exec (.tgJoin f v) s = .next (({ s with
        next := s.next + 1, groups := ins s.groups f { x with asked := some (fld v 2 20, fld v 22 16) } } : State).putFrame f (fld v 2 20) 0 0
          0 frControl ctlJoin (fld v 22 16)))) ∧
    (∀ (v : W64) x, look s.groups f = some x → x.joined = true → x.members ≠ [fld v 2 20] →
      exec (.tgLeave f v) s = .next (s.askLeave f (fld v 2 20))) ∧
    (∀ x view members, look s.groups f = some x → s.mayInstall x view members = true → members.contains s.me = true →
      let y : Group := { x.settled with joined := true, view := view, members := members, key := (x.newKey.map (fun k => k.1)).getD s.next }
      let t := ({ s with next := s.next + 1 } : State).abortSlot f x.view
      exec (.viewInstall f view members) s = .next (({ t with
        groups := ins t.groups f y
        outgoing := t.outgoing.filter (fun (e : Frame) => e.g != f)
        early := t.early.filter (fun (e : Frame) => e.g != f) } : State).postView f y false)) ∧
    (∀ page rg rd asid root t u w bs, s.vcpPage f = some page → s.bound f = true → s.fnStopped f = false →
      regCb (s.reg ((page + 0x8400 + 16) / 4)) = false → s.engfaults.any (fun x => x.kind == 6 && x.id == f) = false →
      s.colls.any (fun (c : Coll) => c.fn == f && !c.started && c.done.isNone) = false → s.readAt (s.fnPart f) ⟨collAgent, true⟩ (page + 0x8400) 64 = .ok (rg, t) → recNum rg 10 1 % 2 = 1 → 4 ≤ recNum rg 8 1 → recNum rg 8 1 ≤ 12 →
      rd = recNum rg 12 4 → rd ≠ recNum rg 16 4 → t.queueSpace f (recNum rg 9 1 % 64) = (asid, root) →
      t.engRead ⟨collAgent, some (s.fnPart f), asid, root, kTransfer, true⟩ (recNum rg 0 8 + 64 * (rd % 2 ^ recNum rg 8 1)) 64 = .ok bs u →
      u.writeAt (s.fnPart f) ⟨collAgent, true⟩ (page + 0x8400 + 12) (bytesOf 4 ((rd + 1) % 2 ^ 32)) = .ok w →
      exec (.collectiveRingPoll f) s = .next (w.takeColl f asid root bs)) ∧
    (∀ c x, s.colls[f]? = some c → look s.groups c.slot = some x →
      (∀ st code, c.done = some (st, code) → exec (.collectiveComplete f) s = .next (s.endColl c st code)) ∧
      (c.done = none → (s.regVal bootStat).getLsbD 44 = true → exec (.collectiveComplete f) s = .next (s.endColl c 3 3)) ∧
      (c.done = none → (s.regVal bootStat).getLsbD 44 = false → (x.joined = false ∨ x.view ≠ c.view) →
        exec (.collectiveComplete f) s = .next (s.abortColl c)) ∧
      (c.done = none → (s.regVal bootStat).getLsbD 44 = false → x.joined = true → x.view = c.view → c.started = false →
        exec (.collectiveComplete f) s = .next (s.startColl c))) ∧
    (∀ sock bs, f < 8 → bs.length ≤ 9216 → bit (s.regVal bootStat) (36 + f) = false → bit (s.regVal (portCfg f)) 9 = true →
      exec (.ethernetFrameReceive f 0 sock bs) s = .next { s with socks := s.socks.map (fun (k : Sock) =>
        if k.id == sock && k.part == fld (s.regVal (portCfg f)) 0 8 && k.udp == false then { k with rx := k.rx ++ bs } else k) }) ∧
    (∀ x, s.flashq[f]? = some x → exec (.nvmeCompletion f false) s =
      .next (({ s with
        flashq := s.flashq.eraseIdx f
        jobs := s.jobs.map (fun (j : Job) => if j.cluster == x.cluster && j.entry == x.entry && j.lanes.contains x.lane then
          { j with res := j.res ++ [(x.lane, 0, 5)] } else j) } : State).deliverJobs x.cluster)) ∧
    (∀ off n, s.aper = [] → s.apertureClosed f off = false → s.reaches (s.apertureEng f kRead) off n false →
      ∃ t, exec (.hostApertureRead f off n) s = .next (t.answerHost (.data f (s.engBytes (s.apertureEng f kRead) off n))) ∧
        s.engRead (s.apertureEng f kRead) off n = .ok (s.engBytes (s.apertureEng f kRead) off n) t) ∧
    (∀ off bs, let a : AperWrite := ⟨f, off, bs, none⟩
      let r : State := { s with aper := s.aper ++ [a] }
      s.apertureClosed f off = false → s.aper = [] → s.reaches (s.apertureEng f kWrite) off bs.length true →
      ∃ t w, r.engCheck (r.apertureEng f kWrite) off bs.length true = .ok () t ∧ t.engWrite (r.apertureEng f kWrite) off bs = .ok () w ∧
        exec (.hostApertureWrite f off bs) s = .next { w with aper := w.aper.erase a }) ∧
    (∀ off ty op (opd cmp : W64), s.aper = [] → s.apertureClosed f off = false →
      op = AOp.add ∨ op = .xchg ∨ op = .cas → tyBytes ty = 4 ∨ tyBytes ty = 8 → off % tyBytes ty = 0 →
      let q := s.apertureEng f kAtomic
      let old := s.engBytes q off (tyBytes ty)
      s.reaches q off (tyBytes ty) false → s.reaches q off (tyBytes ty) true →
      ∃ t w x, s.engCheck q off (tyBytes ty) true = .ok () t ∧ t.engRead q off (tyBytes ty) = .ok old w ∧
        w.engWrite q off (bytesOf (tyBytes ty) (atomOp ⟨0, op, ty, opd, cmp⟩ (BitVec.ofNat 64 (ofBytes old))).val.toNat) = .ok () x ∧
        exec (.hostApertureAtomic f off ty op opd cmp) s = .next (x.answerHost (.data f old))) ∧
    (0 < f → f ≤ 384 → (∀ page ∈ s.vcpPage f, s.restfulAt page 32768) → ∃ t, s.clearValid f = .ok t ∧
      exec (.vfFlr f) s = .next (((t.launches.filter (fun e => e.2.fn == f)).map (fun e => e.1)).foldl (fun (t : State) id => t.killLaunch id)
        (let u := t.dropPosted f
         { u with
           queues := u.queues.map (fun (x : QState) => if x.fn == f then x.flushed else x)
           graphs := u.graphs.filter (fun (g : Graph) => g.fn != f)
           posted := u.posted.filter (fun e => e.1 != f)
           aper := u.aper.filter (fun (w : AperWrite) => w.fn != f) }))) ∧
    (∀ a, s.attests.find? (fun (a : Attest) => a.fn == f) = some a →
      let q := s.apertureEng f kRead
      s.reaches q (a.buf.toNat + 128) 1024 true → s.reaches q a.buf.toNat 64 false →
      s.reaches { q with kind := kWrite } (a.buf.toNat + 128) 1024 true →
      ∃ t u w, s.engCheck q (a.buf.toNat + 128) 1024 true = .ok () t ∧
        t.engRead q a.buf.toNat 64 = .ok (s.engBytes q a.buf.toNat 64) u ∧
        (let r := u.report f (s.engBytes q a.buf.toNat 64)
         u.engWrite { q with kind := kWrite } (a.buf.toNat + 128) (r ++ bytesOf 512 (Config.reportSignature r)) = .ok () w) ∧
        (let x : State := { (w.setMreg (attStat f) 2) with attests := w.attests.filter (fun (b : Attest) => b.fn != f) }
         (s.fnHeld f = false ∨ s.reported.contains f = true → exec (.attestationDone f) s = .next (x.interrupt f 513)) ∧
         (s.fnHeld f = true → s.reported.contains f = false →
           exec (.attestationDone f) s = .next (({ x with reported := x.reported ++ [f] } : State).interrupt f 513)))) ∧
    (∀ page, s.vcpPage f = some page → s.bound f = true → s.fnStopped f = false →
      s.reachable (some (s.fnPart f)) (page + 0x8400) = true → s.reachable (some (s.fnPart f)) (page + 0x8400 + 12) = true →
      s.restfulAt (page + 0x8400) 64 →
      let rg := s.homeBytes (page + 0x8400) 64
      let rd := recNum rg 12 4
      let sp := s.queueSpace f (recNum rg 9 1 % 64)
      let q : Eng := ⟨collAgent, some (s.fnPart f), sp.1, sp.2, kTransfer, true⟩
      let va := recNum rg 0 8 + 64 * (rd % 2 ^ recNum rg 8 1)
      s.engfaults.any (fun x => x.kind == 6 && x.id == f) = false → s.colls.any (fun (c : Coll) => c.fn == f && !c.started && c.done.isNone) = false →
      recNum rg 10 1 % 2 = 1 → 4 ≤ recNum rg 8 1 → recNum rg 8 1 ≤ 12 → rd ≠ recNum rg 16 4 → s.reaches q va 64 false →
      ∃ t u w, s.readAt (s.fnPart f) ⟨collAgent, true⟩ (page + 0x8400) 64 = .ok (rg, t) ∧
        t.engRead q va 64 = .ok (s.engBytes q va 64) u ∧
        u.writeAt (s.fnPart f) ⟨collAgent, true⟩ (page + 0x8400 + 12) (bytesOf 4 ((rd + 1) % 2 ^ 32)) = .ok w ∧
        exec (.collectiveRingPoll f) s = .next (w.takeColl f sp.1 sp.2 (s.engBytes q va 64)) ∧
        exec (.cnotify f) s = .next (w.takeColl f sp.1 sp.2 (s.engBytes q va 64)))

/-- Under the condition that its rule states, each of these events acts: enabling a partition takes its slices, keys and starts the scrub,
the scrub and the metadata pass end slice by slice, disabling and resetting destroy the keys, a rebind starts and ends, bring-up passes
through its phases in order, the limits of power and temperature set the levels, and a thermal trip or a loss of power resets the module. -/
def Obligations.PartitionAndBootEvents : Prop :=
  ∀ (p : Nat) (s : State),
    (s.partSt p = 0 → s.enabled p = false → fld (s.regVal bootStat) 0 3 ≠ 7 →
      (∀ e, s.enableFlaw p = some e → exec (.partitionEnable p) s = .next (s.putReg (partBase p + 0x30) 8 8 e)) ∧
      (s.enableFlaw p = none →
        let t := (s.putReg (partBase p) 0 1 1).putReg (partBase p + 0x30) 32 16 0
        let t := (t.partSlices p).foldl (fun (t : State) sl => t.putReg (sliceStat sl) 8 8 p) t
        exec (.partitionEnable p) s = .next ((t.newKeys p).startScrub p))) ∧
    (∀ sl, s.sliceOwner sl = some p → s.sliceBusy sl = true → s.clean sl = false → s.partSt p = 1 ∨ s.partSt p = 5 →
      let t : State := { s with
        mem := keep (fun a => !(decide (sl * 2 ^ 33 ≤ a) && decide (a < sl * 2 ^ 33 + 2 ^ 33))) s.mem, veils := del s.veils sl }
      let t := (((t.wipeMarks sl).stopSlice sl 8192).setClean sl true).pendDown p
      exec (.sliceScrubDone sl) s = .next (if t.partSt p = 1 ∧ t.pend p = 0 then t.startKeying p else t)) ∧
    (∀ sl, s.sliceOwner sl = some p → s.sliceBusy sl = true → s.partSt p = 2 →
      let t : State := { ((s.freshTree p).wipeMarks sl) with poison := s.poison }
      exec (.metadataInitDone sl) s = .next (((if t.clean sl then t else t.veilSlice sl).stopSlice sl 1024).pendDown p)) ∧
    (s.partSt p = 2 → (s.partSlices p).all (fun sl => !s.sliceBusy sl) = true → exec (.partitionKeyingDone p) s =
      .next ((s.partSlices p).foldl (fun (t : State) sl => t.setClean sl false) (((s.loadKeys p).setPend p 0).setSt p 3))) ∧
    (s.partSt p = 3 →
      (let t := ((s.wipePartition p).newKeys p).putReg (partBase p) 0 1 0
       exec (.partitionDisable p) s = .next ((((t.partSlices p).foldl (fun (t : State) x => (t.setClean x false).startSlice x) t).setSt p 5).setPend p
        (t.partSlices p).length)) ∧
      (let t := (s.wipePartition p).newKeys p
       let u := (t.partSlices p).foldl (fun (t : State) sl => (t.setClean sl false).wipeMarks sl) t
       exec (.partitionReset p) s =
        .next ((u.freshTree p).setSt p 4))) ∧
    (s.partSt p = 4 → exec (.partitionResetDone p) s = .next (s.startScrub p)) ∧
    (s.partSt p = 5 → s.pend p = 0 → exec (.partitionReleaseDone p) s =
      .next (((s.ownSlices p).foldl (fun (t : State) sl => t.freeSlice sl) s).setSt p 0)) ∧
    (∀ v : W64, exec (.frameRebind p v) s = .next (s.rebindStart p (fld v 16 32) (fld v 0 2))) ∧
    exec .frameRebindDone s = .next s.rebindEnd ∧
    (s.phase = 0 → exec .powerGood s = .next (((List.range 96).foldl (fun (t : State) sl => t.setClean sl false) s).setPhase 1)) ∧
    (s.phase = 1 → (s.recoveryStrap = true ∨ s.imageOk (s.imageBytes 0) = false → exec .verifyDone s = .next (s.setPhase 6)) ∧
      (s.recoveryStrap = false → s.imageOk (s.imageBytes 0) = true → exec .verifyDone s = .next ((s.blow (s.imageBytes 0)).setPhase 2))) ∧
    (s.phase = 2 → exec .hubBringupDone s = .next (((List.range 4).foldl (fun (t : State) d => t.startTest (8 * d))
      ((List.range 96).foldl (fun (t : State) sl => t.setClean sl false) s)).setPhase 3)) ∧
    (s.phase = 3 ∨ s.phase = 4 → p < 32 → s.clusterSt p = 1 → s.tested.contains p = false →
      let t : State := { s with tested := s.tested ++ [p] }
      (t.clusterSt p ≠ 3 → t.dieShard (p / 8) = none → exec (.clusterBistDone p []) s =
        .next ((((t.startShard p (t.imageBytes 0)).putReg (cluStat p) 0 2 2).nextTest p).bootAdvance)) ∧
      (t.dieShard (p / 8) ≠ none → exec (.clusterBistDone p []) s = .next ((t.nextTest p).bootAdvance))) ∧
    (∀ v : W64, let n := fld v 0 5
      s.clusterSt n ≠ 3 → (s.core (64 + n)).started = false → s.tested.contains n = true →
      exec (.scStart p v) s = .next (s.startShard n (s.imageBytes 0))) ∧
    (s.phase = 4 → exec .fullRateChange s = .next ((List.range 4).foldl (fun (t : State) d => t.setLevel d) (s.fullRateScrubs.setPhase 5))) ∧
    (∀ image, s.phase = 6 → s.imageOk image = true → exec (.recoveryImageLoad image) s = .next (s.flashPut 0 image).moduleReset) ∧
    (∀ (sample avg : Nat) (temps : List (Nat × Nat)),
      let r := levelStep s.time (decide (fld (s.regVal pwrLim) 16 12 < sample) || decide (fld (s.regVal pwrLim) 0 12 < avg))
        (decide (avg + 50 < fld (s.regVal pwrLim) 0 12)) (fld (s.regVal pwrStat) 12 4) (get 0 s.cool 0)
      let t : State := { s with cool := set 0 s.cool 0 r.2 }
      let t := (t.putReg pwrStat 0 12 (min 4095 avg)).putReg pwrStat 12 4 r.1
      let t := ((temps.take 4).zipIdx).foldl (fun (t : State) e => t.dieTick e.2 e.1.1 e.1.2) t
      let t := (List.range 4).foldl (fun (t : State) d => t.setLevel d) t
      let hot := (List.range 4).any (fun d => fld (t.regVal (diePwr d)) 8 4 != 0)
      let u := if hot = true ∧ t.phase = 5 then t.count16 pwrStat 16 else t
      exec (.powerControlTick sample avg temps) s = .next ((u.putReg pwrStat 32 1 (b2n (r.1 != 0))).putReg pwrStat 33 1
        (b2n ((List.range 4).any (fun d => fld (u.regVal (diePwr d)) 12 4 != 0))))) ∧
    exec .thermalTrip s = .next (s.moduleReset.putReg bootStat 3 1 1) ∧
    exec .powerLoss s = .next (s.moduleReset.putReg bootStat 3 1 0)

end
end

