-- ==== Sys2Proof/Laws/Sparse.lean ====
section
/-! SUPPORT. The laws of the sparse tables: a read after a write, and the canonical form that every write keeps. -/

namespace Sys2Proof.Machine

variable {α : Type}

theorem get_ins (d : α) (m : SMap α) (i j : Nat) (v : α) (h : i ≠ j) : get d (ins m i v) j = get d m j := by
  induction m with
  | nil => simp [ins, get, Ne.symm h]
  | cons e m ih =>
    obtain ⟨k, w⟩ := e
    unfold ins
    split
    · simp [get, Ne.symm h]
    · split
      · subst_vars; simp [get, Ne.symm h]
      · simp [get, ih]

theorem get_ins_self (d : α) (m : SMap α) (i : Nat) (v : α) : get d (ins m i v) i = v := by
  induction m with
  | nil => simp [ins, get]
  | cons e m ih =>
    obtain ⟨k, w⟩ := e
    unfold ins
    split
    · simp [get]
    · split
      · subst_vars; simp [get]
      · simp [get, ih]; omega

theorem get_filter_ne (d : α) (m : SMap α) (i j : Nat) (h : i ≠ j) : get d (del m i) j = get d m j := by
  induction m with
  | nil => rfl
  | cons e m ih =>
    obtain ⟨k, w⟩ := e
    by_cases hk : k = i
    · subst hk; simp [del, get, Ne.symm h] at ih ⊢; exact ih
    · simp only [del, List.filter_cons, bne_iff_ne, ne_eq, hk, not_false_eq_true, if_true, get] at ih ⊢
      rw [ih]

theorem get_del_self (d : α) (m : SMap α) (i : Nat) : get d (del m i) i = d := by
  induction m with
  | nil => rfl
  | cons e m ih =>
    obtain ⟨k, w⟩ := e
    by_cases hk : k = i
    · subst hk; simp [del] at ih ⊢; exact ih
    · simp only [del, List.filter_cons, bne_iff_ne, ne_eq, hk, not_false_eq_true, if_true, get, Ne.symm (a := k) hk, if_false] at ih ⊢
      rw [ih]

/-- A read after a write to the same key gives the value written. -/
@[simp] theorem get_set_self [DecidableEq α] (d : α) (m : SMap α) (i : Nat) (v : α) : get d (set d m i v) i = v := by
  unfold set
  split
  · subst_vars; exact get_del_self _ m i
  · exact get_ins_self d m i v

/-- A write leaves every other key alone. -/
theorem get_set_ne [DecidableEq α] (d : α) (m : SMap α) (i j : Nat) (v : α) (h : i ≠ j) :
    get d (set d m i v) j = get d m j := by
  unfold set
  split
  · exact get_filter_ne d m i j h
  · exact get_ins d m i j v h

theorem get_set [DecidableEq α] (d : α) (m : SMap α) (i j : Nat) (v : α) :
    get d (set d m i v) j = if i = j then v else get d m j := by
  split
  · subst_vars; simp
  · rename_i h; exact get_set_ne d m i j v h

@[simp] theorem look_ins_self (m : SMap α) (i : Nat) (v : α) : look (ins m i v) i = some v := by
  induction m with
  | nil => simp [ins, look]
  | cons e m ih =>
    obtain ⟨k, w⟩ := e
    unfold ins
    split
    · simp [look]
    · split
      · subst_vars; simp [look]
      · simp [look, ih]; omega

theorem look_ins_ne (m : SMap α) (i j : Nat) (v : α) (h : i ≠ j) : look (ins m i v) j = look m j := by
  induction m with
  | nil => simp [ins, look, Ne.symm h]
  | cons e m ih =>
    obtain ⟨k, w⟩ := e
    unfold ins
    split
    · simp [look, Ne.symm h]
    · split
      · subst_vars; simp [look, Ne.symm h]
      · simp [look, ih]

theorem get_eq_look (d : α) (m : SMap α) (i : Nat) : get d m i = (look m i).getD d := by
  induction m with
  | nil => rfl
  | cons e m ih =>
    obtain ⟨k, w⟩ := e
    by_cases h : i = k <;> simp [get, look, h, ih]

/-! ### The canonical form -/

theorem canonAbove_weaken [DecidableEq α] (d : α) (m : SMap α) (lo lo' : Option Nat)
    (h : canonAbove d lo m = true) (hl : ∀ l', lo' = some l' → ∃ l, lo = some l ∧ l' ≤ l) : canonAbove d lo' m = true := by
  cases m with
  | nil => rfl
  | cons e m =>
    obtain ⟨k, v⟩ := e
    simp only [canonAbove, Bool.and_eq_true] at h ⊢
    obtain ⟨⟨h1, h2⟩, h3⟩ := h
    refine ⟨⟨?_, h2⟩, h3⟩
    cases lo' with
    | none => rfl
    | some l' =>
      obtain ⟨l, rfl, hle⟩ := hl l' rfl
      simp only [decide_eq_true_eq] at h1 ⊢
      omega

theorem canonAbove_ins [DecidableEq α] (d : α) (m : SMap α) (lo : Option Nat) (i : Nat) (v : α)
    (h : canonAbove d lo m = true) (hv : v ≠ d) (hi : ∀ l, lo = some l → l < i) : canonAbove d lo (ins m i v) = true := by
  induction m generalizing lo with
  | nil => cases lo <;> simp_all [ins, canonAbove]
  | cons e m ih =>
    obtain ⟨k, w⟩ := e
    simp only [canonAbove, Bool.and_eq_true] at h
    obtain ⟨⟨h1, h2⟩, h3⟩ := h
    unfold ins
    split
    · rename_i hlt
      simp only [canonAbove, Bool.and_eq_true, decide_eq_true_eq]
      exact ⟨⟨by cases lo <;> simp_all, hv⟩, ⟨hlt, by simpa using h2⟩, h3⟩
    · split
      · subst_vars
        simp only [canonAbove, Bool.and_eq_true, decide_eq_true_eq]
        exact ⟨⟨h1, hv⟩, h3⟩
      · simp only [canonAbove, Bool.and_eq_true]
        exact ⟨⟨h1, h2⟩, ih (some k) h3 (by intro l hl; cases hl; omega)⟩

theorem canonAbove_filter [DecidableEq α] (d : α) (m : SMap α) (lo : Option Nat) (p : Nat × α → Bool)
    (h : canonAbove d lo m = true) : canonAbove d lo (m.filter p) = true := by
  induction m generalizing lo with
  | nil => rfl
  | cons e m ih =>
    obtain ⟨k, w⟩ := e
    simp only [canonAbove, Bool.and_eq_true] at h
    obtain ⟨⟨h1, h2⟩, h3⟩ := h
    rw [List.filter_cons]
    split
    · simp only [canonAbove, Bool.and_eq_true]
      exact ⟨⟨h1, h2⟩, ih _ h3⟩
    · apply ih
      apply canonAbove_weaken d m (some k) lo h3
      intro l' hl
      subst hl
      simp only [decide_eq_true_eq] at h1
      exact ⟨k, rfl, by omega⟩

/-- A write keeps the canonical form. -/
theorem canon_set [DecidableEq α] (d : α) (m : SMap α) (i : Nat) (v : α) (h : canon d m = true) :
    canon d (set d m i v) = true := by
  unfold set
  split
  · exact canonAbove_filter d m none _ h
  · rename_i hv
    exact canonAbove_ins d m none i v h hv (by simp)

theorem canon_keep [DecidableEq α] (d : α) (m : SMap α) (p : Nat → Bool) (h : canon d m = true) :
    canon d (keep p m) = true := canonAbove_filter d m none _ h

@[simp] theorem canon_nil [DecidableEq α] (d : α) : canon d ([] : SMap α) = true := rfl

theorem get_below [DecidableEq α] (d : α) (m : SMap α) (k i : Nat) (h : canonAbove d (some k) m = true) (hi : i ≤ k) :
    get d m i = d := by
  induction m generalizing k with
  | nil => rfl
  | cons e m ih =>
    obtain ⟨k', w⟩ := e
    simp only [canonAbove, Bool.and_eq_true, decide_eq_true_eq] at h
    obtain ⟨⟨h1, -⟩, h3⟩ := h
    have : i ≠ k' := by omega
    simp only [get, this, if_false]
    exact ih k' h3 (by omega)

/-- Two canonical tables that read alike are equal. -/
theorem canon_ext [DecidableEq α] (d : α) (m n : SMap α) (lo : Option Nat) (hm : canonAbove d lo m = true)
    (hn : canonAbove d lo n = true) (h : ∀ i, get d m i = get d n i) : m = n := by
  induction m generalizing n lo with
  | nil =>
    cases n with
    | nil => rfl
    | cons e n =>
      obtain ⟨k, v⟩ := e
      have h1 := h k
      simp only [canonAbove, Bool.and_eq_true, decide_eq_true_eq] at hn
      simp [get] at h1
      exact absurd h1.symm hn.1.2
  | cons e m ih =>
    obtain ⟨k, v⟩ := e
    have hm' := hm
    simp only [canonAbove, Bool.and_eq_true, decide_eq_true_eq] at hm
    cases n with
    | nil =>
      have h1 := h k
      simp [get] at h1
      exact absurd h1 hm.1.2
    | cons e' n =>
      obtain ⟨k', v'⟩ := e'
      simp only [canonAbove, Bool.and_eq_true, decide_eq_true_eq] at hn
      have hk : k = k' := by
        rcases Nat.lt_trichotomy k k' with hlt | heq | hgt
        · have h1 := h k
          have h2 : get d n k = d := get_below d n k' k hn.2 (by omega)
          have h3 : k ≠ k' := by omega
          simp [get, h3, h2] at h1
          exact absurd h1 hm.1.2
        · exact heq
        · have h1 := h k'
          have h2 : get d m k' = d := get_below d m k k' hm.2 (by omega)
          have h3 : k' ≠ k := by omega
          simp [get, h3, h2] at h1
          exact absurd h1.symm hn.1.2
      subst hk
      have hv : v = v' := by have h1 := h k; simpa [get] using h1
      subst hv
      congr 1
      apply ih n (some k) hm.2 hn.2
      intro i
      by_cases hi : i = k
      · subst hi; rw [get_below d m i i hm.2 (le_refl _), get_below d n i i hn.2 (le_refl _)]
      · have h1 := h i
        simpa [get, hi] using h1

theorem insOrder_perm (le : α → α → Bool) (x : α) (l : List α) : (insOrder le x l).Perm (x :: l) := by
  induction l with
  | nil => exact .refl _
  | cons y ys ih =>
    unfold insOrder
    split
    · exact .refl _
    · exact (ih.cons y).trans (.swap x y ys)

/-- Putting a list in order neither adds nor drops an element. -/
theorem sortBy_perm (le : α → α → Bool) (l : List α) : (sortBy le l).Perm l := by
  induction l with
  | nil => exact .refl _
  | cons x l ih => exact (insOrder_perm le x _).trans (ih.cons x)

end Sys2Proof.Machine
end

