-- ==== Sys2Proof/Laws/State.lean ====
section
/-! SUPPORT. What each update of the state leaves of each field: one lemma for each field, so that no proof unfolds a record
update. -/

namespace Sys2Proof.Machine

/-! ### A byte of memory -/

@[simp] theorem State.setByte_time (s : State) (a : Nat) (b : Byte) : (s.setByte a b).time = s.time := rfl
@[simp] theorem State.setByte_agenda (s : State) (a : Nat) (b : Byte) : (s.setByte a b).agenda = s.agenda := rfl
@[simp] theorem State.setByte_cur (s : State) (a : Nat) (b : Byte) : (s.setByte a b).cur = s.cur := rfl
@[simp] theorem State.setByte_free (s : State) (a : Nat) (b : Byte) : (s.setByte a b).free = s.free := rfl
@[simp] theorem State.setByte_next (s : State) (a : Nat) (b : Byte) : (s.setByte a b).next = s.next := rfl
@[simp] theorem State.setByte_regs (s : State) (a : Nat) (b : Byte) : (s.setByte a b).regs = s.regs := rfl
@[simp] theorem State.setByte_hq (s : State) (a : Nat) (b : Byte) : (s.setByte a b).hq = s.hq := rfl
@[simp] theorem State.setByte_txns (s : State) (a : Nat) (b : Byte) : (s.setByte a b).txns = s.txns := rfl
@[simp] theorem State.setByte_net (s : State) (a : Nat) (b : Byte) : (s.setByte a b).net = s.net := rfl
@[simp] theorem State.setByte_l2use (s : State) (a : Nat) (b : Byte) : (s.setByte a b).l2use = s.l2use := rfl
@[simp] theorem State.setByte_hostq (s : State) (a : Nat) (b : Byte) : (s.setByte a b).hostq = s.hostq := rfl
@[simp] theorem State.setByte_poison (s : State) (a : Nat) (b : Byte) : (s.setByte a b).poison = s.poison := rfl
@[simp] theorem State.setByte_badline (s : State) (a : Nat) (b : Byte) : (s.setByte a b).badline = s.badline := rfl
@[simp] theorem State.setByte_frames (s : State) (a : Nat) (b : Byte) : (s.setByte a b).frames = s.frames := rfl
@[simp] theorem State.setByte_minor (s : State) (a : Nat) (b : Byte) : (s.setByte a b).minor = s.minor := rfl
@[simp] theorem State.setByte_major (s : State) (a : Nat) (b : Byte) : (s.setByte a b).major = s.major := rfl
@[simp] theorem State.setByte_clamps (s : State) (a : Nat) (b : Byte) : (s.setByte a b).clamps = s.clamps := rfl
@[simp] theorem State.setByte_mgmt (s : State) (a : Nat) (b : Byte) : (s.setByte a b).mgmt = s.mgmt := rfl
@[simp] theorem State.setByte_cores (s : State) (a : Nat) (b : Byte) : (s.setByte a b).cores = s.cores := rfl
@[simp] theorem State.setByte_ctb (s : State) (a : Nat) (b : Byte) : (s.setByte a b).ctb = s.ctb := rfl
@[simp] theorem State.setByte_hubtb (s : State) (a : Nat) (b : Byte) : (s.setByte a b).hubtb = s.hubtb := rfl
@[simp] theorem State.setByte_walks (s : State) (a : Nat) (b : Byte) : (s.setByte a b).walks = s.walks := rfl
@[simp] theorem State.setByte_launches (s : State) (a : Nat) (b : Byte) : (s.setByte a b).launches = s.launches := rfl
@[simp] theorem State.setByte_xfers (s : State) (a : Nat) (b : Byte) : (s.setByte a b).xfers = s.xfers := rfl
@[simp] theorem State.setByte_xturn (s : State) (a : Nat) (b : Byte) : (s.setByte a b).xturn = s.xturn := rfl
@[simp] theorem State.setByte_xlast (s : State) (a : Nat) (b : Byte) : (s.setByte a b).xlast = s.xlast := rfl
@[simp] theorem State.setByte_remotes (s : State) (a : Nat) (b : Byte) : (s.setByte a b).remotes = s.remotes := rfl
@[simp] theorem State.setByte_credits (s : State) (a : Nat) (b : Byte) : (s.setByte a b).credits = s.credits := rfl
@[simp] theorem State.setByte_senders (s : State) (a : Nat) (b : Byte) : (s.setByte a b).senders = s.senders := rfl
@[simp] theorem State.setByte_engfaults (s : State) (a : Nat) (b : Byte) : (s.setByte a b).engfaults = s.engfaults := rfl
@[simp] theorem State.setByte_saved (s : State) (a : Nat) (b : Byte) : (s.setByte a b).saved = s.saved := rfl
@[simp] theorem State.setByte_answers (s : State) (a : Nat) (b : Byte) : (s.setByte a b).answers = s.answers := rfl
@[simp] theorem State.setByte_dists (s : State) (a : Nat) (b : Byte) : (s.setByte a b).dists = s.dists := rfl
@[simp] theorem State.setByte_posted (s : State) (a : Nat) (b : Byte) : (s.setByte a b).posted = s.posted := rfl
@[simp] theorem State.setByte_queues (s : State) (a : Nat) (b : Byte) : (s.setByte a b).queues = s.queues := rfl
@[simp] theorem State.setByte_fins (s : State) (a : Nat) (b : Byte) : (s.setByte a b).fins = s.fins := rfl
@[simp] theorem State.setByte_openPkts (s : State) (a : Nat) (b : Byte) : (s.setByte a b).openPkts = s.openPkts := rfl
@[simp] theorem State.setByte_graphs (s : State) (a : Nat) (b : Byte) : (s.setByte a b).graphs = s.graphs := rfl
@[simp] theorem State.setByte_procs (s : State) (a : Nat) (b : Byte) : (s.setByte a b).procs = s.procs := rfl
@[simp] theorem State.setByte_roots (s : State) (a : Nat) (b : Byte) : (s.setByte a b).roots = s.roots := rfl
@[simp] theorem State.setByte_hostout (s : State) (a : Nat) (b : Byte) : (s.setByte a b).hostout = s.hostout := rfl
@[simp] theorem State.setByte_planDone (s : State) (a : Nat) (b : Byte) : (s.setByte a b).planDone = s.planDone := rfl
@[simp] theorem State.setByte_heldWrites (s : State) (a : Nat) (b : Byte) : (s.setByte a b).heldWrites = s.heldWrites := rfl
@[simp] theorem State.setByte_plan (s : State) (a : Nat) (b : Byte) : (s.setByte a b).plan = s.plan := rfl
@[simp] theorem State.setByte_rebind (s : State) (a : Nat) (b : Byte) : (s.setByte a b).rebind = s.rebind := rfl
@[simp] theorem State.setByte_planRead (s : State) (a : Nat) (b : Byte) : (s.setByte a b).planRead = s.planRead := rfl
@[simp] theorem State.setByte_tagDelta (s : State) (a : Nat) (b : Byte) : (s.setByte a b).tagDelta = s.tagDelta := rfl
@[simp] theorem State.setByte_nodeOff (s : State) (a : Nat) (b : Byte) : (s.setByte a b).nodeOff = s.nodeOff := rfl
@[simp] theorem State.setByte_srambad (s : State) (a : Nat) (b : Byte) : (s.setByte a b).srambad = s.srambad := rfl
@[simp] theorem State.setByte_installs (s : State) (a : Nat) (b : Byte) : (s.setByte a b).installs = s.installs := rfl
@[simp] theorem State.setByte_ioreqs (s : State) (a : Nat) (b : Byte) : (s.setByte a b).ioreqs = s.ioreqs := rfl
@[simp] theorem State.setByte_frameLists (s : State) (a : Nat) (b : Byte) : (s.setByte a b).frameLists = s.frameLists := rfl
@[simp] theorem State.setByte_frameAsks (s : State) (a : Nat) (b : Byte) : (s.setByte a b).frameAsks = s.frameAsks := rfl
@[simp] theorem State.setByte_copied (s : State) (a : Nat) (b : Byte) : (s.setByte a b).copied = s.copied := rfl
@[simp] theorem State.setByte_again (s : State) (a : Nat) (b : Byte) : (s.setByte a b).again = s.again := rfl
@[simp] theorem State.setByte_badTree (s : State) (a : Nat) (b : Byte) : (s.setByte a b).badTree = s.badTree := rfl
@[simp] theorem State.setByte_cec (s : State) (a : Nat) (b : Byte) : (s.setByte a b).cec = s.cec := rfl
@[simp] theorem State.setByte_owners (s : State) (a : Nat) (b : Byte) : (s.setByte a b).owners = s.owners := rfl
@[simp] theorem State.setByte_fuses (s : State) (a : Nat) (b : Byte) : (s.setByte a b).fuses = s.fuses := rfl
@[simp] theorem State.setByte_presence (s : State) (a : Nat) (b : Byte) : (s.setByte a b).presence = s.presence := rfl
@[simp] theorem State.setByte_recoveryStrap (s : State) (a : Nat) (b : Byte) : (s.setByte a b).recoveryStrap = s.recoveryStrap := rfl
@[simp] theorem State.setByte_attests (s : State) (a : Nat) (b : Byte) : (s.setByte a b).attests = s.attests := rfl
@[simp] theorem State.setByte_reported (s : State) (a : Nat) (b : Byte) : (s.setByte a b).reported = s.reported := rfl
@[simp] theorem State.setByte_forced (s : State) (a : Nat) (b : Byte) : (s.setByte a b).forced = s.forced := rfl
@[simp] theorem State.setByte_groups (s : State) (a : Nat) (b : Byte) : (s.setByte a b).groups = s.groups := rfl
@[simp] theorem State.setByte_outgoing (s : State) (a : Nat) (b : Byte) : (s.setByte a b).outgoing = s.outgoing := rfl
@[simp] theorem State.setByte_wire (s : State) (a : Nat) (b : Byte) : (s.setByte a b).wire = s.wire := rfl
@[simp] theorem State.setByte_early (s : State) (a : Nat) (b : Byte) : (s.setByte a b).early = s.early := rfl
@[simp] theorem State.setByte_colls (s : State) (a : Nat) (b : Byte) : (s.setByte a b).colls = s.colls := rfl
@[simp] theorem State.setByte_flash (s : State) (a : Nat) (b : Byte) : (s.setByte a b).flash = s.flash := rfl
@[simp] theorem State.setByte_flashq (s : State) (a : Nat) (b : Byte) : (s.setByte a b).flashq = s.flashq := rfl
@[simp] theorem State.setByte_socks (s : State) (a : Nat) (b : Byte) : (s.setByte a b).socks = s.socks := rfl
@[simp] theorem State.setByte_files (s : State) (a : Nat) (b : Byte) : (s.setByte a b).files = s.files := rfl
@[simp] theorem State.setByte_heaps (s : State) (a : Nat) (b : Byte) : (s.setByte a b).heaps = s.heaps := rfl
@[simp] theorem State.setByte_maps (s : State) (a : Nat) (b : Byte) : (s.setByte a b).maps = s.maps := rfl
@[simp] theorem State.setByte_pools (s : State) (a : Nat) (b : Byte) : (s.setByte a b).pools = s.pools := rfl
@[simp] theorem State.setByte_placed (s : State) (a : Nat) (b : Byte) : (s.setByte a b).placed = s.placed := rfl
@[simp] theorem State.setByte_pooled (s : State) (a : Nat) (b : Byte) : (s.setByte a b).pooled = s.pooled := rfl
@[simp] theorem State.setByte_unmaps (s : State) (a : Nat) (b : Byte) : (s.setByte a b).unmaps = s.unmaps := rfl
@[simp] theorem State.setByte_jobs (s : State) (a : Nat) (b : Byte) : (s.setByte a b).jobs = s.jobs := rfl
@[simp] theorem State.setByte_msixTable (s : State) (a : Nat) (b : Byte) : (s.setByte a b).msixTable = s.msixTable := rfl
@[simp] theorem State.setByte_tested (s : State) (a : Nat) (b : Byte) : (s.setByte a b).tested = s.tested := rfl
@[simp] theorem State.setByte_cool (s : State) (a : Nat) (b : Byte) : (s.setByte a b).cool = s.cool := rfl
@[simp] theorem State.setByte_keys (s : State) (a : Nat) (b : Byte) : (s.setByte a b).keys = s.keys := rfl
@[simp] theorem State.setByte_sliceKeys (s : State) (a : Nat) (b : Byte) : (s.setByte a b).sliceKeys = s.sliceKeys := rfl
@[simp] theorem State.setByte_veils (s : State) (a : Nat) (b : Byte) : (s.setByte a b).veils = s.veils := rfl
@[simp] theorem State.setByte_scrubAt (s : State) (a : Nat) (b : Byte) : (s.setByte a b).scrubAt = s.scrubAt := rfl
@[simp] theorem State.setByte_aper (s : State) (a : Nat) (b : Byte) : (s.setByte a b).aper = s.aper := rfl
@[simp] theorem State.setByte_clocks (s : State) (a : Nat) (b : Byte) : (s.setByte a b).clocks = s.clocks := rfl
@[simp] theorem State.setByte_op (s : State) (a : Nat) (b : Byte) : (s.setByte a b).op = s.op := rfl

/-! ### A message -/

@[simp] theorem State.send_time (s : State) (x y : Nat) (b : Body) : (s.send x y b).time = s.time := rfl
@[simp] theorem State.send_agenda (s : State) (x y : Nat) (b : Body) : (s.send x y b).agenda = s.agenda := rfl
@[simp] theorem State.send_cur (s : State) (x y : Nat) (b : Body) : (s.send x y b).cur = s.cur := rfl
@[simp] theorem State.send_free (s : State) (x y : Nat) (b : Body) : (s.send x y b).free = s.free := rfl
@[simp] theorem State.send_next (s : State) (x y : Nat) (b : Body) : (s.send x y b).next = s.next := rfl
@[simp] theorem State.send_mem (s : State) (x y : Nat) (b : Body) : (s.send x y b).mem = s.mem := rfl
@[simp] theorem State.send_regs (s : State) (x y : Nat) (b : Body) : (s.send x y b).regs = s.regs := rfl
@[simp] theorem State.send_hq (s : State) (x y : Nat) (b : Body) : (s.send x y b).hq = s.hq := rfl
@[simp] theorem State.send_txns (s : State) (x y : Nat) (b : Body) : (s.send x y b).txns = s.txns := rfl
@[simp] theorem State.send_l2use (s : State) (x y : Nat) (b : Body) : (s.send x y b).l2use = s.l2use := rfl
@[simp] theorem State.send_hostq (s : State) (x y : Nat) (b : Body) : (s.send x y b).hostq = s.hostq := rfl
@[simp] theorem State.send_poison (s : State) (x y : Nat) (b : Body) : (s.send x y b).poison = s.poison := rfl
@[simp] theorem State.send_badline (s : State) (x y : Nat) (b : Body) : (s.send x y b).badline = s.badline := rfl
@[simp] theorem State.send_frames (s : State) (x y : Nat) (b : Body) : (s.send x y b).frames = s.frames := rfl
@[simp] theorem State.send_minor (s : State) (x y : Nat) (b : Body) : (s.send x y b).minor = s.minor := rfl
@[simp] theorem State.send_major (s : State) (x y : Nat) (b : Body) : (s.send x y b).major = s.major := rfl
@[simp] theorem State.send_clamps (s : State) (x y : Nat) (b : Body) : (s.send x y b).clamps = s.clamps := rfl
@[simp] theorem State.send_mgmt (s : State) (x y : Nat) (b : Body) : (s.send x y b).mgmt = s.mgmt := rfl
@[simp] theorem State.send_cores (s : State) (x y : Nat) (b : Body) : (s.send x y b).cores = s.cores := rfl
@[simp] theorem State.send_ctb (s : State) (x y : Nat) (b : Body) : (s.send x y b).ctb = s.ctb := rfl
@[simp] theorem State.send_hubtb (s : State) (x y : Nat) (b : Body) : (s.send x y b).hubtb = s.hubtb := rfl
@[simp] theorem State.send_walks (s : State) (x y : Nat) (b : Body) : (s.send x y b).walks = s.walks := rfl
@[simp] theorem State.send_launches (s : State) (x y : Nat) (b : Body) : (s.send x y b).launches = s.launches := rfl
@[simp] theorem State.send_xfers (s : State) (x y : Nat) (b : Body) : (s.send x y b).xfers = s.xfers := rfl
@[simp] theorem State.send_xturn (s : State) (x y : Nat) (b : Body) : (s.send x y b).xturn = s.xturn := rfl
@[simp] theorem State.send_xlast (s : State) (x y : Nat) (b : Body) : (s.send x y b).xlast = s.xlast := rfl
@[simp] theorem State.send_remotes (s : State) (x y : Nat) (b : Body) : (s.send x y b).remotes = s.remotes := rfl
@[simp] theorem State.send_credits (s : State) (x y : Nat) (b : Body) : (s.send x y b).credits = s.credits := rfl
@[simp] theorem State.send_senders (s : State) (x y : Nat) (b : Body) : (s.send x y b).senders = s.senders := rfl
@[simp] theorem State.send_engfaults (s : State) (x y : Nat) (b : Body) : (s.send x y b).engfaults = s.engfaults := rfl
@[simp] theorem State.send_saved (s : State) (x y : Nat) (b : Body) : (s.send x y b).saved = s.saved := rfl
@[simp] theorem State.send_answers (s : State) (x y : Nat) (b : Body) : (s.send x y b).answers = s.answers := rfl
@[simp] theorem State.send_dists (s : State) (x y : Nat) (b : Body) : (s.send x y b).dists = s.dists := rfl
@[simp] theorem State.send_posted (s : State) (x y : Nat) (b : Body) : (s.send x y b).posted = s.posted := rfl
@[simp] theorem State.send_queues (s : State) (x y : Nat) (b : Body) : (s.send x y b).queues = s.queues := rfl
@[simp] theorem State.send_fins (s : State) (x y : Nat) (b : Body) : (s.send x y b).fins = s.fins := rfl
@[simp] theorem State.send_openPkts (s : State) (x y : Nat) (b : Body) : (s.send x y b).openPkts = s.openPkts := rfl
@[simp] theorem State.send_graphs (s : State) (x y : Nat) (b : Body) : (s.send x y b).graphs = s.graphs := rfl
@[simp] theorem State.send_procs (s : State) (x y : Nat) (b : Body) : (s.send x y b).procs = s.procs := rfl
@[simp] theorem State.send_roots (s : State) (x y : Nat) (b : Body) : (s.send x y b).roots = s.roots := rfl
@[simp] theorem State.send_hostout (s : State) (x y : Nat) (b : Body) : (s.send x y b).hostout = s.hostout := rfl
@[simp] theorem State.send_planDone (s : State) (x y : Nat) (b : Body) : (s.send x y b).planDone = s.planDone := rfl
@[simp] theorem State.send_heldWrites (s : State) (x y : Nat) (b : Body) : (s.send x y b).heldWrites = s.heldWrites := rfl
@[simp] theorem State.send_plan (s : State) (x y : Nat) (b : Body) : (s.send x y b).plan = s.plan := rfl
@[simp] theorem State.send_rebind (s : State) (x y : Nat) (b : Body) : (s.send x y b).rebind = s.rebind := rfl
@[simp] theorem State.send_planRead (s : State) (x y : Nat) (b : Body) : (s.send x y b).planRead = s.planRead := rfl
@[simp] theorem State.send_tagDelta (s : State) (x y : Nat) (b : Body) : (s.send x y b).tagDelta = s.tagDelta := rfl
@[simp] theorem State.send_nodeOff (s : State) (x y : Nat) (b : Body) : (s.send x y b).nodeOff = s.nodeOff := rfl
@[simp] theorem State.send_srambad (s : State) (x y : Nat) (b : Body) : (s.send x y b).srambad = s.srambad := rfl
@[simp] theorem State.send_installs (s : State) (x y : Nat) (b : Body) : (s.send x y b).installs = s.installs := rfl
@[simp] theorem State.send_ioreqs (s : State) (x y : Nat) (b : Body) : (s.send x y b).ioreqs = s.ioreqs := rfl
@[simp] theorem State.send_frameLists (s : State) (x y : Nat) (b : Body) : (s.send x y b).frameLists = s.frameLists := rfl
@[simp] theorem State.send_frameAsks (s : State) (x y : Nat) (b : Body) : (s.send x y b).frameAsks = s.frameAsks := rfl
@[simp] theorem State.send_copied (s : State) (x y : Nat) (b : Body) : (s.send x y b).copied = s.copied := rfl
@[simp] theorem State.send_again (s : State) (x y : Nat) (b : Body) : (s.send x y b).again = s.again := rfl
@[simp] theorem State.send_badTree (s : State) (x y : Nat) (b : Body) : (s.send x y b).badTree = s.badTree := rfl
@[simp] theorem State.send_cec (s : State) (x y : Nat) (b : Body) : (s.send x y b).cec = s.cec := rfl
@[simp] theorem State.send_owners (s : State) (x y : Nat) (b : Body) : (s.send x y b).owners = s.owners := rfl
@[simp] theorem State.send_fuses (s : State) (x y : Nat) (b : Body) : (s.send x y b).fuses = s.fuses := rfl
@[simp] theorem State.send_presence (s : State) (x y : Nat) (b : Body) : (s.send x y b).presence = s.presence := rfl
@[simp] theorem State.send_recoveryStrap (s : State) (x y : Nat) (b : Body) : (s.send x y b).recoveryStrap = s.recoveryStrap := rfl
@[simp] theorem State.send_attests (s : State) (x y : Nat) (b : Body) : (s.send x y b).attests = s.attests := rfl
@[simp] theorem State.send_reported (s : State) (x y : Nat) (b : Body) : (s.send x y b).reported = s.reported := rfl
@[simp] theorem State.send_forced (s : State) (x y : Nat) (b : Body) : (s.send x y b).forced = s.forced := rfl
@[simp] theorem State.send_groups (s : State) (x y : Nat) (b : Body) : (s.send x y b).groups = s.groups := rfl
@[simp] theorem State.send_outgoing (s : State) (x y : Nat) (b : Body) : (s.send x y b).outgoing = s.outgoing := rfl
@[simp] theorem State.send_wire (s : State) (x y : Nat) (b : Body) : (s.send x y b).wire = s.wire := rfl
@[simp] theorem State.send_early (s : State) (x y : Nat) (b : Body) : (s.send x y b).early = s.early := rfl
@[simp] theorem State.send_colls (s : State) (x y : Nat) (b : Body) : (s.send x y b).colls = s.colls := rfl
@[simp] theorem State.send_flash (s : State) (x y : Nat) (b : Body) : (s.send x y b).flash = s.flash := rfl
@[simp] theorem State.send_flashq (s : State) (x y : Nat) (b : Body) : (s.send x y b).flashq = s.flashq := rfl
@[simp] theorem State.send_socks (s : State) (x y : Nat) (b : Body) : (s.send x y b).socks = s.socks := rfl
@[simp] theorem State.send_files (s : State) (x y : Nat) (b : Body) : (s.send x y b).files = s.files := rfl
@[simp] theorem State.send_heaps (s : State) (x y : Nat) (b : Body) : (s.send x y b).heaps = s.heaps := rfl
@[simp] theorem State.send_maps (s : State) (x y : Nat) (b : Body) : (s.send x y b).maps = s.maps := rfl
@[simp] theorem State.send_pools (s : State) (x y : Nat) (b : Body) : (s.send x y b).pools = s.pools := rfl
@[simp] theorem State.send_placed (s : State) (x y : Nat) (b : Body) : (s.send x y b).placed = s.placed := rfl
@[simp] theorem State.send_pooled (s : State) (x y : Nat) (b : Body) : (s.send x y b).pooled = s.pooled := rfl
@[simp] theorem State.send_unmaps (s : State) (x y : Nat) (b : Body) : (s.send x y b).unmaps = s.unmaps := rfl
@[simp] theorem State.send_jobs (s : State) (x y : Nat) (b : Body) : (s.send x y b).jobs = s.jobs := rfl
@[simp] theorem State.send_msixTable (s : State) (x y : Nat) (b : Body) : (s.send x y b).msixTable = s.msixTable := rfl
@[simp] theorem State.send_tested (s : State) (x y : Nat) (b : Body) : (s.send x y b).tested = s.tested := rfl
@[simp] theorem State.send_cool (s : State) (x y : Nat) (b : Body) : (s.send x y b).cool = s.cool := rfl
@[simp] theorem State.send_keys (s : State) (x y : Nat) (b : Body) : (s.send x y b).keys = s.keys := rfl
@[simp] theorem State.send_sliceKeys (s : State) (x y : Nat) (b : Body) : (s.send x y b).sliceKeys = s.sliceKeys := rfl
@[simp] theorem State.send_veils (s : State) (x y : Nat) (b : Body) : (s.send x y b).veils = s.veils := rfl
@[simp] theorem State.send_scrubAt (s : State) (x y : Nat) (b : Body) : (s.send x y b).scrubAt = s.scrubAt := rfl
@[simp] theorem State.send_aper (s : State) (x y : Nat) (b : Body) : (s.send x y b).aper = s.aper := rfl
@[simp] theorem State.send_clocks (s : State) (x y : Nat) (b : Body) : (s.send x y b).clocks = s.clocks := rfl
@[simp] theorem State.send_op (s : State) (x y : Nat) (b : Body) : (s.send x y b).op = s.op := rfl

/-! ### An operation number -/

@[simp] theorem State.fresh1_time (s : State)  : (s.fresh1.2).time = s.time := rfl
@[simp] theorem State.fresh1_agenda (s : State)  : (s.fresh1.2).agenda = s.agenda := rfl
@[simp] theorem State.fresh1_cur (s : State)  : (s.fresh1.2).cur = s.cur := rfl
@[simp] theorem State.fresh1_free (s : State)  : (s.fresh1.2).free = s.free := rfl
@[simp] theorem State.fresh1_mem (s : State)  : (s.fresh1.2).mem = s.mem := rfl
@[simp] theorem State.fresh1_regs (s : State)  : (s.fresh1.2).regs = s.regs := rfl
@[simp] theorem State.fresh1_hq (s : State)  : (s.fresh1.2).hq = s.hq := rfl
@[simp] theorem State.fresh1_txns (s : State)  : (s.fresh1.2).txns = s.txns := rfl
@[simp] theorem State.fresh1_net (s : State)  : (s.fresh1.2).net = s.net := rfl
@[simp] theorem State.fresh1_l2use (s : State)  : (s.fresh1.2).l2use = s.l2use := rfl
@[simp] theorem State.fresh1_hostq (s : State)  : (s.fresh1.2).hostq = s.hostq := rfl
@[simp] theorem State.fresh1_poison (s : State)  : (s.fresh1.2).poison = s.poison := rfl
@[simp] theorem State.fresh1_badline (s : State)  : (s.fresh1.2).badline = s.badline := rfl
@[simp] theorem State.fresh1_frames (s : State)  : (s.fresh1.2).frames = s.frames := rfl
@[simp] theorem State.fresh1_minor (s : State)  : (s.fresh1.2).minor = s.minor := rfl
@[simp] theorem State.fresh1_major (s : State)  : (s.fresh1.2).major = s.major := rfl
@[simp] theorem State.fresh1_clamps (s : State)  : (s.fresh1.2).clamps = s.clamps := rfl
@[simp] theorem State.fresh1_mgmt (s : State)  : (s.fresh1.2).mgmt = s.mgmt := rfl
@[simp] theorem State.fresh1_cores (s : State)  : (s.fresh1.2).cores = s.cores := rfl
@[simp] theorem State.fresh1_ctb (s : State)  : (s.fresh1.2).ctb = s.ctb := rfl
@[simp] theorem State.fresh1_hubtb (s : State)  : (s.fresh1.2).hubtb = s.hubtb := rfl
@[simp] theorem State.fresh1_walks (s : State)  : (s.fresh1.2).walks = s.walks := rfl
@[simp] theorem State.fresh1_launches (s : State)  : (s.fresh1.2).launches = s.launches := rfl
@[simp] theorem State.fresh1_xfers (s : State)  : (s.fresh1.2).xfers = s.xfers := rfl
@[simp] theorem State.fresh1_xturn (s : State)  : (s.fresh1.2).xturn = s.xturn := rfl
@[simp] theorem State.fresh1_xlast (s : State)  : (s.fresh1.2).xlast = s.xlast := rfl
@[simp] theorem State.fresh1_remotes (s : State)  : (s.fresh1.2).remotes = s.remotes := rfl
@[simp] theorem State.fresh1_credits (s : State)  : (s.fresh1.2).credits = s.credits := rfl
@[simp] theorem State.fresh1_senders (s : State)  : (s.fresh1.2).senders = s.senders := rfl
@[simp] theorem State.fresh1_engfaults (s : State)  : (s.fresh1.2).engfaults = s.engfaults := rfl
@[simp] theorem State.fresh1_saved (s : State)  : (s.fresh1.2).saved = s.saved := rfl
@[simp] theorem State.fresh1_answers (s : State)  : (s.fresh1.2).answers = s.answers := rfl
@[simp] theorem State.fresh1_dists (s : State)  : (s.fresh1.2).dists = s.dists := rfl
@[simp] theorem State.fresh1_posted (s : State)  : (s.fresh1.2).posted = s.posted := rfl
@[simp] theorem State.fresh1_queues (s : State)  : (s.fresh1.2).queues = s.queues := rfl
@[simp] theorem State.fresh1_fins (s : State)  : (s.fresh1.2).fins = s.fins := rfl
@[simp] theorem State.fresh1_openPkts (s : State)  : (s.fresh1.2).openPkts = s.openPkts := rfl
@[simp] theorem State.fresh1_graphs (s : State)  : (s.fresh1.2).graphs = s.graphs := rfl
@[simp] theorem State.fresh1_procs (s : State)  : (s.fresh1.2).procs = s.procs := rfl
@[simp] theorem State.fresh1_roots (s : State)  : (s.fresh1.2).roots = s.roots := rfl
@[simp] theorem State.fresh1_hostout (s : State)  : (s.fresh1.2).hostout = s.hostout := rfl
@[simp] theorem State.fresh1_planDone (s : State)  : (s.fresh1.2).planDone = s.planDone := rfl
@[simp] theorem State.fresh1_heldWrites (s : State)  : (s.fresh1.2).heldWrites = s.heldWrites := rfl
@[simp] theorem State.fresh1_plan (s : State)  : (s.fresh1.2).plan = s.plan := rfl
@[simp] theorem State.fresh1_rebind (s : State)  : (s.fresh1.2).rebind = s.rebind := rfl
@[simp] theorem State.fresh1_planRead (s : State)  : (s.fresh1.2).planRead = s.planRead := rfl
@[simp] theorem State.fresh1_tagDelta (s : State)  : (s.fresh1.2).tagDelta = s.tagDelta := rfl
@[simp] theorem State.fresh1_nodeOff (s : State)  : (s.fresh1.2).nodeOff = s.nodeOff := rfl
@[simp] theorem State.fresh1_srambad (s : State)  : (s.fresh1.2).srambad = s.srambad := rfl
@[simp] theorem State.fresh1_installs (s : State)  : (s.fresh1.2).installs = s.installs := rfl
@[simp] theorem State.fresh1_ioreqs (s : State)  : (s.fresh1.2).ioreqs = s.ioreqs := rfl
@[simp] theorem State.fresh1_frameLists (s : State)  : (s.fresh1.2).frameLists = s.frameLists := rfl
@[simp] theorem State.fresh1_frameAsks (s : State)  : (s.fresh1.2).frameAsks = s.frameAsks := rfl
@[simp] theorem State.fresh1_copied (s : State)  : (s.fresh1.2).copied = s.copied := rfl
@[simp] theorem State.fresh1_again (s : State)  : (s.fresh1.2).again = s.again := rfl
@[simp] theorem State.fresh1_badTree (s : State)  : (s.fresh1.2).badTree = s.badTree := rfl
@[simp] theorem State.fresh1_cec (s : State)  : (s.fresh1.2).cec = s.cec := rfl
@[simp] theorem State.fresh1_owners (s : State)  : (s.fresh1.2).owners = s.owners := rfl
@[simp] theorem State.fresh1_fuses (s : State)  : (s.fresh1.2).fuses = s.fuses := rfl
@[simp] theorem State.fresh1_presence (s : State)  : (s.fresh1.2).presence = s.presence := rfl
@[simp] theorem State.fresh1_recoveryStrap (s : State)  : (s.fresh1.2).recoveryStrap = s.recoveryStrap := rfl
@[simp] theorem State.fresh1_attests (s : State)  : (s.fresh1.2).attests = s.attests := rfl
@[simp] theorem State.fresh1_reported (s : State)  : (s.fresh1.2).reported = s.reported := rfl
@[simp] theorem State.fresh1_forced (s : State)  : (s.fresh1.2).forced = s.forced := rfl
@[simp] theorem State.fresh1_groups (s : State)  : (s.fresh1.2).groups = s.groups := rfl
@[simp] theorem State.fresh1_outgoing (s : State)  : (s.fresh1.2).outgoing = s.outgoing := rfl
@[simp] theorem State.fresh1_wire (s : State)  : (s.fresh1.2).wire = s.wire := rfl
@[simp] theorem State.fresh1_early (s : State)  : (s.fresh1.2).early = s.early := rfl
@[simp] theorem State.fresh1_colls (s : State)  : (s.fresh1.2).colls = s.colls := rfl
@[simp] theorem State.fresh1_flash (s : State)  : (s.fresh1.2).flash = s.flash := rfl
@[simp] theorem State.fresh1_flashq (s : State)  : (s.fresh1.2).flashq = s.flashq := rfl
@[simp] theorem State.fresh1_socks (s : State)  : (s.fresh1.2).socks = s.socks := rfl
@[simp] theorem State.fresh1_files (s : State)  : (s.fresh1.2).files = s.files := rfl
@[simp] theorem State.fresh1_heaps (s : State)  : (s.fresh1.2).heaps = s.heaps := rfl
@[simp] theorem State.fresh1_maps (s : State)  : (s.fresh1.2).maps = s.maps := rfl
@[simp] theorem State.fresh1_pools (s : State)  : (s.fresh1.2).pools = s.pools := rfl
@[simp] theorem State.fresh1_placed (s : State)  : (s.fresh1.2).placed = s.placed := rfl
@[simp] theorem State.fresh1_pooled (s : State)  : (s.fresh1.2).pooled = s.pooled := rfl
@[simp] theorem State.fresh1_unmaps (s : State)  : (s.fresh1.2).unmaps = s.unmaps := rfl
@[simp] theorem State.fresh1_jobs (s : State)  : (s.fresh1.2).jobs = s.jobs := rfl
@[simp] theorem State.fresh1_msixTable (s : State)  : (s.fresh1.2).msixTable = s.msixTable := rfl
@[simp] theorem State.fresh1_tested (s : State)  : (s.fresh1.2).tested = s.tested := rfl
@[simp] theorem State.fresh1_cool (s : State)  : (s.fresh1.2).cool = s.cool := rfl
@[simp] theorem State.fresh1_keys (s : State)  : (s.fresh1.2).keys = s.keys := rfl
@[simp] theorem State.fresh1_sliceKeys (s : State)  : (s.fresh1.2).sliceKeys = s.sliceKeys := rfl
@[simp] theorem State.fresh1_veils (s : State)  : (s.fresh1.2).veils = s.veils := rfl
@[simp] theorem State.fresh1_scrubAt (s : State)  : (s.fresh1.2).scrubAt = s.scrubAt := rfl
@[simp] theorem State.fresh1_aper (s : State)  : (s.fresh1.2).aper = s.aper := rfl
@[simp] theorem State.fresh1_clocks (s : State)  : (s.fresh1.2).clocks = s.clocks := rfl
@[simp] theorem State.fresh1_op (s : State)  : (s.fresh1.2).op = s.op := rfl

/-! ### A free value -/

@[simp] theorem State.draw_time (s : State)  : (s.draw.2).time = s.time := rfl
@[simp] theorem State.draw_agenda (s : State)  : (s.draw.2).agenda = s.agenda := rfl
@[simp] theorem State.draw_cur (s : State)  : (s.draw.2).cur = s.cur := rfl
@[simp] theorem State.draw_next (s : State)  : (s.draw.2).next = s.next := rfl
@[simp] theorem State.draw_mem (s : State)  : (s.draw.2).mem = s.mem := rfl
@[simp] theorem State.draw_regs (s : State)  : (s.draw.2).regs = s.regs := rfl
@[simp] theorem State.draw_hq (s : State)  : (s.draw.2).hq = s.hq := rfl
@[simp] theorem State.draw_txns (s : State)  : (s.draw.2).txns = s.txns := rfl
@[simp] theorem State.draw_net (s : State)  : (s.draw.2).net = s.net := rfl
@[simp] theorem State.draw_l2use (s : State)  : (s.draw.2).l2use = s.l2use := rfl
@[simp] theorem State.draw_hostq (s : State)  : (s.draw.2).hostq = s.hostq := rfl
@[simp] theorem State.draw_poison (s : State)  : (s.draw.2).poison = s.poison := rfl
@[simp] theorem State.draw_badline (s : State)  : (s.draw.2).badline = s.badline := rfl
@[simp] theorem State.draw_frames (s : State)  : (s.draw.2).frames = s.frames := rfl
@[simp] theorem State.draw_minor (s : State)  : (s.draw.2).minor = s.minor := rfl
@[simp] theorem State.draw_major (s : State)  : (s.draw.2).major = s.major := rfl
@[simp] theorem State.draw_clamps (s : State)  : (s.draw.2).clamps = s.clamps := rfl
@[simp] theorem State.draw_mgmt (s : State)  : (s.draw.2).mgmt = s.mgmt := rfl
@[simp] theorem State.draw_cores (s : State)  : (s.draw.2).cores = s.cores := rfl
@[simp] theorem State.draw_ctb (s : State)  : (s.draw.2).ctb = s.ctb := rfl
@[simp] theorem State.draw_hubtb (s : State)  : (s.draw.2).hubtb = s.hubtb := rfl
@[simp] theorem State.draw_walks (s : State)  : (s.draw.2).walks = s.walks := rfl
@[simp] theorem State.draw_launches (s : State)  : (s.draw.2).launches = s.launches := rfl
@[simp] theorem State.draw_xfers (s : State)  : (s.draw.2).xfers = s.xfers := rfl
@[simp] theorem State.draw_xturn (s : State)  : (s.draw.2).xturn = s.xturn := rfl
@[simp] theorem State.draw_xlast (s : State)  : (s.draw.2).xlast = s.xlast := rfl
@[simp] theorem State.draw_remotes (s : State)  : (s.draw.2).remotes = s.remotes := rfl
@[simp] theorem State.draw_credits (s : State)  : (s.draw.2).credits = s.credits := rfl
@[simp] theorem State.draw_senders (s : State)  : (s.draw.2).senders = s.senders := rfl
@[simp] theorem State.draw_engfaults (s : State)  : (s.draw.2).engfaults = s.engfaults := rfl
@[simp] theorem State.draw_saved (s : State)  : (s.draw.2).saved = s.saved := rfl
@[simp] theorem State.draw_answers (s : State)  : (s.draw.2).answers = s.answers := rfl
@[simp] theorem State.draw_dists (s : State)  : (s.draw.2).dists = s.dists := rfl
@[simp] theorem State.draw_posted (s : State)  : (s.draw.2).posted = s.posted := rfl
@[simp] theorem State.draw_queues (s : State)  : (s.draw.2).queues = s.queues := rfl
@[simp] theorem State.draw_fins (s : State)  : (s.draw.2).fins = s.fins := rfl
@[simp] theorem State.draw_openPkts (s : State)  : (s.draw.2).openPkts = s.openPkts := rfl
@[simp] theorem State.draw_graphs (s : State)  : (s.draw.2).graphs = s.graphs := rfl
@[simp] theorem State.draw_procs (s : State)  : (s.draw.2).procs = s.procs := rfl
@[simp] theorem State.draw_roots (s : State)  : (s.draw.2).roots = s.roots := rfl
@[simp] theorem State.draw_hostout (s : State)  : (s.draw.2).hostout = s.hostout := rfl
@[simp] theorem State.draw_planDone (s : State)  : (s.draw.2).planDone = s.planDone := rfl
@[simp] theorem State.draw_heldWrites (s : State)  : (s.draw.2).heldWrites = s.heldWrites := rfl
@[simp] theorem State.draw_plan (s : State)  : (s.draw.2).plan = s.plan := rfl
@[simp] theorem State.draw_rebind (s : State)  : (s.draw.2).rebind = s.rebind := rfl
@[simp] theorem State.draw_planRead (s : State)  : (s.draw.2).planRead = s.planRead := rfl
@[simp] theorem State.draw_tagDelta (s : State)  : (s.draw.2).tagDelta = s.tagDelta := rfl
@[simp] theorem State.draw_nodeOff (s : State)  : (s.draw.2).nodeOff = s.nodeOff := rfl
@[simp] theorem State.draw_srambad (s : State)  : (s.draw.2).srambad = s.srambad := rfl
@[simp] theorem State.draw_installs (s : State)  : (s.draw.2).installs = s.installs := rfl
@[simp] theorem State.draw_ioreqs (s : State)  : (s.draw.2).ioreqs = s.ioreqs := rfl
@[simp] theorem State.draw_frameLists (s : State)  : (s.draw.2).frameLists = s.frameLists := rfl
@[simp] theorem State.draw_frameAsks (s : State)  : (s.draw.2).frameAsks = s.frameAsks := rfl
@[simp] theorem State.draw_copied (s : State)  : (s.draw.2).copied = s.copied := rfl
@[simp] theorem State.draw_again (s : State)  : (s.draw.2).again = s.again := rfl
@[simp] theorem State.draw_badTree (s : State)  : (s.draw.2).badTree = s.badTree := rfl
@[simp] theorem State.draw_cec (s : State)  : (s.draw.2).cec = s.cec := rfl
@[simp] theorem State.draw_owners (s : State)  : (s.draw.2).owners = s.owners := rfl
@[simp] theorem State.draw_fuses (s : State)  : (s.draw.2).fuses = s.fuses := rfl
@[simp] theorem State.draw_presence (s : State)  : (s.draw.2).presence = s.presence := rfl
@[simp] theorem State.draw_recoveryStrap (s : State)  : (s.draw.2).recoveryStrap = s.recoveryStrap := rfl
@[simp] theorem State.draw_attests (s : State)  : (s.draw.2).attests = s.attests := rfl
@[simp] theorem State.draw_reported (s : State)  : (s.draw.2).reported = s.reported := rfl
@[simp] theorem State.draw_forced (s : State)  : (s.draw.2).forced = s.forced := rfl
@[simp] theorem State.draw_groups (s : State)  : (s.draw.2).groups = s.groups := rfl
@[simp] theorem State.draw_outgoing (s : State)  : (s.draw.2).outgoing = s.outgoing := rfl
@[simp] theorem State.draw_wire (s : State)  : (s.draw.2).wire = s.wire := rfl
@[simp] theorem State.draw_early (s : State)  : (s.draw.2).early = s.early := rfl
@[simp] theorem State.draw_colls (s : State)  : (s.draw.2).colls = s.colls := rfl
@[simp] theorem State.draw_flash (s : State)  : (s.draw.2).flash = s.flash := rfl
@[simp] theorem State.draw_flashq (s : State)  : (s.draw.2).flashq = s.flashq := rfl
@[simp] theorem State.draw_socks (s : State)  : (s.draw.2).socks = s.socks := rfl
@[simp] theorem State.draw_files (s : State)  : (s.draw.2).files = s.files := rfl
@[simp] theorem State.draw_heaps (s : State)  : (s.draw.2).heaps = s.heaps := rfl
@[simp] theorem State.draw_maps (s : State)  : (s.draw.2).maps = s.maps := rfl
@[simp] theorem State.draw_pools (s : State)  : (s.draw.2).pools = s.pools := rfl
@[simp] theorem State.draw_placed (s : State)  : (s.draw.2).placed = s.placed := rfl
@[simp] theorem State.draw_pooled (s : State)  : (s.draw.2).pooled = s.pooled := rfl
@[simp] theorem State.draw_unmaps (s : State)  : (s.draw.2).unmaps = s.unmaps := rfl
@[simp] theorem State.draw_jobs (s : State)  : (s.draw.2).jobs = s.jobs := rfl
@[simp] theorem State.draw_msixTable (s : State)  : (s.draw.2).msixTable = s.msixTable := rfl
@[simp] theorem State.draw_tested (s : State)  : (s.draw.2).tested = s.tested := rfl
@[simp] theorem State.draw_cool (s : State)  : (s.draw.2).cool = s.cool := rfl
@[simp] theorem State.draw_keys (s : State)  : (s.draw.2).keys = s.keys := rfl
@[simp] theorem State.draw_sliceKeys (s : State)  : (s.draw.2).sliceKeys = s.sliceKeys := rfl
@[simp] theorem State.draw_veils (s : State)  : (s.draw.2).veils = s.veils := rfl
@[simp] theorem State.draw_scrubAt (s : State)  : (s.draw.2).scrubAt = s.scrubAt := rfl
@[simp] theorem State.draw_aper (s : State)  : (s.draw.2).aper = s.aper := rfl
@[simp] theorem State.draw_clocks (s : State)  : (s.draw.2).clocks = s.clocks := rfl
@[simp] theorem State.draw_op (s : State)  : (s.draw.2).op = s.op := rfl

/-! ### A management register -/

@[simp] theorem State.setMreg_time (s : State) (a : Nat) (v : W64) : (s.setMreg a v).time = s.time := rfl
@[simp] theorem State.setMreg_agenda (s : State) (a : Nat) (v : W64) : (s.setMreg a v).agenda = s.agenda := rfl
@[simp] theorem State.setMreg_cur (s : State) (a : Nat) (v : W64) : (s.setMreg a v).cur = s.cur := rfl
@[simp] theorem State.setMreg_free (s : State) (a : Nat) (v : W64) : (s.setMreg a v).free = s.free := rfl
@[simp] theorem State.setMreg_next (s : State) (a : Nat) (v : W64) : (s.setMreg a v).next = s.next := rfl
@[simp] theorem State.setMreg_mem (s : State) (a : Nat) (v : W64) : (s.setMreg a v).mem = s.mem := rfl
@[simp] theorem State.setMreg_regs (s : State) (a : Nat) (v : W64) : (s.setMreg a v).regs = s.regs := rfl
@[simp] theorem State.setMreg_hq (s : State) (a : Nat) (v : W64) : (s.setMreg a v).hq = s.hq := rfl
@[simp] theorem State.setMreg_txns (s : State) (a : Nat) (v : W64) : (s.setMreg a v).txns = s.txns := rfl
@[simp] theorem State.setMreg_net (s : State) (a : Nat) (v : W64) : (s.setMreg a v).net = s.net := rfl
@[simp] theorem State.setMreg_l2use (s : State) (a : Nat) (v : W64) : (s.setMreg a v).l2use = s.l2use := rfl
@[simp] theorem State.setMreg_hostq (s : State) (a : Nat) (v : W64) : (s.setMreg a v).hostq = s.hostq := rfl
@[simp] theorem State.setMreg_poison (s : State) (a : Nat) (v : W64) : (s.setMreg a v).poison = s.poison := rfl
@[simp] theorem State.setMreg_badline (s : State) (a : Nat) (v : W64) : (s.setMreg a v).badline = s.badline := rfl
@[simp] theorem State.setMreg_frames (s : State) (a : Nat) (v : W64) : (s.setMreg a v).frames = s.frames := rfl
@[simp] theorem State.setMreg_minor (s : State) (a : Nat) (v : W64) : (s.setMreg a v).minor = s.minor := rfl
@[simp] theorem State.setMreg_major (s : State) (a : Nat) (v : W64) : (s.setMreg a v).major = s.major := rfl
@[simp] theorem State.setMreg_clamps (s : State) (a : Nat) (v : W64) : (s.setMreg a v).clamps = s.clamps := rfl
@[simp] theorem State.setMreg_cores (s : State) (a : Nat) (v : W64) : (s.setMreg a v).cores = s.cores := rfl
@[simp] theorem State.setMreg_ctb (s : State) (a : Nat) (v : W64) : (s.setMreg a v).ctb = s.ctb := rfl
@[simp] theorem State.setMreg_hubtb (s : State) (a : Nat) (v : W64) : (s.setMreg a v).hubtb = s.hubtb := rfl
@[simp] theorem State.setMreg_walks (s : State) (a : Nat) (v : W64) : (s.setMreg a v).walks = s.walks := rfl
@[simp] theorem State.setMreg_launches (s : State) (a : Nat) (v : W64) : (s.setMreg a v).launches = s.launches := rfl
@[simp] theorem State.setMreg_xfers (s : State) (a : Nat) (v : W64) : (s.setMreg a v).xfers = s.xfers := rfl
@[simp] theorem State.setMreg_xturn (s : State) (a : Nat) (v : W64) : (s.setMreg a v).xturn = s.xturn := rfl
@[simp] theorem State.setMreg_xlast (s : State) (a : Nat) (v : W64) : (s.setMreg a v).xlast = s.xlast := rfl
@[simp] theorem State.setMreg_remotes (s : State) (a : Nat) (v : W64) : (s.setMreg a v).remotes = s.remotes := rfl
@[simp] theorem State.setMreg_credits (s : State) (a : Nat) (v : W64) : (s.setMreg a v).credits = s.credits := rfl
@[simp] theorem State.setMreg_senders (s : State) (a : Nat) (v : W64) : (s.setMreg a v).senders = s.senders := rfl
@[simp] theorem State.setMreg_engfaults (s : State) (a : Nat) (v : W64) : (s.setMreg a v).engfaults = s.engfaults := rfl
@[simp] theorem State.setMreg_saved (s : State) (a : Nat) (v : W64) : (s.setMreg a v).saved = s.saved := rfl
@[simp] theorem State.setMreg_answers (s : State) (a : Nat) (v : W64) : (s.setMreg a v).answers = s.answers := rfl
@[simp] theorem State.setMreg_dists (s : State) (a : Nat) (v : W64) : (s.setMreg a v).dists = s.dists := rfl
@[simp] theorem State.setMreg_posted (s : State) (a : Nat) (v : W64) : (s.setMreg a v).posted = s.posted := rfl
@[simp] theorem State.setMreg_queues (s : State) (a : Nat) (v : W64) : (s.setMreg a v).queues = s.queues := rfl
@[simp] theorem State.setMreg_fins (s : State) (a : Nat) (v : W64) : (s.setMreg a v).fins = s.fins := rfl
@[simp] theorem State.setMreg_openPkts (s : State) (a : Nat) (v : W64) : (s.setMreg a v).openPkts = s.openPkts := rfl
@[simp] theorem State.setMreg_graphs (s : State) (a : Nat) (v : W64) : (s.setMreg a v).graphs = s.graphs := rfl
@[simp] theorem State.setMreg_procs (s : State) (a : Nat) (v : W64) : (s.setMreg a v).procs = s.procs := rfl
@[simp] theorem State.setMreg_roots (s : State) (a : Nat) (v : W64) : (s.setMreg a v).roots = s.roots := rfl
@[simp] theorem State.setMreg_hostout (s : State) (a : Nat) (v : W64) : (s.setMreg a v).hostout = s.hostout := rfl
@[simp] theorem State.setMreg_planDone (s : State) (a : Nat) (v : W64) : (s.setMreg a v).planDone = s.planDone := rfl
@[simp] theorem State.setMreg_heldWrites (s : State) (a : Nat) (v : W64) : (s.setMreg a v).heldWrites = s.heldWrites := rfl
@[simp] theorem State.setMreg_plan (s : State) (a : Nat) (v : W64) : (s.setMreg a v).plan = s.plan := rfl
@[simp] theorem State.setMreg_rebind (s : State) (a : Nat) (v : W64) : (s.setMreg a v).rebind = s.rebind := rfl
@[simp] theorem State.setMreg_planRead (s : State) (a : Nat) (v : W64) : (s.setMreg a v).planRead = s.planRead := rfl
@[simp] theorem State.setMreg_tagDelta (s : State) (a : Nat) (v : W64) : (s.setMreg a v).tagDelta = s.tagDelta := rfl
@[simp] theorem State.setMreg_nodeOff (s : State) (a : Nat) (v : W64) : (s.setMreg a v).nodeOff = s.nodeOff := rfl
@[simp] theorem State.setMreg_srambad (s : State) (a : Nat) (v : W64) : (s.setMreg a v).srambad = s.srambad := rfl
@[simp] theorem State.setMreg_installs (s : State) (a : Nat) (v : W64) : (s.setMreg a v).installs = s.installs := rfl
@[simp] theorem State.setMreg_ioreqs (s : State) (a : Nat) (v : W64) : (s.setMreg a v).ioreqs = s.ioreqs := rfl
@[simp] theorem State.setMreg_frameLists (s : State) (a : Nat) (v : W64) : (s.setMreg a v).frameLists = s.frameLists := rfl
@[simp] theorem State.setMreg_frameAsks (s : State) (a : Nat) (v : W64) : (s.setMreg a v).frameAsks = s.frameAsks := rfl
@[simp] theorem State.setMreg_copied (s : State) (a : Nat) (v : W64) : (s.setMreg a v).copied = s.copied := rfl
@[simp] theorem State.setMreg_again (s : State) (a : Nat) (v : W64) : (s.setMreg a v).again = s.again := rfl
@[simp] theorem State.setMreg_badTree (s : State) (a : Nat) (v : W64) : (s.setMreg a v).badTree = s.badTree := rfl
@[simp] theorem State.setMreg_cec (s : State) (a : Nat) (v : W64) : (s.setMreg a v).cec = s.cec := rfl
@[simp] theorem State.setMreg_owners (s : State) (a : Nat) (v : W64) : (s.setMreg a v).owners = s.owners := rfl
@[simp] theorem State.setMreg_fuses (s : State) (a : Nat) (v : W64) : (s.setMreg a v).fuses = s.fuses := rfl
@[simp] theorem State.setMreg_presence (s : State) (a : Nat) (v : W64) : (s.setMreg a v).presence = s.presence := rfl
@[simp] theorem State.setMreg_recoveryStrap (s : State) (a : Nat) (v : W64) : (s.setMreg a v).recoveryStrap = s.recoveryStrap := rfl
@[simp] theorem State.setMreg_attests (s : State) (a : Nat) (v : W64) : (s.setMreg a v).attests = s.attests := rfl
@[simp] theorem State.setMreg_reported (s : State) (a : Nat) (v : W64) : (s.setMreg a v).reported = s.reported := rfl
@[simp] theorem State.setMreg_forced (s : State) (a : Nat) (v : W64) : (s.setMreg a v).forced = s.forced := rfl
@[simp] theorem State.setMreg_groups (s : State) (a : Nat) (v : W64) : (s.setMreg a v).groups = s.groups := rfl
@[simp] theorem State.setMreg_outgoing (s : State) (a : Nat) (v : W64) : (s.setMreg a v).outgoing = s.outgoing := rfl
@[simp] theorem State.setMreg_wire (s : State) (a : Nat) (v : W64) : (s.setMreg a v).wire = s.wire := rfl
@[simp] theorem State.setMreg_early (s : State) (a : Nat) (v : W64) : (s.setMreg a v).early = s.early := rfl
@[simp] theorem State.setMreg_colls (s : State) (a : Nat) (v : W64) : (s.setMreg a v).colls = s.colls := rfl
@[simp] theorem State.setMreg_flash (s : State) (a : Nat) (v : W64) : (s.setMreg a v).flash = s.flash := rfl
@[simp] theorem State.setMreg_flashq (s : State) (a : Nat) (v : W64) : (s.setMreg a v).flashq = s.flashq := rfl
@[simp] theorem State.setMreg_socks (s : State) (a : Nat) (v : W64) : (s.setMreg a v).socks = s.socks := rfl
@[simp] theorem State.setMreg_files (s : State) (a : Nat) (v : W64) : (s.setMreg a v).files = s.files := rfl
@[simp] theorem State.setMreg_heaps (s : State) (a : Nat) (v : W64) : (s.setMreg a v).heaps = s.heaps := rfl
@[simp] theorem State.setMreg_maps (s : State) (a : Nat) (v : W64) : (s.setMreg a v).maps = s.maps := rfl
@[simp] theorem State.setMreg_pools (s : State) (a : Nat) (v : W64) : (s.setMreg a v).pools = s.pools := rfl
@[simp] theorem State.setMreg_placed (s : State) (a : Nat) (v : W64) : (s.setMreg a v).placed = s.placed := rfl
@[simp] theorem State.setMreg_pooled (s : State) (a : Nat) (v : W64) : (s.setMreg a v).pooled = s.pooled := rfl
@[simp] theorem State.setMreg_unmaps (s : State) (a : Nat) (v : W64) : (s.setMreg a v).unmaps = s.unmaps := rfl
@[simp] theorem State.setMreg_jobs (s : State) (a : Nat) (v : W64) : (s.setMreg a v).jobs = s.jobs := rfl
@[simp] theorem State.setMreg_msixTable (s : State) (a : Nat) (v : W64) : (s.setMreg a v).msixTable = s.msixTable := rfl
@[simp] theorem State.setMreg_tested (s : State) (a : Nat) (v : W64) : (s.setMreg a v).tested = s.tested := rfl
@[simp] theorem State.setMreg_cool (s : State) (a : Nat) (v : W64) : (s.setMreg a v).cool = s.cool := rfl
@[simp] theorem State.setMreg_keys (s : State) (a : Nat) (v : W64) : (s.setMreg a v).keys = s.keys := rfl
@[simp] theorem State.setMreg_sliceKeys (s : State) (a : Nat) (v : W64) : (s.setMreg a v).sliceKeys = s.sliceKeys := rfl
@[simp] theorem State.setMreg_veils (s : State) (a : Nat) (v : W64) : (s.setMreg a v).veils = s.veils := rfl
@[simp] theorem State.setMreg_scrubAt (s : State) (a : Nat) (v : W64) : (s.setMreg a v).scrubAt = s.scrubAt := rfl
@[simp] theorem State.setMreg_aper (s : State) (a : Nat) (v : W64) : (s.setMreg a v).aper = s.aper := rfl
@[simp] theorem State.setMreg_clocks (s : State) (a : Nat) (v : W64) : (s.setMreg a v).clocks = s.clocks := rfl
@[simp] theorem State.setMreg_op (s : State) (a : Nat) (v : W64) : (s.setMreg a v).op = s.op := rfl

/-! ### A core -/

@[simp] theorem State.setCore_time (s : State) (n : Nat) (c : Core) : (s.setCore n c).time = s.time := rfl
@[simp] theorem State.setCore_agenda (s : State) (n : Nat) (c : Core) : (s.setCore n c).agenda = s.agenda := rfl
@[simp] theorem State.setCore_cur (s : State) (n : Nat) (c : Core) : (s.setCore n c).cur = s.cur := rfl
@[simp] theorem State.setCore_free (s : State) (n : Nat) (c : Core) : (s.setCore n c).free = s.free := rfl
@[simp] theorem State.setCore_next (s : State) (n : Nat) (c : Core) : (s.setCore n c).next = s.next := rfl
@[simp] theorem State.setCore_mem (s : State) (n : Nat) (c : Core) : (s.setCore n c).mem = s.mem := rfl
@[simp] theorem State.setCore_regs (s : State) (n : Nat) (c : Core) : (s.setCore n c).regs = s.regs := rfl
@[simp] theorem State.setCore_hq (s : State) (n : Nat) (c : Core) : (s.setCore n c).hq = s.hq := rfl
@[simp] theorem State.setCore_txns (s : State) (n : Nat) (c : Core) : (s.setCore n c).txns = s.txns := rfl
@[simp] theorem State.setCore_net (s : State) (n : Nat) (c : Core) : (s.setCore n c).net = s.net := rfl
@[simp] theorem State.setCore_l2use (s : State) (n : Nat) (c : Core) : (s.setCore n c).l2use = s.l2use := rfl
@[simp] theorem State.setCore_hostq (s : State) (n : Nat) (c : Core) : (s.setCore n c).hostq = s.hostq := rfl
@[simp] theorem State.setCore_poison (s : State) (n : Nat) (c : Core) : (s.setCore n c).poison = s.poison := rfl
@[simp] theorem State.setCore_badline (s : State) (n : Nat) (c : Core) : (s.setCore n c).badline = s.badline := rfl
@[simp] theorem State.setCore_frames (s : State) (n : Nat) (c : Core) : (s.setCore n c).frames = s.frames := rfl
@[simp] theorem State.setCore_minor (s : State) (n : Nat) (c : Core) : (s.setCore n c).minor = s.minor := rfl
@[simp] theorem State.setCore_major (s : State) (n : Nat) (c : Core) : (s.setCore n c).major = s.major := rfl
@[simp] theorem State.setCore_clamps (s : State) (n : Nat) (c : Core) : (s.setCore n c).clamps = s.clamps := rfl
@[simp] theorem State.setCore_mgmt (s : State) (n : Nat) (c : Core) : (s.setCore n c).mgmt = s.mgmt := rfl
@[simp] theorem State.setCore_ctb (s : State) (n : Nat) (c : Core) : (s.setCore n c).ctb = s.ctb := rfl
@[simp] theorem State.setCore_hubtb (s : State) (n : Nat) (c : Core) : (s.setCore n c).hubtb = s.hubtb := rfl
@[simp] theorem State.setCore_walks (s : State) (n : Nat) (c : Core) : (s.setCore n c).walks = s.walks := rfl
@[simp] theorem State.setCore_launches (s : State) (n : Nat) (c : Core) : (s.setCore n c).launches = s.launches := rfl
@[simp] theorem State.setCore_xfers (s : State) (n : Nat) (c : Core) : (s.setCore n c).xfers = s.xfers := rfl
@[simp] theorem State.setCore_xturn (s : State) (n : Nat) (c : Core) : (s.setCore n c).xturn = s.xturn := rfl
@[simp] theorem State.setCore_xlast (s : State) (n : Nat) (c : Core) : (s.setCore n c).xlast = s.xlast := rfl
@[simp] theorem State.setCore_remotes (s : State) (n : Nat) (c : Core) : (s.setCore n c).remotes = s.remotes := rfl
@[simp] theorem State.setCore_credits (s : State) (n : Nat) (c : Core) : (s.setCore n c).credits = s.credits := rfl
@[simp] theorem State.setCore_senders (s : State) (n : Nat) (c : Core) : (s.setCore n c).senders = s.senders := rfl
@[simp] theorem State.setCore_engfaults (s : State) (n : Nat) (c : Core) : (s.setCore n c).engfaults = s.engfaults := rfl
@[simp] theorem State.setCore_saved (s : State) (n : Nat) (c : Core) : (s.setCore n c).saved = s.saved := rfl
@[simp] theorem State.setCore_answers (s : State) (n : Nat) (c : Core) : (s.setCore n c).answers = s.answers := rfl
@[simp] theorem State.setCore_dists (s : State) (n : Nat) (c : Core) : (s.setCore n c).dists = s.dists := rfl
@[simp] theorem State.setCore_posted (s : State) (n : Nat) (c : Core) : (s.setCore n c).posted = s.posted := rfl
@[simp] theorem State.setCore_queues (s : State) (n : Nat) (c : Core) : (s.setCore n c).queues = s.queues := rfl
@[simp] theorem State.setCore_fins (s : State) (n : Nat) (c : Core) : (s.setCore n c).fins = s.fins := rfl
@[simp] theorem State.setCore_openPkts (s : State) (n : Nat) (c : Core) : (s.setCore n c).openPkts = s.openPkts := rfl
@[simp] theorem State.setCore_graphs (s : State) (n : Nat) (c : Core) : (s.setCore n c).graphs = s.graphs := rfl
@[simp] theorem State.setCore_procs (s : State) (n : Nat) (c : Core) : (s.setCore n c).procs = s.procs := rfl
@[simp] theorem State.setCore_roots (s : State) (n : Nat) (c : Core) : (s.setCore n c).roots = s.roots := rfl
@[simp] theorem State.setCore_hostout (s : State) (n : Nat) (c : Core) : (s.setCore n c).hostout = s.hostout := rfl
@[simp] theorem State.setCore_planDone (s : State) (n : Nat) (c : Core) : (s.setCore n c).planDone = s.planDone := rfl
@[simp] theorem State.setCore_heldWrites (s : State) (n : Nat) (c : Core) : (s.setCore n c).heldWrites = s.heldWrites := rfl
@[simp] theorem State.setCore_plan (s : State) (n : Nat) (c : Core) : (s.setCore n c).plan = s.plan := rfl
@[simp] theorem State.setCore_rebind (s : State) (n : Nat) (c : Core) : (s.setCore n c).rebind = s.rebind := rfl
@[simp] theorem State.setCore_planRead (s : State) (n : Nat) (c : Core) : (s.setCore n c).planRead = s.planRead := rfl
@[simp] theorem State.setCore_tagDelta (s : State) (n : Nat) (c : Core) : (s.setCore n c).tagDelta = s.tagDelta := rfl
@[simp] theorem State.setCore_nodeOff (s : State) (n : Nat) (c : Core) : (s.setCore n c).nodeOff = s.nodeOff := rfl
@[simp] theorem State.setCore_srambad (s : State) (n : Nat) (c : Core) : (s.setCore n c).srambad = s.srambad := rfl
@[simp] theorem State.setCore_installs (s : State) (n : Nat) (c : Core) : (s.setCore n c).installs = s.installs := rfl
@[simp] theorem State.setCore_ioreqs (s : State) (n : Nat) (c : Core) : (s.setCore n c).ioreqs = s.ioreqs := rfl
@[simp] theorem State.setCore_frameLists (s : State) (n : Nat) (c : Core) : (s.setCore n c).frameLists = s.frameLists := rfl
@[simp] theorem State.setCore_frameAsks (s : State) (n : Nat) (c : Core) : (s.setCore n c).frameAsks = s.frameAsks := rfl
@[simp] theorem State.setCore_copied (s : State) (n : Nat) (c : Core) : (s.setCore n c).copied = s.copied := rfl
@[simp] theorem State.setCore_again (s : State) (n : Nat) (c : Core) : (s.setCore n c).again = s.again := rfl
@[simp] theorem State.setCore_badTree (s : State) (n : Nat) (c : Core) : (s.setCore n c).badTree = s.badTree := rfl
@[simp] theorem State.setCore_cec (s : State) (n : Nat) (c : Core) : (s.setCore n c).cec = s.cec := rfl
@[simp] theorem State.setCore_owners (s : State) (n : Nat) (c : Core) : (s.setCore n c).owners = s.owners := rfl
@[simp] theorem State.setCore_fuses (s : State) (n : Nat) (c : Core) : (s.setCore n c).fuses = s.fuses := rfl
@[simp] theorem State.setCore_presence (s : State) (n : Nat) (c : Core) : (s.setCore n c).presence = s.presence := rfl
@[simp] theorem State.setCore_recoveryStrap (s : State) (n : Nat) (c : Core) : (s.setCore n c).recoveryStrap = s.recoveryStrap := rfl
@[simp] theorem State.setCore_attests (s : State) (n : Nat) (c : Core) : (s.setCore n c).attests = s.attests := rfl
@[simp] theorem State.setCore_reported (s : State) (n : Nat) (c : Core) : (s.setCore n c).reported = s.reported := rfl
@[simp] theorem State.setCore_forced (s : State) (n : Nat) (c : Core) : (s.setCore n c).forced = s.forced := rfl
@[simp] theorem State.setCore_groups (s : State) (n : Nat) (c : Core) : (s.setCore n c).groups = s.groups := rfl
@[simp] theorem State.setCore_outgoing (s : State) (n : Nat) (c : Core) : (s.setCore n c).outgoing = s.outgoing := rfl
@[simp] theorem State.setCore_wire (s : State) (n : Nat) (c : Core) : (s.setCore n c).wire = s.wire := rfl
@[simp] theorem State.setCore_early (s : State) (n : Nat) (c : Core) : (s.setCore n c).early = s.early := rfl
@[simp] theorem State.setCore_colls (s : State) (n : Nat) (c : Core) : (s.setCore n c).colls = s.colls := rfl
@[simp] theorem State.setCore_flash (s : State) (n : Nat) (c : Core) : (s.setCore n c).flash = s.flash := rfl
@[simp] theorem State.setCore_flashq (s : State) (n : Nat) (c : Core) : (s.setCore n c).flashq = s.flashq := rfl
@[simp] theorem State.setCore_socks (s : State) (n : Nat) (c : Core) : (s.setCore n c).socks = s.socks := rfl
@[simp] theorem State.setCore_files (s : State) (n : Nat) (c : Core) : (s.setCore n c).files = s.files := rfl
@[simp] theorem State.setCore_heaps (s : State) (n : Nat) (c : Core) : (s.setCore n c).heaps = s.heaps := rfl
@[simp] theorem State.setCore_maps (s : State) (n : Nat) (c : Core) : (s.setCore n c).maps = s.maps := rfl
@[simp] theorem State.setCore_pools (s : State) (n : Nat) (c : Core) : (s.setCore n c).pools = s.pools := rfl
@[simp] theorem State.setCore_placed (s : State) (n : Nat) (c : Core) : (s.setCore n c).placed = s.placed := rfl
@[simp] theorem State.setCore_pooled (s : State) (n : Nat) (c : Core) : (s.setCore n c).pooled = s.pooled := rfl
@[simp] theorem State.setCore_unmaps (s : State) (n : Nat) (c : Core) : (s.setCore n c).unmaps = s.unmaps := rfl
@[simp] theorem State.setCore_jobs (s : State) (n : Nat) (c : Core) : (s.setCore n c).jobs = s.jobs := rfl
@[simp] theorem State.setCore_msixTable (s : State) (n : Nat) (c : Core) : (s.setCore n c).msixTable = s.msixTable := rfl
@[simp] theorem State.setCore_tested (s : State) (n : Nat) (c : Core) : (s.setCore n c).tested = s.tested := rfl
@[simp] theorem State.setCore_cool (s : State) (n : Nat) (c : Core) : (s.setCore n c).cool = s.cool := rfl
@[simp] theorem State.setCore_keys (s : State) (n : Nat) (c : Core) : (s.setCore n c).keys = s.keys := rfl
@[simp] theorem State.setCore_sliceKeys (s : State) (n : Nat) (c : Core) : (s.setCore n c).sliceKeys = s.sliceKeys := rfl
@[simp] theorem State.setCore_veils (s : State) (n : Nat) (c : Core) : (s.setCore n c).veils = s.veils := rfl
@[simp] theorem State.setCore_scrubAt (s : State) (n : Nat) (c : Core) : (s.setCore n c).scrubAt = s.scrubAt := rfl
@[simp] theorem State.setCore_aper (s : State) (n : Nat) (c : Core) : (s.setCore n c).aper = s.aper := rfl
@[simp] theorem State.setCore_clocks (s : State) (n : Nat) (c : Core) : (s.setCore n c).clocks = s.clocks := rfl
@[simp] theorem State.setCore_op (s : State) (n : Nat) (c : Core) : (s.setCore n c).op = s.op := rfl

/-! ### A change of a core -/

@[simp] theorem State.updCore_time (s : State) (n : Nat) (f : Core → Core) : (s.updCore n f).time = s.time := rfl
@[simp] theorem State.updCore_agenda (s : State) (n : Nat) (f : Core → Core) : (s.updCore n f).agenda = s.agenda := rfl
@[simp] theorem State.updCore_cur (s : State) (n : Nat) (f : Core → Core) : (s.updCore n f).cur = s.cur := rfl
@[simp] theorem State.updCore_free (s : State) (n : Nat) (f : Core → Core) : (s.updCore n f).free = s.free := rfl
@[simp] theorem State.updCore_next (s : State) (n : Nat) (f : Core → Core) : (s.updCore n f).next = s.next := rfl
@[simp] theorem State.updCore_mem (s : State) (n : Nat) (f : Core → Core) : (s.updCore n f).mem = s.mem := rfl
@[simp] theorem State.updCore_regs (s : State) (n : Nat) (f : Core → Core) : (s.updCore n f).regs = s.regs := rfl
@[simp] theorem State.updCore_hq (s : State) (n : Nat) (f : Core → Core) : (s.updCore n f).hq = s.hq := rfl
@[simp] theorem State.updCore_txns (s : State) (n : Nat) (f : Core → Core) : (s.updCore n f).txns = s.txns := rfl
@[simp] theorem State.updCore_net (s : State) (n : Nat) (f : Core → Core) : (s.updCore n f).net = s.net := rfl
@[simp] theorem State.updCore_l2use (s : State) (n : Nat) (f : Core → Core) : (s.updCore n f).l2use = s.l2use := rfl
@[simp] theorem State.updCore_hostq (s : State) (n : Nat) (f : Core → Core) : (s.updCore n f).hostq = s.hostq := rfl
@[simp] theorem State.updCore_poison (s : State) (n : Nat) (f : Core → Core) : (s.updCore n f).poison = s.poison := rfl
@[simp] theorem State.updCore_badline (s : State) (n : Nat) (f : Core → Core) : (s.updCore n f).badline = s.badline := rfl
@[simp] theorem State.updCore_frames (s : State) (n : Nat) (f : Core → Core) : (s.updCore n f).frames = s.frames := rfl
@[simp] theorem State.updCore_minor (s : State) (n : Nat) (f : Core → Core) : (s.updCore n f).minor = s.minor := rfl
@[simp] theorem State.updCore_major (s : State) (n : Nat) (f : Core → Core) : (s.updCore n f).major = s.major := rfl
@[simp] theorem State.updCore_clamps (s : State) (n : Nat) (f : Core → Core) : (s.updCore n f).clamps = s.clamps := rfl
@[simp] theorem State.updCore_mgmt (s : State) (n : Nat) (f : Core → Core) : (s.updCore n f).mgmt = s.mgmt := rfl
@[simp] theorem State.updCore_ctb (s : State) (n : Nat) (f : Core → Core) : (s.updCore n f).ctb = s.ctb := rfl
@[simp] theorem State.updCore_hubtb (s : State) (n : Nat) (f : Core → Core) : (s.updCore n f).hubtb = s.hubtb := rfl
@[simp] theorem State.updCore_walks (s : State) (n : Nat) (f : Core → Core) : (s.updCore n f).walks = s.walks := rfl
@[simp] theorem State.updCore_launches (s : State) (n : Nat) (f : Core → Core) : (s.updCore n f).launches = s.launches := rfl
@[simp] theorem State.updCore_xfers (s : State) (n : Nat) (f : Core → Core) : (s.updCore n f).xfers = s.xfers := rfl
@[simp] theorem State.updCore_xturn (s : State) (n : Nat) (f : Core → Core) : (s.updCore n f).xturn = s.xturn := rfl
@[simp] theorem State.updCore_xlast (s : State) (n : Nat) (f : Core → Core) : (s.updCore n f).xlast = s.xlast := rfl
@[simp] theorem State.updCore_remotes (s : State) (n : Nat) (f : Core → Core) : (s.updCore n f).remotes = s.remotes := rfl
@[simp] theorem State.updCore_credits (s : State) (n : Nat) (f : Core → Core) : (s.updCore n f).credits = s.credits := rfl
@[simp] theorem State.updCore_senders (s : State) (n : Nat) (f : Core → Core) : (s.updCore n f).senders = s.senders := rfl
@[simp] theorem State.updCore_engfaults (s : State) (n : Nat) (f : Core → Core) : (s.updCore n f).engfaults = s.engfaults := rfl
@[simp] theorem State.updCore_saved (s : State) (n : Nat) (f : Core → Core) : (s.updCore n f).saved = s.saved := rfl
@[simp] theorem State.updCore_answers (s : State) (n : Nat) (f : Core → Core) : (s.updCore n f).answers = s.answers := rfl
@[simp] theorem State.updCore_dists (s : State) (n : Nat) (f : Core → Core) : (s.updCore n f).dists = s.dists := rfl
@[simp] theorem State.updCore_posted (s : State) (n : Nat) (f : Core → Core) : (s.updCore n f).posted = s.posted := rfl
@[simp] theorem State.updCore_queues (s : State) (n : Nat) (f : Core → Core) : (s.updCore n f).queues = s.queues := rfl
@[simp] theorem State.updCore_fins (s : State) (n : Nat) (f : Core → Core) : (s.updCore n f).fins = s.fins := rfl
@[simp] theorem State.updCore_openPkts (s : State) (n : Nat) (f : Core → Core) : (s.updCore n f).openPkts = s.openPkts := rfl
@[simp] theorem State.updCore_graphs (s : State) (n : Nat) (f : Core → Core) : (s.updCore n f).graphs = s.graphs := rfl
@[simp] theorem State.updCore_procs (s : State) (n : Nat) (f : Core → Core) : (s.updCore n f).procs = s.procs := rfl
@[simp] theorem State.updCore_roots (s : State) (n : Nat) (f : Core → Core) : (s.updCore n f).roots = s.roots := rfl
@[simp] theorem State.updCore_hostout (s : State) (n : Nat) (f : Core → Core) : (s.updCore n f).hostout = s.hostout := rfl
@[simp] theorem State.updCore_planDone (s : State) (n : Nat) (f : Core → Core) : (s.updCore n f).planDone = s.planDone := rfl
@[simp] theorem State.updCore_heldWrites (s : State) (n : Nat) (f : Core → Core) : (s.updCore n f).heldWrites = s.heldWrites := rfl
@[simp] theorem State.updCore_plan (s : State) (n : Nat) (f : Core → Core) : (s.updCore n f).plan = s.plan := rfl
@[simp] theorem State.updCore_rebind (s : State) (n : Nat) (f : Core → Core) : (s.updCore n f).rebind = s.rebind := rfl
@[simp] theorem State.updCore_planRead (s : State) (n : Nat) (f : Core → Core) : (s.updCore n f).planRead = s.planRead := rfl
@[simp] theorem State.updCore_tagDelta (s : State) (n : Nat) (f : Core → Core) : (s.updCore n f).tagDelta = s.tagDelta := rfl
@[simp] theorem State.updCore_nodeOff (s : State) (n : Nat) (f : Core → Core) : (s.updCore n f).nodeOff = s.nodeOff := rfl
@[simp] theorem State.updCore_srambad (s : State) (n : Nat) (f : Core → Core) : (s.updCore n f).srambad = s.srambad := rfl
@[simp] theorem State.updCore_installs (s : State) (n : Nat) (f : Core → Core) : (s.updCore n f).installs = s.installs := rfl
@[simp] theorem State.updCore_ioreqs (s : State) (n : Nat) (f : Core → Core) : (s.updCore n f).ioreqs = s.ioreqs := rfl
@[simp] theorem State.updCore_frameLists (s : State) (n : Nat) (f : Core → Core) : (s.updCore n f).frameLists = s.frameLists := rfl
@[simp] theorem State.updCore_frameAsks (s : State) (n : Nat) (f : Core → Core) : (s.updCore n f).frameAsks = s.frameAsks := rfl
@[simp] theorem State.updCore_copied (s : State) (n : Nat) (f : Core → Core) : (s.updCore n f).copied = s.copied := rfl
@[simp] theorem State.updCore_again (s : State) (n : Nat) (f : Core → Core) : (s.updCore n f).again = s.again := rfl
@[simp] theorem State.updCore_badTree (s : State) (n : Nat) (f : Core → Core) : (s.updCore n f).badTree = s.badTree := rfl
@[simp] theorem State.updCore_cec (s : State) (n : Nat) (f : Core → Core) : (s.updCore n f).cec = s.cec := rfl
@[simp] theorem State.updCore_owners (s : State) (n : Nat) (f : Core → Core) : (s.updCore n f).owners = s.owners := rfl
@[simp] theorem State.updCore_fuses (s : State) (n : Nat) (f : Core → Core) : (s.updCore n f).fuses = s.fuses := rfl
@[simp] theorem State.updCore_presence (s : State) (n : Nat) (f : Core → Core) : (s.updCore n f).presence = s.presence := rfl
@[simp] theorem State.updCore_recoveryStrap (s : State) (n : Nat) (f : Core → Core) : (s.updCore n f).recoveryStrap = s.recoveryStrap := rfl
@[simp] theorem State.updCore_attests (s : State) (n : Nat) (f : Core → Core) : (s.updCore n f).attests = s.attests := rfl
@[simp] theorem State.updCore_reported (s : State) (n : Nat) (f : Core → Core) : (s.updCore n f).reported = s.reported := rfl
@[simp] theorem State.updCore_forced (s : State) (n : Nat) (f : Core → Core) : (s.updCore n f).forced = s.forced := rfl
@[simp] theorem State.updCore_groups (s : State) (n : Nat) (f : Core → Core) : (s.updCore n f).groups = s.groups := rfl
@[simp] theorem State.updCore_outgoing (s : State) (n : Nat) (f : Core → Core) : (s.updCore n f).outgoing = s.outgoing := rfl
@[simp] theorem State.updCore_wire (s : State) (n : Nat) (f : Core → Core) : (s.updCore n f).wire = s.wire := rfl
@[simp] theorem State.updCore_early (s : State) (n : Nat) (f : Core → Core) : (s.updCore n f).early = s.early := rfl
@[simp] theorem State.updCore_colls (s : State) (n : Nat) (f : Core → Core) : (s.updCore n f).colls = s.colls := rfl
@[simp] theorem State.updCore_flash (s : State) (n : Nat) (f : Core → Core) : (s.updCore n f).flash = s.flash := rfl
@[simp] theorem State.updCore_flashq (s : State) (n : Nat) (f : Core → Core) : (s.updCore n f).flashq = s.flashq := rfl
@[simp] theorem State.updCore_socks (s : State) (n : Nat) (f : Core → Core) : (s.updCore n f).socks = s.socks := rfl
@[simp] theorem State.updCore_files (s : State) (n : Nat) (f : Core → Core) : (s.updCore n f).files = s.files := rfl
@[simp] theorem State.updCore_heaps (s : State) (n : Nat) (f : Core → Core) : (s.updCore n f).heaps = s.heaps := rfl
@[simp] theorem State.updCore_maps (s : State) (n : Nat) (f : Core → Core) : (s.updCore n f).maps = s.maps := rfl
@[simp] theorem State.updCore_pools (s : State) (n : Nat) (f : Core → Core) : (s.updCore n f).pools = s.pools := rfl
@[simp] theorem State.updCore_placed (s : State) (n : Nat) (f : Core → Core) : (s.updCore n f).placed = s.placed := rfl
@[simp] theorem State.updCore_pooled (s : State) (n : Nat) (f : Core → Core) : (s.updCore n f).pooled = s.pooled := rfl
@[simp] theorem State.updCore_unmaps (s : State) (n : Nat) (f : Core → Core) : (s.updCore n f).unmaps = s.unmaps := rfl
@[simp] theorem State.updCore_jobs (s : State) (n : Nat) (f : Core → Core) : (s.updCore n f).jobs = s.jobs := rfl
@[simp] theorem State.updCore_msixTable (s : State) (n : Nat) (f : Core → Core) : (s.updCore n f).msixTable = s.msixTable := rfl
@[simp] theorem State.updCore_tested (s : State) (n : Nat) (f : Core → Core) : (s.updCore n f).tested = s.tested := rfl
@[simp] theorem State.updCore_cool (s : State) (n : Nat) (f : Core → Core) : (s.updCore n f).cool = s.cool := rfl
@[simp] theorem State.updCore_keys (s : State) (n : Nat) (f : Core → Core) : (s.updCore n f).keys = s.keys := rfl
@[simp] theorem State.updCore_sliceKeys (s : State) (n : Nat) (f : Core → Core) : (s.updCore n f).sliceKeys = s.sliceKeys := rfl
@[simp] theorem State.updCore_veils (s : State) (n : Nat) (f : Core → Core) : (s.updCore n f).veils = s.veils := rfl
@[simp] theorem State.updCore_scrubAt (s : State) (n : Nat) (f : Core → Core) : (s.updCore n f).scrubAt = s.scrubAt := rfl
@[simp] theorem State.updCore_aper (s : State) (n : Nat) (f : Core → Core) : (s.updCore n f).aper = s.aper := rfl
@[simp] theorem State.updCore_clocks (s : State) (n : Nat) (f : Core → Core) : (s.updCore n f).clocks = s.clocks := rfl
@[simp] theorem State.updCore_op (s : State) (n : Nat) (f : Core → Core) : (s.updCore n f).op = s.op := rfl

/-! ### A view put back -/

@[simp] theorem View.close_time (v : View) : (v.close).time = v.s.time := rfl
@[simp] theorem View.close_agenda (v : View) : (v.close).agenda = v.s.agenda := rfl
@[simp] theorem View.close_cur (v : View) : (v.close).cur = v.s.cur := rfl
@[simp] theorem View.close_free (v : View) : (v.close).free = v.s.free := rfl
@[simp] theorem View.close_next (v : View) : (v.close).next = v.s.next := rfl
@[simp] theorem View.close_mem (v : View) : (v.close).mem = v.s.mem := rfl
@[simp] theorem View.close_regs (v : View) : (v.close).regs = v.s.regs := rfl
@[simp] theorem View.close_hq (v : View) : (v.close).hq = v.s.hq := rfl
@[simp] theorem View.close_txns (v : View) : (v.close).txns = v.s.txns := rfl
@[simp] theorem View.close_net (v : View) : (v.close).net = v.s.net := rfl
@[simp] theorem View.close_l2use (v : View) : (v.close).l2use = v.s.l2use := rfl
@[simp] theorem View.close_hostq (v : View) : (v.close).hostq = v.s.hostq := rfl
@[simp] theorem View.close_poison (v : View) : (v.close).poison = v.s.poison := rfl
@[simp] theorem View.close_badline (v : View) : (v.close).badline = v.s.badline := rfl
@[simp] theorem View.close_frames (v : View) : (v.close).frames = v.s.frames := rfl
@[simp] theorem View.close_minor (v : View) : (v.close).minor = v.s.minor := rfl
@[simp] theorem View.close_major (v : View) : (v.close).major = v.s.major := rfl
@[simp] theorem View.close_clamps (v : View) : (v.close).clamps = v.s.clamps := rfl
@[simp] theorem View.close_mgmt (v : View) : (v.close).mgmt = v.s.mgmt := rfl
@[simp] theorem View.close_ctb (v : View) : (v.close).ctb = v.s.ctb := rfl
@[simp] theorem View.close_hubtb (v : View) : (v.close).hubtb = v.s.hubtb := rfl
@[simp] theorem View.close_walks (v : View) : (v.close).walks = v.s.walks := rfl
@[simp] theorem View.close_launches (v : View) : (v.close).launches = v.s.launches := rfl
@[simp] theorem View.close_xfers (v : View) : (v.close).xfers = v.s.xfers := rfl
@[simp] theorem View.close_xturn (v : View) : (v.close).xturn = v.s.xturn := rfl
@[simp] theorem View.close_xlast (v : View) : (v.close).xlast = v.s.xlast := rfl
@[simp] theorem View.close_remotes (v : View) : (v.close).remotes = v.s.remotes := rfl
@[simp] theorem View.close_credits (v : View) : (v.close).credits = v.s.credits := rfl
@[simp] theorem View.close_senders (v : View) : (v.close).senders = v.s.senders := rfl
@[simp] theorem View.close_engfaults (v : View) : (v.close).engfaults = v.s.engfaults := rfl
@[simp] theorem View.close_saved (v : View) : (v.close).saved = v.s.saved := rfl
@[simp] theorem View.close_answers (v : View) : (v.close).answers = v.s.answers := rfl
@[simp] theorem View.close_dists (v : View) : (v.close).dists = v.s.dists := rfl
@[simp] theorem View.close_posted (v : View) : (v.close).posted = v.s.posted := rfl
@[simp] theorem View.close_queues (v : View) : (v.close).queues = v.s.queues := rfl
@[simp] theorem View.close_fins (v : View) : (v.close).fins = v.s.fins := rfl
@[simp] theorem View.close_openPkts (v : View) : (v.close).openPkts = v.s.openPkts := rfl
@[simp] theorem View.close_graphs (v : View) : (v.close).graphs = v.s.graphs := rfl
@[simp] theorem View.close_procs (v : View) : (v.close).procs = v.s.procs := rfl
@[simp] theorem View.close_roots (v : View) : (v.close).roots = v.s.roots := rfl
@[simp] theorem View.close_hostout (v : View) : (v.close).hostout = v.s.hostout := rfl
@[simp] theorem View.close_planDone (v : View) : (v.close).planDone = v.s.planDone := rfl
@[simp] theorem View.close_heldWrites (v : View) : (v.close).heldWrites = v.s.heldWrites := rfl
@[simp] theorem View.close_plan (v : View) : (v.close).plan = v.s.plan := rfl
@[simp] theorem View.close_rebind (v : View) : (v.close).rebind = v.s.rebind := rfl
@[simp] theorem View.close_planRead (v : View) : (v.close).planRead = v.s.planRead := rfl
@[simp] theorem View.close_tagDelta (v : View) : (v.close).tagDelta = v.s.tagDelta := rfl
@[simp] theorem View.close_nodeOff (v : View) : (v.close).nodeOff = v.s.nodeOff := rfl
@[simp] theorem View.close_srambad (v : View) : (v.close).srambad = v.s.srambad := rfl
@[simp] theorem View.close_installs (v : View) : (v.close).installs = v.s.installs := rfl
@[simp] theorem View.close_ioreqs (v : View) : (v.close).ioreqs = v.s.ioreqs := rfl
@[simp] theorem View.close_frameLists (v : View) : (v.close).frameLists = v.s.frameLists := rfl
@[simp] theorem View.close_frameAsks (v : View) : (v.close).frameAsks = v.s.frameAsks := rfl
@[simp] theorem View.close_copied (v : View) : (v.close).copied = v.s.copied := rfl
@[simp] theorem View.close_again (v : View) : (v.close).again = v.s.again := rfl
@[simp] theorem View.close_badTree (v : View) : (v.close).badTree = v.s.badTree := rfl
@[simp] theorem View.close_cec (v : View) : (v.close).cec = v.s.cec := rfl
@[simp] theorem View.close_owners (v : View) : (v.close).owners = v.s.owners := rfl
@[simp] theorem View.close_fuses (v : View) : (v.close).fuses = v.s.fuses := rfl
@[simp] theorem View.close_presence (v : View) : (v.close).presence = v.s.presence := rfl
@[simp] theorem View.close_recoveryStrap (v : View) : (v.close).recoveryStrap = v.s.recoveryStrap := rfl
@[simp] theorem View.close_attests (v : View) : (v.close).attests = v.s.attests := rfl
@[simp] theorem View.close_reported (v : View) : (v.close).reported = v.s.reported := rfl
@[simp] theorem View.close_forced (v : View) : (v.close).forced = v.s.forced := rfl
@[simp] theorem View.close_groups (v : View) : (v.close).groups = v.s.groups := rfl
@[simp] theorem View.close_outgoing (v : View) : (v.close).outgoing = v.s.outgoing := rfl
@[simp] theorem View.close_wire (v : View) : (v.close).wire = v.s.wire := rfl
@[simp] theorem View.close_early (v : View) : (v.close).early = v.s.early := rfl
@[simp] theorem View.close_colls (v : View) : (v.close).colls = v.s.colls := rfl
@[simp] theorem View.close_flash (v : View) : (v.close).flash = v.s.flash := rfl
@[simp] theorem View.close_flashq (v : View) : (v.close).flashq = v.s.flashq := rfl
@[simp] theorem View.close_socks (v : View) : (v.close).socks = v.s.socks := rfl
@[simp] theorem View.close_files (v : View) : (v.close).files = v.s.files := rfl
@[simp] theorem View.close_heaps (v : View) : (v.close).heaps = v.s.heaps := rfl
@[simp] theorem View.close_maps (v : View) : (v.close).maps = v.s.maps := rfl
@[simp] theorem View.close_pools (v : View) : (v.close).pools = v.s.pools := rfl
@[simp] theorem View.close_placed (v : View) : (v.close).placed = v.s.placed := rfl
@[simp] theorem View.close_pooled (v : View) : (v.close).pooled = v.s.pooled := rfl
@[simp] theorem View.close_unmaps (v : View) : (v.close).unmaps = v.s.unmaps := rfl
@[simp] theorem View.close_jobs (v : View) : (v.close).jobs = v.s.jobs := rfl
@[simp] theorem View.close_msixTable (v : View) : (v.close).msixTable = v.s.msixTable := rfl
@[simp] theorem View.close_tested (v : View) : (v.close).tested = v.s.tested := rfl
@[simp] theorem View.close_cool (v : View) : (v.close).cool = v.s.cool := rfl
@[simp] theorem View.close_keys (v : View) : (v.close).keys = v.s.keys := rfl
@[simp] theorem View.close_sliceKeys (v : View) : (v.close).sliceKeys = v.s.sliceKeys := rfl
@[simp] theorem View.close_veils (v : View) : (v.close).veils = v.s.veils := rfl
@[simp] theorem View.close_scrubAt (v : View) : (v.close).scrubAt = v.s.scrubAt := rfl
@[simp] theorem View.close_aper (v : View) : (v.close).aper = v.s.aper := rfl
@[simp] theorem View.close_clocks (v : View) : (v.close).clocks = v.s.clocks := rfl
@[simp] theorem View.close_op (v : View) : (v.close).op = v.s.op := rfl

/-! ### A split of a pack -/

@[simp] theorem Pack.setSplit_launch (p : Pack) (i : Nat) (x : Option Split) : (p.setSplit i x).launch = p.launch := rfl
@[simp] theorem Pack.setSplit_wg (p : Pack) (i : Nat) (x : Option Split) : (p.setSplit i x).wg = p.wg := rfl
@[simp] theorem Pack.setSplit_idx (p : Pack) (i : Nat) (x : Option Split) : (p.setSplit i x).idx = p.idx := rfl
@[simp] theorem Pack.setSplit_gen (p : Pack) (i : Nat) (x : Option Split) : (p.setSplit i x).gen = p.gen := rfl
@[simp] theorem Pack.setSplit_lmask (p : Pack) (i : Nat) (x : Option Split) : (p.setSplit i x).lmask = p.lmask := rfl
@[simp] theorem Pack.setSplit_live (p : Pack) (i : Nat) (x : Option Split) : (p.setSplit i x).live = p.live := rfl
@[simp] theorem Pack.setSplit_s (p : Pack) (i : Nat) (x : Option Split) : (p.setSplit i x).s = p.s := rfl
@[simp] theorem Pack.setSplit_a (p : Pack) (i : Nat) (x : Option Split) : (p.setSplit i x).a = p.a := rfl
@[simp] theorem Pack.setSplit_p (p : Pack) (i : Nat) (x : Option Split) : (p.setSplit i x).p = p.p := rfl
@[simp] theorem Pack.setSplit_spr (p : Pack) (i : Nat) (x : Option Split) : (p.setSplit i x).spr = p.spr := rfl
@[simp] theorem Pack.setSplit_rows (p : Pack) (i : Nat) (x : Option Split) : (p.setSplit i x).rows = p.rows := rfl
@[simp] theorem Pack.setSplit_late (p : Pack) (i : Nat) (x : Option Split) : (p.setSplit i x).late = p.late := rfl
@[simp] theorem Pack.setSplit_base (p : Pack) (i : Nat) (x : Option Split) : (p.setSplit i x).base = p.base := rfl
@[simp] theorem Pack.setSplit_size (p : Pack) (i : Nat) (x : Option Split) : (p.setSplit i x).size = p.size := rfl
@[simp] theorem Pack.setSplit_asid (p : Pack) (i : Nat) (x : Option Split) : (p.setSplit i x).asid = p.asid := rfl
@[simp] theorem Pack.setSplit_root (p : Pack) (i : Nat) (x : Option Split) : (p.setSplit i x).root = p.root := rfl
@[simp] theorem Pack.setSplit_preg (p : Pack) (i : Nat) (x : Option Split) : (p.setSplit i x).preg = p.preg := rfl
@[simp] theorem Pack.setSplit_hostw (p : Pack) (i : Nat) (x : Option Split) : (p.setSplit i x).hostw = p.hostw := rfl
@[simp] theorem Pack.setSplit_heels (p : Pack) (i : Nat) (x : Option Split) : (p.setSplit i x).heels = p.heels := rfl
@[simp] theorem Pack.setSplit_deferred (p : Pack) (i : Nat) (x : Option Split) : (p.setSplit i x).deferred = p.deferred := rfl
@[simp] theorem Pack.setSplit_resv (p : Pack) (i : Nat) (x : Option Split) : (p.setSplit i x).resv = p.resv := rfl
@[simp] theorem Pack.setSplit_stop (p : Pack) (i : Nat) (x : Option Split) : (p.setSplit i x).stop = p.stop := rfl
@[simp] theorem Pack.setSplit_sq (p : Pack) (i : Nat) (x : Option Split) : (p.setSplit i x).sq = p.sq := rfl
@[simp] theorem Pack.setSplit_fairSplit (p : Pack) (i : Nat) (x : Option Split) : (p.setSplit i x).fairSplit = p.fairSplit := rfl
@[simp] theorem Pack.setSplit_fairCount (p : Pack) (i : Nat) (x : Option Split) : (p.setSplit i x).fairCount = p.fairCount := rfl
@[simp] theorem Pack.setSplit_ended (p : Pack) (i : Nat) (x : Option Split) : (p.setSplit i x).ended = p.ended := rfl
@[simp] theorem Pack.setSplit_bad (p : Pack) (i : Nat) (x : Option Split) : (p.setSplit i x).bad = p.bad := rfl

/-! ### A special register of a pack -/

@[simp] theorem Pack.setSpecial_launch (p : Pack) (n : Nat) (v : W64) : (p.setSpecial n v).launch = p.launch := rfl
@[simp] theorem Pack.setSpecial_wg (p : Pack) (n : Nat) (v : W64) : (p.setSpecial n v).wg = p.wg := rfl
@[simp] theorem Pack.setSpecial_idx (p : Pack) (n : Nat) (v : W64) : (p.setSpecial n v).idx = p.idx := rfl
@[simp] theorem Pack.setSpecial_gen (p : Pack) (n : Nat) (v : W64) : (p.setSpecial n v).gen = p.gen := rfl
@[simp] theorem Pack.setSpecial_lmask (p : Pack) (n : Nat) (v : W64) : (p.setSpecial n v).lmask = p.lmask := rfl
@[simp] theorem Pack.setSpecial_live (p : Pack) (n : Nat) (v : W64) : (p.setSpecial n v).live = p.live := rfl
@[simp] theorem Pack.setSpecial_s (p : Pack) (n : Nat) (v : W64) : (p.setSpecial n v).s = p.s := rfl
@[simp] theorem Pack.setSpecial_a (p : Pack) (n : Nat) (v : W64) : (p.setSpecial n v).a = p.a := rfl
@[simp] theorem Pack.setSpecial_p (p : Pack) (n : Nat) (v : W64) : (p.setSpecial n v).p = p.p := rfl
@[simp] theorem Pack.setSpecial_rows (p : Pack) (n : Nat) (v : W64) : (p.setSpecial n v).rows = p.rows := rfl
@[simp] theorem Pack.setSpecial_late (p : Pack) (n : Nat) (v : W64) : (p.setSpecial n v).late = p.late := rfl
@[simp] theorem Pack.setSpecial_base (p : Pack) (n : Nat) (v : W64) : (p.setSpecial n v).base = p.base := rfl
@[simp] theorem Pack.setSpecial_size (p : Pack) (n : Nat) (v : W64) : (p.setSpecial n v).size = p.size := rfl
@[simp] theorem Pack.setSpecial_asid (p : Pack) (n : Nat) (v : W64) : (p.setSpecial n v).asid = p.asid := rfl
@[simp] theorem Pack.setSpecial_root (p : Pack) (n : Nat) (v : W64) : (p.setSpecial n v).root = p.root := rfl
@[simp] theorem Pack.setSpecial_preg (p : Pack) (n : Nat) (v : W64) : (p.setSpecial n v).preg = p.preg := rfl
@[simp] theorem Pack.setSpecial_hostw (p : Pack) (n : Nat) (v : W64) : (p.setSpecial n v).hostw = p.hostw := rfl
@[simp] theorem Pack.setSpecial_splits (p : Pack) (n : Nat) (v : W64) : (p.setSpecial n v).splits = p.splits := rfl
@[simp] theorem Pack.setSpecial_heels (p : Pack) (n : Nat) (v : W64) : (p.setSpecial n v).heels = p.heels := rfl
@[simp] theorem Pack.setSpecial_deferred (p : Pack) (n : Nat) (v : W64) : (p.setSpecial n v).deferred = p.deferred := rfl
@[simp] theorem Pack.setSpecial_resv (p : Pack) (n : Nat) (v : W64) : (p.setSpecial n v).resv = p.resv := rfl
@[simp] theorem Pack.setSpecial_stop (p : Pack) (n : Nat) (v : W64) : (p.setSpecial n v).stop = p.stop := rfl
@[simp] theorem Pack.setSpecial_sq (p : Pack) (n : Nat) (v : W64) : (p.setSpecial n v).sq = p.sq := rfl
@[simp] theorem Pack.setSpecial_fairSplit (p : Pack) (n : Nat) (v : W64) : (p.setSpecial n v).fairSplit = p.fairSplit := rfl
@[simp] theorem Pack.setSpecial_fairCount (p : Pack) (n : Nat) (v : W64) : (p.setSpecial n v).fairCount = p.fairCount := rfl
@[simp] theorem Pack.setSpecial_ended (p : Pack) (n : Nat) (v : W64) : (p.setSpecial n v).ended = p.ended := rfl
@[simp] theorem Pack.setSpecial_bad (p : Pack) (n : Nat) (v : W64) : (p.setSpecial n v).bad = p.bad := rfl

/-! ### What was written is read -/

@[simp] theorem State.core_setCore (s : State) (n : Nat) (c : Core) : (s.setCore n c).core n = c := by
  simp [State.core, State.setCore, get_eq_look]

theorem State.core_setCore_ne (s : State) (n k : Nat) (c : Core) (h : n ≠ k) : (s.setCore n c).core k = s.core k := by
  simp [State.core, State.setCore, get_eq_look, look_ins_ne _ _ _ _ h]

@[simp] theorem State.core_updCore (s : State) (n : Nat) (f : Core → Core) : (s.updCore n f).core n = f (s.core n) := by
  simp [State.updCore]

theorem State.core_updCore_ne (s : State) (n k : Nat) (f : Core → Core) (h : n ≠ k) : (s.updCore n f).core k = s.core k :=
  s.core_setCore_ne n k _ h

@[simp] theorem Pack.special_setSpecial (p : Pack) (n : Nat) (v : W64) : (p.setSpecial n v).special n = v := by
  simp [Pack.special, Pack.setSpecial]

theorem Pack.special_setSpecial_ne (p : Pack) (n k : Nat) (v : W64) (h : n ≠ k) : (p.setSpecial n v).special k = p.special k :=
  get_set_ne _ _ _ _ _ h

end Sys2Proof.Machine
end

