-- ==== Sys2Proof/Laws/Access.lean ====
section
/-! SUPPORT. What translation, a release and a claim of words come to where nothing makes them wait: each condition on the state alone gives
the condition that the access's own parts compute. -/

namespace Sys2Proof.Machine

/-! ### Views that differ in what looking pages up changes -/

/-- What looking pages up changes: the order of the micro-buffer, the cluster's buffer, and what the instruction has resolved. -/
structure View.Near (v w : View) : Prop where
  s : w.s = { v.s with cores := w.s.cores, ctb := w.s.ctb }
  co : w.co = { v.co with utlb := w.co.utlb }
  sp : w.sp = { v.sp with xl := w.sp.xl }
  pk : w.pk = v.pk
  ag : w.ag = v.ag
  slot : w.slot = v.slot
  ix : w.ix = v.ix
  now : w.now = v.now
  dead : w.dead = v.dead

theorem View.Near.refl (v : View) : v.Near v := ⟨rfl, rfl, rfl, rfl, rfl, rfl, rfl, rfl, rfl⟩

theorem View.Near.trans {u v w : View} (h : u.Near v) (k : v.Near w) : u.Near w where
  s := by rw [k.s, h.s]
  co := by rw [k.co, h.co]
  sp := by rw [k.sp, h.sp]
  pk := k.pk.trans h.pk
  ag := k.ag.trans h.ag
  slot := k.slot.trans h.slot
  ix := k.ix.trans h.ix
  now := k.now.trans h.now
  dead := k.dead.trans h.dead

theorem View.Near.raw {v w : View} (h : v.Near w) (x : Nat) : w.co.raw x = v.co.raw x := by rw [h.co]; rfl
theorem View.Near.closeRaw {v w : View} (h : v.Near w) (x : Nat) : (w.close.core w.ag).raw x = v.co.raw x := by
  rw [← h.raw x]; simp [View.close, Core.raw]
theorem View.Near.partOfAgent {v w : View} (h : v.Near w) : w.s.partOfAgent w.ag = v.s.partOfAgent v.ag := by
  rw [h.s, h.ag]; rfl
theorem View.Near.svc {v w : View} (h : v.Near w) : w.svc = v.svc := by simp [View.svc, h.ag]
theorem View.Near.rootFlaw {v w : View} (h : v.Near w) (p : Option Nat) (x : W64) : w.s.rootFlaw p x = v.s.rootFlaw p x := by
  rw [h.s]; rfl
theorem View.Near.paFlaw {v w : View} (h : v.Near w) (q : Who) (x : W64) (l pa : Nat) : w.s.paFlaw q x l pa = v.s.paFlaw q x l pa := by
  rw [h.s]; rfl
theorem View.Near.outstanding {v w : View} (h : v.Near w) (p : MemOp → Bool) : w.outstanding p = v.outstanding p := by
  unfold View.outstanding; rw [h.co, h.slot]
theorem View.Near.sibRelease {v w : View} (h : v.Near w) : w.sibRelease = v.sibRelease := by
  simp only [View.sibRelease, h.pk, h.ix, View.svc, h.ag]
theorem View.Near.syncBusy {v w : View} (h : v.Near w) : w.syncBusy = v.syncBusy := by
  simp only [View.syncBusy, h.outstanding, h.sibRelease]
theorem View.Near.atomHolds {v w : View} (h : v.Near w) (ws : List Nat) : w.atomHolds ws = v.atomHolds ws := h.outstanding _
theorem View.Near.returnable {v w : View} (h : v.Near w) {ws : List Nat} (k : v.returnable ws) : w.returnable ws :=
  ⟨(h.atomHolds ws).trans k.1, fun x hx => by rw [h.raw]; exact k.2 x hx⟩
theorem View.Near.fetching {v w : View} (h : v.Near w) : w.fetching = v.fetching := by
  unfold View.fetching; rw [h.co, h.slot]

theorem View.acqBusy_kill (v : View) (r : Nat) (m : Mask) : (v.kill r m).acqBusy = v.acqBusy := by
  have key : ∀ (l : List (Nat × Split)) (w : View), w.co = v.co → w.slot = v.slot →
      (l.foldl (fun (w : View) y => { w with pk := w.pk.updSplit y.1 (fun z =>
        { z with win := killIn (served z.win r (m &&& z.owned) w.now) z.win }) }) w).acqBusy = v.acqBusy := by
    intro l
    induction l with
    | nil => intro w h1 h2; simp only [List.foldl_nil, View.acqBusy, View.outstanding, h1, h2]
    | cons y l ih => intro w h1 h2; exact ih _ h1 h2
  exact key v.siblings v rfl rfl
theorem View.acqBusy_lastUse (v : View) (g : Bool) (x : VSrc) (m : Mask) : (v.lastUse g x m).acqBusy = v.acqBusy := by
  unfold View.lastUse
  split
  · rfl
  · cases g <;> simp only [Bool.false_eq_true, if_false, if_true, View.acqBusy_kill]
theorem View.acqBusy_lastAddr (v : View) (g : Bool) (ad : Addr) (m : Mask) : (v.lastAddr g ad m).acqBusy = v.acqBusy := by
  cases ad <;> first | rfl | exact View.acqBusy_lastUse v g _ m

/-! ### Pages -/

theorem vpnOf_div (va : Nat) : vpnOf va = (va % 2 ^ 57) / 2 ^ 16 := by unfold vpnOf; omega

/-- An entry covers every address of a page or none. -/
theorem TlbEntry.hits_page (e : TlbEntry) (asid a b : Nat) (h : vpnOf a = vpnOf b) : e.hits asid a = e.hits asid b := by
  have k : ∀ x : Nat, (x % 2 ^ 57) / 2 ^ levelShift e.level = vpnOf x / 2 ^ (10 * e.level) := by
    intro x
    rw [vpnOf_div, Nat.div_div_eq_div_mul, ← Nat.pow_add, levelShift]
  simp only [TlbEntry.hits, k, h]

theorem find_unique {α : Type} {l : List α} {p : α → Bool} {a : α} (ha : a ∈ l) (hp : p a = true)
    (hu : ∀ x ∈ l, p x = true → x = a) : l.find? p = some a := by
  cases h : l.find? p with
  | none => exact absurd hp (by simpa using List.find?_eq_none.1 h a ha)
  | some x => rw [hu x (List.mem_of_find?_eq_some h) (List.find?_some h)]

theorem mem_tlbPut {n : Nat} {e f : TlbEntry} {l : List TlbEntry} (h : f ∈ tlbPut n e l) : f = e ∨ f ∈ l := by
  have := List.mem_of_mem_take h
  simp only [List.mem_cons, List.mem_filter] at this
  exact this.imp id (fun x => x.1)

theorem mem_tlbPut_of {n : Nat} {e f : TlbEntry} {l : List TlbEntry} (hn : l.length ≤ n) (he : e ∈ l) (hf : f ∈ l) :
    f ∈ tlbPut n e l := by
  have hl : (e :: l.filter (fun x => x != e)).length ≤ n := by
    have : (l.filter (fun x => x != e)).length < l.length :=
      List.length_filter_lt_length_iff_exists.2 ⟨e, he, by simp⟩
    simp; omega
  unfold tlbPut
  rw [List.take_of_length_le hl]
  by_cases h : f = e <;> simp [h, hf]

/-- What a view says of each page of interest: the leaf that serves it, one entry for a page, and room. -/
structure View.Serves (v w : View) (write : Bool) (ls : List (Nat × Nat)) : Prop extends v.Near w where
  room : w.co.utlb.length ≤ utlbSize v.ag
  sub : ∀ e ∈ w.co.utlb, e ∈ v.co.utlb
  sup : ∀ e ∈ v.co.utlb, e ∈ w.co.utlb
  leaf : ∀ x ∈ ls, w.leafAt x.2 write = v.leafAt x.2 write

theorem View.leafAt_of_resolved {v : View} {va : Nat} {write : Bool} {x : Xlat} {l : W64 × Nat}
    (h : v.sp.resolved va write = some x) (k : v.leafAt va write = some l) : x.code = 0 ∧ l = (x.leaf, x.level) := by
  unfold View.leafAt at k; rw [h] at k
  dsimp only at k; split at k
  · exact ⟨‹_›, by simpa using k.symm⟩
  · cases k

/-- What is resolved of a page after another one is remembered. -/
theorem Split.resolved_remember (x : Split) (va vb : Nat) (e : TlbEntry) (write : Bool) :
    (x.remember va e).resolved vb write =
      if vpnOf vb = vpnOf va then (if e.serves write then some ⟨vpnOf va, e.leaf, e.level, 0, 1⟩ else none)
      else x.resolved vb write := by
  unfold Split.remember Split.resolved TlbEntry.serves
  simp only [List.find?_append, List.find?_filter]
  split
  · rename_i h
    rw [List.find?_eq_none.2 (by intro z _; simp +contextual [h])]
    generalize hp : bit e.leaf 2 = p
    generalize hq : bit e.leaf 5 = q
    cases write <;> cases p <;> cases q <;> simp [h, hp, hq]
  · rename_i h
    simp [Ne.symm (a := vpnOf vb) h]
    congr 1
    funext z
    by_cases hz : z.vpn = vpnOf vb
    · simp [hz, h]; rfl
    · simp [hz]

/-- Looking up a page that one buffered entry serves: the entry, near, and what changes. -/
theorem View.Serves.page {v w : View} {kind n : Nat} {write : Bool} {ls : List (Nat × Nat)} (hm : v.mapped kind write n ls)
    (h : v.Serves w write ls) (x : Nat × Nat) (hx : x ∈ ls) (l : W64 × Nat) (hl : v.leafAt x.2 write = some l) :
    ∃ w', w.page x.2 write = (.leaf l.1 l.2, w') ∧ v.Serves w' write ls := by
  obtain ⟨hroot, -, hall⟩ := hm
  obtain ⟨-, hcan, -⟩ := hall x hx
  have hl' := h.leaf x hx ▸ hl
  unfold View.page
  simp only [hcan, Bool.not_true, Bool.false_eq_true, if_false]
  cases hr : w.sp.resolved x.2 write with
  | some z =>
    obtain ⟨hz, rfl⟩ := View.leafAt_of_resolved hr hl'
    exact ⟨w, by simp [hz], h⟩
  | none =>
    unfold View.leafAt at hl'
    rw [hr] at hl'
    simp only [Option.map_eq_some_iff] at hl'
    obtain ⟨e, he, rfl⟩ := hl'
    have hmem := List.mem_of_find?_eq_some he
    have hp := List.find?_some he
    simp only [Bool.and_eq_true] at hp
    rw [h.pk] at hp
    -- entries that cover the page are this one
    have hone : ∀ y ∈ ls, ∀ f ∈ w.co.utlb, ∀ g ∈ w.co.utlb, f.hits v.pk.asid y.2 = true → g.hits v.pk.asid y.2 = true → f = g :=
      fun y hy f hf g hg => (hall y hy).2.2.1 f (h.sub f hf) g (h.sub g hg)
    have hu : ∀ f ∈ w.co.utlb, f.hits v.pk.asid x.2 = true → f = e := fun f hf hh => hone x hx f hf e hmem hh hp.1
    let keep := w.co.utlb.filter (fun e => !e.hits v.pk.asid x.2 || e.serves write)
    have hke : e ∈ keep := by simp [keep, hmem, hp.2]
    have hkf : keep.find? (fun e => e.hits v.pk.asid x.2) = some e :=
      find_unique hke hp.1 (fun f hf => hu f (List.mem_of_mem_filter hf))
    have hlen : keep.length ≤ utlbSize v.ag := Nat.le_trans (List.length_filter_le _ _) h.room
    have hrf : w.s.rootFlaw (w.s.partOfAgent w.ag) w.pk.root = none := by
      rw [h.rootFlaw, h.partOfAgent, h.pk]; exact hroot
    obtain ⟨s', hlook, hs, hco⟩ : ∃ s', (w.s.setCore w.ag w.co).lookupTlb w.ag w.pk.asid x.2 write = (some (e, true), s') ∧
        s' = { w.s with cores := s'.cores, ctb := s'.ctb } ∧
        s'.core w.ag = { w.co with utlb := tlbPut (utlbSize v.ag) e keep } := by
      unfold State.lookupTlb
      simp only [State.core_setCore, h.pk, h.ag]
      rw [show (w.co.utlb.filter (fun e => !e.hits v.pk.asid x.2 || e.serves write)) = keep from rfl, hkf]
      exact ⟨_, rfl, rfl, by simp [State.core, State.updCore, State.setCore, get_ins_self]⟩
    let w' : View := { w with s := s', co := s'.core w.ag, sp := w.sp.remember x.2 e }
    refine ⟨w', ?_, ?_⟩
    · simp only [View.seek, hrf, hlook, if_true, w']
    · have hutlb : w'.co.utlb = tlbPut (utlbSize v.ag) e keep := by simp only [w', hco]
      refine ⟨⟨?_, ?_, ?_, h.pk, h.ag, h.slot, h.ix, h.now, h.dead⟩, ?_, ?_, ?_, ?_⟩
      · show s' = _
        rw [hs, h.s]
      · show s'.core w.ag = _
        simp only [w', hco]; rw [h.co]
      · show w.sp.remember x.2 e = _
        unfold Split.remember
        simp only [w', Split.remember]
        rw [h.sp]
      · rw [hutlb]; exact List.length_take_le _ _
      · rw [hutlb]
        intro f hf
        rcases mem_tlbPut hf with rfl | hf
        · exact h.sub _ hmem
        · exact h.sub _ (List.mem_of_mem_filter hf)
      · rw [hutlb]
        intro f hf
        refine mem_tlbPut_of hlen hke (List.mem_filter.2 ⟨h.sup f hf, ?_⟩)
        by_cases hh : f.hits v.pk.asid x.2 = true
        · rw [hu f (h.sup f hf) hh]; simp [hp.2]
        · simp [hh]
      · intro y hy
        rw [← h.leaf y hy]
        unfold View.leafAt
        rw [show w'.sp = w.sp.remember x.2 e from rfl, Split.resolved_remember, show w'.pk = w.pk from rfl, hutlb, h.pk]
        by_cases hv : vpnOf y.2 = vpnOf x.2
        · have hry : w.sp.resolved y.2 write = none := by unfold Split.resolved at hr ⊢; rw [hv]; exact hr
          have hfy : w.co.utlb.find? (fun f => f.hits v.pk.asid y.2 && f.serves write) = some e := by
            rw [h.pk] at he
            rw [← he]; congr 1; funext f; rw [f.hits_page _ _ _ hv]
          simp [hv, hp.2, hry, hfy]
        · simp only [hv, if_false]
          cases hry : w.sp.resolved y.2 write with
          | some z => rfl
          | none =>
            obtain ⟨-, -, -, ly, hly, -⟩ := hall y hy
            rw [Option.mem_def] at hly
            have hly' := h.leaf y hy ▸ hly
            unfold View.leafAt at hly'
            rw [hry] at hly'
            simp only [Option.map_eq_some_iff, h.pk] at hly'
            obtain ⟨f, hf, -⟩ := hly'
            have hfm := List.mem_of_find?_eq_some hf
            have hfp := List.find?_some hf
            simp only [Bool.and_eq_true] at hfp
            dsimp only
            rw [hf]
            refine congrArg _ (find_unique ?_ (by simp [hfp]) ?_)
            · exact mem_tlbPut_of hlen hke (by simp [keep, hfm, hfp.2])
            · intro g hg hgp
              simp only [Bool.and_eq_true] at hgp
              refine hone y hy g ?_ f hfm hgp.1 hfp.1
              rcases mem_tlbPut hg with rfl | hg
              · exact hmem
              · exact List.mem_of_mem_filter hg

/-- Mapped lanes translate at once, and the micro-buffer holds what it held. -/
theorem View.translate_serves {v : View} {kind n : Nat} {write : Bool} {ls : List (Nat × Nat)} (hm : v.mapped kind write n ls) :
    ∃ w, v.translate kind write n ls = ⟨w, false, v.located write ls, []⟩ ∧ v.Serves w write ls := by
  have key : ∀ (xs : List (Nat × Nat)) (w : View) (gs : List LaneAddr), (∀ x ∈ xs, x ∈ ls) → v.Serves w write ls →
      ∃ w', xs.foldl (fun (r : Xlated) x =>
        let (L, va) := x
        if va % n ≠ 0 then { r with bad := r.bad ++ [⟨L, va, fcProtection, 11, 0⟩] }
        else
          match r.v.page va write with
          | (.walk, w) => { r with v := w, waiting := true }
          | (.flaw f, w) => { r with v := w, bad := r.bad ++ [⟨L, va, f⟩] }
          | (.leaf leaf level, w) =>
            match leafFlaw ⟨v.s.partOfAgent v.ag, v.svc, kind, write⟩ leaf level with
            | some f => { r with v := w, bad := r.bad ++ [⟨L, va, f⟩] }
            | none =>
              let pa := leafPa leaf level va
              match w.s.paFlaw ⟨v.s.partOfAgent v.ag, v.svc, kind, write⟩ leaf level pa with
              | some f => { r with v := w, bad := r.bad ++ [⟨L, va, f⟩] }
              | none => { r with v := w, good := r.good ++ [⟨L, va, pa, if isHost pa then 0 else leafAttr leaf, level⟩] })
        ⟨w, false, gs, []⟩ = ⟨w', false, gs ++ xs.filterMap (v.laneAt write), []⟩ ∧ v.Serves w' write ls := by
    intro xs
    induction xs with
    | nil => intro w gs _ h; exact ⟨w, by simp, h⟩
    | cons x xs ih =>
      intro w gs hx h
      have hx0 := hx x (by simp)
      obtain ⟨hal, -, -, l, hl, hlf, hpf⟩ := hm.2.2 x hx0
      rw [Option.mem_def] at hl
      obtain ⟨w', hp, hs⟩ := h.page hm x hx0 l hl
      obtain ⟨w'', hf, hs'⟩ := ih w' (gs ++ [⟨x.1, x.2, leafPa l.1 l.2 x.2, if isHost (leafPa l.1 l.2 x.2) then 0 else leafAttr l.1, l.2⟩])
        (fun y hy => hx y (by simp [hy])) hs
      refine ⟨w'', ?_, hs'⟩
      rw [List.foldl_cons]
      simp only [hal, ne_eq, not_true_eq_false, if_false, hp, hlf, hs.paFlaw, hpf]
      refine Eq.trans hf ?_
      simp [View.laneAt, hl]
  obtain ⟨w, h1, h2⟩ := key ls v [] (fun _ h => h) ⟨View.Near.refl v, hm.2.1, fun _ h => h, fun _ h => h, fun _ _ => rfl⟩
  rw [List.nil_append] at h1
  exact ⟨w, h1, h2⟩

/-- Mapped lanes translate at once. -/
theorem View.translate_of_mapped {v : View} {kind n : Nat} {write : Bool} {ls : List (Nat × Nat)} (hm : v.mapped kind write n ls) :
    ∃ w, v.translate kind write n ls = ⟨w, false, v.located write ls, []⟩ ∧ v.Near w :=
  let ⟨w, h, k⟩ := View.translate_serves hm
  ⟨w, h, k.toNear⟩

/-- Mapped lanes pass phase 1, if host memory takes the access. -/
theorem View.phase1_of_mapped {v : View} {kind n : Nat} {write uni : Bool} {hostop : LaneAddr → Bool} {ls : List (Nat × Nat)}
    (hm : v.mapped kind write n ls) (hh : ∀ g ∈ v.located write ls, isHost g.pa = true → hostop g = false) :
    ∃ w, v.phase1 ⟨kind, write, n, uni, hostop⟩ ls = .ok (w, v.located write ls) ∧ v.Near w := by
  obtain ⟨w, hw, hn⟩ := View.translate_of_mapped hm
  refine ⟨w, ?_, hn⟩
  have : (v.located write ls).filter (fun g => isHost g.pa && hostop g) = [] := by
    rw [List.filter_eq_nil_iff]
    intro g hg h
    simp only [Bool.and_eq_true] at h
    simp [hh g hg h.1] at h
  simp [View.phase1, hw, this, View.laneFault]

/-! ### Loads -/

theorem mem_touches {n : Nat} {gs : List LaneAddr} {t : Touch} (h : t ∈ touches n gs) : ∃ g ∈ gs, t.w ∈ wordsOf g.pa n := by
  suffices key : ∀ (gs : List LaneAddr) (ts : List Touch), t ∈ gs.foldl (fun ts g =>
      (wordsOf g.pa n).foldl (fun (ts : List Touch) w =>
        let b := accBytes g.pa n w
        if ts.any (fun t => t.w == w) then ts.map (fun t => if t.w == w then { t with b := t.b ||| b } else t)
        else ts ++ [⟨w, b, vpnOf g.va, g.attr⟩]) ts) ts → (∃ u ∈ ts, u.w = t.w) ∨ ∃ g ∈ gs, t.w ∈ wordsOf g.pa n by
    rcases key gs [] h with ⟨u, hu, -⟩ | h
    · cases hu
    · exact h
  have inner : ∀ (g : LaneAddr) (ws : List Nat) (ts : List Touch) (w : Nat),
      (∃ u ∈ ws.foldl (fun (ts : List Touch) w =>
        let b := accBytes g.pa n w
        if ts.any (fun t => t.w == w) then ts.map (fun t => if t.w == w then { t with b := t.b ||| b } else t)
        else ts ++ [⟨w, b, vpnOf g.va, g.attr⟩]) ts, u.w = w) → (∃ u ∈ ts, u.w = w) ∨ w ∈ ws := by
    intro g ws
    induction ws with
    | nil => intro ts w h; exact .inl h
    | cons y ys ih =>
      intro ts w h
      rcases ih _ w h with ⟨u, hu, rfl⟩ | h
      · dsimp only at hu
        split at hu
        · obtain ⟨z, hz, rfl⟩ := List.mem_map.1 hu
          refine .inl ⟨z, hz, ?_⟩
          split <;> rfl
        · rcases List.mem_append.1 hu with hu | hu
          · exact .inl ⟨u, hu, rfl⟩
          · simp only [List.mem_singleton] at hu; subst hu; simp
      · simp [h]
  intro gs
  induction gs with
  | nil => intro ts h; exact .inl ⟨t, h, rfl⟩
  | cons g gs ih =>
    intro ts h
    rcases ih _ h with h | ⟨g', hg, h⟩
    · rcases inner g _ ts t.w h with h | h
      · exact .inl h
      · exact .inr ⟨g, by simp, h⟩
    · exact .inr ⟨g', by simp [hg], h⟩

theorem hbm_touches {n : Nat} {gs : List LaneAddr} {t : Touch} (h : t ∈ touches n (gs.filter (fun g => !isHost g.pa))) :
    t.w ∈ hbmWords n gs := by
  obtain ⟨g, hg, hw⟩ := mem_touches h
  exact List.mem_flatMap.2 ⟨g, hg, hw⟩

/-- What holds none of some words holds none of fewer. -/
theorem View.atomHolds_sub {v : View} {ws us : List Nat} (h : v.atomHolds ws = false) (hs : ∀ w ∈ us, w ∈ ws) : v.atomHolds us = false := by
  unfold View.atomHolds View.outstanding at h ⊢
  rw [List.any_eq_false] at h ⊢
  intro m hm hc
  refine h m hm ?_
  simp only [Bool.and_eq_true, List.any_eq_true, List.contains_eq_mem, decide_eq_true_eq] at hc ⊢
  exact ⟨hc.1, hc.2.1, hc.2.2.imp (fun z hz => ⟨hz.1, hz.2.imp (fun w hw => ⟨hw.1, hs w hw.2⟩)⟩)⟩

/-- A load that is free to go waits for nothing. -/
theorem View.loadClear_of_loadable {u : View} {n : Nat} {uni acq : Bool} {ls : List (Nat × Nat)} (h : u.loadable n acq ls) :
    ∃ w, u.loadClear w n uni acq ls (u.located false ls) := by
  obtain ⟨ha, hs, hm, hat, hw⟩ := h
  obtain ⟨w, hp, hn⟩ := View.phase1_of_mapped (uni := uni) (hostop := fun _ => false) hm (fun _ _ _ => rfl)
  refine ⟨w, ha, hs, hp, ?_, ?_⟩
  · unfold View.loadOthers
    rw [List.filter_eq_nil_iff]
    intro t ht hc
    have := hw t.w (hbm_touches ht)
    rw [hn.closeRaw, hn.slot] at hc
    simp only [Bool.and_eq_true, beq_iff_eq, bne_iff_ne] at hc
    exact hc.2 (this.2.1 hc.1)
  · unfold View.loadStalls
    simp only [Bool.or_eq_false_iff]
    refine ⟨?_, ?_⟩
    · rw [List.any_eq_false]
      intro t ht
      have := hw t.w (hbm_touches ht)
      rw [hn.closeRaw, hn.slot]
      cases hst : (u.co.raw t.w).st <;> simp [L1Word.stallsLoad, hst]
      · exact absurd hst this.1
      · exact fun hpm => (this.2.2 hst).resolve_left hpm
    · rw [hn.atomHolds]
      refine View.atomHolds_sub hat (fun w hw => ?_)
      obtain ⟨t, ht, rfl⟩ := List.mem_map.1 hw
      exact hbm_touches ht

/-! ### Releases -/

theorem dedup_eq_singleton {l : List Nat} {k : Nat} : l.dedup = [k] ↔ l ≠ [] ∧ ∀ x ∈ l, x = k := by
  constructor
  · intro h
    refine ⟨fun h0 => by simp [h0] at h, fun x hx => ?_⟩
    have := List.mem_dedup.2 hx
    rw [h] at this
    simpa using this
  · rintro ⟨h0, h⟩
    obtain ⟨x, xs, rfl⟩ := List.exists_cons_of_ne_nil h0
    obtain rfl := h x (by simp)
    have hn := List.nodup_dedup (x :: xs)
    have hm : ∀ y ∈ (x :: xs).dedup, y = x := fun y hy => h y (List.mem_dedup.1 hy)
    have hx : x ∈ (x :: xs).dedup := List.mem_dedup.2 (by simp)
    generalize (x :: xs).dedup = l at hn hm hx
    match l, hx with
    | [y], _ => rw [hm y (by simp)]
    | y :: z :: l, _ =>
      rw [hm y (by simp), hm z (by simp)] at hn
      simp at hn

/-- What a release leaves of a word: all but its writer records and its tag's packs. -/
structure L1Word.Kept (x y : L1Word) : Prop where
  st : y.st = x.st
  wslot : y.wslot = x.wslot
  val : y.val = x.val
  kn : y.kn = x.kn
  bm : y.bm = x.bm
  rq : y.rq = x.rq
  wep : y.wep = x.wep
  wv : y.wv = true → x.wv = true
  others : ∀ o ∈ y.others, o ∈ x.others
  lz : y.lz = x.lz

theorem L1Word.Kept.refl (x : L1Word) : x.Kept x := ⟨rfl, rfl, rfl, rfl, rfl, rfl, rfl, id, fun _ h => h, rfl⟩

/-- A word that one pack alone wrote stays so. -/
theorem L1Word.Kept.writers {x y : L1Word} (h : x.Kept y) {k : Nat} (hx : x.writers = [k]) : y.writers = [k] := by
  unfold L1Word.writers at hx ⊢
  rw [dedup_eq_singleton] at hx ⊢
  refine ⟨by simp, fun z hz => ?_⟩
  rcases List.mem_cons.1 hz with rfl | hz
  · exact hx.2 _ (by simp [h.wslot])
  · obtain ⟨o, ho, rfl⟩ := List.mem_map.1 hz
    exact hx.2 _ (by simp only [List.mem_cons, List.mem_map]; exact .inr ⟨o, h.others o ho, rfl⟩)

theorem get_map {α : Type} (d : α) (f : α → α) (m : SMap α) (k : Nat) :
    get (f d) (m.map (fun e => (e.1, f e.2))) k = f (get d m k) := by
  induction m with
  | nil => rfl
  | cons e m ih =>
    obtain ⟨i, x⟩ := e
    simp only [List.map_cons, Machine.get]
    split
    · rfl
    · exact ih

/-- The words of one L1 are those of another, each of them kept. -/
def KeptAll (l k : SMap L1Word) : Prop :=
  ∃ f : L1Word → L1Word, f L1Word.inv = L1Word.inv ∧ (∀ x : L1Word, x.Kept (f x)) ∧ k = l.map (fun e => (e.1, f e.2))

theorem KeptAll.refl (l : SMap L1Word) : KeptAll l l := ⟨id, rfl, L1Word.Kept.refl, by simp⟩

theorem KeptAll.get {l k : SMap L1Word} (h : KeptAll l k) (w : Nat) : (Machine.get L1Word.inv l w).Kept (Machine.get L1Word.inv k w) := by
  obtain ⟨f, hi, hk, rfl⟩ := h
  have := get_map L1Word.inv f l w
  rw [hi] at this
  rw [this]
  exact hk _

/-- Dropping the words of some lines keeps the others so. -/
theorem KeptAll.filter {l k : SMap L1Word} (h : KeptAll l k) (p : Nat → L1St → Bool) :
    KeptAll (l.filter (fun e => p e.1 e.2.st)) (k.filter (fun e => p e.1 e.2.st)) := by
  obtain ⟨f, hi, hk, rfl⟩ := h
  refine ⟨f, hi, hk, ?_⟩
  rw [List.filter_map]
  congr 1
  refine List.filter_congr (fun e _ => ?_)
  simp only [Function.comp, (hk e.2).st]

theorem Core.bumpEco_l1 (c : Core) (slot : Nat) (dv : Bool) : KeptAll c.l1 (c.bumpEco slot dv).l1 := by
  unfold Core.bumpEco
  simp only []
  split
  · exact ⟨fun x => { x with
      wv := x.wv && x.wslot != slot, owv := x.owv && x.owslot != slot, tg := x.tg.filter (fun k => k != slot),
      others := x.others.filter (fun o => o.1 != slot) }, rfl,
      fun x => ⟨rfl, rfl, rfl, rfl, rfl, rfl, rfl, fun h => (Bool.and_eq_true_iff.1 h).1, fun o ho => List.mem_of_mem_filter ho, rfl⟩, rfl⟩
  · exact KeptAll.refl _

theorem Core.bumpEco_ecoOf (c : Core) (slot : Nat) (dv : Bool) (k : Nat) (h : k ≠ slot) : (c.bumpEco slot dv).ecoOf k = c.ecoOf k := by
  unfold Core.bumpEco Core.ecoOf
  simp only []
  rw [get_set_ne _ _ _ _ _ (Ne.symm h)]
  unfold Core.clearRecords
  split <;> rfl

/-- What a release changes once it has nothing to wait for: ECO, LDV and the writer records of its core, and its phase. -/
structure View.Past (v w : View) : Prop where
  s : w.s = v.s
  co : w.co = { v.co with l1 := w.co.l1, eco := w.co.eco, ldv := w.co.ldv }
  l1 : KeptAll v.co.l1 w.co.l1
  eco : ∀ k, k ≠ v.slot → w.co.ecoOf k = v.co.ecoOf k
  sp : w.sp = { v.sp with phase := w.sp.phase }
  pk : w.pk = v.pk
  ag : w.ag = v.ag
  slot : w.slot = v.slot
  ix : w.ix = v.ix
  keep : 2 ≤ v.sp.phase → w = v

theorem View.Past.raw {v w : View} (h : v.Past w) (x : Nat) : (v.co.raw x).Kept (w.co.raw x) := h.l1.get x

/-- A pack that has nothing unregistered has nothing left to publish after its ECO has risen. -/
theorem Core.unpublished_bumpEco (c : Core) (slot : Nat) (dv : Bool) (h : c.dirtyOf slot = []) (hc : c.carried slot = []) :
    (c.bumpEco slot dv).unpublished slot = [] := by
  have hn : ∀ e ∈ c.l1, e.2.st = L1St.dirty → slot ∉ e.2.writers := by
    intro e he h1 h2
    have := List.map_eq_nil_iff.1 h
    rw [List.filter_eq_nil_iff] at this
    exact this e he (by simp [h1, h2])
  have hk : ∀ e ∈ c.l1, ¬(e.2.st == L1St.pend && e.2.lz.contains slot) = true := List.filter_eq_nil_iff.1 (List.map_eq_nil_iff.1 hc)
  have src : ∀ e ∈ (c.bumpEco slot dv).l1, ∃ x ∈ c.l1, x.2.Kept e.2 := by
    intro e he
    obtain ⟨f, -, hf, hm⟩ := c.bumpEco_l1 slot dv
    rw [hm] at he
    obtain ⟨x, hx, rfl⟩ := List.mem_map.1 he
    exact ⟨x, hx, hf x.2⟩
  unfold Core.unpublished Core.pendingSet Core.carried
  rw [List.append_eq_nil_iff, List.map_eq_nil_iff, List.map_eq_nil_iff, List.filter_eq_nil_iff, List.filter_eq_nil_iff]
  refine ⟨fun e he hh => ?_, fun e he hh => ?_⟩
  · obtain ⟨x, hx, k⟩ := src e he
    simp only [Bool.and_eq_true, beq_iff_eq, L1Word.pendingOf, Bool.or_eq_true, List.any_eq_true] at hh
    refine hn x hx (k.st ▸ hh.1) (List.mem_dedup.2 ?_)
    rcases hh.2 with hw | ⟨o, ho, hw⟩
    · simp [← hw.1, k.wslot]
    · exact List.mem_cons_of_mem _ (List.mem_map.2 ⟨o, k.others o ho, hw.1⟩)
  · obtain ⟨x, hx, k⟩ := src e he
    rw [k.st, k.lz] at hh
    exact hk x hx hh

theorem Core.pendingSet_of_unpublished {c : Core} {slot : Nat} (h : c.unpublished slot = []) : c.pendingSet slot = [] :=
  (List.append_eq_nil_iff.1 h).1

/-- A release that nothing makes wait goes on. -/
theorem View.release_of_releasable {v : View} {sc : Scope} {all : Bool} (h : v.releasable sc all) :
    ∃ w, v.release sc all = .go w ∧ v.Past w := by
  have same (k : Nat) (hk : ¬2 ≤ v.sp.phase) : v.Past { v with sp := { v.sp with phase := k } } :=
    ⟨rfl, rfl, KeptAll.refl _, fun _ _ => rfl, rfl, rfl, rfl, rfl, rfl, fun h => absurd h hk⟩
  rcases h with h | ⟨h1, h2, h3⟩ | ⟨h0, hs, ho, hf, hp, hh, he⟩
  · exact ⟨v, by simp [View.release, h], ⟨rfl, rfl, KeptAll.refl _, fun _ _ => rfl, rfl, rfl, rfl, rfl, rfl, fun _ => rfl⟩⟩
  · exact ⟨_, by simp [View.release, h1, h2, h3, Core.pendingSet_of_unpublished h2], same 2 (by omega)⟩
  · have n2 : ¬2 ≤ v.sp.phase := by omega
    unfold View.release
    simp only [h0, hs, ho, hf, Nat.reduceLeDiff, if_false, Bool.false_or, Bool.false_eq_true, Nat.zero_ne_one]
    have c1 : ¬((!v.pk.lazyMode && decide (v.pk.preg ≠ 0)) = true) := by cases hl : v.pk.lazyMode <;> simp_all
    have c2 : ¬((decide (3 ≤ scopeNo sc) && decide (v.pk.hostw ≠ 0)) = true) := by
      intro hc; simp only [Bool.and_eq_true, decide_eq_true_eq] at hc; exact hc.2 (hh hc.1)
    rw [if_neg c1, if_neg c2]
    split
    · exact ⟨_, rfl, same 2 n2⟩
    · rename_i hn
      simp only [Bool.or_eq_true, decide_eq_true_eq, not_or, Bool.not_eq_true] at hn
      obtain ⟨e1, e2⟩ := he hn.1 hn.2
      have c3 : ¬((decide (v.co.ecoOf v.slot = 0xFFF) && !(v.co.dirtyOf v.slot).isEmpty) = true) := by
        intro hc; simp only [Bool.and_eq_true, decide_eq_true_eq] at hc
        have := (e1 hc.1).1; simp_all
      have c4 : ¬((decide (v.co.ecoOf v.slot = 0xFFF) && (decide (v.pk.preg ≠ 0) || !(v.co.carried v.slot).isEmpty)) = true) := by
        intro hc; simp only [Bool.and_eq_true, decide_eq_true_eq] at hc
        have := e1 hc.1; simp_all
      rw [if_neg c3, if_neg c4]
      have bump : v.Past { v with co := v.co.bumpEco v.slot (decide (2 ≤ scopeNo sc)), sp := { v.sp with phase := 2 } } := by
        refine ⟨rfl, ?_, Core.bumpEco_l1 _ _ _, Core.bumpEco_ecoOf _ _ _, rfl, rfl, rfl, rfl, rfl, fun h => absurd h n2⟩
        unfold Core.bumpEco Core.clearRecords
        simp only []
        split <;> rfl
      split
      · rename_i hl
        simp only [Bool.and_eq_true] at hl
        obtain ⟨e3, e4⟩ := e2 hl.2 hl.1
        rw [Core.unpublished_bumpEco _ _ _ e3 e4]
        exact ⟨_, rfl, bump⟩
      · exact ⟨_, rfl, bump⟩

/-! ### Room in the L1 -/

/-- The indices that a table lists. -/
def indices {α : Type} (m : SMap α) : List Nat := m.map (fun e => e.1)

theorem indices_ins_of_mem {α : Type} (m : SMap α) (i : Nat) (x : α) (hs : (indices m).Pairwise (· < ·)) (hi : i ∈ indices m) :
    indices (ins m i x) = indices m := by
  induction m with
  | nil => cases hi
  | cons e m ih =>
    obtain ⟨k, y⟩ := e
    simp only [indices, List.map_cons, List.pairwise_cons, List.mem_cons] at hs hi
    unfold ins
    split
    · rename_i hlt
      rcases hi with rfl | hi
      · omega
      · have := hs.1 i hi; omega
    · split
      · subst_vars; rfl
      · rename_i h1 h2
        rcases hi with h | hi
        · exact absurd h h2
        · simp only [indices, List.map_cons]; exact congrArg _ (ih hs.2 hi)

theorem indices_ins_perm {α : Type} (m : SMap α) (i : Nat) (x : α) (hi : i ∉ indices m) :
    (indices (ins m i x)).Perm (i :: indices m) := by
  induction m with
  | nil => exact List.Perm.refl _
  | cons e m ih =>
    obtain ⟨k, y⟩ := e
    simp only [indices, List.map_cons, List.mem_cons, not_or] at hi
    unfold ins
    split
    · exact List.Perm.refl _
    · split
      · exact absurd ‹i = k› hi.1
      · simp only [indices, List.map_cons]
        exact ((ih hi.2).cons k).trans (List.Perm.swap _ _ _)

theorem indices_ins_pairwise {α : Type} (m : SMap α) (i : Nat) (x : α) (hs : (indices m).Pairwise (· < ·)) :
    (indices (ins m i x)).Pairwise (· < ·) := by
  by_cases hi : i ∈ indices m
  · rw [indices_ins_of_mem m i x hs hi]; exact hs
  · induction m with
    | nil => simp [indices, ins]
    | cons e m ih =>
      obtain ⟨k, y⟩ := e
      simp only [indices, List.map_cons, List.pairwise_cons, List.mem_cons, not_or] at hs hi
      unfold ins
      split
      · rename_i hlt
        simp only [indices, List.map_cons, List.pairwise_cons, List.mem_cons, forall_eq_or_imp]
        exact ⟨⟨hlt, fun a ha => Nat.lt_trans hlt (hs.1 a ha)⟩, hs.1, hs.2⟩
      · split
        · exact absurd ‹i = k› hi.1
        · simp only [indices, List.map_cons, List.pairwise_cons]
          refine ⟨fun a ha => ?_, ih hs.2 hi.2⟩
          rcases List.mem_cons.1 ((indices_ins_perm m i x hi.2).mem_iff.1 ha) with rfl | ha
          · omega
          · exact hs.1 a ha

theorem look_isSome_indices {α : Type} (m : SMap α) (i : Nat) : (look m i).isSome = decide (i ∈ indices m) := by
  induction m with
  | nil => rfl
  | cons e m ih =>
    obtain ⟨k, y⟩ := e
    by_cases h : i = k
    · simp [look, indices, h]
    · simp only [look, h, if_false, ih, indices, List.map_cons, List.mem_cons, false_or]; rfl

theorem setLines_indices (c : Core) (l : Nat) : (c.setLines l).length = ((indices c.lines).filter (fun k => k % 512 == l % 512)).length := by
  simp [Core.setLines, indices, List.filter_map, Function.comp_def]

/-- The state of the L1 while the lines of an instruction are taken: its words stand as they did, and every set has ways for the lines
that are still absent. -/
structure Taking (c d : Core) (ls : List Nat) : Prop where
  rest : d = { c with lines := d.lines }
  rise : (indices d.lines).Pairwise (· < ·)
  room : ∀ l ∈ ls, ((indices d.lines).filter (fun k => k % 512 == l % 512)).length +
    (ls.filter (fun k => decide (k % 512 = l % 512) && decide (k ∉ indices d.lines))).length ≤ c.ways

theorem Taking.use {c d : Core} {ls : List Nat} (h : Taking c d ls) (s : State) (a line asid vpn : Nat) (hs : s.core a = d)
    (hl : line ∈ ls) : Taking c ((s.useLine a line asid vpn).core a) ls ∧
      (∀ k, k ∈ indices ((s.useLine a line asid vpn).core a).lines ↔ k = line ∨ k ∈ indices d.lines) := by
  have hw : d.ways = c.ways := by rw [h.rest]; rfl
  unfold State.useLine
  simp only []
  cases hk : (s.core a).line line with
  | some x =>
    have hm : line ∈ indices d.lines := by
      have := look_isSome_indices d.lines line
      rw [show look d.lines line = some x by rw [← hs]; exact hk] at this
      simpa using this
    simp only [State.core_updCore]
    rw [show (({ s with next := s.next + 1 } : State).core a) = d from hs]
    have e := indices_ins_of_mem d.lines line { x with stamp := s.next } h.rise hm
    refine ⟨⟨?_, ?_, ?_⟩, fun k => ?_⟩
    · rw [h.rest]
    · rw [e]; exact h.rise
    · rw [e]; exact h.room
    · rw [e]; constructor
      · exact .inr
      · rintro (rfl | h); exacts [hm, h]
  | none =>
    have hm : line ∉ indices d.lines := by
      have := look_isSome_indices d.lines line
      rw [show look d.lines line = none by rw [← hs]; exact hk] at this
      simpa using this
    have hroom := h.room line hl
    have hpos : 1 ≤ (ls.filter (fun k => decide (k % 512 = line % 512) && decide (k ∉ indices d.lines))).length :=
      List.length_pos_of_mem (List.mem_filter.2 ⟨hl, by simp [hm]⟩)
    have hev : (({ s with next := s.next + 1 } : State).evictFor a line) = { s with next := s.next + 1 } := by
      unfold State.evictFor
      simp only []
      rw [show (({ s with next := s.next + 1 } : State).core a) = d from hs, setLines_indices, if_pos (by omega)]
    simp only [hev, State.core_updCore]
    rw [show (({ s with next := s.next + 1 } : State).core a) = d from hs]
    have pm := indices_ins_perm d.lines line ⟨0, 0, asid, vpn, s.next⟩ hm
    have mem : ∀ k, k ∈ indices (ins d.lines line (⟨0, 0, asid, vpn, s.next⟩ : L1Line)) ↔ k = line ∨ k ∈ indices d.lines := fun k => by
      rw [pm.mem_iff, List.mem_cons]
    refine ⟨⟨?_, indices_ins_pairwise _ _ _ h.rise, ?_⟩, mem⟩
    · rw [h.rest]
    · intro l hl'
      dsimp only
      rw [(pm.filter _).length_eq]
      have hr := h.room l hl'
      by_cases hset : line % 512 = l % 512
      · have hlt : (ls.filter (fun k => decide (k % 512 = l % 512) && decide (k ∉ indices (ins d.lines line (⟨0, 0, asid, vpn, s.next⟩ : L1Line))))).length <
            (ls.filter (fun k => decide (k % 512 = l % 512) && decide (k ∉ indices d.lines))).length := by
          have hsub : ls.filter (fun k => decide (k % 512 = l % 512) && decide (k ∉ indices (ins d.lines line (⟨0, 0, asid, vpn, s.next⟩ : L1Line)))) =
              (ls.filter (fun k => decide (k % 512 = l % 512) && decide (k ∉ indices d.lines))).filter (fun k => k != line) := by
            rw [List.filter_filter]
            congr 1; funext k
            by_cases hk1 : k = line
            · simp [mem, hk1]
            · simp [mem, hk1]
          rw [hsub]
          exact List.length_filter_lt_length_iff_exists.2 ⟨line, List.mem_filter.2 ⟨hl, by simp [hm, hset]⟩, by simp⟩
        simp only [List.filter_cons, hset, beq_self_eq_true, if_true, List.length_cons]
        omega
      · have hsub : (ls.filter (fun k => decide (k % 512 = l % 512) && decide (k ∉ indices (ins d.lines line (⟨0, 0, asid, vpn, s.next⟩ : L1Line))))).length ≤
            (ls.filter (fun k => decide (k % 512 = l % 512) && decide (k ∉ indices d.lines))).length := by
          apply List.Sublist.length_le
          apply List.monotone_filter_right
          intro k; simp only [Bool.and_eq_true, decide_eq_true_eq, mem, not_or]; tauto
        simp only [List.filter_cons, hset, beq_iff_eq, if_false]
        omega

/-- Taking the lines that are present, or those that are absent, keeps room for the others. -/
theorem Taking.fold {c : Core} {ls : List Nat} {α : Type} (a : Nat) (f : State → α → State) (g : α → Nat)
    (hf : ∀ (s : State) (x : α), f s x = s ∨ ∃ line asid vpn, line = g x ∧ f s x = s.useLine a line asid vpn) :
    ∀ (xs : List α) (s : State), (∀ x ∈ xs, g x ∈ ls) → Taking c (s.core a) ls → Taking c ((xs.foldl f s).core a) ls ∧
      (∀ k ∈ indices (s.core a).lines, k ∈ indices ((xs.foldl f s).core a).lines) := by
  intro xs
  induction xs with
  | nil => intro s _ h; exact ⟨h, fun k hk => hk⟩
  | cons x xs ih =>
    intro s hx h
    rw [List.foldl_cons]
    rcases hf s x with e | ⟨line, asid, vpn, hl, e⟩
    · rw [e]; exact ih s (fun y hy => hx y (by simp [hy])) h
    · rw [e]
      obtain ⟨h1, h2⟩ := h.use s a line asid vpn rfl (hl ▸ hx x (by simp))
      obtain ⟨h3, h4⟩ := ih _ (fun y hy => hx y (by simp [hy])) h1
      exact ⟨h3, fun k hk => h4 k ((h2 k).2 (.inr hk))⟩

theorem Taking.present {c : Core} {ls : List Nat} (a asid : Nat) :
    ∀ (ts : List Touch) (s : State), (∀ t ∈ ts, t.w / 16 ∈ ls) → Taking c (s.core a) ls →
      ∀ t ∈ ts, ((((ts.foldl (fun (s : State) t =>
        if ((s.core a).line (t.w / 16)).isSome then s else s.useLine a (t.w / 16) asid t.vpn) s).core a).line (t.w / 16)).isSome = true) := by
  intro ts
  induction ts with
  | nil => intro s _ _ t ht; cases ht
  | cons u us ih =>
    intro s hx h t ht
    rw [List.foldl_cons]
    let s1 := if ((s.core a).line (u.w / 16)).isSome then s else s.useLine a (u.w / 16) asid u.vpn
    have h1 : Taking c (s1.core a) ls ∧ u.w / 16 ∈ indices (s1.core a).lines := by
      dsimp only [s1]
      split
      · rename_i hk
        refine ⟨h, ?_⟩
        have := look_isSome_indices (s.core a).lines (u.w / 16)
        rw [show look (s.core a).lines (u.w / 16) = (s.core a).line (u.w / 16) from rfl, hk] at this
        simpa using this.symm
      · obtain ⟨h1, h2⟩ := h.use s a (u.w / 16) asid u.vpn rfl (hx u (by simp))
        exact ⟨h1, (h2 _).2 (.inl rfl)⟩
    rcases List.mem_cons.1 ht with rfl | ht
    · have := (Taking.fold a (fun (s : State) t =>
        if ((s.core a).line (t.w / 16)).isSome then s else s.useLine a (t.w / 16) asid t.vpn) (fun t => t.w / 16)
        (fun s x => by split; exacts [.inl rfl, .inr ⟨_, _, _, rfl, rfl⟩]) us s1 (fun y hy => hx y (by simp [hy])) h1.1).2 _ h1.2
      show (look _ _).isSome = true
      rw [look_isSome_indices]
      simpa using this
    · exact ih s1 (fun y hy => hx y (by simp [hy])) h1.1 t ht

theorem mem_linesOf {ws : List Nat} {l : Nat} : l ∈ linesOf ws ↔ ∃ w ∈ ws, w / 16 = l := by simp [linesOf]

/-- Where there is room, taking the lines of an instruction gives up none. -/
theorem State.useAll_of_room {s : State} {a asid : Nat} {ts : List Touch} (h : (s.core a).roomFor (ts.map (fun t => t.w))) :
    Taking (s.core a) ((s.useAll a asid ts).core a) (linesOf (ts.map (fun t => t.w))) := by
  have h0 : Taking (s.core a) (s.core a) (linesOf (ts.map (fun t => t.w))) := by
    refine ⟨rfl, h.1, fun l hl => ?_⟩
    have := h.2 l hl
    rw [setLines_indices] at this
    have e : ∀ k : Nat, decide (k ∉ indices (s.core a).lines) = ((s.core a).line k).isNone := fun k => by
      have e := look_isSome_indices (s.core a).lines k
      unfold Core.line
      cases hk : look (s.core a).lines k with
      | none => rw [hk] at e; simpa using e
      | some x => rw [hk] at e; simpa using e
    simpa only [e] using this
  have hin : ∀ t ∈ ts, t.w / 16 ∈ linesOf (ts.map (fun t => t.w)) := fun t ht =>
    mem_linesOf.2 ⟨t.w, List.mem_map.2 ⟨t, ht, rfl⟩, rfl⟩
  have h1 := (Taking.fold a (fun (s : State) l => if ((s.core a).line l).isSome then s.useLine a l 0 0 else s) (fun l => l)
    (fun s x => by split; exacts [.inr ⟨_, _, _, rfl, rfl⟩, .inl rfl]) (linesOf (ts.map (fun t => t.w))) s (fun x hx => hx) h0).1
  have h2 := (Taking.fold a (fun (s : State) (t : Touch) =>
    if ((s.core a).line (t.w / 16)).isSome then s else s.useLine a (t.w / 16) asid t.vpn) (fun t => t.w / 16)
    (fun s x => by split; exacts [.inl rfl, .inr ⟨_, _, _, rfl, rfl⟩]) ts (s.usePresent a ts) hin h1).1
  have h3 := Taking.present a asid ts (s.usePresent a ts) hin h1
  unfold State.useAll
  simp only []
  have last : ∀ (us : List Touch) (r : State), (∀ t ∈ us, ((r.core a).line (t.w / 16)).isSome = true) →
      us.foldl (fun (s : State) (t : Touch) =>
        if ((s.core a).line (t.w / 16)).isSome then s
        else s.updCore a (fun c => { c with lines := ins c.lines (t.w / 16) ⟨0, 0, asid, t.vpn, s.next⟩ })) r = r := by
    intro us
    induction us with
    | nil => intro r _; rfl
    | cons u us ih =>
      intro r hr
      rw [List.foldl_cons, if_pos (hr u (by simp))]
      exact ih r (fun t ht => hr t (by simp [ht]))
  rw [last ts _ h3]
  exact h2

/-- Words that may be claimed are claimed at once. -/
theorem View.readyClaims_of_claimable {v : View} {q : Claiming} {cs : List Claim} (h : v.claimable q cs) :
    ∃ t bad, v.readyClaims q cs = .go t bad := by
  obtain ⟨hr, hp, hat, hm⟩ := h
  let ts : List Touch := cs.map (fun k => ⟨k.w, k.b, k.vpn, k.attr⟩)
  have hts : ts.map (fun t => t.w) = cs.map (fun k => k.w) := by simp [ts, Function.comp_def]
  have hc : v.close.core v.ag = { v.co with packs := ins v.co.packs v.slot (v.pk.setSplit v.ix (some v.sp)) } := by
    simp [View.close]
  have hroom : (v.close.core v.ag).roomFor (ts.map (fun t => t.w)) := by rw [hts, hc]; exact hr
  have ht := State.useAll_of_room (asid := v.pk.asid) hroom
  rw [hts] at ht
  have hraw : ∀ w, ((v.close.useAll v.ag v.pk.asid ts).core v.ag).raw w = v.co.raw w := by
    intro w; rw [ht.rest, hc]; rfl
  unfold View.readyClaims
  have c1 : cs.filter (fun k => (v.co.raw k.w).mustRegister v.slot q) = [] := by
    rw [List.filter_eq_nil_iff]; intro k hk; simp [hm k hk]
  rw [show cs.map (fun k => (⟨k.w, k.b, k.vpn, k.attr⟩ : Touch)) = ts from rfl]
  simp only [hraw]
  rw [c1]
  simp only [List.isEmpty_nil, Bool.not_true, Bool.false_eq_true, if_false]
  have c2 : ((v.close.useAll v.ag v.pk.asid ts).core v.ag).crowded (linesOf (cs.map (fun k => k.w))) = false := by
    unfold Core.crowded
    rw [List.any_eq_false]
    intro l hl
    have := ht.room l hl
    have hw : ((v.close.useAll v.ag v.pk.asid ts).core v.ag).ways = (v.close.core v.ag).ways := by rw [ht.rest]; rfl
    rw [setLines_indices, hw]
    simp only [Bool.and_eq_true, decide_eq_true_eq, not_and, Bool.not_eq_true]
    intro hlt; omega
  rw [c2, hat]
  simp only [Bool.false_eq_true, if_false]
  have c3 : ¬((q.cnt && decide (1023 < v.pk.preg + (cs.filter (fun k => (v.co.raw k.w).asks q k.m)).length)) = true) := by
    intro hh
    simp only [Bool.and_eq_true, decide_eq_true_eq] at hh
    have := hp hh.1
    have := List.length_filter_le (fun k => (v.co.raw k.w).asks q k.m) cs
    omega
  rw [if_neg c3]
  exact ⟨_, _, rfl⟩

/-- A claim asks the same of a view that differs in looked-up pages, or that a release has passed. -/
theorem View.claimable_of {v w : View} {q : Claiming} {cs : List Claim} (h : v.claimable q cs) (hl : w.co.lines = v.co.lines)
    (hw : w.co.ways = v.co.ways) (hp : w.pk = v.pk) (hs : w.slot = v.slot) (ho : w.co.ops = v.co.ops)
    (hx : ∀ x, (v.co.raw x).Kept (w.co.raw x)) : w.claimable q cs := by
  obtain ⟨⟨h1, h2⟩, h3, h5, h4⟩ := h
  refine ⟨⟨hl ▸ h1, fun l hl' => ?_⟩, hp ▸ h3, by unfold View.atomHolds View.outstanding at h5 ⊢; rw [ho, hs]; exact h5, fun k hk => ?_⟩
  · have := h2 l hl'
    unfold Core.setLines Core.line at this ⊢
    rw [hl, hw]; exact this
  · have := h4 k hk
    unfold L1Word.mustRegister at this ⊢
    rw [(hx _).st, hs]
    by_cases hwr : (v.co.raw k.w).writers = [v.slot]
    · rw [(hx _).writers hwr]; rw [hwr] at this; exact this
    · have hb : ((v.co.raw k.w).writers == [v.slot]) = false := by simpa using hwr
      rw [hb] at this
      cases h6 : (v.co.raw k.w).st == L1St.dirty <;> cases h7 : q.lz <;> simp_all

/-- Release conditions hold of a view that differs in looked-up pages. -/
theorem View.Near.releasable {u x : View} (hn : u.Near x) {sc : Scope} {all : Bool} (h : u.releasable sc all) : x.releasable sc all := by
  rcases h with h | ⟨h1, h2, h3⟩ | ⟨h0, hs, ho, hf, hp', hh, he⟩
  · exact .inl (by rw [hn.sp]; exact h)
  · exact .inr (.inl ⟨by rw [hn.sp]; exact h1, by rw [hn.co, hn.slot]; exact h2, by rw [hn.pk]; exact h3⟩)
  · refine .inr (.inr ⟨by rw [hn.sp]; exact h0, by rw [hn.syncBusy]; exact hs, by rw [hn.outstanding]; exact ho,
      by rw [hn.fetching]; exact hf, by rw [hn.pk]; exact hp', by rw [hn.pk]; exact hh, fun a b => ?_⟩)
    rw [hn.pk, hn.co, hn.slot]
    exact he a (by rw [← hn.svc]; exact b)

/-- A store that is free to go waits for nothing. -/
theorem View.storeClear_of_storable {u : View} {n : Nat} {uni : Bool} {rel : Option Scope} {data : Nat → W64} {ls : List (Nat × Nat)}
    (h : u.storable n rel data ls) : ∃ w t bad, u.storeClear w n uni rel data ls (u.located true ls) t bad := by
  obtain ⟨ha, hm, hr, hc⟩ := h
  obtain ⟨x, hp, hn⟩ := View.phase1_of_mapped (uni := uni) (hostop := fun _ => false) hm (fun _ _ _ => rfl)
  have hq : ∀ y : View, y.pk = u.pk → y.ag = u.ag → y.storeClaiming rel = u.storeClaiming rel := by
    intro y h1 h2; unfold View.storeClaiming; rw [h1, h2]
  have hcx : x.claimable (u.storeClaiming rel) (withCover (storeWords n (hbmData data (u.located true ls)))) :=
    View.claimable_of hc (by rw [hn.co]) (by rw [hn.co]; rfl) hn.pk hn.slot (by rw [hn.co]) (fun y => by rw [hn.raw]; exact .refl _)
  cases rel with
  | none =>
    obtain ⟨t, bad, hg⟩ := View.readyClaims_of_claimable hcx
    exact ⟨x, t, bad, ha, x, hp, rfl, by rw [hq x hn.pk hn.ag]; exact hg⟩
  | some sc =>
    obtain ⟨w, hw, hpast⟩ := View.release_of_releasable (hn.releasable (hr sc (Option.mem_some_self sc)))
    have hcw := View.claimable_of hcx (by rw [hpast.co]) (by rw [hpast.co]; rfl) hpast.pk hpast.slot (by rw [hpast.co]) hpast.raw
    obtain ⟨t, bad, hg⟩ := View.readyClaims_of_claimable hcw
    exact ⟨w, t, bad, ha, x, hp, hw, by rw [hq w (hpast.pk.trans hn.pk) (hpast.ag.trans hn.ag)]; exact hg⟩

/-- An atomic that is free to go waits for nothing. -/
theorem View.atomicClear_of_ready {u : View} {op : AOp} {aq rl : Bool} {n : Nat} {sc : Scope} {uni : Bool} {ls : List (Nat × Nat)}
    (h : u.atomicReady op aq rl n sc ls) : ∃ w, u.atomicClear w op aq rl n sc uni ls (u.located true ls) := by
  obtain ⟨ha, hs, hm, hh, hr, hw⟩ := h
  obtain ⟨x, hp, hn⟩ := View.phase1_of_mapped (uni := uni) (hostop := fun _ => !hostAtomic op) hm
    (fun g hg hi => by simp [hh g hg hi])
  have words : ∀ w : View, w.ag = x.ag → (∀ y, (w.close.core w.ag).raw y = w.co.raw y) → (∀ y, (w.co.raw y).st = (u.co.raw y).st) →
      ((rl && w.pk.lazyMode && !w.svc && scopeNo sc != 0) && decide (w.sp.phase = 2)) = false →
      w.atomicWait n (rl && w.pk.lazyMode && !w.svc && scopeNo sc != 0) (u.located true ls) = none := by
    intro w _ hraw hst hcb
    unfold View.atomicWait
    simp only [hcb, Bool.false_and, Bool.false_eq_true, if_false]
    have d : ∀ t ∈ touches n ((u.located true ls).filter (fun g => !isHost g.pa)),
        ((w.close.core w.ag).raw t.w).st ≠ .pend ∧ ((w.close.core w.ag).raw t.w).st ≠ .dirty := by
      intro t ht; rw [hraw, hst]; exact hw t.w (hbm_touches ht)
    rw [if_neg (by simp only [List.any_eq_true, beq_iff_eq, not_exists, not_and]; exact fun t ht => (d t ht).2),
      if_neg (by simp only [List.any_eq_true, beq_iff_eq, not_exists, not_and]; exact fun t ht => (d t ht).1)]
  have craw : ∀ (w : View) (y : Nat), (w.close.core w.ag).raw y = w.co.raw y := fun w y => by simp [View.close, Core.raw]
  cases rl with
  | false =>
    exact ⟨x, ha, hs, x, hp, by simp, words x rfl (craw x) (fun y => by rw [hn.raw]) (by simp)⟩
  | true =>
    rcases hr rfl with h3 | ⟨hno, hrel⟩
    · have hx3 : x.sp.phase = 3 := by rw [hn.sp]; exact h3
      refine ⟨x, ha, hs, x, hp, ?_, words x rfl (craw x) (fun y => by rw [hn.raw]) (by simp [hx3])⟩
      simp [View.release, hx3]
    · obtain ⟨w, hgo, hpast⟩ := View.release_of_releasable (hn.releasable hrel)
      refine ⟨w, ha, hs, x, hp, by simpa using hgo, words w hpast.ag (craw w) (fun y => by rw [(hpast.raw y).st, hn.raw]) ?_⟩
      have e1 : w.pk = u.pk := hpast.pk.trans hn.pk
      have e2 : w.svc = u.svc := by unfold View.svc; rw [hpast.ag, hn.ag]
      rw [e1, e2]
      rcases hno with h | h | h <;> simp [h]

/-- A VLR or a REG that is free to go waits for nothing. -/
theorem View.wholeClear_of_ready {u : View} {n : Nat} {uni : Bool} {wr : Option Bool} {full : Bool} {ls : List (Nat × Nat)}
    (h : u.wordsReady kWrite true n ls) (hc : u.claimable (u.wholeClaiming wr) (wholeClaims n (u.located true ls) full)) :
    ∃ w t bad, u.wholeClear w n uni wr full ls (u.located true ls) t bad ∧ u.Near w := by
  obtain ⟨ha, hm, hh⟩ := h
  obtain ⟨x, hp, hn⟩ := View.phase1_of_mapped (uni := uni) (hostop := fun _ => true) hm (fun g hg hi => by simp [hh g hg] at hi)
  have hq : x.wholeClaiming wr = u.wholeClaiming wr := by unfold View.wholeClaiming; rw [hn.pk]
  obtain ⟨t, bad, hg⟩ := View.readyClaims_of_claimable
    (View.claimable_of hc (w := x) (by rw [hn.co]) (by rw [hn.co]; rfl) hn.pk hn.slot (by rw [hn.co]) (fun y => by rw [hn.raw]; exact .refl _))
  exact ⟨x, t, bad, ⟨ha, hp, by rw [hq]; exact hg⟩, hn⟩
/-! ### Matrix operands -/

/-- A staged operand is found. -/
theorem View.findTile_of_staged {v : View} {e : StageEntry} (h : v.staged e) : ∃ n b, v.findTile e = .ready n b := by
  obtain ⟨hf, he⟩ := h
  unfold View.findTile
  cases hx : v.co.fetches.find? (fun (f : TileFetch) => f.slot == v.slot && f.split == v.ix && f.entry.sameKey e) with
  | some f =>
    obtain ⟨h1, h2⟩ := hf f (List.mem_of_find?_eq_some hx)
      (List.find?_some (p := fun (f : TileFetch) => f.slot == v.slot && f.split == v.ix && f.entry.sameKey e) hx)
    simp [h1, h2]
  | none =>
    rcases he with ⟨f, hm, hp⟩ | ⟨x, hm, h1, h2⟩
    · exact absurd hp (List.find?_eq_none.1 hx f hm)
    · cases hs : v.co.stage.find? (fun (x : StageEntry) => x.sameKey e && (v.co.reusable x || v.ownsEntry x)) with
      | some x => simp
      | none => exact absurd (by simp [h1, h2]) (List.find?_eq_none.1 hs x hm)

/-- Staged operands are taken at once. -/
theorem View.stageAll_of_staged {v : View} {ws : List StageEntry} (h : ∀ e ∈ ws, v.staged e) : ∃ ops, v.stageAll ws = .go v ops := by
  have h1 : ((ws.map (fun w => (w, v.findTile w))).filterMap (fun x => match x.2 with | .missing => some x.1 | _ => none)) = [] := by
    rw [List.filterMap_eq_nil_iff]
    intro x hx
    obtain ⟨e, he, rfl⟩ := List.mem_map.1 hx
    obtain ⟨n, b, hf⟩ := View.findTile_of_staged (h e he)
    simp [hf]
  have h2 : (ws.map (fun w => (w, v.findTile w))).any (fun x => match x.2 with | .fetching => true | _ => false) = false := by
    rw [List.any_eq_false]
    intro x hx
    obtain ⟨e, he, rfl⟩ := List.mem_map.1 hx
    obtain ⟨n, b, hf⟩ := View.findTile_of_staged (h e he)
    simp [hf]
  have h3 : ((ws.map (fun w => (w, v.findTile w))).filterMap (fun x => match x.2 with | .failed f => some f | _ => none)) = [] := by
    rw [List.filterMap_eq_nil_iff]
    intro x hx
    obtain ⟨e, he, rfl⟩ := List.mem_map.1 hx
    obtain ⟨n, b, hf⟩ := View.findTile_of_staged (h e he)
    simp [hf]
  unfold View.stageAll
  dsimp only
  split
  · rename_i hc
    rw [Bool.not_eq_true'] at hc
    exact absurd (hc.symm.trans (congrArg List.isEmpty h1)) (by simp)
  · split
    · rename_i hc; exact absurd (hc.symm.trans h2) (by simp)
    · split
      · rename_i f more heq; exact absurd (h3.symm.trans heq) (by simp)
      · exact ⟨_, rfl⟩

/-- An operand stays staged when its instruction takes its place in the queue. -/
theorem View.staged_takePlace {v : View} {e : StageEntry} (m : MatOp) (h : v.staged e) : (v.takePlace m).staged e := by
  obtain ⟨hf, he⟩ := h
  unfold View.takePlace
  split
  · exact ⟨hf, he⟩
  · refine ⟨hf, he.imp id ?_⟩
    rintro ⟨x, hm, h1, h2⟩
    refine ⟨x, hm, h1, ?_⟩
    simp only [Core.reusable, Core.holdsEntry, Core.stageUsers, Bool.and_eq_true, Bool.or_eq_true, List.any_eq_true, List.contains_eq_mem,
      decide_eq_true_eq, List.map_append, List.mem_append] at h2 ⊢
    refine ⟨h2.1, h2.2.imp ?_ id⟩
    rintro ⟨u, hu, hc⟩
    exact ⟨u, hu, by tauto⟩

/-- Rows that no class-V result awaits may be taken. -/
theorem View.matrixReady_of_rowsFree {v : View} {rows : Nat → Bool} (h : v.rowsFree rows) : ∃ x, v.matrixReady rows = some x := by
  unfold View.matrixReady
  rw [if_neg]
  · exact ⟨_, rfl⟩
  · simp only [Bool.not_eq_true, List.any_eq_false]
    intro o ho
    have := List.all_eq_true.1 h o ho
    cases hd : o.dest <;> simp [hd] at this ⊢
    exact ⟨this.1, fun hw => this.2.resolve_left (by simp [hw])⟩

end Sys2Proof.Machine
end

