-- ==== Sys2Proof/Laws/Memory.lean ====
section
/-! SUPPORT. The laws of memory: a byte read after a write, and the canonical form, which every memory operation keeps. -/

namespace Sys2Proof.Machine

/-- A write changes nothing of what an unlisted byte reads as. -/
@[simp] theorem State.unlisted_setByte (s : State) (a k : Nat) (b : Byte) : (s.setByte a b).unlisted k = s.unlisted k := rfl

/-- A byte reads as it was written. -/
@[simp] theorem State.byte_setByte (s : State) (a : Nat) (b : Byte) : (s.setByte a b).byte a = b := by
  unfold State.byte
  rw [State.unlisted_setByte, State.setByte, get_set_self, BitVec.xor_assoc, BitVec.xor_self, BitVec.xor_zero]

/-- A write of one byte leaves every other byte alone. -/
theorem State.byte_setByte_ne (s : State) (a k : Nat) (b : Byte) (h : a ≠ k) : (s.setByte a b).byte k = s.byte k := by
  unfold State.byte
  rw [State.unlisted_setByte, State.setByte, get_set_ne _ _ _ _ _ h]

/-- A write of bytes changes memory and nothing else. -/
theorem State.setBytes_eq (s : State) (a : Nat) (bs : List Byte) : s.setBytes a bs = { s with mem := (s.setBytes a bs).mem } := by
  induction bs generalizing s a with
  | nil => rfl
  | cons b bs ih => rw [State.setBytes, ih]; rfl

/-- Everything that a write of bytes can do to a byte: one inside the stretch reads as written, one outside as before. -/
theorem State.byte_setBytes (s : State) (a : Nat) (bs : List Byte) (k : Nat) :
    (s.setBytes a bs).byte k = if a ≤ k ∧ k < a + bs.length then bs.getD (k - a) 0 else s.byte k := by
  induction bs generalizing s a with
  | nil => simp [State.setBytes]
  | cons b bs ih =>
    rw [State.setBytes, ih]
    by_cases h1 : a + 1 ≤ k ∧ k < a + 1 + bs.length
    · have h2 : a ≤ k ∧ k < a + (b :: bs).length := by simp; omega
      obtain ⟨n, rfl⟩ : ∃ n, k = a + 1 + n := ⟨k - (a + 1), by omega⟩
      have e : a + 1 + n - a = n + 1 := by omega
      rw [if_pos h1, if_pos h2, e]
      simp
    · rw [if_neg h1]
      by_cases h3 : k = a
      · subst h3; simp
      · have h2 : ¬ (a ≤ k ∧ k < a + (b :: bs).length) := by simp; omega
        rw [if_neg h2, State.byte_setByte_ne _ _ _ _ (Ne.symm h3)]

/-- A write of a word is a write of its four bytes. -/
theorem State.byte_setWord (s : State) (w : Nat) (v : W32) (k : Nat) :
    (s.setWord w v).byte k = if 4 * w ≤ k ∧ k < 4 * w + (bytesOf 4 v.toNat).length then (bytesOf 4 v.toNat).getD (k - 4 * w) 0
      else s.byte k := s.byte_setBytes _ _ _

/-- A write of one byte keeps the canonical form. -/
theorem Memory.wf_setByte (s : State) (a : Nat) (b : Byte) (h : Memory.wf s.mem = true) : Memory.wf (s.setByte a b).mem = true :=
  canon_set _ _ _ _ h

/-- A write of bytes keeps the canonical form. -/
theorem Memory.wf_setBytes (s : State) (a : Nat) (bs : List Byte) (h : Memory.wf s.mem = true) :
    Memory.wf (s.setBytes a bs).mem = true := by
  induction bs generalizing s a with
  | nil => exact h
  | cons b bs ih => exact ih _ _ (Memory.wf_setByte _ _ _ h)

/-- A write of a word keeps the canonical form. -/
theorem Memory.wf_setWord (s : State) (w : Nat) (v : W32) (h : Memory.wf s.mem = true) : Memory.wf (s.setWord w v).mem = true :=
  Memory.wf_setBytes _ _ _ h

/-- Dropping bytes of memory (a scrub) keeps the canonical form. -/
theorem Memory.wf_keep (m : List Host.Cell) (p : Nat → Bool) (h : Memory.wf m = true) : Memory.wf (keep p m) = true := canon_keep _ _ _ h

/-- Memories in canonical form that read alike are equal. -/
theorem Memory.wf_ext (m n : List Host.Cell) (hm : Memory.wf m = true) (hn : Memory.wf n = true) (h : ∀ a, get 0 m a = get 0 n a) :
    m = n := canon_ext _ _ _ _ hm hn h

/-- Memory after reset is in its canonical form. -/
theorem Memory.wf_reset : Memory.wf State.reset.mem = true := rfl

end Sys2Proof.Machine
end

