-- ==== Sys2Proof/Laws/Engine.lean ====
section
/-! SUPPORT. What an access at once comes to where nothing stands in its way: its value or its write, and a state in which the same accesses
still reach what they reached. -/

namespace Sys2Proof.Machine

/-! ### What an access at once changes -/

/-- What accesses at once change: memory and its counters, marks that a write clears, the order of use, the buffers, and the cores. -/
structure Plain (s t : State) : Prop where
  same : t = { s with
    mem := t.mem, minor := t.minor, major := t.major, poison := t.poison, badline := t.badline, tagDelta := t.tagDelta,
    nodeOff := t.nodeOff, l2use := t.l2use, next := t.next, hubtb := t.hubtb, ctb := t.ctb, cores := t.cores }
  poison : ∀ k, get false s.poison k = false → get false t.poison k = false
  badline : ∀ k, get false s.badline k = false → get false t.badline k = false
  tagDelta : s.tagDelta = [] → t.tagDelta = []
  nodeOff : s.nodeOff = [] → t.nodeOff = []

theorem Plain.refl (s : State) : Plain s s := ⟨rfl, fun _ h => h, fun _ h => h, id, id⟩
theorem Plain.trans {s t u : State} (h : Plain s t) (k : Plain t u) : Plain s u where
  same := by rw [k.same, h.same]
  poison i hi := k.poison i (h.poison i hi)
  badline i hi := k.badline i (h.badline i hi)
  tagDelta i := k.tagDelta (h.tagDelta i)
  nodeOff i := k.nodeOff (h.nodeOff i)

theorem Plain.regs {s t : State} (h : Plain s t) : t.regs = s.regs := by rw [h.same]
theorem Plain.frames {s t : State} (h : Plain s t) : t.frames = s.frames := by rw [h.same]
theorem Plain.badTree {s t : State} (h : Plain s t) : t.badTree = s.badTree := by rw [h.same]
theorem Plain.treeSound {s t : State} (h : Plain s t) (k : s.treeSound) : t.treeSound :=
  ⟨h.badTree.trans k.1, h.tagDelta k.2.1, h.nodeOff k.2.2⟩
theorem Plain.launches {s t : State} (h : Plain s t) : t.launches = s.launches := by rw [h.same]
theorem Plain.quietWord {s t : State} (h : Plain s t) (w : Nat) : t.quietWord w = s.quietWord w := by rw [h.same]; rfl
theorem Plain.reg {s t : State} (h : Plain s t) (w : Nat) : t.reg w = s.reg w := by rw [h.same]; rfl
theorem Plain.rootFlaw {s t : State} (h : Plain s t) (p : Option Nat) (x : W64) : t.rootFlaw p x = s.rootFlaw p x := by
  rw [h.same]; rfl
theorem Plain.paFlaw {s t : State} (h : Plain s t) (q : Who) (x : W64) (l pa : Nat) : t.paFlaw q x l pa = s.paFlaw q x l pa := by
  rw [h.same]; rfl
theorem Plain.reachable {s t : State} (h : Plain s t) (p : Option Nat) (pa : Nat) : t.reachable p pa = s.reachable p pa := by
  rw [h.same]; rfl
theorem Plain.partOfAgent {s t : State} (h : Plain s t) (a : Nat) : t.partOfAgent a = s.partOfAgent a := by rw [h.same]; rfl
theorem Plain.fnPart {s t : State} (h : Plain s t) (f : Nat) : t.fnPart f = s.fnPart f := by rw [h.same]; rfl
theorem Plain.fnHeld {s t : State} (h : Plain s t) (f : Nat) : t.fnHeld f = s.fnHeld f := by rw [h.same]; rfl
theorem Plain.bound {s t : State} (h : Plain s t) (f : Nat) : t.bound f = s.bound f := by rw [h.same]; rfl
theorem Plain.clusterSt {s t : State} (h : Plain s t) (n : Nat) : t.clusterSt n = s.clusterSt n := by rw [h.same]; rfl
theorem Plain.vcpPage {s t : State} (h : Plain s t) (f : Nat) : t.vcpPage f = s.vcpPage f := by rw [h.same]; rfl
theorem Plain.descPa {s t : State} (h : Plain s t) (f q : Nat) : t.descPa f q = s.descPa f q := by rw [h.same]; rfl
theorem Plain.engOf {s t : State} (h : Plain s t) (f q : Nat) : t.engOf f q = s.engOf f q := by rw [h.same]; rfl
theorem Plain.queueSpace {s t : State} (h : Plain s t) (f p : Nat) : t.queueSpace f p = s.queueSpace f p := by rw [h.same]; rfl

theorem Plain.restful {s t : State} (h : Plain s t) {w : Nat} (k : s.restful w) : t.restful w :=
  ⟨(h.quietWord w).trans k.1, (h.reg w).trans k.2.1, h.poison _ k.2.2.1, h.badline _ k.2.2.2⟩
theorem Plain.restfulAt {s t : State} (h : Plain s t) {pa n : Nat} (k : s.restfulAt pa n) : t.restfulAt pa n :=
  ⟨h.treeSound k.1, fun w hw => h.restful (k.2 w hw)⟩

theorem Plain.byte {s t : State} (h : Plain s t) (hm : t.mem = s.mem) (a : Nat) : t.byte a = s.byte a := by
  unfold State.byte State.unlisted; rw [hm, h.same]
theorem Plain.homeWord {s t : State} (h : Plain s t) (hm : t.mem = s.mem) (hn : t.minor = s.minor) (w : Nat) : t.homeWord w = s.homeWord w := by
  unfold State.homeWord State.freshEnci State.word State.bytes
  simp only [h.byte hm, h.frames, hn]
theorem Plain.homeBytes {s t : State} (h : Plain s t) (hm : t.mem = s.mem) (hn : t.minor = s.minor) (pa n : Nat) :
    t.homeBytes pa n = s.homeBytes pa n := by
  unfold State.homeBytes; simp only [h.homeWord hm hn]

/-- The buffer of an agent holds the same entries, and no more than it has room for. -/
structure Level (a : Nat) (s t : State) : Prop extends Plain s t where
  mem_buffer : ∀ e, e ∈ t.buffer a ↔ e ∈ s.buffer a
  fits : bufferFits a (s.buffer a) = true → bufferFits a (t.buffer a) = true

theorem Level.refl (a : Nat) (s : State) : Level a s s := ⟨Plain.refl s, fun _ => Iff.rfl, id⟩
theorem Level.trans {a : Nat} {s t u : State} (h : Level a s t) (k : Level a t u) : Level a s u :=
  ⟨h.toPlain.trans k.toPlain, fun e => (k.mem_buffer e).trans (h.mem_buffer e), fun x => k.fits (h.fits x)⟩

/-- The entry that serves an access is the same, where one entry covers the page. -/
theorem Level.pageOf {s t : State} {q : Eng} (h : Level q.agent s t) {va : Nat} {write : Bool} {e : TlbEntry}
    (hu : ∀ e ∈ s.buffer q.agent, ∀ f ∈ s.buffer q.agent, e.hits q.asid va = true → f.hits q.asid va = true → e = f)
    (he : s.pageOf q va write = some e) : t.pageOf q va write = some e := by
  unfold State.pageOf at he ⊢
  have hm := List.mem_of_find?_eq_some he
  have hp := List.find?_some he
  refine find_unique ((h.mem_buffer _).2 hm) hp (fun x hx hxp => hu x ((h.mem_buffer _).1 hx) e hm ?_ ?_) <;> simp_all

theorem Level.reaches {s t : State} {q : Eng} (h : Level q.agent s t) {va n : Nat} {write : Bool} (k : s.reaches q va n write) :
    t.reaches q va n write := by
  obtain ⟨hr, hf, hb, hp⟩ := k
  refine ⟨(h.rootFlaw _ _).trans hr, h.fits hf, h.treeSound hb, fun p hpm => ?_⟩
  obtain ⟨hc, hu, e, he, hl, ha, hw⟩ := hp p hpm
  refine ⟨hc, fun e he f hf => hu e ((h.mem_buffer _).1 he) f ((h.mem_buffer _).1 hf), e, h.pageOf hu he, hl,
    (h.paFlaw _ _ _ _).trans ha, hw.imp id (fun x => ⟨by rw [h.frames]; exact x.1, fun w hwm => h.restful (x.2 w hwm)⟩)⟩

/-- Of the cores, no more than the micro-buffer, the tiles and the L1's copies differ, and every agent's buffer holds what it held. -/
structure Calm (s t : State) : Prop extends Plain s t where
  core : ∀ a, t.core a = { s.core a with utlb := (t.core a).utlb, stage := (t.core a).stage, fetches := (t.core a).fetches,
                                         l1 := (t.core a).l1, reads := (t.core a).reads }
  mem_buffer : ∀ a e, e ∈ t.buffer a ↔ e ∈ s.buffer a
  fits : ∀ a, bufferFits a (s.buffer a) = true → bufferFits a (t.buffer a) = true

theorem Calm.refl (s : State) : Calm s s := ⟨Plain.refl s, fun _ => rfl, fun _ _ => Iff.rfl, fun _ h => h⟩
theorem Calm.trans {s t u : State} (h : Calm s t) (k : Calm t u) : Calm s u where
  toPlain := h.toPlain.trans k.toPlain
  core a := by rw [k.core a, h.core a]
  mem_buffer a e := (k.mem_buffer a e).trans (h.mem_buffer a e)
  fits a ha := k.fits a (h.fits a ha)

theorem Calm.level {s t : State} (h : Calm s t) (a : Nat) : Level a s t := ⟨h.toPlain, h.mem_buffer a, h.fits a⟩
theorem Calm.pageOf {s t : State} (h : Calm s t) {q : Eng} {va : Nat} {write : Bool} {e : TlbEntry}
    (hu : ∀ e ∈ s.buffer q.agent, ∀ f ∈ s.buffer q.agent, e.hits q.asid va = true → f.hits q.asid va = true → e = f)
    (he : s.pageOf q va write = some e) : t.pageOf q va write = some e := (h.level q.agent).pageOf hu he
theorem Calm.reaches {s t : State} (h : Calm s t) {q : Eng} {va n : Nat} {write : Bool} (k : s.reaches q va n write) :
    t.reaches q va n write := (h.level q.agent).reaches k
theorem Calm.wins {s t : State} (h : Calm s t) (a : Nat) : (t.core a).wins = (s.core a).wins := by rw [h.core]
theorem Calm.packs {s t : State} (h : Calm s t) (a : Nat) : (t.core a).packs = (s.core a).packs := by rw [h.core]
theorem Calm.spsz {s t : State} (h : Calm s t) (a : Nat) : (t.core a).spsz = (s.core a).spsz := by rw [h.core]
theorem Calm.quarantined {s t : State} (h : Calm s t) (a : Nat) : (t.core a).quarantined = (s.core a).quarantined := by rw [h.core]
theorem Calm.findWin {s t : State} (h : Calm s t) (l g : Nat) : t.findWin l g = s.findWin l g := by
  unfold State.findWin; simp only [h.wins]
theorem Calm.placing {s t : State} (h : Calm s t) (n spsz sp : Nat) (rows : List Nat) : t.fits n spsz sp rows = s.fits n spsz sp rows := by
  have h1 : t.spTraffic n = s.spTraffic n := by
    unfold State.spTraffic
    simp only [h.findWin]
    rw [h.same]
  unfold State.fits State.eligible State.coreBusy Core.freeSlots Core.usedRows
  simp only [h1, h.wins, h.packs, h.clusterSt, h.spsz, h.quarantined]

/-- The contents are the same too. -/
structure Still (s t : State) : Prop extends Calm s t where
  mem : t.mem = s.mem
  minor : t.minor = s.minor

theorem Still.refl (s : State) : Still s s := ⟨Calm.refl s, rfl, rfl⟩
theorem Still.trans {s t u : State} (h : Still s t) (k : Still t u) : Still s u :=
  ⟨h.toCalm.trans k.toCalm, k.mem.trans h.mem, k.minor.trans h.minor⟩

theorem Still.byte {s t : State} (h : Still s t) (a : Nat) : t.byte a = s.byte a := h.toPlain.byte h.mem a
theorem Still.homeWord {s t : State} (h : Still s t) (w : Nat) : t.homeWord w = s.homeWord w := h.toPlain.homeWord h.mem h.minor w
theorem Still.homeBytes {s t : State} (h : Still s t) (pa n : Nat) : t.homeBytes pa n = s.homeBytes pa n :=
  h.toPlain.homeBytes h.mem h.minor pa n

theorem flatMap_congr' {α β : Type} {f g : α → List β} {l : List α} (h : ∀ x ∈ l, f x = g x) : l.flatMap f = l.flatMap g := by
  induction l with
  | nil => rfl
  | cons x l ih =>
    simp only [List.flatMap_cons]
    rw [h x List.mem_cons_self, ih (fun y hy => h y (List.mem_cons_of_mem _ hy))]

theorem Still.engBytes {s t : State} (h : Still s t) {q : Eng} {va n : Nat} (k : s.reaches q va n false) :
    t.engBytes q va n = s.engBytes q va n := by
  unfold State.engBytes
  refine flatMap_congr' (fun p hp => ?_)
  obtain ⟨_, hu, e, he, _⟩ := k.2.2.2 p hp
  simp only [Option.mem_def] at he
  rw [h.pageOf hu he, he]
  simp only [h.byte, h.homeBytes]

theorem Still.reads {s t : State} (h : Still s t) {q : Eng} {va n : Nat} {bs : List Byte} (k : s.reads q va n bs) : t.reads q va n bs :=
  ⟨h.reaches k.1, (h.engBytes k.1).trans k.2⟩

theorem Still.areasRead {s t : State} (h : Still s t) {q : Eng} : ∀ {hs rs : List (List Byte)} {va : Nat},
    s.areasRead q va hs rs → t.areasRead q va hs rs
  | [], [], _, _ => trivial
  | _ :: hs, _ :: rs, _, k => ⟨h.reads k.1, k.2.1, h.reads k.2.2.1, Still.areasRead h (hs := hs) (rs := rs) k.2.2.2⟩
  | [], _ :: _, _, k => k.elim
  | _ :: _, [], _, k => k.elim

/-! ### Words -/

theorem Still.of_touch (s : State) (w : Nat) : Still s (s.touch w) :=
  ⟨⟨⟨rfl, fun _ h => h, fun _ h => h, id, id⟩, fun _ => rfl, fun _ _ => Iff.rfl, fun _ h => h⟩, rfl, rfl⟩

theorem State.underBadNode_none {s : State} (h : s.treeSound) (w : Nat) : s.underBadNode w = false := by
  simp [State.underBadNode, State.nodeAbove, h.1]

theorem State.tagFails_none {s : State} (h : s.treeSound) (w : Nat) : s.tagFails w = false := by
  simp [State.tagFails, State.nodeAbove, h.2.1, h.2.2, get]

theorem State.storedFault_none {s : State} (h : s.treeSound) {w : Nat} (k : s.restful w) (cov : Nat) (write : Bool) :
    s.storedFault w cov write = none := by
  simp [State.storedFault, State.underBadNode_none h, k.2.2.1, k.2.2.2]

theorem State.goneOwner_none {s : State} {w : Nat} (k : s.reg w = .unreg) : s.goneOwner w = none := by
  simp [State.goneOwner, k, regOwners]

theorem State.raceNow_none {s : State} {w : Nat} (k : s.reg w = .unreg) (q : Reader) (b : BitVec 4) : s.raceNow q w b = false := by
  simp [State.raceNow, k, regOwners, regCb]

theorem State.raceSome_none {s : State} {w : Nat} (k : s.reg w = .unreg) (q : Reader) (b : BitVec 4) : s.raceSome q w b = false := by
  simp [State.raceSome, k, regOwners]

theorem State.readWord_of_restful {s : State} (h : s.treeSound) {w : Nat} (k : s.restful w) (q : Reader) (b : BitVec 4) :
    s.readWord q w b = .ok (s.homeWord w, s.touch w) := by
  simp [State.readWord, k.1, State.underBadNode_none h, State.tagFails_none h, State.goneOwner_none k.2.1, State.raceNow_none k.2.1, k.2.1,
    State.storedFault_none h k]

/-- Reads at once, one after the other. -/
theorem readFold_of_restful {s : State} (hb : s.treeSound) {q : Reader}
    {f : Sync (List Byte × State) → Nat × BitVec 4 → Sync (List Byte × State)}
    (hf : ∀ bs t w d u, t.readWord q w.1 w.2 = .ok (d, u) → f (.ok (bs, t)) w = .ok (bs ++ bytesOf 4 d.toNat, u)) :
    ∀ (ws : List (Nat × BitVec 4)) (bs : List Byte) (t : State), Still s t → (∀ w ∈ ws, s.restful w.1) →
      ∃ u, ws.foldl f (.ok (bs, t)) = .ok (bs ++ ws.flatMap (fun e => bytesOf 4 (s.homeWord e.1).toNat), u) ∧ Still s u := by
  intro ws
  induction ws with
  | nil => intro bs t ht _; exact ⟨t, by simp, ht⟩
  | cons w ws ih =>
    intro bs t ht hw
    have hr := State.readWord_of_restful (ht.treeSound hb) (ht.restful (hw w List.mem_cons_self)) q w.2
    obtain ⟨u, hu, hs⟩ := ih (bs ++ bytesOf 4 (s.homeWord w.1).toNat) (t.touch w.1) (ht.trans (Still.of_touch t w.1))
      (fun x hx => hw x (List.mem_cons_of_mem _ hx))
    refine ⟨u, ?_, hs⟩
    rw [List.foldl_cons, hf _ _ _ _ _ hr, ht.homeWord, hu, List.flatMap_cons, List.append_assoc]

/-- A read at once of a range: what its homes hold. -/
theorem State.readBytes_of_restful {s : State} {pa n : Nat} (h : s.restfulAt pa n) (q : Reader) :
    ∃ t, s.readBytes q pa n = .ok (s.homeBytes pa n, t) ∧ Still s t := by
  unfold State.readBytes
  generalize hg : (spanWords pa n).foldl _ _ = go
  obtain ⟨u, hu, hs⟩ : ∃ u, go = .ok ([] ++ (spanWords pa n).flatMap (fun e => bytesOf 4 (s.homeWord e.1).toNat), u) ∧ Still s u := by
    rw [← hg]
    exact readFold_of_restful (q := q) h.1 (fun bs t w d u e => by simp only [e]) _ [] s (Still.refl s) h.2
  subst hu
  exact ⟨u, rfl, hs⟩

/-! ### Writes of words -/

theorem Calm.of_mem {s t : State} (h : t = { s with
      mem := t.mem, minor := t.minor, major := t.major, badline := t.badline, tagDelta := t.tagDelta, nodeOff := t.nodeOff })
    (hb : ∀ k, get false s.badline k = false → get false t.badline k = false) (hd : s.tagDelta = [] → t.tagDelta = [])
    (ho : s.nodeOff = [] → t.nodeOff = []) : Calm s t where
  same := by rw [h]
  poison k hk := by rw [h]; exact hk
  badline := hb
  tagDelta := hd
  nodeOff := ho
  core a := by rw [h]; rfl
  mem_buffer a e := by rw [h]; rfl
  fits a ha := by rw [h]; exact ha

theorem Calm.of_staleAll (s : State) (line : Nat) : Calm s (s.staleAll line) := by
  unfold State.staleAll
  split
  · exact Calm.refl s
  · refine ⟨⟨rfl, fun _ h => h, fun _ h => h, id, id⟩, fun a => ?_, fun a e => ?_, fun a h => ?_⟩ <;>
    (
      have hc := get_map Core.init (fun c => ({ c with
        stage := c.stage.map (fun (x : StageEntry) => if x.lines.contains line then { x with stale := true } else x)
        fetches := c.fetches.map (fun (f : TileFetch) =>
          if f.entry.lines.contains line then { f with entry := { f.entry with stale := true } } else f) } : Core)) s.cores a
      have hi : ({ Core.init with
        stage := Core.init.stage.map (fun (x : StageEntry) => if x.lines.contains line then { x with stale := true } else x)
        fetches := Core.init.fetches.map (fun (f : TileFetch) =>
          if f.entry.lines.contains line then { f with entry := { f.entry with stale := true } } else f) } : Core) = Core.init := rfl
      rw [hi] at hc)
    · unfold State.core
      simp only
      rw [hc]
    · unfold State.buffer State.core
      simp only
      rw [hc]
    · unfold State.buffer State.core at h ⊢
      simp only
      rw [hc]
      exact h

theorem get_clear (m : SMap Bool) (i k : Nat) (h : get false m k = false) : get false (set false m i false) k = false := by
  rw [get_set]; split <;> simp_all

theorem Calm.of_clearPoison (s : State) (w cov : Nat) : Calm s (s.clearPoison w cov) := by
  unfold State.clearPoison
  split <;> split <;>
    exact ⟨⟨rfl, fun k h => by first | exact h | exact get_clear _ _ _ h, fun k h => by first | exact h | exact get_clear _ _ _ h, id, id⟩,
      fun _ => rfl, fun _ _ => Iff.rfl, fun _ h => h⟩

theorem Calm.of_setBytes (s : State) (a : Nat) (bs : List Byte) : Calm s (s.setBytes a bs) := by
  refine Calm.of_mem ?_ (fun k hk => ?_) (fun hk => ?_) (fun hk => ?_)
  · conv => lhs; rw [State.setBytes_eq]
    rw [State.setBytes_eq]
  all_goals rw [State.setBytes_eq]; exact hk

theorem Calm.of_putWord (s : State) (w : Nat) (m : BitVec 4) (d : W32) : Calm s (s.putWord w m d) := Calm.of_setBytes _ _ _

theorem Calm.of_setBytes_fold (g : Nat → Nat) (b : Nat → List Byte) (l : List Nat) (s : State) :
    Calm s (l.foldl (fun (s : State) i => s.setBytes (g i) (b i)) s) := by
  induction l generalizing s with
  | nil => exact Calm.refl s
  | cons i l ih => exact (Calm.of_setBytes _ _ _).trans (ih _)

theorem Calm.of_counters (s : State) (m j : SMap Nat) : Calm s { s with minor := m, major := j } := Calm.of_mem rfl (fun _ h => h) id id

theorem Calm.of_retag (s : State) (w : Nat) : Calm s (s.retag w) :=
  Calm.of_mem rfl (fun _ h => h) (fun h => by show set 0 s.tagDelta _ 0 = []; rw [h]; rfl)
    (fun h => by show s.nodeOff.filter _ = []; rw [h]; rfl)

theorem get_clears (g : Nat → Nat) (l : List Nat) (m : SMap Bool) (k : Nat) (h : get false m k = false) :
    get false (l.foldl (fun (m : SMap Bool) i => set false m (g i) false) m) k = false := by
  induction l generalizing m with
  | nil => exact h
  | cons i l ih => exact ih _ (get_clear _ _ _ h)

/-- The state with other marks of failed lines and of tags. -/
def State.withMarks (s : State) (b : SMap Bool) (d : SMap W64) : State := { s with badline := b, tagDelta := d }

theorem Calm.of_withMarks (s : State) (b : SMap Bool) (d : SMap W64) (hb : ∀ k, get false s.badline k = false → get false b k = false)
    (hd : s.tagDelta = [] → d = []) : Calm s (s.withMarks b d) := Calm.of_mem rfl hb hd id

theorem set_nil (l : Nat) : set (0 : W64) [] l 0 = [] := rfl

theorem State.zeroLine_eq (s : State) (l : Nat) : s.zeroLine l = (List.range 16).foldl (fun (s : State) i => s.setWord (16 * l + i) 0)
    (s.withMarks ((List.range 16).foldl (fun (m : SMap Bool) i => set false m (16 * l + i) false) s.badline) (set 0 s.tagDelta l 0)) := rfl

theorem Calm.of_zeros (s : State) (l : Nat) : Calm s ((List.range 16).foldl (fun (s : State) i => s.setWord (16 * l + i) 0) s) :=
  Calm.of_setBytes_fold (fun i => 4 * (16 * l + i)) (fun _ => bytesOf 4 (0 : W32).toNat) (List.range 16) _

theorem Calm.of_cleared (s : State) (l : Nat) : Calm s
    (s.withMarks ((List.range 16).foldl (fun (m : SMap Bool) i => set false m (16 * l + i) false) s.badline) (set 0 s.tagDelta l 0)) := by
  apply Calm.of_withMarks
  · intro k h
    exact get_clears (fun i => 16 * l + i) (List.range 16) s.badline k h
  · intro h
    rw [h]; exact set_nil l

theorem Calm.of_zeroLine (s : State) (l : Nat) : Calm s (s.zeroLine l) := by
  rw [State.zeroLine_eq]
  exact (Calm.of_cleared s l).trans (Calm.of_zeros _ l)

theorem Calm.of_zeroLines (g : Nat → Nat) (l : List Nat) (s : State) : Calm s (l.foldl (fun (s : State) i => s.zeroLine (g i)) s) := by
  induction l generalizing s with
  | nil => exact Calm.refl s
  | cons i l ih => rw [List.foldl_cons]; exact (Calm.of_zeroLine s (g i)).trans (ih (s.zeroLine (g i)))

theorem Calm.of_countEnci (s : State) (w : Nat) : Calm s (s.countEnci w) := by
  unfold State.countEnci
  split
  · dsimp only
    split
    · exact ((Calm.of_retag s w).trans (Calm.of_zeroLine _ (w / 16))).trans (Calm.of_counters _ _ _)
    · split
      · exact (Calm.of_retag s w).trans (Calm.of_counters _ _ s.major)
      · exact ((Calm.of_retag s w).trans (Calm.of_zeroLines (fun i => 64 * (w / 16 / 64) + i) _ _)).trans (Calm.of_counters _ _ _)
  · exact Calm.refl s

theorem State.writeWord_of_restful {s : State} (h : s.treeSound) {w : Nat} (k : s.restful w) (q : Reader) (m : BitVec 4) (d : W32)
    (cov : Nat) : ∃ t, s.writeWord q w m d cov = .ok t ∧ Calm s t := by
  have hc : Calm s ((s.staleAll (w / 16)).touch w) := (Calm.of_staleAll s _).trans (Still.of_touch _ w).toCalm
  have hr : ((s.staleAll (w / 16)).touch w).reg w = .unreg := (hc.reg w).trans k.2.1
  have hs := State.storedFault_none (hc.treeSound h) (hc.restful k) cov true
  refine ⟨_, ?_, (hc.trans (Calm.of_clearPoison _ w cov)).trans (Calm.of_putWord _ w m d)⟩
  simp [State.writeWord, k.1, State.underBadNode_none h, State.goneOwner_none k.2.1, State.raceNow_none k.2.1,
    State.raceSome_none k.2.1, k.2.1, regCb, hr, hs]

/-- Writes at once, one after the other. -/
theorem writeFold_of_restful {α : Type} {s : State} (hb : s.treeSound) {f : Sync State → α → Sync State} {at_ : α → Nat}
    (hf : ∀ t x, t.treeSound → t.restful (at_ x) → ∃ u, f (.ok t) x = .ok u ∧ Calm t u) :
    ∀ (ws : List α) (t : State), Calm s t → (∀ x ∈ ws, s.restful (at_ x)) → ∃ u, ws.foldl f (.ok t) = .ok u ∧ Calm s u := by
  intro ws
  induction ws with
  | nil => intro t ht _; exact ⟨t, rfl, ht⟩
  | cons w ws ih =>
    intro t ht hw
    obtain ⟨u, hu, hc⟩ := hf t w (ht.treeSound hb) (ht.restful (hw w List.mem_cons_self))
    rw [List.foldl_cons, hu]
    exact ih u (ht.trans hc) (fun x hx => hw x (List.mem_cons_of_mem _ hx))

theorem State.ready_of_restful {s : State} {w : Nat} (k : s.restful w) : s.ready w = true := by
  simp [State.ready, k.1, k.2.1, regCb]

/-- A write at once of a range is done. -/
theorem State.writeBytes_of_restful {s : State} {pa : Nat} {bs : List Byte} (h : s.restfulAt pa bs.length) (q : Reader) :
    ∃ t, s.writeBytes q pa bs = .ok t ∧ Calm s t := by
  have hn : (spanWords pa bs.length).find? (fun e => !s.ready e.1) = none :=
    List.find?_eq_none.2 (fun e he => by simp [State.ready_of_restful (h.2 e he)])
  have hk : ∀ (l : List Nat) (t : State), Calm s t → Calm s (l.foldl (fun (s : State) l => s.countEnci (16 * l)) t) := by
    intro l
    induction l with
    | nil => intro t ht; exact ht
    | cons i l ih => intro t ht; exact ih _ (ht.trans (Calm.of_countEnci _ _))
  unfold State.writeBytes
  have hf : (spanWords pa bs.length).find? (fun e => (regOwners (s.reg e.1)).isEmpty && s.tagFails e.1) = none :=
    List.find?_eq_none.2 (fun e he => by simp [State.tagFails_none h.1])
  simp only [hn, hf]
  refine writeFold_of_restful h.1 (at_ := fun e => e.1.1) (fun t x hb hr => ?_) _ _ (hk _ s (Calm.refl s)) (fun x hx => h.2 x.1 ?_)
  · exact State.writeWord_of_restful hb hr _ _ _ _
  · exact (List.mem_zipIdx' hx).2 ▸ List.getElem_mem _

/-! ### Pages -/

theorem bufferFits_put {a : Nat} (ha : (64 ≤ a && a < 96) = true) {e : TlbEntry} {l : List TlbEntry} (he : e ∈ l)
    (h : bufferFits a l = true) : bufferFits a (tlbPut (utlbSize a) e l) = true ∧ ∀ f, f ∈ tlbPut (utlbSize a) e l ↔ f ∈ l := by
  unfold bufferFits at h ⊢
  simp only [ha, if_true, decide_eq_true_eq] at h ⊢
  refine ⟨?_, fun f => ⟨fun hf => (mem_tlbPut hf).elim (fun x => x ▸ he) id, mem_tlbPut_of h he⟩⟩
  unfold tlbPut
  exact List.length_take_le _ _

theorem bufferFits_putSet {a : Nat} (ha : (64 ≤ a && a < 96) = false) {e : TlbEntry} {l : List TlbEntry} (he : e ∈ l)
    (h : bufferFits a l = true) : bufferFits a (tlbPutSet 128 e l) = true ∧ ∀ f, f ∈ tlbPutSet 128 e l ↔ f ∈ l := by
  unfold bufferFits at h ⊢
  simp only [ha, Bool.false_eq_true, if_false, List.all_eq_true, decide_eq_true_eq] at h ⊢
  have hlt : (l.filter (fun x => x != e && tlbSet 128 x == tlbSet 128 e)).length < (l.filter (fun x => tlbSet 128 x == tlbSet 128 e)).length := by
    have h1 : l.filter (fun x => x != e && tlbSet 128 x == tlbSet 128 e) =
        (l.filter (fun x => tlbSet 128 x == tlbSet 128 e)).filter (fun x => x != e) := by simp [List.filter_filter]
    rw [h1]
    exact List.length_filter_lt_length_iff_exists.2 ⟨e, by simp [he], by simp⟩
  have hle := h e he
  have htake : (l.filter (fun x => x != e && tlbSet 128 x == tlbSet 128 e)).take 15 =
      l.filter (fun x => x != e && tlbSet 128 x == tlbSet 128 e) := List.take_of_length_le (by omega)
  have hmem : ∀ f, f ∈ tlbPutSet 128 e l ↔ f ∈ l := by
    intro f
    unfold tlbPutSet
    simp only [htake, List.cons_append, List.mem_cons, List.mem_append, List.mem_filter, Bool.and_eq_true, bne_iff_ne, ne_eq,
      beq_iff_eq]
    constructor
    · rintro (rfl | h | h)
      · exact he
      · exact h.1
      · exact h.1
    · intro hf
      by_cases h1 : f = e
      · exact .inl h1
      · by_cases h2 : tlbSet 128 f = tlbSet 128 e
        · exact .inr (.inl ⟨hf, h1, h2⟩)
        · exact .inr (.inr ⟨hf, h2⟩)
  refine ⟨fun f hf => ?_, hmem⟩
  have hf' := h f ((hmem f).1 hf)
  unfold tlbPutSet
  simp only [htake, List.cons_append, List.filter_cons, List.filter_append, List.filter_filter]
  by_cases h2 : tlbSet 128 f = tlbSet 128 e
  · have h3 : l.filter (fun x => tlbSet 128 x == tlbSet 128 f && tlbSet 128 x != tlbSet 128 e) = [] :=
      List.filter_eq_nil_iff.2 (fun x _ => by simp [h2])
    have h4 : l.filter (fun x => tlbSet 128 x == tlbSet 128 f && (x != e && tlbSet 128 x == tlbSet 128 e)) =
        l.filter (fun x => x != e && tlbSet 128 x == tlbSet 128 e) :=
      List.filter_congr (fun x _ => by rw [h2]; cases tlbSet 128 x == tlbSet 128 e <;> simp)
    rw [h3, h4, if_pos (by simp [h2])]
    simp only [List.append_nil, List.length_cons]
    omega
  · have h3 : l.filter (fun x => tlbSet 128 x == tlbSet 128 f && (x != e && tlbSet 128 x == tlbSet 128 e)) = [] :=
      List.filter_eq_nil_iff.2 (fun x _ => by
        simp only [Bool.and_eq_true, beq_iff_eq, not_and]
        intro h5 _ h6
        exact h2 (h5.symm.trans h6))
    have h4 : l.filter (fun x => tlbSet 128 x == tlbSet 128 f && tlbSet 128 x != tlbSet 128 e) =
        l.filter (fun x => tlbSet 128 x == tlbSet 128 f) :=
      List.filter_congr (fun x _ => by
        by_cases h5 : tlbSet 128 x = tlbSet 128 f
        · simp [h5, h2]
        · simp [h5])
    rw [h3, h4, if_neg (by simpa using fun h => h2 h.symm)]
    simpa using hf'

theorem bufferFits_hub {a b : Nat} (ha : (64 ≤ a && a < 96) = false) (hb : (64 ≤ b && b < 96) = false) (l : List TlbEntry) :
    bufferFits a l = bufferFits b l := by
  unfold bufferFits; rw [ha, hb]; rfl

/-- A state whose buffers alone differ, in their order. -/
theorem Still.of_buffers {s t : State} (h : t = { s with hubtb := t.hubtb, ctb := t.ctb, cores := t.cores }) (u : Nat → List TlbEntry)
    (hc : ∀ b, t.core b = { s.core b with utlb := u b }) (hu : ∀ b x, x ∈ u b ↔ x ∈ (s.core b).utlb)
    (hf : ∀ b, (64 ≤ b && b < 96) = true → bufferFits b (s.core b).utlb = true → bufferFits b (u b) = true)
    (hh : ∀ x, x ∈ t.hubtb ↔ x ∈ s.hubtb)
    (hg : ∀ b, (64 ≤ b && b < 96) = false → bufferFits b s.hubtb = true → bufferFits b t.hubtb = true) : Still s t where
  same := by rw [h]
  poison k hk := by rw [h]; exact hk
  badline k hk := by rw [h]; exact hk
  tagDelta hk := by rw [h]; exact hk
  nodeOff hk := by rw [h]; exact hk
  core b := by rw [hc]
  mem_buffer b x := by
    unfold State.buffer
    rw [hc]
    split
    · exact hu b x
    · exact hh x
  fits b hb := by
    unfold State.buffer at hb ⊢
    rw [hc]
    by_cases h : (64 ≤ b && b < 96) = true
    · simp only [h, if_true] at hb ⊢; exact hf b h hb
    · simp only [h] at hb ⊢; exact hg b (by simpa using h) hb
  mem := by rw [h]
  minor := by rw [h]

/-- The page of an access is buffered by one entry, which serves it. -/
structure State.Paged (s : State) (q : Eng) (va : Nat) (write : Bool) (e : TlbEntry) : Prop where
  root : s.rootFlaw q.part q.root = none
  fits : bufferFits q.agent (s.buffer q.agent) = true
  canon : canonical va = true
  one : ∀ e ∈ s.buffer q.agent, ∀ f ∈ s.buffer q.agent, e.hits q.asid va = true → f.hits q.asid va = true → e = f
  page : s.pageOf q va write = some e
  leaf : leafFlaw (q.who write) e.leaf e.level = none
  pa : s.paFlaw (q.who write) e.leaf e.level (leafPa e.leaf e.level va) = none

theorem State.engLeaf_of_paged {s : State} {q : Eng} {va : Nat} {write : Bool} {e : TlbEntry} (h : s.Paged q va write e) :
    ∃ t, s.engLeaf q va write = .ok (e.leaf, e.level) t ∧ Still s t := by
  have hm := List.mem_of_find?_eq_some h.page
  have hp := List.find?_some h.page
  simp only [Bool.and_eq_true] at hp
  have hk : (s.buffer q.agent).filter (fun x => !x.hits q.asid va || x.serves write) = s.buffer q.agent :=
    List.filter_eq_self.2 (fun x hx => by
      by_cases hh : x.hits q.asid va = true
      · rw [h.one x hx e hm hh hp.1]; simp [hp.2]
      · simp [hh])
  have hf : (s.buffer q.agent).find? (fun x => x.hits q.asid va) = some e :=
    find_unique hm hp.1 (fun x hx hh => h.one x hx e hm hh hp.1)
  unfold State.engLeaf
  simp only [h.canon, Bool.not_true, Bool.false_eq_true, if_false, h.root]
  by_cases ha : (64 ≤ q.agent && q.agent < 96) = true
  · have hbuf : s.buffer q.agent = (s.core q.agent).utlb := by simp [State.buffer, ha]
    rw [hbuf] at hk hf hm
    have hfit := h.fits
    rw [hbuf] at hfit
    obtain ⟨hfit', hmem⟩ := bufferFits_put ha hm hfit
    rw [if_pos ha]
    unfold State.lookupTlb
    simp only [hk, hf]
    refine ⟨_, rfl, ?_⟩
    refine Still.of_buffers rfl (u := fun b => if b = q.agent then tlbPut (utlbSize q.agent) e (s.core q.agent).utlb else (s.core b).utlb)
      (fun b => ?_) (fun b x => ?_) (fun b hb hx => ?_) (fun x => Iff.rfl) (fun _ _ hx => hx)
    · by_cases hb : b = q.agent
      · subst hb; simp [State.core, State.updCore, State.setCore, get_ins_self]
      · have hb' : q.agent ≠ b := fun x => hb x.symm
        simp [State.core, State.updCore, State.setCore, get_ins _ _ _ _ _ hb', hb]
    · by_cases hb : b = q.agent
      · subst hb; simpa using hmem x
      · simp [hb]
    · by_cases hb' : b = q.agent
      · subst hb'; simpa using hfit'
      · simpa [hb'] using hx
  · have ha' : (64 ≤ q.agent && q.agent < 96) = false := by simpa using ha
    have hbuf : s.buffer q.agent = s.hubtb := by simp [State.buffer, ha']
    rw [hbuf] at hk hf hm
    have hfit := h.fits
    rw [hbuf] at hfit
    obtain ⟨hfit', hmem⟩ := bufferFits_putSet ha' hm hfit
    rw [if_neg ha]
    simp only [hk, hf]
    exact ⟨_, rfl, Still.of_buffers rfl (u := fun b => (s.core b).utlb) (fun _ => rfl) (fun _ _ => Iff.rfl) (fun _ _ hx => hx)
      hmem (fun b hb _ => (bufferFits_hub hb ha' _).trans hfit')⟩

theorem State.engXlate_of_paged {s : State} {q : Eng} {va : Nat} {write : Bool} {e : TlbEntry} (h : s.Paged q va write e) :
    ∃ t, s.engXlate q va write = .ok (leafPa e.leaf e.level va,
      if isHost (leafPa e.leaf e.level va) then 0 else leafAttr e.leaf) t ∧ Still s t := by
  obtain ⟨t, ht, hs⟩ := State.engLeaf_of_paged h
  refine ⟨t, ?_, hs⟩
  have h1 := h.leaf
  have h2 := (hs.paFlaw _ _ _ _).trans h.pa
  unfold Eng.who at h1 h2
  unfold State.engXlate
  simp only [ht, EngRes.andThen, h1, h2]

theorem State.reaches.paged {s : State} {q : Eng} {va n : Nat} {write : Bool} (h : s.reaches q va n write) {p : Nat × Nat}
    (hp : p ∈ piecesOf va n) : ∃ e, s.Paged q p.1 write e ∧ (isHost (leafPa e.leaf e.level p.1) = true ∨
      (get 0 s.frames (leafPa e.leaf e.level p.1 / 2 ^ 16) = leafAttr e.leaf ∧ s.restfulAt (leafPa e.leaf e.level p.1) p.2)) := by
  obtain ⟨hr, hf, hb, hall⟩ := h
  obtain ⟨hc, hu, e, he, hl, ha, hw⟩ := hall p hp
  exact ⟨e, ⟨hr, hf, hc, hu, he, hl, ha⟩, hw.imp id (fun x => ⟨x.1, hb, x.2⟩)⟩

theorem State.bindFrame_bound {s : State} {pa a : Nat} {leaf : W64} (h : get 0 s.frames (pa / 2 ^ 16) = leafAttr leaf) :
    s.bindFrame pa a = s := by
  have h' : get 0 s.frames (pa / 2 ^ 16) ≠ 0 := by rw [h]; simp [leafAttr]
  unfold State.bindFrame
  rw [if_pos]
  simp only [Bool.or_eq_true, decide_eq_true_eq]
  exact .inr h'

theorem State.engRead1_of_reaches {s : State} {q : Eng} {va n : Nat} (h : s.reaches q va n false) {p : Nat × Nat}
    (hp : p ∈ piecesOf va n) : ∃ t, s.engRead1 q p.1 p.2 = .ok (match s.pageOf q p.1 false with
      | some e =>
        let pa := leafPa e.leaf e.level p.1
        if isHost pa then (List.range p.2).map (fun i => s.byte (pa + i)) else s.homeBytes pa p.2
      | none => []) t ∧ Still s t := by
  obtain ⟨e, he, hw⟩ := h.paged hp
  obtain ⟨t, ht, hs⟩ := State.engXlate_of_paged he
  unfold State.engRead1
  simp only [ht, EngRes.andThen, he.page]
  by_cases hh : isHost (leafPa e.leaf e.level p.1) = true
  · simp only [hh, if_true]
    exact ⟨t, by simp only [hs.byte], hs⟩
  · obtain ⟨hb, hr⟩ := hw.resolve_left hh
    simp only [hh, Bool.false_eq_true, if_false]
    rw [State.bindFrame_bound (by rw [hs.frames]; exact hb)]
    obtain ⟨u, hu, hs'⟩ := State.readBytes_of_restful (hs.restfulAt hr) ⟨q.agent, q.check⟩
    rw [hu]
    exact ⟨u, by simp only [hs.homeBytes], hs.trans hs'⟩

/-- An engine's read at once. -/
theorem State.engRead_of_reaches {s : State} {q : Eng} {va n : Nat} (h : s.reaches q va n false) :
    ∃ t, s.engRead q va n = .ok (s.engBytes q va n) t ∧ Still s t := by
  have key : ∀ (ps : List (Nat × Nat)) (bs : List Byte) (t : State), Still s t → (∀ p ∈ ps, p ∈ piecesOf va n) →
      ∃ u, ps.foldl (fun r p => EngRes.andThen r (fun bs s => (s.engRead1 q p.1 p.2).andThen (fun more s => .ok (bs ++ more) s)))
        (.ok bs t) = .ok (bs ++ ps.flatMap (fun p =>
          match s.pageOf q p.1 false with
          | some e =>
            let pa := leafPa e.leaf e.level p.1
            if isHost pa then (List.range p.2).map (fun i => s.byte (pa + i)) else s.homeBytes pa p.2
          | none => [])) u ∧ Still s u := by
    intro ps
    induction ps with
    | nil => intro bs t ht _; exact ⟨t, by simp, ht⟩
    | cons p ps ih =>
      intro bs t ht hp
      have hpm := hp p List.mem_cons_self
      obtain ⟨u, hu, hs⟩ := State.engRead1_of_reaches (ht.reaches h) hpm
      obtain ⟨e, he, _⟩ := h.paged hpm
      obtain ⟨w, hw, hs'⟩ := ih (bs ++ _) u (ht.trans hs) (fun x hx => hp x (List.mem_cons_of_mem _ hx))
      refine ⟨w, ?_, hs'⟩
      rw [List.foldl_cons, List.flatMap_cons, ← List.append_assoc]
      simp only [EngRes.andThen, hu]
      rw [ht.pageOf he.one he.page, he.page] at *
      simp only [ht.byte, ht.homeBytes] at hw ⊢
      exact hw
  unfold State.engRead State.engBytes
  obtain ⟨u, hu, hs⟩ := key (piecesOf va n) [] s (Still.refl s) (fun _ h => h)
  exact ⟨u, hu, hs⟩

theorem State.engRead_of_reads {s : State} {q : Eng} {va n : Nat} {bs : List Byte} (h : s.reads q va n bs) :
    ∃ t, s.engRead q va n = .ok bs t ∧ Still s t := h.2 ▸ State.engRead_of_reaches h.1

/-- A fold of accesses over the pieces of a range, each of which is done. -/
theorem pieceFold {α : Type} {R : State → State → Prop} (tr : ∀ {a b c}, R a b → R b c → R a c) {s : State} {f : EngRes Unit → α → EngRes Unit}
    {ps : List α} (hf : ∀ t x, R s t → x ∈ ps → ∃ u, f (.ok () t) x = .ok () u ∧ R t u) :
    ∀ (qs : List α) (t : State), R s t → (∀ x ∈ qs, x ∈ ps) → ∃ u, qs.foldl f (.ok () t) = .ok () u ∧ R s u := by
  intro qs
  induction qs with
  | nil => intro t ht _; exact ⟨t, rfl, ht⟩
  | cons x qs ih =>
    intro t ht hm
    obtain ⟨u, hu, hc⟩ := hf t x ht (hm x List.mem_cons_self)
    rw [List.foldl_cons, hu]
    exact ih u (tr ht hc) (fun y hy => hm y (List.mem_cons_of_mem _ hy))

/-- Every page of a range that is reached passes its checks. -/
theorem State.engCheck_of_reaches {s : State} {q : Eng} {va n : Nat} {write : Bool} (h : s.reaches q va n write) :
    ∃ t, s.engCheck q va n write = .ok () t ∧ Still s t := by
  unfold State.engCheck
  refine pieceFold (R := Still) Still.trans (ps := piecesOf va n) (fun t p ht hp => ?_) _ s (Still.refl s) (fun _ hx => hx)
  obtain ⟨e, he, _⟩ := (ht.reaches h).paged hp
  obtain ⟨u, hu, hs⟩ := State.engXlate_of_paged he
  exact ⟨u, by simp only [EngRes.andThen, hu], hs⟩

theorem pieces_len {va n : Nat} (fuel : Nat) {p : Nat × Nat} (hp : p ∈ pieces fuel va n) : va ≤ p.1 ∧ p.1 + p.2 ≤ va + n := by
  induction fuel generalizing va n with
  | zero => simp [pieces] at hp
  | succ k ih =>
    unfold pieces at hp
    split at hp
    · simp at hp
    · simp only [List.mem_cons] at hp
      rcases hp with rfl | hp
      · exact ⟨Nat.le_refl _, by simp only; omega⟩
      · have := ih hp; omega

/-- An engine's write at once. -/
theorem State.engWrite_of_reaches {s : State} {q : Eng} {va : Nat} {bs : List Byte} (h : s.reaches q va bs.length true) :
    ∃ t, s.engWrite q va bs = .ok () t ∧ Calm s t := by
  unfold State.engWrite
  refine pieceFold (R := Calm) Calm.trans (ps := piecesOf va bs.length) (fun t p ht hp => ?_) _ s (Calm.refl s) (fun _ hx => hx)
  obtain ⟨e, he, hw⟩ := (ht.reaches h).paged hp
  obtain ⟨u, hu, hs⟩ := State.engXlate_of_paged he
  have hl : ((bs.drop (p.1 - va)).take p.2).length = p.2 := by
    have := pieces_len _ hp
    rw [List.length_take, List.length_drop]; omega
  simp only [EngRes.andThen, State.engWrite1, hu]
  by_cases hh : isHost (leafPa e.leaf e.level p.1) = true
  · simp only [hh, if_true]
    exact ⟨_, rfl, hs.toCalm.trans (Calm.of_setBytes _ _ _)⟩
  · obtain ⟨hb, hr⟩ := hw.resolve_left hh
    simp only [hh, Bool.false_eq_true, if_false]
    rw [State.bindFrame_bound (by rw [hs.frames]; exact hb)]
    obtain ⟨w, hw, hc⟩ := State.writeBytes_of_restful (s := u) (pa := leafPa e.leaf e.level p.1) (bs := (bs.drop (p.1 - va)).take p.2)
      (by rw [hl]; exact hs.restfulAt hr) ⟨q.agent, q.check⟩
    rw [hw]
    exact ⟨w, rfl, hs.toCalm.trans hc⟩

/-- The same, by physical address for a partition. -/
theorem State.readAt_of_restful {s : State} {p pa n : Nat} (hr : s.reachable (some p) pa = true) (h : s.restfulAt pa n) (q : Reader) :
    ∃ t, s.readAt p q pa n = .ok (s.homeBytes pa n, t) ∧ Still s t := by
  unfold State.readAt; rw [if_pos hr]; exact State.readBytes_of_restful h q
theorem State.writeAt_of_restful {s : State} {p pa : Nat} {bs : List Byte} (hr : s.reachable (some p) pa = true)
    (h : s.restfulAt pa bs.length) (q : Reader) : ∃ t, s.writeAt p q pa bs = .ok t ∧ Calm s t := by
  unfold State.writeAt; rw [if_pos hr]; exact State.writeBytes_of_restful h q

/-- The words that a part of a range touches are among those of the range. -/
theorem State.restfulAt.sub {s : State} {pa n pb m : Nat} (h : s.restfulAt pa n) (h1 : pa ≤ pb) (h2 : pb + m ≤ pa + n) (hm : 0 < m) :
    s.restfulAt pb m := by
  refine ⟨h.1, fun w hw => ?_⟩
  unfold spanWords at hw
  obtain ⟨i, hi, rfl⟩ := List.mem_map.1 hw
  simp only [List.mem_range] at hi
  have := h.2 (pb / 4 + i, _) (List.mem_map.2 ⟨pb / 4 + i - pa / 4, by simp only [List.mem_range]; omega, Prod.ext (by simp only; omega) rfl⟩)
  exact this

/-! ### How many bytes a read answers -/

theorem pieces_sum (fuel va n : Nat) (h : n < (fuel - 1) * 2 ^ 16 + (2 ^ 16 - va % 2 ^ 16)) (hf : 0 < fuel) :
    ((pieces fuel va n).map (fun p => p.2)).sum = n := by
  induction fuel generalizing va n with
  | zero => omega
  | succ k ih =>
    unfold pieces
    split
    · simp_all
    · rename_i hn
      dsimp only
      by_cases hle : n ≤ 2 ^ 16 - va % 2 ^ 16
      · have : min n (2 ^ 16 - va % 2 ^ 16) = n := by omega
        rw [this]
        cases k with
        | zero => simp [pieces]
        | succ k => simp [pieces]
      · have hmin : min n (2 ^ 16 - va % 2 ^ 16) = 2 ^ 16 - va % 2 ^ 16 := by omega
        rw [hmin, List.map_cons, List.sum_cons, ih]
        · omega
        · have : (va + (2 ^ 16 - va % 2 ^ 16)) % 2 ^ 16 = 0 := by omega
          rw [this]
          cases k with
          | zero => omega
          | succ k => simp only [Nat.add_sub_cancel] at h ⊢; rw [Nat.add_mul] at h; omega
        · cases k with
          | zero => omega
          | succ k => omega

theorem piecesOf_sum (va n : Nat) : ((piecesOf va n).map (fun p => p.2)).sum = n := by
  refine pieces_sum _ va n ?_ (by omega)
  omega

theorem bytesOf_length (n v : Nat) : (bytesOf n v).length = n := by simp [bytesOf]

theorem State.homeBytes_length (s : State) (pa n : Nat) : (s.homeBytes pa n).length = n := by
  have h : ((spanWords pa n).flatMap (fun e => bytesOf 4 (s.homeWord e.1).toNat)).length = 4 * ((pa % 4 + n + 3) / 4) := by
    have : ∀ l : List (Nat × BitVec 4), (l.flatMap (fun e => bytesOf 4 (s.homeWord e.1).toNat)).length = 4 * l.length := by
      intro l
      induction l with
      | nil => rfl
      | cons x l ih => rw [List.flatMap_cons, List.length_append, ih, bytesOf_length, List.length_cons]; omega
    rw [this]; simp [spanWords]
  unfold State.homeBytes
  rw [List.length_take, List.length_drop, h]
  omega

theorem State.engBytes_length {s : State} {q : Eng} {va n : Nat} (h : s.reaches q va n false) : (s.engBytes q va n).length = n := by
  have : ∀ l : List (Nat × Nat), (∀ p ∈ l, p ∈ piecesOf va n) → (l.flatMap (fun p =>
      match s.pageOf q p.1 false with
      | some e =>
        let pa := leafPa e.leaf e.level p.1
        if isHost pa then (List.range p.2).map (fun i => s.byte (pa + i)) else s.homeBytes pa p.2
      | none => [])).length = (l.map (fun p => p.2)).sum := by
    intro l
    induction l with
    | nil => intro _; rfl
    | cons x l ih =>
      intro hl
      obtain ⟨e, he, _⟩ := h.paged (hl x List.mem_cons_self)
      rw [List.flatMap_cons, List.length_append, ih (fun y hy => hl y (List.mem_cons_of_mem _ hy)), he.page, List.map_cons, List.sum_cons]
      congr 1
      dsimp only
      split
      · simp
      · exact State.homeBytes_length _ _ _
  exact (this _ (fun _ h => h)).trans (piecesOf_sum va n)

/-! ### Descriptors, tile lines, and images -/

/-- With its descriptors' words free, a function's queues are made invalid at once. -/
theorem State.clearValid_of_restful {s : State} {f : Nat} (h : ∀ page ∈ s.vcpPage f, s.restfulAt page 32768) :
    ∃ t, s.clearValid f = .ok t ∧ Calm s t := by
  let go (s : State) (q : Nat) : Except State State :=
    match s.descPa f q, s.desc f q with
    | some pa, .ok d =>
      if !d.valid then .ok s
      else
        match s.readBytes ⟨engAgent, false⟩ (pa + 11) 1 with
        | .ok (bs, s) =>
          (match s.writeBytes ⟨engAgent, false⟩ (pa + 11) (bytesOf 1 (ofBytes bs / 2 * 2)) with
            | .ok s => .ok s
            | .busy t => .error t
            | .fault _ => .ok s)
        | .busy t => .error t
        | .fault _ => .ok s
    | _, .busy t => .error t
    | _, _ => .ok s
  have one : ∀ (q : Nat) (t : State), q < 512 → Calm s t → ∃ u, go t q = .ok u ∧ Calm s u := by
    intro q t hq ht
    dsimp only [go]
    cases hp : s.vcpPage f with
    | none =>
      have h1 : t.descPa f q = none := by rw [ht.descPa]; simp [State.descPa, hp]
      have h2 : t.desc f q = .none := by unfold State.desc; rw [h1]
      exact ⟨t, by rw [h1, h2], ht⟩
    | some page =>
      have hr := h page hp
      have h1 : t.descPa f q = some (page + 64 * q) := by rw [ht.descPa]; simp [State.descPa, hp]
      have hw := ht.restfulAt (hr.sub (pb := page + 64 * q) (m := 64) (by omega) (by omega) (by omega))
      have hb := ht.restfulAt (hr.sub (pb := page + 64 * q + 11) (m := 1) (by omega) (by omega) (by omega))
      have h2 : ∀ u, t.desc f q ≠ .busy u := by
        intro z
        unfold State.desc State.readAt
        rw [h1]
        split
        · simp
        · rename_i pa e
          cases e
          obtain ⟨u, hu, _⟩ := State.readBytes_of_restful hw ⟨t.engOf f q, true⟩
          by_cases hx : t.reachable (some (t.fnPart f)) (page + 64 * q) = true
          · simp [hx, hu]
          · simp [hx]
      rw [h1]
      cases hd : t.desc f q with
      | none => exact ⟨t, rfl, ht⟩
      | busy u => exact absurd hd (h2 u)
      | fault c => exact ⟨t, rfl, ht⟩
      | ok d =>
        dsimp only
        split
        · exact ⟨t, rfl, ht⟩
        · obtain ⟨u, hu, hs⟩ := State.readBytes_of_restful hb ⟨engAgent, false⟩
          rw [hu]
          dsimp only
          obtain ⟨w, hw, hc⟩ := State.writeBytes_of_restful (s := u) (pa := page + 64 * q + 11)
            (bs := bytesOf 1 (ofBytes (t.homeBytes (page + 64 * q + 11) 1) / 2 * 2)) (by rw [bytesOf_length]; exact hs.restfulAt hb) ⟨engAgent, false⟩
          rw [hw]
          exact ⟨w, rfl, (ht.trans hs.toCalm).trans hc⟩
  have key : ∀ (l : List Nat), (∀ q ∈ l, q < 512) → ∀ (t : State), Calm s t → ∃ u,
      l.foldl (fun (r : Except State State) q => r.bind (fun s => go s q)) (.ok t) = .ok u ∧ Calm s u := by
    intro l
    induction l with
    | nil => intro _ t ht; exact ⟨t, rfl, ht⟩
    | cons q l ih =>
      intro hl t ht
      obtain ⟨u, hu, hc⟩ := one q t (hl q List.mem_cons_self) ht
      obtain ⟨w, hw, hw'⟩ := ih (fun x hx => hl x (List.mem_cons_of_mem _ hx)) u hc
      refine ⟨w, ?_, hw'⟩
      rw [List.foldl_cons, show Except.bind (.ok t) (fun s => go s q) = .ok u from hu]
      exact hw
  exact key (List.range 512) (fun q hq => List.mem_range.1 hq) s (Calm.refl s)

theorem State.tileWord_of_served {s : State} {a slot w : Nat} {check : Bool} {b : BitVec 4} (hb : s.treeSound)
    (h : s.tileServed a slot check w b) : ∃ t, s.tileWord a slot check w b = .ok (s.tileValue a w b, t) ∧ Still s t ∧
      t.cores = s.cores := by
  unfold State.tileWord State.tileValue
  by_cases h0 : b = 0
  · rw [if_pos h0, if_pos h0]; exact ⟨s, rfl, Still.refl s, rfl⟩
  · rw [if_neg h0, if_neg h0]
    dsimp only
    rcases h.resolve_left h0 with ⟨hst, hr⟩ | ⟨hst, hs, hk⟩ | ⟨hst, hk, hr⟩
    · have hread := State.readWord_of_restful hb hr ⟨a, check⟩ b
      rw [if_pos hst]
      rcases hst with hst | hst <;> rw [hst] <;> exact ⟨_, hread, Still.of_touch s w, rfl⟩
    · rw [hst]
      dsimp only
      rw [if_neg (by simpa using hs), if_pos hk, if_neg (by simp)]
      exact ⟨_, rfl, Still.refl s, rfl⟩
    · rw [hst]
      dsimp only
      rw [if_neg, if_pos hk, if_neg (by simp)]
      · exact ⟨_, rfl, Still.refl s, rfl⟩
      · cases check
        · simp
        · simp [hr rfl]

/-- A line whose words are served is read at once (R264). -/
theorem State.tileLine_of_served {s : State} {a slot va pa : Nat} {check : Bool} {segs : List (Nat × Nat)} (hb : s.treeSound)
    (h : ∀ k, k < 16 → s.tileServed a slot check (pa / 4 + k) (TileRec.wordBytes segs va k)) :
    ∃ t, s.tileLine a slot check segs va pa =
        .ok ((List.range 16).flatMap (fun k => bytesOf 4 (s.tileValue a (pa / 4 + k) (TileRec.wordBytes segs va k)).toNat), t) ∧
      Still s t ∧ t.cores = s.cores := by
  have key : ∀ (l : List Nat), (∀ k ∈ l, k < 16) → ∀ (bs : List Byte) (t : State), Still s t → t.cores = s.cores → ∃ u,
      l.foldl (fun (r : Sync (List Byte × State)) i =>
        match r with
        | .ok (bs, s) =>
          (match s.tileWord a slot check (pa / 4 + i) (TileRec.wordBytes segs va i) with
            | .ok (d, s) => .ok (bs ++ bytesOf 4 d.toNat, s)
            | .fault c => .fault c
            | .busy s => .busy s)
        | r => r) (.ok (bs, t)) =
          .ok (bs ++ l.flatMap (fun k => bytesOf 4 (s.tileValue a (pa / 4 + k) (TileRec.wordBytes segs va k)).toNat), u) ∧
        Still s u ∧ u.cores = s.cores := by
    intro l
    induction l with
    | nil => intro _ bs t ht hc; exact ⟨t, by simp, ht, hc⟩
    | cons k l ih =>
      intro hl bs t ht hc
      have hco : t.core a = s.core a := by unfold State.core; rw [hc]
      have hs : t.tileServed a slot check (pa / 4 + k) (TileRec.wordBytes segs va k) := by
        have := h k (hl k List.mem_cons_self)
        unfold State.tileServed at this ⊢
        rw [hco]
        exact this.imp id (fun x => x.imp (fun y => ⟨y.1, ht.restful y.2⟩) id)
      obtain ⟨u, hu, h1, h2⟩ := State.tileWord_of_served (ht.treeSound hb) hs
      have hv : t.tileValue a (pa / 4 + k) (TileRec.wordBytes segs va k) = s.tileValue a (pa / 4 + k) (TileRec.wordBytes segs va k) := by
        unfold State.tileValue
        rw [hco, ht.homeWord]
      rw [List.foldl_cons]
      simp only [hu, hv]
      rw [List.flatMap_cons, ← List.append_assoc]
      exact ih (fun x hx => hl x (List.mem_cons_of_mem _ hx)) _ u (ht.trans h1) (h2.trans hc)
  obtain ⟨u, hu, h⟩ := key (List.range 16) (fun k hk => List.mem_range.1 hk) [] s (Still.refl s) rfl
  rw [List.nil_append] at hu
  exact ⟨u, hu, h⟩
theorem State.readArea_of_reads {s : State} {q : Eng} {va : Nat} {w : WgImage} {h r : List Byte} (h1 : s.reads q va 4096 h)
    (h2 : badByte h = none) (h3 : s.reads q (va + 4096) (384 * imgRows h) r) :
    ∃ t, s.readArea q va w = .ok ({ w with heads := w.heads ++ [h], rows := w.rows ++ [r] }, some (va + packAreaSize (imgRows h))) t ∧
      Still s t := by
  obtain ⟨t1, e1, s1⟩ := State.engRead_of_reads h1
  obtain ⟨t2, e2, s2⟩ := State.engRead_of_reads (s1.reads h3)
  refine ⟨t2, ?_, s1.trans s2⟩
  unfold State.readArea
  rw [e1]
  simp only [EngRes.andThen, h2]
  rw [e2]

theorem State.readAreas_of_areas {s : State} {q : Eng} {hs : List (List Byte)} : ∀ {rs : List (List Byte)} {va : Nat} {w : WgImage} {t : State},
    Still s t → s.areasRead q va hs rs →
    ∃ u, State.readAreas q hs.length va w t = .ok { w with heads := w.heads ++ hs, rows := w.rows ++ rs } u ∧ Still s u := by
  induction hs with
  | nil =>
    intro rs va w t ht k
    cases rs with
    | nil =>
      refine ⟨t, ?_, ht⟩
      rw [List.append_nil, List.append_nil]
      rfl
    | cons => exact k.elim
  | cons h hs ih =>
    intro rs va w t ht k
    cases rs with
    | nil => exact k.elim
    | cons r rs =>
      obtain ⟨t1, e1, s1⟩ := State.readArea_of_reads (w := w) (ht.reads k.1) k.2.1 (ht.reads k.2.2.1)
      obtain ⟨t3, e3, s3⟩ := ih (w := { w with heads := w.heads ++ [h], rows := w.rows ++ [r] }) (ht.trans s1) k.2.2.2
      refine ⟨t3, ?_, s3⟩
      rw [List.length_cons, State.readAreas, e1]
      simp only [EngRes.andThen]
      rw [e3]
      simp only [List.append_assoc, List.singleton_append]

/-- The image of a workgroup that stands at a VA is loaded (R355, R365). -/
theorem State.loadWg_of_image {s : State} {q : Eng} {n a : Nat} {h win : List Byte} {heads rows : List (List Byte)} {l : Launch} {pl : Place}
    (h1 : s.reads q a 4096 h) (h2 : ∀ o, o < 4096 → o = 2 ∨ o = 3 ∨ 8 ≤ o → imgNum h o 1 = 0) (h3 : imgNum h 0 1 = heads.length)
    (_ : heads.length ≤ 24) (h5 : alignUp (imgNum h 4 4) 4096 ≤ 2 ^ 20) (h6 : s.reads q (a + 4096) (alignUp (imgNum h 4 4) 4096) win)
    (h7 : s.areasRead q (a + 4096 + alignUp (imgNum h 4 4) 4096) heads rows) (h8 : heads.any svcWaits = false)
    (h9 : look s.launches (imgNum (heads.headD []) 0 4) = some l)
    (h10 : s.fits n (imgNum h 1 1) (alignUp (imgNum h 4 4) 4096) (heads.map imgRows) = some pl) :
    ∃ t, s.loadWg q n a = .ok (.status 0) t := by
  obtain ⟨t1, e1, s1⟩ := State.engRead_of_reads h1
  obtain ⟨t2, e2, s2⟩ := State.engRead_of_reads (s1.reads h6)
  obtain ⟨t3, e3, s3⟩ := State.readAreas_of_areas (w := ⟨imgNum h 0 1, imgNum h 1 1, imgNum h 4 4, win, [], [], none⟩) (s1.trans s2) h7
  have hn : (List.range 4096).find? (fun o => (decide (o = 2) || decide (o = 3) || decide (8 ≤ o)) && decide (imgNum h o 1 ≠ 0)) = none :=
    List.find?_eq_none.2 (fun o ho => by
      simp only [Bool.and_eq_true, Bool.or_eq_true, decide_eq_true_eq, not_and, Decidable.not_not]
      intro hx
      exact h2 o (List.mem_range.1 ho) (by omega))
  have hi : s.readImage q a = .ok ⟨imgNum h 0 1, imgNum h 1 1, imgNum h 4 4, win, heads, rows, none⟩ t3 := by
    unfold State.readImage
    simp only [e1, EngRes.andThen, hn]
    rw [if_neg (by omega), e2]
    dsimp only
    rw [h3] at e3 ⊢
    rw [e3]
    rfl
  unfold State.loadWg
  rw [hi]
  simp only [EngRes.andThen, s3.launches, s3.placing, h9, h10, h8]
  exact ⟨_, rfl⟩

/-! ### A packet that QPOST reads -/

/-- The same split, seen again in a state whose core is as the view left it. -/
structure View.Again (w y : View) (t : State) : Prop where
  s : y.s = t ∨ y = w
  ag : y.ag = w.ag
  rs : ∀ r, y.rs r = w.rs r
  utlb : y.co.utlb = w.co.utlb

/-- A core whose L1 alone differs. -/
def SameButL1 (c d : Core) : Prop := d = { c with l1 := d.l1, reads := d.reads }

theorem View.again_reopen {w : View} {t : State} (h : SameButL1 (w.close.core w.ag) (t.core w.ag)) : w.Again (w.reopen t) t := by
  have hc : t.core w.ag = { w.co with packs := ins w.co.packs w.slot (w.pk.setSplit w.ix (some w.sp)), l1 := (t.core w.ag).l1,
                                      reads := (t.core w.ag).reads } := by
    rw [h]; simp [View.close]
  generalize (t.core w.ag).l1 = l, (t.core w.ag).reads = r at hc
  unfold View.reopen State.viewAt
  simp only [hc, look_ins_self]
  cases hx : (w.pk.setSplit w.ix (some w.sp)).split w.ix with
  | none => exact ⟨.inr rfl, rfl, fun _ => rfl, rfl⟩
  | some x =>
    have : x = w.sp := by
      simp only [Pack.split, Pack.setSplit, List.getD_eq_getElem?_getD, List.getElem?_set] at hx
      split at hx <;> simp_all
      split at hx <;> simp_all
    subst this
    exact ⟨.inl rfl, rfl, fun _ => rfl, rfl⟩

theorem Plain.of_close (v w : View) (h : w.s = { v.s with cores := w.s.cores, ctb := w.s.ctb }) : Plain v.close w.close := by
  refine ⟨?_, fun k hk => ?_, fun k hk => ?_, fun hk => ?_, fun hk => ?_⟩
  · unfold View.close State.setCore
    rw [h]
  · have : w.close.poison = v.close.poison := by unfold View.close State.setCore; rw [h]
    rw [this]; exact hk
  · have : w.close.badline = v.close.badline := by unfold View.close State.setCore; rw [h]
    rw [this]; exact hk
  · have : w.close.tagDelta = v.close.tagDelta := by unfold View.close State.setCore; rw [h]
    rw [this]; exact hk
  · have : w.close.nodeOff = v.close.nodeOff := by unfold View.close State.setCore; rw [h]
    rw [this]; exact hk

theorem View.buffer_close (v : View) : v.close.buffer v.ag = if 64 ≤ v.ag && v.ag < 96 then v.co.utlb else v.s.hubtb := by
  unfold State.buffer
  simp [View.close]

theorem View.Serves.level {v w : View} {write : Bool} {ls : List (Nat × Nat)} (h : v.Serves w write ls) : Level v.ag v.close w.close := by
  have hb : w.close.buffer v.ag = if 64 ≤ v.ag && v.ag < 96 then w.co.utlb else v.s.hubtb := by
    rw [← h.ag, View.buffer_close, h.s]
  refine ⟨Plain.of_close v w h.s, ?_, ?_⟩
  · intro e
    rw [hb, View.buffer_close]
    split
    · exact ⟨h.sub e, h.sup e⟩
    · rfl
  · rw [hb, View.buffer_close]
    unfold bufferFits
    split
    · intro _; exact decide_eq_true h.room
    · exact id

theorem Level.of_utlb {v w : View} (h : Plain v.close w.close) (hag : w.ag = v.ag) (hu : w.co.utlb = v.co.utlb) (hh : w.s.hubtb = v.s.hubtb) :
    Level v.ag v.close w.close := by
  have hb : w.close.buffer v.ag = v.close.buffer v.ag := by
    rw [View.buffer_close, ← hag, View.buffer_close, hag, hu, hh]
  exact ⟨h, fun e => by rw [hb], fun x => by rw [hb]; exact x⟩

theorem View.Past.level {v w : View} (h : v.Past w) : Level v.ag v.close w.close :=
  Level.of_utlb (Plain.of_close v w (by rw [h.s])) h.ag (by rw [h.co]) (by rw [h.s])


theorem View.Again.level {w y : View} {t : State} (h : w.Again y t) (hc : SameButL1 (w.close.core w.ag) (t.core w.ag)) (hs : Still w.close t) :
    Level w.ag w.close y.close ∧ y.close.mem = w.close.mem ∧ y.close.minor = w.close.minor ∧ Plain w.close y.s ∧ y.s.mem = w.s.mem ∧
      y.s.minor = w.s.minor := by
  rcases h.s with e | e
  · have hp : Plain t y.close := ⟨by unfold View.close State.setCore; rw [e], by unfold View.close State.setCore; rw [e]; exact fun _ h => h,
      by unfold View.close State.setCore; rw [e]; exact fun _ h => h, by unfold View.close State.setCore; rw [e]; exact id,
      by unfold View.close State.setCore; rw [e]; exact id⟩
    have hb : y.close.buffer w.ag = t.buffer w.ag := by
      rw [← h.ag, View.buffer_close, h.utlb, e, h.ag]
      unfold State.buffer
      rw [hc]
      simp [View.close]
    refine ⟨⟨hs.toPlain.trans hp, fun x => by rw [hb]; exact hs.mem_buffer _ x, fun x => by rw [hb]; exact hs.fits _ x⟩, ?_, ?_, ?_, ?_, ?_⟩
    · show y.s.mem = _; rw [e]; exact hs.mem
    · show y.s.minor = _; rw [e]; exact hs.minor
    · rw [e]; exact hs.toPlain
    · rw [e]; exact hs.mem
    · rw [e]; exact hs.minor
  · subst e
    exact ⟨Level.refl _ _, rfl, rfl, ⟨rfl, fun _ h => h, fun _ h => h, id, id⟩, rfl, rfl⟩

theorem State.desc_of_restful {s : State} {f q pa : Nat} (h : s.descPa f q = some pa) (hr : s.reachable (some (s.fnPart f)) pa = true)
    (hw : s.restfulAt pa 64) : s.desc f q = .ok (qdescOf (s.homeBytes pa 64)) := by
  unfold State.desc
  rw [h]
  obtain ⟨t, ht, _⟩ := State.readAt_of_restful hr hw ⟨s.engOf f q, true⟩
  simp only [ht]

theorem View.packetBytes_length (v : View) (g : LaneAddr) (va : Nat) : (v.packetBytes g va).length = 64 := by
  unfold View.packetBytes
  split
  · simp
  · simp [List.length_flatMap, bytesOf_length]

theorem State.bindFrame_attr {s : State} {pa attr : Nat} (h : get 0 s.frames (pa / 2 ^ 16) = attr) : s.bindFrame pa attr = s := by
  unfold State.bindFrame
  by_cases h0 : attr = 0
  · simp [h0]
  · rw [if_pos (by simp only [h, Bool.or_eq_true, decide_eq_true_eq, h0, ne_eq, not_false_eq_true, or_true])]

theorem Still.of_dropCopies (s : State) (a : Nat) (p : Nat → L1Line → Bool) : Still s (s.updCore a (fun c => c.dropCopies p)) := by
  have hc : ∀ b, (s.updCore a (fun c => c.dropCopies p)).core b = if b = a then (s.core a).dropCopies p else s.core b := fun b => by
    by_cases h : b = a
    · subst h; simp
    · rw [if_neg h, State.core_updCore_ne _ _ _ _ (Ne.symm h)]
  have hb : ∀ b, (s.updCore a (fun c => c.dropCopies p)).buffer b = s.buffer b := fun b => by
    unfold State.buffer
    rw [hc]
    by_cases h : b = a
    · subst h; rw [if_pos rfl]; rfl
    · rw [if_neg h]; rfl
  refine ⟨⟨⟨rfl, fun _ h => h, fun _ h => h, id, id⟩, fun b => ?_, fun b e => by rw [hb], fun b h => by rw [hb]; exact h⟩, rfl, rfl⟩
  rw [hc]
  by_cases h : b = a
  · subst h; rw [if_pos rfl]; rfl
  · rw [if_neg h]

/-- A packet that nothing stands in the way of is read at once (R291). -/
theorem View.readPacket_of_ready {v x w : View} {write : Bool} {ls : List (Nat × Nat)} {g : LaneAddr} {va : Nat}
    (h : v.packetReady g va) (hx : v.Serves x write ls) (hw : x.Past w) :
    ∃ t, w.readPacket g va = .ok (v.packetBytes g va, t) ∧ Still w.close t ∧ SameButL1 (w.close.core w.ag) (t.core w.ag) := by
  unfold View.readPacket View.packetBytes
  by_cases hh : isHost g.pa = true
  · rw [if_pos hh, if_pos hh, hw.s]
    have : ∀ a, x.s.byte a = v.s.byte a := fun a => by rw [hx.s]; rfl
    simp only [this]
    exact ⟨_, rfl, Still.refl _, rfl⟩
  · rw [if_neg hh, if_neg hh]
    unfold View.packetReady at h
    rw [if_neg hh] at h
    obtain ⟨hts, hbd, hsv⟩ := h
    have hp0 := (hx.level.toPlain).trans hw.level.toPlain
    let drop (c : Core) : Core := c.dropCopies (fun l _ => l == g.pa / 64)
    have hvs : v.packetState g = v.close.updCore v.ag drop := rfl
    have hws : w.packetState g = w.close.updCore w.ag drop := rfl
    have sv : Still v.close (v.packetState g) := Still.of_dropCopies _ _ _
    have sw : Still w.close (w.packetState g) := Still.of_dropCopies _ _ _
    have hag : w.ag = v.ag := hw.ag.trans hx.ag
    have hcv : (v.packetState g).core v.ag = drop (v.close.core v.ag) := by rw [hvs, State.core_updCore]
    have hcw : (w.packetState g).core v.ag = drop (w.close.core w.ag) := by rw [hws, ← hag, State.core_updCore]
    have cv : v.close.core v.ag = { v.co with packs := ins v.co.packs v.slot (v.pk.setSplit v.ix (some v.sp)) } := by simp [View.close]
    have cw : w.close.core w.ag = { w.co with packs := ins w.co.packs w.slot (w.pk.setSplit w.ix (some w.sp)) } := by simp [View.close]
    have hlines : w.co.lines = v.co.lines := by rw [hw.co, hx.co]
    have hkept : ∀ k, (((v.packetState g).core v.ag).raw k).Kept (((w.packetState g).core v.ag).raw k) := by
      have hl : KeptAll v.co.l1 w.co.l1 := by have := hw.l1; rw [hx.co] at this; exact this
      have := hl.filter (fun k st => !(st == .copy && (match v.co.line (k / 16) with | some _ => k / 16 == g.pa / 64 | none => false)))
      intro k
      rw [hcv, hcw, cv, cw]
      have e : (drop { w.co with packs := ins w.co.packs w.slot (w.pk.setSplit w.ix (some w.sp)) }).l1 = w.co.l1.filter (fun e =>
          !(e.2.st == .copy && (match v.co.line (e.1 / 16) with | some _ => e.1 / 16 == g.pa / 64 | none => false))) := by
        show w.co.l1.filter (fun e => !(e.2.st == .copy && (match look w.co.lines (e.1 / 16) with | some _ => e.1 / 16 == g.pa / 64 | none => false))) = _
        rw [hlines]; rfl
      have := this.get k
      rw [← e] at this
      exact this
    have hslot : w.slot = v.slot := hw.slot.trans hx.slot
    have hpk : w.pk = v.pk := hw.pk.trans hx.pk
    have heco : ∀ k, k ≠ v.slot → ((w.packetState g).core v.ag).ecoOf k = ((v.packetState g).core v.ag).ecoOf k := fun k hk => by
      rw [hcv, hcw, cv, cw]
      show w.co.ecoOf k = v.co.ecoOf k
      rw [hw.eco k (by rw [hx.slot]; exact hk), hx.co]
      rfl
    have hm0 : w.close.mem = v.close.mem := by show w.s.mem = v.s.mem; rw [hw.s, hx.s]
    have hn0 : w.close.minor = v.close.minor := by show w.s.minor = v.s.minor; rw [hw.s, hx.s]
    have hp : Plain (v.packetState g) (w.packetState g) := by
      refine ⟨?_, hp0.poison, hp0.badline, hp0.tagDelta, hp0.nodeOff⟩
      have := hp0.same
      unfold View.packetState State.updCore State.setCore
      rw [this]
    have hserve : ∀ k, k < 16 → (w.packetState g).tileServed w.ag w.slot (!w.pk.lazyMode) (g.pa / 4 + k) (TileRec.wordBytes [(va, 64)] va k) := by
      intro k hk
      have := hsv k hk
      rw [hag, hslot, hpk]
      generalize g.pa / 4 + k = a at this ⊢
      generalize TileRec.wordBytes [(va, 64)] va k = b at this ⊢
      have hka := hkept a
      unfold State.tileServed at this ⊢
      simp only [] at this ⊢
      generalize ((v.packetState g).core v.ag).raw a = xv at this hka
      generalize ((w.packetState g).core v.ag).raw a = xw at hka ⊢
      rw [hka.st, hka.kn]
      refine this.imp id (fun y => y.imp (fun y => ⟨y.1, hp.restful y.2⟩) (fun y => y.imp (fun y => ⟨y.1, hka.writers y.2.1, y.2.2⟩)
        (fun y => ⟨y.1, y.2.1, fun hc => ?_⟩)))
      have hy := y.2.2 hc
      unfold Core.racySame at hy ⊢
      rw [hka.wslot, hka.bm, hka.wep]
      cases hwv : xw.wv with
      | false => simp
      | true =>
        rw [hka.wv hwv] at hy
        by_cases hs : xv.wslot = v.slot
        · simp [hs]
        · rw [heco _ hs]; exact hy
    obtain ⟨t, ht, h1, h2⟩ := State.tileLine_of_served (segs := [(va, 64)]) (va := va) (pa := g.pa) (hp.treeSound (sv.treeSound hts)) hserve
    have hbt : get 0 t.frames (g.pa / 2 ^ 16) = g.attr := by rw [h1.frames, sw.frames, hp0.frames]; exact hbd
    refine ⟨t, ?_, sw.trans h1, ?_⟩
    · rw [show (w.close.updCore w.ag (fun c => c.dropCopies (fun l _ => l == g.pa / 64))) = w.packetState g from rfl, ht]
      dsimp only
      rw [State.bindFrame_attr hbt]
      have hv : ∀ a b, (w.packetState g).tileValue w.ag a b = (v.packetState g).tileValue v.ag a b := by
        intro a b
        have hka := hkept a
        unfold State.tileValue
        rw [hag]
        simp only [hp.homeWord hm0 hn0]
        rw [hka.st, hka.val]
      simp only [hv]
    · rw [show t.core w.ag = (w.packetState g).core w.ag by unfold State.core; rw [h2], hag, hcw, hag]
      rfl

/-! ### The size of a workgroup's image (R355) -/

theorem zeros_length (n : Nat) : (zeros n).length = n := by simp [zeros]
theorem splitImage_length (x : Option Split) : (splitImage x).length = 64 := by
  cases x <;> simp [splitImage, zeros_length, lanesBytes, optByte, bytesOf_length]
theorem heelImage_length (x : Option Heel) : (heelImage x).length = 16 := by
  cases x <;> simp [heelImage, zeros_length, optByte, bytesOf_length]
theorem deferredImage_length (x : Option Deferred) : (deferredImage x).length = 32 := by
  cases x <;> simp [deferredImage, zeros_length, lanesBytes, bytesOf_length]

theorem flatMap_length {α : Type} {f : α → List Byte} {k : Nat} (h : ∀ x, (f x).length = k) (l : List α) :
    (l.flatMap f).length = k * l.length := by
  induction l with
  | nil => simp
  | cons a l ih => rw [List.flatMap_cons, List.length_append, h, ih, List.length_cons, Nat.mul_succ, Nat.add_comm]

/-- The first part of a pack area is 4 KiB (R355). -/
theorem Pack.areaHead_length (p : Pack) : p.areaHead.length = 4096 := by
  have h8 (n : Nat) : (p.sprImage n).length = 8 := bytesOf_length _ _
  have ha (a : Aff) : (affImage a).length = 16 := by simp [affImage, bytesOf_length]
  unfold Pack.areaHead
  simp only [List.length_append, bytesOf_length, zeros_length, h8, List.length_range, List.length_cons, List.length_nil,
    flatMap_length (fun i => splitImage_length (p.split i)), flatMap_length (fun i => heelImage_length (p.heels.getD i none)),
    flatMap_length (fun i => deferredImage_length p.deferred[i]?), flatMap_length (fun (r : Nat) => bytesOf_length 8 _),
    flatMap_length (fun (r : Nat) => ha (if r = 0 then ⟨0, 1, false⟩ else get ⟨0, 0, true⟩ p.a r)),
    flatMap_length (fun (r : Nat) => show (lanesBytes _).length = 12 from bytesOf_length _ _), flatMap_length h8,
    flatMap_length (fun (i : Nat) => h8 _), flatMap_length (fun (i : Nat) => show (optByte _).length = 1 from bytesOf_length _ _)]

/-- A pack area has the size that R355 gives it. -/
theorem Pack.area_length (p : Pack) : p.area.length = packAreaSize p.size := by
  have h : p.rowsImage.length = 384 * p.size := by
    simp [Pack.rowsImage, List.length_flatMap, bytesOf_length, lanes]; omega
  have : 4096 + 384 * p.size ≤ packAreaSize p.size := by unfold packAreaSize alignUp; simp; omega
  unfold Pack.area
  rw [List.length_append, List.length_append, Pack.areaHead_length, h, zeros_length]
  omega

/-- An image has the size of its parts. -/
theorem State.wgBytes_length (s : State) (n : Nat) (p : Pack) (ps : List Pack) :
    (s.wgBytes n p ps).length = 4096 + (((s.core n).wins.find? (fun w => w.launch == p.launch && w.wg == p.wg)).getD ⟨0, 0, 0, 0, 0, [], 0⟩).size +
      (ps.map (fun q => packAreaSize q.size)).sum := by
  simp [State.wgBytes, wgHeader, zeros_length, bytesOf_length, List.length_flatMap, Pack.area_length, Core.spRead]
  omega

theorem ofBytes_zeros (n : Nat) : ofBytes (List.replicate n 0#8) = 0 := by
  induction n with
  | zero => rfl
  | succ n ih => rw [List.replicate_succ, ofBytes, ih]; rfl
theorem imgNum_zeros (n o k : Nat) : imgNum (List.replicate n 0#8) o k = 0 := by
  unfold imgNum
  rw [List.drop_replicate, List.take_replicate, ofBytes_zeros]

/-- An area of zeros has no bad byte. -/
theorem badByte_zeros (n : Nat) : badByte (List.replicate n 0#8) = none := by
  unfold badByte
  exact List.find?_eq_none.2 (fun o _ => by simp [imgNum_zeros])

end Sys2Proof.Machine
end

