-- ==== Sys2Proof/Laws/Issue.lean ====
section
/-! SUPPORT. What issuing a word comes to: an instruction whose word issues answers what its own part answers. -/

namespace Sys2Proof.Machine

/-- A word that issues is performed: its own part decides. -/
theorem issueG_of_issues {c : Ctl} {ps : List Part} {waits : BitVec 6} {chk : View → List Use}
    {wide : Bool} {s : State} {v : View} {m : Mask} (body : View → Mask → Res)
    (h : Issues c ps waits chk wide s v m) :
    issueG c ps waits chk wide body s = .next (v.answer c (body v m) s) := by
  obtain ⟨v0, v1, h0, h1, h2, h3, rfl, rfl, h5, h6, h7, h8⟩ := h
  unfold issueG
  cases wide <;> simp_all

/-- A word that issues with one guard. -/
theorem issue_of_issues {c : Ctl} {us : List Use} {s : State} {v : View} {m : Mask} (body : View → Mask → Res)
    (h : IssuesW c us false s v m) : issue c us body s = .next (v.answer c (body v m) s) := issueG_of_issues body h

/-- A pack-wide word that issues. -/
theorem issueWide_of_issues {c : Ctl} {us : List Use} {s : State} {v : View} {m : Mask} (body : View → Mask → Res)
    (h : IssuesW c us true s v m) : issueWide c us body s = .next (v.answer c (body v m) s) := issueG_of_issues body h

/-- What issuing a word can come to: no context; a wait that changes nothing; a fault raised at the word; a wait for the
siblings of the split; a word whose guard lets no lane act; or the word's own part. -/
theorem issueG_cases {c : Ctl} {ps : List Part} {waits : BitVec 6} {chk : View → List Use}
    {wide : Bool} {body : View → Mask → Res} {s : State} {o : Host.Outcome State Fault Refusal}
    (h : issueG c ps waits chk wide body s = o) :
    (s.view = none ∧ o = .fault .noContext) ∨ o = .next s ∨
    ∃ v0 v : View, s.view = some v0 ∧ v0.ready c waits (usesOf ps) = some v ∧
      ((∃ t, v.stalls ps = some t ∧ o = .next t) ∨
       (∃ x y, o = .next { v with sp := { v.sp with st := .reconv, since := x, waited := y } }.close) ∨
       ∃ w, w = (if wide then v.reconverge else v) ∧
        (o = .next ((w.finish c (w.succ c)).close) ∨ (∃ f, o = .next (w.raise f)) ∨
         (Issues c ps waits chk wide s w (w.actOf ps) ∧ o = .next (w.answer c (body w (w.actOf ps)) s)))) := by
  unfold issueG at h
  split at h
  · exact .inl ⟨‹_›, h.symm⟩
  · rename_i v0 hv0
    split at h
    · exact .inr (.inl h.symm)
    · rename_i v hv
      refine .inr (.inr ⟨v0, v, hv0, hv, ?_⟩)
      split at h
      · exact .inl ⟨_, ‹_›, h.symm⟩
      · rename_i hs
        split at h
        · exact .inr (.inl ⟨_, _, h.symm⟩)
        · rename_i hw
          refine .inr (.inr ⟨_, rfl, ?_⟩)
          dsimp only at h
          generalize hw' : (if wide = true then v.reconverge else v) = w at h ⊢
          split at h
          · exact .inl h.symm
          · rename_i ha
            split at h
            · exact .inr (.inl ⟨_, h.symm⟩)
            · rename_i hvf
              split at h
              · exact .inr (.inl ⟨_, h.symm⟩)
              · exact .inr (.inl ⟨_, h.symm⟩)
              · rename_i hu hr
                refine .inr (.inr ⟨⟨v0, v, hv0, hv, hs, ?_, hw'.symm, rfl, ha, hvf, hu, hr⟩, h.symm⟩)
                intro hwt
                subst hwt
                simpa using hw

end Sys2Proof.Machine
end

