-- ==== Sys2Proof/Laws/Complete.lean ====
section
/-! SUPPORT. Events and service instructions whose accesses at once nothing stands in the way of: each acts. -/

namespace Sys2Proof.Machine

/-- An aperture read answers with the bytes there. -/
theorem exec_hostApertureRead_of_reaches (f : Nat) (s : State) : ∀ off n, s.aper = [] → s.apertureClosed f off = false → s.reaches (s.apertureEng f kRead) off n false →
      ∃ t, exec (.hostApertureRead f off n) s = .next (t.answerHost (.data f (s.engBytes (s.apertureEng f kRead) off n))) ∧
        s.engRead (s.apertureEng f kRead) off n = .ok (s.engBytes (s.apertureEng f kRead) off n) t := by
  intro off n ha hc hr
  obtain ⟨t, ht, _⟩ := State.engRead_of_reaches hr
  refine ⟨t, ?_, ht⟩
  have hd : s.drainAper = s := by unfold State.drainAper; rw [ha]; rfl
  show execHostApertureRead f off n s = _
  have hb : s.aperBusy f = false := by simp [State.aperBusy, ha]
  simp [execHostApertureRead, hd, hc, hb, ht]

/-- An aperture write is performed. -/
theorem exec_hostApertureWrite_of_reaches (f : Nat) (s : State) : ∀ off bs, let a : AperWrite := ⟨f, off, bs, none⟩
      let r : State := { s with aper := s.aper ++ [a] }
      s.apertureClosed f off = false → s.aper = [] → s.reaches (s.apertureEng f kWrite) off bs.length true →
      ∃ t w, r.engCheck (r.apertureEng f kWrite) off bs.length true = .ok () t ∧ t.engWrite (r.apertureEng f kWrite) off bs = .ok () w ∧
        exec (.hostApertureWrite f off bs) s = .next { w with aper := w.aper.erase a } := by
  intro off bs a r hc ha hr
  have hr' : r.reaches (r.apertureEng f kWrite) off bs.length true := hr
  obtain ⟨t, ht, hs⟩ := State.engCheck_of_reaches hr'
  obtain ⟨w, hw, _⟩ := State.engWrite_of_reaches (hs.reaches hr')
  refine ⟨t, w, ht, hw, ?_⟩
  show execHostApertureWrite f off bs s = _
  have : r.aperWrite a = .ok () w := by
    show (match (r.engCheck (r.apertureEng f kWrite) off bs.length true).andThen (fun _ s => s.engWrite (r.apertureEng f kWrite) off bs) with
      | .ok _ s => EngRes.ok () s
      | .busy s => .busy s
      | .fault _ _ => .ok () (r.countHae f)) = _
    simp only [ht, EngRes.andThen, hw]
  have hd : r.drainAper = { w with aper := w.aper.erase a } := by
    have hra : r.aper = [a] := by show s.aper ++ [a] = [a]; rw [ha]; rfl
    unfold State.drainAper
    rw [hra]
    simp only [List.foldl_cons, List.foldl_nil, this]
    rfl
  unfold execHostApertureWrite
  rw [hc]
  exact congrArg Host.Outcome.next hd

/-- An aperture atomic answers with the old bytes. -/
theorem exec_hostApertureAtomic_of_reaches (f : Nat) (s : State) : ∀ off ty op (opd cmp : W64), s.aper = [] → s.apertureClosed f off = false →
      op = AOp.add ∨ op = .xchg ∨ op = .cas → tyBytes ty = 4 ∨ tyBytes ty = 8 → off % tyBytes ty = 0 →
      let q := s.apertureEng f kAtomic
      let old := s.engBytes q off (tyBytes ty)
      s.reaches q off (tyBytes ty) false → s.reaches q off (tyBytes ty) true →
      ∃ t w x, s.engCheck q off (tyBytes ty) true = .ok () t ∧ t.engRead q off (tyBytes ty) = .ok old w ∧
        w.engWrite q off (bytesOf (tyBytes ty) (atomOp ⟨0, op, ty, opd, cmp⟩ (BitVec.ofNat 64 (ofBytes old))).val.toNat) = .ok () x ∧
        exec (.hostApertureAtomic f off ty op opd cmp) s = .next (x.answerHost (.data f old)) := by
  intro off ty op opd cmp ha hc hop hty hal q old hr hw
  obtain ⟨t, ht, h1⟩ := State.engCheck_of_reaches hw
  obtain ⟨w, hwr, h2⟩ := State.engRead_of_reaches (h1.reaches hr)
  rw [h1.engBytes hr] at hwr
  obtain ⟨x, hx, _⟩ := State.engWrite_of_reaches (s := w) (q := q) (va := off)
    (bs := bytesOf (tyBytes ty) (atomOp ⟨0, op, ty, opd, cmp⟩ (BitVec.ofNat 64 (ofBytes old))).val.toNat)
    (by rw [bytesOf_length]; exact h2.reaches (h1.reaches hw))
  refine ⟨t, w, x, ht, hwr, hx, ?_⟩
  have hd : s.drainAper = s := by unfold State.drainAper; rw [ha]; rfl
  have hb : s.aperBusy f = false := by simp [State.aperBusy, ha]
  have hk : ((op == AOp.add || op == AOp.xchg || op == AOp.cas) && (tyBytes ty == 4 || tyBytes ty == 8)) = true := by
    rcases hop with rfl | rfl | rfl <;> rcases hty with h | h <;> rw [h] <;> rfl
  show execHostApertureAtomic f off ty op opd cmp s = _
  unfold execHostApertureAtomic
  simp only [hd, hc, hk, hal, hb, EngRes.andThen]
  simp
  simp [ht, hwr, hx, old, q]

/-- VF_FLR ends the work of a function. -/
theorem exec_vfFlr_of_restful (f : Nat) (s : State) : (0 < f → f ≤ 384 → (∀ page ∈ s.vcpPage f, s.restfulAt page 32768) → ∃ t, s.clearValid f = .ok t ∧
      exec (.vfFlr f) s = .next (((t.launches.filter (fun e => e.2.fn == f)).map (fun e => e.1)).foldl (fun (t : State) id => t.killLaunch id)
        (let u := t.dropPosted f
         { u with
           queues := u.queues.map (fun (x : QState) => if x.fn == f then x.flushed else x)
           graphs := u.graphs.filter (fun (g : Graph) => g.fn != f)
           posted := u.posted.filter (fun e => e.1 != f)
           aper := u.aper.filter (fun (w : AperWrite) => w.fn != f) }))) := by
  intro h0 h1 hr
  obtain ⟨t, ht, _⟩ := State.clearValid_of_restful hr
  refine ⟨t, ht, ?_⟩
  show execVfFlr f s = _
  unfold execVfFlr
  rw [if_neg (by simp; omega), ht]

/-- A report is written. -/
theorem exec_attestationDone_of_reaches (f : Nat) (s : State) : (∀ a, s.attests.find? (fun (a : Attest) => a.fn == f) = some a →
      let q := s.apertureEng f kRead
      s.reaches q (a.buf.toNat + 128) 1024 true → s.reaches q a.buf.toNat 64 false →
      s.reaches { q with kind := kWrite } (a.buf.toNat + 128) 1024 true →
      ∃ t u w, s.engCheck q (a.buf.toNat + 128) 1024 true = .ok () t ∧
        t.engRead q a.buf.toNat 64 = .ok (s.engBytes q a.buf.toNat 64) u ∧
        (let r := u.report f (s.engBytes q a.buf.toNat 64)
         u.engWrite { q with kind := kWrite } (a.buf.toNat + 128) (r ++ bytesOf 512 (Config.reportSignature r)) = .ok () w) ∧
        (let x : State := { (w.setMreg (attStat f) 2) with attests := w.attests.filter (fun (b : Attest) => b.fn != f) }
         (s.fnHeld f = false ∨ s.reported.contains f = true → exec (.attestationDone f) s = .next (x.interrupt f 513)) ∧
         (s.fnHeld f = true → s.reported.contains f = false →
           exec (.attestationDone f) s = .next (({ x with reported := x.reported ++ [f] } : State).interrupt f 513)))) := by
  intro a ha q hc hr hw
  obtain ⟨t, ht, h1⟩ := State.engCheck_of_reaches hc
  obtain ⟨u, hu, h2⟩ := State.engRead_of_reaches (h1.reaches hr)
  rw [h1.engBytes hr] at hu
  have hlen : ((u.report f (s.engBytes q a.buf.toNat 64)) ++ bytesOf 512 (Config.reportSignature (u.report f (s.engBytes q a.buf.toNat 64)))).length = 1024 := by
    rw [List.length_append, bytesOf_length]
    unfold State.report
    simp only [List.length_append, bytesOf_length, State.engBytes_length hr, List.length_take]
    omega
  obtain ⟨w, hw', h3⟩ := State.engWrite_of_reaches (s := u) (q := { q with kind := kWrite }) (va := a.buf.toNat + 128)
    (bs := (u.report f (s.engBytes q a.buf.toNat 64)) ++ bytesOf 512 (Config.reportSignature (u.report f (s.engBytes q a.buf.toNat 64))))
    (by rw [hlen]; exact h2.reaches (h1.reaches hw))
  refine ⟨t, u, w, ht, hu, hw', ?_⟩
  intro x
  have hh : x.fnHeld f = s.fnHeld f := by
    show (w.setMreg (attStat f) 2).fnHeld f = s.fnHeld f
    rw [← ((h1.toCalm.trans h2.toCalm).trans h3).fnHeld]
    unfold State.fnHeld State.setMreg State.mreg
    simp only
    rw [look_ins_ne _ _ _ _ (by unfold attStat fnStat; omega)]
  have hrep : x.reported = s.reported := by
    show w.reported = _
    rw [((h1.toCalm.trans h2.toCalm).trans h3).same]
  have he : exec (.attestationDone f) s = .next ((if x.fnHeld f && !x.reported.contains f then { x with reported := x.reported ++ [f] } else x).interrupt f 513) := by
    show execAttestationDone f s = _
    unfold execAttestationDone
    rw [ha]
    have : (s.engCheck q (a.buf.toNat + 128) 1024 true).andThen (fun _ s => s.engRead q a.buf.toNat 64) =
        .ok (s.engBytes q a.buf.toNat 64) u := by rw [ht]; exact hu
    simp only [show s.apertureEng f kRead = q from rfl, this, hw']
    rfl
  rw [he, hh, ← hrep]
  constructor
  · rintro (h | h) <;> simp only [h, Bool.false_and, Bool.not_true, Bool.and_false, Bool.false_eq_true, if_false]
  · intro h k; simp only [h, k, Bool.not_false, Bool.true_and, if_true]

/-- The collective engine takes the next request of its ring. -/
theorem exec_collectiveRingPoll_of_reaches (f : Nat) (s : State) : (∀ page, s.vcpPage f = some page → s.bound f = true → s.fnStopped f = false →
      s.reachable (some (s.fnPart f)) (page + 0x8400) = true → s.reachable (some (s.fnPart f)) (page + 0x8400 + 12) = true →
      s.restfulAt (page + 0x8400) 64 →
      let rg := s.homeBytes (page + 0x8400) 64
      let rd := recNum rg 12 4
      let sp := s.queueSpace f (recNum rg 9 1 % 64)
      let q : Eng := ⟨collAgent, some (s.fnPart f), sp.1, sp.2, kTransfer, true⟩
      let va := recNum rg 0 8 + 64 * (rd % 2 ^ recNum rg 8 1)
      s.engfaults.any (fun x => x.kind == 6 && x.id == f) = false → s.colls.any (fun (c : Coll) => c.fn == f && !c.started && c.done.isNone) = false →
      recNum rg 10 1 % 2 = 1 → 4 ≤ recNum rg 8 1 → recNum rg 8 1 ≤ 12 → rd ≠ recNum rg 16 4 → s.reaches q va 64 false →
      ∃ t u w, s.readAt (s.fnPart f) ⟨collAgent, true⟩ (page + 0x8400) 64 = .ok (rg, t) ∧
        t.engRead q va 64 = .ok (s.engBytes q va 64) u ∧
        u.writeAt (s.fnPart f) ⟨collAgent, true⟩ (page + 0x8400 + 12) (bytesOf 4 ((rd + 1) % 2 ^ 32)) = .ok w ∧
        exec (.collectiveRingPoll f) s = .next (w.takeColl f sp.1 sp.2 (s.engBytes q va 64)) ∧
        exec (.cnotify f) s = .next (w.takeColl f sp.1 sp.2 (s.engBytes q va 64))) := by
  intro page hp hb hst hr hr' hw rg rd sp q va g1 g2 h1 h2 h3 h4 hq
  obtain ⟨t, ht, k1⟩ := State.readAt_of_restful hr hw ⟨collAgent, true⟩
  obtain ⟨u, hu, k2⟩ := State.engRead_of_reaches (k1.reaches hq)
  rw [k1.engBytes hq] at hu
  have hw' : u.restfulAt (page + 0x8400 + 12) (bytesOf 4 ((rd + 1) % 2 ^ 32)).length := by
    rw [bytesOf_length]
    exact (k1.trans k2).restfulAt (hw.sub (by omega) (by omega) (by omega))
  obtain ⟨w, hww, _⟩ := State.writeAt_of_restful (s := u) (((k1.trans k2).reachable _ _).trans hr') hw' ⟨collAgent, true⟩
  refine ⟨t, u, w, ht, hu, hww, ?_⟩
  have hcb : regCb (s.reg ((page + 0x8400 + 16) / 4)) = false := by
    have := (hw.sub (pb := page + 0x8400 + 16) (m := 1) (by omega) (by omega) (by omega)).2 ((page + 0x8400 + 16) / 4, _)
      (List.mem_map.2 ⟨0, by simp, rfl⟩)
    rw [this.2.1]; rfl
  have he : exec (.collectiveRingPoll f) s = .next (w.takeColl f sp.1 sp.2 (s.engBytes q va 64)) := by
    show execCollectiveRingPoll f s = _
    unfold execCollectiveRingPoll
    rw [hp]
    simp only [hb, hst, hcb, g1, g2, Bool.not_true, Bool.or_self, Bool.false_eq_true, if_false, Bool.false_and, ht]
    have hc : ¬ (recNum rg 10 1 % 2 = 0 || decide (recNum rg 8 1 < 4) || decide (12 < recNum rg 8 1) || decide (rd = recNum rg 16 4)) = true := by
      simp only [Bool.or_eq_true, decide_eq_true_eq]; omega
    have hsp : t.queueSpace f (recNum (s.homeBytes (page + 0x8400) 64) 9 1 % 64) = sp := by rw [k1.same]; rfl
    have hu' := hu
    simp only [q, va] at hu'
    rw [if_neg hc]
    simp only [hsp]
    rw [hu']
    dsimp only
    rw [hww]
  refine ⟨he, ?_⟩
  show execCnotify f s = _
  unfold execCnotify
  rw [if_pos hb]
  exact he

/-- A line of a tile arrives. -/
theorem exec_tileLineArrival_of_served (n i : Nat) (s : State) : (∀ f p va pa rest, (s.core n).fetches[i]? = some f → f.fault = none → f.todo = (va, pa) :: rest →
      look (s.core n).packs f.slot = some p → s.clampRoom n f.slot f.split (pa / 64) ≠ .wait →
      ((s.core n).fetches.take i).any (fun g => g.fault.isNone && !g.todo.isEmpty) = false →
      s.rebinding (pa / 4) = false → s.aliased pa (get (0, 0) f.leaves va).1 = false → s.treeSound →
      let u := s.updCore n (fun c => c.dropCopies (fun l _ => l == pa / 64))
      (∀ k, k < 16 → u.tileServed n f.slot (!p.lazyMode) (pa / 4 + k) (TileRec.wordBytes f.entry.record.segments va k)) →
      ∃ bs t, u.tileLine n f.slot (!p.lazyMode) f.entry.record.segments va pa = .ok (bs, t) ∧
        (let yes := s.clampRoom n f.slot f.split (pa / 64) == .yes
         let e := f.entry.addLine va (pa / 64) bs yes
         let t := t.bindFrame pa (get (0, 0) f.leaves va).1
         let t := if yes = true then
           { t with clamps := upd [] t.clamps (pa / 64) (fun l => if l.contains n then l else l ++ [n]) } else t
         exec (.tileLineArrival n i) s = .next (t.updCore n (fun c =>
           let c := c.updFetch i (fun f => { f with todo := rest, entry := e })
           if rest.isEmpty = true then { c with stage := c.stage ++ [{ e with users := [c.userOf f] }] } else c)))) := by
  intro f p va pa rest hf hfa htd hp hcl han hrb hal hb u hs
  obtain ⟨t, ht, _⟩ := State.tileLine_of_served (s := u) (pa := pa) (by exact hb) hs
  refine ⟨_, t, ht, ?_⟩
  intro yes e t'
  show execTileLineArrival n i s = _
  unfold execTileLineArrival
  simp only [hf, hfa, htd, hp]
  rw [if_neg (by simp [hcl, han, hrb]), if_neg (by simp [hal]), ht]

/-- A workgroup is saved, and one is loaded. -/
theorem exec_pctxsv_pctxld_of_reaches (c : Ctl) (d a b : SReg) (s : State) (v : View) (m : Mask) : IssuesW c [.ds d, .s 1 a, .s 2 b] false s v m →
      (∀ n slot p, v.handlePack (v.rs a) = some (n, slot, p) → (v.rs b).toNat % 4096 = 0 →
        ((v.s.core n).wgPacks p).any (fun q => !q.stopped) = false → v.s.windowQuiet p.launch p.wg = true →
        let x := v.close
        let slots := (x.core n).wgSlots p
        let win := ((x.core n).wins.find? (fun w => w.launch == p.launch && w.wg == p.wg)).getD ⟨0, 0, 0, 0, 0, [], 0⟩
        (x.core n).savePoison n win slots = none →
        x.reaches (v.saver kWrite) (v.rs b).toNat (x.wgBytes n p (slots.filterMap (fun k => look (x.core n).packs k))).length true →
        ∃ t, x.saveWg (v.saver kWrite) n p (v.rs b) = .ok () t ∧ exec (.pctxsv c d a b) s = .next (((v.reopen t).landS c d 0).placed s)) ∧
      (∀ (h win : List Byte) (heads rows : List (List Byte)) (l : Launch) (pl : Place), v.rs a &&& ~~~0x11F#64 = 0 → (v.rs b).toNat % 4096 = 0 →
        let x := v.close
        let q := v.saver kRead
        let va := (v.rs b).toNat
        let size := alignUp (imgNum h 4 4) 4096
        x.reads q va 4096 h → (∀ o, o < 4096 → o = 2 ∨ o = 3 ∨ 8 ≤ o → imgNum h o 1 = 0) → imgNum h 0 1 = heads.length →
        heads.length ≤ 24 → size ≤ 2 ^ 20 → x.reads q (va + 4096) size win → x.areasRead q (va + 4096 + size) heads rows →
        heads.any svcWaits = false → look x.launches (imgNum (heads.headD []) 0 4) = some l →
        x.fits (v.mate (fld (v.rs a) 8 1)) (imgNum h 1 1) size (heads.map imgRows) = some pl →
        ∃ t, x.loadWg q (v.mate (fld (v.rs a) 8 1)) va = .ok (.status 0) t ∧
          exec (.pctxld c d a b) s = .next (((v.reopen t).landS c d 0).placed s)) := by
  intro hi
  refine ⟨?_, ?_⟩
  · intro n slot p hp hal hst hq x slots win hsp hr
    obtain ⟨t, ht, _⟩ := State.engWrite_of_reaches (s := x) hr
    have hs : ∃ t, x.saveWg (v.saver kWrite) n p (v.rs b) = .ok () t := by
      unfold State.saveWg
      dsimp only
      rw [hsp]
      dsimp only
      rw [ht]
      exact ⟨_, rfl⟩
    obtain ⟨t, ht⟩ := hs
    refine ⟨t, ht, ?_⟩
    show execPctxsv c d a b s = _
    unfold execPctxsv
    rw [issue_of_issues _ hi]
    simp only [hp, hal, hst, hq, ne_eq, not_true, if_false, Bool.false_eq_true, Bool.not_true]
    rw [ht]
    rfl
  · intro h win heads rows l pl ha hal x q va size h1 h2 h3 h4 h5 h6 h7 h8 h9 h10
    obtain ⟨t, ht⟩ := State.loadWg_of_image h1 h2 h3 h4 h5 h6 h7 h8 h9 h10
    refine ⟨t, ht, ?_⟩
    show execPctxld c d a b s = _
    unfold execPctxld
    rw [issue_of_issues _ hi]
    simp only [ha, hal, ne_eq, not_true, if_false]
    rw [ht]
    rfl

/-- QPOST appends its packet. -/
theorem exec_qpost_of_ready (c : Ctl) (d a b : SReg) (s : State) (v : View) (m : Mask) : IssuesW c [.ds d, .s 1 a, .s 2 b] false s v m →
    (∀ (g : LaneAddr) (pa : Nat),
      let va := (v.rs a).toNat
      let f := fld (v.rs b) 9 9
      let q := fld (v.rs b) 0 9
      let bs := v.packetBytes g va
      va % 64 = 0 → v.mapped kRead false 1 [(127, va)] → v.located false [(127, va)] = [g] → v.packetReady g va →
      v.releasable .device true → recNum bs 0 1 = 1 →
      (v.rs b).toNat / 2 ^ 18 = 0 → f ≤ 384 → v.s.bound f = true → v.s.partOfAgent v.ag = some (v.s.fnPart f) →
      v.s.descPa f q = some pa → v.s.reachable (some (v.s.fnPart f)) pa = true → v.s.reachable (some (v.s.fnPart f)) (pa + 16) = true →
      v.s.restfulAt pa 64 →
      let qd := qdescOf (v.s.homeBytes pa 64)
      let sp := v.s.queueSpace f qd.proc
      qd.valid = true → qd.device = true → qd.held < 2 ^ qd.log2n →
      v.close.reaches ⟨v.ag, some (v.s.fnPart f), sp.1, sp.2, kTransfer, true⟩ (qd.ring + 64 * (qd.wr % 2 ^ qd.log2n)) 64 true →
      ∃ w t u, (v.translate kRead false 1 [(127, va)]).v.release .device true = .go w ∧ w.readPacket g va = .ok (bs, t) ∧
        (let y := w.reopen t
         y.close.postPacket y.ag f q qd bs y.pk.launch = .ok u ∧
         exec (.qpost c d a b) s = .next (((y.reopen u).landS c d 0).placed s))) := by
  intro hi g pa va f q bs hal hm hg hpr hrel hb0 hh hf hbd hpt hd hr hr' hw qd sp hv hdev hheld hre
  obtain ⟨x, hx, hxs⟩ := View.translate_serves hm
  obtain ⟨w, hw1, hwp⟩ := View.release_of_releasable (hxs.toNear.releasable hrel)
  obtain ⟨t, ht, hst, htc⟩ := View.readPacket_of_ready hpr hxs hwp
  have hag := View.again_reopen htc
  obtain ⟨hl, hm1, hn1, hp1, hm2, hn2⟩ := hag.level htc hst
  generalize hy : w.reopen t = y at hag hl hm1 hn1 hp1 hm2 hn2
  have hwag : w.ag = v.ag := hwp.ag.trans hxs.ag
  have hyag : y.ag = v.ag := hag.ag.trans hwag
  have hrsw : ∀ r, w.rs r = v.rs r := fun r => by
    unfold View.rs View.svc
    rw [hwp.ag, hxs.ag, hwp.pk, hxs.pk, hwp.sp, hxs.sp]
  have hrs : ∀ r, y.rs r = v.rs r := fun r => (hag.rs r).trans (hrsw r)
  have hpv : Plain v.s v.close := ⟨rfl, fun _ h => h, fun _ h => h, id, id⟩
  have hpw : Plain v.close w.close := hxs.level.toPlain.trans hwp.level.toPlain
  have hpy : Plain v.s y.s := (hpv.trans hpw).trans hp1
  have hL : Level v.ag v.close y.close := by
    have h1 := hwp.level
    rw [hxs.ag] at h1
    rw [hwag] at hl
    exact (hxs.level.trans h1).trans hl
  have hms : y.s.mem = v.s.mem := by rw [hm2, hwp.s, hxs.s]
  have hns : y.s.minor = v.s.minor := by rw [hn2, hwp.s, hxs.s]
  have hdesc : y.s.desc f q = .ok qd := by
    rw [State.desc_of_restful (pa := pa) (by rw [hpy.descPa]; exact hd) (by rw [hpy.reachable, hpy.fnPart]; exact hr) (hpy.restfulAt hw),
      hpy.homeBytes hms hns]
  have hdq : y.deviceQueue (y.rs b) = .ok f q qd := by
    unfold View.deviceQueue
    rw [hrs]
    have : ¬ ((decide ((v.rs b).toNat / 2 ^ 18 ≠ 0) || decide (384 < fld (v.rs b) 9 9) || !y.s.bound (fld (v.rs b) 9 9) ||
        some (y.s.fnPart (fld (v.rs b) 9 9)) != y.s.partOfAgent y.ag) = true) := by
      rw [hpy.bound, hpy.fnPart, hpy.partOfAgent, hyag]
      have : v.s.partOfAgent v.ag = some (v.s.fnPart (fld (v.rs b) 9 9)) := hpt
      rw [this, show v.s.bound (fld (v.rs b) 9 9) = true from hbd]
      have h3 : (v.rs b).toNat / 2 ^ 18 = 0 := hh
      have h4 : fld (v.rs b) 9 9 ≤ 384 := hf
      simp only [h3]
      simp; exact h4
    dsimp only
    rw [if_neg this, show y.s.desc (fld (v.rs b) 9 9) (fld (v.rs b) 0 9) = .ok qd from hdesc]
    simp [hv, hdev]; exact ⟨rfl, rfl⟩
  have hqs : y.close.queueSpace f qd.proc = sp := (hL.toPlain.queueSpace _ _)
  have hpost : ∃ u, y.close.postPacket y.ag f q qd bs y.pk.launch = .ok u := by
    unfold State.postPacket
    rw [hqs]
    dsimp only
    have hfp : y.close.fnPart f = v.s.fnPart f := hL.toPlain.fnPart f
    obtain ⟨u1, hu1, hc1⟩ := State.engWrite_of_reaches (s := y.close) (bs := bs) (by
      rw [View.packetBytes_length]; exact hL.reaches hre)
    rw [hyag, hfp, hu1]
    dsimp only
    have hpu : Plain v.s u1 := (hpv.trans hL.toPlain).trans hc1.toPlain
    rw [hpu.descPa, hd]
    dsimp only
    obtain ⟨u2, hu2, _⟩ := State.writeAt_of_restful (s := u1) (p := u1.fnPart f) (pa := pa + 16) (bs := bytesOf 4 ((qd.wr + 1) % 2 ^ 32))
      (by rw [hpu.reachable, hpu.fnPart]; exact hr')
      (by rw [bytesOf_length]; exact hpu.restfulAt (hw.sub (by omega) (by omega) (by omega))) ⟨v.ag, true⟩
    rw [hu2]
    exact ⟨_, rfl⟩
  obtain ⟨u, hu⟩ := hpost
  refine ⟨w, t, u, by rw [hx]; exact hw1, ht, ?_⟩
  rw [hy]
  refine ⟨hu, ?_⟩
  show execQpost c d a b s = _
  unfold execQpost
  rw [issue_of_issues _ hi]
  have h1 : ¬ ((v.rs a).toNat % 64 ≠ 0) := fun h => h hal
  simp only [h1, if_false]
  rw [hx, hg]
  have h2 : (isHost g.pa && decide (x.pk.hostw ≠ 0)) = false := by
    by_cases hh : isHost g.pa = true
    · have := hpr; unfold View.packetReady at this; rw [if_pos hh] at this; simp [hxs.pk, this]
    · simp [hh]
  have h4 : v.laneFault kRead true [] = none := rfl
  simp only [Bool.false_eq_true, if_false, h2, h4, hw1, show w.readPacket g (v.rs a).toNat = .ok (bs, t) from ht, hy, hdq, hb0,
    not_true, ne_eq]
  rw [if_neg (by omega), hu]
  rfl

/-- A chunk is moved, NOTIFY stores WRIDX, a WAIT past its time ends, and a queue goes on after a page fault. -/
theorem exec_exchange_of_reaches (n k : Nat) (s : State) :
    (∀ x j ready, ((s.xfers.filter (fun x => dieOf x.agent == n && x.page.isNone)).flatMap (fun x => x.live.map (fun e => (x, e))))[k]? =
        some (x, (j, ready)) → ∀ m w, s.findWin x.launch x.wg = some (m, w) →
      let a := (x.chunk j).1
      let b := (x.chunk j).2.1
      let len := (x.chunk j).2.2
      (x.r.dir = 0 → (s.core m).spPoison (w.base + b) len true = false → s.reaches (s.xferEng x) a len false →
        ∃ t, s.engRead (s.xferEng x) a len = .ok (s.engBytes (s.xferEng x) a len) t ∧ exec (.transferChunkDone n k) s =
          .next ((t.updCore m (fun co => co.spStore w b (s.engBytes (s.xferEng x) a len))).chunkEnd x j)) ∧
      (x.r.dir = 1 → (s.core m).spPoison (w.base + a) len false = false →
        let bs := (s.core m).spRead (w.base + a) len
        s.reaches (s.xferEng x) b bs.length true →
        ∃ t, s.engWrite (s.xferEng x) b bs = .ok () t ∧ exec (.transferChunkDone n k) s = .next (t.chunkEnd x j))) ∧
    (∀ (pa : Nat) (idx : W32), s.bound n = true → s.aperBusy n = false → s.descPa n k = some pa → s.reachable (some (s.fnPart n)) pa = true →
      s.reachable (some (s.fnPart n)) (pa + 16) = true → s.restfulAt pa 64 → (qdescOf (s.homeBytes pa 64)).device = false →
      ∃ t, s.writeAt (s.fnPart n) ⟨s.engOf n k, true⟩ (pa + 16) (bytesOf 4 idx.toNat) = .ok t ∧
        exec (.notify n k idx) s = .next (t.lookAt n k)) ∧
    (∀ x bs pa, s.queue n k = some x → s.descPa n k = some pa → s.reachable (some (s.fnPart n)) pa = true → s.restfulAt pa 64 →
      x.pkt = some bs → recNum bs 0 1 = 6 → x.step = 2 → recNum bs 28 4 ≠ 0 → x.start + recNum bs 28 4 * 1000 ≤ s.time →
      let d := qdescOf (s.homeBytes pa 64)
      let sp := s.queueSpace n d.proc
      exec (.waitTimeout n k) s = .next (((s.owe x (s.workCluster n k d.rd) sp.1 sp.2 6 0 16).runFins).settleQueue n k)) ∧
    (∀ x, s.engfaults[k]? = some x → x.kind = 1 →
      s.reaches (queueEng engAgent ((s.partOfCluster x.cluster).getD 0) x.asid x.root) x.va 1 (x.reason == 3) →
      exec (.engineFaultResume k) s = .next (({ s with engfaults := s.engfaults.eraseIdx k } : State).updQueue (x.id / 512) (x.id % 512)
        (fun y => { y with page := 0 }))) := by
  refine ⟨?_, ?_, ?_, ?_⟩
  · intro x j ready hx m w hw a b len
    refine ⟨?_, ?_⟩
    · intro hd hp hr
      obtain ⟨t, ht, _⟩ := State.engRead_of_reaches hr
      refine ⟨t, ht, ?_⟩
      show execTransferChunkDone n k s = _
      unfold execTransferChunkDone
      simp only [hx, hd]
      have : s.moveChunk x j = .ok () (t.updCore m (fun co => co.spStore w b (s.engBytes (s.xferEng x) a len))) := by
        unfold State.moveChunk
        simp only [hw, hd]
        simp only [a, b, len] at hp ht ⊢
        simp [hp, ht, EngRes.andThen]
      rw [this]
      rfl
    · intro hd hp bs hr
      obtain ⟨t, ht, _⟩ := State.engWrite_of_reaches hr
      refine ⟨t, ht, ?_⟩
      show execTransferChunkDone n k s = _
      unfold execTransferChunkDone
      simp only [hx, hd]
      have : s.moveChunk x j = .ok () t := by
        unfold State.moveChunk
        simp only [hw, hd]
        simp only [a, b, len, bs] at hp ht ⊢
        simp [hp, ht]
      rw [this]
      rfl
  · intro pa idx hb hab hd hr hr' hw hdev
    obtain ⟨t, ht, _⟩ := State.writeAt_of_restful (s := s) (p := s.fnPart n) (pa := pa + 16) (bs := bytesOf 4 idx.toNat) hr'
      (by rw [bytesOf_length]; exact hw.sub (by omega) (by omega) (by omega)) ⟨s.engOf n k, true⟩
    refine ⟨t, ht, ?_⟩
    show execNotify n k idx s = _
    have hn : s.notify n k idx = .done (t.lookAt n k) := by
      unfold State.notify
      rw [State.desc_of_restful hd hr hw, hd]
      simp only [hdev, ht]
      rfl
    unfold execNotify
    simp only [hb, hab, hn]
    rfl
  · intro x bs pa hx hd hr hw hp h1 h2 h3 h4 d sp
    show execWaitTimeout n k s = _
    unfold execWaitTimeout
    rw [State.desc_of_restful hd hr hw, hx]
    simp [hp, h1, h2, h3, h4, sp, d]
  · intro x hx hk hr
    show execEngineFaultResume k s = _
    unfold execEngineFaultResume
    rw [hx]
    have hr' : ({ s with engfaults := s.engfaults.eraseIdx k } : State).reaches
      (queueEng engAgent ((s.partOfCluster x.cluster).getD 0) x.asid x.root) x.va 1 (x.reason == 3) := hr
    have hp : (x.va, min 1 (2 ^ 16 - x.va % 2 ^ 16)) ∈ piecesOf x.va 1 := by
      unfold piecesOf pieces; simp
    obtain ⟨e, he, _⟩ := hr'.paged hp
    obtain ⟨t, ht, _⟩ := State.engXlate_of_paged he
    simp only [hk]
    dsimp only at ht
    have hq : ({ s with engfaults := s.engfaults.eraseIdx k } : State).partOfCluster x.cluster = s.partOfCluster x.cluster := rfl
    simp only [hq, ht]
    rfl

end Sys2Proof.Machine
end

