-- ==== Sys2Proof/Laws/Decode.lean ====
section
/-! SUPPORT. The fields of a word are read back as they were put together. -/

namespace Sys2Proof

/-- The fields of a base word (R106). -/
theorem Base.ofBits_bits (b : Base) : Base.ofBits b.bits = b := by
  obtain ⟨mod, lb, la, sb, sa, dst, guard, setq, waitm, stall, op, len⟩ := b
  simp only [Base.ofBits, Base.bits, Base.mk.injEq]
  refine ⟨?_, ?_, ?_, ?_, ?_, ?_, ?_, ?_, ?_, ?_, ?_, ?_⟩ <;>
    (apply BitVec.eq_of_getLsbD_eq; intro i hi; simp only [BitVec.getLsbD_extractLsb', BitVec.getLsbD_append, hi, decide_true, Bool.true_and]
     repeat (first | rw [if_pos (by omega)] | rw [if_neg (by omega)])
     try (congr 1; omega))

theorem LX.ofBits_bits (x : LX) : LX.ofBits x.bits = x := by
  obtain ⟨res, flg, rsc, ty, lc, sc⟩ := x
  simp only [LX.ofBits, LX.bits, LX.mk.injEq]
  refine ⟨?_, ?_, ?_, ?_, ?_, ?_⟩ <;>
    (apply BitVec.eq_of_getLsbD_eq; intro i hi; simp only [BitVec.getLsbD_extractLsb', BitVec.getLsbD_append, hi, decide_true, Bool.true_and]
     repeat (first | rw [if_pos (by omega)] | rw [if_neg (by omega)])
     try (congr 1; omega))

end Sys2Proof
end

