-- ==== Sys2Proof/Laws/PerInstr.lean ====
section
/-! SUPPORT. One lemma for each constructor of `Instr`: the word of an instruction carries the control bits that the instruction
has, its STALL, WAITM, SETQ and LEN, at their places in the base word (R106, R119); an event has no word. -/

namespace Sys2Proof.Laws.Controls

/-- The base of a word carries the control bits of `c`. -/
def Carries (c : Ctl) (w : Word) : Prop :=
  (Base.ofBits w.base).stall = c.stall ∧ (Base.ofBits w.base).waitm = c.waitm ∧ (Base.ofBits w.base).setq = c.setq ∧
    (Base.ofBits w.base).len = c.len.code

/-- What is stated of each instruction. -/
def Statement (i : Instr) : Prop :=
  match ctlOf i with
  | some c => ∀ w, encode i = some w → Carries c w
  | none => encode i = none

theorem carries_wordOf (c : Ctl) (op : BitVec 8) (r : Regs) (x y : W32) : Carries c (wordOf c op r x y) := by
  simp [Carries, wordOf, baseOf, Base.ofBits_bits]

theorem carries_encSL (c : Ctl) (op : BitVec 8) (r : Regs) (b : USrc) : Carries c (encSL c op r b) := by
  cases b <;> exact carries_wordOf ..

theorem carries_encLW (c : Ctl) (op : BitVec 8) (r : Regs) (b : USrc) : Carries c (encLW c op r b) := by
  cases b <;> exact carries_wordOf ..

theorem carries_encV (c : Ctl) (op : BitVec 8) (r : Regs) (b : VOpnd) (x : BitVec 3) (y : BitVec 11) (z : Bool) :
    Carries c (encV c op r b x y z) := by
  cases b <;> simp only [encV] <;> (try split) <;> exact carries_wordOf ..

theorem carries_encM (c : Ctl) (op : BitVec 8) (r : Regs) (ty : Ty) (off : BitVec 24) (x8 : Byte) (f : Bool) (k : BitVec 3)
    (sc : BitVec 11) (lc : Bool) : Carries c (encM c op r ty off x8 f k sc lc) := by
  unfold encM; split <;> exact carries_wordOf ..

theorem carries_encImm (c : Ctl) (op : BitVec 8) (r : Regs) (v : Imm) : Carries c (encImm c op r v) := by
  cases v <;> exact carries_wordOf ..

theorem carries_encSF (c : Ctl) (op : BitVec 8) (t : FType) (r : Rnd) (d a : SReg) (b : USrc) :
    Carries c (encode.encSF c op t r d a b) := by
  cases b <;> exact carries_wordOf ..

theorem carries_encN (c : Ctl) (op : BitVec 8) (r : Regs) (n : USrc) : Carries c (encode.encN c op r n) := by
  cases n <;> exact carries_wordOf ..

theorem carries_encDovetail (c : Ctl) (x y : Half) : Carries c (encDovetail c x y) := by
  refine ⟨?_, ?_, ?_, ?_⟩ <;>
    (simp only [Base.ofBits, encDovetail]
     apply BitVec.eq_of_getLsbD_eq; intro i hi
     simp only [BitVec.getLsbD_extractLsb', BitVec.getLsbD_append, hi, decide_true, Bool.true_and]
     repeat (first | rw [if_pos (by omega)] | rw [if_neg (by omega)])
     try simp (disch := omega) only [decide_eq_true, Bool.true_and]
     try (congr 1; omega))

/-- An instruction whose encoding is `w` states what `w` carries. -/
theorem of_word {i : Instr} {c : Ctl} {w : Word} (hc : ctlOf i = some c) (he : encode i = some w) (h : Carries c w) : Statement i := by
  unfold Statement
  rw [hc]
  intro x hx
  cases he.symm.trans hx
  exact h


theorem sadd (c : Ctl) (ty : IType) (d a : SReg) (b : USrc) : Statement (.sadd c ty d a b) := of_word rfl rfl (carries_encSL ..)
theorem ssub (c : Ctl) (ty : IType) (d a : SReg) (b : USrc) : Statement (.ssub c ty d a b) := of_word rfl rfl (carries_encSL ..)
theorem smul (c : Ctl) (ty : IType) (d a : SReg) (b : USrc) : Statement (.smul c ty d a b) := of_word rfl rfl (carries_encSL ..)
theorem smulh (c : Ctl) (ty : IType) (d a : SReg) (b : USrc) : Statement (.smulh c ty d a b) := of_word rfl rfl (carries_encSL ..)
theorem smulhn (c : Ctl) (ty : IType) (d a : SReg) (b : USrc) : Statement (.smulhn c ty d a b) := of_word rfl rfl (carries_encSL ..)
theorem sdiv (c : Ctl) (ty : IType) (d a : SReg) (b : USrc) : Statement (.sdiv c ty d a b) := of_word rfl rfl (carries_encSL ..)
theorem sdivn (c : Ctl) (ty : IType) (d a : SReg) (b : USrc) : Statement (.sdivn c ty d a b) := of_word rfl rfl (carries_encSL ..)
theorem srem (c : Ctl) (ty : IType) (d a : SReg) (b : USrc) : Statement (.srem c ty d a b) := of_word rfl rfl (carries_encSL ..)
theorem sremn (c : Ctl) (ty : IType) (d a : SReg) (b : USrc) : Statement (.sremn c ty d a b) := of_word rfl rfl (carries_encSL ..)
theorem sand (c : Ctl) (ty : IType) (d a : SReg) (b : USrc) : Statement (.sand c ty d a b) := of_word rfl rfl (carries_encSL ..)
theorem sor (c : Ctl) (ty : IType) (d a : SReg) (b : USrc) : Statement (.sor c ty d a b) := of_word rfl rfl (carries_encSL ..)
theorem sxor (c : Ctl) (ty : IType) (d a : SReg) (b : USrc) : Statement (.sxor c ty d a b) := of_word rfl rfl (carries_encSL ..)
theorem sandn (c : Ctl) (ty : IType) (d a : SReg) (b : USrc) : Statement (.sandn c ty d a b) := of_word rfl rfl (carries_encSL ..)
theorem sshl (c : Ctl) (ty : IType) (d a : SReg) (b : USrc) : Statement (.sshl c ty d a b) := of_word rfl rfl (carries_encSL ..)
theorem sshr (c : Ctl) (ty : IType) (d a : SReg) (b : USrc) : Statement (.sshr c ty d a b) := of_word rfl rfl (carries_encSL ..)
theorem ssra (c : Ctl) (ty : IType) (d a : SReg) (b : USrc) : Statement (.ssra c ty d a b) := of_word rfl rfl (carries_encSL ..)
theorem smin (c : Ctl) (ty : IType) (d a : SReg) (b : USrc) : Statement (.smin c ty d a b) := of_word rfl rfl (carries_encSL ..)
theorem smax (c : Ctl) (ty : IType) (d a : SReg) (b : USrc) : Statement (.smax c ty d a b) := of_word rfl rfl (carries_encSL ..)
theorem sminn (c : Ctl) (ty : IType) (d a : SReg) (b : USrc) : Statement (.sminn c ty d a b) := of_word rfl rfl (carries_encSL ..)
theorem smaxn (c : Ctl) (ty : IType) (d a : SReg) (b : USrc) : Statement (.smaxn c ty d a b) := of_word rfl rfl (carries_encSL ..)
theorem sclz (c : Ctl) (ty : IType) (d a : SReg) : Statement (.sclz c ty d a) := of_word rfl rfl (carries_wordOf ..)
theorem spopc (c : Ctl) (ty : IType) (d a : SReg) : Statement (.spopc c ty d a) := of_word rfl rfl (carries_wordOf ..)
theorem sbfx (c : Ctl) (ty : IType) (d a : SReg) (desc : USrc) : Statement (.sbfx c ty d a desc) := of_word rfl rfl (carries_encSL ..)
theorem sbfi (c : Ctl) (ty : IType) (d a b : SReg) (desc : USrc) : Statement (.sbfi c ty d a b desc) := of_word rfl rfl (carries_encLW ..)
theorem ssel (c : Ctl) (ty : IType) (d a b cnd : SReg) : Statement (.ssel c ty d a b cnd) := of_word rfl rfl (carries_wordOf ..)
theorem smov (c : Ctl) (ty : IType) (d a : SReg) : Statement (.smov c ty d a) := of_word rfl rfl (carries_wordOf ..)
theorem smovi (c : Ctl) (ty : IType) (d : SReg) (v : Imm) : Statement (.smovi c ty d v) := of_word rfl rfl (carries_encImm ..)
theorem scmp (c : Ctl) (ty : IType) (cond : Cond) (d a : SReg) (b : USrc) : Statement (.scmp c ty cond d a b) := by
  cases b <;> exact of_word rfl rfl (carries_wordOf ..)
theorem amovi (c : Ctl) (w64 t : Bool) (d : AReg) (base stride : W32) : Statement (.amovi c w64 t d base stride) := of_word rfl rfl (carries_wordOf ..)
theorem aadd (c : Ctl) (w64 t : Bool) (d a b : AReg) : Statement (.aadd c w64 t d a b) := of_word rfl rfl (carries_wordOf ..)
theorem asub (c : Ctl) (w64 t : Bool) (d a b : AReg) : Statement (.asub c w64 t d a b) := of_word rfl rfl (carries_wordOf ..)
theorem aadds (c : Ctl) (neg w64 t : Bool) (d a : AReg) (b : USrc) : Statement (.aadds c neg w64 t d a b) := of_word rfl rfl (carries_encSL ..)
theorem amuls (c : Ctl) (w64 t : Bool) (d a : AReg) (b : USrc) : Statement (.amuls c w64 t d a b) := of_word rfl rfl (carries_encSL ..)
theorem ashls (c : Ctl) (w64 t : Bool) (d a : AReg) (b : USrc) : Statement (.ashls c w64 t d a b) := of_word rfl rfl (carries_encSL ..)
theorem psa (c : Ctl) (w64 t : Bool) (d : AReg) (base : SReg) (stride : USrc) : Statement (.psa c w64 t d base stride) := of_word rfl rfl (carries_encSL ..)
theorem psv (c : Ctl) (ty : PType) (d : VReg) (a : SReg) : Statement (.psv c ty d a) := of_word rfl rfl (carries_wordOf ..)
theorem pav (c : Ctl) (ty : IType) (d : VReg) (a : AReg) : Statement (.pav c ty d a) := of_word rfl rfl (carries_wordOf ..)
theorem vpick (c : Ctl) (ty : PType) (d : SReg) (a : VSrc) (i : USrc) : Statement (.vpick c ty d a i) := of_word rfl rfl (carries_encSL ..)
theorem vballot (c : Ctl) (beat : BitVec 2) (d : SReg) (a : PReg) : Statement (.vballot c beat d a) := of_word rfl rfl (carries_wordOf ..)
theorem vany (c : Ctl) (d : SReg) (a : PReg) : Statement (.vany c d a) := of_word rfl rfl (carries_wordOf ..)
theorem vall (c : Ctl) (d : SReg) (a : PReg) : Statement (.vall c d a) := of_word rfl rfl (carries_wordOf ..)
theorem vredadd (c : Ctl) (ty : PType) (d : SReg) (a : VSrc) : Statement (.vredadd c ty d a) := of_word rfl rfl (carries_wordOf ..)
theorem vredmin (c : Ctl) (ty : PType) (d : SReg) (a : VSrc) : Statement (.vredmin c ty d a) := of_word rfl rfl (carries_wordOf ..)
theorem vredmax (c : Ctl) (ty : PType) (d : SReg) (a : VSrc) : Statement (.vredmax c ty d a) := of_word rfl rfl (carries_wordOf ..)
theorem agetb (c : Ctl) (n : Bool) (d : SReg) (a : AReg) : Statement (.agetb c n d a) := of_word rfl rfl (carries_wordOf ..)
theorem agets (c : Ctl) (w : Bool) (d : SReg) (a : AReg) : Statement (.agets c w d a) := of_word rfl rfl (carries_wordOf ..)
theorem vadd (c : Ctl) (ty : IType) (d : VReg) (a : VSrc) (b : VOpnd) : Statement (.vadd c ty d a b) := of_word rfl rfl (carries_encV ..)
theorem vsub (c : Ctl) (ty : IType) (d : VReg) (a : VSrc) (b : VOpnd) : Statement (.vsub c ty d a b) := of_word rfl rfl (carries_encV ..)
theorem vmul (c : Ctl) (ty : IType) (d : VReg) (a : VSrc) (b : VOpnd) : Statement (.vmul c ty d a b) := of_word rfl rfl (carries_encV ..)
theorem vmulh (c : Ctl) (ty : IType) (d : VReg) (a : VSrc) (b : VOpnd) : Statement (.vmulh c ty d a b) := of_word rfl rfl (carries_encV ..)
theorem vmulhn (c : Ctl) (ty : IType) (d : VReg) (a : VSrc) (b : VOpnd) : Statement (.vmulhn c ty d a b) := of_word rfl rfl (carries_encV ..)
theorem vmad (c : Ctl) (ty : IType) (d : VReg) (a : VSrc) (b : VOpnd) (cc : VSrc) : Statement (.vmad c ty d a b cc) := of_word rfl rfl (carries_encV ..)
theorem vdiv (c : Ctl) (ty : IType) (d : VReg) (a : VSrc) (b : VOpnd) : Statement (.vdiv c ty d a b) := of_word rfl rfl (carries_encV ..)
theorem vdivn (c : Ctl) (ty : IType) (d : VReg) (a : VSrc) (b : VOpnd) : Statement (.vdivn c ty d a b) := of_word rfl rfl (carries_encV ..)
theorem vrem (c : Ctl) (ty : IType) (d : VReg) (a : VSrc) (b : VOpnd) : Statement (.vrem c ty d a b) := of_word rfl rfl (carries_encV ..)
theorem vremn (c : Ctl) (ty : IType) (d : VReg) (a : VSrc) (b : VOpnd) : Statement (.vremn c ty d a b) := of_word rfl rfl (carries_encV ..)
theorem vand (c : Ctl) (ty : IType) (d : VReg) (a : VSrc) (b : VOpnd) : Statement (.vand c ty d a b) := of_word rfl rfl (carries_encV ..)
theorem vor (c : Ctl) (ty : IType) (d : VReg) (a : VSrc) (b : VOpnd) : Statement (.vor c ty d a b) := of_word rfl rfl (carries_encV ..)
theorem vxor (c : Ctl) (ty : IType) (d : VReg) (a : VSrc) (b : VOpnd) : Statement (.vxor c ty d a b) := of_word rfl rfl (carries_encV ..)
theorem vandn (c : Ctl) (ty : IType) (d : VReg) (a : VSrc) (b : VOpnd) : Statement (.vandn c ty d a b) := of_word rfl rfl (carries_encV ..)
theorem vnot (c : Ctl) (ty : IType) (d : VReg) (a : VSrc) : Statement (.vnot c ty d a) := of_word rfl rfl (carries_wordOf ..)
theorem vshl (c : Ctl) (ty : IType) (d : VReg) (a : VSrc) (b : VOpnd) : Statement (.vshl c ty d a b) := of_word rfl rfl (carries_encV ..)
theorem vshr (c : Ctl) (ty : IType) (d : VReg) (a : VSrc) (b : VOpnd) : Statement (.vshr c ty d a b) := of_word rfl rfl (carries_encV ..)
theorem vsra (c : Ctl) (ty : IType) (d : VReg) (a : VSrc) (b : VOpnd) : Statement (.vsra c ty d a b) := of_word rfl rfl (carries_encV ..)
theorem vmin (c : Ctl) (ty : IType) (d : VReg) (a : VSrc) (b : VOpnd) : Statement (.vmin c ty d a b) := of_word rfl rfl (carries_encV ..)
theorem vmax (c : Ctl) (ty : IType) (d : VReg) (a : VSrc) (b : VOpnd) : Statement (.vmax c ty d a b) := of_word rfl rfl (carries_encV ..)
theorem vminn (c : Ctl) (ty : IType) (d : VReg) (a : VSrc) (b : VOpnd) : Statement (.vminn c ty d a b) := of_word rfl rfl (carries_encV ..)
theorem vmaxn (c : Ctl) (ty : IType) (d : VReg) (a : VSrc) (b : VOpnd) : Statement (.vmaxn c ty d a b) := of_word rfl rfl (carries_encV ..)
theorem vabs (c : Ctl) (ty : IType) (d : VReg) (a : VSrc) : Statement (.vabs c ty d a) := of_word rfl rfl (carries_wordOf ..)
theorem vneg (c : Ctl) (ty : IType) (d : VReg) (a : VSrc) : Statement (.vneg c ty d a) := of_word rfl rfl (carries_wordOf ..)
theorem vclz (c : Ctl) (ty : IType) (d : VReg) (a : VSrc) : Statement (.vclz c ty d a) := of_word rfl rfl (carries_wordOf ..)
theorem vpopc (c : Ctl) (ty : IType) (d : VReg) (a : VSrc) : Statement (.vpopc c ty d a) := of_word rfl rfl (carries_wordOf ..)
theorem vbfx (c : Ctl) (ty : IType) (d : VReg) (a : VSrc) (desc : USrc) : Statement (.vbfx c ty d a desc) := by
  cases desc <;> exact of_word rfl rfl (carries_wordOf ..)
theorem vbfi (c : Ctl) (ty : IType) (d : VReg) (a b : VSrc) (desc : USrc) : Statement (.vbfi c ty d a b desc) := of_word rfl rfl (carries_encLW ..)
theorem vsel (c : Ctl) (ty : IType) (d : VReg) (a : VSrc) (b : VOpnd) (p : PReg) : Statement (.vsel c ty d a b p) := of_word rfl rfl (carries_encV ..)
theorem vmov (c : Ctl) (ty : IType) (d : VReg) (a : VSrc) : Statement (.vmov c ty d a) := of_word rfl rfl (carries_wordOf ..)
theorem vmovi (c : Ctl) (ty : IType) (d : VReg) (v : Imm) : Statement (.vmovi c ty d v) := of_word rfl rfl (carries_encImm ..)
theorem vcmp (c : Ctl) (ty : IType) (cond : Cond) (d : PReg) (a : VSrc) (b : VOpnd) : Statement (.vcmp c ty cond d a b) := of_word rfl rfl (carries_encV ..)
theorem vsat (c : Ctl) (ty : IType) (d : VReg) (a : VSrc) (sat : W32) : Statement (.vsat c ty d a sat) := of_word rfl rfl (carries_wordOf ..)
theorem pand (c : Ctl) (d a b : PReg) : Statement (.pand c d a b) := of_word rfl rfl (carries_wordOf ..)
theorem por (c : Ctl) (d a b : PReg) : Statement (.por c d a b) := of_word rfl rfl (carries_wordOf ..)
theorem pxor (c : Ctl) (d a b : PReg) : Statement (.pxor c d a b) := of_word rfl rfl (carries_wordOf ..)
theorem pnot (c : Ctl) (d a : PReg) : Statement (.pnot c d a) := of_word rfl rfl (carries_wordOf ..)
theorem pmov (c : Ctl) (d : PReg) (a : PMovSrc) : Statement (.pmov c d a) := by
  cases a <;> exact of_word rfl rfl (carries_wordOf ..)
theorem vfadd (c : Ctl) (r : Rnd) (d : VReg) (a : VSrc) (b : VOpnd) : Statement (.vfadd c r d a b) := of_word rfl rfl (carries_encV ..)
theorem vfsub (c : Ctl) (r : Rnd) (d : VReg) (a : VSrc) (b : VOpnd) : Statement (.vfsub c r d a b) := of_word rfl rfl (carries_encV ..)
theorem vfmul (c : Ctl) (r : Rnd) (d : VReg) (a : VSrc) (b : VOpnd) : Statement (.vfmul c r d a b) := of_word rfl rfl (carries_encV ..)
theorem vfma (c : Ctl) (r : Rnd) (d : VReg) (a : VSrc) (b : VOpnd) (cc : VSrc) : Statement (.vfma c r d a b cc) := of_word rfl rfl (carries_encV ..)
theorem vfmin (c : Ctl) (d : VReg) (a : VSrc) (b : VOpnd) : Statement (.vfmin c d a b) := of_word rfl rfl (carries_encV ..)
theorem vfmax (c : Ctl) (d : VReg) (a : VSrc) (b : VOpnd) : Statement (.vfmax c d a b) := of_word rfl rfl (carries_encV ..)
theorem vfcmp (c : Ctl) (cond : FCond) (d : PReg) (a : VSrc) (b : VOpnd) : Statement (.vfcmp c cond d a b) := of_word rfl rfl (carries_encV ..)
theorem vfclass (c : Ctl) (ty : FType) (d : VReg) (a : VSrc) : Statement (.vfclass c ty d a) := of_word rfl rfl (carries_wordOf ..)
theorem vfrnd (c : Ctl) (r : Rnd) (d : VReg) (a : VSrc) : Statement (.vfrnd c r d a) := of_word rfl rfl (carries_wordOf ..)
theorem vfrcp (c : Ctl) (d : VReg) (a : VSrc) : Statement (.vfrcp c d a) := of_word rfl rfl (carries_wordOf ..)
theorem vfrsq (c : Ctl) (d : VReg) (a : VSrc) : Statement (.vfrsq c d a) := of_word rfl rfl (carries_wordOf ..)
theorem vfsqrt (c : Ctl) (r : Rnd) (d : VReg) (a : VSrc) : Statement (.vfsqrt c r d a) := of_word rfl rfl (carries_wordOf ..)
theorem vfdiv (c : Ctl) (r : Rnd) (d : VReg) (a : VSrc) (b : VOpnd) : Statement (.vfdiv c r d a b) := of_word rfl rfl (carries_encV ..)
theorem vfexp2 (c : Ctl) (d : VReg) (a : VSrc) : Statement (.vfexp2 c d a) := of_word rfl rfl (carries_wordOf ..)
theorem vflog2 (c : Ctl) (d : VReg) (a : VSrc) : Statement (.vflog2 c d a) := of_word rfl rfl (carries_wordOf ..)
theorem vfsin (c : Ctl) (d : VReg) (a : VSrc) : Statement (.vfsin c d a) := of_word rfl rfl (carries_wordOf ..)
theorem vfcos (c : Ctl) (d : VReg) (a : VSrc) : Statement (.vfcos c d a) := of_word rfl rfl (carries_wordOf ..)
theorem vftanh (c : Ctl) (d : VReg) (a : VSrc) : Statement (.vftanh c d a) := of_word rfl rfl (carries_wordOf ..)
theorem vcvt (c : Ctl) (dst src : Ty) (r : Rnd) (d : VReg) (a rb : VSrc) : Statement (.vcvt c dst src r d a rb) := of_word rfl rfl (carries_wordOf ..)
theorem vpack (c : Ctl) (m : PackMode) (ty : Ty) (r : Rnd) (d : VReg) (a b rb : VSrc) : Statement (.vpack c m ty r d a b rb) := of_word rfl rfl (carries_wordOf ..)
theorem vunpack (c : Ctl) (ty : Ty) (e : BitVec 3) (d : VReg) (a : VSrc) : Statement (.vunpack c ty e d a) := of_word rfl rfl (carries_wordOf ..)
theorem vhadd2 (c : Ctl) (ty : FType) (r : Rnd) (d : VReg) (a : VSrc) (b : VOpnd) : Statement (.vhadd2 c ty r d a b) := of_word rfl rfl (carries_encV ..)
theorem vhmul2 (c : Ctl) (ty : FType) (r : Rnd) (d : VReg) (a : VSrc) (b : VOpnd) : Statement (.vhmul2 c ty r d a b) := of_word rfl rfl (carries_encV ..)
theorem vhfma2 (c : Ctl) (ty : FType) (r : Rnd) (d : VReg) (a : VSrc) (b : VOpnd) (cc : VSrc) : Statement (.vhfma2 c ty r d a b cc) := of_word rfl rfl (carries_encV ..)
theorem sfadd (c : Ctl) (ty : FType) (r : Rnd) (d a : SReg) (b : USrc) : Statement (.sfadd c ty r d a b) := of_word rfl rfl (carries_encSF ..)
theorem sfmul (c : Ctl) (ty : FType) (r : Rnd) (d a : SReg) (b : USrc) : Statement (.sfmul c ty r d a b) := of_word rfl rfl (carries_encSF ..)
theorem sfma (c : Ctl) (ty : FType) (r : Rnd) (d a b cc : SReg) : Statement (.sfma c ty r d a b cc) := of_word rfl rfl (carries_wordOf ..)
theorem sfcvt (c : Ctl) (dst src : Ty) (r : Rnd) (d a rb : SReg) : Statement (.sfcvt c dst src r d a rb) := of_word rfl rfl (carries_wordOf ..)
theorem vshfl (c : Ctl) (op : Shfl) (d : VReg) (a : VSrc) (b : VOpnd) : Statement (.vshfl c op d a b) := by
  cases b <;> exact of_word rfl rfl (carries_wordOf ..)
theorem vbcast (c : Ctl) (bt : Bool) (d : VReg) (a : VSrc) (i : USrc) : Statement (.vbcast c bt d a i) := of_word rfl rfl (carries_encSL ..)
theorem vprmt (c : Ctl) (d : VReg) (a b : VSrc) (sel : VOpnd) : Statement (.vprmt c d a b sel) := by
  cases sel <;> exact of_word rfl rfl (carries_wordOf ..)
theorem vscan (c : Ctl) (op : ScanOp) (ex : Bool) (ty : ScanTy) (d : VReg) (a : VSrc) (heads : Option PReg) : Statement (.vscan c op ex ty d a heads) := by
  cases heads <;> exact of_word rfl rfl (carries_wordOf ..)
theorem vdrop (c : Ctl) (all : Bool) (d : PReg) (ctr : Ctr) (key : SReg) (keepv : USrc) : Statement (.vdrop c all d ctr key keepv) := of_word rfl rfl (carries_encLW ..)
theorem vhash (c : Ctl) (lo : Bool) (d : VReg) (ctr : Ctr) (key : SReg) : Statement (.vhash c lo d ctr key) := of_word rfl rfl (carries_wordOf ..)
theorem sld (c : Ctl) (ty : Ty) (nc : Bool) (d base : SReg) (off : BitVec 24) : Statement (.sld c ty nc d base off) := of_word rfl rfl (carries_encM ..)
theorem sst (c : Ctl) (ty : Ty) (base : SReg) (off : BitVec 24) (b : SReg) : Statement (.sst c ty base off b) := of_word rfl rfl (carries_encM ..)
theorem vld (c : Ctl) (ty : Ty) (nc : Bool) (d : VReg) (ad : Addr) (off : BitVec 24) : Statement (.vld c ty nc d ad off) := of_word rfl rfl (carries_encM ..)
theorem vst (c : Ctl) (ty : Ty) (ad : Addr) (off : BitVec 24) (b : VSrc) : Statement (.vst c ty ad off b) := of_word rfl rfl (carries_encM ..)
theorem vlds (c : Ctl) (ty : Ty) (d : VReg) (ad : Addr) (off : BitVec 24) : Statement (.vlds c ty d ad off) := of_word rfl rfl (carries_encM ..)
theorem vsts (c : Ctl) (ty : Ty) (ad : Addr) (off : BitVec 24) (b : VSrc) : Statement (.vsts c ty ad off b) := of_word rfl rfl (carries_encM ..)
theorem slds (c : Ctl) (ty : Ty) (d base : SReg) (off : BitVec 24) : Statement (.slds c ty d base off) := of_word rfl rfl (carries_encM ..)
theorem ssts (c : Ctl) (ty : Ty) (base : SReg) (off : BitVec 24) (b : SReg) : Statement (.ssts c ty base off b) := of_word rfl rfl (carries_encM ..)
theorem vldq (c : Ctl) (ty : Ty) (sc : Scope) (rmask : Byte) (d : VReg) (ad : Addr) (off : BitVec 24) : Statement (.vldq c ty sc rmask d ad off) := of_word rfl rfl (carries_encM ..)
theorem vstl (c : Ctl) (ty : Ty) (sc : Scope) (ad : Addr) (off : BitVec 24) (b : VSrc) : Statement (.vstl c ty sc ad off b) := of_word rfl rfl (carries_encM ..)
theorem sldq (c : Ctl) (ty : Ty) (sc : Scope) (rmask : Byte) (d base : SReg) (off : BitVec 24) : Statement (.sldq c ty sc rmask d base off) := of_word rfl rfl (carries_encM ..)
theorem sstl (c : Ctl) (ty : Ty) (sc : Scope) (base : SReg) (off : BitVec 24) (b : SReg) : Statement (.sstl c ty sc base off b) := of_word rfl rfl (carries_encM ..)
theorem vatom (c : Ctl) (op : AOp) (aq rl : Bool) (ty : Ty) (sc : Scope) (d : VReg) (ad : Addr) (off : BitVec 24) (b cmp : VSrc) : Statement (.vatom c op aq rl ty sc d ad off b cmp) := of_word rfl rfl (carries_encM ..)
theorem satom (c : Ctl) (op : AOp) (aq rl : Bool) (ty : Ty) (sc : Scope) (d base : SReg) (off : BitVec 24) (b cmp : SReg) : Statement (.satom c op aq rl ty sc d base off b cmp) := of_word rfl rfl (carries_encM ..)
theorem vlr (c : Ctl) (ty : Ty) (d : VReg) (ad : Addr) (off : BitVec 24) : Statement (.vlr c ty d ad off) := of_word rfl rfl (carries_encM ..)
theorem vsc (c : Ctl) (ty : Ty) (d : PReg) (ad : Addr) (off : BitVec 24) (b : VSrc) : Statement (.vsc c ty d ad off b) := of_word rfl rfl (carries_encM ..)
theorem fence (c : Ctl) (sc : Scope) : Statement (.fence c sc) := of_word rfl rfl (carries_encM ..)
theorem acq (c : Ctl) (sc : Scope) (rmask : Byte) : Statement (.acq c sc rmask) := of_word rfl rfl (carries_encM ..)
theorem rel (c : Ctl) (sc : Scope) : Statement (.rel c sc) := of_word rfl rfl (carries_encM ..)
theorem invr (c : Ctl) (base : SReg) (off : BitVec 24) (len : SReg) : Statement (.invr c base off len) := of_word rfl rfl (carries_encM ..)
theorem inva (c : Ctl) : Statement (.inva c) := of_word rfl rfl (carries_encM ..)
theorem reg (c : Ctl) (ty : Ty) (ad : Addr) (off : BitVec 24) : Statement (.reg c ty ad off) := of_word rfl rfl (carries_encM ..)
theorem dereg (c : Ctl) (ty : Ty) (ad : Addr) (off : BitVec 24) : Statement (.dereg c ty ad off) := of_word rfl rfl (carries_encM ..)
theorem pref (c : Ctl) (ty : Ty) (ad : Addr) (off : BitVec 24) : Statement (.pref c ty ad off) := of_word rfl rfl (carries_encM ..)
theorem waita (c : Ctl) (ty : Ty) (cond : WCond) (d base : SReg) (off : BitVec 24) (b : SReg) (tmo : Option SReg) : Statement (.waita c ty cond d base off b tmo) := of_word rfl rfl (carries_encM ..)
theorem xfer (c : Ctl) (a : SReg) : Statement (.xfer c a) := of_word rfl rfl (carries_wordOf ..)
theorem msgsend (c : Ctl) (ch : BitVec 3) (a : SReg) : Statement (.msgsend c ch a) := of_word rfl rfl (carries_wordOf ..)
theorem msgrecv (c : Ctl) (nb : Bool) (d a : SReg) : Statement (.msgrecv c nb d a) := of_word rfl rfl (carries_wordOf ..)
theorem msgfree (c : Ctl) (a b : SReg) : Statement (.msgfree c a b) := of_word rfl rfl (carries_wordOf ..)
theorem barinit (c : Ctl) (a b : SReg) : Statement (.barinit c a b) := of_word rfl rfl (carries_wordOf ..)
theorem bararr (c : Ctl) (rm : Bool) (d a b : SReg) : Statement (.bararr c rm d a b) := of_word rfl rfl (carries_wordOf ..)
theorem barwait (c : Ctl) (a b : SReg) : Statement (.barwait c a b) := of_word rfl rfl (carries_wordOf ..)
theorem bartry (c : Ctl) (d a b : SReg) : Statement (.bartry c d a b) := of_word rfl rfl (carries_wordOf ..)
theorem mma (c : Ctl) (z h : Bool) (d : CReg) (a : SReg) (aoff : BitVec 20) (b : SReg) (boff : BitVec 20) : Statement (.mma c z h d a aoff b boff) := of_word rfl rfl (carries_wordOf ..)
theorem mmas (c : Ctl) (z h : Bool) (d : CReg) (a : SReg) (aoff : BitVec 20) (b : SReg) (boff : BitVec 20) : Statement (.mmas c z h d a aoff b boff) := of_word rfl rfl (carries_wordOf ..)
theorem mscale (c : Ctl) (z i : Bool) (d p : CReg) (rs : VSrc) (ss : SReg) (soff : BitVec 20) : Statement (.mscale c z i d p rs ss soff) := of_word rfl rfl (carries_wordOf ..)
theorem mzero (c : Ctl) (d : CReg) : Statement (.mzero c d) := of_word rfl rfl (carries_wordOf ..)
theorem mcvt (c : Ctl) (h : Bool) (ty : Ty) (r : Rnd) (d : VReg) (a : CReg) (key : SReg) : Statement (.mcvt c h ty r d a key) := of_word rfl rfl (carries_wordOf ..)
theorem tfpin (c : Ctl) (d a : SReg) : Statement (.tfpin c d a) := of_word rfl rfl (carries_wordOf ..)
theorem tfrel (c : Ctl) (all : Bool) (a : SReg) : Statement (.tfrel c all a) := of_word rfl rfl (carries_wordOf ..)
theorem bra (c : Ctl) (cond : BCond) (a : SReg) (off : W32) : Statement (.bra c cond a off) := of_word rfl rfl (carries_wordOf ..)
theorem brv (c : Ctl) (off heel : W32) : Statement (.brv c off heel) := of_word rfl rfl (carries_wordOf ..)
theorem brx (c : Ctl) (a : VSrc) (tab len : SReg) (heel : W32) : Statement (.brx c a tab len heel) := of_word rfl rfl (carries_wordOf ..)
theorem call (c : Ctl) (d : Link) (off : W32) : Statement (.call c d off) := by
  cases d <;> exact of_word rfl rfl (carries_wordOf ..)
theorem ret (c : Ctl) (a : Link) : Statement (.ret c a) := by
  cases a <;> exact of_word rfl rfl (carries_wordOf ..)
theorem exit (c : Ctl) : Statement (.exit c) := of_word rfl rfl (carries_wordOf ..)
theorem sync (c : Ctl) : Statement (.sync c) := of_word rfl rfl (carries_wordOf ..)
theorem waitq (c : Ctl) (all : Bool) : Statement (.waitq c all) := of_word rfl rfl (carries_wordOf ..)
theorem yield (c : Ctl) : Statement (.yield c) := of_word rfl rfl (carries_wordOf ..)
theorem nop (c : Ctl) : Statement (.nop c) := of_word rfl rfl (carries_wordOf ..)
theorem trap (c : Ctl) (code : BitVec 16) : Statement (.trap c code) := of_word rfl rfl (carries_wordOf ..)
theorem bkpt (c : Ctl) : Statement (.bkpt c) := of_word rfl rfl (carries_wordOf ..)
theorem svc (c : Ctl) (each : Bool) (vb : VReg) (heel : W32) : Statement (.svc c each vb heel) := of_word rfl rfl (carries_wordOf ..)
theorem qpost (c : Ctl) (d a b : SReg) : Statement (.qpost c d a b) := of_word rfl rfl (carries_wordOf ..)
theorem reggrow (c : Ctl) (d : SReg) (n : USrc) : Statement (.reggrow c d n) := of_word rfl rfl (carries_encN ..)
theorem regshrink (c : Ctl) (n : USrc) : Statement (.regshrink c n) := of_word rfl rfl (carries_encN ..)
theorem srd (c : Ctl) (d : SReg) (num : W32) : Statement (.srd c d num) := of_word rfl rfl (carries_wordOf ..)
theorem swr (c : Ctl) (num : W32) (a : SReg) : Statement (.swr c num a) := of_word rfl rfl (carries_wordOf ..)
theorem sres (c : Ctl) (mark : Bool) (n m : SReg) : Statement (.sres c mark n m) := of_word rfl rfl (carries_wordOf ..)
theorem pctxsv (c : Ctl) (d h va : SReg) : Statement (.pctxsv c d h va) := of_word rfl rfl (carries_wordOf ..)
theorem pctxld (c : Ctl) (d h va : SReg) : Statement (.pctxld c d h va) := of_word rfl rfl (carries_wordOf ..)
theorem tlbinv (c : Ctl) (mode : TlbMode) (hub : Bool) (va asid : SReg) : Statement (.tlbinv c mode hub va asid) := of_word rfl rfl (carries_wordOf ..)
theorem mbxsend (c : Ctl) (d tgt p : SReg) : Statement (.mbxsend c d tgt p) := of_word rfl rfl (carries_wordOf ..)
theorem mbxrecv (c : Ctl) (nb : Bool) (d : SReg) : Statement (.mbxrecv c nb d) := of_word rfl rfl (carries_wordOf ..)
theorem zap (c : Ctl) (pa len : SReg) : Statement (.zap c pa len) := of_word rfl rfl (carries_wordOf ..)
theorem halt (c : Ctl) : Statement (.halt c) := of_word rfl rfl (carries_wordOf ..)
theorem iret (c : Ctl) : Statement (.iret c) := of_word rfl rfl (carries_wordOf ..)
theorem pstop (c : Ctl) (d h : SReg) : Statement (.pstop c d h) := of_word rfl rfl (carries_wordOf ..)
theorem pstopGo (c : Ctl) (d h : SReg) : Statement (.pstopGo c d h) := of_word rfl rfl (carries_wordOf ..)
theorem pstopEnd (c : Ctl) (d h code : SReg) : Statement (.pstopEnd c d h code) := of_word rfl rfl (carries_wordOf ..)
theorem swrp (c : Ctl) (num : W32) (a : SReg) : Statement (.swrp c num a) := of_word rfl rfl (carries_wordOf ..)
theorem dovetail (c : Ctl) (x y : Half) : Statement (.dovetail c x y) := of_word rfl rfl (carries_encDovetail ..)
theorem uncorrectableError (kind unit addr : Nat) : Statement (.uncorrectableError kind unit addr) := rfl
theorem coreQuarantine (core : Nat) : Statement (.coreQuarantine core) := rfl
theorem partitionEnable (p : Nat) : Statement (.partitionEnable p) := rfl
theorem partitionDisable (p : Nat) : Statement (.partitionDisable p) := rfl
theorem partitionReset (p : Nat) : Statement (.partitionReset p) := rfl
theorem partitionResetDone (p : Nat) : Statement (.partitionResetDone p) := rfl
theorem frameRebind (core : Nat) (v : W64) : Statement (.frameRebind core v) := rfl
theorem notify (f q : Nat) (idx : W32) : Statement (.notify f q idx) := rfl
theorem cnotify (f : Nat) : Statement (.cnotify f) := rfl
theorem scStart (cluster : Nat) (v : W64) : Statement (.scStart cluster v) := rfl
theorem fnBindWrite (f : Nat) (v : W64) : Statement (.fnBindWrite f v) := rfl
theorem attestationRequest (f : Nat) (v : W64) : Statement (.attestationRequest f v) := rfl
theorem attResume (f : Nat) : Statement (.attResume f) := rfl
theorem ownerEnroll (slot : Nat) : Statement (.ownerEnroll slot) := rfl
theorem ownerRevoke (slot : Nat) : Statement (.ownerRevoke slot) := rfl
theorem migrationGo (f : Nat) : Statement (.migrationGo f) := rfl
theorem migrationForce (f : Nat) : Statement (.migrationForce f) := rfl
theorem migrationDone (f : Nat) : Statement (.migrationDone f) := rfl
theorem tgJoin (g : Nat) (v : W64) : Statement (.tgJoin g v) := rfl
theorem tgLeave (g : Nat) (v : W64) : Statement (.tgLeave g v) := rfl
theorem viewInstall (g view : Nat) (members : List Nat) : Statement (.viewInstall g view members) := rfl
theorem verifyDone : Statement (.verifyDone) := rfl
theorem leaseExpiry (core line : Nat) : Statement (.leaseExpiry core line) := rfl
theorem timeBaseBroadcast (core : Nat) (off : Int) : Statement (.timeBaseBroadcast core off) := rfl
theorem broadcastTimeout (core : Nat) : Statement (.broadcastTimeout core) := rfl
theorem coreClockGate (core : Nat) : Statement (.coreClockGate core) := rfl
theorem correctedError (kind unit : Nat) : Statement (.correctedError kind unit) := rfl
theorem l1LineError (core line : Nat) : Statement (.l1LineError core line) := rfl
theorem sliceScrubDone (sl : Nat) : Statement (.sliceScrubDone sl) := rfl
theorem metadataInitDone (sl : Nat) : Statement (.metadataInitDone sl) := rfl
theorem partitionKeyingDone (p : Nat) : Statement (.partitionKeyingDone p) := rfl
theorem partitionReleaseDone (p : Nat) : Statement (.partitionReleaseDone p) := rfl
theorem frameRebindDone : Statement (.frameRebindDone) := rfl
theorem walkReadAnswer (k : Nat) : Statement (.walkReadAnswer k) := rfl
theorem fairnessTimer (core slot : Nat) : Statement (.fairnessTimer core slot) := rfl
theorem overdueSplit (core slot i : Nat) : Statement (.overdueSplit core slot i) := rfl
theorem heelArrival (core slot i : Nat) : Statement (.heelArrival core slot i) := rfl
theorem splitMeet (core slot i j : Nat) : Statement (.splitMeet core slot i j) := rfl
theorem forcedReconvergence (core slot i : Nat) : Statement (.forcedReconvergence core slot i) := rfl
theorem landingBufferWrite (core : Nat) : Statement (.landingBufferWrite core) := rfl
theorem divisionComplete (core : Nat) : Statement (.divisionComplete core) := rfl
theorem specialFunctionComplete (core : Nat) : Statement (.specialFunctionComplete core) := rfl
theorem tileLineArrival (core k : Nat) : Statement (.tileLineArrival core k) := rfl
theorem matrixExecute (core : Nat) : Statement (.matrixExecute core) := rfl
theorem matrixComplete (core : Nat) : Statement (.matrixComplete core) := rfl
theorem watchdog (core slot i : Nat) : Statement (.watchdog core slot i) := rfl
theorem stopComplete (core slot : Nat) : Statement (.stopComplete core slot) := rfl
theorem waitaTimeout (core slot i : Nat) : Statement (.waitaTimeout core slot i) := rfl
theorem instructionFetchFault (core slot i : Nat) : Statement (.instructionFetchFault core slot i) := rfl
theorem transferAccept (die : Nat) : Statement (.transferAccept die) := rfl
theorem transferChunkStart (die : Nat) : Statement (.transferChunkStart die) := rfl
theorem transferChunkDone (die k : Nat) : Statement (.transferChunkDone die k) := rfl
theorem messageAppend (k : Nat) : Statement (.messageAppend k) := rfl
theorem creditReturn (k : Nat) : Statement (.creditReturn k) := rfl
theorem remoteArrival (k : Nat) : Statement (.remoteArrival k) := rfl
theorem remoteArrivalReply (k : Nat) : Statement (.remoteArrivalReply k) := rfl
theorem hubHeldDelivery (k : Nat) : Statement (.hubHeldDelivery k) := rfl
theorem reggrowGrant (core : Nat) : Statement (.reggrowGrant core) := rfl
theorem registerDeadlock (core : Nat) : Statement (.registerDeadlock core) := rfl
theorem workgroupDispatch (p : Nat) : Statement (.workgroupDispatch p) := rfl
theorem packEnd (core slot : Nat) : Statement (.packEnd core slot) := rfl
theorem launchComplete (l : Nat) : Statement (.launchComplete l) := rfl
theorem engineRound (e : Nat) : Statement (.engineRound e) := rfl
theorem waitTimeout (f q : Nat) : Statement (.waitTimeout f q) := rfl
theorem sliceExpiry (p : Nat) : Statement (.sliceExpiry p) := rfl
theorem laneRotation (lane : Nat) : Statement (.laneRotation lane) := rfl
theorem engineFaultResume (k : Nat) : Statement (.engineFaultResume k) := rfl
theorem haltWake (cluster : Nat) : Statement (.haltWake cluster) := rfl
theorem mbxrecvWake (cluster : Nat) : Statement (.mbxrecvWake cluster) := rfl
theorem hostApertureRead (f off n : Nat) : Statement (.hostApertureRead f off n) := rfl
theorem hostApertureWrite (f off : Nat) (bs : List Byte) : Statement (.hostApertureWrite f off bs) := rfl
theorem hostApertureAtomic (f off : Nat) (ty : Ty) (op : AOp) (opd cmp : W64) : Statement (.hostApertureAtomic f off ty op opd cmp) := rfl
theorem hostCompletion (ok : Bool) : Statement (.hostCompletion ok) := rfl
theorem vfFlr (f : Nat) : Statement (.vfFlr f) := rfl
theorem pfFlr : Statement (.pfFlr) := rfl
theorem attestationDone (f : Nat) : Statement (.attestationDone f) := rfl
theorem activationGo : Statement (.activationGo) := rfl
theorem activationDone : Statement (.activationDone) := rfl
theorem migrationQuiesced (f : Nat) : Statement (.migrationQuiesced f) := rfl
theorem brevorData (g src chan view seq coll off : Nat) (bs : List Byte) (ok : Bool) : Statement (.brevorData g src chan view seq coll off bs ok) := rfl
theorem brevorAck (g src chan seq : Nat) : Statement (.brevorAck g src chan seq) := rfl
theorem brevorNak (g src chan seq : Nat) : Statement (.brevorNak g src chan seq) := rfl
theorem brevorControl (g src chan view seq kind arg : Nat) (ok : Bool) : Statement (.brevorControl g src chan view seq kind arg ok) := rfl
theorem retransmitTimeout (g dst chan : Nat) : Statement (.retransmitTimeout g dst chan) := rfl
theorem collectiveRingPoll (f : Nat) : Statement (.collectiveRingPoll f) := rfl
theorem collectiveComplete (k : Nat) : Statement (.collectiveComplete k) := rfl
theorem ethernetFrameReceive (port kind sock : Nat) (bs : List Byte) : Statement (.ethernetFrameReceive port kind sock bs) := rfl
theorem nvmeCompletion (k : Nat) (ok : Bool) : Statement (.nvmeCompletion k ok) := rfl
theorem powerGood : Statement (.powerGood) := rfl
theorem hubBringupDone : Statement (.hubBringupDone) := rfl
theorem clusterBistDone (cluster : Nat) (fails : List W64) : Statement (.clusterBistDone cluster fails) := rfl
theorem fullRateChange : Statement (.fullRateChange) := rfl
theorem recoveryImageLoad (image : List Byte) : Statement (.recoveryImageLoad image) := rfl
theorem powerControlTick (sample avg : Nat) (temps : List (Nat × Nat)) : Statement (.powerControlTick sample avg temps) := rfl
theorem thermalTrip : Statement (.thermalTrip) := rfl
theorem powerLoss : Statement (.powerLoss) := rfl
theorem registerWrite (who addr n : Nat) (v : W64) : Statement (.registerWrite who addr n v) := rfl
theorem rdc (src dst : Nat) : Statement (.rdc src dst) := rfl
theorem rdn (src dst : Nat) : Statement (.rdn src dst) := rfl
theorem regw (src dst : Nat) : Statement (.regw src dst) := rfl
theorem ewr (src dst : Nat) : Statement (.ewr src dst) := rfl
theorem atm (src dst : Nat) : Statement (.atm src dst) := rfl
theorem wbd (src dst : Nat) : Statement (.wbd src dst) := rfl
theorem loss (src dst : Nat) : Statement (.loss src dst) := rfl
theorem zapw (src dst : Nat) : Statement (.zapw src dst) := rfl
theorem notheld (src dst : Nat) : Statement (.notheld src dst) := rfl
theorem race (src dst : Nat) : Statement (.race src dst) := rfl
theorem callbackDone (src dst : Nat) : Statement (.callbackDone src dst) := rfl
theorem staleAck (src dst : Nat) : Statement (.staleAck src dst) := rfl
theorem fwd (src dst : Nat) : Statement (.fwd src dst) := rfl
theorem recallWord (src dst : Nat) : Statement (.recallWord src dst) := rfl
theorem callback (src dst : Nat) : Statement (.callback src dst) := rfl
theorem drop (src dst : Nat) : Statement (.drop src dst) := rfl
theorem grant (src dst : Nat) : Statement (.grant src dst) := rfl
theorem data (src dst : Nat) : Statement (.data src dst) := rfl
theorem faultAnswer (src dst : Nat) : Statement (.faultAnswer src dst) := rfl
theorem stale (src dst : Nat) : Statement (.stale src dst) := rfl

end Sys2Proof.Laws.Controls
end

