-- ==== Sys2Proof/Tests/Slice0.lean ====
section
/-! SUPPORT. Tests. Expected decodings are the assembly lines that spec/ prints beside the words; ill-formed terms are refused; single
steps are computed by hand from the rules named; and states that meet the hypotheses of the statements. -/

namespace Sys2Proof.Tests

open Sys2Proof Sys2Proof.Machine

/-- Plain control bits of each length: STALL 0, no waits, no token, guard p7. -/
def sh : Ctl := ⟨.short, 0, 0, 7, 7⟩
def lg : Ctl := ⟨.long, 0, 0, 7, 7⟩
def wd : Ctl := ⟨.wide, 0, 0, 7, 7⟩
/-- A short word with a token. -/
def shq (q : BitVec 3) : Ctl := ⟨.short, 0, 0, q, 7⟩
/-- A varying source without its last-use bit. -/
def vs (r : VReg) : VSrc := ⟨r, false⟩

/-! ### Words that spec/ prints beside their assembly -/

/-- 10, the table after R221. -/
theorem test_decode_integer :
    decodeWord false ⟨0x400600A015F80401, 0, 0⟩ = .ok (.sadd ⟨.short, 1, 0, 7, 7⟩ .i64 5 5 (.reg 6)) ∧
    decodeWord false ⟨0x000000E01DF80002, 0xFFFFFFF0, 0⟩ = .ok (.sadd lg .i32 7 7 (.imm 0xFFFFFFF0)) ∧
    decodeWord false ⟨0x0005008051F800F6, 6, 0⟩ = .ok (.vmad lg .i32 20 (vs 4) (.v (vs 5)) (vs 6)) ∧
    decodeWord false ⟨0x0009010009F8015E, 0x000A0000, 0⟩ = .ok (.vcmp lg .i32 .lt 2 (vs 8) (.s 9)) ∧
    decodeWord false ⟨0x0000002029F80127, 0, 4⟩ = .ok (.vsra wd .i32 10 (vs 1) (.imm 4)) ∧
    decodeWord false ⟨0x000200202DF80126, 0x00080000, 0⟩ = .ok (.vsra lg .i32 11 (vs 1) (.s 2)) := by decide

/-- 05, R106. -/
theorem test_decode_guard_lastuse :
    decodeWord false ⟨0x0805008032C80CE1, 0, 0⟩ = .ok (.vadd ⟨.short, 3, 0, 1, 11⟩ .i32 12 ⟨4, true⟩ (.v (vs 5))) := by decide

/-- 08, R193, and 10. -/
theorem test_decode_affine :
    decodeWord false ⟨0x400500800DF80099, 0, 0⟩ = .ok (.psa sh true false 3 4 (.reg 5)) ∧
    decodeWord false ⟨0x200000C015F8009A, 0xFFFFFFFC, 0⟩ = .ok (.psa lg false true 5 6 (.imm 0xFFFFFFFC)) ∧
    decodeWord false ⟨0x080205001DD800A5, 0, 0⟩ = .ok (.vpick (shq 3) .i32 7 ⟨40, true⟩ (.reg 2)) ∧
    decodeWord false ⟨0x60000020F1F800A9, 0, 0⟩ = .ok (.vballot sh 3 60 1) ∧
    decodeWord false ⟨0x00000C8025F900B5, 0, 0⟩ = .ok (.vredadd ⟨.short, 0, 8, 7, 7⟩ .i32 9 (vs 100)) ∧
    decodeWord false ⟨0x400000000DF80083, 0x1000, 4⟩ = .ok (.amovi wd true false 3 0x1000 4) := by decide

/-- 11, the table after R237. -/
theorem test_decode_float_lane :
    decodeWord false ⟨0x8005008031F80181, 0, 0⟩ = .ok (.vfadd sh .rne 12 (vs 4) (.v (vs 5))) ∧
    decodeWord false ⟨0x8005008051F8018E, 0x00010006, 0⟩ = .ok (.vfma lg .rtz 20 (vs 4) (.v (vs 5)) (vs 6)) ∧
    decodeWord false ⟨0x0009010079F801CA, 0x0004400B, 0⟩ = .ok (.vcvt lg .mf8 .f32 .sr 30 (vs 8) (vs 9)) ∧
    decodeWord false ⟨0x60000040A1F80223, 0, 0x20⟩ = .ok (.vshfl wd .xor 40 (vs 2) (.imm 32)) ∧
    decodeWord false ⟨0x200200E0B1F8022E, 0x00080000, 0⟩ = .ok (.vscan lg .add true .i32 44 (vs 7) (some 2)) ∧
    decodeWord false ⟨0x400400A00DF80233, 0, 0xC000⟩ = .ok (.vdrop wd false 3 (.a 5) 4 (.imm 0xC000)) := by decide

/-- 06, R133 and R146, and 23. -/
theorem test_decode_memory :
    decodeWord false ⟨0x2000008051D00249, 0, 0⟩ = .ok (.vld (shq 2) .i32 false 20 (.a 4) 0) ∧
    decodeWord false ⟨0x401F00A079F80273, 0x00021000, 0x10000040⟩ =
      .ok (.vatom wd .add true false .n32 .device 30 (.v (vs 5)) 0x40 (vs 31) (vs 0)) ∧
    decodeWord false ⟨0x000C00C001F8026F, 0x00011000, 0⟩ = .ok (.sstl wd .n32 .core 6 0 12) ∧
    decodeWord false ⟨0x000000A039C8026B, 0x00021000, 0⟩ = .ok (.sldq ⟨.wide, 0, 0, 1, 7⟩ .n32 .device 0 14 5 0) := by decide

/-- 07, R161. -/
theorem test_decode_transfer :
    decodeWord false ⟨0x0000006001C002C1, 0, 0⟩ = .ok (.xfer (shq 0) 3) ∧
    decodeWord false ⟨0x000000C015C802C9, 0, 0⟩ = .ok (.msgrecv (shq 1) false 5 6) := by decide

/-- 12, the table after R268. -/
theorem test_decode_matrix :
    decodeWord false ⟨0x200B014001F80303, 0x02000000, 0⟩ = .ok (.mma wd true false 0 10 0 11 0x20) ∧
    decodeWord false ⟨0x00C8000005C8030B, 0x800C, 0⟩ = .ok (.mscale ⟨.wide, 0, 0, 1, 7⟩ false false 1 0 (vs 200) 12 0x200) ∧
    decodeWord false ⟨0x0000000009E0030D, 0, 0⟩ = .ok (.mzero (shq 4) 2) ∧
    decodeWord false ⟨0x00000004B1D00312, 0x6000, 0⟩ = .ok (.mcvt ⟨.long, 0, 0, 2, 7⟩ false .bf16 .rne 300 0 0) ∧
    decodeWord false ⟨0x000001A051D80315, 0, 0⟩ = .ok (.tfpin (shq 3) 20 13) ∧
    decodeWord false ⟨0x2000000001F80319, 0, 0⟩ = .ok (.tfrel sh true 0) := by decide

/-- 14, the table after R306, and 16, R338. -/
theorem test_decode_control :
    decodeWord false ⟨0x200000A001F80322, 0xFFFFFFC0, 0⟩ = .ok (.bra lg .nz 5 0xFFFFFFC0) ∧
    decodeWord false ⟨0x0000000000B80327, 0x40, 0x100⟩ = .ok (.brv ⟨.wide, 0, 0, 7, 2⟩ 0x40 0x100) ∧
    decodeWord false ⟨0x0806012001F8032B, 7, 0x200⟩ = .ok (.brx wd ⟨9, true⟩ 6 7 0x200) ∧
    decodeWord false ⟨0x00000000A1F8032E, 0x400, 0⟩ = .ok (.call lg (.s 40) 0x400) ∧
    decodeWord false ⟨0x0000050001F80331, 0, 0⟩ = .ok (.ret sh (.s 40)) ∧
    decodeWord false ⟨0x0000000000780335, 0, 0⟩ = .ok (.exit ⟨.short, 0, 0, 7, 1⟩) ∧
    decodeWord false ⟨0x0000000031F80362, 0x47, 0⟩ = .ok (.srd lg 12 0x47) ∧
    decodeWord false ⟨0x000001A001F80366, 0x11, 0⟩ = .ok (.swr lg 0x11 13) ∧
    decodeWord false ⟨0x000A012021C00355, 0, 0⟩ = .ok (.qpost (shq 0) 8 9 10) ∧
    decodeWord false ⟨0x000000002DC8035A, 0x5DC, 0⟩ = .ok (.reggrow ⟨.long, 0, 0, 1, 7⟩ 11 (.imm 1500)) ∧
    decodeWord false ⟨0x0000000001F8034A, 0x42, 0⟩ = .ok (.trap lg 0x42) ∧
    decodeWord false ⟨0x0000000001F8034D, 0, 0⟩ = .ok (.bkpt sh) := by decide

/-- 17, R360: on a service core; on a compute core the same word faults PRIVILEGE (R112). -/
theorem test_decode_privileged :
    decodeWord true ⟨0x0005008001C00399, 0, 0⟩ = .ok (.zap (shq 0) 4 5) ∧
    decodeWord true ⟨0xA006000001F8038D, 0, 0⟩ = .ok (.tlbinv sh .asid true 0 6) ∧
    decodeWord true ⟨0x0000000021C80395, 0, 0⟩ = .ok (.mbxrecv (shq 1) false 8) ∧
    decodeWord true ⟨0x0000008001F803AA, 0x100, 0⟩ = .ok (.swrp lg 0x100 4) ∧
    decodeWord false ⟨0x0005008001C00399, 0, 0⟩ = .error .privilege := by decide


/-! ### Ill-formed terms, one for each check of WellFormed -/

/-- R106, R117, R109: the token, the guard of an unguarded form, the w names, the a0 destination. -/
theorem test_wf_control :
    wf (.nop ⟨.short, 0, 0, 6, 7⟩) = false ∧ wf (.mzero ⟨.short, 0, 0, 7, 1⟩ 2) = false ∧ wf (.waitq (shq 2) true) = false ∧
    wf (.vadd sh .i64 1024 (vs 0) (.v (vs 1))) = false ∧ wf (.vadd sh .i64 1 (vs 1024) (.v (vs 1))) = false ∧
    wf (.vadd sh .i64 1 (vs 0) (.v (vs 1024))) = false ∧ wf (.aadd sh true false 0 1 2) = false ∧
    wf (.psa sh true false 0 1 (.reg 2)) = false := by decide

/-- The length of each kind of operand (R104, R220, R221, R226, R236). -/
theorem test_wf_length :
    wf (.sadd lg .i32 1 2 (.reg 3)) = false ∧ wf (.sadd sh .i32 1 2 (.imm 3)) = false ∧ wf (.sbfx lg .i32 1 2 (.imm 0x10000)) = false ∧
    wf (.vadd lg .i32 1 (vs 2) (.imm 3)) = false ∧ wf (.vadd sh .i32 1 (vs 2) (.s 3)) = false ∧
    wf (.vmad sh .i32 1 (vs 2) (.v (vs 3)) (vs 4)) = false ∧ wf (.smovi wd .i32 1 (.i64 5)) = false ∧ wf (.nop lg) = false ∧
    wf (.vfadd sh .rup 1 (vs 2) (.v (vs 3))) = false ∧ wf (.vfadd lg .sr 1 (vs 2) (.v (vs 3))) = false ∧
    wf (.exit wd) = false ∧ wf (.call sh (.s 1) 0) = false := by decide

/-- The signedness of an opcode, VSAT's width, conversions, packs, atomics and offsets (R218, R234, R245, R246, R146, R306). -/
theorem test_wf_fields :
    wf (.smulh sh .n32 1 2 (.reg 3)) = false ∧ wf (.vminn sh .i32 1 (vs 2) (.v (vs 3))) = false ∧
    wf (.vsat lg .i32 1 (vs 2) 33) = false ∧ wf (.vsat lg .i32 1 (vs 2) 0) = false ∧
    wf (.vcvt lg .i32 .n32 .rne 1 (vs 2) (vs 0)) = false ∧ wf (.vcvt lg .f32 .i32 .sr 1 (vs 2) (vs 0)) = false ∧
    wf (.vpack lg .p2 .i8 .rne 1 (vs 2) (vs 3) (vs 0)) = false ∧ wf (.vunpack lg .f16 2 1 (vs 2)) = false ∧
    wf (.vatom wd .fadd true false .i32 .device 1 (.u 2) 0 (vs 3) (vs 0)) = false ∧
    wf (.satom wd .add false false .i32 .device 1 2 0 3 0) = false ∧ wf (.bra lg .nz 1 2) = false ∧
    wf (.bra lg .always 1 4) = false ∧ wf (.sld sh .i64 false 1 2 0) = false ∧ wf (.sld wd .f16 false 1 2 0) = false := by decide

/-- Register limits, special registers, service cores and the pairing rules (R231, R360-R369, R190, R359, R306, R119-R121). -/
theorem test_wf_system :
    wf (.sres sh false 1 62) = false ∧ wf (.mbxrecv sh false 61) = false ∧ wf (.mbxsend sh 1 2 62) = false ∧
    wf (.pmov sh 1 (.mk 62)) = false ∧ wf (.vballot sh 3 61 1) = false ∧ wf (.tlbinv sh .all false 0 1) = false ∧
    wf (.srd lg 1 0x009) = false ∧ wf (.swrp lg 0x102 1) = false ∧ wfOn false (.srd lg 1 0x100) = false ∧
    wfOn true (.srd lg 1 0x100) = true ∧ wfOn true (.call lg (.w 4) 8) = false ∧ wfOn true (.nop ⟨.short, 0, 0, 7, 1⟩) = false ∧
    wf (.dovetail wd ⟨.vadd, 7, .rne, .i32, 0, vs 4, vs 5⟩ ⟨.vsub, 7, .rne, .i32, 1, vs 6, vs 7⟩) = false ∧
    wf (.dovetail wd ⟨.vadd, 7, .rne, .i32, 0, vs 4, vs 5⟩ ⟨.vfmul, 7, .rne, .f32, 4, vs 6, vs 7⟩) = false ∧
    wf (.dovetail wd ⟨.vadd, 7, .rne, .i32, 0, vs 4, vs 5⟩ ⟨.vfmul, 7, .rne, .f32, 1, vs 8, vs 7⟩) = false ∧
    wf (.dovetail wd ⟨.vadd, 7, .rne, .i32, 0, vs 4, vs 5⟩ ⟨.vfmul, 7, .rne, .f32, 1, vs 6, vs 7⟩) = true := by decide

/-! ### Single steps, by hand from the rules named -/

/-- A pack of core 0 with s4 and s5 as the example of R222 has them and a word to run next. -/
def with45 (x y : W64) (nbits w : Nat) : State :=
  (State.reset.withFetchWord nbits w).updCore 0 (fun c => c.updPack 0 (fun p => { p with s := ins (ins p.s 4 x) 5 y }))

/-- The encoding of an instruction as one number, its first word lowest. -/
def num (i : Instr) : Nat := match encode i with | some w => w.base.toNat + w.ext.toNat * 2 ^ 64 + w.imm.toNat * 2 ^ 96 | none => 0

/-- The state in which a step runs one instruction with s4 and s5 as given. -/
def run45 (x y : W64) (i : Instr) : Host.Outcome State Fault Refusal := step (with45 x y 128 (num i))

/-- The registers that the step writes, once their latency has passed: the pending writes of the split. -/
def writes (o : Host.Outcome State Fault Refusal) : List FileW :=
  match o with
  | .next t => ((look (t.core 0).packs 0).bind (fun p => p.split 0)).elim [] (fun x => x.pw.map (fun w => w.w))
  | _ => []

/-- The PC of the split after the step. -/
def pcOf (o : Host.Outcome State Fault Refusal) : Option W64 :=
  match o with
  | .next t => ((look (t.core 0).packs 0).bind (fun p => p.split 0)).map (fun x => x.pc)
  | _ => none

/-- The table after R222: s4 = 0xFFFF_FFFF_8000_0000 and s5 = 2. -/
theorem test_r222_table :
    writes (run45 0xFFFFFFFF80000000 2 (.sadd sh .i32 6 4 (.reg 5))) = [.s 6 0xFFFFFFFF80000002] ∧
    writes (run45 0xFFFFFFFF80000000 2 (.sadd sh .n32 6 4 (.reg 5))) = [.s 6 0x80000002] ∧
    writes (run45 0xFFFFFFFF80000000 2 (.smulh sh .i32 6 4 (.reg 5))) = [.s 6 0xFFFFFFFFFFFFFFFF] ∧
    writes (run45 0xFFFFFFFF80000000 2 (.smulhn sh .n32 6 4 (.reg 5))) = [.s 6 1] := by decide

/-- R223: a count of w gives 0 or the sign; only bits 7:0 of the count are read. -/
theorem test_shift_count :
    writes (run45 0x80000000 32 (.ssra sh .i32 6 4 (.reg 5))) = [.s 6 0xFFFFFFFFFFFFFFFF] ∧
    writes (run45 0x80000000 32 (.sshl sh .i32 6 4 (.reg 5))) = [.s 6 0] ∧
    writes (run45 3 0x101 (.sshl sh .i32 6 4 (.reg 5))) = [.s 6 6] ∧
    writes (run45 0x80000000 31 (.sshr sh .i32 6 4 (.reg 5))) = [.s 6 1] := by decide

/-- R306: a branch goes to PC + IMM32 when its register is not 0, else to the sequential successor. -/
theorem test_branch :
    pcOf (run45 1 0 (.bra lg .nz 4 0x40)) = some 0x40 ∧ pcOf (run45 0 0 (.bra lg .nz 4 0x40)) = some 12 ∧
    pcOf (run45 0 0 (.bra lg .z 4 0x40)) = some 0x40 ∧ pcOf (run45 0 0 (.nop sh)) = some 8 ∧
    pcOf (run45 0 0 (.call lg (.s 6) 0x40)) = some 0x40 ∧ writes (run45 0 0 (.call lg (.s 6) 0x40)) = [.s 6 12] ∧
    pcOf (run45 0x80 0 (.ret sh (.s 4))) = some 0x80 := by decide

/-- R179: s63 is a source of 0 and discards writes. -/
theorem test_s63 :
    writes (run45 7 2 (.sadd sh .i64 6 63 (.reg 5))) = [.s 6 2] ∧ writes (run45 7 2 (.sadd sh .i64 63 4 (.reg 5))) = [] := by decide


/-! ### States that meet the hypotheses of the statements

`issued` computes the view and the lanes of `Issues`; a witness evaluates it, and the further conditions of a clause, on a small state. -/

/-- The view and the lanes at which a word issues, where it issues. -/
def issued (c : Ctl) (ps : List Part) (waits : BitVec 6) (chk : View → List Use) (wide : Bool) (s : State) :
    Option (View × Mask) :=
  match s.view with
  | none => none
  | some v0 =>
    match v0.ready c waits (usesOf ps) with
    | none => none
    | some v1 =>
      let v := if wide then v1.reconverge else v1
      if v1.stalls ps = none ∧ (wide = true → v1.pk.allSettled v1.ix v1.sp.pc = true) ∧ v.actOf ps ≠ 0 ∧
          v.viewFault (chk v) = none ∧ v.uniformFault (usesOf ps) = none ∧ v.rowFaults ps = none then some (v, v.actOf ps) else none

/-- What `issued` gives issues. -/
theorem issues_of_issued {c : Ctl} {ps : List Part} {waits : BitVec 6} {chk : View → List Use} {wide : Bool}
    {s : State} {v : View} {m : Mask} (h : issued c ps waits chk wide s = some (v, m)) : Issues c ps waits chk wide s v m := by
  unfold issued at h
  split at h
  · cases h
  · rename_i v0 h0
    split at h
    · cases h
    · rename_i v1 h1
      simp only [Option.ite_none_right_eq_some, Option.some.injEq, Prod.mk.injEq] at h
      obtain ⟨⟨a, d, e, f, g, k⟩, rfl, rfl⟩ := h
      exact ⟨v0, v1, h0, h1, a, d, rfl, rfl, e, f, g, k⟩

/-- A word that issues with a further condition. -/
theorem issues_with {c : Ctl} {ps : List Part} {waits : BitVec 6} {chk : View → List Use} {wide : Bool}
    {s : State} (P : View → Mask → Bool) (h : (issued c ps waits chk wide s).any (fun x => P x.1 x.2) = true) :
    ∃ v m, Issues c ps waits chk wide s v m ∧ P v m = true := by
  cases e : issued c ps waits chk wide s with
  | none => simp [e] at h
  | some x => exact ⟨x.1, x.2, issues_of_issued e, by simpa [e] using h⟩

/-- Where each of the lists of uses issues. -/
theorem all_issue {s : State} {c : Ctl} {wide : Bool} {uss : List (List Use)}
    (h : uss.all (fun us => (issued c [(c.guard, us)] 0 (fun _ => us) wide s).isSome) = true) :
    ∀ us ∈ uss, ∃ v m, IssuesW c us wide s v m := by
  intro us hu
  have h := List.all_eq_true.mp h us hu
  cases e : issued c [(c.guard, us)] 0 (fun _ => us) wide s with
  | none => rw [e] at h; cases h
  | some x => exact ⟨x.1, x.2, issues_of_issued e⟩

/-- A pack of core 0 at VA 0, with 512 rows, a scratchpad window of 8 KiB at 4096 and uniform registers as given. -/
def onCore (regs : List (SReg × W64)) : State :=
  let s := (State.reset.withFetchWord 64 0x01F80345).updCore 0 (fun c => { c.updPack 0 (fun p =>
    { p with size := 512, s := regs.foldl (fun m e => ins m e.1.toNat e.2) [] }) with wins := [⟨0, 0, 0, 4096, 8192, [0], 0⟩] })
  { s with cur := ⟨0, 0, 0⟩, agenda := [] }

/-- The loop of service core 0. -/
def onService (regs : List (SReg × W64)) : State :=
  let s := (State.reset.withFetchWord 64 0x01F803A1).updCore 64 (fun c => c.updPack 0 (fun p =>
    { p with s := regs.foldl (fun m e => ins m e.1.toNat e.2) [] }))
  { s with cur := ⟨64, 0, 0⟩, agenda := [] }

/-- The uses of the integer and control statements, at the ends of the register files: s63, w1023's limits within the window, p7. -/
theorem witness_integer_uses : ∀ us ∈ ([
    [.ds 1, .s 1 2] ++ useU 2 (.reg 63), [.ds 63, .s 1 2] ++ useU 2 (.imm 3), [.dv (it64 .i64) 255, useV 1 true (vs 0)] ++ useO 2 true (.v (vs 1)),
    [.dv (it64 .i32) 511, useV 1 false (vs 0)] ++ useO 2 false (.s 1), [.dv false 0, useV 1 false (vs 0)] ++ useO 2 false (.imm 1),
    [.ds 1, .s 1 2], [.ds 1, .s 1 2, .s 2 3] ++ useU 3 (.reg 4), [.ds 1, .s 1 2, .s 2 3, .s 3 4], [.ds 1],
    [.dv false 1, useV 1 false (vs 2)], [.dv true 1, useV 1 true (vs 2)] ++ useU 2 (.reg 3),
    [.dv false 1, useV 1 false (vs 2), useV 2 false (vs 3)] ++ useU 3 (.imm 3), [.dv false 1, useV 1 false (vs 2), .p 3 7] ++ useO 2 false (.s 4),
    [.dv true 3], [.dp 1, useV 1 false (vs 2)] ++ useO 2 false (.v (vs 3)), [.dv false 1, useV 1 false (vs 2), useV 3 false (vs 4)] ++ useO 2 false (.v (vs 3)),
    [.dp 7, .p 1 1, .p 2 2], [.dp 0, .p 1 7], [.dp 0, .s 1 1, .s 1 2, .s 1 3], [], [.s 1 4], [.v 1 true 5], [useV 1 false (vs 3), .s 2 4, .s 3 5]
    ] : List (List Use)), ∃ v m, IssuesW lg us false (onCore []) v m := all_issue (by decide)

/-- The uses of the affine, promotion, float, conversion, exchange and random statements. -/
theorem witness_other_uses : ∀ us ∈ ([
    [.da 31], [.da 1, .a 1 2, .a 2 3], [.da 1, .a 1 2] ++ useU 2 (.reg 3), [.da 1, .s 1 2] ++ useU 2 (.imm 3), [.dv (pt64 .i64) 5, .s 1 2],
    [.dv (it64 .i32) 4, .a 1 0], [.ds 5, .a 1 0], [.ds 1, .s 1 2, .s 2 3],
    [.dv (ty64 .i64) 1, useV 1 (ty64 .f32) (vs 4)] ++ useR 2 .rne (vs 0), [.dv (ty64 .f16) 1, useV 1 (ty64 .f32) (vs 4)] ++ useR 2 .sr (vs 6),
    [.dv false 1, useV 1 false (vs 2), useV 2 false (vs 3)] ++ useR 3 .sr (vs 4) ++ [.v 0 false 1],
    [.dv false 1, useV 1 false (vs 2), useV 2 false (vs 3)] ++ useO 3 false (.v (vs 4)), [.dv (!false) 1, .s 2 3] ++ useCtr (.w (vs 4)),
    [.dp 1, .s 2 3] ++ useCtr (.a 4) ++ useU 3 (.imm 5), [.ds 1] ++ useU 1 (.imm 64), useU 1 (.reg 2)
    ] : List (List Use)), ∃ v m, IssuesW lg us false (onCore []) v m := all_issue (by decide)

/-- The uses of the pack-wide statements. -/
theorem witness_wide_uses : ∀ us ∈ ([
    [.ds 1, .p 1 2], [.ds 1, .ds 2, .ds 3, .p 1 7], [.ds 60, .ds 61, .ds 62, .p 1 2], [.ds 5, useV 1 (pt64 .i32) (vs 3)],
    [.ds 5, useV 1 (pt64 .n64) (vs 3)] ++ useU 2 (.reg 63), [.dv false 1, useV 1 false (vs 2)] ++ useO 2 false (.imm 3),
    [.dv false 1, useV 1 false (vs 2)] ++ useU 2 (.imm 95), [.dv false 1, useV 1 false (vs 2), .p 2 3], []
    ] : List (List Use)), ∃ v m, IssuesW lg us true (onCore []) v m := all_issue (by decide)

/-- The uses of the privileged statements, on a service core. -/
theorem witness_service_uses : ∀ us ∈ ([
    [.s 1 1, .s 2 2, .s 2 3, .s 2 4], [.ds 1, .s 1 2], [.ds 1, .s 1 2, .s 2 3], [.s 1 1, .s 2 2], [.ds 1, .s 1 2, .s 2 3, .s 2 4, .s 2 5],
    [.ds 1, .ds 2, .ds 3, .ds 4], [], [.s 1 7]
    ] : List (List Use)), ∃ v m, IssuesW sh us false (onService []) v m := all_issue (by decide)

/-- Nothing makes the load wait, computed. -/
def clearLoad (u : View) (n : Nat) (uni acq : Bool) (ls : List (Nat × Nat)) : Bool :=
  match u.phase1 ⟨kRead, false, n, uni, fun _ => false⟩ ls with
  | .ok (w, good) => u.acqBusy == false && (!acq || u.syncBusy == false) && (w.loadOthers n good).isEmpty && w.loadStalls n good == false
  | .error _ => false

theorem loadClear_of {u : View} {n : Nat} {uni acq : Bool} {ls : List (Nat × Nat)} (h : clearLoad u n uni acq ls = true) :
    ∃ w good, u.loadClear w n uni acq ls good := by
  unfold clearLoad at h
  split at h
  · rename_i w good e
    refine ⟨w, good, ?_⟩
    cases acq <;> simp_all [View.loadClear]
  · cases h

/-- Nothing makes the store wait, computed. -/
def clearStore (u : View) (n : Nat) (uni : Bool) (rel : Option Scope) (data : Nat → W64) (ls : List (Nat × Nat)) : Bool :=
  match u.phase1 ⟨kWrite, true, n, uni, fun _ => false⟩ ls with
  | .ok (x, good) =>
    u.acqBusy == false &&
    (match (match rel with | none => some x | some sc => (match x.release sc false with | .go w => some w | _ => none)) with
      | some w => (match w.readyClaims (w.storeClaiming rel) (withCover (storeWords n (hbmData data good))) with | .go _ _ => true | _ => false)
      | none => false)
  | .error _ => false

theorem storeClear_of {u : View} {n : Nat} {uni : Bool} {rel : Option Scope} {data : Nat → W64} {ls : List (Nat × Nat)}
    (h : clearStore u n uni rel data ls = true) : ∃ w good t bad, u.storeClear w n uni rel data ls good t bad := by
  unfold clearStore at h
  split at h
  · rename_i x good e
    simp only [Bool.and_eq_true, beq_iff_eq] at h
    obtain ⟨ha, h⟩ := h
    split at h
    · rename_i w hw
      split at h
      · rename_i t bad hc
        refine ⟨w, good, t, bad, ha, x, e, ?_, hc⟩
        cases rel with
        | none => simp_all
        | some sc => dsimp only at hw ⊢; split at hw <;> simp_all
      · cases h
    · cases h
  · cases h

/-- Nothing makes the atomic wait, computed. -/
def clearAtomic (u : View) (op : AOp) (aq rl : Bool) (n : Nat) (sc : Scope) (uni : Bool) (ls : List (Nat × Nat)) : Bool :=
  match u.phase1 ⟨kAtomic, true, n, uni, fun _ => !hostAtomic op⟩ ls with
  | .ok (x, good) => u.acqBusy == false && (!aq || u.syncBusy == false) &&
    (match (if rl then (match x.release sc false with | .go w => some w | _ => none) else some x) with
      | some w => (w.atomicWait n (rl && w.pk.lazyMode && !w.svc && scopeNo sc != 0) good).isNone
      | none => false)
  | .error _ => false

theorem atomicClear_of {u : View} {op : AOp} {aq rl : Bool} {n : Nat} {sc : Scope} {uni : Bool} {ls : List (Nat × Nat)}
    (h : clearAtomic u op aq rl n sc uni ls = true) : ∃ w good, u.atomicClear w op aq rl n sc uni ls good := by
  unfold clearAtomic at h
  split at h
  · rename_i x good e
    simp only [Bool.and_eq_true, beq_iff_eq, Bool.or_eq_true, Bool.not_eq_true'] at h
    obtain ⟨⟨ha, hq⟩, hr⟩ := h
    have hq' : aq = true → u.syncBusy = false := by rintro rfl; simpa using hq
    split at hr
    · rename_i w hw
      refine ⟨w, good, ha, hq', x, e, ?_, by simpa using hr⟩
      cases rl with
      | false => simpa using hw.symm
      | true =>
        simp only [if_true] at hw ⊢
        split at hw <;> simp_all
    · cases hr
  · cases h

/-- Nothing makes a VLR or a REG wait, computed. -/
def clearWhole (u : View) (n : Nat) (uni : Bool) (wr : Option Bool) (full : Bool) (ls : List (Nat × Nat)) : Bool :=
  match u.phase1 ⟨kWrite, true, n, uni, fun _ => true⟩ ls with
  | .ok (w, good) => u.acqBusy == false &&
      (match w.readyClaims (w.wholeClaiming wr) (wholeClaims n good full) with | .go _ _ => true | _ => false)
  | .error _ => false

theorem wholeClear_of {u : View} {n : Nat} {uni : Bool} {wr : Option Bool} {full : Bool} {ls : List (Nat × Nat)}
    (h : clearWhole u n uni wr full ls = true) : ∃ w good t bad, u.wholeClear w n uni wr full ls good t bad := by
  unfold clearWhole at h
  split at h
  · rename_i w good e
    simp only [Bool.and_eq_true, beq_iff_eq] at h
    obtain ⟨ha, h⟩ := h
    split at h
    · rename_i t bad hc
      exact ⟨w, good, t, bad, ha, e, hc⟩
    · cases h
  · cases h

/-- The same pack with lanes 0 and 1 only. -/
def twoLanes (s : State) : State :=
  s.updCore 0 (fun c => c.updPack 0 (fun p => { (p.updSplit 0 (fun x => { x with mask := 3, owned := 3 })) with lmask := 3, live := 3 }))

/-- Two lanes, with a guard of the given ones in p0. -/
def oneOf (g : W32) : State := (twoLanes (onCore [])).updCore 0 (fun c => c.updPack 0 (fun p => { p with p := [(0, g.setWidth 96)] }))

/-- GlobalLoads: a uniform load and acquire at VA 0x100 and at the top of the page, and an affine one. -/
theorem witness_loads :
    (∃ v m, IssuesW wd [.ds 1, .s 1 4] false (onCore [(4, 0x100)]) v m ∧ v.windowed 4 0 = none ∧
      ∃ w good, v.loadClear w 4 true false (v.ea1 4 0) good) ∧
    (∃ v m, IssuesW wd [.ds 1, .s 1 4] false (onCore [(4, 0xFF8)]) v m ∧ v.windowed 4 0 = none ∧
      ∃ w good, v.loadClear w 8 true true (v.ea1 4 0) good) ∧
    (∃ v m, IssuesW wd ([.dv (ty64 .i32) 3] ++ useAddr true (.a 2)) false (twoLanes (onCore [])) v m ∧
      ∃ w good, (v.lastAddr true (.a 2) m).loadClear w 4 (adU (.a 2)) false (v.eas (.a 2) 0x40 m) good) := by
  refine ⟨?_, ?_, ?_⟩
  · obtain ⟨v, m, h, p⟩ := issues_with (c := wd) (ps := [(7, [.ds 1, .s 1 4])]) (waits := 0) (chk := fun _ => [.ds 1, .s 1 4])
      (wide := false) (s := onCore [(4, 0x100)])
      (fun v _ => decide (v.windowed 4 0 = none) && clearLoad v 4 true false (v.ea1 4 0)) (by decide)
    simp only [Bool.and_eq_true, decide_eq_true_eq] at p
    exact ⟨v, m, h, p.1, loadClear_of p.2⟩
  · obtain ⟨v, m, h, p⟩ := issues_with (c := wd) (ps := [(7, [.ds 1, .s 1 4])]) (waits := 0) (chk := fun _ => [.ds 1, .s 1 4])
      (wide := false) (s := onCore [(4, 0xFF8)])
      (fun v _ => decide (v.windowed 4 0 = none) && clearLoad v 8 true true (v.ea1 4 0)) (by decide)
    simp only [Bool.and_eq_true, decide_eq_true_eq] at p
    exact ⟨v, m, h, p.1, loadClear_of p.2⟩
  · obtain ⟨v, m, h, p⟩ := issues_with (c := wd) (ps := [(7, [.dv (ty64 .i32) 3] ++ useAddr true (.a 2))]) (waits := 0)
      (chk := fun _ => [.dv (ty64 .i32) 3] ++ useAddr true (.a 2)) (wide := false) (s := twoLanes (onCore []))
      (fun v m => clearLoad (v.lastAddr true (.a 2) m) 4 (adU (.a 2)) false (v.eas (.a 2) 0x40 m)) (by decide)
    exact ⟨v, m, h, loadClear_of p⟩

/-- GlobalStores: a uniform store and release store, and a varying one. -/
theorem witness_stores :
    (∃ v m, IssuesW wd [.s 1 4, .s 2 5] false (onCore [(4, 0x100)]) v m ∧ v.windowed 4 0 = none ∧
      (∃ w good t bad, v.storeClear w 4 true none (fun _ => v.rs 5) (v.ea1 4 0) good t bad) ∧
      ∃ w good t bad, v.storeClear w 4 true (some .device) (fun _ => v.rs 5) (v.ea1 4 0) good t bad) ∧
    (∃ v m, IssuesW wd (useAddr true (.v (vs 2)) ++ [useV 2 false (vs 3)]) false (twoLanes (onCore [])) v m ∧
      ∃ w good t bad, ((v.lastAddr true (.v (vs 2)) m).lastUse false (vs 3) m).storeClear w 4 (adU (.v (vs 2))) none
        (el (v.vs false (vs 3))) (v.eas (.v (vs 2)) 0x40 m) good t bad) := by
  refine ⟨?_, ?_⟩
  · obtain ⟨v, m, h, p⟩ := issues_with (c := wd) (ps := [(7, [.s 1 4, .s 2 5])]) (waits := 0) (chk := fun _ => [.s 1 4, .s 2 5])
      (wide := false) (s := onCore [(4, 0x100)])
      (fun v _ => decide (v.windowed 4 0 = none) && clearStore v 4 true none (fun _ => v.rs 5) (v.ea1 4 0) &&
        clearStore v 4 true (some .device) (fun _ => v.rs 5) (v.ea1 4 0)) (by decide)
    simp only [Bool.and_eq_true, decide_eq_true_eq] at p
    exact ⟨v, m, h, p.1.1, storeClear_of p.1.2, storeClear_of p.2⟩
  · obtain ⟨v, m, h, p⟩ := issues_with (c := wd) (ps := [(7, useAddr true (.v (vs 2)) ++ [useV 2 false (vs 3)])]) (waits := 0)
      (chk := fun _ => useAddr true (.v (vs 2)) ++ [useV 2 false (vs 3)]) (wide := false) (s := twoLanes (onCore []))
      (fun v m => clearStore ((v.lastAddr true (.v (vs 2)) m).lastUse false (vs 3) m) 4 (adU (.v (vs 2))) none (el (v.vs false (vs 3)))
        (v.eas (.v (vs 2)) 0x40 m)) (by decide)
    exact ⟨v, m, h, storeClear_of p⟩

/-- Atomics, ReservationsAndRegistration. -/
theorem witness_atomics :
    (∃ v m, IssuesW wd ([.ds 1, .s 1 4, .s 2 5] ++ [.s 3 6]) false (onCore [(4, 0x100)]) v m ∧
      ∃ w good, v.atomicClear w .cas true true 4 .device true (v.ea1 4 0) good) ∧
    (∃ v m, IssuesW wd ([.dv false 1] ++ useAddr true (.u 4)) false (twoLanes (onCore [(4, 0x100)])) v m ∧
      ∃ w good t bad, (v.lastAddr true (.u 4) m).wholeClear w 4 (adU (.u 4)) none false (v.eas (.u 4) 0 m) good t bad) ∧
    (∃ v m, IssuesW wd (useAddr true (.u 4)) false (twoLanes (onCore [(4, 0x100)])) v m ∧
      ∃ w good t bad, (v.lastAddr true (.u 4) m).wholeClear w 4 (adU (.u 4)) (some true) true (v.eas (.u 4) 0 m) good t bad) := by
  refine ⟨?_, ?_, ?_⟩
  · obtain ⟨v, m, h, p⟩ := issues_with (c := wd) (ps := [(7, [.ds 1, .s 1 4, .s 2 5] ++ [.s 3 6])]) (waits := 0)
      (chk := fun _ => [.ds 1, .s 1 4, .s 2 5] ++ [.s 3 6]) (wide := false) (s := onCore [(4, 0x100)])
      (fun v _ => clearAtomic v .cas true true 4 .device true (v.ea1 4 0)) (by decide)
    exact ⟨v, m, h, atomicClear_of p⟩
  · obtain ⟨v, m, h, p⟩ := issues_with (c := wd) (ps := [(7, [.dv false 1] ++ useAddr true (.u 4))]) (waits := 0)
      (chk := fun _ => [.dv false 1] ++ useAddr true (.u 4)) (wide := false) (s := twoLanes (onCore [(4, 0x100)]))
      (fun v m => clearWhole (v.lastAddr true (.u 4) m) 4 (adU (.u 4)) none false (v.eas (.u 4) 0 m)) (by decide)
    exact ⟨v, m, h, wholeClear_of p⟩
  · obtain ⟨v, m, h, p⟩ := issues_with (c := wd) (ps := [(7, useAddr true (.u 4))]) (waits := 0)
      (chk := fun _ => useAddr true (.u 4)) (wide := false) (s := twoLanes (onCore [(4, 0x100)]))
      (fun v m => clearWhole (v.lastAddr true (.u 4) m) 4 (adU (.u 4)) (some true) true (v.eas (.u 4) 0 m)) (by decide)
    exact ⟨v, m, h, wholeClear_of p⟩

/-- The conditions of the Ordering, WaitOnAddress, BarrierObjects, ScratchLoads and ScratchStores statements: what FENCE, ACQ and REL wait
for is over, and operands at the ends of the window are in bounds, and beyond it are not. -/
theorem witness_scratch :
    (∃ v m, IssuesW lg [] false (onCore []) v m ∧ (decide (v.outstanding (fun o => o.kind.reads || o.acq) = false) &&
      decide (v.syncBusy = false) && (match v.release .device true with | .go _ => true | _ => false)) = true) ∧
    (∃ v m, IssuesW lg [.ds 1, .s 1 4, .s 2 5] false (onCore [(4, 8176)]) v m ∧
      ((v.spFault kRead 8 true true (v.so1 4 8)).isNone && (v.spFault kRead 8 true true (v.so1 4 16)).isSome &&
        (v.co.winOf v.slot).isSome && (match v.operand 8176 16 16 kWrite with | .ok _ => true | _ => false) &&
        (match v.operand 8192 16 16 kWrite with | .ok _ => false | _ => true) &&
        (match v.operand 8 16 16 kWrite with | .ok _ => false | _ => true)) = true) := by
  exact ⟨issues_with (c := lg) (ps := [(7, [])]) (waits := 0) (chk := fun _ => []) _ (by decide),
    issues_with (c := lg) (ps := [(7, [.ds 1, .s 1 4, .s 2 5])]) (waits := 0) (chk := fun _ => [.ds 1, .s 1 4, .s 2 5]) _ (by decide)⟩

/-- The queue words of WAITQ.ALL, an SVC record's registers, and the matrix instructions' operands issue; a word waits, and a guard can
leave no lane. -/
theorem witness_special_issues :
    (∃ v m, Issues lg [(7, [])] 0x3F (fun _ => []) false (onCore []) v m ∧ true = true) ∧
    (∃ v m, Issues lg [(7, [.v 1 false 4])] 0 (fun _ => [.vs 1 4 6]) false (onCore []) v m ∧ true = true) ∧
    (∃ v m, Issues wd [(7, [.s 1 4, .s 2 5])] 0 (fun _ => [.dc 3]) true (onCore [(5, 32)]) v m ∧
      ((v.missingLane m).isNone && (match v.tileAt 0 with | .ok b => (recordFlaw b (.a false)).isSome | _ => false)) = true) ∧
    (∃ v m, Issues wd [(7, [.s 3 4])] 0 (fun _ => [.dc 0, .c 1 2, useV 2 false (vs 511)]) true (onCore [(4, 7680)]) v m ∧
      ((v.missingLane m).isNone && (v.scaleFault 7680).isNone) = true) ∧
    (∃ v m, Issues lg [(7, [.s 2 4])] 0 (fun _ => [.dvs 0 (mcvtRows .f16), .c 1 1]) true (onCore []) v m ∧ true = true) ∧
    (∃ v0, (onCore []).view = some v0 ∧ v0.ready ⟨.short, 0, 1, 7, 7⟩ 0 [] ≠ none ∧ v0.act 0 = 0) :=
  ⟨issues_with (fun _ _ => true) (by decide), issues_with (fun _ _ => true) (by decide), issues_with _ (by decide),
    issues_with _ (by decide), issues_with (fun _ _ => true) (by decide), by
      cases e : (onCore []).view with
      | none => exact absurd e (by decide)
      | some v0 => exact ⟨v0, rfl, by revert e; decide +revert, by revert e; decide +revert⟩⟩

/-- The same state with bytes in the pack's scratchpad window. -/
def withWindow (s : State) (o : Nat) (bs : List Byte) : State := s.updCore 0 (fun c => c.spPut (4096 + o) bs)

/-- A tile record: one row of 16 F16 elements at VA 0x1000. -/
def tile16 : List Byte := bytesOf 8 0x1000 ++ bytesOf 4 32 ++ [5, 0] ++ bytesOf 2 1 ++ bytesOf 2 16 ++ List.replicate 14 0

/-- MatrixIssue and TilePins: a sound record whose operand the pack has staged and pins. -/
theorem witness_matrix :
    ∃ v m, Issues wd [(7, [.s 1 4, .s 2 4])] 0 (fun _ => [.dc 3]) true
        ((withWindow (onCore []) 0 tile16).updCore 0 (fun c =>
          { c with stage := [{ (stageFor 1 tile16) with pins := [0], stamp := 1 }] })) v m ∧
      ((v.missingLane m).isNone && (match v.tileAt 0 with
        | .ok b => (recordFlaw b (.a false)).isNone && (recordFlaw b (.b false)).isNone && (recordFlaw b .pin).isNone &&
            pairFlaw (tileRec b) (tileRec b) false false == false &&
            (match (v.takePlace (matOp (.mma false false false 0 0) (v.crow 3))).stageAll [stageFor v.pk.asid b, stageFor v.pk.asid b] with
              | .go w _ => (w.matrixReady (tileHas (w.crow 3))).isSome
              | _ => false)
        | .error _ => false)) = true := issues_with _ (by decide)

/-- Messages: a sound queue with one entry; the same queue without; a channel that is not bound. -/
theorem witness_messages :
    (∃ v m, Issues lg [(7, [.ds 1, .s 1 4])] 0 (fun _ => [.ds 1, .s 1 4]) false
        (withWindow (onCore []) 0 (bytesOf 4 64 ++ bytesOf 2 2 ++ [0, 1] ++ bytesOf 4 0 ++ bytesOf 4 1)) v m ∧
      (match v.operand 0 32 32 kWrite with
        | .ok w => ((v.co.qdesc w 0).flaw w.size none).isNone && (v.co.qdesc w 0).count == 1 && (v.co.qdesc w 0).depth == 2 &&
            (v.pk.mqch 0).getLsbD 63 == false
        | .error _ => false) = true) ∧
    (∃ v m, Issues lg [(7, [.ds 1, .s 1 4])] 0 (fun _ => [.ds 1, .s 1 4]) false
        (withWindow (onCore []) 0 (bytesOf 4 64 ++ bytesOf 2 2 ++ [0, 1])) v m ∧
      (match v.operand 0 32 32 kWrite with
        | .ok w => ((v.co.qdesc w 0).flaw w.size none).isNone && (v.co.qdesc w 0).count == 0
        | .error _ => false) = true) :=
  ⟨issues_with _ (by decide), issues_with _ (by decide)⟩

/-- TransfersAndRemoteArrivals: a record of one row of 4 bytes that passes, whose release is over; a name that does not resolve. -/
theorem witness_transfer :
    ∃ v m, Issues lg [(7, [.s 1 4])] 0 (fun _ => [.s 1 4]) false
        (withWindow (onCore []) 0 (List.replicate 16 0 ++ bytesOf 4 4 ++ bytesOf 2 1)) v m ∧
      ((match v.operand 0 64 64 kRead with
        | .ok w => (v.xferFlaw w (v.co.xferRec w 0).1 (v.co.xferRec w 0).2).isNone && (match v.release (Machine.scopeOf 0) true with | .go _ => true | _ => false)
        | .error _ => false) && (v.s.resolve v.pk.launch v.pk.wg 0 16).isNone) = true := issues_with _ (by decide)

/-- ExceptionTaken and ExceptionReturn: a compute pack that is not stopped; a service core in its handler, and outside it, drained. -/
theorem witness_exceptions :
    (∃ v m, Issues sh [(7, [])] 0 (fun _ => []) false (onCore []) v m ∧
      (decide (v.ix < v.pk.splits.length) && v.svc == false && v.pk.stop.isNone) = true) ∧
    (∃ v m, Issues sh [(7, [])] 0 (fun _ => []) false (onService []) v m ∧ (decide (v.ix < v.pk.splits.length) && v.co.exl) = true) ∧
    (∃ v m, Issues sh [(7, [])] 0 (fun _ => []) false ((onService []).updCore 64 (fun c => { c with exl := false })) v m ∧
      (decide (v.ix < v.pk.splits.length) && v.svc && v.co.drained && v.co.exl == false && v.co.pendingEvent == false) = true) :=
  ⟨issues_with _ (by decide), issues_with _ (by decide), issues_with _ (by decide)⟩

/-- ServiceInstructions: a handle of no pack, a handle of a resident pack, an event to take, and a range for ZAP. -/
theorem witness_service :
    (∃ v m, Issues sh [(7, [.ds 1, .s 1 4])] 0 (fun _ => [.ds 1, .s 1 4]) false (onService [(4, 3)]) v m ∧
      ((v.handlePack (v.rs 4)).isNone && v.co.takeEvent.isNone && v.s.reachable (v.s.partOfAgent v.ag) 0x40 && isHbm 0x40) = true) ∧
    (∃ v m, Issues sh [(7, [.ds 1, .s 1 4])] 0 (fun _ => [.ds 1, .s 1 4]) false
        ((onService [(4, 3)]).updCore 0 (fun c => { c with packs := ins c.packs 3 (placedPack 0) })) v m ∧
      (match v.handlePack (v.rs 4) with | some (n, k, p) => n == 0 && k == 3 && p.stop.isNone && v.sp.phase == 0 | none => false) = true) ∧
    (∃ v m, Issues sh [(7, [.ds 1, .ds 2, .ds 3, .ds 4])] 0 (fun _ => []) false
        ((onService []).updCore 64 (fun c => { c with mailbox := [⟨1, 2, 3, 4⟩] })) v m ∧ v.co.takeEvent.isSome = true) :=
  ⟨issues_with _ (by decide), issues_with _ (by decide), issues_with _ (by decide)⟩

/-- StepRunsIssue: the fetch of a placed word gives bytes that decode. -/
theorem witness_step :
    (match (State.reset.withFetchWord 64 0x01F80345).agenda with
      | [.issue p] =>
        (match ({ (State.reset.withFetchWord 64 0x01F80345) with agenda := [] } : State).selectable p with
          | some v => (match v.fetch with
            | .bytes w bs => w.sp.pc.toNat == 0 && (match decode w.svc bs with | .ok _ => true | _ => false)
            | _ => false)
          | none => false)
      | _ => false) = true := by decide

/-- ResetState, MemoryCanonical, MasksKept: the state after reset meets the two invariants, and so does a state with a resident pack. -/
theorem witness_invariants :
    Memory.wf State.reset.mem = true ∧ State.reset.masksOk = true ∧ Memory.wf (onCore []).mem = true ∧ (onCore []).masksOk = true := by
  decide

/-- CoherenceMessages: a message of a channel, the oldest of two. -/
theorem witness_message :
    takeMsg 1 128 ([⟨1, 128, .wbd 0 15 5⟩, ⟨0, 128, .loss [3]⟩, ⟨1, 128, .loss [4]⟩] : List Msg) =
      some (.wbd 0 15 5, [⟨0, 128, .loss [3]⟩, ⟨1, 128, .loss [4]⟩]) := by decide

/-- CoreEvents: registers asked for that the core has, a late broadcast, a woken service core, a split that may issue. -/
theorem witness_core_events :
    (let s := (onCore []).updCore 0 (fun c => { c with grow := [⟨0, 0, 600, 0⟩] })
     match (s.core 0).grow, look (s.core 0).packs 0 with
      | g :: _, some p => decide (p.size < g.n) && decide (g.n - p.size ≤ (s.core 0).freeRows)
      | _, _ => false) = true ∧
    (let s := { onCore [] with time := 1000 }
     decide ((s.core 0).lastBcast + 256 < s.time)) = true ∧
    (let s := (onService []).updCore 64 (fun c => { c with halted := true, mailbox := [⟨1, 2, 3, 4⟩] })
     (s.core 64).halted && (s.core 64).pendingEvent && (s.core 64).takeEvent.isSome) = true ∧
    (((onCore []).selectable ⟨0, 0, 0⟩).isSome && ((onCore []).quietAt ⟨0, 0, 0⟩).isSome) = true := by decide

/-- PartitionAndBootEvents: each phase and each partition state that a clause names can be held by one state. -/
theorem witness_boot_events :
    State.reset.phase = 0 ∧ State.reset.partSt 0 = 0 ∧ State.reset.enabled 0 = false ∧ (State.reset.setPhase 2).phase = 2 ∧
    (State.reset.setPhase 4).phase = 4 ∧ (State.reset.setPhase 6).phase = 6 ∧ (State.reset.setSt 31 3).partSt 31 = 3 ∧
    (State.reset.setSt 1 4).partSt 1 = 4 ∧ ((State.reset.setSt 1 5).partSt 1 = 5 ∧ (State.reset.setSt 1 5).pend 1 = 0) := by decide

/-- HostAndPeerEvents and ExchangeAndQueueEvents: nothing valid is bound, no migration is under way, presence and a free owner slot, an
unbound function, and a partition that is READY with no slice run out. -/
theorem witness_host_events :
    State.reset.bound 0 = false ∧ State.reset.migSt 384 = 0 ∧ State.reset.activating = false ∧ look State.reset.owners 1 = none ∧
    ({ State.reset with presence := true } : State).presence = true ∧
    ((State.reset.setSt 0 3).partSt 0 = 3 ∧ ((State.reset.setSt 0 3).dist 0).expired = false) := by decide

/-! ### States that meet the conditions on the state alone -/

/-- GlobalLoads, GlobalStores: at VA 0x100, at the end of a page, by a varying register with two lanes on one word, and by an affine one. -/
theorem witness_free_loads :
    (∃ v m, IssuesW wd [.ds 1, .s 1 4] false (onCore [(4, 0xFFF8)]) v m ∧ v.windowed 4 0 = none ∧
      v.loadable 8 false (v.ea1 4 0) ∧ v.loadable 8 true (v.ea1 4 0)) ∧
    (∃ v m, IssuesW wd ([.dv (ty64 .i32) 3] ++ useAddr true (.a 2)) false (twoLanes (onCore [])) v m ∧
      let u := v.lastAddr true (.a 2) m
      u.loadable 4 false (v.eas (.a 2) 0x40 m) ∧ u.loadable 4 true (v.eas (.a 2) 0x40 m)) := by
  constructor
  · obtain ⟨v, m, h, p⟩ := issues_with (c := wd) (ps := [(7, [.ds 1, .s 1 4])]) (waits := 0) (chk := fun _ => [.ds 1, .s 1 4])
      (wide := false) (s := onCore [(4, 0xFFF8)]) (fun v _ => decide (v.windowed 4 0 = none ∧
        v.loadable 8 false (v.ea1 4 0) ∧ v.loadable 8 true (v.ea1 4 0))) (by decide)
    exact ⟨v, m, h, of_decide_eq_true p⟩
  · obtain ⟨v, m, h, p⟩ := issues_with (c := wd) (ps := [(7, [.dv (ty64 .i32) 3] ++ useAddr true (.a 2))]) (waits := 0)
      (chk := fun _ => [.dv (ty64 .i32) 3] ++ useAddr true (.a 2)) (wide := false) (s := twoLanes (onCore []))
      (fun v m => decide ((v.lastAddr true (.a 2) m).loadable 4 false (v.eas (.a 2) 0x40 m) ∧
        (v.lastAddr true (.a 2) m).loadable 4 true (v.eas (.a 2) 0x40 m))) (by decide)
    exact ⟨v, m, h, of_decide_eq_true p⟩

set_option synthInstance.maxSize 1024 in
/-- GlobalStores: a store and release stores, at one address and by a varying register with two lanes. -/
theorem witness_free_stores :
    (∃ v m, IssuesW wd [.s 1 4, .s 2 5] false (onCore [(4, 0x100)]) v m ∧ v.windowed 4 0 = none ∧
      v.storable 4 none (fun _ => v.rs 5) (v.ea1 4 0) ∧ v.storable 4 (some .system) (fun _ => v.rs 5) (v.ea1 4 0)) ∧
    (∃ v m, IssuesW wd (useAddr true (.v (vs 2)) ++ [useV 2 false (vs 3)]) false (twoLanes (onCore [])) v m ∧
      let u := (v.lastAddr true (.v (vs 2)) m).lastUse false (vs 3) m
      u.storable 4 none (el (v.vs false (vs 3))) (v.eas (.v (vs 2)) 0x40 m) ∧
      u.storable 4 (some .device) (el (v.vs false (vs 3))) (v.eas (.v (vs 2)) 0x40 m)) := by
  constructor
  · obtain ⟨v, m, h, p⟩ := issues_with (c := wd) (ps := [(7, [.s 1 4, .s 2 5])]) (waits := 0) (chk := fun _ => [.s 1 4, .s 2 5])
      (wide := false) (s := onCore [(4, 0x100)]) (fun v _ => decide (v.windowed 4 0 = none ∧
        v.storable 4 none (fun _ => v.rs 5) (v.ea1 4 0) ∧ v.storable 4 (some .system) (fun _ => v.rs 5) (v.ea1 4 0))) (by decide)
    exact ⟨v, m, h, of_decide_eq_true p⟩
  · obtain ⟨v, m, h, p⟩ := issues_with (c := wd) (ps := [(7, useAddr true (.v (vs 2)) ++ [useV 2 false (vs 3)])]) (waits := 0)
      (chk := fun _ => useAddr true (.v (vs 2)) ++ [useV 2 false (vs 3)]) (wide := false) (s := twoLanes (onCore []))
      (fun v m => decide (((v.lastAddr true (.v (vs 2)) m).lastUse false (vs 3) m).storable 4 none (el (v.vs false (vs 3)))
        (v.eas (.v (vs 2)) 0x40 m) ∧ ((v.lastAddr true (.v (vs 2)) m).lastUse false (vs 3) m).storable 4 (some .device)
        (el (v.vs false (vs 3))) (v.eas (.v (vs 2)) 0x40 m))) (by decide)
    exact ⟨v, m, h, of_decide_eq_true p⟩

set_option synthInstance.maxSize 1024 in
/-- Atomics, ReservationsAndRegistration. -/
theorem witness_free_atomics :
    (∃ v m, IssuesW wd ([.ds 1, .s 1 4, .s 2 5] ++ [.s 3 6]) false (onCore [(4, 0x100)]) v m ∧ v.windowed 4 0 = none ∧
      v.atomicReady .cas true true 4 .device (v.ea1 4 0)) ∧
    (∃ v m, IssuesW wd ([.dv false 1] ++ useAddr true (.u 4) ++ [useV 2 false (vs 2)]) false (twoLanes (onCore [(4, 0x100)])) v m ∧
      ((v.lastAddr true (.u 4) m).lastUse false (vs 2) m).atomicReady .add false true 4 .pack (v.eas (.u 4) 0 m)) ∧
    (∃ v m, IssuesW wd ([.dv false 1] ++ useAddr true (.u 4)) false (twoLanes (onCore [(4, 0x100)])) v m ∧
      let u := v.lastAddr true (.u 4) m
      u.wordsReady kWrite true 4 (v.eas (.u 4) 0 m) ∧
      u.claimable (u.wholeClaiming none) (wholeClaims 4 (u.located true (v.eas (.u 4) 0 m)) false)) ∧
    (∃ v m, IssuesW wd ([.dp 1] ++ useAddr true (.u 4) ++ [useV 2 false (vs 2)]) false (twoLanes (onCore [(4, 0x100)])) v m ∧
      ((v.lastAddr true (.u 4) m).lastUse false (vs 2) m).wordsReady kWrite true 4 (v.eas (.u 4) 0 m)) ∧
    (∃ v m, IssuesW wd (useAddr true (.u 4)) false (twoLanes (onCore [(4, 0x100)])) v m ∧
      let u := v.lastAddr true (.u 4) m
      u.wordsReady kWrite true 4 (v.eas (.u 4) 0 m) ∧
      u.claimable (u.wholeClaiming (some (records u.ag))) (wholeClaims 4 (u.located true (v.eas (.u 4) 0 m)) true) ∧
      u.wordsReady kRead false 4 (v.eas (.u 4) 0 m) ∧ u.returnable ((u.located false (v.eas (.u 4) 0 m)).flatMap (fun g => wordsOf g.pa 4))) := by
  refine ⟨?_, ?_, ?_, ?_, ?_⟩
  · obtain ⟨v, m, h, p⟩ := issues_with (c := wd) (ps := [(7, [.ds 1, .s 1 4, .s 2 5] ++ [.s 3 6])]) (waits := 0)
      (chk := fun _ => [.ds 1, .s 1 4, .s 2 5] ++ [.s 3 6]) (wide := false) (s := onCore [(4, 0x100)])
      (fun v _ => decide (v.windowed 4 0 = none ∧ v.atomicReady .cas true true 4 .device (v.ea1 4 0))) (by decide)
    exact ⟨v, m, h, of_decide_eq_true p⟩
  · obtain ⟨v, m, h, p⟩ := issues_with (c := wd) (ps := [(7, [.dv false 1] ++ useAddr true (.u 4) ++ [useV 2 false (vs 2)])]) (waits := 0)
      (chk := fun _ => [.dv false 1] ++ useAddr true (.u 4) ++ [useV 2 false (vs 2)]) (wide := false) (s := twoLanes (onCore [(4, 0x100)]))
      (fun v m => decide (((v.lastAddr true (.u 4) m).lastUse false (vs 2) m).atomicReady .add false true 4 .pack (v.eas (.u 4) 0 m)))
      (by decide)
    exact ⟨v, m, h, of_decide_eq_true p⟩
  · obtain ⟨v, m, h, p⟩ := issues_with (c := wd) (ps := [(7, [.dv false 1] ++ useAddr true (.u 4))]) (waits := 0)
      (chk := fun _ => [.dv false 1] ++ useAddr true (.u 4)) (wide := false) (s := twoLanes (onCore [(4, 0x100)]))
      (fun v m => decide ((v.lastAddr true (.u 4) m).wordsReady kWrite true 4 (v.eas (.u 4) 0 m) ∧
        (v.lastAddr true (.u 4) m).claimable ((v.lastAddr true (.u 4) m).wholeClaiming none)
          (wholeClaims 4 ((v.lastAddr true (.u 4) m).located true (v.eas (.u 4) 0 m)) false))) (by decide)
    exact ⟨v, m, h, of_decide_eq_true p⟩
  · obtain ⟨v, m, h, p⟩ := issues_with (c := wd) (ps := [(7, [.dp 1] ++ useAddr true (.u 4) ++ [useV 2 false (vs 2)])]) (waits := 0)
      (chk := fun _ => [.dp 1] ++ useAddr true (.u 4) ++ [useV 2 false (vs 2)]) (wide := false) (s := twoLanes (onCore [(4, 0x100)]))
      (fun v m => decide (((v.lastAddr true (.u 4) m).lastUse false (vs 2) m).wordsReady kWrite true 4 (v.eas (.u 4) 0 m))) (by decide)
    exact ⟨v, m, h, of_decide_eq_true p⟩
  · obtain ⟨v, m, h, p⟩ := issues_with (c := wd) (ps := [(7, useAddr true (.u 4))]) (waits := 0)
      (chk := fun _ => useAddr true (.u 4)) (wide := false) (s := twoLanes (onCore [(4, 0x100)]))
      (fun v m => decide ((v.lastAddr true (.u 4) m).wordsReady kWrite true 4 (v.eas (.u 4) 0 m) ∧
        (v.lastAddr true (.u 4) m).claimable ((v.lastAddr true (.u 4) m).wholeClaiming (some (records (v.lastAddr true (.u 4) m).ag)))
          (wholeClaims 4 ((v.lastAddr true (.u 4) m).located true (v.eas (.u 4) 0 m)) true) ∧
        (v.lastAddr true (.u 4) m).wordsReady kRead false 4 (v.eas (.u 4) 0 m) ∧ (v.lastAddr true (.u 4) m).returnable
          (((v.lastAddr true (.u 4) m).located false (v.eas (.u 4) 0 m)).flatMap (fun g => wordsOf g.pa 4)))) (by decide)
    exact ⟨v, m, h, of_decide_eq_true p⟩

/-- ServiceWindows: the last dword of a compute core's SRAM and the first past it, for a load, a store and an atomic. -/
theorem witness_windows :
    (∃ v m, IssuesW wd [.ds 1, .s 1 4] false (onService [(4, 0xFFFFFE000005FFF8), (5, 0xFFFFFE0000060000)]) v m ∧
      (v.windowed 4 0 = some 0xFFFFFE000005FFF8 ∧ v.reachFlaw 0xFFFFFE000005FFF8 8 false = none) ∧
      v.windowed 5 0 = some 0xFFFFFE0000060000) ∧
    (∃ v m, IssuesW wd [.s 1 4, .s 2 5] false (onService [(4, 0xFFFFFE000005FFF8)]) v m ∧
      v.windowed 4 0 = some 0xFFFFFE000005FFF8 ∧ v.reachFlaw 0xFFFFFE000005FFF8 8 true = none ∧
      v.reachFlaw 0xFFFFFE0000060000 8 true = some (fcProtection, 12)) ∧
    (∃ v m, IssuesW wd ([.ds 1, .s 1 4, .s 2 5] ++ [.s 3 6]) false (onService [(4, 0xFFFFFE0000000000)]) v m ∧
      v.windowed 4 0 = some 0xFFFFFE0000000000) := by
  refine ⟨?_, ?_, ?_⟩
  · obtain ⟨v, m, h, p⟩ := issues_with (c := wd) (ps := [(7, [.ds 1, .s 1 4])]) (waits := 0) (chk := fun _ => [.ds 1, .s 1 4])
      (wide := false) (s := onService [(4, 0xFFFFFE000005FFF8), (5, 0xFFFFFE0000060000)]) (fun v _ => decide (
        (v.windowed 4 0 = some 0xFFFFFE000005FFF8 ∧ v.reachFlaw 0xFFFFFE000005FFF8 8 false = none) ∧
        v.windowed 5 0 = some 0xFFFFFE0000060000)) (by decide)
    exact ⟨v, m, h, of_decide_eq_true p⟩
  · obtain ⟨v, m, h, p⟩ := issues_with (c := wd) (ps := [(7, [.s 1 4, .s 2 5])]) (waits := 0) (chk := fun _ => [.s 1 4, .s 2 5])
      (wide := false) (s := onService [(4, 0xFFFFFE000005FFF8)]) (fun v _ => decide (
        v.windowed 4 0 = some 0xFFFFFE000005FFF8 ∧ v.reachFlaw 0xFFFFFE000005FFF8 8 true = none ∧
        v.reachFlaw 0xFFFFFE0000060000 8 true = some (fcProtection, 12))) (by decide)
    exact ⟨v, m, h, of_decide_eq_true p⟩
  · obtain ⟨v, m, h, p⟩ := issues_with (c := wd) (ps := [(7, [.ds 1, .s 1 4, .s 2 5] ++ [.s 3 6])]) (waits := 0)
      (chk := fun _ => [.ds 1, .s 1 4, .s 2 5] ++ [.s 3 6]) (wide := false) (s := onService [(4, 0xFFFFFE0000000000)])
      (fun v _ => decide (v.windowed 4 0 = some 0xFFFFFE0000000000)) (by decide)
    exact ⟨v, m, h, of_decide_eq_true p⟩

/-- Divergence: BRV of a guard that leaves one lane of two waits for every token, and has room for its two entries; BRV of all lanes waits
for none. -/
theorem witness_brv :
    (∃ v m, Issues ⟨.short, 0, 0, 7, 0⟩ [(0, [])] ((oneOf 1).brvWaits ⟨.short, 0, 0, 7, 0⟩) (fun _ => []) false (oneOf 1) v m ∧
      (oneOf 1).brvWaits ⟨.short, 0, 0, 7, 0⟩ = 0x3F ∧ v.sp.mask &&& ~~~m ≠ 0 ∧
      (match v.tokensReady with | some w => (w.pk.setSplit w.ix (some w.sp)).roomFor 2 | none => false) = true) ∧
    (∃ v m, Issues ⟨.short, 0, 0, 7, 0⟩ [(0, [])] ((oneOf 3).brvWaits ⟨.short, 0, 0, 7, 0⟩) (fun _ => []) false (oneOf 3) v m ∧
      (oneOf 3).brvWaits ⟨.short, 0, 0, 7, 0⟩ = 0 ∧ v.sp.mask &&& ~~~m = 0) := by
  refine ⟨?_, ?_⟩
  · obtain ⟨v, m, h, p⟩ := issues_with (c := ⟨.short, 0, 0, 7, 0⟩) (ps := [(0, [])]) (waits := 0x3F) (chk := fun _ => [])
      (wide := false) (s := oneOf 1) (fun v m => decide (v.sp.mask &&& ~~~m ≠ 0 ∧
        (match v.tokensReady with | some w => (w.pk.setSplit w.ix (some w.sp)).roomFor 2 | none => false) = true)) (by decide)
    have k : (oneOf 1).brvWaits ⟨.short, 0, 0, 7, 0⟩ = 0x3F := by decide
    rw [k]; exact ⟨v, m, h, rfl, of_decide_eq_true p⟩
  · obtain ⟨v, m, h, p⟩ := issues_with (c := ⟨.short, 0, 0, 7, 0⟩) (ps := [(0, [])]) (waits := 0) (chk := fun _ => [])
      (wide := false) (s := oneOf 3) (fun v m => decide (v.sp.mask &&& ~~~m = 0)) (by decide)
    have k : (oneOf 3).brvWaits ⟨.short, 0, 0, 7, 0⟩ = 0 := by decide
    rw [k]; exact ⟨v, m, h, rfl, of_decide_eq_true p⟩

set_option maxRecDepth 4096 in
/-- Ordering, TransfersAndRemoteArrivals, Divergence, Traps: what is to be released is released, a branch table can be read, and one is
read already. -/
theorem witness_free_control :
    (∃ v m, IssuesW lg [] false (onCore []) v m ∧ v.releasable .system true) ∧
    (∃ v m, IssuesW lg [.s 1 4] false (withWindow (onCore []) 0 (List.replicate 16 0 ++ bytesOf 4 4 ++ bytesOf 2 1)) v m ∧
      v.releasable (Machine.scopeOf 0) true ∧ (match v.operand 0 64 64 kRead with
        | .ok w => (v.xferFlaw w (v.co.xferRec w 0).1 (v.co.xferRec w 0).2).isNone
        | .error _ => false) = true) ∧
    (∃ v m, Issues lg [(7, [.v 1 false 4])] 0 (fun _ => [.vs 1 4 6]) false (onCore []) v m ∧
      v.releasable .device true ∧ v.matrixBusy = false ∧ v.co.freeShared.isSome = true ∧
      lowest (maskOf (fun L => m.getLsbD L && fld (lane (v.row (v.vrow 4)) L) 16 16 != 0)) = none) := by
  refine ⟨?_, ?_, ?_⟩
  · obtain ⟨v, m, h, p⟩ := issues_with (c := lg) (ps := [(7, [])]) (waits := 0) (chk := fun _ => []) (wide := false) (s := onCore [])
      (fun v _ => decide (v.releasable .system true)) (by decide)
    exact ⟨v, m, h, of_decide_eq_true p⟩
  · obtain ⟨v, m, h, p⟩ := issues_with (c := lg) (ps := [(7, [.s 1 4])]) (waits := 0) (chk := fun _ => [.s 1 4]) (wide := false)
      (s := withWindow (onCore []) 0 (List.replicate 16 0 ++ bytesOf 4 4 ++ bytesOf 2 1))
      (fun v _ => decide (v.releasable (Machine.scopeOf 0) true) && (match v.operand 0 64 64 kRead with
        | .ok w => (v.xferFlaw w (v.co.xferRec w 0).1 (v.co.xferRec w 0).2).isNone
        | .error _ => false)) (by decide)
    simp only [Bool.and_eq_true, decide_eq_true_eq] at p
    exact ⟨v, m, h, p⟩
  · obtain ⟨v, m, h, p⟩ := issues_with (c := lg) (ps := [(7, [.v 1 false 4])]) (waits := 0) (chk := fun _ => [.vs 1 4 6]) (wide := false)
      (s := onCore []) (fun v m => decide (v.releasable .device true ∧ v.matrixBusy = false ∧ v.co.freeShared.isSome = true ∧
        lowest (maskOf (fun L => m.getLsbD L && fld (lane (v.row (v.vrow 4)) L) 16 16 != 0)) = none)) (by decide)
    exact ⟨v, m, h, of_decide_eq_true p⟩

set_option synthInstance.maxSize 1024 in
/-- Divergence: a branch table at VA 0x100 that two lanes can read, and the same word with the targets read. -/
theorem witness_free_table :
    (∃ v m, IssuesW wd [useV 1 false (vs 2), .s 2 4, .s 3 5] false (twoLanes (onCore [(4, 0x100), (5, 1)])) v m ∧
      v.sp.tab = [] ∧ v.loadable 8 false ((lanesOf m).map (fun L => (L, (v.rs 4 + BitVec.ofNat 64 (8 * (v.rv false 2 L).toNat)).toNat))) ∧
      (lanesOf m).filter (fun L => decide ((v.rs 5).toNat % 2 ^ 32 ≤ (v.rv false 2 L).toNat)) = []) ∧
    (∃ v m, IssuesW wd [useV 1 false (vs 2), .s 2 4, .s 3 5] false ((twoLanes (onCore [(4, 0x100), (5, 1)])).updCore 0 (fun c =>
        c.updPack 0 (fun p => p.updSplit 0 (fun x => { x with tab := [(0, 0x40), (1, 0x40)] })))) v m ∧
      v.sp.tab ≠ [] ∧
      (∀ L ∈ lanesOf m, v.sp.tab.find? (fun e => e.1 == L) = some (L, 0x40)) ∧
      (lanesOf m).filter (fun L => decide ((v.rs 5).toNat % 2 ^ 32 ≤ (v.rv false 2 L).toNat)) = []) := by
  refine ⟨?_, ?_⟩
  · obtain ⟨v, m, h, p⟩ := issues_with (c := wd) (ps := [(7, [useV 1 false (vs 2), .s 2 4, .s 3 5])]) (waits := 0)
      (chk := fun _ => [useV 1 false (vs 2), .s 2 4, .s 3 5]) (wide := false) (s := twoLanes (onCore [(4, 0x100), (5, 1)]))
      (fun v m => decide (v.sp.tab = [] ∧ v.loadable 8 false ((lanesOf m).map (fun L => (L, (v.rs 4 + BitVec.ofNat 64 (8 * (v.rv false 2 L).toNat)).toNat))) ∧
      (lanesOf m).filter (fun L => decide ((v.rs 5).toNat % 2 ^ 32 ≤ (v.rv false 2 L).toNat)) = [])) (by decide)
    exact ⟨v, m, h, of_decide_eq_true p⟩
  · obtain ⟨v, m, h, p⟩ := issues_with (c := wd) (ps := [(7, [useV 1 false (vs 2), .s 2 4, .s 3 5])]) (waits := 0)
      (chk := fun _ => [useV 1 false (vs 2), .s 2 4, .s 3 5]) (wide := false) (s := (twoLanes (onCore [(4, 0x100), (5, 1)])).updCore 0 (fun c =>
        c.updPack 0 (fun p => p.updSplit 0 (fun x => { x with tab := [(0, 0x40), (1, 0x40)] }))))
      (fun v m => decide (v.sp.tab ≠ [] ∧
      (∀ L ∈ lanesOf m, v.sp.tab.find? (fun e => e.1 == L) = some (L, 0x40)) ∧
      (lanesOf m).filter (fun L => decide ((v.rs 5).toNat % 2 ^ 32 ≤ (v.rv false 2 L).toNat)) = [])) (by decide)
    exact ⟨v, m, h, of_decide_eq_true p⟩

set_option synthInstance.maxSize 1024 in
/-- ServiceInstructions: SRES with a used entry and no lane to answer for, and MBXSEND to a cluster's own mailbox. -/
theorem witness_free_service :
    (∃ v m, IssuesW sh [.s 1 4, .s 2 5, .s 2 6, .s 2 7] false ((onService [(4, 24)]).updCore 0 (fun k => k.spPut (k.kennel 24) [1])) v m ∧
      v.releasable .device true ∧ (v.s.core (v.mate ((v.rs 4).toNat % 64 / 32))).kfield ((v.rs 4).toNat % 32) 0 1 = 1 ∧ v.mask3 5 = 0 ∧
      (v.s.core (v.mate ((v.rs 4).toNat % 64 / 32))).kfield ((v.rs 4).toNat % 32) 1 1 / 2 % 2 = 0) ∧
    (∃ v m, IssuesW sh [.ds 1, .s 1 4, .s 2 5, .s 2 6, .s 2 7] false (onService []) v m ∧
      v.releasable .device true ∧ (v.rs 4).toNat / 32 = 0 ∧ v.s.clusterSt 0 ≠ 3 ∧ (v.close.core 64).failed = false ∧
      v.s.partOfCluster 0 = v.s.partOfCluster v.cluster ∧ (v.close.core 64).mailbox.length < 64) := by
  refine ⟨?_, ?_⟩
  · obtain ⟨v, m, h, p⟩ := issues_with (c := sh) (ps := [(7, [.s 1 4, .s 2 5, .s 2 6, .s 2 7])]) (waits := 0)
      (chk := fun _ => [.s 1 4, .s 2 5, .s 2 6, .s 2 7]) (wide := false)
      (s := (onService [(4, 24)]).updCore 0 (fun k => k.spPut (k.kennel 24) [1]))
      (fun v _ => decide (v.releasable .device true ∧ (v.s.core (v.mate ((v.rs 4).toNat % 64 / 32))).kfield ((v.rs 4).toNat % 32) 0 1 = 1 ∧ v.mask3 5 = 0 ∧
      (v.s.core (v.mate ((v.rs 4).toNat % 64 / 32))).kfield ((v.rs 4).toNat % 32) 1 1 / 2 % 2 = 0)) (by decide)
    exact ⟨v, m, h, of_decide_eq_true p⟩
  · obtain ⟨v, m, h, p⟩ := issues_with (c := sh) (ps := [(7, [.ds 1, .s 1 4, .s 2 5, .s 2 6, .s 2 7])]) (waits := 0)
      (chk := fun _ => [.ds 1, .s 1 4, .s 2 5, .s 2 6, .s 2 7]) (wide := false) (s := onService [])
      (fun v _ => decide (v.releasable .device true ∧ (v.rs 4).toNat / 32 = 0 ∧ v.s.clusterSt 0 ≠ 3 ∧ (v.close.core 64).failed = false ∧
      v.s.partOfCluster 0 = v.s.partOfCluster v.cluster ∧ (v.close.core 64).mailbox.length < 64)) (by decide)
    exact ⟨v, m, h, of_decide_eq_true p⟩

/-- The pack with a sound record at 0 and its operand staged. -/
def stagedTile : State := (withWindow (onCore []) 0 tile16).updCore 0 (fun c => { c with
    stage := [{ (stageFor 1 tile16) with pins := [1], stamp := 1 }]
    packs := c.packs ++ [(1, placedPack 0)] })

set_option synthInstance.maxSize 1024 in
/-- MatrixIssue, TilePins: a staged operand, a place in the queue, and rows without an outstanding write. -/
theorem witness_free_matrix :
    (∃ v m, Issues wd [(7, [.s 1 4, .s 2 4])] 0 (fun _ => [.dc 3]) true stagedTile v m ∧
      v.missingLane m = none ∧ v.tileAt ((v.rs 4).toNat % 2 ^ 32) = .ok tile16 ∧ recordFlaw tile16 (.a false) = none ∧
      recordFlaw tile16 (.b false) = none ∧ pairFlaw (tileRec tile16) (tileRec tile16) false false = false ∧ v.co.mq.length < 8 ∧
      (v.takePlace (matOp (.mma false false false 0 0) (v.crow 3))).myTurn = true ∧
      v.staged (stageFor v.pk.asid tile16) ∧ v.rowsFree (tileHas (v.crow 3))) ∧
    (∃ v m, IssuesW wd [.ds 1, .s 1 4] false stagedTile v m ∧ v.tileAt ((v.rs 4).toNat % 2 ^ 32) = .ok tile16 ∧
      recordFlaw tile16 .pin = none ∧ v.co.stage.any (fun (x : StageEntry) => x.sameKey (stageFor v.pk.asid tile16) && x.pins.contains v.slot) = false ∧
      v.co.pinSizes.length < 8 ∧ v.myTurn = true ∧ v.staged (stageFor v.pk.asid tile16)) ∧
    (∃ v m, Issues wd [(7, [.s 3 4])] 0 (fun _ => [.dc 0, .c 1 2, useV 2 false (vs 511)]) true (onCore [(4, 7680)]) v m ∧
      v.missingLane m = none ∧ v.scaleFault 7680 = none ∧ v.co.mq.length < 8 ∧ v.rowsFree (fun _ => true)) ∧
    (∃ v m, Issues lg [(7, [])] 0 (fun _ => [.dc 3]) false (onCore []) v m ∧ v.co.mq.length < 8 ∧ v.rowsFree (tileHas (v.crow 3))) ∧
    (∃ v m, Issues lg [(7, [.s 2 4])] 0 (fun _ => [.dvs 0 (mcvtRows .f16), .c 1 1]) true (onCore []) v m ∧
      v.missingLane m = none ∧ v.co.mq.length < 8 ∧ v.rowsFree (fun _ => true)) := by
  refine ⟨?_, ?_, ?_, ?_, ?_⟩
  · obtain ⟨v, m, h, p⟩ := issues_with (c := wd) (ps := [(7, [.s 1 4, .s 2 4])]) (waits := 0) (chk := fun _ => [.dc 3]) (wide := true)
      (s := stagedTile) (fun v m => decide (v.missingLane m = none ∧ v.tileAt ((v.rs 4).toNat % 2 ^ 32) = .ok tile16 ∧ recordFlaw tile16 (.a false) = none ∧
      recordFlaw tile16 (.b false) = none ∧ pairFlaw (tileRec tile16) (tileRec tile16) false false = false ∧ v.co.mq.length < 8 ∧
      (v.takePlace (matOp (.mma false false false 0 0) (v.crow 3))).myTurn = true ∧
      v.staged (stageFor v.pk.asid tile16) ∧ v.rowsFree (tileHas (v.crow 3)))) (by decide)
    exact ⟨v, m, h, of_decide_eq_true p⟩
  · obtain ⟨v, m, h, p⟩ := issues_with (c := wd) (ps := [(7, [.ds 1, .s 1 4])]) (waits := 0) (chk := fun _ => [.ds 1, .s 1 4]) (wide := false)
      (s := stagedTile) (fun v _ => decide (v.tileAt ((v.rs 4).toNat % 2 ^ 32) = .ok tile16 ∧
      recordFlaw tile16 .pin = none ∧ v.co.stage.any (fun (x : StageEntry) => x.sameKey (stageFor v.pk.asid tile16) && x.pins.contains v.slot) = false ∧
      v.co.pinSizes.length < 8 ∧ v.myTurn = true ∧ v.staged (stageFor v.pk.asid tile16))) (by decide)
    exact ⟨v, m, h, of_decide_eq_true p⟩
  · obtain ⟨v, m, h, p⟩ := issues_with (c := wd) (ps := [(7, [.s 3 4])]) (waits := 0) (chk := fun _ => [.dc 0, .c 1 2, useV 2 false (vs 511)])
      (wide := true) (s := onCore [(4, 7680)]) (fun v m => decide (v.missingLane m = none ∧ v.scaleFault 7680 = none ∧ v.co.mq.length < 8 ∧
      v.rowsFree (fun _ => true))) (by decide)
    exact ⟨v, m, h, of_decide_eq_true p⟩
  · obtain ⟨v, m, h, p⟩ := issues_with (c := lg) (ps := [(7, [])]) (waits := 0) (chk := fun _ => [.dc 3]) (wide := false) (s := onCore [])
      (fun v _ => decide (v.co.mq.length < 8 ∧ v.rowsFree (tileHas (v.crow 3)))) (by decide)
    exact ⟨v, m, h, of_decide_eq_true p⟩
  · obtain ⟨v, m, h, p⟩ := issues_with (c := lg) (ps := [(7, [.s 2 4])]) (waits := 0) (chk := fun _ => [.dvs 0 (mcvtRows .f16), .c 1 1])
      (wide := true) (s := onCore []) (fun v m => decide (v.missingLane m = none ∧ v.co.mq.length < 8 ∧ v.rowsFree (fun _ => true))) (by decide)
    exact ⟨v, m, h, of_decide_eq_true p⟩

/-! ### States that meet the conditions of accesses at once -/


/-- A leaf of level 2 that maps the first 64 GiB of a space to host memory. -/
def hostLeaf : W64 := 0x80000000002F

/-- Function 1 bound to partition 0, its VCP page at PA 0x10000, and ASID 0 with the leaf given in the hub's buffer. -/
def withFn (l : TlbEntry) (s : State) : State :=
  let s := (s.setMreg (fnBind 1) 1).setMreg (vcpBase 1) 0x10001
  { s with roots := [(0, placedRoot)], hubtb := [l], frames := [(0, leafAttr placedLeaf)] }

/-- An HBM page at VA 0. -/
def fnHbm : State := withFn ⟨0, 0, 0, placedLeaf⟩ (onCore [])

set_option synthInstance.maxSize 1024 in
set_option maxRecDepth 4096 in
/-- HostAndPeerEvents: an aperture open, and its last bytes of a page reached for each kind of access. -/
theorem witness_reached :
    fnHbm.aper = [] ∧ fnHbm.apertureClosed 1 0xFFF8 = false ∧ 0xFFF8 % tyBytes .n64 = 0 ∧
    fnHbm.reaches (fnHbm.apertureEng 1 kRead) 0xFFF8 8 false ∧ fnHbm.reaches (fnHbm.apertureEng 1 kWrite) 0xFFF8 ([1, 2, 3] : List Byte).length true ∧
    fnHbm.reaches (fnHbm.apertureEng 1 kAtomic) 0xFFF8 (tyBytes .n64) false ∧
    fnHbm.reaches (fnHbm.apertureEng 1 kAtomic) 0xFFF8 (tyBytes .n64) true := by decide

/-- A host page reaches wherever it extends. -/
theorem reaches_host {s : State} {q : Eng} {va n : Nat} {write : Bool} (h1 : s.rootFlaw q.part q.root = none)
    (h2 : s.buffer q.agent = [⟨q.asid, 2, 0, hostLeaf⟩]) (h3 : s.treeSound) (h4 : va + n < 2 ^ 36)
    (h5 : leafFlaw (q.who write) hostLeaf 2 = none) (h6 : ∀ p ∈ q.part, s.partProt p = false) : s.reaches q va n write := by
  have serve : (⟨q.asid, 2, 0, hostLeaf⟩ : TlbEntry).serves write = true := by
    unfold TlbEntry.serves; cases write <;> simp only [hostLeaf] <;> decide
  refine ⟨h1, ?_, h3, fun p hp => ?_⟩
  · rw [h2]; unfold bufferFits
    split
    · simp only [utlbSize, List.length_singleton]; split <;> rfl
    · simp [tlbSet]
  · have hl := pieces_len _ hp
    have hv : p.1 < 2 ^ 36 := by omega
    have hit : (⟨q.asid, 2, 0, hostLeaf⟩ : TlbEntry).hits q.asid p.1 = true := by
      simp only [TlbEntry.hits, levelShift, beq_self_eq_true, Bool.true_and, beq_iff_eq]; omega
    have hpa : isHost (leafPa hostLeaf 2 p.1) = true := by
      have : leafPa hostLeaf 2 p.1 = 2 ^ 47 + p.1 % 2 ^ 36 := rfl
      rw [this]; unfold isHost; exact decide_eq_true (by omega)
    refine ⟨?_, ?_, ⟨q.asid, 2, 0, hostLeaf⟩, ?_, h5, ?_, .inl hpa⟩
    · unfold canonical; simp only [Bool.or_eq_true, decide_eq_true_eq]; omega
    · rw [h2]; intro e he f hf _ _; rw [List.mem_singleton.1 he, List.mem_singleton.1 hf]
    · unfold State.pageOf; rw [h2]; simp [hit, serve]
    · unfold State.paFlaw
      have hr : s.reachable (q.who write).part (leafPa hostLeaf 2 p.1) = true := by unfold State.reachable; rw [if_pos hpa]
      have ha : leafAttr hostLeaf = 1 := rfl
      simp only [hr, Bool.not_true, Bool.false_eq_true, if_false, ha, hpa]
      cases hq : (q.who write).part with
      | none => simp
      | some x => have := h6 x hq; simp [this]

/-- What is read there is host memory's. -/
theorem reads_host {s : State} {q : Eng} {va n : Nat} (h : s.reaches q va n false) (h2 : s.buffer q.agent = [⟨q.asid, 2, 0, hostLeaf⟩])
    (h4 : va + n < 2 ^ 36) (h0 : 0 < n) (hn : va % 2 ^ 16 + n ≤ 2 ^ 16) :
    s.reads q va n ((List.range n).map (fun i => s.byte (2 ^ 47 + va + i))) := by
  refine ⟨h, ?_⟩
  have hp : piecesOf va n = [(va, n)] := by
    unfold piecesOf pieces
    rw [if_neg (by omega)]
    have : min n (2 ^ 16 - va % 2 ^ 16) = n := by omega
    simp only [this, Nat.sub_self]
    unfold pieces
    rw [if_pos rfl]
  have hit : (⟨q.asid, 2, 0, hostLeaf⟩ : TlbEntry).hits q.asid va = true := by
    simp only [TlbEntry.hits, levelShift, beq_self_eq_true, Bool.true_and, beq_iff_eq]; omega
  have hpg : s.pageOf q va false = some ⟨q.asid, 2, 0, hostLeaf⟩ := by
    unfold State.pageOf; rw [h2]; simp [hit]; rfl
  have hpa : leafPa hostLeaf 2 va = 2 ^ 47 + va := by
    have : leafPa hostLeaf 2 va = 2 ^ 47 + va % 2 ^ 36 := rfl
    rw [this, Nat.mod_eq_of_lt (by omega)]
  unfold State.engBytes
  simp only [hp, List.flatMap_cons, List.flatMap_nil, List.append_nil, hpg, hpa]
  rw [if_pos (by unfold isHost; exact decide_eq_true (by omega))]

/-- A host page at VA 0 for function 1, a report asked for at 0x10000, and a ring of one collective request. -/
def fnHost : State :=
  let s := { (withFn ⟨0, 2, 0, hostLeaf⟩ (onCore [])) with attests := [⟨1, 0x10000⟩] }
  s.setBytes (0x10000 + 0x8400) (bytesOf 8 0x10000 ++ [4, 0, 1, 0] ++ bytesOf 4 0 ++ bytesOf 4 1)

theorem fnHost_restful (w : Nat) : fnHost.restful w := ⟨rfl, rfl, rfl, rfl⟩

/-- HostAndPeerEvents: the buffer of a report, the descriptors of a function's VCP page, and a collective request. -/
theorem witness_engine_reaches :
    (∃ a, fnHost.attests.find? (fun (a : Attest) => a.fn == 1) = some a ∧
      fnHost.reaches (fnHost.apertureEng 1 kRead) (a.buf.toNat + 128) 1024 true ∧ fnHost.reaches (fnHost.apertureEng 1 kRead) a.buf.toNat 64 false ∧
      fnHost.reaches { fnHost.apertureEng 1 kRead with kind := kWrite } (a.buf.toNat + 128) 1024 true) ∧
    (fnHost.vcpPage 1 = some 0x10000 ∧ fnHost.restfulAt 0x10000 32768) ∧
    (let page := 0x10000
     fnHost.bound 1 = true ∧ fnHost.fnStopped 1 = false ∧ fnHost.reachable (some (fnHost.fnPart 1)) (page + 0x8400) = true ∧
      fnHost.reachable (some (fnHost.fnPart 1)) (page + 0x8400 + 12) = true ∧ fnHost.restfulAt (page + 0x8400) 64 ∧
      let rg := fnHost.homeBytes (page + 0x8400) 64
      let rd := recNum rg 12 4
      let sp := fnHost.queueSpace 1 (recNum rg 9 1 % 64)
      let q : Eng := ⟨collAgent, some (fnHost.fnPart 1), sp.1, sp.2, kTransfer, true⟩
      recNum rg 10 1 % 2 = 1 ∧ 4 ≤ recNum rg 8 1 ∧ recNum rg 8 1 ≤ 12 ∧ rd ≠ recNum rg 16 4 ∧
      fnHost.reaches q (recNum rg 0 8 + 64 * (rd % 2 ^ recNum rg 8 1)) 64 false) := by
  refine ⟨⟨⟨1, 0x10000⟩, rfl, ?_, ?_, ?_⟩, ⟨by decide, ⟨rfl, rfl, rfl⟩, fun w _ => fnHost_restful w.1⟩, by decide, by decide, by decide, by decide,
    ⟨⟨rfl, rfl, rfl⟩, fun w _ => fnHost_restful w.1⟩, ?_⟩
  · exact reaches_host (by decide) (by decide) ⟨rfl, rfl, rfl⟩ (by decide) (by decide) (by decide)
  · exact reaches_host (by decide) (by decide) ⟨rfl, rfl, rfl⟩ (by decide) (by decide) (by decide)
  · exact reaches_host (by decide) (by decide) ⟨rfl, rfl, rfl⟩ (by decide) (by decide) (by decide)
  · have h : fnHost.homeBytes (0x10000 + 0x8400) 64 = bytesOf 8 0x10000 ++ [4, 0, 1, 0] ++ bytesOf 4 0 ++ bytesOf 4 1 ++ List.replicate 44 0 := by decide
    rw [h]
    refine ⟨by decide, by decide, by decide, by decide, ?_⟩
    exact reaches_host (by decide) (by decide) ⟨rfl, rfl, rfl⟩ (by decide) (by decide) (by decide)


/-- CoreEvents: a fetch under way whose line's words nothing stands in the way of. -/
def fetching : State := (withWindow (onCore []) 0 tile16).updCore 0 (fun c => { c with
    fetches := [⟨5, 0, 0, stageFor 1 tile16, [(0x1000, 0x1000)], [], none⟩] })

set_option maxRecDepth 4096 in
theorem witness_tile_line :
    ∃ f p va pa rest, (fetching.core 0).fetches[0]? = some f ∧ f.fault = none ∧ f.todo = (va, pa) :: rest ∧
      look (fetching.core 0).packs f.slot = some p ∧ fetching.clampRoom 0 f.slot f.split (pa / 64) ≠ .wait ∧
      ((fetching.core 0).fetches.take 0).any (fun g => g.fault.isNone && !g.todo.isEmpty) = false ∧
      fetching.rebinding (pa / 4) = false ∧ fetching.aliased pa (get (0, 0) f.leaves va).1 = false ∧ fetching.treeSound ∧
      let u := fetching.updCore 0 (fun c => c.dropCopies (fun l _ => l == pa / 64))
      ∀ k, k < 16 → u.tileServed 0 f.slot (!p.lazyMode) (pa / 4 + k) (TileRec.wordBytes f.entry.record.segments va k) := by
  cases h : look (fetching.core 0).packs 0 with
  | none => exact absurd h (by decide)
  | some p =>
    refine ⟨_, p, 0x1000, 0x1000, [], rfl, rfl, rfl, h, by decide, by decide, by decide, by decide, ⟨rfl, rfl, rfl⟩, fun k _ => .inr (.inl ⟨.inl ?_, rfl, rfl, rfl, rfl⟩)⟩
    rfl

/-- A queue's descriptor at PA 0x10000, of a valid device queue whose ring of 16 packets is at VA 0x10000. -/
def devQueue : List Byte := bytesOf 8 0x10000 ++ [4, 0, 0, 3] ++ bytesOf 4 0 ++ bytesOf 4 1 ++ List.replicate 44 0

/-- Core 0 with a packet at VA 0x100, and queue 0 of function 1. -/
def posting : State :=
  let s := withFn ⟨0, 2, 0, hostLeaf⟩ ((onCore [(4, 0x100), (5, 0x200)]).setBytes 0x10000 devQueue)
  s.setBytes 0x100 [1]

set_option synthInstance.maxSize 1024 in
/-- SpecialRegisters: QPOST of a packet of the page at VA 0 to a device queue of the pack's own partition. -/
theorem witness_qpost :
    ∃ v m g, IssuesW sh [.ds 1, .s 1 4, .s 2 5] false posting v m ∧
      let va := (v.rs 4).toNat
      let f := fld (v.rs 5) 9 9
      let q := fld (v.rs 5) 0 9
      va % 64 = 0 ∧ v.mapped kRead false 1 [(127, va)] ∧ v.located false [(127, va)] = [g] ∧ v.packetReady g va ∧
      v.releasable .device true ∧ recNum (v.packetBytes g va) 0 1 = 1 ∧
      (v.rs 5).toNat / 2 ^ 18 = 0 ∧ f ≤ 384 ∧ v.s.bound f = true ∧ v.s.partOfAgent v.ag = some (v.s.fnPart f) ∧
      v.s.descPa f q = some 0x10000 ∧ v.s.reachable (some (v.s.fnPart f)) 0x10000 = true ∧
      v.s.reachable (some (v.s.fnPart f)) (0x10000 + 16) = true ∧ v.s.restfulAt 0x10000 64 ∧
      let qd := qdescOf (v.s.homeBytes 0x10000 64)
      let sp := v.s.queueSpace f qd.proc
      qd.valid = true ∧ qd.device = true ∧ qd.held < 2 ^ qd.log2n ∧
      v.close.reaches ⟨v.ag, some (v.s.fnPart f), sp.1, sp.2, kTransfer, true⟩ (qd.ring + 64 * (qd.wr % 2 ^ qd.log2n)) 64 true := by
  obtain ⟨v, m, h, p⟩ := issues_with (c := sh) (ps := [(7, [.ds 1, .s 1 4, .s 2 5])]) (waits := 0) (chk := fun _ => [.ds 1, .s 1 4, .s 2 5])
    (wide := false) (s := posting) (fun v _ => let va := (v.rs 4).toNat
      let f := fld (v.rs 5) 9 9
      let qd := qdescOf (v.s.homeBytes 0x10000 64)
      let sp := v.s.queueSpace f qd.proc
      (match v.located false [(127, va)] with
        | [g] => decide (v.packetReady g va) && decide (recNum (v.packetBytes g va) 0 1 = 1)
        | _ => false) && decide (va % 64 = 0 ∧ v.mapped kRead false 1 [(127, va)] ∧ v.releasable .device true ∧
        (v.rs 5).toNat / 2 ^ 18 = 0 ∧ f ≤ 384 ∧ v.s.bound f = true ∧ v.s.partOfAgent v.ag = some (v.s.fnPart f)) &&
      decide (v.s.descPa f (fld (v.rs 5) 0 9) = some 0x10000 ∧ v.s.reachable (some (v.s.fnPart f)) 0x10000 = true ∧
        v.s.reachable (some (v.s.fnPart f)) (0x10000 + 16) = true ∧ v.s.restfulAt 0x10000 64 ∧ qd.valid = true ∧ qd.device = true ∧
        qd.held < 2 ^ qd.log2n ∧
        v.close.reaches ⟨v.ag, some (v.s.fnPart f), sp.1, sp.2, kTransfer, true⟩ (qd.ring + 64 * (qd.wr % 2 ^ qd.log2n)) 64 true))
    (by decide +kernel)
  simp only [Bool.and_eq_true, decide_eq_true_eq] at p
  obtain ⟨⟨pg, p1, p2, p3, p4, p5, p6, p7⟩, p8⟩ := p
  split at pg
  · rename_i g hg
    simp only [Bool.and_eq_true, decide_eq_true_eq] at pg
    exact ⟨v, m, g, h, p1, p2, hg, pg.1, p3, pg.2, p4, p5, p6, p7, p8⟩
  · cases pg

/-- A launch of one pack. -/
def oneLaunch : Launch :=
  { part := 0, fn := 1, queue := 0, prio := 0, proc := 0, asid := 1, root := placedRoot, parent := 0, entry := 0, cfg := 0, threads := 96, spsz := 0,
    roles := false, scratch := 0, packs := [(0, 96)], viewv := 0, viewc := 0, rgn := [], gx := 1, gy := 1, gz := 1, karg := 0, sets := [], aff := 0,
    next := 1, ahead := [], resident := 1, ended := 0, children := 0, err := none, waiter := 0, node := none, order := 0 }

/-- Service core 0 with a host page at VA 0, where the image of a workgroup of one pack without rows stands at 0x10000; and core 0 with
a stopped pack of another. -/
def saving : State :=
  let s := (onService [(4, 0), (5, 0x10000)]).updCore 64 (fun c => { c with utlb := [⟨0, 2, 0, hostLeaf⟩] })
  let s := s.updCore 0 (fun c => { c with packs := [(0, { placedPack 0 with size := 1, launch := 2, stop := some ⟨3, none, 0, false, true, false⟩ })] })
  let s := s.setMreg (cluStat 0) 2
  { s with mem := [(2 ^ 47 + 0x10000, 1), (2 ^ 47 + 0x10001, 1)], launches := [(0, oneLaunch), (2, oneLaunch)] }


/-- The header of an image of one pack, for the split of 384 KiB, without scratchpad. -/
def oneImage : List Byte := 1 :: 1 :: List.replicate 4094 0#8

theorem oneImage_byte (n o k : Nat) (h : 2 ≤ o) : imgNum (1 :: 1 :: List.replicate n 0#8) o k = 0 := by
  obtain ⟨j, rfl⟩ : ∃ j, o = j + 2 := ⟨o - 2, by omega⟩
  show imgNum (List.replicate n 0#8) j k = 0
  exact imgNum_zeros n j k

theorem zeros_from (f : Nat → Byte) (n a : Nat) (h : ∀ i, a ≤ i → f i = 0#8) :
    (List.range n).map (fun i => f (a + i)) = List.replicate n 0#8 := by
  refine List.ext_getElem (by simp) (fun i h1 h2 => ?_)
  simp [h (a + i) (by omega)]

theorem two_bytes (f : Nat → Byte) (n : Nat) (h0 : f 0 = 1) (h1 : f 1 = 1) (h : ∀ i, f (i + 2) = 0#8) :
    (List.range (n + 2)).map f = 1 :: 1 :: List.replicate n 0#8 := by
  refine List.ext_getElem (by simp) (fun i _ _ => ?_)
  match i with
  | 0 => simp [h0]
  | 1 => simp [h1]
  | i + 2 => simp [h]

theorem svcWaits_zeros (n : Nat) : svcWaits (List.replicate n 0#8) = false := by
  unfold svcWaits
  simp only [imgNum_zeros]
  rfl

/-- ServiceInstructions: PCTXSV of a stopped pack, and PCTXLD of the image. -/
theorem witness_save_area :
    (∃ v m n slot p, IssuesW sh [.ds 1, .s 1 4, .s 2 5] false saving v m ∧ v.handlePack (v.rs 4) = some (n, slot, p) ∧
      (v.rs 5).toNat % 4096 = 0 ∧ ((v.s.core n).wgPacks p).any (fun q => !q.stopped) = false ∧ v.s.windowQuiet p.launch p.wg = true ∧
      let x := v.close
      let slots := (x.core n).wgSlots p
      let win := ((x.core n).wins.find? (fun w => w.launch == p.launch && w.wg == p.wg)).getD ⟨0, 0, 0, 0, 0, [], 0⟩
      (x.core n).savePoison n win slots = none ∧
      x.reaches (v.saver kWrite) (v.rs 5).toNat (x.wgBytes n p (slots.filterMap (fun k => look (x.core n).packs k))).length true) ∧
    (∃ v m, ∃ (h win : List Byte) (heads rows : List (List Byte)) (l : Launch) (pl : Place),
      IssuesW sh [.ds 1, .s 1 4, .s 2 5] false saving v m ∧ v.rs 4 &&& ~~~0x11F#64 = 0 ∧ (v.rs 5).toNat % 4096 = 0 ∧
      let x := v.close
      let q := v.saver kRead
      let va := (v.rs 5).toNat
      let size := alignUp (imgNum h 4 4) 4096
      x.reads q va 4096 h ∧ (∀ o, o < 4096 → o = 2 ∨ o = 3 ∨ 8 ≤ o → imgNum h o 1 = 0) ∧ imgNum h 0 1 = heads.length ∧
      heads.length ≤ 24 ∧ size ≤ 2 ^ 20 ∧ x.reads q (va + 4096) size win ∧ x.areasRead q (va + 4096 + size) heads rows ∧
      heads.any svcWaits = false ∧ look x.launches (imgNum (heads.headD []) 0 4) = some l ∧
      x.fits (v.mate (fld (v.rs 4) 8 1)) (imgNum h 1 1) size (heads.map imgRows) = some pl) := by
  obtain ⟨v, m, h, p⟩ := issues_with (c := sh) (ps := [(7, [.ds 1, .s 1 4, .s 2 5])]) (waits := 0) (chk := fun _ => [.ds 1, .s 1 4, .s 2 5])
    (wide := false) (s := saving) (fun v _ =>
      let x := v.close
      (match v.handlePack (v.rs 4) with
        | some (n, _, p) =>
          let slots := (x.core n).wgSlots p
          let win := ((x.core n).wins.find? (fun w => w.launch == p.launch && w.wg == p.wg)).getD ⟨0, 0, 0, 0, 0, [], 0⟩
          !((v.s.core n).wgPacks p).any (fun q => !q.stopped) && v.s.windowQuiet p.launch p.wg &&
            ((x.core n).savePoison n win slots).isNone && decide (4096 + win.size +
              ((slots.filterMap (fun k => look (x.core n).packs k)).map (fun q => packAreaSize q.size)).sum ≤ 2 ^ 20)
        | none => false) &&
      decide (v.rs 4 = 0 ∧ v.rs 5 = 0x10000 ∧ x.rootFlaw (some 0) v.pk.root = none ∧ x.buffer v.ag = [⟨0, 2, 0, hostLeaf⟩] ∧ x.treeSound ∧
        x.veils = [] ∧ x.partProt 0 = false ∧ v.s.partOfAgent v.ag = some 0 ∧ v.ag = 64) &&
      decide (x.mem = [(2 ^ 47 + 0x10000, 1), (2 ^ 47 + 0x10001, 1)]) && (look x.launches 0).isSome &&
      (x.fits (v.mate (fld (v.rs 4) 8 1)) 1 0 [0]).isSome) (by decide +kernel)
  simp only [Bool.and_eq_true, decide_eq_true_eq] at p
  obtain ⟨⟨⟨⟨ph, ha, hb, hr, hf, ht, hveil, hp, hpt, hag⟩, hm⟩, hl⟩, hfit⟩ := p
  have hpt' : v.s.partOfAgent 64 = some 0 := hag ▸ hpt
  have reach (kind va n : Nat) (w : Bool) (hn : va + n < 2 ^ 36) (hk : kind = kRead ∨ kind = kWrite) :
      v.close.reaches (v.saver kind) va n w := by
    refine reaches_host (by rw [View.saver, hpt]; exact hr) hf ht hn ?_ (fun p hp' => ?_)
    · rcases hk with rfl | rfl <;> cases w <;> simp only [View.saver, hpt', hag, Eng.who] <;> decide
    · rw [View.saver, hpt] at hp'; cases hp'; exact hp
  have un (a : Nat) : v.close.unlisted a = 0 := by unfold State.unlisted; rw [hveil]; split <;> rfl
  have byte (a : Nat) (h : 0x10002 ≤ a) : v.close.byte (2 ^ 47 + a) = 0#8 := by
    unfold State.byte
    rw [hm, un]
    simp only [Machine.get]
    rw [if_neg (by omega), if_neg (by omega)]
    rfl
  have read (va n : Nat) (h1 : 0x10002 ≤ va) (h2 : va + n < 2 ^ 36) (h3 : va % 2 ^ 16 + n ≤ 2 ^ 16) (h4 : 0 < n) :
      v.close.reads (v.saver kRead) va n (List.replicate n 0#8) := by
    have := reads_host (reach kRead va n false h2 (.inl rfl)) hf h2 h4 h3
    rw [show (fun i => v.close.byte (2 ^ 47 + va + i)) = fun i => v.close.byte (2 ^ 47 + (va + i)) from funext fun i => by rw [Nat.add_assoc],
      zeros_from (fun a => v.close.byte (2 ^ 47 + a)) n va (fun i hi => byte i (by omega))] at this
    exact this
  refine ⟨?_, ?_⟩
  · cases hh : v.handlePack (v.rs 4) with
    | none => rw [hh] at ph; cases ph
    | some x =>
      obtain ⟨n, slot, p⟩ := x
      rw [hh] at ph
      simp only [Bool.and_eq_true, Bool.not_eq_true', decide_eq_true_eq, Option.isNone_iff_eq_none] at ph
      obtain ⟨⟨⟨p1, p2⟩, p3⟩, p4⟩ := ph
      refine ⟨v, m, n, slot, p, h, hh, by rw [hb]; rfl, p1, p2, p3, ?_⟩
      refine reach kWrite _ _ true ?_ (.inr rfl)
      rw [hb, State.wgBytes_length]
      have : (0x10000 : W64).toNat = 0x10000 := rfl
      omega
  · obtain ⟨l, hl⟩ := Option.isSome_iff_exists.1 hl
    obtain ⟨pl, hfit⟩ := Option.isSome_iff_exists.1 hfit
    have hva : (v.rs 5).toNat = 0x10000 := by rw [hb]; rfl
    have hsz : alignUp (imgNum oneImage 4 4) 4096 = 0 := by
      have := oneImage_byte 4094 4 4 (by decide)
      unfold oneImage; rw [this]; rfl
    have hrows : imgRows (List.replicate 4096 0#8) = 0 := by unfold imgRows; rw [imgNum_zeros]
    refine ⟨v, m, oneImage, [], [List.replicate 4096 0#8], [[]], l, pl, h, by rw [ha]; rfl, by rw [hb]; rfl, ?_⟩
    simp only [hsz, hva, List.map_cons, List.map_nil, hrows, Nat.add_zero, List.headD_cons, imgNum_zeros, List.any_cons, List.any_nil]
    refine ⟨?_, fun o _ ho => oneImage_byte _ _ _ (by omega), rfl, by decide, by decide,
      ⟨reach _ _ _ _ (by decide) (.inl rfl), rfl⟩, ⟨read _ _ (by decide) (by decide) (by decide) (by decide), badByte_zeros _, ?_, trivial⟩, ?_, hl, hfit⟩
    · have := reads_host (reach kRead 0x10000 4096 false (by decide) (.inl rfl)) hf (by decide) (by decide) (by decide)
      have e : (List.range 4096).map (fun i => v.close.byte (2 ^ 47 + 0x10000 + i)) = oneImage := by
        exact two_bytes (fun i => v.close.byte (2 ^ 47 + 0x10000 + i)) 4094 (by unfold State.byte; rw [hm, un]; rfl)
          (by unfold State.byte; rw [hm, un]; rfl)
          (fun i => by rw [show 2 ^ 47 + 0x10000 + (i + 2) = 2 ^ 47 + (0x10002 + i) by omega]; exact byte _ (by omega))
      rw [e] at this
      exact this
    · rw [hrows]
      exact ⟨reach _ _ _ _ (by decide) (.inl rfl), rfl⟩
    · rw [svcWaits_zeros]; rfl

/-- A transfer of 256 bytes in progress, from VA 0x10000 to offset 0 of the window or back. -/
def movingX (dir : Nat) : Xfer :=
  { id := 1, agent := 0, slot := 0, split := 0, seq := 0, tok := none, launch := 0, wg := 0, idx := 0, asid := 0, root := placedRoot, check := false,
    off := 0, r := ⟨if dir = 0 then 0x10000 else 0, if dir = 0 then 0 else 0x10000, 256, 1, 0, 0, 0, 0, 0, dir, 0, 0, false, false⟩, name := 0,
    stage := .running, next := 1, live := [(0, false)], page := none, code := none }

/-- The transfer, a notified queue that waits, and a page fault of a queue that has been recovered. -/
def moving (dir : Nat) : State :=
  let s := withFn ⟨0, 2, 0, hostLeaf⟩ ((onCore []).setBytes 0x10000 (bytesOf 8 0x10000 ++ [4, 0, 0, 1]))
  { s with xfers := [movingX dir], time := 5000, engfaults := [⟨0, 1, 0, 0, placedRoot, 0x10000, 0, 0⟩],
           queues := [{ QState.fresh 1 0 with pkt := some ([6] ++ List.replicate 27 0 ++ [1, 0, 0, 0]), step := 2 }] }

theorem moving_restful (d w : Nat) : (moving d).restful w := ⟨rfl, rfl, rfl, rfl⟩

/-- ExchangeAndQueueEvents: a chunk of a load and of a store, NOTIFY, a WAIT past its time, and a fault to be resumed from. -/
theorem witness_exchange_reaches :
    (∀ d, d = 0 ∨ d = 1 → ∃ x j ready m w, (((moving d).xfers.filter (fun x => dieOf x.agent == 0 && x.page.isNone)).flatMap
        (fun x => x.live.map (fun e => (x, e))))[0]? = some (x, (j, ready)) ∧ (moving d).findWin x.launch x.wg = some (m, w) ∧ x.r.dir = d ∧
      (d = 0 → ((moving d).core m).spPoison (w.base + (x.chunk j).2.1) (x.chunk j).2.2 true = false ∧
        (moving d).reaches ((moving d).xferEng x) (x.chunk j).1 (x.chunk j).2.2 false) ∧
      (d = 1 → ((moving d).core m).spPoison (w.base + (x.chunk j).1) (x.chunk j).2.2 false = false ∧
        (moving d).reaches ((moving d).xferEng x) (x.chunk j).2.1 (((moving d).core m).spRead (w.base + (x.chunk j).1) (x.chunk j).2.2).length true)) ∧
    ((moving 0).bound 1 = true ∧ (moving 0).aperBusy 1 = false ∧
      ({ moving 0 with aper := [⟨1, 0, [], none⟩] } : State).aperBusy 1 = true ∧ (moving 0).descPa 1 0 = some 0x10000 ∧ (moving 0).reachable (some ((moving 0).fnPart 1)) 0x10000 = true ∧
      (moving 0).reachable (some ((moving 0).fnPart 1)) (0x10000 + 16) = true ∧ (moving 0).restfulAt 0x10000 64 ∧
      (qdescOf ((moving 0).homeBytes 0x10000 64)).device = false) ∧
    (∃ x bs, (moving 0).queue 1 0 = some x ∧ x.pkt = some bs ∧ recNum bs 0 1 = 6 ∧ x.step = 2 ∧ recNum bs 28 4 ≠ 0 ∧
      x.start + recNum bs 28 4 * 1000 ≤ (moving 0).time) ∧
    (∃ x, (moving 0).engfaults[0]? = some x ∧ x.kind = 1 ∧
      (moving 0).reaches (queueEng engAgent (((moving 0).partOfCluster x.cluster).getD 0) x.asid x.root) x.va 1 (x.reason == 3)) := by
  refine ⟨?_, ⟨by decide, rfl, rfl, by decide, by decide, by decide, ⟨⟨rfl, rfl, rfl⟩, fun w _ => moving_restful 0 w.1⟩, by decide +kernel⟩,
    ⟨_, _, rfl, rfl, by decide, rfl, by decide, by decide⟩, ⟨_, rfl, rfl, ?_⟩⟩
  · intro d hd
    refine ⟨movingX d, 0, false, 0, ⟨0, 0, 0, 4096, 8192, [0], 0⟩, ?_, ?_, ?_⟩
    · rcases hd with rfl | rfl <;> rfl
    · rcases hd with rfl | rfl <;> rfl
    · rcases hd with rfl | rfl
      · exact ⟨rfl, fun _ => ⟨by decide, reaches_host (by decide) (by decide) ⟨rfl, rfl, rfl⟩ (by decide) (by decide) (by decide)⟩, fun h => absurd h (by decide)⟩
      · exact ⟨rfl, fun h => absurd h (by decide), fun _ => ⟨by decide, reaches_host (by decide) (by decide) ⟨rfl, rfl, rfl⟩ (by decide +kernel) (by decide) (by decide)⟩⟩
  · exact reaches_host (by decide) (by decide) ⟨rfl, rfl, rfl⟩ (by decide) (by decide) (by decide)

/-! ### Steps on these states -/

/-- R317, R338, R347: TRAP 0x42 stops the pack with code 0x17 and FVA 0x42, the split at the successor. -/
theorem test_trap :
    (match exec (.trap lg 0x42) (onCore []) with
      | .next t => (look (t.core 0).packs 0).elim false (fun p => p.stop.elim false (fun x => x.fault.elim false (fun f =>
          f.code == 0x17 && f.fva == 0x42)) && (p.split 0).elim false (fun x => x.pc == 12))
      | _ => false) = true := by decide

/-- R357, R365: IRET leaves the handler for EPC, with ESTAT.EXL 0. -/
theorem test_iret :
    (match exec (.iret sh) ((onService []).updCore 64 (fun c => { c with epc := 0x1000 })) with
      | .next t => (t.core 64).exl == false && (look (t.core 64).packs 0).elim false (fun p => (p.split 0).elim false (fun x => x.pc == 0x1000))
      | _ => false) = true := by decide

/-- R136, R150: SSTS puts the bytes of its register into the window, least significant first, and no more than the type has. -/
theorem test_scratch_store :
    (match exec (.ssts wd .n16 4 2 5) (onCore [(4, 0x10), (5, 0xAABBCCDD)]) with
      | .next t => (t.core 0).spRead (4096 + 0x11) 4 == [0, 0xDD, 0xCC, 0]
      | _ => false) = true := by decide

end Sys2Proof.Tests
end

section
/-! What reset leaves: no byte of memory lists, and the registers hold the values that the spec states. -/

namespace Sys2Proof.Machine

/-- No slice stands keyed without a scrub, so every byte reads 0. -/
theorem State.reset_byte (a : Nat) : State.reset.byte a = 0 := by
  have veil : State.reset.unlisted a = 0#8 := if_pos rfl
  rw [State.byte, veil, BitVec.xor_zero]
  rfl

/-- No core has been touched: each is as its own reset leaves it. -/
theorem State.reset_core (n : Nat) : State.reset.core n = Core.init := rfl

/-- SLICE_STAT.PART: no slice belongs to a partition (R29). -/
theorem State.reset_sliceStat : ∀ sl, sl < 96 → fld (State.reset.regVal (sliceStat sl)) 8 8 = 0xFF := by decide

/-- PART_SCHED starts at 9 (R334). -/
theorem State.reset_partSched : ∀ p, p < 32 → State.reset.regVal (partSched p) = 9 := by decide

/-- PWR_LIM starts at its reset value (R413). -/
theorem State.reset_pwrLim : State.reset.regVal pwrLim = pwrLimReset := by decide

/-- BOOT_STAT starts at 0 (R402). -/
theorem State.reset_bootStat : State.reset.regVal bootStat = 0 := by decide

/-- Settles O55: the lists of the reset state are empty, and what is read of it is read from its registers' reset values. -/
theorem resetState : Obligations.ResetState := by
  refine ⟨rfl, Memory.wf_reset, rfl, State.reset_byte, rfl, rfl, rfl, rfl, rfl, fun n => ?_, State.reset_sliceStat, State.reset_partSched, ?_⟩
  · rw [State.reset_core]
    exact ⟨rfl, rfl, rfl, rfl, rfl⟩
  · rw [State.reset_pwrLim, State.reset_bootStat]
    decide

end Sys2Proof.Machine
end

section
/-! Memory's canonical form (R8, R14; the form is entry 3 of the assumption log) as an invariant of every step.

Only `State.setBytes` writes bytes of memory and only `keep` drops them; both keep the form (`Memory.wf_setBytes`, `Memory.wf_keep`). So
the development has one lemma for each function of the machine that hands the state on, `State.Canon.f` for `f`: if memory is canonical
before `f`, it is canonical in whatever state `f` answers with. Each follows from the lemmas of the functions that `f` calls. The lemmas
stand in the order of the model's files, up to `State.Canon.step`. -/

namespace Sys2Proof.Machine

/-- Memory stands in its canonical form (R8, R14). -/
structure State.Canon (s : State) : Prop where
  wf : Memory.wf s.mem = true

/-- Memory that has not changed is in its canonical form as before. -/
theorem State.Canon.of_mem {s t : State} (h : s.Canon) (e : t.mem = s.mem) : t.Canon := ⟨e ▸ h.wf⟩

/-- The same, with what has not changed named first. -/
theorem State.Canon.frame {s t : State} (e : t.mem = s.mem) (h : s.Canon) : t.Canon := ⟨e ▸ h.wf⟩

/-- Dropping bytes of memory keeps what is left in its canonical form. -/
theorem State.Canon.of_keep {s t : State} {p : Nat → Bool} (h : s.Canon) (e : t.mem = keep p s.mem) : t.Canon :=
  ⟨e ▸ Memory.wf_keep s.mem p h.wf⟩

/-- The state that an instruction or an event leaves has its memory in canonical form. -/
def NextCanon : Host.Outcome State Fault Refusal → Prop
  | .next t => t.Canon
  | _ => True

/-! The same of each kind of answer that hands a state on; an answer without a state has nothing to keep. -/

def Served.Canon : Served → Prop
  | .done s => s.Canon
  | .txn s _ => s.Canon
  | .blocked s => s.Canon

def Sync.Canon {α : Type} (p : α → Prop) : Sync α → Prop
  | .ok x => p x
  | .fault _ => True
  | .busy s => s.Canon

def EngRes.Canon {α : Type} : EngRes α → Prop
  | .ok _ s => s.Canon
  | .fault _ _ => True
  | .busy s => s.Canon

def Work.Canon {α : Type} : Work α → Prop
  | .ok _ s => s.Canon
  | .busy s => s.Canon
  | .page s => s.Canon
  | .failed _ => True

def Res.Canon : Res → Prop
  | .done v => v.s.Canon
  | .jump v _ => v.s.Canon
  | .trap v _ => v.s.Canon
  | .hold v => v.s.Canon
  | .state s => s.Canon
  | _ => True

def Rel.Canon : Rel → Prop
  | .hold v => v.s.Canon
  | .go v => v.s.Canon
  | .wait => True

def Ready.Canon : Ready → Prop
  | .wait v => v.s.Canon
  | .go s _ => s.Canon

def Staging.Canon : Staging → Prop
  | .hold v => v.s.Canon
  | .fault v _ => v.s.Canon
  | .go v _ => v.s.Canon
  | .wait => True

def Aim.Canon : Aim → Prop
  | .any s => s.Canon
  | .die _ s => s.Canon
  | .busy s => s.Canon

def Placed.Canon : Placed → Prop
  | .busy s => s.Canon
  | .done s => s.Canon
  | .none => True

def DescRes.Canon : DescRes → Prop
  | .busy s => s.Canon
  | _ => True

def Put.Canon : Put → Prop
  | .done s => s.Canon
  | .kept s => s.Canon
  | .busy s => s.Canon

def DevQueue.Canon : DevQueue → Prop
  | .busy s => s.Canon
  | _ => True

def Block.Canon : Block → Prop
  | .ok _ s => s.Canon
  | .busy s => s.Canon
  | .fault _ _ => True

def Cleared.Canon : Except State State → Prop
  | .ok s => s.Canon
  | .error s => s.Canon

def CallRes.Canon : CallRes → Prop
  | .done _ s => s.Canon
  | .flash _ s => s.Canon
  | .busy s => s.Canon

def Fetched.Canon : Fetched → Prop
  | .bytes v _ => v.s.Canon
  | .flaw v _ => v.s.Canon
  | .wait s => s.Canon

def Looked.Canon : Looked → Prop
  | .run _ _ s => s.Canon
  | .flaw _ v _ => v.s.Canon
  | .wait s => s.Canon

theorem State.Canon.foldl {α : Type} {f : State → α → State} {l : List α} {s : State} (h : s.Canon)
    (hf : ∀ t x, t.Canon → (f t x).Canon) : (l.foldl f s).Canon := by
  induction l generalizing s with
  | nil => exact h
  | cons x l ih => exact ih (hf s x h)

theorem State.Canon.foldlV {α : Type} {f : View → α → View} {l : List α} {v : View} (h : v.s.Canon)
    (hf : ∀ w x, w.s.Canon → (f w x).s.Canon) : (l.foldl f v).s.Canon := by
  induction l generalizing v with
  | nil => exact h
  | cons x l ih => exact ih (hf v x h)

theorem State.Canon.ite {c : Prop} {_ : Decidable c} {s t : State} (h : s.Canon) (k : t.Canon) :
    (if c then s else t).Canon := by
  split
  · exact h
  · exact k

theorem State.Canon.iteV {c : Prop} {_ : Decidable c} {v w : View} (h : v.s.Canon) (k : w.s.Canon) :
    (if c then v else w).s.Canon := by
  split
  · exact h
  · exact k

theorem State.Canon.getD {o : Option State} {s : State} (h : s.Canon) (k : ∀ t, o = some t → t.Canon) :
    (o.getD s).Canon := by
  cases o with
  | none => exact h
  | some t => exact k t rfl

theorem State.Canon.of_snd {α : Type} {p : α × State} {x : α} {s : State} (h : p.2.Canon) (e : p = (x, s)) :
    s.Canon := by
  rw [e] at h; exact h

theorem State.Canon.of_fst {α : Type} {p : State × α} {x : α} {s : State} (h : p.1.Canon) (e : p = (s, x)) :
    s.Canon := by
  rw [e] at h; exact h

theorem State.Canon.of_sndV {α : Type} {p : α × View} {x : α} {v : View} (h : p.2.s.Canon) (e : p = (x, v)) :
    v.s.Canon := by
  rw [e] at h; exact h

theorem State.Canon.of_fstV {α : Type} {p : View × α} {x : α} {v : View} (h : p.1.s.Canon) (e : p = (v, x)) :
    v.s.Canon := by
  rw [e] at h; exact h

theorem Served.Canon.of_done {r : Served} {s} (h : r.Canon) (e : r = .done s) : s.Canon := by
  rw [e] at h; exact h

theorem Served.Canon.of_txn {r : Served} {s a} (h : r.Canon) (e : r = .txn s a) : s.Canon := by
  rw [e] at h; exact h

theorem Served.Canon.of_blocked {r : Served} {s} (h : r.Canon) (e : r = .blocked s) : s.Canon := by
  rw [e] at h; exact h

theorem Sync.Canon.ite {α : Type} {p : α → Prop} {c : Prop} {_ : Decidable c} {r q : Sync α} (h : Sync.Canon p r)
    (k : Sync.Canon p q) :
    Sync.Canon p (if c then r else q) := by
  split
  · exact h
  · exact k

theorem Sync.Canon.of_ok {α : Type} {p : α → Prop} {r : Sync α} {x} (h : Sync.Canon p r) (e : r = .ok x) : p x := by
  rw [e] at h; exact h

theorem Sync.Canon.of_busy {α : Type} {p : α → Prop} {r : Sync α} {s} (h : Sync.Canon p r) (e : r = .busy s) :
    s.Canon := by
  rw [e] at h; exact h

theorem EngRes.Canon.ite {α : Type} {c : Prop} {_ : Decidable c} {r q : EngRes α} (h : r.Canon) (k : q.Canon) :
    (if c then r else q).Canon := by
  split
  · exact h
  · exact k

theorem EngRes.Canon.of_ok {α : Type} {r : EngRes α} {a s} (h : r.Canon) (e : r = .ok a s) : s.Canon := by
  rw [e] at h; exact h

theorem EngRes.Canon.of_busy {α : Type} {r : EngRes α} {s} (h : r.Canon) (e : r = .busy s) : s.Canon := by
  rw [e] at h; exact h

theorem Work.Canon.of_ok {α : Type} {r : Work α} {a s} (h : r.Canon) (e : r = .ok a s) : s.Canon := by
  rw [e] at h; exact h

theorem Work.Canon.of_busy {α : Type} {r : Work α} {s} (h : r.Canon) (e : r = .busy s) : s.Canon := by
  rw [e] at h; exact h

theorem Work.Canon.of_page {α : Type} {r : Work α} {s} (h : r.Canon) (e : r = .page s) : s.Canon := by
  rw [e] at h; exact h

theorem Rel.Canon.ite {c : Prop} {_ : Decidable c} {r q : Rel} (h : r.Canon) (k : q.Canon) :
    (if c then r else q).Canon := by
  split
  · exact h
  · exact k

theorem Rel.Canon.of_hold {r : Rel} {v} (h : r.Canon) (e : r = .hold v) : v.s.Canon := by
  rw [e] at h; exact h

theorem Rel.Canon.of_go {r : Rel} {v} (h : r.Canon) (e : r = .go v) : v.s.Canon := by
  rw [e] at h; exact h

theorem Ready.Canon.of_wait {r : Ready} {v} (h : r.Canon) (e : r = .wait v) : v.s.Canon := by
  rw [e] at h; exact h

theorem Ready.Canon.of_go {r : Ready} {s a} (h : r.Canon) (e : r = .go s a) : s.Canon := by
  rw [e] at h; exact h

theorem Staging.Canon.of_hold {r : Staging} {v} (h : r.Canon) (e : r = .hold v) : v.s.Canon := by
  rw [e] at h; exact h

theorem Staging.Canon.of_fault {r : Staging} {v a} (h : r.Canon) (e : r = .fault v a) : v.s.Canon := by
  rw [e] at h; exact h

theorem Staging.Canon.of_go {r : Staging} {v a} (h : r.Canon) (e : r = .go v a) : v.s.Canon := by
  rw [e] at h; exact h

theorem Aim.Canon.of_any {r : Aim} {s} (h : r.Canon) (e : r = .any s) : s.Canon := by
  rw [e] at h; exact h

theorem Aim.Canon.of_die {r : Aim} {a s} (h : r.Canon) (e : r = .die a s) : s.Canon := by
  rw [e] at h; exact h

theorem Aim.Canon.of_busy {r : Aim} {s} (h : r.Canon) (e : r = .busy s) : s.Canon := by
  rw [e] at h; exact h

theorem Placed.Canon.of_busy {r : Placed} {s} (h : r.Canon) (e : r = .busy s) : s.Canon := by
  rw [e] at h; exact h

theorem Placed.Canon.of_done {r : Placed} {s} (h : r.Canon) (e : r = .done s) : s.Canon := by
  rw [e] at h; exact h

theorem DescRes.Canon.of_busy {r : DescRes} {s} (h : r.Canon) (e : r = .busy s) : s.Canon := by
  rw [e] at h; exact h

theorem Put.Canon.of_done {r : Put} {s} (h : r.Canon) (e : r = .done s) : s.Canon := by
  rw [e] at h; exact h

theorem Put.Canon.of_kept {r : Put} {s} (h : r.Canon) (e : r = .kept s) : s.Canon := by
  rw [e] at h; exact h

theorem Put.Canon.of_busy {r : Put} {s} (h : r.Canon) (e : r = .busy s) : s.Canon := by
  rw [e] at h; exact h

theorem DevQueue.Canon.of_busy {r : DevQueue} {s} (h : r.Canon) (e : r = .busy s) : s.Canon := by
  rw [e] at h; exact h

theorem Block.Canon.of_ok {r : Block} {a s} (h : r.Canon) (e : r = .ok a s) : s.Canon := by
  rw [e] at h; exact h

theorem Block.Canon.of_busy {r : Block} {s} (h : r.Canon) (e : r = .busy s) : s.Canon := by
  rw [e] at h; exact h

theorem CallRes.Canon.of_done {r : CallRes} {a s} (h : r.Canon) (e : r = .done a s) : s.Canon := by
  rw [e] at h; exact h

theorem CallRes.Canon.of_flash {r : CallRes} {a s} (h : r.Canon) (e : r = .flash a s) : s.Canon := by
  rw [e] at h; exact h

theorem CallRes.Canon.of_busy {r : CallRes} {s} (h : r.Canon) (e : r = .busy s) : s.Canon := by
  rw [e] at h; exact h

theorem Fetched.Canon.of_bytes {r : Fetched} {v a} (h : r.Canon) (e : r = .bytes v a) : v.s.Canon := by
  rw [e] at h; exact h

theorem Fetched.Canon.of_flaw {r : Fetched} {v a} (h : r.Canon) (e : r = .flaw v a) : v.s.Canon := by
  rw [e] at h; exact h

theorem Fetched.Canon.of_wait {r : Fetched} {s} (h : r.Canon) (e : r = .wait s) : s.Canon := by
  rw [e] at h; exact h

theorem Looked.Canon.of_run {r : Looked} {a b s} (h : r.Canon) (e : r = .run a b s) : s.Canon := by
  rw [e] at h; exact h

theorem Looked.Canon.of_flaw {r : Looked} {a v b} (h : r.Canon) (e : r = .flaw a v b) : v.s.Canon := by
  rw [e] at h; exact h

theorem Looked.Canon.of_wait {r : Looked} {s} (h : r.Canon) (e : r = .wait s) : s.Canon := by
  rw [e] at h; exact h

/-- Every change of the list, made to a state whose memory is in canonical form, leaves one. -/
def Changes.Canon (l : List Change) : Prop := ∀ f ∈ l, ∀ t : State, t.Canon → (f t).Canon

theorem Changes.Canon.nil : Changes.Canon [] := fun _ hf => nomatch hf

theorem Changes.Canon.cons {f : Change} {l : List Change} (hf : ∀ t : State, t.Canon → (f t).Canon)
    (hl : Changes.Canon l) :
    Changes.Canon (f :: l) := List.forall_mem_cons.2 ⟨hf, hl⟩

theorem Changes.Canon.append {l k : List Change} (hl : Changes.Canon l) (hk : Changes.Canon k) :
    Changes.Canon (l ++ k) :=
  List.forall_mem_append.2 ⟨hl, hk⟩

theorem Changes.Canon.map {α : Type} {l : List α} {f : α → Change} (h : ∀ x, ∀ t : State, t.Canon → (f x t).Canon) :
    Changes.Canon (l.map f) := List.forall_mem_map.2 fun x _ => h x

theorem Changes.Canon.flatMap {α : Type} {l : List α} {f : α → List Change} (h : ∀ x, Changes.Canon (f x)) :
    Changes.Canon (l.flatMap f) := List.forall_mem_flatMap.2 fun x _ => h x

theorem Changes.Canon.ite {c : Prop} {_ : Decidable c} {l k : List Change} (hl : Changes.Canon l)
    (hk : Changes.Canon k) :
    Changes.Canon (if c then l else k) := by
  split
  · exact hl
  · exact hk

theorem NextCanon.ite {c : Prop} {_ : Decidable c} {o p : Host.Outcome State Fault Refusal} (h : NextCanon o)
    (k : NextCanon p) :
    NextCanon (if c then o else p) := by
  split
  · exact h
  · exact k

theorem NextCanon.of_next {o : Host.Outcome State Fault Refusal} {t : State} (h : NextCanon o) (e : o = .next t) :
    t.Canon := by
  rw [e] at h; exact h

end Sys2Proof.Machine
end

section
/-! Memory's canonical form across the state's operations. -/

namespace Sys2Proof.Machine

variable {s : State} {v : View}

theorem State.Canon.setBytes {pa a2} (h : s.Canon) : (s.setBytes pa a2).Canon := ⟨Memory.wf_setBytes _ _ _ h.wf⟩

theorem State.Canon.setWord {w v} (h : s.Canon) : (s.setWord w v).Canon := h.setBytes

theorem State.Canon.send {src dst b} (h : s.Canon) : (s.send src dst b).Canon := h.of_mem rfl

theorem State.Canon.fresh1 (h : s.Canon) : s.fresh1.2.Canon := h.of_mem rfl

theorem State.Canon.draw (h : s.Canon) : s.draw.2.Canon := h.of_mem rfl

theorem State.Canon.setMreg {a v} (h : s.Canon) : (s.setMreg a v).Canon := h.of_mem rfl

theorem State.Canon.setCore {a c} (h : s.Canon) : (s.setCore a c).Canon := h.of_mem rfl

theorem State.Canon.updCore {a f} (h : s.Canon) : (s.updCore a f).Canon := h.of_mem rfl

theorem State.Canon.viewAt {p u} (h : s.Canon) (e : s.viewAt p = some u) : u.s.Canon := by
  revert e
  unfold State.viewAt
  split
  · nofun
  · split
    · nofun
    · rintro ⟨⟩
      exact h

theorem State.Canon.view {u} (h : s.Canon) (e : s.view = some u) : u.s.Canon := by
  revert e
  unfold State.view
  exact h.viewAt

theorem State.Canon.close (h : v.s.Canon) : v.close.Canon := h.of_mem rfl

theorem State.Canon.onPack {f} (h : v.s.Canon) : (v.onPack f).s.Canon := by
  unfold View.onPack
  dsimp only
  split <;> exact h

theorem State.Canon.settle (h : v.s.Canon) : v.settle.s.Canon := h.onPack

theorem State.Canon.kill {r m} (h : v.s.Canon) : (v.kill r m).s.Canon := by
  unfold View.kill
  extract_lets w mine
  have hw : w.s.Canon := h.foldlV fun _ _ hx => hx
  exact hw

theorem State.Canon.lastUse {is64 x m} (h : v.s.Canon) : (v.lastUse is64 x m).s.Canon :=
  h.iteV (h.kill.kill.iteV h.kill)

theorem State.Canon.queueFile {w lat} (h : v.s.Canon) : (v.queueFile w lat).s.Canon := h.of_mem rfl

theorem State.Canon.wmask {ws lat} (h : v.s.Canon) : (v.wmask ws lat).s.Canon := h.of_mem rfl

theorem State.Canon.ws {r x lat} (h : v.s.Canon) : (v.ws r x lat).s.Canon := h.iteV (h.wmask.iteV h.queueFile)

theorem State.Canon.wa {r x lat} (h : v.s.Canon) : (v.wa r x lat).s.Canon := h.of_mem rfl

theorem State.Canon.wp {r m x lat} (h : v.s.Canon) : (v.wp r m x lat).s.Canon := h.iteV h.queueFile

theorem State.Canon.wrow1 {row m x lat} (h : v.s.Canon) : (v.wrow1 row m x lat).s.Canon := h.of_mem rfl

theorem State.Canon.wv {is64 n m f lat} (h : v.s.Canon) : (v.wv is64 n m f lat).s.Canon := h.wrow1.wrow1.iteV h.wrow1

theorem State.Canon.flush (h : v.s.Canon) : v.flush.s.Canon := h.onPack

theorem State.Canon.postEvent {cluster e} (h : s.Canon) : (s.postEvent cluster e).Canon := h.of_mem rfl

theorem State.Canon.failService {n code} (h : s.Canon) : (s.failService n code).Canon := by
  unfold State.failService
  dsimp only
  split
  · exact (h.of_mem (by rfl)).postEvent
  · exact h.of_mem rfl

theorem State.Canon.enter {cause epc fva info} (h : v.s.Canon) : (v.enter cause epc fva info).Canon :=
  h.close.failService.ite (h.of_mem (by rfl)).close

theorem State.Canon.eret (h : v.s.Canon) : v.eret.s.Canon := h.of_mem rfl

theorem State.Canon.raise {f} (h : v.s.Canon) : (v.raise f).Canon := by
  unfold View.raise
  split
  · exact h.enter.ite h.close
  · split <;> exact (h.of_mem (by rfl)).close

theorem State.Canon.raise0 {code} (h : v.s.Canon) : (v.raise0 code).Canon := h.raise

end Sys2Proof.Machine
end

section
/-! Memory's canonical form across the issue of a word: its waits, its faults and its traps. -/

namespace Sys2Proof.Machine

variable {s : State} {v : View}

theorem State.Canon.stallGuard {g u} (h : v.s.Canon) (e : v.stallGuard g = some u) : u.Canon := by
  revert e
  unfold View.stallGuard
  split
  · dsimp only
    rintro ⟨⟩
    exact h.draw.raise
  · nofun

theorem State.Canon.stalls {ps u} (h : v.s.Canon) (e : v.stalls ps = some u) : u.Canon := by
  obtain ⟨p, -, k⟩ := List.exists_of_findSome?_eq_some e
  split at k
  · cases k
    exact State.Canon.raise h
  · exact State.Canon.stallGuard h k

theorem State.Canon.ready {c waits us u} (h : v.s.Canon) (e : v.ready c waits us = some u) : u.s.Canon := by
  revert e
  unfold View.ready
  split
  · nofun
  · split
    · nofun
    · dsimp only
      split
      · nofun
      · split
        · nofun
        · rintro ⟨⟩
          exact (h.of_mem (by rfl)).settle

theorem State.Canon.finishKeep {kept c pc} (h : v.s.Canon) : (v.finishKeep kept c pc).s.Canon :=
  State.Canon.frame rfl (.onPack (.frame rfl h))

theorem State.Canon.finish {c pc} (h : v.s.Canon) : (v.finish c pc).s.Canon := h.finishKeep

theorem State.Canon.tokenFor {c lat} (h : v.s.Canon) : (v.tokenFor c lat).s.Canon := (h.of_mem (by rfl)).iteV h

theorem State.Canon.tokenV {c} (h : v.s.Canon) : (v.tokenV c).1.s.Canon := by
  unfold View.tokenV
  split <;> exact h

theorem State.Canon.outV {d} (h : v.s.Canon) : (v.outV d).s.Canon := h.iteV h

theorem State.Canon.trapAfter {w : View} {c pc f} (h : w.s.Canon) : (w.trapAfter c pc f).Canon :=
  h.finish.enter.ite (h.finish.of_mem (by rfl)).close

theorem State.Canon.answer {c} {r : Res} {s0 : State} (h : v.s.Canon) (h1 : r.Canon) (h2 : s0.Canon) :
    (v.answer c r s0).Canon := by
  unfold View.answer
  split
  · exact h1.finish.close
  · exact h1.finish.close
  · exact h.raise
  · exact h1.trapAfter
  · exact h2
  · exact h1.close
  · exact h1

theorem State.Canon.reconverge (h : v.s.Canon) : v.reconverge.s.Canon := h.onPack

theorem State.Canon.issueG {c ps waits chk wide} {body : View → Sys2Proof.Mask → Res}
    (h : ∀ x0 x1, x0.s.Canon → (body x0 x1).Canon) (h1 : s.Canon) :
    NextCanon (Machine.issueG c ps waits chk wide body s) := by
  unfold Machine.issueG
  split
  · trivial
  · next v₀ e₀ =>
    have h₀ : v₀.s.Canon := h1.view e₀
    split
    · exact h1
    · next v e =>
      have hv : v.s.Canon := h₀.ready e
      split
      · exact hv.stalls ‹_›
      · split
        · exact State.Canon.close hv
        · extract_lets w act
          have hw : w.s.Canon := hv.reconverge.iteV hv
          split
          · exact hw.finish.close
          · split
            · exact hw.raise
            · split
              · exact hw.raise
              · exact hw.raise
              · exact hw.answer (h _ _ hw) h1

theorem State.Canon.issueW {c g waits us wide} {body : View → Sys2Proof.Mask → Res}
    (h : ∀ x0 x1, x0.s.Canon → (body x0 x1).Canon) (h1 : s.Canon) :
    NextCanon (Machine.issueW c g waits us wide body s) :=
  State.Canon.issueG h h1

theorem State.Canon.issue {c us} {body : View → Sys2Proof.Mask → Res} (h : ∀ x0 x1, x0.s.Canon → (body x0 x1).Canon)
    (h1 : s.Canon) :
    NextCanon (Machine.issue c us body s) :=
  State.Canon.issueW h h1

theorem State.Canon.issueWide {c us} {body : View → Sys2Proof.Mask → Res}
    (h : ∀ x0 x1, x0.s.Canon → (body x0 x1).Canon) (h1 : s.Canon) :
    NextCanon (Machine.issueWide c us body s) :=
  State.Canon.issueW h h1

end Sys2Proof.Machine
end

section
/-! Memory's canonical form across the flags of floating point. -/

namespace Sys2Proof.Machine

variable {s : State} {v : View}

theorem State.Canon.orFpf {f} (h : v.s.Canon) : (v.orFpf f).s.Canon := h.of_mem rfl

theorem State.Canon.setAov (h : v.s.Canon) : v.setAov.s.Canon := h.of_mem rfl

end Sys2Proof.Machine
end

section
/-! Memory's canonical form across the reads and the last uses of operands. -/

namespace Sys2Proof.Machine

variable {s : State} {v : View}

theorem State.Canon.lastO {is64 o m} (h : v.s.Canon) : (v.lastO is64 o m).s.Canon := by
  unfold View.lastO
  split
  · exact h.lastUse
  · exact h

theorem State.Canon.putS {c d x lat} (h : v.s.Canon) : (v.putS c d x lat).s.Canon := h.ws.tokenFor

theorem State.Canon.putA {c d x} (h : v.s.Canon) : (v.putA c d x).s.Canon := h.wa.tokenFor

theorem State.Canon.putP {c d m x lat} (h : v.s.Canon) : (v.putP c d m x lat).s.Canon := h.wp.tokenFor

theorem State.Canon.putV {c is64 d m xs lat} (h : v.s.Canon) : (v.putV c is64 d m xs lat).s.Canon := h.wv.tokenFor

theorem State.Canon.leave {c d held} (h : v.s.Canon) : (v.leave c d held).1.s.Canon :=
  (h.outV.tokenV.of_mem (by rfl)).iteV h.outV.tokenV

end Sys2Proof.Machine
end

section
/-! Memory's canonical form across the affine instructions. -/

namespace Sys2Proof.Machine

variable {s : State} {v : View}

theorem State.Canon.affine {c act wide t d base stride exact} (h : v.s.Canon) :
    (v.affine c act wide t d base stride exact).Canon := by
  unfold View.affine
  extract_lets w bad badStride x u
  have hu : u.s.Canon := h.setAov.iteV h
  split
  · trivial
  · exact hu.putA

theorem State.Canon.execAmovi {c w64 t d base stride} (h : s.Canon) :
    NextCanon (Machine.execAmovi c w64 t d base stride s) :=
  State.Canon.issue (fun _ _ hv => hv.affine) h

theorem State.Canon.execAadd {c w64 t d a b} (h : s.Canon) : NextCanon (Machine.execAadd c w64 t d a b s) :=
  State.Canon.issue (fun _ _ hv => hv.affine) h

theorem State.Canon.execAsub {c w64 t d a b} (h : s.Canon) : NextCanon (Machine.execAsub c w64 t d a b s) :=
  State.Canon.issue (fun _ _ hv => hv.affine) h

theorem State.Canon.execAadds {c neg w64 t d a b} (h : s.Canon) :
    NextCanon (Machine.execAadds c neg w64 t d a b s) :=
  State.Canon.issue (fun _ _ hv => hv.affine) h

theorem State.Canon.execAmuls {c w64 t d a b} (h : s.Canon) : NextCanon (Machine.execAmuls c w64 t d a b s) :=
  State.Canon.issue (fun _ _ hv => hv.affine) h

theorem State.Canon.execAshls {c w64 t d a b} (h : s.Canon) : NextCanon (Machine.execAshls c w64 t d a b s) :=
  State.Canon.issue (fun _ _ hv => hv.affine) h

theorem State.Canon.execPsa {c w64 t d base stride} (h : s.Canon) :
    NextCanon (Machine.execPsa c w64 t d base stride s) :=
  State.Canon.issue (fun _ _ hv => hv.affine) h

theorem State.Canon.execPsv {c t d a} (h : s.Canon) : NextCanon (Machine.execPsv c t d a s) :=
  State.Canon.issue (fun _ _ hv => hv.putV) h

theorem State.Canon.execPav {c t d a} (h : s.Canon) : NextCanon (Machine.execPav c t d a s) :=
  State.Canon.issue (fun _ _ hv => hv.putV) h

theorem State.Canon.execVpick {c t d a i} (h : s.Canon) : NextCanon (Machine.execVpick c t d a i s) :=
  State.Canon.issueWide (fun _ _ hv => hv.lastUse.putS) h

theorem State.Canon.execVballot {c beat d a} (h : s.Canon) : NextCanon (Machine.execVballot c beat d a s) := by
  unfold Machine.execVballot
  split
  · refine State.Canon.issueWide (fun v act hv => ?_) h
    extract_lets m ws mk w
    have hw : w.s.Canon := State.Canon.foldlV hv fun _ _ hx => hx.ws
    exact State.Canon.tokenFor (State.Canon.iteV hw hw.wmask)
  · exact State.Canon.issueWide (fun _ _ hv => hv.putS) h

theorem State.Canon.execVany {c d a} (h : s.Canon) : NextCanon (Machine.execVany c d a s) :=
  State.Canon.issueWide (fun _ _ hv => hv.putS) h

theorem State.Canon.execVall {c d a} (h : s.Canon) : NextCanon (Machine.execVall c d a s) :=
  State.Canon.issueWide (fun _ _ hv => hv.putS) h

theorem State.Canon.reduce {int flt c t d a} (h : s.Canon) : NextCanon (Machine.reduce int flt c t d a s) := by
  unfold Machine.reduce
  refine State.Canon.issueWide (fun _ _ hv => ?_) h
  split
  · exact hv.lastUse.orFpf.putS
  · exact hv.lastUse.putS

theorem State.Canon.execVredadd {c t d a} (h : s.Canon) : NextCanon (Machine.execVredadd c t d a s) := h.reduce

theorem State.Canon.execVredmin {c t d a} (h : s.Canon) : NextCanon (Machine.execVredmin c t d a s) := h.reduce

theorem State.Canon.execVredmax {c t d a} (h : s.Canon) : NextCanon (Machine.execVredmax c t d a s) := h.reduce

theorem State.Canon.execAgetb {c n d a} (h : s.Canon) : NextCanon (Machine.execAgetb c n d a s) :=
  State.Canon.issue (fun _ _ hv => hv.putS) h

theorem State.Canon.execAgets {c w d a} (h : s.Canon) : NextCanon (Machine.execAgets c w d a s) :=
  State.Canon.issue (fun _ _ hv => hv.putS) h

end Sys2Proof.Machine
end

section
/-! Memory's canonical form across the recording of errors. -/

namespace Sys2Proof.Machine

variable {s : State} {v : View}

theorem State.Canon.postPart {p e} (h : s.Canon) : (s.postPart p e).Canon := h.foldl fun _ _ ht => ht.postEvent

theorem State.Canon.logError {kind pa part die unit info} (h : s.Canon) :
    (s.logError kind pa part die unit info).Canon := by
  unfold State.logError
  extract_lets n i p a s₁ s₂ s₃ lost s₄ s₅
  have h₁ : s₁.Canon := h.setMreg.setMreg
  have h₄ : s₄.Canon := h₁.setMreg.setMreg.setMreg
  have h₅ : s₅.Canon := h₄.of_mem rfl
  split
  · exact h₅.postPart
  · exact h₅

end Sys2Proof.Machine
end

section
/-! Memory's canonical form at the home of a word: the one place where transactions write bytes. -/

namespace Sys2Proof.Machine

variable {s : State} {v : View}

theorem State.Canon.setReg {w r} (h : s.Canon) : (s.setReg w r).Canon := h.of_mem rfl

theorem State.Canon.zeroLine {l} (h : s.Canon) : (s.zeroLine l).Canon := by
  unfold State.zeroLine
  exact State.Canon.foldl (h.of_mem (by rfl)) fun _ _ ht => ht.setWord

theorem State.Canon.retag {w} (h : s.Canon) : (s.retag w).Canon := h.of_mem rfl

theorem State.Canon.countEnci {w} (h : s.Canon) : (s.countEnci w).Canon := by
  unfold State.countEnci
  split
  · extract_lets l n t z b fresh u
    have ht : t.Canon := h.retag
    have hz : z.Canon := ht.zeroLine
    have hu : u.Canon := ht.foldl fun _ _ hw => hw.zeroLine
    split
    · exact hz.of_mem rfl
    · split
      · exact ht.of_mem rfl
      · exact hu.of_mem rfl
  · exact h

theorem State.Canon.putWord {w m d} (h : s.Canon) : (s.putWord w m d).Canon := h.setWord

theorem State.Canon.homeWrite {w m d} (h : s.Canon) : (s.homeWrite w m d).Canon := h.countEnci.putWord

theorem State.Canon.clearPoison {w cov} (h : s.Canon) : (s.clearPoison w cov).Canon := by
  unfold State.clearPoison
  extract_lets t
  have ht : t.Canon := (h.of_mem (by rfl)).ite h
  exact (ht.of_mem (by rfl)).ite ht

theorem State.Canon.inspect {w} (h : s.Canon) : (s.inspect w).Canon := (h.of_mem (by rfl)).logError.ite h

theorem State.Canon.refuse {r w code} (h : s.Canon) : (s.refuse r w code).Canon := by
  unfold State.refuse
  split
  · exact h
  · exact h.send

theorem State.Canon.recallAll {r ws} (h : s.Canon) : (s.recallAll r ws).Canon := by
  unfold State.recallAll
  exact State.Canon.foldl h.fresh1 fun _ _ ht => ht.send

theorem State.Canon.callbacks {r ws} (h : s.Canon) : (s.callbacks r ws).Canon :=
  h.foldl (s := s) fun _ _ ht => ht.send

theorem State.Canon.gather {r ws} (h : s.Canon) : (s.gather r ws).Canon := by
  unfold State.gather
  dsimp only
  split
  · exact h.recallAll
  · exact h.callbacks

theorem State.Canon.makeRoom {line u} (h : s.Canon) (e : s.makeRoom line = some u) : u.Canon := by
  revert e
  unfold State.makeRoom
  dsimp only
  split
  · nofun
  · split
    · nofun
    · rintro ⟨⟩
      exact h.of_mem rfl

theorem State.Canon.touch {w} (h : s.Canon) : (s.touch w).Canon := h.of_mem rfl

theorem State.Canon.atomAt {r ls} (h : s.Canon) : (s.atomAt r ls).Canon := by
  unfold State.atomAt
  extract_lets w t
  have ht : t.Canon := h.touch.countEnci
  split
  extract_lets u
  have hu : u.Canon := by
    unfold u
    split
    · exact ht.putWord
    · exact ht.putWord.putWord
    · exact ht
  exact hu.send

theorem State.Canon.register {r w m cb} (h : s.Canon) : (s.register r w m cb).Canon := by
  unfold State.register
  split
  · exact h.makeRoom ‹_›
  · exact h.clearPoison.touch.setReg.send

theorem State.Canon.serveRead {r w copy acq} (h : s.Canon) : (s.serveRead r w copy acq).Canon := by
  unfold State.serveRead
  split
  · split
    · split
      · exact h.send
      · exact h.refuse
    · exact h.touch.send
  · split
    · exact h.callbacks
    · exact h.touch.send
  · exact h.gather
  · split
    · exact h.send
    · exact h.refuse

theorem State.Canon.serveRegw {r w m cb} (h : s.Canon) : (s.serveRegw r w m cb).Canon := by
  unfold State.serveRegw
  dsimp only
  split
  · split
    · exact h.refuse
    · exact h.register
  · split
    · exact h.setReg.touch.send
    · split
      · exact h.setReg.touch.send
      · exact h.gather
  · split
    · exact h.setReg.touch.send
    · split
      · exact h.setReg.touch.send
      · exact h.gather
  · split
    · exact h.refuse
    · exact h.setWord.register

theorem State.Canon.serveEwr {r w m d} (h : s.Canon) : (s.serveEwr r w m d).Canon := by
  unfold State.serveEwr
  split
  · split
    · exact h.refuse
    · exact h.clearPoison.touch.homeWrite
  · split
    · exact h.refuse
    · exact h.clearPoison.touch.setReg.setWord.homeWrite
  · exact h.gather

theorem State.Canon.serveAtm {r ls} (h : s.Canon) : (s.serveAtm r ls).Canon := by
  unfold State.serveAtm
  split
  · exact h.refuse
  · dsimp only
    split
    · exact h.gather
    · split
      · exact h.refuse
      · exact h.atomAt

theorem State.Canon.serveZap {r w} (h : s.Canon) : (s.serveZap r w).Canon := by
  unfold State.serveZap
  split
  · exact h.refuse
  · extract_lets t
    have ht : t.Canon := h.clearPoison.touch.foldl fun _ _ hu => hu.send
    exact State.Canon.send ht.setReg.countEnci.setWord

theorem State.Canon.bindAttr {r w u} (h : s.Canon) (e : s.bindAttr r w = some u) : u.Canon := by
  revert e
  unfold State.bindAttr
  dsimp only
  split
  · rintro ⟨⟩
    exact h
  · split
    · rintro ⟨⟩
      exact h.of_mem rfl
    · nofun

theorem State.Canon.serve {r} (h : s.Canon) : (s.serve r).Canon := by
  unfold State.serve
  extract_lets w t held x refused
  have ht : t.Canon := h.ite (h.foldl fun _ _ hu => hu.inspect)
  split
  · exact ht.foldl fun _ _ hu => hu.send
  · split
    · exact ht.refuse
    · split
      · exact ht.refuse
      · next b e =>
        have hb : b.Canon := ht.bindAttr e
        extract_lets out
        have ho : out.Canon := by
          unfold out
          split
          · exact hb.serveRead
          · exact hb.serveRead
          · exact hb.serveRegw
          · exact hb.serveEwr
          · exact hb.serveAtm
          · exact hb.serveZap
          · split
            · exact ht
            · exact hb.gather
        clear_value out
        cases out with
        | done u => exact (ho.of_mem (by rfl)).ite ho
        | txn u _ => exact ho.of_mem rfl
        | blocked u => exact ho.of_mem rfl

theorem State.Canon.pumpList {a0 a1} (h : s.Canon) : (Machine.pumpList a0 a1 s).Canon := by
  fun_induction Machine.pumpList with
  | case1 => exact h.of_mem rfl
  | case2 _ _ _ _ _ ih => exact ih h
  | case3 _ _ _ _ _ t e ih => exact ih (h.serve.of_done e)
  | case4 _ _ _ _ _ t x e ih => exact ih ((h.serve.of_txn e).of_mem (by rfl))
  | case5 _ _ _ _ _ t e ih => exact ih (h.serve.of_blocked e)

theorem State.Canon.pump (h : s.Canon) : s.pump.Canon := by
  unfold State.pump
  extract_lets t
  have ht : t.Canon := State.Canon.pumpList (h.of_mem (by rfl))
  exact State.Canon.pumpList (ht.of_mem (by rfl))

theorem State.Canon.arrive {r} (h : s.Canon) : (s.arrive r).Canon := (h.of_mem (by rfl)).pump

theorem State.Canon.mergeWord {t w} (h : s.Canon) : (s.mergeWord t w).Canon := by
  unfold State.mergeWord
  split
  · split
    · exact h.setReg.homeWrite
    · exact h.ite h.setReg
  · split
    · exact h.setReg.homeWrite
    · exact h.homeWrite.setReg.send.ite h.setReg.homeWrite
    · exact h.homeWrite.setReg.send.ite h.setReg.homeWrite
    · exact h.ite h.setReg
  · exact h

theorem State.Canon.advance {t} (h : s.Canon) : (s.advance t).Canon := by
  unfold State.advance
  split
  · exact h.of_mem rfl
  · split
    · extract_lets os
      split
      extract_lets u
      next num w e =>
      have hw : w.Canon := h.fresh1.of_snd e
      have hu : u.Canon := hw.foldl fun _ _ hx => hx.send
      exact hu.of_mem rfl
    · extract_lets u
      have hu : u.Canon := h.foldl fun _ _ hw => hw.mergeWord
      split
      · exact hu.refuse.pump
      · split
        · exact (hu.of_mem (by rfl)).pump
        · split
          · exact (hu.serve.of_done ‹_›).pump
          · exact (hu.serve.of_txn ‹_›).of_mem (by rfl)
          · exact ((hu.serve.of_blocked ‹_›).of_mem (by rfl)).pump

theorem State.Canon.answerTxn {p f u} (h : s.Canon) (e : s.answerTxn p f = some u) : u.Canon := by
  revert e
  unfold State.answerTxn
  split
  · rintro ⟨⟩
    exact (h.of_mem (by rfl)).advance
  · nofun

theorem State.Canon.staleAll {line} (h : s.Canon) : (s.staleAll line).Canon := h.ite (h.of_mem (by rfl))

theorem State.Canon.fwdDone {a w r d} (h : s.Canon) : (s.fwdDone a w r d).Canon := by
  unfold State.fwdDone
  dsimp only
  split
  · exact (h.of_mem (by rfl)).pump
  · exact h.send

theorem State.Canon.splitWbd {a w other m d cb} (h : s.Canon) : (s.splitWbd a w other m d cb).Canon := by
  unfold State.splitWbd
  split
  · exact (h.of_mem (by rfl)).advance
  · exact (h.of_mem (by rfl)).ite h.advance

theorem State.Canon.takeWbd {a w m d} (h : s.Canon) : (s.takeWbd a w m d).Canon := by
  unfold State.takeWbd
  split
  · exact h.answerTxn ‹_›
  · split
    · exact h.touch.setReg.homeWrite.pump.ite h
    · exact h.staleAll.touch.splitWbd.ite h
    · exact h

theorem State.Canon.answerCb {a w} (h : s.Canon) : (s.answerCb a w).Canon := h.getD fun _ e => h.answerTxn e

theorem State.Canon.loseWord {a w} (h : s.Canon) : (s.loseWord a w).Canon := by
  unfold State.loseWord
  dsimp only
  split
  · exact (h.staleAll.touch.setReg.ite h).answerTxn ‹_›
  · exact (h.staleAll.touch.setReg.ite h).answerCb

theorem State.Canon.takeNotheld {a w ask yreq} (h : s.Canon) : (s.takeNotheld a w ask yreq).Canon := by
  unfold State.takeNotheld
  split
  · exact h.getD fun _ e => h.answerTxn e
  · exact h.getD fun _ e => h.answerTxn e
  · exact h.answerCb
  · exact h

theorem State.Canon.raceTxn {p w} (h : s.Canon) : (s.raceTxn p w).Canon := by
  unfold State.raceTxn
  split
  · exact (h.of_mem (by rfl)).refuse.pump.ite (h.of_mem (by rfl)).refuse.advance
  · exact h

theorem State.Canon.takeRace {a w ask yreq} (h : s.Canon) : (s.takeRace a w ask yreq).Canon := by
  unfold State.takeRace
  split
  · exact h.raceTxn
  · exact h.getD fun _ e => h.answerTxn e
  · exact h.raceTxn
  · exact h

theorem State.Canon.takeCallbackDone {a w} (h : s.Canon) : (s.takeCallbackDone a w).Canon := (h.setReg.ite h).answerCb

theorem State.Canon.takeStaleAck {a line} (h : s.Canon) : (s.takeStaleAck a line).Canon :=
  h.getD fun _ e => h.answerTxn e

end Sys2Proof.Machine
end

section
/-! Memory's canonical form across the words of an L1 and its messages. -/

namespace Sys2Proof.Machine

variable {s : State} {v : View}

theorem State.Canon.writeBack {a w} (h : s.Canon) : (s.writeBack a w).Canon := h.of_mem rfl

theorem State.Canon.sendRegw {a w x m slot cb bytes check attr cov cnt} (h : s.Canon) :
    (s.sendRegw a w x m slot cb bytes check attr cov cnt).Canon :=
  h.of_mem rfl

theorem State.Canon.registerFor {a w slot ev cnt} (h : s.Canon) : (s.registerFor a w slot ev cnt).Canon :=
  h.ite h.sendRegw

theorem State.Canon.publish {a w ev} (h : s.Canon) : (s.publish a w ev).Canon := h.registerFor

theorem State.Canon.registerDirty {a w slot ev} (h : s.Canon) : (s.registerDirty a w slot ev).Canon :=
  h.updCore.ite h.registerFor

theorem State.Canon.startCallback {a w own} (h : s.Canon) : (s.startCallback a w own).Canon := by
  unfold State.startCallback
  extract_lets c x more ws t
  have ht : t.Canon := h.updCore
  exact ht.foldl fun _ _ hu => hu.registerDirty

theorem State.Canon.giveWord {a w} (h : s.Canon) : (s.giveWord a w).Canon := h.ite (h.writeBack.ite h.startCallback)

theorem State.Canon.evictFor {a line} (h : s.Canon) : (s.evictFor a line).Canon := by
  unfold State.evictFor
  extract_lets c ls free
  split
  · exact h
  · split
    · exact h
    · extract_lets t
      have ht : t.Canon := h.foldl fun u w hu => by
        split
        · exact hu.giveWord
        · exact hu.registerDirty
        · exact hu.updCore
        · exact hu
      exact ht.updCore.ite ht

theorem State.Canon.useLine {a line asid vpn} (h : s.Canon) : (s.useLine a line asid vpn).Canon := by
  unfold State.useLine
  dsimp only
  split
  · exact (h.of_mem (by rfl)).updCore
  · exact (h.of_mem (by rfl)).evictFor.updCore

theorem State.Canon.lateFault {a slot split f replay} (h : s.Canon) : (s.lateFault a slot split f replay).Canon := by
  unfold State.lateFault
  split
  · dsimp only
    split
    · exact ((h.updCore.viewAt ‹_›).enter).ite h.updCore
    · exact h.updCore
  · exact h.updCore

theorem State.Canon.finishOp {a m} (h : s.Canon) : (s.finishOp a m).Canon := by
  unfold State.finishOp
  dsimp only
  split
  · exact h.setCore
  · exact h.setCore.lateFault

theorem State.Canon.settleOps {a} (h : s.Canon) : (s.settleOps a).Canon := h.foldl fun _ _ ht => ht.finishOp

theorem State.Canon.letGo {a w} (h : s.Canon) : (s.letGo a w).Canon := h.giveWord.ite h.giveWord.updCore.settleOps

theorem State.Canon.settleCallbacks {a} (h : s.Canon) : (s.settleCallbacks a).Canon :=
  h.setCore.foldl fun _ _ ht => ht.letGo.ite ht.send

theorem State.Canon.pushCallbacks {a} (h : s.Canon) : (s.pushCallbacks a).Canon :=
  h.foldl fun _ _ ht => ht.foldl fun _ _ hu => hu.registerDirty

theorem State.Canon.onGrant {a w d} (h : s.Canon) : (s.onGrant a w d).Canon :=
  h.ite ((((h.setCore.giveWord.ite h.setCore).settleOps).pushCallbacks).settleCallbacks)

theorem State.Canon.onRefusal {a w code} (h : s.Canon) : (s.onRefusal a w code).Canon :=
  h.ite h.setCore.settleOps.pushCallbacks.settleCallbacks

theorem State.Canon.keepCopy {a w d r} (h : s.Canon) : (s.keepCopy a w d r).Canon :=
  (h.evictFor.ite h).ite ((((h.evictFor.ite h).updCore).useLine).updCore)

theorem State.Canon.onData {a w d copy tag} (h : s.Canon) : (s.onData a w d copy tag).Canon := by
  unfold State.onData
  refine State.Canon.settleOps ?_
  split
  · exact h.setCore.keepCopy.ite (h.setCore.updCore.ite h.setCore)
  · exact h.setCore.updCore.ite h.setCore

theorem State.Canon.onAtmData {a olds flags tag} (h : s.Canon) : (s.onAtmData a olds flags tag).Canon :=
  h.setCore.settleOps

theorem State.Canon.onFault {a w code tag} (h : s.Canon) : (s.onFault a w code tag).Canon :=
  h.onRefusal.ite h.setCore.settleOps

theorem State.Canon.onFwd {a w r} (h : s.Canon) : (s.onFwd a w r).Canon :=
  h.send.send.ite (h.send.ite (h.send.ite h.send))

theorem State.Canon.giveHalf {a w} (h : s.Canon) : (s.giveHalf a w).Canon := h.of_mem rfl

theorem State.Canon.onRecall {a w bytes num} (h : s.Canon) : (s.onRecall a w bytes num).Canon :=
  h.send.send.ite (h.send.ite (h.send.ite ((h.writeBack.ite h.giveHalf).ite h.send.updCore)))

theorem State.Canon.onDrop {a w} (h : s.Canon) : (s.onDrop a w).Canon := h.send.ite (h.updCore.ite h.updCore)

theorem State.Canon.onCallback {a w bytes} (h : s.Canon) : (s.onCallback a w bytes).Canon :=
  h.send.send.ite (h.send.ite (h.send.ite h.startCallback.settleCallbacks))

theorem State.Canon.onRefill {a w m d} (h : s.Canon) : (s.onRefill a w m d).Canon := h.of_mem rfl

theorem State.Canon.onStale {a line} (h : s.Canon) : (s.onStale a line).Canon := h.of_mem rfl

theorem State.Canon.reapStage {a} (h : s.Canon) : (s.reapStage a).Canon := h.of_mem rfl

end Sys2Proof.Machine
end

section
/-! Memory's canonical form across translation and its walks. -/

namespace Sys2Proof.Machine

variable {s : State} {v : View}

theorem State.Canon.dropOwner {a w} (h : s.Canon) : (s.dropOwner a w).Canon := h.of_mem rfl

theorem State.Canon.bringHome {w} (h : s.Canon) : (s.bringHome w).Canon := by
  unfold State.bringHome
  extract_lets v os
  split
  · exact h
  · exact State.Canon.homeWrite (State.Canon.setReg (h.foldl fun _ _ ht => ht.dropOwner))

theorem State.Canon.drainWord {q w b} (h : s.Canon) : (s.drainWord q w b).Canon := h.arrive.ite h

theorem State.Canon.readWord {q w b} (h : s.Canon) : Sync.Canon (fun x => x.2.Canon) (s.readWord q w b) := by
  unfold State.readWord
  split
  · exact h
  · split
    · trivial
    · split
      · exact h.inspect
      · split
        · exact h.loseWord
        · split
          · trivial
          · split
            · split
              · trivial
              · exact h.touch
            · exact h.touch
            · split
              · exact h.drainWord
              · exact h.staleAll.bringHome.touch
            · trivial

theorem State.Canon.writeWord {q w m d cov} (h : s.Canon) :
    Sync.Canon (fun x => x.Canon) (s.writeWord q w m d cov) := by
  unfold State.writeWord
  split
  · exact h
  · split
    · trivial
    · split
      · exact h.loseWord
      · split
        · trivial
        · split
          · exact h.drainWord
          · dsimp only
            split
            · split
              · trivial
              · exact h.staleAll.touch.clearPoison.putWord
            · split
              · trivial
              · exact h.staleAll.touch.clearPoison.setReg.setWord.putWord
            · exact h.staleAll.touch.bringHome.putWord

theorem State.Canon.readBytes {q pa n} (h : s.Canon) : Sync.Canon (fun x => x.2.Canon) (s.readBytes q pa n) := by
  unfold State.readBytes
  extract_lets go
  have hgo : Sync.Canon (fun x => x.2.Canon) go := by
    refine List.foldlRecOn _ _ (b := .ok ([], s)) (motive := Sync.Canon fun x : List Byte × State => x.2.Canon) h
        fun r hr e _ => ?_
    cases r with
    | ok x =>
      have hw : Sync.Canon (fun y => y.2.Canon) (x.2.readWord q e.1 e.2) := State.Canon.readWord hr
      dsimp only
      split
      · next d t k => exact hw.of_ok k
      · trivial
      · next t k => exact hw.of_busy k
    | fault c => exact hr
    | busy t => exact hr
  clear_value go
  cases go <;> exact hgo

theorem State.Canon.writeBytes {q pa bs} (h : s.Canon) : Sync.Canon (fun x => x.Canon) (s.writeBytes q pa bs) := by
  unfold State.writeBytes
  extract_lets ws t padded
  split
  · split
    · trivial
    · exact h.drainWord
  · exact h.inspect
  · have ht : t.Canon := h.foldl fun _ _ hu => hu.countEnci
    refine List.foldlRecOn _ _ (b := .ok t) (motive := Sync.Canon State.Canon) ht fun r hr e _ => ?_
    cases r with
    | ok u => exact State.Canon.writeWord hr
    | fault c => exact hr
    | busy u => exact hr

theorem State.Canon.bindFrame {pa attr} (h : s.Canon) : (s.bindFrame pa attr).Canon := h.ite (h.of_mem (by rfl))

theorem State.Canon.lookupTlb {a asid va write} (h : s.Canon) : (s.lookupTlb a asid va write).2.Canon := by
  unfold State.lookupTlb
  extract_lets cl keepE u k src t
  have ht : t.Canon := h.of_mem rfl
  split
  · dsimp only
    exact ht.updCore
  · exact ht.of_mem rfl
  · exact ht

theorem State.Canon.startWalk {a asid root va who} (h : s.Canon) : (s.startWalk a asid root va who).Canon :=
  h.ite ((h.of_mem (by rfl)).ite (h.ite (h.of_mem (by rfl))))

theorem State.Canon.seek {va write} (h : v.s.Canon) : (v.seek va write).2.s.Canon := by
  unfold View.seek
  split
  · exact h
  · dsimp only
    split
    · split <;> exact h.setCore.lookupTlb
    · exact h.setCore.lookupTlb.startWalk

theorem State.Canon.page {va write} (h : v.s.Canon) : (v.page va write).2.s.Canon := by
  unfold View.page
  split
  · exact h
  · split
    · exact h
    · exact h.seek

theorem State.Canon.translate {kind write n ls} (h : v.s.Canon) : (v.translate kind write n ls).v.s.Canon := by
  unfold View.translate
  extract_lets q
  refine List.foldlRecOn _ _ (b := ⟨v, false, [], []⟩) (motive := fun r : Xlated => r.v.s.Canon) h fun r hr x _ => ?_
  dsimp only
  split
  · exact hr
  · split
    · exact (State.Canon.page hr).of_sndV ‹_›
    · exact (State.Canon.page hr).of_sndV ‹_›
    · next w e =>
      have hw : w.s.Canon := (State.Canon.page hr).of_sndV e
      split
      · exact hw
      · split
        · exact hw
        · exact hw

theorem State.Canon.deliverWalk {k x} (h : s.Canon) : (s.deliverWalk k x).Canon := h.foldl fun _ _ ht => ht.updCore

theorem State.Canon.dropWalk {k} (h : s.Canon) : (s.dropWalk k).Canon := h.of_mem rfl

theorem State.Canon.walkEntry {k} (h : s.Canon) : (s.walkEntry k).Canon := by
  unfold State.walkEntry
  split
  · exact h
  · split
    · exact h.dropWalk
    · extract_lets pt vpn cl
      have hr : Sync.Canon (fun x => x.2.Canon) (s.readBytes ⟨k.agent, true⟩ (entryAddr k.table k.level k.va) 8) :=
          h.readBytes
      split
      · exact hr.of_busy ‹_›
      · exact h.dropWalk.deliverWalk
      · next bs t e =>
        have ht : t.Canon := hr.of_ok e
        extract_lets en te covered done u agents w
        have hu : u.Canon := ht.of_mem rfl
        have hw : w.Canon := hu.foldl fun _ _ hx => hx.updCore
        clear_value en w
        split
        · exact ht.dropWalk.deliverWalk
        · exact ht.of_mem rfl
        · exact hw.foldl fun _ _ hx => hx.deliverWalk

theorem State.Canon.walkStep {i} (h : s.Canon) : (s.walkStep i).Canon := by
  unfold State.walkStep
  split
  · exact h
  · extract_lets ks at_
    exact h.ite (h.foldl fun _ _ ht => ht.walkEntry)

end Sys2Proof.Machine
end

section
/-! Memory's canonical form across the accesses of a core. -/

namespace Sys2Proof.Machine

variable {s : State} {v : View}

theorem State.Canon.lastAddr {g ad m} (h : v.s.Canon) : (v.lastAddr g ad m).s.Canon := by
  unfold View.lastAddr
  split
  · exact h.lastUse
  · exact h

theorem State.Canon.phase1 {q ls} (h : v.s.Canon) :
    (∀ u, v.phase1 q ls = .error u → u.Canon) ∧ (∀ u, v.phase1 q ls = .ok u → u.1.s.Canon) := by
  unfold View.phase1
  extract_lets x host
  have hx : x.v.s.Canon := h.translate
  clear_value x
  split
  · exact ⟨fun u e => by cases e; exact hx, fun u e => by cases e⟩
  · split
    · exact ⟨fun u e => by cases e; trivial, fun u e => by cases e⟩
    · exact ⟨fun u e => (nomatch e), fun u e => by cases e; exact hx⟩

theorem State.Canon.reopen (h : v.s.Canon) (h1 : s.Canon) : (v.reopen s).s.Canon := by
  unfold View.reopen
  split
  · exact (h1.viewAt ‹_›).of_mem (by rfl)
  · exact h

theorem State.Canon.release {sc all} (h : v.s.Canon) : (v.release sc all).Canon := by
  have registered (w : View) (hw : w.s.Canon) (ws : List Nat) :
      (Rel.hold (w.reopen (ws.foldl (fun s x => s.registerDirty w.ag x w.slot false) w.close))).Canon :=
    hw.reopen (hw.close.foldl fun _ _ hx => hx.registerDirty)
  unfold View.release
  extract_lets n ws sp dirty w ws' sp' x
  have hw : w.s.Canon := h
  have hx : x.s.Canon := h
  clear_value n ws sp dirty w ws' sp' x
  refine Rel.Canon.ite h (Rel.Canon.ite (Rel.Canon.ite (registered v h _) (Rel.Canon.ite trivial h)) ?_)
  refine Rel.Canon.ite trivial (Rel.Canon.ite trivial (Rel.Canon.ite trivial (Rel.Canon.ite h ?_)))
  refine Rel.Canon.ite (registered v h _) (Rel.Canon.ite trivial (Rel.Canon.ite (Rel.Canon.ite hw ?_) hw))
  exact registered x hx _

theorem State.Canon.begin {c early o} {act : ℕ → State → State} (h : v.s.Canon)
    (h1 : ∀ x0 x1, x1.Canon → (act x0 x1).Canon) :
    (v.begin c early o act).Canon := by
  unfold View.begin
  extract_lets dead w
  have hw : w.s.Canon := h
  split
  next x tok e =>
  have hx : x.s.Canon := by
    refine State.Canon.of_fstV ?_ e
    split
    · exact hw.tokenFor.leave
    · exact hw.leave
  split
  next id s e =>
  have hs : s.Canon := hx.finishKeep.close.fresh1.of_snd e
  exact State.Canon.settleOps (h1 _ _ hs.updCore)

theorem State.Canon.beginHere {o} {act : ℕ → State → State} (h : v.s.Canon)
    (h1 : ∀ x0 x1, x1.Canon → (act x0 x1).Canon) :
    (v.beginHere o act).Canon :=
  (h1 _ _ (h.of_mem (by rfl)).close.fresh1.updCore).settleOps

theorem State.Canon.usePresent {a ts} (h : s.Canon) : (s.usePresent a ts).Canon :=
  h.foldl fun _ _ ht => ht.useLine.ite ht

theorem State.Canon.useAll {a asid ts} (h : s.Canon) : (s.useAll a asid ts).Canon := by
  unfold State.useAll
  extract_lets t
  have ht : t.Canon := h.usePresent.foldl fun _ _ hu => hu.ite hu.useLine
  exact ht.foldl fun _ _ hu => hu.ite hu.updCore

theorem State.Canon.evictAll {a ls} (h : s.Canon) : (s.evictAll a ls).Canon :=
  h.foldl fun _ _ ht => ht.ite ht.evictFor

theorem State.Canon.askWords {a slot id p plain acq check ts} (h : s.Canon) :
    (s.askWords a slot id p plain acq check ts).Canon :=
  h.foldl fun _ _ ht => ht.send.ite ht.updCore.send

theorem State.Canon.hostReads {a slot id n pas} (h : s.Canon) : (s.hostReads a slot id n pas).Canon := h.of_mem rfl

theorem State.Canon.loadGo {leave : View → MemOp → (ℕ → State → State) → Res} {kind ty uni nc acq rmask d good}
    (h : v.s.Canon) (h1 : ∀ x0 x1 x2, x0.s.Canon → (∀ y0 y1, y1.Canon → (x2 y0 y1).Canon) → (leave x0 x1 x2).Canon) :
    (v.loadGo leave kind ty uni nc acq rmask d good).Canon := by
  unfold View.loadGo
  extract_lets n hbm pas ts a s t s₁ s₂ check accs miss accs' plain w
  have hs : s.Canon := h.close
  have h₁ : s₁.Canon := hs.updCore.ite hs
  have h₂ : s₂.Canon := h₁.usePresent
  exact h1 _ _ _ (h.reopen h₂) fun _ _ hx => hx.askWords.hostReads

theorem State.Canon.loadWith {leave : View → MemOp → (ℕ → State → State) → Res} {kind ty uni nc acq rmask d ls}
    (h : v.s.Canon) (h1 : ∀ x0 x1 x2, x0.s.Canon → (∀ y0 y1, y1.Canon → (x2 y0 y1).Canon) → (leave x0 x1 x2).Canon) :
    (v.loadWith leave kind ty uni nc acq rmask d ls).Canon := by
  unfold View.loadWith
  extract_lets n
  split
  · trivial
  · split
    · next r e => exact (State.Canon.phase1 h).1 r e
    · next w good e =>
      have hw : w.s.Canon := (State.Canon.phase1 h).2 _ e
      extract_lets others
      split
      · exact State.Canon.reopen hw ((State.Canon.close hw).foldl fun _ _ hx => hx.publish)
      · split
        · exact hw
        · exact State.Canon.loadGo hw h1

theorem State.Canon.load {c ty uni nc acq rmask d ls} (h : v.s.Canon) : (v.load c ty uni nc acq rmask d ls).Canon :=
  State.Canon.loadWith h fun _ _ _ hw ha => State.Canon.begin hw ha

theorem State.Canon.claim {a slot q k} (h : s.Canon) : (s.claim a slot q k).1.Canon := by
  unfold State.claim
  extract_lets c t x eco y₀ y put ask z₁ z₂ z₃
  have ht : t.Canon := h.setCore
  have hp : ∀ z, (put z).Canon := fun _ => ht.setCore
  have ha : ∀ z m, (ask z m).Canon := fun _ _ => ht.sendRegw
  clear_value put ask z₁ z₂ z₃ y
  split
  · split
    · exact hp _
    · exact ha _ _
  · split
    · exact hp _
    · exact ha _ _
  · split
    · exact ha _ _
    · exact hp _
  · dsimp only
    exact (ha _ _).ite (hp _)
  · split
    · exact hp _
    · exact ha _ _

theorem State.Canon.claimAll {a slot q cs} (h : s.Canon) : (s.claimAll a slot q cs).1.Canon := by
  refine List.foldlRecOn _ _ (b := (s, [])) (motive := fun r : State × List Nat => r.1.Canon) h fun r hr k _ => ?_
  split
  exact hr.claim.of_fst ‹_›

theorem State.Canon.readyClaims {q cs} (h : v.s.Canon) : (v.readyClaims q cs).Canon := by
  unfold View.readyClaims
  extract_lets a s c first held ls
  have hs : s.Canon := h.close.useAll
  split
  · exact h.reopen (hs.foldl fun _ _ hx => hx.publish)
  · split
    · exact h.reopen hs
    · split
      · exact h.reopen h.close.evictAll
      · split
        · exact h.reopen hs
        · exact hs

theorem State.Canon.hostWrites {a slot n xs} (h : s.Canon) : (s.hostWrites a slot n xs).Canon := h.of_mem rfl

theorem State.Canon.storeGo {c ty uni rel data good} {bad} (h : v.s.Canon) (h1 : s.Canon) :
    (v.storeGo c ty uni rel data good s bad).Canon :=
  (h.reopen h1.claimAll.updCore.hostWrites).begin fun _ _ hs => hs

theorem State.Canon.store {c ty uni rel data ls} (h : v.s.Canon) : (v.store c ty uni rel data ls).Canon := by
  unfold View.store
  extract_lets n
  split
  · trivial
  · split
    · next r e => exact (State.Canon.phase1 h).1 r e
    · next w good e =>
      have hw : w.s.Canon := (State.Canon.phase1 h).2 _ e
      have hr : Rel.Canon (match rel with | some sc => w.release sc false | none => .go w) := by
        cases rel with
        | none => exact hw
        | some sc => exact State.Canon.release hw
      split
      · exact hw
      · exact hr.of_hold ‹_›
      · next x e =>
        have hx : x.s.Canon := hr.of_go e
        split
        · exact (State.Canon.readyClaims hx).of_wait ‹_›
        · exact State.Canon.storeGo hx ((State.Canon.readyClaims hx).of_go ‹_›)

end Sys2Proof.Machine
end

section
/-! Memory's canonical form across the memory instructions. -/

namespace Sys2Proof.Machine

variable {s : State} {v : View}

theorem State.Canon.loadV {c ty nc acq rmask d ad off} (h : s.Canon) :
    NextCanon (Machine.loadV c ty nc acq rmask d ad off s) :=
  State.Canon.issue (fun _ _ hv => hv.lastAddr.load) h

theorem State.Canon.loadS {c ty nc acq rmask d base off} (h : v.s.Canon) :
    (v.loadS c ty nc acq rmask d base off).Canon :=
  h.load

theorem State.Canon.storeV {c ty rel ad off b} (h : s.Canon) : NextCanon (Machine.storeV c ty rel ad off b s) :=
  State.Canon.issue (fun _ _ hv => hv.lastAddr.lastUse.store) h

theorem State.Canon.storeS {c ty rel base off b} (h : v.s.Canon) : (v.storeS c ty rel base off b).Canon := h.store

theorem State.Canon.execVld {c ty nc d ad off} (h : s.Canon) : NextCanon (Machine.execVld c ty nc d ad off s) :=
  h.loadV

theorem State.Canon.execVst {c ty ad off b} (h : s.Canon) : NextCanon (Machine.execVst c ty ad off b s) := h.storeV

theorem State.Canon.execVldq {c ty ysc rmask d ad off} (h : s.Canon) :
    NextCanon (Machine.execVldq c ty ysc rmask d ad off s) :=
  h.loadV

theorem State.Canon.execVstl {c ty sc ad off b} (h : s.Canon) : NextCanon (Machine.execVstl c ty sc ad off b s) :=
  h.storeV

theorem State.Canon.spLoad {c ty once uni d ls} (h : v.s.Canon) : (v.spLoad c ty once uni d ls).Canon := by
  unfold View.spLoad
  dsimp only
  split
  · trivial
  · trivial
  · exact h.begin fun _ _ hs => hs

theorem State.Canon.spStore {c ty once uni data ls} (h : v.s.Canon) : (v.spStore c ty once uni data ls).Canon := by
  unfold View.spStore
  dsimp only
  split
  · trivial
  · trivial
  · exact h.begin fun _ _ hs => hs.updCore

theorem State.Canon.execVlds {c ty d ad off} (h : s.Canon) : NextCanon (Machine.execVlds c ty d ad off s) :=
  State.Canon.issue (fun _ _ hv => hv.lastAddr.spLoad) h

theorem State.Canon.execVsts {c ty ad off b} (h : s.Canon) : NextCanon (Machine.execVsts c ty ad off b s) :=
  State.Canon.issue (fun _ _ hv => hv.lastAddr.lastUse.spStore) h

theorem State.Canon.execSlds {c ty d base off} (h : s.Canon) : NextCanon (Machine.execSlds c ty d base off s) :=
  State.Canon.issue (fun _ _ hv => hv.spLoad) h

theorem State.Canon.execSsts {c ty base off b} (h : s.Canon) : NextCanon (Machine.execSsts c ty base off b s) :=
  State.Canon.issue (fun _ _ hv => hv.spStore) h

theorem State.Canon.yieldWord {a w} (h : s.Canon) : (s.yieldWord a w).Canon := h.of_mem rfl

theorem State.Canon.atomicGo {c op aq rl ty uni d opd cmp good} (h : v.s.Canon) :
    (v.atomicGo c op aq rl ty uni d opd cmp good).Canon := by
  unfold View.atomicGo
  extract_lets n a hbm host part accs ws s check send
  have hs : s.Canon := State.Canon.updCore (h.close.foldl fun _ _ hx => hx.yieldWord)
  have hd : ∀ id g {t : State}, t.Canon → (send id t g).Canon := fun _ _ _ ht => ht.send
  refine State.Canon.begin (h.reopen hs) fun id t ht => ?_
  have hu : ((groupPa hbm).foldl (send id) t).Canon := ht.foldl fun _ _ hx => hd _ _ hx
  exact hu.of_mem rfl

theorem State.Canon.atomicWait {n cb good u} (h : v.s.Canon) (e : v.atomicWait n cb good = some u) : u.s.Canon := by
  unfold View.atomicWait at e
  extract_lets hbm ts st at e
  split at e
  · have hr : (v.readyClaims syncClaiming (wholeClaims n hbm true)).Canon := h.readyClaims
    split at e
    · cases e
      exact hr.of_wait ‹_›
    · cases e
      exact h.reopen (hr.of_go ‹_›).claimAll
  · split at e
    · cases e
      exact h.reopen (h.close.foldl fun _ _ hx => hx.publish)
    · split at e
      · cases e
        exact h
      · cases e

theorem State.Canon.atomic {c op aq rl ty sc uni d opd cmp ls} (h : v.s.Canon) :
    (v.atomic c op aq rl ty sc uni d opd cmp ls).Canon := by
  unfold View.atomic
  split
  · trivial
  · split
    · next r e => exact (State.Canon.phase1 h).1 r e
    · next w good e =>
      have hw : w.s.Canon := (State.Canon.phase1 h).2 _ e
      have hr : Rel.Canon (if rl then w.release sc false else .go w) := by
        split
        · exact State.Canon.release hw
        · exact hw
      split
      · exact hw
      · exact hr.of_hold ‹_›
      · next x e =>
        have hx : x.s.Canon := hr.of_go e
        split
        · exact State.Canon.atomicWait hx ‹_›
        · exact State.Canon.atomicGo hx

theorem State.Canon.execVatom {c op aq rl ty sc d ad off b cmp} (h : s.Canon) :
    NextCanon (Machine.execVatom c op aq rl ty sc d ad off b cmp s) :=
  State.Canon.issue (fun _ _ hv => (hv.lastAddr.lastUse.lastUse.iteV hv.lastAddr.lastUse).atomic) h

theorem State.Canon.vlrGo {c ty uni d good} {bad} (h : v.s.Canon) (h1 : s.Canon) :
    (v.vlrGo c ty uni d good s bad).Canon := by
  unfold View.vlrGo
  exact (h.reopen h1.claimAll.updCore).begin fun _ _ hs => hs

theorem State.Canon.vlr {c ty uni d ls} (h : v.s.Canon) : (v.vlr c ty uni d ls).Canon := by
  unfold View.vlr
  extract_lets n
  split
  · trivial
  · split
    · next r e => exact (State.Canon.phase1 h).1 r e
    · next w good e =>
      have hw : w.s.Canon := (State.Canon.phase1 h).2 _ e
      split
      · exact (State.Canon.readyClaims hw).of_wait ‹_›
      · exact State.Canon.vlrGo hw ((State.Canon.readyClaims hw).of_go ‹_›)

theorem State.Canon.execVlr {c ty d ad off} (h : s.Canon) : NextCanon (Machine.execVlr c ty d ad off s) :=
  State.Canon.issue (fun _ _ hv => hv.lastAddr.vlr) h

theorem State.Canon.vscGo {c ty uni d data good} (h : v.s.Canon) : (v.vscGo c ty uni d data good).Canon := by
  unfold View.vscGo
  exact (h.reopen h.close.claimAll.updCore).begin fun _ _ hs => hs

theorem State.Canon.vsc {c ty uni d data ls} (h : v.s.Canon) : (v.vsc c ty uni d data ls).Canon := by
  unfold View.vsc
  split
  · trivial
  · split
    · next r e => exact (State.Canon.phase1 h).1 r e
    · next w good e =>
      have hw : w.s.Canon := (State.Canon.phase1 h).2 _ e
      split
      · exact hw
      · exact State.Canon.vscGo hw

theorem State.Canon.execVsc {c ty d ad off b} (h : s.Canon) : NextCanon (Machine.execVsc c ty d ad off b s) :=
  State.Canon.issue (fun _ _ hv => hv.lastAddr.lastUse.vsc) h

theorem State.Canon.regGo {c ty uni good} {bad} (h : v.s.Canon) (h1 : s.Canon) :
    (v.regGo c ty uni good s bad).Canon := by
  unfold View.regGo
  exact (h.reopen h1.claimAll).begin fun _ _ hs => hs

theorem State.Canon.execReg {c ty ad off} (h : s.Canon) : NextCanon (Machine.execReg c ty ad off s) :=
  State.Canon.issue (fun v m hv => by
  extract_lets n
  split
  · trivial
  · have hl := State.Canon.phase1 (q := ⟨kWrite, true, n, adU ad, fun _ => true⟩) (ls := v.eas ad off m)
      (State.Canon.lastAddr (g := true) (ad := ad) (m := m) hv)
    split
    · next r e => exact hl.1 r e
    · next w good e =>
      have hw : w.s.Canon := hl.2 _ e
      split
      · exact (State.Canon.readyClaims hw).of_wait ‹_›
      · exact State.Canon.regGo hw ((State.Canon.readyClaims hw).of_go ‹_›)) h

theorem State.Canon.deregWord {a w} (h : s.Canon) : (s.deregWord a w).1.Canon := by
  unfold State.deregWord
  extract_lets t x
  have ht : t.Canon := h.updCore
  split
  · exact ht.publish
  · dsimp only
    exact ht.giveWord
  · dsimp only
    exact ht.updCore
  · exact ht

theorem State.Canon.deregGo {c ty uni good} (h : v.s.Canon) : (v.deregGo c ty uni good).Canon := by
  unfold View.deregGo
  extract_lets n
  split
  next s need e =>
  have hs : s.Canon := by
    refine State.Canon.of_fst ?_ e
    refine List.foldlRecOn _ _ (b := (v.close, [])) (motive := fun r : State × List Nat => r.1.Canon)
        (State.Canon.close h) fun r hr t _ => ?_
    split
    exact hr.deregWord.of_fst ‹_›
  exact State.Canon.begin (State.Canon.reopen h hs) fun _ _ hx => hx

theorem State.Canon.execDereg {c ty ad off} (h : s.Canon) : NextCanon (Machine.execDereg c ty ad off s) :=
  State.Canon.issue (fun v m hv => by
  split
  · trivial
  · have hl := State.Canon.phase1 (q := ⟨kRead, false, tyBytes ty, adU ad, fun _ => true⟩) (ls := v.eas ad off m)
      (State.Canon.lastAddr (g := true) (ad := ad) (m := m) hv)
    split
    · next r e => exact hl.1 r e
    · next w good e =>
      have hw : w.s.Canon := hl.2 _ e
      extract_lets ws
      split
      · exact hw
      · exact State.Canon.deregGo hw) h

theorem State.Canon.prefGo {c ty good} (h : v.s.Canon) : (v.prefGo c ty good).s.Canon := by
  unfold View.prefGo
  extract_lets n ts t miss
  split
  next id s e =>
  have hs : s.Canon := h.close.fresh1.of_snd e
  extract_lets u
  have hu : u.Canon := hs.foldl fun _ _ hx => hx.updCore.send
  exact (h.reopen hu).tokenFor

theorem State.Canon.execPref {c ty ad off} (h : s.Canon) : NextCanon (Machine.execPref c ty ad off s) := by
  unfold Machine.execPref
  refine State.Canon.issue (fun _ _ hv => ?_) h
  split
  · trivial
  · dsimp only
    split
    · exact hv.lastAddr.translate
    · exact hv.lastAddr.translate.prefGo

theorem State.Canon.execFence {c sc} (h : s.Canon) : NextCanon (Machine.execFence c sc s) := by
  unfold Machine.execFence
  refine State.Canon.issue (fun _ _ hv => ?_) h
  split
  · trivial
  · split
    · trivial
    · split
      · trivial
      · exact hv.tokenFor

theorem State.Canon.execAcq {c ysc rmask} (h : s.Canon) : NextCanon (Machine.execAcq c ysc rmask s) := by
  unfold Machine.execAcq
  refine State.Canon.issue (fun _ _ hv => ?_) h
  split
  · trivial
  · exact (hv.reopen hv.close.updCore).tokenFor

theorem State.Canon.execRel {c sc} (h : s.Canon) : NextCanon (Machine.execRel c sc s) := by
  unfold Machine.execRel
  refine State.Canon.issue (fun _ _ hv => ?_) h
  split
  · trivial
  · exact hv.release.of_hold ‹_›
  · exact (hv.release.of_go ‹_›).tokenFor

theorem State.Canon.execInvr {c base off len} (h : s.Canon) : NextCanon (Machine.execInvr c base off len s) :=
  State.Canon.issue (fun _ _ hv => (hv.of_mem (by rfl)).tokenFor) h

theorem State.Canon.execInva {c} (h : s.Canon) : NextCanon (Machine.execInva c s) :=
  State.Canon.issue (fun _ _ hv => (hv.of_mem (by rfl)).tokenFor) h

theorem State.Canon.park {c w} (h : v.s.Canon) : (v.park c w).Canon := (h.flush.finish.of_mem (by rfl)).close

theorem State.Canon.parkRetry {w} (h : v.s.Canon) : (v.parkRetry w).Canon := (h.flush.of_mem (by rfl)).close

theorem State.Canon.landS {c d x} (h : v.s.Canon) : (v.landS c d x).Canon := h.begin fun _ _ hs => hs

theorem State.Canon.execWaita {c ty cond d base off b tmo} (h : s.Canon) :
    NextCanon (Machine.execWaita c ty cond d base off b tmo s) := by
  unfold Machine.execWaita
  refine State.Canon.issue (fun _ _ hv => ?_) h
  dsimp only
  split
  · trivial
  · trivial
  · split
    · exact hv.landS
    · exact hv.tokenV.park

theorem State.Canon.execWaitaTimeout {n slot i} (h : s.Canon) : NextCanon (Machine.execWaitaTimeout n slot i s) := by
  unfold Machine.execWaitaTimeout
  split
  · split
    · split
      · exact h.updCore
      · exact h
    · exact h
  · exact h

theorem State.Canon.execLandingBufferWrite {n} (h : s.Canon) : NextCanon (Machine.execLandingBufferWrite n s) := by
  unfold Machine.execLandingBufferWrite
  split
  · exact h
  · exact h.updCore

end Sys2Proof.Machine
end

section
/-! Memory's canonical form across the engines' reads and writes. -/

namespace Sys2Proof.Machine

variable {s : State} {v : View}

theorem EngRes.Canon.andThen {r : EngRes α} {f : α → State → EngRes β} (h : r.Canon)
    (h1 : ∀ x0 x1, x1.Canon → (f x0 x1).Canon) :
    (r.andThen f).Canon := by
  unfold EngRes.andThen
  split
  · exact h1 _ _ h
  · trivial
  · exact h

theorem State.Canon.walkFrom {p r va a3 a4 a5} (h : s.Canon) : (s.walkFrom p r va a3 a4 a5).Canon := by
  induction a3 generalizing a4 a5 s with
  | zero => trivial
  | succ fuel ih =>
    have hr : Sync.Canon (fun x => x.2.Canon) (s.readBytes r (entryAddr a4 a5 va) 8) := h.readBytes
    unfold State.walkFrom
    split
    · exact hr.of_busy ‹_›
    · trivial
    · next bs t e =>
      have ht : t.Canon := hr.of_ok e
      dsimp only
      split
      · trivial
      · exact ih ht
      · exact ht

theorem State.Canon.engWalk {q va} (h : s.Canon) : (s.engWalk q va).Canon := h.walkFrom.andThen fun _ _ hs => hs

theorem State.Canon.engLeaf {q va write} (h : s.Canon) : (s.engLeaf q va write).Canon := by
  unfold State.engLeaf
  split
  · trivial
  · split
    · trivial
    · split
      · split
        · exact h.lookupTlb.of_snd ‹_›
        · exact ((h.lookupTlb.of_snd ‹_›).engWalk).andThen fun _ _ hs => (hs.of_mem (by rfl)).updCore
      · dsimp only
        split
        · exact h.of_mem rfl
        · exact (h.of_mem (by rfl)).engWalk.andThen fun _ _ hs => hs.of_mem rfl

theorem State.Canon.engXlate {q va write} (h : s.Canon) : (s.engXlate q va write).Canon := by
  unfold State.engXlate
  refine h.engLeaf.andThen fun _ _ hs => ?_
  dsimp only
  split
  · trivial
  · split
    · trivial
    · exact hs

theorem State.Canon.engRead1 {q va n} (h : s.Canon) : (s.engRead1 q va n).Canon := by
  unfold State.engRead1
  refine h.engXlate.andThen fun _ _ hs => ?_
  split
  · exact hs
  · split
    · exact hs.bindFrame.readBytes.of_ok ‹_›
    · trivial
    · exact (hs.bindFrame.readBytes.of_busy ‹_›).of_mem (by rfl)

theorem State.Canon.engWrite1 {q va bs} (h : s.Canon) : (s.engWrite1 q va bs).Canon := by
  unfold State.engWrite1
  refine h.engXlate.andThen fun _ _ hs => ?_
  split
  · exact hs.setBytes
  · split
    · exact hs.bindFrame.writeBytes.of_ok ‹_›
    · trivial
    · exact (hs.bindFrame.writeBytes.of_busy ‹_›).of_mem (by rfl)

theorem State.Canon.engRead {q va n} (h : s.Canon) : (s.engRead q va n).Canon :=
  List.foldlRecOn _ _ (b := .ok _ s) (motive := EngRes.Canon) h fun _ hr _ _ => hr.andThen fun _ _ ht =>
      ht.engRead1.andThen fun _ _ hu => hu

theorem State.Canon.engWrite {q va bs} (h : s.Canon) : (s.engWrite q va bs).Canon :=
  List.foldlRecOn _ _ (b := .ok _ s) (motive := EngRes.Canon) h fun _ hr _ _ => hr.andThen fun _ _ ht => ht.engWrite1

theorem State.Canon.engNum {q va n} (h : s.Canon) : (s.engNum q va n).Canon := h.engRead.andThen fun _ _ hs => hs

theorem State.Canon.engAtom {q va f} (h : s.Canon) : (s.engAtom q va f).Canon := by
  unfold State.engAtom
  refine h.engXlate.andThen fun x t ht => ?_
  extract_lets r done w
  have hd : ∀ old {u : State}, u.Canon → (done old u).Canon := fun _ _ hu => hu.setBytes
  clear_value done
  split
  · exact hd _ ht
  · split
    · split
      · trivial
      · exact ht.drainWord
    · have hb : Sync.Canon (fun y => y.2.Canon) ((t.bindFrame x.1 x.2).readBytes r x.1 8) := ht.bindFrame.readBytes
      split
      · next bs u e =>
        have hu : u.Canon := hb.of_ok e
        exact hd _ hu.staleAll.bringHome.bringHome.countEnci
      · trivial
      · exact (hb.of_busy ‹_›).of_mem (by rfl)

theorem State.Canon.readAt {p r pa n} (h : s.Canon) : Sync.Canon (fun x => x.2.Canon) (s.readAt p r pa n) := by
  unfold State.readAt
  split
  · exact h.readBytes
  · trivial

theorem State.Canon.writeAt {p r pa bs} (h : s.Canon) : Sync.Canon (fun x => x.Canon) (s.writeAt p r pa bs) := by
  unfold State.writeAt
  split
  · exact h.writeBytes
  · trivial

theorem State.Canon.engPageFault {cluster kind id q va f} (h : s.Canon) :
    (s.engPageFault cluster kind id q va f).Canon :=
  h.of_mem rfl

end Sys2Proof.Machine
end

section
/-! Memory's canonical form across transfers, messages and barriers. -/

namespace Sys2Proof.Machine

variable {s : State} {v : View}

theorem State.Canon.onCore {f} (h : v.s.Canon) : (v.onCore f).s.Canon := by
  unfold View.onCore
  dsimp only
  split <;> exact h

theorem State.Canon.objDone {c f d x} (h : v.s.Canon) : (v.objDone c f d x).Canon := h.onCore.landS

theorem State.Canon.execBarinit {c a b} (h : s.Canon) : NextCanon (Machine.execBarinit c a b s) := by
  unfold Machine.execBarinit
  refine State.Canon.issue (fun _ _ hv => ?_) h
  dsimp only
  split
  · trivial
  · exact hv.objDone

theorem State.Canon.execBararr {c rm d a b} (h : s.Canon) : NextCanon (Machine.execBararr c rm d a b s) := by
  unfold Machine.execBararr
  refine State.Canon.issue (fun _ _ hv => ?_) h
  extract_lets n pc seq off
  split
  · split
    · trivial
    · split
      next w tok e =>
      extract_lets r t
      have ht : t.Canon := (hv.leave.of_fstV e).finish.close
      exact ht.of_mem rfl
  · split
    · trivial
    · exact hv.objDone

theorem State.Canon.execBarwait {c a b} (h : s.Canon) : NextCanon (Machine.execBarwait c a b s) := by
  unfold Machine.execBarwait
  refine State.Canon.issue (fun _ _ hv => ?_) h
  dsimp only
  split
  · trivial
  · split
    · exact hv.onCore.tokenFor
    · exact hv.onCore.tokenV.park

theorem State.Canon.execBartry {c d a b} (h : s.Canon) : NextCanon (Machine.execBartry c d a b s) := by
  unfold Machine.execBartry
  refine State.Canon.issue (fun _ _ hv => ?_) h
  dsimp only
  split
  · trivial
  · exact hv.objDone

theorem Res.Canon.queueFault {off reason} : (v.queueFault off reason).Canon := trivial

theorem State.Canon.takeSender {launch wg off idx} (h : s.Canon) : (s.takeSender launch wg off idx).2.Canon := by
  unfold State.takeSender
  dsimp only
  split
  · exact h.of_mem rfl
  · exact h.draw

theorem State.Canon.execMsgrecv {c nb d a} (h : s.Canon) : NextCanon (Machine.execMsgrecv c nb d a s) := by
  unfold Machine.execMsgrecv
  refine State.Canon.issue (fun _ _ hv => ?_) h
  dsimp only
  split
  · trivial
  · split
    · exact Res.Canon.queueFault
    · split
      · split
        · exact hv.landS
        · exact (hv.of_mem (by rfl)).tokenV.park
      · exact (hv.takeSender.of_mem (by rfl)).objDone

theorem State.Canon.execMsgfree {c a b} (h : s.Canon) : NextCanon (Machine.execMsgfree c a b s) := by
  unfold Machine.execMsgfree
  refine State.Canon.issue (fun _ _ hv => ?_) h
  dsimp only
  split
  · trivial
  · split
    · exact Res.Canon.queueFault
    · split
      · exact Res.Canon.queueFault
      · exact (hv.of_mem (by rfl)).objDone

theorem State.Canon.sendEntry {c n entry wg doff} (h : v.s.Canon) : (v.sendEntry c n entry wg doff).Canon := by
  unfold View.sendEntry
  extract_lets m name pc seq
  split
  next x tok e =>
  have hx : x.s.Canon := State.Canon.of_fstV (State.Canon.leave (v :=
      { v with pk := v.pk.setCredit n (v.pk.credit n - 1) }) h) e
  extract_lets r t
  have ht : t.Canon := hx.finish.close
  exact ht.of_mem rfl

theorem State.Canon.execMsgsend {c ch a} (h : s.Canon) : NextCanon (Machine.execMsgsend c ch a s) := by
  unfold Machine.execMsgsend
  refine State.Canon.issue (fun _ _ hv => ?_) h
  dsimp only
  split
  · trivial
  · split
    · exact Res.Canon.queueFault
    · split
      · exact Res.Canon.queueFault
      · split
        · exact hv.parkRetry
        · exact hv.sendEntry

theorem State.Canon.wakeReceiver {n w off} (h : s.Canon) : (s.wakeReceiver n w off).Canon := by
  unfold State.wakeReceiver
  dsimp only
  split
  · exact h
  · exact h.ite h.takeSender.updCore

theorem State.Canon.wakeCredit {n slot} (h : s.Canon) : (s.wakeCredit n slot).Canon := by
  unfold State.wakeCredit
  split
  · exact h
  · exact h.updCore

theorem State.Canon.appendAt {n w r entry esz} (h : s.Canon) : ∀ u, s.appendAt n w r entry esz = .ok u → u.Canon := by
  intro u e
  unfold State.appendAt at e
  extract_lets q d t kept one w' at e
  have ht : t.Canon := h.updCore
  have hw : w'.Canon := ht.of_mem rfl
  clear_value w'
  split at e
  · cases e
  · split at e
    · cases e
    · split at e
      · cases e
      · cases e
        exact hw.wakeReceiver

theorem State.Canon.endParked {l} (h : s.Canon) : (s.endParked l).Canon := h.foldl fun _ _ ht => ht.updCore.ite ht

theorem State.Canon.launchError {l code} (h : s.Canon) : (s.launchError l code).Canon := by
  unfold State.launchError
  split
  · exact h.ite (h.of_mem (by rfl)).endParked
  · exact h

theorem State.Canon.xferFail {x code} (h : s.Canon) : (s.xferFail x code).Canon := by
  unfold State.xferFail
  refine State.Canon.launchError ?_
  split
  · split
    · exact (h.of_mem (by rfl)).updCore.wakeCredit
    · exact h.of_mem rfl
  · exact h.of_mem rfl

theorem State.Canon.updXfer {id f} (h : s.Canon) : (s.updXfer id f).Canon := h.of_mem rfl

theorem State.Canon.chunkReady {id k} (h : s.Canon) : (s.chunkReady id k).Canon := h.of_mem rfl

theorem State.Canon.remoteFault {r code reason} (h : s.Canon) : (s.remoteFault r code reason).Canon :=
  h.updCore.lateFault

theorem State.Canon.performAppend {i r entry esz} (h : s.Canon) : (s.performAppend i r entry esz).Canon := by
  unfold State.performAppend
  split
  · exact h.of_mem rfl
  · next n w _ =>
    extract_lets t
    have ht : t.Canon := h.of_mem rfl
    split
    · exact (ht.appendAt _ ‹_›).updCore
    · exact (ht.appendAt _ ‹_›).chunkReady
    · exact ht.updCore.remoteFault
    · split
      · exact ht.xferFail
      · exact ht

theorem State.Canon.deliverRemote {i append} (h : s.Canon) : (s.deliverRemote i append).Canon := by
  unfold State.deliverRemote
  split
  · exact h
  · split
    · exact h.performAppend.ite h
    · split
      · exact h
      · split
        · exact h.of_mem rfl
        · exact (h.of_mem (by rfl)).remoteFault.ite (h.of_mem (by rfl))
    · exact h

theorem State.Canon.execMessageAppend {i} (h : s.Canon) : NextCanon (Machine.execMessageAppend i s) := h.deliverRemote

theorem State.Canon.execRemoteArrival {i} (h : s.Canon) : NextCanon (Machine.execRemoteArrival i s) := h.deliverRemote

theorem State.Canon.execHubHeldDelivery {i} (h : s.Canon) : NextCanon (Machine.execHubHeldDelivery i s) := by
  unfold Machine.execHubHeldDelivery
  split
  · split
    · exact h.deliverRemote.deliverRemote
    · exact h
  · exact h

theorem State.Canon.execRemoteArrivalReply {i} (h : s.Canon) : NextCanon (Machine.execRemoteArrivalReply i s) := by
  unfold Machine.execRemoteArrivalReply
  split
  · split
    · exact (h.of_mem (by rfl)).updCore
    · exact h
  · exact h

theorem State.Canon.takeCredits {r} (h : v.s.Canon) : (v.takeCredits r).s.Canon := (h.of_mem (by rfl)).iteV h

theorem State.Canon.offerRecord {c off r} (h : v.s.Canon) : (v.offerRecord c off r).Canon := by
  unfold View.offerRecord
  dsimp only
  refine ((State.Canon.finish (State.Canon.leave ?_)).of_mem (by rfl))
  split
  · exact h.onCore.iteV h
  · exact h

theorem State.Canon.pastCredits {r} (h : v.s.Canon) : (v.pastCredits r).s.Canon :=
  (h.of_mem (by rfl)).iteV h.takeCredits

theorem State.Canon.releaseRecord {r} (h : v.s.Canon) : (v.releaseRecord r).Canon := by
  unfold View.releaseRecord
  dsimp only
  split
  · split
    · trivial
    · exact h.pastCredits.of_mem rfl
  · exact (h.pastCredits.release.of_hold ‹_›).of_mem (by rfl)
  · exact h.pastCredits.release.of_go ‹_›

theorem State.Canon.execXfer {c a} (h : s.Canon) : NextCanon (Machine.execXfer c a s) := by
  unfold Machine.execXfer
  refine State.Canon.issue (fun _ _ hv => ?_) h
  dsimp only
  split
  · trivial
  · split
    · trivial
    · split
      · trivial
      · split
        · exact hv.parkRetry
        · split
          · trivial
          · exact hv.releaseRecord.of_hold ‹_›
          · exact (hv.releaseRecord.of_go ‹_›).offerRecord

theorem State.Canon.execTransferAccept {die} (h : s.Canon) : NextCanon (Machine.execTransferAccept die s) := by
  unfold Machine.execTransferAccept
  dsimp only
  split
  · exact h
  · split
    · exact h
    · exact h.updXfer.updCore

theorem State.Canon.enterProgress {n} (h : s.Canon) : (s.enterProgress n).Canon := h.of_mem rfl

theorem State.Canon.xferProbe {x k} (h : s.Canon) : (s.xferProbe x k).Canon := by
  unfold State.xferProbe
  split
  split
  · exact h
  · exact List.foldlRecOn _ _ (b := .ok _ s) (motive := EngRes.Canon) h fun r hr x _ => hr.andThen fun _ t ht =>
        ht.engXlate.andThen fun _ _ hu => hu

theorem State.Canon.xferFault {x va f} (h : s.Canon) : (s.xferFault x va f).Canon :=
  h.updXfer.engPageFault.ite h.xferFail

theorem State.Canon.startChunk {x} (h : s.Canon) : (s.startChunk x).Canon := by
  unfold State.startChunk
  split
  · exact h.xferProbe.of_busy ‹_›
  · exact h.xferFault
  · dsimp only
    split
    · exact (h.xferProbe.of_ok ‹_›).of_mem (by rfl)
    · split
      · exact (((h.xferProbe.of_ok ‹_›).of_mem (by rfl)).xferFail).ite ((h.xferProbe.of_ok ‹_›).of_mem (by rfl))
      · exact ((h.xferProbe.of_ok ‹_›).of_mem (by rfl)).xferFail
      · exact (h.xferProbe.of_ok ‹_›).of_mem (by rfl)

theorem State.Canon.execTransferChunkStart {die} (h : s.Canon) :
    NextCanon (Machine.execTransferChunkStart die s) := by
  unfold Machine.execTransferChunkStart
  extract_lets t turn order
  have ht : t.Canon := h.foldl fun _ _ hu => hu.enterProgress
  split
  · exact ht
  · dsimp only
    split
    · exact ht.startChunk
    · exact ht

theorem State.Canon.moveChunk {x k} (h : s.Canon) : (s.moveChunk x k).Canon := by
  unfold State.moveChunk
  split
  · split
    · exact h
    · split
      · trivial
      · split
        · trivial
        · split
          · exact h.engRead.andThen fun _ _ hs => hs.updCore
          · exact h.engWrite

theorem State.Canon.chunkEnd {x k} (h : s.Canon) : (s.chunkEnd x k).Canon := by
  unfold State.chunkEnd
  split
  · exact h
  · extract_lets bytes last t live u w
    have ht : t.Canon := h.updCore.ite h
    have hu : u.Canon := ht.updCore.ite ht
    have hw : w.Canon := hu.of_mem rfl
    clear_value t w
    exact h.xferFail.ite (h.xferFail.ite (hw.enterProgress.wakeCredit.ite ht.updXfer))

theorem State.Canon.execTransferChunkDone {die k} (h : s.Canon) :
    NextCanon (Machine.execTransferChunkDone die k s) := by
  unfold Machine.execTransferChunkDone
  dsimp only
  split
  · exact h
  · split
    · exact h.chunkEnd.ite h
    · split
      · exact h.moveChunk.of_busy ‹_›
      · exact h.xferFault
      · exact (h.moveChunk.of_ok ‹_›).chunkEnd

end Sys2Proof.Machine
end

section
/-! Memory's canonical form across tile fetches and the matrix unit. -/

namespace Sys2Proof.Machine

variable {s : State} {v : View}

theorem State.Canon.tileWord {a slot check w b} (h : s.Canon) :
    Sync.Canon (fun x => x.2.Canon) (s.tileWord a slot check w b) := by
  unfold State.tileWord
  refine Sync.Canon.ite h ?_
  extract_lets c x home
  have hh : Sync.Canon (fun y => y.2.Canon) (home s) := h.readWord
  clear_value home x c
  split
  · exact h
  · refine Sync.Canon.ite h.publish (Sync.Canon.ite h ?_)
    generalize home s = r at hh
    cases r with
    | ok y =>
      have ht : y.2.Canon := hh
      dsimp only [Sync.Canon]
      exact ht
    | fault e => trivial
    | busy t => exact hh
  · exact Sync.Canon.ite trivial (Sync.Canon.ite h hh)
  · exact hh

theorem State.Canon.tileLine {a slot check segs va pa} (h : s.Canon) :
    Sync.Canon (fun x => x.2.Canon) (s.tileLine a slot check segs va pa) := by
  refine List.foldlRecOn _ _ (b := .ok ([], s)) (motive := Sync.Canon fun x : List Byte × State => x.2.Canon) h
      fun r hr i _ => ?_
  cases r with
  | ok x =>
    have hw : Sync.Canon (fun y => y.2.Canon) (x.2.tileWord a slot check (pa / 4 + i) (TileRec.wordBytes segs va i))
        :=
      State.Canon.tileWord hr
    dsimp only
    split
    · next d t k => exact hw.of_ok k
    · trivial
    · next t k => exact hw.of_busy k
  | fault c => exact hr
  | busy t => exact hr

theorem State.Canon.execTileLineArrival {a k} (h : s.Canon) : NextCanon (Machine.execTileLineArrival a k s) := by
  unfold Machine.execTileLineArrival
  extract_lets c
  split
  · exact h
  · next f _ =>
    split
    · next va pa rest p _ _ _ =>
      extract_lets line room leaf pc stop t yes
      have hs : ∀ code reason level {u : State}, u.Canon → (stop u code reason level).Canon := fun _ _ _ _ hu =>
          hu.updCore
      have ht : t.Canon := h.updCore
      clear_value stop t room yes
      refine .ite h (.ite (hs _ _ _ h) ?_)
      have hl : Sync.Canon (fun x => x.2.Canon) (t.tileLine a f.slot (!p.lazyMode) f.entry.record.segments va pa) :=
          ht.tileLine
      split
      · exact hl.of_busy ‹_›
      · exact hs _ _ _ ht
      · next bs u e =>
        extract_lets x e' y
        have hx : x.Canon := (hl.of_ok e).bindFrame
        have hy : y.Canon := (hx.of_mem (by rfl)).ite hx
        exact hy.updCore
    · exact h

theorem State.Canon.dropFetches (h : v.s.Canon) : v.dropFetches.s.Canon := h.of_mem rfl

theorem State.Canon.takePlace {m} (h : v.s.Canon) : (v.takePlace m).s.Canon := h.iteV (h.of_mem (by rfl))

theorem State.Canon.holdTiles {ws} (h : v.s.Canon) : (v.holdTiles ws).s.Canon := h.of_mem rfl

theorem State.Canon.startTiles {all ws} (h : v.s.Canon) : (v.startTiles all ws).Canon := by
  unfold View.startTiles
  extract_lets ls x host w s₁ c open_ used pa mk fs s₂
  have hx : x.v.s.Canon := h.translate
  have h₁ : s₁.Canon := hx.close.reapStage
  have h₂ : s₂.Canon := h₁.of_mem rfl
  have hw : w.s.Canon := hx
  clear_value w s₂
  split
  · exact h
  · split
    · exact hx
    · split
      · exact h.dropFetches
      · split
        · trivial
        · exact State.Canon.holdTiles (hw.reopen h₂.updCore)

theorem State.Canon.stageAll {ws} (h : v.s.Canon) : (v.stageAll ws).Canon := by
  unfold View.stageAll
  dsimp only
  split
  · exact h.startTiles
  · split
    · trivial
    · split
      · exact h.dropFetches
      · exact h

theorem State.Canon.flushJoined (h : v.s.Canon) : v.flushJoined.s.Canon := h.onPack

theorem State.Canon.matrixReady {rows u} (h : v.s.Canon) (e : v.matrixReady rows = some u) : u.s.Canon := by
  revert e
  unfold View.matrixReady
  dsimp only
  split
  · nofun
  · rintro ⟨⟩
    exact (h.of_mem (by rfl)).settle.flush.flushJoined

theorem State.Canon.enqueue {c ops m} (h : v.s.Canon) : (v.enqueue c ops m).Canon := by
  unfold View.enqueue
  refine State.Canon.updCore ?_
  split
  · exact h.tokenV.finish.close
  · exact h.tokenV.finish.close.fresh1

theorem State.Canon.multiply {c sparse z a4 d a ao b bo act} (h : v.s.Canon) :
    (v.multiply c sparse z a4 d a ao b bo act).Canon := by
  unfold View.multiply
  extract_lets oa ob size
  split
  · trivial
  · trivial
  · trivial
  · extract_lets ra rb mt m out src op w ws
    have hw : w.s.Canon := h.takePlace
    have hs : (w.stageAll ws).Canon := hw.stageAll
    clear_value w ws mt m out op
    split
    · trivial
    · trivial
    · split
      · trivial
      · split
        · trivial
        · split
          · trivial
          · split
            · trivial
            · split
              · trivial
              · split
                · trivial
                · split
                  · exact hw
                  · split
                    · exact hw
                    · exact hs.of_hold ‹_›
                    · exact State.Canon.raise (hs.of_fault ‹_›)
                    · next x ops e =>
                      have hx : x.s.Canon := hs.of_go e
                      split
                      · exact hx.holdTiles
                      · exact (hx.matrixReady ‹_›).enqueue

theorem State.Canon.execMma {c z a2 d a ao b bo} (h : s.Canon) : NextCanon (Machine.execMma c z a2 d a ao b bo s) :=
  State.Canon.issueG (fun _ _ hv => hv.multiply) h

theorem State.Canon.execMmas {c z a2 d a ao b bo} (h : s.Canon) :
    NextCanon (Machine.execMmas c z a2 d a ao b bo s) :=
  State.Canon.issueG (fun _ _ hv => hv.multiply) h

theorem State.Canon.execMscale {c z i d p rs ss soff} (h : s.Canon) :
    NextCanon (Machine.execMscale c z i d p rs ss soff s) := by
  unfold Machine.execMscale
  refine State.Canon.issueG (fun _ _ hv => ?_) h
  dsimp only
  split
  · trivial
  · trivial
  · split
    · trivial
    · split
      · trivial
      · exact (hv.matrixReady ‹_›).enqueue

theorem State.Canon.execMzero {c d} (h : s.Canon) : NextCanon (Machine.execMzero c d s) := by
  unfold Machine.execMzero
  refine State.Canon.issueG (fun _ _ hv => ?_) h
  split
  · trivial
  · split
    · trivial
    · exact (hv.matrixReady ‹_›).enqueue

theorem State.Canon.execMcvt {c a1 ty r d a key} (h : s.Canon) :
    NextCanon (Machine.execMcvt c a1 ty r d a key s) := by
  unfold Machine.execMcvt
  refine State.Canon.issueG (fun _ _ hv => ?_) h
  split
  · trivial
  · split
    · trivial
    · split
      · trivial
      · exact (hv.matrixReady ‹_›).enqueue

theorem State.Canon.execTfpin {c d a} (h : s.Canon) : NextCanon (Machine.execTfpin c d a s) := by
  unfold Machine.execTfpin
  refine State.Canon.issue (fun _ _ hv => ?_) h
  dsimp only
  split
  · trivial
  · split
    · trivial
    · split
      · exact hv.dropFetches.landS
      · split
        · exact hv.dropFetches.landS
        · split
          · trivial
          · split
            · trivial
            · exact hv.stageAll.of_hold ‹_›
            · exact (hv.stageAll.of_fault ‹_›).raise
            · exact (((hv.stageAll.of_go ‹_›).of_mem (by rfl)).dropFetches).landS

theorem State.Canon.execTfrel {c all a} (h : s.Canon) : NextCanon (Machine.execTfrel c all a s) := by
  unfold Machine.execTfrel
  refine State.Canon.issue (fun _ _ hv => ?_) h
  split
  · exact ((hv.of_mem (by rfl)).reopen (hv.of_mem (by rfl)).close.reapStage).tokenFor
  · split
    · trivial
    · exact ((hv.of_mem (by rfl)).reopen (hv.of_mem (by rfl)).close.reapStage).tokenFor

theorem State.Canon.execMatrixExecute {a} (h : s.Canon) : NextCanon (Machine.execMatrixExecute a s) := by
  unfold Machine.execMatrixExecute
  split
  · exact h
  · split
    · exact h
    · split
      · exact h
      · exact h.updCore

theorem State.Canon.execMatrixComplete {a} (h : s.Canon) : NextCanon (Machine.execMatrixComplete a s) := by
  unfold Machine.execMatrixComplete
  split
  · exact h
  · split
    · exact h
    · exact h.updCore.reapStage

end Sys2Proof.Machine
end

section
/-! Memory's canonical form across the messages of coherence. -/

namespace Sys2Proof.Machine

variable {s : State} {v : View}

theorem State.Canon.onMsg {src dst} {f : Body → State → Option State} (h : s.Canon)
    (h1 : ∀ x0 x1, x1.Canon → ∀ u, (f x0 x1) = some u → u.Canon) :
    NextCanon (s.onMsg src dst f) := by
  unfold State.onMsg
  split
  · exact State.Canon.getD h fun u e => h1 _ _ (h.of_mem (by rfl)) u e
  · exact h

theorem State.Canon.portAnswer {a b} (h : s.Canon) : (s.portAnswer a b).Canon := h.of_mem rfl

theorem State.Canon.execRdc {src dst} (h : s.Canon) : NextCanon (Machine.execRdc src dst s) :=
  h.onMsg fun b t ht u e => by
  split at e
  · generalize List.range 16 = l at e
    cases e
    exact State.Canon.foldl ht fun _ _ hu => hu.arrive
  · cases e

theorem State.Canon.execRdn {src dst} (h : s.Canon) : NextCanon (Machine.execRdn src dst s) :=
  h.onMsg fun b t ht u e => by
  split at e
  · cases e
    exact State.Canon.foldl ht fun _ _ hu => hu.arrive
  · cases e

theorem State.Canon.execRegw {src dst} (h : s.Canon) : NextCanon (Machine.execRegw src dst s) :=
  h.onMsg fun b t ht u e => by
  split at e
  · cases e
    exact ht.arrive
  · cases e

theorem State.Canon.execEwr {src dst} (h : s.Canon) : NextCanon (Machine.execEwr src dst s) :=
  h.onMsg fun b t ht u e => by
  split at e
  · cases e
    exact ht.arrive
  · cases e

theorem State.Canon.execAtm {src dst} (h : s.Canon) : NextCanon (Machine.execAtm src dst s) :=
  h.onMsg fun b t ht u e => by
  split at e
  · cases e
    exact ht.arrive
  · cases e

theorem State.Canon.execWbd {src dst} (h : s.Canon) : NextCanon (Machine.execWbd src dst s) :=
  h.onMsg fun b t ht u e => by
  split at e
  · cases e
    exact ht.takeWbd
  · cases e

theorem State.Canon.execLoss {src dst} (h : s.Canon) : NextCanon (Machine.execLoss src dst s) :=
  h.onMsg fun b t ht u e => by
  split at e
  · cases e
    exact (State.Canon.foldl ht fun _ _ hu => hu.loseWord).pump
  · cases e

theorem State.Canon.execZapw {src dst} (h : s.Canon) : NextCanon (Machine.execZapw src dst s) :=
  h.onMsg fun b t ht u e => by
  split at e
  · cases e
    exact ht.arrive
  · cases e

theorem State.Canon.execNotheld {src dst} (h : s.Canon) : NextCanon (Machine.execNotheld src dst s) :=
  h.onMsg fun b t ht u e => by
  split at e
  · cases e
    exact ht.takeNotheld
  · cases e

theorem State.Canon.execRace {src dst} (h : s.Canon) : NextCanon (Machine.execRace src dst s) :=
  h.onMsg fun b t ht u e => by
  split at e
  · cases e
    exact ht.takeRace
  · cases e

theorem State.Canon.execCallbackDone {src dst} (h : s.Canon) : NextCanon (Machine.execCallbackDone src dst s) :=
  h.onMsg fun b t ht u e => by
  split at e
  · cases e
    exact ht.takeCallbackDone
  · cases e

theorem State.Canon.execStaleAck {src dst} (h : s.Canon) : NextCanon (Machine.execStaleAck src dst s) :=
  h.onMsg fun b t ht u e => by
  split at e
  · cases e
    exact ht.takeStaleAck
  · cases e

theorem State.Canon.execFwd {src dst} (h : s.Canon) : NextCanon (Machine.execFwd src dst s) :=
  h.onMsg fun b t ht u e => by
  split at e
  · cases e
    exact ht.onFwd
  · cases e

theorem State.Canon.execRecallWord {src dst} (h : s.Canon) : NextCanon (Machine.execRecallWord src dst s) :=
  h.onMsg fun b t ht u e => by
  split at e
  · cases e
    exact ht.onRecall
  · cases e

theorem State.Canon.execCallback {src dst} (h : s.Canon) : NextCanon (Machine.execCallback src dst s) :=
  h.onMsg fun b t ht u e => by
  split at e
  · cases e
    exact ht.onCallback
  · cases e

theorem State.Canon.execDrop {src dst} (h : s.Canon) : NextCanon (Machine.execDrop src dst s) :=
  h.onMsg fun b t ht u e => by
  split at e
  · cases e
    exact ht.onDrop
  · cases e

theorem State.Canon.execGrant {src dst} (h : s.Canon) : NextCanon (Machine.execGrant src dst s) :=
  h.onMsg fun b t ht u e => by
  split at e
  · cases e
    exact ht.onGrant
  · cases e

theorem State.Canon.execData {src dst} (h : s.Canon) : NextCanon (Machine.execData src dst s) :=
  h.onMsg fun b t ht u e => by
  split at e
  · cases e
    exact ht.onData.ite ht.portAnswer
  · cases e
    exact ht.onAtmData.ite ht.portAnswer
  · cases e
    exact ht.onRefill
  · cases e
    exact ht.fwdDone
  · cases e

theorem State.Canon.endPack {n slot code} (h : s.Canon) : (s.endPack n slot code).Canon := by
  unfold State.endPack
  split
  · exact h
  · exact h.updCore.launchError

theorem State.Canon.refuseStores {a w code} (h : s.Canon) : (s.refuseStores a w code).Canon := by
  unfold State.refuseStores
  extract_lets x t
  have ht : t.Canon := h.onFault
  exact State.Canon.ite (ht.foldl fun _ _ hu => hu.endPack) ht

theorem State.Canon.execFaultAnswer {src dst} (h : s.Canon) : NextCanon (Machine.execFaultAnswer src dst s) :=
  h.onMsg fun b t ht u e => by
  split at e
  · cases e
    exact ht.portAnswer.ite (ht.refuseStores.ite ht.onFault)
  · cases e

theorem State.Canon.execStale {src dst} (h : s.Canon) : NextCanon (Machine.execStale src dst s) :=
  h.onMsg fun b t ht u e => by
  split at e
  · cases e
    exact ht.onStale
  · cases e

theorem State.Canon.execLeaseExpiry {n line} (h : s.Canon) : NextCanon (Machine.execLeaseExpiry n line s) := by
  unfold Machine.execLeaseExpiry
  split
  · exact h.ite h.updCore
  · exact h

theorem State.Canon.execTimeBaseBroadcast {n off} (h : s.Canon) :
    NextCanon (Machine.execTimeBaseBroadcast n off s) :=
  h.updCore

theorem State.Canon.execBroadcastTimeout {n} (h : s.Canon) : NextCanon (Machine.execBroadcastTimeout n s) :=
  h.updCore.ite h

theorem State.Canon.driftCore {n ns} (h : s.Canon) : (s.driftCore n ns).Canon := h.of_mem rfl

theorem State.Canon.muteCore {n on} (h : s.Canon) : (s.muteCore n on).Canon := h.of_mem rfl

theorem State.Canon.giveUp {a} (h : s.Canon) : (s.giveUp a).Canon := by
  unfold State.giveUp
  refine State.Canon.updCore (h.foldl fun t e ht => ?_)
  split
  · exact ht.giveWord
  · exact ht.registerDirty
  · exact ht.updCore
  · exact ht

theorem State.Canon.execCoreClockGate {n} (h : s.Canon) : NextCanon (Machine.execCoreClockGate n s) := by
  unfold Machine.execCoreClockGate
  extract_lets t
  have ht : t.Canon := h.giveUp
  exact .ite h ht.updCore

theorem State.Canon.l1Error {n line} (h : s.Canon) : (s.l1Error n line).Canon := by
  unfold State.l1Error
  extract_lets c own slots t u
  have ht : t.Canon := h.ite h.send
  have hu : u.Canon := ht.updCore
  exact hu.foldl fun _ _ hx => hx.endPack

theorem State.Canon.releaseClamps {n} (h : s.Canon) : (s.releaseClamps n).Canon := h.of_mem rfl

theorem State.Canon.quarantine {n} (h : s.Canon) : (s.quarantine n).Canon := by
  unfold State.quarantine
  extract_lets t ws
  have ht : t.Canon := h.updCore.releaseClamps
  exact State.Canon.pump (ht.foldl fun _ _ hx => hx.loseWord)

theorem State.Canon.execCoreQuarantine {n} (h : s.Canon) : NextCanon (Machine.execCoreQuarantine n s) := h.quarantine

end Sys2Proof.Machine
end

section
/-! Memory's canonical form across the register instructions. -/

namespace Sys2Proof.Machine

variable {s : State} {v : View}

theorem State.Canon.execSrd {c d num} (h : s.Canon) : NextCanon (Machine.execSrd c d num s) :=
  State.Canon.issue (fun _ _ hv => hv.putS) h

theorem State.Canon.execSwr {c num a} (h : s.Canon) : NextCanon (Machine.execSwr c num a s) := by
  unfold Machine.execSwr
  refine State.Canon.issue (fun _ _ hv => ?_) h
  dsimp only
  split
  · trivial
  · exact (hv.of_mem (by rfl)).tokenFor

theorem State.Canon.execSwrp {c num a} (h : s.Canon) : NextCanon (Machine.execSwrp c num a s) := by
  unfold Machine.execSwrp
  refine State.Canon.issue (fun _ _ hv => State.Canon.tokenFor ?_) h
  split
  · exact hv.of_mem rfl
  · exact hv.of_mem rfl
  · exact hv.of_mem rfl
  · exact hv.of_mem rfl
  · exact hv

end Sys2Proof.Machine
end

section
/-! Memory's canonical form across branches, traps and yields. -/

namespace Sys2Proof.Machine

variable {s : State} {v : View}

theorem State.Canon.execBra {c cond a off} (h : s.Canon) : NextCanon (Machine.execBra c cond a off s) :=
  State.Canon.issue (fun _ _ hv => hv.tokenFor) h

theorem State.Canon.execCall {c d off} (h : s.Canon) : NextCanon (Machine.execCall c d off s) := by
  unfold Machine.execCall
  refine State.Canon.issue (fun _ _ hv => ?_) h
  split
  · exact hv.putS
  · exact hv.putV

theorem State.Canon.execRet {c a} (h : s.Canon) : NextCanon (Machine.execRet c a s) :=
  State.Canon.issue (fun _ _ hv => hv.tokenFor) h

theorem State.Canon.tokensReady {u} (h : v.s.Canon) (e : v.tokensReady = some u) : u.s.Canon := by
  obtain ⟨t, -, rfl⟩ := Option.map_eq_some_iff.1 e
  exact State.Canon.settle h

theorem State.Canon.markDead (h : v.s.Canon) : v.markDead.s.Canon := h.of_mem rfl

theorem State.Canon.split {c heel first rest} (h : v.s.Canon) : (v.split c heel first rest).Canon := by
  unfold View.split
  dsimp only
  split
  · exact (h.tokenFor.markDead.flush.finish.of_mem (by rfl)).close
  · exact h.tokenFor.markDead.flush.finish.close

theorem State.Canon.execBrv {c off heel} (h : s.Canon) : NextCanon (Machine.execBrv c off heel s) := by
  unfold Machine.execBrv
  refine State.Canon.issueW (fun _ _ hv => ?_) h
  dsimp only
  split
  · exact hv.tokenFor
  · split
    · trivial
    · split
      · exact (hv.tokensReady ‹_›).raise
      · exact (hv.tokensReady ‹_›).split

theorem State.Canon.execBrx {c a tab len heel} (h : s.Canon) : NextCanon (Machine.execBrx c a tab len heel s) :=
  State.Canon.issue (fun v m hv => by
  extract_lets idx n bad gs src sp w
  have hw : w.s.Canon := State.Canon.lastUse hv
  clear_value bad w gs
  split
  · exact State.Canon.raise hv
  · split
    · exact State.Canon.loadWith hv fun w o act hw ha => State.Canon.beginHere hw ha
    · split
      · exact hw
      · exact hw.tokenFor
      · split
        · trivial
        · next x e =>
          have hx : x.s.Canon := hw.tokensReady e
          extract_lets p
          split
          · exact hx.raise
          · exact hx.split) h

theorem State.Canon.exitLanes {c m} (h : v.s.Canon) : (v.exitLanes c m).Canon := h.tokenFor.flush.finish.setCore

theorem State.Canon.execExit {c} (h : s.Canon) : NextCanon (Machine.execExit c s) := by
  unfold Machine.execExit
  refine State.Canon.issue (fun _ _ hv => ?_) h
  split
  · split
    · exact hv.tokenFor
    · trivial
  · exact hv.exitLanes

theorem State.Canon.execSync {c} (h : s.Canon) : NextCanon (Machine.execSync c s) :=
  State.Canon.issueWide (fun _ _ hv => hv.tokenFor) h

theorem State.Canon.execWaitq {c all} (h : s.Canon) : NextCanon (Machine.execWaitq c all s) :=
  State.Canon.issueW (fun _ _ hv => hv) h

theorem State.Canon.yieldIssue {c} (h : v.s.Canon) : (v.yieldIssue c).Canon :=
  (h.tokenFor.finish.of_mem (by rfl)).close

theorem State.Canon.execYield {c} (h : s.Canon) : NextCanon (Machine.execYield c s) :=
  State.Canon.issue (fun _ _ hv => hv.yieldIssue) h

theorem State.Canon.execNop {c} (h : s.Canon) : NextCanon (Machine.execNop c s) :=
  State.Canon.issue (fun _ _ hv => hv.tokenFor) h

theorem State.Canon.quietAt {p u} (h : s.Canon) (e : s.quietAt p = some u) : u.s.Canon := by
  obtain ⟨w, k, ew⟩ := Option.bind_eq_some_iff.1 e
  split at ew
  · cases ew
  · exact State.Canon.tokensReady (h.viewAt k) ew

theorem State.Canon.execHeelArrival {n slot i} (h : s.Canon) : NextCanon (Machine.execHeelArrival n slot i s) := by
  unfold Machine.execHeelArrival
  split
  · exact h
  · next v e =>
    have hv : v.s.Canon := h.quietAt e
    exact .ite hv.setCore h

theorem State.Canon.meets {p j u} (h : s.Canon) (e : s.meets p j = some u) : u.1.s.Canon ∧ u.2.s.Canon := by
  revert e
  unfold State.meets
  split
  · nofun
  · dsimp only
    split
    · nofun
    · split
      · rintro ⟨⟩
        exact ⟨h.quietAt ‹_›, ((h.quietAt ‹_›).setCore).quietAt ‹_›⟩
      · nofun

theorem State.Canon.execSplitMeet {n slot i j} (h : s.Canon) : NextCanon (Machine.execSplitMeet n slot i j s) := by
  unfold Machine.execSplitMeet
  split
  · exact h
  · next v w e =>
    obtain ⟨-, hw⟩ := h.meets e
    exact hw.setCore

theorem State.Canon.execForcedReconvergence {n slot i} (h : s.Canon) :
    NextCanon (Machine.execForcedReconvergence n slot i s) := by
  unfold Machine.execForcedReconvergence
  split
  · exact h
  · split
    · exact ((h.viewAt ‹_›).reconverge).of_mem (by rfl)
    · exact h

theorem State.Canon.execFairnessTimer {n slot} (h : s.Canon) : NextCanon (Machine.execFairnessTimer n slot s) := by
  unfold Machine.execFairnessTimer
  split
  · exact h
  · split
    · exact h
    · split
      · exact h
      · exact h.of_mem rfl

end Sys2Proof.Machine
end

section
/-! Memory's canonical form across the stops of packs and the records they write. -/

namespace Sys2Proof.Machine

variable {s : State} {v : View}

theorem State.Canon.signal {n e} (h : s.Canon) : (s.signal n e).Canon := h.of_mem rfl

theorem State.Canon.svcHeel {each heel u} (h : v.s.Canon) (e : v.svcHeel each heel = some u) : u.2.s.Canon := by
  revert e
  unfold View.svcHeel
  split
  · rintro ⟨⟩
    exact h
  · split
    · nofun
    · rintro ⟨⟩
      exact h

theorem State.Canon.svcPark {c each vb m e a6} (h : v.s.Canon) : (v.svcPark c each vb m e a6).Canon := by
  unfold View.svcPark
  extract_lets r
  split
  next w tok e =>
  have hw : w.s.Canon := h.tokenV.of_fstV e
  extract_lets co
  have hp : ({ w with co := co, pk := w.pk.noResv } : View).s.Canon := hw
  exact hp.park.reapStage.signal

theorem State.Canon.svcCall {c each vb heel m} (h : v.s.Canon) : (v.svcCall c each vb heel m).Canon := by
  unfold View.svcCall
  extract_lets row bad
  split
  · exact State.Canon.raise h
  · split
    · trivial
    · split
      · trivial
      · split
        · trivial
        · have hr : Rel.Canon (v.release .device true) := State.Canon.release h
          split
          · trivial
          · exact hr.of_hold ‹_›
          · next w e =>
            have hw : w.s.Canon := hr.of_go e
            split
            · trivial
            · exact State.Canon.svcPark (State.Canon.svcHeel hw ‹_›)

theorem State.Canon.execSvc {c each vb heel} (h : s.Canon) : NextCanon (Machine.execSvc c each vb heel s) := by
  unfold Machine.execSvc
  split
  · refine State.Canon.issue (fun _ _ hv => ?_) h
    split
    · exact hv.tokenFor
    · trivial
  · exact State.Canon.issueG (fun _ _ hv => hv.svcCall) h

theorem State.Canon.execTrap {c code} (h : s.Canon) : NextCanon (Machine.execTrap c code s) := by
  unfold Machine.execTrap
  refine State.Canon.issue (fun _ _ hv => ?_) h
  split
  · trivial
  · exact hv.tokenFor

theorem State.Canon.execBkpt {c} (h : s.Canon) : NextCanon (Machine.execBkpt c s) := by
  unfold Machine.execBkpt
  refine State.Canon.issue (fun _ _ hv => ?_) h
  split
  · trivial
  · exact hv.tokenFor

theorem State.Canon.releasing {n slot u} (h : s.Canon) (e : s.releasing n slot = some u) : u.Canon := by
  unfold State.releasing at e
  extract_lets dirty at e
  split at e
  · cases e
    exact h.foldl fun _ _ ht => ht.registerDirty
  · split at e
    · split at e
      · cases e
        exact h
      · cases e
    · cases e

theorem State.Canon.recordStop {n slot p x} (h : s.Canon) : (s.recordStop n slot p x).Canon := by
  unfold State.recordStop
  dsimp only
  split <;> exact h.setCore.signal

theorem State.Canon.stopPack {n slot} (h : s.Canon) : (s.stopPack n slot).Canon := by
  unfold State.stopPack
  split
  · exact h
  · split
    · exact h
    · split
      · exact h
      · split
        · exact h.releasing ‹_›
        · exact h.setCore.reapStage.recordStop

theorem State.Canon.execStopComplete {n slot} (h : s.Canon) : NextCanon (Machine.execStopComplete n slot s) := by
  unfold Machine.execStopComplete
  split
  · split
    · split
      · split
        · exact ((h.viewAt ‹_›).enter).ite h
        · exact h
      · exact h
    · exact h
  · exact h.stopPack

theorem State.Canon.resumePack {n slot} (h : s.Canon) : (s.resumePack n slot).Canon := h.of_mem rfl

theorem State.Canon.execWatchdog {n slot i} (h : s.Canon) : NextCanon (Machine.execWatchdog n slot i s) := by
  unfold Machine.execWatchdog
  split
  · exact h
  · split
    · exact (h.viewAt ‹_›).raise0
    · exact h

end Sys2Proof.Machine
end

section
/-! Memory's canonical form across launches, their workgroups and their ends. -/

namespace Sys2Proof.Machine

variable {s : State} {v : View}

theorem State.Canon.changeSplit {n spsz} (h : s.Canon) : (s.changeSplit n spsz).Canon := h.ite h.giveUp.updCore

theorem State.Canon.settleIn {pl launch wg spsz size packs img} (h : s.Canon) :
    (s.settleIn pl launch wg spsz size packs img).Canon := by
  unfold State.settleIn
  exact (h.changeSplit.of_mem (by rfl)).updCore

theorem State.Canon.startWg {id l wg pl} (h : s.Canon) : (s.startWg id l wg pl).Canon := by
  unfold State.startWg
  extract_lets packs t
  have ht : t.Canon := h.settleIn
  exact ht.of_mem rfl

theorem State.Canon.weight {ag f proc} (h : s.Canon) : Sync.Canon (fun x => x.2.Canon) (s.weight ag f proc) := by
  unfold State.weight
  split
  · exact h
  · split
    · exact h.readAt.of_ok ‹_›
    · exact h
    · exact h.readAt.of_busy ‹_›

theorem State.Canon.roundOf {ag f} (h : s.Canon) : Sync.Canon (fun x => x.2.Canon) (s.roundOf ag f) := by
  refine List.foldlRecOn _ _ (b := .ok ([], s)) (motive := Sync.Canon fun x : List (Nat × Nat) × State => x.2.Canon)
      h fun r hr p _ => ?_
  cases r with
  | ok x =>
    have hw : Sync.Canon (fun y => y.2.Canon) (x.2.weight ag f p) := State.Canon.weight hr
    dsimp only
    split
    · next d t k => exact hw.of_ok k
    · trivial
    · next t k => exact hw.of_busy k
  | fault c => exact hr
  | busy t => exact hr

theorem State.Canon.setDist {p d} (h : s.Canon) : (s.setDist p d).Canon := h.of_mem rfl

theorem State.Canon.affDie {p l wg} (h : s.Canon) : (s.affDie p l wg).Canon := by
  unfold State.affDie
  split
  · exact h
  · dsimp only
    split
    · exact h.engNum.of_busy ‹_›
    · exact h
    · split
      · exact h.engNum.of_ok ‹_›
      · split
        · exact ((h.engNum.of_ok ‹_›).engXlate).of_busy ‹_›
        · exact h.engNum.of_ok ‹_›
        · split <;> exact ((h.engNum.of_ok ‹_›).engXlate).of_ok ‹_›

theorem State.Canon.placeWg {p id wg} (h : s.Canon) : (s.placeWg p id wg).Canon := by
  unfold State.placeWg
  split
  · trivial
  · dsimp only
    split
    · exact h.affDie.of_busy ‹_›
    · split
      · exact ((h.affDie.of_die ‹_›).startWg).setDist
      · trivial
    · split
      · exact ((h.affDie.of_any ‹_›).startWg).setDist
      · trivial

theorem State.Canon.placeAll {p id a2} (h : s.Canon) : (Machine.placeAll p id a2 s).Canon := by
  induction a2 generalizing s with
  | nil => exact h
  | cons w ws ih =>
    unfold Machine.placeAll
    split
    · exact ih (h.placeWg.of_done ‹_›)
    · exact h.placeWg

theorem State.Canon.placeCohort {p id l ws} (h : s.Canon) : (s.placeCohort p id l ws).Canon := by
  unfold State.placeCohort
  split
  · next t e =>
    obtain ⟨w, -, k⟩ := List.exists_of_findSome?_eq_some e
    split at k
    · next u ku =>
      cases k
      exact h.affDie.of_busy ku
    · cases k
  · split
    · exact h.placeAll.of_done ‹_›
    · exact h
    · split
      · exact h.placeAll.of_done ‹_›
      · trivial

theorem State.Canon.dispatchNext {p id} (h : s.Canon) : (s.dispatchNext p id).Canon := by
  unfold State.dispatchNext
  split
  · trivial
  · extract_lets wg ws
    split
    · split
      · exact (h.placeCohort.of_done ‹_›).of_mem (by rfl)
      · trivial
    · exact h.placeCohort

theorem State.Canon.currentFn {p} (h : s.Canon) : (s.currentFn p).Canon := by
  unfold State.currentFn
  dsimp only
  split
  · exact h
  · split
    · exact h.setDist
    · exact h

theorem State.Canon.dispatchProc {p f proc} (h : s.Canon) : (s.dispatchProc p f proc).Canon := by
  refine List.foldlRecOn _ _ (b := Placed.none) (motive := Placed.Canon) trivial fun r hr e _ => ?_
  cases r with
  | none =>
    dsimp only
    split
    · exact (h.dispatchNext.of_done ‹_›).setDist
    · exact h.dispatchNext
  | busy t => exact hr
  | done t => exact hr

theorem State.Canon.dispatchIn {p f turns} (h : s.Canon) : (s.dispatchIn p f turns).Canon := by
  refine List.foldlRecOn _ _ (b := Placed.none) (motive := Placed.Canon) trivial fun r hr e _ => ?_
  cases r with
  | none =>
    dsimp only
    split
    · exact (h.dispatchProc.of_done ‹_›).setDist
    · exact h.dispatchProc
  | busy t => exact hr
  | done t => exact hr

theorem State.Canon.execWorkgroupDispatch {p} (h : s.Canon) : NextCanon (Machine.execWorkgroupDispatch p s) := by
  unfold Machine.execWorkgroupDispatch
  split
  · exact h
  · dsimp only
    split
    · exact h
    · split
      · exact h.currentFn.dispatchIn.of_done ‹_›
      · exact h.currentFn.dispatchIn.of_busy ‹_›
      · split
        · exact h.currentFn.roundOf.of_busy ‹_›
        · exact h
        · split
          · exact ((h.currentFn.roundOf.of_ok ‹_›).dispatchIn).of_done ‹_›
          · exact ((h.currentFn.roundOf.of_ok ‹_›).dispatchIn).of_busy ‹_›
          · exact h

theorem State.Canon.detach {n slot} (h : s.Canon) : (s.detach n slot).Canon := h.of_mem rfl

theorem State.Canon.dropJobs {n es} (h : s.Canon) : (s.dropJobs n es).Canon := h.of_mem rfl

theorem State.Canon.dropWindow {n launch wg} (h : s.Canon) : (s.dropWindow n launch wg).Canon := h.of_mem rfl

theorem State.Canon.removePack {n slot launch wg last} (h : s.Canon) :
    (s.removePack n slot launch wg last).Canon := by
  unfold State.removePack
  extract_lets t u w
  have ht : t.Canon := h.detach.dropJobs.updCore
  have hu : u.Canon := ht.reapStage
  have hw : w.Canon := hu.dropWindow
  clear_value u w
  split
  · exact hu
  · split
    · exact hw.of_mem rfl
    · exact hw

theorem State.Canon.packEnd {n slot} (h : s.Canon) : (s.packEnd n slot).Canon := by
  unfold State.packEnd
  split
  · exact h
  · split
    · exact h
    · extract_lets t u dead others
      have ht : t.Canon := h.ite h.updCore
      have hu : u.Canon := by
        unfold u
        split
        · exact ht.launchError
        · exact ht
      clear_value u
      split
      · exact hu
      · split
        · next w e =>
          split at e
          · cases e
          · exact hu.releasing e
        · exact hu.ite (hu.ite hu.removePack)

theorem State.Canon.execPackEnd {n slot} (h : s.Canon) : NextCanon (Machine.execPackEnd n slot s) := h.packEnd

theorem State.Canon.pktDone {k status code fcode} (h : s.Canon) : (s.pktDone k status code fcode).Canon := by
  unfold State.pktDone
  split
  · exact h
  · exact h.of_mem rfl

theorem State.Canon.nodeDone {g node status code} (h : s.Canon) : (s.nodeDone g node status code).Canon :=
  h.of_mem rfl

theorem State.Canon.execLaunchComplete {id} (h : s.Canon) : NextCanon (Machine.execLaunchComplete id s) := by
  unfold Machine.execLaunchComplete
  split
  · exact h
  · split
    · exact h
    · refine State.Canon.pktDone ?_
      split
      · refine State.Canon.nodeDone ?_
        split <;> exact h.of_mem rfl
      · split <;> exact h.of_mem rfl

theorem State.Canon.execReggrow {c d n} (h : s.Canon) : NextCanon (Machine.execReggrow c d n s) := by
  unfold Machine.execReggrow
  refine State.Canon.issue (fun _ _ hv => ?_) h
  dsimp only
  split
  · exact hv.landS
  · split
    · trivial
    · exact (hv.tokenV.of_mem (by rfl)).park

theorem State.Canon.execReggrowGrant {n} (h : s.Canon) : NextCanon (Machine.execReggrowGrant n s) := by
  unfold Machine.execReggrowGrant
  dsimp only
  split
  · exact h
  · split
    · exact h.setCore
    · split
      · exact h.setCore
      · split
        · exact h.setCore
        · exact h

theorem State.Canon.execRegisterDeadlock {n} (h : s.Canon) : NextCanon (Machine.execRegisterDeadlock n s) := by
  unfold Machine.execRegisterDeadlock
  dsimp only
  split
  · exact h
  · split
    · exact h.postEvent
    · exact h

theorem State.Canon.dropHigh {n} (h : v.s.Canon) : (v.dropHigh n).s.Canon := h.of_mem rfl

theorem State.Canon.execRegshrink {c n} (h : s.Canon) : NextCanon (Machine.execRegshrink c n s) := by
  unfold Machine.execRegshrink
  refine State.Canon.issue (fun _ _ hv => ?_) h
  dsimp only
  split
  · exact hv.tokenFor
  · split
    · exact hv.dropHigh
    · exact (hv.of_mem (by rfl)).tokenFor

end Sys2Proof.Machine
end

section
/-! Memory's canonical form across the writes of management registers. -/

namespace Sys2Proof.Machine

variable {s : State} {v : View}

theorem State.Canon.flashPut {a bs} (h : s.Canon) : (s.flashPut a bs).Canon := h.of_mem rfl

theorem State.Canon.putReg {a l n v} (h : s.Canon) : (s.putReg a l n v).Canon := h.of_mem rfl

theorem State.Canon.next1 {i} (h : s.Canon) : (s.next1 i).Canon := h.of_mem rfl

theorem State.Canon.regPlain {a x m} (h : s.Canon) : (s.regPlain a x m).Canon := h.of_mem rfl

theorem State.Canon.partWrite {p off x m} (h : s.Canon) : (s.partWrite p off x m).Canon := by
  unfold State.partWrite
  extract_lets a en st t
  have ht : t.Canon := h.ite h.setMreg
  clear_value t
  refine .ite (h.ite (ht.ite ?_)) (h.regPlain.ite (h.ite h.regPlain))
  exact (ht.next1.ite ht).ite (ht.next1.ite (ht.next1.ite ht))

theorem State.Canon.vcpWrite {f x m} (h : s.Canon) : (s.vcpWrite f x m).Canon := h.of_mem rfl

theorem State.Canon.migWrite {f x m} (h : s.Canon) : (s.migWrite f x m).Canon :=
  h.next1.ite ((h.next1.ite h.next1).ite h)

theorem State.Canon.enrollWrite {x m} (h : s.Canon) : (s.enrollWrite x m).Canon := by
  unfold State.enrollWrite
  dsimp only
  split
  · exact h.regPlain
  · split
    · exact h.regPlain.next1
    · exact h.regPlain.next1
    · exact h.regPlain.putReg

theorem State.Canon.bar0Write {f o x m} (h : s.Canon) : (s.bar0Write f o x m).Canon := by
  unfold State.bar0Write
  extract_lets mix val t
  have ht : t.Canon := h.setMreg
  refine .ite (ht.next1.ite ht) (.ite (h.next1.ite h) (h.next1.ite (.ite (h.next1.ite h) ?_)))
  exact (h.of_mem (by rfl)).ite h

theorem State.Canon.stagingWrite {o x m} (h : s.Canon) : (s.stagingWrite o x m).Canon :=
  h.foldl fun _ _ ht => (ht.of_mem (by rfl)).ite ht

theorem State.Canon.regWrite {w a x m} (h : s.Canon) : (s.regWrite w a x m).Canon := by
  unfold State.regWrite
  split
  · exact h.stagingWrite.ite h
  · split
    · exact h.bar0Write
    · split
      · exact (h.of_mem (by rfl)).ite h.partWrite
      · split
        · exact h.changeSplit.ite h
        · split
          · exact h.vcpWrite
          · exact h.next1.ite h
          · split
            · exact h.migWrite
            · split
              · exact h.ite (h.next1.ite (h.next1.ite h))
              · exact h
            · exact h.ite h.regPlain
            · split
              · split
                · exact h.next1
                · exact h
              · split
                · split
                  · exact h.next1
                  · exact h
                · exact (h.enrollWrite.ite h).ite ((h.next1.ite h).ite (h.setMreg.ite (h.ite h.regPlain)))

theorem State.Canon.mgmtWrite {w a n v} (h : s.Canon) : (s.mgmtWrite w a n v).Canon := h.ite h.regWrite

theorem State.Canon.execRegisterWrite {who addr n v} (h : s.Canon) :
    NextCanon (Machine.execRegisterWrite who addr n v s) := by
  unfold Machine.execRegisterWrite
  split
  · exact h.mgmtWrite
  · exact h

end Sys2Proof.Machine
end

section
/-! Memory's canonical form across partitions, keys and scrubs. -/

namespace Sys2Proof.Machine

variable {s : State} {v : View}

theorem State.Canon.count16 {a l} (h : s.Canon) : (s.count16 a l).Canon := h.ite h.putReg

theorem State.Canon.logEcc {kind pa part die unit} (h : s.Canon) : (s.logEcc kind pa part die unit).Canon :=
  h.draw.logError

theorem State.Canon.execCorrectedError {kind unit} (h : s.Canon) :
    NextCanon (Machine.execCorrectedError kind unit s) := by
  unfold Machine.execCorrectedError
  split
  · exact h.count16.logEcc.ite h.count16
  · exact (((h.ite (h.of_mem (by rfl))).logEcc).ite ((h.ite (h.of_mem (by rfl))).logEcc)).ite
        (h.ite (h.of_mem (by rfl)))

theorem State.Canon.countUe {p} (h : s.Canon) : (s.countUe p).Canon := by
  unfold State.countUe
  split
  · exact h.count16
  · exact h

theorem State.Canon.coreUe {kind pa a} (h : s.Canon) : (s.coreUe kind pa a).Canon := h.countUe.logEcc

theorem State.Canon.execL1LineError {n line} (h : s.Canon) : NextCanon (Machine.execL1LineError n line s) :=
  h.l1Error.coreUe

theorem State.Canon.tamper {what addr} (h : s.Canon) : (s.tamper what addr).Canon := by
  unfold State.tamper
  dsimp only
  split
  · exact h
  · split
    · exact (h.of_mem (by rfl)).inspect
    · exact h.of_mem rfl
    · split
      · exact h.of_mem rfl
      · exact h

theorem State.Canon.execUncorrectableError {kind unit addr} (h : s.Canon) :
    NextCanon (Machine.execUncorrectableError kind unit addr s) := by
  unfold Machine.execUncorrectableError
  split
  · exact (h.of_mem (by rfl)).count16.countUe.logEcc
  · exact (h.of_mem (by rfl)).count16.countUe.logEcc
  · exact h.l1Error.coreUe
  · exact h.updCore.coreUe
  · refine State.Canon.coreUe ?_
    split
    · exact h.updCore
    · exact h
  · exact h.updCore.coreUe
  · exact h.tamper
  · exact (h.of_mem (by rfl)).countUe.logError
  · split
    · exact h
    · exact (h.of_mem (by rfl)).draw.coreUe

theorem State.Canon.setSt {p st} (h : s.Canon) : (s.setSt p st).Canon := h.of_mem rfl

theorem State.Canon.setPend {p n} (h : s.Canon) : (s.setPend p n).Canon := h.of_mem rfl

theorem State.Canon.setClean {sl b} (h : s.Canon) : (s.setClean sl b).Canon := h.of_mem rfl

theorem State.Canon.startSlice {sl} (h : s.Canon) : (s.startSlice sl).Canon := h.of_mem rfl

theorem State.Canon.stopSlice {sl prog} (h : s.Canon) : (s.stopSlice sl prog).Canon := h.of_mem rfl

theorem State.Canon.newKeys {p} (h : s.Canon) : (s.newKeys p).Canon := h.of_mem rfl

theorem State.Canon.loadKeys {p} (h : s.Canon) : (s.loadKeys p).Canon := by
  unfold State.loadKeys
  split
  · exact h.foldl fun _ _ ht => ht.of_mem rfl
  · exact h

theorem State.Canon.startKeying {p} (h : s.Canon) : (s.startKeying p).Canon := by
  unfold State.startKeying
  extract_lets sl t
  have ht : t.Canon := h.setSt.setPend
  exact State.Canon.ite (ht.foldl fun _ _ hu => hu.startSlice) ht

theorem State.Canon.startScrub {p} (h : s.Canon) : (s.startScrub p).Canon := by
  unfold State.startScrub
  split
  next z t e =>
  have ht : t.Canon := h.draw.of_snd e
  extract_lets keyed dirty u
  have hu : u.Canon := State.Canon.setPend (ht.setSt.foldl fun _ _ hx => hx.startSlice)
  exact hu.startKeying.ite hu

theorem State.Canon.execPartitionEnable {p} (h : s.Canon) : NextCanon (Machine.execPartitionEnable p s) := by
  unfold Machine.execPartitionEnable
  extract_lets t u
  have ht : t.Canon := h.putReg.putReg
  have hu : u.Canon := ht.foldl fun _ _ hx => hx.putReg
  clear_value u
  split
  · exact h
  · split
    · exact h.putReg
    · exact hu.newKeys.startScrub

theorem State.Canon.wipeMarks {sl} (h : s.Canon) : (s.wipeMarks sl).Canon := h.of_mem rfl

theorem State.Canon.pendDown {p} (h : s.Canon) : (s.pendDown p).Canon := h.of_mem rfl

theorem State.Canon.execSliceScrubDone {sl} (h : s.Canon) : NextCanon (Machine.execSliceScrubDone sl s) := by
  unfold Machine.execSliceScrubDone
  split
  · exact h
  · next p _ =>
    refine .ite h ?_
    extract_lets lo t u w
    have ht : t.Canon := h.of_keep (p := fun a => !(decide (lo ≤ a) && decide (a < lo + 2 ^ 33))) rfl
    have hu : u.Canon := ht.of_mem rfl
    have hw : w.Canon := hu.wipeMarks.stopSlice.setClean.pendDown
    exact hw.startKeying.ite hw

theorem State.Canon.veilSlice {sl} (h : s.Canon) : (s.veilSlice sl).Canon :=
  h.of_keep (p := fun a => !(decide (sl * 2 ^ 33 ≤ a) && decide (a < sl * 2 ^ 33 + 2 ^ 33))) rfl

theorem State.Canon.freshTree {p} (h : s.Canon) : (s.freshTree p).Canon := h.of_mem rfl

theorem State.Canon.execMetadataInitDone {sl} (h : s.Canon) : NextCanon (Machine.execMetadataInitDone sl s) := by
  unfold Machine.execMetadataInitDone
  split
  · exact h
  · split
    · exact h
    · exact (((h.of_mem (by rfl)).ite (h.of_mem (by rfl)).veilSlice).stopSlice).pendDown

theorem State.Canon.execPartitionKeyingDone {p} (h : s.Canon) : NextCanon (Machine.execPartitionKeyingDone p s) := by
  unfold Machine.execPartitionKeyingDone
  exact .ite (State.Canon.foldl h.loadKeys.setPend.setSt fun _ _ ht => ht.setClean) h

theorem State.Canon.freeSlice {sl} (h : s.Canon) : (s.freeSlice sl).Canon := h.of_mem rfl

theorem State.Canon.execPartitionResetDone {p} (h : s.Canon) : NextCanon (Machine.execPartitionResetDone p s) := by
  unfold Machine.execPartitionResetDone
  split
  · exact h.startScrub
  · exact h

theorem State.Canon.execPartitionReleaseDone {p} (h : s.Canon) :
    NextCanon (Machine.execPartitionReleaseDone p s) := by
  unfold Machine.execPartitionReleaseDone
  exact .ite (State.Canon.setSt (h.foldl fun _ _ ht => ht.freeSlice)) h

theorem State.Canon.rebindStart {core f aty} (h : s.Canon) : (s.rebindStart core f aty).Canon := by
  unfold State.rebindStart
  extract_lets pa ws t
  have ht : t.Canon := h.foldl fun _ _ hu => State.Canon.setReg (hu.foldl fun _ _ hw => hw.dropOwner)
  exact h.ite (ht.of_mem (by rfl))

theorem State.Canon.rebindEnd (h : s.Canon) : s.rebindEnd.Canon := by
  unfold State.rebindEnd
  split
  · exact h
  · extract_lets lo inF t u w
    have ht : t.Canon := h.setBytes.ite (h.of_keep rfl)
    have hu : u.Canon := ht.of_mem rfl
    have hw : w.Canon := (hu.foldl fun _ _ hx => hx.countEnci).ite hu
    exact hw.pump

theorem State.Canon.execFrameRebind {core v} (h : s.Canon) : NextCanon (Machine.execFrameRebind core v s) :=
  h.rebindStart

theorem State.Canon.execFrameRebindDone (h : s.Canon) : NextCanon (Machine.execFrameRebindDone s) := h.rebindEnd

end Sys2Proof.Machine
end

section
/-! Memory's canonical form across queues, packets and graphs. -/

namespace Sys2Proof.Machine

variable {s : State} {v : View}

theorem EngRes.Canon.work {r : EngRes α} {page cluster kind id q} (h : r.Canon) (h1 : s.Canon) :
    (r.work s page cluster kind id q).Canon := by
  unfold EngRes.work
  split
  · exact h
  · exact h
  · split
    · exact h1.engPageFault
    · trivial

theorem State.Canon.desc {f q} (h : s.Canon) : (s.desc f q).Canon := by
  unfold State.desc
  split
  · trivial
  · split
    · trivial
    · exact h.readAt.of_busy ‹_›
    · trivial

theorem State.Canon.updQueue {f q g} (h : s.Canon) : (s.updQueue f q g).Canon :=
  (h.of_mem (by rfl)).ite (h.of_mem (by rfl))

theorem State.Canon.interrupt {f vec} (h : s.Canon) : (s.interrupt f vec).Canon := h.of_mem rfl

theorem State.Canon.recordQf {f q code} (h : s.Canon) : (s.recordQf f q code).Canon := h.of_mem rfl

theorem Put.Canon.state {r : Put} (h : r.Canon) : r.state.Canon := by
  unfold Put.state
  split <;> exact h

theorem Put.Canon.map {r : Put} {f : State → State} (h : r.Canon) (h1 : ∀ x0, x0.Canon → (f x0).Canon) :
    (r.map f).Canon := by
  unfold Put.map
  split
  · exact h1 _ h
  · exact h1 _ h
  · exact h

theorem State.Canon.putFields {f q rd st err} (h : s.Canon) : (s.putFields f q rd st err).Canon := by
  unfold State.putFields
  split
  · exact h
  · next pa _ =>
    extract_lets r first go keep
    have hf : Sync.Canon State.Canon first := by
      unfold first
      split
      · exact h.writeAt
      · exact h
    have hg : Sync.Canon State.Canon go := by
      unfold go
      clear_value first
      cases first with
      | ok t => exact State.Canon.writeAt hf
      | fault c => exact hf
      | busy t => exact hf
    clear_value go
    cases go with
    | ok t => exact hg
    | fault c => exact h.updQueue.recordQf.interrupt
    | busy t => exact hg

theorem State.Canon.putDesc {f q d} (h : s.Canon) : (s.putDesc f q d).Canon := h.putFields

theorem State.Canon.queueStopped {f q} (h : s.Canon) : (s.queueStopped f q).Canon := h.updQueue

theorem Put.Canon.stopped {r : Put} {f q} (h : r.Canon) : (r.stopped f q).Canon := by
  have hm : (r.map fun s => s.queueStopped f q).Canon := h.map fun _ hs => hs.queueStopped
  cases r with
  | done s => exact State.Canon.interrupt (State.Canon.queueStopped h)
  | kept s => exact hm
  | busy s => exact hm

theorem State.Canon.queueError {f q d err} (h : s.Canon) : (s.queueError f q d err).Canon := h.putFields.stopped

theorem State.Canon.queueUnread {f q} (h : s.Canon) : (s.queueUnread f q).Canon := h.putFields.stopped

theorem State.Canon.clearQf {f q} (h : s.Canon) : (s.clearQf f q).Canon := h.setMreg.ite h

theorem State.Canon.overrun {f q x d} (h : s.Canon) : (s.overrun f q x d).Canon := by
  unfold State.overrun
  split
  · exact h.updQueue
  · split
    · exact h
    · exact h.queueError

theorem State.Canon.revalid {f q x d} (h : s.Canon) : (s.revalid f q x d).Canon := by
  unfold State.revalid
  split
  · exact h
  · split
    · exact h.putDesc.map fun _ ht => ht.updQueue.clearQf
    · exact h.updQueue.clearQf

theorem State.Canon.lookAt {f q} (h : s.Canon) : (s.lookAt f q).Canon := by
  unfold State.lookAt
  extract_lets later outcome t x
  have hl : ∀ {u : State}, u.Canon → (later u).Canon := fun hu => hu.updQueue
  have ho : ∀ {r : Put}, r.Canon → (outcome r).Canon := by
    intro r hr
    cases r with
    | busy u => exact hl hr
    | done u => exact hr
    | kept u => exact hr
  have ht : t.Canon := h.updQueue.ite h
  clear_value later outcome t
  split
  · exact ht
  · next u e => exact hl (ht.desc.of_busy e)
  · exact ho ht.queueUnread
  · split
    · exact ht.updQueue
    · split
      · next u e => exact hl (ht.revalid.of_busy e)
      · next u e => exact ht.revalid.of_kept e
      · next u e =>
        have hu : u.Canon := ht.revalid.of_done e
        extract_lets again src d
        split
        · exact hu
        · split
          · exact ho hu.queueError
          · split
            · exact ho hu.overrun
            · split
              · exact hu
              · exact hu.updQueue

theorem State.Canon.notify {f q idx} (h : s.Canon) : (s.notify f q idx).Canon := by
  unfold State.notify
  split
  · split
    · exact h
    · split
      · exact (h.writeAt.of_ok ‹_›).lookAt
      · exact h.writeAt.of_busy ‹_›
      · exact h.queueError
  · exact h.lookAt
  · exact h.desc.of_busy ‹_›
  · exact h

theorem State.Canon.execNotify {f q idx} (h : s.Canon) : NextCanon (Machine.execNotify f q idx s) := by
  unfold Machine.execNotify
  extract_lets wait
  have hw : ∀ {t : State}, t.Canon → (wait t).Canon := fun ht => ht.of_mem rfl
  split
  · exact h.of_mem rfl
  · split
    · exact hw h
    · split
      · exact hw (h.notify.of_busy ‹_›)
      · exact h.notify.state

theorem State.Canon.finDone {f} (h : s.Canon) : (s.finDone f).Canon :=
  (h.of_mem (by rfl)).interrupt.ite (h.of_mem (by rfl))

theorem State.Canon.runFin {f} (h : s.Canon) : (s.runFin f).Canon := by
  unfold State.runFin
  split
  · exact h.finDone
  · extract_lets p q cl upd drop lost dec bs
    have hupd : ∀ g {t : State}, t.Canon → (upd g t).Canon := fun _ _ ht => ht.of_mem rfl
    have hdrop : ∀ {t : State}, t.Canon → (drop t).Canon := fun ht => ht.of_mem rfl
    have hlost : ∀ {t : State}, t.Canon → (lost t).Canon := by
      intro t ht
      unfold lost
      split
      · exact hdrop ht
      · split
        · split
          · exact ht.queueError.of_busy ‹_›
          · exact hdrop ht.queueError.state
        · split
          · exact ht.queueUnread.of_busy ‹_›
          · exact hdrop ht.queueUnread.state
        · exact ht.desc.of_busy ‹_›
        · exact hdrop ht
    have hdec : ∀ {t : State}, t.Canon → (dec t).Canon := by
      intro t ht
      have hw := EngRes.Canon.work (page := f.page) (cluster := cl) (kind := 4) (id := f.id) (q := q)
        (ht.engAtom (q := q) (va := f.sig.toNat) (f := fun v => v - 1)) ht
      unfold dec
      split
      · exact (hw.of_ok ‹_›).finDone
      · exact hw.of_busy ‹_›
      · exact hupd _ (hw.of_page ‹_›)
      · exact hlost ht
    split
    · exact h
    · split
      · exact hdec h
      · have hw := EngRes.Canon.work (page := f.page) (cluster := cl) (kind := 4) (id := f.id) (q := q)
          (h.engWrite (q := q) (va := (f.sig + 8).toNat) (bs := bs)) h
        split
        · exact hdec (hupd _ (hw.of_ok ‹_›))
        · exact hw.of_busy ‹_›
        · exact hupd _ (hw.of_page ‹_›)
        · exact hlost h

theorem State.Canon.runFins (h : s.Canon) : s.runFins.Canon := h.foldl fun _ _ ht => ht.runFin

theorem EngRes.Canon.keepFault {r : EngRes α} {page} (h : r.Canon) (h1 : s.Canon) : (r.keepFault s page).Canon := by
  unfold EngRes.keepFault
  split
  · exact h
  · split
    · trivial
    · exact h1
  · exact h

theorem State.Canon.readSets {q page tab total a4 a5 a6} (h : s.Canon) :
    (s.readSets q page tab total a4 a5 a6).Canon := by
  induction a4 generalizing a5 a6 s with
  | zero => exact h
  | succ k ih =>
    refine (h.engRead.keepFault h).andThen fun r t ht => ?_
    split
    · exact ih ht
    · split
      · exact ih ht
      · split
        · exact ht
        · split
          · exact ih ht
          · refine (ht.engRead.keepFault ht).andThen fun r t ht => ?_
            split
            · exact ih ht
            · exact ih ht

theorem State.Canon.checkLaunch {q page p fn qn prio proc parent a} (h : s.Canon) :
    (s.checkLaunch q page p fn qn prio proc parent a).Canon := by
  unfold State.checkLaunch
  refine EngRes.Canon.ite h ?_
  refine (h.engRead.keepFault h).andThen fun d t ht => ?_
  extract_lets known
  refine EngRes.Canon.ite ht (EngRes.Canon.ite ht (EngRes.Canon.ite ht (EngRes.Canon.ite ht ?_)))
  refine ht.readSets.andThen fun tab u hu => ?_
  refine EngRes.Canon.ite hu (EngRes.Canon.ite hu ?_)
  split
  · trivial
  · trivial
  · exact hu
  · exact hu

theorem State.Canon.accept {l} (h : s.Canon) : (s.accept l).2.Canon := h.of_mem rfl

theorem State.Canon.updGraph {id f} (h : s.Canon) : (s.updGraph id f).Canon := h.of_mem rfl

theorem State.Canon.writeStats {id e a3} (h : s.Canon) : (s.writeStats id e a3).Canon := by
  induction a3 generalizing s with
  | nil => exact h
  | cons i is ih =>
    unfold State.writeStats
    split
    · exact h
    · next g _ =>
      extract_lets q w gone
      have hw := (h.engWrite (q := q) (va := (g.stat + 4 * i) % 2 ^ 64) (bs := bytesOf 4 w)).work h (page := g.page)
        (cluster := s.clusterFor (some g.part)) (kind := 5) (id := id) (q := q)
      have hg : ∀ {t : State}, t.Canon → (gone t).Canon := fun ht => ht.updGraph
      split
      · exact hw.of_busy ‹_›
      · exact (hw.of_page ‹_›).updGraph
      · exact ih (hg (hw.of_ok ‹_›))
      · exact ih (State.Canon.updGraph (hg h))

theorem State.Canon.startNodes {id e a3} (h : s.Canon) : (s.startNodes id e a3).Canon := by
  induction a3 generalizing s with
  | nil => exact h
  | cons i is ih =>
    unfold State.startNodes
    split
    · exact h
    · next g _ =>
      split
      · exact h
      · next n _ =>
        split
        · exact h
        · extract_lets q put
          have hput : ∀ m {t : State}, t.Canon → (put m t).Canon := fun _ _ ht => ih ht.updGraph.writeStats
          have hw := EngRes.Canon.work (page := g.page) (cluster := s.clusterFor (some g.part)) (kind := 5)
              (id := id) (q := q)
            (h.checkLaunch (q := q) (page := g.page) (p := g.part) (fn := g.fn) (qn := g.q) (prio := g.prio)
                (proc := g.proc)
              (parent := 0) (a := n.ask)) h
          split
          · exact hw.of_busy ‹_›
          · exact (hw.of_page ‹_›).updGraph
          · exact hput _ h
          · exact hput _ (hw.of_ok ‹_›)
          · exact hput _ (hw.of_ok ‹_›).accept

theorem State.Canon.graphRound {e g} (h : s.Canon) : (s.graphRound e g).Canon := by
  unfold State.graphRound
  split
  · exact h
  · dsimp only
    split
    · exact h.updGraph.writeStats.startNodes
    · exact h.updGraph.writeStats.startNodes.ite (h.updGraph.writeStats.startNodes.of_mem (by rfl)).pktDone

theorem State.Canon.graphStep {e g} (h : s.Canon) : (s.graphStep e g).Canon := by
  unfold State.graphStep
  split
  · exact h
  · dsimp only
    split
    · exact h.writeStats
    · exact h.writeStats.graphRound

theorem State.Canon.owe {x cl asid root status code next} (h : s.Canon) :
    (s.owe x cl asid root status code next).Canon :=
  (h.of_mem (by rfl)).updQueue

theorem State.Canon.copyPieces {q src dst len a4 a5} (h : s.Canon) :
    (s.copyPieces q src dst len a4 a5).2.1.Canon := by
  induction a4 generalizing a5 s with
  | zero => exact h
  | succ fuel ih =>
    unfold State.copyPieces
    split
    · exact h
    · extract_lets n
      have hc := (h.engRead (q := q) (va := src + a5) (n := n)).andThen (f := fun bs s => s.engWrite q (dst + a5) bs)
        fun _ _ ht => ht.engWrite
      split
      · exact ih (hc.of_ok ‹_›)
      · exact hc.of_busy ‹_›
      · exact h

theorem State.Canon.stepPacket {e x d bs} (h : s.Canon) : (s.stepPacket e x d bs).Canon := by
  unfold State.stepPacket
  extract_lets p cl id upd waitPage n par unpost n₂ k opd start
  have hu : ∀ g {t : State}, t.Canon → (upd g t).Canon := fun _ _ ht => ht.updQueue
  have hw : ∀ {t : State}, t.Canon → (waitPage t).Canon := fun ht => hu _ ht
  have hp : ∀ {t : State}, t.Canon → (unpost t).Canon := fun ht => ht.of_mem rfl
  split
  next asid root _ =>
  extract_lets q data refuse₁ refuse₂ o
  have hd : ∀ {α : Type} {r : EngRes α}, r.Canon → (data r).Canon := by
    intro α r hr
    have hk := hr.work h (page := x.page) (cluster := cl) (kind := 1) (id := id) (q := q)
    unfold data
    split
    · exact (hk.of_ok ‹_›).owe
    · exact hk.of_busy ‹_›
    · exact hw (hk.of_page ‹_›)
    · exact h.owe
  have hr₁ : ∀ r c {t : State}, t.Canon → (refuse₁ r c t).Canon := by
    intro r c t ht
    unfold refuse₁
    extract_lets u k f
    have hx : u.Canon := by
      unfold u
      split
      · exact ht.of_mem rfl
      · exact ht
    exact hu _ (hp (hx.of_mem (by rfl)))
  have hr₂ : ∀ c f {t : State}, t.Canon → (refuse₂ c f t).Canon := fun _ _ _ ht => hu _ (ht.of_mem (by rfl))
  clear_value upd waitPage unpost data refuse₁ refuse₂
  split
  · have hc := (h.checkLaunch (q := q) (page := x.page) (p := p) (fn := x.fn) (qn := x.q) (prio := d.prio)
        (proc := d.proc)
      (parent := par) (a := launchAsk bs)).work h (page := x.page) (cluster := cl) (kind := 1) (id := id) (q := q)
    split
    · exact hc.of_busy ‹_›
    · exact hw (hc.of_page ‹_›)
    · exact hr₁ _ _ h
    · exact hr₁ _ _ (hc.of_ok ‹_›)
    · next l t e =>
      have ht : t.Canon := hc.of_ok e
      extract_lets k'
      split
      next lid u e' =>
      have hx : u.Canon := (State.Canon.accept (ht.of_mem (by rfl))).of_snd e'
      exact hu _ (hp (hx.of_mem (by rfl)))
  · have hc := (h.engRead (q := q) (va := recNum bs 8 8) (n := 64 * n₂)).work h (page := x.page) (cluster := cl)
        (kind := 1)
      (id := id) (q := q)
    split
    · exact hc.of_busy ‹_›
    · exact hw (hc.of_page ‹_›)
    · split
      · exact hr₂ _ _ h
      · next tb t e =>
        have ht : t.Canon := hc.of_ok e
        dsimp only
        split
        · exact hr₂ _ _ ht
        · exact hu _ (ht.of_mem (by rfl))
      · exact h
  · have hc : (State.copyPieces q (recNum bs 8 8) (recNum bs 16 8) (recNum bs 24 8) 64 x.pos s).2.1.Canon :=
        h.copyPieces
    split
    next pos t e e' =>
    rw [e'] at hc
    split
    · exact State.Canon.ite (State.Canon.owe hc) (hu _ hc)
    · exact hu _ hc
    · exact State.Canon.ite (hu _ (State.Canon.engPageFault hc)) (State.Canon.owe hc)
  · exact hd h.engWrite
  · exact hd h.engAtom
  · have hc := (h.engNum (q := q) (va := recNum bs 8 8) (n := 8)).work h (page := x.page) (cluster := cl) (kind := 1)
      (id := id) (q := q)
    split
    · exact hu _ (hc.of_busy ‹_›)
    · exact hu _ (hc.of_page ‹_›)
    · exact h.owe
    · next v t e =>
      have ht : t.Canon := hc.of_ok e
      exact ht.owe.ite (hu _ ht)
  · exact hd h.engWrite
  · exact h.owe

theorem State.Canon.serveLane {e grp x} (h : s.Canon) : (s.serveLane e grp x).Canon := by
  unfold State.serveLane
  split
  · exact h
  · split
    · exact h.ite (h.ite h.stepPacket)
    · exact h

theorem State.Canon.settleQueue {f q} (h : s.Canon) : (s.settleQueue f q).Canon := by
  unfold State.settleQueue
  split
  · next x d₀ _ _ =>
    extract_lets d st d₁ passed
    have hp : ∀ {t : State}, t.Canon → (passed t).Canon := fun ht => ht.updQueue
    clear_value passed d₁
    split
    · split
      · exact h.putDesc.of_busy ‹_›
      · exact hp (h.putDesc.of_kept ‹_›)
      · next t e =>
        have ht : (passed t).Canon := hp (h.putDesc.of_done e)
        split
        · exact ht
        · split
          · exact (ht.queueError.of_busy ‹_›).updQueue
          · exact ht.queueError.state
    · exact State.Canon.ite h.queueError.state h
  · exact h.desc.of_busy ‹_›
  · exact h

theorem State.Canon.grantLane {p lane gs u} (h : s.Canon) (e : s.grantLane p lane gs = some u) : u.Canon := by
  obtain ⟨w, -, rfl⟩ := Option.map_eq_some_iff.1 e
  extract_lets x d t
  have ht : t.Canon := h.setDist
  split
  · split
    · exact (ht.putDesc.of_done ‹_›).updQueue
    · exact ht.putDesc.of_kept ‹_›
    · split
      · exact h.putDesc.of_busy ‹_›
      · exact h
  · exact h

theorem State.Canon.fillLane {p lane} (h : s.Canon) : (s.fillLane p lane).Canon := by
  unfold State.fillLane
  split
  · exact h
  · extract_lets t d
    have ht : t.Canon := h.currentFn
    split
    · exact ht
    · split
      · exact ht.grantLane ‹_›
      · have hr : Sync.Canon (fun x => x.2.Canon) (t.roundOf (96 + lane / 32) d.fn) := ht.roundOf
        split
        · next gs u e => 
          have hu : u.Canon := hr.of_ok e
          exact ht.getD fun x k => hu.grantLane k
        · next u e => exact hr.of_busy e
        · exact ht

theorem State.Canon.leaveLane {f q again} (h : s.Canon) : (s.leaveLane f q again).Canon := h.updQueue

theorem State.Canon.openLane {e x} (h : s.Canon) : (s.openLane e x).Canon := by
  unfold State.openLane
  split
  · exact h.leaveLane
  · exact h.desc.of_busy ‹_›
  · exact h.queueUnread.state
  · next d₀ _ =>
    extract_lets d p dist slot
    clear_value d p dist slot
    split
    · exact h
    · split
      · exact h.updQueue.leaveLane
      · split
        · exact h.queueError.state
        · split
          · exact h
          · split
            · exact h.leaveLane
            · split
              · split
                · exact h.putDesc.of_busy ‹_›
                · exact h.putDesc.state.leaveLane
              · split
                · exact h
                · split
                  dsimp only
                  split
                  · exact (h.engRead.work h).of_busy ‹_›
                  · exact ((h.engRead.work h).of_page ‹_›).updQueue
                  · exact h.queueError.state
                  · split
                    · exact ((h.engRead.work h).of_ok ‹_›).queueError.state
                    · exact ((h.engRead.work h).of_ok ‹_›).updQueue

theorem State.Canon.recheck {x} (h : s.Canon) : (s.recheck x).Canon := by
  unfold State.recheck
  split
  · exact h.lookAt
  · split
    · exact h
    · split
      · exact h.lookAt.ite h
      · exact h

theorem State.Canon.settleAll (h : s.Canon) : s.settleAll.Canon := h.runFins.foldl fun _ _ ht => ht.settleQueue

theorem State.Canon.recheckAll (h : s.Canon) : s.recheckAll.Canon := h.foldl fun _ _ ht => ht.recheck

theorem State.Canon.fillLanes {e} (h : s.Canon) : (s.fillLanes e).Canon :=
  h.foldl fun _ _ ht => ht.foldl fun _ _ hu => hu.fillLane

theorem State.Canon.openLanes {e} (h : s.Canon) : (s.openLanes e).Canon := h.foldl fun _ _ ht => ht.openLane

theorem State.Canon.serveGroups {e} (h : s.Canon) : (s.serveGroups e).Canon := by
  unfold State.serveGroups
  extract_lets qs
  refine h.foldl fun t grp ht => ?_
  extract_lets running u laneless
  have hr : ∀ want {w : State}, w.Canon → (running w want).Canon := fun _ _ hw =>
    State.Canon.ite (hw.foldl fun _ _ hx => hx.graphStep) hw
  have hu : u.Canon := ht.foldl fun _ _ hw => State.Canon.serveLane (hr _ hw)
  exact hr _ hu

theorem State.Canon.execEngineRound {e} (h : s.Canon) : NextCanon (Machine.execEngineRound e s) := by
  unfold Machine.execEngineRound
  split
  · exact h
  · exact h.settleAll.recheckAll.fillLanes.openLanes.serveGroups.settleAll

theorem State.Canon.execWaitTimeout {f q} (h : s.Canon) : NextCanon (Machine.execWaitTimeout f q s) := by
  unfold Machine.execWaitTimeout
  split
  · split
    · dsimp only
      split
      · exact h.owe.runFins.settleQueue
      · exact h
    · exact h
  · exact h

theorem State.Canon.preempt {n slot cause} (h : s.Canon) : (s.preempt n slot cause).Canon := h.of_mem rfl

theorem State.Canon.execSliceExpiry {p} (h : s.Canon) : NextCanon (Machine.execSliceExpiry p s) := by
  unfold Machine.execSliceExpiry
  extract_lets d drain t late owed
  have ht : t.Canon := h.setDist
  clear_value t
  split
  · split
    · exact h
    · split
      · exact h
      · split
        · exact h.setDist
        · exact ht.ite (ht.foldl fun _ _ hu => hu.preempt)
  · split
    · exact h
    · split
      · exact h.setDist
      · exact h.setDist

theorem State.Canon.execLaneRotation {lane} (h : s.Canon) : NextCanon (Machine.execLaneRotation lane s) := by
  unfold Machine.execLaneRotation
  split
  · exact h
  · dsimp only
    split
    · exact h.leaveLane
    · exact h

theorem State.Canon.execEngineFaultResume {k} (h : s.Canon) : NextCanon (Machine.execEngineFaultResume k s) := by
  unfold Machine.execEngineFaultResume
  split
  · exact h
  · dsimp only
    split
    · split
      · exact (h.of_mem (by rfl)).updXfer.ite (h.of_mem (by rfl)).xferFail
      · exact h.of_mem rfl
    · exact (h.of_mem (by rfl)).updQueue
    · exact h.of_mem rfl
    · exact h.of_mem rfl
    · exact (h.of_mem (by rfl)).updGraph
    · exact h.of_mem rfl

theorem State.Canon.readPacket {g va} (h : v.s.Canon) : Sync.Canon (fun x => x.2.Canon) (v.readPacket g va) := by
  unfold View.readPacket
  split
  · exact h.close
  · have ht : Sync.Canon (fun x => x.2.Canon) ((v.close.updCore v.ag (fun c => c.dropCopies
        (fun l _ => l == g.pa / 64))).tileLine
        v.ag v.slot (!v.pk.lazyMode) [(va, 64)] va g.pa) := h.close.updCore.tileLine
    split
    · exact (ht.of_ok ‹_›).bindFrame
    · exact ht

theorem State.Canon.deviceQueue {a1} (h : v.s.Canon) : (v.deviceQueue a1).Canon := by
  unfold View.deviceQueue
  dsimp only
  split
  · trivial
  · split
    · split <;> trivial
    · exact h.desc.of_busy ‹_›
    · trivial

theorem State.Canon.postPacket {ag f q d bs parent} (h : s.Canon) :
    Sync.Canon (fun x => x.Canon) (s.postPacket ag f q d bs parent) := by
  unfold State.postPacket
  split
  · dsimp only
    split
    · exact h.engWrite.of_busy ‹_›
    · trivial
    · split
      · trivial
      · split
        · exact ((h.engWrite.of_ok ‹_›).writeAt).of_busy ‹_›
        · trivial
        · refine State.Canon.lookAt ?_
          split <;> exact (((h.engWrite.of_ok ‹_›).writeAt).of_ok ‹_›).of_mem (by rfl)

theorem State.Canon.execQpost {c d a b} (h : s.Canon) : NextCanon (Machine.execQpost c d a b s) :=
  State.Canon.issue (fun v m hv => by
  extract_lets va x
  have hx : x.v.s.Canon := State.Canon.translate hv
  split
  · trivial
  · split
    · exact hx
    · split
      · trivial
      · trivial
      · next g gs _ _ =>
        split
        · trivial
        · have hr : Rel.Canon (x.v.release .device true) := hx.release
          split
          · trivial
          · exact hr.of_hold ‹_›
          · next w e =>
            have hw : w.s.Canon := hr.of_go e
            have hp : Sync.Canon (fun x => x.2.Canon) (w.readPacket g va) := hw.readPacket
            split
            · exact hw.reopen (hp.of_busy ‹_›)
            · trivial
            · next bs t e =>
              extract_lets y
              have hy : y.s.Canon := hw.reopen (hp.of_ok e)
              split
              · exact hy.landS
              · exact hy.reopen (hy.deviceQueue.of_busy ‹_›)
              · next f q qd _ =>
                split
                · exact hy.landS
                · split
                  · exact hy.landS
                  · have hz : Sync.Canon State.Canon (y.close.postPacket y.ag f q qd bs y.pk.launch) :=
                        hy.close.postPacket
                    split
                    · exact hy.reopen (hz.of_busy ‹_›)
                    · exact hy.landS
                    · exact (hy.reopen (hz.of_ok ‹_›)).landS) h

end Sys2Proof.Machine
end

section
/-! Memory's canonical form across trust groups, frames and collectives. -/

namespace Sys2Proof.Machine

variable {s : State} {v : View}

theorem State.Canon.updGroup {g f} (h : s.Canon) : (s.updGroup g f).Canon := by
  unfold State.updGroup
  split
  · exact h.of_mem rfl
  · exact h

theorem State.Canon.pushFrame {g dst chan kind coll off bs} (h : s.Canon) :
    (s.pushFrame g dst chan kind coll off bs).Canon := by
  unfold State.pushFrame
  split
  · exact h
  · exact h.ite (h.updGroup.of_mem (by rfl))

theorem State.Canon.putFrame {g dst chan seq view kind coll off} (h : s.Canon) :
    (s.putFrame g dst chan seq view kind coll off).Canon :=
  (h.of_mem (by rfl)).ite h

theorem State.Canon.askReports {g x} (h : s.Canon) : (s.askReports g x).Canon := by
  unfold State.askReports
  extract_lets todo t
  have ht : t.Canon := h.updGroup
  exact ht.foldl fun _ _ hu => hu.pushFrame.ite hu.putFrame

theorem State.Canon.sendKeys {g x} (h : s.Canon) : (s.sendKeys g x).Canon := by
  unfold State.sendKeys
  extract_lets others k t
  have ht : t.Canon := State.Canon.updGroup (h.of_mem (by rfl))
  exact h.ite (ht.foldl fun _ _ hu => hu.pushFrame.ite hu.putFrame)

theorem State.Canon.changeView {g} (h : s.Canon) : (s.changeView g).Canon := by
  unfold State.changeView
  split
  · exact h
  · split
    · exact h
    · dsimp only
      split
      · exact h.askReports.sendKeys
      · exact h.askReports

theorem State.Canon.addChange {g f} (h : s.Canon) : (s.addChange g f).Canon := h.updGroup.changeView

theorem State.Canon.wearOut {g} (h : s.Canon) : (s.wearOut g).Canon := by
  unfold State.wearOut
  split
  · exact h
  · split
    · exact h
    · exact h.addChange.ite h.pushFrame

theorem State.Canon.sendFrame {g dst chan kind coll off bs} (h : s.Canon) :
    (s.sendFrame g dst chan kind coll off bs).Canon :=
  h.pushFrame.wearOut.ite h.pushFrame

theorem State.Canon.askLeave {g peer} (h : s.Canon) : (s.askLeave g peer).Canon := by
  unfold State.askLeave
  split
  · exact h
  · split
    · exact h
    · dsimp only
      split
      · exact h
      · exact h.sendFrame.ite (h.changeView.ite h.addChange)

theorem State.Canon.letIn {g peer} (h : s.Canon) : (s.letIn g peer).Canon := by
  unfold State.letIn
  split
  · exact h.changeView.ite h.addChange
  · exact h

theorem State.Canon.postView {g x left} (h : s.Canon) : (s.postView g x left).Canon := h.postPart

theorem State.Canon.updColl {id f} (h : s.Canon) : (s.updColl id f).Canon := h.of_mem rfl

theorem State.Canon.endColl {c status code} (h : s.Canon) : (s.endColl c status code).Canon :=
  (h.of_mem (by rfl)).runFins

theorem State.Canon.abortColl {c} (h : s.Canon) : (s.abortColl c).Canon := h.endColl

theorem State.Canon.abortSlot {g view} (h : s.Canon) : (s.abortSlot g view).Canon :=
  h.foldl fun _ _ ht => ht.abortColl

theorem State.Canon.failColl {c code} (h : s.Canon) : (s.failColl c code).Canon :=
  State.Canon.endColl (h.foldl fun _ _ ht => ht.sendFrame)

theorem State.Canon.sendBytes {g dst coll a4 a5 a6} (h : s.Canon) : (s.sendBytes g dst coll a4 a5 a6).Canon := by
  induction a4 generalizing a5 a6 s with
  | zero => exact h
  | succ fuel ih =>
    unfold State.sendBytes
    exact h.ite (ih h.sendFrame)

theorem State.Canon.startColl {c} (h : s.Canon) : (s.startColl c).Canon := by
  unfold State.startColl
  split
  · exact h.abortColl
  · next x _ =>
    extract_lets n r cl
    split
    · exact h
    · split
      · exact h.endColl
      · split
        · exact h.abortColl
        · have hw := (h.engRead (q := c.eng) (va := c.src) (n := c.srcBytes n r)).work h (page := c.page)
              (cluster := cl)
            (kind := 2) (id := c.id) (q := c.eng)
          split
          · exact hw.of_busy ‹_›
          · exact (hw.of_page ‹_›).updColl
          · exact h.failColl
          · next bs t e =>
            extract_lets mine got told u w
            have hu : u.Canon := (hw.of_ok e).updColl
            have hx : w.Canon := hu.foldl fun _ _ hy => hy.sendFrame.sendBytes
            exact hx.failColl.ite hx

theorem State.Canon.execCollectiveComplete {k} (h : s.Canon) : NextCanon (Machine.execCollectiveComplete k s) := by
  unfold Machine.execCollectiveComplete
  split
  · exact h.runFins
  · split
    · exact h.endColl
    · exact h.abortColl
    · split
      · exact h.endColl
      · split
        · exact h.abortColl
        · split
          · exact h.startColl
          · dsimp only
            split
            · exact h
            · split
              · exact (h.engWrite.work h).of_busy ‹_›
              · exact ((h.engWrite.work h).of_page ‹_›).updColl
              · exact h.failColl
              · exact ((h.engWrite.work h).of_ok ‹_›).endColl

theorem State.Canon.takeColl {f asid root bs} (h : s.Canon) : (s.takeColl f asid root bs).Canon := by
  unfold State.takeColl
  dsimp only
  split
  · exact (h.updGroup.of_mem (by rfl)).endColl
  · exact (h.updGroup.of_mem (by rfl)).startColl

theorem State.Canon.execCollectiveRingPoll {f} (h : s.Canon) : NextCanon (Machine.execCollectiveRingPoll f s) := by
  unfold Machine.execCollectiveRingPoll
  split
  · exact h
  · refine .ite h ?_
    extract_lets pa part wr
    clear_value pa wr
    refine .ite h.drainWord (.ite h ?_)
    have hr : Sync.Canon (fun x => x.2.Canon) (s.readAt part ⟨collAgent, true⟩ pa 64) := h.readAt
    split
    · exact hr.of_busy ‹_›
    · exact h
    · next rg t e =>
      have ht : t.Canon := hr.of_ok e
      extract_lets n rd
      refine .ite ht ?_
      split
      extract_lets q
      split
      · exact ht.engRead.of_busy ‹_›
      · exact ht.engPageFault.ite ht
      · next bs u e =>
        have hu : u.Canon := ht.engRead.of_ok e
        generalize bytesOf 4 ((rd + 1) % 2 ^ 32) = next
        have hw : Sync.Canon State.Canon (u.writeAt part ⟨collAgent, true⟩ (pa + 12) next) := hu.writeAt
        split
        · exact (hw.of_ok ‹_›).takeColl
        · exact hw.of_busy ‹_›
        · exact ht

theorem State.Canon.execCnotify {f} (h : s.Canon) : NextCanon (Machine.execCnotify f s) := by
  unfold Machine.execCnotify
  split
  · exact h.execCollectiveRingPoll
  · exact h.of_mem rfl

theorem State.Canon.dropFrame {g} (h : s.Canon) : (s.dropFrame g).Canon := h.count16

theorem State.Canon.inOrder {g src chan seq view} (h : s.Canon) : (s.inOrder g src chan seq view).2.Canon := by
  unfold State.inOrder
  split
  · exact h
  · dsimp only
    split
    · exact h.updGroup.putFrame
    · split <;> exact h.putFrame

theorem State.Canon.execBrevorData {g src chan view seq coll off bs ok} (h : s.Canon) :
    NextCanon (Machine.execBrevorData g src chan view seq coll off bs ok s) := by
  unfold Machine.execBrevorData
  split
  · exact h
  · split
    · exact h
    · split
      · exact h.dropFrame
      · split
        · exact h.inOrder.of_snd ‹_›
        · split
          · exact (h.inOrder.of_snd ‹_›).updColl
          · exact (h.inOrder.of_snd ‹_›).of_mem (by rfl)

theorem State.Canon.execBrevorAck {g src chan seq} (h : s.Canon) :
    NextCanon (Machine.execBrevorAck g src chan seq s) := by
  unfold Machine.execBrevorAck
  split
  · exact h
  · exact h.of_mem rfl

theorem State.Canon.resend {g dst chan seq} (h : s.Canon) : (s.resend g dst chan seq).Canon := h.of_mem rfl

theorem State.Canon.loseWorn {g dst chan} (h : s.Canon) : (s.loseWorn g dst chan).Canon :=
  (h.of_mem (by rfl)).askLeave.ite h.resend

theorem State.Canon.execBrevorNak {g src chan seq} (h : s.Canon) :
    NextCanon (Machine.execBrevorNak g src chan seq s) := by
  unfold Machine.execBrevorNak
  split
  · exact h
  · exact (h.of_mem (by rfl)).loseWorn

theorem State.Canon.execRetransmitTimeout {g dst chan} (h : s.Canon) :
    NextCanon (Machine.execRetransmitTimeout g dst chan s) := by
  unfold Machine.execRetransmitTimeout
  split
  · exact h
  · split
    · exact h
    · exact h.loseWorn

theorem State.Canon.sponsor {g src gid} (h : s.Canon) : (s.sponsor g src gid).Canon := by
  unfold State.sponsor
  split
  · exact h.putFrame.ite h
  · split
    · exact h
    · split
      · exact h.putFrame
      · split
        · exact h
        · exact h.letIn.ite h.sendFrame

theorem State.Canon.takeReport {g src num} (h : s.Canon) : (s.takeReport g src num).Canon := by
  unfold State.takeReport
  split
  · exact h
  · exact h.updGroup.changeView.ite (h.askLeave.ite h.addChange)

theorem State.Canon.giveReport {g src x} (h : s.Canon) : (s.giveReport g src x).Canon :=
  (h.of_mem (by rfl)).pushFrame.ite (h.of_mem (by rfl)).putFrame

theorem State.Canon.beforeView {g src kind arg x u} (h : s.Canon) (e : s.beforeView g src kind arg x = some u) :
    u.Canon := by
  revert e
  unfold State.beforeView
  split
  · rintro ⟨⟩
    exact h.giveReport
  · split
    · rintro ⟨⟩
      exact h.updGroup
    · split
      · rintro ⟨⟩
        exact h.takeReport
      · nofun

theorem State.Canon.execBrevorControl {g src chan view seq kind arg ok} (h : s.Canon) :
    NextCanon (Machine.execBrevorControl g src chan view seq kind arg ok s) := by
  unfold Machine.execBrevorControl
  refine .ite h.sponsor ?_
  split
  · exact h
  · refine .ite ((h.of_mem (by rfl)).ite h) (.ite h ?_)
    split
    · exact h.beforeView ‹_›
    · refine .ite h.dropFrame ?_
      have hi : (s.inOrder g src chan seq view).2.Canon := h.inOrder
      split
      · exact hi.of_snd ‹_›
      · next t e =>
        have ht : t.Canon := hi.of_snd e
        refine .ite ht.askLeave (.ite ht.letIn (.ite ht.giveReport (.ite ht.takeReport
            (.ite ht.updGroup (.ite ht.addChange ?_)))))
        refine .ite (State.Canon.ite (ht.foldl fun _ _ hx => hx.abortColl) (ht.of_mem (by rfl))) (.ite ?_ ht)
        split
        · exact ht.updColl.ite ht.failColl
        · exact ht.of_mem rfl

theorem State.Canon.execTgJoin {g v} (h : s.Canon) : NextCanon (Machine.execTgJoin g v s) := by
  unfold Machine.execTgJoin
  extract_lets peer gid x free
  split
  · exact h
  · split
    · exact h.of_mem rfl
    · exact State.Canon.putFrame (h.of_mem (by rfl))

theorem State.Canon.leaveSlot {g x} (h : s.Canon) : (s.leaveSlot g x).Canon := (h.of_mem (by rfl)).postView

theorem State.Canon.execTgLeave {g v} (h : s.Canon) : NextCanon (Machine.execTgLeave g v s) := by
  unfold Machine.execTgLeave
  split
  · exact h
  · dsimp only
    split
    · exact h
    · split
      · exact h.abortSlot.leaveSlot
      · exact h.askLeave

theorem State.Canon.execViewInstall {g view members} (h : s.Canon) :
    NextCanon (Machine.execViewInstall g view members s) := by
  unfold Machine.execViewInstall
  split
  · exact h
  · extract_lets x y t
    have ht : t.Canon := State.Canon.abortSlot (h.of_mem (by rfl))
    clear_value t
    split
    · exact h
    · split
      · exact ht.leaveSlot
      · exact State.Canon.postView (ht.of_mem (by rfl))

theorem State.Canon.brevorIn {part bs} (h : s.Canon) : NextCanon (s.brevorIn part bs) := by
  unfold State.brevorIn
  extract_lets hd f src n slot g x key ct nonce pt ok current say kind
  refine .ite h ?_
  split
  · exact .ite h.execBrevorData h
  · exact .ite h.execBrevorAck h
  · exact .ite h.execBrevorNak h
  · exact .ite h.execBrevorControl (.ite h.execBrevorControl h)
  · exact h

theorem State.Canon.execEthernetFrameReceive {port kind sock bs} (h : s.Canon) :
    NextCanon (Machine.execEthernetFrameReceive port kind sock bs s) := by
  unfold Machine.execEthernetFrameReceive
  dsimp only
  split
  · exact h
  · split
    · split
      · exact h.flashPut
      · exact h
    · split
      · split
        · split
          · exact h.brevorIn
          · exact h
        · exact h
      · split
        · exact h
        · exact h.of_mem rfl

end Sys2Proof.Machine
end

section
/-! Memory's canonical form across the instructions of the service cores. -/

namespace Sys2Proof.Machine

variable {s : State} {v : View}

theorem State.Canon.reachWrite {va n x} (h : v.s.Canon) : (v.reachWrite va n x).Canon := by
  unfold View.reachWrite
  split
  · exact h
  · exact h.updCore
  · exact h.updCore
  · exact h.mgmtWrite

theorem Res.Canon.vaFault {va x kind} : (v.vaFault va x kind).Canon := trivial

theorem Res.Canon.protFault {va reason kind} : (v.protFault va reason kind).Canon := Res.Canon.vaFault

theorem State.Canon.execSld {c ty nc d base off} (h : s.Canon) :
    NextCanon (Machine.execSld c ty nc d base off s) := by
  unfold Machine.execSld
  refine State.Canon.issue (fun _ _ hv => ?_) h
  split
  · exact hv.loadS
  · split
    · exact Res.Canon.vaFault
    · exact hv.landS

theorem State.Canon.execSst {c ty base off b} (h : s.Canon) : NextCanon (Machine.execSst c ty base off b s) := by
  unfold Machine.execSst
  refine State.Canon.issue (fun _ _ hv => ?_) h
  split
  · exact hv.storeS
  · split
    · exact Res.Canon.vaFault
    · exact (hv.reachWrite.of_mem (by rfl)).tokenFor

theorem State.Canon.execSldq {c ty ysc rmask d base off} (h : s.Canon) :
    NextCanon (Machine.execSldq c ty ysc rmask d base off s) := by
  unfold Machine.execSldq
  refine State.Canon.issue (fun _ _ hv => ?_) h
  split
  · exact hv.loadS
  · exact Res.Canon.protFault

theorem State.Canon.execSstl {c ty sc base off b} (h : s.Canon) :
    NextCanon (Machine.execSstl c ty sc base off b s) := by
  unfold Machine.execSstl
  refine State.Canon.issue (fun _ _ hv => ?_) h
  split
  · exact hv.storeS
  · exact Res.Canon.protFault

theorem State.Canon.execSatom {c op aq rl ty sc d base off b cmp} (h : s.Canon) :
    NextCanon (Machine.execSatom c op aq rl ty sc d base off b cmp s) := by
  unfold Machine.execSatom
  refine State.Canon.issue (fun _ _ hv => ?_) h
  split
  · exact hv.atomic
  · exact Res.Canon.protFault

theorem State.Canon.execSres {c mark n m} (h : s.Canon) : NextCanon (Machine.execSres c mark n m s) := by
  unfold Machine.execSres
  refine State.Canon.issue (fun _ _ hv => ?_) h
  dsimp only
  split
  · trivial
  · split
    · exact Res.Canon.vaFault
    · split
      · exact (hv.of_mem (by rfl)).tokenFor
      · split
        · trivial
        · exact hv.release.of_hold ‹_›
        · exact ((hv.release.of_go ‹_›).of_mem (by rfl)).tokenFor

theorem State.Canon.execPstop {c d a2} (h : s.Canon) : NextCanon (Machine.execPstop c d a2 s) := by
  unfold Machine.execPstop
  refine State.Canon.issue (fun _ _ hv => ?_) h
  split
  · exact hv.landS
  · split
    · exact hv.landS
    · split
      · trivial
      · split
        · trivial
        · exact hv.of_mem rfl

theorem State.Canon.execPstopGo {c d a2} (h : s.Canon) : NextCanon (Machine.execPstopGo c d a2 s) := by
  unfold Machine.execPstopGo
  refine State.Canon.issue (fun _ _ hv => ?_) h
  split
  · exact hv.landS
  · split
    · exact (hv.of_mem (by rfl)).landS
    · exact hv.landS

theorem State.Canon.killPack {n slot p code} (h : s.Canon) : (s.killPack n slot p code).Canon := h.updCore.launchError

theorem State.Canon.execPstopEnd {c d a2 code} (h : s.Canon) : NextCanon (Machine.execPstopEnd c d a2 code s) := by
  unfold Machine.execPstopEnd
  refine State.Canon.issue (fun _ _ hv => ?_) h
  split
  · split
    · split
      · split
        · trivial
        · exact hv.landS
      · exact hv.landS
    · exact hv.landS
  · split
    · exact hv.landS
    · split
      · exact hv.landS
      · exact hv.killPack.of_mem rfl

theorem State.Canon.unseat {n p slots area} (h : s.Canon) : (s.unseat n p slots area).Canon := by
  unfold State.unseat
  extract_lets t u x
  have ht : t.Canon := h.foldl fun _ _ hx => hx.detach
  have hu : u.Canon := ht.updCore
  exact hu.of_mem rfl

theorem State.Canon.saveWg {q n p area} (h : s.Canon) : (s.saveWg q n p area).Canon := by
  unfold State.saveWg
  dsimp only
  split
  · trivial
  · exact h.engWrite.andThen fun _ _ hs => hs.updCore.unseat

theorem State.Canon.execPctxsv {c d a2 va} (h : s.Canon) : NextCanon (Machine.execPctxsv c d a2 va s) := by
  unfold Machine.execPctxsv
  refine State.Canon.issue (fun _ _ hv => ?_) h
  split
  · exact hv.landS
  · dsimp only
    split
    · exact Res.Canon.protFault
    · split
      · exact hv.landS
      · split
        · trivial
        · split
          · exact hv.reopen (hv.close.saveWg.of_busy ‹_›)
          · trivial
          · exact (hv.reopen (hv.close.saveWg.of_ok ‹_›)).landS

theorem State.Canon.readArea {q va w} (h : s.Canon) : (s.readArea q va w).Canon := by
  unfold State.readArea
  refine h.engRead.andThen fun _ _ hs => ?_
  split
  · exact hs
  · exact hs.engRead.andThen fun _ _ hs => hs

theorem State.Canon.readAreas {q a1 a2 a3} (h : s.Canon) : (s.readAreas q a1 a2 a3).Canon := by
  induction a1 generalizing a2 a3 s with
  | zero => exact h
  | succ k ih =>
    refine h.readArea.andThen fun x t ht => ?_
    split
    · exact ht
    · exact ih ht

theorem State.Canon.readImage {q va} (h : s.Canon) : (s.readImage q va).Canon := by
  unfold State.readImage
  refine h.engRead.andThen fun _ _ hs => ?_
  dsimp only
  split
  · exact hs
  · exact hs.engRead.andThen fun _ _ hs => hs.readAreas

theorem State.Canon.loadWg {q n a} (h : s.Canon) : (s.loadWg q n a).Canon := by
  unfold State.loadWg
  refine h.readImage.andThen fun w t ht => ?_
  split
  · exact ht
  · extract_lets id wg
    split
    · split
      · exact ht
      · extract_lets packs u
        have hu : u.Canon := ht.settleIn
        exact hu.of_mem rfl
    · exact ht

theorem State.Canon.creditSaved {c x} (h : s.Canon) : (s.creditSaved c x).Canon := by
  unfold State.creditSaved
  refine h.readImage.andThen fun _ _ hs => ?_
  split
  · exact hs
  · dsimp only
    split
    · exact hs
    · exact hs.engWrite

theorem State.Canon.execCreditReturn {i} (h : s.Canon) : NextCanon (Machine.execCreditReturn i s) := by
  unfold Machine.execCreditReturn
  split
  · exact h
  · extract_lets t
    have ht : t.Canon := h.of_mem rfl
    split
    · split
      · exact ht
      · split
        · exact ht.creditSaved.of_ok ‹_›
        · exact (ht.creditSaved.of_busy ‹_›).of_mem (by rfl)
        · exact h
    · split
      · exact ht
      · split
        · exact ht
        · exact ht.updCore.wakeCredit

theorem State.Canon.execPctxld {c d a2 va} (h : s.Canon) : NextCanon (Machine.execPctxld c d a2 va s) := by
  unfold Machine.execPctxld
  refine State.Canon.issue (fun _ _ hv => ?_) h
  dsimp only
  split
  · exact hv.landS
  · split
    · exact Res.Canon.protFault
    · split
      · exact hv.reopen (hv.close.loadWg.of_busy ‹_›)
      · trivial
      · trivial
      · exact (hv.reopen (hv.close.loadWg.of_ok ‹_›)).landS

theorem State.Canon.dropTlb {cl hub mode asid va} (h : s.Canon) : (s.dropTlb cl hub mode asid va).Canon := by
  unfold State.dropTlb
  extract_lets hit kill redo cut t
  have ht : t.Canon := h.foldl fun _ _ hu => hu.updCore
  exact ht.of_mem rfl

theorem State.Canon.execTlbinv {c mode hub va asid} (h : s.Canon) :
    NextCanon (Machine.execTlbinv c mode hub va asid s) := by
  unfold Machine.execTlbinv
  refine State.Canon.issue (fun _ _ hv => ?_) h
  split
  · exact (hv.reopen hv.close.dropTlb).of_mem rfl
  · dsimp only
    split
    · trivial
    · exact hv.tokenFor

theorem State.Canon.bootAdvance (h : s.Canon) : s.bootAdvance.Canon := h.putReg.ite h

theorem State.Canon.bootAnswer {n toy} (h : s.Canon) : (s.bootAnswer n toy).Canon := h.putReg.bootAdvance.ite h

theorem State.Canon.execMbxsend {c d tgt p} (h : s.Canon) : NextCanon (Machine.execMbxsend c d tgt p s) :=
  State.Canon.issue (fun v m hv => by
  have hr : Rel.Canon (v.release .device true) := State.Canon.release hv
  split
  · trivial
  · exact hr.of_hold ‹_›
  · next w e =>
    have hw : w.s.Canon := hr.of_go e
    extract_lets t n s away m
    have hs : s.Canon := hw.close
    split
    · exact hw.landS
    · split
      · exact hw.landS
      · exact (hw.reopen hs.updCore.bootAnswer).landS) h

theorem State.Canon.execMbxrecv {c nb d} (h : s.Canon) : NextCanon (Machine.execMbxrecv c nb d s) :=
  State.Canon.issue (fun v m hv => by
  split
  · next xs _ _ =>
    extract_lets t w
    have hw : w.s.Canon := State.Canon.reopen hv (State.Canon.close hv).updCore
    exact State.Canon.tokenFor (State.Canon.foldlV hw fun _ _ hx => State.Canon.ws hx)
  · split
    · exact State.Canon.landS hv
    · split
      next w tok e =>
      have hw : w.s.Canon := (State.Canon.tokenV hv).of_fstV e
      extract_lets x co
      have hx : ({ x with co := co } : View).s.Canon := State.Canon.finish hw
      exact State.Canon.close hx) h

theorem State.Canon.execMbxrecvWake {n} (h : s.Canon) : NextCanon (Machine.execMbxrecvWake n s) := by
  unfold Machine.execMbxrecvWake
  dsimp only
  split
  · exact h.setCore.updCore
  · exact h

theorem State.Canon.execZap {c pa len} (h : s.Canon) : NextCanon (Machine.execZap c pa len s) :=
  State.Canon.issue (fun v m hv => by
  extract_lets a n ws accs
  split
  · exact Res.Canon.protFault
  · split
    · exact State.Canon.tokenFor hv
    · split
      · exact Res.Canon.protFault
      · exact State.Canon.begin hv fun _ _ ht => ht.foldl fun _ _ hx => hx.send) h

theorem State.Canon.execHalt {c} (h : s.Canon) : NextCanon (Machine.execHalt c s) := by
  unfold Machine.execHalt
  refine State.Canon.issue (fun _ _ hv => ?_) h
  split
  · exact hv.tokenFor
  · split
    · trivial
    · exact hv.tokenFor.finish.close.giveUp.updCore

theorem State.Canon.execHaltWake {n} (h : s.Canon) : NextCanon (Machine.execHaltWake n s) := by
  unfold Machine.execHaltWake
  dsimp only
  split
  · exact h.setCore
  · exact h

theorem State.Canon.execIret {c} (h : s.Canon) : NextCanon (Machine.execIret c s) := by
  unfold Machine.execIret
  refine State.Canon.issue (fun _ _ hv => ?_) h
  split
  · trivial
  · exact hv.eret

end Sys2Proof.Machine
end

section
/-! Memory's canonical form across the host's aperture, the functions and flash. -/

namespace Sys2Proof.Machine

variable {s : State} {v : View}

theorem State.Canon.hostAnswer {a1 f} (h : s.Canon) : (s.hostAnswer a1 f).Canon := h.updCore.settleOps

theorem State.Canon.execHostCompletion {ok} (h : s.Canon) : NextCanon (Machine.execHostCompletion ok s) := by
  unfold Machine.execHostCompletion
  split
  · exact h
  · dsimp only
    split
    · exact ((h.of_mem (by rfl)).setBytes.ite (h.of_mem (by rfl))).updCore
    · exact (h.of_mem (by rfl)).hostAnswer
    · exact ((h.of_mem (by rfl)).setBytes.ite (h.of_mem (by rfl))).hostAnswer

theorem State.Canon.countHae {f} (h : s.Canon) : (s.countHae f).Canon := h.ite h.setMreg

theorem State.Canon.answerHost {o} (h : s.Canon) : (s.answerHost o).Canon := h.of_mem rfl

theorem State.Canon.engCheck {q va n write} (h : s.Canon) : (s.engCheck q va n write).Canon :=
  List.foldlRecOn _ _ (b := .ok _ s) (motive := EngRes.Canon) h fun _ hr _ _ => hr.andThen fun _ _ ht =>
      ht.engXlate.andThen fun _ _ hu => hu

theorem State.Canon.aperWrite {w} (h : s.Canon) : (s.aperWrite w).Canon := by
  unfold State.aperWrite
  split
  · split
    · exact h.notify.of_busy ‹_›
    · exact h.notify.state
  · extract_lets q
    have hw := (h.engCheck (q := q) (va := w.off) (n := w.bs.length) (write := true)).andThen
      (f := fun _ s => s.engWrite q w.off w.bs) fun _ _ ht => ht.engWrite
    split
    · exact hw.of_ok ‹_›
    · exact hw.of_busy ‹_›
    · exact h.countHae

theorem State.Canon.drainAper (h : s.Canon) : s.drainAper.Canon := by
  refine List.foldlRecOn _ _ (b := (s, [])) (motive := fun r : State × List Nat => r.1.Canon) h fun r hr w _ => ?_
  split
  · exact hr
  · split
    · next t e => exact (hr.aperWrite.of_ok e).of_mem rfl
    · next t e => exact hr.aperWrite.of_busy e
    · exact hr

theorem State.Canon.execHostApertureRead {f off n} (h : s.Canon) :
    NextCanon (Machine.execHostApertureRead f off n s) := by
  unfold Machine.execHostApertureRead
  dsimp only
  split
  · exact h.drainAper.answerHost
  · split
    · exact h.drainAper
    · split
      · exact (h.drainAper.engRead.of_ok ‹_›).answerHost
      · exact h.drainAper.engRead.of_busy ‹_›
      · exact h.drainAper.countHae.answerHost

theorem State.Canon.execHostApertureWrite {f off bs} (h : s.Canon) :
    NextCanon (Machine.execHostApertureWrite f off bs s) := by
  unfold Machine.execHostApertureWrite
  split
  · exact h.answerHost
  · exact (h.of_mem (by rfl)).drainAper

theorem State.Canon.execHostApertureAtomic {f off ty op opd cmp} (h : s.Canon) :
    NextCanon (Machine.execHostApertureAtomic f off ty op opd cmp s) := by
  unfold Machine.execHostApertureAtomic
  extract_lets known t q l go
  have ht : t.Canon := h.drainAper
  have hg : go.Canon := ht.engCheck.andThen fun _ _ h₁ => h₁.engRead.andThen fun _ _ h₂ => h₂.engWrite.andThen
      fun _ _ h₃ => h₃
  clear_value go t
  split
  · exact ht.answerHost
  · split
    · exact ht
    · cases go with
      | ok bs u => exact State.Canon.answerHost hg
      | busy u => exact hg
      | fault _ _ => exact ht.countHae.answerHost

theorem State.Canon.descBusy {f u} (h : s.Canon) (e : s.descBusy f = some u) : u.Canon := by
  obtain ⟨q, -, k⟩ := List.exists_of_findSome?_eq_some e
  split at k
  · next t kt =>
    cases k
    exact h.desc.of_busy kt
  · cases k

theorem State.Canon.later {i} (h : s.Canon) : (s.later i).Canon := h.ite (h.of_mem (by rfl))

theorem State.Canon.execFnBindWrite {f v} (h : s.Canon) : NextCanon (Machine.execFnBindWrite f v s) := by
  unfold Machine.execFnBindWrite
  split
  · next t e =>
    split at e
    · exact (h.descBusy e).later
    · cases e
  · split
    · exact h
    · exact h.setMreg.setMreg

theorem State.Canon.clearValid {f r} (h : s.Canon) (e : s.clearValid f = r) : Cleared.Canon r := by
  subst e
  unfold State.clearValid
  generalize List.range 512 = l
  refine List.foldlRecOn _ _ (b := .ok s) (motive := Cleared.Canon) h fun r hr q _ => ?_
  cases r with
  | error t => exact hr
  | ok t =>
    have ht : t.Canon := hr
    dsimp only [Except.bind]
    split
    · next pa d _ _ =>
      have hb : Sync.Canon (fun x => x.2.Canon) (t.readBytes ⟨engAgent, false⟩ (pa + 11) 1) := ht.readBytes
      split
      · exact ht
      · split
        · next bs u e =>
          have hu : u.Canon := hb.of_ok e
          have hw : Sync.Canon State.Canon (u.writeBytes ⟨engAgent, false⟩ (pa + 11)
              (bytesOf 1 (ofBytes bs / 2 * 2))) :=
            hu.writeBytes
          split
          · exact hw.of_ok ‹_›
          · exact hw.of_busy ‹_›
          · exact hu
        · exact hb.of_busy ‹_›
        · exact ht
    · exact ht.desc.of_busy ‹_›
    · exact ht

theorem State.Canon.killLaunch {id} (h : s.Canon) : (s.killLaunch id).Canon := by
  unfold State.killLaunch
  extract_lets mine t u w
  have ht : t.Canon := h.foldl fun _ _ hx => hx.foldl fun _ _ hy => hy.removePack
  have hu : u.Canon := ht.foldl fun _ _ hx => hx.ite hx.dropJobs.updCore
  clear_value u
  have hw : w.Canon := hu.of_mem rfl
  clear_value w
  split
  · exact hw.of_mem rfl
  · exact hw

theorem State.Canon.dropPosted {f} (h : s.Canon) : (s.dropPosted f).Canon := by
  refine h.foldl fun t e ht => ?_
  split
  · exact ht.of_mem rfl
  · exact ht

theorem State.Canon.execVfFlr {f} (h : s.Canon) : NextCanon (Machine.execVfFlr f s) := by
  unfold Machine.execVfFlr
  split
  · exact h
  · split
    · next t e =>
      have ht : t.Canon := h.clearValid e
      exact ht.later
    · next t e =>
      extract_lets ids u w
      have ht : t.Canon := h.clearValid e
      have hu : u.Canon := ht.dropPosted
      have hw : w.Canon := hu.of_mem rfl
      exact hw.foldl fun _ _ hx => hx.killLaunch

theorem State.Canon.moduleReset (h : s.Canon) : s.moduleReset.Canon := h.of_keep rfl

theorem State.Canon.execPfFlr (h : s.Canon) : NextCanon (Machine.execPfFlr s) := h.moduleReset

theorem State.Canon.blow {img} (h : s.Canon) : (s.blow img).Canon := (h.of_mem (by rfl)).ite h

theorem State.Canon.enrolled {st} (h : s.Canon) : (s.enrolled st).Canon := h.of_mem rfl

theorem State.Canon.execOwnerEnroll {slot} (h : s.Canon) : NextCanon (Machine.execOwnerEnroll slot s) := by
  unfold Machine.execOwnerEnroll
  split
  · exact h.enrolled
  · exact (h.of_mem (by rfl)).enrolled

theorem State.Canon.execOwnerRevoke {slot} (h : s.Canon) : NextCanon (Machine.execOwnerRevoke slot s) := by
  unfold Machine.execOwnerRevoke
  split
  · exact h.enrolled
  · exact (h.of_mem (by rfl)).enrolled

theorem State.Canon.execAttestationRequest {f v} (h : s.Canon) :
    NextCanon (Machine.execAttestationRequest f v s) := by
  unfold Machine.execAttestationRequest
  split
  · exact h
  · exact h.of_mem rfl

theorem State.Canon.execAttestationDone {f} (h : s.Canon) : NextCanon (Machine.execAttestationDone f s) := by
  unfold Machine.execAttestationDone
  split
  · exact h
  · next a _ =>
    extract_lets q closed
    have hc : ∀ st {t : State}, t.Canon → (closed t st).Canon := 
      fun st _ ht => (ht.setMreg (a := attStat f) (v := BitVec.ofNat 64 st)).of_mem rfl
    have hr : ((s.engCheck q (a.buf.toNat + 128) 1024 true).andThen
        fun _ t => t.engRead q a.buf.toNat 64).Canon := h.engCheck.andThen fun _ _ ht => ht.engRead
    clear_value closed
    split
    · exact hr.of_busy ‹_›
    · exact hc 3 h
    · next nonce t e =>
      extract_lets r
      have ht : t.Canon := hr.of_ok e
      clear_value r
      split
      · next e' => exact ht.engWrite.of_busy e'
      · exact hc 3 ht
      · next e' =>
        extract_lets u w
        have hu : u.Canon := hc 2 (ht.engWrite.of_ok e')
        have hw : w.Canon := (hu.of_mem (by rfl)).ite hu
        exact hw.interrupt

theorem State.Canon.execAttResume {f} (h : s.Canon) : NextCanon (Machine.execAttResume f s) := by
  unfold Machine.execAttResume
  split
  · exact h.of_mem rfl
  · exact h

theorem State.Canon.setAct {st} (h : s.Canon) : (s.setAct st).Canon := h.of_mem rfl

theorem State.Canon.preemptAll {cause want} (h : s.Canon) : (s.preemptAll cause want).Canon :=
  h.foldl fun _ _ ht => ht.foldl fun _ _ hu => hu.preempt

theorem State.Canon.execActivationGo (h : s.Canon) : NextCanon (Machine.execActivationGo s) := by
  unfold Machine.execActivationGo
  generalize (List.range 384).any (fun i => s.migSt (i + 1) != 0) = migrating
  generalize s.imageOk (s.imageBytes stagingBase) = sound
  have ha : ∀ n, (s.setAct n).Canon := fun _ => h.setAct
  split
  · exact h
  · split
    · exact ha _
    · split
      · exact ha _
      · exact (ha _).preemptAll

theorem State.Canon.dropSessions (h : s.Canon) : s.dropSessions.Canon := by
  unfold State.dropSessions
  extract_lets t
  have ht : t.Canon := h.foldl fun _ _ hu => hu.abortColl
  exact ht.of_mem rfl

theorem State.Canon.holdAll (h : s.Canon) : s.holdAll.Canon := by
  unfold State.holdAll
  have ht : ({ s with reported := [] } : State).Canon := h.of_mem rfl
  exact ht.foldl fun _ _ hu => hu.setMreg.ite hu

theorem State.Canon.startShard {n img} (h : s.Canon) : (s.startShard n img).Canon := h.of_mem rfl

theorem State.Canon.rotateKeys {p} (h : s.Canon) : (s.rotateKeys p).Canon := h.newKeys.loadKeys.ite h.newKeys

theorem State.Canon.beginCopy (h : s.Canon) : s.beginCopy.Canon := by
  unfold State.beginCopy
  extract_lets t u
  have ht : t.Canon := h.dropSessions.holdAll
  have hu : u.Canon := ht.foldl fun _ _ hx => hx.rotateKeys
  have hc : ∀ w : State, w.Canon → ({ w with copied := some 1024 } : State).Canon := fun _ hw => hw.of_mem rfl
  exact hc _ hu.flashPut

theorem State.Canon.execActivationDone (h : s.Canon) : NextCanon (Machine.execActivationDone s) := by
  unfold Machine.execActivationDone
  extract_lets empty img src t u w
  have hsrc : src.Canon := h.flashPut
  clear_value empty src img
  have ht : t.Canon := hsrc.of_mem rfl
  have hu : u.Canon := ht.blow
  have hw : w.Canon := hu.foldl fun _ _ hx => hx.startShard
  clear_value w
  have hc : ∀ (k : Nat) (x : State), x.Canon → ({ x with copied := some (k + 4096) } : State).Canon := fun _ _ hx =>
      hx.of_mem rfl
  split
  · exact h
  · split
    · exact h.beginCopy
    · exact .ite (hc _ _ h.flashPut) hw.setAct.interrupt

theorem State.Canon.setMig {f st reason} (h : s.Canon) : (s.setMig f st reason).Canon :=
  h.putReg.putReg.ite h.putReg.putReg.interrupt

theorem State.Canon.headOf {f q} (h : s.Canon) : (s.headOf f q).Canon := by
  unfold State.headOf
  split
  · exact h.desc.of_busy ‹_›
  · dsimp only
    split
    · exact h
    · split
      · exact h
      · split
        · exact h
        · split
          · exact h.engRead.of_ok ‹_›
          · exact h.engRead.of_busy ‹_›
          · exact h
  · exact h

theorem State.Canon.peerWait {f q} (h : s.Canon) : (s.peerWait f q).Canon := by
  unfold State.peerWait
  refine h.headOf.andThen fun _ _ hs => ?_
  split
  · exact hs
  · split
    · dsimp only
      split
      · exact hs
      · split
        · exact hs.engNum.of_busy ‹_›
        · exact hs
        · exact hs.engNum.of_ok ‹_›

theorem State.Canon.peerWaits {f r} (h : s.Canon) (e : s.peerWaits f = r) : r.Canon := by
  rw [← e]
  unfold State.peerWaits
  generalize List.range 512 = l
  exact List.foldlRecOn _ _ (b := .ok [] s) (motive := EngRes.Canon) h fun _ hr _ _ => hr.andThen fun _ _ ht =>
      ht.peerWait.andThen fun _ _ hu => hu

theorem State.Canon.quiesce {f} (h : s.Canon) : (s.quiesce f).Canon := h.preemptAll.setMig

theorem State.Canon.migrate {f force} (h : s.Canon) : (s.migrate f force).Canon := by
  unfold State.migrate
  extract_lets st
  split
  · exact h
  · split
    · exact h.setMig
    · split
      · exact h.setMig
      · split
        · next t e =>
          have ht : t.Canon := h.peerWaits e
          exact ht.later
        · exact h
        · next ws t e =>
          have ht : t.Canon := h.peerWaits e
          split
          · exact ht.setMig
          · extract_lets u
            have hu : u.Canon := by
              refine ht.foldl fun y w hy => ?_
              split
              · split
                extract_lets z x
                have hz : z.Canon := hy.foldl fun _ _ hc => hc.abortColl
                have hx : x.Canon := hz.updQueue
                exact hx.owe.runFins.settleQueue
              · exact hy
            exact (hu.of_mem (by rfl)).quiesce

theorem State.Canon.execMigrationGo {f} (h : s.Canon) : NextCanon (Machine.execMigrationGo f s) := h.migrate

theorem State.Canon.execMigrationForce {f} (h : s.Canon) : NextCanon (Machine.execMigrationForce f s) := h.migrate

theorem State.Canon.tryAgain {a} (h : s.Canon) : NextCanon (s.tryAgain a) := by
  unfold State.tryAgain
  dsimp only
  split
  · exact (h.of_mem (by rfl)).execFnBindWrite
  · exact (h.of_mem (by rfl)).execVfFlr
  · exact (h.of_mem (by rfl)).migrate

theorem State.Canon.execMigrationQuiesced {f} (h : s.Canon) : NextCanon (Machine.execMigrationQuiesced f s) := by
  unfold Machine.execMigrationQuiesced
  dsimp only
  split
  · exact h.setMig
  · exact h

theorem State.Canon.execMigrationDone {f} (h : s.Canon) : NextCanon (Machine.execMigrationDone f s) := by
  unfold Machine.execMigrationDone
  split
  · exact h
  · exact (h.of_mem (by rfl)).setMig

end Sys2Proof.Machine
end

section
/-! Memory's canonical form across boot, power and the module's reset. -/

namespace Sys2Proof.Machine

variable {s : State} {v : View}

theorem State.Canon.setPhase {n} (h : s.Canon) : (s.setPhase n).Canon := h.of_mem rfl

theorem State.Canon.execPowerGood (h : s.Canon) : NextCanon (Machine.execPowerGood s) := by
  unfold Machine.execPowerGood
  exact .ite h (State.Canon.setPhase (h.foldl fun _ _ ht => ht.setClean))

theorem State.Canon.execVerifyDone (h : s.Canon) : NextCanon (Machine.execVerifyDone s) := by
  unfold Machine.execVerifyDone
  split
  · exact h
  · dsimp only
    split
    · exact h.setPhase
    · exact h.blow.setPhase

theorem State.Canon.startTest {n} (h : s.Canon) : (s.startTest n).Canon := h.of_mem rfl

theorem State.Canon.execHubBringupDone (h : s.Canon) : NextCanon (Machine.execHubBringupDone s) := by
  unfold Machine.execHubBringupDone
  extract_lets t
  have ht : t.Canon := h.foldl fun _ _ hu => hu.setClean
  exact .ite h (State.Canon.setPhase (ht.foldl fun _ _ hu => hu.startTest))

theorem State.Canon.fenceCluster {n} (h : s.Canon) : (s.fenceCluster n).Canon := h.of_mem rfl

theorem State.Canon.dropLanes {e} (h : s.Canon) : (s.dropLanes e).Canon := h.of_mem rfl

theorem State.Canon.fence {u} (h : s.Canon) : (s.fence u).Canon := by
  unfold State.fence
  extract_lets b d sl n f e
  have hs : ∀ k {t : State}, t.Canon → (sl t k).Canon := fun _ _ ht => ht.putReg
  refine h.fenceCluster.putReg.ite ((hs _ h).ite ((hs _ h).ite ?_))
  refine State.Canon.ite (h.foldl fun _ _ ht => ht.fenceCluster) (h.dropLanes.putReg.ite
      (h.putReg.ite (h.putReg.ite ?_)))
  exact (h.ite h.setPhase.putReg).ite h

theorem State.Canon.logBist {e} (h : s.Canon) : (s.logBist e).Canon := h.ite h.setMreg.putReg

theorem State.Canon.nextTest {n} (h : s.Canon) : (s.nextTest n).Canon := h.ite (h.startTest.ite h)

theorem State.Canon.execClusterBistDone {n fails} (h : s.Canon) :
    NextCanon (Machine.execClusterBistDone n fails s) := by
  unfold Machine.execClusterBistDone
  extract_lets t u w
  have ht : t.Canon := h.foldl fun _ _ hx => hx.logBist.fence
  have hu : u.Canon := ht.of_mem rfl
  have hw : w.Canon := hu.ite hu.startShard.putReg
  exact .ite h hw.nextTest.bootAdvance

theorem State.Canon.execScStart {ycluster v} (h : s.Canon) : NextCanon (Machine.execScStart ycluster v s) := by
  unfold Machine.execScStart
  dsimp only
  split
  · exact h
  · exact h.startShard

theorem State.Canon.setLevel {d} (h : s.Canon) : (s.setLevel d).Canon := h.of_mem rfl

theorem State.Canon.fullRateScrubs (h : s.Canon) : s.fullRateScrubs.Canon := h.of_mem rfl

theorem State.Canon.execFullRateChange (h : s.Canon) : NextCanon (Machine.execFullRateChange s) := by
  unfold Machine.execFullRateChange
  exact .ite h (State.Canon.foldl h.fullRateScrubs.setPhase fun _ _ ht => ht.setLevel)

theorem State.Canon.execRecoveryImageLoad {image} (h : s.Canon) :
    NextCanon (Machine.execRecoveryImageLoad image s) := by
  unfold Machine.execRecoveryImageLoad
  split
  · exact h.flashPut.moduleReset
  · exact h

theorem State.Canon.dieTick {d tj ht} (h : s.Canon) : (s.dieTick d tj ht).Canon := by
  unfold State.dieTick
  extract_lets thr half
  split
  extract_lets t
  have hs : t.Canon := h.of_mem rfl
  clear_value t half
  exact hs.putReg.putReg.putReg.putReg

theorem State.Canon.execPowerControlTick {sample avg temps} (h : s.Canon) :
    NextCanon (Machine.execPowerControlTick sample avg temps s) := by
  unfold Machine.execPowerControlTick
  extract_lets sust peak
  split
  extract_lets t u w x hot y
  have ht : t.Canon := h.of_mem (by rfl)
  have hu : u.Canon := ht.putReg.putReg
  have hw : w.Canon := hu.foldl fun _ _ hz => hz.dieTick
  have hx : x.Canon := hw.foldl fun _ _ hz => hz.setLevel
  have hy : y.Canon := hx.count16.ite hx
  exact hy.putReg.putReg

theorem State.Canon.execThermalTrip (h : s.Canon) : NextCanon (Machine.execThermalTrip s) := h.moduleReset.putReg

theorem State.Canon.execPowerLoss (h : s.Canon) : NextCanon (Machine.execPowerLoss s) := h.moduleReset.putReg

end Sys2Proof.Machine
end

section
/-! Memory's canonical form across the dovetail word. -/

namespace Sys2Proof.Machine

variable {s : State} {v : View}

theorem State.Canon.lastHalf {a1 m} (h : v.s.Canon) : (v.lastHalf a1 m).s.Canon := h.lastUse.iteV h.lastUse.lastUse

theorem State.Canon.putHalf {a1 m xs} (h : v.s.Canon) : (v.putHalf a1 m xs).s.Canon := h.iteV h.wv

theorem State.Canon.execDovetail {c x y} (h : s.Canon) : NextCanon (Machine.execDovetail c x y s) :=
  State.Canon.issueG (fun _ _ hv => hv.lastHalf.lastHalf.orFpf.putHalf.putHalf.tokenFor) h

end Sys2Proof.Machine
end

section
/-! Memory's canonical form across the fetch of a word. -/

namespace Sys2Proof.Machine

variable {s : State} {v : View}

theorem State.Canon.readBlock {agent pa} (h : s.Canon) : (s.readBlock agent pa).Canon := by
  unfold State.readBlock
  split
  · exact h
  · refine List.foldlRecOn _ _ (b := .ok [] s) (motive := Block.Canon) h fun r hr i _ => ?_
    cases r with
    | ok bs t =>
      have hw : Sync.Canon (fun x => x.2.Canon) (t.readWord ⟨agent, false⟩ (pa / 4 + i) 15) := State.Canon.readWord hr
      dsimp only
      split
      · exact hw.of_ok ‹_›
      · trivial
      · exact hw.of_busy ‹_›
    | fault _ _ => exact hr
    | busy t => exact hr

theorem State.Canon.fetch (h : v.s.Canon) : v.fetch.Canon := by
  unfold View.fetch
  dsimp only
  split
  · exact (h.page.of_sndV ‹_›).close
  · exact h.page.of_sndV ‹_›
  · split
    · exact h.page.of_sndV ‹_›
    · split
      · exact h.page.of_sndV ‹_›
      · split
        · exact h.page.of_sndV ‹_›
        · split
          · exact (((h.page.of_sndV ‹_›).setCore).readBlock).of_busy ‹_›
          · exact h.page.of_sndV ‹_›
          · exact ((((h.page.of_sndV ‹_›).setCore).readBlock).of_ok ‹_›).ite
                (((((h.page.of_sndV ‹_›).setCore).readBlock).of_ok ‹_›).bindFrame)

theorem State.Canon.lookIssue (h : v.s.Canon) : v.lookIssue.Canon := by
  unfold View.lookIssue
  split
  · exact h.fetch.of_wait ‹_›
  · exact h.fetch.of_flaw ‹_›
  · dsimp only
    split
    · exact h.fetch.of_bytes ‹_›
    · split
      · exact h.fetch.of_bytes ‹_›
      · split
        · exact h.fetch.of_bytes ‹_›
        · split
          · exact (h.fetch.of_bytes ‹_›).close
          · split
            · exact (h.fetch.of_bytes ‹_›).close
            · split
              · exact (h.fetch.of_bytes ‹_›).close
              · exact (h.fetch.of_bytes ‹_›).of_mem (by rfl)

theorem State.Canon.selectable {p u} (h : s.Canon) (e : s.selectable p = some u) : u.s.Canon := by
  revert e
  unfold State.selectable
  split
  · nofun
  · split
    · rintro ⟨⟩
      exact h.viewAt ‹_›
    · nofun

theorem State.Canon.execOverdueSplit {n slot i} (h : s.Canon) : NextCanon (Machine.execOverdueSplit n slot i s) := by
  unfold Machine.execOverdueSplit
  split
  · exact h
  · exact (h.of_mem (by rfl)).ite h

theorem State.Canon.execInstructionFetchFault {n slot i} (h : s.Canon) :
    NextCanon (Machine.execInstructionFetchFault n slot i s) := by
  unfold Machine.execInstructionFetchFault
  split
  · exact h
  · split
    · exact (((h.selectable ‹_›).lookIssue).of_flaw ‹_›).raise
    · exact h
    · exact ((h.selectable ‹_›).lookIssue).of_wait ‹_›

theorem State.Canon.execWalkReadAnswer {k} (h : s.Canon) : NextCanon (Machine.execWalkReadAnswer k s) := h.walkStep

end Sys2Proof.Machine
end

section
/-! Memory's canonical form across floating point. -/

namespace Sys2Proof.Machine

variable {s : State} {v : View}

theorem State.Canon.float2 {op c d a b} (h : s.Canon) : NextCanon (Machine.float2 op c d a b s) :=
  State.Canon.issue (fun _ _ hv => hv.lastUse.lastO.orFpf.putV) h

theorem State.Canon.float1 {op c d a} (h : s.Canon) : NextCanon (Machine.float1 op c d a s) :=
  State.Canon.issue (fun _ _ hv => hv.lastUse.orFpf.putV) h

theorem State.Canon.float3 {op c d a b cc} (h : s.Canon) : NextCanon (Machine.float3 op c d a b cc s) :=
  State.Canon.issue (fun _ _ hv => hv.lastUse.lastO.lastUse.orFpf.putV) h

theorem State.Canon.special {c d m rs} (h : v.s.Canon) : (v.special c d m rs).s.Canon := by
  unfold View.special
  exact h.leave

theorem State.Canon.special1 {op c d a} (h : s.Canon) : NextCanon (Machine.special1 op c d a s) :=
  State.Canon.issue (fun _ _ hv => hv.lastUse.special) h

theorem State.Canon.execVfadd {c r d a b} (h : s.Canon) : NextCanon (Machine.execVfadd c r d a b s) := h.float2

theorem State.Canon.execVfsub {c r d a b} (h : s.Canon) : NextCanon (Machine.execVfsub c r d a b s) := h.float2

theorem State.Canon.execVfmul {c r d a b} (h : s.Canon) : NextCanon (Machine.execVfmul c r d a b s) := h.float2

theorem State.Canon.execVfma {c r d a b cc} (h : s.Canon) : NextCanon (Machine.execVfma c r d a b cc s) := h.float3

theorem State.Canon.execVfmin {c d a b} (h : s.Canon) : NextCanon (Machine.execVfmin c d a b s) := h.float2

theorem State.Canon.execVfmax {c d a b} (h : s.Canon) : NextCanon (Machine.execVfmax c d a b s) := h.float2

theorem State.Canon.execVfcmp {c cond d a b} (h : s.Canon) : NextCanon (Machine.execVfcmp c cond d a b s) :=
  State.Canon.issue (fun _ _ hv => hv.lastUse.lastO.orFpf.putP) h

theorem State.Canon.execVfclass {c ty d a} (h : s.Canon) : NextCanon (Machine.execVfclass c ty d a s) :=
  State.Canon.issue (fun _ _ hv => hv.lastUse.putV) h

theorem State.Canon.execVfrnd {c r d a} (h : s.Canon) : NextCanon (Machine.execVfrnd c r d a s) := h.float1

theorem State.Canon.execVfrcp {c d a} (h : s.Canon) : NextCanon (Machine.execVfrcp c d a s) := h.special1

theorem State.Canon.execVfrsq {c d a} (h : s.Canon) : NextCanon (Machine.execVfrsq c d a s) := h.special1

theorem State.Canon.execVfsqrt {c r d a} (h : s.Canon) : NextCanon (Machine.execVfsqrt c r d a s) := h.special1

theorem State.Canon.execVfdiv {c r d a b} (h : s.Canon) : NextCanon (Machine.execVfdiv c r d a b s) :=
  State.Canon.issue (fun _ _ hv => hv.lastUse.lastO.special) h

theorem State.Canon.execVfexp2 {c d a} (h : s.Canon) : NextCanon (Machine.execVfexp2 c d a s) := h.special1

theorem State.Canon.execVflog2 {c d a} (h : s.Canon) : NextCanon (Machine.execVflog2 c d a s) := h.special1

theorem State.Canon.execVfsin {c d a} (h : s.Canon) : NextCanon (Machine.execVfsin c d a s) := h.special1

theorem State.Canon.execVfcos {c d a} (h : s.Canon) : NextCanon (Machine.execVfcos c d a s) := h.special1

theorem State.Canon.execVftanh {c d a} (h : s.Canon) : NextCanon (Machine.execVftanh c d a s) := h.special1

theorem State.Canon.execVcvt {c dst src r d a rb} (h : s.Canon) :
    NextCanon (Machine.execVcvt c dst src r d a rb s) :=
  State.Canon.issue (fun _ _ hv => hv.lastUse.lastUse.orFpf.putV) h

theorem State.Canon.execVpack {c m ty r d a b rb} (h : s.Canon) :
    NextCanon (Machine.execVpack c m ty r d a b rb s) :=
  State.Canon.issue (fun _ _ hv => hv.lastUse.lastUse.lastUse.orFpf.putV) h

theorem State.Canon.execVunpack {c ty e d a} (h : s.Canon) : NextCanon (Machine.execVunpack c ty e d a s) := h.float1

theorem State.Canon.execVhadd2 {c ty r d a b} (h : s.Canon) : NextCanon (Machine.execVhadd2 c ty r d a b s) :=
  h.float2

theorem State.Canon.execVhmul2 {c ty r d a b} (h : s.Canon) : NextCanon (Machine.execVhmul2 c ty r d a b s) :=
  h.float2

theorem State.Canon.execVhfma2 {c ty r d a b cc} (h : s.Canon) : NextCanon (Machine.execVhfma2 c ty r d a b cc s) :=
  h.float3

theorem State.Canon.execSfadd {c ty r d a b} (h : s.Canon) : NextCanon (Machine.execSfadd c ty r d a b s) :=
  State.Canon.issue (fun _ _ hv => hv.orFpf.putS) h

theorem State.Canon.execSfmul {c ty r d a b} (h : s.Canon) : NextCanon (Machine.execSfmul c ty r d a b s) :=
  State.Canon.issue (fun _ _ hv => hv.orFpf.putS) h

theorem State.Canon.execSfma {c ty r d a b cc} (h : s.Canon) : NextCanon (Machine.execSfma c ty r d a b cc s) :=
  State.Canon.issue (fun _ _ hv => hv.orFpf.putS) h

theorem State.Canon.execSfcvt {c dst src r d a rb} (h : s.Canon) :
    NextCanon (Machine.execSfcvt c dst src r d a rb s) :=
  State.Canon.issue (fun _ _ hv => hv.orFpf.putS) h

end Sys2Proof.Machine
end

section
/-! Memory's canonical form across the exchanges between lanes. -/

namespace Sys2Proof.Machine

variable {s : State} {v : View}

theorem State.Canon.execVshfl {c op d a b} (h : s.Canon) : NextCanon (Machine.execVshfl c op d a b s) :=
  State.Canon.issueWide (fun _ _ hv => hv.lastUse.lastO.putV) h

theorem State.Canon.execVbcast {c bt d a i} (h : s.Canon) : NextCanon (Machine.execVbcast c bt d a i s) :=
  State.Canon.issueWide (fun _ _ hv => hv.lastUse.putV) h

theorem State.Canon.execVprmt {c d a b sel} (h : s.Canon) : NextCanon (Machine.execVprmt c d a b sel s) :=
  State.Canon.issue (fun _ _ hv => hv.lastUse.lastUse.lastO.putV) h

theorem State.Canon.execVscan {c op ex ty d a heads} (h : s.Canon) :
    NextCanon (Machine.execVscan c op ex ty d a heads s) :=
  State.Canon.issueWide (fun _ _ hv => hv.lastUse.orFpf.putV) h

theorem State.Canon.lastCtr {x m} (h : v.s.Canon) : (v.lastCtr x m).s.Canon := by
  unfold View.lastCtr
  split
  · exact h.lastUse
  · exact h

theorem State.Canon.execVdrop {c all d ctr key keepv} (h : s.Canon) :
    NextCanon (Machine.execVdrop c all d ctr key keepv s) :=
  State.Canon.issue (fun _ _ hv => hv.lastCtr.putP) h

theorem State.Canon.execVhash {c lo d ctr key} (h : s.Canon) : NextCanon (Machine.execVhash c lo d ctr key s) :=
  State.Canon.issue (fun _ _ hv => hv.lastCtr.putV) h

end Sys2Proof.Machine
end

section
/-! Memory's canonical form at the end of a partition's work. -/

namespace Sys2Proof.Machine

variable {s : State} {v : View}

theorem State.Canon.endUnderWay {x} (h : s.Canon) : (s.endUnderWay x).Canon := by
  unfold State.endUnderWay
  split
  · exact h.owe
  · exact h

theorem State.Canon.wipePartition {p} (h : s.Canon) : (s.wipePartition p).Canon := by
  unfold State.wipePartition
  extract_lets cl agent sl mine node fns lids t ended u
  have ht : t.Canon := h.foldl fun _ _ hx => hx.updCore.updCore.updCore
  have hu : u.Canon := ht.foldl fun _ _ hx => hx.endUnderWay
  exact hu.of_mem rfl

theorem State.Canon.execPartitionDisable {p} (h : s.Canon) : NextCanon (Machine.execPartitionDisable p s) := by
  unfold Machine.execPartitionDisable
  extract_lets st t w sl u
  have ht : t.Canon := h.foldl fun x k hx => State.Canon.freeSlice (State.Canon.ite hx.stopSlice.setClean hx)
  have hw : w.Canon := h.wipePartition.newKeys.putReg
  have hu : u.Canon := hw.foldl fun _ _ hx => hx.setClean.startSlice
  split
  · exact ht.putReg.setSt.setPend
  · exact ht.putReg.setSt.setPend
  · exact hu.setSt.setPend
  · exact h

theorem State.Canon.execPartitionReset {p} (h : s.Canon) : NextCanon (Machine.execPartitionReset p s) := by
  unfold Machine.execPartitionReset
  extract_lets t u w
  have ht : t.Canon := h.newKeys.foldl fun _ _ hx => hx.setClean
  have hu : u.Canon := h.wipePartition.newKeys
  have hw : w.Canon := hu.foldl fun _ _ hx => hx.setClean.wipeMarks
  split
  · exact ht.startScrub
  · exact ht.startScrub
  · exact hw.freshTree.setSt
  · exact h

end Sys2Proof.Machine
end

section
/-! Memory's canonical form across the uniform instructions. -/

namespace Sys2Proof.Machine

variable {s : State} {v : View}

theorem State.Canon.uniform2 {op c t d a b} (h : s.Canon) : NextCanon (Machine.uniform2 op c t d a b s) :=
  State.Canon.issue (fun _ _ hv => hv.putS) h

theorem State.Canon.uniform1 {op c t d a} (h : s.Canon) : NextCanon (Machine.uniform1 op c t d a s) :=
  State.Canon.issue (fun _ _ hv => hv.putS) h

theorem State.Canon.divide {c d m lo hi sval fl lex zero} (h : v.s.Canon) :
    (v.divide c d m lo hi sval fl lex zero).s.Canon :=
  h.leave

theorem State.Canon.uniformDiv {op sg c t d a b} (h : s.Canon) : NextCanon (Machine.uniformDiv op sg c t d a b s) :=
  State.Canon.issue (fun _ _ hv => hv.divide) h

theorem State.Canon.execSadd {c t d a b} (h : s.Canon) : NextCanon (Machine.execSadd c t d a b s) := h.uniform2

theorem State.Canon.execSsub {c t d a b} (h : s.Canon) : NextCanon (Machine.execSsub c t d a b s) := h.uniform2

theorem State.Canon.execSmul {c t d a b} (h : s.Canon) : NextCanon (Machine.execSmul c t d a b s) := h.uniform2

theorem State.Canon.execSmulh {c t d a b} (h : s.Canon) : NextCanon (Machine.execSmulh c t d a b s) := h.uniform2

theorem State.Canon.execSmulhn {c t d a b} (h : s.Canon) : NextCanon (Machine.execSmulhn c t d a b s) := h.uniform2

theorem State.Canon.execSdiv {c t d a b} (h : s.Canon) : NextCanon (Machine.execSdiv c t d a b s) := h.uniformDiv

theorem State.Canon.execSdivn {c t d a b} (h : s.Canon) : NextCanon (Machine.execSdivn c t d a b s) := h.uniformDiv

theorem State.Canon.execSrem {c t d a b} (h : s.Canon) : NextCanon (Machine.execSrem c t d a b s) := h.uniformDiv

theorem State.Canon.execSremn {c t d a b} (h : s.Canon) : NextCanon (Machine.execSremn c t d a b s) := h.uniformDiv

theorem State.Canon.execSand {c t d a b} (h : s.Canon) : NextCanon (Machine.execSand c t d a b s) := h.uniform2

theorem State.Canon.execSor {c t d a b} (h : s.Canon) : NextCanon (Machine.execSor c t d a b s) := h.uniform2

theorem State.Canon.execSxor {c t d a b} (h : s.Canon) : NextCanon (Machine.execSxor c t d a b s) := h.uniform2

theorem State.Canon.execSandn {c t d a b} (h : s.Canon) : NextCanon (Machine.execSandn c t d a b s) := h.uniform2

theorem State.Canon.execSshl {c t d a b} (h : s.Canon) : NextCanon (Machine.execSshl c t d a b s) := h.uniform2

theorem State.Canon.execSshr {c t d a b} (h : s.Canon) : NextCanon (Machine.execSshr c t d a b s) := h.uniform2

theorem State.Canon.execSsra {c t d a b} (h : s.Canon) : NextCanon (Machine.execSsra c t d a b s) := h.uniform2

theorem State.Canon.execSmin {c t d a b} (h : s.Canon) : NextCanon (Machine.execSmin c t d a b s) := h.uniform2

theorem State.Canon.execSmax {c t d a b} (h : s.Canon) : NextCanon (Machine.execSmax c t d a b s) := h.uniform2

theorem State.Canon.execSminn {c t d a b} (h : s.Canon) : NextCanon (Machine.execSminn c t d a b s) := h.uniform2

theorem State.Canon.execSmaxn {c t d a b} (h : s.Canon) : NextCanon (Machine.execSmaxn c t d a b s) := h.uniform2

theorem State.Canon.execSclz {c t d a} (h : s.Canon) : NextCanon (Machine.execSclz c t d a s) := h.uniform1

theorem State.Canon.execSpopc {c t d a} (h : s.Canon) : NextCanon (Machine.execSpopc c t d a s) := h.uniform1

theorem State.Canon.execSmov {c t d a} (h : s.Canon) : NextCanon (Machine.execSmov c t d a s) := h.uniform1

theorem State.Canon.execSbfx {c t d a desc} (h : s.Canon) : NextCanon (Machine.execSbfx c t d a desc s) :=
  State.Canon.issue (fun _ _ hv => hv.putS) h

theorem State.Canon.execSbfi {c t d a b desc} (h : s.Canon) : NextCanon (Machine.execSbfi c t d a b desc s) :=
  State.Canon.issue (fun _ _ hv => hv.putS) h

theorem State.Canon.execSsel {c t d a b cnd} (h : s.Canon) : NextCanon (Machine.execSsel c t d a b cnd s) :=
  State.Canon.issue (fun _ _ hv => hv.putS) h

theorem State.Canon.execSmovi {c t d x} (h : s.Canon) : NextCanon (Machine.execSmovi c t d x s) :=
  State.Canon.issue (fun _ _ hv => hv.putS) h

theorem State.Canon.execScmp {c t cond d a b} (h : s.Canon) : NextCanon (Machine.execScmp c t cond d a b s) :=
  State.Canon.issue (fun _ _ hv => hv.putS) h

end Sys2Proof.Machine
end

section
/-! Memory's canonical form across the units that complete an operation later. -/

namespace Sys2Proof.Machine

variable {s : State} {v : View}

theorem State.Canon.execDivisionComplete {n} (h : s.Canon) : NextCanon (Machine.execDivisionComplete n s) := by
  unfold Machine.execDivisionComplete
  split
  · exact h
  · exact h.updCore

theorem State.Canon.execSpecialFunctionComplete {n} (h : s.Canon) :
    NextCanon (Machine.execSpecialFunctionComplete n s) := by
  unfold Machine.execSpecialFunctionComplete
  split
  · exact h
  · exact h.updCore

end Sys2Proof.Machine
end

section
/-! Memory's canonical form across the varying instructions. -/

namespace Sys2Proof.Machine

variable {s : State} {v : View}

theorem State.Canon.varying2 {op c t d a b} (h : s.Canon) : NextCanon (Machine.varying2 op c t d a b s) :=
  State.Canon.issue (fun _ _ hv => hv.lastUse.lastO.putV) h

theorem State.Canon.varying1 {op c t d a} (h : s.Canon) : NextCanon (Machine.varying1 op c t d a s) :=
  State.Canon.issue (fun _ _ hv => hv.lastUse.putV) h

theorem State.Canon.varyingDiv {op sg c t d a b} (h : s.Canon) : NextCanon (Machine.varyingDiv op sg c t d a b s) :=
  State.Canon.issue (fun _ _ hv => hv.lastUse.lastO.divide) h

theorem State.Canon.execVadd {c t d a b} (h : s.Canon) : NextCanon (Machine.execVadd c t d a b s) := h.varying2

theorem State.Canon.execVsub {c t d a b} (h : s.Canon) : NextCanon (Machine.execVsub c t d a b s) := h.varying2

theorem State.Canon.execVmul {c t d a b} (h : s.Canon) : NextCanon (Machine.execVmul c t d a b s) := h.varying2

theorem State.Canon.execVmulh {c t d a b} (h : s.Canon) : NextCanon (Machine.execVmulh c t d a b s) := h.varying2

theorem State.Canon.execVmulhn {c t d a b} (h : s.Canon) : NextCanon (Machine.execVmulhn c t d a b s) := h.varying2

theorem State.Canon.execVmad {c t d a b cc} (h : s.Canon) : NextCanon (Machine.execVmad c t d a b cc s) :=
  State.Canon.issue (fun _ _ hv => hv.lastUse.lastO.lastUse.putV) h

theorem State.Canon.execVdiv {c t d a b} (h : s.Canon) : NextCanon (Machine.execVdiv c t d a b s) := h.varyingDiv

theorem State.Canon.execVdivn {c t d a b} (h : s.Canon) : NextCanon (Machine.execVdivn c t d a b s) := h.varyingDiv

theorem State.Canon.execVrem {c t d a b} (h : s.Canon) : NextCanon (Machine.execVrem c t d a b s) := h.varyingDiv

theorem State.Canon.execVremn {c t d a b} (h : s.Canon) : NextCanon (Machine.execVremn c t d a b s) := h.varyingDiv

theorem State.Canon.execVand {c t d a b} (h : s.Canon) : NextCanon (Machine.execVand c t d a b s) := h.varying2

theorem State.Canon.execVor {c t d a b} (h : s.Canon) : NextCanon (Machine.execVor c t d a b s) := h.varying2

theorem State.Canon.execVxor {c t d a b} (h : s.Canon) : NextCanon (Machine.execVxor c t d a b s) := h.varying2

theorem State.Canon.execVandn {c t d a b} (h : s.Canon) : NextCanon (Machine.execVandn c t d a b s) := h.varying2

theorem State.Canon.execVshl {c t d a b} (h : s.Canon) : NextCanon (Machine.execVshl c t d a b s) := h.varying2

theorem State.Canon.execVshr {c t d a b} (h : s.Canon) : NextCanon (Machine.execVshr c t d a b s) := h.varying2

theorem State.Canon.execVsra {c t d a b} (h : s.Canon) : NextCanon (Machine.execVsra c t d a b s) := h.varying2

theorem State.Canon.execVmin {c t d a b} (h : s.Canon) : NextCanon (Machine.execVmin c t d a b s) := h.varying2

theorem State.Canon.execVmax {c t d a b} (h : s.Canon) : NextCanon (Machine.execVmax c t d a b s) := h.varying2

theorem State.Canon.execVminn {c t d a b} (h : s.Canon) : NextCanon (Machine.execVminn c t d a b s) := h.varying2

theorem State.Canon.execVmaxn {c t d a b} (h : s.Canon) : NextCanon (Machine.execVmaxn c t d a b s) := h.varying2

theorem State.Canon.execVnot {c t d a} (h : s.Canon) : NextCanon (Machine.execVnot c t d a s) := h.varying1

theorem State.Canon.execVabs {c t d a} (h : s.Canon) : NextCanon (Machine.execVabs c t d a s) := h.varying1

theorem State.Canon.execVneg {c t d a} (h : s.Canon) : NextCanon (Machine.execVneg c t d a s) := h.varying1

theorem State.Canon.execVclz {c t d a} (h : s.Canon) : NextCanon (Machine.execVclz c t d a s) := h.varying1

theorem State.Canon.execVpopc {c t d a} (h : s.Canon) : NextCanon (Machine.execVpopc c t d a s) := h.varying1

theorem State.Canon.execVmov {c t d a} (h : s.Canon) : NextCanon (Machine.execVmov c t d a s) := h.varying1

theorem State.Canon.execVbfx {c t d a desc} (h : s.Canon) : NextCanon (Machine.execVbfx c t d a desc s) :=
  State.Canon.issue (fun _ _ hv => hv.lastUse.putV) h

theorem State.Canon.execVbfi {c t d a b desc} (h : s.Canon) : NextCanon (Machine.execVbfi c t d a b desc s) :=
  State.Canon.issue (fun _ _ hv => hv.lastUse.lastUse.putV) h

theorem State.Canon.execVsel {c t d a b p} (h : s.Canon) : NextCanon (Machine.execVsel c t d a b p s) :=
  State.Canon.issue (fun _ _ hv => hv.lastUse.lastO.putV) h

theorem State.Canon.execVmovi {c t d x} (h : s.Canon) : NextCanon (Machine.execVmovi c t d x s) :=
  State.Canon.issue (fun _ _ hv => hv.putV) h

theorem State.Canon.execVcmp {c t cond d a b} (h : s.Canon) : NextCanon (Machine.execVcmp c t cond d a b s) :=
  State.Canon.issue (fun _ _ hv => hv.lastUse.lastO.putP) h

theorem State.Canon.execVsat {c t d a sat} (h : s.Canon) : NextCanon (Machine.execVsat c t d a sat s) :=
  State.Canon.issue (fun _ _ hv => hv.lastUse.putV) h

theorem State.Canon.predicate2 {op c d a b} (h : s.Canon) : NextCanon (Machine.predicate2 op c d a b s) :=
  State.Canon.issue (fun _ _ hv => hv.putP) h

theorem State.Canon.execPand {c d a b} (h : s.Canon) : NextCanon (Machine.execPand c d a b s) := h.predicate2

theorem State.Canon.execPor {c d a b} (h : s.Canon) : NextCanon (Machine.execPor c d a b s) := h.predicate2

theorem State.Canon.execPxor {c d a b} (h : s.Canon) : NextCanon (Machine.execPxor c d a b s) := h.predicate2

theorem State.Canon.execPnot {c d a} (h : s.Canon) : NextCanon (Machine.execPnot c d a s) :=
  State.Canon.issue (fun _ _ hv => hv.putP) h

theorem State.Canon.execPmov {c d a} (h : s.Canon) : NextCanon (Machine.execPmov c d a s) := by
  unfold Machine.execPmov
  split <;> exact State.Canon.issue (fun _ _ hv => hv.putP) h

end Sys2Proof.Machine
end

section
/-! Memory's canonical form across what Zumos does on the service cores. -/

namespace Sys2Proof.Machine

variable {s : State} {v : View}

theorem State.Canon.sendMail {fromy toy type a b p1 p2} (h : s.Canon) :
    (s.sendMail fromy toy type a b p1 p2).Canon :=
  h.of_mem rfl

theorem State.Canon.askFrames {n} (h : s.Canon) : (s.askFrames n).Canon := by
  unfold State.askFrames
  split
  · exact h
  · split
    · exact h
    · exact h.of_mem rfl

theorem State.Canon.giveFrame {n f} (h : s.Canon) : (s.giveFrame n f).Canon := h.of_mem rfl

theorem State.Canon.takeFrame {n attr entry old bits} (h : s.Canon) : (s.takeFrame n attr entry old bits).Canon := by
  unfold State.takeFrame
  split
  · exact h
  · split
    · exact h.askFrames
    · extract_lets t
      have ht : t.Canon := State.Canon.rebindEnd (State.Canon.rebindStart (h.of_mem (by rfl)))
      exact ht.of_mem rfl

theorem State.Canon.putEntry {n va level a v} (h : s.Canon) : (s.putEntry n va level a v).Canon := by
  unfold State.putEntry
  split
  · exact h.writeBytes.of_ok ‹_›
  · exact h.writeBytes.of_busy ‹_›
  · trivial

theorem State.Canon.casEntry {i} (h : s.Canon) : (s.casEntry i).Canon := by
  unfold State.casEntry
  dsimp only
  split
  · exact h.readBytes.of_busy ‹_›
  · exact (h.of_mem (by rfl)).giveFrame
  · split
    · exact ((h.readBytes.of_ok ‹_›).of_mem (by rfl)).giveFrame
    · split
      · exact (((h.readBytes.of_ok ‹_›).writeBytes).of_ok ‹_›).of_mem (by rfl)
      · exact ((h.readBytes.of_ok ‹_›).writeBytes).of_busy ‹_›
      · exact ((h.readBytes.of_ok ‹_›).of_mem (by rfl)).giveFrame

theorem State.Canon.installTurn {n} (h : s.Canon) : (s.installTurn n).Canon := by
  unfold State.installTurn
  split
  · exact h.casEntry
  · exact h

theorem State.Canon.leafAct {n x va act a4 a5 a6} (h : s.Canon) : (s.leafAct n x va act a4 a5 a6).Canon := by
  induction a4 generalizing a5 a6 s with
  | zero => exact h
  | succ fuel ih =>
    unfold State.leafAct
    extract_lets a
    have hr : Sync.Canon (fun x => x.2.Canon) (s.readBytes ⟨64 + n, false⟩ a 8) := h.readBytes
    clear_value a
    split
    · exact hr.of_busy ‹_›
    · trivial
    · next bs t e =>
      have ht : t.Canon := hr.of_ok e
      dsimp only
      split
      · split
        · split
          · exact ht
          · exact ht.takeFrame
        · exact ht
      · split
        · exact ih ht
        · trivial
        · split
          · exact ht
          · exact ht.putEntry.andThen fun _ _ hu => hu
          · split
            · exact ht.putEntry.andThen fun _ _ hu => hu
            · exact ht

theorem State.Canon.pageAct {n x va act} (h : s.Canon) : (s.pageAct n x va act).Canon := h.leafAct

theorem State.Canon.servePage {n x va reason w} (h : s.Canon) : (s.servePage n x va reason w).Canon := by
  unfold State.servePage
  dsimp only
  split
  · exact h
  · split
    · split
      · exact h.pageAct.of_ok ‹_›
      · exact h.pageAct.of_busy ‹_›
      · exact h
    · split
      · exact h
      · split
        · split
          · exact h.pageAct.of_ok ‹_›
          · exact h.pageAct.of_busy ‹_›
          · exact h
        · exact h

theorem State.Canon.userAccess {n x w} {r : EngRes α} (h : s.Canon) (h1 : r.Canon) :
    (s.userAccess n x w r).Canon := by
  unfold State.userAccess
  split
  · exact h1
  · exact h1
  · split
    · exact h
    · split
      · exact h.servePage.of_ok ‹_›
      · exact h.servePage.of_busy ‹_›
      · exact h

theorem State.Canon.anyMapped {x va a3} (h : s.Canon) : (s.anyMapped x va a3).Canon := by
  induction a3 generalizing va with
  | zero => exact h
  | succ n ih =>
    unfold State.anyMapped
    split
    · exact h
    · exact h.walkFrom.of_busy ‹_›
    · exact ih

theorem State.Canon.rangeUsed {x va pages} (h : s.Canon) : (s.rangeUsed x va pages).Canon := by
  unfold State.rangeUsed
  split
  · exact h
  · exact h.anyMapped

theorem State.Canon.freeRange {x pages a3 a4} (h : s.Canon) : (s.freeRange x pages a3 a4).Canon := by
  induction a3 generalizing a4 with
  | zero => exact h
  | succ fuel ih =>
    unfold State.freeRange
    exact EngRes.Canon.ite (h.rangeUsed.andThen fun _ _ _ => EngRes.Canon.ite ih h) ih

theorem State.Canon.allLanes {lanes v st} (h : s.Canon) : (Machine.allLanes lanes v st s).Canon := h

theorem State.Canon.allFail {lanes st} (h : s.Canon) : (Machine.allFail lanes st s).Canon := h.allLanes

theorem State.Canon.svcAlloc {c k lanes} (h : s.Canon) : (s.svcAlloc c k lanes).Canon := by
  unfold State.svcAlloc
  extract_lets lg
  split
  · exact h.allFail
  · split
    · exact h.allFail
    · exact h.of_mem rfl

theorem State.Canon.svcFree {c k lanes} (h : s.Canon) : (s.svcFree c k lanes).Canon := by
  unfold State.svcFree
  split
  · exact h.allFail
  · split
    · exact (h.of_mem (by rfl)).allLanes
    · exact h.allFail

theorem State.Canon.svcMap {c k lanes} (h : s.Canon) : (s.svcMap c k lanes).Canon := by
  unfold State.svcMap
  dsimp only
  split
  · exact h.allFail
  · split
    · split
      · exact ((h.draw.freeRange.of_ok ‹_›).of_mem (by rfl)).allLanes
      · exact h.draw.freeRange.of_busy ‹_›
      · exact h.draw.allFail
    · split
      · exact h.allFail
      · split
        · exact ((h.rangeUsed.of_ok ‹_›).of_mem (by rfl)).allLanes
        · exact h.rangeUsed.of_busy ‹_›
        · exact h.allFail

theorem State.Canon.clearPages {n x a2 a3} (h : s.Canon) : (s.clearPages n x a2 a3).2.Canon := by
  induction a2 generalizing a3 s with
  | zero => exact h
  | succ fuel ih =>
    unfold State.clearPages
    split
    · exact h
    · extract_lets on
      split
      · exact h.pageAct.of_busy ‹_›
      · exact ih h
      · exact ih (h.pageAct.of_ok ‹_›)

theorem State.Canon.shardInval {cl asid} (h : s.Canon) : (s.shardInval cl asid).2.Canon := h.dropTlb

theorem State.Canon.tellShards {a0 a1} (h : s.Canon) : (s.tellShards a0 a1).2.Canon := by
  induction a0 generalizing a1 s with
  | nil => exact h
  | cons m ms ih =>
    unfold State.tellShards
    split
    · extract_lets r
      have hr : r.2.Canon := h.shardInval
      split
      · exact ih hr
      · exact hr
    · split
      · exact h
      · exact ih h.sendMail

theorem State.Canon.unmapGo {x u} (h : s.Canon) : (s.unmapGo x u).2.Canon := by
  unfold State.unmapGo
  dsimp only
  split
  · exact h.clearPages
  · exact h.clearPages.tellShards

theorem State.Canon.svcUnmap {c k lanes} (h : s.Canon) : (s.svcUnmap c k lanes).Canon := by
  unfold State.svcUnmap
  extract_lets va stop mine fresh r u src t z
  have hr : src.Canon := (h.of_mem (by rfl)).unmapGo
  have ht : t.Canon := hr.of_mem rfl
  have hz : z.Canon := ht.foldl fun _ _ hx => hx.giveFrame
  split
  · exact h.allFail
  · split
    · exact h.allFail
    · split
      · exact ht.of_mem rfl
      · exact (hz.of_mem (by rfl)).allLanes

theorem State.Canon.createFile {part path u} (h : s.Canon) (e : s.createFile part path = some u) : u.2.Canon := by
  revert e
  unfold State.createFile
  dsimp only
  split
  · nofun
  · split
    · rintro ⟨⟩
      exact h.flashPut
    · rintro ⟨⟩
      exact h.flashPut.flashPut

theorem State.Canon.readPath {x a1 a2 a3} (h : s.Canon) : (s.readPath x a1 a2 a3).Canon := by
  induction a1 generalizing a2 a3 s with
  | zero => exact h
  | succ fuel ih =>
    unfold State.readPath
    refine h.engRead.andThen fun b t ht => ?_
    split
    · exact ht
    · exact ih ht

theorem State.Canon.svcOpen {c k lanes} (h : s.Canon) : (s.svcOpen c k lanes).Canon := by
  have ha : EngRes.Canon (s.userAccess c.n c.x false (State.readPath c.x 96 k.pair1 [] s)) := h.userAccess h.readPath
  obtain ⟨body, hbody⟩ : ∃ body, body = State.svcOpen := ⟨_, rfl⟩
  rw [← hbody]
  delta State.svcOpen at hbody
  rw [hbody]
  beta_reduce
  generalize s.userAccess c.n c.x false (State.readPath c.x 96 k.pair1 [] s) = r at ha ⊢
  split
  · exact ha
  · exact h.allFail
  · exact State.Canon.allFail ha
  · exact State.Canon.allFail ha
  · next path t =>
    have ht : t.Canon := ha
    split
    · exact ht.allFail
    · extract_lets w opened
      have ho : ∀ x {u : State}, u.Canon → (opened x u).Canon := by
        intro x u hu
        unfold opened
        have hv : (if 4 ≤ k.a3 then u.flashPut (x + 104) (bytesOf 8 0) else u).Canon := hu.flashPut.ite hu
        exact (hv.of_mem (by rfl)).allLanes
      split
      · exact ho _ ht
      · split
        · exact ht.allFail
        · split
          · next e => exact ho _ (ht.createFile e)
          · exact ht.allFail

theorem State.Canon.svcFile {c k lanes w} (h : s.Canon) : (s.svcFile c k lanes w).Canon := by
  unfold State.svcFile
  split
  · exact h.allFail
  · extract_lets off len n
    split
    · exact h.allFail
    · split
      · exact h.allFail
      · split
        · exact h.allLanes
        · exact h

theorem State.Canon.putSock {k} (h : s.Canon) : (s.putSock k).Canon := h.of_mem rfl

theorem State.Canon.svcSocket {c k lanes} (h : s.Canon) : (s.svcSocket c k lanes).Canon := by
  unfold State.svcSocket
  split
  · exact h.allFail
  · exact (h.of_mem (by rfl)).allLanes

theorem State.Canon.svcConnect {c k lanes} (h : s.Canon) : (s.svcConnect c k lanes).Canon := by
  unfold State.svcConnect
  split
  · exact h.allFail
  · dsimp only
    split
    · exact h.allFail
    · split
      · exact h.putSock.allLanes
      · split
        · exact h.draw.putSock.allLanes
        · exact h.draw.allFail
        · exact h.draw.allFail

theorem State.Canon.svcSend {c k lanes} (h : s.Canon) : (s.svcSend c k lanes).Canon := by
  unfold State.svcSend
  split
  · exact h.allFail
  · split
    · exact h.allFail
    · split
      · exact h.allFail
      · split
        · exact h.allLanes
        · split
          · dsimp only
            split
            · exact (h.draw.of_snd ‹_›).allFail
            · split
              · exact ((h.draw.of_snd ‹_›).userAccess ((h.draw.of_snd ‹_›).engRead)).of_busy ‹_›
              · exact ((((h.draw.of_snd ‹_›).userAccess ((h.draw.of_snd ‹_›).engRead)).of_ok ‹_›).putSock).allLanes
              · exact (h.draw.of_snd ‹_›).allFail

theorem State.Canon.svcRecv {c k lanes} (h : s.Canon) : (s.svcRecv c k lanes).Canon := by
  unfold State.svcRecv
  split
  · exact h.allFail
  · dsimp only
    split
    · exact h.allFail
    · split
      · exact (h.userAccess h.engWrite).of_busy ‹_›
      · exact (((h.userAccess h.engWrite).of_ok ‹_›).putSock).allLanes
      · exact h.allFail

theorem State.Canon.svcLog {c k lanes} (h : s.Canon) : (s.svcLog c k lanes).Canon := by
  unfold State.svcLog
  split
  · exact h.allFail
  · split
    · exact (h.userAccess h.engRead).of_busy ‹_›
    · exact ((h.userAccess h.engRead).of_ok ‹_›).allLanes
    · exact h.allFail

theorem State.Canon.svcGroup {c k lanes} (h : s.Canon) : (s.svcGroup c k lanes).Canon := by
  unfold State.svcGroup
  split
  · exact h.allLanes
  · exact h.svcAlloc
  · exact h.svcFree
  · exact h.svcMap
  · exact h.svcUnmap
  · exact h.svcOpen
  · split
    · exact (h.of_mem (by rfl)).allLanes
    · split
      · exact (h.of_mem (by rfl)).allLanes
      · exact h.allFail
  · exact h.svcFile
  · exact h.svcFile
  · split
    · exact h.allLanes
    · exact h.allFail
  · exact h.svcSocket
  · exact h.svcConnect
  · exact h.svcSend
  · exact h.svcRecv
  · exact h.allLanes
  · exact h.svcLog
  · exact h.allFail

theorem State.Canon.savedCaller {q n e} (h : s.Canon) : (s.savedCaller q n e).Canon := by
  refine List.foldlRecOn _ _ (b := .ok _ s) (motive := EngRes.Canon) h fun r hr x _ => hr.andThen fun found t ht => ?_
  split
  · exact ht
  · exact ht.readImage.andThen fun _ _ hu => hu

theorem State.Canon.deliverSaved {cl n e r m} (h : s.Canon) : (s.deliverSaved cl n e r m).Canon := by
  unfold State.deliverSaved
  refine h.savedCaller.andThen fun found t ht => ?_
  split
  · exact ht.updCore
  · refine ht.engNum.andThen fun sz t ht => ?_
    extract_lets size put
    have hput : ∀ row f {t : State}, t.Canon → (put row f t).Canon := by
      intro row f t ht
      unfold put
      split
      · exact ht
      · exact List.foldlRecOn _ _ (b := .ok () t) (motive := EngRes.Canon) ht fun _ hr _ _ => hr.andThen
            fun _ _ hu => hu.engWrite
    clear_value put
    refine (hput _ _ ht).andThen fun _ t ht => ?_
    refine (hput _ _ ht).andThen fun _ t ht => ?_
    refine (hput _ _ ht).andThen fun _ t ht => ?_
    have hu : (t.updCore n fun c => c.addDone e m).Canon := ht.updCore
    generalize t.updCore n (fun c => c.addDone e m) = u at hu ⊢
    dsimp only
    generalize (u.core n).kdone e = done, (u.core n).klanes e = lanes
    split
    · exact hu
    · exact hu.engWrite.andThen fun _ _ h₁ => h₁.engWrite.andThen fun _ _ h₂ => h₂.engWrite.andThen fun _ _ h₃ =>
          h₃.updCore

theorem State.Canon.deliverGroup {cl e r} (h : s.Canon) : (s.deliverGroup cl e r).Canon := by
  unfold State.deliverGroup
  dsimp only
  split
  · exact h
  · split
    · exact h.deliverSaved
    · exact h.updCore

theorem State.Canon.deliverJobs {cl} (h : s.Canon) : (s.deliverJobs cl).Canon := by
  refine h.foldl fun t j ht => ?_
  split
  · split
    · exact (ht.deliverGroup.of_ok ‹_›).of_mem (by rfl)
    · exact ht.deliverGroup.of_busy ‹_›
    · exact ht
  · exact ht

theorem State.Canon.execNvmeCompletion {k ok} (h : s.Canon) : NextCanon (Machine.execNvmeCompletion k ok s) := by
  unfold Machine.execNvmeCompletion
  split
  · exact h
  · next f _ =>
    extract_lets finish x b grow
    have hf : ∀ n st {t : State}, t.Canon → NextCanon (finish n st t) := fun _ _ _ ht =>
        (ht.of_mem (by rfl)).deliverJobs
    have hg : ∀ n {w : State}, w.Canon → (grow w n).Canon := fun _ _ hw => State.Canon.ite hw.flashPut hw
    clear_value finish grow
    split
    · exact hf _ _ h
    · split
      · have hu : EngRes.Canon (s.userAccess f.cluster x false (s.engRead x.eng f.va f.n)) := h.userAccess h.engRead
        split
        · exact hu.of_busy ‹_›
        · next bs t e =>
          have ht : (t.flashPut f.off bs).Canon := (hu.of_ok e).flashPut
          exact hf _ _ (ht.foldl fun _ _ hw => hg _ hw)
        · exact hf _ _ h
      · have hu : EngRes.Canon (s.userAccess f.cluster x true (s.engWrite x.eng f.va (s.flashBytes f.off f.n))) :=
            h.userAccess h.engWrite
        split
        · exact hu.of_busy ‹_›
        · exact hf _ _ (hu.of_ok ‹_›)
        · exact hf _ _ h

theorem State.Canon.ask {c k lanes t u} (h : s.Canon) (e : s.ask c k lanes t = some u) : u.Canon := by
  revert e
  unfold State.ask
  split
  · nofun
  · dsimp only
    rintro ⟨⟩
    exact h.of_mem rfl

theorem State.Canon.serveCall {cl e ev} (h : s.Canon) : (s.serveCall cl e ev).Canon := by
  unfold State.serveCall
  extract_lets n k c served begun left
  have hs : ∀ {t : State}, t.Canon → (served t).Canon := fun ht => ht.updCore
  clear_value left
  split
  · exact hs h
  · cases left with
    | nil => exact hs h
    | cons L rest =>
      dsimp only
      split
      · split
        · exact (h.of_mem (by rfl)).deliverJobs
        · split
          · exact (h.ask ‹_›).of_mem (by rfl)
          · exact h
      · split
        · exact h.svcGroup.of_busy ‹_›
        · exact ((h.svcGroup.of_done ‹_›).of_mem (by rfl)).deliverJobs
        · exact (h.svcGroup.of_flash ‹_›).of_mem (by rfl)

theorem State.Canon.serveFault {cl n p f} (h : s.Canon) : (s.serveFault cl n p f).Canon := by
  unfold State.serveFault
  extract_lets x kind
  split
  · exact h.servePage
  · split
    · split
      · exact h.engXlate.of_busy ‹_›
      · exact h
      · next pa _ t e =>
        have ht : t.Canon := h.engXlate.of_ok e
        extract_lets w u
        have hu : u.Canon := ht.foldl fun _ _ hx => hx.dropOwner
        exact EngRes.Canon.ite ht (EngRes.Canon.ite ht.drainWord (State.Canon.countEnci hu.setReg.setWord))
    · exact h

theorem State.Canon.serveFaults {cl n p a3} (h : s.Canon) : (s.serveFaults cl n p a3).Canon := by
  induction a3 generalizing s with
  | nil => exact h
  | cons f fs ih =>
    unfold State.serveFaults
    exact h.serveFault.andThen fun _ _ ht => EngRes.Canon.ite (ih ht) ht

theorem State.Canon.trySave {cl n p} (h : s.Canon) : (s.trySave cl n p).Canon := by
  unfold State.trySave
  extract_lets c slots unbegun mine
  split
  · exact h
  · split
    next z t e =>
    have ht : t.Canon := h.draw.of_snd e
    split
    · next w k =>
      extract_lets u
      have hu : u.Canon := (ht.saveWg.of_ok k).updCore
      exact hu.of_mem rfl
    · exact ht.saveWg.of_busy ‹_›
    · split
      · exact ht
      · refine ht.foldl fun w k hw => ?_
        split
        · exact hw.killPack
        · exact hw

theorem State.Canon.serveStop {cl e ev} (h : s.Canon) : (s.serveStop cl e ev).Canon := by
  unfold State.serveStop
  extract_lets n k served
  have hs : ∀ {t : State}, t.Canon → (served t).Canon := fun ht => ht.updCore
  clear_value served
  split
  · exact hs h
  · next p _ =>
    split
    · exact hs h
    · extract_lets faults
      have hf : EngRes.Canon (if p.settledStop then .ok none s else State.serveFaults cl n p faults s) :=
        EngRes.Canon.ite h h.serveFaults
      split
      · exact hf.of_busy ‹_›
      · exact h
      · next code t e =>
        have ht : t.Canon := hf.of_ok e
        exact hs (ht.ite ht.killPack)
      · next t e =>
        extract_lets u
        have hu : u.Canon := (hf.of_ok e).updCore
        exact hu.trySave.ite (hs hu.resumePack)

theorem State.Canon.serveRegdead {n} (h : s.Canon) : (s.serveRegdead n).Canon := by
  unfold State.serveRegdead
  extract_lets c growing
  split
  · exact h
  · extract_lets wgs
    refine h.foldl fun t m ht => ht.foldl fun u x hu => ?_
    extract_lets w
    have hw : w.Canon := hu.foldl fun _ _ hy => hy.preempt
    exact hw.of_mem rfl

theorem State.Canon.loadAny {cores area u} (h : s.Canon) (e : s.loadAny cores area = some u) : u.Canon := by
  obtain ⟨n, -, k⟩ := List.exists_of_findSome?_eq_some e
  split at k
  · next t kt =>
    cases k
    exact h.loadWg.of_ok kt
  · cases k

theorem State.Canon.loadAll {cores a1} {u} (h : s.Canon) (e : Machine.loadAll cores a1 s = some u) : u.Canon := by
  induction a1 generalizing s with
  | nil => cases e; exact h
  | cons a as ih =>
    obtain ⟨n, -, k⟩ := List.exists_of_findSome?_eq_some e
    split at k
    · next t kt => exact ih (h.loadWg.of_ok kt) k
    · cases k

theorem State.Canon.fetchImages {q a1} {u} (h : s.Canon) (e : s.fetchImages q a1 = some u) : u.Canon := by
  induction a1 with
  | nil => cases e
  | cons a as ih =>
    unfold State.fetchImages at e
    split at e
    · cases e
      exact h.readImage.of_busy ‹_›
    · exact ih e

theorem State.Canon.restore {cl} (h : s.Canon) : (s.restore cl).Canon := by
  unfold State.restore
  split
  · exact h
  · extract_lets d
    split
    · exact h
    · refine h.getD fun t e => ?_
      obtain ⟨x, -, k⟩ := List.exists_of_findSome?_eq_some e
      split at k
      · cases k
      · split at k
        · cases k
        · extract_lets wgs here areas at k
          split at k
          · cases k
          · split at k
            · next u ku =>
              cases k
              exact h.fetchImages ku
            · exact h.loadAll k

theorem State.Canon.planWrite {n a v u} (h : s.Canon) (e : s.planWrite n a v = some u) : u.Canon := by
  revert e
  unfold State.planWrite
  dsimp only
  split
  · rintro ⟨⟩
    exact h.regWrite
  · split
    · split
      · nofun
      · rintro ⟨⟩
        exact h.regWrite.regWrite.regWrite.regWrite
    · rintro ⟨⟩
      exact h.regWrite

theorem State.Canon.planStep {n a2 u} (h : s.Canon) (e : s.planStep n a2 = some u) : u.Canon := by
  revert e
  unfold State.planStep
  split
  · exact h.planWrite
  · split
    · split
      · rintro ⟨⟩
        exact (h.writeBytes.of_ok ‹_›).of_mem (by rfl)
      · rintro ⟨⟩
        exact (h.writeBytes.of_busy ‹_›).of_mem (by rfl)
      · rintro ⟨⟩
        exact h
    · split
      · nofun
      · rintro ⟨⟩
        exact h
  · rintro ⟨⟩
    exact h.of_mem rfl
  · rintro ⟨⟩
    exact h.of_mem rfl
  · rintro ⟨⟩
    exact h.of_mem rfl
  · split
    · split
      · rintro ⟨⟩
        exact (h.postPacket.of_ok ‹_›).of_mem (by rfl)
      · rintro ⟨⟩
        exact (h.postPacket.of_busy ‹_›).of_mem (by rfl)
      · rintro ⟨⟩
        exact h
    · rintro ⟨⟩
      exact (h.desc.of_busy ‹_›).of_mem (by rfl)
    · rintro ⟨⟩
      exact h

theorem State.Canon.applyPlan {n} (h : s.Canon) : (s.applyPlan n).Canon := by
  unfold State.applyPlan
  split
  · exact h
  · split
    · exact h.of_mem rfl
    · split
      · exact h.getD fun _ e => (h.of_mem (by rfl)).planStep e
      · extract_lets held
        have ht : ({ s with planDone := true, heldWrites := [] } : State).Canon := h.of_mem rfl
        exact ht.foldl fun _ _ hu => hu.regWrite

theorem State.Canon.buildPools {p} (h : s.Canon) : (s.buildPools p).Canon := by
  unfold State.buildPools
  extract_lets shards fs t
  have ht : t.Canon := h.foldl fun _ _ hu => hu.of_mem rfl
  exact ht.of_mem rfl

theorem State.Canon.poolTurn {n} (h : s.Canon) : (s.poolTurn n).Canon := by
  unfold State.poolTurn
  split
  · exact h
  · split
    · exact h.buildPools
    · exact h

theorem State.Canon.serveFrames {cl m} (h : s.Canon) : (s.serveFrames cl m).Canon := by
  unfold State.serveFrames
  split
  · extract_lets pool n t
    have ht : t.Canon := State.Canon.sendMail (h.of_mem (by rfl))
    exact ht.of_mem rfl
  · extract_lets fs t
    have ht : t.Canon := h.foldl fun _ _ hu => hu.giveFrame
    exact ht.of_mem rfl

theorem State.Canon.serveIoreq {cl m} {take : State → State} (h : s.Canon) (h1 : ∀ x0, x0.Canon → (take x0).Canon) :
    (s.serveIoreq cl m take).Canon := by
  unfold State.serveIoreq
  split
  · exact h1 _ h
  · dsimp only
    split
    · exact h.svcGroup.of_busy ‹_›
    · exact (h1 _ (h.svcGroup.of_done ‹_›)).sendMail
    · exact (h1 _ (h.svcGroup.of_done ‹_›)).sendMail
    · exact (h1 _ ((h.svcGroup.of_flash ‹_›).of_mem (by rfl))).sendMail

theorem State.Canon.serveIodone {cl m} (h : s.Canon) : (s.serveIodone cl m).Canon := by
  unfold State.serveIodone
  split
  · exact h
  · dsimp only
    split
    · exact h.of_mem rfl
    · exact (h.of_mem (by rfl)).deliverJobs

theorem State.Canon.serveMail {cl m} (h : s.Canon) : (s.serveMail cl m).Canon := by
  unfold State.serveMail
  extract_lets take type r
  have ht : ∀ {u : State}, u.Canon → (take u).Canon := fun hu => hu.updCore
  have hr : r.2.Canon := h.shardInval
  clear_value r
  refine .ite (hr.ite (ht hr).sendMail) (.ite ((ht h).of_mem rfl) (.ite (h.ite (ht h).serveFrames) ?_))
  refine .ite (h.ite (h.serveIoreq fun _ hs => ht hs)) (.ite (ht h).serveIodone (.ite ?_ (ht h)))
  exact (ht h).getD fun _ e => (ht h).loadAny e

theorem State.Canon.serveEvent {cl e} (h : s.Canon) : (s.serveEvent cl e).Canon :=
  (h.serveCall.ite h.serveStop).ite (h.serveRegdead.updCore.ite h.updCore)

theorem State.Canon.serveBoot {n} (h : s.Canon) : (s.serveBoot n).Canon := by
  unfold State.serveBoot
  split
  · exact h
  · split
    · exact h.sendMail.bootAnswer.ite h
    · split
      · exact h.startShard
      · exact h

theorem State.Canon.serveEngine {cl} (h : s.Canon) : (s.serveEngine cl).Canon := by
  unfold State.serveEngine
  split
  · exact h
  · next i _ =>
    split
    · exact h
    · split
      · exact h.servePage.of_busy ‹_›
      · exact h
      · next t e =>
        have ht : t.Canon := h.servePage.of_ok e
        split
        · exact ht.execEngineFaultResume.of_next ‹_›
        · exact ht

theorem State.Canon.firstChange {a1 : List (State → State)} (h : s.Canon)
    (h1 : ∀ u ∈ a1, ∀ x0, x0.Canon → (u x0).Canon) :
    (Machine.firstChange s a1).Canon := by
  induction a1 with
  | nil => exact h
  | cons f fs ih =>
    unfold Machine.firstChange
    dsimp only
    split
    · exact ih fun g hg => h1 g (List.mem_cons_of_mem f hg)
    · exact h1 f List.mem_cons_self s h

theorem State.Canon.zumosTurn {n} (h : s.Canon) : (s.zumosTurn n).Canon := by
  unfold State.zumosTurn
  extract_lets c es svc rest calls
  split
  · exact h
  · have hl (cs : List SvcEvent) (ms : List Mail) : Changes.Canon
        ((fun s : State => s.serveBoot n) :: (fun s : State => s.installTurn n) :: (fun s : State => s.deliverJobs n)
            ::
          cs.map (fun e => fun s : State => s.serveEvent n e) ++ ms.map (fun m => fun s : State => s.serveMail n m) ++
          [fun s : State => s.serveEngine n, fun s : State => s.restore n, fun s : State => s.applyPlan n,
              fun s : State => s.poolTurn n]) :=
      .append (.append (.cons (fun _ ht => ht.serveBoot) <| .cons (fun _ ht => ht.installTurn) <| .cons
          (fun _ ht => ht.deliverJobs) <|
        .map fun _ _ ht => ht.serveEvent) (.map fun _ _ ht => ht.serveMail))
      (.cons (fun _ ht => ht.serveEngine) <| .cons (fun _ ht => ht.restore) <| .cons (fun _ ht => ht.applyPlan) <|
        .cons (fun _ ht => ht.poolTurn) .nil)
    exact h.firstChange (hl _ _)

end Sys2Proof.Machine
end

section
/-! Memory's canonical form across every instruction and event. -/

namespace Sys2Proof.Machine

variable {s : State} {v : View}

theorem State.Canon.exec {i} (h : s.Canon) : NextCanon (Machine.exec i s) := by
  unfold Machine.exec
  cases i with
  | sadd => exact h.execSadd
  | ssub => exact h.execSsub
  | smul => exact h.execSmul
  | smulh => exact h.execSmulh
  | smulhn => exact h.execSmulhn
  | sdiv => exact h.execSdiv
  | sdivn => exact h.execSdivn
  | srem => exact h.execSrem
  | sremn => exact h.execSremn
  | sand => exact h.execSand
  | sor => exact h.execSor
  | sxor => exact h.execSxor
  | sandn => exact h.execSandn
  | sshl => exact h.execSshl
  | sshr => exact h.execSshr
  | ssra => exact h.execSsra
  | smin => exact h.execSmin
  | smax => exact h.execSmax
  | sminn => exact h.execSminn
  | smaxn => exact h.execSmaxn
  | sclz => exact h.execSclz
  | spopc => exact h.execSpopc
  | sbfx => exact h.execSbfx
  | sbfi => exact h.execSbfi
  | ssel => exact h.execSsel
  | smov => exact h.execSmov
  | smovi => exact h.execSmovi
  | scmp => exact h.execScmp
  | amovi => exact h.execAmovi
  | aadd => exact h.execAadd
  | asub => exact h.execAsub
  | aadds => exact h.execAadds
  | amuls => exact h.execAmuls
  | ashls => exact h.execAshls
  | psa => exact h.execPsa
  | psv => exact h.execPsv
  | pav => exact h.execPav
  | vpick => exact h.execVpick
  | vballot => exact h.execVballot
  | vany => exact h.execVany
  | vall => exact h.execVall
  | vredadd => exact h.execVredadd
  | vredmin => exact h.execVredmin
  | vredmax => exact h.execVredmax
  | agetb => exact h.execAgetb
  | agets => exact h.execAgets
  | vadd => exact h.execVadd
  | vsub => exact h.execVsub
  | vmul => exact h.execVmul
  | vmulh => exact h.execVmulh
  | vmulhn => exact h.execVmulhn
  | vmad => exact h.execVmad
  | vdiv => exact h.execVdiv
  | vdivn => exact h.execVdivn
  | vrem => exact h.execVrem
  | vremn => exact h.execVremn
  | vand => exact h.execVand
  | vor => exact h.execVor
  | vxor => exact h.execVxor
  | vandn => exact h.execVandn
  | vnot => exact h.execVnot
  | vshl => exact h.execVshl
  | vshr => exact h.execVshr
  | vsra => exact h.execVsra
  | vmin => exact h.execVmin
  | vmax => exact h.execVmax
  | vminn => exact h.execVminn
  | vmaxn => exact h.execVmaxn
  | vabs => exact h.execVabs
  | vneg => exact h.execVneg
  | vclz => exact h.execVclz
  | vpopc => exact h.execVpopc
  | vbfx => exact h.execVbfx
  | vbfi => exact h.execVbfi
  | vsel => exact h.execVsel
  | vmov => exact h.execVmov
  | vmovi => exact h.execVmovi
  | vcmp => exact h.execVcmp
  | vsat => exact h.execVsat
  | pand => exact h.execPand
  | por => exact h.execPor
  | pxor => exact h.execPxor
  | pnot => exact h.execPnot
  | pmov => exact h.execPmov
  | vfadd => exact h.execVfadd
  | vfsub => exact h.execVfsub
  | vfmul => exact h.execVfmul
  | vfma => exact h.execVfma
  | vfmin => exact h.execVfmin
  | vfmax => exact h.execVfmax
  | vfcmp => exact h.execVfcmp
  | vfclass => exact h.execVfclass
  | vfrnd => exact h.execVfrnd
  | vfrcp => exact h.execVfrcp
  | vfrsq => exact h.execVfrsq
  | vfsqrt => exact h.execVfsqrt
  | vfdiv => exact h.execVfdiv
  | vfexp2 => exact h.execVfexp2
  | vflog2 => exact h.execVflog2
  | vfsin => exact h.execVfsin
  | vfcos => exact h.execVfcos
  | vftanh => exact h.execVftanh
  | vcvt => exact h.execVcvt
  | vpack => exact h.execVpack
  | vunpack => exact h.execVunpack
  | vhadd2 => exact h.execVhadd2
  | vhmul2 => exact h.execVhmul2
  | vhfma2 => exact h.execVhfma2
  | sfadd => exact h.execSfadd
  | sfmul => exact h.execSfmul
  | sfma => exact h.execSfma
  | sfcvt => exact h.execSfcvt
  | vshfl => exact h.execVshfl
  | vbcast => exact h.execVbcast
  | vprmt => exact h.execVprmt
  | vscan => exact h.execVscan
  | vdrop => exact h.execVdrop
  | vhash => exact h.execVhash
  | sld => exact h.execSld
  | sst => exact h.execSst
  | vld => exact h.execVld
  | vst => exact h.execVst
  | vlds => exact h.execVlds
  | vsts => exact h.execVsts
  | slds => exact h.execSlds
  | ssts => exact h.execSsts
  | vldq => exact h.execVldq
  | vstl => exact h.execVstl
  | sldq => exact h.execSldq
  | sstl => exact h.execSstl
  | vatom => exact h.execVatom
  | satom => exact h.execSatom
  | vlr => exact h.execVlr
  | vsc => exact h.execVsc
  | fence => exact h.execFence
  | acq => exact h.execAcq
  | rel => exact h.execRel
  | invr => exact h.execInvr
  | inva => exact h.execInva
  | reg => exact h.execReg
  | dereg => exact h.execDereg
  | pref => exact h.execPref
  | waita => exact h.execWaita
  | xfer => exact h.execXfer
  | msgsend => exact h.execMsgsend
  | msgrecv => exact h.execMsgrecv
  | msgfree => exact h.execMsgfree
  | barinit => exact h.execBarinit
  | bararr => exact h.execBararr
  | barwait => exact h.execBarwait
  | bartry => exact h.execBartry
  | mma => exact h.execMma
  | mmas => exact h.execMmas
  | mscale => exact h.execMscale
  | mzero => exact h.execMzero
  | mcvt => exact h.execMcvt
  | tfpin => exact h.execTfpin
  | tfrel => exact h.execTfrel
  | bra => exact h.execBra
  | brv => exact h.execBrv
  | brx => exact h.execBrx
  | call => exact h.execCall
  | ret => exact h.execRet
  | exit => exact h.execExit
  | sync => exact h.execSync
  | waitq => exact h.execWaitq
  | yield => exact h.execYield
  | nop => exact h.execNop
  | trap => exact h.execTrap
  | bkpt => exact h.execBkpt
  | svc => exact h.execSvc
  | qpost => exact h.execQpost
  | reggrow => exact h.execReggrow
  | regshrink => exact h.execRegshrink
  | srd => exact h.execSrd
  | swr => exact h.execSwr
  | sres => exact h.execSres
  | pctxsv => exact h.execPctxsv
  | pctxld => exact h.execPctxld
  | tlbinv => exact h.execTlbinv
  | mbxsend => exact h.execMbxsend
  | mbxrecv => exact h.execMbxrecv
  | zap => exact h.execZap
  | halt => exact h.execHalt
  | iret => exact h.execIret
  | pstop => exact h.execPstop
  | pstopGo => exact h.execPstopGo
  | pstopEnd => exact h.execPstopEnd
  | swrp => exact h.execSwrp
  | dovetail => exact h.execDovetail
  | uncorrectableError => exact h.execUncorrectableError
  | coreQuarantine => exact h.execCoreQuarantine
  | partitionEnable => exact h.execPartitionEnable
  | partitionDisable => exact h.execPartitionDisable
  | partitionReset => exact h.execPartitionReset
  | partitionResetDone => exact h.execPartitionResetDone
  | frameRebind => exact h.execFrameRebind
  | notify => exact h.execNotify
  | cnotify => exact h.execCnotify
  | scStart => exact h.execScStart
  | fnBindWrite => exact h.execFnBindWrite
  | attestationRequest => exact h.execAttestationRequest
  | attResume => exact h.execAttResume
  | ownerEnroll => exact h.execOwnerEnroll
  | ownerRevoke => exact h.execOwnerRevoke
  | migrationGo => exact h.execMigrationGo
  | migrationForce => exact h.execMigrationForce
  | migrationDone => exact h.execMigrationDone
  | tgJoin => exact h.execTgJoin
  | tgLeave => exact h.execTgLeave
  | viewInstall => exact h.execViewInstall
  | verifyDone => exact h.execVerifyDone
  | leaseExpiry => exact h.execLeaseExpiry
  | timeBaseBroadcast => exact h.execTimeBaseBroadcast
  | broadcastTimeout => exact h.execBroadcastTimeout
  | coreClockGate => exact h.execCoreClockGate
  | correctedError => exact h.execCorrectedError
  | l1LineError => exact h.execL1LineError
  | sliceScrubDone => exact h.execSliceScrubDone
  | metadataInitDone => exact h.execMetadataInitDone
  | partitionKeyingDone => exact h.execPartitionKeyingDone
  | partitionReleaseDone => exact h.execPartitionReleaseDone
  | frameRebindDone => exact h.execFrameRebindDone
  | walkReadAnswer => exact h.execWalkReadAnswer
  | fairnessTimer => exact h.execFairnessTimer
  | overdueSplit => exact h.execOverdueSplit
  | heelArrival => exact h.execHeelArrival
  | splitMeet => exact h.execSplitMeet
  | forcedReconvergence => exact h.execForcedReconvergence
  | landingBufferWrite => exact h.execLandingBufferWrite
  | divisionComplete => exact h.execDivisionComplete
  | specialFunctionComplete => exact h.execSpecialFunctionComplete
  | tileLineArrival => exact h.execTileLineArrival
  | matrixExecute => exact h.execMatrixExecute
  | matrixComplete => exact h.execMatrixComplete
  | watchdog => exact h.execWatchdog
  | stopComplete => exact h.execStopComplete
  | waitaTimeout => exact h.execWaitaTimeout
  | instructionFetchFault => exact h.execInstructionFetchFault
  | transferAccept => exact h.execTransferAccept
  | transferChunkStart die =>
    -- The whole implication: applied to `h`, its conclusion would be evaluated over the sixteen cores of the die.
    revert h
    exact @State.Canon.execTransferChunkStart s die
  | transferChunkDone => exact h.execTransferChunkDone
  | messageAppend => exact h.execMessageAppend
  | creditReturn => exact h.execCreditReturn
  | remoteArrival => exact h.execRemoteArrival
  | remoteArrivalReply => exact h.execRemoteArrivalReply
  | hubHeldDelivery => exact h.execHubHeldDelivery
  | reggrowGrant => exact h.execReggrowGrant
  | registerDeadlock => exact h.execRegisterDeadlock
  | workgroupDispatch => exact h.execWorkgroupDispatch
  | packEnd => exact h.execPackEnd
  | launchComplete => exact h.execLaunchComplete
  | engineRound => exact h.execEngineRound
  | waitTimeout => exact h.execWaitTimeout
  | sliceExpiry => exact h.execSliceExpiry
  | laneRotation => exact h.execLaneRotation
  | engineFaultResume => exact h.execEngineFaultResume
  | haltWake => exact h.execHaltWake
  | mbxrecvWake => exact h.execMbxrecvWake
  | hostApertureRead => exact h.execHostApertureRead
  | hostApertureWrite => exact h.execHostApertureWrite
  | hostApertureAtomic => exact h.execHostApertureAtomic
  | hostCompletion => exact h.execHostCompletion
  | vfFlr => exact h.execVfFlr
  | pfFlr => exact h.execPfFlr
  | attestationDone => exact h.execAttestationDone
  | activationGo => exact h.execActivationGo
  | activationDone => exact h.execActivationDone
  | migrationQuiesced => exact h.execMigrationQuiesced
  | brevorData => exact h.execBrevorData
  | brevorAck => exact h.execBrevorAck
  | brevorNak => exact h.execBrevorNak
  | brevorControl => exact h.execBrevorControl
  | retransmitTimeout => exact h.execRetransmitTimeout
  | collectiveRingPoll => exact h.execCollectiveRingPoll
  | collectiveComplete => exact h.execCollectiveComplete
  | ethernetFrameReceive => exact h.execEthernetFrameReceive
  | nvmeCompletion => exact h.execNvmeCompletion
  | powerGood => exact h.execPowerGood
  | hubBringupDone => exact h.execHubBringupDone
  | clusterBistDone => exact h.execClusterBistDone
  | fullRateChange => exact h.execFullRateChange
  | recoveryImageLoad => exact h.execRecoveryImageLoad
  | powerControlTick => exact h.execPowerControlTick
  | thermalTrip => exact h.execThermalTrip
  | powerLoss => exact h.execPowerLoss
  | registerWrite => exact h.execRegisterWrite
  | rdc => exact h.execRdc
  | rdn => exact h.execRdn
  | regw => exact h.execRegw
  | ewr => exact h.execEwr
  | atm => exact h.execAtm
  | wbd => exact h.execWbd
  | loss => exact h.execLoss
  | zapw => exact h.execZapw
  | notheld => exact h.execNotheld
  | race => exact h.execRace
  | callbackDone => exact h.execCallbackDone
  | staleAck => exact h.execStaleAck
  | fwd => exact h.execFwd
  | recallWord => exact h.execRecallWord
  | callback => exact h.execCallback
  | drop => exact h.execDrop
  | grant => exact h.execGrant
  | data => exact h.execData
  | faultAnswer => exact h.execFaultAnswer
  | stale => exact h.execStale

end Sys2Proof.Machine
end

section
/-! Memory's canonical form across the machine's own schedule. -/

namespace Sys2Proof.Machine

variable {s : State} {v : View}

theorem State.Canon.after {o : Host.Outcome State Fault Refusal} (h : NextCanon o) (h1 : s.Canon) :
    (Machine.after o s).Canon := by
  unfold Machine.after
  split
  · exact h
  · exact h1

theorem State.Canon.issueSite {p} (h : s.Canon) : NextCanon (s.issueSite p) := by
  unfold State.issueSite
  split
  · exact h
  · split
    · exact ((((h.selectable ‹_›).lookIssue).of_run ‹_›).of_mem (by rfl)).exec
    · exact (((h.selectable ‹_›).lookIssue).of_flaw ‹_›).raise
    · exact ((h.selectable ‹_›).lookIssue).of_wait ‹_›

theorem State.Canon.pass {ns} (h : s.Canon) : (s.pass ns).Canon := h.of_mem rfl

theorem State.Canon.deliverMsg {m} (h : s.Canon) : (s.deliverMsg m).Canon := by
  unfold State.deliverMsg
  split
  · exact h
  · refine State.Canon.after ?_ h
    split
    · exact h.execRdc
    · exact h.execRdn
    · exact h.execRegw
    · exact h.execEwr
    · exact h.execAtm
    · exact h.execWbd
    · exact h.execLoss
    · exact h.execZapw
    · exact h.execNotheld
    · exact h.execRace
    · exact h.execCallbackDone
    · exact h.execStaleAck
    · exact h.execFwd
    · exact h.execRecallWord
    · exact h.execCallback
    · exact h.execDrop
    · exact h.execGrant
    · exact h.execData
    · exact h.execData
    · exact h.execData
    · exact h.execData
    · exact h.execFaultAnswer
    · exact h.execStale

theorem State.Canon.firstIssue {a1 u} (h : s.Canon) (e : Machine.firstIssue s a1 = some u) : NextCanon u := by
  induction a1 with
  | nil => cases e
  | cons p ps ih =>
    unfold Machine.firstIssue at e
    split at e
    · next t k =>
      split at e
      · exact ih e
      · cases e
        exact h.issueSite.of_next k
    · cases e
      exact h.issueSite

theorem ev_canon {f : State → Host.Outcome State Fault Refusal} (h : ∀ t : State, t.Canon → NextCanon (f t))
    (t : State) (ht : t.Canon) :
    (ev f t).Canon := State.Canon.after (h t ht) ht

theorem packEvents_canon (n slot : Nat) : Changes.Canon (packEvents n slot) :=
  .append (.cons (ev_canon fun _ ht => ht.execStopComplete) <| .cons (ev_canon fun _ ht => ht.execPackEnd) .nil) <|
    .flatMap fun _ => .append (.cons (ev_canon fun _ ht => ht.execHeelArrival) <|
      .cons (ev_canon fun _ ht => ht.execForcedReconvergence) <| .cons (ev_canon fun _ ht => ht.execWaitaTimeout) <|
        .cons (ev_canon fun _ ht => ht.execWatchdog) .nil)
      (.map fun _ => ev_canon fun _ ht => ht.execSplitMeet)

theorem coreEvents_canon (s : State) (n : Nat) : Changes.Canon (s.coreEvents n) := by
  have landed : Changes.Canon [ev (execLandingBufferWrite n), ev (execDivisionComplete n), ev
      (execSpecialFunctionComplete n)] :=
    .cons (ev_canon fun _ ht => ht.execLandingBufferWrite) <| .cons (ev_canon fun _ ht => ht.execDivisionComplete) <|
      .cons (ev_canon fun _ ht => ht.execSpecialFunctionComplete) .nil
  have matrix : Changes.Canon [ev (execMatrixComplete n), ev (execMatrixExecute n)] :=
    .cons (ev_canon fun _ ht => ht.execMatrixComplete) <| .cons (ev_canon fun _ ht => ht.execMatrixExecute) .nil
  have grown : Changes.Canon [ev (execReggrowGrant n), ev (execRegisterDeadlock n)] :=
    .cons (ev_canon fun _ ht => ht.execReggrowGrant) <| .cons (ev_canon fun _ ht => ht.execRegisterDeadlock) .nil
  exact .append (.append (.append (.append (.append (.append landed (.map fun _ => ev_canon fun _ ht =>
      ht.execTileLineArrival)) matrix)
    (.flatMap fun _ => packEvents_canon _ _)) grown) (.ite (.cons (ev_canon fun _ ht => ht.execBroadcastTimeout)
        .nil) .nil))
    (.map fun _ => ev_canon fun _ ht => ht.execLeaseExpiry)

theorem moveEvents_canon (s : State) : Changes.Canon s.moveEvents := by
  have moved (d : Nat) : Changes.Canon [ev (execTransferAccept d), ev (execTransferChunkStart d), ev
      (execTransferChunkDone d 0)] :=
    .cons (ev_canon fun _ ht => ht.execTransferAccept) <| .cons (ev_canon (@State.Canon.execTransferChunkStart · d))
        <|
      .cons (ev_canon fun _ ht => ht.execTransferChunkDone) .nil
  have remote (k : Nat) : Changes.Canon [ev (execMessageAppend k), ev (execRemoteArrival k), ev
      (execRemoteArrivalReply k), ev (execHubHeldDelivery k)] :=
    .cons (ev_canon fun _ ht => ht.execMessageAppend) <| .cons (ev_canon fun _ ht => ht.execRemoteArrival) <|
      .cons (ev_canon fun _ ht => ht.execRemoteArrivalReply) <| .cons (ev_canon fun _ ht => ht.execHubHeldDelivery)
          .nil
  exact .append (.append (.append (.append (.append (.append (.map fun _ _ ht => ht.deliverMsg)
    (.map fun _ => ev_canon fun _ ht => ht.execWalkReadAnswer)) (.flatMap moved)) (.flatMap remote))
    (.map fun _ => ev_canon fun _ ht => ht.execCreditReturn))
    (.cons (ev_canon fun _ ht => ht.execHostCompletion) <| .cons (fun _ ht => ht.drainAper) .nil))
    (.map fun _ => ev_canon fun _ ht => ht.execNvmeCompletion)

theorem hubEvents_canon (s : State) : Changes.Canon s.hubEvents := by
  have partition (p : Nat) : Changes.Canon [ev (execSliceExpiry p), ev (execWorkgroupDispatch p), ev
      (execPartitionKeyingDone p),
      ev (execPartitionResetDone p), ev (execPartitionReleaseDone p)] :=
    .cons (ev_canon fun _ ht => ht.execSliceExpiry) <| .cons (ev_canon fun _ ht => ht.execWorkgroupDispatch) <|
      .cons (ev_canon fun _ ht => ht.execPartitionKeyingDone) <| .cons
          (ev_canon fun _ ht => ht.execPartitionResetDone) <|
        .cons (ev_canon fun _ ht => ht.execPartitionReleaseDone) .nil
  have slice (sl : Nat) : Changes.Canon [ev (execSliceScrubDone sl), ev (execMetadataInitDone sl)] :=
    .cons (ev_canon fun _ ht => ht.execSliceScrubDone) <| .cons (ev_canon fun _ ht => ht.execMetadataInitDone) .nil
  have function (f : Nat) : Changes.Canon [ev (execCollectiveRingPoll f), ev (execMigrationQuiesced f)] :=
    .cons (ev_canon fun _ ht => ht.execCollectiveRingPoll) <| .cons (ev_canon fun _ ht => ht.execMigrationQuiesced)
        .nil
  exact .append (.append (.append (.append (.append (.append (.append (.append (.append (.append (.append (.append
    (.map fun _ => ev_canon fun _ ht => ht.execEngineRound)
    (.map fun _ => ev_canon fun _ ht => ht.execWaitTimeout))
    (.map fun _ => ev_canon fun _ ht => ht.execLaneRotation))
    (.flatMap partition))
    (.map fun _ => ev_canon fun _ ht => ht.execLaunchComplete))
    (.flatMap slice))
    (.cons (ev_canon fun _ ht => ht.execFrameRebindDone) .nil))
    (.flatMap fun f => .ite (function f) .nil))
    (.map fun _ => ev_canon fun _ ht => ht.execCollectiveComplete))
    (.map fun _ => ev_canon fun _ ht => ht.execRetransmitTimeout))
    (.map fun _ => ev_canon fun _ ht => ht.execAttestationDone))
    (.map fun _ => ev_canon fun _ ht => ht.tryAgain))
    (.cons (ev_canon fun _ ht => ht.execActivationDone) .nil)

theorem shardEvents_canon : Changes.Canon shardEvents :=
  .flatMap fun _ => .cons (ev_canon fun _ ht => ht.execHaltWake) <| .cons (ev_canon fun _ ht => ht.execMbxrecvWake) <|
    .cons (fun _ ht => ht.zumosTurn) .nil

theorem bootEvents_canon : Changes.Canon bootEvents :=
  .append (.append (.cons (ev_canon fun _ ht => ht.execPowerGood) <| .cons (ev_canon fun _ ht => ht.execVerifyDone) <|
    .cons (ev_canon fun _ ht => ht.execHubBringupDone) .nil) (.map fun _ => ev_canon fun _ ht =>
        ht.execClusterBistDone))
    (.cons (ev_canon fun _ ht => ht.execFullRateChange) .nil)

theorem State.Canon.scheduled (h : s.Canon) : NextCanon s.scheduled := by
  unfold State.scheduled
  have hc : Changes.Canon (s.moveEvents ++ s.cores.flatMap (fun e => s.coreEvents e.1) ++ s.hubEvents ++ shardEvents
      ++ bootEvents) :=
    .append (.append (.append (.append (moveEvents_canon s) (.flatMap fun _ => coreEvents_canon s _))
        (hubEvents_canon s)) shardEvents_canon)
      bootEvents_canon
  refine .ite (h.firstChange hc) ?_
  cases e : Machine.firstIssue s (s.cores.flatMap (fun e => s.coreIssues e.1)) with
  | none => exact h.pass
  | some o => exact h.firstIssue e

end Sys2Proof.Machine
end

section
/-! Memory's canonical form across a step. -/

namespace Sys2Proof.Machine

variable {s : State} {v : View}

theorem State.Canon.step (h : s.Canon) : NextCanon (Machine.step s) := by
  unfold Machine.step
  split
  · exact h.scheduled
  · exact (h.of_mem (by rfl)).issueSite
  · split
    · exact h.of_mem rfl
    · exact (h.of_mem (by rfl)).exec
  · exact (h.of_mem (by rfl)).zumosTurn
  · exact (h.of_mem (by rfl)).pass
  · exact (h.of_mem (by rfl)).driftCore
  · exact (h.of_mem (by rfl)).muteCore

end Sys2Proof.Machine
end

section
/-! The obligation about memory's canonical form. -/

namespace Sys2Proof.Machine

/-- Settles O54: each function of the machine that hands the state on leaves memory canonical, and so does a step. -/
theorem memoryCanonical : Obligations.MemoryCanonical := fun _ _ h e => ((State.Canon.step (.mk h)).of_next e).wf

end Sys2Proof.Machine
end

section
/-! The events of partitions, bring-up and power (R20 to R31, R402 to R413): what each does once its guard is met. -/

namespace Sys2Proof.Machine

variable {p sl : Nat} {s : State}

/-- R20: an enable that meets a flaw only records it in ERRC. -/
theorem execPartitionEnable_flaw {e : Nat} (hst : s.partSt p = 0) (hen : s.enabled p = false) (hboot : fld (s.regVal bootStat) 0 3 ≠ 7)
    (he : s.enableFlaw p = some e) : execPartitionEnable p s = .next (s.putReg (partBase p + 0x30) 8 8 e) := by
  simp [execPartitionEnable, hst, hen, hboot, he]

/-- R21, R24: an enable without a flaw takes the slices, draws the keys and starts the scrub. -/
theorem execPartitionEnable_ok (hst : s.partSt p = 0) (hen : s.enabled p = false) (hboot : fld (s.regVal bootStat) 0 3 ≠ 7)
    (he : s.enableFlaw p = none) :
    let t := (s.putReg (partBase p) 0 1 1).putReg (partBase p + 0x30) 32 16 0
    let t := (t.partSlices p).foldl (fun (t : State) sl => t.putReg (sliceStat sl) 8 8 p) t
    execPartitionEnable p s = .next ((t.newKeys p).startScrub p) := by
  simp [execPartitionEnable, hst, hen, hboot, he]

/-- R21, R30: the end of a slice's scrub leaves it CLEAN, without bytes and marks; after the last slice of a SCRUBBING partition keying begins. -/
theorem execSliceScrubDone_eq (hown : s.sliceOwner sl = some p) (hbusy : s.sliceBusy sl = true) (hclean : s.clean sl = false)
    (hst : s.partSt p = 1 ∨ s.partSt p = 5) :
    let t : State := { s with
      mem := keep (fun a => !(decide (sl * 2 ^ 33 ≤ a) && decide (a < sl * 2 ^ 33 + 2 ^ 33))) s.mem, veils := del s.veils sl }
    let t := (((t.wipeMarks sl).stopSlice sl 8192).setClean sl true).pendDown p
    execSliceScrubDone sl s = .next (if t.partSt p = 1 ∧ t.pend p = 0 then t.startKeying p else t) := by
  have guard : (!s.sliceBusy sl || s.clean sl || !(s.partSt p = 1 || s.partSt p = 5)) = false := by
    rcases hst with h | h <;> simp [h, hbusy, hclean]
  simp only [execSliceScrubDone, hown, guard, Bool.and_eq_true, decide_eq_true_eq]
  rfl

/-- R27, R31: the end of a metadata initialisation gives the slice a fresh tree and no marks but poison (log entry 18), and PROG is 1,024
(log entry 19). -/
theorem execMetadataInitDone_eq (hown : s.sliceOwner sl = some p) (hbusy : s.sliceBusy sl = true) (hst : s.partSt p = 2) :
    let t : State := { ((s.freshTree p).wipeMarks sl) with poison := s.poison }
    execMetadataInitDone sl s = .next (((if t.clean sl then t else t.veilSlice sl).stopSlice sl 1024).pendDown p) := by
  have guard : (!s.sliceBusy sl || decide (s.partSt p ≠ 2)) = false := by simp [hbusy, hst]
  simp only [execMetadataInitDone, hown, guard]
  rfl

/-- R21, R31: keying ends once no slice is busy; the keys are loaded, no slice is CLEAN and the partition is READY. -/
theorem execPartitionKeyingDone_eq (hst : s.partSt p = 2) (hidle : (s.partSlices p).all (fun sl => !s.sliceBusy sl) = true) :
    execPartitionKeyingDone p s =
      .next ((s.partSlices p).foldl (fun (t : State) sl => t.setClean sl false) (((s.loadKeys p).setPend p 0).setSt p 3)) := by
  simp only [execPartitionKeyingDone, hst, hidle, decide_true, Bool.and_self, if_true]

/-- R21, R24: EN := 0 in READY destroys the keys and scrubs every slice in RELEASING. -/
theorem execPartitionDisable_ready (hst : s.partSt p = 3) :
    let t := ((s.wipePartition p).newKeys p).putReg (partBase p) 0 1 0
    execPartitionDisable p s =
      .next ((((t.partSlices p).foldl (fun (t : State) x => (t.setClean x false).startSlice x) t).setSt p 5).setPend p
        (t.partSlices p).length) := by
  simp only [execPartitionDisable, hst]

/-- R21, R24: RST := 1 in READY destroys the keys and the marks of every slice. -/
theorem execPartitionReset_ready (hst : s.partSt p = 3) :
    let t := (s.wipePartition p).newKeys p
    let u := (t.partSlices p).foldl (fun (t : State) sl => (t.setClean sl false).wipeMarks sl) t
    execPartitionReset p s = .next ((u.freshTree p).setSt p 4) := by
  simp only [execPartitionReset, hst]

/-- R21: a reset that is done starts the scrub. -/
theorem execPartitionResetDone_eq (hst : s.partSt p = 4) : execPartitionResetDone p s = .next (s.startScrub p) :=
  if_pos hst

/-- R21: once the scrub of a RELEASING partition has ended, its slices and the partition are FREE. -/
theorem execPartitionReleaseDone_eq (hst : s.partSt p = 5) (hpend : s.pend p = 0) :
    execPartitionReleaseDone p s = .next (((s.ownSlices p).foldl (fun (t : State) sl => t.freeSlice sl) s).setSt p 0) := by
  simp only [execPartitionReleaseDone, hst, hpend, decide_true, Bool.and_self, if_true]

/-- R31, R402: power good ends phase 0, and no slice is CLEAN. -/
theorem execPowerGood_eq (hph : s.phase = 0) :
    execPowerGood s = .next (((List.range 96).foldl (fun (t : State) sl => t.setClean sl false) s).setPhase 1) :=
  if_neg (not_not_intro hph)

/-- R394, R402: the recovery strap or an image that does not verify leads to recovery. -/
theorem execVerifyDone_recovery (hph : s.phase = 1) (hbad : s.recoveryStrap = true ∨ s.imageOk (s.imageBytes 0) = false) :
    execVerifyDone s = .next (s.setPhase 6) := by
  have guard : (s.recoveryStrap || !s.imageOk (s.imageBytes 0)) = true := by simpa using hbad
  simp only [execVerifyDone, hph, guard, ne_eq, not_true, if_true, if_false]

/-- R393, R402: an image that verifies blows its fuses, and bring-up goes on. -/
theorem execVerifyDone_ok (hph : s.phase = 1) (hstrap : s.recoveryStrap = false) (hok : s.imageOk (s.imageBytes 0) = true) :
    execVerifyDone s = .next ((s.blow (s.imageBytes 0)).setPhase 2) := by
  simp [execVerifyDone, hph, hstrap, hok]

/-- R31, R402: once the hub is up, no slice is CLEAN and the first cluster of each die is tested. -/
theorem execHubBringupDone_eq (hph : s.phase = 2) :
    execHubBringupDone s = .next (((List.range 4).foldl (fun (t : State) d => t.startTest (8 * d))
      ((List.range 96).foldl (fun (t : State) sl => t.setClean sl false) s)).setPhase 3) :=
  if_neg (not_not_intro hph)

/-- R374, R402: a test without failures marks its cluster tested. The cluster is not fenced, so it gets the shard unless its die has one. -/
theorem execClusterBistDone_nil (hph : s.phase = 3 ∨ s.phase = 4) (hp : p < 32) (hst : s.clusterSt p = 1)
    (hnew : s.tested.contains p = false) :
    let t : State := { s with tested := s.tested ++ [p] }
    execClusterBistDone p [] s = .next (((if (t.dieShard (p / 8)).isSome then t
      else (t.startShard p (t.imageBytes 0)).putReg (cluStat p) 0 2 2).nextTest p).bootAdvance) := by
  have guard : (!(decide (s.phase = 3) || decide (s.phase = 4)) || decide (32 ≤ p) || decide (s.clusterSt p ≠ 1) ||
      s.tested.contains p) = false := by
    rw [hnew]
    rcases hph with h | h <;> simp [h, hst, hp]
  have inService : State.clusterSt { s with tested := s.tested ++ [p] } p ≠ 3 := by
    rw [show State.clusterSt { s with tested := s.tested ++ [p] } p = 1 from hst]
    decide
  simp only [execClusterBistDone, guard, List.foldl_nil, inService, decide_false, Bool.false_or]
  rfl

/-- R374: SC_START starts the shard of a tested cluster in service that has none. -/
theorem execScStart_eq {v : W64} (hfit : s.clusterSt (fld v 0 5) ≠ 3) (hnew : (s.core (64 + fld v 0 5)).started = false)
    (htested : s.tested.contains (fld v 0 5) = true) :
    execScStart p v s = .next (s.startShard (fld v 0 5) (s.imageBytes 0)) := by
  have guard : (decide (s.clusterSt (fld v 0 5) = 3) || (s.core (64 + fld v 0 5)).started || !s.tested.contains (fld v 0 5)) = false := by
    simp only [hfit, hnew, htested, decide_false, Bool.not_true, Bool.or_self]
  simp only [execScStart, guard]
  rfl

/-- R404: the change to full rate ends bring-up. -/
theorem execFullRateChange_eq (hph : s.phase = 4) :
    execFullRateChange s = .next ((List.range 4).foldl (fun (t : State) d => t.setLevel d) (s.fullRateScrubs.setPhase 5)) :=
  if_neg (not_not_intro hph)

/-- R394: in recovery an image that verifies goes to the flash, and the module starts again. -/
theorem execRecoveryImageLoad_eq {image : List Byte} (hph : s.phase = 6) (hok : s.imageOk image = true) :
    execRecoveryImageLoad image s = .next (s.flashPut 0 image).moduleReset := by
  simp only [execRecoveryImageLoad, hph, hok, decide_true, Bool.and_self, if_true]

end Sys2Proof.Machine
end

section
/-! The obligation about the events of partitions, frames, bring-up and power. -/

namespace Sys2Proof.Machine

/-- Settles O60: each event by the lemma that says what it does once its guard is met; a rebind, a thermal trip and a loss of power have
no guard. -/
theorem partitionAndBootEvents : Obligations.PartitionAndBootEvents := by
  intro p s
  refine ⟨fun hst hen hboot => ⟨fun _ => execPartitionEnable_flaw hst hen hboot, execPartitionEnable_ok hst hen hboot⟩,
    fun _ => execSliceScrubDone_eq, fun _ => execMetadataInitDone_eq, execPartitionKeyingDone_eq,
    fun hst => ⟨execPartitionDisable_ready hst, execPartitionReset_ready hst⟩, execPartitionResetDone_eq, execPartitionReleaseDone_eq,
    fun _ => rfl, rfl, execPowerGood_eq, fun hph => ⟨execVerifyDone_recovery hph, execVerifyDone_ok hph⟩, execHubBringupDone_eq,
    fun hph hp hst hnew => ⟨fun _ hdie => ?_, fun hdie => ?_⟩, fun _ => execScStart_eq (p := p), execFullRateChange_eq,
    fun _ => execRecoveryImageLoad_eq, fun sample avg temps => ?_, rfl, rfl⟩
  · exact (execClusterBistDone_nil hph hp hst hnew).trans (by simp only [hdie, Option.isSome_none, Bool.false_eq_true, if_false])
  · exact (execClusterBistDone_nil hph hp hst hnew).trans (by simp only [Option.isSome_iff_ne_none.2 hdie, if_true])
  · change execPowerControlTick sample avg temps s = _
    simp only [execPowerControlTick, Bool.and_eq_true, decide_eq_true_eq]

end Sys2Proof.Machine
end

section
/-! The events of a core's clock and L1 and of errors in its units (R33 to R35, R66, R67, R76): what each does once its guard is met. -/

namespace Sys2Proof.Machine

variable {n line unit addr kind : Nat} {s : State}

/-- R66: a lease that has run out drops its line. -/
theorem execLeaseExpiry_of_not_usable {l : L1Line} (hl : (s.core n).line line = some l) (hout : l.usable (s.coreT n) = false) :
    execLeaseExpiry n line s = .next (s.updCore n (fun c => c.dropLine line)) := by
  simp only [execLeaseExpiry, hl, hout, Bool.false_eq_true, if_false]

/-- R67: what a broadcast makes of a core, its tests read as propositions. -/
theorem Core.hearTime_eq (c : Core) (t : Nat) (d : Int) :
    c.hearTime t d = { (if 256 < d.natAbs ∨ c.lastBcast + 256 < t then c.dropCopies (fun _ _ => true) else c) with
      skew := 0, lastBcast := t } := by
  simp only [Core.hearTime, Bool.or_eq_true, decide_eq_true_eq]

/-- R67: a broadcast sets the core's copy of T right. -/
theorem execTimeBaseBroadcast_eq (off : Int) :
    execTimeBaseBroadcast n off s = .next (s.updCore n (fun c =>
      { (if 256 < (c.skew + off).natAbs ∨ c.lastBcast + 256 < s.time then c.dropCopies (fun _ _ => true) else c) with
        skew := 0, lastBcast := s.time })) := by
  simp only [execTimeBaseBroadcast, Core.hearTime_eq]

/-- R67: 256 ns without a broadcast drop every COPY word. -/
theorem execBroadcastTimeout_of_late (hlate : (s.core n).lastBcast + 256 < s.time) :
    execBroadcastTimeout n s = .next (s.updCore n (fun c => c.dropCopies (fun _ _ => true))) := by
  simp only [execBroadcastTimeout, hlate, if_true]

/-- R67: a service core that is halted, and a compute core without a pack, gives its words back. -/
theorem execCoreClockGate_of_idle (hidle : 64 ≤ n ∧ (s.core n).halted = true ∨ n < 64 ∧ (s.core n).packs = []) :
    execCoreClockGate n s = .next ((s.giveUp n).updCore n (fun c =>
      { c with gated := c.l1.isEmpty && c.reads.isEmpty && c.ops.isEmpty })) := by
  have guard : ¬(if n < 64 then !(s.core n).packs.isEmpty else !(s.core n).halted) = true := by
    rcases hidle with ⟨hsvc, hhalt⟩ | ⟨hcomp, hnone⟩
    · rw [if_neg (by omega), hhalt]; decide
    · rw [if_pos hcomp, hnone]; decide
  exact if_neg guard

/-! ### What keeping the books of an error leaves of the poison marks -/

@[simp] theorem State.count16_poison (s : State) (a l : Nat) : (s.count16 a l).poison = s.poison := by
  unfold State.count16
  dsimp only
  split <;> rfl

@[simp] theorem State.countUe_poison (s : State) (p : Option Nat) : (s.countUe p).poison = s.poison := by
  cases p with
  | none => rfl
  | some p => exact s.count16_poison _ _

@[simp] theorem State.postEvent_poison (s : State) (cluster : Nat) (e : SvcEvent) : (s.postEvent cluster e).poison = s.poison := rfl

@[simp] theorem State.postPart_poison (s : State) (p : Nat) (e : SvcEvent) : (s.postPart p e).poison = s.poison :=
  List.foldlRecOn (motive := fun t : State => t.poison = s.poison) _ _ rfl fun t ht n _ => (t.postEvent_poison n e).trans ht

@[simp] theorem State.logError_poison (s : State) (kind pa : Nat) (part : Option Nat) (die unit info : Nat) :
    (s.logError kind pa part die unit info).poison = s.poison := by
  unfold State.logError
  extract_lets n i p a stamped described cleared lost headed logged
  have kept : logged.poison = s.poison :=
    calc headed.poison
      _ = cleared.poison := State.setMreg_poison ..
      _ = described.poison := State.setMreg_poison ..
      _ = stamped.poison := State.setMreg_poison ..
      _ = s.poison := (State.setMreg_poison ..).trans (State.setMreg_poison ..)
  split
  · exact (logged.postPart_poison _ _).trans kept
  · exact kept

@[simp] theorem State.logEcc_poison (s : State) (kind pa : Nat) (part : Option Nat) (die unit : Nat) :
    (s.logEcc kind pa part die unit).poison = s.poison :=
  (s.draw.2.logError_poison kind pa part die unit _).trans s.draw_poison

/-- R33, R34: an uncorrectable error in memory poisons both words of its granule. -/
theorem execUncorrectableError_poisons (hkind : kind = 1 ∨ kind = 2) :
    ∃ t, execUncorrectableError kind unit addr s = .next t ∧
      get false t.poison (addr / 8 * 2) = true ∧ get false t.poison (addr / 8 * 2 + 1) = true := by
  have marks : ∀ m : SMap Bool, get false (set false (set false m (addr / 8 * 2) true) (addr / 8 * 2 + 1) true) (addr / 8 * 2) = true := by
    intro m
    rw [get_set_ne _ _ _ _ _ (by omega), get_set_self]
  rcases hkind with rfl | rfl <;>
    exact ⟨_, rfl, by simp only [State.logEcc_poison, State.countUe_poison, State.count16_poison, marks],
      by simp only [State.logEcc_poison, State.countUe_poison, State.count16_poison, get_set_self]⟩

end Sys2Proof.Machine
end

section
/-! The events of splits (R298 to R303, R337, R352, R112): what each does once its guard is met. -/

namespace Sys2Proof.Machine

variable {n slot i j : Nat} {s : State} {v w : View}

/-- R302: after 64 words of one split the sibling that has waited longest has the pack's next issue. -/
theorem execFairnessTimer_of_starved {p : Pack} (hp : look (s.core n).packs slot = some p) (hcount : 64 ≤ p.fairCount)
    (hj : p.longestReady p.fairSplit = some j) :
    let t := s.updCore n (fun c => c.updPack slot (fun p => { p with fairCount := 0 }))
    execFairnessTimer n slot s = .next { t with agenda := .issue ⟨n, slot, j⟩ :: t.agenda } := by
  simp only [execFairnessTimer, hp, hj, if_neg (Nat.not_lt.2 hcount)]

/-- R337: an overdue split has the next word. -/
theorem execOverdueSplit_of_overdue (hv : s.viewAt ⟨n, slot, i⟩ = some v) (hdue : v.overdue = true) :
    execOverdueSplit n slot i s = .next { s with agenda := .issue ⟨n, slot, i⟩ :: s.agenda } := by
  simp only [execOverdueSplit, hv, hdue, if_true]

/-- R298: a split that stands at its heel, READY or in RECONV, arrives there. -/
theorem execHeelArrival_of_atHeel (hv : s.quietAt ⟨n, slot, i⟩ = some v) (hheel : v.atHeel = true)
    (hst : v.sp.st = .ready ∨ v.sp.st = .reconv) :
    execHeelArrival n slot i s = .next (v.s.setCore n { v.co with
      packs := ins v.co.packs slot ((v.pk.setSplit v.ix (some v.sp)).arrive v.ix v.now) }) := by
  rcases hst with hst | hst <;> simp only [execHeelArrival, hv, hheel, hst, Bool.and_self, if_true]

/-- R299: a split selected to issue meets another that is READY at its PC with its record, both with ready tokens (log entry 32). -/
theorem State.meets_of_ready (hv : s.quietAt ⟨n, slot, i⟩ = some v)
    (hw : (v.s.setCore n { v.co with packs := ins v.co.packs slot (v.pk.setSplit v.ix (some v.sp)) }).quietAt ⟨n, slot, j⟩ = some w)
    (hne : i ≠ j) (hissue : v.canIssue = true) (hheel : v.atHeel = false) (hturn : v.mustYield = false)
    (hvst : v.sp.st = .ready) (hwst : w.sp.st = .ready) (hpc : v.sp.pc = w.sp.pc) (hrec : v.sp.heelRec = w.sp.heelRec) :
    s.meets ⟨n, slot, i⟩ j = some (v, w) := by
  simp [State.meets, hv, hw, hne, hissue, hheel, hturn, hvst, hwst, hpc, hrec]

/-- R299: two splits that meet merge. -/
theorem execSplitMeet_of_meets (hmeet : s.meets ⟨n, slot, i⟩ j = some (v, w)) :
    execSplitMeet n slot i j s = .next (w.s.setCore n { w.co with
      packs := ins w.co.packs slot (((w.pk.setSplit j (some w.sp)).mergeInto i j (max v.now w.now)).pendDec v.sp.heelRec) }) := by
  simp only [execSplitMeet, hmeet]

/-- R303: a split in RECONV whose siblings are settled takes its lanes back and issues. -/
theorem execForcedReconvergence_of_settled (hv : s.viewAt ⟨n, slot, i⟩ = some v) (hst : v.sp.st = .reconv) (hstop : v.pk.stop = none)
    (hall : v.pk.allSettled i v.sp.pc = true) :
    execForcedReconvergence n slot i s =
      .next { v.reconverge.close with agenda := .issue ⟨n, slot, i⟩ :: v.reconverge.close.agenda } := by
  simp only [execForcedReconvergence, hv, hst, hstop, hall, Option.isNone_none, decide_true, Bool.and_self, if_true]

/-- R352: a split that has waited for 2^(WD + 6) µs faults WATCHDOG. -/
theorem execWatchdog_of_expired (hv : s.viewAt ⟨n, slot, i⟩ = some v) (hwatch : v.sp.watched = true) (hwd : v.pk.wd ≠ 0)
    (hstop : v.pk.stop = none) (hend : v.pk.ended = false) (htime : v.sp.waited + 2 ^ (v.pk.wd + 6) * 1000 ≤ s.time) :
    execWatchdog n slot i s = .next (v.raise0 fcWatchdog) := by
  simp [execWatchdog, hv, hwatch, hwd, hstop, hend, htime]

/-- R112: a word that cannot be fetched or decoded raises its fault at the split that would issue it. -/
theorem execInstructionFetchFault_of_flaw {k : Nat} {f : FaultRec} (hv : s.selectable ⟨n, slot, i⟩ = some v)
    (hflaw : v.lookIssue = .flaw k w f) : execInstructionFetchFault n slot i s = .next (w.raise f) := by
  simp only [execInstructionFetchFault, hv, hflaw]

end Sys2Proof.Machine
end

section
/-! The events of the matrix unit, of register requests and of a waiting service core (R256, R257, R264, R292, R293, R368, R369): what
each does once its guard is met. -/

namespace Sys2Proof.Machine

variable {n i : Nat} {s : State}

/-- R256, R264, R266: a line that can be read is staged, and clamped where there is room. -/
theorem execTileLineArrival_of_tileLine {f : TileFetch} {p : Pack} {va pa : Nat} {rest : List (Nat × Nat)} {bs : List Byte} {t : State}
    (hf : (s.core n).fetches[i]? = some f) (hfault : f.fault = none) (htodo : f.todo = (va, pa) :: rest)
    (hp : look (s.core n).packs f.slot = some p) (hroom : s.clampRoom n f.slot f.split (pa / 64) ≠ .wait)
    (hfirst : ((s.core n).fetches.take i).any (fun g => g.fault.isNone && !g.todo.isEmpty) = false)
    (hbind : s.rebinding (pa / 4) = false) (halias : s.aliased pa (get (0, 0) f.leaves va).1 = false)
    (hread : (s.updCore n (fun c => c.dropCopies (fun l _ => l == pa / 64))).tileLine n f.slot (!p.lazyMode) f.entry.record.segments va pa =
      .ok (bs, t)) :
    let yes := s.clampRoom n f.slot f.split (pa / 64) == .yes
    let e := f.entry.addLine va (pa / 64) bs yes
    let t := t.bindFrame pa (get (0, 0) f.leaves va).1
    let t := if yes = true then
      { t with clamps := upd [] t.clamps (pa / 64) (fun l => if l.contains n then l else l ++ [n]) } else t
    execTileLineArrival n i s = .next (t.updCore n (fun c =>
      let c := c.updFetch i (fun f => { f with todo := rest, entry := e })
      if rest.isEmpty = true then { c with stage := c.stage ++ [{ e with users := [c.userOf f] }] } else c)) := by
  simp only [execTileLineArrival, hf, hfault, htodo, hp]
  rw [if_neg (by simp [hroom, hfirst, hbind]), if_neg (by simp [halias]), hread]

/-- R257, R271: the array starts the instruction at the head of the queue once its operands are staged. -/
theorem execMatrixExecute_of_staged {m : MatOp} {rest : List MatOp} {p : Pack} (hq : (s.core n).mq = m :: rest)
    (hp : look (s.core n).packs m.slot = some p) (hidle : m.running = false) (hstaged : m.staged = true) :
    execMatrixExecute n s = .next (s.updCore n (fun c =>
      { c with mq := { m with running := true, out := (m.result p).rows, fl := (m.result p).fl } :: rest })) := by
  simp only [execMatrixExecute, hq, hp, hidle, hstaged, Bool.not_true, Bool.or_self, Bool.false_eq_true, if_false]

/-- R257: the running instruction writes its rows and flags, and its token falls. -/
theorem execMatrixComplete_of_running {m : MatOp} {rest : List MatOp} (hq : (s.core n).mq = m :: rest) (hrun : m.running = true) :
    execMatrixComplete n s = .next ((s.updCore n (fun c =>
      ({ c with mq := rest } : Core).updPack m.slot (fun (p : Pack) =>
        ((m.out.foldl (fun (p : Pack) x => p.bankAfter ⟨m.seq, x.1, x.2.1, x.2.2, true, 0⟩) p).orFpf m.fl).retireOp m.split m.seq
          m.tok (s.core n).cycle))).reapStage n) := by
  simp only [execMatrixComplete, hq, hrun, Bool.not_true, Bool.false_eq_true, if_false]

section
variable {g : GrowReq} {rest : List GrowReq} {p : Pack}

/-- R315: a request that the window covers already is granted at once. -/
theorem execReggrowGrant_of_covered (hg : (s.core n).grow = g :: rest) (hp : look (s.core n).packs g.slot = some p) (hsize : g.n ≤ p.size) :
    let c : Core := { s.core n with grow := rest }
    execReggrowGrant n s = .next (s.setCore n (c.grantGrow g (BitVec.ofNat 64 p.size))) := by
  simp only [execReggrowGrant, hg, hp, hsize, if_true]

/-- R292: a request is granted once the core has the rows that it lacks. -/
theorem execReggrowGrant_of_free (hg : (s.core n).grow = g :: rest) (hp : look (s.core n).packs g.slot = some p) (hsize : p.size < g.n)
    (hfree : g.n - p.size ≤ (s.core n).freeRows) :
    let c : Core := { s.core n with grow := rest }
    execReggrowGrant n s = .next (s.setCore n ((c.growTo g.slot g.n).grantGrow g (BitVec.ofNat 64 g.n))) := by
  simp only [execReggrowGrant, hg, hp, if_neg (Nat.not_le.2 hsize), hfree, if_true]

/-- R293: the service core is told once every pack waits for rows. -/
theorem execRegisterDeadlock_of_growing (hg : (s.core n).grow = g :: rest) (hall : (s.core n).packs.all (fun e => e.2.growing) = true) :
    execRegisterDeadlock n s = .next (s.postEvent (n / 2) ⟨3, n % 2, 0, 0, 0, 0⟩) := by
  simp only [execRegisterDeadlock, hg, hall, Bool.true_or, if_true]

end

/-- R369: an event that is pending wakes a halted service core. -/
theorem execHaltWake_of_pending (hhalt : (s.core (64 + n)).halted = true) (hevent : (s.core (64 + n)).pendingEvent = true) :
    execHaltWake n s = .next (s.setCore (64 + n) { s.core (64 + n) with halted := false, gated := false }) := by
  simp only [execHaltWake, hhalt, hevent, Bool.and_self, if_true]

/-- R368: a waiting MBXRECV takes the event that has come. -/
theorem execMbxrecvWake_of_event {d : SReg} {tok : Option Nat} {xs : List W64} {k : Core} (hwait : (s.core (64 + n)).mbwait = some (d, tok))
    (hevent : (s.core (64 + n)).takeEvent = some (xs, k)) :
    execMbxrecvWake n s = .next ((s.setCore (64 + n) { k with mbwait := none }).updCore (64 + n) (fun c => c.updPack 0 (fun p =>
      ((xs.zip (List.range 4)).foldl (fun (p : Pack) e => p.applyAfter 0 (.s (d + BitVec.ofNat 6 e.2) e.1)) p).tokDown 0 tok))) := by
  simp only [execMbxrecvWake, hwait, hevent]

end Sys2Proof.Machine
end

section
/-! The obligation about the events of a core's own units and timers. -/

namespace Sys2Proof.Machine

/-- Settles O57: each event by the lemma that says what it does once its guard is met; an L1 line's error, a quarantine, a corrected error
of HBM (log entry 26) and a walk's answer have no guard. -/
theorem coreEvents : Obligations.CoreEvents := by
  intro n slot i j s
  refine ⟨fun _ _ => execLeaseExpiry_of_not_usable, execTimeBaseBroadcast_eq, execBroadcastTimeout_of_late, execCoreClockGate_of_idle,
    fun _ => rfl, rfl, fun _ => rfl, fun _ => rfl, fun _ _ => execUncorrectableError_poisons, fun _ _ => execFairnessTimer_of_starved,
    fun _ => execOverdueSplit_of_overdue, fun _ => execHeelArrival_of_atHeel,
    fun _ _ hv hw hne hissue hheel hturn hvst hwst hpc hrec =>
      execSplitMeet_of_meets (State.meets_of_ready hv hw hne hissue hheel hturn hvst hwst hpc hrec),
    fun _ => execForcedReconvergence_of_settled, fun _ => execWatchdog_of_expired, fun _ _ _ _ => execInstructionFetchFault_of_flaw, rfl,
    fun _ _ _ _ _ _ _ => execTileLineArrival_of_tileLine,
    fun _ _ hq => ⟨fun _ => execMatrixExecute_of_staged hq, execMatrixComplete_of_running hq⟩,
    fun _ _ _ hg hp => ⟨execReggrowGrant_of_covered hg hp, execReggrowGrant_of_free hg hp⟩,
    fun _ _ => execRegisterDeadlock_of_growing, execHaltWake_of_pending, fun _ _ _ _ => execMbxrecvWake_of_event,
    exec_tileLineArrival_of_served n i s⟩

end Sys2Proof.Machine
end

section
/-! The step where a word is refused before it issues, and the turns of the agenda that issue nothing (R66, R67, R112, R337). Each check of
R112 has one lemma for what `View.lookIssue` comes to when the word fails it and passes those before it. -/

namespace Sys2Proof.Machine

/-- A turn that issues is the issue at its site. -/
theorem step_of_issue {s : State} {p : Site} {rest : List Turn} (h : s.agenda = .issue p :: rest) :
    step s = ({ s with agenda := rest } : State).issueSite p := by
  simp only [step, h]

/-- R112: a word that fails a check raises its fault at the split. -/
theorem State.issueSite_of_flaw {s : State} {p : Site} {v w : View} {k : Nat} {f : FaultRec} (hsel : s.selectable p = some v)
    (hflaw : v.lookIssue = .flaw k w f) : s.issueSite p = .next (w.raise f) := by
  simp only [State.issueSite, hsel, hflaw]

section
variable {v w : View} {bs : List Byte}

/-- R112, check 2: the PC is not a multiple of 4. -/
theorem View.lookIssue_of_misaligned (hf : v.fetch = .bytes w bs) (hpc : w.sp.pc.toNat % 4 ≠ 0) :
    v.lookIssue = .flaw 2 w (w.faultRec fcFetchAlign w.sp.pc 0 0 0 127 0) := by
  simp only [View.lookIssue, hf, if_pos hpc]

/-- R112, check 3: the length code is reserved. -/
theorem View.lookIssue_of_noLength (hf : v.fetch = .bytes w bs) (hpc : w.sp.pc.toNat % 4 = 0)
    (hlen : lenOf (BitVec.ofNat 2 (ofBytes (bs.take 8))) = none) :
    v.lookIssue = .flaw 3 w (w.faultRec fcIllegalOp 0 0 0 0 127 0) := by
  simp only [View.lookIssue, hf, hpc, ne_eq, not_true, if_false, hlen]

/-- R112, check 4: the word leaves its 32-byte block. -/
theorem View.lookIssue_of_crossing {l : Len} (hf : v.fetch = .bytes w bs) (hpc : w.sp.pc.toNat % 4 = 0)
    (hlen : lenOf (BitVec.ofNat 2 (ofBytes (bs.take 8))) = some l) (hblock : 32 < w.sp.pc.toNat % 32 + l.bytes) :
    v.lookIssue = .flaw 4 w (w.faultRec fcFetchAlign w.sp.pc 0 0 0 127 0) := by
  simp only [View.lookIssue, hf, hpc, ne_eq, not_true, if_false, hlen, if_pos hblock]

/-- R112, checks 5 to 9, R115: the decoder refuses the word, once its WAITM tokens are ready and its SETQ token can rise. -/
theorem View.lookIssue_of_refused {l : Len} {e : DecErr} {t : Nat} (hf : v.fetch = .bytes w bs) (hpc : w.sp.pc.toNat % 4 = 0)
    (hlen : lenOf (BitVec.ofNat 2 (ofBytes (bs.take 8))) = some l) (hblock : w.sp.pc.toNat % 32 + l.bytes ≤ 32)
    (hdec : decode w.svc bs = .error e) (hwait : w.tokensAt (BitVec.ofNat 6 (ofBytes (bs.take 8) / 2 ^ 13)) = some t)
    (hset : ofBytes (bs.take 8) / 2 ^ 19 % 8 < 6 →
      ({ w with now := t } : View).settle.sp.tok.getD (ofBytes (bs.take 8) / 2 ^ 19 % 8) 0 < 63) :
    v.lookIssue = .flaw 5 { w with now := t } (w.faultRec (decCode e) 0 0 0 0 127 0) := by
  have htok : ¬ (decide (ofBytes (bs.take 8) / 2 ^ 19 % 8 < 6) &&
      decide (63 ≤ ({ w with now := t } : View).settle.sp.tok.getD (ofBytes (bs.take 8) / 2 ^ 19 % 8) 0)) = true := by
    simp only [Bool.and_eq_true, decide_eq_true_eq, not_and, Nat.not_le]
    exact hset
  simp only [View.lookIssue, hf, hpc, ne_eq, not_true, if_false, hlen, if_neg (Nat.not_lt.2 hblock), hdec, hwait, if_neg htok]

end

/-- A turn that is an event runs it; an instruction runs only where it is fetched. -/
theorem step_of_event {s : State} {rest : List Turn} {i : Instr} (h : s.agenda = .ev i :: rest) :
    step s = if (ctlOf i).isSome then .next { s with agenda := rest } else exec i { s with agenda := rest } := by
  simp only [step, h]

/-- Settles O6: a refused word by the lemma of the check that it fails first, every other turn by what the step does with it. -/
theorem stepOtherwise : Obligations.StepOtherwise := by
  refine ⟨fun s p rest v w bs hag hsel hf => ?_, fun s rest => ⟨fun i h hi => ?_, fun i c h hi => ?_, fun n h => ?_, fun ns h => ?_⟩⟩
  · have raises {k : Nat} {x : View} {f : FaultRec} (hl : v.lookIssue = .flaw k x f) : step s = .next (x.raise f) :=
      (step_of_issue hag).trans (State.issueSite_of_flaw hsel hl)
    exact ⟨fun hpc => raises (View.lookIssue_of_misaligned hf hpc),
      fun hpc hlen => raises (View.lookIssue_of_noLength hf hpc hlen),
      fun l hpc hlen hblock => raises (View.lookIssue_of_crossing hf hpc hlen hblock),
      fun l e t hpc hlen hblock hdec hwait hset => raises (View.lookIssue_of_refused hf hpc hlen hblock hdec hwait hset)⟩
  · simp only [step_of_event h, hi, Option.isSome_none, Bool.false_eq_true, if_false]
  · simp only [step_of_event h, hi, Option.isSome_some, if_true]
  · simp only [step, h]
  · simp only [step, h]

end Sys2Proof.Machine
end

section
/-! The messages of the registration protocol (R55-R63, R71, R73, R77, R267, R434): each event takes the oldest message of its channel, and
what is left is the answer of its own kind. -/

namespace Sys2Proof.Machine

/-- R55: an event whose kind is that of the oldest message takes it, and what the kind does is done in the state without it. -/
theorem State.onMsg_of_take {s t : State} {src dst : Nat} {b c : Body} {ms : List Msg} {f : Body → State → Option State}
    (h : takeMsg src dst s.net = some (b, ms)) (hkind : b = c) (hf : f c { s with net := ms } = some t) :
    s.onMsg src dst f = .next t := by
  simp only [State.onMsg, h, hkind, hf, Option.getD_some]

/-- Settles O56: each event takes its message; the answers that a port keeps name the message itself. -/
theorem coherenceMessages : Obligations.CoherenceMessages := by
  intro src dst s b ms h u
  have took {c : Body} {f : Body → State → Option State} {t : State} (hkind : b = c) (hf : f c u = some t) :
      s.onMsg src dst f = .next t := State.onMsg_of_take h hkind hf
  refine ⟨fun _ _ _ _ _ _ _ _ e => (took e rfl : execRdc src dst s = _),
    fun _ _ _ _ _ e => (took e rfl : execRdn src dst s = _),
    fun _ _ _ _ _ _ _ _ _ e => (took e rfl : execRegw src dst s = _),
    fun _ _ _ _ _ _ _ e => (took e rfl : execEwr src dst s = _),
    fun _ _ _ _ _ _ _ e => (took e rfl : execAtm src dst s = _),
    fun _ _ _ e => (took e rfl : execZapw src dst s = _),
    fun _ _ _ e => (took e rfl : execWbd src dst s = _),
    fun _ e => (took e rfl : execLoss src dst s = _),
    fun _ _ _ e => (took e rfl : execNotheld src dst s = _),
    fun _ _ _ e => (took e rfl : execRace src dst s = _),
    fun _ e => (took e rfl : execCallbackDone src dst s = _),
    fun _ e => (took e rfl : execStaleAck src dst s = _),
    fun _ _ e => (took e rfl : execFwd src dst s = _),
    fun _ _ _ e => (took e rfl : execRecallWord src dst s = _),
    fun _ _ e => (took e rfl : execCallback src dst s = _),
    fun _ e => (took e rfl : execDrop src dst s = _),
    fun _ _ e => (took e rfl : execGrant src dst s = _),
    fun _ _ _ _ e => ?_, fun _ _ _ e => ?_,
    fun _ _ _ e => (took e rfl : execData src dst s = _),
    fun _ _ _ e => (took e rfl : execData src dst s = _),
    fun _ _ _ e => ?_,
    fun _ e => (took e rfl : execStale src dst s = _)⟩
  · rw [e]
    exact (took e rfl : execData src dst s = _)
  · rw [e]
    exact (took e rfl : execData src dst s = _)
  · rw [e]
    refine (took e rfl : execFaultAnswer src dst s = _).trans ?_
    cases hasL1 dst <;> rfl

end Sys2Proof.Machine
end

section
/-! The loads of translated memory (R63, R91, R141, R145): one that nothing makes wait leaves with its accesses, in the varying and in the
uniform forms. -/

namespace Sys2Proof.Machine

variable {c : Ctl} {ty : Ty} {nc acq : Bool} {rmask : Byte} {good : List LaneAddr} {s : State} {v w : View} {m : Mask}

/-- What a load that leaves with its instruction answers once nothing makes it wait (R141, R145). -/
abbrev View.loadLeaves (w : View) (c : Ctl) (ty : Ty) (uni nc acq : Bool) (rmask : Byte) (d : Dest) (good : List LaneAddr) : Res :=
  w.loadGo (fun x o act => x.begin c false o act) .load ty uni nc acq rmask d good

/-- R63, R91: a load that nothing makes wait leaves. -/
theorem View.load_of_clear {u : View} {uni : Bool} {d : Dest} {ls : List (Nat × Nat)} (h : u.loadClear w (tyBytes ty) uni acq ls good) :
    u.load c ty uni nc acq rmask d ls = w.loadLeaves c ty uni nc acq rmask d good := by
  obtain ⟨hacq, hsync, hphase, hothers, hstalls⟩ := h
  have hbusy : (u.acqBusy || (acq && u.syncBusy)) = false := by
    cases acq
    · simp only [hacq, Bool.false_and, Bool.or_false]
    · simp only [hacq, hsync rfl, Bool.and_false, Bool.or_false]
  simp only [View.load, View.loadWith, hbusy, hphase, hothers, hstalls, List.isEmpty_nil, Bool.not_true, Bool.false_eq_true, if_false]

/-- A load that leaves has placed its split itself. -/
theorem View.answer_loadLeaves {uni : Bool} {d : Dest} :
    v.answer c (w.loadLeaves c ty uni nc acq rmask d good) s = (w.loadLeaves c ty uni nc acq rmask d good).placed s := rfl

section
variable {off : BitVec 24} {d : VReg} {ad : Addr}

/-- A varying load (VLD, VLDQ) that nothing makes wait. -/
theorem loadV_of_clear (hi : IssuesW c ([.dv (ty64 ty) d] ++ useAddr true ad) false s v m)
    (h : (v.lastAddr true ad m).loadClear w (tyBytes ty) (adU ad) acq (v.eas ad off m) good) :
    loadV c ty nc acq rmask d ad off s =
      .next ((w.loadLeaves c ty (adU ad) nc acq rmask (v.destV (ty64 ty) d) good).placed s) := by
  rw [loadV, issue_of_issues _ hi, View.load_of_clear h, View.answer_loadLeaves]

/-- A varying load that is free to go has nothing to wait for. -/
theorem loadV_of_loadable (hi : IssuesW c ([.dv (ty64 ty) d] ++ useAddr true ad) false s v m)
    (h : (v.lastAddr true ad m).loadable (tyBytes ty) acq (v.eas ad off m)) :
    let at_ := (v.lastAddr true ad m).located false (v.eas ad off m)
    ∃ x, (v.lastAddr true ad m).loadClear x (tyBytes ty) (adU ad) acq (v.eas ad off m) at_ ∧
      loadV c ty nc acq rmask d ad off s =
        .next ((x.loadLeaves c ty (adU ad) nc acq rmask (v.destV (ty64 ty) d) at_).placed s) :=
  let ⟨x, hx⟩ := View.loadClear_of_loadable h
  ⟨x, hx, loadV_of_clear hi hx⟩

end

section
variable {off : BitVec 24} {d base : SReg}

/-- R141: SLD outside the windows of R361. -/
theorem execSld_of_clear (hi : IssuesW c [.ds d, .s 1 base] false s v m) (hwin : v.windowed base off = none)
    (h : v.loadClear w (tyBytes ty) true false (v.ea1 base off) good) :
    execSld c ty nc d base off s = .next ((w.loadLeaves c ty true nc false 0 (.s d) good).placed s) := by
  simp only [execSld, issue_of_issues _ hi, hwin, View.loadS, View.load_of_clear h, View.answer_loadLeaves]

/-- R145: SLDQ outside the windows of R361. -/
theorem execSldq_of_clear {sc : Scope} (hi : IssuesW c [.ds d, .s 1 base] false s v m) (hwin : v.windowed base off = none)
    (h : v.loadClear w (tyBytes ty) true true (v.ea1 base off) good) :
    execSldq c ty sc rmask d base off s = .next ((w.loadLeaves c ty true false true rmask (.s d) good).placed s) := by
  simp only [execSldq, issue_of_issues _ hi, hwin, View.loadS, View.load_of_clear h, View.answer_loadLeaves]

end

/-- Settles O27: the four loads by the two conditions; a load that is free to go has nothing to wait for (`View.loadClear_of_loadable`). -/
theorem globalLoads : Obligations.GlobalLoads := by
  intro c ty off s v w m good leave
  refine ⟨fun d ad hi => ⟨fun nc h => loadV_of_clear hi h, fun nc h => loadV_of_loadable hi h, fun sc rmask h => loadV_of_loadable hi h,
    fun sc rmask h => loadV_of_clear hi h⟩, fun d base hi hwin => ⟨fun nc h => execSld_of_clear hi hwin h, fun nc h => ?_,
    fun sc rmask h => ?_, fun sc rmask h => execSldq_of_clear (sc := sc) hi hwin h⟩⟩
  · obtain ⟨x, hx⟩ := View.loadClear_of_loadable h
    exact ⟨x, hx, execSld_of_clear hi hwin hx⟩
  · obtain ⟨x, hx⟩ := View.loadClear_of_loadable h
    exact ⟨x, hx, execSldq_of_clear (sc := sc) hi hwin hx⟩

end Sys2Proof.Machine
end

section
/-! The stores of translated memory (R63, R94, R142, R145): one that nothing makes wait claims its words, in the varying and in the uniform
forms. -/

namespace Sys2Proof.Machine

variable {c : Ctl} {ty : Ty} {rel : Option Scope} {s t : State} {v w : View} {m : Mask} {good : List LaneAddr} {bad : List Nat}

/-- R63, R94: a store that nothing makes wait claims its words, after its release where it has one. -/
theorem View.store_of_clear {u : View} {uni : Bool} {data : Nat → W64} {ls : List (Nat × Nat)}
    (h : u.storeClear w (tyBytes ty) uni rel data ls good t bad) :
    u.store c ty uni rel data ls = w.storeGo c ty uni rel data good t bad := by
  obtain ⟨hacq, x, hphase, hrel, hclaims⟩ := h
  cases rel with
  | none =>
    obtain rfl : w = x := hrel
    simp only [View.store, hacq, hphase, hclaims, Bool.false_eq_true, if_false]
  | some sc =>
    have hgo : x.release sc false = .go w := hrel
    simp only [View.store, hacq, hphase, hgo, hclaims, Bool.false_eq_true, if_false]

/-- A store that leaves has placed its split itself. -/
theorem View.answer_storeGo {uni : Bool} {data : Nat → W64} :
    v.answer c (w.storeGo c ty uni rel data good t bad) s = (w.storeGo c ty uni rel data good t bad).placed s := rfl

section
variable {off : BitVec 24} {ad : Addr} {b : VSrc}

/-- A varying store (VST, VSTL) that nothing makes wait. -/
theorem storeV_of_clear (hi : IssuesW c (useAddr true ad ++ [useV 2 (ty64 ty) b]) false s v m)
    (h : ((v.lastAddr true ad m).lastUse (ty64 ty) b m).storeClear w (tyBytes ty) (adU ad) rel (el (v.vs (ty64 ty) b)) (v.eas ad off m)
      good t bad) :
    storeV c ty rel ad off b s = .next ((w.storeGo c ty (adU ad) rel (el (v.vs (ty64 ty) b)) good t bad).placed s) := by
  simp only [storeV, issue_of_issues _ hi, View.store_of_clear h, View.answer_storeGo]

/-- A varying store that is free to go has nothing to wait for. -/
theorem storeV_of_storable (hi : IssuesW c (useAddr true ad ++ [useV 2 (ty64 ty) b]) false s v m)
    (h : ((v.lastAddr true ad m).lastUse (ty64 ty) b m).storable (tyBytes ty) rel (el (v.vs (ty64 ty) b)) (v.eas ad off m)) :
    let u := (v.lastAddr true ad m).lastUse (ty64 ty) b m
    let data := el (v.vs (ty64 ty) b)
    let at_ := u.located true (v.eas ad off m)
    ∃ x r no, u.storeClear x (tyBytes ty) (adU ad) rel data (v.eas ad off m) at_ r no ∧
      storeV c ty rel ad off b s = .next ((x.storeGo c ty (adU ad) rel data at_ r no).placed s) :=
  let ⟨x, r, no, hx⟩ := View.storeClear_of_storable h
  ⟨x, r, no, hx, storeV_of_clear hi hx⟩

end

section
variable {off : BitVec 24} {base b : SReg}

/-- R142: SST outside the windows of R361. -/
theorem execSst_of_clear (hi : IssuesW c [.s 1 base, .s 2 b] false s v m) (hwin : v.windowed base off = none)
    (h : v.storeClear w (tyBytes ty) true none (fun _ => v.rs b) (v.ea1 base off) good t bad) :
    execSst c ty base off b s = .next ((w.storeGo c ty true none (fun _ => v.rs b) good t bad).placed s) := by
  simp only [execSst, issue_of_issues _ hi, hwin, View.storeS, View.store_of_clear h, View.answer_storeGo]

/-- R145: SSTL outside the windows of R361. -/
theorem execSstl_of_clear {sc : Scope} (hi : IssuesW c [.s 1 base, .s 2 b] false s v m) (hwin : v.windowed base off = none)
    (h : v.storeClear w (tyBytes ty) true (some sc) (fun _ => v.rs b) (v.ea1 base off) good t bad) :
    execSstl c ty sc base off b s = .next ((w.storeGo c ty true (some sc) (fun _ => v.rs b) good t bad).placed s) := by
  simp only [execSstl, issue_of_issues _ hi, hwin, View.storeS, View.store_of_clear h, View.answer_storeGo]

end

/-- Settles O28: the four stores by the two conditions; a store that is free to go has nothing to wait for (`View.storeClear_of_storable`). -/
theorem globalStores : Obligations.GlobalStores := by
  intro c ty off s t v w m good bad
  refine ⟨fun ad b hi => ⟨storeV_of_clear hi, storeV_of_storable hi, fun sc => storeV_of_storable hi, fun sc => storeV_of_clear hi⟩,
    fun base b hi hwin => ⟨execSst_of_clear hi hwin, fun h => ?_, fun sc h => ?_, fun sc => execSstl_of_clear hi hwin⟩⟩
  · obtain ⟨x, r, no, hx⟩ := View.storeClear_of_storable h
    exact ⟨x, r, no, hx, execSst_of_clear hi hwin hx⟩
  · obtain ⟨x, r, no, hx⟩ := View.storeClear_of_storable h
    exact ⟨x, r, no, hx, execSstl_of_clear hi hwin hx⟩

end Sys2Proof.Machine
end

section
/-! The obligation about reservations and registration fails for VSC. A VSC waits while an atomic of its own pack on one of its words is
unanswered, so that the two are performed in the order of their issue (R89); its clauses do not ask for that, as those of VLR, REG and DEREG
do. The counterexample is a pack of one lane whose atomic on word 0 is unanswered when it issues a VSC to word 0. -/

namespace Sys2Proof.Machine

/-- R89, R148: a VSC whose pack has an unanswered atomic on one of its words stays at issue. -/
theorem execVsc_of_atomHolds {c : Ctl} {ty : Ty} {d : PReg} {ad : Addr} {off : BitVec 24} {b : VSrc} {s : State} {v w : View} {m : Mask}
    {good : List LaneAddr} (hi : IssuesW c ([.dp d] ++ useAddr true ad ++ [useV 2 (ty64 ty) b]) false s v m)
    (hacq : ((v.lastAddr true ad m).lastUse (ty64 ty) b m).acqBusy = false)
    (hphase : ((v.lastAddr true ad m).lastUse (ty64 ty) b m).phase1 ⟨kWrite, true, tyBytes ty, adU ad, fun _ => true⟩ (v.eas ad off m) =
      .ok (w, good))
    (hatom : w.atomHolds (good.flatMap (fun g => wordsOf g.pa (tyBytes ty))) = true) :
    execVsc c ty d ad off b s = .next w.close := by
  simp only [execVsc, issue_of_issues _ hi, View.vsc, hacq, hphase, hatom, Bool.false_eq_true, if_false, if_true, View.answer]

/-- The PC of the split that `cur` names. -/
def State.curPc (s : State) : Option W64 := s.view.map (fun v => v.sp.pc)

/-! ### The counterexample -/

/-- A pack of core 0 at VA 0, with lane 0 alone. -/
def heldVscPack : Pack :=
  { (placedPack 0).updSplit 0 (fun x => { x with mask := 1, owned := 1 }) with lmask := 1, live := 1 }

/-- Its atomic on word 0, which no home has answered. -/
def heldVscAtomic : MemOp := memOp .atomic .n32 .none [accOf ⟨0, 0, 0, 0, 0⟩ 4 [0]]

/-- Core 0 with that pack and that atomic, its translation in the micro-buffer. -/
def heldVscState : State :=
  { (State.reset.withFetchWord 64 0).updCore 0 (fun k => { k with packs := [(0, heldVscPack)], ops := [heldVscAtomic] }) with
    cur := ⟨0, 0, 0⟩, agenda := [] }

/-- The wide word of a 32-bit VSC of r0 to the address in s0, which is 0, with its predicate to p1. -/
def heldVscCtl : Ctl := ⟨.wide, 0, 0, 7, 7⟩
def heldVscSrc : VSrc := ⟨0, false⟩
def heldVscUses : List Use := [.dp 1] ++ useAddr true (.u 0) ++ [useV 2 (ty64 .n32) heldVscSrc]

/-- The executing split, and what it is once its word's waits are over. -/
def heldVscSplit : View := heldVscState.view.get (by decide)
def heldVscView : View := (heldVscSplit.ready heldVscCtl 0 (usesOf [(heldVscCtl.guard, heldVscUses)])).get (by decide)

/-- The VSC issues with lane 0. -/
theorem heldVsc_issues : IssuesW heldVscCtl heldVscUses false heldVscState heldVscView 1 :=
  ⟨heldVscSplit, heldVscView, (Option.some_get _).symm, (Option.some_get _).symm, by decide, by decide, rfl, by decide, by decide, by decide,
    by decide, by decide⟩

/-- The view that phase 1 starts from, and the address of lane 0. -/
def heldVscStart : View := (heldVscView.lastAddr true (.u 0) 1).lastUse (ty64 .n32) heldVscSrc 1
def heldVscLanes : List (Nat × Nat) := heldVscView.eas (.u 0) 0 1

/-- R148: its lane is mapped to HBM, and no acquire is under way. -/
theorem heldVsc_wordsReady : heldVscStart.wordsReady kWrite true 4 heldVscLanes := by decide

/-- Past phase 1 the atomic holds the VSC; were it performed, its split would go on at the next word, 16 bytes further. -/
theorem heldVsc_phase1 :
    (heldVscStart.phase1 ⟨kWrite, true, 4, true, fun _ => true⟩ heldVscLanes).toOption.map (fun r =>
      (r.1.atomHolds (r.2.flatMap (fun g => wordsOf g.pa 4)), r.1.close.curPc,
        ((r.1.vscGo heldVscCtl .n32 true 1 (el (heldVscView.vs (ty64 .n32) heldVscSrc)) r.2).placed heldVscState).curPc)) =
    some (true, some 0, some 16) := by decide

/-- Refutes O33: while an atomic of the pack on its word is unanswered, a VSC that meets the statement's conditions stays at issue. -/
theorem not_reservationsAndRegistration : ¬ Obligations.ReservationsAndRegistration := by
  intro h
  obtain ⟨-, hvsc, -⟩ := h heldVscCtl .n32 (.u 0) 0 heldVscState heldVscState heldVscView heldVscView 1 [] []
  obtain ⟨w, hphase, hgo⟩ := (hvsc 1 heldVscSrc heldVsc_issues).2 heldVsc_wordsReady
  have hpast := heldVsc_phase1
  rw [show heldVscStart.phase1 ⟨kWrite, true, 4, true, fun _ => true⟩ heldVscLanes = _ from hphase] at hpast
  simp only [Except.toOption, Option.map_some, Option.some.injEq, Prod.mk.injEq] at hpast
  obtain ⟨hatom, hstays, hmoves⟩ := hpast
  have hholds := execVsc_of_atomHolds heldVsc_issues heldVsc_wordsReady.1 hphase hatom
  have hsame := Host.Outcome.next.inj (hholds.symm.trans hgo)
  have hpc : some (0 : W64) = some 16 := hstays.symm.trans ((congrArg State.curPc hsame).trans hmoves)
  exact absurd hpc (by decide)

end Sys2Proof.Machine
end

section
/-! The atomics (R91, R94, R146, R147, R154): one that nothing makes wait leaves with its operations, in the varying and in the uniform
form. -/

namespace Sys2Proof.Machine

variable {c : Ctl} {op : AOp} {aq rl : Bool} {ty : Ty} {sc : Scope} {off : BitVec 24} {s : State} {v w : View} {m : Mask}
  {good : List LaneAddr}

/-- R91, R94: an atomic that nothing makes wait leaves, after its release where it has one. -/
theorem View.atomic_of_clear {u : View} {uni : Bool} {d : Dest} {opd cmp : Nat → W64} {ls : List (Nat × Nat)}
    (h : u.atomicClear w op aq rl (tyBytes ty) sc uni ls good) :
    u.atomic c op aq rl ty sc uni d opd cmp ls = w.atomicGo c op aq rl ty uni d opd cmp good := by
  obtain ⟨hacq, hsync, x, hphase, hrel, hwords⟩ := h
  have hbusy : (u.acqBusy || (aq && u.syncBusy)) = false := by
    cases aq
    · simp only [hacq, Bool.false_and, Bool.or_false]
    · simp only [hacq, hsync rfl, Bool.and_false, Bool.or_false]
  cases rl with
  | false =>
    obtain rfl : w = x := hrel
    simp only [View.atomic, hbusy, hphase, hwords, Bool.false_eq_true, if_false]
  | true =>
    have hgo : x.release sc false = .go w := hrel
    simp only [View.atomic, hbusy, hphase, hgo, hwords, Bool.false_eq_true, if_false, if_true]

/-- An atomic that leaves has placed its split itself. -/
theorem View.answer_atomicGo {uni : Bool} {d : Dest} {opd cmp : Nat → W64} :
    v.answer c (w.atomicGo c op aq rl ty uni d opd cmp good) s = (w.atomicGo c op aq rl ty uni d opd cmp good).placed s := rfl

/-- The view of a VATOM once its sources are read: the last uses of its address, its operand and, for CAS, its comparand are marked. -/
def View.atomicSources (v : View) (op : AOp) (k : Bool) (ad : Addr) (b cmp : VSrc) (m : Mask) : View :=
  let u := (v.lastAddr true ad m).lastUse k b m
  if op = .cas then u.lastUse k cmp m else u

/-- R146: a VATOM that nothing makes wait. -/
theorem execVatom_of_clear {d : VReg} {ad : Addr} {b cmp : VSrc}
    (hi : IssuesW c ([.dv (ty64 ty) d] ++ useAddr true ad ++ [useV 2 (ty64 ty) b] ++ (if op = .cas then [useV 3 (ty64 ty) cmp] else []))
      false s v m)
    (h : (v.atomicSources op (ty64 ty) ad b cmp m).atomicClear w op aq rl (tyBytes ty) sc (adU ad) (v.eas ad off m) good) :
    execVatom c op aq rl ty sc d ad off b cmp s =
      .next ((w.atomicGo c op aq rl ty (adU ad) (v.destV (ty64 ty) d) (el (v.vs (ty64 ty) b))
        (el (if op = .cas then v.vs (ty64 ty) cmp else [])) good).placed s) := by
  unfold View.atomicSources at h
  simp only [execVatom, decide_eq_true_eq, issue_of_issues _ hi, View.atomic_of_clear h, View.answer_atomicGo]

/-- R146: SATOM outside the windows of R361. -/
theorem execSatom_of_clear {d base b cmp : SReg}
    (hi : IssuesW c ([.ds d, .s 1 base, .s 2 b] ++ (if op = .cas then [.s 3 cmp] else [])) false s v m) (hwin : v.windowed base off = none)
    (h : v.atomicClear w op aq rl (tyBytes ty) sc true (v.ea1 base off) good) :
    execSatom c op aq rl ty sc d base off b cmp s =
      .next ((w.atomicGo c op aq rl ty true (.s d) (fun _ => v.rs b) (fun _ => v.rs cmp) good).placed s) := by
  simp only [execSatom, decide_eq_true_eq, issue_of_issues _ hi, hwin, View.atomic_of_clear h, View.answer_atomicGo]

/-- Settles O32: both atomics by the two conditions; an atomic that is free to go has nothing to wait for
(`View.atomicClear_of_ready`). -/
theorem atomics : Obligations.Atomics := by
  intro c op aq rl ty sc off s v w m good
  refine ⟨fun d ad b cmp hi => ⟨execVatom_of_clear hi, fun h => ?_⟩, fun d base b cmp hi hwin => ⟨execSatom_of_clear hi hwin, fun h => ?_⟩⟩
  · obtain ⟨x, hx⟩ := View.atomicClear_of_ready h
    exact ⟨x, hx, execVatom_of_clear hi hx⟩
  · obtain ⟨x, hx⟩ := View.atomicClear_of_ready h
    exact ⟨x, hx, execSatom_of_clear hi hwin hx⟩

end Sys2Proof.Machine
end

section
/-! FENCE, ACQ and REL (R91, R94, R95, R149): what each does once nothing makes it wait. -/

namespace Sys2Proof.Machine

variable {c : Ctl} {sc : Scope} {s : State} {v w : View} {m : Mask}

/-- R95: a FENCE whose pack has nothing under way that its scope asks for. -/
theorem execFence_of_quiet (hi : IssuesW c [] false s v m) (hops : v.outstanding (fun o => o.kind.reads || o.acq) = false)
    (hfetch : v.fetching = false) (hpreg : 2 ≤ scopeNo sc → v.pk.preg = 0) (hhostw : 3 ≤ scopeNo sc → v.pk.hostw = 0) :
    execFence c sc s = .next ((v.tokenFor c 1).after c (v.succ c)) := by
  have hregs : ¬(decide (2 ≤ scopeNo sc) && decide (v.pk.preg ≠ 0)) = true := by simpa using hpreg
  have hwrites : ¬(decide (3 ≤ scopeNo sc) && decide (v.pk.hostw ≠ 0)) = true := by simpa using hhostw
  simp only [execFence, issue_of_issues _ hi, hops, hfetch, hregs, hwrites, Bool.or_self, Bool.false_eq_true, if_false, View.answer, View.after]

/-- R91: an ACQ drops copies once no synchronisation access of its pack is under way. -/
theorem execAcq_of_quiet {rmask : Byte} (hi : IssuesW c [] false s v m) (hsync : v.syncBusy = false) :
    execAcq c sc rmask s =
      .next (((v.reopen (v.close.updCore v.ag (fun k => k.selfInvalidate v.slot rmask))).tokenFor c 4).after c (v.succ c)) := by
  simp only [execAcq, issue_of_issues _ hi, hsync, Bool.false_eq_true, if_false, View.answer, View.after]

/-- R94: a REL completes with its release. -/
theorem execRel_of_go (hi : IssuesW c [] false s v m) (hgo : v.release sc true = .go w) :
    execRel c sc s = .next ((w.tokenFor c 1).after c (v.succ c)) := by
  simp only [execRel, issue_of_issues _ hi, hgo, View.answer, View.after]

/-- Settles O34: each of the three by what it waits for; a release with nothing left to wait for is over (`View.release_of_releasable`). -/
theorem ordering : Obligations.Ordering := by
  intro c s v m hi
  refine ⟨fun sc hops hfetch hpreg hhostw => execFence_of_quiet hi hops hfetch hpreg hhostw,
    fun sc rmask hsync => execAcq_of_quiet (sc := sc) hi hsync, fun sc w hgo => execRel_of_go hi hgo, fun sc hready => ?_⟩
  obtain ⟨w, hgo, -⟩ := View.release_of_releasable hready
  exact ⟨w, hgo, execRel_of_go hi hgo⟩

end Sys2Proof.Machine
end

section
/-! The loads of the scratchpad (R98, R136, R143): a bounds fault before anything is performed, or the window's bytes at once. -/

namespace Sys2Proof.Machine

/-! ### What marking a last use leaves of a view -/

/-- A mark of a last use changes the pack and the list of dead entries, and nothing else (R118, R249). -/
theorem View.kill_eq (v : View) (r : Nat) (m : Mask) : v.kill r m = { v with pk := (v.kill r m).pk, dead := (v.kill r m).dead } := by
  let mark (v : View) (y : Nat × Split) : View :=
    { v with pk := v.pk.updSplit y.1 (fun z => { z with win := killIn (served z.win r (m &&& z.owned) v.now) z.win }) }
  have marks : ∀ (l : List (Nat × Split)) (w : View), l.foldl mark w = { w with pk := (l.foldl mark w).pk } := by
    intro l
    induction l with
    | nil => exact fun _ => rfl
    | cons y l ih => exact fun w => ih (mark w y)
  unfold View.kill
  rw [marks v.siblings v]

theorem View.lastUse_eq (v : View) (g : Bool) (x : VSrc) (m : Mask) :
    v.lastUse g x m = { v with pk := (v.lastUse g x m).pk, dead := (v.lastUse g x m).dead } := by
  unfold View.lastUse
  split
  · rfl
  · split
    · rw [View.kill_eq (v.kill _ m), View.kill_eq v]
    · exact v.kill_eq _ m

theorem View.lastAddr_eq (v : View) (g : Bool) (ad : Addr) (m : Mask) :
    v.lastAddr g ad m = { v with pk := (v.lastAddr g ad m).pk, dead := (v.lastAddr g ad m).dead } := by
  cases ad with
  | u | a => rfl
  | v x => exact v.lastUse_eq g x m

@[simp] theorem View.lastUse_co (v : View) (g : Bool) (x : VSrc) (m : Mask) : (v.lastUse g x m).co = v.co := by rw [v.lastUse_eq]
@[simp] theorem View.lastUse_slot (v : View) (g : Bool) (x : VSrc) (m : Mask) : (v.lastUse g x m).slot = v.slot := by rw [v.lastUse_eq]
@[simp] theorem View.lastUse_s (v : View) (g : Bool) (x : VSrc) (m : Mask) : (v.lastUse g x m).s = v.s := by rw [v.lastUse_eq]
@[simp] theorem View.lastUse_ag (v : View) (g : Bool) (x : VSrc) (m : Mask) : (v.lastUse g x m).ag = v.ag := by rw [v.lastUse_eq]
@[simp] theorem View.lastAddr_co (v : View) (g : Bool) (ad : Addr) (m : Mask) : (v.lastAddr g ad m).co = v.co := by rw [v.lastAddr_eq]
@[simp] theorem View.lastAddr_slot (v : View) (g : Bool) (ad : Addr) (m : Mask) : (v.lastAddr g ad m).slot = v.slot := by rw [v.lastAddr_eq]
@[simp] theorem View.lastAddr_s (v : View) (g : Bool) (ad : Addr) (m : Mask) : (v.lastAddr g ad m).s = v.s := by rw [v.lastAddr_eq]
@[simp] theorem View.lastAddr_ag (v : View) (g : Bool) (ad : Addr) (m : Mask) : (v.lastAddr g ad m).ag = v.ag := by rw [v.lastAddr_eq]

/-! ### The loads -/

variable {c : Ctl} {ty : Ty} {off : BitVec 24} {s : State} {u v : View} {m : Mask} {w : WgWin} {f : FaultRec} {once uni : Bool} {d : Dest}
  {ls : List (Nat × Nat)}

/-- R136: a scratchpad load with a lane out of bounds faults. -/
theorem View.spLoad_of_bounds (h : u.spBounds kRead (tyBytes ty) once uni ls = some f) : u.spLoad c ty once uni d ls = .fault f := by
  simp only [View.spLoad, h]

/-- R143: a scratchpad load within the window leaves with its values. -/
theorem View.spLoad_of_window (h : u.spBounds kRead (tyBytes ty) once uni ls = none) (hw : u.co.winOf u.slot = some w) :
    u.spLoad c ty once uni d ls = u.begin c false (u.spLoadOp ty uni d ls w) (fun _ s => s) := by
  simp only [View.spLoad, h, hw]

section
variable {d : VReg} {ad : Addr}

theorem execVlds_of_bounds (hi : IssuesW c ([.dv (ty64 ty) d] ++ useAddr false ad) false s v m)
    (h : (v.lastAddr false ad m).spBounds kRead (tyBytes ty) false (adU ad) (v.sos ad off m) = some f) :
    execVlds c ty d ad off s = .next (v.raise f) := by
  simp only [execVlds, issue_of_issues _ hi, View.spLoad_of_bounds h, View.answer]

theorem execVlds_of_window (hi : IssuesW c ([.dv (ty64 ty) d] ++ useAddr false ad) false s v m)
    (h : (v.lastAddr false ad m).spBounds kRead (tyBytes ty) false (adU ad) (v.sos ad off m) = none) (hw : v.co.winOf v.slot = some w) :
    let u := v.lastAddr false ad m
    execVlds c ty d ad off s =
      .next ((u.begin c false (u.spLoadOp ty (adU ad) (v.destV (ty64 ty) d) (v.sos ad off m) w) (fun _ s => s)).placed s) := by
  have hu : (v.lastAddr false ad m).co.winOf (v.lastAddr false ad m).slot = some w := by rw [View.lastAddr_co, View.lastAddr_slot, hw]
  rw [execVlds, issue_of_issues _ hi, View.spLoad_of_window h hu]
  rfl

end

section
variable {d base : SReg}

theorem execSlds_of_bounds (hi : IssuesW c [.ds d, .s 1 base] false s v m)
    (h : v.spBounds kRead (tyBytes ty) true true (v.so1 base off) = some f) : execSlds c ty d base off s = .next (v.raise f) := by
  simp only [execSlds, issue_of_issues _ hi, View.spLoad_of_bounds h, View.answer]

theorem execSlds_of_window (hi : IssuesW c [.ds d, .s 1 base] false s v m)
    (h : v.spBounds kRead (tyBytes ty) true true (v.so1 base off) = none) (hw : v.co.winOf v.slot = some w) :
    execSlds c ty d base off s =
      .next ((v.begin c false (v.spLoadOp ty true (.s d) (v.so1 base off) w) (fun _ s => s)).placed s) := by
  rw [execSlds, issue_of_issues _ hi, View.spLoad_of_window h hw]
  rfl

end

/-- Settles O30: both loads, by whether a lane's offset fails. -/
theorem scratchLoads : Obligations.ScratchLoads := fun _ _ _ _ _ _ =>
  ⟨fun _ _ hi => ⟨fun _ => execVlds_of_bounds hi, fun _ => execVlds_of_window hi⟩,
    fun _ _ hi => ⟨fun _ => execSlds_of_bounds hi, fun _ => execSlds_of_window hi⟩⟩

end Sys2Proof.Machine
end

section
/-! The bytes of words (R8): what a byte of a merged word, of a written word and of a read word is. -/

namespace Sys2Proof.Machine

/-- The bytes of a number, one at a time. -/
theorem bytesOf_getD {n i : Nat} (v : Nat) (h : i < n) : (bytesOf n v).getD i 0 = BitVec.ofNat 8 (v / 256 ^ i) := by
  rw [bytesOf, List.getD_eq_getElem _ _ (by simpa using h)]
  simp only [List.getElem_map, List.getElem_range, Nat.shiftRight_eq_div_pow, Nat.pow_mul]

/-- A byte of a word. -/
theorem bytesOf_word_getD {i : Nat} (x : W32) (h : i < 4) : (bytesOf 4 x.toNat).getD i 0 = x.extractLsb' (8 * i) 8 := by
  rw [bytesOf_getD _ h]
  apply BitVec.eq_of_toNat_eq
  simp only [BitVec.toNat_ofNat, BitVec.extractLsb'_toNat, Nat.shiftRight_eq_div_pow, Nat.pow_mul]

theorem ofBytes_four (f : Nat → Byte) :
    ofBytes ((List.range 4).map f) = (f 0).toNat + 256 * ((f 1).toNat + 256 * ((f 2).toNat + 256 * ((f 3).toNat + 256 * 0))) := rfl

/-- A byte of the word that four bytes make. -/
theorem ofBytes_byte {i : Nat} (f : Nat → Byte) (h : i < 4) :
    (BitVec.ofNat 32 (ofBytes ((List.range 4).map f))).extractLsb' (8 * i) 8 = f i := by
  apply BitVec.eq_of_toNat_eq
  have h0 := (f 0).isLt
  have h1 := (f 1).isLt
  have h2 := (f 2).isLt
  have h3 := (f 3).isLt
  rw [BitVec.extractLsb'_toNat, BitVec.toNat_ofNat, ofBytes_four, Nat.shiftRight_eq_div_pow]
  interval_cases i <;> norm_num <;> omega

theorem sum_four (g : Nat → Nat) : ((List.range 4).map g).foldr (· + ·) 0 = g 0 + (g 1 + (g 2 + (g 3 + 0))) := rfl

/-- Four numbers put at the bytes of a word. -/
theorem sum_shifted (a b c d : Nat) :
    a <<< (8 * 0) + (b <<< (8 * 1) + (c <<< (8 * 2) + (d <<< (8 * 3) + 0))) = a + 256 * (b + 256 * (c + 256 * (d + 256 * 0))) := by
  rw [Nat.shiftLeft_eq, Nat.shiftLeft_eq, Nat.shiftLeft_eq, Nat.shiftLeft_eq]
  omega

/-- A merge is the word of the bytes that it takes. -/
theorem mergeBytes_eq (m : BitVec 4) (x y : W32) :
    mergeBytes m x y =
      BitVec.ofNat 32 (ofBytes ((List.range 4).map (fun i => if m.getLsbD i then y.extractLsb' (8 * i) 8 else x.extractLsb' (8 * i) 8))) := by
  rw [mergeBytes, sum_four, ofBytes_four, sum_shifted]
  simp only [fld, apply_ite BitVec.toNat]

/-- A merge takes each byte from the one word or the other. -/
theorem mergeBytes_byte {i : Nat} (m : BitVec 4) (x y : W32) (h : i < 4) :
    (mergeBytes m x y).extractLsb' (8 * i) 8 = if m.getLsbD i then y.extractLsb' (8 * i) 8 else x.extractLsb' (8 * i) 8 := by
  rw [mergeBytes_eq, ofBytes_byte _ h]

/-- The bytes of a word that an access touches there. -/
theorem byteMask_bit {o n i : Nat} (hn : n = 1 ∨ n = 2 ∨ n = 4) (ho : o < 4) (hi : i < 4) :
    (byteMask o n).getLsbD i = (decide (o ≤ i) && decide (i < o + n)) := by
  rcases hn with rfl | rfl | rfl <;> interval_cases o <;> interval_cases i <;> rfl

/-- A value put at a byte of a word: the bytes there are the value's. -/
theorem shifted_byte {o i : Nat} (x : Nat) (ho : o ≤ i) (hi : i < 4) :
    (BitVec.ofNat 32 (x * 2 ^ (8 * o))).extractLsb' (8 * i) 8 = BitVec.ofNat 8 (x / 256 ^ (i - o)) := by
  apply BitVec.eq_of_toNat_eq
  rw [BitVec.extractLsb'_toNat, BitVec.toNat_ofNat, BitVec.toNat_ofNat, Nat.shiftRight_eq_div_pow]
  interval_cases i <;> interval_cases o <;> norm_num <;> omega

end Sys2Proof.Machine
end

section
/-! The array of a core under writes (R98, R143): which bytes a store in one stretch, in one beat and in all its beats leaves. -/

namespace Sys2Proof.Machine

/-! ### A stretch of bytes -/

/-- Bytes put into the array: one inside the stretch reads as written, one outside as before. -/
theorem Core.sp_spPut (c : Core) (p : Nat) (bs : List Byte) (a : Nat) :
    get 0 (c.spPut p bs).sp a = if p ≤ a ∧ a < p + bs.length then bs.getD (a - p) 0 else get 0 c.sp a := by
  induction bs generalizing c p with
  | nil => exact (if_neg (by simp)).symm
  | cons b bs ih =>
    rw [Core.spPut, ih, get_set, List.length_cons]
    by_cases hin : p + 1 ≤ a ∧ a < p + 1 + bs.length
    · obtain ⟨k, rfl⟩ : ∃ k, a = p + 1 + k := ⟨a - (p + 1), by omega⟩
      rw [if_pos hin, if_pos (by omega), show p + 1 + k - p = k + 1 by omega, show p + 1 + k - (p + 1) = k by omega, List.getD_cons_succ]
    · rw [if_neg hin]
      by_cases hp : p = a
      · subst hp
        rw [if_pos rfl, if_pos (by omega), Nat.sub_self, List.getD_cons_zero]
      · rw [if_neg hp, if_neg (by omega)]

@[simp] theorem Core.updPack_sp (c : Core) (slot : Nat) (f : Pack → Pack) : (c.updPack slot f).sp = c.sp := by
  unfold Core.updPack
  split <;> rfl

@[simp] theorem Core.spClean_sp (c : Core) (covered : Nat → Bool) : (c.spClean covered).sp = c.sp := by
  unfold Core.spClean
  split <;> rfl

/-- A fold whose steps keep the array keeps it. -/
theorem Core.foldl_sp {α : Type} {f : Core → α → Core} {l : List α} {c : Core} (h : ∀ c x, (f c x).sp = c.sp) : (l.foldl f c).sp = c.sp :=
  List.foldlRecOn (motive := fun k : Core => k.sp = c.sp) l f rfl fun k hk x _ => (h k x).trans hk

@[simp] theorem Core.wakeWaits_sp (c : Core) (w : WgWin) (lo hi : Nat) : (c.wakeWaits w lo hi).sp = c.sp := by
  refine Core.foldl_sp fun c slot => Core.foldl_sp fun c i => ?_
  dsimp only
  split
  · split
    · split
      · exact c.updPack_sp _ _
      · rfl
    · rfl
  · rfl

/-- One write to a window: its bytes and no others. -/
theorem Core.sp_spStore (c : Core) (w : WgWin) (off : Nat) (bs : List Byte) (a : Nat) :
    get 0 (c.spStore w off bs).sp a =
      if w.base + off ≤ a ∧ a < w.base + off + bs.length then bs.getD (a - (w.base + off)) 0 else get 0 c.sp a := by
  rw [Core.spStore, Core.wakeWaits_sp, Core.spClean_sp, Core.sp_spPut]

/-! ### The byte that lanes store -/

/-- A lane of `n` bytes at window offset `x.2` stores to byte `a` of the array. -/
def spCovers (base n a : Nat) (x : Nat × Nat) : Bool := decide (base + x.2 ≤ a) && decide (a < base + x.2 + n)

/-- The byte that the lane stores there. -/
def spLaneByte (base : Nat) (data : Nat → W64) (a : Nat) (x : Nat × Nat) : Byte :=
  BitVec.ofNat 8 ((data x.1).toNat / 256 ^ (a - base - x.2))

variable {base n a : Nat} {data : Nat → W64}

theorem spByteOf_eq (ls : List (Nat × Nat)) :
    spByteOf base n data ls a = (ls.reverse.find? (spCovers base n a)).map (spLaneByte base data a) := rfl

theorem spByteOf_nil : spByteOf base n data [] a = none := rfl

/-- Of several lanes, a later one's byte counts. -/
theorem spByteOf_append (xs ys : List (Nat × Nat)) :
    spByteOf base n data (xs ++ ys) a = (spByteOf base n data ys a).or (spByteOf base n data xs a) := by
  simp only [spByteOf_eq, List.reverse_append, List.find?_append, Option.map_or]

theorem spByteOf_singleton (x : Nat × Nat) :
    spByteOf base n data [x] a = if spCovers base n a x then some (spLaneByte base data a x) else none := by
  rw [spByteOf_eq, List.reverse_singleton, List.find?_singleton]
  split <;> rfl

/-- No lane stores below the window. -/
theorem spByteOf_below {ls : List (Nat × Nat)} (h : a < base) : spByteOf base n data ls a = none := by
  rw [spByteOf_eq, List.find?_eq_none.2, Option.map_none]
  intro x _
  simp only [spCovers, Bool.and_eq_true, decide_eq_true_eq]
  omega

/-! ### One beat -/

/-- A fold of which one step alone changes what is read. -/
theorem read_foldl_of_once {σ α β : Type} [DecidableEq α] {read : σ → β} {step : σ → α → σ} {o : α} {φ : β → β}
    (hother : ∀ s x, x ≠ o → read (step s x) = read s) (hhere : ∀ s, read (step s o) = φ (read s)) {l : List α} (hl : l.Nodup) (s : σ) :
    read (l.foldl step s) = if o ∈ l then φ (read s) else read s := by
  induction l generalizing s with
  | nil => rfl
  | cons x l ih =>
    obtain ⟨hx, hl⟩ := List.nodup_cons.1 hl
    rw [List.foldl_cons, ih hl]
    by_cases h : x = o
    · subst h
      rw [if_neg hx, if_pos List.mem_cons_self, hhere]
    · have hmem : o ∈ x :: l ↔ o ∈ l := by simp [Ne.symm h]
      simp only [hmem, hother s x h]

/-- Aligned lanes of one size store to a byte from one offset alone. -/
theorem spCovers_iff {x : Nat × Nat} (hn : 0 < n) (hal : x.2 % n = 0) (ha : base ≤ a) :
    spCovers base n a x = true ↔ x.2 = (a - base) / n * n := by
  obtain ⟨k, hk⟩ := Nat.dvd_of_mod_eq_zero hal
  have hdiv : (a - base) / n = k ↔ n * k ≤ a - base ∧ a - base < n * k + n := by
    rw [Nat.div_eq_iff hn, Nat.mul_comm k n]
    omega
  have hcancel : n * k = (a - base) / n * n ↔ (a - base) / n = k := by
    rw [Nat.mul_comm n k]
    exact ⟨fun h => (Nat.eq_of_mul_eq_mul_right hn h).symm, fun h => by rw [h]⟩
  simp only [spCovers, Bool.and_eq_true, decide_eq_true_eq]
  rw [hk, hcancel, hdiv]
  omega

/-- The last lane at an offset. -/
def lastAt (ls : List (Nat × Nat)) (o : Nat) : Option (Nat × Nat) := (ls.filter (fun x => x.2 == o)).getLast?

theorem spByteOf_eq_lastAt {ls : List (Nat × Nat)} (hn : 0 < n) (hal : ∀ x ∈ ls, x.2 % n = 0) (ha : base ≤ a) :
    spByteOf base n data ls a = (lastAt ls ((a - base) / n * n)).map (spLaneByte base data a) := by
  rw [spByteOf_eq, lastAt, List.getLast?_filter]
  congr 1
  refine List.find?_congr fun x hx => Bool.eq_iff_iff.2 ?_
  rw [spCovers_iff hn (hal x (List.mem_reverse.1 hx)) ha, beq_iff_eq]

theorem lastAt_eq_none {ls : List (Nat × Nat)} {o : Nat} (h : o ∉ ls.map (fun x => x.2)) : lastAt ls o = none := by
  rw [lastAt, List.filter_eq_nil_iff.2, List.getLast?_nil]
  intro x hx
  simp only [beq_iff_eq]
  exact fun e => h (List.mem_map.2 ⟨x, hx, e⟩)

theorem lastAt_offset {ls : List (Nat × Nat)} {o : Nat} {x : Nat × Nat} (h : lastAt ls o = some x) : x.2 = o := by
  have hx := List.mem_filter.1 (List.mem_of_getLast? h)
  exact beq_iff_eq.1 hx.2

/-- A fold whose steps leave what is read leaves it. -/
theorem read_foldl_of_same {σ α β : Type} {read : σ → β} {step : σ → α → σ} (h : ∀ s x, read (step s x) = read s) (l : List α) (s : σ) :
    read (l.foldl step s) = read s :=
  List.foldlRecOn (motive := fun t => read t = read s) l step rfl fun t ht x _ => (h t x).trans ht

/-- The dword that 8-byte lanes store at an offset reaches the array. -/
def Core.spDword (w : WgWin) (data : Nat → W64) (ls : List (Nat × Nat)) (c : Core) (o : Nat) : Core :=
  match lastAt ls o with
  | some x => c.spStore w o (bytesOf 8 (data x.1).toNat)
  | none => c

theorem Core.spBeat_dwords (c : Core) (w : WgWin) (data : Nat → W64) (ls : List (Nat × Nat)) :
    c.spBeat w 8 data ls = (sortBy (fun x y => decide (x ≤ y)) ((ls.map (fun x => x.2)).dedup)).foldl (Core.spDword w data ls) c := rfl

theorem Core.sp_spDword (c : Core) (w : WgWin) (data : Nat → W64) (ls : List (Nat × Nat)) (o a : Nat) :
    get 0 (Core.spDword w data ls c o).sp a =
      if w.base + o ≤ a ∧ a < w.base + o + 8 then ((lastAt ls o).map (spLaneByte w.base data a)).getD (get 0 c.sp a) else get 0 c.sp a := by
  unfold Core.spDword
  split
  next x hx =>
    rw [Core.sp_spStore, bytesOf_length]
    split
    next hin =>
      rw [bytesOf_getD _ (by omega), hx, Option.map_some, Option.getD_some, spLaneByte, lastAt_offset hx, Nat.sub_sub]
    next => rfl
  next hx => rw [hx]; exact (ite_self _).symm

/-- A beat of 8-byte lanes. -/
theorem Core.sp_spBeat_dwords (c : Core) (w : WgWin) (data : Nat → W64) {ls : List (Nat × Nat)} (hal : ∀ x ∈ ls, x.2 % 8 = 0) (a : Nat) :
    get 0 (c.spBeat w 8 data ls).sp a = (spByteOf w.base 8 data ls a).getD (get 0 c.sp a) := by
  have hperm := sortBy_perm (fun x y => decide (x ≤ y)) ((ls.map (fun x => x.2)).dedup)
  have hmem {o : Nat} : o ∈ sortBy (fun x y => decide (x ≤ y)) ((ls.map (fun x => x.2)).dedup) ↔ o ∈ ls.map (fun x => x.2) :=
    hperm.mem_iff.trans List.mem_dedup
  rw [Core.spBeat_dwords]
  by_cases ha : w.base ≤ a
  · rw [spByteOf_eq_lastAt (by decide) hal ha]
    rw [read_foldl_of_once (read := fun c : Core => get 0 c.sp a) (o := (a - w.base) / 8 * 8)
      (φ := ((lastAt ls ((a - w.base) / 8 * 8)).map (spLaneByte w.base data a)).getD) (fun c o ho => ?_) (fun c => ?_)
      (hperm.nodup_iff.2 (List.nodup_dedup _)) c]
    · split
      next => rfl
      next hout => rw [lastAt_eq_none (fun h => hout (hmem.2 h)), Option.map_none, Option.getD_none]
    · rw [Core.sp_spDword]
      split
      next hin =>
        cases hx : lastAt ls o with
        | none => rfl
        | some x =>
          have hx8 := hal x (List.mem_of_mem_filter (List.mem_of_getLast? hx))
          rw [lastAt_offset hx] at hx8
          omega
      next => rfl
    · rw [Core.sp_spDword, if_pos (by omega)]
  · rw [spByteOf_below (by omega), Option.getD_none]
    exact read_foldl_of_same (read := fun c : Core => get 0 c.sp a)
      (fun c o => by rw [Core.sp_spDword, if_neg (by omega)]) _ _

/-! ### Words that lanes of fewer bytes share -/

/-- The byte that claims put at byte `i` of word `o`, if one of them writes there. -/
def claimByte (cs : List Claim) (o i : Nat) : Option Byte :=
  (cs.find? (fun k => k.w == o)).bind (fun k => if k.dm.getLsbD i then some (k.d.extractLsb' (8 * i) 8) else none)

/-- A lane's bytes of one word join the claims of a store (R142). -/
def addClaim (cs : List Claim) (o : Nat) (b : BitVec 4) (d : W32) (g : LaneAddr) : List Claim :=
  if cs.any (fun c => c.w == o) then
    cs.map (fun c => if c.w == o then { c with m := c.m ||| b, dm := c.dm ||| b, b := c.b ||| b, d := mergeBytes b c.d d } else c)
  else cs ++ [⟨o, b, b, mergeBytes b 0 d, b, vpnOf g.va, g.attr, 0⟩]

/-- The claims of the lanes of a store of fewer than 8 bytes, the last lane's put last. -/
theorem storeWords_append {n : Nat} (hn : n ≠ 8) (xs : List (LaneAddr × W64)) (e : LaneAddr × W64) :
    storeWords n (xs ++ [e]) = addClaim (storeWords n xs) (e.1.pa / 4) (byteMask (e.1.pa % 4) n)
      (BitVec.ofNat 32 (e.2.toNat * 2 ^ (8 * (e.1.pa % 4)))) e.1 := by
  rw [storeWords, List.foldl_append]
  exact if_neg hn

theorem addClaim_words (cs : List Claim) (o : Nat) (b : BitVec 4) (d : W32) (g : LaneAddr) :
    (addClaim cs o b d g).map (fun k => k.w) = if o ∈ cs.map (fun k => k.w) then cs.map (fun k => k.w) else cs.map (fun k => k.w) ++ [o] := by
  have hany : cs.any (fun c => c.w == o) = true ↔ o ∈ cs.map (fun k => k.w) := by simp
  unfold addClaim
  by_cases h : o ∈ cs.map (fun k => k.w)
  · rw [if_pos (hany.2 h), if_pos h, List.map_map]
    refine List.map_congr_left fun k _ => ?_
    simp only [Function.comp]
    split <;> rfl
  · rw [if_neg (fun hc => h (hany.1 hc)), if_neg h, List.map_append, List.map_singleton]

theorem addClaim_nodup {cs : List Claim} {o : Nat} {b : BitVec 4} {d : W32} {g : LaneAddr} (h : (cs.map (fun k => k.w)).Nodup) :
    ((addClaim cs o b d g).map (fun k => k.w)).Nodup := by
  rw [addClaim_words]
  split
  next => exact h
  next hno => exact List.nodup_append.2 ⟨h, List.nodup_singleton o, by rintro x hx y hy rfl; exact hno (List.mem_singleton.1 hy ▸ hx)⟩

/-- A lane's bytes stand over those of the lanes before it. -/
theorem claimByte_addClaim (cs : List Claim) (o : Nat) (b : BitVec 4) (d : W32) (g : LaneAddr) (p : Nat) {i : Nat} (hi : i < 4) :
    claimByte (addClaim cs o b d g) p i =
      if p = o ∧ b.getLsbD i = true then some (d.extractLsb' (8 * i) 8) else claimByte cs p i := by
  unfold addClaim claimByte
  by_cases hany : cs.any (fun c => c.w == o) = true
  · rw [if_pos hany, List.find?_map]
    have hw : (fun k : Claim => k.w == p) ∘ (fun c : Claim => if c.w == o then
        { c with m := c.m ||| b, dm := c.dm ||| b, b := c.b ||| b, d := mergeBytes b c.d d } else c) = fun k => k.w == p := by
      funext k
      simp only [Function.comp]
      split <;> rfl
    rw [hw]
    cases hk : cs.find? (fun k => k.w == p) with
    | none =>
      have hp : p ≠ o := by
        rintro rfl
        obtain ⟨k, hk1, hk2⟩ := List.any_eq_true.1 hany
        exact List.find?_eq_none.1 hk k hk1 hk2
      rw [if_neg (fun h => hp h.1), Option.map_none]
    | some k =>
      obtain rfl : k.w = p := by simpa using List.find?_some hk
      simp only [Option.map_some, Option.bind_some]
      by_cases ho : k.w = o
      · simp only [ho, beq_self_eq_true, if_true, true_and, BitVec.getLsbD_or, mergeBytes_byte _ _ _ hi]
        cases b.getLsbD i <;> simp
      · simp only [beq_iff_eq, ho, if_false, false_and]
  · rw [if_neg hany, List.find?_append]
    have hnone : cs.find? (fun k => k.w == o) = none := by
      rw [List.find?_eq_none]
      exact fun k hk hko => hany (List.any_eq_true.2 ⟨k, hk, hko⟩)
    by_cases hp : p = o
    · subst hp
      rw [hnone]
      simp only [Option.none_or, List.find?_singleton, beq_self_eq_true, if_true, Option.bind_some, true_and, mergeBytes_byte _ _ _ hi,
        Option.bind_none]
      cases b.getLsbD i <;> simp
    · have hop : (o == p) = false := beq_eq_false_iff_ne.2 (Ne.symm hp)
      simp only [List.find?_singleton, hop, Bool.false_eq_true, if_false, Option.or_none, hp, false_and]

/-- The claims of a scratchpad store, the last lane's put last. -/
theorem spClaims_append {n : Nat} (hn : n ≠ 8) (data : Nat → W64) (ls : List (Nat × Nat)) (x : Nat × Nat) :
    spClaims n data (ls ++ [x]) = addClaim (spClaims n data ls) (x.2 / 4) (byteMask (x.2 % 4) n)
      (BitVec.ofNat 32 ((data x.1).toNat * 2 ^ (8 * (x.2 % 4)))) ⟨x.1, x.2, x.2, 0, 0⟩ := by
  rw [spClaims, List.map_append, List.map_singleton, storeWords_append hn]
  rfl

theorem spClaims_nodup {n : Nat} (hn : n ≠ 8) (data : Nat → W64) (ls : List (Nat × Nat)) :
    ((spClaims n data ls).map (fun k => k.w)).Nodup := by
  induction ls using List.reverseRecOn with
  | nil => exact List.nodup_nil
  | append_singleton ls x ih =>
    rw [spClaims_append hn]
    exact addClaim_nodup ih

/-- A lane of 1, 2 or 4 bytes lies in one word: it stores to byte `i` of word `o` where its mask says so. -/
theorem spCovers_word {base n o i : Nat} {x : Nat × Nat} (hn : n = 1 ∨ n = 2 ∨ n = 4) (hal : x.2 % n = 0) (hi : i < 4) :
    spCovers base n (base + 4 * o + i) x = true ↔ o = x.2 / 4 ∧ (byteMask (x.2 % 4) n).getLsbD i = true := by
  rw [byteMask_bit hn (Nat.mod_lt _ (by decide)) hi]
  simp only [spCovers, Bool.and_eq_true, decide_eq_true_eq]
  rcases hn with rfl | rfl | rfl <;> omega

/-- The claims of lanes of 1, 2 or 4 bytes hold, byte for byte, what the last lane stores there. -/
theorem claimByte_spClaims {base n o i : Nat} (hn : n = 1 ∨ n = 2 ∨ n = 4) (data : Nat → W64) {ls : List (Nat × Nat)}
    (hal : ∀ x ∈ ls, x.2 % n = 0) (hi : i < 4) : claimByte (spClaims n data ls) o i = spByteOf base n data ls (base + 4 * o + i) := by
  induction ls using List.reverseRecOn with
  | nil => rfl
  | append_singleton ls x ih =>
    rw [List.forall_mem_append, List.forall_mem_singleton] at hal
    obtain ⟨hls, hx⟩ := hal
    rw [spClaims_append (by omega), claimByte_addClaim _ _ _ _ _ _ hi, ih hls, spByteOf_append, spByteOf_singleton]
    by_cases hc : spCovers base n (base + 4 * o + i) x = true
    · obtain ⟨ho, hbit⟩ := (spCovers_word hn hx hi).1 hc
      have hmask := hbit
      rw [byteMask_bit hn (Nat.mod_lt _ (by decide)) hi] at hmask
      simp only [Bool.and_eq_true, decide_eq_true_eq] at hmask
      rw [if_pos ⟨ho, hbit⟩, if_pos hc, Option.some_or, shifted_byte _ hmask.1 hi, spLaneByte,
        show base + 4 * o + i - base - x.2 = i - x.2 % 4 by omega]
    · rw [if_neg (fun h => hc ((spCovers_word hn hx hi).2 h)), if_neg hc, Option.none_or]

/-- The word that the claims of a beat write reaches the array. -/
def Core.spWord (w : WgWin) (cs : List Claim) (c : Core) (o : Nat) : Core :=
  match cs.find? (fun k => k.w == o) with
  | some k => c.spStore w (4 * o) (bytesOf 4 (mergeBytes k.dm (BitVec.ofNat 32 (c.spNum (w.base + 4 * o) 4)) k.d).toNat)
  | none => c

theorem Core.spBeat_words {n : Nat} (hn : n ≠ 8) (c : Core) (w : WgWin) (data : Nat → W64) (ls : List (Nat × Nat)) :
    c.spBeat w n data ls =
      (sortBy (fun x y => decide (x ≤ y)) ((spClaims n data ls).map (fun k => k.w))).foldl (Core.spWord w (spClaims n data ls)) c :=
  if_neg hn

theorem Core.sp_spWord (c : Core) (w : WgWin) (cs : List Claim) (o a : Nat) :
    get 0 (Core.spWord w cs c o).sp a =
      if w.base + 4 * o ≤ a ∧ a < w.base + 4 * o + 4 then (claimByte cs o (a - (w.base + 4 * o))).getD (get 0 c.sp a) else get 0 c.sp a := by
  unfold Core.spWord claimByte
  split
  next k hk =>
    rw [Core.sp_spStore, bytesOf_length, hk]
    split
    next hin =>
      have hi : a - (w.base + 4 * o) < 4 := by omega
      have hread : w.base + 4 * o + (a - (w.base + 4 * o)) = a := by omega
      rw [bytesOf_word_getD _ hi, mergeBytes_byte _ _ _ hi, Core.spNum, Core.spRead, ofBytes_byte _ hi, hread, Option.bind_some]
      split <;> rfl
    next => rfl
  next hk => rw [hk]; exact (ite_self _).symm

/-- A beat of lanes of 1, 2 or 4 bytes. -/
theorem Core.sp_spBeat_words {n : Nat} (hn : n = 1 ∨ n = 2 ∨ n = 4) (c : Core) (w : WgWin) (data : Nat → W64) {ls : List (Nat × Nat)}
    (hal : ∀ x ∈ ls, x.2 % n = 0) (a : Nat) :
    get 0 (c.spBeat w n data ls).sp a = (spByteOf w.base n data ls a).getD (get 0 c.sp a) := by
  have hperm := sortBy_perm (fun x y => decide (x ≤ y)) ((spClaims n data ls).map (fun k => k.w))
  rw [Core.spBeat_words (by omega)]
  by_cases ha : w.base ≤ a
  · obtain ⟨o, i, hi, rfl⟩ : ∃ o i, i < 4 ∧ a = w.base + 4 * o + i :=
      ⟨(a - w.base) / 4, (a - w.base) % 4, Nat.mod_lt _ (by decide), by omega⟩
    rw [← claimByte_spClaims hn data hal hi]
    rw [read_foldl_of_once (read := fun c : Core => get 0 c.sp (w.base + 4 * o + i)) (o := o)
      (φ := (claimByte (spClaims n data ls) o i).getD) (fun c p hp => ?_) (fun c => ?_)
      (hperm.nodup_iff.2 (spClaims_nodup (by omega) data ls)) c]
    · split
      next => rfl
      next hout =>
        have hnone : (spClaims n data ls).find? (fun k => k.w == o) = none := by
          rw [List.find?_eq_none]
          exact fun k hk hko => hout (hperm.mem_iff.2 (List.mem_map.2 ⟨k, hk, beq_iff_eq.1 hko⟩))
        rw [claimByte, hnone, Option.bind_none, Option.getD_none]
    · rw [Core.sp_spWord, if_neg (by omega)]
    · rw [Core.sp_spWord, if_pos (by omega), Nat.add_sub_cancel_left]
  · rw [spByteOf_below (by omega), Option.getD_none]
    exact read_foldl_of_same (read := fun c : Core => get 0 c.sp a) (fun c o => by rw [Core.sp_spWord, if_neg (by omega)]) _ _

/-! ### All beats -/

theorem tyBytes_cases (t : Ty) : tyBytes t = 8 ∨ tyBytes t = 1 ∨ tyBytes t = 2 ∨ tyBytes t = 4 := by
  cases t <;> decide

theorem Core.sp_spBeat (c : Core) (w : WgWin) (t : Ty) (data : Nat → W64) {ls : List (Nat × Nat)} (hal : ∀ x ∈ ls, x.2 % tyBytes t = 0)
    (a : Nat) : get 0 (c.spBeat w (tyBytes t) data ls).sp a = (spByteOf w.base (tyBytes t) data ls a).getD (get 0 c.sp a) := by
  rcases tyBytes_cases t with h | h
  · rw [h] at hal ⊢
    exact Core.sp_spBeat_dwords c w data hal a
  · exact Core.sp_spBeat_words h c w data hal a

/-- The lanes of a list whose beats rise are those of the beats below one, and then that one's. -/
theorem filter_beats_succ {ls : List (Nat × Nat)} (h : ls.Pairwise (fun x y => x.1 / 32 ≤ y.1 / 32)) (b : Nat) :
    ls.filter (fun x => decide (x.1 / 32 < b + 1)) = ls.filter (fun x => decide (x.1 / 32 < b)) ++ ls.filter (fun x => x.1 / 32 == b) := by
  induction ls with
  | nil => rfl
  | cons x ls ih =>
    obtain ⟨hx, hls⟩ := List.pairwise_cons.1 h
    rcases Nat.lt_trichotomy (x.1 / 32) b with hlt | heq | hgt
    · simp only [List.filter_cons, ih hls, show x.1 / 32 < b + 1 by omega, hlt, show ¬x.1 / 32 = b by omega, beq_iff_eq, decide_true,
        if_true, if_false, List.cons_append]
    · have hnone : ls.filter (fun y => decide (y.1 / 32 < b)) = [] := by
        rw [List.filter_eq_nil_iff]
        intro y hy
        have := hx y hy
        simp only [decide_eq_true_eq]
        omega
      simp only [List.filter_cons, ih hls, hnone, heq, Nat.lt_add_one, Nat.lt_irrefl, beq_self_eq_true, decide_true, decide_false,
        Bool.false_eq_true, if_true, if_false, List.nil_append]
    · simp only [List.filter_cons, ih hls, show ¬x.1 / 32 < b + 1 by omega, show ¬x.1 / 32 < b by omega, show ¬x.1 / 32 = b by omega,
        beq_iff_eq, decide_false, Bool.false_eq_true, if_false]

/-- What a store of lanes in rising beats leaves in the array (R142, R143). -/
theorem Core.sp_spWrites (c : Core) (w : WgWin) (t : Ty) (data : Nat → W64) {ls : List (Nat × Nat)} (hal : ∀ x ∈ ls, x.2 % tyBytes t = 0)
    (hbeats : ls.Pairwise (fun x y => x.1 / 32 ≤ y.1 / 32)) (hlanes : ∀ x ∈ ls, x.1 < 128) (a : Nat) :
    get 0 (c.spWrites w (tyBytes t) data ls).sp a = (spByteOf w.base (tyBytes t) data ls a).getD (get 0 c.sp a) := by
  have below (b : Nat) : get 0 ((List.range b).foldl (fun (c : Core) b =>
      c.spBeat w (tyBytes t) data (ls.filter (fun x => x.1 / 32 == b))) c).sp a =
        (spByteOf w.base (tyBytes t) data (ls.filter (fun x => decide (x.1 / 32 < b))) a).getD (get 0 c.sp a) := by
    induction b with
    | zero => simp [spByteOf_nil]
    | succ b ih =>
      rw [List.range_succ, List.foldl_append, List.foldl_cons, List.foldl_nil,
        Core.sp_spBeat _ _ _ _ (fun x hx => hal x (List.mem_of_mem_filter hx)), ih, filter_beats_succ hbeats, spByteOf_append]
      cases spByteOf w.base (tyBytes t) data (ls.filter (fun x => x.1 / 32 == b)) a <;> rfl
  have hall : ls.filter (fun x => decide (x.1 / 32 < 4)) = ls := by
    rw [List.filter_eq_self]
    intro x hx
    have := hlanes x hx
    simp only [decide_eq_true_eq]
    omega
  rw [Core.spWrites, Core.spClean_sp, below 4, hall]

end Sys2Proof.Machine
end

section
/-! What an operation of a compute core that leaves and completes does to memory and to the arrays (R137, R138): nothing. -/

namespace Sys2Proof.Machine

/-! ### Completing an operation -/

@[simp] theorem Core.setWord_sp (c : Core) (w : Nat) (x : L1Word) : (c.setWord w x).sp = c.sp := rfl

@[simp] theorem Core.undo_sp (c : Core) (m : MemOp) : (c.undo m).sp = c.sp := by
  unfold Core.undo
  split
  · rfl
  · refine Core.foldl_sp fun c z => Core.foldl_sp fun c w => ?_
    dsimp only
    split <;> rfl

@[simp] theorem Core.commit_sp (c : Core) (ws : List Nat) : (c.commit ws).sp = c.sp := by
  refine Core.foldl_sp fun c w => ?_
  dsimp only
  split <;> rfl

@[simp] theorem Core.dropCopies_sp (c : Core) (p : Nat → L1Line → Bool) : (c.dropCopies p).sp = c.sp := rfl

@[simp] theorem Core.selfInvalidate_sp (c : Core) (slot : Nat) (mask : Byte) : (c.selfInvalidate slot mask).sp = c.sp := by
  unfold Core.selfInvalidate
  split
  · rfl
  · dsimp only
    rw [Core.updPack_sp]
    split <;> rfl

@[simp] theorem Core.updSplit_sp (c : Core) (slot i : Nat) (f : Split → Split) : (c.updSplit slot i f).sp = c.sp := c.updPack_sp _ _

@[simp] theorem Core.passHorizon_sp (c : Core) (a : Nat) (m : MemOp) : (c.passHorizon a m).sp = c.sp := c.updSplit_sp _ _ _

@[simp] theorem Core.retire_sp (c : Core) (m : MemOp) : (c.retire m).sp = c.sp := c.updPack_sp _ _

/-- Memory and the array of every core are as before. -/
structure State.SameArrays (s t : State) : Prop where
  mem : t.mem = s.mem
  sp : ∀ n, (t.core n).sp = (s.core n).sp

theorem State.SameArrays.refl (s : State) : s.SameArrays s := ⟨rfl, fun _ => rfl⟩

theorem State.SameArrays.trans {s t u : State} (h : s.SameArrays t) (k : t.SameArrays u) : s.SameArrays u :=
  ⟨k.mem.trans h.mem, fun n => (k.sp n).trans (h.sp n)⟩

theorem State.SameArrays.setCore {s : State} {a : Nat} {c : Core} (h : c.sp = (s.core a).sp) : s.SameArrays (s.setCore a c) := by
  refine ⟨rfl, fun n => ?_⟩
  by_cases hn : a = n
  · rw [← hn, State.core_setCore, h]
  · rw [State.core_setCore_ne _ _ _ _ hn]

theorem State.SameArrays.updCore {s : State} {a : Nat} {f : Core → Core} (h : ∀ c, (f c).sp = c.sp) : s.SameArrays (s.updCore a f) :=
  .setCore (h _)

theorem State.SameArrays.addOps {s : State} {a : Nat} {l : List MemOp} : s.SameArrays (s.updCore a (fun k => { k with ops := k.ops ++ l })) :=
  .setCore rfl

theorem State.SameArrays.foldl {α : Type} {f : State → α → State} {l : List α} {s : State} (h : ∀ (t : State) x, t.SameArrays (f t x)) :
    s.SameArrays (l.foldl f s) :=
  List.foldlRecOn (motive := fun t : State => s.SameArrays t) l f (.refl s) fun t ht x _ => ht.trans (h t x)

variable {a : Nat}

theorem State.SameArrays.lateFault {s : State} {slot split : Nat} {f : FaultRec} {replay : Option Mask} (ha : a < 64) :
    s.SameArrays (s.lateFault a slot split f replay) := by
  rw [State.lateFault, if_neg (Nat.not_le.2 ha)]
  exact .updCore fun c => c.updPack_sp _ _

/-- An operation of a compute core that completes. -/
theorem State.SameArrays.finishOp {s : State} {m : MemOp} (ha : a < 64) : s.SameArrays (s.finishOp a m) := by
  unfold State.finishOp
  extract_lets c₀ c₁ c₂ bad okAny c₃ c₄ c₅ s₁ asid
  have h₂ : c₂.sp = c₁.sp := by
    simp only [c₂]
    split
    · exact c₁.commit_sp _
    · rfl
  have h₃ : c₃.sp = c₂.sp := by
    simp only [c₃]
    split
    · exact c₂.selfInvalidate_sp _ _
    · rfl
  have h₅ : c₅.sp = c₄.sp := by
    simp only [c₅]
    split
    · rw [Core.retire_sp, Core.updPack_sp]
    · rfl
  have h₁ : c₁.sp = c₀.sp := Core.undo_sp _ m
  have hs : s.SameArrays s₁ := .setCore (h₅.trans ((c₃.passHorizon_sp a m).trans (h₃.trans (h₂.trans h₁))))
  clear_value s₁ bad
  cases bad with
  | nil => exact hs
  | cons b bs => exact hs.trans (.lateFault ha)

theorem State.SameArrays.settleOps {s : State} (ha : a < 64) : s.SameArrays (s.settleOps a) := .foldl fun _ _ => .finishOp ha

/-! ### Leaving -/

/-- What the steps of leaving keep of a view: the state and the core's array. -/
structure View.Stays (v w : View) : Prop where
  s : w.s = v.s
  ag : w.ag = v.ag
  sp : w.co.sp = v.co.sp

theorem View.Stays.trans {u v w : View} (h : u.Stays v) (k : v.Stays w) : u.Stays w := ⟨k.s.trans h.s, k.ag.trans h.ag, k.sp.trans h.sp⟩

theorem View.Stays.onPack (v : View) (f : Pack → Pack) : v.Stays (v.onPack f) := by
  unfold View.onPack
  dsimp only
  split <;> exact ⟨rfl, rfl, rfl⟩

theorem View.Stays.tokenFor (v : View) (c : Ctl) (lat : Nat) : v.Stays (v.tokenFor c lat) := by
  unfold View.tokenFor
  split <;> exact ⟨rfl, rfl, rfl⟩

theorem View.Stays.tokenV (v : View) (c : Ctl) : v.Stays (v.tokenV c).1 := by
  unfold View.tokenV
  split <;> exact ⟨rfl, rfl, rfl⟩

theorem View.Stays.outV (v : View) (d : Dest) : v.Stays (v.outV d) := by
  unfold View.outV
  split <;> exact ⟨rfl, rfl, rfl⟩

theorem View.Stays.leave (v : View) (c : Ctl) (d : Dest) (held : Bool) : v.Stays (v.leave c d held).1 := by
  have h := (View.Stays.outV v d).trans (.tokenV _ c)
  have hheld : ∀ (b : Bool) (w : View), w.Stays (if b then { w with sp := { w.sp with hold := some w.sp.seq } } else w) := by
    intro b w
    cases b <;> exact ⟨rfl, rfl, rfl⟩
  exact h.trans (hheld _ _)

theorem Core.takes_unless_sp (co : Core) (svc : Bool) (un : IUnit) (t : Nat) : (if svc then co else co.takes un t).sp = co.sp := by
  cases svc <;> rfl

theorem View.Stays.finishKeep (v : View) (kept : List (Nat × Nat)) (c : Ctl) (pc : W64) : v.Stays (v.finishKeep kept c pc) := by
  refine ⟨(View.Stays.onPack _ _).s, (View.Stays.onPack _ _).ag, (Core.takes_unless_sp _ _ _ _).trans (View.Stays.onPack _ _).sp⟩

theorem View.Stays.close {v w : View} (h : v.Stays w) (hco : v.co.sp = (v.s.core v.ag).sp) : v.s.SameArrays w.close := by
  obtain ⟨hs, hag, hsp⟩ := h
  rw [View.close, hs, hag]
  exact .setCore (hsp.trans hco)

/-- An operation that leaves on a compute core: beside what it does at once, memory and the arrays stay. -/
theorem View.begin_placed (v : View) (c : Ctl) (early : Bool) (o : MemOp) (act : Nat → State → State) (s0 : State) (hag : v.ag < 64)
    (hco : v.co.sp = (v.s.core v.ag).sp) :
    ∃ id t, v.s.SameArrays t ∧ (act id t).SameArrays ((v.begin c early o act).placed s0) := by
  unfold View.begin
  extract_lets dead v₁
  have hv : v.Stays v₁ := ⟨rfl, rfl, rfl⟩
  have hw : v.Stays (if early then ((v₁.tokenFor c 1).leave { c with setq := 7 } o.dest true) else v₁.leave c o.dest true).1 := by
    cases early with
    | false => exact hv.trans (.leave v₁ c o.dest true)
    | true => exact (hv.trans (.tokenFor v₁ c 1)).trans (.leave _ { c with setq := 7 } o.dest true)
  revert hw
  generalize (if early then _ else _ : View × Option Nat) = x
  obtain ⟨w, tok⟩ := x
  intro hw
  have hclosed : v.s.SameArrays (w.finishKeep dead c (w.succ c)).close := (hw.trans (.finishKeep w dead c _)).close hco
  have hfresh : v.s.SameArrays (w.finishKeep dead c (w.succ c)).close.fresh1.2 := hclosed.trans ⟨rfl, fun _ => rfl⟩
  revert hfresh
  dsimp only
  generalize (w.finishKeep dead c (w.succ c)).close.fresh1 = fresh
  intro hfresh
  exact ⟨fresh.1, _, hfresh.trans .addOps, .settleOps hag⟩

/-! ### The view of a word that issues -/

theorem State.viewAt_eq {s : State} {p : Site} {v : View} (h : s.viewAt p = some v) : v.s = s ∧ v.ag = p.agent ∧ v.co = s.core p.agent := by
  revert h
  unfold State.viewAt
  split
  · nofun
  · split
    · nofun
    · rintro ⟨⟩
      exact ⟨rfl, rfl, rfl⟩

theorem View.onPack_eq (v : View) (f : Pack → Pack) : v.onPack f = { v with pk := (v.onPack f).pk, sp := (v.onPack f).sp } := by
  unfold View.onPack
  dsimp only
  split <;> rfl

/-- Waiting for its tokens changes the pack and the split of a view. -/
theorem View.ready_eq {v w : View} {c : Ctl} {waits : BitVec 6} {us : List Use} (h : v.ready c waits us = some w) :
    w.s = v.s ∧ w.ag = v.ag ∧ w.co = v.co := by
  revert h
  unfold View.ready
  split
  · nofun
  · split
    · nofun
    · dsimp only
      split
      · nofun
      · split
        · nofun
        · rintro ⟨⟩
          rw [View.settle, View.onPack_eq]
          exact ⟨rfl, rfl, rfl⟩

/-- The view of a word that issues stands in the state, at the agent that executes. -/
theorem IssuesW.view_eq {c : Ctl} {us : List Use} {s : State} {v : View} {m : Mask} (h : IssuesW c us false s v m) :
    v.s = s ∧ v.ag = s.cur.agent ∧ v.co = s.core s.cur.agent := by
  obtain ⟨v0, v1, hview, hready, -, -, rfl, -⟩ := h
  obtain ⟨hs, hag, hco⟩ := State.viewAt_eq hview
  obtain ⟨ks, kag, kco⟩ := View.ready_eq hready
  exact ⟨ks.trans hs, kag.trans hag, kco.trans hco⟩

end Sys2Proof.Machine
end

section
/-! The stores of the scratchpad (R98, R136, R142, R143): a bounds fault before anything is performed, or the lanes' bytes and no others. -/

namespace Sys2Proof.Machine

variable {c : Ctl} {ty : Ty} {off : BitVec 24} {s : State} {u v : View} {m : Mask} {w : WgWin} {f : FaultRec} {once uni : Bool}
  {data : Nat → W64} {ls : List (Nat × Nat)}

/-! ### What no fault says of the lanes -/

theorem View.spRec_eq_none {v : View} {code kind : Nat} {bad : List (Nat × Nat × Nat)} (h : v.spRec code kind once uni bad = none) : bad = [] := by
  cases bad with
  | nil => rfl
  | cons b bs => cases h

theorem View.spBounds_of_spFault {kind n : Nat} (h : v.spFault kind n once uni ls = none) : v.spBounds kind n once uni ls = none := by
  unfold View.spFault at h
  split at h
  · cases h
  · assumption

theorem View.spUe_of_spFault {n : Nat} (h : v.spFault kWrite n once uni ls = none) : ∀ x ∈ ls, v.spUe true n ls x = false := by
  have hrec := h
  rw [View.spFault, View.spBounds_of_spFault h] at hrec
  have hnone := List.filter_eq_nil_iff.1 (List.map_eq_nil_iff.1 (View.spRec_eq_none hrec))
  exact fun x hx => Bool.eq_false_iff.2 (hnone x hx)

/-- R136: every lane's offset is aligned. -/
theorem View.aligned_of_spBounds {kind n : Nat} (h : v.spBounds kind n once uni ls = none) : ∀ x ∈ ls, x.2 % n = 0 := by
  have hnone := List.filterMap_eq_nil_iff.1 (View.spRec_eq_none h)
  intro x hx
  have hflaw := hnone x hx
  rw [Option.map_eq_none_iff] at hflaw
  by_contra hal
  rw [spFlaw, if_pos hal] at hflaw
  cases hflaw

/-! ### The lanes of a form -/

theorem lanesOf_pairwise (m : Mask) : (lanesOf m).Pairwise (· < ·) := List.pairwise_lt_range.filter _

theorem lanesOf_lt {m : Mask} {L : Nat} (h : L ∈ lanesOf m) : L < 96 := List.mem_range.1 (List.mem_of_mem_filter h)

/-- The lanes of a varying form are those of ACT, ascending. -/
theorem View.sos_lanes (v : View) (ad : Addr) (off : BitVec 24) (m : Mask) : (v.sos ad off m).map (fun x => x.1) = lanesOf m := by
  unfold View.sos
  cases ad <;> simp only [List.map_map] <;> exact List.map_id _

theorem View.sos_beats (v : View) (ad : Addr) (off : BitVec 24) (m : Mask) :
    (v.sos ad off m).Pairwise (fun x y => x.1 / 32 ≤ y.1 / 32) := by
  have h : ((v.sos ad off m).map (fun x => x.1)).Pairwise (fun x y => x / 32 ≤ y / 32) := by
    rw [View.sos_lanes]
    exact (lanesOf_pairwise m).imp fun hlt => Nat.div_le_div_right (Nat.le_of_lt hlt)
  rwa [List.pairwise_map] at h

theorem View.sos_lt (v : View) (ad : Addr) (off : BitVec 24) (m : Mask) : ∀ x ∈ v.sos ad off m, x.1 < 128 := by
  intro x hx
  have hlane : x.1 ∈ lanesOf m := by
    rw [← v.sos_lanes ad off m]
    exact List.mem_map_of_mem hx
  exact Nat.lt_trans (lanesOf_lt hlane) (by decide)

/-! ### The stores -/

/-- What a scratchpad store leaves: memory and every other core's array as they were, and in its own array each byte that a lane stores to as
the last such lane has it, and every other as it was. -/
def SpLeft (w : WgWin) (n : Nat) (data : Nat → W64) (ls : List (Nat × Nat)) (s : State) (a : Nat) (t : State) : Prop :=
  t.mem = s.mem ∧ (∀ k, k ≠ a → (t.core k).sp = (s.core k).sp) ∧
    ∀ b, get 0 (t.core a).sp b = (spByteOf w.base n data ls b).getD (get 0 (s.core a).sp b)

/-- R136: a scratchpad store with a lane out of bounds faults. -/
theorem View.spStore_of_bounds (h : u.spBounds kWrite (tyBytes ty) once uni ls = some f) : u.spStore c ty once uni data ls = .fault f := by
  simp only [View.spStore, h]

/-- R143: a scratchpad store without a fault places its split, and leaves the lanes' bytes in the array. -/
theorem View.spStore_of_window (s0 : State) (hag : u.ag < 64) (hco : u.co = u.s.core u.ag)
    (h : u.spFault kWrite (tyBytes ty) once uni ls = none) (hw : u.co.winOf u.slot = some w)
    (hbeats : ls.Pairwise (fun x y => x.1 / 32 ≤ y.1 / 32)) (hlanes : ∀ x ∈ ls, x.1 < 128) :
    ∃ t, u.spStore c ty once uni data ls = .state t ∧ SpLeft w (tyBytes ty) data ls u.s u.ag t := by
  have hbounds := View.spBounds_of_spFault h
  have hok : ls.filter (fun x => !u.spUe true (tyBytes ty) ls x) = ls :=
    List.filter_eq_self.2 fun x hx => by rw [View.spUe_of_spFault h x hx]; rfl
  have hstore : u.spStore c ty once uni data ls = u.begin c true
      { (memOp .store ty .none (ls.map (fun x => u.spAcc true (tyBytes ty) ls x))) with uni := uni }
      (fun _ s => s.updCore u.ag (fun co => co.spWrites w (tyBytes ty) data ls)) := by
    simp only [View.spStore, hbounds, hw, hok]
  rw [hstore]
  obtain ⟨id, t₁, h₁, h₂⟩ := View.begin_placed u c true
    { (memOp .store ty .none (ls.map (fun x => u.spAcc true (tyBytes ty) ls x))) with uni := uni }
    (fun _ s => s.updCore u.ag (fun co => co.spWrites w (tyBytes ty) data ls)) s0 hag (by rw [hco])
  refine ⟨_, rfl, h₂.mem.trans h₁.mem, fun k hk => ?_, fun b => ?_⟩
  · exact (h₂.sp k).trans ((congrArg Core.sp (State.core_updCore_ne _ _ _ _ (Ne.symm hk))).trans (h₁.sp k))
  · refine (congrArg (fun m => get 0 m b) (h₂.sp u.ag)).trans ?_
    rw [State.core_updCore, Core.sp_spWrites _ _ _ _ (View.aligned_of_spBounds hbounds) hbeats hlanes, h₁.sp]

section
variable {ad : Addr} {b : VSrc}

theorem execVsts_of_bounds (hi : IssuesW c (useAddr false ad ++ [useV 2 (ty64 ty) b]) false s v m)
    (h : ((v.lastAddr false ad m).lastUse (ty64 ty) b m).spBounds kWrite (tyBytes ty) false (adU ad) (v.sos ad off m) = some f) :
    execVsts c ty ad off b s = .next (v.raise f) := by
  simp only [execVsts, issue_of_issues _ hi, View.spStore_of_bounds h, View.answer]

theorem execVsts_of_window (hi : IssuesW c (useAddr false ad ++ [useV 2 (ty64 ty) b]) false s v m) (hsvc : v.svc = false)
    (h : ((v.lastAddr false ad m).lastUse (ty64 ty) b m).spFault kWrite (tyBytes ty) false (adU ad) (v.sos ad off m) = none)
    (hw : v.co.winOf v.slot = some w) :
    ∃ t, execVsts c ty ad off b s = .next t ∧ SpLeft w (tyBytes ty) (el (v.vs (ty64 ty) b)) (v.sos ad off m) s s.cur.agent t := by
  obtain ⟨hs, hag, hco⟩ := hi.view_eq
  obtain ⟨t, ht, hleft⟩ := View.spStore_of_window (c := c) (data := el (v.vs (ty64 ty) b)) (w := w) s
    (by simpa [View.svc] using hsvc)
    (by simp only [View.lastUse_co, View.lastUse_s, View.lastUse_ag, View.lastAddr_co, View.lastAddr_s, View.lastAddr_ag, hs, hag, hco]) h
    (by simp only [View.lastUse_co, View.lastUse_slot, View.lastAddr_co, View.lastAddr_slot, hw]) (v.sos_beats ad off m) (v.sos_lt ad off m)
  simp only [View.lastUse_s, View.lastUse_ag, View.lastAddr_s, View.lastAddr_ag, hs, hag] at hleft
  exact ⟨t, by simp only [execVsts, issue_of_issues _ hi, ht, View.answer], hleft⟩

end

section
variable {base b : SReg}

theorem execSsts_of_bounds (hi : IssuesW c [.s 1 base, .s 2 b] false s v m)
    (h : v.spBounds kWrite (tyBytes ty) true true (v.so1 base off) = some f) : execSsts c ty base off b s = .next (v.raise f) := by
  simp only [execSsts, issue_of_issues _ hi, View.spStore_of_bounds h, View.answer]

theorem execSsts_of_window (hi : IssuesW c [.s 1 base, .s 2 b] false s v m) (hsvc : v.svc = false)
    (h : v.spFault kWrite (tyBytes ty) true true (v.so1 base off) = none) (hw : v.co.winOf v.slot = some w) :
    ∃ t, execSsts c ty base off b s = .next t ∧ SpLeft w (tyBytes ty) (fun _ => v.rs b) (v.so1 base off) s s.cur.agent t := by
  obtain ⟨hs, hag, hco⟩ := hi.view_eq
  obtain ⟨t, ht, hleft⟩ := View.spStore_of_window (c := c) (data := fun _ => v.rs b) (w := w) s (by simpa [View.svc] using hsvc)
    (by rw [hs, hag, hco]) h hw (List.pairwise_singleton _ _) (List.forall_mem_singleton.2 (Nat.lt_succ_self 127))
  rw [hs, hag] at hleft
  exact ⟨t, by simp only [execSsts, issue_of_issues _ hi, ht, View.answer], hleft⟩

end

/-- Settles O31: both stores, by whether a lane's offset fails; what the array then holds follows the beats of the store, and those the
words or dwords of each (`Core.sp_spWrites`). -/
theorem scratchStores : Obligations.ScratchStores := fun _ _ _ _ _ _ _ hsvc hw =>
  ⟨fun _ _ hi => ⟨fun _ => execVsts_of_bounds hi, fun h => execVsts_of_window hi hsvc h hw⟩,
    fun _ _ hi => ⟨fun _ => execSsts_of_bounds hi, fun h => execSsts_of_window hi hsvc h hw⟩⟩

end Sys2Proof.Machine
end

section
/-! The module's peer identifier (R384) across what ends a collective: `State.me` is read once, from the register at `peerId`, and neither an
error that a home records nor a function's count of queue errors is written there. So whatever the completions of a collective do to memory,
to the queues and to the transactions, the module keeps its name. As for memory's canonical form, the development has one lemma for each
function that hands the state on, `State.Named.f` for `f`, in the order of the model's files, up to `State.me_abortSlot`. -/

namespace Sys2Proof.Machine

/-- The module's peer identifier is `k`. -/
structure State.Named (k : Nat) (s : State) : Prop where
  me : s.me = k

variable {k : Nat} {s t : State}

theorem State.Named.of_mgmt (h : s.Named k) (e : t.mgmt = s.mgmt) : t.Named k := by
  refine ⟨Eq.trans ?_ h.me⟩
  unfold State.me State.regVal State.mreg
  rw [e]

/-- A register elsewhere is written. -/
theorem State.Named.setMreg {a : Nat} {v : W64} (h : s.Named k) (ha : a / 8 ≠ peerId / 8) : (s.setMreg a v).Named k := by
  refine ⟨Eq.trans ?_ h.me⟩
  unfold State.me State.regVal State.mreg State.setMreg
  rw [look_ins_ne _ _ _ _ ha]

/-! The same of each kind of answer that hands a state on; an answer without a state has nothing to keep. -/

def Served.Named (k : Nat) : Served → Prop
  | .done s => s.Named k
  | .txn s _ => s.Named k
  | .blocked s => s.Named k

def Sync.Named {α : Type} (k : Nat) (p : α → Prop) : Sync α → Prop
  | .ok x => p x
  | .fault _ => True
  | .busy s => s.Named k

def EngRes.Named {α : Type} (k : Nat) : EngRes α → Prop
  | .ok _ s => s.Named k
  | .fault _ _ => True
  | .busy s => s.Named k

def Work.Named {α : Type} (k : Nat) : Work α → Prop
  | .ok _ s => s.Named k
  | .busy s => s.Named k
  | .page s => s.Named k
  | .failed _ => True

def DescRes.Named (k : Nat) : DescRes → Prop
  | .busy s => s.Named k
  | _ => True

def Put.Named (k : Nat) : Put → Prop
  | .done s => s.Named k
  | .kept s => s.Named k
  | .busy s => s.Named k

theorem State.Named.foldl {α : Type} {f : State → α → State} {l : List α} (h : s.Named k)
    (hf : ∀ (t : State) x, t.Named k → (f t x).Named k) : (l.foldl f s).Named k :=
  List.foldlRecOn (motive := State.Named k) l f h fun t ht x _ => hf t x ht

theorem State.Named.ite {c : Prop} {_ : Decidable c} (h : s.Named k) (h' : t.Named k) : (if c then s else t).Named k :=
  iteInduction (fun _ => h) fun _ => h'

theorem State.Named.getD {o : Option State} (h : s.Named k) (h' : ∀ t, o = some t → t.Named k) : (o.getD s).Named k := by
  cases o with
  | none => exact h
  | some t => exact h' t rfl

theorem State.Named.of_snd {α : Type} {p : α × State} {x : α} (h : p.2.Named k) (e : p = (x, s)) : s.Named k := by
  rwa [e] at h

theorem Served.Named.of_done {r : Served} (h : r.Named k) (e : r = .done s) : s.Named k := by
  rwa [e] at h

theorem Served.Named.of_txn {r : Served} {x} (h : r.Named k) (e : r = .txn s x) : s.Named k := by
  rwa [e] at h

theorem Served.Named.of_blocked {r : Served} (h : r.Named k) (e : r = .blocked s) : s.Named k := by
  rwa [e] at h

section
variable {α : Type}

theorem Sync.Named.of_ok {p : α → Prop} {r : Sync α} {x : α} (h : Sync.Named k p r) (e : r = .ok x) : p x := by
  rwa [e] at h

theorem Sync.Named.of_busy {p : α → Prop} {r : Sync α} (h : Sync.Named k p r) (e : r = .busy s) : s.Named k := by
  rwa [e] at h

theorem EngRes.Named.of_ok {r : EngRes α} {x : α} (h : r.Named k) (e : r = .ok x s) : s.Named k := by
  rwa [e] at h

theorem EngRes.Named.of_busy {r : EngRes α} (h : r.Named k) (e : r = .busy s) : s.Named k := by
  rwa [e] at h

theorem Work.Named.of_ok {r : Work α} {x : α} (h : r.Named k) (e : r = .ok x s) : s.Named k := by
  rwa [e] at h

theorem Work.Named.of_busy {r : Work α} (h : r.Named k) (e : r = .busy s) : s.Named k := by
  rwa [e] at h

theorem Work.Named.of_page {r : Work α} (h : r.Named k) (e : r = .page s) : s.Named k := by
  rwa [e] at h

end

theorem DescRes.Named.of_busy {r : DescRes} (h : r.Named k) (e : r = .busy s) : s.Named k := by
  rwa [e] at h

theorem Put.Named.of_busy {r : Put} (h : r.Named k) (e : r = .busy s) : s.Named k := by
  rwa [e] at h

theorem State.Named.setBytes {pa bs} (h : s.Named k) : (s.setBytes pa bs).Named k := h.of_mgmt (by rw [State.setBytes_eq])

theorem State.Named.setWord {w v} (h : s.Named k) : (s.setWord w v).Named k := h.setBytes

theorem State.Named.send {src dst b} (h : s.Named k) : (s.send src dst b).Named k := h.of_mgmt rfl

theorem State.Named.fresh1 (h : s.Named k) : s.fresh1.2.Named k := h.of_mgmt rfl

theorem State.Named.setCore {a c} (h : s.Named k) : (s.setCore a c).Named k := h.of_mgmt rfl

theorem State.Named.updCore {a f} (h : s.Named k) : (s.updCore a f).Named k := h.of_mgmt rfl

theorem State.Named.postEvent {cluster e} (h : s.Named k) : (s.postEvent cluster e).Named k := h.of_mgmt rfl

theorem State.Named.postPart {p e} (h : s.Named k) : (s.postPart p e).Named k := h.foldl fun _ _ ht => ht.postEvent

/-- R33: an error's record has its place in the log, and the log's head its own. -/
theorem State.Named.logError {kind pa part die unit info} (h : s.Named k) : (s.logError kind pa part die unit info).Named k := by
  unfold State.logError
  extract_lets n i p a s₁ s₂ s₃ lost s₄ s₅
  have hlog : ∀ o, o < 32 → (a + o) / 8 ≠ peerId / 8 := by
    intro o ho
    have hi : i < 1024 := Nat.mod_lt _ (by decide)
    have ha : a = 0x12_0000 + 32 * i := rfl
    have hp : peerId = 0x1B_0400 := rfl
    omega
  have h₁ : s₁.Named k := (h.setMreg (hlog 0 (by decide))).setMreg (hlog 8 (by decide))
  have h₃ : s₃.Named k := (h₁.setMreg (hlog 16 (by decide))).setMreg (hlog 24 (by decide))
  have h₅ : s₅.Named k := (h₃.setMreg (by decide)).of_mgmt rfl
  split
  · exact h₅.postPart
  · exact h₅

end Sys2Proof.Machine
end

section
/-! The module's name at the home of a word. -/

namespace Sys2Proof.Machine

variable {k : Nat} {s : State}

theorem State.Named.setReg {w r} (h : s.Named k) : (s.setReg w r).Named k := h.of_mgmt rfl

theorem State.Named.zeroLine {l} (h : s.Named k) : (s.zeroLine l).Named k := by
  unfold State.zeroLine
  exact State.Named.foldl (h.of_mgmt (by rfl)) fun _ _ ht => ht.setWord

theorem State.Named.retag {w} (h : s.Named k) : (s.retag w).Named k := h.of_mgmt rfl

theorem State.Named.countEnci {w} (h : s.Named k) : (s.countEnci w).Named k := by
  unfold State.countEnci
  split
  · extract_lets l n t z b fresh u
    have ht : t.Named k := h.retag
    have hz : z.Named k := ht.zeroLine
    have hu : u.Named k := ht.foldl fun _ _ hw => hw.zeroLine
    clear_value u z
    split
    · exact hz.of_mgmt rfl
    · split
      · exact ht.of_mgmt rfl
      · exact hu.of_mgmt rfl
  · exact h

theorem State.Named.putWord {w m d} (h : s.Named k) : (s.putWord w m d).Named k := h.setWord

theorem State.Named.homeWrite {w m d} (h : s.Named k) : (s.homeWrite w m d).Named k := h.countEnci.putWord

theorem State.Named.clearPoison {w cov} (h : s.Named k) : (s.clearPoison w cov).Named k := by
  unfold State.clearPoison
  extract_lets t
  have ht : t.Named k := (h.of_mgmt (by rfl)).ite h
  exact (ht.of_mgmt (by rfl)).ite ht

theorem State.Named.inspect {w} (h : s.Named k) : (s.inspect w).Named k := (h.of_mgmt (by rfl)).logError.ite h

theorem State.Named.refuse {r w code} (h : s.Named k) : (s.refuse r w code).Named k := by
  unfold State.refuse
  split
  · exact h
  · exact h.send

theorem State.Named.recallAll {r ws} (h : s.Named k) : (s.recallAll r ws).Named k := by
  unfold State.recallAll
  exact State.Named.foldl h.fresh1 fun _ _ ht => ht.send

theorem State.Named.callbacks {r ws} (h : s.Named k) : (s.callbacks r ws).Named k :=
  h.foldl (s := s) fun _ _ ht => ht.send

theorem State.Named.gather {r ws} (h : s.Named k) : (s.gather r ws).Named k := by
  unfold State.gather
  dsimp only
  split
  · exact h.recallAll
  · exact h.callbacks

theorem State.Named.makeRoom {line u} (h : s.Named k) (e : s.makeRoom line = some u) : u.Named k := by
  revert e
  unfold State.makeRoom
  dsimp only
  split
  · nofun
  · split
    · nofun
    · rintro ⟨⟩
      exact h.of_mgmt rfl

theorem State.Named.touch {w} (h : s.Named k) : (s.touch w).Named k := h.of_mgmt rfl

theorem State.Named.atomAt {r ls} (h : s.Named k) : (s.atomAt r ls).Named k := by
  unfold State.atomAt
  extract_lets w t
  have ht : t.Named k := h.touch.countEnci
  split
  extract_lets u
  have hu : u.Named k := by
    unfold u
    split
    · exact ht.putWord
    · exact ht.putWord.putWord
    · exact ht
  exact hu.send

theorem State.Named.register {r w m cb} (h : s.Named k) : (s.register r w m cb).Named k := by
  unfold State.register
  split
  · exact h.makeRoom ‹_›
  · exact h.clearPoison.touch.setReg.send

theorem State.Named.serveRead {r w copy acq} (h : s.Named k) : (s.serveRead r w copy acq).Named k := by
  unfold State.serveRead
  split
  · split
    · split
      · exact h.send
      · exact h.refuse
    · exact h.touch.send
  · split
    · exact h.callbacks
    · exact h.touch.send
  · exact h.gather
  · split
    · exact h.send
    · exact h.refuse

theorem State.Named.serveRegw {r w m cb} (h : s.Named k) : (s.serveRegw r w m cb).Named k := by
  unfold State.serveRegw
  dsimp only
  split
  · split
    · exact h.refuse
    · exact h.register
  · split
    · exact h.setReg.touch.send
    · split
      · exact h.setReg.touch.send
      · exact h.gather
  · split
    · exact h.setReg.touch.send
    · split
      · exact h.setReg.touch.send
      · exact h.gather
  · split
    · exact h.refuse
    · exact h.setWord.register

theorem State.Named.serveEwr {r w m d} (h : s.Named k) : (s.serveEwr r w m d).Named k := by
  unfold State.serveEwr
  split
  · split
    · exact h.refuse
    · exact h.clearPoison.touch.homeWrite
  · split
    · exact h.refuse
    · exact h.clearPoison.touch.setReg.setWord.homeWrite
  · exact h.gather

theorem State.Named.serveAtm {r ls} (h : s.Named k) : (s.serveAtm r ls).Named k := by
  unfold State.serveAtm
  split
  · exact h.refuse
  · dsimp only
    split
    · exact h.gather
    · split
      · exact h.refuse
      · exact h.atomAt

theorem State.Named.serveZap {r w} (h : s.Named k) : (s.serveZap r w).Named k := by
  unfold State.serveZap
  split
  · exact h.refuse
  · extract_lets t
    have ht : t.Named k := h.clearPoison.touch.foldl fun _ _ hu => hu.send
    exact State.Named.send ht.setReg.countEnci.setWord

theorem State.Named.bindAttr {r w u} (h : s.Named k) (e : s.bindAttr r w = some u) : u.Named k := by
  revert e
  unfold State.bindAttr
  dsimp only
  split
  · rintro ⟨⟩
    exact h
  · split
    · rintro ⟨⟩
      exact h.of_mgmt rfl
    · nofun

theorem State.Named.serve {r} (h : s.Named k) : (s.serve r).Named k := by
  unfold State.serve
  extract_lets w t held x refused
  have ht : t.Named k := h.ite (h.foldl fun _ _ hu => hu.inspect)
  split
  · exact ht.foldl fun _ _ hu => hu.send
  · split
    · exact ht.refuse
    · split
      · exact ht.refuse
      · next b e =>
        have hb : b.Named k := ht.bindAttr e
        extract_lets out
        have ho : out.Named k := by
          unfold out
          split
          · exact hb.serveRead
          · exact hb.serveRead
          · exact hb.serveRegw
          · exact hb.serveEwr
          · exact hb.serveAtm
          · exact hb.serveZap
          · split
            · exact ht
            · exact hb.gather
        clear_value out
        cases out with
        | done u => exact (ho.of_mgmt (by rfl)).ite ho
        | txn u _ => exact ho.of_mgmt rfl
        | blocked u => exact ho.of_mgmt rfl

theorem State.Named.pumpList {a0 a1} (h : s.Named k) : (Machine.pumpList a0 a1 s).Named k := by
  fun_induction Machine.pumpList with
  | case1 => exact h.of_mgmt rfl
  | case2 _ _ _ _ _ ih => exact ih h
  | case3 _ _ _ _ _ t e ih => exact ih (h.serve.of_done e)
  | case4 _ _ _ _ _ t x e ih => exact ih ((h.serve.of_txn e).of_mgmt (by rfl))
  | case5 _ _ _ _ _ t e ih => exact ih (h.serve.of_blocked e)

theorem State.Named.pump (h : s.Named k) : s.pump.Named k := by
  unfold State.pump
  extract_lets t
  have ht : t.Named k := State.Named.pumpList (h.of_mgmt (by rfl))
  exact State.Named.pumpList (ht.of_mgmt (by rfl))

theorem State.Named.arrive {r} (h : s.Named k) : (s.arrive r).Named k := (h.of_mgmt (by rfl)).pump

theorem State.Named.mergeWord {t w} (h : s.Named k) : (s.mergeWord t w).Named k := by
  unfold State.mergeWord
  split
  · split
    · exact h.setReg.homeWrite
    · exact h.ite h.setReg
  · split
    · exact h.setReg.homeWrite
    · exact h.homeWrite.setReg.send.ite h.setReg.homeWrite
    · exact h.homeWrite.setReg.send.ite h.setReg.homeWrite
    · exact h.ite h.setReg
  · exact h

theorem State.Named.advance {t} (h : s.Named k) : (s.advance t).Named k := by
  unfold State.advance
  split
  · exact h.of_mgmt rfl
  · split
    · extract_lets os
      split
      extract_lets u
      next num w e =>
      have hw : w.Named k := h.fresh1.of_snd e
      have hu : u.Named k := hw.foldl fun _ _ hx => hx.send
      exact hu.of_mgmt rfl
    · extract_lets u
      have hu : u.Named k := h.foldl fun _ _ hw => hw.mergeWord
      split
      · exact hu.refuse.pump
      · split
        · exact (hu.of_mgmt (by rfl)).pump
        · split
          · exact (hu.serve.of_done ‹_›).pump
          · exact (hu.serve.of_txn ‹_›).of_mgmt (by rfl)
          · exact ((hu.serve.of_blocked ‹_›).of_mgmt (by rfl)).pump

theorem State.Named.answerTxn {p f u} (h : s.Named k) (e : s.answerTxn p f = some u) : u.Named k := by
  revert e
  unfold State.answerTxn
  split
  · rintro ⟨⟩
    exact (h.of_mgmt (by rfl)).advance
  · nofun

theorem State.Named.staleAll {line} (h : s.Named k) : (s.staleAll line).Named k := h.ite (h.of_mgmt (by rfl))

theorem State.Named.answerCb {a w} (h : s.Named k) : (s.answerCb a w).Named k := h.getD fun _ e => h.answerTxn e

theorem State.Named.loseWord {a w} (h : s.Named k) : (s.loseWord a w).Named k := by
  unfold State.loseWord
  dsimp only
  split
  · exact (h.staleAll.touch.setReg.ite h).answerTxn ‹_›
  · exact (h.staleAll.touch.setReg.ite h).answerCb

end Sys2Proof.Machine
end

section
/-! The module's name across what an engine reads and writes of memory. -/

namespace Sys2Proof.Machine

variable {k : Nat} {s : State}

theorem State.Named.dropOwner {a w} (h : s.Named k) : (s.dropOwner a w).Named k := h.of_mgmt rfl

theorem State.Named.bringHome {w} (h : s.Named k) : (s.bringHome w).Named k := by
  unfold State.bringHome
  extract_lets v os
  split
  · exact h
  · exact State.Named.homeWrite (State.Named.setReg (h.foldl fun _ _ ht => ht.dropOwner))

theorem State.Named.drainWord {q w b} (h : s.Named k) : (s.drainWord q w b).Named k := h.arrive.ite h

theorem State.Named.readWord {q w b} (h : s.Named k) : Sync.Named k (fun x => x.2.Named k) (s.readWord q w b) := by
  unfold State.readWord
  split
  · exact h
  · split
    · trivial
    · split
      · exact h.inspect
      · split
        · exact h.loseWord
        · split
          · trivial
          · split
            · split
              · trivial
              · exact h.touch
            · exact h.touch
            · split
              · exact h.drainWord
              · exact h.staleAll.bringHome.touch
            · trivial

theorem State.Named.writeWord {q w m d cov} (h : s.Named k) :
    Sync.Named k (fun x => x.Named k) (s.writeWord q w m d cov) := by
  unfold State.writeWord
  split
  · exact h
  · split
    · trivial
    · split
      · exact h.loseWord
      · split
        · trivial
        · split
          · exact h.drainWord
          · dsimp only
            split
            · split
              · trivial
              · exact h.staleAll.touch.clearPoison.putWord
            · split
              · trivial
              · exact h.staleAll.touch.clearPoison.setReg.setWord.putWord
            · exact h.staleAll.touch.bringHome.putWord

theorem State.Named.readBytes {q pa n} (h : s.Named k) : Sync.Named k (fun x => x.2.Named k) (s.readBytes q pa n) := by
  unfold State.readBytes
  extract_lets go
  have hgo : Sync.Named k (fun x => x.2.Named k) go := by
    refine List.foldlRecOn _ _ (b := .ok ([], s)) (motive := Sync.Named k fun x : List Byte × State => x.2.Named k) h
        fun r hr e _ => ?_
    cases r with
    | ok x =>
      have hw : Sync.Named k (fun y => y.2.Named k) (x.2.readWord q e.1 e.2) := State.Named.readWord hr
      dsimp only
      split
      · next d t k => exact hw.of_ok k
      · trivial
      · next t k => exact hw.of_busy k
    | fault c => exact hr
    | busy t => exact hr
  clear_value go
  cases go <;> exact hgo

theorem State.Named.writeBytes {q pa bs} (h : s.Named k) : Sync.Named k (fun x => x.Named k) (s.writeBytes q pa bs) := by
  unfold State.writeBytes
  extract_lets ws t padded
  split
  · split
    · trivial
    · exact h.drainWord
  · exact h.inspect
  · have ht : t.Named k := h.foldl fun _ _ hu => hu.countEnci
    refine List.foldlRecOn _ _ (b := .ok t) (motive := Sync.Named k (State.Named k)) ht fun r hr e _ => ?_
    cases r with
    | ok u => exact State.Named.writeWord hr
    | fault c => exact hr
    | busy u => exact hr

theorem State.Named.bindFrame {pa attr} (h : s.Named k) : (s.bindFrame pa attr).Named k := h.ite (h.of_mgmt (by rfl))

theorem State.Named.lookupTlb {a asid va write} (h : s.Named k) : (s.lookupTlb a asid va write).2.Named k := by
  unfold State.lookupTlb
  extract_lets cl keepE u key src t
  have ht : t.Named k := h.of_mgmt rfl
  split
  · dsimp only
    exact ht.updCore
  · exact ht.of_mgmt rfl
  · exact ht

end Sys2Proof.Machine
end

section
/-! The module's name across the engines' translation and accesses. -/

namespace Sys2Proof.Machine

variable {k : Nat} {s : State} {α β : Type}

theorem EngRes.Named.andThen {r : EngRes α} {f : α → State → EngRes β} (h : r.Named k)
    (h1 : ∀ x0 x1, x1.Named k → (f x0 x1).Named k) :
    (r.andThen f).Named k := by
  unfold EngRes.andThen
  split
  · exact h1 _ _ h
  · trivial
  · exact h

theorem State.Named.walkFrom {p r va a3 a4 a5} (h : s.Named k) : (s.walkFrom p r va a3 a4 a5).Named k := by
  induction a3 generalizing a4 a5 s with
  | zero => trivial
  | succ fuel ih =>
    have hr : Sync.Named k (fun x => x.2.Named k) (s.readBytes r (entryAddr a4 a5 va) 8) := h.readBytes
    unfold State.walkFrom
    split
    · exact hr.of_busy ‹_›
    · trivial
    · next bs t e =>
      have ht : t.Named k := hr.of_ok e
      dsimp only
      split
      · trivial
      · exact ih ht
      · exact ht

theorem State.Named.engWalk {q va} (h : s.Named k) : (s.engWalk q va).Named k := h.walkFrom.andThen fun _ _ hs => hs

theorem State.Named.engLeaf {q va write} (h : s.Named k) : (s.engLeaf q va write).Named k := by
  unfold State.engLeaf
  split
  · trivial
  · split
    · trivial
    · split
      · split
        · exact h.lookupTlb.of_snd ‹_›
        · exact ((h.lookupTlb.of_snd ‹_›).engWalk).andThen fun _ _ hs => (hs.of_mgmt (by rfl)).updCore
      · dsimp only
        split
        · exact h.of_mgmt rfl
        · exact (h.of_mgmt (by rfl)).engWalk.andThen fun _ _ hs => hs.of_mgmt rfl

theorem State.Named.engXlate {q va write} (h : s.Named k) : (s.engXlate q va write).Named k := by
  unfold State.engXlate
  refine h.engLeaf.andThen fun _ _ hs => ?_
  dsimp only
  split
  · trivial
  · split
    · trivial
    · exact hs

theorem State.Named.engWrite1 {q va bs} (h : s.Named k) : (s.engWrite1 q va bs).Named k := by
  unfold State.engWrite1
  refine h.engXlate.andThen fun _ _ hs => ?_
  split
  · exact hs.setBytes
  · split
    · exact hs.bindFrame.writeBytes.of_ok ‹_›
    · trivial
    · exact (hs.bindFrame.writeBytes.of_busy ‹_›).of_mgmt (by rfl)

theorem State.Named.engWrite {q va bs} (h : s.Named k) : (s.engWrite q va bs).Named k :=
  List.foldlRecOn _ _ (b := .ok _ s) (motive := EngRes.Named k) h fun _ hr _ _ => hr.andThen fun _ _ ht => ht.engWrite1

theorem State.Named.engAtom {q va f} (h : s.Named k) : (s.engAtom q va f).Named k := by
  unfold State.engAtom
  refine h.engXlate.andThen fun x t ht => ?_
  extract_lets r done w
  have hd : ∀ old {u : State}, u.Named k → (done old u).Named k := fun _ _ hu => hu.setBytes
  clear_value done
  split
  · exact hd _ ht
  · split
    · split
      · trivial
      · exact ht.drainWord
    · have hb : Sync.Named k (fun y => y.2.Named k) ((t.bindFrame x.1 x.2).readBytes r x.1 8) := ht.bindFrame.readBytes
      split
      · next bs u e =>
        have hu : u.Named k := hb.of_ok e
        exact hd _ hu.staleAll.bringHome.bringHome.countEnci
      · trivial
      · exact (hb.of_busy ‹_›).of_mgmt (by rfl)

theorem State.Named.readAt {p r pa n} (h : s.Named k) : Sync.Named k (fun x => x.2.Named k) (s.readAt p r pa n) := by
  unfold State.readAt
  split
  · exact h.readBytes
  · trivial

theorem State.Named.writeAt {p r pa bs} (h : s.Named k) : Sync.Named k (fun x => x.Named k) (s.writeAt p r pa bs) := by
  unfold State.writeAt
  split
  · exact h.writeBytes
  · trivial

theorem State.Named.engPageFault {cluster kind id q va f} (h : s.Named k) :
    (s.engPageFault cluster kind id q va f).Named k :=
  h.of_mgmt rfl

end Sys2Proof.Machine
end

section
/-! The module's name across the queues and the completions. -/

namespace Sys2Proof.Machine

variable {k : Nat} {s : State} {α : Type}

theorem EngRes.Named.work {r : EngRes α} {page cluster kind id q} (h : r.Named k) (h1 : s.Named k) :
    (r.work s page cluster kind id q).Named k := by
  unfold EngRes.work
  split
  · exact h
  · exact h
  · split
    · exact h1.engPageFault
    · trivial

theorem State.Named.desc {f q} (h : s.Named k) : (s.desc f q).Named k := by
  unfold State.desc
  split
  · trivial
  · split
    · trivial
    · exact h.readAt.of_busy ‹_›
    · trivial

/-- R328: a function's status holds no register of this module's. -/
theorem State.Named.recordQf {f q code} (h : s.Named k) : (s.recordQf f q code).Named k := h.setMreg (by unfold fnStat peerId; omega)

theorem State.Named.updQueue {f q g} (h : s.Named k) : (s.updQueue f q g).Named k :=
  (h.of_mgmt (by rfl)).ite (h.of_mgmt (by rfl))

theorem State.Named.interrupt {f vec} (h : s.Named k) : (s.interrupt f vec).Named k := h.of_mgmt rfl

theorem Put.Named.state {r : Put} (h : r.Named k) : r.state.Named k := by
  unfold Put.state
  split <;> exact h

theorem Put.Named.map {r : Put} {f : State → State} (h : r.Named k) (h1 : ∀ x0, x0.Named k → (f x0).Named k) :
    (r.map f).Named k := by
  unfold Put.map
  split
  · exact h1 _ h
  · exact h1 _ h
  · exact h

theorem State.Named.putFields {f q rd st err} (h : s.Named k) : (s.putFields f q rd st err).Named k := by
  unfold State.putFields
  split
  · exact h
  · next pa _ =>
    extract_lets r first go keep
    have hf : Sync.Named k (State.Named k) first := by
      unfold first
      split
      · exact h.writeAt
      · exact h
    have hg : Sync.Named k (State.Named k) go := by
      unfold go
      clear_value first
      cases first with
      | ok t => exact State.Named.writeAt hf
      | fault c => exact hf
      | busy t => exact hf
    clear_value go
    cases go with
    | ok t => exact hg
    | fault c => exact h.updQueue.recordQf.interrupt
    | busy t => exact hg

theorem State.Named.queueStopped {f q} (h : s.Named k) : (s.queueStopped f q).Named k := h.updQueue

theorem Put.Named.stopped {r : Put} {f q} (h : r.Named k) : (r.stopped f q).Named k := by
  have hm : (r.map fun s => s.queueStopped f q).Named k := h.map fun _ hs => hs.queueStopped
  cases r with
  | done s => exact State.Named.interrupt (State.Named.queueStopped h)
  | kept s => exact hm
  | busy s => exact hm

theorem State.Named.queueError {f q d err} (h : s.Named k) : (s.queueError f q d err).Named k := h.putFields.stopped

theorem State.Named.queueUnread {f q} (h : s.Named k) : (s.queueUnread f q).Named k := h.putFields.stopped

theorem State.Named.finDone {f} (h : s.Named k) : (s.finDone f).Named k :=
  (h.of_mgmt (by rfl)).interrupt.ite (h.of_mgmt (by rfl))

theorem State.Named.runFin {f} (h : s.Named k) : (s.runFin f).Named k := by
  unfold State.runFin
  split
  · exact h.finDone
  · extract_lets p q cl upd drop lost dec bs
    have hupd : ∀ g {t : State}, t.Named k → (upd g t).Named k := fun _ _ ht => ht.of_mgmt rfl
    have hdrop : ∀ {t : State}, t.Named k → (drop t).Named k := fun ht => ht.of_mgmt rfl
    have hlost : ∀ {t : State}, t.Named k → (lost t).Named k := by
      intro t ht
      unfold lost
      split
      · exact hdrop ht
      · split
        · split
          · exact ht.queueError.of_busy ‹_›
          · exact hdrop ht.queueError.state
        · split
          · exact ht.queueUnread.of_busy ‹_›
          · exact hdrop ht.queueUnread.state
        · exact ht.desc.of_busy ‹_›
        · exact hdrop ht
    have hdec : ∀ {t : State}, t.Named k → (dec t).Named k := by
      intro t ht
      have hw := EngRes.Named.work (page := f.page) (cluster := cl) (kind := 4) (id := f.id) (q := q)
        (ht.engAtom (q := q) (va := f.sig.toNat) (f := fun v => v - 1)) ht
      unfold dec
      split
      · exact (hw.of_ok ‹_›).finDone
      · exact hw.of_busy ‹_›
      · exact hupd _ (hw.of_page ‹_›)
      · exact hlost ht
    split
    · exact h
    · split
      · exact hdec h
      · have hw := EngRes.Named.work (page := f.page) (cluster := cl) (kind := 4) (id := f.id) (q := q)
          (h.engWrite (q := q) (va := (f.sig + 8).toNat) (bs := bs)) h
        split
        · exact hdec (hupd _ (hw.of_ok ‹_›))
        · exact hw.of_busy ‹_›
        · exact hupd _ (hw.of_page ‹_›)
        · exact hlost h

theorem State.Named.runFins (h : s.Named k) : s.runFins.Named k := h.foldl fun _ _ ht => ht.runFin

end Sys2Proof.Machine
end

section
/-! The module's name across the end of a collective. -/

namespace Sys2Proof.Machine

variable {k : Nat} {s : State}

theorem State.Named.endColl {c status code} (h : s.Named k) : (s.endColl c status code).Named k :=
  (h.of_mgmt (by rfl)).runFins

theorem State.Named.abortColl {c} (h : s.Named k) : (s.abortColl c).Named k := h.endColl

theorem State.Named.abortSlot {g view} (h : s.Named k) : (s.abortSlot g view).Named k :=
  h.foldl fun _ _ ht => ht.abortColl

theorem State.me_abortSlot (s : State) (g view : Nat) : (s.abortSlot g view).me = s.me :=
  (State.Named.abortSlot (k := s.me) ⟨rfl⟩).me

end Sys2Proof.Machine
end

section
/-! The events of the host and the trust engine (R103, R375-R381, R392-R401), each under the condition that its rule states. -/

namespace Sys2Proof.Machine

variable {f : Nat} {s t u w : State} {off n : Nat}

/-! ### The memory aperture (R379) -/

theorem State.drainAper_of_nil (h : s.aper = []) : s.drainAper = s := by
  rw [State.drainAper, h]
  rfl

theorem State.aperBusy_of_nil (h : s.aper = []) : s.aperBusy f = false := by
  simp [State.aperBusy, h]

theorem execHostApertureRead_of_closed (ha : s.aper = []) (hc : s.apertureClosed f off = true) :
    execHostApertureRead f off n s = .next (s.answerHost (.unsupported f)) := by
  simp only [execHostApertureRead, State.drainAper_of_nil ha, hc, if_true]

theorem execHostApertureRead_of_ok {bs : List Byte} (ha : s.aper = []) (hc : s.apertureClosed f off = false)
    (hr : s.engRead (s.apertureEng f kRead) off n = .ok bs t) : execHostApertureRead f off n s = .next (t.answerHost (.data f bs)) := by
  simp only [execHostApertureRead, State.drainAper_of_nil ha, hc, State.aperBusy_of_nil ha, hr, Bool.false_eq_true, if_false]

theorem execHostApertureWrite_of_closed {bs : List Byte} (hc : s.apertureClosed f off = true) :
    execHostApertureWrite f off bs s = .next (s.answerHost (.unsupported f)) := if_pos hc

theorem execHostApertureWrite_of_open {bs : List Byte} (hc : s.apertureClosed f off = false) :
    execHostApertureWrite f off bs s = .next ({ s with aper := s.aper ++ [⟨f, off, bs, none⟩] } : State).drainAper :=
  if_neg (Bool.eq_false_iff.1 hc)

theorem State.aperWrite_of_ok {a : AperWrite} {x y : Unit} (hn : a.notify = none)
    (hc : s.engCheck (s.apertureEng a.fn kWrite) a.off a.bs.length true = .ok x t)
    (hw : t.engWrite (s.apertureEng a.fn kWrite) a.off a.bs = .ok y w) : s.aperWrite a = .ok () w := by
  simp only [State.aperWrite, hn, hc, EngRes.andThen, hw]

theorem State.drainAper_of_single {a : AperWrite} (ha : s.aper = [a]) (hw : s.aperWrite a = .ok () w) :
    s.drainAper = { w with aper := w.aper.erase a } := by
  simp only [State.drainAper, ha, List.foldl_cons, List.foldl_nil, hw, List.contains_nil, Bool.false_eq_true, if_false]

theorem execHostApertureWrite_of_ok {bs : List Byte} {x y : Unit} : let a : AperWrite := ⟨f, off, bs, none⟩
    let r : State := { s with aper := s.aper ++ [a] }
    s.apertureClosed f off = false → s.aper = [] → r.engCheck (r.apertureEng f kWrite) off bs.length true = .ok x t →
    t.engWrite (r.apertureEng f kWrite) off bs = .ok y w → execHostApertureWrite f off bs s = .next { w with aper := w.aper.erase a } := by
  intro a r hc ha hchk hwr
  have hone : r.aper = [a] := by rw [show r.aper = s.aper ++ [a] from rfl, ha]; rfl
  rw [execHostApertureWrite_of_open hc]
  exact congrArg Host.Outcome.next (State.drainAper_of_single hone (State.aperWrite_of_ok rfl hchk hwr))

theorem execHostApertureAtomic_of_ok {ty : Ty} {op : AOp} {opd cmp : W64} {x y : Unit} {bs : List Byte} {z : State} (ha : s.aper = [])
    (hc : s.apertureClosed f off = false) (hop : op = AOp.add ∨ op = .xchg ∨ op = .cas) (hty : tyBytes ty = 4 ∨ tyBytes ty = 8)
    (hal : off % tyBytes ty = 0) (hchk : s.engCheck (s.apertureEng f kAtomic) off (tyBytes ty) true = .ok x t)
    (hr : t.engRead (s.apertureEng f kAtomic) off (tyBytes ty) = .ok bs w)
    (hw : w.engWrite (s.apertureEng f kAtomic) off
      (bytesOf (tyBytes ty) (atomOp ⟨0, op, ty, opd, cmp⟩ (BitVec.ofNat 64 (ofBytes bs))).val.toNat) = .ok y z) :
    execHostApertureAtomic f off ty op opd cmp s = .next (z.answerHost (.data f bs)) := by
  have hknown : ((op == AOp.add || op == AOp.xchg || op == AOp.cas) && (tyBytes ty == 4 || tyBytes ty == 8)) = true := by
    simpa using ⟨or_assoc.2 hop, hty⟩
  simp only [execHostApertureAtomic, State.drainAper_of_nil ha, State.aperBusy_of_nil ha, hc, hknown, hal, hchk, hr, hw, EngRes.andThen,
    Bool.not_true, Bool.or_self, ne_eq, not_true_eq_false, decide_false, Bool.false_eq_true, if_false]

/-! ### Host memory and functions (R154, R377, R381) -/

theorem execHostCompletion_of_write {h : HostReq} {rest : List HostReq} {bs : List Byte} (hq : s.hostq = h :: rest) (hop : h.op = .write bs) :
    execHostCompletion true s = .next ((({ s with hostq := rest } : State).setBytes h.pa bs).updCore h.src
      (fun c => c.updPack h.slot (fun p => { p with hostw := p.hostw - 1 }))) := by
  simp only [execHostCompletion, hq, hop, if_true]

/-- R377: a binding is written while no queue of the function is valid and no migration is under way. -/
theorem execFnBindWrite_of_idle (v : W64) (hd : s.bound f = false ∨ s.descBusy f = none ∧ s.anyValid f = false) (hm : f = 0 ∨ s.migSt f = 0) :
    execFnBindWrite f v s = .next ((s.setMreg (fnBind f) v).setMreg (fnStat f) (putFld (s.mreg 0 (fnStat f)) 16 16 0)) := by
  have hbusy : (if s.bound f then s.descBusy f else none) = none := by
    rcases hd with hb | ⟨hb, -⟩
    · rw [hb]; rfl
    · rw [hb, ite_self]
  have hstop : ((s.bound f && s.anyValid f) || (f ≠ 0 && s.migSt f ≠ 0)) = false := by
    have hvalid : (s.bound f && s.anyValid f) = false := by
      rcases hd with hb | ⟨-, hb⟩ <;> simp [hb]
    have hmig : (f ≠ 0 && s.migSt f ≠ 0 : Bool) = false := by
      rcases hm with h | h <;> simp [h]
    rw [hvalid, hmig]
    rfl
  simp only [execFnBindWrite, hbusy, hstop, Bool.false_eq_true, if_false]

theorem execVfFlr_of_clear (h0 : 0 < f) (h1 : f ≤ 384) (hc : s.clearValid f = .ok t) :
    execVfFlr f s = .next (((t.launches.filter (fun e => e.2.fn == f)).map (fun e => e.1)).foldl (fun (t : State) id => t.killLaunch id)
      (let u := t.dropPosted f
       { u with
         queues := u.queues.map (fun (x : QState) => if x.fn == f then x.flushed else x)
         graphs := u.graphs.filter (fun (g : Graph) => g.fn != f)
         posted := u.posted.filter (fun e => e.1 != f)
         aper := u.aper.filter (fun (w : AperWrite) => w.fn != f) })) := by
  have hvf : ¬(decide (f = 0) || decide (384 < f)) = true := by simp; omega
  rw [execVfFlr, if_neg hvf, hc]

theorem execRegisterWrite_of_aligned {who addr : Nat} {v : W64} (hn : n = 4 ∨ n = 8) (ha : addr % n = 0) :
    execRegisterWrite who addr n v s = .next (s.mgmtWrite (partyOf who) addr n v) := by
  rcases hn with rfl | rfl <;> simp [execRegisterWrite, ha]

/-! ### Owners (R395) -/

theorem execOwnerEnroll_of_absent (h : s.presence = false) : execOwnerEnroll f s = .next (s.enrolled 2) := by
  simp [execOwnerEnroll, h]

theorem execOwnerRevoke_of_absent (h : s.presence = false) : execOwnerRevoke f s = .next (s.enrolled 2) := by
  simp [execOwnerRevoke, h]

theorem execOwnerEnroll_of_present (hp : s.presence = true) (hf : f = 1 ∨ f = 2) (ho : look s.owners f = none) :
    execOwnerEnroll f s =
      .next (({ s with owners := ins s.owners f ((List.range 8).map (fun i => s.regVal (ownHash i))) } : State).enrolled 1) := by
  rcases hf with rfl | rfl <;> simp [execOwnerEnroll, hp, ho]

theorem execOwnerRevoke_of_present {o : List W64} (hp : s.presence = true) (hf : f = 1 ∨ f = 2) (ho : look s.owners f = some o) :
    execOwnerRevoke f s = .next (({ s with owners := del s.owners f } : State).enrolled 1) := by
  rcases hf with rfl | rfl <;> simp [execOwnerRevoke, hp, ho]

/-! ### Reports (R397, R399) -/

theorem execAttestationRequest_of_idle (v : W64) (h : fld (s.mreg 0 (attStat f)) 0 2 ≠ 1) : execAttestationRequest f v s =
    .next { (s.setMreg (attStat f) 1) with attests := (s.setMreg (attStat f) 1).attests ++ [⟨f, attBuf v⟩] } := if_neg h

/-- R36, R397: a report's buffer is aligned to 128 bytes and canonical. -/
theorem getLsbD_attBuf (v : W64) {b : Nat} (hb : b < 64) :
    (attBuf v).getLsbD b = (if b < 7 then false else if b < 57 then v.getLsbD b else v.getLsbD 56) := by
  have hmsb : ((v >>> 7).setWidth 50 ++ (0 : BitVec 7)).msb = v.getLsbD 56 := by
    rw [BitVec.msb_eq_getLsbD_last, BitVec.getLsbD_append]
    simp
  rw [attBuf, BitVec.getLsbD_signExtend, hmsb, BitVec.getLsbD_append]
  by_cases h7 : b < 7
  · simp [h7, hb, show b < 57 by omega]
  · by_cases h57 : b < 57
    · simp [h7, hb, h57, show b - 7 < 50 by omega, show 7 + (b - 7) = b by omega]
    · simp [h7, hb, h57]

/-- R397, R399: a report that is written ends its request; the first since an activation lets a held function be resumed. -/
theorem execAttestationDone_of_ok {a : Attest} {nonce : List Byte} {r : Unit} (ha : s.attests.find? (fun (a : Attest) => a.fn == f) = some a)
    (hchk : s.engCheck (s.apertureEng f kRead) (a.buf.toNat + 128) 1024 true = .ok r t)
    (hrd : t.engRead (s.apertureEng f kRead) a.buf.toNat 64 = .ok nonce u)
    (hwr : u.engWrite { s.apertureEng f kRead with kind := kWrite } (a.buf.toNat + 128)
      (u.report f nonce ++ bytesOf 512 (Config.reportSignature (u.report f nonce))) = .ok () w) :
    let x : State := { (w.setMreg (attStat f) 2) with attests := w.attests.filter (fun (b : Attest) => b.fn != f) }
    (x.fnHeld f = false → execAttestationDone f s = .next (x.interrupt f 513)) ∧
    (x.fnHeld f = true → x.reported.contains f = false →
      execAttestationDone f s = .next (({ x with reported := x.reported ++ [f] } : State).interrupt f 513)) := by
  intro x
  have hdone : execAttestationDone f s =
      .next ((if x.fnHeld f && !x.reported.contains f then { x with reported := x.reported ++ [f] } else x).interrupt f 513) := by
    simp only [execAttestationDone, ha, hchk, EngRes.andThen, hrd, hwr]
    rfl
  exact ⟨fun hh => by rw [hdone, hh]; rfl, fun hh hr => by rw [hdone, hh, hr]; rfl⟩

theorem execAttResume_of_reported (h : s.reported.contains f = true) :
    execAttResume f s = .next { (s.setMreg (fnStat f) (putFld (s.mreg 0 (fnStat f)) 9 1 0)) with
      reported := s.reported.filter (fun g => g != f) } := if_pos h

/-! ### Activation and migration (R398, R400, R401) -/

theorem execActivationGo_of_staged (ha : s.activating = false) (hm : (List.range 384).any (fun i => s.migSt (i + 1) != 0) = false)
    (hi : s.imageOk (s.imageBytes stagingBase) = true) : execActivationGo s = .next ((s.setAct 1).preemptAll 0 (fun _ => true)) := by
  simp only [execActivationGo, ha, hm, hi, Bool.not_true, Bool.false_eq_true, if_false]

/-- R398: once the packs are saved and the lanes have given up their queues, an activation goes on with its copy. -/
theorem execActivationDone_of_empty (ha : s.activating = true) (hp : (List.range 64).all (fun n => (s.core n).packs.isEmpty) = true)
    (hq : s.queues.all (fun (x : QState) => x.lane.isNone) = true) :
    (s.copied = none → execActivationDone s = .next s.beginCopy) ∧
    ∀ k, s.copied = some k →
      let img := s.imageBytes stagingBase
      (k < img.length → execActivationDone s = .next { s.flashPut k ((img.drop k).take 4096) with copied := some (k + 4096) }) ∧
      (img.length ≤ k →
        let t := ({ s.flashPut 0 (img.take 1024) with copied := none } : State).blow img
        let t := ((List.range 32).filter (fun n => (t.core (64 + n)).started)).foldl (fun (t : State) n => t.startShard n img) t
        execActivationDone s = .next ((t.setAct 2).interrupt 0 514)) := by
  refine ⟨fun hc => ?_, fun k hc => ⟨fun hk => ?_, fun hk => ?_⟩⟩
  · simp only [execActivationDone, ha, hp, hq, hc, Bool.and_self, Bool.not_true, Bool.or_self, Bool.false_eq_true, if_false]
  · simp only [execActivationDone, ha, hp, hq, hc, hk, Bool.and_self, Bool.not_true, Bool.or_self, Bool.false_eq_true, if_false, if_true]
  · simp only [execActivationDone, ha, hp, hq, hc, Nat.not_lt.2 hk, Bool.and_self, Bool.not_true, Bool.or_self, Bool.false_eq_true, if_false]

theorem execMigrationQuiesced_of_idle (hm : s.migSt f = 1) (hq : s.queues.any (fun (x : QState) => x.fn == f && x.lane.isSome) = false)
    (hp : ∀ n, n < 64 → ∀ e ∈ (s.core n).packs, ∀ l, look s.launches e.2.launch = some l → l.fn ≠ f) :
    execMigrationQuiesced f s = .next (s.setMig f 2 0) := by
  have hpacks : (List.range 64).any (fun n => (s.core n).packs.any (fun e =>
      match look s.launches e.2.launch with | some l => l.fn == f | none => false)) = false := by
    refine List.any_eq_false.2 fun n hn => Bool.eq_false_iff.1 (List.any_eq_false.2 fun e he => ?_)
    cases hl : look s.launches e.2.launch with
    | none => exact Bool.false_ne_true
    | some l => simpa using hp n (List.mem_range.1 hn) e he l hl
  have hgo : (decide (s.migSt f = 1) && !(s.queues.any (fun (x : QState) => x.fn == f && x.lane.isSome) ||
      (List.range 64).any (fun n => (s.core n).packs.any (fun e =>
        match look s.launches e.2.launch with | some l => l.fn == f | none => false)))) = true := by
    rw [hm, hq, hpacks]
    rfl
  exact if_pos hgo

theorem execMigrationDone_of_busy (hm : s.migSt f ≠ 0) : execMigrationDone f s =
    .next (({ s with forced := s.forced.filter (fun g => g != f) } : State).setMig f 0 0) := if_neg hm

end Sys2Proof.Machine
end

section
/-! The events of the peers, the network and the flash (R372, R382-R391), each under the condition that its rule states. -/

namespace Sys2Proof.Machine

variable {f : Nat} {s t u w : State} {x : Group} {src dst chan view seq coll off arg : Nat} {ok : Bool} {bs : List Byte}

/-! ### Frames (R384, R385) -/

theorem execBrevorAck_of_member (h : s.fromMember f src = true) : execBrevorAck f src chan seq s = .next { s with
    outgoing := s.outgoing.filter (fun (x : Frame) => !(x.g == f && x.dst == src && x.chan == chan && decide (x.seq ≤ seq))) } := by
  rw [execBrevorAck, h]
  rfl

theorem execBrevorNak_of_member (h : s.fromMember f src = true) : execBrevorNak f src chan seq s = .next (({ s with
    outgoing := s.outgoing.filter (fun (x : Frame) => !(x.g == f && x.dst == src && x.chan == chan && decide (x.seq < seq))) } : State).loseWorn
      f src chan) := by
  rw [execBrevorNak, h]
  rfl

theorem execRetransmitTimeout_of_late {x : Frame}
    (hx : s.outgoing.find? (fun (x : Frame) => x.g == f && x.dst == dst && x.chan == chan) = some x) (ht : x.sent + 20000 ≤ s.time) :
    execRetransmitTimeout f dst chan s = .next (s.loseWorn f dst chan) := by
  rw [execRetransmitTimeout, hx]
  exact if_neg (Nat.not_lt.2 ht)

theorem execBrevorData_of_bad (hx : look s.groups f = some x) (hp : s.brevorPort x.part = true)
    (h : s.frameGood f src view ok = false ∨ 8192 < bs.length) :
    execBrevorData f src chan view seq coll off bs ok s = .next (s.dropFrame f) := by
  rcases h with h | h <;> simp [execBrevorData, hx, hp, h]

theorem execBrevorData_of_stale (hx : look s.groups f = some x) (hp : s.brevorPort x.part = true) (hg : s.frameGood f src view ok = true)
    (hb : bs.length ≤ 8192) (ho : s.inOrder f src chan seq view = (false, t)) :
    execBrevorData f src chan view seq coll off bs ok s = .next t := by
  simp [execBrevorData, hx, hp, hg, Nat.not_lt.2 hb, ho]

theorem execBrevorData_of_started {c : Coll} (hx : look s.groups f = some x) (hp : s.brevorPort x.part = true)
    (hg : s.frameGood f src view ok = true) (hb : bs.length ≤ 8192) (ho : s.inOrder f src chan seq view = (true, t))
    (hc : t.colls.find? (fun (c : Coll) => c.slot == f && c.coll == coll && c.view == view && c.started) = some c) :
    execBrevorData f src chan view seq coll off bs ok s =
      .next (t.updColl c.id (fun c => { c with got := c.got ++ [(x.rank src, off, bs)] })) := by
  simp only [execBrevorData, hx, hp, hg, Nat.not_lt.2 hb, ho, hc, Bool.not_true, decide_false, Bool.or_self, Bool.false_eq_true, if_false]

/-! ### Groups (R387) -/

theorem execBrevorControl_join : execBrevorControl f src chan view seq ctlJoin arg ok s = .next (s.sponsor f src arg) := if_pos rfl

theorem State.beforeView_leave : s.beforeView f src ctlLeave arg x = none := by
  simp [State.beforeView, ctlLeave, ctlAskReport, ctlKey, ctlReport]

theorem execBrevorControl_leave (hx : look s.groups f = some x) (hp : s.brevorPort x.part = true) (hg : s.frameGood f src view ok = true)
    (ho : s.inOrder f src chan seq view = (true, t)) :
    execBrevorControl f src chan view seq ctlLeave arg ok s = .next (t.askLeave f arg) := by
  have hjoin : ¬ctlLeave = ctlJoin := by decide
  have hrefuse : ¬ctlLeave = ctlRefuse := by decide
  simp only [execBrevorControl, hjoin, hrefuse, hx, hp, State.beforeView_leave, hg, ho, Bool.not_true, Bool.false_eq_true, if_false, if_true]

theorem execTgJoin_of_self {v : W64} (hx : look s.groups f = none) (hme : s.me ≠ 0) (hp : fld v 2 20 = s.me) :
    execTgJoin f v s = .next { s with
      next := s.next + 1
      groups := ins s.groups f { (Group.fresh (fld v 38 8) (fld v 22 16) s.next) with joined := true, view := 1, members := [s.me] } } := by
  simp only [execTgJoin, hx, hme, hp, Bool.not_true, decide_false, Bool.or_self, Bool.false_eq_true, if_false, if_true]

theorem execTgJoin_of_peer {v : W64} (hx : look s.groups f = none) (hme : s.me ≠ 0) (hp : fld v 2 20 ≠ s.me) :
    execTgJoin f v s = .next (({ s with
      next := s.next + 1
      groups := ins s.groups f { (Group.fresh (fld v 38 8) (fld v 22 16) s.next) with asked := some (fld v 2 20, fld v 22 16) } } : State).putFrame
        f (fld v 2 20) 0 0 0 frControl ctlJoin (fld v 22 16)) := by
  simp only [execTgJoin, hx, hme, hp, Bool.not_true, decide_false, Bool.or_self, Bool.false_eq_true, if_false]

theorem execTgLeave_of_more {v : W64} (hx : look s.groups f = some x) (hj : x.joined = true) (hm : x.members ≠ [fld v 2 20]) :
    execTgLeave f v s = .next (s.askLeave f (fld v 2 20)) := by
  simp only [execTgLeave, hx, hj, hm, Bool.not_true, Bool.false_eq_true, if_false]

/-! ### Collectives (R388-R391) -/

theorem execCollectiveRingPoll_of_ok {page asid rd : Nat} {rg : List Byte} {root : W64} {y : State} (hpage : s.vcpPage f = some page)
    (hb : s.bound f = true) (hst : s.fnStopped f = false) (hcb : regCb (s.reg ((page + 0x8400 + 16) / 4)) = false)
    (hpf : s.engfaults.any (fun x => x.kind == 6 && x.id == f) = false)
    (hun : s.colls.any (fun (c : Coll) => c.fn == f && !c.started && c.done.isNone) = false)
    (hrg : s.readAt (s.fnPart f) ⟨collAgent, true⟩ (page + 0x8400) 64 = .ok (rg, t)) (hv : recNum rg 10 1 % 2 = 1)
    (hlo : 4 ≤ recNum rg 8 1) (hhi : recNum rg 8 1 ≤ 12) (hrd : rd = recNum rg 12 4) (hmore : rd ≠ recNum rg 16 4)
    (hsp : t.queueSpace f (recNum rg 9 1 % 64) = (asid, root))
    (hbs : t.engRead ⟨collAgent, some (s.fnPart f), asid, root, kTransfer, true⟩ (recNum rg 0 8 + 64 * (rd % 2 ^ recNum rg 8 1)) 64 = .ok bs u)
    (hw : u.writeAt (s.fnPart f) ⟨collAgent, true⟩ (page + 0x8400 + 12) (bytesOf 4 ((rd + 1) % 2 ^ 32)) = .ok y) :
    execCollectiveRingPoll f s = .next (y.takeColl f asid root bs) := by
  subst hrd
  have hring : ¬(decide (recNum rg 10 1 % 2 = 0) || decide (recNum rg 8 1 < 4) || decide (12 < recNum rg 8 1) ||
      decide (recNum rg 12 4 = recNum rg 16 4)) = true := by
    simp only [Bool.or_eq_true, decide_eq_true_eq]
    omega
  simp only [execCollectiveRingPoll, hpage, hb, hst, hcb, hpf, hun, hrg, Bool.not_true, Bool.or_self, Bool.false_and, Bool.false_eq_true, if_false]
  rw [if_neg hring]
  simp only [hsp, hbs, hw]

section
variable {c : Coll}

theorem execCollectiveComplete_of_done {st code : Nat} (hc : s.colls[f]? = some c) (hd : c.done = some (st, code)) :
    execCollectiveComplete f s = .next (s.endColl c st code) := by
  simp only [execCollectiveComplete, hc, hd]

theorem execCollectiveComplete_of_fenced (hc : s.colls[f]? = some c) (hx : look s.groups c.slot = some x) (hd : c.done = none)
    (hb : (s.regVal bootStat).getLsbD 44 = true) : execCollectiveComplete f s = .next (s.endColl c 3 3) := by
  simp only [execCollectiveComplete, hc, hd, hx, bit, hb, if_true]

theorem execCollectiveComplete_of_viewless (hc : s.colls[f]? = some c) (hx : look s.groups c.slot = some x) (hd : c.done = none)
    (hb : (s.regVal bootStat).getLsbD 44 = false) (hv : x.joined = false ∨ x.view ≠ c.view) :
    execCollectiveComplete f s = .next (s.abortColl c) := by
  have hview : (!x.joined || decide (x.view ≠ c.view)) = true := by
    rcases hv with hv | hv <;> simp [hv]
  simp only [execCollectiveComplete, hc, hd, hx, bit, hb, hview, Bool.false_eq_true, if_false, if_true]

theorem execCollectiveComplete_of_unstarted (hc : s.colls[f]? = some c) (hx : look s.groups c.slot = some x) (hd : c.done = none)
    (hb : (s.regVal bootStat).getLsbD 44 = false) (hj : x.joined = true) (hv : x.view = c.view) (hs : c.started = false) :
    execCollectiveComplete f s = .next (s.startColl c) := by
  simp only [execCollectiveComplete, hc, hd, hx, bit, hb, hj, hv, hs, Bool.not_true, Bool.not_false, ne_eq, not_true_eq_false, decide_false,
    Bool.or_self, Bool.false_eq_true, if_false, if_true]

end

/-! ### The network and the flash (R372, R382) -/

theorem execEthernetFrameReceive_tcp {sock : Nat} (hf : f < 8) (hb : bs.length ≤ 9216) (hfence : bit (s.regVal bootStat) (36 + f) = false)
    (hcfg : bit (s.regVal (portCfg f)) 9 = true) : execEthernetFrameReceive f 0 sock bs s = .next { s with socks := s.socks.map (fun (k : Sock) =>
      if k.id == sock && k.part == fld (s.regVal (portCfg f)) 0 8 && k.udp == false then { k with rx := k.rx ++ bs } else k) } := by
  simp [execEthernetFrameReceive, hfence, hcfg, Nat.not_le.2 hf, Nat.not_lt.2 hb]

theorem execNvmeCompletion_failed {x : Flash} (hx : s.flashq[f]? = some x) : execNvmeCompletion f false s = .next (({ s with
    flashq := s.flashq.eraseIdx f
    jobs := s.jobs.map (fun (j : Job) => if j.cluster == x.cluster && j.entry == x.entry && j.lanes.contains x.lane then
      { j with res := j.res ++ [(x.lane, 0, 5)] } else j) } : State).deliverJobs x.cluster) := by
  simp only [execNvmeCompletion, hx]
  rfl

end Sys2Proof.Machine
end

section
/-! The events of the host, the trust engine and the peers, settled. -/

namespace Sys2Proof.Machine

/-- R387: the key of the next view is installed; that the collectives of the old view end leaves the module its name. -/
theorem execViewInstall_of_member {f view : Nat} {members : List Nat} {s : State} {x : Group} (hx : look s.groups f = some x)
    (hmay : s.mayInstall x view members = true) (hme : members.contains s.me = true) :
    let y : Group := { x.settled with joined := true, view := view, members := members, key := (x.newKey.map (fun k => k.1)).getD s.next }
    let t := ({ s with next := s.next + 1 } : State).abortSlot f x.view
    execViewInstall f view members s = .next (({ t with
      groups := ins t.groups f y
      outgoing := t.outgoing.filter (fun (e : Frame) => e.g != f)
      early := t.early.filter (fun (e : Frame) => e.g != f) } : State).postView f y false) := by
  have hname : (({ s with next := s.next + 1 } : State).abortSlot f x.view).me = s.me := State.me_abortSlot _ f x.view
  simp only [execViewInstall, hx, hmay, hname, hme, Bool.not_true, Bool.false_eq_true, if_false]

/-- Settles O59: one lemma for each event under the condition that its rule states, and those of `Sys2Proof/Laws/Complete` where nothing is
on its way. -/
theorem hostAndPeerEvents : Obligations.HostAndPeerEvents := fun f s =>
  ⟨fun _ _ ha => ⟨execHostApertureRead_of_closed ha, fun _ _ => execHostApertureRead_of_ok ha⟩,
    fun _ _ => ⟨execHostApertureWrite_of_closed, execHostApertureWrite_of_open, fun _ _ _ _ => execHostApertureWrite_of_ok⟩,
    fun _ _ _ _ _ _ _ _ _ ha hc hal => execHostApertureAtomic_of_ok (ty := .n32) ha hc (.inl rfl) (.inl rfl) hal,
    fun _ _ _ => execHostCompletion_of_write,
    execFnBindWrite_of_idle,
    fun _ => execVfFlr_of_clear,
    rfl,
    fun _ _ _ _ => execRegisterWrite_of_aligned,
    fun h => ⟨execOwnerEnroll_of_absent h, execOwnerRevoke_of_absent h⟩,
    execOwnerEnroll_of_present,
    fun _ => execOwnerRevoke_of_present,
    execAttestationRequest_of_idle,
    fun v _ => getLsbD_attBuf v,
    fun _ _ _ _ _ _ => execAttestationDone_of_ok,
    execAttResume_of_reported,
    execActivationGo_of_staged,
    execActivationDone_of_empty,
    rfl, rfl,
    execMigrationQuiesced_of_idle,
    execMigrationDone_of_busy,
    fun _ _ => rfl,
    fun _ _ _ h => ⟨execBrevorAck_of_member h, execBrevorNak_of_member h⟩,
    fun _ _ _ => execRetransmitTimeout_of_late,
    fun _ _ _ _ _ _ _ _ _ hx hp => ⟨execBrevorData_of_bad hx hp, fun _ => execBrevorData_of_stale hx hp,
      fun _ _ => execBrevorData_of_started hx hp⟩,
    fun _ _ _ _ _ _ => ⟨execBrevorControl_join, fun _ _ hx hp hg => ⟨State.beforeView_leave, execBrevorControl_leave hx hp hg⟩⟩,
    fun _ hx hme => ⟨execTgJoin_of_self hx hme, execTgJoin_of_peer hx hme⟩,
    fun _ _ => execTgLeave_of_more,
    fun _ _ _ => execViewInstall_of_member,
    fun _ _ _ _ _ _ _ _ _ => execCollectiveRingPoll_of_ok,
    fun _ _ hc hx => ⟨fun _ _ => execCollectiveComplete_of_done hc, execCollectiveComplete_of_fenced hc hx,
      execCollectiveComplete_of_viewless hc hx, execCollectiveComplete_of_unstarted hc hx⟩,
    fun _ _ => execEthernetFrameReceive_tcp,
    fun _ => execNvmeCompletion_failed,
    exec_hostApertureRead_of_reaches f s,
    exec_hostApertureWrite_of_reaches f s,
    exec_hostApertureAtomic_of_reaches f s,
    exec_vfFlr_of_restful f s,
    exec_attestationDone_of_reaches f s,
    exec_collectiveRingPoll_of_reaches f s⟩

end Sys2Proof.Machine
end

section
/-! The fields that the encoder puts into a word are the fields that the decoder reads: the codes, the names and the layouts of R106-R110,
R132, R220, R236 and R254. -/

namespace Sys2Proof

/-! ### Codes and names read back (R109, R110, R221, R240, R250) -/

@[simp] theorem itypeOf_code (t : IType) : itypeOf t.code = some t := by cases t <;> rfl
@[simp] theorem ptypeOf_code (t : PType) : ptypeOf t.code = some t := by cases t <;> rfl
@[simp] theorem ftypeOf_code (t : FType) : ftypeOf t.code = some t := by cases t <;> rfl
@[simp] theorem tyOf_code (t : Ty) : tyOf t.code = some t := by cases t <;> rfl
@[simp] theorem rndOf_code (r : Rnd) : rndOf r.code = some r := by cases r <;> rfl
@[simp] theorem scopeOf_code (s : Scope) : scopeOf s.code = some s := by cases s <;> rfl
@[simp] theorem condOf_code (k : Cond) : condOf k.code = some k := by cases k <;> rfl
@[simp] theorem fcondOf_code (k : FCond) : fcondOf k.code = k := by cases k <;> rfl
@[simp] theorem shflOf_code (o : Shfl) : shflOf o.code = some o := by cases o <;> rfl
@[simp] theorem packOf_code (m : PackMode) : packOf m.code = some m := by cases m <;> rfl
@[simp] theorem aopOf_code (o : AOp) : aopOf o.code = some o := by cases o <;> rfl
@[simp] theorem wcondOf_code (k : WCond) : wcondOf k.code = k := by cases k <;> rfl
@[simp] theorem bcondOf_code (k : BCond) : bcondOf k.code = some k := by cases k <;> rfl
@[simp] theorem tlbOf_code (m : TlbMode) : tlbOf m.code = some m := by cases m <;> rfl
@[simp] theorem hopOf_code (o : HOp) : hopOf o.code = some o := by cases o <;> rfl
@[simp] theorem lenOf_code (l : Len) : lenOf l.code = some l := by cases l <;> rfl
@[simp] theorem on_flag1 (b : Bool) : on (flag1 b) = b := by cases b <;> rfl

theorem setWidth_fldReg {n : Nat} (r : BitVec n) (h : n ≤ 11) : (fldReg r).setWidth n = r := by
  rw [fldReg, BitVec.setWidth_setWidth_of_le r h, BitVec.setWidth_eq]

@[simp] theorem sName_fldReg (r : SReg) : sName (fldReg r) = r := setWidth_fldReg r (by decide)
@[simp] theorem aName_fldReg (r : AReg) : aName (fldReg r) = r := setWidth_fldReg r (by decide)
@[simp] theorem pName_fldReg (r : PReg) : pName (fldReg r) = r := setWidth_fldReg r (by decide)
@[simp] theorem cName_fldReg (r : CReg) : cName (fldReg r) = r := setWidth_fldReg r (by decide)
@[simp] theorem extractLsb'_fldReg (m : BitVec 4) : (fldReg m).extractLsb' 0 4 = m := by
  rw [← BitVec.setWidth_eq_extractLsb' (by decide), setWidth_fldReg m (by decide)]

@[simp] theorem flag1_getElem (b : Bool) : (flag1 b)[0] = b := by cases b <;> rfl
@[simp] theorem affMod_getElem_zero (n w t : Bool) : (affMod n w t)[0] = t := by cases n <;> cases w <;> cases t <;> rfl
@[simp] theorem affMod_getElem_one (n w t : Bool) : (affMod n w t)[1] = w := by cases n <;> cases w <;> cases t <;> rfl
@[simp] theorem affMod_getElem_two (n w t : Bool) : (affMod n w t)[2] = n := by cases n <;> cases w <;> cases t <;> rfl

/-! ### A word of the common layouts taken apart (R106, R107) -/

/-- A word of the common layouts as the decoder takes it apart. -/
def rdOf (c : Ctl) (op : BitVec 8) (r : Regs) (x y : W32) : Rd :=
  ⟨c.len, ⟨r.mod, flag1 r.lb, flag1 r.la, r.sb, r.sa, r.dst, c.guard, c.setq, c.waitm, c.stall, op, c.len.code⟩, LX.ofBits x, x, y⟩

section
variable (c : Ctl) (op : BitVec 8) (r : Regs) (x y : W32)

theorem rd_wordOf : (wordOf c op r x y).rd c.len = rdOf c op r x y := by
  rw [Word.rd, wordOf, baseOf, Base.ofBits_bits, rdOf]

@[simp] theorem rdOf_c : (rdOf c op r x y).c = c := rfl
@[simp] theorem rdOf_len : (rdOf c op r x y).len = c.len := rfl
@[simp] theorem rdOf_mod : (rdOf c op r x y).b.mod = r.mod := rfl
@[simp] theorem rdOf_dst : (rdOf c op r x y).b.dst = r.dst := rfl
@[simp] theorem rdOf_sa : (rdOf c op r x y).b.sa = r.sa := rfl
@[simp] theorem rdOf_sb : (rdOf c op r x y).b.sb = r.sb := rfl
@[simp] theorem rdOf_x : (rdOf c op r x y).x = LX.ofBits x := rfl
@[simp] theorem rdOf_ext : (rdOf c op r x y).ext = x := rfl
@[simp] theorem rdOf_imm : (rdOf c op r x y).imm = y := rfl
@[simp] theorem rdOf_va : (rdOf c op r x y).va = ⟨r.sa, r.la⟩ := congrArg (VSrc.mk r.sa) (on_flag1 r.la)
@[simp] theorem rdOf_vb : (rdOf c op r x y).vb = ⟨r.sb, r.lb⟩ := congrArg (VSrc.mk r.sb) (on_flag1 r.lb)
@[simp] theorem rdOf_m0 : (rdOf c op r x y).m0 = r.mod.getLsbD 0 := rfl
@[simp] theorem rdOf_m1 : (rdOf c op r x y).m1 = r.mod.getLsbD 1 := rfl
@[simp] theorem rdOf_m2 : (rdOf c op r x y).m2 = r.mod.getLsbD 2 := rfl

end

@[simp] theorem ofBits_lxOf (f : Bool) (k : BitVec 3) (t : BitVec 4) (sc : BitVec 11) (lc : Bool) :
    LX.ofBits (lxOf f k t sc lc) = { res := 0, flg := flag1 f, rsc := k, ty := t, lc := flag1 lc, sc := sc } := by
  rw [lxOf, LX.ofBits_bits]

/-- What is asked of a word for `i`: its length and opcode pass the checks 3, 5 and 7 of R112, it is no dovetail word, and its fields are
those of `i`. -/
def ReadsBack (w : Word) (i : Instr) : Prop :=
  ∃ l, lenOf (Base.ofBits w.base).len = some l ∧ opAssigned (Base.ofBits w.base).op.toNat = true ∧
    ((Base.ofBits w.base).op.toNat == 0xFF) = false ∧ (opLens (Base.ofBits w.base).op.toNat).contains l = true ∧ parse (w.rd l) = some i

/-- The opcode is assigned to a single instruction with the lengths `ls` (R104, R123). -/
abbrev Listed (op : BitVec 8) (ls : List Len) : Prop :=
  opAssigned op.toNat = true ∧ (op.toNat == 0xFF) = false ∧ opLens op.toNat = ls

theorem parse_some {r : Rd} {i j : Instr} (hk : parse r = some j) (hj : j = i) : parse r = some i := hj ▸ hk

theorem parse_map {α : Type} {r : Rd} {i : Instr} {o : Option α} {f : α → Instr} {t : α} (hk : parse r = o.map f) (ho : o = some t)
    (hj : f t = i) : parse r = some i := by rw [hk, ho, Option.map_some, hj]

theorem ReadsBack.wordOf {c : Ctl} {op : BitVec 8} {r : Regs} {x y : W32} {i : Instr} {ls : List Len} (ho : Listed op ls)
    (hl : c.lenIn ls = true) (hp : parse (rdOf c op r x y) = some i) : ReadsBack (wordOf c op r x y) i := by
  obtain ⟨ha, hd, rfl⟩ := ho
  refine ⟨c.len, ?_⟩
  rw [rd_wordOf, Sys2Proof.wordOf, baseOf, Base.ofBits_bits]
  exact ⟨lenOf_code c.len, ha, hd, hl, hp⟩

/-! ### The encoder's helpers (R132, R220, R236) -/

theorem encSL_eq {c : Ctl} (op : BitVec 8) (r : Regs) {b : USrc} (h : b.lenOk c .short .long = true) :
    ∃ sb x, encSL c op r b = wordOf c op { r with sb := sb } x 0 ∧ (rdOf c op { r with sb := sb } x 0).ub .short = b := by
  cases b with
  | reg s =>
    have hc : c.len = .short := eq_of_beq h
    exact ⟨fldReg s, 0, rfl, by simp [Rd.ub, hc]⟩
  | imm v =>
    have hc : c.len = .long := eq_of_beq h
    exact ⟨r.sb, v, rfl, by simp [Rd.ub, hc]⟩

theorem encLW_eq {c : Ctl} (op : BitVec 8) (r : Regs) {k : USrc} (h : k.lenOk c .long .wide = true) :
    ∃ x y, encLW c op r k = wordOf c op r x y ∧ (rdOf c op r x y).uc = k := by
  cases k with
  | reg s =>
    have hc : c.len = .long := eq_of_beq h
    exact ⟨_, 0, rfl, by simp [Rd.uc, hc]⟩
  | imm v =>
    have hc : c.len = .wide := eq_of_beq h
    exact ⟨0, v, rfl, by simp [Rd.uc, hc]⟩

/-- SB, LB and the words above hold the last operand of a varying form; RSC and SC are there in a word that is not short. -/
theorem encV_eq {c : Ctl} (op : BitVec 8) (r : Regs) {b : VOpnd} (rsc : BitVec 3) (sc : BitVec 11) (lc : Bool) {sh wd : Bool}
    (h : b.lenOk c sh wd = true) :
    ∃ sb lb x y, encV c op r b rsc sc lc = wordOf c op { r with sb := sb, lb := lb } x y ∧
      (rdOf c op { r with sb := sb, lb := lb } x y).vo = b ∧
      (c.len ≠ .short → (LX.ofBits x).rsc = rsc ∧ (LX.ofBits x).sc = sc ∧ (LX.ofBits x).lc = flag1 lc) := by
  cases b with
  | v s =>
    have hc : c.len = .long ∨ c.len = .short := by simpa using (Bool.or_eq_true_iff.1 h).imp_right fun k => Bool.and_elim_right k
    rcases hc with hc | hc
    · exact ⟨s.reg, s.last, _, 0, by simp [encV, hc]; rfl, by simp [Rd.vo, hc], by simp⟩
    · exact ⟨s.reg, s.last, 0, 0, by simp [encV, hc], by simp [Rd.vo, hc], by simp [hc]⟩
  | s s =>
    have hc : c.len = .long := eq_of_beq h
    exact ⟨fldReg s, r.lb, _, 0, rfl, by simp [Rd.vo, hc], by simp⟩
  | imm v =>
    have hc : c.len = .wide := eq_of_beq (Bool.and_elim_right h)
    exact ⟨r.sb, r.lb, _, v, rfl, by simp [Rd.vo, hc], by simp⟩

/-- What stands above the base of a memory word: nothing in the short one (R132). -/
def MemWords (c : Ctl) (ty : Ty) (off : BitVec 24) (x8 : Byte) (f : Bool) (rsc : BitVec 3) (sc : BitVec 11) (lc : Bool) (x y : W32) : Prop :=
  (c.len = .short → x = 0 ∧ y = 0) ∧ (c.len ≠ .short → x = lxOf f rsc ty.code sc lc ∧ y = x8 ++ off)

theorem encM_eq {c : Ctl} (op : BitVec 8) (r : Regs) {ty : Ty} {off : BitVec 24} (x8 : Byte) (f : Bool) (rsc : BitVec 3) (sc : BitVec 11)
    (lc : Bool) (h : memLen c ty off = true) :
    ∃ x y, encM c op r ty off x8 f rsc sc lc = wordOf c op r x y ∧ (rdOf c op r x y).mty = some ty ∧ (rdOf c op r x y).off = off ∧
      MemWords c ty off x8 f rsc sc lc x y := by
  have hc : c.len = .wide ∨ (c.len = .short ∧ ty = .i32) ∧ off = 0 := by simpa using Bool.and_elim_right h
  rcases hc with hc | ⟨⟨hc, rfl⟩, rfl⟩
  · refine ⟨lxOf f rsc ty.code sc lc, x8 ++ off, by simp [encM, hc], by simp [Rd.mty, hc], ?_, by simp [hc], by simp⟩
    exact BitVec.extractLsb'_append_eq_right
  · exact ⟨0, 0, by simp [encM, hc], by simp [Rd.mty, hc], rfl, by simp, by simp [hc]⟩

section
variable {c : Ctl} {ty : Ty} {off : BitVec 24} {x8 : Byte} {f lc : Bool} {rsc : BitVec 3} {sc : BitVec 11} {x y : W32} (op : BitVec 8) (r : Regs)

theorem MemWords.flg (m : MemWords c ty off x8 f rsc sc lc x y) (h : (c.len == .wide || !f) = true) : on (LX.ofBits x).flg = f := by
  by_cases hc : c.len = .short
  · have hf : f = false := by simpa [hc] using h
    rw [(m.1 hc).1, hf]
    rfl
  · rw [(m.2 hc).1, ofBits_lxOf, on_flag1]

theorem MemWords.scope {k : Scope} (m : MemWords c ty off x8 f k.code sc lc x y) (h : scopeLen c k = true) :
    (rdOf c op r x y).scope = some k := by
  by_cases hc : c.len = .short
  · have hk : k = .device := by simpa [scopeLen, hc] using h
    rw [Rd.scope, rdOf_len, if_pos hc, hk]
  · rw [Rd.scope, rdOf_len, if_neg hc, rdOf_x, (m.2 hc).1, ofBits_lxOf, scopeOf_code]

theorem MemWords.eight (m : MemWords c ty off x8 f rsc sc lc x y) (h : (c.len == .wide || x8 == 0) = true) : (rdOf c op r x y).x8 = x8 := by
  by_cases hc : c.len = .short
  · have hx : x8 = 0 := by simpa [hc] using h
    rw [Rd.x8, rdOf_imm, (m.1 hc).2, hx]
    rfl
  · rw [Rd.x8, rdOf_imm, (m.2 hc).2]
    exact BitVec.extractLsb'_append_eq_left

theorem MemWords.wide (m : MemWords c ty off x8 f rsc sc lc x y) (hc : c.len = .wide) :
    LX.ofBits x = ⟨0, flag1 f, rsc, ty.code, flag1 lc, sc⟩ := by
  rw [(m.2 (by simp [hc])).1, ofBits_lxOf]

end

theorem USrc.lenIn {b : USrc} {c : Ctl} {lr li : Len} (h : b.lenOk c lr li = true) : c.lenIn [lr, li] = true := by
  cases b <;> simp [Ctl.lenIn, eq_of_beq h]

/-- Every length is one of the three (R104). -/
theorem Ctl.lenIn_all (c : Ctl) : c.lenIn [.short, .long, .wide] = true := by
  cases hc : c.len <;> simp [Ctl.lenIn, hc]

theorem VOpnd.lenIn_wide {b : VOpnd} {c : Ctl} (h : b.lenOk c false true = true) : c.lenIn [.long, .wide] = true := by
  cases b <;> simp [VOpnd.lenOk] at h <;> simp [Ctl.lenIn, h]

theorem VOpnd.len_long {b : VOpnd} {c : Ctl} (h : b.lenOk c false false = true) : c.len = .long := by
  cases b <;> simp [VOpnd.lenOk] at h <;> exact h

theorem memLen_lenIn {c : Ctl} {ty : Ty} {off : BitVec 24} (h : memLen c ty off = true) : c.lenIn [.short, .wide] = true := by
  have hc : c.len = .wide ∨ (c.len = .short ∧ ty = .i32) ∧ off = 0 := by simpa using Bool.and_elim_right h
  rcases hc with hc | ⟨⟨hc, -⟩, -⟩ <;> simp [Ctl.lenIn, hc]

theorem Ctl.len_of_lenIn {c : Ctl} {l : Len} (h : c.lenIn [l] = true) : c.len = l := by simpa [Ctl.lenIn] using h

theorem Ctl.lenIn_of_len {c : Ctl} {l : Len} (h : c.len = l) : c.lenIn [l] = true := by simp [Ctl.lenIn, h]

/-! ### The layouts (R132, R193, R220, R236, R268, R306) -/

section
variable {c : Ctl} {op : BitVec 8} {a b : SReg} {u : USrc} {d : VReg} {x y : VSrc} {o : VOpnd} {ls : List Len}

theorem ReadsBack.u2 {t : IType} {e : SReg} {k : Ctl → IType → SReg → SReg → USrc → Instr} (ho : Listed op [.short, .long])
    (hk : ∀ r x y, parse (rdOf c op r x y) = rdU2 k (rdOf c op r x y)) (h : wfU2 c u = true) :
    ReadsBack (encU2 c op t e a u) (k c t e a u) := by
  have hlen : u.lenOk c .short .long = true := Bool.and_elim_right h
  obtain ⟨sb, x, hw, hu⟩ := encSL_eq op { mod := t.code, dst := fldReg e, sa := fldReg a } hlen
  rw [encU2, hw]
  exact .wordOf ho (USrc.lenIn hlen) (parse_map (hk ..) (itypeOf_code t) (by simp at hu; simp [hu]))

theorem ReadsBack.u1 {t : IType} {e : SReg} {k : Ctl → IType → SReg → SReg → Instr} (ho : Listed op [.short])
    (hk : ∀ r x y, parse (rdOf c op r x y) = rdU1 k (rdOf c op r x y)) (h : (c.ok && c.lenIn [.short]) = true) :
    ReadsBack (Sys2Proof.wordOf c op { mod := t.code, dst := fldReg e, sa := fldReg a }) (k c t e a) :=
  .wordOf ho (Bool.and_elim_right h) (parse_map (hk ..) (itypeOf_code t) (by simp))

theorem ReadsBack.affine {n w t : Bool} {e f : AReg} {k : Ctl → Bool → Bool → AReg → AReg → USrc → Instr} (ho : Listed op [.short, .long])
    (hk : ∀ sb x, parse (rdOf c op { mod := affMod n w t, dst := fldReg e, sa := fldReg f, sb := sb } x 0) =
      rdAU k (rdOf c op { mod := affMod n w t, dst := fldReg e, sa := fldReg f, sb := sb } x 0)) (h : (wfU2 c u && e != 0) = true) :
    ReadsBack (encSL c op { mod := affMod n w t, dst := fldReg e, sa := fldReg f } u) (k c w t e f u) := by
  have hlen : u.lenOk c .short .long = true := Bool.and_elim_right (Bool.and_elim_left h)
  obtain ⟨sb, x, hw, hu⟩ := encSL_eq op { mod := affMod n w t, dst := fldReg e, sa := fldReg f } hlen
  rw [hw]
  exact .wordOf ho (USrc.lenIn hlen) (parse_some (hk ..) (by simp at hu; simp [hu]))

theorem ReadsBack.v2 {t : IType} {k : Ctl → IType → VReg → VSrc → VOpnd → Instr} (ho : Listed op [.short, .long, .wide])
    (hk : ∀ r x y, parse (rdOf c op r x y) = rdV2 k (rdOf c op r x y)) (h : wfV2 c t d x o = true) :
    ReadsBack (encV2 c op t d x o) (k c t d x o) := by
  have hlen : o.lenOk c true true = true :=
    Bool.and_elim_right (Bool.and_elim_left (Bool.and_elim_left (Bool.and_elim_left h)))
  obtain ⟨sb, lb, e, i, hw, hv, -⟩ := encV_eq op { mod := t.code, dst := d, sa := x.reg, la := x.last } 0 0 false hlen
  rw [encV2, hw]
  exact .wordOf ho c.lenIn_all (parse_map (hk ..) (itypeOf_code t) (by simp at hv; simp [hv]))

theorem ReadsBack.v1 {t : IType} {k : Ctl → IType → VReg → VSrc → Instr} (ho : Listed op [.short])
    (hk : ∀ r x y, parse (rdOf c op r x y) = rdV1 k (rdOf c op r x y)) (h : wfV1 c t d x = true) :
    ReadsBack (encV1 c op t.code d x) (k c t d x) :=
  .wordOf ho (Bool.and_elim_right (Bool.and_elim_left (Bool.and_elim_left h))) (parse_map (hk ..) (itypeOf_code t) (by simp))

theorem ReadsBack.reduction {t : PType} {e : SReg} {k : Ctl → PType → SReg → VSrc → Instr} (ho : Listed op [.short])
    (hk : ∀ r x y, parse (rdOf c op r x y) = rdRed k (rdOf c op r x y)) (h : (c.ok && c.lenIn [.short] && nameOk t.is64 x.reg) = true) :
    ReadsBack (encV1 c op t.code (fldReg e) x) (k c t e x) :=
  .wordOf ho (Bool.and_elim_right (Bool.and_elim_left h)) (parse_map (hk ..) (ptypeOf_code t) (by simp))

/-- R237: only the long word carries a rounding mode. -/
theorem rdOf_rnd {r : Regs} {e i : W32} {m : Rnd} (h : m.lenOk c = true) (he : c.len ≠ .short → (LX.ofBits e).rsc = m.code) :
    (rdOf c op r e i).rnd = some m := by
  have hm : c.len = .long ∨ m = .rne := by simpa using Bool.and_elim_right h
  by_cases hc : c.len = .long
  · simp [Rd.rnd, hc, he]
  · simp [Rd.rnd, hc, hm.resolve_left hc]

theorem ReadsBack.f2 {m : Rnd} {k : Ctl → Rnd → VReg → VSrc → VOpnd → Instr} (ho : Listed op [.short, .long, .wide])
    (hk : ∀ r x y, parse (rdOf c op r x y) = rdF2 k (rdOf c op r x y)) (h : wfF2 c m o = true) :
    ReadsBack (encF2 c op 4 m d x o) (k c m d x o) := by
  have hlen : o.lenOk c true true = true := Bool.and_elim_right (Bool.and_elim_left h)
  obtain ⟨sb, lb, e, i, hw, hv, hr⟩ := encV_eq op { mod := 4, dst := d, sa := x.reg, la := x.last } m.code 0 false hlen
  rw [encF2, hw]
  exact .wordOf ho c.lenIn_all (parse_map (hk ..) (rdOf_rnd (Bool.and_elim_right h) fun k => (hr k).1) (by simp at hv; simp [hv]))

theorem rdH2_eq {r : Rd} {t : FType} {m : Rnd} (k : Ctl → FType → Rnd → VReg → VSrc → VOpnd → Instr) (ht : ftypeOf r.b.mod = some t)
    (hm : r.rnd = some m) : rdH2 k r = some (k r.c t m r.b.dst r.va r.vo) := by simp only [rdH2, ht, hm]

theorem ReadsBack.h2 {t : FType} {m : Rnd} {k : Ctl → FType → Rnd → VReg → VSrc → VOpnd → Instr} (ho : Listed op [.short, .long, .wide])
    (hk : ∀ r x y, parse (rdOf c op r x y) = rdH2 k (rdOf c op r x y)) (h : (wfF2 c m o && t != .f32) = true) :
    ReadsBack (encF2 c op t.code m d x o) (k c t m d x o) := by
  have hf := Bool.and_elim_left h
  have hlen : o.lenOk c true true = true := Bool.and_elim_right (Bool.and_elim_left hf)
  obtain ⟨sb, lb, e, i, hw, hv, hr⟩ := encV_eq op { mod := t.code, dst := d, sa := x.reg, la := x.last } m.code 0 false hlen
  rw [encF2, hw]
  exact .wordOf ho c.lenIn_all (parse_some ((hk ..).trans (rdH2_eq k (ftypeOf_code t)
    (rdOf_rnd (Bool.and_elim_right hf) fun k => (hr k).1))) (by simp at hv; simp [hv]))

theorem ReadsBack.f1 {k : Ctl → VReg → VSrc → Instr} (ho : Listed op [.short])
    (hk : ∀ r x y, parse (rdOf c op r x y) = some (k (rdOf c op r x y).c (rdOf c op r x y).b.dst (rdOf c op r x y).va))
    (h : (c.ok && c.lenIn [.short]) = true) : ReadsBack (encV1 c op 4 d x) (k c d x) :=
  .wordOf ho (Bool.and_elim_right h) (parse_some (hk ..) (by simp))

theorem ReadsBack.fr {m : Rnd} {k : Ctl → Rnd → VReg → VSrc → Instr} (ho : Listed op [.short, .long])
    (hk : ∀ r x y, parse (rdOf c op r x y) = rdFR k (rdOf c op r x y)) (h : (c.ok && c.lenIn [.short, .long] && m.lenOk c) = true) :
    ReadsBack (encFR c op m d x) (k c m d x) := by
  have hlen : c.lenIn [.short, .long] = true := Bool.and_elim_right (Bool.and_elim_left h)
  have hc : c.len = .short ∨ c.len = .long := by simpa [Ctl.lenIn] using hlen
  have he : c.len ≠ .short → (LX.ofBits (if c.len == .long then lxOf (rsc := m.code) else 0)).rsc = m.code := fun k => by
    simp [hc.resolve_left k]
  exact .wordOf ho hlen (parse_map (hk ..) (rdOf_rnd (Bool.and_elim_right h) he) (by simp))

theorem ReadsBack.sf {t : FType} {m : Rnd} {e : SReg} {k : Ctl → FType → Rnd → SReg → SReg → USrc → Instr} (ho : Listed op [.short, .long, .wide])
    (hk : ∀ r x y, parse (rdOf c op r x y) = rdSF k (rdOf c op r x y))
    (h : (c.ok && m.lenOk c && (match u with | .reg _ => c.len != .wide | .imm _ => c.len == .wide)) = true) :
    ReadsBack (encode.encSF c op t m e a u) (k c t m e a u) := by
  have hm : m.lenOk c = true := Bool.and_elim_right (Bool.and_elim_left h)
  have hu := Bool.and_elim_right h
  have heq : ∀ r, ftypeOf r.b.mod = some t → r.rnd = some m → rdSF k r = some (k r.c t m (sName r.b.dst) (sName r.b.sa)
      (if r.len = .wide then .imm r.imm else .reg (sName r.b.sb))) := fun r ht hm => by simp only [rdSF, ht, hm]
  cases u with
  | reg s =>
    have hc : c.len ≠ .wide := by simpa using hu
    have he : c.len ≠ .short → (LX.ofBits (if c.len == .long then lxOf (rsc := m.code) else 0)).rsc = m.code := fun k => by
      have : c.len = .long := by cases hl : c.len <;> simp_all
      simp [this]
    exact .wordOf ho c.lenIn_all (parse_some ((hk ..).trans (heq _ (ftypeOf_code t) (rdOf_rnd hm he))) (by simp [hc]))
  | imm v =>
    have hc : c.len = .wide := eq_of_beq hu
    have hn : m = .rne := by simpa [Rnd.lenOk, hc] using Bool.and_elim_right hm
    have he : (rdOf c op { mod := t.code, dst := fldReg e, sa := fldReg a } 0 v).rnd = some m := by simp [Rd.rnd, hc, hn]
    exact .wordOf ho c.lenIn_all (parse_some ((hk ..).trans (heq _ (ftypeOf_code t) he)) (by simp [hc]))

end

/-! ### Addresses, scopes and counters (R80, R134, R254) -/

@[simp] theorem Addr.regs_dst (ad : Addr) (r : Regs) : (ad.regs r).dst = r.dst := by cases ad <;> rfl
@[simp] theorem Addr.regs_sb (ad : Addr) (r : Regs) : (ad.regs r).sb = r.sb := by cases ad <;> rfl
@[simp] theorem Addr.regs_lb (ad : Addr) (r : Regs) : (ad.regs r).lb = r.lb := by cases ad <;> rfl

@[simp] theorem rdOf_addr (c : Ctl) (op : BitVec 8) (ad : Addr) (r : Regs) (x y : W32) : (rdOf c op (ad.regs r) x y).addr = some ad := by
  cases ad <;> simp [Rd.addr, Addr.regs]

section
variable {c : Ctl} {op : BitVec 8} {r : Regs} {ty : Ty} {ad : Addr} {off : BitVec 24} {x8 : Byte} {f lc : Bool} {rsc : BitVec 3} {sc : BitVec 11}
  {i : Instr}

/-- A memory word with an address of any shape (R132-R134). -/
theorem ReadsBack.mem (k : Ctl → Ty → Addr → BitVec 24 → Rd → Option Instr) {ls : List Len} (ho : Listed op ls) (hl : c.lenIn ls = true)
    (hk : ∀ x y, parse (rdOf c op (ad.regs r) x y) =
      rdM (fun e t a o => k e t a o (rdOf c op (ad.regs r) x y)) (rdOf c op (ad.regs r) x y)) (h : memLen c ty off = true)
    (hi : ∀ x y, MemWords c ty off x8 f rsc sc lc x y → k c ty ad off (rdOf c op (ad.regs r) x y) = some i) :
    ReadsBack (encM c op (ad.regs r) ty off x8 f rsc sc lc) i := by
  obtain ⟨x, y, hw, hty, hoff, hm⟩ := encM_eq op (ad.regs r) x8 f rsc sc lc h
  rw [hw]
  refine .wordOf ho hl ((hk ..).trans ?_)
  simp only [rdM, hty, rdOf_addr, hoff]
  exact hi x y hm

/-- A memory word with a uniform address: MOD is 0. -/
theorem ReadsBack.memU (k : Ctl → Ty → SReg → BitVec 24 → Rd → Option Instr) {ls : List Len} (hr : r.mod = 0) (ho : Listed op ls)
    (hl : c.lenIn ls = true)
    (hk : ∀ x y, parse (rdOf c op r x y) = rdMU (fun e t b o => k e t b o (rdOf c op r x y)) (rdOf c op r x y)) (h : memLen c ty off = true)
    (hi : ∀ x y, MemWords c ty off x8 f rsc sc lc x y → k c ty (sName r.sa) off (rdOf c op r x y) = some i) :
    ReadsBack (encM c op r ty off x8 f rsc sc lc) i := by
  obtain ⟨x, y, hw, hty, hoff, hm⟩ := encM_eq op r x8 f rsc sc lc h
  rw [hw]
  refine .wordOf ho hl ((hk ..).trans ?_)
  simp only [rdMU, hty, rdOf_mod, hr, hoff]
  exact hi x y hm

/-- An ordering word: offset 0 and no address (R132). -/
theorem ReadsBack.order (ho : Listed op [.short, .wide]) (h : (c.ok && c.lenIn [.short, .wide]) = true)
    (hi : ∀ x y, MemWords c .i32 0 x8 f rsc sc lc x y → parse (rdOf c op {} x y) = some i) :
    ReadsBack (encM c op {} .i32 0 x8 f rsc sc lc) i := by
  have hm : memLen c .i32 0 = true := by simpa [memLen, Ctl.lenIn, or_comm] using h
  obtain ⟨x, y, hw, -, -, hm⟩ := encM_eq op {} x8 f rsc sc lc hm
  rw [hw]
  exact .wordOf ho (Bool.and_elim_right h) (hi x y hm)

end

theorem rdAtom_eq {r : Rd} {op : AOp} {aq rl : Bool} {sc : Scope} (k : AOp → Bool → Bool → Scope → Option Instr) (hx : r.x8 = atomX8 op aq rl)
    (hs : r.x.rsc = sc.code) : rdAtom k r = k op aq rl sc := by
  have h : ∀ (o : AOp) (p q : Bool), aopOf ((atomX8 o p q).extractLsb' 0 4) = some o ∧ (atomX8 o p q).getLsbD 4 = p ∧
      (atomX8 o p q).getLsbD 5 = q := by
    intro o p q
    cases o <;> cases p <;> cases q <;> decide
  obtain ⟨ho, hp, hq⟩ := h op aq rl
  simp only [rdAtom, hx, hs, scopeOf_code, ho, hp, hq]

@[simp] theorem Ctr.regs_dst (k : Ctr) (b : Bool) (r : Regs) : (k.regs b r).dst = r.dst := by cases k <;> rfl
@[simp] theorem Ctr.regs_sb (k : Ctr) (b : Bool) (r : Regs) : (k.regs b r).sb = r.sb := by cases k <;> rfl

@[simp] theorem rdOf_ctr (c : Ctl) (op : BitVec 8) (k : Ctr) (b : Bool) (r : Regs) (x y : W32) : (rdOf c op (k.regs b r) x y).ctr = k := by
  cases k <;> cases b <;> simp [Rd.ctr, Ctr.regs, flag1]

@[simp] theorem Ctr.regs_getElem (k : Ctr) (b : Bool) (r : Regs) : (k.regs b r).mod[0] = b := by
  cases k <;> cases b <;> simp [Ctr.regs, flag1]

theorem encImm_eq {c : Ctl} (op : BitVec 8) (r : Regs) {v : Imm} {w64 : Bool} (h : v.ok c w64 = true) :
    ∃ x y, encImm c op r v = wordOf c op r x y ∧ (rdOf c op r x y).im = v := by
  cases v with
  | i32 x =>
    have hc : c.len = .long := eq_of_beq h
    exact ⟨x, 0, rfl, by simp [Rd.im, hc]⟩
  | i64 x =>
    have hc : c.len = .wide := eq_of_beq (Bool.and_elim_left h)
    refine ⟨_, _, rfl, ?_⟩
    have hx : x.extractLsb' 32 32 ++ x.extractLsb' 0 32 = x := BitVec.extractLsb'_append_extractLsb'
    simp [Rd.im, hc, Rd.imm64, hx]

theorem Imm.lenIn {v : Imm} {c : Ctl} {w64 : Bool} (h : v.ok c w64 = true) : c.lenIn [.long, .wide] = true := by
  cases v <;> simp [Imm.ok] at h <;> simp [Ctl.lenIn, h]

theorem VOpnd.not_short {b : VOpnd} {c : Ctl} (h : b.lenOk c false true = true) : c.len ≠ .short := by
  cases b <;> simp [VOpnd.lenOk] at h <;> simp [h]

theorem memLen_of_wide {c : Ctl} {ty : Ty} {off : BitVec 24} {b : Bool} (h : (c.ok && b) = true) (hc : c.len = .wide) :
    memLen c ty off = true := by simp [memLen, hc, Bool.and_elim_left h]

theorem Rd.hi_halves (c : Ctl) (op : BitVec 8) (r : Regs) (v : W64) :
    (rdOf c op r (v.extractLsb' 0 32) (v.extractLsb' 32 32)).hi = v := BitVec.extractLsb'_append_extractLsb'

/-! ### Every instruction but the dovetail word -/

theorem tlbMod (k : TlbMode) (b : Bool) : tlbOf ((flag1 b ++ k.code).setWidth 2) = some k ∧ (flag1 b ++ k.code)[2] = b := by
  cases k <;> cases b <;> decide

theorem parse_rdOf_vhfma2 (c : Ctl) (r : Regs) (x y : W32) : parse (rdOf c 0x77 r x y) =
    rdH2 (fun e t m d a b => .vhfma2 e t m d a b (rdOf c 0x77 r x y).vc) (rdOf c 0x77 r x y) := rfl

/-- The type code of VSCAN's word (R253). -/
def ScanTy.code (t : ScanTy) : BitVec 4 := match t with | .i32 => 0 | .n32 => 1 | .f32 => 4

/-- The operation code of VSCAN's word (R253). -/
def ScanOp.code (o : ScanOp) : BitVec 2 := match o with | .add => 0 | .min => 1 | .max => 2

theorem parse_rdOf_vscan (c : Ctl) (o : ScanOp) (e : Bool) (t : ScanTy) (d : VReg) (a : VSrc) (sb : BitVec 11) (f : Bool) :
    parse (rdOf c 0x8B { mod := o.code ++ flag1 e, dst := d, sa := a.reg, la := a.last, sb := sb } (lxOf f 0 t.code) 0) =
      some (.vscan c o e t d a (if f then some (pName sb) else none)) := by
  change (match (match (LX.ofBits _).ty with | 0 => some ScanTy.i32 | 1 => some .n32 | 4 => some .f32 | _ => none),
    (match BitVec.extractLsb' 1 2 _ with | 0 => some ScanOp.add | 1 => some .min | 2 => some .max | _ => none) with
    | some t, some o => some (Instr.vscan _ o _ t _ _ _) | _, _ => none) = _
  rw [ofBits_lxOf]
  have hf : on (BitVec.ofBool f) = f := on_flag1 f
  cases o <;> cases t <;> cases e <;> simp [ScanOp.code, ScanTy.code, flag1, hf]

/-- The lowest of three fields. -/
theorem extract_low {n m k : Nat} (z : BitVec n) (y : BitVec m) (x : BitVec k) : (z ++ (y ++ x)).extractLsb' 0 k = x :=
  (BitVec.extractLsb'_append_eq_of_add_le (by omega)).trans BitVec.extractLsb'_append_eq_right

/-- The middle one of three fields. -/
theorem extract_middle {n m k : Nat} (z : BitVec n) (y : BitVec m) (x : BitVec k) : (z ++ (y ++ x)).extractLsb' k m = y :=
  (BitVec.extractLsb'_append_eq_of_add_le (by omega)).trans BitVec.extractLsb'_append_eq_left

/-- The word of `i`, where it has one, reads back as `i`. -/
def Reads (i : Instr) : Prop := ∀ w, encode i = some w → ReadsBack w i

theorem Reads.of {i : Instr} {w : Word} (he : encode i = some w) (h : ReadsBack w i) : Reads i := fun _ hx => Option.some.inj (he.symm.trans hx) ▸ h

theorem Reads.event {i : Instr} (he : encode i = none) : Reads i := fun _ hx => absurd (he.symm.trans hx) nofun

end Sys2Proof
end

section
/-! Every instruction but the dovetail word reads back from its word (R123). The case of an instruction takes the check of its length from
`wf`, whose arms are conjunctions, and cites its layout. -/

namespace Sys2Proof
theorem reads {i : Instr} (h : wf i = true) (hd : ∀ c x y, i ≠ .dovetail c x y) : Reads i := by
  cases i with
  | sadd => exact .of rfl (.u2 (by decide) (fun _ _ _ => rfl) h)
  | ssub => exact .of rfl (.u2 (by decide) (fun _ _ _ => rfl) h)
  | smul => exact .of rfl (.u2 (by decide) (fun _ _ _ => rfl) h)
  | smulh => exact .of rfl (.u2 (by decide) (fun _ _ _ => rfl) (Bool.and_elim_left h))
  | smulhn => exact .of rfl (.u2 (by decide) (fun _ _ _ => rfl) (Bool.and_elim_left h))
  | sdiv => exact .of rfl (.u2 (by decide) (fun _ _ _ => rfl) (Bool.and_elim_left h))
  | sdivn => exact .of rfl (.u2 (by decide) (fun _ _ _ => rfl) (Bool.and_elim_left h))
  | srem => exact .of rfl (.u2 (by decide) (fun _ _ _ => rfl) (Bool.and_elim_left h))
  | sremn => exact .of rfl (.u2 (by decide) (fun _ _ _ => rfl) (Bool.and_elim_left h))
  | sand => exact .of rfl (.u2 (by decide) (fun _ _ _ => rfl) h)
  | sor => exact .of rfl (.u2 (by decide) (fun _ _ _ => rfl) h)
  | sxor => exact .of rfl (.u2 (by decide) (fun _ _ _ => rfl) h)
  | sandn => exact .of rfl (.u2 (by decide) (fun _ _ _ => rfl) h)
  | sshl => exact .of rfl (.u2 (by decide) (fun _ _ _ => rfl) h)
  | sshr => exact .of rfl (.u2 (by decide) (fun _ _ _ => rfl) h)
  | ssra => exact .of rfl (.u2 (by decide) (fun _ _ _ => rfl) h)
  | smin => exact .of rfl (.u2 (by decide) (fun _ _ _ => rfl) (Bool.and_elim_left h))
  | smax => exact .of rfl (.u2 (by decide) (fun _ _ _ => rfl) (Bool.and_elim_left h))
  | sminn => exact .of rfl (.u2 (by decide) (fun _ _ _ => rfl) (Bool.and_elim_left h))
  | smaxn => exact .of rfl (.u2 (by decide) (fun _ _ _ => rfl) (Bool.and_elim_left h))
  | sclz => exact .of rfl (.u1 (by decide) (fun _ _ _ => rfl) h)
  | spopc => exact .of rfl (.u1 (by decide) (fun _ _ _ => rfl) h)
  | smov => exact .of rfl (.u1 (by decide) (fun _ _ _ => rfl) h)
  | sbfx => exact .of rfl (.u2 (by decide) (fun _ _ _ => rfl) (Bool.and_elim_left h))
  | sbfi c t d a b k =>
    have hlen : k.lenOk c .long .wide = true := Bool.and_elim_right (Bool.and_elim_left h)
    obtain ⟨x, y, hw, hu⟩ := encLW_eq 0x17 { mod := t.code, dst := fldReg d, sa := fldReg a, sb := fldReg b } hlen
    exact .of (congrArg some hw) (.wordOf (by decide) (USrc.lenIn hlen) (parse_map rfl (itypeOf_code t) (by simp at hu; simp [hu])))
  | ssel c t => exact .of rfl (.wordOf (by decide) (Bool.and_elim_right h) (parse_map rfl (itypeOf_code t) (by simp)))
  | smovi c t d v =>
    obtain ⟨e, y, hw, hv⟩ := encImm_eq 0x1A { mod := t.code, dst := fldReg d } (Bool.and_elim_right h)
    exact .of (congrArg some hw) (.wordOf (by decide) (Imm.lenIn (Bool.and_elim_right h))
        (parse_map rfl (itypeOf_code t) (by simp at hv; simp [hv])))
  | scmp c t k d a u =>
    have hlen : u.lenOk c .long .wide = true := Bool.and_elim_right h
    cases u with
    | reg s =>
      have hc : c.len = .long := eq_of_beq hlen
      refine .of rfl (.wordOf (by decide) (USrc.lenIn hlen) ?_)
      change (match itypeOf _, condOf _ with | some t, some k => some (Instr.scmp _ t k _ _ _) | _, _ => none) = _
      simp [Rd.ub, hc]
    | imm v =>
      have hc : c.len = .wide := eq_of_beq hlen
      refine .of rfl (.wordOf (by decide) (USrc.lenIn hlen) ?_)
      change (match itypeOf _, condOf _ with | some t, some k => some (Instr.scmp _ t k _ _ _) | _, _ => none) = _
      simp [Rd.ub, hc]
  | amovi => exact .of rfl (.wordOf (by decide) (Bool.and_elim_right (Bool.and_elim_left h)) (parse_some rfl (by simp)))
  | aadd => exact .of rfl (.wordOf (by decide) (Bool.and_elim_right (Bool.and_elim_left h)) (parse_some rfl (by simp)))
  | asub => exact .of rfl (.wordOf (by decide) (Bool.and_elim_right (Bool.and_elim_left h)) (parse_some rfl (by simp)))
  | aadds c n w t d a u =>
    have hlen : u.lenOk c .short .long = true := Bool.and_elim_right (Bool.and_elim_left h)
    obtain ⟨sb, x, hw, hu⟩ := encSL_eq 0x23 { mod := affMod n w t, dst := fldReg d, sa := fldReg a } hlen
    exact .of (congrArg some hw) (.wordOf (by decide) (USrc.lenIn hlen) (parse_some rfl (by simp at hu; simp [hu])))
  | amuls => exact .of rfl (.affine (by decide) (fun _ _ => rfl) h)
  | ashls => exact .of rfl (.affine (by decide) (fun _ _ => rfl) h)
  | psa c w t d a u =>
    have hlen : u.lenOk c .short .long = true := Bool.and_elim_right (Bool.and_elim_left h)
    obtain ⟨sb, x, hw, hu⟩ := encSL_eq 0x26 { mod := affMod false w t, dst := fldReg d, sa := fldReg a } hlen
    exact .of (congrArg some hw) (.wordOf (by decide) (USrc.lenIn hlen) (parse_some rfl (by simp at hu; simp [hu])))
  | psv c t => exact .of rfl (.wordOf (by decide) (Bool.and_elim_right (Bool.and_elim_left h)) (parse_map rfl (ptypeOf_code t) (by simp)))
  | pav c t => exact .of rfl (.wordOf (by decide) (Bool.and_elim_right (Bool.and_elim_left h)) (parse_map rfl (itypeOf_code t) (by simp)))
  | vpick c t d a u =>
    have hlen : u.lenOk c .short .long = true := Bool.and_elim_right (Bool.and_elim_left h)
    obtain ⟨sb, x, hw, hu⟩ := encSL_eq 0x29 { mod := t.code, dst := fldReg d, sa := a.reg, la := a.last } hlen
    exact .of (congrArg some hw) (.wordOf (by decide) (USrc.lenIn hlen) (parse_map rfl (ptypeOf_code t) (by simp at hu; simp [hu])))
  | vballot => exact .of rfl (.wordOf (by decide) (Bool.and_elim_right (Bool.and_elim_left h)) (parse_some rfl (by simp)))
  | vany => exact .of rfl (.wordOf (by decide) (Bool.and_elim_right h) (parse_some rfl (by simp)))
  | vall => exact .of rfl (.wordOf (by decide) (Bool.and_elim_right h) (parse_some rfl (by simp)))
  | vredadd => exact .of rfl (.reduction (by decide) (fun _ _ _ => rfl) h)
  | vredmin => exact .of rfl (.reduction (by decide) (fun _ _ _ => rfl) h)
  | vredmax => exact .of rfl (.reduction (by decide) (fun _ _ _ => rfl) h)
  | agetb => exact .of rfl (.wordOf (by decide) (Bool.and_elim_right h) (parse_some rfl (by simp)))
  | agets => exact .of rfl (.wordOf (by decide) (Bool.and_elim_right h) (parse_some rfl (by simp)))
  | vadd => exact .of rfl (.v2 (by decide) (fun _ _ _ => rfl) h)
  | vsub => exact .of rfl (.v2 (by decide) (fun _ _ _ => rfl) h)
  | vmul => exact .of rfl (.v2 (by decide) (fun _ _ _ => rfl) h)
  | vmulh => exact .of rfl (.v2 (by decide) (fun _ _ _ => rfl) (Bool.and_elim_left h))
  | vmulhn => exact .of rfl (.v2 (by decide) (fun _ _ _ => rfl) (Bool.and_elim_left h))
  | vmad c t d a u k =>
    have hlen : u.lenOk c false false = true :=
      Bool.and_elim_right (Bool.and_elim_left (Bool.and_elim_left (Bool.and_elim_left (Bool.and_elim_left h))))
    have hc := VOpnd.len_long hlen
    obtain ⟨sb, lb, x, y, hw, hv, hx⟩ := encV_eq 0x3D { mod := t.code, dst := d, sa := a.reg, la := a.last } 0 k.reg k.last hlen
    obtain ⟨-, hsc, hlc⟩ := hx (by simp [hc])
    exact .of (congrArg some hw) (.wordOf (by decide) (Ctl.lenIn_of_len hc)
      (parse_map rfl (itypeOf_code t) (by simp at hv; simp [hv, Rd.vc, hsc, hlc])))
  | vdiv => exact .of rfl (.v2 (by decide) (fun _ _ _ => rfl) (Bool.and_elim_left h))
  | vdivn => exact .of rfl (.v2 (by decide) (fun _ _ _ => rfl) (Bool.and_elim_left h))
  | vrem => exact .of rfl (.v2 (by decide) (fun _ _ _ => rfl) (Bool.and_elim_left h))
  | vremn => exact .of rfl (.v2 (by decide) (fun _ _ _ => rfl) (Bool.and_elim_left h))
  | vand => exact .of rfl (.v2 (by decide) (fun _ _ _ => rfl) h)
  | vor => exact .of rfl (.v2 (by decide) (fun _ _ _ => rfl) h)
  | vxor => exact .of rfl (.v2 (by decide) (fun _ _ _ => rfl) h)
  | vandn => exact .of rfl (.v2 (by decide) (fun _ _ _ => rfl) h)
  | vshl => exact .of rfl (.v2 (by decide) (fun _ _ _ => rfl) h)
  | vshr => exact .of rfl (.v2 (by decide) (fun _ _ _ => rfl) h)
  | vsra => exact .of rfl (.v2 (by decide) (fun _ _ _ => rfl) h)
  | vmin => exact .of rfl (.v2 (by decide) (fun _ _ _ => rfl) (Bool.and_elim_left h))
  | vmax => exact .of rfl (.v2 (by decide) (fun _ _ _ => rfl) (Bool.and_elim_left h))
  | vminn => exact .of rfl (.v2 (by decide) (fun _ _ _ => rfl) (Bool.and_elim_left h))
  | vmaxn => exact .of rfl (.v2 (by decide) (fun _ _ _ => rfl) (Bool.and_elim_left h))
  | vnot => exact .of rfl (.v1 (by decide) (fun _ _ _ => rfl) h)
  | vabs => exact .of rfl (.v1 (by decide) (fun _ _ _ => rfl) h)
  | vneg => exact .of rfl (.v1 (by decide) (fun _ _ _ => rfl) h)
  | vclz => exact .of rfl (.v1 (by decide) (fun _ _ _ => rfl) h)
  | vpopc => exact .of rfl (.v1 (by decide) (fun _ _ _ => rfl) h)
  | vmov => exact .of rfl (.v1 (by decide) (fun _ _ _ => rfl) h)
  | vbfx c t d a u =>
    have hlen : u.lenOk c .short .wide = true :=
      Bool.and_elim_right (Bool.and_elim_left (Bool.and_elim_left (Bool.and_elim_left h)))
    cases u with
    | reg s => exact .of rfl (.wordOf (by decide) (USrc.lenIn hlen) (parse_map rfl (itypeOf_code t) (by simp [Rd.ub, eq_of_beq hlen])))
    | imm v => exact .of rfl (.wordOf (by decide) (USrc.lenIn hlen) (parse_map rfl (itypeOf_code t) (by simp [Rd.ub, eq_of_beq hlen])))
  | vbfi c t d a b k =>
    have hlen : k.lenOk c .long .wide = true :=
      Bool.and_elim_right (Bool.and_elim_left (Bool.and_elim_left (Bool.and_elim_left (Bool.and_elim_left h))))
    obtain ⟨x, y, hw, hu⟩ := encLW_eq 0x53 { mod := t.code, dst := d, sa := a.reg, la := a.last, sb := b.reg, lb := b.last } hlen
    exact .of (congrArg some hw) (.wordOf (by decide) (USrc.lenIn hlen) (parse_map rfl (itypeOf_code t) (by simp at hu; simp [hu])))
  | vsel c t d a u p =>
    have hlen : u.lenOk c false false = true :=
      Bool.and_elim_right (Bool.and_elim_left (Bool.and_elim_left (Bool.and_elim_left h)))
    have hc := VOpnd.len_long hlen
    obtain ⟨sb, lb, x, y, hw, hv, hx⟩ := encV_eq 0x54 { mod := t.code, dst := d, sa := a.reg, la := a.last } 0 (fldReg p) false hlen
    obtain ⟨-, hsc, -⟩ := hx (by simp [hc])
    exact .of (congrArg some hw) (.wordOf (by decide) (Ctl.lenIn_of_len hc)
      (parse_map rfl (itypeOf_code t) (by simp at hv; simp [hv, hsc])))
  | vmovi c t d v =>
    have hv : v.ok c t.is64 = true := Bool.and_elim_right (Bool.and_elim_left h)
    obtain ⟨e, y, hw, hi⟩ := encImm_eq 0x56 { mod := t.code, dst := d } hv
    exact .of (congrArg some hw) (.wordOf (by decide) (Imm.lenIn hv) (parse_map rfl (itypeOf_code t) (by simp at hi; simp [hi])))
  | vcmp c t k d a u =>
    have hlen : u.lenOk c false true = true := Bool.and_elim_right (Bool.and_elim_left (Bool.and_elim_left h))
    obtain ⟨sb, lb, x, y, hw, hv, hx⟩ := encV_eq 0x57 { mod := t.code, dst := fldReg d, sa := a.reg, la := a.last } k.code 0 false hlen
    obtain ⟨hk, -⟩ := hx (VOpnd.not_short hlen)
    refine .of (congrArg some hw) (.wordOf (by decide) (VOpnd.lenIn_wide hlen) ?_)
    change (match itypeOf _, condOf _ with | some t, some k => some (Instr.vcmp _ t k _ _ _) | _, _ => none) = _
    simp at hv
    simp [hv, hk]
  | vsat c t =>
    have hok := Bool.and_elim_left (Bool.and_elim_left (Bool.and_elim_left (Bool.and_elim_left (Bool.and_elim_left h))))
    exact .of rfl (.wordOf (by decide) (Bool.and_elim_right hok) (parse_map rfl (itypeOf_code t) (by simp)))
  | pand => exact .of rfl (.wordOf (by decide) (Bool.and_elim_right h) (parse_some rfl (by simp)))
  | por => exact .of rfl (.wordOf (by decide) (Bool.and_elim_right h) (parse_some rfl (by simp)))
  | pxor => exact .of rfl (.wordOf (by decide) (Bool.and_elim_right h) (parse_some rfl (by simp)))
  | pnot => exact .of rfl (.wordOf (by decide) (Bool.and_elim_right h) (parse_some rfl (by simp)))
  | pmov c d a =>
    cases a with
    | p r => exact .of rfl (.wordOf (by decide) (Bool.and_elim_right (Bool.and_elim_left h)) (parse_some rfl (by simp)))
    | mk r => exact .of rfl (.wordOf (by decide) (Bool.and_elim_right (Bool.and_elim_left h)) (parse_some rfl (by simp)))
  | vfadd => exact .of rfl (.f2 (by decide) (fun _ _ _ => rfl) h)
  | vfsub => exact .of rfl (.f2 (by decide) (fun _ _ _ => rfl) h)
  | vfmul => exact .of rfl (.f2 (by decide) (fun _ _ _ => rfl) h)
  | vfdiv => exact .of rfl (.f2 (by decide) (fun _ _ _ => rfl) h)
  | vfma c m d a u k =>
    have hlen : u.lenOk c false false = true := Bool.and_elim_right (Bool.and_elim_left h)
    have hc := VOpnd.len_long hlen
    obtain ⟨sb, lb, x, y, hw, hv, hx⟩ := encV_eq 0x63 { mod := 4, dst := d, sa := a.reg, la := a.last } m.code k.reg k.last hlen
    obtain ⟨hm, hsc, hlc⟩ := hx (by simp [hc])
    exact .of (congrArg some hw) (.wordOf (by decide) (Ctl.lenIn_of_len hc)
      (parse_map rfl (by simp [Rd.rnd, hc, hm] : Rd.rnd _ = some m) (by simp at hv; simp [hv, Rd.vc, hsc, hlc])))
  | vfmin c d a u =>
    have hlen : u.lenOk c true true = true := Bool.and_elim_right h
    obtain ⟨sb, lb, x, y, hw, hv, -⟩ := encV_eq 0x64 { mod := 4, dst := d, sa := a.reg, la := a.last } Rnd.rne.code 0 false hlen
    exact .of (congrArg some hw) (.wordOf (by decide) c.lenIn_all (parse_some rfl (by simp at hv; simp [hv])))
  | vfmax c d a u =>
    have hlen : u.lenOk c true true = true := Bool.and_elim_right h
    obtain ⟨sb, lb, x, y, hw, hv, -⟩ := encV_eq 0x65 { mod := 4, dst := d, sa := a.reg, la := a.last } Rnd.rne.code 0 false hlen
    exact .of (congrArg some hw) (.wordOf (by decide) c.lenIn_all (parse_some rfl (by simp at hv; simp [hv])))
  | vfcmp c k d a u =>
    have hlen : u.lenOk c false true = true := Bool.and_elim_right h
    obtain ⟨sb, lb, x, y, hw, hv, hx⟩ := encV_eq 0x66 { mod := 4, dst := fldReg d, sa := a.reg, la := a.last } k.code 0 false hlen
    obtain ⟨hk, -⟩ := hx (VOpnd.not_short hlen)
    exact .of (congrArg some hw) (.wordOf (by decide) (VOpnd.lenIn_wide hlen) (parse_some rfl (by simp at hv; simp [hv, hk])))
  | vfclass c t => exact .of rfl (.wordOf (by decide) (Bool.and_elim_right h) (parse_map rfl (ftypeOf_code t) (by simp)))
  | vfrnd => exact .of rfl (.fr (by decide) (fun _ _ _ => rfl) h)
  | vfsqrt => exact .of rfl (.fr (by decide) (fun _ _ _ => rfl) h)
  | vfrcp => exact .of rfl (.f1 (by decide) (fun _ _ _ => rfl) h)
  | vfrsq => exact .of rfl (.f1 (by decide) (fun _ _ _ => rfl) h)
  | vfexp2 => exact .of rfl (.f1 (by decide) (fun _ _ _ => rfl) h)
  | vflog2 => exact .of rfl (.f1 (by decide) (fun _ _ _ => rfl) h)
  | vfsin => exact .of rfl (.f1 (by decide) (fun _ _ _ => rfl) h)
  | vfcos => exact .of rfl (.f1 (by decide) (fun _ _ _ => rfl) h)
  | vftanh => exact .of rfl (.f1 (by decide) (fun _ _ _ => rfl) h)
  | vcvt c t f m =>
    have hl : c.lenIn [.long] = true :=
      Bool.and_elim_right (Bool.and_elim_left (Bool.and_elim_left (Bool.and_elim_left (Bool.and_elim_left h))))
    refine .of rfl (.wordOf (by decide) hl ?_)
    change (match tyOf _, tyOf _, Rd.rnd _ with | some t, some f, some m => some (Instr.vcvt _ t f m _ _ _) | _, _, _ => none) = _
    simp [Rd.rnd, Ctl.len_of_lenIn hl]
  | vpack c k t m =>
    have hl : c.lenIn [.long] = true := Bool.and_elim_right (Bool.and_elim_left (Bool.and_elim_left h))
    refine .of rfl (.wordOf (by decide) hl ?_)
    change (match packOf _, tyOf _, Rd.rnd _ with | some k, some t, some m => some (Instr.vpack _ k t m _ _ _ _) | _, _, _ => none) = _
    simp [Rd.rnd, Ctl.len_of_lenIn hl, Rd.vc]
  | vunpack c t => exact .of rfl (.wordOf (by decide) (Bool.and_elim_right (Bool.and_elim_left h))
      (parse_map rfl (by simp : tyOf _ = some t) (by simp)))
  | vhadd2 => exact .of rfl (.h2 (by decide) (fun _ _ _ => rfl) h)
  | vhmul2 => exact .of rfl (.h2 (by decide) (fun _ _ _ => rfl) h)
  | vhfma2 c t m d a u k =>
    have hlen : u.lenOk c false false = true := Bool.and_elim_right (Bool.and_elim_left (Bool.and_elim_left h))
    have hc := VOpnd.len_long hlen
    obtain ⟨sb, lb, x, y, hw, hv, hx⟩ := encV_eq 0x77 { mod := t.code, dst := d, sa := a.reg, la := a.last } m.code k.reg k.last hlen
    obtain ⟨hm, hsc, hlc⟩ := hx (by simp [hc])
    refine .of (congrArg some hw) (.wordOf (by decide) (Ctl.lenIn_of_len hc) ?_)
    rw [parse_rdOf_vhfma2, rdH2_eq (m := m) _ (ftypeOf_code t) (by simp [Rd.rnd, hc, hm])]
    simp at hv
    simp [hv, Rd.vc, hsc, hlc]
  | sfadd => exact .of rfl (.sf (by decide) (fun _ _ _ => rfl) h)
  | sfmul => exact .of rfl (.sf (by decide) (fun _ _ _ => rfl) h)
  | sfma c t m =>
    have hl : c.lenIn [.long] = true := Bool.and_elim_right (Bool.and_elim_left h)
    refine .of rfl (.wordOf (by decide) hl ?_)
    change (match ftypeOf _, Rd.rnd _ with | some t, some m => some (Instr.sfma _ t m _ _ _ _) | _, _ => none) = _
    simp [Rd.rnd, Ctl.len_of_lenIn hl]
  | sfcvt c t f m =>
    have hl : c.lenIn [.long] = true := Bool.and_elim_right (Bool.and_elim_left (Bool.and_elim_left h))
    refine .of rfl (.wordOf (by decide) hl ?_)
    change (match tyOf _, tyOf _, Rd.rnd _ with | some t, some f, some m => some (Instr.sfcvt _ t f m _ _ _) | _, _, _ => none) = _
    simp [Rd.rnd, Ctl.len_of_lenIn hl]
  | vshfl c o d a u =>
    have hu := Bool.and_elim_right h
    cases u with
    | v x =>
      have ho : o = .idx ∧ c.len = .short := by cases o <;> simp_all
      exact .of rfl (.wordOf (ls := [.short, .wide]) (by decide) (by simp [Ctl.lenIn, ho]) (parse_map rfl (shflOf_code o) (by simp [ho])))
    | s x =>
      have ho : o ≠ .idx ∧ c.len = .short := by cases o <;> simp_all
      exact .of rfl (.wordOf (ls := [.short, .wide]) (by decide) (by simp [Ctl.lenIn, ho]) (parse_map rfl (shflOf_code o) (by simp [ho])))
    | imm v =>
      have hc : c.len = .wide := by cases o <;> simp_all
      exact .of rfl (.wordOf (ls := [.short, .wide]) (by decide) (by simp [Ctl.lenIn, hc]) (parse_map rfl (shflOf_code o) (by simp [hc])))
  | vbcast c bt d a u =>
    have hlen : u.lenOk c .short .long = true := Bool.and_elim_right h
    obtain ⟨sb, x, hw, hu⟩ := encSL_eq 0x89 { mod := (flag1 bt).setWidth 3, dst := d, sa := a.reg, la := a.last } hlen
    exact .of (congrArg some hw) (.wordOf (by decide) (USrc.lenIn hlen) (parse_some rfl (by simp at hu; simp [hu])))
  | vprmt c d a b u =>
    have hu := Bool.and_elim_right h
    cases u with
    | v x =>
      have hc : c.len = .long := eq_of_beq hu
      exact .of rfl (.wordOf (ls := [.long, .wide]) (by decide) (by simp [Ctl.lenIn, hc]) (parse_some rfl (by simp [hc, Rd.vc])))
    | s x => exact absurd hu (by simp)
    | imm v =>
      have hc : c.len = .wide := eq_of_beq (Bool.and_elim_left hu)
      exact .of rfl (.wordOf (ls := [.long, .wide]) (by decide) (by simp [Ctl.lenIn, hc]) (parse_some rfl (by simp [hc])))
  | vscan c o e t d a k =>
    cases k with
    | none => exact .of rfl (.wordOf (by decide) (Bool.and_elim_right h) ((parse_rdOf_vscan ..).trans (by simp)))
    | some p => exact .of rfl (.wordOf (by decide) (Bool.and_elim_right h) ((parse_rdOf_vscan ..).trans (by simp)))
  | vdrop c al d k key u =>
    have hlen : u.lenOk c .long .wide = true := Bool.and_elim_right (Bool.and_elim_left (Bool.and_elim_left h))
    obtain ⟨x, y, hw, hu⟩ := encLW_eq 0x8C (k.regs al { dst := fldReg d, sb := fldReg key }) hlen
    exact .of (congrArg some hw) (.wordOf (by decide) (USrc.lenIn hlen) (parse_some rfl (by simp at hu; simp [hu])))
  | vhash => exact .of rfl (.wordOf (by decide) (Bool.and_elim_right (Bool.and_elim_left (Bool.and_elim_left h)))
      (parse_some rfl (by simp)))
  | sld =>
    have hm := Bool.and_elim_left (Bool.and_elim_left h)
    exact .of rfl (.memU (fun c t b o r => some (.sld c t (on r.x.flg) (sName r.b.dst) b o))
      rfl (by decide) (memLen_lenIn hm) (fun _ _ => rfl) hm fun x y m => by
        simp [m.flg (Bool.and_elim_right h)])
  | sst =>
    have hm := Bool.and_elim_left h
    exact .of rfl (.memU (fun c t b o r => some (.sst c t b o (sName r.b.sb)))
      rfl (by decide) (memLen_lenIn hm) (fun _ _ => rfl) hm fun x y m => by
        simp)
  | vld =>
    have hm := Bool.and_elim_left (Bool.and_elim_left (Bool.and_elim_left (Bool.and_elim_left h)))
    exact .of rfl (.mem (fun c t ad o r => some (.vld c t (on r.x.flg) r.b.dst ad o))
      (by decide) (memLen_lenIn hm) (fun _ _ => rfl) hm fun x y m => by
        simp [m.flg (Bool.and_elim_right (Bool.and_elim_left (Bool.and_elim_left h)))])
  | vst =>
    have hm := Bool.and_elim_left (Bool.and_elim_left (Bool.and_elim_left h))
    exact .of rfl (.mem (fun c t ad o r => some (.vst c t ad o r.vb))
      (by decide) (memLen_lenIn hm) (fun _ _ => rfl) hm fun x y m => by
        simp)
  | vlds =>
    have hm := Bool.and_elim_left (Bool.and_elim_left (Bool.and_elim_left h))
    exact .of rfl (.mem (fun c t ad o r => some (.vlds c t r.b.dst ad o))
      (by decide) (memLen_lenIn hm) (fun _ _ => rfl) hm fun x y m => by
        simp)
  | vsts =>
    have hm := Bool.and_elim_left (Bool.and_elim_left (Bool.and_elim_left h))
    exact .of rfl (.mem (fun c t ad o r => some (.vsts c t ad o r.vb))
      (by decide) (memLen_lenIn hm) (fun _ _ => rfl) hm fun x y m => by
        simp)
  | slds =>
    have hm := Bool.and_elim_left h
    exact .of rfl (.memU (fun c t b o r => some (.slds c t (sName r.b.dst) b o))
      rfl (by decide) (memLen_lenIn hm) (fun _ _ => rfl) hm fun x y m => by
        simp)
  | ssts =>
    have hm := Bool.and_elim_left h
    exact .of rfl (.memU (fun c t b o r => some (.ssts c t b o (sName r.b.sb)))
      rfl (by decide) (memLen_lenIn hm) (fun _ _ => rfl) hm fun x y m => by
        simp)
  | vldq =>
    have hm := Bool.and_elim_left (Bool.and_elim_left (Bool.and_elim_left (Bool.and_elim_left (Bool.and_elim_left h))))
    exact .of rfl (.mem (fun c t ad o r => r.scope.map (fun s => .vldq c t s r.x8 r.b.dst ad o))
      (by decide) (memLen_lenIn hm) (fun _ _ => rfl) hm fun x y m => by
        simp [m.scope _ _ (Bool.and_elim_right (Bool.and_elim_left (Bool.and_elim_left (Bool.and_elim_left h)))),
          m.eight _ _ (Bool.and_elim_right (Bool.and_elim_left (Bool.and_elim_left h)))])
  | vstl =>
    have hm := Bool.and_elim_left (Bool.and_elim_left (Bool.and_elim_left (Bool.and_elim_left h)))
    exact .of rfl (.mem (fun c t ad o r => r.scope.map (fun s => .vstl c t s ad o r.vb))
      (by decide) (memLen_lenIn hm) (fun _ _ => rfl) hm fun x y m => by
        simp [m.scope _ _ (Bool.and_elim_right (Bool.and_elim_left (Bool.and_elim_left h)))])
  | sldq =>
    have hm := Bool.and_elim_left (Bool.and_elim_left (Bool.and_elim_left h))
    exact .of rfl (.memU (fun c t b o r => r.scope.map (fun s => .sldq c t s r.x8 (sName r.b.dst) b o))
      rfl (by decide) (memLen_lenIn hm) (fun _ _ => rfl) hm fun x y m => by
        simp [m.scope _ _ (Bool.and_elim_right (Bool.and_elim_left h)), m.eight _ _ (Bool.and_elim_right h)])
  | sstl =>
    have hm := Bool.and_elim_left (Bool.and_elim_left h)
    exact .of rfl (.memU (fun c t b o r => r.scope.map (fun s => .sstl c t s b o (sName r.b.sb)))
      rfl (by decide) (memLen_lenIn hm) (fun _ _ => rfl) hm fun x y m => by
        simp [m.scope _ _ (Bool.and_elim_right h)])
  | vatom c op aq rl t sc d ad o b k =>
    have hl : c.lenIn [.wide] = true :=
      Bool.and_elim_right (Bool.and_elim_left (Bool.and_elim_left (Bool.and_elim_left (Bool.and_elim_left (Bool.and_elim_left h)))))
    have hc := Ctl.len_of_lenIn hl
    have hm : memLen c t o = true := memLen_of_wide
      (Bool.and_elim_left (Bool.and_elim_left (Bool.and_elim_left (Bool.and_elim_left (Bool.and_elim_left h))))) hc
    refine .of rfl (.mem (fun c t ad o r => rdAtom (fun k aq rl s => some (.vatom c k aq rl t s r.b.dst ad o r.vb r.vc)) r) (by decide) hl
      (fun _ _ => rfl) hm fun x y m => ?_)
    exact (rdAtom_eq (sc := sc) _ (m.eight _ _ (by simp [hc])) (by simp [m.wide hc])).trans (by simp [Rd.vc, m.wide hc])
  | satom c op aq rl t sc d ba o b k =>
    have hl : c.lenIn [.wide] = true := Bool.and_elim_right (Bool.and_elim_left h)
    have hc := Ctl.len_of_lenIn hl
    refine .of rfl (.memU (fun c t b o r =>
        rdAtom (fun k aq rl s => some (.satom c k aq rl t s (sName r.b.dst) b o (sName r.b.sb) (sName r.x.sc))) r)
      rfl (by decide) hl (fun _ _ => rfl) (memLen_of_wide (Bool.and_elim_left h) hc) fun x y m => ?_)
    exact (rdAtom_eq (sc := sc) _ (m.eight _ _ (by simp [hc])) (by simp [m.wide hc])).trans (by simp [m.wide hc])
  | vlr =>
    have hm := Bool.and_elim_left (Bool.and_elim_left (Bool.and_elim_left h))
    exact .of rfl (.mem (fun c t ad o r => some (.vlr c t r.b.dst ad o))
      (by decide) (memLen_lenIn hm) (fun _ _ => rfl) hm fun x y m => by
        simp)
  | vsc =>
    have hm := Bool.and_elim_left (Bool.and_elim_left (Bool.and_elim_left h))
    exact .of rfl (.mem (fun c t ad o r => some (.vsc c t (pName r.b.dst) ad o r.vb))
      (by decide) (memLen_lenIn hm) (fun _ _ => rfl) hm fun x y m => by
        simp)
  | fence c s => exact .of rfl (.order (by decide) (Bool.and_elim_left h)
      fun _ _ m => parse_map rfl (m.scope _ _ (Bool.and_elim_right h)) (by simp))
  | acq c s => exact .of rfl (.order (by decide) (Bool.and_elim_left (Bool.and_elim_left h))
      fun _ _ m => parse_map rfl (m.scope _ _ (Bool.and_elim_right (Bool.and_elim_left h)))
      (by simp [m.eight _ _ (Bool.and_elim_right h)]))
  | rel c s => exact .of rfl (.order (by decide) (Bool.and_elim_left h)
      fun _ _ m => parse_map rfl (m.scope _ _ (Bool.and_elim_right h)) (by simp))
  | invr =>
    exact .of rfl (.memU (fun c t b o r => some (.invr c b o (sName r.b.sb)))
      rfl (by decide) (memLen_lenIn h) (fun _ _ => rfl) h fun x y m => by simp)
  | inva => exact .of rfl (.order (by decide) h fun _ _ _ => parse_some rfl (by simp))
  | reg =>
    have hm := Bool.and_elim_left (Bool.and_elim_left h)
    exact .of rfl (.mem (fun c t ad o r => some (.reg c t ad o))
      (by decide) (memLen_lenIn hm) (fun _ _ => rfl) hm fun x y m => by
        simp)
  | dereg =>
    have hm := Bool.and_elim_left (Bool.and_elim_left h)
    exact .of rfl (.mem (fun c t ad o r => some (.dereg c t ad o))
      (by decide) (memLen_lenIn hm) (fun _ _ => rfl) hm fun x y m => by
        simp)
  | pref =>
    have hm := Bool.and_elim_left (Bool.and_elim_left h)
    exact .of rfl (.mem (fun c t ad o r => some (.pref c t ad o))
      (by decide) (memLen_lenIn hm) (fun _ _ => rfl) hm fun x y m => by
        simp)
  | waita c t k d b o x tm =>
    have hm : memLen c t o = true := Bool.and_elim_left (Bool.and_elim_left (Bool.and_elim_left h))
    have hk : (c.len == .wide || k == .eq) = true := Bool.and_elim_right (Bool.and_elim_left h)
    have ht : (tm.isSome == (c.len == .wide)) = true := Bool.and_elim_right h
    refine .of rfl (.memU (fun c t b o r => some (.waita c t (wcondOf (r.x8.extractLsb' 0 2)) (sName r.b.dst) b o (sName r.b.sb)
      (if r.len = .wide then some (sName r.x.sc) else none))) rfl (by decide) (memLen_lenIn hm) (fun _ _ => rfl) hm fun e y m => ?_)
    have hx := m.eight 0xA8 { dst := fldReg d, sa := fldReg b, sb := fldReg x } (by cases k <;> simp_all [WCond.code])
    have hw : (k.code.setWidth 8).extractLsb' 0 2 = k.code := by cases k <;> rfl
    simp at hx
    by_cases hc : c.len = .wide
    · obtain ⟨r, rfl⟩ := Option.isSome_iff_exists.1 (by simpa [hc] using ht)
      simp [hx, hw, hc, m.wide hc]
    · obtain rfl : tm = none := Option.not_isSome_iff_eq_none.1 (by simp [eq_of_beq ht, hc])
      simp [hx, hw, hc]
  | xfer => exact .of rfl (.wordOf (by decide) (Bool.and_elim_right h) (parse_some rfl (by simp)))
  | msgsend => exact .of rfl (.wordOf (by decide) (Bool.and_elim_right h) (parse_some rfl (by simp)))
  | msgrecv => exact .of rfl (.wordOf (by decide) (Bool.and_elim_right h) (parse_some rfl (by simp)))
  | msgfree => exact .of rfl (.wordOf (by decide) (Bool.and_elim_right h) (parse_some rfl (by simp)))
  | barinit => exact .of rfl (.wordOf (by decide) (Bool.and_elim_right h) (parse_some rfl (by simp)))
  | bararr => exact .of rfl (.wordOf (by decide) (Bool.and_elim_right h) (parse_some rfl (by simp)))
  | barwait => exact .of rfl (.wordOf (by decide) (Bool.and_elim_right h) (parse_some rfl (by simp)))
  | bartry => exact .of rfl (.wordOf (by decide) (Bool.and_elim_right h) (parse_some rfl (by simp)))
  | mma c z hh d a ao b bo => exact .of rfl (.wordOf (by decide) (Bool.and_elim_right (Bool.and_elim_left h))
      (parse_some rfl (by simp [Rd.hi_halves]; exact ⟨extract_low .., extract_middle ..⟩)))
  | mmas c z hh d a ao b bo => exact .of rfl (.wordOf (by decide) (Bool.and_elim_right (Bool.and_elim_left h))
      (parse_some rfl (by simp [Rd.hi_halves]; exact ⟨extract_low .., extract_middle ..⟩)))
  | mscale c z i d p rs ss so => exact .of rfl (.wordOf (by decide) (Bool.and_elim_right (Bool.and_elim_left h))
      (parse_some rfl (by simp [Rd.hi_halves]; exact ⟨extract_low .., extract_middle ..⟩)))
  | mzero => exact .of rfl (.wordOf (by decide) (Bool.and_elim_right (Bool.and_elim_left h)) (parse_some rfl (by simp)))
  | mcvt c hh t m =>
    have hl : c.lenIn [.long] = true := Bool.and_elim_right (Bool.and_elim_left (Bool.and_elim_left (Bool.and_elim_left h)))
    refine .of rfl (.wordOf (by decide) hl ?_)
    change (match tyOf _, Rd.rnd _ with | some t, some m => some (Instr.mcvt _ _ t m _ _ _) | _, _ => none) = _
    simp [Rd.rnd, Ctl.len_of_lenIn hl]
  | tfpin => exact .of rfl (.wordOf (by decide) (Bool.and_elim_right (Bool.and_elim_left h)) (parse_some rfl (by simp)))
  | tfrel => exact .of rfl (.wordOf (by decide) (Bool.and_elim_right (Bool.and_elim_left (Bool.and_elim_left h)))
      (parse_some rfl (by simp)))
  | bra c k => exact .of rfl (.wordOf (by decide) (Bool.and_elim_right (Bool.and_elim_left (Bool.and_elim_left h)))
      (parse_map rfl (bcondOf_code k) (by simp)))
  | brv => exact .of rfl (.wordOf (by decide) (Bool.and_elim_right (Bool.and_elim_left (Bool.and_elim_left h))) (parse_some rfl (by simp)))
  | brx => exact .of rfl (.wordOf (by decide) (Bool.and_elim_right (Bool.and_elim_left (Bool.and_elim_left h))) (parse_some rfl (by simp)))
  | call c d =>
    cases d with
    | s r => exact .of rfl (.wordOf (by decide) (Bool.and_elim_right (Bool.and_elim_left (Bool.and_elim_left h)))
        (parse_some rfl (by simp)))
    | w r => exact .of rfl (.wordOf (by decide) (Bool.and_elim_right (Bool.and_elim_left (Bool.and_elim_left h)))
        (parse_some rfl (by simp)))
  | ret c a =>
    cases a with
    | s r => exact .of rfl (.wordOf (by decide) (Bool.and_elim_right (Bool.and_elim_left h)) (parse_some rfl (by simp)))
    | w r => exact .of rfl (.wordOf (by decide) (Bool.and_elim_right (Bool.and_elim_left h)) (parse_some rfl (by simp)))
  | exit => exact .of rfl (.wordOf (by decide) (Bool.and_elim_right h) (parse_some rfl (by simp)))
  | sync => exact .of rfl (.wordOf (by decide) (Bool.and_elim_right h) (parse_some rfl (by simp)))
  | waitq => exact .of rfl (.wordOf (by decide) (Bool.and_elim_left h) (parse_some rfl (by simp)))
  | yield => exact .of rfl (.wordOf (by decide) (Bool.and_elim_right h) (parse_some rfl (by simp)))
  | nop => exact .of rfl (.wordOf (by decide) (Bool.and_elim_right h) (parse_some rfl (by simp)))
  | trap => exact .of rfl (.wordOf (by decide) (Bool.and_elim_right h) (parse_some rfl (by simp)))
  | bkpt => exact .of rfl (.wordOf (by decide) (Bool.and_elim_right h) (parse_some rfl (by simp)))
  | svc => exact .of rfl (.wordOf (by decide) (Bool.and_elim_right (Bool.and_elim_left (Bool.and_elim_left h))) (parse_some rfl (by simp)))
  | qpost => exact .of rfl (.wordOf (by decide) (Bool.and_elim_right h) (parse_some rfl (by simp)))
  | reggrow c d u =>
    have hlen : u.lenOk c .short .long = true := Bool.and_elim_right h
    cases u with
    | reg s => exact .of rfl (.wordOf (by decide) (USrc.lenIn hlen) (parse_some rfl (by simp [Rd.n, eq_of_beq hlen])))
    | imm v => exact .of rfl (.wordOf (by decide) (USrc.lenIn hlen) (parse_some rfl (by simp [Rd.n, eq_of_beq hlen])))
  | regshrink c u =>
    have hlen : u.lenOk c .short .long = true := Bool.and_elim_right h
    cases u with
    | reg s => exact .of rfl (.wordOf (by decide) (USrc.lenIn hlen) (parse_some rfl (by simp [Rd.n, eq_of_beq hlen])))
    | imm v => exact .of rfl (.wordOf (by decide) (USrc.lenIn hlen) (parse_some rfl (by simp [Rd.n, eq_of_beq hlen])))
  | srd => exact .of rfl (.wordOf (by decide) (Bool.and_elim_right (Bool.and_elim_left h)) (parse_some rfl (by simp)))
  | swr => exact .of rfl (.wordOf (by decide) (Bool.and_elim_right (Bool.and_elim_left h)) (parse_some rfl (by simp)))
  | sres => exact .of rfl (.wordOf (by decide) (Bool.and_elim_right (Bool.and_elim_left (Bool.and_elim_left h))) (parse_some rfl (by simp)))
  | pctxsv => exact .of rfl (.wordOf (by decide) (Bool.and_elim_right (Bool.and_elim_left h)) (parse_some rfl (by simp)))
  | pctxld => exact .of rfl (.wordOf (by decide) (Bool.and_elim_right (Bool.and_elim_left h)) (parse_some rfl (by simp)))
  | tlbinv c k hub =>
    have hok := Bool.and_elim_left (Bool.and_elim_left (Bool.and_elim_left h))
    exact .of rfl (.wordOf (by decide) (Bool.and_elim_right hok) (parse_map rfl (tlbMod k hub).1 (by simp [(tlbMod k hub).2])))
  | mbxsend => exact .of rfl (.wordOf (by decide) (Bool.and_elim_right (Bool.and_elim_left (Bool.and_elim_left h)))
      (parse_some rfl (by simp)))
  | mbxrecv => exact .of rfl (.wordOf (by decide) (Bool.and_elim_right (Bool.and_elim_left (Bool.and_elim_left h)))
      (parse_some rfl (by simp)))
  | zap => exact .of rfl (.wordOf (by decide) (Bool.and_elim_right (Bool.and_elim_left h)) (parse_some rfl (by simp)))
  | halt => exact .of rfl (.wordOf (by decide) (Bool.and_elim_right (Bool.and_elim_left h)) (parse_some rfl (by simp)))
  | iret => exact .of rfl (.wordOf (by decide) (Bool.and_elim_right (Bool.and_elim_left h)) (parse_some rfl (by simp)))
  | pstop => exact .of rfl (.wordOf (by decide) (Bool.and_elim_right (Bool.and_elim_left h)) (parse_some rfl (by simp)))
  | pstopGo => exact .of rfl (.wordOf (by decide) (Bool.and_elim_right (Bool.and_elim_left h)) (parse_some rfl (by simp)))
  | pstopEnd => exact .of rfl (.wordOf (by decide) (Bool.and_elim_right (Bool.and_elim_left h)) (parse_some rfl (by simp)))
  | swrp => exact .of rfl (.wordOf (by decide) (Bool.and_elim_right (Bool.and_elim_left (Bool.and_elim_left h))) (parse_some rfl (by simp)))
  | dovetail c x y => exact absurd rfl (hd c x y)
  | _ => exact .event rfl
end Sys2Proof
end

section
/-! Dovetail words (R119-R121), the decoder's checks in order (R112), and what is settled of the decoder: O1, O2 and O3. -/

namespace Sys2Proof

/-! ### Dovetail words (R119-R121) -/

/-- The 128 bits of a word as the three parts that hold them. -/
theorem Word.eq_iff_wide {w : Word} {b : BitVec 128} :
    w = ⟨b.extractLsb' 0 64, b.extractLsb' 64 32, b.extractLsb' 96 32⟩ ↔ w.wide = b := by
  obtain ⟨x, y, z⟩ := w
  constructor
  · intro h
    obtain ⟨rfl, rfl, rfl⟩ := Word.mk.inj h
    simp only [Word.wide, BitVec.extractLsb'_append_extractLsb'_eq_extractLsb', BitVec.extractLsb'_eq_self]
  · rintro rfl
    rw [Word.mk.injEq]
    exact ⟨(extract_low ..).symm, (extract_middle ..).symm, BitVec.extractLsb'_append_eq_left.symm⟩

theorem Word.base_extract (w : Word) (i n : Nat) (h : i + n ≤ 64) : w.wide.extractLsb' i n = w.base.extractLsb' i n :=
  (BitVec.extractLsb'_append_eq_of_add_le (by omega)).trans (BitVec.extractLsb'_append_eq_of_add_le h)

/-- The 128 bits of a dovetail word (R119). -/
def dovetailBits (c : Ctl) (x y : BitVec 53) : BitVec 128 :=
  y ++ (x ++ (c.setq ++ (c.waitm ++ (c.stall ++ ((0xFF : BitVec 8) ++ c.len.code)))))

theorem encDovetail_wide (c : Ctl) (x y : Half) : (encDovetail c x y).wide = dovetailBits c x.bits y.bits := Word.eq_iff_wide.1 rfl

theorem dovetailBits_x (c : Ctl) (x y : BitVec 53) : (dovetailBits c x y).extractLsb' 22 53 = x := extract_middle ..

theorem dovetailBits_y (c : Ctl) (x y : BitVec 53) : (dovetailBits c x y).extractLsb' 75 53 = y := BitVec.extractLsb'_append_eq_left

theorem dovetailBits_op (c : Ctl) (x y : BitVec 53) : (dovetailBits c x y).extractLsb' 2 8 = 0xFF := by
  simp (disch := omega) only [dovetailBits, BitVec.extractLsb'_append_eq_of_add_le]
  exact BitVec.extractLsb'_append_eq_left

/-- The bits of a word are those of a dovetail word where its fields are. -/
theorem Word.wide_eq_dovetailBits {w : Word} {c : Ctl} (hop : (Base.ofBits w.base).op = 0xFF) (hs : (Base.ofBits w.base).setq = c.setq)
    (hw : (Base.ofBits w.base).waitm = c.waitm) (ht : (Base.ofBits w.base).stall = c.stall) (hl : (Base.ofBits w.base).len = c.len.code) :
    w.wide = dovetailBits c (w.wide.extractLsb' 22 53) (w.wide.extractLsb' 75 53) := by
  rw [dovetailBits, ← hs, ← hw, ← ht, ← hl, ← hop]
  simp only [Base.ofBits, ← w.base_extract 19 3 (by decide), ← w.base_extract 13 6 (by decide), ← w.base_extract 10 3 (by decide),
    ← w.base_extract 2 8 (by decide), ← w.base_extract 0 2 (by decide), BitVec.extractLsb'_append_extractLsb'_eq_extractLsb',
    BitVec.extractLsb'_eq_self]

theorem code_of_hopOf {b : BitVec 8} {o : HOp} (h : hopOf b = some o) : o.code = b := by
  unfold hopOf at h
  split at h <;> cases h <;> rfl

theorem code_of_tyOf {b : BitVec 4} {t : Ty} (h : tyOf b = some t) : t.code = b := by
  unfold tyOf at h
  split at h <;> cases h <;> rfl

theorem code_of_rndOf {b : BitVec 3} {r : Rnd} (h : rndOf b = some r) : r.code = b := by
  unfold rndOf at h
  split at h <;> cases h <;> rfl

/-- The fields of a half are where its bits hold them (R119). -/
structure Half.FieldsAt (h : Half) (b : BitVec 53) : Prop where
  reserved : b.getLsbD 52 = false
  rm : halfRm b = h.rnd.code.setWidth 2
  mod : halfMod b = h.ty.code.setWidth 3
  lb : b.extractLsb' 46 1 = flag1 h.b.last
  la : b.extractLsb' 45 1 = flag1 h.a.last
  sb : b.extractLsb' 34 11 = h.b.reg
  sa : b.extractLsb' 23 11 = h.a.reg
  dst : b.extractLsb' 12 11 = h.d
  guard : b.extractLsb' 8 4 = h.guard
  op : halfOp b = h.op.code

theorem Half.fieldsAt_bits (h : Half) : h.FieldsAt h.bits := by
  constructor
  case reserved =>
    rw [bits, BitVec.getLsbD_append, if_neg (by decide)]
    rfl
  case op =>
    simp (disch := omega) only [Half.bits, halfOp, BitVec.extractLsb'_append_eq_of_add_le, BitVec.extractLsb'_eq_self]
  all_goals
    simp (disch := omega) only [Half.bits, halfRm, halfMod, BitVec.extractLsb'_append_eq_of_add_le]
    exact BitVec.extractLsb'_append_eq_left

theorem Half.FieldsAt.bits_eq {h : Half} {b : BitVec 53} (f : h.FieldsAt b) : h.bits = b := by
  have hz : b.extractLsb' 52 1 = 0 := by
    apply BitVec.eq_of_getLsbD_eq
    intro i hi
    simpa [show i = 0 by omega] using f.reserved
  rw [Half.bits, ← f.rm, ← f.mod, ← f.lb, ← f.la, ← f.sb, ← f.sa, ← f.dst, ← f.guard, ← f.op, ← hz]
  simp only [halfRm, halfMod, halfOp, BitVec.extractLsb'_append_extractLsb'_eq_extractLsb', BitVec.extractLsb'_eq_self]

theorem getLsbD_of_extract {w i : Nat} {b : BitVec w} {f : Bool} (h : b.extractLsb' i 1 = flag1 f) : b.getLsbD i = f := by
  have := congrArg (·.getLsbD 0) h
  simpa [flag1] using this

/-- A type of R120's table is among the first eight codes. -/
theorem HOp.tyOf_mod {o : HOp} {t : Ty} (h : o.tyOk t = true) : tyOf ((t.code.setWidth 3).setWidth 4) = some t := by
  cases o <;> cases t <;> first | rfl | exact absurd h (by decide)

theorem rndOf_rm {r : Rnd} (h : r ≠ .sr) : rndOf ((r.code.setWidth 2).setWidth 3) = some r := by
  cases r <;> first | rfl | exact absurd rfl h

theorem HOp.halfModOk_code {o : HOp} {t : Ty} (h : o.tyOk t = true) : halfModOk o.code.toNat (t.code.setWidth 3).toNat = true := by
  cases o <;> cases t <;> first | rfl | exact absurd h (by decide)

/-- A half that is well formed by itself passes its field checks and reads back. -/
theorem Half.reads_bits {h : Half} (ho : h.ok = true) : halfFieldsOk h.bits = true ∧ halfOf h.bits = some h := by
  obtain ⟨⟨⟨hty, hsr⟩, hrm⟩, hun⟩ : ((h.op.tyOk h.ty = true ∧ h.rnd ≠ .sr) ∧ (h.op.isFloat = true ∨ h.rnd = .rne)) ∧
      (h.op.unary = false ∨ h.b.reg = 0 ∧ h.b.last = false) := by simpa [Half.ok] using ho
  have f := h.fieldsAt_bits
  constructor
  · simp only [halfFieldsOk, f.reserved, f.op, f.mod, f.rm, f.sb, getLsbD_of_extract f.lb, hopOf_code, HOp.halfModOk_code hty]
    rcases hrm with hrm | hrm <;> rcases hun with hun | ⟨hb, hl⟩ <;> simp [*, Rnd.code]
  · simp only [halfOf, f.op, f.mod, f.rm, f.sb, f.sa, f.dst, f.guard, getLsbD_of_extract f.lb, getLsbD_of_extract f.la, hopOf_code,
      HOp.tyOf_mod hty, rndOf_rm hsr, hty, if_true]

/-- A half that reads and passes its field checks is well formed, and its bits are those read. -/
theorem Half.of_reads {h : Half} {b : BitVec 53} (hf : halfFieldsOk b = true) (ho : halfOf b = some h) : h.bits = b ∧ h.ok = true := by
  unfold halfOf at ho
  split at ho
  case h_2 => cases ho
  case h_1 o t r hop hty hrnd =>
    split at ho
    case isFalse => cases ho
    case isTrue hok =>
      have hr := code_of_rndOf hrnd
      have hrm : halfRm b = r.code.setWidth 2 := by rw [hr, BitVec.setWidth_setWidth_of_le _ (by decide), BitVec.setWidth_eq]
      have hsr : r ≠ .sr := by
        rintro rfl
        have := congrArg BitVec.toNat hr
        have hlt := (halfRm b).isLt
        simp [Rnd.code] at this
        omega
      simp only [halfFieldsOk, hop, Bool.and_eq_true] at hf
      obtain ⟨⟨hres, -⟩, hz, hu⟩ := hf
      cases ho
      refine ⟨Half.FieldsAt.bits_eq ⟨by simpa using hres, hrm, ?_, ?_, ?_, rfl, rfl, rfl, rfl, (code_of_hopOf hop).symm⟩, ?_⟩
      · rw [code_of_tyOf hty, BitVec.setWidth_setWidth_of_le _ (by decide), BitVec.setWidth_eq]
      · exact BitVec.eq_of_getLsbD_eq fun i hi => by simp [show i = 0 by omega, flag1]
      · exact BitVec.eq_of_getLsbD_eq fun i hi => by simp [show i = 0 by omega, flag1]
      · have hrne : o.isFloat = true ∨ r = .rne := by
          rcases Bool.or_eq_true_iff.1 hz with hz | hz
          · exact .inl hz
          · refine .inr ?_
            rw [hrm] at hz
            cases r with
            | rne => rfl
            | sr => exact absurd rfl hsr
            | _ => exact absurd hz (by decide)
        simp only [Half.ok, hok, Bool.true_and, Bool.and_eq_true]
        refine ⟨⟨by simpa using hsr, by simpa using hrne⟩, hu⟩

theorem wf_dovetail_iff {c : Ctl} {x y : Half} : wf (.dovetail c x y) = true ↔
    (c.setq == 6) = false ∧ c.len = .wide ∧ c.guard = 7 ∧ x.ok = true ∧ y.ok = true ∧ pairOk x y = true := by
  have h : wf (.dovetail c x y) = (c.ok && c.lenIn [.wide] && c.unguarded && x.ok && y.ok && pairOk x y) := rfl
  simp [h, Ctl.ok, Ctl.lenIn, Ctl.unguarded, and_assoc]

theorem decodeDovetail_encDovetail {c : Ctl} {x y : Half} (h : wf (.dovetail c x y) = true) :
    decodeDovetail (encDovetail c x y) = .ok (.dovetail c x y) := by
  obtain ⟨hc, hl, hg, hx, hy, hp⟩ := wf_dovetail_iff.1 h
  obtain ⟨hs, hw, hq, -⟩ := Laws.Controls.carries_encDovetail c x y
  obtain ⟨hxf, hxo⟩ := Half.reads_bits hx
  obtain ⟨hyf, hyo⟩ := Half.reads_bits hy
  have hctl : (⟨.wide, c.stall, c.waitm, c.setq, 7⟩ : Ctl) = c := by rw [← hl, ← hg]
  rw [decodeDovetail, encDovetail_wide, dovetailBits_x, dovetailBits_y, hs, hw, hq, hctl]
  simp only [hc, hxf, hxo, hyf, hyo, hp, Bool.not_true, Bool.or_false, Bool.false_eq_true, if_false, if_true]

theorem encode_of_decodeDovetail {w : Word} {i : Instr} (ho : (Base.ofBits w.base).op = 0xFF) (hl : (Base.ofBits w.base).len = Len.wide.code)
    (h : decodeDovetail w = .ok i) : encode i = some w ∧ wfOn false i = true := by
  simp only [decodeDovetail] at h
  split at h
  case isTrue => cases h
  case isFalse hf =>
    split at h
    case h_2 => cases h
    case h_1 x y hx hy =>
      split at h
      case isFalse => cases h
      case isTrue hp =>
        cases h
        simp only [Bool.or_eq_true, not_or, Bool.not_eq_true', Bool.not_eq_true, Bool.not_eq_false] at hf
        obtain ⟨⟨hs, hxf⟩, hyf⟩ := hf
        obtain ⟨hxb, hxk⟩ := Half.of_reads hxf hx
        obtain ⟨hyb, hyk⟩ := Half.of_reads hyf hy
        constructor
        · refine congrArg some (Eq.symm (Word.eq_iff_wide.2 ?_))
          exact (Word.wide_eq_dovetailBits ho rfl rfl rfl hl).trans (by rw [dovetailBits, ← hxb, ← hyb])
        · exact Bool.and_eq_true_iff.2 ⟨Bool.and_eq_true_iff.2 ⟨wf_dovetail_iff.2 ⟨hs, rfl, rfl, hxk, hyk, hp⟩, rfl⟩, rfl⟩

end Sys2Proof

namespace Sys2Proof.Machine

/-! ### The checks of the decoder (R112, R123, R125) -/

/-- Checks 5 and 6 of R112 as the decoder states them. -/
theorem runsOn_iff {svc : Bool} {w : Word} : runsOn svc w = true ↔
    (!svc && 0xE0 ≤ (Base.ofBits w.base).op.toNat && (Base.ofBits w.base).op.toNat ≤ 0xEF) = false ∧
      (svc && !opService (Base.ofBits w.base).op.toNat) = false := by
  cases svc with
  | false =>
    simp [runsOn]
    omega
  | true => simp [runsOn]

/-- A word whose length and opcode pass the checks is read as a dovetail word or by its layout. -/
theorem decodeWord_eq {svc : Bool} {w : Word} {l : Len} (hl : lenOf (Base.ofBits w.base).len = some l)
    (ha : opAssigned (Base.ofBits w.base).op.toNat = true) (hr : runsOn svc w = true)
    (hc : (opLens (Base.ofBits w.base).op.toNat).contains l = true) :
    decodeWord svc w = if (Base.ofBits w.base).op.toNat == 0xFF then decodeDovetail w else
      match parse (w.rd l) with
      | none => .error .illegalField
      | some i => if encode i = some w && wfOn svc i then .ok i else .error .illegalField := by
  obtain ⟨hp, hs⟩ := runsOn_iff.1 hr
  simp only [decodeWord, hl, ha, hp, hs, hc, Bool.not_true, Bool.false_eq_true, if_false] <;> rfl

/-- What a word that decodes has passed. -/
theorem checks_of_decodeWord {svc : Bool} {w : Word} {i : Instr} (h : decodeWord svc w = .ok i) :
    ∃ l, lenOf (Base.ofBits w.base).len = some l ∧ opAssigned (Base.ofBits w.base).op.toNat = true ∧ runsOn svc w = true ∧
      (opLens (Base.ofBits w.base).op.toNat).contains l = true := by
  unfold decodeWord at h
  cases hl : lenOf (Base.ofBits w.base).len with
  | none => simp [hl] at h
  | some l =>
    simp only [hl] at h
    split at h
    case isTrue => cases h
    case isFalse ha =>
      split at h
      case isTrue => cases h
      case isFalse hp =>
        split at h
        case isTrue => cases h
        case isFalse hs =>
          split at h
          case isTrue => cases h
          case isFalse hc =>
            exact ⟨l, rfl, by simpa using ha, runsOn_iff.2 ⟨Bool.eq_false_iff.2 hp, Bool.eq_false_iff.2 hs⟩, by simpa using hc⟩

theorem runsOn_dovetail {svc : Bool} {w : Word} (ho : (Base.ofBits w.base).op.toNat = 0xFF) (h : runsOn svc w = true) : svc = false := by
  cases svc with
  | false => rfl
  | true =>
    simp only [runsOn, ho] at h
    exact absurd h (by decide)

theorem lens_dovetail {l : Len} (h : (opLens 0xFF).contains l = true) : l = .wide := by
  cases l <;> first | rfl | exact absurd h (by decide)

theorem decodeWord_of_dovetail {c : Ctl} {x y : Half} {svc : Bool} (h : wfOn svc (.dovetail c x y) = true)
    (hr : runsOn svc (encDovetail c x y) = true) : decodeWord svc (encDovetail c x y) = .ok (.dovetail c x y) := by
  have hwf : wf (.dovetail c x y) = true := Bool.and_elim_left (Bool.and_elim_left h)
  obtain ⟨-, hl, -⟩ := wf_dovetail_iff.1 hwf
  obtain ⟨-, -, -, hlen⟩ := Laws.Controls.carries_encDovetail c x y
  have hop : (Base.ofBits (encDovetail c x y).base).op = 0xFF :=
    (Word.base_extract _ 2 8 (by decide)).symm.trans ((congrArg _ (encDovetail_wide c x y)).trans (dovetailBits_op ..))
  rw [decodeWord_eq (by rw [hlen, lenOf_code, hl]) (by rw [hop]; decide) hr (by rw [hop]; decide), hop, if_pos (by decide)]
  exact decodeDovetail_encDovetail hwf

theorem decodeWord_of_readsBack {svc : Bool} {w : Word} {i : Instr} (h : ReadsBack w i) (he : encode i = some w) (hwf : wfOn svc i = true)
    (hr : runsOn svc w = true) : decodeWord svc w = .ok i := by
  obtain ⟨l, hl, ha, hd, hc, hp⟩ := h
  rw [decodeWord_eq hl ha hr hc, hd, hp]
  simp [he, hwf]

/-- Settles O1: a dovetail word by its halves, any other by the layout of its instruction (`reads`). -/
theorem encodeDecode : Obligations.EncodeDecode := by
  intro svc i w hwf he hr
  by_cases hd : ∃ c x y, i = .dovetail c x y
  · obtain ⟨c, x, y, rfl⟩ := hd
    obtain rfl : encDovetail c x y = w := Option.some.inj he
    exact decodeWord_of_dovetail hwf hr
  · have hn : ∀ c x y, i ≠ .dovetail c x y := fun c x y k => hd ⟨c, x, y, k⟩
    exact decodeWord_of_readsBack (reads (Bool.and_elim_left (Bool.and_elim_left hwf)) hn w he) he hwf hr

/-- Settles O2: the last check of the decoder is the encoding itself, and a dovetail word is put together again from its parts. -/
theorem decodeEncode : Obligations.DecodeEncode := by
  intro svc w i h
  obtain ⟨l, hl, ha, hr, hc⟩ := checks_of_decodeWord h
  rw [decodeWord_eq hl ha hr hc] at h
  split at h
  case isTrue hd =>
    have hop : (Base.ofBits w.base).op.toNat = 0xFF := eq_of_beq hd
    obtain rfl := runsOn_dovetail hop hr
    obtain rfl := lens_dovetail (hop ▸ hc)
    have hlen : (Base.ofBits w.base).len = Len.wide.code := by
      generalize (Base.ofBits w.base).len = k at hl
      revert k
      decide
    obtain ⟨he, hwf⟩ := encode_of_decodeDovetail (BitVec.eq_of_toNat_eq hop) hlen h
    exact ⟨he, hwf, hr⟩
  case isFalse =>
    split at h
    case h_1 => cases h
    case h_2 j hj =>
      split at h
      case isFalse => cases h
      case isTrue hk =>
        cases h
        simp only [Bool.and_eq_true, decide_eq_true_eq] at hk
        exact ⟨hk.1, hk.2, hr⟩

theorem decodeWord_unassigned {svc : Bool} {w : Word} (h : opAssigned (Base.ofBits w.base).op.toNat = false) :
    decodeWord svc w = .error .illegalOp := by
  unfold decodeWord
  split <;> simp [h]

/-- Settles O3: each refusal is the first check of the decoder that the word fails. -/
theorem refusedOpcodes : Obligations.RefusedOpcodes := by
  refine ⟨?_, ?_, ?_, ?_⟩
  · intro svc w h
    simp only [decodeWord, h]
  · rintro svc w l n - rfl hn
    refine decodeWord_unassigned ?_
    simp only [opAssigned, Bool.or_eq_false_iff, Bool.and_eq_false_iff, decide_eq_false_iff_not, beq_eq_false_iff_ne]
    omega
  · rintro w l n hl rfl hlo hhi
    have ha : opAssigned (Base.ofBits w.base).op.toNat = true := by
      simp only [opAssigned, Bool.or_eq_true, Bool.and_eq_true, decide_eq_true_eq]
      omega
    have hp : (!false && decide (0xE0 ≤ (Base.ofBits w.base).op.toNat) && decide ((Base.ofBits w.base).op.toNat ≤ 0xEF)) = true := by
      simp only [Bool.not_false, Bool.true_and, Bool.and_eq_true, decide_eq_true_eq]
      omega
    simp only [decodeWord, hl, ha, hp, Bool.not_true, Bool.false_eq_true, if_false, if_true]
  · rintro w l n hl rfl ha hs
    simp only [decodeWord, hl, ha, hs, Bool.not_true, Bool.not_false, Bool.and_self, Bool.false_and, Bool.false_eq_true, if_false, if_true]

end Sys2Proof.Machine
end

section
/-! What an instruction of the table does is the issue of a word (R112): each meaning is led to `issueG` through the one helper that its
class issues by. -/

namespace Sys2Proof.Machine

section
variable {c : Ctl} {ps : List Part} {waits : BitVec 6} {chk : View → List Use} {wide : Bool} {body : View → Mask → Res} {s : State}

theorem issueG_answers (h : s.view ≠ none) : ∃ t, issueG c ps waits chk wide body s = .next t := by
  rcases issueG_cases (c := c) (ps := ps) (waits := waits) (chk := chk) (wide := wide) (body := body) (s := s) rfl with
    ⟨hn, -⟩ | hw | ⟨v0, v, -, -, ⟨t, -, ht⟩ | ⟨x, y, hr⟩ | ⟨w, -, ha | ⟨f, hf⟩ | ⟨-, hb⟩⟩⟩
  · exact absurd hn h
  · exact ⟨_, hw⟩
  · exact ⟨_, ht⟩
  · exact ⟨_, hr⟩
  · exact ⟨_, ha⟩
  · exact ⟨_, hf⟩
  · exact ⟨_, hb⟩

theorem issueG_of_noContext (h : s.view = none) : issueG c ps waits chk wide body s = .fault .noContext := by
  rw [issueG, h]

end

/-- The outcome is that of issuing a word with the control bits `c`. -/
inductive Issuing (c : Ctl) (s : State) : Host.Outcome State Fault Refusal → Prop
  | issueG (ps : List Part) (waits : BitVec 6) (chk : View → List Use) (wide : Bool) (body : View → Mask → Res) :
    Issuing c s (issueG c ps waits chk wide body s)

namespace Issuing

variable {c : Ctl} {s : State}

theorem issueW (g : BitVec 4) (waits : BitVec 6) (us : List Use) (wide : Bool) (body : View → Mask → Res) :
    Issuing c s (issueW c g waits us wide body s) := by
  rw [Machine.issueW]
  exact .issueG ..

theorem issue (us : List Use) (body : View → Mask → Res) : Issuing c s (issue c us body s) := by
  rw [Machine.issue]
  exact .issueW ..

theorem issueWide (us : List Use) (body : View → Mask → Res) : Issuing c s (issueWide c us body s) := by
  rw [Machine.issueWide]
  exact .issueW ..

theorem uniform2 (op : IType → W64 → W64 → W64) (t : IType) (d a : SReg) (b : USrc) : Issuing c s (uniform2 op c t d a b s) := by
  rw [Machine.uniform2]
  exact .issue ..

theorem uniformDiv (op : IType → Bool → W64 → W64 → FR) (sg : Bool) (t : IType) (d a : SReg) (b : USrc) :
    Issuing c s (uniformDiv op sg c t d a b s) := by
  rw [Machine.uniformDiv]
  exact .issue ..

theorem uniform1 (op : IType → W64 → W64) (t : IType) (d a : SReg) : Issuing c s (uniform1 op c t d a s) := by
  rw [Machine.uniform1]
  exact .issue ..

theorem reduce (int : List Int → Int) (flt : W64 → W64 → FR) (t : PType) (d : SReg) (a : VSrc) :
    Issuing c s (reduce int flt c t d a s) := by
  rw [Machine.reduce]
  exact .issueWide ..

theorem varying2 (op : IType → W64 → W64 → W64) (t : IType) (d : VReg) (a : VSrc) (b : VOpnd) : Issuing c s (varying2 op c t d a b s) := by
  rw [Machine.varying2]
  exact .issue ..

theorem varyingDiv (op : IType → Bool → W64 → W64 → FR) (sg : Bool) (t : IType) (d : VReg) (a : VSrc) (b : VOpnd) :
    Issuing c s (varyingDiv op sg c t d a b s) := by
  rw [Machine.varyingDiv]
  exact .issue ..

theorem varying1 (op : IType → W64 → W64) (t : IType) (d : VReg) (a : VSrc) : Issuing c s (varying1 op c t d a s) := by
  rw [Machine.varying1]
  exact .issue ..

theorem predicate2 (op : Mask → Mask → Mask) (d a b : PReg) : Issuing c s (predicate2 op c d a b s) := by
  rw [Machine.predicate2]
  exact .issue ..

theorem float2 (op : W64 → W64 → FR) (d : VReg) (a : VSrc) (b : VOpnd) : Issuing c s (float2 op c d a b s) := by
  rw [Machine.float2]
  exact .issue ..

theorem float3 (op : W64 → W64 → W64 → FR) (d : VReg) (a : VSrc) (b : VOpnd) (cc : VSrc) : Issuing c s (float3 op c d a b cc s) := by
  rw [Machine.float3]
  exact .issue ..

theorem float1 (op : W64 → FR) (d : VReg) (a : VSrc) : Issuing c s (float1 op c d a s) := by
  rw [Machine.float1]
  exact .issue ..

theorem special1 (op : W64 → FR) (d : VReg) (a : VSrc) : Issuing c s (special1 op c d a s) := by
  rw [Machine.special1]
  exact .issue ..

theorem loadV (ty : Ty) (nc acq : Bool) (rmask : Byte) (d : VReg) (ad : Addr) (off : BitVec 24) :
    Issuing c s (loadV c ty nc acq rmask d ad off s) := by
  rw [Machine.loadV]
  exact .issue ..

theorem storeV (ty : Ty) (rel : Option Scope) (ad : Addr) (off : BitVec 24) (b : VSrc) : Issuing c s (storeV c ty rel ad off b s) := by
  rw [Machine.storeV]
  exact .issue ..

end Issuing

/-- What an instruction does is issuing a word with its own part. -/
theorem exec_issues {i : Instr} {c : Ctl} (h : ctlOf i = some c) (s : State) : Issuing c s (exec i s) := by
  cases i with
  | sadd | ssub | smul | smulh | smulhn | sand | sor | sxor | sandn | sshl | sshr | ssra | smin | smax | sminn | smaxn =>
    cases h
    exact .uniform2 ..
  | sdiv | sdivn | srem | sremn =>
    cases h
    exact .uniformDiv ..
  | sclz | spopc | smov =>
    cases h
    exact .uniform1 ..
  | vredadd | vredmin | vredmax =>
    cases h
    exact .reduce ..
  | vadd | vsub | vmul | vmulh | vmulhn | vand | vor | vxor | vandn | vshl | vshr | vsra | vmin | vmax | vminn | vmaxn =>
    cases h
    exact .varying2 ..
  | vdiv | vdivn | vrem | vremn =>
    cases h
    exact .varyingDiv ..
  | vnot | vabs | vneg | vclz | vpopc | vmov =>
    cases h
    exact .varying1 ..
  | pand | por | pxor =>
    cases h
    exact .predicate2 ..
  | vfadd | vfsub | vfmul | vfmin | vfmax | vhadd2 | vhmul2 =>
    cases h
    exact .float2 ..
  | vfma | vhfma2 =>
    cases h
    exact .float3 ..
  | vfrnd | vunpack =>
    cases h
    exact .float1 ..
  | vfrcp | vfrsq | vfsqrt | vfexp2 | vflog2 | vfsin | vfcos | vftanh =>
    cases h
    exact .special1 ..
  | vld | vldq =>
    cases h
    exact .loadV ..
  | vst | vstl =>
    cases h
    exact .storeV ..
  | sbfx => cases h; exact (.issue .. : Issuing _ _ (execSbfx ..))
  | sbfi => cases h; exact (.issue .. : Issuing _ _ (execSbfi ..))
  | ssel => cases h; exact (.issue .. : Issuing _ _ (execSsel ..))
  | smovi => cases h; exact (.issue .. : Issuing _ _ (execSmovi ..))
  | scmp => cases h; exact (.issue .. : Issuing _ _ (execScmp ..))
  | amovi => cases h; exact (.issue .. : Issuing _ _ (execAmovi ..))
  | aadd => cases h; exact (.issue .. : Issuing _ _ (execAadd ..))
  | asub => cases h; exact (.issue .. : Issuing _ _ (execAsub ..))
  | aadds => cases h; exact (.issue .. : Issuing _ _ (execAadds ..))
  | amuls => cases h; exact (.issue .. : Issuing _ _ (execAmuls ..))
  | ashls => cases h; exact (.issue .. : Issuing _ _ (execAshls ..))
  | psa => cases h; exact (.issue .. : Issuing _ _ (execPsa ..))
  | psv => cases h; exact (.issue .. : Issuing _ _ (execPsv ..))
  | pav => cases h; exact (.issue .. : Issuing _ _ (execPav ..))
  | agetb => cases h; exact (.issue .. : Issuing _ _ (execAgetb ..))
  | agets => cases h; exact (.issue .. : Issuing _ _ (execAgets ..))
  | vmad => cases h; exact (.issue .. : Issuing _ _ (execVmad ..))
  | vbfx => cases h; exact (.issue .. : Issuing _ _ (execVbfx ..))
  | vbfi => cases h; exact (.issue .. : Issuing _ _ (execVbfi ..))
  | vsel => cases h; exact (.issue .. : Issuing _ _ (execVsel ..))
  | vmovi => cases h; exact (.issue .. : Issuing _ _ (execVmovi ..))
  | vcmp => cases h; exact (.issue .. : Issuing _ _ (execVcmp ..))
  | vsat => cases h; exact (.issue .. : Issuing _ _ (execVsat ..))
  | pnot => cases h; exact (.issue .. : Issuing _ _ (execPnot ..))
  | vfcmp => cases h; exact (.issue .. : Issuing _ _ (execVfcmp ..))
  | vfclass => cases h; exact (.issue .. : Issuing _ _ (execVfclass ..))
  | vfdiv => cases h; exact (.issue .. : Issuing _ _ (execVfdiv ..))
  | vcvt => cases h; exact (.issue .. : Issuing _ _ (execVcvt ..))
  | vpack => cases h; exact (.issue .. : Issuing _ _ (execVpack ..))
  | sfadd => cases h; exact (.issue .. : Issuing _ _ (execSfadd ..))
  | sfmul => cases h; exact (.issue .. : Issuing _ _ (execSfmul ..))
  | sfma => cases h; exact (.issue .. : Issuing _ _ (execSfma ..))
  | sfcvt => cases h; exact (.issue .. : Issuing _ _ (execSfcvt ..))
  | vprmt => cases h; exact (.issue .. : Issuing _ _ (execVprmt ..))
  | vdrop => cases h; exact (.issue .. : Issuing _ _ (execVdrop ..))
  | vhash => cases h; exact (.issue .. : Issuing _ _ (execVhash ..))
  | sld => cases h; exact (.issue .. : Issuing _ _ (execSld ..))
  | sst => cases h; exact (.issue .. : Issuing _ _ (execSst ..))
  | vlds => cases h; exact (.issue .. : Issuing _ _ (execVlds ..))
  | vsts => cases h; exact (.issue .. : Issuing _ _ (execVsts ..))
  | slds => cases h; exact (.issue .. : Issuing _ _ (execSlds ..))
  | ssts => cases h; exact (.issue .. : Issuing _ _ (execSsts ..))
  | sldq => cases h; exact (.issue .. : Issuing _ _ (execSldq ..))
  | sstl => cases h; exact (.issue .. : Issuing _ _ (execSstl ..))
  | vlr => cases h; exact (.issue .. : Issuing _ _ (execVlr ..))
  | vsc => cases h; exact (.issue .. : Issuing _ _ (execVsc ..))
  | fence => cases h; exact (.issue .. : Issuing _ _ (execFence ..))
  | acq => cases h; exact (.issue .. : Issuing _ _ (execAcq ..))
  | rel => cases h; exact (.issue .. : Issuing _ _ (execRel ..))
  | invr => cases h; exact (.issue .. : Issuing _ _ (execInvr ..))
  | inva => cases h; exact (.issue .. : Issuing _ _ (execInva ..))
  | reg => cases h; exact (.issue .. : Issuing _ _ (execReg ..))
  | dereg => cases h; exact (.issue .. : Issuing _ _ (execDereg ..))
  | pref => cases h; exact (.issue .. : Issuing _ _ (execPref ..))
  | waita => cases h; exact (.issue .. : Issuing _ _ (execWaita ..))
  | xfer => cases h; exact (.issue .. : Issuing _ _ (execXfer ..))
  | msgsend => cases h; exact (.issue .. : Issuing _ _ (execMsgsend ..))
  | msgrecv => cases h; exact (.issue .. : Issuing _ _ (execMsgrecv ..))
  | msgfree => cases h; exact (.issue .. : Issuing _ _ (execMsgfree ..))
  | barinit => cases h; exact (.issue .. : Issuing _ _ (execBarinit ..))
  | bararr => cases h; exact (.issue .. : Issuing _ _ (execBararr ..))
  | barwait => cases h; exact (.issue .. : Issuing _ _ (execBarwait ..))
  | bartry => cases h; exact (.issue .. : Issuing _ _ (execBartry ..))
  | tfpin => cases h; exact (.issue .. : Issuing _ _ (execTfpin ..))
  | tfrel => cases h; exact (.issue .. : Issuing _ _ (execTfrel ..))
  | bra => cases h; exact (.issue .. : Issuing _ _ (execBra ..))
  | brx => cases h; exact (.issue .. : Issuing _ _ (execBrx ..))
  | call => cases h; exact (.issue .. : Issuing _ _ (execCall ..))
  | ret => cases h; exact (.issue .. : Issuing _ _ (execRet ..))
  | exit => cases h; exact (.issue .. : Issuing _ _ (execExit ..))
  | yield => cases h; exact (.issue .. : Issuing _ _ (execYield ..))
  | nop => cases h; exact (.issue .. : Issuing _ _ (execNop ..))
  | trap => cases h; exact (.issue .. : Issuing _ _ (execTrap ..))
  | bkpt => cases h; exact (.issue .. : Issuing _ _ (execBkpt ..))
  | qpost => cases h; exact (.issue .. : Issuing _ _ (execQpost ..))
  | reggrow => cases h; exact (.issue .. : Issuing _ _ (execReggrow ..))
  | regshrink => cases h; exact (.issue .. : Issuing _ _ (execRegshrink ..))
  | srd => cases h; exact (.issue .. : Issuing _ _ (execSrd ..))
  | swr => cases h; exact (.issue .. : Issuing _ _ (execSwr ..))
  | sres => cases h; exact (.issue .. : Issuing _ _ (execSres ..))
  | pctxsv => cases h; exact (.issue .. : Issuing _ _ (execPctxsv ..))
  | pctxld => cases h; exact (.issue .. : Issuing _ _ (execPctxld ..))
  | tlbinv => cases h; exact (.issue .. : Issuing _ _ (execTlbinv ..))
  | mbxsend => cases h; exact (.issue .. : Issuing _ _ (execMbxsend ..))
  | mbxrecv => cases h; exact (.issue .. : Issuing _ _ (execMbxrecv ..))
  | zap => cases h; exact (.issue .. : Issuing _ _ (execZap ..))
  | halt => cases h; exact (.issue .. : Issuing _ _ (execHalt ..))
  | iret => cases h; exact (.issue .. : Issuing _ _ (execIret ..))
  | pstop => cases h; exact (.issue .. : Issuing _ _ (execPstop ..))
  | pstopGo => cases h; exact (.issue .. : Issuing _ _ (execPstopGo ..))
  | pstopEnd => cases h; exact (.issue .. : Issuing _ _ (execPstopEnd ..))
  | swrp => cases h; exact (.issue .. : Issuing _ _ (execSwrp ..))
  | vatom => cases h; exact (.issue .. : Issuing _ _ (execVatom ..))
  | satom => cases h; exact (.issue .. : Issuing _ _ (execSatom ..))
  | vpick => cases h; exact (.issueWide .. : Issuing _ _ (execVpick ..))
  | vany => cases h; exact (.issueWide .. : Issuing _ _ (execVany ..))
  | vall => cases h; exact (.issueWide .. : Issuing _ _ (execVall ..))
  | vshfl => cases h; exact (.issueWide .. : Issuing _ _ (execVshfl ..))
  | vbcast => cases h; exact (.issueWide .. : Issuing _ _ (execVbcast ..))
  | vscan => cases h; exact (.issueWide .. : Issuing _ _ (execVscan ..))
  | sync => cases h; exact (.issueWide .. : Issuing _ _ (execSync ..))
  | mma => cases h; exact (.issueG .. : Issuing _ _ (execMma ..))
  | mmas => cases h; exact (.issueG .. : Issuing _ _ (execMmas ..))
  | mscale => cases h; exact (.issueG .. : Issuing _ _ (execMscale ..))
  | mzero => cases h; exact (.issueG .. : Issuing _ _ (execMzero ..))
  | mcvt => cases h; exact (.issueG .. : Issuing _ _ (execMcvt ..))
  | dovetail => cases h; exact (.issueG .. : Issuing _ _ (execDovetail ..))
  | brv => cases h; exact (.issueW .. : Issuing _ _ (execBrv ..))
  | waitq => cases h; exact (.issueW .. : Issuing _ _ (execWaitq ..))
  | vballot c beat d a =>
    cases h
    change Issuing c s (execVballot ..)
    rw [execVballot]
    split <;> exact .issueWide ..
  | pmov c d a =>
    cases h
    change Issuing c s (execPmov ..)
    cases a <;> exact .issue ..
  | svc c each vb heel =>
    cases h
    change Issuing c s (execSvc ..)
    rw [execSvc]
    split
    · exact .issue ..
    · exact .issueG ..
  | _ => cases h

end Sys2Proof.Machine
end

section
/-! Every event ends in a next state on every branch of its meaning. -/

namespace Sys2Proof.Machine

/-- The outcome is a next state. -/
def Answers (o : Host.Outcome State Fault Refusal) : Prop := ∃ t, o = .next t

theorem Answers.next (t : State) : Answers (.next t) := ⟨t, rfl⟩

theorem Answers.ite {a b : Host.Outcome State Fault Refusal} {p : Prop} [Decidable p] (ha : Answers a) (hb : Answers b) :
    Answers (if p then a else b) := by
  split
  · exact ha
  · exact hb

theorem execUncorrectableError_answers (kind unit addr : Nat) (s : State) : Answers (execUncorrectableError kind unit addr s) := by
  unfold execUncorrectableError
  dsimp only
  (repeat' split) <;> exact .next _

theorem execPartitionEnable_answers (p : Nat) (s : State) : Answers (execPartitionEnable p s) := by
  unfold execPartitionEnable
  dsimp only
  (repeat' split) <;> exact .next _

theorem execPartitionDisable_answers (p : Nat) (s : State) : Answers (execPartitionDisable p s) := by
  unfold execPartitionDisable
  dsimp only
  (repeat' split) <;> exact .next _

theorem execPartitionReset_answers (p : Nat) (s : State) : Answers (execPartitionReset p s) := by
  unfold execPartitionReset
  dsimp only
  (repeat' split) <;> exact .next _

theorem execPartitionResetDone_answers (p : Nat) (s : State) : Answers (execPartitionResetDone p s) := by
  unfold execPartitionResetDone
  (repeat' split) <;> exact .next _

theorem execNotify_answers (f q : Nat) (idx : W32) (s : State) : Answers (execNotify f q idx s) := by
  unfold execNotify
  dsimp only
  (repeat' split) <;> exact .next _

theorem execScStart_answers (cluster : Nat) (v : W64) (s : State) : Answers (execScStart cluster v s) := by
  unfold execScStart
  dsimp only
  (repeat' split) <;> exact .next _

theorem execFnBindWrite_answers (f : Nat) (v : W64) (s : State) : Answers (execFnBindWrite f v s) := by
  unfold execFnBindWrite
  (repeat' split) <;> exact .next _

theorem execAttestationRequest_answers (f : Nat) (v : W64) (s : State) : Answers (execAttestationRequest f v s) := by
  unfold execAttestationRequest
  dsimp only
  (repeat' split) <;> exact .next _

theorem execAttResume_answers (f : Nat) (s : State) : Answers (execAttResume f s) := by
  unfold execAttResume
  dsimp only
  (repeat' split) <;> exact .next _

theorem execOwnerEnroll_answers (slot : Nat) (s : State) : Answers (execOwnerEnroll slot s) := by
  unfold execOwnerEnroll
  (repeat' split) <;> exact .next _

theorem execOwnerRevoke_answers (slot : Nat) (s : State) : Answers (execOwnerRevoke slot s) := by
  unfold execOwnerRevoke
  (repeat' split) <;> exact .next _

theorem execMigrationDone_answers (f : Nat) (s : State) : Answers (execMigrationDone f s) := by
  unfold execMigrationDone
  (repeat' split) <;> exact .next _

theorem execTgJoin_answers (g : Nat) (v : W64) (s : State) : Answers (execTgJoin g v s) := by
  unfold execTgJoin
  dsimp only
  (repeat' split) <;> exact .next _

theorem execTgLeave_answers (g : Nat) (v : W64) (s : State) : Answers (execTgLeave g v s) := by
  unfold execTgLeave
  dsimp only
  (repeat' split) <;> exact .next _

theorem execViewInstall_answers (g view : Nat) (members : List Nat) (s : State) : Answers (execViewInstall g view members s) := by
  unfold execViewInstall
  dsimp only
  (repeat' split) <;> exact .next _

theorem execVerifyDone_answers (s : State) : Answers (execVerifyDone s) := by
  unfold execVerifyDone
  dsimp only
  (repeat' split) <;> exact .next _

theorem execLeaseExpiry_answers (n line : Nat) (s : State) : Answers (execLeaseExpiry n line s) := by
  unfold execLeaseExpiry
  (repeat' split) <;> exact .next _

theorem execCoreClockGate_answers (n : Nat) (s : State) : Answers (execCoreClockGate n s) := by
  unfold execCoreClockGate
  dsimp only
  (repeat' split) <;> exact .next _

theorem execCorrectedError_answers (kind unit : Nat) (s : State) : Answers (execCorrectedError kind unit s) := by
  unfold execCorrectedError
  dsimp only
  (repeat' split) <;> exact .next _

theorem execSliceScrubDone_answers (sl : Nat) (s : State) : Answers (execSliceScrubDone sl s) := by
  unfold execSliceScrubDone
  dsimp only
  (repeat' split) <;> exact .next _

theorem execMetadataInitDone_answers (sl : Nat) (s : State) : Answers (execMetadataInitDone sl s) := by
  unfold execMetadataInitDone
  dsimp only
  (repeat' split) <;> exact .next _

theorem execPartitionKeyingDone_answers (p : Nat) (s : State) : Answers (execPartitionKeyingDone p s) := by
  unfold execPartitionKeyingDone
  (repeat' split) <;> exact .next _

theorem execPartitionReleaseDone_answers (p : Nat) (s : State) : Answers (execPartitionReleaseDone p s) := by
  unfold execPartitionReleaseDone
  (repeat' split) <;> exact .next _

theorem execFairnessTimer_answers (n slot : Nat) (s : State) : Answers (execFairnessTimer n slot s) := by
  unfold execFairnessTimer
  dsimp only
  (repeat' split) <;> exact .next _

theorem execOverdueSplit_answers (n slot i : Nat) (s : State) : Answers (execOverdueSplit n slot i s) := by
  unfold execOverdueSplit
  (repeat' split) <;> exact .next _

theorem execHeelArrival_answers (n slot i : Nat) (s : State) : Answers (execHeelArrival n slot i s) := by
  unfold execHeelArrival
  dsimp only
  (repeat' split) <;> exact .next _

theorem execSplitMeet_answers (n slot i j : Nat) (s : State) : Answers (execSplitMeet n slot i j s) := by
  unfold execSplitMeet
  dsimp only
  (repeat' split) <;> exact .next _

theorem execForcedReconvergence_answers (n slot i : Nat) (s : State) : Answers (execForcedReconvergence n slot i s) := by
  unfold execForcedReconvergence
  dsimp only
  (repeat' split) <;> exact .next _

theorem execLandingBufferWrite_answers (n : Nat) (s : State) : Answers (execLandingBufferWrite n s) := by
  unfold execLandingBufferWrite
  (repeat' split) <;> exact .next _

theorem execDivisionComplete_answers (n : Nat) (s : State) : Answers (execDivisionComplete n s) := by
  unfold execDivisionComplete
  (repeat' split) <;> exact .next _

theorem execSpecialFunctionComplete_answers (n : Nat) (s : State) : Answers (execSpecialFunctionComplete n s) := by
  unfold execSpecialFunctionComplete
  (repeat' split) <;> exact .next _

theorem execTileLineArrival_answers (a k : Nat) (s : State) : Answers (execTileLineArrival a k s) := by
  unfold execTileLineArrival
  dsimp only
  (repeat' split) <;> exact .next _

theorem execMatrixExecute_answers (a : Nat) (s : State) : Answers (execMatrixExecute a s) := by
  unfold execMatrixExecute
  dsimp only
  (repeat' split) <;> exact .next _

theorem execMatrixComplete_answers (a : Nat) (s : State) : Answers (execMatrixComplete a s) := by
  unfold execMatrixComplete
  dsimp only
  (repeat' split) <;> exact .next _

theorem execWatchdog_answers (n slot i : Nat) (s : State) : Answers (execWatchdog n slot i s) := by
  unfold execWatchdog
  (repeat' split) <;> exact .next _

theorem execStopComplete_answers (n slot : Nat) (s : State) : Answers (execStopComplete n slot s) := by
  unfold execStopComplete
  (repeat' split) <;> exact .next _

theorem execWaitaTimeout_answers (n slot i : Nat) (s : State) : Answers (execWaitaTimeout n slot i s) := by
  unfold execWaitaTimeout
  (repeat' split) <;> exact .next _

theorem execInstructionFetchFault_answers (n slot i : Nat) (s : State) : Answers (execInstructionFetchFault n slot i s) := by
  unfold execInstructionFetchFault
  (repeat' split) <;> exact .next _

theorem execTransferAccept_answers (die : Nat) (s : State) : Answers (execTransferAccept die s) := by
  unfold execTransferAccept
  dsimp only
  (repeat' split) <;> exact .next _

theorem execTransferChunkStart_answers (die : Nat) (s : State) : Answers (execTransferChunkStart die s) := by
  unfold execTransferChunkStart
  dsimp only
  (repeat' split) <;> exact .next _

theorem execTransferChunkDone_answers (die k : Nat) (s : State) : Answers (execTransferChunkDone die k s) := by
  unfold execTransferChunkDone
  dsimp only
  (repeat' split) <;> exact .next _

theorem execCreditReturn_answers (i : Nat) (s : State) : Answers (execCreditReturn i s) := by
  unfold execCreditReturn
  dsimp only
  (repeat' split) <;> exact .next _

theorem execRemoteArrivalReply_answers (i : Nat) (s : State) : Answers (execRemoteArrivalReply i s) := by
  unfold execRemoteArrivalReply
  dsimp only
  (repeat' split) <;> exact .next _

theorem execHubHeldDelivery_answers (i : Nat) (s : State) : Answers (execHubHeldDelivery i s) := by
  unfold execHubHeldDelivery
  (repeat' split) <;> exact .next _

theorem execReggrowGrant_answers (n : Nat) (s : State) : Answers (execReggrowGrant n s) := by
  unfold execReggrowGrant
  dsimp only
  (repeat' split) <;> exact .next _

theorem execRegisterDeadlock_answers (n : Nat) (s : State) : Answers (execRegisterDeadlock n s) := by
  unfold execRegisterDeadlock
  dsimp only
  (repeat' split) <;> exact .next _

theorem execWorkgroupDispatch_answers (p : Nat) (s : State) : Answers (execWorkgroupDispatch p s) := by
  unfold execWorkgroupDispatch
  dsimp only
  (repeat' split) <;> exact .next _

theorem execLaunchComplete_answers (id : Nat) (s : State) : Answers (execLaunchComplete id s) := by
  unfold execLaunchComplete
  dsimp only
  (repeat' split) <;> exact .next _

theorem execEngineRound_answers (e : Nat) (s : State) : Answers (execEngineRound e s) := by
  unfold execEngineRound
  (repeat' split) <;> exact .next _

theorem execWaitTimeout_answers (f q : Nat) (s : State) : Answers (execWaitTimeout f q s) := by
  unfold execWaitTimeout
  dsimp only
  (repeat' split) <;> exact .next _

theorem execSliceExpiry_answers (p : Nat) (s : State) : Answers (execSliceExpiry p s) := by
  unfold execSliceExpiry
  dsimp only
  (repeat' split) <;> exact .next _

theorem execLaneRotation_answers (lane : Nat) (s : State) : Answers (execLaneRotation lane s) := by
  unfold execLaneRotation
  dsimp only
  (repeat' split) <;> exact .next _

theorem execEngineFaultResume_answers (k : Nat) (s : State) : Answers (execEngineFaultResume k s) := by
  unfold execEngineFaultResume
  dsimp only
  (repeat' split) <;> exact .next _

theorem execHaltWake_answers (n : Nat) (s : State) : Answers (execHaltWake n s) := by
  unfold execHaltWake
  dsimp only
  (repeat' split) <;> exact .next _

theorem execMbxrecvWake_answers (n : Nat) (s : State) : Answers (execMbxrecvWake n s) := by
  unfold execMbxrecvWake
  dsimp only
  (repeat' split) <;> exact .next _

theorem execHostApertureRead_answers (f off n : Nat) (s : State) : Answers (execHostApertureRead f off n s) := by
  unfold execHostApertureRead
  dsimp only
  (repeat' split) <;> exact .next _

theorem execHostApertureWrite_answers (f off : Nat) (bs : List Byte) (s : State) : Answers (execHostApertureWrite f off bs s) := by
  unfold execHostApertureWrite
  (repeat' split) <;> exact .next _

theorem execHostApertureAtomic_answers (f off : Nat) (ty : Ty) (op : AOp) (opd cmp : W64) (s : State) :
    Answers (execHostApertureAtomic f off ty op opd cmp s) := by
  unfold execHostApertureAtomic
  dsimp only
  (repeat' split) <;> exact .next _

theorem execHostCompletion_answers (ok : Bool) (s : State) : Answers (execHostCompletion ok s) := by
  unfold execHostCompletion
  dsimp only
  (repeat' split) <;> exact .next _

theorem execVfFlr_answers (f : Nat) (s : State) : Answers (execVfFlr f s) := by
  unfold execVfFlr
  dsimp only
  (repeat' split) <;> exact .next _

theorem execAttestationDone_answers (f : Nat) (s : State) : Answers (execAttestationDone f s) := by
  unfold execAttestationDone
  dsimp only
  (repeat' split) <;> exact .next _

theorem execActivationGo_answers (s : State) : Answers (execActivationGo s) := by
  unfold execActivationGo
  (repeat' split) <;> exact .next _

theorem execActivationDone_answers (s : State) : Answers (execActivationDone s) := by
  unfold execActivationDone
  dsimp only
  (repeat' split) <;> exact .next _

theorem execMigrationQuiesced_answers (f : Nat) (s : State) : Answers (execMigrationQuiesced f s) := by
  unfold execMigrationQuiesced
  dsimp only
  (repeat' split) <;> exact .next _

theorem execBrevorData_answers (g src chan view seq coll off : Nat) (bs : List Byte) (ok : Bool) (s : State) :
    Answers (execBrevorData g src chan view seq coll off bs ok s) := by
  unfold execBrevorData
  (repeat' split) <;> exact .next _

theorem execBrevorAck_answers (g src chan seq : Nat) (s : State) : Answers (execBrevorAck g src chan seq s) := by
  unfold execBrevorAck
  (repeat' split) <;> exact .next _

theorem execBrevorNak_answers (g src chan seq : Nat) (s : State) : Answers (execBrevorNak g src chan seq s) := by
  unfold execBrevorNak
  dsimp only
  (repeat' split) <;> exact .next _

theorem execBrevorControl_answers (g src chan view seq kind arg : Nat) (ok : Bool) (s : State) :
    Answers (execBrevorControl g src chan view seq kind arg ok s) := by
  unfold execBrevorControl
  refine .ite (.next _) ?_
  split
  · exact .next _
  · refine .ite (.next _) (.ite (.next _) ?_)
    split
    · exact .next _
    · refine .ite (.next _) ?_
      split
      · exact .next _
      · refine .ite (.next _) (.ite (.next _) (.ite (.next _) (.ite (.next _) (.ite (.next _) (.ite (.next _) (.ite (.next _)
          (.ite ?_ (.next _))))))))
        split <;> exact .next _

theorem execRetransmitTimeout_answers (g dst chan : Nat) (s : State) : Answers (execRetransmitTimeout g dst chan s) := by
  unfold execRetransmitTimeout
  (repeat' split) <;> exact .next _

theorem execCollectiveRingPoll_answers (f : Nat) (s : State) : Answers (execCollectiveRingPoll f s) := by
  unfold execCollectiveRingPoll
  dsimp only
  (repeat' split) <;> exact .next _

theorem execCollectiveComplete_answers (k : Nat) (s : State) : Answers (execCollectiveComplete k s) := by
  unfold execCollectiveComplete
  dsimp only
  (repeat' split) <;> exact .next _

theorem execNvmeCompletion_answers (k : Nat) (ok : Bool) (s : State) : Answers (execNvmeCompletion k ok s) := by
  unfold execNvmeCompletion
  dsimp only
  (repeat' split) <;> exact .next _

theorem execPowerGood_answers (s : State) : Answers (execPowerGood s) := by
  unfold execPowerGood
  (repeat' split) <;> exact .next _

theorem execHubBringupDone_answers (s : State) : Answers (execHubBringupDone s) := by
  unfold execHubBringupDone
  dsimp only
  (repeat' split) <;> exact .next _

theorem execClusterBistDone_answers (n : Nat) (fails : List W64) (s : State) : Answers (execClusterBistDone n fails s) := by
  unfold execClusterBistDone
  dsimp only
  (repeat' split) <;> exact .next _

theorem execFullRateChange_answers (s : State) : Answers (execFullRateChange s) := by
  unfold execFullRateChange
  (repeat' split) <;> exact .next _

theorem execRecoveryImageLoad_answers (image : List Byte) (s : State) : Answers (execRecoveryImageLoad image s) := by
  unfold execRecoveryImageLoad
  (repeat' split) <;> exact .next _

theorem execPowerControlTick_answers (sample avg : Nat) (temps : List (Nat × Nat)) (s : State) :
    Answers (execPowerControlTick sample avg temps s) := by
  unfold execPowerControlTick
  dsimp only
  (repeat' split) <;> exact .next _

theorem execRegisterWrite_answers (who addr n : Nat) (v : W64) (s : State) : Answers (execRegisterWrite who addr n v s) := by
  unfold execRegisterWrite
  (repeat' split) <;> exact .next _

theorem execCnotify_answers (f : Nat) (s : State) : Answers (execCnotify f s) := by
  unfold execCnotify
  split
  · exact execCollectiveRingPoll_answers f s
  · exact .next _

/-- A frame of Brevor transport is taken as one of its events, or dropped. -/
theorem brevorIn_answers (s : State) (part : Nat) (bs : List Byte) : Answers (s.brevorIn part bs) := by
  unfold State.brevorIn
  dsimp only
  split
  · exact .next _
  · split
    · exact .ite (execBrevorData_answers ..) (.next _)
    · exact .ite (execBrevorAck_answers ..) (.next _)
    · exact .ite (execBrevorNak_answers ..) (.next _)
    · exact .ite (execBrevorControl_answers ..) (.ite (execBrevorControl_answers ..) (.next _))
    · exact .next _

theorem execEthernetFrameReceive_answers (port kind sock : Nat) (bs : List Byte) (s : State) :
    Answers (execEthernetFrameReceive port kind sock bs s) := by
  unfold execEthernetFrameReceive
  dsimp only
  split
  · exact .next _
  · split
    · split <;> exact .next _
    · split
      · split
        · split
          · exact brevorIn_answers ..
          · exact .next _
        · exact .next _
      · split <;> exact .next _

theorem onMsg_answers (s : State) (src dst : Nat) (f : Body → State → Option State) : Answers (s.onMsg src dst f) := by
  unfold State.onMsg
  split <;> exact .next _

/-- Every event has a next state, whatever the state. -/
theorem event_answers {i : Instr} (h : ctlOf i = none) (s : State) : Answers (exec i s) := by
  cases i with
  | coreQuarantine | frameRebind | migrationGo | migrationForce | timeBaseBroadcast | broadcastTimeout | l1LineError | frameRebindDone |
  walkReadAnswer | messageAppend | remoteArrival | packEnd | pfFlr | thermalTrip | powerLoss =>
    exact .next _
  | uncorrectableError kind unit addr => exact execUncorrectableError_answers kind unit addr s
  | partitionEnable p => exact execPartitionEnable_answers p s
  | partitionDisable p => exact execPartitionDisable_answers p s
  | partitionReset p => exact execPartitionReset_answers p s
  | partitionResetDone p => exact execPartitionResetDone_answers p s
  | notify f q idx => exact execNotify_answers f q idx s
  | cnotify f => exact execCnotify_answers f s
  | scStart cluster v => exact execScStart_answers cluster v s
  | fnBindWrite f v => exact execFnBindWrite_answers f v s
  | attestationRequest f v => exact execAttestationRequest_answers f v s
  | attResume f => exact execAttResume_answers f s
  | ownerEnroll slot => exact execOwnerEnroll_answers slot s
  | ownerRevoke slot => exact execOwnerRevoke_answers slot s
  | migrationDone f => exact execMigrationDone_answers f s
  | tgJoin g v => exact execTgJoin_answers g v s
  | tgLeave g v => exact execTgLeave_answers g v s
  | viewInstall g view members => exact execViewInstall_answers g view members s
  | verifyDone => exact execVerifyDone_answers s
  | leaseExpiry n line => exact execLeaseExpiry_answers n line s
  | coreClockGate n => exact execCoreClockGate_answers n s
  | correctedError kind unit => exact execCorrectedError_answers kind unit s
  | sliceScrubDone sl => exact execSliceScrubDone_answers sl s
  | metadataInitDone sl => exact execMetadataInitDone_answers sl s
  | partitionKeyingDone p => exact execPartitionKeyingDone_answers p s
  | partitionReleaseDone p => exact execPartitionReleaseDone_answers p s
  | fairnessTimer n slot => exact execFairnessTimer_answers n slot s
  | overdueSplit n slot i => exact execOverdueSplit_answers n slot i s
  | heelArrival n slot i => exact execHeelArrival_answers n slot i s
  | splitMeet n slot i j => exact execSplitMeet_answers n slot i j s
  | forcedReconvergence n slot i => exact execForcedReconvergence_answers n slot i s
  | landingBufferWrite n => exact execLandingBufferWrite_answers n s
  | divisionComplete n => exact execDivisionComplete_answers n s
  | specialFunctionComplete n => exact execSpecialFunctionComplete_answers n s
  | tileLineArrival a k => exact execTileLineArrival_answers a k s
  | matrixExecute a => exact execMatrixExecute_answers a s
  | matrixComplete a => exact execMatrixComplete_answers a s
  | watchdog n slot i => exact execWatchdog_answers n slot i s
  | stopComplete n slot => exact execStopComplete_answers n slot s
  | waitaTimeout n slot i => exact execWaitaTimeout_answers n slot i s
  | instructionFetchFault n slot i => exact execInstructionFetchFault_answers n slot i s
  | transferAccept die => exact execTransferAccept_answers die s
  | transferChunkStart die => exact execTransferChunkStart_answers die s
  | transferChunkDone die k => exact execTransferChunkDone_answers die k s
  | creditReturn i => exact execCreditReturn_answers i s
  | remoteArrivalReply i => exact execRemoteArrivalReply_answers i s
  | hubHeldDelivery i => exact execHubHeldDelivery_answers i s
  | reggrowGrant n => exact execReggrowGrant_answers n s
  | registerDeadlock n => exact execRegisterDeadlock_answers n s
  | workgroupDispatch p => exact execWorkgroupDispatch_answers p s
  | launchComplete id => exact execLaunchComplete_answers id s
  | engineRound e => exact execEngineRound_answers e s
  | waitTimeout f q => exact execWaitTimeout_answers f q s
  | sliceExpiry p => exact execSliceExpiry_answers p s
  | laneRotation lane => exact execLaneRotation_answers lane s
  | engineFaultResume k => exact execEngineFaultResume_answers k s
  | haltWake n => exact execHaltWake_answers n s
  | mbxrecvWake n => exact execMbxrecvWake_answers n s
  | hostApertureRead f off n => exact execHostApertureRead_answers f off n s
  | hostApertureWrite f off bs => exact execHostApertureWrite_answers f off bs s
  | hostApertureAtomic f off ty op opd cmp => exact execHostApertureAtomic_answers f off ty op opd cmp s
  | hostCompletion ok => exact execHostCompletion_answers ok s
  | vfFlr f => exact execVfFlr_answers f s
  | attestationDone f => exact execAttestationDone_answers f s
  | activationGo => exact execActivationGo_answers s
  | activationDone => exact execActivationDone_answers s
  | migrationQuiesced f => exact execMigrationQuiesced_answers f s
  | brevorData g src chan view seq coll off bs ok => exact execBrevorData_answers g src chan view seq coll off bs ok s
  | brevorAck g src chan seq => exact execBrevorAck_answers g src chan seq s
  | brevorNak g src chan seq => exact execBrevorNak_answers g src chan seq s
  | brevorControl g src chan view seq kind arg ok => exact execBrevorControl_answers g src chan view seq kind arg ok s
  | retransmitTimeout g dst chan => exact execRetransmitTimeout_answers g dst chan s
  | collectiveRingPoll f => exact execCollectiveRingPoll_answers f s
  | collectiveComplete k => exact execCollectiveComplete_answers k s
  | ethernetFrameReceive port kind sock bs => exact execEthernetFrameReceive_answers port kind sock bs s
  | nvmeCompletion k ok => exact execNvmeCompletion_answers k ok s
  | powerGood => exact execPowerGood_answers s
  | hubBringupDone => exact execHubBringupDone_answers s
  | clusterBistDone n fails => exact execClusterBistDone_answers n fails s
  | fullRateChange => exact execFullRateChange_answers s
  | recoveryImageLoad image => exact execRecoveryImageLoad_answers image s
  | powerControlTick sample avg temps => exact execPowerControlTick_answers sample avg temps s
  | registerWrite who addr n v => exact execRegisterWrite_answers who addr n v s
  | rdc => exact (onMsg_answers .. : Answers (execRdc ..))
  | rdn => exact (onMsg_answers .. : Answers (execRdn ..))
  | regw => exact (onMsg_answers .. : Answers (execRegw ..))
  | ewr => exact (onMsg_answers .. : Answers (execEwr ..))
  | atm => exact (onMsg_answers .. : Answers (execAtm ..))
  | wbd => exact (onMsg_answers .. : Answers (execWbd ..))
  | loss => exact (onMsg_answers .. : Answers (execLoss ..))
  | zapw => exact (onMsg_answers .. : Answers (execZapw ..))
  | notheld => exact (onMsg_answers .. : Answers (execNotheld ..))
  | race => exact (onMsg_answers .. : Answers (execRace ..))
  | callbackDone => exact (onMsg_answers .. : Answers (execCallbackDone ..))
  | staleAck => exact (onMsg_answers .. : Answers (execStaleAck ..))
  | fwd => exact (onMsg_answers .. : Answers (execFwd ..))
  | recallWord => exact (onMsg_answers .. : Answers (execRecallWord ..))
  | callback => exact (onMsg_answers .. : Answers (execCallback ..))
  | drop => exact (onMsg_answers .. : Answers (execDrop ..))
  | grant => exact (onMsg_answers .. : Answers (execGrant ..))
  | data => exact (onMsg_answers .. : Answers (execData ..))
  | faultAnswer => exact (onMsg_answers .. : Answers (execFaultAnswer ..))
  | stale => exact (onMsg_answers .. : Answers (execStale ..))
  | _ => cases h

end Sys2Proof.Machine
end

section
/-! The split of a fetched word still stands when the word executes, so every turn of a step answers: O7 and O8. -/

namespace Sys2Proof.Machine

/-! ### The split that a fetched word executes in still stands -/

/-- The view is of the same split, and of the same pack. -/
structure View.SameSite (v w : View) : Prop where
  ag : w.ag = v.ag
  slot : w.slot = v.slot
  ix : w.ix = v.ix
  pk : w.pk = v.pk

theorem View.SameSite.rfl {v : View} : v.SameSite v := ⟨.refl _, .refl _, .refl _, .refl _⟩

theorem View.sameSite_seek (v : View) (va : Nat) (write : Bool) : v.SameSite (v.seek va write).2 := by
  unfold View.seek
  split
  · exact .rfl
  · dsimp only
    split
    · split <;> exact ⟨.refl _, .refl _, .refl _, .refl _⟩
    · exact ⟨.refl _, .refl _, .refl _, .refl _⟩

theorem View.sameSite_page (v : View) (va : Nat) (write : Bool) : v.SameSite (v.page va write).2 := by
  unfold View.page
  split
  · exact .rfl
  · split
    · exact .rfl
    · exact v.sameSite_seek va write

theorem View.sameSite_fetch {v w : View} {bs : List Byte} (h : v.fetch = .bytes w bs) : v.SameSite w := by
  have hp := v.sameSite_page v.sp.pc.toNat false
  unfold View.fetch at h
  dsimp only at h
  split at h
  · cases h
  · cases h
  · rename_i leaf level w' hw
    rw [hw] at hp
    split at h
    · cases h
    · split at h
      · cases h
      · split at h
        · cases h
          exact hp
        · split at h
          · cases h
          · cases h
          · cases h
            exact ⟨hp.ag, hp.slot, hp.ix, hp.pk⟩

/-- A word that is executed was fetched, and the state is that after its fetch. -/
theorem View.lookIssue_run {v : View} {i : Instr} {op : Nat} {t : State} (h : v.lookIssue = .run i op t) :
    ∃ w, v.SameSite w ∧ t = w.close := by
  unfold View.lookIssue at h
  split at h
  · cases h
  · cases h
  · rename_i w bs hf
    dsimp only at h
    split at h
    · cases h
    · split at h
      · cases h
      · split at h
        · cases h
        · split at h
          · cases h
            exact ⟨w, v.sameSite_fetch hf, rfl⟩
          · split at h
            · cases h
            · split at h <;> cases h

theorem State.viewAt_eq_some {s : State} {p : Site} {v : View} (h : s.viewAt p = some v) :
    (⟨v.ag, v.slot, v.ix⟩ : Site) = p ∧ v.pk.split v.ix ≠ none := by
  unfold State.viewAt at h
  split at h
  · cases h
  · split at h
    · cases h
    · rename_i x hx
      cases h
      exact ⟨rfl, by simp [hx]⟩

theorem Pack.lt_of_split {p : Pack} {i : Nat} (h : p.split i ≠ none) : i < p.splits.length := by
  by_contra hl
  exact h (List.getD_eq_default _ _ (by omega))

theorem State.view_ne_none {s t : State} (hc : t.cores = s.cores) (h : s.viewAt t.cur ≠ none) : t.view ≠ none := by
  have hn : s.core t.cur.agent = t.core t.cur.agent := by rw [State.core, State.core, hc]
  revert h
  unfold State.view State.viewAt
  rw [hn]
  split
  · exact id
  · split <;> simp

/-- The split that a view is put back with stands in the state. -/
theorem View.viewAt_close {v : View} (h : v.pk.split v.ix ≠ none) : v.close.viewAt ⟨v.ag, v.slot, v.ix⟩ ≠ none := by
  have hs : (v.pk.setSplit v.ix (some v.sp)).split v.ix = some v.sp := by
    simp [Pack.split, Pack.setSplit, Pack.lt_of_split h]
  simp [State.viewAt, View.close, hs]

theorem State.selectable_eq_some {s : State} {p : Site} {v : View} (h : s.selectable p = some v) : s.viewAt p = some v := by
  unfold State.selectable at h
  split at h
  · cases h
  · split at h
    · cases h
      assumption
    · cases h

/-- The word that a selected split runs finds its split. -/
theorem view_of_lookIssue {s t : State} {p : Site} {v : View} {i : Instr} {op : Nat} (hs : s.selectable p = some v)
    (h : v.lookIssue = .run i op t) : ({ t with cur := p, op := op } : State).view ≠ none := by
  obtain ⟨w, hw, rfl⟩ := v.lookIssue_run h
  obtain ⟨rfl, hx⟩ := State.viewAt_eq_some (State.selectable_eq_some hs)
  have := w.viewAt_close (by rwa [hw.pk, hw.ix])
  rw [hw.ag, hw.slot, hw.ix] at this
  exact State.view_ne_none (s := w.close) rfl this

/-! ### Every step answers (R112, R337, R348) -/

theorem exec_answers {i : Instr} {s : State} (h : s.view ≠ none) : Answers (exec i s) := by
  cases hc : ctlOf i with
  | none => exact event_answers hc s
  | some c =>
    have hi := exec_issues hc s
    generalize exec i s = o at hi ⊢
    obtain ⟨ps, waits, chk, wide, body⟩ := hi
    exact issueG_answers h

theorem exec_of_noContext {i : Instr} {c : Ctl} {s : State} (hc : ctlOf i = some c) (h : s.view = none) : exec i s = .fault .noContext := by
  have hi := exec_issues hc s
  generalize exec i s = o at hi ⊢
  obtain ⟨ps, waits, chk, wide, body⟩ := hi
  exact issueG_of_noContext h

/-- Settles O7: an instruction is the issue of a word (`exec_issues`), an event ends in a next state on every branch (`event_answers`). -/
theorem execAnswers : Obligations.ExecAnswers :=
  ⟨fun _ _ h => exec_answers h, fun _ s hc => event_answers hc s, fun _ _ _ hc h => exec_of_noContext hc h⟩

theorem issueSite_answers (s : State) (p : Site) : Answers (s.issueSite p) := by
  unfold State.issueSite
  split
  · exact .next _
  · rename_i v hs
    split
    · rename_i hl
      exact exec_answers (view_of_lookIssue hs hl)
    · exact .next _
    · exact .next _

theorem firstIssue_answers (s : State) (ps : List Site) (o : Host.Outcome State Fault Refusal) (h : firstIssue s ps = some o) :
    Answers o := by
  induction ps with
  | nil => cases h
  | cons p ps ih =>
    obtain ⟨t, ht⟩ := issueSite_answers s p
    simp only [firstIssue, ht] at h
    split at h
    · exact ih h
    · cases h
      exact .next t

theorem scheduled_answers (s : State) : Answers s.scheduled := by
  unfold State.scheduled
  dsimp only
  refine .ite (.next _) ?_
  cases h : firstIssue s (s.cores.flatMap fun e => s.coreIssues e.1) with
  | none => exact .next _
  | some o => exact firstIssue_answers s _ o h

/-- Settles O8: each turn of the agenda answers (`issueSite_answers`, `event_answers`), and so does the machine's own schedule. -/
theorem stepAnswers : Obligations.StepAnswers := by
  intro s
  change Answers (step s)
  unfold step
  split
  · exact scheduled_answers s
  · exact issueSite_answers _ _
  · rename_i i rest _
    cases hc : ctlOf i with
    | none => exact event_answers hc _
    | some c => exact .next _
  all_goals exact .next _

end Sys2Proof.Machine
end

section
/-! A fetched word that is executed, the completions of the units, the dovetail word and WAITA: O5, O16, O26 and O36. -/

namespace Sys2Proof.Machine

/-! ### A fetched word that passes every check is executed (R112) -/

/-- R112: a word whose checks pass and whose bytes decode is executed in the state after its fetch. -/
theorem View.lookIssue_of_decoded {v w : View} {bs tail : List Byte} {l : Len} {i : Instr} (hf : v.fetch = .bytes w bs)
    (hpc : w.sp.pc.toNat % 4 = 0) (hlen : lenOf (BitVec.ofNat 2 (ofBytes (bs.take 8))) = some l)
    (hblock : w.sp.pc.toNat % 32 + l.bytes ≤ 32) (hdec : decode w.svc bs = .ok (i, tail)) :
    v.lookIssue = .run i (ofBytes (bs.take 8) / 4 % 256) w.close := by
  simp only [View.lookIssue, hf, hpc, ne_eq, not_true, if_false, hlen, if_neg (Nat.not_lt.2 hblock), hdec]

/-- R112: the issue of a split whose word is executed is the word's meaning, `cur` naming the split. -/
theorem State.issueSite_of_run {s t : State} {p : Site} {v : View} {i : Instr} {op : Nat} (hsel : s.selectable p = some v)
    (hrun : v.lookIssue = .run i op t) : s.issueSite p = exec i { t with cur := p, op := op } := by
  simp only [State.issueSite, hsel, hrun]

/-- Settles O5: the turn is the issue at its site (`step_of_issue`), and the word there is executed. -/
theorem stepRunsIssue : Obligations.StepRunsIssue := by
  intro s p rest v w bs tail l i hag hsel hf hpc hlen hblock hdec
  rw [step_of_issue hag]
  exact State.issueSite_of_run hsel (View.lookIssue_of_decoded hf hpc hlen hblock hdec)

/-! ### The units and the landing buffer (R189, R224, R244) -/

/-- Settles O16: each event takes the head of its queue; what it does with it is the statement's own text. -/
theorem unitCompletions : Obligations.UnitCompletions := by
  intro n s
  refine ⟨fun op rest h => ?_, fun h => ?_, fun op rest h => ?_, fun h => ?_, fun x rest h => ?_, fun h => ?_⟩
  · change execDivisionComplete n s = _
    simp only [execDivisionComplete, h, State.updCore]
  · change execDivisionComplete n s = _
    simp only [execDivisionComplete, h]
  · change execSpecialFunctionComplete n s = _
    simp only [execSpecialFunctionComplete, h, State.updCore]
  · change execSpecialFunctionComplete n s = _
    simp only [execSpecialFunctionComplete, h]
  · change execLandingBufferWrite n s = _
    simp only [execLandingBufferWrite, h, State.updCore]
  · change execLandingBufferWrite n s = _
    simp only [execLandingBufferWrite, h]

/-! ### The dovetail word (R122) -/

/-- Settles O26: the word's own part is that of `execDovetail`, and it goes on at the successor. -/
theorem dovetailWord : Obligations.DovetailWord := by
  intro c x y s v m h rx ry
  exact (issueG_of_issues _ h : execDovetail c x y s = _)

/-! ### WAITA (R153) -/

section
variable {c : Ctl} {ty : Ty} {k : WCond} {d base b : SReg} {off : BitVec 24} {tmo : Option SReg} {s : State} {v : View} {m : Mask}
  {w : WgWin}

/-- A rising token changes no uniform register. -/
theorem View.tokenV_rs (v : View) (c : Ctl) (r : SReg) : (v.tokenV c).1.rs r = v.rs r := by
  unfold View.tokenV
  split <;> rfl

/-- R153: WAITA of a word in bounds compares it, lands 0 where the comparison holds, and parks where it does not. -/
theorem execWaita_of_issues
    (h : IssuesW c ([.ds d, .s 1 base, .s 2 b] ++ (match tmo with | some r => [.s 3 r] | none => [])) false s v m)
    (hb : v.spFault kRead (tyBytes ty) true true (v.so1 base off) = none) (hw : v.co.winOf v.slot = some w) :
    execWaita c ty k d base off b tmo s = .next (v.answer c
      (if waitaHolds ty k (v.co.spNum (w.base + (v.rs base + off.signExtend 64).toNat % 2 ^ 32) (tyBytes ty)) (v.rs b).toNat = true
        then v.landS c d 0
        else .state ((v.tokenV c).1.park c (.waita ((v.rs base + off.signExtend 64).toNat % 2 ^ 32) ty k (v.rs b) d (v.deadline tmo)
          (v.tokenV c).2))) s) := by
  refine (issue_of_issues _ h).trans ?_
  simp only [hb, hw, View.tokenV_rs]
  rfl

end

/-- Settles O36: a WAITA by what it compares; the time-out finds the parked split past its deadline. -/
theorem waitOnAddress : Obligations.WaitOnAddress := by
  refine ⟨?_, fun n slot i dl s x off ty k r d tok hx hst hdl => ?_⟩
  · intro c ty k d base b off tmo s v m w h hb hw so x
    have hrun : execWaita c ty k d base off b tmo s = _ := execWaita_of_issues h hb hw
    refine ⟨fun hx => hrun.trans ?_, fun hx => hrun.trans ?_⟩
    · rw [if_pos hx]
      rfl
    · rw [if_neg (by rw [hx]; exact Bool.false_ne_true)]
      rfl
  · change execWaitaTimeout n slot i s = _
    simp only [execWaitaTimeout, hx, hst, hdl, if_true]

end Sys2Proof.Machine
end

section
/-! LEX0-LEX2 read back as they were written, and what a fault leaves of its core: O46. -/

namespace Sys2Proof.Machine

/-! ### LEX0-LEX2 as one mask (R44) -/

/-- The word of a beat replaced, bit by bit. -/
theorem getLsbD_setBeat (m : Mask) (b : Nat) (y : W32) (L : Nat) :
    (setBeat m b y).getLsbD L = (decide (L < 96) && if 32 * b ≤ L ∧ L < 32 * b + 32 then y.getLsbD (L - 32 * b) else m.getLsbD L) := by
  have hy : y.toNat % 2 ^ 32 = y.toNat := Nat.mod_eq_of_lt y.isLt
  have hbit : y.toNat.testBit (L - 32 * b) = y.getLsbD (L - 32 * b) := rfl
  simp only [setBeat, putFld, hy, BitVec.getLsbD_or, BitVec.getLsbD_and, BitVec.getLsbD_not, BitVec.getLsbD_shiftLeft, BitVec.getLsbD_ofNat,
    Nat.testBit_two_pow_sub_one, hbit]
  by_cases hL : L < 96
  · have hsub : L - 32 * b < 96 := by omega
    by_cases hlo : 32 * b ≤ L
    · by_cases hhi : L < 32 * b + 32
      · simp [hL, hlo, hhi, hsub, Nat.not_lt.2 hlo, show L - 32 * b < 32 by omega]
      · have htop : y.getLsbD (L - 32 * b) = false := BitVec.getLsbD_of_ge _ _ (by omega)
        simp [hL, hlo, hhi, htop, show ¬ L - 32 * b < 32 by omega]
    · simp [hL, hlo, Nat.lt_of_not_le hlo]
  · simp [hL, BitVec.getLsbD_of_ge m L (Nat.le_of_not_lt hL)]

/-- The words of a mask's three beats are the mask. -/
theorem setBeat_beatWord (x m : Mask) :
    setBeat (setBeat (setBeat x 0 (beatWord m 0)) 1 (beatWord m 1)) 2 (beatWord m 2) = m := by
  refine BitVec.eq_of_getLsbD_eq fun L hL => ?_
  simp only [getLsbD_setBeat, beatWord, BitVec.getLsbD_extractLsb', hL, decide_true, Bool.true_and]
  rcases (by omega : L < 32 ∨ 32 ≤ L ∧ L < 64 ∨ 64 ≤ L) with h | ⟨h, h'⟩ | h
  · simp [h, show ¬ 64 ≤ L by omega, show ¬ 32 ≤ L by omega]
  · simp [h, h', show ¬ 64 ≤ L by omega, show L - 32 < 32 by omega, show 32 + (L - 32) = L by omega]
  · simp [h, hL, show L - 64 < 32 by omega, show 64 + (L - 64) = L by omega]

/-- The lanes written to LEX0-LEX2 are the lanes read there. -/
theorem Pack.lex_setLex (p : Pack) (m : Mask) : (p.setLex m).lex = m := by
  have h0 : (p.setLex m).special sprLex = (beatWord m 0).setWidth 64 := by
    rw [Pack.setLex, Pack.special_setSpecial_ne _ _ _ _ (by decide), Pack.special_setSpecial_ne _ _ _ _ (by decide),
      Pack.special_setSpecial]
  have h1 : (p.setLex m).special (sprLex + 1) = (beatWord m 1).setWidth 64 := by
    rw [Pack.setLex, Pack.special_setSpecial_ne _ _ _ _ (by decide), Pack.special_setSpecial]
  have h2 : (p.setLex m).special (sprLex + 2) = (beatWord m 2).setWidth 64 := by
    rw [Pack.setLex, Pack.special_setSpecial]
  have narrow (w : W32) : (w.setWidth 64).setWidth 32 = w := by simp
  rw [Pack.lex, h0, h1, h2, narrow, narrow, narrow, setBeat_beatWord]

theorem Pack.lex_orLex (p : Pack) (m : Mask) : (p.orLex m).lex = p.lex ||| m := by
  unfold Pack.orLex
  split
  · rename_i h
    simp [h]
  · rw [Pack.lex_setLex]

/-- LEX0-LEX2 apart, ORing lanes into them changes nothing of a pack. -/
theorem Pack.orLex_eq (p : Pack) (m : Mask) : p.orLex m = { p with spr := (p.orLex m).spr } := by
  unfold Pack.orLex
  split <;> rfl

/-! ### Taking an exception (R348, R349, R353, R358) -/

/-- The core of a closed view is the view's, with the pack in its slot. -/
theorem View.core_close (v : View) :
    v.close.core v.ag = { v.co with packs := ins v.co.packs v.slot (v.pk.setSplit v.ix (some v.sp)) } := State.core_setCore ..

theorem View.core_close_ne (v : View) {n : Nat} (h : n ≠ v.ag) : v.close.core n = v.s.core n := State.core_setCore_ne _ _ _ _ h.symm

theorem View.look_close (v : View) : look (v.close.core v.ag).packs v.slot = some (v.pk.setSplit v.ix (some v.sp)) := by
  rw [View.core_close]
  exact look_ins_self ..

theorem Pack.split_setSplit {p : Pack} {i : Nat} (h : i < p.splits.length) (x : Option Split) : (p.setSplit i x).split i = x := by
  simp [Pack.split, Pack.setSplit, h]

/-- R348, R349: the first fault stops the pack of a compute core. -/
theorem View.raise_of_running {v : View} (f : FaultRec) (hsvc : v.svc = false) (hstop : v.pk.stop = none) :
    v.raise f = ({ v with pk := { (v.pk.orLex f.lex) with stop := some ⟨1, some f, v.ix, false, false, false⟩ },
                          sp := { v.sp with xl := [] } } : View).close := by
  simp only [View.raise, hsvc, hstop, Bool.false_eq_true, if_false]

/-- R358: a drained service core outside its handler enters it. -/
theorem View.raise_of_drained {v : View} (f : FaultRec) (hsvc : v.svc = true) (hdr : v.co.drained = true) (hexl : v.co.exl = false) :
    v.raise f = ({ v with
      co := { v.co with epc := f.pc, ecause := BitVec.ofNat 64 (f.code % 256), efva := f.fva, efinfo := f.finfo, exl := true }
      pk := { v.pk with stop := none }
      sp := { v.sp with pc := v.co.evec, next := (v.sp.pw.map (fun (w : PWrite) => w.due)).foldl max (v.now + 1), hold := none, xl := [],
                        phase := 0 } } : View).close := by
  simp only [View.raise, View.enter, hsvc, hdr, hexl, if_true, Bool.false_eq_true, if_false]

/-- Settles O46: on either kind of core the fault closes a view whose pack stands in its slot and whose split stands in its entry. -/
theorem exceptionTaken : Obligations.ExceptionTaken := by
  intro v f hix t
  refine ⟨fun hsvc hstop => ?_, fun hsvc hdr hexl => ?_⟩
  · have hlen : v.ix < (v.pk.orLex f.lex).splits.length := by
      rw [Pack.orLex_eq]
      exact hix
    have hlex := v.pk.lex_orLex f.lex
    have horLex := v.pk.orLex_eq f.lex
    simp only [t, View.raise_of_running f hsvc hstop]
    refine ⟨_, _, View.look_close _, Pack.split_setSplit hlen _, rfl, rfl, hlex, ?_, ?_, ?_, ?_, rfl, fun n hn => View.core_close_ne _ hn⟩
    all_goals
      rw [horLex]
      rfl
  · simp only [t, View.raise_of_drained f hsvc hdr hexl]
    refine ⟨_, _, View.look_close _, Pack.split_setSplit hix _, rfl, ?_, ?_, ?_, ?_, ?_, rfl, rfl, fun n hn => View.core_close_ne _ hn⟩
    all_goals rw [View.core_close]

end Sys2Proof.Machine
end

section
/-! BRV and BRX by whether the lanes divide: O44. -/

namespace Sys2Proof.Machine

/-! ### The targets of a BRX (R309) -/

/-- One more lane's target: named once. -/
def newTarget (ts : List W64) (x : Nat × Nat × W64) : List W64 := if ts.contains x.2.2 then ts else ts ++ [x.2.2]

theorem brxGroups_eq (xs : List (Nat × Nat × W64)) :
    brxGroups xs = ((sortBy (fun x y => decide (x.2.1 ≤ y.2.1)) xs).foldl newTarget []).map (fun t =>
      (t, maskList ((xs.filter (fun x => x.2.2 == t)).map (fun x => x.1)))) := rfl

theorem foldl_newTarget_of_shared {t : W64} {ys : List (Nat × Nat × W64)} (h : ∀ y ∈ ys, y.2.2 = t) : ys.foldl newTarget [t] = [t] := by
  induction ys with
  | nil => rfl
  | cons y ys ih =>
    obtain ⟨hy, hys⟩ := List.forall_mem_cons.1 h
    rw [List.foldl_cons, newTarget, hy]
    simpa using ih hys

/-- Lanes that share one target are one group. -/
theorem brxGroups_of_shared {t : W64} {xs : List (Nat × Nat × W64)} (hne : xs ≠ []) (h : ∀ x ∈ xs, x.2.2 = t) :
    ∃ g, brxGroups xs = [(t, g)] := by
  have hperm := sortBy_perm (fun x y : Nat × Nat × W64 => decide (x.2.1 ≤ y.2.1)) xs
  rw [brxGroups_eq]
  generalize hs : sortBy (fun x y : Nat × Nat × W64 => decide (x.2.1 ≤ y.2.1)) xs = ys at hperm ⊢
  cases ys with
  | nil => exact absurd hperm.symm.eq_nil hne
  | cons y ys =>
    obtain ⟨hy, hys⟩ := List.forall_mem_cons.1 fun x hx => h x (hperm.mem_iff.1 hx)
    have hfirst : newTarget [] y = [t] := by simp [newTarget, hy]
    rw [List.foldl_cons, hfirst, foldl_newTarget_of_shared hys]
    exact ⟨_, rfl⟩

theorem lanesOf_ne_nil {m : Mask} (h : m ≠ 0) : lanesOf m ≠ [] := by
  intro hnil
  refine h (BitVec.eq_of_getLsbD_eq fun L hL => ?_)
  have := List.filter_eq_nil_iff.1 hnil L (List.mem_range.2 hL)
  simpa using this

/-! ### BRV and BRX (R296, R308, R309) -/

/-- R63, R91: a load in any manner of leaving that nothing makes wait leaves. -/
theorem View.loadWith_of_clear {u w : View} {leave : View → MemOp → (Nat → State → State) → Res} {kind : MemKind} {ty : Ty} {uni nc : Bool}
    {rmask : Byte} {d : Dest} {ls : List (Nat × Nat)} {good : List LaneAddr} (h : u.loadClear w (tyBytes ty) uni false ls good) :
    u.loadWith leave kind ty uni nc false rmask d ls = w.loadGo leave kind ty uni nc false rmask d good := by
  obtain ⟨hacq, -, hphase, hothers, hstalls⟩ := h
  simp only [View.loadWith, hacq, hphase, hothers, hstalls, List.isEmpty_nil, Bool.not_true, Bool.false_and, Bool.or_self,
    Bool.false_eq_true, if_false]

/-- R115: BRV waits for every token where its guard divides the split. -/
theorem State.brvWaits_of_ready {s : State} {c : Ctl} {v0 x : View} (hv : s.view = some v0) (hr : v0.ready c 0 [] = some x) :
    s.brvWaits c = if x.act c.guard ≠ 0 ∧ x.act c.guard ≠ x.sp.mask then 0x3F else 0 := by
  rw [State.brvWaits, hv, Option.bind_some, hr]
  simp

section
variable {c : Ctl} {s : State} {v w : View} {m : Mask} {off heel : W32}

/-- R308: no lane of the mask falls through. -/
theorem execBrv_of_taken (h : Issues c [(c.guard, [])] (s.brvWaits c) (fun _ => []) false s v m) (hf : v.sp.mask &&& ~~~m = 0) :
    execBrv c off heel s = .next ((v.tokenFor c 1).after c (v.rel off)) := by
  rw [execBrv, issueW, issueG_of_issues _ h]
  rw [if_pos hf]
  rfl

/-- R296, R297: the lanes divide by the guard, once every token is ready. -/
theorem execBrv_of_divided (h : Issues c [(c.guard, [])] (s.brvWaits c) (fun _ => []) false s v m) (hf : v.sp.mask &&& ~~~m ≠ 0)
    (hw : v.tokensReady = some w) :
    execBrv c off heel s = .next (if (w.pk.setSplit w.ix (some w.sp)).roomFor 2 = true then
      w.split c (w.rel heel) ⟨w.succ c, w.sp.owned &&& ~~~m, v.sp.mask &&& ~~~m⟩ [⟨w.rel off, m, m⟩]
      else w.raise (w.faultRec fcDivergenceDepth 0 0 0 0 127 0)) := by
  rw [execBrv, issueW, issueG_of_issues _ h]
  simp only [if_neg hf, hw]
  cases (w.pk.setSplit w.ix (some w.sp)).roomFor 2 <;> rfl

end

section
variable {c : Ctl} {a : VSrc} {tab len : SReg} {heel : W32} {s : State} {v : View} {m : Mask}

/-- The lanes of a BRX whose index reaches past the table. -/
def View.brxBad (v : View) (a : VSrc) (len : SReg) (m : Mask) : List Nat :=
  (lanesOf m).filter (fun L => decide ((v.rs len).toNat % 2 ^ 32 ≤ v.brxIdx a L))

/-- The addresses of the table's entries that a BRX reads. -/
def View.brxEntries (v : View) (a : VSrc) (tab : SReg) (m : Mask) : List (Nat × Nat) :=
  (lanesOf m).map (fun L => (L, (v.rs tab + BitVec.ofNat 64 (8 * v.brxIdx a L)).toNat))

/-- How a BRX leaves to read its table: its split keeps the indices. -/
def View.brxLeave (v : View) (a : VSrc) (m : Mask) (y : View) (o : MemOp) (act : Nat → State → State) : Res :=
  ({ y with sp := { y.sp with tidx := (lanesOf m).map (fun L => (L, v.brxIdx a L)) } } : View).beginHere o act

/-- The target that the table gave a lane. -/
def View.brxTarget (v : View) (L : Nat) : W64 := match v.sp.tab.find? (fun e => e.1 == L) with | some e => e.2 | none => 0

/-- The lanes of a BRX by target. -/
def View.brxPaths (v : View) (a : VSrc) (m : Mask) : List (W64 × Mask) :=
  brxGroups ((lanesOf m).map (fun L => (L, v.brxIdx a L, v.brxTarget L)))

/-- A BRX that has its targets: the index register's last use, and the table's values taken. -/
def View.brxTaken (v : View) (a : VSrc) (m : Mask) : View := { v.lastUse false a m with sp := { v.sp with tab := [], tidx := [] } }

/-- The lanes that share a target are one path. -/
theorem View.brxPaths_of_shared {t : W64} (hm : m ≠ 0) (h : ∀ L ∈ lanesOf m, v.brxTarget L = t) : ∃ g, v.brxPaths a m = [(t, g)] := by
  refine brxGroups_of_shared (by simpa using lanesOf_ne_nil hm) fun x hx => ?_
  obtain ⟨L, hL, rfl⟩ := List.mem_map.1 hx
  exact h L hL

/-- What a BRX does once its indices are in range and its targets are there (R296, R309). -/
def View.brxBranch (v : View) (c : Ctl) (a : VSrc) (heel : W32) (m : Mask) : Res :=
  match v.brxPaths a m with
  | [] => .done (v.brxTaken a m)
  | [(t, _)] => .jump ((v.brxTaken a m).tokenFor c 1) t
  | (t, g) :: rest =>
    match (v.brxTaken a m).tokensReady with
    | none => .wait
    | some w =>
      if !(w.pk.setSplit w.ix (some w.sp)).roomFor (v.brxPaths a m).length then
        .state (w.raise (w.faultRec fcDivergenceDepth 0 0 0 0 127 0))
      else .state (w.split c (v.rel heel) ⟨t, (w.sp.owned &&& ~~~w.sp.mask) ||| g, g⟩ (rest.map (fun e => ⟨e.1, e.2, e.2⟩)))

/-- R309: with every index in range, the table is read, or the branch is made with what it gave. -/
theorem execBrx_of_good (h : IssuesW c [useV 1 false a, .s 2 tab, .s 3 len] false s v m) (hbad : v.brxBad a len m = []) :
    execBrx c a tab len heel s = .next (v.answer c
      (if v.sp.tab.isEmpty = true then v.loadWith (v.brxLeave a m) .table .n64 false false false 0 .none (v.brxEntries a tab m)
        else v.brxBranch c a heel m) s) := by
  rw [View.brxBad] at hbad
  refine (issue_of_issues _ h).trans ?_
  simp only [hbad]
  rfl

/-- R309: an index out of range. -/
theorem execBrx_of_bad {L : Nat} {rest : List Nat} (h : IssuesW c [useV 1 false a, .s 2 tab, .s 3 len] false s v m)
    (hbad : v.brxBad a len m = L :: rest) :
    execBrx c a tab len heel s = .next (({ v with pk := v.pk.setLex 0 } : View).raise
      (v.faultRec fcBrxRange (BitVec.ofNat 64 (v.brxIdx a L)) 0 0 kRead L (maskList (L :: rest)))) := by
  rw [View.brxBad] at hbad
  refine (issue_of_issues _ h).trans ?_
  simp only [hbad]
  rfl

/-- R309: the table is read. -/
theorem execBrx_of_clear {x : View} {good : List LaneAddr} (h : IssuesW c [useV 1 false a, .s 2 tab, .s 3 len] false s v m)
    (hbad : v.brxBad a len m = []) (htab : v.sp.tab = []) (hclear : v.loadClear x 8 false false (v.brxEntries a tab m) good) :
    execBrx c a tab len heel s = .next ((x.loadGo (v.brxLeave a m) .table .n64 false false false 0 .none good).placed s) := by
  rw [execBrx_of_good h hbad, htab, List.isEmpty_nil, if_pos rfl, View.loadWith_of_clear (ty := .n64) hclear]
  rfl

/-- R309: the lanes share one target. -/
theorem execBrx_of_one {t : W64} {g : Mask} (h : IssuesW c [useV 1 false a, .s 2 tab, .s 3 len] false s v m)
    (hbad : v.brxBad a len m = []) (htab : v.sp.tab ≠ []) (hgs : v.brxPaths a m = [(t, g)]) :
    execBrx c a tab len heel s = .next (((v.brxTaken a m).tokenFor c 1).after c t) := by
  rw [execBrx_of_good h hbad, if_neg (by simpa using htab)]
  simp only [View.brxBranch, hgs]
  rfl

/-- R296, R309: the lanes divide over their targets. -/
theorem execBrx_of_divided {t : W64} {g : Mask} {e : W64 × Mask} {rest : List (W64 × Mask)} {x : View}
    (h : IssuesW c [useV 1 false a, .s 2 tab, .s 3 len] false s v m) (hbad : v.brxBad a len m = []) (htab : v.sp.tab ≠ [])
    (hgs : v.brxPaths a m = (t, g) :: e :: rest) (hx : (v.brxTaken a m).tokensReady = some x)
    (hroom : (x.pk.setSplit x.ix (some x.sp)).roomFor (v.brxPaths a m).length = true) :
    execBrx c a tab len heel s = .next (x.split c (v.rel heel) ⟨t, (x.sp.owned &&& ~~~x.sp.mask) ||| g, g⟩
      ((e :: rest).map (fun p => ⟨p.1, p.2, p.2⟩))) := by
  rw [hgs] at hroom
  rw [execBrx_of_good h hbad, if_neg (by simpa using htab)]
  simp only [View.brxBranch, hgs, hx, hroom, Bool.not_true, Bool.false_eq_true, if_false]
  rfl

end

/-- Settles O44: BRV by whether a lane falls through, BRX by its bad lanes, its table and its targets. -/
theorem divergence : Obligations.Divergence := by
  intro c s v m heel
  refine ⟨fun v0 x hv hr => State.brvWaits_of_ready hv hr,
    fun off h => ⟨fun hf => execBrv_of_taken h hf, fun w hf hw => ⟨fun hroom => ?_, fun hroom => ?_⟩⟩, ?_⟩
  · refine (execBrv_of_divided h hf hw : execBrv c off heel s = _).trans ?_
    rw [if_neg (by rw [hroom]; exact Bool.false_ne_true)]
  · refine (execBrv_of_divided h hf hw : execBrv c off heel s = _).trans ?_
    rw [if_pos hroom]
  · intro a tab len h idx n leave at_ gs w
    obtain ⟨-, -, -, -, -, -, -, -, hm, -⟩ := id h
    refine ⟨fun ht L => ?_, fun L rest hbad => execBrx_of_bad h hbad, fun hbad =>
      ⟨fun x good htab hc => execBrx_of_clear h hbad htab hc, ?_,
      fun t htab ht => ?_, fun t g htab hgs => execBrx_of_one h hbad htab hgs,
      fun t g e rest x htab hgs hx hroom => execBrx_of_divided h hbad htab hgs hx hroom⟩⟩
    · simp only [idx, View.brxIdx, ht, List.find?_nil]
    · intro ls htab hl
      obtain ⟨x, hx⟩ := View.loadClear_of_loadable hl
      exact ⟨x, hx, execBrx_of_clear h hbad htab hx⟩
    · obtain ⟨g, hg⟩ := View.brxPaths_of_shared (a := a) hm ht
      exact execBrx_of_one h hbad htab hg

end Sys2Proof.Machine
end

section
/-! What an instruction that works on registers only leaves unchanged (R112, R116, R118): the view that it works in stays local to its split
under each operation of a view, and a local view is put back into its own slot. -/

namespace Sys2Proof.Machine

/-- A core whose words have done nothing but work on registers: its cycle count, the words and units taken, and the queues of the division
and special-function units are those of `l`. -/
def Core.worked (k l : Core) : Core :=
  { k with cycle := l.cycle, issued := l.issued, took := l.took, pipes := l.pipes, divq := l.divq, sfuq := l.sfuq }

/-- A view of the executing split of a compute core in which an instruction that started in `s` has worked on registers only. -/
structure State.Local (s : State) (v : View) : Prop where
  compute : s.cur.agent < 64
  outer : ∃ n, v.s = { s with free := n }
  ag : v.ag = s.cur.agent
  slot : v.slot = s.cur.slot
  unit : v.co = (s.core s.cur.agent).worked v.co

/-- What a register-only instruction that started in `s` leaves unchanged (R112, R116, R118). -/
structure State.Framed (s t : State) : Prop where
  outside : s.sameOutside t
  others : ∀ n, n ≠ s.cur.agent → t.core n = s.core n
  own : t.core s.cur.agent = { ((s.core s.cur.agent).worked (t.core s.cur.agent)) with packs := (t.core s.cur.agent).packs }
  packs : ∀ slot, slot ≠ s.cur.slot → look (t.core s.cur.agent).packs slot = look (s.core s.cur.agent).packs slot

/-- An instruction's own part has worked on registers only. -/
def Res.Framed (s : State) : Res → Prop
  | .done v => s.Local v
  | .jump v _ => s.Local v
  | .fault _ => True
  | .trap v _ => s.Local v
  | .wait => True
  | .hold v => s.Local v
  | .state t => s.Framed t

/-- On a compute core, the next state is framed. -/
def Framing (s : State) (o : Host.Outcome State Fault Refusal) : Prop := s.cur.agent < 64 → ∀ t, o = .next t → s.Framed t

theorem State.Framed.refl (s : State) : s.Framed s := ⟨rfl, fun _ _ => rfl, rfl, fun _ _ => rfl⟩

namespace State.Local

variable {s : State} {v w : View}

/-! ### What a view may change -/

/-- The view differs in its pack, its split, its cycle and its dead entries only. -/
theorem of_pack (h : s.Local v) (e : w = { v with pk := w.pk, sp := w.sp, now := w.now, dead := w.dead }) : s.Local w := by
  obtain ⟨hc, hs, hag, hslot, hco⟩ := h
  rw [e]
  exact ⟨hc, hs, hag, hslot, hco⟩

theorem of_free (h : s.Local v) (n : Nat) : s.Local { v with s := { v.s with free := n } } := by
  obtain ⟨hc, ⟨k, hs⟩, hag, hslot, hco⟩ := h
  exact ⟨hc, ⟨n, by rw [hs]⟩, hag, hslot, hco⟩

theorem of_core (h : s.Local v) {k : Core} (e : k = v.co.worked k) : s.Local { v with co := k } := by
  obtain ⟨hc, hs, hag, hslot, hco⟩ := h
  refine ⟨hc, hs, hag, hslot, ?_⟩
  rw [hco] at e
  exact e

theorem ite {p : Prop} [Decidable p] (h : s.Local v) (k : s.Local w) : s.Local (if p then v else w) := by
  split
  · exact h
  · exact k

theorem foldl {α : Type} {f : View → α → View} {l : List α} (h : s.Local v) (hf : ∀ x a, s.Local x → s.Local (f x a)) :
    s.Local (l.foldl f v) := by
  induction l generalizing v with
  | nil => exact h
  | cons a l ih => exact ih (hf v a h)

theorem svc (h : s.Local v) : v.svc = false := by
  have := h.compute
  rw [View.svc, h.ag]
  exact decide_eq_false (by omega)

/-! ### The states that a view is put back to -/

/-- The view's core put back, with any pack in the executing slot. -/
theorem setCore (h : s.Local v) (q : Pack) : s.Framed (v.s.setCore v.ag { v.co with packs := ins v.co.packs v.slot q }) := by
  obtain ⟨-, ⟨n, hs⟩, hag, hslot, hco⟩ := h
  have hpacks : v.co.packs = (s.core s.cur.agent).packs := by rw [hco, Core.worked]
  rw [hs, hag, hslot]
  have hcore := State.core_setCore { s with free := n } s.cur.agent { v.co with packs := ins v.co.packs s.cur.slot q }
  refine ⟨rfl, fun k hk => State.core_setCore_ne _ _ _ _ hk.symm, ?_, fun k hk => ?_⟩
  · rw [hcore]
    exact congrArg (fun x : Core => { x with packs := ins v.co.packs s.cur.slot q }) hco
  · rw [hcore, ← hpacks]
    exact look_ins_ne _ _ _ _ hk.symm

theorem close (h : s.Local v) : s.Framed v.close := h.setCore _

theorem raise {f : FaultRec} (h : s.Local v) : s.Framed (v.raise f) := by
  unfold View.raise
  simp only [h.svc, Bool.false_eq_true, if_false]
  split
  · exact (h.of_pack (by rfl)).close
  · exact (h.of_pack (by rfl)).close

/-! ### The operand window, the files and the tokens -/

theorem onPack {f : Pack → Pack} (h : s.Local v) : s.Local (v.onPack f) := by
  unfold View.onPack
  dsimp only
  split
  · exact h.of_pack rfl
  · exact h

theorem settle (h : s.Local v) : s.Local v.settle := h.onPack

theorem flush (h : s.Local v) : s.Local v.flush := h.onPack

theorem reconverge (h : s.Local v) : s.Local v.reconverge := h.onPack

theorem kill {r : Nat} {m : Mask} (h : s.Local v) : s.Local (v.kill r m) := by
  unfold View.kill
  extract_lets w mine
  have hw : s.Local w := h.foldl fun x _ hx => hx.of_pack rfl
  exact hw.of_pack rfl

theorem lastUse {is64 : Bool} {x : VSrc} {m : Mask} (h : s.Local v) : s.Local (v.lastUse is64 x m) := h.ite (h.kill.kill.ite h.kill)

theorem lastO {is64 : Bool} {o : VOpnd} {m : Mask} (h : s.Local v) : s.Local (v.lastO is64 o m) := by
  cases o with
  | v x => exact h.lastUse
  | _ => exact h

theorem lastCtr {x : Ctr} {m : Mask} (h : s.Local v) : s.Local (v.lastCtr x m) := by
  cases x with
  | w y => exact h.lastUse
  | a _ => exact h

theorem markDead (h : s.Local v) : s.Local v.markDead := h.of_pack rfl

theorem queueFile {x : FileW} {lat : Nat} (h : s.Local v) : s.Local (v.queueFile x lat) := h.of_pack rfl

theorem wmask {ws : List (Nat × W32)} {lat : Nat} (h : s.Local v) : s.Local (v.wmask ws lat) := h.of_pack rfl

theorem ws {r : SReg} {x : W64} {lat : Nat} (h : s.Local v) : s.Local (v.ws r x lat) := h.ite (h.wmask.ite h.queueFile)

theorem wp {r : PReg} {m x : Mask} {lat : Nat} (h : s.Local v) : s.Local (v.wp r m x lat) := h.ite h.queueFile

theorem wrow1 {row : Nat} {m : Mask} {x : Row} {lat : Nat} (h : s.Local v) : s.Local (v.wrow1 row m x lat) := h.of_pack rfl

theorem wv {is64 : Bool} {n : VReg} {m : Mask} {f : Nat → W64} {lat : Nat} (h : s.Local v) : s.Local (v.wv is64 n m f lat) :=
  h.wrow1.wrow1.ite h.wrow1

theorem orFpf {f : Nat} (h : s.Local v) : s.Local (v.orFpf f) := h.of_pack rfl

theorem setAov (h : s.Local v) : s.Local v.setAov := h.of_pack rfl

theorem tokenFor {c : Ctl} {lat : Nat} (h : s.Local v) : s.Local (v.tokenFor c lat) := (h.of_pack rfl).ite h

theorem tokenV {c : Ctl} (h : s.Local v) : s.Local (v.tokenV c).1 := by
  unfold View.tokenV
  split
  · exact h.of_pack rfl
  · exact h

theorem outV {d : Dest} (h : s.Local v) : s.Local (v.outV d) := h.ite (h.of_pack rfl)

theorem putS {c : Ctl} {d : SReg} {x : W64} {lat : Nat} (h : s.Local v) : s.Local (v.putS c d x lat) := h.ws.tokenFor

theorem putA {c : Ctl} {d : AReg} {x : Aff} (h : s.Local v) : s.Local (v.putA c d x) := State.Local.tokenFor h.queueFile

theorem putP {c : Ctl} {d : PReg} {m x : Mask} {lat : Nat} (h : s.Local v) : s.Local (v.putP c d m x lat) := h.wp.tokenFor

theorem putV {c : Ctl} {is64 : Bool} {d : VReg} {m : Mask} {xs : List W64} {lat : Nat} (h : s.Local v) :
    s.Local (v.putV c is64 d m xs lat) := h.wv.tokenFor

theorem affine {c : Ctl} {act : Mask} {wide t : Bool} {d : AReg} {base stride : Int} {exact : Nat → Int} (h : s.Local v) :
    (v.affine c act wide t d base stride exact).Framed s := by
  unfold View.affine
  extract_lets w bad badStride x u
  have hu : s.Local u := h.setAov.ite h
  split
  · trivial
  · exact hu.putA

theorem lastHalf {x : Half} {m : Mask} (h : s.Local v) : s.Local (v.lastHalf x m) := h.lastUse.ite h.lastUse.lastUse

theorem putHalf {x : Half} {m : Mask} {xs : List FR} (h : s.Local v) : s.Local (v.putHalf x m xs) := h.ite h.wv

/-! ### The units (R202, R224, R244) -/

theorem leave {c : Ctl} {d : Dest} {held : Bool} (h : s.Local v) : s.Local (v.leave c d held).1 :=
  State.Local.ite (h.outV.tokenV.of_pack rfl) h.outV.tokenV

theorem divide {c : Ctl} {d : Dest} {m : Mask} {lo hi : Row} {sval : W64} {fl : Nat} {lex : Mask} {zero : Option Nat} (h : s.Local v) :
    s.Local (v.divide c d m lo hi sval fl lex zero) := (State.Local.leave h).of_core rfl

theorem special {c : Ctl} {d : VReg} {m : Mask} {rs : List FR} (h : s.Local v) : s.Local (v.special c d m rs) :=
  (State.Local.leave h (c := c) (d := v.destV false d) (held := false)).of_core (by rfl)

/-! ### The end of a word -/

theorem finishKeep {kept : List (Nat × Nat)} {c : Ctl} {pc : W64} (h : s.Local v) : s.Local (v.finishKeep kept c pc) := by
  unfold View.finishKeep
  extract_lets t win js theirs results stays stays' sp w waiting n
  have hw : s.Local w := State.Local.onPack (h.of_pack (by rfl))
  refine (hw.of_core (k :=
    { (if w.svc then w.co else w.co.takes (unitOfOp w.s.op) t) with cycle := t, issued := w.co.issued + 1 }) ?_).of_pack rfl
  cases w.svc <;> rfl

theorem finish {c : Ctl} {pc : W64} (h : s.Local v) : s.Local (v.finish c pc) := h.finishKeep

theorem trapAfter {c : Ctl} {pc : W64} {f : FaultRec} (h : s.Local v) : s.Framed (v.trapAfter c pc f) := by
  have hw : s.Local (v.finish c pc) := h.finish
  unfold View.trapAfter
  dsimp only
  rw [hw.svc]
  exact (hw.of_pack (by rfl)).close

theorem answer {c : Ctl} {r : Res} (h : s.Local v) (hr : r.Framed s) : s.Framed (v.answer c r s) := by
  cases r with
  | done w => exact State.Local.close (State.Local.finish hr)
  | jump w pc => exact State.Local.close (State.Local.finish hr)
  | fault f => exact h.raise
  | trap w f => exact State.Local.trapAfter hr
  | wait => exact .refl s
  | hold w => exact State.Local.close hr
  | state t => exact hr

end State.Local

end Sys2Proof.Machine
end

section
/-! The same across the issue of a word and the classes of instructions. -/

namespace Sys2Proof.Machine

/-! ### The issue of a word (R112, R116, R303) -/

namespace State.Local

variable {s : State} {v w : View}

theorem view (hc : s.cur.agent < 64) (e : s.view = some v) : s.Local v := by
  unfold State.view State.viewAt at e
  split at e
  · cases e
  · split at e
    · cases e
    · cases e
      exact ⟨hc, ⟨s.free, rfl⟩, rfl, rfl, rfl⟩

theorem ready {c : Ctl} {waits : BitVec 6} {us : List Use} (h : s.Local v) (e : v.ready c waits us = some w) : s.Local w := by
  unfold View.ready at e
  split at e
  · cases e
  · split at e
    · cases e
    · dsimp only at e
      split at e
      · cases e
      · split at e
        · cases e
        · cases e
          exact State.Local.settle (h.of_pack (by rfl))

theorem stallGuard {g : BitVec 4} {t : State} (h : s.Local v) (e : v.stallGuard g = some t) : s.Framed t := by
  unfold View.stallGuard at e
  split at e
  · cases e
    exact (h.of_free _).raise
  · cases e

theorem stalls {ps : List Part} {t : State} (h : s.Local v) (e : v.stalls ps = some t) : s.Framed t := by
  obtain ⟨p, -, hp⟩ := List.exists_of_findSome?_eq_some e
  split at hp
  · cases hp
    exact h.raise
  · exact h.stallGuard hp

theorem tokensReady (h : s.Local v) (e : v.tokensReady = some w) : s.Local w := by
  obtain ⟨t, -, rfl⟩ := Option.map_eq_some_iff.1 e
  exact State.Local.settle (h.of_pack (by rfl))

/-- R296: the divided split is put back, with the pack of its paths. -/
theorem split {c : Ctl} {heel : W64} {first : Path} {rest : List Path} (h : s.Local v) : s.Framed (v.split c heel first rest) := by
  unfold View.split
  dsimp only
  split
  · exact State.Local.close (h.tokenFor.markDead.flush.finish.of_pack (by rfl))
  · exact h.tokenFor.markDead.flush.finish.close

end State.Local

namespace Framing

variable {s : State} {c : Ctl} {us : List Use} {body : View → Mask → Res}

/-- A word whose own part works on registers only leaves the rest of the machine unchanged, whatever its issue comes to. -/
theorem issueG {ps : List Part} {waits : BitVec 6} {chk : View → List Use} {wide : Bool}
    (h : ∀ v m, s.Local v → (body v m).Framed s) : Framing s (issueG c ps waits chk wide body s) := by
  intro hc t ht
  rcases issueG_cases ht with ⟨-, ⟨⟩⟩ | ⟨⟨⟩⟩ | ⟨v0, v, hview, hready, hrest⟩
  · exact .refl s
  · have hv : s.Local v := (State.Local.view hc hview).ready hready
    rcases hrest with ⟨u, hu, ⟨⟩⟩ | ⟨x, y, ⟨⟩⟩ | ⟨w, rfl, hend⟩
    · exact hv.stalls hu
    · exact State.Local.close (hv.of_pack (by rfl))
    · have hw : s.Local (if wide then v.reconverge else v) := hv.reconverge.ite hv
      rcases hend with ⟨⟨⟩⟩ | ⟨f, ⟨⟩⟩ | ⟨-, ⟨⟩⟩
      · exact hw.finish.close
      · exact hw.raise
      · exact hw.answer (h _ _ hw)

theorem issueW {g : BitVec 4} {waits : BitVec 6} {wide : Bool} (h : ∀ v m, s.Local v → (body v m).Framed s) :
    Framing s (issueW c g waits us wide body s) := issueG h

theorem issue (h : ∀ v m, s.Local v → (body v m).Framed s) : Framing s (issue c us body s) := issueW h

theorem issueWide (h : ∀ v m, s.Local v → (body v m).Framed s) : Framing s (issueWide c us body s) := issueW h

/-! ### The classes of instructions -/

theorem uniform2 {op : IType → W64 → W64 → W64} {t : IType} {d a : SReg} {b : USrc} : Framing s (uniform2 op c t d a b s) :=
  issue fun _ _ hv => hv.putS

theorem uniformDiv {op : IType → Bool → W64 → W64 → FR} {sg : Bool} {t : IType} {d a : SReg} {b : USrc} :
    Framing s (uniformDiv op sg c t d a b s) := issue fun _ _ hv => hv.divide

theorem uniform1 {op : IType → W64 → W64} {t : IType} {d a : SReg} : Framing s (uniform1 op c t d a s) := issue fun _ _ hv => hv.putS

theorem reduce {int : List Int → Int} {flt : W64 → W64 → FR} {t : PType} {d : SReg} {a : VSrc} : Framing s (reduce int flt c t d a s) := by
  unfold Machine.reduce
  refine issueWide fun v m hv => ?_
  split
  · exact hv.lastUse.orFpf.putS
  · exact hv.lastUse.putS

theorem varying2 {op : IType → W64 → W64 → W64} {t : IType} {d : VReg} {a : VSrc} {b : VOpnd} : Framing s (varying2 op c t d a b s) :=
  issue fun _ _ hv => hv.lastUse.lastO.putV

theorem varyingDiv {op : IType → Bool → W64 → W64 → FR} {sg : Bool} {t : IType} {d : VReg} {a : VSrc} {b : VOpnd} :
    Framing s (varyingDiv op sg c t d a b s) := issue fun _ _ hv => hv.lastUse.lastO.divide

theorem varying1 {op : IType → W64 → W64} {t : IType} {d : VReg} {a : VSrc} : Framing s (varying1 op c t d a s) :=
  issue fun _ _ hv => hv.lastUse.putV

theorem predicate2 {op : Mask → Mask → Mask} {d a b : PReg} : Framing s (predicate2 op c d a b s) := issue fun _ _ hv => hv.putP

theorem float2 {op : W64 → W64 → FR} {d : VReg} {a : VSrc} {b : VOpnd} : Framing s (float2 op c d a b s) :=
  issue fun _ _ hv => hv.lastUse.lastO.orFpf.putV

theorem float3 {op : W64 → W64 → W64 → FR} {d : VReg} {a : VSrc} {b : VOpnd} {cc : VSrc} : Framing s (float3 op c d a b cc s) :=
  issue fun _ _ hv => hv.lastUse.lastO.lastUse.orFpf.putV

theorem float1 {op : W64 → FR} {d : VReg} {a : VSrc} : Framing s (float1 op c d a s) := issue fun _ _ hv => hv.lastUse.orFpf.putV

theorem special1 {op : W64 → FR} {d : VReg} {a : VSrc} : Framing s (special1 op c d a s) := issue fun _ _ hv => hv.lastUse.special

/-! ### Instructions that place their split themselves, or whose part has cases -/

/-- R308. -/
theorem execBrv {off heel : W32} : Framing s (execBrv c off heel s) := by
  unfold Machine.execBrv
  refine issueW fun v m hv => ?_
  dsimp only
  split
  · exact hv.tokenFor
  · split
    · trivial
    · rename_i w hw
      have hw := hv.tokensReady hw
      split
      · exact hw.raise
      · exact hw.split

/-- R312. -/
theorem execExit : Framing s (execExit c s) := by
  unfold Machine.execExit
  refine issue fun v m hv => ?_
  rw [hv.svc]
  exact hv.tokenFor.flush.finish.setCore _

/-- R302, R313. -/
theorem execYield : Framing s (execYield c s) := issue fun _ _ hv => State.Local.close (hv.tokenFor.finish.of_pack (by rfl))

/-- R347. -/
theorem execTrap {code : BitVec 16} : Framing s (execTrap c code s) := by
  unfold Machine.execTrap
  refine issue fun v m hv => ?_
  rw [hv.svc]
  exact hv.tokenFor

theorem execBkpt : Framing s (execBkpt c s) := by
  unfold Machine.execBkpt
  refine issue fun v m hv => ?_
  rw [hv.svc]
  exact hv.tokenFor

/-- R310. -/
theorem execCall {d : Link} {off : W32} : Framing s (execCall c d off s) := by
  refine issue fun v m hv => ?_
  cases d with
  | s r => exact hv.putS
  | w r => exact hv.putV

/-- R317: what SWR writes, it writes in the pack. -/
theorem execSwr {num : W32} {a : SReg} : Framing s (execSwr c num a s) := by
  unfold Machine.execSwr
  refine issue fun v m hv => ?_
  dsimp only
  split
  · trivial
  · exact State.Local.tokenFor (hv.of_pack (by rfl))

/-- R198, R199: VBALLOT.ALL writes three words, and mask words of them at once. -/
theorem execVballot {beat : BitVec 2} {d : SReg} {a : PReg} : Framing s (execVballot c beat d a s) := by
  unfold Machine.execVballot
  split
  · refine issueWide fun v m hv => ?_
    extract_lets x ws mk w
    have hw : s.Local w := hv.foldl fun _ _ hx => hx.ws
    exact State.Local.tokenFor (State.Local.ite hw hw.wmask)
  · exact issueWide fun _ _ hv => hv.putS

theorem execPmov {d : PReg} {a : PMovSrc} : Framing s (execPmov c d a s) := by
  cases a <;> exact issue fun _ _ hv => hv.putP

end Framing

end Sys2Proof.Machine
end

section
/-! The register-only instructions of the table: O52. -/

namespace Sys2Proof.Machine

/-- An instruction of the table that only works on registers is the issue of a word whose part does so. -/
theorem exec_framing {i : Instr} (h : registerOnly i = true) (s : State) : Framing s (exec i s) := by
  cases i with
  | sadd | ssub | smul | smulh | smulhn | sand | sor | sxor | sandn | sshl | sshr | ssra | smin | smax | sminn | smaxn => exact .uniform2
  | sdiv | sdivn | srem | sremn => exact .uniformDiv
  | sclz | spopc | smov => exact .uniform1
  | vredadd | vredmin | vredmax => exact .reduce
  | vadd | vsub | vmul | vmulh | vmulhn | vand | vor | vxor | vandn | vshl | vshr | vsra | vmin | vmax | vminn | vmaxn => exact .varying2
  | vdiv | vdivn | vrem | vremn => exact .varyingDiv
  | vnot | vabs | vneg | vclz | vpopc | vmov => exact .varying1
  | pand | por | pxor => exact .predicate2
  | vfadd | vfsub | vfmul | vfmin | vfmax | vhadd2 | vhmul2 => exact .float2
  | vfma | vhfma2 => exact .float3
  | vfrnd | vunpack => exact .float1
  | vfrcp | vfrsq | vfsqrt | vfexp2 | vflog2 | vfsin | vfcos | vftanh => exact .special1
  | aadd => exact (.issue fun _ _ hv => hv.affine : Framing s (execAadd ..))
  | aadds => exact (.issue fun _ _ hv => hv.affine : Framing s (execAadds ..))
  | agetb => exact (.issue fun _ _ hv => hv.putS : Framing s (execAgetb ..))
  | agets => exact (.issue fun _ _ hv => hv.putS : Framing s (execAgets ..))
  | amovi => exact (.issue fun _ _ hv => hv.affine : Framing s (execAmovi ..))
  | amuls => exact (.issue fun _ _ hv => hv.affine : Framing s (execAmuls ..))
  | ashls => exact (.issue fun _ _ hv => hv.affine : Framing s (execAshls ..))
  | asub => exact (.issue fun _ _ hv => hv.affine : Framing s (execAsub ..))
  | bkpt => exact .execBkpt
  | bra => exact (.issue fun _ _ hv => hv.tokenFor : Framing s (execBra ..))
  | brv => exact .execBrv
  | call => exact .execCall
  | dovetail => exact (.issueG fun _ _ hv => hv.lastHalf.lastHalf.orFpf.putHalf.putHalf.tokenFor : Framing s (execDovetail ..))
  | exit => exact .execExit
  | nop => exact (.issue fun _ _ hv => hv.tokenFor : Framing s (execNop ..))
  | pav => exact (.issue fun _ _ hv => hv.putV : Framing s (execPav ..))
  | pmov => exact .execPmov
  | pnot => exact (.issue fun _ _ hv => hv.putP : Framing s (execPnot ..))
  | psa => exact (.issue fun _ _ hv => hv.affine : Framing s (execPsa ..))
  | psv => exact (.issue fun _ _ hv => hv.putV : Framing s (execPsv ..))
  | ret => exact (.issue fun _ _ hv => hv.tokenFor : Framing s (execRet ..))
  | sbfi => exact (.issue fun _ _ hv => hv.putS : Framing s (execSbfi ..))
  | sbfx => exact (.issue fun _ _ hv => hv.putS : Framing s (execSbfx ..))
  | scmp => exact (.issue fun _ _ hv => hv.putS : Framing s (execScmp ..))
  | sfadd => exact (.issue fun _ _ hv => hv.orFpf.putS : Framing s (execSfadd ..))
  | sfcvt => exact (.issue fun _ _ hv => hv.orFpf.putS : Framing s (execSfcvt ..))
  | sfma => exact (.issue fun _ _ hv => hv.orFpf.putS : Framing s (execSfma ..))
  | sfmul => exact (.issue fun _ _ hv => hv.orFpf.putS : Framing s (execSfmul ..))
  | smovi => exact (.issue fun _ _ hv => hv.putS : Framing s (execSmovi ..))
  | srd => exact (.issue fun _ _ hv => hv.putS : Framing s (execSrd ..))
  | ssel => exact (.issue fun _ _ hv => hv.putS : Framing s (execSsel ..))
  | swr => exact .execSwr
  | sync => exact (.issueWide fun _ _ hv => hv.tokenFor : Framing s (execSync ..))
  | trap => exact .execTrap
  | vall => exact (.issueWide fun _ _ hv => hv.putS : Framing s (execVall ..))
  | vany => exact (.issueWide fun _ _ hv => hv.putS : Framing s (execVany ..))
  | vballot => exact .execVballot
  | vbcast => exact (.issueWide fun _ _ hv => hv.lastUse.putV : Framing s (execVbcast ..))
  | vbfi => exact (.issue fun _ _ hv => hv.lastUse.lastUse.putV : Framing s (execVbfi ..))
  | vbfx => exact (.issue fun _ _ hv => hv.lastUse.putV : Framing s (execVbfx ..))
  | vcmp => exact (.issue fun _ _ hv => hv.lastUse.lastO.putP : Framing s (execVcmp ..))
  | vcvt => exact (.issue fun _ _ hv => hv.lastUse.lastUse.orFpf.putV : Framing s (execVcvt ..))
  | vdrop => exact (.issue fun _ _ hv => hv.lastCtr.putP : Framing s (execVdrop ..))
  | vfclass => exact (.issue fun _ _ hv => hv.lastUse.putV : Framing s (execVfclass ..))
  | vfcmp => exact (.issue fun _ _ hv => hv.lastUse.lastO.orFpf.putP : Framing s (execVfcmp ..))
  | vfdiv => exact (.issue fun _ _ hv => hv.lastUse.lastO.special : Framing s (execVfdiv ..))
  | vhash => exact (.issue fun _ _ hv => hv.lastCtr.putV : Framing s (execVhash ..))
  | vmad => exact (.issue fun _ _ hv => hv.lastUse.lastO.lastUse.putV : Framing s (execVmad ..))
  | vmovi => exact (.issue fun _ _ hv => hv.putV : Framing s (execVmovi ..))
  | vpack => exact (.issue fun _ _ hv => hv.lastUse.lastUse.lastUse.orFpf.putV : Framing s (execVpack ..))
  | vpick => exact (.issueWide fun _ _ hv => hv.lastUse.putS : Framing s (execVpick ..))
  | vprmt => exact (.issue fun _ _ hv => hv.lastUse.lastUse.lastO.putV : Framing s (execVprmt ..))
  | vsat => exact (.issue fun _ _ hv => hv.lastUse.putV : Framing s (execVsat ..))
  | vscan => exact (.issueWide fun _ _ hv => hv.lastUse.orFpf.putV : Framing s (execVscan ..))
  | vsel => exact (.issue fun _ _ hv => hv.lastUse.lastO.putV : Framing s (execVsel ..))
  | vshfl => exact (.issueWide fun _ _ hv => hv.lastUse.lastO.putV : Framing s (execVshfl ..))
  | waitq => exact (.issueW fun _ _ hv => hv : Framing s (execWaitq ..))
  | yield => exact .execYield
  | _ => cases h

/-- Settles O52: every register-only instruction is framed (`exec_framing`): its views stay local to its split (`State.Local`), and a local
view is put back into its own slot. -/
theorem registerFrame : Obligations.RegisterFrame := by
  intro i s t hi hc ht
  obtain ⟨outside, others, own, packs⟩ := exec_framing hi s hc t ht
  exact ⟨outside, others, own, packs⟩

end Sys2Proof.Machine
end

section
/-! The windows that only a service core reaches (R361, R414): a word that names one is performed at once, or faults with the flaw of its
access; the acquiring, the releasing and the atomic forms fault there whatever their access. -/

namespace Sys2Proof.Machine

variable {c : Ctl} {ty : Ty} {off : BitVec 24} {s : State} {v : View} {m : Mask} {va : Nat} {r : Nat × Nat} {d base b : SReg}

/-- R361: an access whose VA is refused raises its fault there. -/
theorem View.answer_vaFault {kind : Nat} :
    v.answer c (v.vaFault va r kind) s = v.raise (v.faultRec r.1 (BitVec.ofNat 64 va) r.2 0 kind 127 0) := rfl

/-- A uniform result that lands has placed its split itself. -/
theorem View.answer_landS {x : W64} : v.answer c (v.landS c d x) s = (v.landS c d x).placed s := rfl

section
variable (hi : IssuesW c [.ds d, .s 1 base] false s v m) (hwin : v.windowed base off = some va)
include hi hwin

/-- R141, R361: SLD within a window whose access has no flaw. -/
theorem execSld_of_reach {nc : Bool} (h : v.reachFlaw va (tyBytes ty) false = none) : execSld c ty nc d base off s =
    .next ((v.landS c d (tyLoad ty true (BitVec.ofNat 64 (v.reachRead va (tyBytes ty))))).placed s) := by
  simp only [execSld, issue_of_issues _ hi, hwin, h, View.answer_landS]

/-- R361, R414: SLD within a window whose access has a flaw. -/
theorem execSld_of_flaw {nc : Bool} (h : v.reachFlaw va (tyBytes ty) false = some r) : execSld c ty nc d base off s =
    .next (v.raise (v.faultRec r.1 (BitVec.ofNat 64 va) r.2 0 kRead 127 0)) := by
  simp only [execSld, issue_of_issues _ hi, hwin, h, View.answer_vaFault]

/-- R145, R361: SLDQ names a window. -/
theorem execSldq_of_windowed {sc : Scope} {rmask : Byte} : execSldq c ty sc rmask d base off s =
    .next (v.raise (v.faultRec fcProtection (BitVec.ofNat 64 va) 13 0 kRead 127 0)) := by
  simp only [execSldq, issue_of_issues _ hi, hwin, View.protFault, View.answer_vaFault]

end

section
variable (hi : IssuesW c [.s 1 base, .s 2 b] false s v m) (hwin : v.windowed base off = some va)
include hi hwin

/-- R142, R361: SST within a window whose access has no flaw. -/
theorem execSst_of_reach (h : v.reachFlaw va (tyBytes ty) true = none) : execSst c ty base off b s =
    .next ((({ v with s := v.reachWrite va (tyBytes ty) (v.rs b) } : View).tokenFor c 1).after c (v.succ c)) := by
  simp only [execSst, issue_of_issues _ hi, hwin, h, View.answer, View.after]

/-- R361, R414: SST within a window whose access has a flaw. -/
theorem execSst_of_flaw (h : v.reachFlaw va (tyBytes ty) true = some r) : execSst c ty base off b s =
    .next (v.raise (v.faultRec r.1 (BitVec.ofNat 64 va) r.2 0 kWrite 127 0)) := by
  simp only [execSst, issue_of_issues _ hi, hwin, h, View.answer_vaFault]

/-- R145, R361: SSTL names a window. -/
theorem execSstl_of_windowed {sc : Scope} : execSstl c ty sc base off b s =
    .next (v.raise (v.faultRec fcProtection (BitVec.ofNat 64 va) 13 0 kWrite 127 0)) := by
  simp only [execSstl, issue_of_issues _ hi, hwin, View.protFault, View.answer_vaFault]

end

/-- R146, R361: SATOM names a window. -/
theorem execSatom_of_windowed {op : AOp} {aq rl : Bool} {sc : Scope} {cmp : SReg}
    (hi : IssuesW c ([.ds d, .s 1 base, .s 2 b] ++ (if op = .cas then [.s 3 cmp] else [])) false s v m)
    (hwin : v.windowed base off = some va) : execSatom c op aq rl ty sc d base off b cmp s =
      .next (v.raise (v.faultRec fcProtection (BitVec.ofNat 64 va) 13 0 kAtomic 127 0)) := by
  simp only [execSatom, decide_eq_true_eq, issue_of_issues _ hi, hwin, View.protFault, View.answer_vaFault]

/-- Settles O29: SLD and SST by the flaw of the access, the other forms by the window alone. -/
theorem serviceWindows : Obligations.ServiceWindows := fun _ _ _ _ _ _ _ =>
  ⟨fun _ _ hi hwin => ⟨fun _ => execSld_of_reach hi hwin, fun _ _ => execSld_of_flaw hi hwin,
      fun sc _ => execSldq_of_windowed (sc := sc) hi hwin⟩,
    fun _ _ hi hwin => ⟨execSst_of_reach hi hwin, fun _ => execSst_of_flaw hi hwin, fun sc => execSstl_of_windowed (sc := sc) hi hwin⟩,
    fun _ _ _ _ _ _ _ _ => execSatom_of_windowed⟩

end Sys2Proof.Machine
end

section
/-! INVA and INVR (R150, R433): which words of an L1 dropping copies keeps, and what an instruction that only changes its view leaves of the
machine. -/

namespace Sys2Proof.Machine

/-! ### Sparse tables with entries left out -/

/-- An entry that is not left out is read as before. -/
theorem look_filter_of_read {α : Type} {p : Nat × α → Bool} {l : SMap α} {i : Nat} (h : ∀ x, look l i = some x → p (i, x) = true) :
    look (l.filter p) i = look l i := by
  induction l with
  | nil => rfl
  | cons e l ih =>
    obtain ⟨k, x⟩ := e
    by_cases hk : i = k
    · subst hk
      have hx : p (i, x) = true := h x (if_pos rfl)
      simp only [List.filter_cons, hx, if_true, look]
    · simp only [look, hk, if_false] at h
      cases hx : p (k, x) with
      | false => simpa [hx, look, hk] using ih h
      | true => simpa [hx, look, hk] using ih h

/-- What is read was not left out. -/
theorem pass_of_look_filter {α : Type} {p : Nat × α → Bool} {l : SMap α} {i : Nat} {x : α} (h : look (l.filter p) i = some x) :
    p (i, x) = true := by
  induction l with
  | nil => cases h
  | cons e l ih =>
    obtain ⟨k, y⟩ := e
    cases hy : p (k, y) with
    | false => exact ih (by simpa [hy] using h)
    | true =>
      by_cases hk : i = k
      · subst hk
        have hyx : y = x := by simpa [hy, look] using h
        exact hyx ▸ hy
      · exact ih (by simpa [hy, look, hk] using h)

/-! ### Dropping copies (R68, R91) -/

namespace Core

variable {c : Core} {p : Nat → L1Line → Bool} {w : Nat}

/-- A word that the L1 does not list is INV. -/
theorem raw_eq_look : c.raw w = (look c.l1 w).getD .inv := get_eq_look _ _ _

/-- What `dropCopies` leaves of the words. -/
theorem dropCopies_l1 :
    (c.dropCopies p).l1 = c.l1.filter (fun e => !(e.2.st == .copy && (c.line (e.1 / 16)).any (p (e.1 / 16)))) := by
  refine congrArg (c.l1.filter ·) (funext fun e => ?_)
  dsimp only
  cases c.line (e.1 / 16) <;> rfl

/-- A word in another state, and every word of a line that is not chosen, is kept. -/
theorem dropCopies_raw (h : (c.raw w).st ≠ .copy ∨ (c.line (w / 16)).any (p (w / 16)) = false) :
    (c.dropCopies p).raw w = c.raw w := by
  have hkeep : look (c.dropCopies p).l1 w = look c.l1 w := by
    rw [dropCopies_l1]
    refine look_filter_of_read fun y hy => ?_
    have hst : c.raw w = y := by rw [raw_eq_look, hy, Option.getD_some]
    rw [hst] at h
    rcases h with hother | hspared
    · simp [hother]
    · simp [hspared]
  rw [raw_eq_look, raw_eq_look, hkeep]

/-- No word of a chosen line is a copy any more. -/
theorem dropCopies_raw_st (h : (c.line (w / 16)).any (p (w / 16)) = true) : ((c.dropCopies p).raw w).st ≠ .copy := by
  rw [raw_eq_look, dropCopies_l1]
  cases hlook : look (c.l1.filter _) w with
  | none => nofun
  | some y =>
    have hpass := pass_of_look_filter hlook
    simpa only [h, Bool.and_true, Bool.not_eq_true', beq_eq_false_iff_ne, Option.getD_some] using hpass

/-- R66: what is no copy in the L1 is not used as one. -/
theorem word_st_of_raw (now : Nat) (h : (c.raw w).st ≠ .copy) : (c.word now w).st ≠ .copy := by
  simpa only [word, h, decide_false, Bool.false_and, Bool.false_eq_true, if_false] using h

/-- R66: a copy without a line is not used. -/
theorem word_st_of_line (now : Nat) (h : c.line (w / 16) = none) : (c.word now w).st ≠ .copy := by
  by_cases hcopy : (c.raw w).st = .copy
  · simp [word, hcopy, h, L1Word.inv]
  · exact word_st_of_raw now hcopy

/-- R150: once every line is chosen, no word of the L1 is used as a copy. -/
theorem dropCopies_all_word_st (now : Nat) : ((c.dropCopies (fun _ _ => true)).word now w).st ≠ .copy := by
  cases hline : c.line (w / 16) with
  | none => exact word_st_of_line now hline
  | some x => exact word_st_of_raw now (dropCopies_raw_st (by rw [hline]; rfl))

section
variable {l i : Nat} {x : L1Line} (hline : c.line l = some x) (hi : i < 16)
include hline hi

/-- A word's line is chosen as its own line is. -/
theorem any_line_word : (c.line ((16 * l + i) / 16)).any (p ((16 * l + i) / 16)) = p l x := by
  have hdiv : (16 * l + i) / 16 = l := by omega
  rw [hdiv, hline, Option.any_some]

/-- A chosen line has no word left to use as a copy. -/
theorem dropCopies_word_of_chosen (now : Nat) (h : p l x = true) : ((c.dropCopies p).word now (16 * l + i)).st ≠ .copy :=
  word_st_of_raw now (dropCopies_raw_st ((any_line_word hline hi).trans h))

/-- A line that is not chosen keeps its words. -/
theorem dropCopies_raw_of_spared (h : p l x = false) : (c.dropCopies p).raw (16 * l + i) = c.raw (16 * l + i) :=
  dropCopies_raw (.inr ((any_line_word hline hi).trans h))

end

/-- The issue of a word counts in its core's cycle, words and units alone (R113). -/
theorem worked_of_issued (k : Core) (svc : Bool) (un : IUnit) (t n : Nat) :
    ({ (if svc then k else k.takes un t) with cycle := t, issued := n } : Core) =
      k.worked { (if svc then k else k.takes un t) with cycle := t, issued := n } := by
  cases svc <;> rfl

end Core

/-! ### A view whose word has issued -/

namespace View

variable {v : View} {c : Ctl} {lat : Nat} {pc : W64}

@[simp] theorem onPack_co {f : Pack → Pack} : (v.onPack f).co = v.co := by rw [v.onPack_eq]

/-- Issuing a word counts it in its core, and changes nothing else there. -/
theorem finishKeep_co {kept : List (Nat × Nat)} : (v.finishKeep kept c pc).co = v.co.worked (v.finishKeep kept c pc).co :=
  (Core.worked_of_issued _ _ _ _ _).trans (congrArg (Core.worked · _) onPack_co)

/-- A word that is done with its token leaves the state of its view as it was, but for the view's core, where it is counted and its pack put
back. -/
theorem tokenFor_after_eq :
    ∃ k q, (v.tokenFor c lat).after c pc = v.s.setCore v.ag { (v.co.worked k) with packs := q } := by
  obtain ⟨hs, hag, -⟩ := (View.Stays.tokenFor v c lat).trans (.finishKeep _ [] c pc)
  have htok : (v.tokenFor c lat).co = v.co := by
    unfold View.tokenFor
    split <;> rfl
  have hco : ((v.tokenFor c lat).finishKeep [] c pc).co = v.co.worked _ := finishKeep_co.trans (congrArg (Core.worked · _) htok)
  refine ⟨((v.tokenFor c lat).finishKeep [] c pc).co, ((v.tokenFor c lat).after c pc).core v.ag |>.packs, ?_⟩
  rw [View.after, View.finish, View.close, hs, hag, State.core_setCore]
  exact congrArg (fun k : Core => v.s.setCore v.ag { k with packs := _ }) hco

section
variable (v) (k : Core)

/-- A word that replaces its core by `k` and is done changes nothing outside the cores. -/
theorem sameOutside_tokenFor_after : v.s.sameOutside ((({ v with co := k } : View).tokenFor c lat).after c pc) := by
  obtain ⟨x, q, h⟩ := tokenFor_after_eq (v := { v with co := k }) (c := c) (lat := lat) (pc := pc)
  rw [h]
  rfl

/-- It leaves the words of `k`. -/
theorem raw_tokenFor_after (w : Nat) :
    (((({ v with co := k } : View).tokenFor c lat).after c pc).core v.ag).raw w = k.raw w := by
  obtain ⟨x, q, h⟩ := tokenFor_after_eq (v := { v with co := k }) (c := c) (lat := lat) (pc := pc)
  rw [h, State.core_setCore]
  rfl

/-- They are used as in `k`, whose lines it leaves too. -/
theorem word_tokenFor_after (now w : Nat) :
    (((({ v with co := k } : View).tokenFor c lat).after c pc).core v.ag).word now w = k.word now w := by
  obtain ⟨x, q, h⟩ := tokenFor_after_eq (v := { v with co := k }) (c := c) (lat := lat) (pc := pc)
  rw [h, State.core_setCore]
  rfl

end

end View

/-! ### INVA and INVR -/

section
variable {c : Ctl} {s : State} {v : View} {m : Mask}

/-- R150, R433: INVA is done once the copies are dropped and the instruction buffer is empty. -/
theorem execInva_of_issues (hi : IssuesW c [] false s v m) : execInva c s =
    .next ((({ v with co := { (v.co.dropCopies (fun _ _ => true)) with ibuf := [] } } : View).tokenFor c 4).after c (v.succ c)) := by
  rw [execInva, issue_of_issues _ hi]
  rfl

/-- INVR of the addresses from `lo` below `hi` chooses the line (R150). -/
def View.invrDrops (v : View) (lo hi l : Nat) (x : L1Line) : Bool :=
  x.asid != v.pk.asid || (decide (lo ≤ x.va l) && decide (x.va l < hi))

theorem View.invrDrops_iff {lo hi l : Nat} {x : L1Line} :
    v.invrDrops lo hi l x = true ↔ x.asid ≠ v.pk.asid ∨ lo ≤ x.va l ∧ x.va l < hi := by
  simp only [View.invrDrops, Bool.or_eq_true, Bool.and_eq_true, bne_iff_ne, decide_eq_true_eq]

/-- R150: INVR is done once the copies of the lines that it chooses are dropped. -/
theorem execInvr_of_issues {base len : SReg} {off : BitVec 24} (hi : IssuesW c [.s 1 base, .s 2 len] false s v m) :
    let lo := (v.rs base + off.signExtend 64).toNat
    let drops := v.invrDrops lo (min (lo + (v.rs len).toNat) (2 ^ 57))
    execInvr c base off len s = .next ((({ v with co := v.co.dropCopies drops } : View).tokenFor c 4).after c (v.succ c)) := by
  rw [execInvr, issue_of_issues _ hi]
  rfl

end

/-- Settles O35: both are done in the state of their view, whose L1 has lost the copies of the lines they choose and nothing else. -/
theorem dropping : Obligations.Dropping := by
  refine fun c s v m => ⟨fun hi => ?_, fun base len off hi => ?_⟩
  · obtain ⟨rfl, -, -⟩ := hi.view_eq
    refine ⟨_, execInva_of_issues hi, View.sameOutside_tokenFor_after v _, rfl, fun now w => ?_, fun w hother => ?_⟩
    · rw [View.word_tokenFor_after v]
      exact Core.dropCopies_all_word_st now
    · rw [View.raw_tokenFor_after v]
      exact Core.dropCopies_raw (p := fun _ _ => true) (.inl hother)
  · obtain ⟨rfl, -, -⟩ := hi.view_eq
    refine ⟨_, execInvr_of_issues hi, View.sameOutside_tokenFor_after v _, rfl, fun w hother => ?_,
      fun l x hline => ⟨fun hdrop now i hword => ?_, fun hkeep i hword => ?_⟩⟩
    · rw [View.raw_tokenFor_after v]
      exact Core.dropCopies_raw (.inl hother)
    · rw [View.word_tokenFor_after v]
      exact Core.dropCopies_word_of_chosen hline hword now (View.invrDrops_iff.2 hdrop)
    · rw [View.raw_tokenFor_after v]
      exact Core.dropCopies_raw_of_spared hline hword (Bool.eq_false_iff.2 (mt View.invrDrops_iff.1 hkeep))

end Sys2Proof.Machine
end

section
/-! Barrier objects (R158, R169-R173): what an arrival makes of an object, and what the four instructions do with theirs. -/

namespace Sys2Proof.Machine

/-! ### Arrivals (R170, R172) -/

namespace Bar

variable {b : Bar} {n : Nat}

/-- An arrival saturates at the expected count and is a step of R170; its result names the phase before, the flip and the overflow. -/
theorem arrive_eq : b.arrive n =
    let e : Bar := ({ b with arr := min (b.arr + n) b.exp } : Bar).eval
    (e, BitVec.ofNat 64 (b2n b.ph + 2 * b2n (e.ph != b.ph) + 4 * b2n (decide (b.exp < b.arr + n)))) := by
  have hmin : (if decide (b.exp < b.arr + n) then b.exp else b.arr + n) = min (b.arr + n) b.exp := by
    by_cases h : b.exp < b.arr + n <;> simp only [h, decide_true, decide_false, Bool.false_eq_true, if_true, if_false] <;> omega
  simp only [arrive, hmin]

/-- While an arrival or a byte is missing the phase stays. -/
theorem arrive_of_missing (h : b.arr + n < b.exp ∨ b.bytes ≠ 0) : b.arrive n =
    ({ b with arr := min (b.arr + n) b.exp }, BitVec.ofNat 64 (b2n b.ph + 4 * b2n (decide (b.exp < b.arr + n)))) := by
  have hstay : ({ b with arr := min (b.arr + n) b.exp } : Bar).eval = { b with arr := min (b.arr + n) b.exp } :=
    if_neg (by dsimp only; omega)
  simp [arrive_eq, hstay, b2n]

/-- With every arrival and every byte in, the phase flips and the arrivals begin again. -/
theorem arrive_of_complete (ha : b.exp ≤ b.arr + n) (hb : b.bytes = 0) : b.arrive n =
    ({ b with ph := !b.ph, arr := 0 }, BitVec.ofNat 64 (b2n b.ph + 2 + 4 * b2n (decide (b.exp < b.arr + n)))) := by
  have hflip : ({ b with arr := min (b.arr + n) b.exp } : Bar).eval = { b with ph := !b.ph, arr := 0 } :=
    if_pos ⟨by dsimp only; omega, hb⟩
  simp [arrive_eq, hflip, b2n]

/-- An arrival leaves the expected count, the bytes and the reserved bits. -/
theorem arrive_keeps : (b.arrive n).1.exp = b.exp ∧ (b.arrive n).1.bytes = b.bytes ∧ (b.arrive n).1.res = b.res := by
  rw [arrive_eq]
  dsimp only [eval]
  split <;> exact ⟨rfl, rfl, rfl⟩

end Bar

/-! ### The instructions (R171-R173) -/

/-- A changed object's instruction has placed its split itself. -/
theorem View.answer_objDone {v w : View} {c : Ctl} {f : Core → Core} {d : SReg} {x : W64} {s : State} :
    v.answer c (w.objDone c f d x) s = (w.objDone c f d x).placed s := rfl

section
variable {c : Ctl} {d a b : SReg} {s : State} {v : View} {m : Mask} {w : WgWin} {f : FaultRec}

/-- R171: BARINIT writes an object with nothing arrived, and an expected count of at least 1. -/
theorem execBarinit_of_ok (hi : IssuesW c [.s 1 a, .s 2 b] false s v m) (hw : v.operand (v.soReg a) 16 16 kWrite = .ok w) :
    execBarinit c a b s = .next ((v.objDone c (fun co => co.setBar w (v.soReg a)
      ⟨0, 0, max ((v.rs b).toNat % 2 ^ 32) 1, (v.co.bar w (v.soReg a)).res, false⟩) 63 0).placed s) := by
  have hmax : ∀ e : Nat, (if e = 0 then 1 else e) = max e 1 := fun e => by split <;> omega
  simp only [execBarinit, issue_of_issues _ hi, hw, hmax, View.answer_objDone]

theorem execBarinit_of_error (hi : IssuesW c [.s 1 a, .s 2 b] false s v m) (hf : v.operand (v.soReg a) 16 16 kWrite = .error f) :
    execBarinit c a b s = .next (v.raise f) := by
  simp only [execBarinit, issue_of_issues _ hi, hf, View.answer]

/-- R173: BARWAIT goes on where the phase is not the one named. -/
theorem execBarwait_of_left (hi : IssuesW c [.s 1 a, .s 2 b] false s v m) (hw : v.operand (v.soReg a) 16 16 kRead = .ok w)
    (hph : (v.co.bar w (v.soReg a)).ph ≠ (v.rs b).getLsbD 0) : execBarwait c a b s =
      .next (((v.onCore (fun co => co.wakeBar w (v.soReg a) (v.co.bar w (v.soReg a)).ph)).tokenFor c 1).after c (v.succ c)) := by
  simp only [execBarwait, issue_of_issues _ hi, hw, bit, bne_iff_ne.2 hph, if_true, View.answer, View.after]

/-- R173: BARWAIT parks, its token up, where the phase is the one named. -/
theorem execBarwait_of_held (hi : IssuesW c [.s 1 a, .s 2 b] false s v m) (hw : v.operand (v.soReg a) 16 16 kRead = .ok w)
    (hph : (v.co.bar w (v.soReg a)).ph = (v.rs b).getLsbD 0) :
    let u := v.onCore (fun co => co.wakeBar w (v.soReg a) (v.co.bar w (v.soReg a)).ph)
    execBarwait c a b s = .next ((u.tokenV c).1.park c (.barwait (v.soReg a) ((v.rs b).getLsbD 0) (u.tokenV c).2)) := by
  simp only [execBarwait, issue_of_issues _ hi, hw, bit, hph, bne_self_eq_false, Bool.false_eq_true, if_false, View.answer]

/-- R172: BARARR writes the object after its arrivals and returns their result. -/
theorem execBararr_of_ok (hi : IssuesW c [.ds d, .s 1 a, .s 2 b] false s v m) (hw : v.operand (v.soReg a) 16 16 kWrite = .ok w) :
    let o := (v.co.bar w (v.soReg a)).arrive ((v.rs b).toNat % 2 ^ 32)
    execBararr c false d a b s = .next ((v.objDone c (fun co => co.setBar w (v.soReg a) o.1) d o.2).placed s) := by
  simp only [execBararr, issue_of_issues _ hi, Bool.false_eq_true, if_false, hw, View.answer_objDone]

theorem execBararr_of_error (hi : IssuesW c [.ds d, .s 1 a, .s 2 b] false s v m) (hf : v.operand (v.soReg a) 16 16 kWrite = .error f) :
    execBararr c false d a b s = .next (v.raise f) := by
  simp only [execBararr, issue_of_issues _ hi, Bool.false_eq_true, if_false, hf, View.answer]

/-- R173: BARTRY returns whether the phase is another than the one named. -/
theorem execBartry_of_ok (hi : IssuesW c [.ds d, .s 1 a, .s 2 b] false s v m) (hw : v.operand (v.soReg a) 16 16 kRead = .ok w) :
    execBartry c d a b s = .next ((v.objDone c (fun co => co.wakeBar w (v.soReg a) (v.co.bar w (v.soReg a)).ph) d
      (if (v.co.bar w (v.soReg a)).ph = (v.rs b).getLsbD 0 then 0 else 1)).placed s) := by
  have hval : ∀ p q : Bool, BitVec.ofNat 64 (b2n (p != q)) = if p = q then 0 else 1 := by decide
  simp only [execBartry, issue_of_issues _ hi, hw, bit, hval, View.answer_objDone]

end

/-- Settles O37: each instruction by its operand, and an arrival by whether it completes the phase. -/
theorem barrierObjects : Obligations.BarrierObjects := by
  refine ⟨fun c d a b s v m => ⟨fun hi => ⟨fun _ => execBarinit_of_ok hi, fun _ => execBarinit_of_error hi, fun _ => execBarwait_of_left hi,
      fun _ => execBarwait_of_held hi⟩,
    fun hi => ⟨fun _ => execBararr_of_ok hi, fun _ => execBararr_of_error hi, fun _ => execBartry_of_ok hi⟩⟩, fun b n => ?_⟩
  obtain ⟨hexp, hbytes, hres⟩ := b.arrive_keeps (n := n)
  refine ⟨hexp, hbytes, hres, fun hlow => ?_, fun hat hnone => ?_, fun hat hsome => ?_, fun hover hnone => ?_, fun hover hsome => ?_⟩
  · rw [Bar.arrive_of_missing (.inl hlow), decide_eq_false (by omega)]
    exact ⟨min_eq_left hlow.le, rfl, by cases b.ph <;> rfl⟩
  · rw [Bar.arrive_of_complete hat.ge hnone, decide_eq_false (by omega)]
    exact ⟨rfl, rfl, by cases b.ph <;> rfl⟩
  · rw [Bar.arrive_of_missing (.inr hsome), decide_eq_false (by omega)]
    exact ⟨min_eq_right hat.ge, rfl, by cases b.ph <;> rfl⟩
  · rw [Bar.arrive_of_complete hover.le hnone, decide_eq_true hover]
    exact ⟨rfl, rfl, by cases b.ph <;> rfl⟩
  · rw [Bar.arrive_of_missing (.inr hsome), decide_eq_true hover]
    exact ⟨min_eq_right hover.le, rfl, by cases b.ph <;> rfl⟩

end Sys2Proof.Machine
end

section
/-! Message queues (R174-R178): MSGRECV, MSGFREE and MSGSEND by the checks of their descriptor or channel, and by what the queue holds. -/

namespace Sys2Proof.Machine

section
variable {c : Ctl} {d a b : SReg} {s : State} {v : View} {m : Mask} {w : WgWin} {r : Nat}

/-! ### MSGRECV (R177) -/

section
variable {nb : Bool} (hi : IssuesW c [.ds d, .s 1 a] false s v m) (hw : v.operand (v.soReg a) 32 32 kWrite = .ok w)
include hi hw

/-- R178: a descriptor that fails a check faults with the check's reason. -/
theorem execMsgrecv_of_flaw (hq : (v.co.qdesc w (v.soReg a)).flaw w.size none = some r) :
    execMsgrecv c nb d a s = .next (v.raise (v.faultRec fcMsgDesc (BitVec.ofNat 64 (v.soReg a)) r 0 0 127 0)) := by
  simp only [execMsgrecv, issue_of_issues _ hi, hw, hq, View.queueFault, View.answer]

variable (hq : (v.co.qdesc w (v.soReg a)).flaw w.size none = none)
include hq

/-- R177: a queue that holds an entry gives its head entry's offset and sender. -/
theorem execMsgrecv_of_entry (hn : (v.co.qdesc w (v.soReg a)).count ≠ 0) :
    let q := v.co.qdesc w (v.soReg a)
    let r := v.s.takeSender w.launch w.wg (v.soReg a) q.head
    execMsgrecv c nb d a s = .next ((({ v with s := r.2 } : View).objDone c
      (fun co => co.setQdesc w (v.soReg a) (q.take r.1).2) d (q.take r.1).1).placed s) := by
  simp only [execMsgrecv, issue_of_issues _ hi, hw, hq, hn, if_false]
  rfl

/-- R177: .NB of an empty queue writes all ones. -/
theorem execMsgrecv_of_empty_nb (hn : (v.co.qdesc w (v.soReg a)).count = 0) :
    execMsgrecv c true d a s = .next ((v.landS c d (BitVec.allOnes 64)).placed s) := by
  simp only [execMsgrecv, issue_of_issues _ hi, hw, hq, hn, if_true, View.answer_landS]

/-- R177: without .NB an empty queue parks the split, with its place in the order of the receivers. -/
theorem execMsgrecv_of_empty (hn : (v.co.qdesc w (v.soReg a)).count = 0) :
    let r := ({ v with s := { v.s with next := v.s.next + 1 } } : View).tokenV c
    execMsgrecv c false d a s = .next (r.1.park c (.msgrecv (v.soReg a) d r.2 v.s.next)) := by
  simp only [execMsgrecv, issue_of_issues _ hi, hw, hq, hn, if_true, Bool.false_eq_true, if_false, View.answer]

end

/-! ### MSGFREE (R178) -/

/-- The credits that MSGFREE of `n` slots grants to the pack of the name in `x`: none where it names no workgroup (R175, R178). -/
def View.creditsFor (v : View) (x : W64) (off n : Nat) : List Credit :=
  let name := fld x 32 32
  match (look v.s.launches v.pk.launch).bind (fun l => (l.set (name % 256)).bind (fun e =>
    if (e.indexOf v.pk.wg).isSome then e.member (name / 2 ^ 8 % 2 ^ 20) else none)) with
  | some t => [⟨v.pk.launch, t, name / 2 ^ 28, v.pk.wg, off, n⟩]
  | none => []

/-- They are of the slots freed, from the queue at `off` of the pack's own workgroup, and go to one pack at most. -/
theorem View.creditsFor_spec {x : W64} {off n : Nat} :
    (∀ y ∈ v.creditsFor x off n, y.n = n ∧ y.wg = v.pk.wg ∧ y.off = off ∧ y.launch = v.pk.launch) ∧ (v.creditsFor x off n).length ≤ 1 := by
  unfold View.creditsFor
  dsimp only
  split
  · exact ⟨fun y hy => by rw [List.mem_singleton.1 hy]; exact ⟨rfl, rfl, rfl, rfl⟩, le_rfl⟩
  · exact ⟨nofun, Nat.zero_le 1⟩

section
variable (hi : IssuesW c [.s 1 a, .s 2 b] false s v m) (hw : v.operand (v.soReg a) 32 32 kWrite = .ok w)
  (hq : (v.co.qdesc w (v.soReg a)).flaw w.size none = none)
include hi hw hq

/-- R178: MSGFREE of no slot, or of more than are neither held nor granted, has reason 5. -/
theorem execMsgfree_of_bad_count (hn : let q := v.co.qdesc w (v.soReg a)
      (v.rs b).toNat % 2 ^ 32 = 0 ∨ q.depth < q.out + q.count + (v.rs b).toNat % 2 ^ 32) :
    execMsgfree c a b s = .next (v.raise (v.faultRec fcMsgDesc (BitVec.ofNat 64 (v.soReg a)) 5 0 0 127 0)) := by
  have hbad := decide_eq_true hn
  rw [Bool.decide_or] at hbad
  simp only [execMsgfree, issue_of_issues _ hi, hw, hq, hbad, if_true, View.queueFault, View.answer]

/-- R178: MSGFREE adds the slots to OUT and sends their credits. -/
theorem execMsgfree_of_count (h1 : 1 ≤ (v.rs b).toNat % 2 ^ 32) (h2 : let q := v.co.qdesc w (v.soReg a)
      q.out + q.count + (v.rs b).toNat % 2 ^ 32 ≤ q.depth) :
    let q := v.co.qdesc w (v.soReg a)
    let n := (v.rs b).toNat % 2 ^ 32
    execMsgfree c a b s = .next ((({ v with s := { v.s with credits := v.s.credits ++ v.creditsFor (v.rs b) (v.soReg a) n } } : View).objDone c
      (fun co => co.setQdesc w (v.soReg a) { q with out := q.out + n }) 63 0).placed s) := by
  have hgood : (decide ((v.rs b).toNat % 2 ^ 32 = 0) ||
      decide ((v.co.qdesc w (v.soReg a)).depth < (v.co.qdesc w (v.soReg a)).out + (v.co.qdesc w (v.soReg a)).count +
        (v.rs b).toNat % 2 ^ 32)) = false := by
    simp only [Bool.or_eq_false_iff, decide_eq_false_iff_not]
    exact ⟨by omega, Nat.not_lt.2 h2⟩
  simp only [execMsgfree, issue_of_issues _ hi, hw, hq, hgood, Bool.false_eq_true, if_false]
  rfl

end

/-! ### MSGSEND (R175, R176) -/

section
variable {ch : BitVec 3} (hi : IssuesW c [.s 1 a] false s v m)
  (hw : v.operand (v.soReg a) 16 (eszBytes (fld (v.pk.mqch ch.toNat) 48 4)) kRead = .ok w)
include hi hw

/-- R175, R176: a channel that is not bound has reason 6. -/
theorem execMsgsend_of_unbound (hb : (v.pk.mqch ch.toNat).getLsbD 63 = false) :
    execMsgsend c ch a s = .next (v.raise (v.faultRec fcMsgDesc (BitVec.ofNat 64 (fld (v.pk.mqch ch.toNat) 0 20)) 6 0 0 127 0)) := by
  simp only [execMsgsend, issue_of_issues _ hi, hw, bit, hb, Bool.not_false, if_true, View.queueFault, View.answer]

variable (hb : (v.pk.mqch ch.toNat).getLsbD 63 = true)
include hb

/-- R160, R176: a name that does not resolve has reason 7, whatever the credits (entry 36 of the assumption log). -/
theorem execMsgsend_of_unresolved (hr : v.s.resolve v.pk.launch v.pk.wg (v.pk.mqch ch.toNat) 32 = none) :
    execMsgsend c ch a s = .next (v.raise (v.faultRec fcMsgDesc (BitVec.ofNat 64 (fld (v.pk.mqch ch.toNat) 0 20)) 7 0 0 127 0)) := by
  simp only [execMsgsend, issue_of_issues _ hi, hw, bit, hb, hr, Bool.not_true, Bool.false_eq_true, if_false, View.queueFault, View.answer]

variable {wg doff : Nat} (hr : v.s.resolve v.pk.launch v.pk.wg (v.pk.mqch ch.toNat) 32 = some (wg, doff))
include hr

/-- R176: with credit, and no S2R transfer of the pack on the channel, the entry leaves. -/
theorem execMsgsend_of_credit (hc : v.pk.credit ch.toNat ≠ 0) (hx : v.s.s2rBusy v.ag v.slot ch.toNat = false) : execMsgsend c ch a s =
    .next (v.sendEntry c ch.toNat (v.co.spRead (w.base + v.soReg a) (eszBytes (fld (v.pk.mqch ch.toNat) 48 4))) wg doff) := by
  simp only [execMsgsend, issue_of_issues _ hi, hw, bit, hb, hr, hc, hx, decide_false, Bool.or_self, Bool.not_true, Bool.false_eq_true,
    if_false, View.answer]

/-- R176: without credit the split parks and sends again. -/
theorem execMsgsend_of_no_credit (hc : v.pk.credit ch.toNat = 0) :
    execMsgsend c ch a s = .next (v.parkRetry (.msgsend ch.toNat)) := by
  simp only [execMsgsend, issue_of_issues _ hi, hw, bit, hb, hr, hc, decide_true, Bool.true_or, Bool.not_true, Bool.false_eq_true, if_false,
    if_true, View.answer]

end

end

/-- Settles O38: each instruction by the first of its checks that fails, and then by what the queue or the channel holds; a name that does
not resolve comes before the credits, as entry 36 of the assumption log chooses. -/
theorem messages : Obligations.Messages := by
  refine fun c d a b s v m w => ⟨fun nb hi hw => ⟨fun _ => execMsgrecv_of_flaw hi hw, execMsgrecv_of_entry hi hw, ?_, ?_⟩,
    fun hi hw hq => ⟨execMsgfree_of_bad_count hi hw hq, fun h1 h2 =>
      ⟨_, View.creditsFor_spec.1, View.creditsFor_spec.2, execMsgfree_of_count hi hw hq h1 h2⟩⟩,
    fun ch hi hw => ⟨execMsgsend_of_unbound hi hw, execMsgsend_of_unresolved hi hw, fun wg doff hb hr =>
      ⟨execMsgsend_of_credit hi hw hb hr, execMsgsend_of_no_credit hi hw hb hr⟩⟩⟩
  · rintro hq hn rfl
    exact execMsgrecv_of_empty_nb hi hw hq hn
  · rintro hq hn rfl
    exact execMsgrecv_of_empty hi hw hq hn

end Sys2Proof.Machine
end

section
/-! XFER (R163-R165) and BARARR.RM (R160, R172): the record or the name that is refused, the credits, the release, and what leaves the core. -/

namespace Sys2Proof.Machine

section
variable {c : Ctl} {d a b : SReg} {s : State} {v x : View} {m : Mask}

/-! ### XFER -/

/-- R165: an XFER that has not taken its credits takes them, of an S2R alone. -/
theorem View.pastCredits_of_untaken {r : XferRec} (h : v.sp.phase < 10) : v.pastCredits r =
    if r.dir = 2 then { v with pk := v.pk.setCredit r.chan (v.pk.credit r.chan - v.recordCredits r) } else v :=
  if_neg (Nat.not_le.2 h)

section
variable {w : WgWin} (hi : IssuesW c [.s 1 a] false s v m) (hw : v.operand (v.soReg a) 64 64 kRead = .ok w)
include hi hw

/-- R164: a record that fails a check faults with the check's reason. -/
theorem execXfer_of_flaw {y : Nat} (hy : v.xferFlaw w (v.co.xferRec w (v.soReg a)).1 (v.co.xferRec w (v.soReg a)).2 = some y) :
    execXfer c a s = .next (v.raise (v.faultRec fcXferRecord (BitVec.ofNat 64 (v.soReg a)) y 0 0 127 0)) := by
  simp only [execXfer, issue_of_issues _ hi, hw, hy, View.answer]

variable (hx : v.xferFlaw w (v.co.xferRec w (v.soReg a)).1 (v.co.xferRec w (v.soReg a)).2 = none)
  (hp : let r := (v.co.xferRec w (v.soReg a)).1
    (r.baren && v.co.spPoison (w.base + r.baroff) 16 false) = false)
include hx hp

/-- R165: without the credits the split parks, and issues the XFER again. -/
theorem execXfer_of_no_credit (h10 : v.sp.phase < 10) : let r := (v.co.xferRec w (v.soReg a)).1
    v.pk.credit r.chan < v.recordCredits r → execXfer c a s = .next (v.parkRetry (.xfer r.chan (v.recordCredits r))) := by
  intro r hc
  have hshort : (decide (v.sp.phase < 10) && decide (v.pk.credit r.chan < v.recordCredits r)) = true := by
    simpa using ⟨h10, hc⟩
  simp only [execXfer, issue_of_issues _ hi, hw, hx, hp, hshort, Bool.false_eq_true, if_false, if_true, View.answer, r]

/-- R165: with the credits, or once they are taken, the record is offered as soon as the release is over. -/
theorem execXfer_of_go : let r := (v.co.xferRec w (v.soReg a)).1
    10 ≤ v.sp.phase ∨ v.recordCredits r ≤ v.pk.credit r.chan → (v.pastCredits r).release (scopeOf r.scope) true = .go x →
    execXfer c a s = .next (x.offerRecord c (v.soReg a) r) := by
  intro r hc hgo
  have hpaid : (decide (v.sp.phase < 10) && decide (v.pk.credit r.chan < v.recordCredits r)) = false := by
    rcases hc with h | h <;> simp [Nat.not_lt.2 h]
  have hrel : v.releaseRecord r = .go x := by
    simp only [View.releaseRecord, hgo]
  simp only [execXfer, issue_of_issues _ hi, hw, hx, hp, hpaid, hrel, Bool.false_eq_true, if_false, View.answer, r]

end

/-! ### BARARR.RM -/

section
variable (hi : IssuesW c [.ds d, .s 1 a, .s 2 b] false s v m)
include hi

/-- R160: a name that does not resolve faults with reason 14. -/
theorem execBararr_remote_of_unresolved (hr : v.s.resolve v.pk.launch v.pk.wg (v.rs a) 16 = none) : execBararr c true d a b s =
    .next (v.raise (v.faultRec fcScratchBounds (BitVec.ofNat 64 (fld (v.rs a) 0 20)) 14 0 kWrite 127 0)) := by
  simp only [execBararr, issue_of_issues _ hi, hr, if_true, View.answer]

/-- R172: an arrival leaves for the object that the name resolves to. -/
theorem execBararr_remote_of_resolved {wg off : Nat} (hr : v.s.resolve v.pk.launch v.pk.wg (v.rs a) 16 = some (wg, off)) :
    let r := v.leave c (.s d) true
    let t := r.1.after c (r.1.succ c)
    execBararr c true d a b s = .next { t with remotes := t.remotes ++
      [⟨.arrive ((v.rs b).toNat % 2 ^ 32), v.ag, v.slot, v.ix, v.sp.pc, v.sp.seq, r.2, d, v.pk.launch, v.pk.wg, v.pk.idx, 8, wg, off, 0,
        none, false⟩] } := by
  simp only [execBararr, issue_of_issues _ hi, hr, if_true, View.answer]
  rfl

end

end

/-- Settles O39: XFER by the check that its record fails, its credits and its release (which is over once nothing is left for it to wait for,
`View.release_of_releasable`), and BARARR.RM by what its name resolves to. -/
theorem transfersAndRemoteArrivals : Obligations.TransfersAndRemoteArrivals := by
  refine ⟨fun c a s v m w hi hw => ⟨fun _ => execXfer_of_flaw hi hw, fun hx hbar => ?_⟩,
    fun c d a b s v m hi => ⟨execBararr_remote_of_unresolved hi, fun _ _ => execBararr_remote_of_resolved hi⟩⟩
  have hclean : let r := (v.co.xferRec w (v.soReg a)).1
      (r.baren && v.co.spPoison (w.base + r.baroff) 16 false) = false := Bool.and_eq_false_imp.2 hbar
  refine ⟨execXfer_of_no_credit hi hw hx hclean, View.pastCredits_of_untaken, fun _ => execXfer_of_go hi hw hx hclean, fun hc hrel => ?_⟩
  obtain ⟨u, hgo, -⟩ := View.release_of_releasable hrel
  exact ⟨u, hgo, execXfer_of_go hi hw hx hclean hc hgo⟩

end Sys2Proof.Machine
end

section
/-! The events of the transfer engines, the hub, the distributor and the queue engines (R165-R168, R175, R178, R285, R289, R320-R336): what
each does under the condition that its rule states. -/

namespace Sys2Proof.Machine

variable {n k : Nat} {s t : State} {x : Xfer}

/-! ### Transfers (R165, R166) -/

/-- R165: a die with room for 256 accepts the oldest record offered to it, and its XFER completes. -/
theorem execTransferAccept_of_room
    (hx : (s.xfers.filter (fun x => dieOf x.agent == n)).find? (fun x => x.stage == XStage.offered) = some x)
    (hroom : ((s.xfers.filter (fun x => dieOf x.agent == n)).filter (fun y => y.stage != XStage.offered)).length < 256) :
    execTransferAccept n s = .next ((s.updXfer x.id (fun y => { y with stage := .queued })).updCore x.agent (fun c =>
      c.updPack x.slot (fun p => p.retireOp x.split x.seq x.tok c.cycle))) := by
  simp only [execTransferAccept, hx, Nat.not_le.2 hroom, if_false]

/-- R165: the core whose turn it is starts a chunk of the next of its records after the last one served. -/
theorem execTransferChunkStart_of_turn {m : Nat} :
    let t := (List.range 16).foldl (fun (s : State) i => s.enterProgress (16 * n + i)) s
    ((List.range 16).map (fun i => 16 * n + (get 0 t.xturn n + i) % 16)).find? (fun m => t.xfers.any (fun x => x.agent == m && x.startable)) =
      some m →
    (t.xfers.filter (fun x => x.agent == m && x.startable)).find? (fun x => get 0 t.xlast m < x.id) = some x →
    execTransferChunkStart n s = .next (t.startChunk x) := by
  intro t hm hx
  simp only [execTransferChunkStart]
  rw [hm]
  dsimp only
  rw [hx]
  rfl

section
variable {j : Nat} {ready : Bool} (hx : ((s.xfers.filter (fun x => dieOf x.agent == n && x.page.isNone)).flatMap
  (fun x => x.live.map (fun e => (x, e))))[k]? = some (x, (j, ready)))
include hx

/-- R166: a chunk of an S2R ends once its entry is appended. -/
theorem execTransferChunkDone_of_ready (hd : x.r.dir = 2) (hr : ready = true) :
    execTransferChunkDone n k s = .next (s.chunkEnd x j) := by
  simp only [execTransferChunkDone, hx, hd, hr, if_true]

/-- R166: another chunk ends once it is moved. -/
theorem execTransferChunkDone_of_moved {u : Unit} (hd : x.r.dir ≠ 2) (hm : s.moveChunk x j = .ok u t) :
    execTransferChunkDone n k s = .next (t.chunkEnd x j) := by
  simp only [execTransferChunkDone, hx, hd, hm, if_false]

/-- R167: a chunk that cannot be moved stops its transfer. -/
theorem execTransferChunkDone_of_fault {va : Nat} {f : Flaw} (hd : x.r.dir ≠ 2) (hm : s.moveChunk x j = .fault va f) :
    execTransferChunkDone n k s = .next (s.xferFault x va f) := by
  simp only [execTransferChunkDone, hx, hd, hm, if_false]

end

/-! ### Messages between workgroups, and credits (R168, R172, R175) -/

/-- R168: a held message goes on to its workgroup. -/
theorem execHubHeldDelivery_of_held {r : Remote} (hr : s.remotes[k]? = some r) (hh : r.held = true) :
    execHubHeldDelivery k s = .next ((s.deliverRemote k true).deliverRemote k false) := by
  simp only [execHubHeldDelivery, hr, hh, if_true]

/-- R172: the reply to a remote arrival completes its instruction at the issuer. -/
theorem execRemoteArrivalReply_of_reply {r : Remote} {y : W64} (hr : s.remotes[k]? = some r) (hy : r.kind = .reply y) :
    execRemoteArrivalReply k s = .next (({ s with remotes := s.remotes.eraseIdx k } : State).updCore r.agent (fun c => c.updPack r.slot
      (fun p => ((if r.dest = 63 then p else p.deliver false r.split r.seq (.s r.dest) 0 [] [] y).retireOp r.split r.seq r.tok c.cycle)))) := by
  simp only [execRemoteArrivalReply, hr, hy]

/-- R175: credits are added to the channel that their queue's name finds, and splits that wait for them look again. -/
theorem execCreditReturn_of_channel {c : Credit} {m : Nat} {w : WgWin} {i : Nat} {p : Pack} {ch : Nat} (hc : s.credits[k]? = some c)
    (hw : s.findWin c.launch c.to_ = some (m, w)) (hi : (s.core m).slotOf c.launch c.to_ c.idx = some i)
    (hp : look (s.core m).packs i = some p) (hch : s.channelFor p c = some ch) :
    execCreditReturn k s = .next ((({ s with credits := s.credits.eraseIdx k } : State).updCore m (fun co =>
      co.updPack i (fun p => p.setCredit ch (p.credit ch + c.n)))).wakeCredit m i) := by
  simp only [execCreditReturn, hc, hw, hi, hp, hch, Option.bind_some]

/-! ### The distributor and launches (R285, R289, R334) -/

/-- R285: in READY, with the slice running, its function neither stopped nor waiting for a saved workgroup, the next workgroup is placed in
the round under way, or in the next one. -/
theorem execWorkgroupDispatch_of_ready (hs : s.partSt n = 3) : let t := s.currentFn n
    let d := t.dist n
    d.expired = false → t.fnStopped d.fn = false → t.savedWaiting n d.fn = false →
    execWorkgroupDispatch n s = .next (match t.dispatchIn n d.fn d.turns with
      | .done u => u
      | .busy u => u
      | .none => match t.roundOf 96 d.fn with
        | .busy u => u
        | .fault _ => s
        | .ok (turns, u) => match u.dispatchIn n d.fn turns with | .done w => w | .busy w => w | .none => s) := by
  intro t d he hf hw
  have hgo : ((t.dist n).expired || t.fnStopped (t.dist n).fn || t.savedWaiting n (t.dist n).fn) = false := by
    rw [he, hf, hw]
    rfl
  simp only [execWorkgroupDispatch, hs, ne_eq, not_true_eq_false, if_false]
  rw [if_neg (Bool.eq_false_iff.1 hgo)]
  cases t.dispatchIn n d.fn d.turns with
  | done u => rfl
  | busy u => rfl
  | none =>
    dsimp only
    cases t.roundOf 96 d.fn with
    | busy u => rfl
    | fault e => rfl
    | ok p =>
      dsimp only
      cases p.2.dispatchIn n d.fn p.1 <;> rfl

/-- Leaving entries out of a table lists no new key. -/
theorem look_filter_of_none {α : Type} {p : Nat × α → Bool} {l : SMap α} {i : Nat} (h : look l i = none) : look (l.filter p) i = none := by
  induction l with
  | nil => rfl
  | cons e l ih =>
    obtain ⟨j, y⟩ := e
    have hne : i ≠ j := fun hij => by simp [look, hij] at h
    have hl : look l i = none := by simpa [look, hne] using h
    cases hp : p (j, y) <;> simp [hp, look, hne, ih hl]

/-- R289, R291: a launch that no packet of a graph and no other launch waits for completes its own packet. -/
theorem execLaunchComplete_of_over {l : Launch} (hl : look s.launches k = some l) (ho : s.launchOver k l = true) (hn : l.node = none)
    (hp : look s.launches l.parent = none) : execLaunchComplete k s = .next (({ s with
      launches := del s.launches k
      remotes := s.remotes.filter (fun (r : Remote) => r.launch != k)
      credits := s.credits.filter (fun (r : Credit) => r.launch != k) } : State).pktDone l.waiter l.status.1 l.status.2 0) := by
  have hpar : look (del s.launches k) l.parent = none := look_filter_of_none hp
  simp only [execLaunchComplete, hl, ho, hn, hpar, Bool.not_true, Bool.false_eq_true, if_false]

/-! ### The queue engines (R320, R327, R329, R333-R336) -/

/-- R329, R407: an engine that is not fenced serves its lanes. -/
theorem execEngineRound_eq : execEngineRound n s = .next (if (s.regVal bootStat).getLsbD (32 + n) = true then s
    else (((s.settleAll.recheckAll.fillLanes n).openLanes n).serveGroups n).settleAll) :=
  (apply_ite Host.Outcome.next _ _ _).symm

/-- R327: a WAIT past its time limit completes with status 6. -/
theorem execWaitTimeout_of_late {y : QState} {d : QDescr} {bs : List Byte} (hy : s.queue n k = some y) (hd : s.desc n k = .ok d)
    (hbs : y.pkt = some bs) (hop : recNum bs 0 1 = 6) (hstep : y.step = 2) (hlim : recNum bs 28 4 ≠ 0)
    (hlate : y.start + recNum bs 28 4 * 1000 ≤ s.time) : execWaitTimeout n k s =
      .next (((s.owe y (s.workCluster n k d.rd) (s.queueSpace n d.proc).1 (s.queueSpace n d.proc).2 6 0 16).runFins).settleQueue n k) := by
  have hout : (decide (recNum bs 0 1 = 6) && decide (y.step = 2) && decide (recNum bs 28 4 ≠ 0) &&
      decide (y.start + recNum bs 28 4 * 1000 ≤ s.time)) = true := by
    simpa using ⟨⟨⟨hop, hstep⟩, hlim⟩, hlate⟩
  simp only [execWaitTimeout, hy, hd, hbs, hout, if_true]

section
variable {g : Nat} (he : (s.dist n).expired = false) (hlate : (s.dist n).start + s.sliceNs n ≤ s.time)
  (hg : s.nextFn n (s.dist n).fn = some g)
include he hlate hg

/-- R333, R335: where the next slice is the same function's again, it goes on. -/
theorem execSliceExpiry_of_alone (hsame : g = (s.dist n).fn) : execSliceExpiry n s =
    .next (s.setDist n { s.dist n with start := s.time, owed := set 0 (s.dist n).owed (s.dist n).fn 0 }) := by
  simp only [execSliceExpiry, he, Nat.not_lt.2 hlate, hg, hsame, Bool.not_false, if_true, if_false]

/-- R334, R335: with DRAIN 1 a function whose slice is over places no further workgroup, and keeps its packs. -/
theorem execSliceExpiry_of_drain (hother : g ≠ (s.dist n).fn) (hdrain : bit (s.regVal (partSched n)) 6 = true) :
    execSliceExpiry n s = .next (s.setDist n { s.dist n with expired := true }) := by
  simp only [execSliceExpiry, he, Nat.not_lt.2 hlate, hg, hother, hdrain, Bool.not_false, if_true, if_false]

end

/-- R336: while another queue waits, one that its lane has served for 16 packets or 100 µs gives the lane up at a switch point. -/
theorem execLaneRotation_of_served {y : QState} (hy : s.queues.find? (fun x => x.lane == some k) = some y)
    (hserved : 16 ≤ y.served ∨ y.since + 100000 ≤ s.time) (hw : s.waitingQueues (s.dist (s.fnPart y.fn)).fn ≠ [])
    (hsw : y.switchable = true) : execLaneRotation k s = .next (s.leaveLane y.fn y.q true) := by
  have hgo : ((decide (16 ≤ y.served) || decide (y.since + 100000 ≤ s.time)) && !(s.waitingQueues (s.dist (s.fnPart y.fn)).fn).isEmpty &&
      y.switchable) = true := by
    simpa using ⟨⟨hserved, hw⟩, hsw⟩
  simp only [execLaneRotation, hy, hgo, if_true]

/-- R46: a queue goes on from its page; one that still gets PAGE_FAULT there meets the fault for good. -/
theorem execEngineFaultResume_of_fault {y : EngFault} {f : Flaw} (hy : s.engfaults[k]? = some y) (hk : y.kind = 1) :
    let t : State := { s with engfaults := s.engfaults.eraseIdx k }
    t.engXlate (queueEng engAgent ((t.partOfCluster y.cluster).getD 0) y.asid y.root) y.va (y.reason == 3) = .fault y.va f →
    execEngineFaultResume k s = .next (t.updQueue (y.id / 512) (y.id % 512)
      (fun z => { z with page := if f.code = fcPageFault then 2 else 0 })) := by
  intro t hx
  simp only [execEngineFaultResume, hy, hk]
  rw [hx]
  by_cases hf : f.code = fcPageFault <;> simp [hf, t]

/-! ### Notifications (R103, R319, R321, R377, R388) -/

section
variable {idx : W32}

/-- R377: a function that is not bound answers Unsupported Request. -/
theorem execNotify_of_unbound (hb : s.bound n = false) :
    execNotify n k idx s = .next { s with hostout := s.hostout ++ [.unsupported n] } := by
  simp only [execNotify, hb, Bool.not_false, if_true]

/-- R103: a notification follows its function's earlier writes, which wait at the host port (entry 29 of the assumption log). -/
theorem execNotify_of_busy (hb : s.bound n = true) (ha : s.aperBusy n = true) :
    execNotify n k idx s = .next { s with aper := s.aper ++ [⟨n, 0, bytesOf 4 idx.toNat, some k⟩] } := by
  simp only [execNotify, hb, ha, Bool.not_true, Bool.false_eq_true, if_false, if_true]

/-- R319, R321: WRIDX of a host queue is written, and the engine reads the descriptor. -/
theorem execNotify_of_written {pa : Nat} {d : QDescr} (hb : s.bound n = true) (ha : s.aperBusy n = false) (hpa : s.descPa n k = some pa)
    (hd : s.desc n k = .ok d) (hhost : d.device = false)
    (hw : s.writeAt (s.fnPart n) ⟨s.engOf n k, true⟩ (pa + 16) (bytesOf 4 idx.toNat) = .ok t) :
    execNotify n k idx s = .next (t.lookAt n k) := by
  have hdone : s.notify n k idx = .done (t.lookAt n k) := by
    simp only [State.notify, hpa, hd, hhost, hw, Bool.false_eq_true, if_false]
  simp only [execNotify, hb, ha, hdone, Bool.not_true, Bool.false_eq_true, if_false, Put.state]

end

/-- R377: a function that is not bound answers Unsupported Request. -/
theorem execCnotify_of_unbound (hb : s.bound n = false) :
    execCnotify n s = .next { s with hostout := s.hostout ++ [.unsupported n] } := by
  simp only [execCnotify, hb, Bool.false_eq_true, if_false]

/-- R388: a bound function's ring is polled at once. -/
theorem execCnotify_of_bound (hb : s.bound n = true) : execCnotify n s = execCollectiveRingPoll n s := if_pos hb

/-- Settles O58: each event by the lemma that says what it does under its condition; the four whose accesses nothing stands in the way of
complete by `exec_exchange_of_reaches`. Choices of the assumption log stand in it: a notification's wait at the host port (entries 12 and 29),
the queues of a fenced engine (entry 30), and the agent of a queue whose fault is resumed (entry 16). -/
theorem exchangeAndQueueEvents : Obligations.ExchangeAndQueueEvents := by
  intro n k s
  refine ⟨fun _ => execTransferAccept_of_room, fun _ _ => execTransferChunkStart_of_turn,
    fun _ _ _ hx => ⟨execTransferChunkDone_of_ready hx, fun _ _ => execTransferChunkDone_of_moved hx,
      fun _ _ => execTransferChunkDone_of_fault hx⟩, rfl, rfl,
    fun _ hr => ⟨execHubHeldDelivery_of_held hr, fun _ => execRemoteArrivalReply_of_reply hr⟩,
    fun _ _ _ _ _ _ => execCreditReturn_of_channel, execWorkgroupDispatch_of_ready, rfl, fun _ => execLaunchComplete_of_over,
    execEngineRound_eq, fun _ _ _ => execWaitTimeout_of_late,
    fun _ he hlate hg => ⟨execSliceExpiry_of_alone he hlate hg, execSliceExpiry_of_drain he hlate hg⟩,
    fun _ => execLaneRotation_of_served, fun _ _ => execEngineFaultResume_of_fault,
    fun _ => ⟨execNotify_of_unbound, fun _ _ _ => execNotify_of_written, execNotify_of_busy⟩,
    execCnotify_of_unbound, execCnotify_of_bound, exec_exchange_of_reaches n k s⟩

end Sys2Proof.Machine
end

section
/-! What an instruction comes to that is the issue of a word, where the word issues (R112). -/

namespace Sys2Proof.Machine

section
variable {c : Ctl} {us : List Use} {s : State} {v : View} {m : Mask} {o : Host.Outcome State Fault Refusal} {t : State}
  {body : View → Mask → Res}

/-- What an instruction answers that is the issue of a word, where the word issues. -/
theorem next_of_issue (hi : IssuesW c us false s v m) (ho : o = issue c us body s) (ht : v.answer c (body v m) s = t) : o = .next t := by
  rw [ho, issue_of_issues body hi, ht]

theorem next_of_issueWide (hi : IssuesW c us true s v m) (ho : o = issueWide c us body s) (ht : v.answer c (body v m) s = t) :
    o = .next t := by
  rw [ho, issueWide_of_issues body hi, ht]

end

end Sys2Proof.Machine
end

section
/-! The predicate registers and the instructions on them (R181, R231): O17 and O49. -/

namespace Sys2Proof.Machine

/-- The three words of a mask, lane by lane. -/
theorem getLsbD_setBeats (x y z : W32) {L : Nat} (hL : L < 96) :
    (setBeat (setBeat (setBeat 0 0 x) 1 y) 2 z).getLsbD L = (if L < 32 then x else if L < 64 then y else z).getLsbD (L % 32) := by
  simp only [getLsbD_setBeat, hL, decide_true, Bool.true_and]
  rcases (by omega : L < 32 ∨ 32 ≤ L ∧ L < 64 ∨ 64 ≤ L) with h | ⟨h, h'⟩ | h
  · simp [h, show ¬ 64 ≤ L by omega, show ¬ 32 ≤ L by omega, Nat.mod_eq_of_lt h]
  · simp [h, h', show ¬ 64 ≤ L by omega, show ¬ L < 32 by omega, show L % 32 = L - 32 by omega]
  · simp [h, show ¬ L < 64 by omega, show ¬ L < 32 by omega, show L % 32 = L - 64 by omega]

/-- R231: PMOV.MK takes lane L from the uniform word of its beat. -/
theorem execPmov_mk {c : Ctl} {d : PReg} {r : SReg} {s : State} {v : View} {m : Mask}
    (hi : IssuesW c [.dp d, .s 1 r, .s 1 (r + 1), .s 1 (r + 2)] false s v m) :
    ∃ x : Mask, exec (.pmov c d (.mk r)) s = .next ((v.putP c d m x latVI).after c (v.succ c)) ∧
      ∀ L, L < 96 → x.getLsbD L = (v.rs (r + BitVec.ofNat 6 (L / 32))).getLsbD (L % 32) := by
  refine ⟨_, (next_of_issue hi rfl rfl : execPmov c d (.mk r) s = _), fun L hL => ?_⟩
  rw [getLsbD_setBeats _ _ _ hL]
  have hmod : L % 32 < 32 := Nat.mod_lt _ (by decide)
  rcases (by omega : L < 32 ∧ L / 32 = 0 ∨ (¬ L < 32 ∧ L < 64) ∧ L / 32 = 1 ∨ (¬ L < 32 ∧ ¬ L < 64) ∧ L / 32 = 2) with
    ⟨h, hd⟩ | ⟨h, hd⟩ | ⟨h, hd⟩
  · simp [h, hd, hmod]
  · simp [h, hd, hmod]
  · simp [h, hd, hmod]

/-- R231: a predicate operation on two sources. -/
theorem predicate2_of_issues {op : Mask → Mask → Mask} {c : Ctl} {d a b : PReg} {s : State} {v : View} {m : Mask}
    (hi : IssuesW c [.dp d, .p 1 a, .p 2 b] false s v m) :
    predicate2 op c d a b s = .next ((v.putP c d m (op (v.rp a) (v.rp b)) latVI).after c (v.succ c)) := next_of_issue hi rfl rfl

/-- Settles O17: each is its own part, and PMOV.MK's lanes come from its three words. -/
theorem predicates : Obligations.Predicates := fun c d a b s _ _ =>
  ⟨fun hi => ⟨(predicate2_of_issues hi : execPand c d a b s = _), (predicate2_of_issues hi : execPor c d a b s = _),
      (predicate2_of_issues hi : execPxor c d a b s = _)⟩,
    fun hi => ⟨(next_of_issue hi rfl rfl : execPnot c d a s = _), (next_of_issue hi rfl rfl : execPmov c d (.p a) s = _)⟩,
    fun _ => execPmov_mk⟩

/-- R181: p7 apart, a predicate is read from its file. -/
theorem View.rp_of_ne {v : View} {r : PReg} (h : r ≠ 7) : v.rp r = get 0 v.pk.p r.toNat := if_neg h

theorem Pack.apply_p {p : Pack} {r : PReg} {m x : Mask} (h : r ≠ 7) :
    p.apply (.p r m x) = { p with p := upd 0 p.p r.toNat (fun old => (old &&& ~~~m) ||| (x &&& m)) } := if_neg h

/-- R181: a predicate write changes the lanes it names of its register, and nothing else. -/
theorem View.getLsbD_rp_apply (v : View) {r : PReg} (q : PReg) (m x : Mask) {L : Nat} (hr : r ≠ 7) (hL : L < 96) :
    (({ v with pk := v.pk.apply (.p r m x) } : View).rp q).getLsbD L =
      if q = r ∧ m.getLsbD L = true then x.getLsbD L else (v.rp q).getLsbD L := by
  rw [Pack.apply_p hr]
  by_cases hq : q = 7
  · subst hq
    rw [if_neg fun h => hr h.1.symm]
    rfl
  · rw [View.rp_of_ne hq, View.rp_of_ne hq]
    dsimp only
    rw [upd, get_set]
    by_cases hqr : q = r
    · subst hqr
      simp only [if_true, true_and, BitVec.getLsbD_or, BitVec.getLsbD_and, BitVec.getLsbD_not, hL, decide_true, Bool.true_and]
      cases m.getLsbD L <;> simp
    · rw [if_neg fun h => hqr (BitVec.eq_of_toNat_eq h.symm), if_neg fun h => hqr h.1]

/-- R192: UNIFORM_SPLIT needs a use that writes a uniform or an affine register. -/
theorem View.uniformFault_eq_none {v : View} {us : List Use} (h : ∀ u ∈ us, (∀ r, u ≠ .ds r) ∧ ∀ r, u ≠ .da r) :
    v.uniformFault us = none := by
  have hany : us.any (fun u => u.uniform) = false := by
    refine List.any_eq_false.2 fun u hu => ?_
    obtain ⟨hds, hda⟩ := h u hu
    cases u with
    | ds r => exact absurd rfl (hds r)
    | da r => exact absurd rfl (hda r)
    | _ => exact Bool.false_ne_true
  rw [View.uniformFault, hany, Bool.and_false]
  rfl

/-- Settles O49: p7 by the test that reads and writes make, the other registers by their file, which a starting pack has empty. -/
theorem predicateRegisters : Obligations.PredicateRegisters :=
  ⟨fun _ => rfl, fun _ _ _ => rfl, fun v _ q m x _ hr hL => v.getLsbD_rp_apply q m x hr hL, fun _ _ _ _ hr => View.rp_of_ne hr,
    fun _ _ => View.uniformFault_eq_none⟩

end Sys2Proof.Machine
end

section
/-! Affine results (R182-R184, R232): O18. -/

namespace Sys2Proof.Machine

/-- The exact value does not fit a signed range of the result's width. -/
def Overflows (w64 : Bool) (x : Int) : Prop := x < -(2 ^ (if w64 then 63 else 31) : Int) ∨ (2 ^ (if w64 then 63 else 31) : Int) ≤ x

/-- The lowest lane of a mask whose exact value does not fit, as `View.affine` finds it. -/
def lowestOut (w64 : Bool) (m : Mask) (exact : Nat → Int) : Option Nat :=
  (lanesOf m).find? (fun L => decide (exact L < -(2 ^ ((if w64 then 64 else 32) - 1) : Nat)) ||
    decide ((2 ^ ((if w64 then 64 else 32) - 1) : Nat) ≤ exact L))

section
variable {v : View} {c : Ctl} {m : Mask} {w64 t : Bool} {d : AReg} {base stride : Int} {exact : Nat → Int} {L : Nat}

theorem lowestOut_test {x : Int} : (decide (x < -(2 ^ ((if w64 then 64 else 32) - 1) : Nat)) ||
    decide ((2 ^ ((if w64 then 64 else 32) - 1) : Nat) ≤ x)) = true ↔ Overflows w64 x := by
  cases w64 <;> simp [Overflows]

theorem lowestOut_eq_none : lowestOut w64 m exact = none ↔ laneFits w64 m exact := by
  simp only [lowestOut, List.find?_eq_none, lowestOut_test, lanesOf, List.mem_filter, laneFits, Overflows, not_or, not_lt, not_le]
  exact ⟨fun h L hL hm => h L ⟨List.mem_range.2 hL, hm⟩, fun h L ⟨hL, hm⟩ => h L (List.mem_range.1 hL) hm⟩

theorem lowestOut_eq_some (hL : L < 96) (hm : m.getLsbD L = true) (hout : Overflows w64 (exact L))
    (hlow : ∀ K, K < L → m.getLsbD K = true → ¬ Overflows w64 (exact K)) : lowestOut w64 m exact = some L := by
  rw [lowestOut, lanesOf, List.find?_filter]
  refine List.find?_range_eq_some.2 ⟨?_, List.mem_range.2 hL, fun K hK => ?_⟩
  · exact decide_eq_true ⟨hm, lowestOut_test.2 hout⟩
  · rw [Bool.not_eq_true', decide_eq_false_iff_not]
    exact fun ⟨hmK, hout⟩ => hlow K hK hmK (lowestOut_test.1 hout)

/-- The stride of a 64-bit result is out of range, as `View.affine` tests it. -/
theorem strideOut_iff : (w64 && (decide (stride < -(2 ^ 31 : Nat)) || decide ((2 ^ 31 : Nat) ≤ stride))) = false ↔ strideFits w64 stride := by
  cases w64 <;> simp [strideFits]

/-- R183, R184: what storing an affine result comes to, by its stride and the lowest lane out of range. -/
theorem View.affine_eq : v.affine c m w64 t d base stride exact =
    if (w64 && (decide (stride < -(2 ^ 31 : Nat)) || decide ((2 ^ 31 : Nat) ≤ stride))) || (t && (lowestOut w64 m exact).isSome) then
      .fault (v.faultRec fcAffineOverflow 0 0 0 0 ((lowestOut w64 m exact).getD 127) 0)
    else .done ((if (lowestOut w64 m exact).isSome then v.setAov else v).putA c d
      ⟨BitVec.ofNat 64 (wrapN (if w64 then 64 else 32) base), BitVec.ofNat 32 (wrapN 32 stride), w64⟩) := rfl

/-- An instruction whose own part stores an affine result gives the outcome of R184. -/
theorem affineResult_of_answer {s : State} {o : Host.Outcome State Fault Refusal}
    (ho : o = .next (v.answer c (v.affine c m w64 t d base stride exact) s)) : AffineResult v c m w64 t d base stride exact o := by
  rw [View.affine_eq] at ho
  subst ho
  refine ⟨fun hs hl => ?_, fun hs hl ht => ?_, fun hts L hL hm hout hlow => ?_, fun hs hl => ?_⟩
  · rw [strideOut_iff.2 hs, lowestOut_eq_none.2 hl, Option.isSome_none, Bool.and_false]
    rfl
  · obtain ⟨L, hL⟩ := Option.ne_none_iff_exists'.1 (mt lowestOut_eq_none.1 hl)
    rw [strideOut_iff.2 hs, hL, ht]
    rfl
  · have hlowest := lowestOut_eq_some hL hm hout fun K hK hmK => by
      have := hlow K hK hmK
      unfold Overflows
      omega
    rw [hlowest, if_pos]
    · rfl
    · rcases hts with rfl | hs
      · simp
      · rw [Bool.of_not_eq_false (mt strideOut_iff.1 hs), Bool.true_or]
  · rw [lowestOut_eq_none.2 hl, Bool.of_not_eq_false (mt strideOut_iff.1 hs)]
    rfl

end

/-- R183, R232: ASHLS multiplies by a power of two. -/
theorem exec_ashls_of_issues {c : Ctl} {w64 t : Bool} {d a : AReg} {y : USrc} {s : State} {v : View} {m : Mask}
    (hi : IssuesW c ([.da d, .a 1 a] ++ useU 2 y) false s v m) : exec (.ashls c w64 t d a y) s =
      .next (v.answer c (v.affine c m w64 t d ((v.ra a).base * 2 ^ (v.ua y % 64).toNat) ((v.ra a).st.toInt * 2 ^ (v.ua y % 64).toNat)
        (fun L => (v.ra a).sval L * 2 ^ (v.ua y % 64).toNat)) s) := by
  change execAshls c w64 t d a y s = _
  refine next_of_issue hi rfl ?_
  simp only [Nat.cast_pow, Nat.cast_ofNat]

/-- Settles O18: each stores an affine result, and R184 says what that comes to (`affineResult_of_answer`). -/
theorem affine : Obligations.Affine := fun c w64 t d a b s _ _ =>
  ⟨fun hi base stride => affineResult_of_answer (next_of_issue hi rfl rfl : execAmovi c w64 t d base stride s = _),
    fun hi => ⟨affineResult_of_answer (next_of_issue hi rfl rfl : execAadd c w64 t d a b s = _),
      affineResult_of_answer (next_of_issue hi rfl rfl : execAsub c w64 t d a b s = _)⟩,
    fun y hi => ⟨affineResult_of_answer (next_of_issue hi rfl rfl : execAadds c false w64 t d a y s = _),
      affineResult_of_answer (next_of_issue hi rfl rfl : execAadds c true w64 t d a y s = _),
      affineResult_of_answer (next_of_issue hi rfl rfl : execAmuls c w64 t d a y s = _), affineResult_of_answer (exec_ashls_of_issues hi)⟩,
    fun r y hi => affineResult_of_answer (next_of_issue hi rfl rfl : execPsa c w64 t d r y s = _)⟩

end Sys2Proof.Machine
end

section
/-! Moves between the shapes of registers, votes and reductions (R194-R200): O19 and O20. -/

namespace Sys2Proof.Machine

/-- Settles O19: each is its own part. -/
theorem promotions : Obligations.Promotions := fun c s _ _ =>
  ⟨fun t d a hi => (next_of_issue hi rfl rfl : execPsv c t d a s = _), fun t d a hi => (next_of_issue hi rfl rfl : execPav c t d a s = _),
    fun t d a i hi => (next_of_issueWide hi rfl rfl : execVpick c t d a i s = _),
    fun n d a hi => ⟨(next_of_issue hi rfl rfl : execAgetb c n d a s = _), (next_of_issue hi rfl rfl : execAgets c false d a s = _),
      (next_of_issue hi rfl rfl : execAgets c true d a s = _)⟩⟩

section
variable {c : Ctl} {s : State} {v : View} {m : Mask} {a : PReg}

/-- R198: VBALLOT of one beat. -/
theorem exec_vballot_of_beat {d : SReg} {beat : BitVec 2} (hb : beat ≠ 3) (hi : IssuesW c [.ds d, .p 1 a] true s v m) :
    exec (.vballot c beat d a) s = .next ((v.putS c d ((beatWord (v.rp a &&& m) beat.toNat).setWidth 64) latX).after c (v.succ c)) :=
  (next_of_issueWide hi (if_neg hb) rfl : execVballot c beat d a s = _)

/-- The part of VBALLOT.ALL (R198): the words of registers that are no mask words, each at its latency, and the mask words together. -/
def View.ballotAll (v : View) (c : Ctl) (d : SReg) (m : Mask) : View :=
  let ws := [(d, beatWord m 0), (d + 1, beatWord m 1), (d + 2, beatWord m 2)]
  let mk := ws.filterMap (fun (r, x) => if maskWord v.svc r then some (r.toNat - 60, x) else none)
  let w := (ws.filter (fun (r, _) => !maskWord v.svc r)).foldl (fun w (r, x) => w.ws r (x.setWidth 64) latX) v
  (if mk.isEmpty then w else w.wmask mk latX).tokenFor c latX

theorem exec_vballot_all {d : SReg} (hi : IssuesW c [.ds d, .ds (d + 1), .ds (d + 2), .p 1 a] true s v m) :
    exec (.vballot c 3 d a) s = .next ((v.ballotAll c d (v.rp a &&& m)).after c (v.succ c)) :=
  (next_of_issueWide hi (if_pos rfl) rfl : execVballot c 3 d a s = _)

theorem maskWord_of_lt {svc : Bool} {r : SReg} (h : r.toNat < 60) : maskWord svc r = false := by
  simp [maskWord, h]

theorem View.ballotAll_of_lt {d : SReg} (h : d.toNat + 2 < 60) : v.ballotAll c d m =
    (((v.ws d ((beatWord m 0).setWidth 64) latX).ws (d + 1) ((beatWord m 1).setWidth 64) latX).ws (d + 2)
      ((beatWord m 2).setWidth 64) latX).tokenFor c latX := by
  have h0 : maskWord v.svc d = false := maskWord_of_lt (by omega)
  have h1 : maskWord v.svc (d + 1) = false := maskWord_of_lt (by rw [BitVec.toNat_add]; simp; omega)
  have h2 : maskWord v.svc (d + 2) = false := maskWord_of_lt (by rw [BitVec.toNat_add]; simp; omega)
  simp only [View.ballotAll, List.filterMap_cons, List.filterMap_nil, List.filter_cons, List.filter_nil, h0, h1, h2, Bool.not_false, if_true,
    Bool.false_eq_true, if_false, List.isEmpty_nil, List.foldl_cons, List.foldl_nil]

theorem View.ballotAll_of_masks (h : v.svc = false) :
    v.ballotAll c 60 m = (v.wmask [(0, beatWord m 0), (1, beatWord m 1), (2, beatWord m 2)] latX).tokenFor c latX := by
  rw [View.ballotAll, h]
  rfl

/-- R199: an integer reduction. -/
theorem reduce_of_int {int : List Int → Int} {flt : W64 → W64 → FR} {t : PType} {d : SReg} {a : VSrc} (ht : t ≠ .f32)
    (hi : IssuesW c [.ds d, useV 1 (pt64 t) a] true s v m) : reduce int flt c t d a s = .next (((v.lastUse (pt64 t) a m).putS c d
      (BitVec.ofInt 64 (int ((v.actEls (pt64 t) a m).map (itRead (ptInt t))))) latX).after c (v.succ c)) := by
  rw [reduce, issueWide_of_issues _ hi]
  cases t with
  | f32 => exact absurd rfl ht
  | _ => rfl

/-- R199: a float reduction. -/
theorem reduce_of_float {int : List Int → Int} {flt : W64 → W64 → FR} {d : SReg} {a : VSrc}
    (hi : IssuesW c [.ds d, useV 1 false a] true s v m) : reduce int flt c .f32 d a s =
      .next ((((v.lastUse false a m).orFpf (foldF flt (v.actEls false a m)).fl).putS c d
        (foldF flt (v.actEls false a m)).val latX).after c (v.succ c)) := next_of_issueWide hi rfl rfl

end

/-- Settles O20: VBALLOT by its beat, and where its three words go; the reductions by their type. -/
theorem votesAndReductions : Obligations.VotesAndReductions := by
  intro c s v m
  refine ⟨fun _ _ _ => exec_vballot_of_beat, fun d a hd hi => ?_, fun a hsvc hi => ?_,
    fun d a hi => ⟨(next_of_issueWide hi rfl rfl : execVany c d a s = _), (next_of_issueWide hi rfl rfl : execVall c d a s = _)⟩,
    fun _ _ _ ht hi => ⟨reduce_of_int ht hi, reduce_of_int ht hi, reduce_of_int ht hi⟩, fun d a hi => ?_⟩
  · rw [exec_vballot_all hi, View.ballotAll_of_lt hd]
  · rw [exec_vballot_all hi, View.ballotAll_of_masks hsvc]
  · simp only [List.forall_mem_cons]
    exact ⟨(reduce_of_float hi : execVredadd c .f32 d a s = _), (reduce_of_float hi : execVredmin c .f32 d a s = _),
      (reduce_of_float hi : execVredmax c .f32 d a s = _), nofun⟩

end Sys2Proof.Machine
end

section
/-! Special registers (R190, R191, R317, R359, R369) and the register window (R315, R316): their part of O50. -/

namespace Sys2Proof.Machine

/-! ### What a write changes of a special register -/

/-- A written bit is taken over, a cleared bit is cleared by 1, any other is kept. -/
theorem getLsbD_swrVal (n : Nat) (old x : W64) {b : Nat} (hb : b < 64) : (swrVal n old x).getLsbD b =
    if (swrMasks n).2.getLsbD b then x.getLsbD b else old.getLsbD b && !((swrMasks n).1.getLsbD b && x.getLsbD b) := by
  simp only [swrVal, BitVec.getLsbD_or, BitVec.getLsbD_and, BitVec.getLsbD_not, hb, decide_true, Bool.true_and]
  cases (swrMasks n).2.getLsbD b <;> simp

/-- R190: the bits that a write clears and those that it sets, by the register's number. -/
theorem swrMasks_eq (n : Nat) : swrMasks n =
    if n = 0x001 then (0x3FF#64, 0x10000#64) else if n = 0x002 then (1#64, 0#64) else if 3 ≤ n ∧ n ≤ 5 then (0xFFFFFFFF#64, 0#64)
    else if n = 0x011 ∨ n = 0x012 then (0#64, 0xFFF#64) else if 0x018 ≤ n ∧ n < 0x020 then (0#64, BitVec.allOnes 64)
    else if 0x020 ≤ n ∧ n < 0x028 then (0#64, 0x800FFFFFFFFFFFFF#64) else (0#64, 0#64) := by
  simp only [swrMasks, Bool.and_eq_true, Bool.or_eq_true, decide_eq_true_eq]
  rfl

/-- R207: FPF. -/
theorem getLsbD_swrVal_fpf (old x : W64) {b : Nat} (hb : b < 64) : (swrVal 0x001 old x).getLsbD b =
    (if b < 10 then old.getLsbD b && !x.getLsbD b else if b = 16 then x.getLsbD b else old.getLsbD b) := by
  have hset : ∀ b, b < 64 → (0x10000#64).getLsbD b = decide (b = 16) := by decide
  have hclear : ∀ b, b < 64 → (0x3FF#64).getLsbD b = decide (b < 10) := by decide
  rw [getLsbD_swrVal _ _ _ hb, show swrMasks 0x001 = (0x3FF#64, 0x10000#64) from rfl, hset b hb, hclear b hb]
  by_cases h : b < 10
  · simp [h, show b ≠ 16 by omega]
  · by_cases h' : b = 16 <;> simp [h, h']

/-- R191: AFL. -/
theorem getLsbD_swrVal_afl (old x : W64) {b : Nat} (hb : b < 64) : (swrVal 0x002 old x).getLsbD b =
    (if b = 0 then old.getLsbD b && !x.getLsbD b else old.getLsbD b) := by
  have hclear : ∀ b, b < 64 → (1#64).getLsbD b = decide (b = 0) := by decide
  rw [getLsbD_swrVal _ _ _ hb, show swrMasks 0x002 = (1#64, 0#64) from rfl, hclear b hb]
  by_cases h : b = 0 <;> simp [h]

/-- R44: LEX0-LEX2. -/
theorem getLsbD_swrVal_lex {n : Nat} (old x : W64) {b : Nat} (hb : b < 64) (h3 : 3 ≤ n) (h5 : n ≤ 5) : (swrVal n old x).getLsbD b =
    (if b < 32 then old.getLsbD b && !x.getLsbD b else old.getLsbD b) := by
  have hclear : ∀ b, b < 64 → (0xFFFFFFFF#64).getLsbD b = decide (b < 32) := by decide
  have hmasks : swrMasks n = (0xFFFFFFFF#64, 0#64) := by
    rw [swrMasks_eq, if_neg (by omega), if_neg (by omega), if_pos ⟨h3, h5⟩]
  rw [getLsbD_swrVal _ _ _ hb, hmasks, hclear b hb]
  by_cases h : b < 32 <;> simp [h]

/-- R191: VIEWV and VIEWC. -/
theorem getLsbD_swrVal_view {n : Nat} (old x : W64) {b : Nat} (hb : b < 64) (hn : n = 0x011 ∨ n = 0x012) : (swrVal n old x).getLsbD b =
    (if b < 12 then x.getLsbD b else old.getLsbD b) := by
  have hset : ∀ b, b < 64 → (0xFFF#64).getLsbD b = decide (b < 12) := by decide
  have hmasks : swrMasks n = (0#64, 0xFFF#64) := by
    rw [swrMasks_eq, if_neg (by omega), if_neg (by omega), if_neg (by omega), if_pos hn]
  rw [getLsbD_swrVal _ _ _ hb, hmasks, hset b hb]
  by_cases h : b < 12 <;> simp [h]

/-- R92: RGN. -/
theorem getLsbD_swrVal_rgn {n : Nat} (old x : W64) {b : Nat} (hb : b < 64) (hlo : 0x018 ≤ n) (hhi : n < 0x020) :
    (swrVal n old x).getLsbD b = x.getLsbD b := by
  have hmasks : swrMasks n = (0#64, BitVec.allOnes 64) := by
    rw [swrMasks_eq, if_neg (by omega), if_neg (by omega), if_neg (by omega), if_neg (by omega), if_pos ⟨hlo, hhi⟩]
  rw [getLsbD_swrVal _ _ _ hb, hmasks]
  exact if_pos ((BitVec.getLsbD_allOnes ..).trans (decide_eq_true hb))

/-- R175: MQCH. -/
theorem getLsbD_swrVal_mqch {n : Nat} (old x : W64) {b : Nat} (hb : b < 64) (hlo : 0x020 ≤ n) (hhi : n < 0x028) :
    (swrVal n old x).getLsbD b = (if b < 52 ∨ b = 63 then x.getLsbD b else old.getLsbD b) := by
  have hset : ∀ b, b < 64 → (0x800FFFFFFFFFFFFF#64).getLsbD b = decide (b < 52 ∨ b = 63) := by decide
  have hmasks : swrMasks n = (0#64, 0x800FFFFFFFFFFFFF#64) := by
    rw [swrMasks_eq, if_neg (by omega), if_neg (by omega), if_neg (by omega), if_neg (by omega), if_neg (by omega), if_pos ⟨hlo, hhi⟩]
  rw [getLsbD_swrVal _ _ _ hb, hmasks, hset b hb]
  by_cases h : b < 52 ∨ b = 63 <;> simp [h]

/-- R190: the other registers ignore writes. -/
theorem swrVal_of_ignored {n : Nat} (old x : W64)
    (hn : n = 0x000 ∨ 0x006 ≤ n ∧ n ≤ 0x010 ∨ 0x013 ≤ n ∧ n ≤ 0x017 ∨ 0x028 ≤ n) : swrVal n old x = old := by
  have hmasks : swrMasks n = (0#64, 0#64) := by
    rw [swrMasks_eq, if_neg (by omega), if_neg (by omega), if_neg (by omega), if_neg (by omega), if_neg (by omega), if_neg (by omega)]
  refine BitVec.eq_of_getLsbD_eq fun b hb => ?_
  rw [getLsbD_swrVal _ _ _ hb, hmasks]
  simp

/-- R175: writing MQCHn empties CREDITn. -/
theorem Pack.swr_eq (p : Pack) (n : Nat) (x : W64) : p.swr n x = if 0x020 ≤ n ∧ n < 0x028 then
    (p.setSpecial n (swrVal n (p.special n) x)).setCredit (n - 0x020) 0 else p.setSpecial n (swrVal n (p.special n) x) := by
  simp only [Pack.swr, Bool.and_eq_true, decide_eq_true_eq]
  rfl

section
variable {c : Ctl} {s : State} {v : View} {m : Mask} {d a b : SReg} {n : W32} {r : USrc}

/-- R208, R317: SWR, with no flag of the split still to be recorded where it names a register of flags. -/
theorem exec_swr_of_issues (hi : IssuesW c [.s 1 a] false s v m) (hf : 1 ≤ n.toNat → n.toNat ≤ 5 → v.flagsComing = false) :
    exec (.swr c n a) s = .next ((({ v with pk := v.pk.swr n.toNat (v.rs a) } : View).tokenFor c 1).after c (v.succ c)) := by
  have hgo : ¬ (1 ≤ n.toNat && n.toNat ≤ 5 && v.flagsComing) = true := by
    simp only [Bool.and_eq_true, decide_eq_true_eq]
    rintro ⟨⟨h1, h5⟩, hc⟩
    simp [hf h1 h5] at hc
  exact (next_of_issue hi rfl (congrArg (v.answer c · s) (if_neg hgo)) : execSwr c n a s = _)

/-! ### The register window -/

/-- R315: no more rows than the window has. -/
theorem exec_reggrow_of_held (hi : IssuesW c ([.ds d] ++ useU 1 r) false s v m) (h : v.rowsOf r ≤ v.pk.size) :
    exec (.reggrow c d r) s = .next ((v.landS c d (BitVec.ofNat 64 v.pk.size)).placed s) :=
  (next_of_issue hi rfl (congrArg (v.answer c · s) (if_pos h)) : execReggrow c d r s = _)

/-- R315: more rows than the core has. -/
theorem exec_reggrow_of_denied (hi : IssuesW c ([.ds d] ++ useU 1 r) false s v m) (h : v.pk.size < v.rowsOf r) (hmax : 2730 < v.rowsOf r) :
    exec (.reggrow c d r) s = .next (v.raise (v.faultRec fcRegGrowDenied 0 0 0 0 127 0)) :=
  (next_of_issue hi rfl (congrArg (v.answer c · s) ((if_neg (Nat.not_le.2 h)).trans (if_pos hmax))) : execReggrow c d r s = _)

/-- A token leaves the core, the slot and the entry of a view as they are. -/
theorem View.tokenV_place (v : View) (c : Ctl) : (v.tokenV c).1.co = v.co ∧ (v.tokenV c).1.slot = v.slot ∧ (v.tokenV c).1.ix = v.ix := by
  unfold View.tokenV
  split <;> exact ⟨rfl, rfl, rfl⟩

/-- R315: a request that can be met joins the core's queue, and its split parks. -/
theorem exec_reggrow_of_queued (hi : IssuesW c ([.ds d] ++ useU 1 r) false s v m) (h : v.pk.size < v.rowsOf r) (hmax : v.rowsOf r ≤ 2730) :
    exec (.reggrow c d r) s =
      .next (({ (v.tokenV c).1 with co := { v.co with grow := v.co.grow ++ [⟨v.slot, v.ix, v.rowsOf r, v.co.cycle⟩] } } : View).park c
        (.reggrow (v.rowsOf r) d (v.tokenV c).2)) := by
  obtain ⟨hco, hslot, hix⟩ := v.tokenV_place c
  change execReggrow c d r s = _
  refine next_of_issue hi rfl ?_
  dsimp only
  rw [if_neg (Nat.not_le.2 h), if_neg (show ¬ spaceRows < v.rowsOf r from Nat.not_lt.2 hmax), hco, hslot, hix]
  rfl

/-- R316: as many rows as the window has, or more. -/
theorem exec_regshrink_of_held (hi : IssuesW c (useU 1 r) false s v m) (h : v.pk.size ≤ max 1 (v.rowsOf r)) :
    exec (.regshrink c r) s = .next ((v.tokenFor c 1).after c (v.succ c)) :=
  (next_of_issue hi rfl (congrArg (v.answer c · s) (if_pos h)) : execRegshrink c r s = _)

/-- R316: the rows at the top are freed once nothing has still to write one. -/
theorem exec_regshrink_of_quiet (hi : IssuesW c (useU 1 r) false s v m) (h : max 1 (v.rowsOf r) < v.pk.size)
    (hq : (v.dropHigh (max 1 (v.rowsOf r))).highWrites (max 1 (v.rowsOf r)) = false) :
    let n := max 1 (v.rowsOf r)
    let w := v.dropHigh n
    exec (.regshrink c r) s = .next ((({ w with
      pk := { w.pk with size := n, rows := keep (fun k => decide (k < n)) w.pk.rows, bad := keep (fun k => decide (k < n)) w.pk.bad }
      co := { w.co with freed := w.now } } : View).tokenFor c 1).after c (v.succ c)) := by
  have hgo : ¬ (v.dropHigh (max 1 (v.rowsOf r))).highWrites (max 1 (v.rowsOf r)) = true := by
    simp [hq]
  exact (next_of_issue hi rfl (congrArg (v.answer c · s) ((if_neg (Nat.not_le.2 h)).trans (if_neg hgo))) : execRegshrink c r s = _)

end

end Sys2Proof.Machine
end

section
/-! QPOST (R291) by the queue that its handle names and the packet it reads, and O50. -/

namespace Sys2Proof.Machine

/-- QPOST once its packet `bs` has been read (R291). -/
def View.post (y : View) (c : Ctl) (d b : SReg) (bs : List Byte) : Res :=
  match y.deviceQueue (y.rs b) with
  | .none => y.landS c d 2
  | .busy t => .hold (y.reopen t)
  | .ok f q qd =>
    if recNum bs 0 1 ≠ 1 then y.landS c d 3
    else if 2 ^ qd.log2n ≤ qd.held then y.landS c d 1
    else
      match y.close.postPacket y.ag f q qd bs y.pk.launch with
      | .busy s => .hold (y.reopen s)
      | .fault _ => y.landS c d 2
      | .ok s => (y.reopen s).landS c d 0

section
variable {c : Ctl} {d a b : SReg} {s t u : State} {v w y : View} {m : Mask} {g : LaneAddr} {gs : List LaneAddr} {bs : List Byte} {f q : Nat}
  {qd : QDescr}

/-- R103, R291: an aligned packet that can be read, with the pack's earlier writes released. -/
theorem exec_qpost_of_read (hi : IssuesW c [.ds d, .s 1 a, .s 2 b] false s v m) (hal : (v.rs a).toNat % 64 = 0)
    (hwait : (v.translate kRead false 1 [(127, (v.rs a).toNat)]).waiting = false)
    (hfault : v.laneFault kRead true (v.translate kRead false 1 [(127, (v.rs a).toNat)]).bad = none)
    (hgood : (v.translate kRead false 1 [(127, (v.rs a).toNat)]).good = g :: gs)
    (hhost : isHost g.pa = true → (v.translate kRead false 1 [(127, (v.rs a).toNat)]).v.pk.hostw = 0)
    (hrel : (v.translate kRead false 1 [(127, (v.rs a).toNat)]).v.release .device true = .go w)
    (hread : w.readPacket g (v.rs a).toNat = .ok (bs, t)) :
    exec (.qpost c d a b) s = .next (v.answer c ((w.reopen t).post c d b bs) s) := by
  have hgo : ¬ (isHost g.pa && decide ((v.translate kRead false 1 [(127, (v.rs a).toNat)]).v.pk.hostw ≠ 0)) = true := by
    simpa using hhost
  change execQpost c d a b s = _
  rw [execQpost, issue_of_issues _ hi]
  dsimp only
  rw [if_neg (not_not.2 hal), hwait, hfault, hgood]
  dsimp only
  rw [if_neg hgo, hrel]
  dsimp only
  rw [hread]
  rfl

theorem View.post_of_none (h : y.deviceQueue (y.rs b) = .none) : y.post c d b bs = y.landS c d 2 := by
  rw [View.post, h]

section
variable (h : y.deviceQueue (y.rs b) = .ok f q qd)
include h

/-- R291: a packet of another kind than LAUNCH. -/
theorem View.post_of_kind (hk : recNum bs 0 1 ≠ 1) : y.post c d b bs = y.landS c d 3 := by
  simp only [View.post, h, if_pos hk]

/-- R291: a full ring. -/
theorem View.post_of_full (hk : recNum bs 0 1 = 1) (hfull : 2 ^ qd.log2n ≤ qd.held) : y.post c d b bs = y.landS c d 1 := by
  simp only [View.post, h, if_neg (not_not.2 hk), if_pos hfull]

theorem View.post_of_room (hk : recNum bs 0 1 = 1) (hroom : qd.held < 2 ^ qd.log2n)
    (hu : y.close.postPacket y.ag f q qd bs y.pk.launch = .ok u) : y.post c d b bs = (y.reopen u).landS c d 0 := by
  simp only [View.post, h, if_neg (not_not.2 hk), if_neg (Nat.not_le.2 hroom), hu]

end

end

/-- Settles O50: each write by the bits that its register's access lets change, REGGROW and REGSHRINK by the rows they name, QPOST by the
queue it names and the packet it reads. That SWRP clears bits 1:0 of EVEC is the model's choice (entry 15 of the assumption log). -/
theorem specialRegisters : Obligations.SpecialRegisters := by
  intro c s v m
  refine ⟨fun d n hi => (next_of_issue hi rfl rfl : execSrd c d n s = _), fun a _ hi => ⟨exec_swr_of_issues hi,
      (next_of_issue hi rfl rfl : execSwrp c 0x100 a s = _), (next_of_issue hi rfl rfl : execSwrp c 0x101 a s = _),
      (next_of_issue hi rfl rfl : execSwrp c 0x105 a s = _), (next_of_issue hi rfl rfl : execSwrp c 0 a s = _)⟩, v.pk.swr_eq,
    fun old x b hb => ⟨getLsbD_swrVal_fpf old x hb, getLsbD_swrVal_afl old x hb, fun _ => getLsbD_swrVal_lex old x hb,
      fun _ => getLsbD_swrVal_view old x hb, fun _ => getLsbD_swrVal_rgn old x hb, fun _ => getLsbD_swrVal_mqch old x hb,
      fun _ => swrVal_of_ignored old x⟩,
    fun _ _ hi => ⟨exec_reggrow_of_held hi, exec_reggrow_of_denied hi, exec_reggrow_of_queued hi⟩,
    fun _ hi => ⟨exec_regshrink_of_held hi, exec_regshrink_of_quiet hi⟩, ?_, fun d a b g pa hi => exec_qpost_of_ready c d a b s v m hi g pa⟩
  intro d a b g gs w bs t hi x hal hwait hfault hgood hhost hrel hread y
  have hexec := exec_qpost_of_read hi hal hwait hfault hgood hhost hrel hread
  refine ⟨fun h => ?_, fun f q qd h => ⟨fun hk => ?_, fun hk hfull => ?_, fun u hk hroom hu => ?_⟩⟩
  · rw [hexec, View.post_of_none h]
    rfl
  · rw [hexec, View.post_of_kind h hk]
    rfl
  · rw [hexec, View.post_of_full h hk hfull]
    rfl
  · rw [hexec, View.post_of_room h hk hroom hu]
    rfl

end Sys2Proof.Machine
end

section
/-! Legal masks (R180, R296): a split's mask holds a lane, and only lanes of its owned set. First what the operations on packs keep of the
masks of splits and deferred paths, and how those that change masks keep them legal. -/

namespace Sys2Proof.Machine

/-! ### A mask within its owned set -/

/-- A mask holds a lane, and only lanes of the owned set. -/
def LegalMask (owned mask : Mask) : Prop := mask ≠ 0 ∧ mask &&& ~~~owned = 0

/-- No lane lies outside the owned set, lane by lane. -/
theorem within_iff {owned mask : Mask} : mask &&& ~~~owned = 0 ↔ ∀ L, mask.getLsbD L = true → owned.getLsbD L = true := by
  constructor
  · intro h L hm
    have hL : L < 96 := BitVec.lt_of_getLsbD hm
    have hbit := congrArg (fun x : Mask => x.getLsbD L) h
    simpa [hm, hL] using hbit
  · intro h
    refine BitVec.eq_of_getLsbD_eq fun L hL => ?_
    have hLm := h L
    cases hm : mask.getLsbD L <;> simp_all

namespace LegalMask

variable {owned mask owned' mask' m : Mask}

theorem self (h : m ≠ 0) : LegalMask m m := ⟨h, within_iff.2 fun _ => id⟩

/-- R298: the masks of two splits that merge. -/
theorem union (h : LegalMask owned mask) (k : LegalMask owned' mask') : LegalMask (owned ||| owned') (mask ||| mask') := by
  obtain ⟨hne, hin⟩ := h
  refine ⟨fun hz => hne (BitVec.or_eq_zero_iff.1 hz).1, within_iff.2 fun L hL => ?_⟩
  have hl := within_iff.1 hin L
  have hr := within_iff.1 k.2 L
  rw [BitVec.getLsbD_or, Bool.or_eq_true] at hL ⊢
  exact hL.imp hl hr

/-- R296, R312: lanes leave both sets. -/
theorem remove (h : mask &&& ~~~owned = 0) (hne : mask &&& ~~~m ≠ 0) : LegalMask (owned &&& ~~~m) (mask &&& ~~~m) := by
  refine ⟨hne, within_iff.2 fun L hL => ?_⟩
  rw [BitVec.getLsbD_and, Bool.and_eq_true] at hL ⊢
  exact ⟨within_iff.1 h L hL.1, hL.2⟩

end LegalMask

theorem Split.maskOk_iff {x : Split} : x.maskOk = true ↔ LegalMask x.owned x.mask := by
  simp [Split.maskOk, LegalMask]

/-! ### What decides whether a pack's masks are legal -/

/-- The owned set and the mask of a split. -/
def Split.masks (x : Split) : Mask × Mask := (x.owned, x.mask)

/-- The owned sets and masks of a pack: those of its splits, and its deferred paths. -/
def Pack.masks (p : Pack) : List (Option (Mask × Mask)) × List Deferred := (p.splits.map (Option.map Split.masks), p.deferred)

theorem Split.maskOk_of_masks {x y : Split} (h : x.maskOk = true) (e : y.masks = x.masks) : y.maskOk = true := by
  obtain ⟨howned, hmask⟩ := Prod.mk.inj e
  rw [Split.maskOk, howned, hmask]
  exact h

theorem Pack.masksOk_iff {p : Pack} :
    p.masksOk = true ↔ (∀ x, some x ∈ p.splits → x.maskOk = true) ∧ ∀ d ∈ p.deferred, LegalMask d.owned d.mask := by
  simp only [Pack.masksOk, Bool.and_eq_true, List.all_eq_true, LegalMask, decide_eq_true_eq]
  refine and_congr_left fun _ => ⟨fun h x hx => h _ hx, fun h o ho => ?_⟩
  cases o with
  | none => rfl
  | some x => exact h x ho

/-- Packs with the same masks are legal together. -/
theorem Pack.masksOk_of_masks {p q : Pack} (h : p.masksOk = true) (e : q.masks = p.masks) : q.masksOk = true := by
  obtain ⟨hsplits, hdeferred⟩ := Prod.mk.inj e
  obtain ⟨hp, hd⟩ := Pack.masksOk_iff.1 h
  refine Pack.masksOk_iff.2 ⟨fun x hx => ?_, hdeferred ▸ hd⟩
  have hmem : some x.masks ∈ p.splits.map (Option.map Split.masks) := hsplits ▸ List.mem_map_of_mem (f := Option.map Split.masks) hx
  obtain ⟨o, ho, heq⟩ := List.mem_map.1 hmem
  obtain ⟨y, rfl, hy⟩ := Option.map_eq_some_iff.1 heq
  exact Split.maskOk_of_masks (hp y ho) hy.symm

theorem Pack.mem_splits_of_split {p : Pack} {i : Nat} {x : Split} (h : p.split i = some x) : some x ∈ p.splits := by
  have hlt : i < p.splits.length := Pack.lt_of_split (by simp [h])
  rw [Pack.split, List.getD_eq_getElem _ _ hlt] at h
  exact h ▸ List.getElem_mem hlt

theorem Pack.masksOk_split {p : Pack} {i : Nat} {x : Split} (h : p.masksOk = true) (e : p.split i = some x) : x.maskOk = true :=
  (Pack.masksOk_iff.1 h).1 x (Pack.mem_splits_of_split e)

/-- A legal split, or none, put in an entry. -/
theorem Pack.masksOk_setSplit {p : Pack} {i : Nat} {o : Option Split} (h : p.masksOk = true) (ho : ∀ x, o = some x → x.maskOk = true) :
    (p.setSplit i o).masksOk = true := by
  obtain ⟨hp, hd⟩ := Pack.masksOk_iff.1 h
  refine Pack.masksOk_iff.2 ⟨fun x hx => ?_, hd⟩
  rcases List.mem_or_eq_of_mem_set hx with hold | hnew
  · exact hp x hold
  · exact ho x hnew.symm

/-! ### Operations that keep every mask -/

theorem Split.masks_applyTok (x : Split) (w : FileW) (t : Nat) : (x.applyTok w t).masks = x.masks := by
  cases w <;> rfl

namespace Pack

variable {p q : Pack} {i j t : Nat}

theorem masks_setSplit_congr {o o' : Option Split} (h : q.masks = p.masks) (ho : o.map Split.masks = o'.map Split.masks) :
    (q.setSplit i o).masks = (p.setSplit i o').masks := by
  obtain ⟨hsplits, hdeferred⟩ := Prod.mk.inj h
  simp only [masks, setSplit, List.map_set, hsplits, hdeferred, ho]

/-- The entry of a split takes one with the same masks. -/
theorem masks_setSplit {x y : Split} (hq : q.masks = p.masks) (h : p.split i = some x) (e : y.masks = x.masks) :
    (q.setSplit i (some y)).masks = p.masks := by
  obtain ⟨hsplits, hdeferred⟩ := Prod.mk.inj hq
  have hlt : i < p.splits.length := lt_of_split (by simp [h])
  rw [split, List.getD_eq_getElem _ _ hlt] at h
  have hself : (p.splits.map (Option.map Split.masks)).set i (some x.masks) = p.splits.map (Option.map Split.masks) := by
    rw [show some x.masks = (p.splits.map (Option.map Split.masks))[i]'(by simpa using hlt) by simp [h]]
    exact List.set_getElem_self _
  simp only [masks, setSplit, List.map_set, Option.map_some, e, hsplits, hdeferred, hself]

theorem masks_updSplit {f : Split → Split} (h : ∀ x, (f x).masks = x.masks) : (p.updSplit i f).masks = p.masks := by
  unfold updSplit
  split
  · exact masks_setSplit rfl ‹_› (h _)
  · rfl

theorem masks_mapSplits {f : Split → Split} (h : ∀ x, (f x).masks = x.masks) : (p.mapSplits f).masks = p.masks := by
  have hf : Option.map Split.masks ∘ Option.map f = Option.map Split.masks := by
    funext o
    cases o <;> simp [h]
  simp only [masks, mapSplits, List.map_map, hf]

theorem masks_foldl {α : Type} {f : Pack → α → Pack} {l : List α} (h : ∀ q a, (f q a).masks = q.masks) : (l.foldl f p).masks = p.masks := by
  induction l generalizing p with
  | nil => rfl
  | cons a l ih => exact ih.trans (h p a)

theorem masks_ite {c : Prop} [Decidable c] {r : Pack} (h : q.masks = p.masks) (k : r.masks = p.masks) :
    (if c then q else r).masks = p.masks := by
  split
  · exact h
  · exact k

theorem masksOk_foldl {α : Type} {f : Pack → α → Pack} {l : List α} (hp : p.masksOk = true)
    (h : ∀ q, ∀ a ∈ l, q.masksOk = true → (f q a).masksOk = true) : (l.foldl f p).masksOk = true := by
  induction l generalizing p with
  | nil => exact hp
  | cons a l ih => exact ih (h p a (List.mem_cons_self ..) hp) fun q b hb => h q b (List.mem_cons_of_mem _ hb)

theorem masks_apply (p : Pack) (w : FileW) : (p.apply w).masks = p.masks := by
  cases w with
  | tok => rfl
  | s | a | p => exact masks_ite rfl rfl

theorem masks_bank (p : Pack) (e : WEntry) : (p.bank e).masks = p.masks := masks_ite rfl rfl

theorem masks_bankOver (p : Pack) (e : WEntry) : (p.bankOver e).masks = p.masks := by
  have hsplits := congrArg Prod.fst (masks_mapSplits (p := p) (f := fun y => y.overtakeRow e.seq e.row e.mask) fun _ => rfl)
  have hdeferred : (p.bank e).deferred = p.deferred := congrArg Prod.snd (masks_bank p e)
  exact masks_ite (Prod.ext hsplits hdeferred) rfl

theorem masks_orLex (p : Pack) (m : Mask) : (p.orLex m).masks = p.masks := masks_ite rfl rfl

theorem masks_setHeel (p : Pack) (k : Nat) (h : Option Heel) : (p.setHeel k h).masks = p.masks := rfl

/-- R114, R116: performing the due writes of a split. -/
theorem masks_settleSplit (p : Pack) (i t : Nat) : (p.settleSplit i t).masks = p.masks := by
  unfold settleSplit
  split
  · rfl
  · rename_i x hx
    extract_lets due
    have hp : (due.foldl (fun q w => q.apply w.w) p).masks = p.masks := masks_foldl fun q w => masks_apply q w.w
    have hx' : ∀ (l : List PWrite) (y : Split), (l.foldl (fun (y : Split) w => (y.applyTok w.w w.due).overtake w.seq w.w) y).masks = y.masks := by
      intro l
      induction l with
      | nil => exact fun _ => rfl
      | cons w l ih =>
        exact fun y => (ih _).trans (y.masks_applyTok w.w w.due)
    exact masks_ite rfl (masks_setSplit hp hx (hx' due x))

theorem masks_settle (p : Pack) (t : Nat) : (p.settle t).masks = p.masks := by
  unfold settle
  extract_lets q due
  have hq : q.masks = p.masks := masks_foldl fun r j => masks_settleSplit r j t
  exact masks_ite hq ((masks_foldl masks_bankOver).trans hq)

/-- R118: entries leave a window. -/
theorem masks_leave (p : Pack) (es : List WEntry) (t : Nat) : (p.leave es t).masks = p.masks := masks_foldl (p := p) masks_bankOver

theorem masks_flushAt (p : Pack) (i t : Nat) : (p.flushAt i t).masks = p.masks := by
  unfold flushAt
  split
  · rfl
  · rename_i x hx
    exact (masks_leave ..).trans (masks_setSplit rfl hx rfl)

/-- R303: a split that joined a word goes on after it. -/
theorem masks_follow (p : Pack) (j : Nat) (results : List WEntry) (pc : W64) (t stall : Nat) :
    (p.follow j results pc t stall).masks = p.masks := by
  unfold follow
  split
  · rfl
  · rename_i x hx
    exact (masks_leave ..).trans (masks_setSplit rfl hx rfl)

theorem masks_drainFiles (p : Pack) (i : Nat) : (p.drainFiles i).masks = p.masks := by
  unfold drainFiles
  split
  · rfl
  · rename_i x hx
    exact masks_setSplit (masks_foldl fun q (w : PWrite) => masks_apply q w.w) hx rfl

theorem masks_pendDec (p : Pack) (r : Option Nat) : (p.pendDec r).masks = p.masks := by
  unfold pendDec
  split
  · rfl
  · split <;> rfl

theorem masks_complete (p : Pack) (k t : Nat) : (p.complete k t).masks = p.masks := by
  unfold complete
  split
  · rfl
  · split
    · rfl
    · exact (masks_setHeel ..).trans (masks_updSplit fun _ => rfl)

/-- R300: the records of a split that has ended. -/
theorem masks_vanish (p : Pack) (r : Option Nat) (t fuel : Nat) : (p.vanish r t fuel).masks = p.masks := by
  induction fuel generalizing p r with
  | zero => rfl
  | succ fuel ih =>
    unfold vanish
    split
    · rfl
    · split
      · rfl
      · refine masks_ite rfl ?_
        split
        · exact masks_complete ..
        · exact ih ..

/-! ### Operations that divide, merge and end splits -/

theorem setSplit_setSplit (p : Pack) (i : Nat) (o o' : Option Split) : (p.setSplit i o).setSplit i o' = p.setSplit i o' := by
  simp only [setSplit, List.set_set]

theorem masksOk_setSplit_of_none {o : Option Split} (h : (p.setSplit i none).masksOk = true) (ho : ∀ x, o = some x → x.maskOk = true) :
    (p.setSplit i o).masksOk = true := by
  rw [← setSplit_setSplit p i none o]
  exact masksOk_setSplit h ho

theorem masksOk_setSplit_none (h : p.masksOk = true) : (p.setSplit i none).masksOk = true := 
  masksOk_setSplit h fun _ hx => absurd hx.symm (Option.some_ne_none _)

/-- R296: a new split in an entry. -/
theorem masksOk_place {pc : W64} {owned mask : Mask} {r : Option Nat} (h : (p.setSplit i none).masksOk = true) (hm : LegalMask owned mask) :
    (p.place i t pc owned mask r).masksOk = true := by
  unfold place
  refine masksOk_setSplit_of_none (masksOk_of_masks h rfl) fun x hx => ?_
  cases hx
  exact Split.maskOk_iff.2 hm

/-- R301: whatever stood in the entry, the oldest deferred path takes it. -/
theorem masksOk_freeEntry (h : (p.setSplit i none).masksOk = true) : (p.freeEntry i t).masksOk = true := by
  unfold freeEntry
  split
  · exact masksOk_of_masks h rfl
  · rename_i d ds hd
    obtain ⟨hsplits, hdeferred⟩ := masksOk_iff.1 h
    rw [setSplit_deferred, hd] at hdeferred
    exact masksOk_place (masksOk_iff.2 ⟨hsplits, fun e he => hdeferred e (List.mem_cons_of_mem _ he)⟩) (hdeferred d (List.mem_cons_self ..))

/-- R298, R299: a merge unites owned sets and masks. -/
theorem masksOk_mergeInto (h : p.masksOk = true) : (p.mergeInto i j t).masksOk = true := by
  unfold mergeInto
  extract_lets q
  have hq : q.masksOk = true := masksOk_of_masks h ((masks_flushAt ..).trans (masks_flushAt ..))
  split
  · rename_i x y hx hy
    have hunion := (Split.maskOk_iff.1 (masksOk_split hq hx)).union (Split.maskOk_iff.1 (masksOk_split hq hy))
    refine masksOk_freeEntry (masksOk_setSplit_none (masksOk_setSplit hq fun z hz => ?_))
    cases hz
    exact Split.maskOk_iff.2 hunion
  · exact hq

theorem masksOk_mergeAt {pc : W64} (h : p.masksOk = true) : (p.mergeAt i t pc).masksOk = true := by
  refine masksOk_foldl h fun q k _ hq => ?_
  split
  · split
    · exact masksOk_of_masks (masksOk_mergeInto hq) (masks_pendDec ..)
    · exact hq
  · exact hq

/-- R303. -/
theorem masksOk_reconverge (h : p.masksOk = true) : (p.reconverge i t).masksOk = true := by
  unfold reconverge
  split
  · exact h
  · exact masksOk_of_masks (masksOk_mergeAt h) (masks_updSplit fun _ => rfl)

theorem masksOk_addPath {k : Nat} {x : Path} (h : p.masksOk = true) (hx : LegalMask x.owned x.mask) : (p.addPath k t x).masksOk = true := by
  unfold addPath
  split
  · exact masksOk_place (masksOk_setSplit_none h) hx
  · obtain ⟨hsplits, hdeferred⟩ := masksOk_iff.1 h
    refine masksOk_iff.2 ⟨hsplits, fun d hd => ?_⟩
    rcases List.mem_append.1 hd with hold | hnew
    · exact hdeferred d hold
    · rw [List.mem_singleton.1 hnew]
      exact hx

/-- R296: a split divides into legal paths. -/
theorem masksOk_diverge {heel : W64} {first : Path} {rest : List Path} (h : p.masksOk = true) (hfirst : LegalMask first.owned first.mask)
    (hrest : ∀ x ∈ rest, LegalMask x.owned x.mask) : (p.diverge i t heel first rest).masksOk = true := by
  unfold diverge
  split
  · refine masksOk_foldl ?_ fun q x hx hq => masksOk_addPath hq (hrest x hx)
    unfold updSplit
    split
    · refine masksOk_setSplit (masksOk_of_masks h (masks_setHeel ..)) fun y hy => ?_
      cases hy
      exact Split.maskOk_iff.2 hfirst
    · exact masksOk_of_masks h (masks_setHeel ..)
  · exact h

/-- R312: lanes leave a split that keeps one. -/
theorem masksOk_retire {m : Mask} (h : p.masksOk = true) (hne : ∀ x, (p.retire i m).split i = some x → x.mask ≠ 0) :
    (p.retire i m).masksOk = true := by
  revert hne
  unfold retire updSplit
  split
  · rename_i x hx
    intro hne
    have hmask := hne _ (split_setSplit (lt_of_split (by simp [hx])) _)
    refine masksOk_of_masks (masksOk_setSplit h fun y hy => ?_) rfl
    cases hy
    exact Split.maskOk_iff.2 (.remove (Split.maskOk_iff.1 (masksOk_split h hx)).2 hmask)
  · exact fun _ => masksOk_of_masks h rfl

theorem masks_retire_setSplit_none {m : Mask} : ((p.retire i m).setSplit i none).masks = (p.setSplit i none).masks := by
  unfold retire updSplit
  split
  · simp only [masks, setSplit, List.set_set]
  · rfl

/-- R300: the split of an entry ends, whatever its mask. -/
theorem masksOk_endSplit {x : Split} (hx : p.split i = some x) (h : (p.setSplit i none).masksOk = true) :
    (p.endSplit i t).masksOk = true := by
  unfold endSplit
  split
  · rename_i hn
    cases hn.symm.trans hx
  · refine masksOk_freeEntry (masksOk_of_masks h ?_)
    exact (masks_setSplit_congr ((masks_vanish ..).trans (masks_drainFiles ..)) rfl).trans masks_retire_setSplit_none

theorem masks_endIfEmpty (p : Pack) : p.endIfEmpty.masks = p.masks := masks_ite rfl rfl

end Pack

end Sys2Proof.Machine
end

section
/-! Legal masks across the operations of a view (R180), and across the states that a view is put back to. -/

namespace Sys2Proof.Machine

/-! ### Cores and states -/

/-- Every pack of a core has legal masks. -/
def Core.Legal (k : Core) : Prop := ∀ e ∈ k.packs, e.2.masksOk = true

theorem State.masksOk_iff {s : State} : s.masksOk = true ↔ ∀ e ∈ s.cores, e.2.Legal := by
  simp only [State.masksOk, List.all_eq_true, Core.Legal]

/-- An entry of a table into which a value has been put is that value, or stood there before. -/
theorem eq_or_mem_of_mem_ins {α : Type} {m : SMap α} {i : Nat} {v : α} {e : Nat × α} (h : e ∈ ins m i v) : e.2 = v ∨ e ∈ m := by
  induction m with
  | nil => exact .inl (by rw [List.mem_singleton.1 h])
  | cons x m ih =>
    obtain ⟨k, w⟩ := x
    unfold ins at h
    split at h
    · rcases List.mem_cons.1 h with rfl | hm
      · exact .inl rfl
      · exact .inr hm
    · split at h
      · rcases List.mem_cons.1 h with rfl | hm
        · exact .inl rfl
        · exact .inr (List.mem_cons_of_mem _ hm)
      · rcases List.mem_cons.1 h with rfl | hm
        · exact .inr (List.mem_cons_self ..)
        · exact (ih hm).imp id (List.mem_cons_of_mem _)

theorem mem_of_look {α : Type} {m : SMap α} {i : Nat} {v : α} (h : look m i = some v) : ∃ e ∈ m, e.2 = v := by
  induction m with
  | nil => cases h
  | cons x m ih =>
    obtain ⟨k, w⟩ := x
    unfold look at h
    split at h
    · cases h
      exact ⟨_, List.mem_cons_self .., rfl⟩
    · obtain ⟨e, he, hv⟩ := ih h
      exact ⟨e, List.mem_cons_of_mem _ he, hv⟩

namespace State

variable {s : State} {n : Nat}

theorem legal_core (h : s.masksOk = true) (n : Nat) : (s.core n).Legal := by
  rw [core, get_eq_look]
  cases hk : look s.cores n with
  | none => exact nofun
  | some k =>
    obtain ⟨e, he, rfl⟩ := mem_of_look hk
    exact masksOk_iff.1 h e he

theorem masksOk_setCore {k : Core} (h : s.masksOk = true) (hk : k.Legal) : (s.setCore n k).masksOk = true := by
  refine masksOk_iff.2 fun e he => ?_
  rcases eq_or_mem_of_mem_ins he with rfl | hold
  · exact hk
  · exact masksOk_iff.1 h e hold

theorem masksOk_updCore {f : Core → Core} (h : s.masksOk = true) (hf : ∀ k, k.Legal → (f k).Legal) : (s.updCore n f).masksOk = true :=
  masksOk_setCore h (hf _ (legal_core h n))

theorem masksOk_postEvent {e : SvcEvent} (h : s.masksOk = true) : (s.postEvent n e).masksOk = true := by
  refine masksOk_updCore h fun k hk => ?_
  split
  · exact hk
  · exact hk

/-- R358: the packs of the failed cluster end with the masks they have. -/
theorem masksOk_failService {code : Nat} (h : s.masksOk = true) : (s.failService n code).masksOk = true := by
  unfold failService
  extract_lets endPack ends s₁ s₂ s₃
  have hends : ∀ k : Core, k.Legal → (ends k).Legal := by
    intro k hk e he
    obtain ⟨x, hx, rfl⟩ := List.mem_map.1 he
    exact Pack.masksOk_of_masks (hk x hx) rfl
  have h₂ : s₂.masksOk = true := masksOk_updCore (masksOk_updCore (masksOk_updCore h fun _ hk => hk) hends) hends
  split
  · exact masksOk_postEvent h₂
  · exact h₂

end State

/-! ### Views -/

/-- Every mask that a view holds is legal: those of the state and of the core it was taken from, of its pack and of its split. -/
structure View.Legal (v : View) : Prop where
  outer : v.s.masksOk = true
  core : v.co.Legal
  pack : v.pk.masksOk = true
  own : v.sp.maskOk = true

/-- What an instruction's own part answers holds legal masks only. -/
def Res.Legal : Res → Prop
  | .done v => v.Legal
  | .jump v _ => v.Legal
  | .fault _ => True
  | .trap v _ => v.Legal
  | .wait => True
  | .hold v => v.Legal
  | .state t => t.masksOk = true

namespace View.Legal

variable {v w : View} {s : State}

/-- The view differs in nothing that decides whether its masks are legal. -/
theorem of_same (h : v.Legal) (hs : w.s.cores = v.s.cores) (hco : w.co.packs = v.co.packs) (hpk : w.pk.masks = v.pk.masks)
    (hsp : w.sp.masks = v.sp.masks) : w.Legal := by
  obtain ⟨houter, hcore, hpack, hown⟩ := h
  refine ⟨?_, ?_, Pack.masksOk_of_masks hpack hpk, Split.maskOk_of_masks hown hsp⟩
  · rw [State.masksOk, hs]
    exact houter
  · rw [Core.Legal, hco]
    exact hcore

theorem ite {p : Prop} [Decidable p] (h : v.Legal) (k : w.Legal) : (if p then v else w).Legal := by
  split
  · exact h
  · exact k

theorem foldl {α : Type} {f : View → α → View} {l : List α} (h : v.Legal) (hf : ∀ x a, x.Legal → (f x a).Legal) : (l.foldl f v).Legal := by
  induction l generalizing v with
  | nil => exact h
  | cons a l ih => exact ih (hf v a h)

/-! ### The states that a view is put back to -/

theorem setCore (h : v.Legal) {q : Pack} (hq : q.masksOk = true) :
    (v.s.setCore v.ag { v.co with packs := ins v.co.packs v.slot q }).masksOk = true := by
  refine State.masksOk_setCore h.outer fun e he => ?_
  rcases eq_or_mem_of_mem_ins he with heq | hold
  · rw [heq]
    exact hq
  · exact h.core e hold

/-- The pack with the view's split in its entry. -/
theorem placed (h : v.Legal) : (v.pk.setSplit v.ix (some v.sp)).masksOk = true :=
  Pack.masksOk_setSplit h.pack fun _ hx => by cases hx; exact h.own

theorem close (h : v.Legal) : v.close.masksOk = true := h.setCore h.placed

/-- R358. -/
theorem enter {cause : Nat} {epc fva info : W64} (h : v.Legal) : (v.enter cause epc fva info).masksOk = true := by
  unfold View.enter
  split
  · exact State.masksOk_failService h.close
  · exact close (h.of_same rfl rfl rfl rfl)

theorem raise {f : FaultRec} (h : v.Legal) : (v.raise f).masksOk = true := by
  unfold View.raise
  split
  · split
    · exact h.enter
    · exact h.close
  · split
    · exact close (h.of_same rfl rfl (Pack.masks_orLex ..) rfl)
    · exact close (h.of_same rfl rfl (Pack.masks_orLex ..) rfl)

/-! ### The operand window, the files and the tokens -/

theorem onPack {f : Pack → Pack} (h : v.Legal) (hf : ∀ p, p.masksOk = true → (f p).masksOk = true) : (v.onPack f).Legal := by
  unfold View.onPack
  dsimp only
  have hp := hf _ h.placed
  split
  · exact ⟨h.outer, h.core, hp, Pack.masksOk_split hp ‹_›⟩
  · exact h

/-- An operation that keeps every mask of the pack. -/
theorem onPack_of_masks {f : Pack → Pack} (h : v.Legal) (hf : ∀ p, (f p).masks = p.masks) : (v.onPack f).Legal :=
  h.onPack fun p hp => Pack.masksOk_of_masks hp (hf p)

theorem settle (h : v.Legal) : v.settle.Legal := h.onPack_of_masks fun p => p.masks_settle _

theorem flush (h : v.Legal) : v.flush.Legal := h.onPack_of_masks fun p => p.masks_flushAt _ _

theorem reconverge (h : v.Legal) : v.reconverge.Legal := h.onPack fun _ => Pack.masksOk_reconverge

theorem kill {r : Nat} {m : Mask} (h : v.Legal) : (v.kill r m).Legal := by
  unfold View.kill
  extract_lets w mine
  have hw : w.Legal := h.foldl fun x _ hx => hx.of_same rfl rfl (Pack.masks_updSplit fun _ => rfl) rfl
  exact hw.of_same rfl rfl rfl rfl

theorem lastUse {is64 : Bool} {x : VSrc} {m : Mask} (h : v.Legal) : (v.lastUse is64 x m).Legal := h.ite (h.kill.kill.ite h.kill)

theorem lastO {is64 : Bool} {o : VOpnd} {m : Mask} (h : v.Legal) : (v.lastO is64 o m).Legal := by
  cases o with
  | v x => exact h.lastUse
  | _ => exact h

theorem lastCtr {x : Ctr} {m : Mask} (h : v.Legal) : (v.lastCtr x m).Legal := by
  cases x with
  | w y => exact h.lastUse
  | a _ => exact h

theorem markDead (h : v.Legal) : v.markDead.Legal := h.of_same rfl rfl rfl rfl

theorem queueFile {x : FileW} {lat : Nat} (h : v.Legal) : (v.queueFile x lat).Legal := h.of_same rfl rfl rfl rfl

theorem wp {r : PReg} {m x : Mask} {lat : Nat} (h : v.Legal) : (v.wp r m x lat).Legal := h.ite h.queueFile

theorem wrow1 {row : Nat} {m : Mask} {x : Row} {lat : Nat} (h : v.Legal) : (v.wrow1 row m x lat).Legal := h.of_same rfl rfl rfl rfl

theorem wv {is64 : Bool} {n : VReg} {m : Mask} {f : Nat → W64} {lat : Nat} (h : v.Legal) : (v.wv is64 n m f lat).Legal :=
  h.wrow1.wrow1.ite h.wrow1

theorem orFpf {f : Nat} (h : v.Legal) : (v.orFpf f).Legal := h.of_same rfl rfl rfl rfl

theorem setAov (h : v.Legal) : v.setAov.Legal := h.of_same rfl rfl rfl rfl

theorem tokenFor {c : Ctl} {lat : Nat} (h : v.Legal) : (v.tokenFor c lat).Legal := by
  unfold View.tokenFor
  split
  · exact h.of_same rfl rfl rfl rfl
  · exact h

theorem tokenV {c : Ctl} (h : v.Legal) : (v.tokenV c).1.Legal := by
  unfold View.tokenV
  split
  · exact h.of_same rfl rfl rfl rfl
  · exact h

theorem outV {d : Dest} (h : v.Legal) : (v.outV d).Legal := h.ite (h.of_same rfl rfl rfl rfl)

end View.Legal

/-! ### Mask words (R180) -/

/-- A word ANDed with the owned lanes of its beat adds none but owned lanes. -/
theorem setBeat_within {owned m : Mask} {b : Nat} {y : W32} (h : m &&& ~~~owned = 0) :
    setBeat m b (y &&& beatWord owned b) &&& ~~~owned = 0 := by
  refine within_iff.2 fun L hL => ?_
  rw [getLsbD_setBeat, Bool.and_eq_true] at hL
  obtain ⟨-, hbit⟩ := hL
  split at hbit
  · rename_i hb
    rw [BitVec.getLsbD_and, Bool.and_eq_true, beatWord, BitVec.getLsbD_extractLsb', Bool.and_eq_true,
      Nat.add_sub_cancel' hb.1] at hbit
    exact hbit.2.2
  · exact within_iff.1 h L hbit

/-- R180: mask words keep within the owned set, and a mask that would be empty changes nothing. -/
theorem Split.maskOk_setMask {x : Split} {ws : List (Nat × W32)} (h : x.maskOk = true) : (x.setMask ws).maskOk = true := by
  obtain ⟨hne, hin⟩ := Split.maskOk_iff.1 h
  have hfold : ∀ (l : List (Nat × W32)) (m : Mask), m &&& ~~~x.owned = 0 →
      l.foldl (fun m (b, y) => setBeat m b (y &&& beatWord x.owned b)) m &&& ~~~x.owned = 0 := by
    intro l
    induction l with
    | nil => exact fun _ => id
    | cons e l ih => exact fun m hm => ih _ (setBeat_within hm)
  unfold Split.setMask
  extract_lets m
  split
  · exact h
  · exact Split.maskOk_iff.2 ⟨‹_›, hfold ws x.mask hin⟩

namespace View.Legal

variable {v w : View} {s : State}

theorem wmask {ws : List (Nat × W32)} {lat : Nat} (h : v.Legal) : (v.wmask ws lat).Legal := by
  have hm : (v.sp.setMask ws).maskOk = true := Split.maskOk_setMask h.own
  exact ⟨h.outer, h.core, h.pack, Split.maskOk_of_masks hm rfl⟩

theorem ws {r : SReg} {x : W64} {lat : Nat} (h : v.Legal) : (v.ws r x lat).Legal := h.ite (h.wmask.ite h.queueFile)

theorem putS {c : Ctl} {d : SReg} {x : W64} {lat : Nat} (h : v.Legal) : (v.putS c d x lat).Legal := h.ws.tokenFor

theorem putA {c : Ctl} {d : AReg} {x : Aff} (h : v.Legal) : (v.putA c d x).Legal := View.Legal.tokenFor h.queueFile

theorem putP {c : Ctl} {d : PReg} {m x : Mask} {lat : Nat} (h : v.Legal) : (v.putP c d m x lat).Legal := h.wp.tokenFor

theorem putV {c : Ctl} {is64 : Bool} {d : VReg} {m : Mask} {xs : List W64} {lat : Nat} (h : v.Legal) :
    (v.putV c is64 d m xs lat).Legal := h.wv.tokenFor

theorem affine {c : Ctl} {act : Mask} {wide t : Bool} {d : AReg} {base stride : Int} {exact : Nat → Int} (h : v.Legal) :
    (v.affine c act wide t d base stride exact).Legal := by
  unfold View.affine
  extract_lets w bad badStride x u
  have hu : u.Legal := h.setAov.ite h
  split
  · trivial
  · exact hu.putA

theorem lastHalf {x : Half} {m : Mask} (h : v.Legal) : (v.lastHalf x m).Legal := h.lastUse.ite h.lastUse.lastUse

theorem putHalf {x : Half} {m : Mask} {xs : List FR} (h : v.Legal) : (v.putHalf x m xs).Legal := h.ite h.wv

/-! ### The units (R202, R224, R244) -/

theorem leave {c : Ctl} {d : Dest} {held : Bool} (h : v.Legal) : (v.leave c d held).1.Legal :=
  View.Legal.ite (h.outV.tokenV.of_same rfl rfl rfl rfl) h.outV.tokenV

theorem divide {c : Ctl} {d : Dest} {m : Mask} {lo hi : Row} {sval : W64} {fl : Nat} {lex : Mask} {zero : Option Nat} (h : v.Legal) :
    (v.divide c d m lo hi sval fl lex zero).Legal := (View.Legal.leave h).of_same rfl rfl rfl rfl

theorem special {c : Ctl} {d : VReg} {m : Mask} {rs : List FR} (h : v.Legal) : (v.special c d m rs).Legal :=
  (View.Legal.leave h (c := c) (d := v.destV false d) (held := false)).of_same rfl rfl rfl rfl

/-! ### The end of a word -/

theorem finishKeep {kept : List (Nat × Nat)} {c : Ctl} {pc : W64} (h : v.Legal) : (v.finishKeep kept c pc).Legal := by
  have hpacks : (v.finishKeep kept c pc).co.packs = v.co.packs := by
    rw [View.finishKeep_co]
    rfl
  unfold View.finishKeep at hpacks ⊢
  extract_lets t win js theirs results stays stays' sp w waiting n
  have hw : w.Legal := View.Legal.onPack_of_masks (h.of_same rfl rfl rfl rfl) fun p =>
    (Pack.masks_foldl fun q j => q.masks_follow j _ _ _ _).trans (p.masks_leave ..)
  have hsame : w.co.packs = v.co.packs := by
    simp only [w, View.onPack_co]
  exact hw.of_same rfl (hpacks.trans hsame.symm) rfl rfl

theorem finish {c : Ctl} {pc : W64} (h : v.Legal) : (v.finish c pc).Legal := h.finishKeep

theorem trapAfter {c : Ctl} {pc : W64} {f : FaultRec} (h : v.Legal) : (v.trapAfter c pc f).masksOk = true := by
  unfold View.trapAfter
  dsimp only
  have hw : (v.finish c pc).Legal := h.finish
  split
  · exact hw.enter
  · exact close (hw.of_same rfl rfl (Pack.masks_orLex ..) rfl)

theorem answer {c : Ctl} {r : Res} (h : v.Legal) (hs : s.masksOk = true) (hr : r.Legal) : (v.answer c r s).masksOk = true := by
  cases r with
  | done w => exact close (finish hr)
  | jump w pc => exact close (finish hr)
  | fault f => exact h.raise
  | trap w f => exact trapAfter hr
  | wait => exact hs
  | hold w => exact close hr
  | state t => exact hr

/-! ### Division and the end of lanes -/

/-- R296: the split divides into legal paths. -/
theorem split {c : Ctl} {heel : W64} {first : Path} {rest : List Path} (h : v.Legal) (hfirst : LegalMask first.owned first.mask)
    (hrest : ∀ x ∈ rest, LegalMask x.owned x.mask) : (v.split c heel first rest).masksOk = true := by
  unfold View.split
  extract_lets w p p'
  have hw : w.Legal := h.tokenFor.markDead.flush.finish
  have hp : p'.masksOk = true := Pack.masksOk_diverge hw.placed hfirst hrest
  split
  · exact close ⟨hw.outer, hw.core, hp, Pack.masksOk_split hp ‹_›⟩
  · exact hw.close

/-- R312: a split that keeps a lane keeps a legal mask; one that keeps none ends, and its entry goes to a deferred path (R300, R301). -/
theorem exitLanes {c : Ctl} {m : Mask} (h : v.Legal) : (v.exitLanes c m).masksOk = true := by
  unfold View.exitLanes
  extract_lets w p p'
  have hw : w.Legal := h.tokenFor.flush.finish
  refine hw.setCore (Pack.masksOk_of_masks ?_ (Pack.masks_endIfEmpty _))
  simp only [p']
  split
  · rename_i x hx
    split
    · exact Pack.masksOk_endSplit hx (Pack.masksOk_of_masks (Pack.masksOk_setSplit_none hw.placed) Pack.masks_retire_setSplit_none)
    · refine Pack.masksOk_retire hw.placed fun y hy => ?_
      cases hx.symm.trans hy
      assumption
  · rename_i hn
    exact Pack.masksOk_retire hw.placed fun y hy => absurd (hn.symm.trans hy) nofun

/-- R302, R313: the splits of the pack issue later. -/
theorem yieldIssue {c : Ctl} (h : v.Legal) : (v.yieldIssue c).masksOk = true := by
  unfold View.yieldIssue
  extract_lets w late p
  have hw : w.Legal := h.tokenFor.finish
  have hp : p.masks = w.pk.masks := Pack.masks_foldl fun q i => Pack.masks_updSplit fun _ => rfl
  clear_value p
  exact close (hw.of_same rfl rfl hp rfl)

end View.Legal

end Sys2Proof.Machine
end

section
/-! Legal masks across the issue of a word and the register-only instructions: O53. -/

namespace Sys2Proof.Machine

/-- From a state with legal masks, the next state has legal masks. -/
def KeepsMasks (s : State) (o : Host.Outcome State Fault Refusal) : Prop := s.masksOk = true → ∀ t, o = .next t → t.masksOk = true

/-! ### The issue of a word (R112, R115, R303) -/

namespace View.Legal

variable {s : State} {v w : View}

theorem view (hs : s.masksOk = true) (e : s.view = some v) : v.Legal := by
  have hcore := State.legal_core hs s.cur.agent
  unfold State.view State.viewAt at e
  split at e
  · cases e
  · rename_i p hp
    obtain ⟨x, hx, rfl⟩ := mem_of_look hp
    split at e
    · cases e
    · cases e
      exact ⟨hs, hcore, hcore x hx, Pack.masksOk_split (hcore x hx) ‹_›⟩

theorem ready {c : Ctl} {waits : BitVec 6} {us : List Use} (h : v.Legal) (e : v.ready c waits us = some w) : w.Legal := by
  unfold View.ready at e
  split at e
  · cases e
  · split at e
    · cases e
    · dsimp only at e
      split at e
      · cases e
      · split at e
        · cases e
        · cases e
          exact View.Legal.settle (h.of_same rfl rfl rfl rfl)

theorem stallGuard {g : BitVec 4} {t : State} (h : v.Legal) (e : v.stallGuard g = some t) : t.masksOk = true := by
  unfold View.stallGuard at e
  split at e
  · cases e
    exact raise (h.of_same rfl rfl rfl rfl)
  · cases e

theorem stalls {ps : List Part} {t : State} (h : v.Legal) (e : v.stalls ps = some t) : t.masksOk = true := by
  obtain ⟨p, -, hp⟩ := List.exists_of_findSome?_eq_some e
  split at hp
  · cases hp
    exact h.raise
  · exact h.stallGuard hp

theorem tokensReady (h : v.Legal) (e : v.tokensReady = some w) : w.Legal := by
  obtain ⟨t, -, rfl⟩ := Option.map_eq_some_iff.1 e
  exact View.Legal.settle (h.of_same rfl rfl rfl rfl)

end View.Legal

/-- Packs with the same masks have splits with the same masks in an entry. -/
theorem Pack.split_of_masks {p q : Pack} {i : Nat} {x : Split} (h : q.masks = p.masks) (hx : q.split i = some x) :
    ∃ y, p.split i = some y ∧ x.masks = y.masks := by
  have hat := congrArg (fun e => e.1[i]?) h
  simp only [Pack.masks, List.getElem?_map] at hat
  rw [Pack.split, List.getD_eq_getElem?_getD] at hx ⊢
  cases hq : q.splits[i]? with
  | none => simp [hq] at hx
  | some o =>
    obtain rfl : o = some x := by simpa [hq] using hx
    rw [hq] at hat
    obtain ⟨o', ho', hmasks⟩ := Option.map_eq_some_iff.1 hat.symm
    obtain ⟨y, rfl, hy⟩ := Option.map_eq_some_iff.1 hmasks
    exact ⟨y, by rw [ho']; rfl, hy.symm⟩

/-- An operation that keeps every mask of the pack keeps those of the view's split. -/
theorem View.masks_onPack {v : View} {f : Pack → Pack} (hf : ∀ p, (f p).masks = p.masks) : (v.onPack f).sp.masks = v.sp.masks := by
  unfold View.onPack
  dsimp only
  split
  · rename_i x hx
    obtain ⟨y, hy, hxy⟩ := Pack.split_of_masks (hf _) hx
    have hlt : v.ix < v.pk.splits.length := by
      have := Pack.lt_of_split (p := v.pk.setSplit v.ix (some v.sp)) (i := v.ix) (by simp [hy])
      rwa [Pack.setSplit, List.length_set] at this
    cases (Pack.split_setSplit hlt _).symm.trans hy
    exact hxy
  · rfl

theorem View.masks_tokensReady {v w : View} (e : v.tokensReady = some w) : w.sp.masks = v.sp.masks := by
  obtain ⟨t, -, rfl⟩ := Option.map_eq_some_iff.1 e
  exact View.masks_onPack fun p => p.masks_settle _

namespace KeepsMasks

variable {s : State} {c : Ctl} {us : List Use} {body : View → Mask → Res}

/-- A word whose own part keeps masks legal keeps them so, whatever its issue comes to. -/
theorem issueG {ps : List Part} {waits : BitVec 6} {chk : View → List Use} {wide : Bool}
    (h : ∀ v m, v.Legal → m ≠ 0 → (body v m).Legal) : KeepsMasks s (issueG c ps waits chk wide body s) := by
  intro hs t ht
  rcases issueG_cases ht with ⟨-, ⟨⟩⟩ | ⟨⟨⟩⟩ | ⟨v0, v, hview, hready, hrest⟩
  · exact hs
  · have hv : v.Legal := (View.Legal.view hs hview).ready hready
    rcases hrest with ⟨u, hu, ⟨⟩⟩ | ⟨x, y, ⟨⟩⟩ | ⟨w, rfl, hend⟩
    · exact hv.stalls hu
    · exact View.Legal.close (hv.of_same rfl rfl rfl rfl)
    · have hw : (if wide then v.reconverge else v).Legal := hv.reconverge.ite hv
      rcases hend with ⟨⟨⟩⟩ | ⟨f, ⟨⟩⟩ | ⟨⟨-, -, -, -, -, -, -, -, hact, -⟩, ⟨⟩⟩
      · exact hw.finish.close
      · exact hw.raise
      · exact hw.answer hs (h _ _ hw hact)

theorem issueW {g : BitVec 4} {waits : BitVec 6} {wide : Bool} (h : ∀ v m, v.Legal → m ≠ 0 → (body v m).Legal) :
    KeepsMasks s (issueW c g waits us wide body s) := issueG h

theorem issue (h : ∀ v m, v.Legal → (body v m).Legal) : KeepsMasks s (issue c us body s) := issueW fun v m hv _ => h v m hv

theorem issueWide (h : ∀ v m, v.Legal → (body v m).Legal) : KeepsMasks s (issueWide c us body s) := issueW fun v m hv _ => h v m hv

/-! ### The classes of instructions -/

theorem uniform2 {op : IType → W64 → W64 → W64} {t : IType} {d a : SReg} {b : USrc} : KeepsMasks s (uniform2 op c t d a b s) :=
  issue fun _ _ hv => hv.putS

theorem uniformDiv {op : IType → Bool → W64 → W64 → FR} {sg : Bool} {t : IType} {d a : SReg} {b : USrc} :
    KeepsMasks s (uniformDiv op sg c t d a b s) := issue fun _ _ hv => hv.divide

theorem uniform1 {op : IType → W64 → W64} {t : IType} {d a : SReg} : KeepsMasks s (uniform1 op c t d a s) := issue fun _ _ hv => hv.putS

theorem reduce {int : List Int → Int} {flt : W64 → W64 → FR} {t : PType} {d : SReg} {a : VSrc} :
    KeepsMasks s (reduce int flt c t d a s) := by
  unfold Machine.reduce
  refine issueWide fun v m hv => ?_
  split
  · exact hv.lastUse.orFpf.putS
  · exact hv.lastUse.putS

theorem varying2 {op : IType → W64 → W64 → W64} {t : IType} {d : VReg} {a : VSrc} {b : VOpnd} : KeepsMasks s (varying2 op c t d a b s) :=
  issue fun _ _ hv => hv.lastUse.lastO.putV

theorem varyingDiv {op : IType → Bool → W64 → W64 → FR} {sg : Bool} {t : IType} {d : VReg} {a : VSrc} {b : VOpnd} :
    KeepsMasks s (varyingDiv op sg c t d a b s) := issue fun _ _ hv => hv.lastUse.lastO.divide

theorem varying1 {op : IType → W64 → W64} {t : IType} {d : VReg} {a : VSrc} : KeepsMasks s (varying1 op c t d a s) :=
  issue fun _ _ hv => hv.lastUse.putV

theorem predicate2 {op : Mask → Mask → Mask} {d a b : PReg} : KeepsMasks s (predicate2 op c d a b s) := issue fun _ _ hv => hv.putP

theorem float2 {op : W64 → W64 → FR} {d : VReg} {a : VSrc} {b : VOpnd} : KeepsMasks s (float2 op c d a b s) :=
  issue fun _ _ hv => hv.lastUse.lastO.orFpf.putV

theorem float3 {op : W64 → W64 → W64 → FR} {d : VReg} {a : VSrc} {b : VOpnd} {cc : VSrc} : KeepsMasks s (float3 op c d a b cc s) :=
  issue fun _ _ hv => hv.lastUse.lastO.lastUse.orFpf.putV

theorem float1 {op : W64 → FR} {d : VReg} {a : VSrc} : KeepsMasks s (float1 op c d a s) := issue fun _ _ hv => hv.lastUse.orFpf.putV

theorem special1 {op : W64 → FR} {d : VReg} {a : VSrc} : KeepsMasks s (special1 op c d a s) := issue fun _ _ hv => hv.lastUse.special

/-! ### Instructions that place their split themselves, or whose part has cases -/

/-- R308: the lanes that fall through, and those that branch, are both lanes of the split. -/
theorem execBrv {off heel : W32} : KeepsMasks s (execBrv c off heel s) := by
  unfold Machine.execBrv
  refine issueW fun v m hv hm => ?_
  dsimp only
  split
  · exact hv.tokenFor
  · rename_i hf
    split
    · trivial
    · rename_i w hw
      obtain ⟨howned, hmask⟩ := Prod.mk.inj (View.masks_tokensReady hw)
      have hw := hv.tokensReady hw
      split
      · exact hw.raise
      · rw [howned]
        refine hw.split (.remove (Split.maskOk_iff.1 hv.own).2 hf) fun x hx => ?_
        rw [List.mem_singleton.1 hx]
        exact .self hm

/-- R312, R357. -/
theorem execExit : KeepsMasks s (execExit c s) := by
  unfold Machine.execExit
  refine issue fun v m hv => ?_
  split
  · split
    · exact hv.tokenFor
    · trivial
  · exact hv.exitLanes

/-- R347, R357. -/
theorem execTrap {code : BitVec 16} : KeepsMasks s (execTrap c code s) := by
  unfold Machine.execTrap
  refine issue fun v m hv => ?_
  split
  · trivial
  · exact hv.tokenFor

theorem execBkpt : KeepsMasks s (execBkpt c s) := by
  unfold Machine.execBkpt
  refine issue fun v m hv => ?_
  split
  · trivial
  · exact hv.tokenFor

/-- R310. -/
theorem execCall {d : Link} {off : W32} : KeepsMasks s (execCall c d off s) := by
  refine issue fun v m hv => ?_
  cases d with
  | s r => exact hv.putS
  | w r => exact hv.putV

/-- R317. -/
theorem execSwr {num : W32} {a : SReg} : KeepsMasks s (execSwr c num a s) := by
  unfold Machine.execSwr
  refine issue fun v m hv => ?_
  dsimp only
  split
  · trivial
  · exact View.Legal.tokenFor (hv.of_same rfl rfl (Pack.masks_ite rfl rfl) rfl)

/-- R180, R198: VBALLOT.ALL writes the mask words among its three together. -/
theorem execVballot {beat : BitVec 2} {d : SReg} {a : PReg} : KeepsMasks s (execVballot c beat d a s) := by
  unfold Machine.execVballot
  split
  · refine issueWide fun v m hv => ?_
    extract_lets x ws mk w
    have hw : w.Legal := hv.foldl fun _ _ hx => hx.ws
    exact View.Legal.tokenFor (View.Legal.ite hw hw.wmask)
  · exact issueWide fun _ _ hv => hv.putS

theorem execPmov {d : PReg} {a : PMovSrc} : KeepsMasks s (execPmov c d a s) := by
  cases a <;> exact issue fun _ _ hv => hv.putP

end KeepsMasks

/-! ### The table -/

/-- A register-only instruction is the issue of a word whose own part keeps masks legal. -/
theorem exec_keepsMasks {i : Instr} (h : registerOnly i = true) (s : State) : KeepsMasks s (exec i s) := by
  cases i with
  | sadd | ssub | smul | smulh | smulhn | sand | sor | sxor | sandn | sshl | sshr | ssra | smin | smax | sminn | smaxn => exact .uniform2
  | sdiv | sdivn | srem | sremn => exact .uniformDiv
  | sclz | spopc | smov => exact .uniform1
  | vredadd | vredmin | vredmax => exact .reduce
  | vadd | vsub | vmul | vmulh | vmulhn | vand | vor | vxor | vandn | vshl | vshr | vsra | vmin | vmax | vminn | vmaxn => exact .varying2
  | vdiv | vdivn | vrem | vremn => exact .varyingDiv
  | vnot | vabs | vneg | vclz | vpopc | vmov => exact .varying1
  | pand | por | pxor => exact .predicate2
  | vfadd | vfsub | vfmul | vfmin | vfmax | vhadd2 | vhmul2 => exact .float2
  | vfma | vhfma2 => exact .float3
  | vfrnd | vunpack => exact .float1
  | vfrcp | vfrsq | vfsqrt | vfexp2 | vflog2 | vfsin | vfcos | vftanh => exact .special1
  | vballot => exact .execVballot
  | pmov => exact .execPmov
  | swr => exact .execSwr
  | call => exact .execCall
  | brv => exact .execBrv
  | exit => exact .execExit
  | trap => exact .execTrap
  | bkpt => exact .execBkpt
  | sbfi | sbfx | scmp | smovi | srd | ssel | agetb | agets => delta exec; exact .issue fun _ _ hv => hv.putS
  | sfadd | sfcvt | sfma | sfmul => delta exec; exact .issue fun _ _ hv => hv.orFpf.putS
  | aadd | aadds | amovi | amuls | ashls | asub | psa => delta exec; exact .issue fun _ _ hv => hv.affine
  | pav | psv | vmovi => delta exec; exact .issue fun _ _ hv => hv.putV
  | vbfx | vfclass | vsat => delta exec; exact .issue fun _ _ hv => hv.lastUse.putV
  | vsel => delta exec; exact .issue fun _ _ hv => hv.lastUse.lastO.putV
  | vbfi => delta exec; exact .issue fun _ _ hv => hv.lastUse.lastUse.putV
  | vmad => delta exec; exact .issue fun _ _ hv => hv.lastUse.lastO.lastUse.putV
  | vprmt => delta exec; exact .issue fun _ _ hv => hv.lastUse.lastUse.lastO.putV
  | vcvt => delta exec; exact .issue fun _ _ hv => hv.lastUse.lastUse.orFpf.putV
  | vpack => delta exec; exact .issue fun _ _ hv => hv.lastUse.lastUse.lastUse.orFpf.putV
  | vhash => delta exec; exact .issue fun _ _ hv => hv.lastCtr.putV
  | vfdiv => delta exec; exact .issue fun _ _ hv => hv.lastUse.lastO.special
  | pnot => delta exec; exact .issue fun _ _ hv => hv.putP
  | vcmp => delta exec; exact .issue fun _ _ hv => hv.lastUse.lastO.putP
  | vfcmp => delta exec; exact .issue fun _ _ hv => hv.lastUse.lastO.orFpf.putP
  | vdrop => delta exec; exact .issue fun _ _ hv => hv.lastCtr.putP
  | bra | ret | nop => delta exec; exact .issue fun _ _ hv => hv.tokenFor
  | yield => delta exec; exact .issue fun _ _ hv => hv.yieldIssue
  | vall | vany => delta exec; exact .issueWide fun _ _ hv => hv.putS
  | vpick => delta exec; exact .issueWide fun _ _ hv => hv.lastUse.putS
  | vbcast => delta exec; exact .issueWide fun _ _ hv => hv.lastUse.putV
  | vshfl => delta exec; exact .issueWide fun _ _ hv => hv.lastUse.lastO.putV
  | vscan => delta exec; exact .issueWide fun _ _ hv => hv.lastUse.orFpf.putV
  | sync => delta exec; exact .issueWide fun _ _ hv => hv.tokenFor
  | waitq => delta exec; exact .issueW fun _ _ hv _ => hv
  | dovetail => delta exec; exact .issueG fun _ _ hv _ => hv.lastHalf.lastHalf.orFpf.putHalf.putHalf.tokenFor
  | _ => cases h

/-- Settles O53: masks stay legal across every operation of a view (`View.Legal`): a mask word is ANDed with the owned lanes, a division
deals the split's lanes out, a merge unites both sets, and a split that keeps no lane gives its entry up. -/
theorem masksKept : Obligations.MasksKept := fun _ s t hi hs ht => exec_keepsMasks hi s hs t ht

end Sys2Proof.Machine
end

section
/-! The integer operations of two sources and the divisions (R201, R202, R218-R224): O11, O14 and O15. -/

namespace Sys2Proof.Machine

/-! ### The bits of an operand, and the result of an exact value (R201, R219) -/

/-- The low `n` bits as a remainder. -/
theorem fld_zero (x : W64) (n : Nat) : fld x 0 n = x.toNat % 2 ^ n := by
  rw [fld, BitVec.extractLsb'_toNat, Nat.shiftRight_zero]

section
variable {t : IType} {x y : W64}

theorem itU_eq_toNat : itU t x = (x.setWidth (itW t)).toNat := (BitVec.toNat_setWidth ..).symm

theorem itU_lt : itU t x < 2 ^ itW t := Nat.mod_lt _ (Nat.two_pow_pos _)

/-- Reading `n` bits signed is the centred remainder. -/
theorem sInt_eq_bmod (n v : Nat) : sInt n v = Int.bmod v (2 ^ n) := by
  have hcast : ((2 ^ n : Nat) : Int) = 2 ^ n := by push_cast; rfl
  rw [sInt, Int.bmod, ← hcast, ← Int.natCast_emod]
  generalize 2 ^ n = p
  split <;> split <;> omega

theorem itI_eq_toInt : itI t x = (x.setWidth (itW t)).toInt := by
  rw [itI, sInt_eq_bmod, BitVec.toInt_eq_toNat_bmod, BitVec.toNat_setWidth, Int.natCast_emod, Int.emod_bmod]

theorem neg_le_itI : -(2 ^ (itW t - 1) : Int) ≤ itI t x := itI_eq_toInt ▸ BitVec.le_toInt _

theorem itI_lt : itI t x < 2 ^ (itW t - 1) := itI_eq_toInt ▸ BitVec.toInt_lt

theorem itI_eq_zero (h : itU t x = 0) : itI t x = 0 := by
  rw [itU_eq_toNat] at h
  rw [itI_eq_toInt, BitVec.eq_of_toNat_eq (y := 0#_) h, BitVec.toInt_zero]

theorem toNat_itRes (e : Int) : ((itRes t e).toNat : Int) = e % 2 ^ itW t := by
  have hpos : (0 : Int) < 2 ^ itW t := by positivity
  have hle : (2 : Int) ^ itW t ≤ 2 ^ 64 := by cases t <;> decide
  have hnonneg := Int.emod_nonneg e hpos.ne'
  have hlt := Int.emod_lt_of_pos e hpos
  rw [itRes, BitVec.toNat_ofNat, wrapN, Nat.mod_eq_of_lt (by omega), Int.toNat_of_nonneg hnonneg]

theorem itI_itRes (e : Int) : itI t (itRes t e) = e.bmod (2 ^ itW t) := by
  rw [itI, sInt_eq_bmod, toNat_itRes]
  exact_mod_cast Int.emod_bmod e (2 ^ itW t)

theorem itU_itRes (e : Int) : (itU t (itRes t e) : Int) = e % 2 ^ itW t := by
  rw [itU, Int.natCast_emod, toNat_itRes, Nat.cast_pow]
  exact Int.emod_emod_of_dvd _ (dvd_refl _)

theorem itU_itRes_natCast {n : Nat} (h : n < 2 ^ itW t) : itU t (itRes t n) = n := by
  have := itU_itRes (t := t) n
  rw [Int.emod_eq_of_lt (by positivity) (by exact_mod_cast h)] at this
  exact_mod_cast this

/-- Exact values that agree in their low w bits have the same result. -/
theorem itRes_congr {e f : Int} (h : e % 2 ^ itW t = f % 2 ^ itW t) : itRes t e = itRes t f := by
  rw [itRes, itRes, wrapN, wrapN, h]

theorem itRes_itU : itRes t (itU t x) = itRes t x.toNat :=
  itRes_congr (by rw [itU, Int.natCast_emod, Nat.cast_pow]; exact Int.emod_emod_of_dvd _ (dvd_refl _))

end

/-! ### The two-source operations by their exact values (R222, R223) -/

section
variable (t : IType) (x y : W64)

theorem shCount_eq : shCount y = y.toNat % 256 := fld_zero y 8

theorem opMulhn_eq : opMulhn t x y = itRes t ((itU t x : Int) * itU t y / (2 ^ itW t : Nat)) := by
  rw [opMulhn]
  push_cast
  rfl

/-- A count of w or more shifts every bit out. -/
theorem opShl_eq : opShl t x y = itRes t ((itU t x : Int) * 2 ^ (y.toNat % 256)) := by
  rw [opShl, shCount_eq]
  split
  · push_cast
    rfl
  · have hdvd : (2 ^ itW t : Int) ∣ itU t x * 2 ^ (y.toNat % 256) := Dvd.dvd.mul_left (pow_dvd_pow _ (by omega)) _
    rw [itRes, wrapN, Int.emod_eq_zero_of_dvd hdvd]
    rfl

theorem opShr_eq : opShr t x y = itRes t ((itU t x : Int) / (2 ^ (y.toNat % 256) : Nat)) := by
  rw [opShr, shCount_eq, ← Int.natCast_ediv]
  split
  · rfl
  · have hlt : itU t x < 2 ^ (y.toNat % 256) := itU_lt.trans_le (Nat.pow_le_pow_right (by decide) (by omega))
    rw [Nat.div_eq_of_lt hlt, itRes, wrapN]
    simp

/-- An arithmetic shift by w or more leaves the sign. -/
theorem opSra_eq : opSra t x y = itRes t (itI t x / (2 ^ (y.toNat % 256) : Nat)) := by
  rw [opSra, shCount_eq]
  congr 1
  split
  · rfl
  · have hpow : (2 : Int) ^ (itW t - 1) ≤ 2 ^ (y.toNat % 256) := pow_le_pow_right₀ (by decide) (by omega)
    have hlo := neg_le_itI (t := t) (x := x)
    have hhi := itI_lt (t := t) (x := x)
    push_cast
    split
    · exact (Int.ediv_eq_neg_one_of_neg_of_le ‹_› (by omega)).symm
    · exact (Int.ediv_eq_zero_of_lt (by omega) (by omega)).symm

theorem opMin_eq : opMin t x y = itRes t (if itI t x ≤ itI t y then itI t x else itI t y) := by rw [opMin, min_def]

theorem opMax_eq : opMax t x y = itRes t (if itI t x ≤ itI t y then itI t y else itI t x) := by rw [opMax, max_def]

theorem opMinn_eq : opMinn t x y = itRes t (if itU t x ≤ itU t y then (itU t x : Int) else itU t y) := by
  rw [opMinn, min_def]
  congr 1
  exact apply_ite _ _ _ _

theorem opMaxn_eq : opMaxn t x y = itRes t (if itU t x ≤ itU t y then (itU t y : Int) else itU t x) := by
  rw [opMaxn, max_def]
  congr 1
  exact apply_ite _ _ _ _

end

/-- A uniform and a varying instruction are the two forms of one two-source operation, whose result is the low w bits of `exactVal`. -/
structure Computes (u : Ctl → IType → SReg → SReg → USrc → Instr) (w : Ctl → IType → VReg → VSrc → VOpnd → Instr)
    (exactVal : IType → W64 → W64 → Int) (op : IType → W64 → W64 → W64) : Prop where
  uniform : ∀ c t d a b s, exec (u c t d a b) s = uniform2 op c t d a b s := by intros; rfl
  varying : ∀ c t d a b s, exec (w c t d a b) s = varying2 op c t d a b s := by intros; rfl
  value : ∀ t x y, op t x y = itRes t (exactVal t x y)

/-- R222, R223: each two-source instruction computes its exact value. -/
theorem twoSource_computes : ∀ e ∈ twoSource, ∃ op, Computes e.1 e.2.1 e.2.2 op := by
  simp only [twoSource, List.forall_mem_cons]
  exact ⟨⟨opAdd, { value := fun _ _ _ => rfl }⟩,
    ⟨opSub, { value := fun _ _ _ => rfl }⟩,
    ⟨opMul, { value := fun _ _ _ => rfl }⟩,
    ⟨opMulh, { value := fun _ _ _ => rfl }⟩,
    ⟨opMulhn, { value := opMulhn_eq }⟩,
    ⟨opAnd, { value := fun _ _ _ => itRes_itU }⟩,
    ⟨opOr, { value := fun _ _ _ => itRes_itU }⟩,
    ⟨opXor, { value := fun _ _ _ => itRes_itU }⟩,
    ⟨opAndn, { value := fun _ _ _ => itRes_itU }⟩,
    ⟨opShl, { value := opShl_eq }⟩,
    ⟨opShr, { value := opShr_eq }⟩,
    ⟨opSra, { value := opSra_eq }⟩,
    ⟨opMin, { value := opMin_eq }⟩,
    ⟨opMax, { value := opMax_eq }⟩,
    ⟨opMinn, { value := opMinn_eq }⟩,
    ⟨opMaxn, { value := opMaxn_eq }⟩, nofun⟩

/-- Settles O11: each pair of instructions computes one operation (`twoSource_computes`), which the word's own part writes. -/
theorem integerTwoSource : Obligations.IntegerTwoSource := by
  intro e he c t s v m
  obtain ⟨op, hop⟩ := twoSource_computes e he
  simp only [← hop.value]
  exact ⟨fun d a b hi => next_of_issue hi (hop.uniform c t d a b s) rfl, fun d a b hi => next_of_issue hi (hop.varying c t d a b s) rfl⟩

/-! ### Division (R202, R224) -/

section
variable {c : Ctl} {t : IType} {s : State} {v : View} {m : Mask} {op : IType → Bool → W64 → W64 → FR} {sg : Bool}

/-- R224: a uniform division enters the division unit. -/
theorem uniformDiv_of_issues {d a : SReg} {b : USrc} (hi : IssuesW c ([.ds d, .s 1 a] ++ useU 2 b) false s v m) :
    let r := op t sg (v.rs a) (v.us b (itImm t))
    uniformDiv op sg c t d a b s = .next ((v.divide c (.s d) 0 [] [] (itExt t r.val) r.fl 0
      (if r.fl &&& flDZI ≠ 0 then some 127 else none)).after c (v.succ c)) := next_of_issue hi rfl rfl

/-- R224: a varying division enters the division unit with the results of its lanes. -/
theorem varyingDiv_of_issues {d : VReg} {a : VSrc} {b : VOpnd}
    (hi : IssuesW c ([.dv (it64 t) d, useV 1 (it64 t) a] ++ useO 2 (it64 t) b) false s v m) :
    let rs := overLanes m (fun L => op t sg (el (v.vs (it64 t) a) L) (el (v.vo (it64 t) b (itImm t)) L))
    varyingDiv op sg c t d a b s = .next ((((v.lastUse (it64 t) a m).lastO (it64 t) b m).divide c (v.destV (it64 t) d) m
      (loRow (valsOf rs)) (hiRow (valsOf rs)) 0 (flsOf rs) (lanesWith rs (flDZI + flDVO)) (lowest (lanesWith rs flDZI))).after c
      (v.succ c)) := next_of_issue hi rfl rfl

end

/-- Settles O14: the four divisions are one uniform and one varying meaning, over the operation and its signedness. -/
theorem divisions_enter : Obligations.Divisions := by
  intro e he c t s v m
  simp only [divisions, List.mem_cons, List.not_mem_nil, or_false] at he
  rcases he with rfl | rfl | rfl | rfl
  all_goals exact ⟨fun d a b hi => uniformDiv_of_issues hi, fun d a b hi => varyingDiv_of_issues hi⟩

section
variable {t : IType} {x y : W64}

theorem opQuot_zero {sg : Bool} (h : itU t y = 0) : opQuot t sg x y = ⟨itRes t (-1), flDZI⟩ := if_pos h

theorem opRem_zero {sg : Bool} (h : itU t y = 0) : opRem t sg x y = ⟨itRes t (itU t x), flDZI⟩ := if_pos h

theorem opQuot_unsigned (h : itU t y ≠ 0) : opQuot t false x y = ⟨itRes t (itU t x / itU t y : Nat), 0⟩ := if_neg h

theorem opRem_unsigned (h : itU t y ≠ 0) : opRem t false x y = ⟨itRes t (itU t x % itU t y : Nat), 0⟩ := if_neg h

/-- The signed division whose quotient does not fit (R202): the least value by -1. -/
def DivOverflow (t : IType) (x y : W64) : Prop := itI t x = -(2 ^ (itW t - 1) : Int) ∧ itI t y = -1

theorem overflowFlag_of_fits (h : ¬ DivOverflow t x y) :
    (if itI t y = -1 ∧ itI t x = -(2 ^ (itW t - 1) : Nat) then flDVO else 0) = 0 :=
  if_neg fun ⟨hy, hx⟩ => h ⟨by exact_mod_cast hx, hy⟩

/-- R202: the signed division, where its quotient fits. -/
theorem opQuot_signed (hy : itU t y ≠ 0) (h : ¬ DivOverflow t x y) :
    opQuot t true x y = ⟨itRes t ((itI t x).tdiv (itI t y)), 0⟩ := by
  rw [opQuot, if_neg hy, if_pos rfl, overflowFlag_of_fits h]

theorem opRem_signed (hy : itU t y ≠ 0) (h : ¬ DivOverflow t x y) :
    opRem t true x y = ⟨itRes t ((itI t x).tmod (itI t y)), 0⟩ := by
  rw [opRem, if_neg hy, if_pos rfl, overflowFlag_of_fits h]

theorem DivOverflow.itU_ne_zero (h : DivOverflow t x y) : itU t y ≠ 0 := fun h0 => by
  cases (itI_eq_zero h0).symm.trans h.2

theorem DivOverflow.flag (h : DivOverflow t x y) :
    (if itI t y = -1 ∧ itI t x = -(2 ^ (itW t - 1) : Nat) then flDVO else 0) = flDVO :=
  if_pos ⟨h.2, by exact_mod_cast h.1⟩

theorem opQuot_overflow (h : DivOverflow t x y) : opQuot t true x y = ⟨itRes t (2 ^ (itW t - 1)), flDVO⟩ := by
  rw [opQuot, if_neg h.itU_ne_zero, if_pos rfl, h.flag, h.1, h.2, Int.neg_tdiv_neg, Int.tdiv_one]

theorem opRem_overflow (h : DivOverflow t x y) : opRem t true x y = ⟨itRes t 0, flDVO⟩ := by
  rw [opRem, if_neg h.itU_ne_zero, if_pos rfl, h.flag, h.1, h.2, Int.neg_tmod, Int.tmod_neg, Int.tmod_one, neg_zero]

/-- A signed quotient fits w bits, but that of the least value by -1. -/
theorem itI_itRes_tdiv (h : ¬ DivOverflow t x y) :
    itI t (itRes t ((itI t x).tdiv (itI t y))) = (itI t x).tdiv (itI t y) := by
  have hne : x.setWidth (itW t) ≠ BitVec.intMin _ ∨ y.setWidth (itW t) ≠ -1#_ := not_and_or.1 fun ⟨hx, hy⟩ => h (by
    rw [DivOverflow, itI_eq_toInt, itI_eq_toInt, hx, hy]
    cases t <;> decide)
  rw [itI_itRes, itI_eq_toInt, itI_eq_toInt, ← BitVec.toInt_sdiv, BitVec.toInt_sdiv_of_ne_or_ne _ _ hne]

theorem itI_itRes_tmod : itI t (itRes t ((itI t x).tmod (itI t y))) = (itI t x).tmod (itI t y) := by
  rw [itI_itRes, itI_eq_toInt, itI_eq_toInt, ← BitVec.toInt_srem, BitVec.toInt_bmod_cancel]

theorem itU_itRes_neg_one : itU t (itRes t (-1)) = 2 ^ itW t - 1 := by cases t <;> decide

theorem itI_itRes_overflow : itI t (itRes t (2 ^ (itW t - 1))) = -(2 ^ (itW t - 1) : Int) := by cases t <;> decide

theorem itI_itRes_zero : itI t (itRes t 0) = 0 := by cases t <;> decide

end

/-- Settles O15: R202's cases by the equation of each. A signed quotient that does not overflow, and every signed remainder, is that of the
w-bit vectors, so it fits. -/
theorem divisionValues : Obligations.DivisionValues := by
  intro t x y
  refine ⟨fun hy sg => ?_, fun hy => ?_, fun hy h => ?_, fun hx hy => ?_⟩
  · rw [opQuot_zero hy, opRem_zero hy]
    exact ⟨itU_itRes_neg_one, itU_itRes_natCast itU_lt, rfl, rfl⟩
  · rw [opQuot_unsigned hy, opRem_unsigned hy, ← Nat.mod_eq_sub_div_mul]
    exact ⟨itU_itRes_natCast ((Nat.div_le_self ..).trans_lt itU_lt), itU_itRes_natCast ((Nat.mod_le ..).trans_lt itU_lt), rfl, rfl⟩
  · rw [opQuot_signed hy h, opRem_signed hy h]
    refine ⟨itI_itRes_tdiv h, itI_itRes_tmod.trans ?_, rfl, rfl⟩
    rw [Int.tmod_def, mul_comm]
  · rw [opQuot_overflow ⟨hx, hy⟩, opRem_overflow ⟨hx, hy⟩]
    exact ⟨itI_itRes_overflow, itI_itRes_zero, rfl, rfl⟩

end Sys2Proof.Machine
end

section
/-! The float instructions of one format, the conversions and the random instructions (R235-R255): O21, O22 and O25. -/

namespace Sys2Proof.Machine

section
variable {c : Ctl} {s : State} {v : View} {m : Mask} {d : VReg} {a b : VSrc} {y : VOpnd}

/-- R208, R238: a float operation of two sources over the lanes of ACT. -/
theorem float2_of_issues {op : W64 → W64 → FR} (hi : IssuesW c ([.dv false d, useV 1 false a] ++ useO 2 false y) false s v m) :
    let rs := overLanes m (fun L => op (el (v.vs false a) L) (el (v.vo false y imm0) L))
    float2 op c d a y s = .next (((((v.lastUse false a m).lastO false y m).orFpf (flsOf rs)).putV c false d m (valsOf rs) latVF).after c
      (v.succ c)) := next_of_issue hi rfl rfl

/-- A float operation of three sources. -/
theorem float3_of_issues {op : W64 → W64 → W64 → FR}
    (hi : IssuesW c ([.dv false d, useV 1 false a, useV 3 false b] ++ useO 2 false y) false s v m) :
    let rs := overLanes m (fun L => op (el (v.vs false a) L) (el (v.vo false y imm0) L) (el (v.vs false b) L))
    float3 op c d a y b s = .next ((((((v.lastUse false a m).lastO false y m).lastUse false b m).orFpf (flsOf rs)).putV c false d m
      (valsOf rs) latVF).after c (v.succ c)) := next_of_issue hi rfl rfl

/-- A float operation of one source. -/
theorem float1_of_issues {op : W64 → FR} (hi : IssuesW c [.dv false d, useV 1 false a] false s v m) :
    let rs := overLanes m (fun L => op (el (v.vs false a) L))
    float1 op c d a s = .next ((((v.lastUse false a m).orFpf (flsOf rs)).putV c false d m (valsOf rs) latVF).after c (v.succ c)) :=
  next_of_issue hi rfl rfl

end

/-! ### The lanes of a mask given by a test -/

/-- The number whose bit i is the test of the i-th element. -/
theorem testBit_foldr_two_mul_add (p : Nat → Bool) (ls : List Nat) (i : Nat) :
    (ls.foldr (fun L x => 2 * x + (if p L then 1 else 0)) 0).testBit i = (ls[i]?.map p).getD false := by
  induction ls generalizing i with
  | nil => simp
  | cons L ls ih =>
    have hbit : ∀ x, 2 * x + (if p L then 1 else 0) = Nat.bit (p L) x := fun x => by cases p L <;> rfl
    rw [List.foldr_cons, hbit]
    cases i with
    | zero => simp
    | succ i => rw [Nat.testBit_bit_succ, List.getElem?_cons_succ, ih]

theorem getLsbD_maskOf (p : Nat → Bool) {L : Nat} (hL : L < 96) : (maskOf p).getLsbD L = p L := by
  rw [maskOf, BitVec.getLsbD_ofNat, testBit_foldr_two_mul_add, lanes, List.getElem?_range hL]
  simp [hL]

theorem maskOf_congr {p q : Nat → Bool} (h : ∀ L, L < 96 → p L = q L) : maskOf p = maskOf q :=
  BitVec.eq_of_getLsbD_eq fun L hL => by rw [getLsbD_maskOf p hL, getLsbD_maskOf q hL, h L hL]

theorem getD_overLanes (m : Mask) (f : Nat → FR) {L : Nat} (hL : L < 96) :
    (overLanes m f).getD L ⟨0, 0⟩ = if m.getLsbD L then f L else ⟨0, 0⟩ := by
  simp [overLanes, lanes, List.getD_eq_getElem?_getD, hL]

/-- The flags of the lanes together depend on the lanes' flags alone. -/
theorem flsOf_overLanes_congr {m : Mask} {f g : Nat → FR} (h : ∀ L, (f L).fl = (g L).fl) :
    flsOf (overLanes m f) = flsOf (overLanes m g) := by
  have hmap : (overLanes m f).map FR.fl = (overLanes m g).map FR.fl := by
    simp only [overLanes, List.map_map, Function.comp_def, apply_ite FR.fl, h]
  simpa only [flsOf, List.foldl_map] using congrArg (List.foldl (· ||| ·) 0) hmap

/-! ### O21, O22 and O25 -/

/-- A lane's comparison as VFCMP holds it: the truth value and its flags. -/
def cmpResult (hit : Bool × Nat) : FR := ⟨BitVec.ofNat 64 (b2n hit.1), hit.2⟩

theorem cmpResult_val (hit : Bool × Nat) : decide ((cmpResult hit).val = 1) = hit.1 := by
  obtain ⟨x, f⟩ := hit
  cases x <;> rfl

/-- R240: VFCMP sets the lanes of ACT whose comparison holds. -/
theorem exec_vfcmp_of_issues {c : Ctl} {k : FCond} {p : PReg} {a : VSrc} {y : VOpnd} {s : State} {v : View} {m : Mask}
    (hi : IssuesW c ([.dp p, useV 1 false a] ++ useO 2 false y) false s v m) :
    let hit (L : Nat) : Bool × Nat := opFcmp k (el (v.vs false a) L) (el (v.vo false y imm0) L)
    exec (.vfcmp c k p a y) s = .next (((((v.lastUse false a m).lastO false y m).orFpf
      (flsOf (overLanes m (fun L => ⟨0, (hit L).2⟩)))).putP c p m (maskOf (fun L => m.getLsbD L && (hit L).1)) latVF).after c
        (v.succ c)) := by
  intro hit
  change execVfcmp c k p a y s = _
  have hfl : flsOf (overLanes m (fun L => cmpResult (hit L))) = flsOf (overLanes m (fun L => ⟨0, (hit L).2⟩)) :=
    flsOf_overLanes_congr fun _ => rfl
  have hmask : maskOf (fun L => ((overLanes m (fun L => cmpResult (hit L))).getD L ⟨0, 0⟩).val = 1) =
      maskOf (fun L => m.getLsbD L && (hit L).1) := by
    refine maskOf_congr fun L hL => ?_
    rw [getD_overLanes m _ hL]
    cases m.getLsbD L
    · rfl
    · exact cmpResult_val (hit L)
  rw [← hfl, ← hmask]
  exact next_of_issue hi rfl rfl

/-- Settles O21: each by its number of sources; the uniform ones are their own part. -/
theorem floatFixed : Obligations.FloatFixed := fun c d a b s _ _ =>
  ⟨fun y hi => ⟨fun r => ⟨(float2_of_issues hi : execVfadd c r d a y s = _), (float2_of_issues hi : execVfsub c r d a y s = _),
        (float2_of_issues hi : execVfmul c r d a y s = _)⟩,
      (float2_of_issues hi : execVfmin c d a y s = _), (float2_of_issues hi : execVfmax c d a y s = _),
      fun ty r => ⟨(float2_of_issues hi : execVhadd2 c ty r d a y s = _), (float2_of_issues hi : execVhmul2 c ty r d a y s = _)⟩⟩,
    fun y hi r => ⟨(float3_of_issues hi : execVfma c r d a y b s = _),
      fun ty => (float3_of_issues hi : execVhfma2 c ty r d a y b s = _)⟩,
    fun hi => ⟨fun ty => (next_of_issue hi rfl rfl : execVfclass c ty d a s = _),
      fun r => (float1_of_issues hi : execVfrnd c r d a s = _),
      fun ty k => (float1_of_issues hi : execVunpack c ty k d a s = _)⟩,
    fun _ _ _ => exec_vfcmp_of_issues,
    fun ty r x y z hi => ⟨(next_of_issue hi rfl rfl : execSfadd c ty r x y z s = _),
      (next_of_issue hi rfl rfl : execSfmul c ty r x y z s = _)⟩,
    fun ty r x y z w hi => (next_of_issue hi rfl rfl : execSfma c ty r x y z w s = _)⟩

/-- Settles O22: each is its own part. -/
theorem conversions : Obligations.Conversions := fun c r d a b rb s _ _ =>
  ⟨fun dst src hi => (next_of_issue hi rfl rfl : execVcvt c dst src r d a rb s = _),
    fun k ty hi => (next_of_issue hi rfl rfl : execVpack c k ty r d a b rb s = _),
    fun dst src x y z hi => (next_of_issue hi rfl rfl : execSfcvt c dst src r x y z s = _)⟩

/-- R255: VDROP keeps a lane by the low 16 bits of its mix. -/
theorem exec_vdrop_of_issues {c : Ctl} {x : Ctr} {key : SReg} {all : Bool} {d : PReg} {k : USrc} {s : State} {v : View} {m : Mask}
    (hi : IssuesW c ([.dp d, .s 2 key] ++ useCtr x ++ useU 3 k) false s v m) :
    ∃ kept : Mask, exec (.vdrop c all d x key k) s = .next (((v.lastCtr x m).putP c d m kept latX).after c (v.succ c)) ∧
      ∀ L, L < 96 → kept.getLsbD L =
        (all || decide ((mix64 (el (v.counters x) L ^^^ v.rs key)).toNat % 2 ^ 16 < (v.us k imm0).toNat % 2 ^ 16)) := by
  refine ⟨_, (next_of_issue hi rfl rfl : execVdrop c all d x key k s = _), fun L hL => ?_⟩
  rw [getLsbD_maskOf _ hL, fld_zero, fld_zero]

/-- Settles O25: VHASH is its own part, and VDROP's lanes are those of its test. -/
theorem randomInstructions : Obligations.RandomInstructions := fun c x key s _ _ =>
  ⟨fun lo d hi => (next_of_issue hi rfl rfl : execVhash c lo d x key s = _), fun _ _ _ => exec_vdrop_of_issues⟩

end Sys2Proof.Machine
end

section
/-! The other integer instructions: one source, bit fields, immediates, selects, comparisons, saturation and multiply-add (R225-R230):
O12 and O13. -/

namespace Sys2Proof.Machine

/-! ### A copy and its extension (R219, R225) -/

section
variable {t : IType} {x : W64}

theorem itU_opMov : itU t (opMov t x) = itU t x := itU_itRes_natCast itU_lt

/-- The extension of a value reads its low w bits alone. -/
theorem itExt_congr {y : W64} (h : itU t x = itU t y) : itExt t x = itExt t y := by
  rw [itU_eq_toNat, itU_eq_toNat] at h
  have hlow := BitVec.eq_of_toNat_eq h
  cases t with
  | i32 => exact congrArg (BitVec.signExtend 64) hlow
  | n32 => exact congrArg (BitVec.setWidth 64) hlow
  | i64 | n64 => simpa only [itExt, itW, BitVec.setWidth_eq] using hlow

theorem itExt_opMov : itExt t (opMov t x) = itExt t x := itExt_congr itU_opMov

end

/-! ### The operations of one source (R225) -/

section
variable {c : Ctl} {t : IType} {s : State} {v : View} {m : Mask}

theorem uniform1_of_issues {op : IType → W64 → W64} {d a : SReg} (hi : IssuesW c [.ds d, .s 1 a] false s v m) :
    uniform1 op c t d a s = .next ((v.putS c d (itExt t (op t (v.rs a))) latU).after c (v.succ c)) := next_of_issue hi rfl rfl

theorem varying1_of_issues {op : IType → W64 → W64} {d : VReg} {a : VSrc}
    (hi : IssuesW c [.dv (it64 t) d, useV 1 (it64 t) a] false s v m) :
    varying1 op c t d a s =
      .next (((v.lastUse (it64 t) a m).putV c (it64 t) d m ((v.vs (it64 t) a).map (op t)) latVI).after c (v.succ c)) :=
  next_of_issue hi rfl rfl

/-- SMOV writes its source: the extension takes no more than the bits that it copies. -/
theorem execSmov_of_issues {d a : SReg} (hi : IssuesW c [.ds d, .s 1 a] false s v m) :
    execSmov c t d a s = .next ((v.putS c d (itExt t (v.rs a)) latU).after c (v.succ c)) := by
  rw [execSmov, uniform1_of_issues hi, itExt_opMov]

/-- R229: SSEL takes its second source where the condition register is 0. -/
theorem execSsel_of_issues {d a b k : SReg} (hi : IssuesW c [.ds d, .s 1 a, .s 2 b, .s 3 k] false s v m) :
    execSsel c t d a b k s =
      .next ((v.putS c d (itExt t (if v.rs k = 0 then v.rs b else v.rs a)) latU).after c (v.succ c)) := by
  rw [← ite_not]
  exact next_of_issue hi rfl rfl

end

/-! ### O12 and O13 -/

/-- Settles O12: SCLZ, SPOPC and SMOV by their one source, SSEL by its condition, the others are their own part. -/
theorem uniformOther : Obligations.UniformOther := fun c t d a b s _ _ =>
  ⟨fun hi => ⟨(uniform1_of_issues hi : execSclz c t d a s = _), (uniform1_of_issues hi : execSpopc c t d a s = _),
      (execSmov_of_issues hi : execSmov c t d a s = _)⟩,
    fun y hi => (next_of_issue hi rfl rfl : execSbfx c t d a y s = _),
    fun y hi => (next_of_issue hi rfl rfl : execSbfi c t d a b y s = _),
    fun k hi => (execSsel_of_issues hi : execSsel c t d a b k s = _),
    fun hi => ⟨fun x => (next_of_issue hi rfl rfl : execSmovi c t d (.i32 x) s = _),
      fun x => (next_of_issue hi rfl rfl : execSmovi c t d (.i64 x) s = _)⟩,
    fun k y hi => (next_of_issue hi rfl rfl : execScmp c t k d a y s = _)⟩

/-- R225: the six varying instructions of one source compute each its operation. -/
theorem exec_varying1_of_issues {c : Ctl} {t : IType} {d : VReg} {a : VSrc} {s : State} {v : View} {m : Mask}
    (hi : IssuesW c [.dv (it64 t) d, useV 1 (it64 t) a] false s v m) :
    ∀ e ∈ ([(.vnot, opNot), (.vabs, opAbs), (.vneg, opNeg), (.vclz, opClz), (.vpopc, opPopc), (.vmov, opMov)] :
        List ((Ctl → IType → VReg → VSrc → Instr) × (IType → W64 → W64))),
      exec (e.1 c t d a) s =
        .next (((v.lastUse (it64 t) a m).putV c (it64 t) d m ((v.vs (it64 t) a).map (e.2 t)) latVI).after c (v.succ c)) := by
  simp only [List.forall_mem_cons]
  exact ⟨(varying1_of_issues hi : execVnot c t d a s = _), (varying1_of_issues hi : execVabs c t d a s = _),
    (varying1_of_issues hi : execVneg c t d a s = _), (varying1_of_issues hi : execVclz c t d a s = _),
    (varying1_of_issues hi : execVpopc c t d a s = _), (varying1_of_issues hi : execVmov c t d a s = _), nofun⟩

/-- Settles O13: the instructions of one source together, the others are their own part. -/
theorem varyingOther : Obligations.VaryingOther := fun c t d a b s _ _ =>
  ⟨fun hi => ⟨exec_varying1_of_issues hi, fun x => (next_of_issue hi rfl rfl : execVsat c t d a x s = _)⟩,
    fun y hi => (next_of_issue hi rfl rfl : execVbfx c t d a y s = _),
    fun y hi => (next_of_issue hi rfl rfl : execVbfi c t d a b y s = _),
    fun y p hi => (next_of_issue hi rfl rfl : execVsel c t d a y p s = _),
    fun hi => ⟨fun x => (next_of_issue hi rfl rfl : execVmovi c t d (.i32 x) s = _),
      fun x => (next_of_issue hi rfl rfl : execVmovi c t d (.i64 x) s = _)⟩,
    fun k p y hi => (next_of_issue hi rfl rfl : execVcmp c t k p a y s = _),
    fun y hi => (next_of_issue hi rfl rfl : execVmad c t d a y b s = _)⟩

end Sys2Proof.Machine
end

section
/-! The special-function unit (R238, R243, R244) and the lane exchange (R249-R253): O23 and O24. -/

namespace Sys2Proof.Machine

section
variable {c : Ctl} {r : Rnd} {d : VReg} {a : VSrc} {s : State} {v : View} {m : Mask}

/-- R244: an operation of one source enters the special-function unit with the results and flags of the lanes of ACT. -/
theorem special1_of_issues {op : W64 → FR} (hi : IssuesW c [.dv false d, useV 1 false a] false s v m) :
    special1 op c d a s =
      .next (((v.lastUse false a m).special c d m (overLanes m (fun L => op (el (v.vs false a) L)))).after c (v.succ c)) :=
  next_of_issue hi rfl rfl

/-- The eight instructions of one source that the unit takes, with their operations (R238, R243). -/
def specials (c : Ctl) (r : Rnd) (d : VReg) (a : VSrc) : List (Instr × (W64 → FR)) :=
  [(.vfrcp c d a, opFrcp), (.vfrsq c d a, opFrsq), (.vfsqrt c r d a, opFsqrt r), (.vfexp2 c d a, opFexp2), (.vflog2 c d a, opFlog2),
   (.vfsin c d a, opFsin), (.vfcos c d a, opFcos), (.vftanh c d a, opFtanh)]

theorem exec_of_mem_specials : ∀ e ∈ specials c r d a, exec e.1 s = special1 e.2 c d a s := by
  simp only [specials, List.forall_mem_cons]
  exact ⟨(rfl : execVfrcp c d a s = _), (rfl : execVfrsq c d a s = _), (rfl : execVfsqrt c r d a s = _), (rfl : execVfexp2 c d a s = _),
    (rfl : execVflog2 c d a s = _), (rfl : execVfsin c d a s = _), (rfl : execVfcos c d a s = _), (rfl : execVftanh c d a s = _),
    List.forall_mem_nil _⟩

end

/-- Settles O23: the instructions of one source together, VFDIV by its own part. -/
theorem floatUnit : Obligations.FloatUnit := fun c r d a s _ _ =>
  ⟨fun hi e he => (exec_of_mem_specials e he).trans (special1_of_issues hi),
    fun y hi => (next_of_issue hi rfl rfl : execVfdiv c r d a y s = _)⟩

/-- Settles O24: each is its own part. -/
theorem laneExchange : Obligations.LaneExchange := fun c d a b s _ _ =>
  ⟨fun op y hi => (next_of_issueWide hi rfl rfl : execVshfl c op d a y s = _),
    fun bt i hi => (next_of_issueWide hi rfl rfl : execVbcast c bt d a i s = _),
    fun y hi => (next_of_issue hi rfl rfl : execVprmt c d a b y s = _),
    fun op ex ty h hi => (next_of_issueWide hi rfl rfl : execVscan c op ex ty d a h s = _)⟩

end Sys2Proof.Machine
end

section
/-! BRA, RET, CALL, SYNC, WAITQ, YIELD, NOP and EXIT (R302, R304, R307, R310-R313): O42 and O43. -/

namespace Sys2Proof.Machine

section
variable {c : Ctl} {s : State} {v v0 : View} {m : Mask}

/-- A mask that holds a lane has a lowest one. -/
theorem lowest_of_ne_zero (h : m ≠ 0) : ∃ L, lowest m = some L ∧ m.getLsbD L = true ∧ ∀ K, K < L → m.getLsbD K = false := by
  obtain ⟨L, hL⟩ := Option.ne_none_iff_exists'.1 fun hn : lowest m = none =>
    h (BitVec.eq_of_getLsbD_eq fun L hL => by simpa using List.find?_eq_none.1 hn L (List.mem_range.2 hL))
  obtain ⟨hbit, hlt⟩ := List.find?_range_eq_some.1 hL
  exact ⟨L, hL, hbit, fun K hK => by simpa using hlt.2 K hK⟩

/-! ### BRA and RET (R307, R311) -/

/-- R311: RET.V goes to the link of the lowest lane of ACT. -/
theorem exec_ret_varying_of_issues {r : VReg} (hi : IssuesW c [.v 1 true r] false s v m) :
    ∃ L, m.getLsbD L = true ∧ (∀ K, K < L → m.getLsbD K = false) ∧
      exec (.ret c (.w r)) s = .next ((v.tokenFor c 1).after c (v.rv true r L)) := by
  obtain ⟨-, -, -, -, -, -, -, -, hm, -⟩ := id hi
  obtain ⟨L, hL, hbit, hlt⟩ := lowest_of_ne_zero hm
  refine ⟨L, hbit, hlt, (next_of_issue hi rfl ?_ : execRet c (.w r) s = _)⟩
  dsimp only
  rw [hL]
  rfl

/-- R307: BRA.NZ and BRA.Z go by their register. -/
theorem exec_bra_cond_of_issues {a : SReg} {off : W32} (hi : IssuesW c [.s 1 a] false s v m) :
    exec (.bra c .nz a off) s =
        .next ((v.tokenFor c 1).after c (if v.rs a = 0 then v.succ c else v.sp.pc + off.signExtend 64)) ∧
      exec (.bra c .z a off) s =
        .next ((v.tokenFor c 1).after c (if v.rs a = 0 then v.sp.pc + off.signExtend 64 else v.succ c)) := by
  refine ⟨(next_of_issue hi rfl ?_ : execBra c .nz a off s = _), (next_of_issue hi rfl ?_ : execBra c .z a off s = _)⟩
  · rw [← ite_not]
    simp only [bne_iff_ne]
    rfl
  · simp only [beq_iff_eq]
    rfl

/-! ### CALL (R310) -/

/-- R117: a word over whose guard no lane acts goes on at its successor. -/
theorem issue_of_no_lane {us : List Use} {body : View → Mask → Res} (hv : s.view = some v0) (hr : v0.ready c 0 (usesOf [(c.guard, us)]) = some v)
    (hs : v.stalls [(c.guard, us)] = none) (ha : v.act c.guard = 0) : issue c us body s = .next (v.after c (v.succ c)) := by
  have hact : v.actOf [(c.guard, us)] = 0 := (BitVec.zero_or ..).trans ha
  simp only [issue, issueW, issueG, hv, hr, hs, Bool.false_and, Bool.false_eq_true, if_false, hact, if_true]
  rfl

/-- R192: a word that acts and writes a uniform register of a divided pack. -/
theorem issue_of_uniformFault {us : List Use} {body : View → Mask → Res} {f : FaultRec} (hv : s.view = some v0)
    (hr : v0.ready c 0 (usesOf [(c.guard, us)]) = some v) (hs : v.stalls [(c.guard, us)] = none) (ha : v.act c.guard ≠ 0)
    (hb : v.viewFault us = none) (hu : v.uniformFault (usesOf [(c.guard, us)]) = some f) : issue c us body s = .next (v.raise f) := by
  have hact : v.actOf [(c.guard, us)] ≠ 0 := fun h => ha ((BitVec.zero_or ..).symm.trans h)
  simp only [issue, issueW, issueG, hv, hr, hs, Bool.false_and, Bool.false_eq_true, if_false, hact, hb, hu]

/-- R192: in a divided pack a use that writes s0 to s59 faults. -/
theorem View.uniformFault_ds {r : SReg} (hr : r.toNat < 60) (hd : v.divided = true) :
    v.uniformFault [.ds r] = some (v.faultRec fcUniformSplit 0 0 0 0 127 0) := by
  have hlow : Use.uniform (.ds r) = true := decide_eq_true hr
  simp only [View.uniformFault, hd, List.any_cons, hlow, Bool.true_or, Bool.and_self, if_true]

/-- R179: a write of s63 is discarded. -/
theorem View.putS_discarded {x : W64} {lat : Nat} : v.putS c 63 x lat = v.tokenFor c lat := rfl

end

/-- Settles O43: each is its own part; RET.V finds the lowest lane of ACT, which no issued word has empty. -/
theorem control : Obligations.Control := fun c s v m =>
  ⟨fun hi => ⟨fun a off => (next_of_issue hi rfl rfl : execBra c .always a off s = _), (next_of_issue hi rfl rfl : execNop c s = _),
      (next_of_issue hi rfl rfl : execWaitq c false s = _), (next_of_issue hi rfl rfl : execYield c s = _),
      fun hsvc => (next_of_issue hi rfl (congrArg (v.answer c · s) (if_neg (by simp [hsvc]))) : execExit c s = _)⟩,
    fun a off hi => ⟨(exec_bra_cond_of_issues hi).1, (exec_bra_cond_of_issues hi).2, (next_of_issue hi rfl rfl : execRet c (.s a) s = _)⟩,
    fun _ => exec_ret_varying_of_issues,
    fun hi => (next_of_issueWide hi rfl rfl : execSync c s = _),
    fun hi => (issueG_of_issues (fun v _ => .done v) hi : execWaitq c true s = _)⟩

/-- Settles O42: either link is the word's own part; where the word does not get to it, no lane acts or its uniform link faults. -/
theorem call : Obligations.Call := by
  refine fun c off s v m => ⟨fun r hi => (next_of_issue hi rfl rfl : execCall c (.s r) off s = _),
    fun r hi => (next_of_issue hi rfl rfl : execCall c (.w r) off s = _), View.putS_discarded, fun l v0 hv => ?_,
    fun r => View.uniformFault_eq_none (by simp)⟩
  intro us hr hs
  have hus : usesOf [(c.guard, us)] = us := List.append_nil us
  rw [← hus] at hr
  refine ⟨fun ha => (issue_of_no_lane hv hr hs ha : execCall c l off s = _), ?_⟩
  rintro r rfl ha hlow hd
  exact (issue_of_uniformFault hv hr hs ha rfl (View.uniformFault_ds hlow hd) : execCall c (.s r) off s = _)

end Sys2Proof.Machine
end

section
/-! IRET (R369): what the end of a word leaves of the split that goes on and of the uniform registers, and O47. -/

namespace Sys2Proof.Machine

/-! ### The end of a word (R113, R118, R303) -/

/-- The split in entry `i` stands at `pc`, and the uniform registers are `u`. -/
def Pack.At (p : Pack) (i : Nat) (pc : W64) (u : SMap W64) : Prop := (p.split i).map (fun x => x.pc) = some pc ∧ p.s = u

namespace Pack.At

variable {p : Pack} {i : Nat} {pc : W64} {u : SMap W64}

theorem setSplit_self {x : Split} (hs : p.s = u) (hi : i < p.splits.length) (hpc : x.pc = pc) : (p.setSplit i (some x)).At i pc u := by
  refine ⟨?_, hs⟩
  rw [Pack.split_setSplit hi, Option.map_some, hpc]

theorem setSplit {j : Nat} {x : Split} (h : p.At i pc u) (hpc : x.pc = pc) : (p.setSplit j (some x)).At i pc u := by
  obtain ⟨hsplit, hs⟩ := h
  have hi : i < p.splits.length := Pack.lt_of_split fun hn => by simp [hn] at hsplit
  by_cases hj : j = i
  · subst hj
    exact setSplit_self hs hi hpc
  · refine ⟨?_, hs⟩
    rw [← hsplit, Pack.split, Pack.split, Pack.setSplit, List.getD_eq_getElem?_getD, List.getElem?_set_ne hj, List.getD_eq_getElem?_getD]

theorem foldl {α : Type} {f : Pack → α → Pack} {l : List α} (h : p.At i pc u) (hf : ∀ q a, q.At i pc u → (f q a).At i pc u) :
    (l.foldl f p).At i pc u := by
  induction l generalizing p with
  | nil => exact h
  | cons a l ih => exact ih (hf p a h)

/-- R118: an entry that leaves a window changes the rows, and what is outstanding. -/
theorem bankOver {e : WEntry} (h : p.At i pc u) : (p.bankOver e).At i pc u := by
  obtain ⟨hsplit, hs⟩ := h
  unfold Pack.bankOver Pack.bank
  split
  · refine ⟨?_, hs⟩
    rw [← hsplit]
    simp only [Pack.split, List.getD_eq_getElem?_getD, List.getElem?_map]
    rcases p.splits[i]? with _ | _ | x <;> rfl
  · exact ⟨hsplit, hs⟩

theorem leave {es : List WEntry} {t : Nat} (h : p.At i pc u) : (p.leave es t).At i pc u := h.foldl fun _ _ hq => hq.bankOver

/-- R303: a split that joined the word goes on where the word goes on. -/
theorem follow {j : Nat} {results : List WEntry} {t stall : Nat} (h : p.At i pc u) : (p.follow j results pc t stall).At i pc u := by
  unfold Pack.follow
  split
  · exact h
  · exact Pack.At.leave (h.setSplit rfl)

end Pack.At

/-- A pack whose split stays in its entry becomes the view's. -/
theorem View.onPack_at {v : View} {f : Pack → Pack} {pc : W64} {u : SMap W64}
    (h : (f (v.pk.setSplit v.ix (some v.sp))).At v.ix pc u) :
    (v.onPack f).ix = v.ix ∧ (v.onPack f).slot = v.slot ∧ (v.onPack f).sp.pc = pc ∧ (v.onPack f).pk.At v.ix pc u := by
  obtain ⟨x, hx, hpc⟩ := Option.map_eq_some_iff.1 h.1
  have hview : v.onPack f = { v with pk := f (v.pk.setSplit v.ix (some v.sp)), sp := x } := by
    simp only [View.onPack, hx]
  rw [hview]
  exact ⟨rfl, rfl, hpc, h⟩

/-- A word that goes on at `pc` leaves its split there, and the uniform registers as they are. -/
theorem View.finish_at (v : View) (c : Ctl) (pc : W64) (hi : v.ix < v.pk.splits.length) :
    (v.finish c pc).ix = v.ix ∧ (v.finish c pc).slot = v.slot ∧ (v.finish c pc).sp.pc = pc ∧ (v.finish c pc).pk.At v.ix pc v.pk.s :=
  View.onPack_at (Pack.At.foldl (Pack.At.leave (.setSplit_self rfl hi rfl)) fun _ _ hq => hq.follow)

/-- What the state holds after a word that goes on at `pc`. -/
theorem View.look_after (v : View) (c : Ctl) (pc : W64) (hi : v.ix < v.pk.splits.length) :
    ∃ (p : Pack) (x : Split), look ((v.after c pc).core v.ag).packs v.slot = some p ∧ p.split v.ix = some x ∧ x.pc = pc ∧ p.s = v.pk.s := by
  obtain ⟨hix, hslot, hpc, hsplit, hs⟩ := v.finish_at c pc hi
  have hag : (v.finish c pc).ag = v.ag := (View.Stays.finishKeep v [] c pc).ag
  have hlt : v.ix < (v.finish c pc).pk.splits.length := Pack.lt_of_split fun hn => by simp [hn] at hsplit
  refine ⟨_, _, ?_, Pack.split_setSplit hlt (some (v.finish c pc).sp), hpc, hs⟩
  have := (v.finish c pc).look_close
  rwa [hag, hslot, hix] at this

/-- A word leaves every other core, and memory, as they are. -/
theorem View.mem_after (v : View) (c : Ctl) (pc : W64) :
    (v.after c pc).mem = v.s.mem ∧ ∀ n, n ≠ v.ag → (v.after c pc).core n = v.s.core n := by
  obtain ⟨hs, hag, -⟩ := View.Stays.finishKeep v [] c pc
  refine ⟨(View.close_mem _).trans (congrArg (fun t : State => t.mem) hs), fun n hn => ?_⟩
  rw [← hs]
  exact View.core_close_ne _ (by rwa [View.finish, hag])

/-- A word is counted in its core, whose packs alone change beside. -/
theorem View.core_after (v : View) (c : Ctl) (pc : W64) :
    ∃ k q, (v.after c pc).core v.ag = { (v.co.worked k) with packs := q } := by
  obtain ⟨-, hag, -⟩ := View.Stays.finishKeep v [] c pc
  have hclose := (v.finish c pc).core_close
  rw [View.finish, hag, View.finishKeep_co] at hclose
  exact ⟨_, _, hclose⟩

/-! ### IRET (R369) -/

section
variable {c : Ctl} {s : State} {v : View} {m : Mask}

theorem exec_iret_of_handler (hi : IssuesW c [] false s v m) (hexl : v.co.exl = true) :
    exec (.iret c) s = .next (v.eret.after c v.co.epc) :=
  (next_of_issue hi rfl (congrArg (v.answer c · s) (if_neg (by simp [hexl]))) : execIret c s = _)

theorem exec_iret_of_ordinary (hi : IssuesW c [] false s v m) (hexl : v.co.exl = false) :
    exec (.iret c) s = .next (v.raise (v.faultRec 0x01 0 0 0 0 127 0)) :=
  (next_of_issue hi rfl (congrArg (v.answer c · s) (if_pos (by simp [hexl]))) : execIret c s = _)

end

/-- Settles O47: IRET ends its word at EPC, in a core whose EXL is 0; the end of a word leaves the rest. -/
theorem exceptionReturn : Obligations.ExceptionReturn := by
  refine fun c s v m hi hix => ⟨exec_iret_of_ordinary hi, fun hexl => ?_⟩
  obtain ⟨rfl, -, -⟩ := hi.view_eq
  obtain ⟨p, x, hlook, hsplit, hpc, hs⟩ := v.eret.look_after c v.co.epc hix
  obtain ⟨k, q, hcore⟩ := v.eret.core_after c v.co.epc
  obtain ⟨hmem, hother⟩ := v.eret.mem_after c v.co.epc
  have hcore : (v.eret.after c v.co.epc).core v.ag = _ := hcore
  refine ⟨_, p, x, exec_iret_of_handler hi hexl, hlook, hsplit, hpc, hs, ?_, ?_, ?_, ?_, hmem, hother⟩
  all_goals rw [hcore]; rfl

end Sys2Proof.Machine
end

section
/-! TRAP, BKPT, SVC and EXIT (R338, R340, R347, R353, R357): the words that complete and then fault, and the call of a pack, O45. -/

namespace Sys2Proof.Machine

section
variable {c : Ctl} {s : State} {v w x : View} {m : Mask}

/-! ### Words that complete and then fault (R347, R353, R357) -/

section
variable (hi : IssuesW c [] false s v m)
include hi

theorem exec_trap_of_issues (hd : v.svc = true → v.co.drained = true) (code : BitVec 16) : exec (.trap c code) s =
    .next ((v.tokenFor c 1).trapAfter c (v.succ c) (v.faultRec 0x17 (code.setWidth 64) 0 0 0 127 0)) :=
  (next_of_issue hi rfl (congrArg (v.answer c · s) (if_neg (by simpa using hd))) : execTrap c code s = _)

theorem exec_bkpt_of_issues (hd : v.svc = true → v.co.drained = true) : exec (.bkpt c) s =
    .next ((v.tokenFor c 1).trapAfter c (v.succ c) (v.faultRec 0x18 0 0 0 0 127 0)) :=
  (next_of_issue hi rfl (congrArg (v.answer c · s) (if_neg (by simpa using hd))) : execBkpt c s = _)

/-- R357: EXIT of a service core. -/
theorem exec_exit_of_service (hsvc : v.svc = true) (hd : v.co.drained = true) : exec (.exit c) s =
    .next ((v.tokenFor c 1).trapAfter c (v.succ c) (v.faultRec 0x21 0 0 0 0 127 0)) :=
  (next_of_issue hi rfl (congrArg (v.answer c · s) ((if_pos hsvc).trans (if_pos hd))) : execExit c s = _)

/-- R357: SVC of a service core. -/
theorem exec_svc_of_service (hag : 64 ≤ s.cur.agent) (hd : v.co.drained = true) (each : Bool) (vb : VReg) (heel : W32) :
    exec (.svc c each vb heel) s = .next ((v.tokenFor c 1).trapAfter c (v.succ c) (v.faultRec 0x20 0 0 0 0 127 0)) :=
  (next_of_issue hi (if_pos hag) (congrArg (v.answer c · s) (if_pos hd)) : execSvc c each vb heel s = _)

end

/-! ### The call of a pack (R340) -/

/-- The calling lanes whose call row has bits above 15. -/
def View.svcBad (v : View) (vb : VReg) (m : Mask) : Mask :=
  maskOf (fun L => m.getLsbD L && fld (lane (v.row (v.vrow vb)) L) 16 16 != 0)

/-- R338: the heel of the call is there where SVC.EACH has a free record; SVC takes none. -/
theorem View.svcHeel_of_free {each : Bool} (heel : W32) (h : each = true → w.pk.freeHeel ≠ none) :
    ∃ k x, w.svcHeel each heel = some (k, x) := by
  unfold View.svcHeel
  cases each with
  | false => exact ⟨_, _, rfl⟩
  | true =>
    obtain ⟨k, hk⟩ := Option.ne_none_iff_exists'.1 (h rfl)
    rw [hk]
    exact ⟨_, _, rfl⟩

section
variable {each : Bool} {vb : VReg} {heel : W32} (hag : s.cur.agent < 64)
  (hi : Issues c [(c.guard, [.v 1 false vb])] 0 (fun _ => [.vs 1 vb 6]) false s v m)
include hag hi

theorem exec_svc_of_compute : exec (.svc c each vb heel) s = .next (v.answer c (v.svcCall c each vb heel m) s) := by
  change execSvc c each vb heel s = _
  rw [execSvc, if_neg (Nat.not_le.2 hag), issueG_of_issues _ hi]

/-- R340: a bad call row faults at its lowest lane. -/
theorem exec_svc_of_bad {L : Nat} (hbad : lowest (v.svcBad vb m) = some L) : exec (.svc c each vb heel) s =
    .next (({ v with pk := v.pk.setLex 0 } : View).raise (v.faultRec fcSvcRecord 0 0 0 0 L (v.svcBad vb m))) := by
  rw [View.svcBad] at hbad ⊢
  rw [exec_svc_of_compute hag hi, View.svcCall, hbad]
  rfl

variable (hbad : lowest (v.svcBad vb m) = none)
include hbad

/-- R338: SVC.EACH without a free heel record. -/
theorem exec_svc_of_depth (heach : each = true) (hfree : v.pk.freeHeel = none) : exec (.svc c each vb heel) s =
    .next (v.raise (v.faultRec fcDivergenceDepth 0 0 0 0 127 0)) := by
  rw [View.svcBad] at hbad
  rw [exec_svc_of_compute hag hi]
  simp only [View.svcCall, hbad, heach, hfree, Option.isNone_none, Bool.and_self, if_true]
  rfl

variable {e : Nat} (hfree : each = true → v.pk.freeHeel ≠ none) (hshared : v.co.freeShared = some e) (hbusy : v.matrixBusy = false)
include hfree hshared hbusy

/-- R340: a sound call with a free entry writes its record once its release is over. -/
theorem exec_svc_of_released {h : Option Nat} (hgo : v.release .device true = .go w) (hheel : w.svcHeel each heel = some (h, x)) :
    exec (.svc c each vb heel) s = .next (x.svcPark c each vb m e h) := by
  have hroom : (each && v.pk.freeHeel.isNone) = false := by
    simpa [Option.isSome_iff_ne_none] using hfree
  rw [View.svcBad] at hbad
  rw [exec_svc_of_compute hag hi]
  simp only [View.svcCall, hbad, hroom, hshared, hbusy, hgo, hheel, Bool.false_eq_true, if_false]
  rfl

end

end

/-- Settles O45: a trap is the word's own part; a call by its bad rows, its heel and its release, which is over once nothing is left for it
to wait for (`View.release_of_releasable`). -/
theorem traps : Obligations.Traps := by
  refine fun c s v m => ⟨fun hi hd => ⟨exec_trap_of_issues hi hd, exec_bkpt_of_issues hi hd, fun hsvc => exec_exit_of_service hi hsvc (hd hsvc),
    fun hag => exec_svc_of_service hi hag ?_⟩, fun each vb heel hag hi => ⟨fun L hbad => exec_svc_of_bad hag hi hbad,
    fun hbad => exec_svc_of_depth hag hi hbad, fun e w x h hbad hfree hshared hbusy => exec_svc_of_released hag hi hbad hfree hshared hbusy,
    fun e hbad hfree hshared hbusy hrel => ?_⟩⟩
  · obtain ⟨-, hvag, -⟩ := hi.view_eq
    exact hd (decide_eq_true (by rw [hvag]; exact hag))
  · obtain ⟨w, hgo, hpast⟩ := View.release_of_releasable hrel
    obtain ⟨h, x, hheel⟩ := View.svcHeel_of_free (w := w) heel (by rwa [hpast.pk])
    exact ⟨w, x, h, hgo, hheel, exec_svc_of_released hag hi hbad hfree hshared hbusy hgo hheel⟩

end Sys2Proof.Machine
end

section
/-! TFPIN and TFREL (R258, R265, R274): O41. -/

namespace Sys2Proof.Machine

section
variable {c : Ctl} {d a : SReg} {s : State} {v w : View} {m : Mask} {bs : List Byte} {e : StageEntry} {ops : List (Nat × SMap Byte)}

/-- The pack pins the operand of `e` already. -/
def View.pinned (v : View) (e : StageEntry) : Bool := v.co.stage.any (fun (x : StageEntry) => x.sameKey e && x.pins.contains v.slot)

/-- The core's pins have no room for the operand of `e` (R265). -/
def View.pinsFull (v : View) (e : StageEntry) : Bool :=
  decide (8 ≤ v.co.pinSizes.length) || decide (131072 < v.co.pinSizes.foldl (· + ·) 0 + e.size)

/-- The staged entries of the operands are pinned for the pack. -/
def View.pinTiles (v : View) (ops : List (Nat × SMap Byte)) : View :=
  { v with co := { v.co with stage := v.co.stage.map (fun (x : StageEntry) =>
    if ops.any (fun o => o.1 == x.stamp) then { x with pins := x.pins ++ [v.slot] } else x) } }

/-- The pack's pins of the entries that `p` chooses are released. -/
def View.unpinTiles (v : View) (p : StageEntry → Bool) : View :=
  { v with co := { v.co with stage := v.co.stage.map (fun (x : StageEntry) =>
    if p x then { x with pins := x.pins.filter (fun k => k != v.slot) } else x) } }

/-! ### TFPIN -/

section
variable (hi : IssuesW c [.ds d, .s 1 a] false s v m) (ht : v.tileAt ((v.rs a).toNat % 2 ^ 32) = .ok bs)
include hi ht

/-- R258, R274: a record that fails a check faults with the check's reason. -/
theorem exec_tfpin_of_flaw {r : Nat} (hf : recordFlaw bs .pin = some r) : exec (.tfpin c d a) s =
    .next (v.raise (v.faultRec fcTileRecord (BitVec.ofNat 64 ((v.rs a).toNat % 2 ^ 32)) r 0 0 127 0)) := by
  change execTfpin c d a s = _
  simp only [execTfpin, issue_of_issues _ hi, ht, hf, View.tileFault, View.answer]

variable (hf : recordFlaw bs .pin = none)
include hf

/-- R274: an operand that the pack pins already. -/
theorem exec_tfpin_of_pinned (hp : v.pinned (stageFor v.pk.asid bs) = true) :
    exec (.tfpin c d a) s = .next ((v.dropFetches.landS c d 0).placed s) := by
  rw [View.pinned] at hp
  change execTfpin c d a s = _
  simp only [execTfpin, issue_of_issues _ hi, ht, hf, hp, if_true]
  rfl

variable (hp : v.pinned (stageFor v.pk.asid bs) = false)
include hp

/-- R265, R274: no room for one more pin. -/
theorem exec_tfpin_of_full (hfull : v.pinsFull (stageFor v.pk.asid bs) = true) :
    exec (.tfpin c d a) s = .next ((v.dropFetches.landS c d 1).placed s) := by
  rw [View.pinned] at hp
  rw [View.pinsFull] at hfull
  change execTfpin c d a s = _
  simp only [execTfpin, issue_of_issues _ hi, ht, hf, hp, hfull, Bool.false_eq_true, if_false, if_true]
  rfl

/-- R274: the staged operand is pinned. -/
theorem exec_tfpin_of_staged (hfull : v.pinsFull (stageFor v.pk.asid bs) = false) (hturn : v.myTurn = true)
    (hgo : v.stageAll [stageFor v.pk.asid bs] = .go w ops) :
    exec (.tfpin c d a) s = .next (((w.pinTiles ops).dropFetches.landS c d 0).placed s) := by
  rw [View.pinned] at hp
  rw [View.pinsFull] at hfull
  change execTfpin c d a s = _
  simp only [execTfpin, issue_of_issues _ hi, ht, hf, hp, hfull, hturn, hgo, Bool.not_true, Bool.false_eq_true, if_false]
  rfl

end

/-! ### TFREL -/

/-- R274: TFREL.ALL releases every pin of the pack. -/
theorem exec_tfrel_all_of_issues (hi : IssuesW c [] false s v m) : let w := v.unpinTiles (fun _ => true)
    exec (.tfrel c true a) s = .next (((w.reopen (w.close.reapStage v.ag)).tokenFor c 1).after c (v.succ c)) :=
  (next_of_issue hi rfl (congrArg (v.answer c · s) (if_pos rfl)) : execTfrel c true a s = _)

/-- R274: TFREL releases the pack's pin of its operand. -/
theorem exec_tfrel_of_issues (hi : IssuesW c [.s 1 a] false s v m) (ht : v.tileAt ((v.rs a).toNat % 2 ^ 32) = .ok bs) :
    let w := v.unpinTiles (fun x => x.sameKey (stageFor v.pk.asid bs))
    exec (.tfrel c false a) s = .next (((w.reopen (w.close.reapStage v.ag)).tokenFor c 1).after c (v.succ c)) := by
  change execTfrel c false a s = _
  refine next_of_issue hi rfl ?_
  simp only [Bool.false_eq_true, if_false, ht]
  rfl

end

/-- Settles O41: TFPIN by its record, the pins of its operand and their room; a staged operand is taken at once
(`View.stageAll_of_staged`). TFREL by the entries that it chooses. -/
theorem tilePins : Obligations.TilePins := by
  refine fun c d a s v m bs => ⟨fun hi ht => ⟨fun r => exec_tfpin_of_flaw hi ht, fun hf => ⟨exec_tfpin_of_pinned hi ht hf,
    exec_tfpin_of_full hi ht hf, fun w ops => exec_tfpin_of_staged hi ht hf, fun hp hfull hturn hstaged => ?_⟩⟩,
    exec_tfrel_all_of_issues, exec_tfrel_of_issues⟩
  obtain ⟨ops, hgo⟩ := View.stageAll_of_staged (v := v) (ws := [stageFor v.pk.asid bs]) (by simpa using hstaged)
  exact ⟨ops, hgo, exec_tfpin_of_staged hi ht hf hp hfull hturn hgo⟩

end Sys2Proof.Machine
end

section
/-! How MMA, MMAS, MSCALE, MZERO and MCVT enter the matrix queue (R256-R258, R261-R264, R269-R273): O40. -/

namespace Sys2Proof.Machine

section
variable {c : Ctl} {s : State} {v w x : View} {m : Mask}

/-- Entering the queue places the split. -/
theorem View.answer_enqueue {ops : List (Nat × SMap Byte)} {op : MatOp} :
    v.answer c (x.enqueue c ops op) s = (x.enqueue c ops op).placed s := rfl

/-! ### MMA and MMAS (R256, R261-R264, R269-R271) -/

/-- The bytes of the metadata record that a record of A names (R262), if they can be read. -/
def View.metaBytes (v : View) (ra : TileRec) : List Byte := match v.tileAt ra.mta with | .ok x => x | .error _ => []

/-- The queued instruction that MMA and MMAS make of their records. -/
def View.mmaOp (v : View) (sparse z h : Bool) (d : CReg) (ba bb : List Byte) (m : Mask) : MatOp :=
  { (matOp (.mma sparse z h (tileRec (v.metaBytes (tileRec ba))).pitch 0) (v.crow d)) with ra := tileRec ba, rb := tileRec bb, act := m }

/-- Its operands, as the stage holds them. -/
def View.mmaTiles (v : View) (ba bb : List Byte) : List StageEntry := [stageFor v.pk.asid ba, stageFor v.pk.asid bb]

/-- The instruction with the bytes of its operands and its metadata. -/
def View.fedOp (x : View) (op : MatOp) (sparse : Bool) (mt : List Byte) (ops : List (Nat × SMap Byte)) : MatOp :=
  { op with
    abytes := (match ops[0]? with | some y => y.2 | none => []), bbytes := (match ops[1]? with | some y => y.2 | none => [])
    scale := if sparse then x.metaMap (recNum mt 0 4) (tileRec mt) else [] }

/-- MMA and MMAS once their records are sound: the place in the queue, the turn to fetch, the operands and the rows. -/
def View.startMultiply (v : View) (c : Ctl) (sparse : Bool) (d : CReg) (op : MatOp) (ba bb mt : List Byte) : Res :=
  if !v.hasPlace && decide (8 ≤ v.co.mq.length) then .wait
  else if !(v.takePlace op).myTurn then .hold (v.takePlace op)
  else
    match (v.takePlace op).stageAll ((v.takePlace op).mmaTiles ba bb) with
    | .wait => .hold (v.takePlace op)
    | .hold w => .hold w
    | .fault w f => .state (w.raise f)
    | .go w ops =>
      match w.matrixReady (tileHas (w.crow d)) with
      | none => .hold (w.holdTiles ((v.takePlace op).mmaTiles ba bb))
      | some x => x.enqueue c ops (x.fedOp op sparse mt ops)

section
variable {sparse z h : Bool} {d : CReg} {a b : SReg} {ao bo : BitVec 20}

/-- The metadata of an MMAS is sound (R262, R263). -/
def View.metaSound (v : View) (ra : TileRec) : Prop :=
  ra.mta % 32 = 0 ∧ ra.mta + 32 ≤ v.spSize ∧ v.spRangeUe ra.mta 32 = none ∧ metaFlaw (v.metaBytes ra) ra v.spSize = false ∧
    v.metaUe (recNum (v.metaBytes ra) 0 4) (tileRec (v.metaBytes ra)) = none

section
variable (hi : Issues c [(c.guard, [.s 1 a, .s 2 b])] 0 (fun _ => [.dc d]) true s v m)
include hi

theorem exec_multiply_of_issues : exec (if sparse then .mmas c z h d a ao b bo else .mma c z h d a ao b bo) s =
    .next (v.answer c (v.multiply c sparse z h d a ao b bo m) s) := by
  cases sparse with
  | false => exact (issueG_of_issues _ hi : execMma c z h d a ao b bo s = _)
  | true => exact (issueG_of_issues _ hi : execMmas c z h d a ao b bo s = _)

/-- R269: a live lane is missing. -/
theorem exec_multiply_of_missing {f : FaultRec} (hm : v.missingLane m = some f) :
    exec (if sparse then .mmas c z h d a ao b bo else .mma c z h d a ao b bo) s = .next (v.raise f) := by
  rw [exec_multiply_of_issues hi]
  simp only [View.multiply, hm, View.answer]

end

section
variable {oa ob : Nat} {ba bb : List Byte} (hoa : oa = ((v.rs a).toNat + ao.toNat) % 2 ^ 32)
  (hob : ob = ((v.rs b).toNat + bo.toNat) % 2 ^ 32) (hm : v.missingLane m = none) (hta : v.tileAt oa = .ok ba) (htb : v.tileAt ob = .ok bb)
include hoa hob hm hta htb

/-- R258, R261: a record of A that fails a check. -/
theorem View.multiply_of_flaw {r : Nat} (hr : recordFlaw ba (.a sparse) = some r) :
    v.multiply c sparse z h d a ao b bo m = .fault (v.faultRec fcTileRecord (BitVec.ofNat 64 oa) r 0 0 127 0) := by
  subst hoa hob
  simp only [View.multiply, hm, hta, htb, hr, View.tileFault]

/-- R261-R263: with sound records, what is left is the queue and the operands. -/
theorem View.multiply_of_sound (hra : recordFlaw ba (.a sparse) = none) (hrb : recordFlaw bb (.b sparse) = none)
    (hpair : pairFlaw (tileRec ba) (tileRec bb) sparse h = false) (hmeta : sparse = true → v.metaSound (tileRec ba)) :
    v.multiply c sparse z h d a ao b bo m =
      v.startMultiply c sparse d (v.mmaOp sparse z h d ba bb m) ba bb (v.metaBytes (tileRec ba)) := by
  subst hoa hob
  cases sparse with
  | false =>
    simp only [View.multiply, hm, hta, htb, hra, hrb, hpair, Bool.false_and, Bool.false_eq_true, if_false]
    rfl
  | true =>
    obtain ⟨hal, hsize, hue, hflaw, hmue⟩ := hmeta rfl
    have hout : ((tileRec ba).mta % 32 != 0 || decide (v.spSize < (tileRec ba).mta + 32)) = false := by
      simp [hal, Nat.not_lt.2 hsize]
    cases hmt : v.tileAt (tileRec ba).mta
    all_goals
      simp only [View.metaBytes, hmt] at hflaw hmue
      simp only [View.multiply, hm, hta, htb, hra, hrb, hpair, hmt, hout, hue, hflaw, hmue, Bool.true_and, Bool.false_eq_true, if_false,
        if_true, View.mmaOp, View.metaBytes]
      rfl

end

/-- A place in the queue leaves the pack and the split. -/
theorem View.takePlace_eq (v : View) (op : MatOp) : (v.takePlace op).pk = v.pk ∧ (v.takePlace op).sp = v.sp := by
  unfold View.takePlace
  split <;> exact ⟨rfl, rfl⟩

theorem View.crow_takePlace (op : MatOp) (r : CReg) : (v.takePlace op).crow r = v.crow r := by
  obtain ⟨hpk, -⟩ := v.takePlace_eq op
  rw [View.crow, View.crow, hpk]

theorem View.mmaTiles_takePlace (op : MatOp) (ba bb : List Byte) : (v.takePlace op).mmaTiles ba bb = v.mmaTiles ba bb := by
  obtain ⟨hpk, -⟩ := v.takePlace_eq op
  rw [View.mmaTiles, View.mmaTiles, hpk]

/-- R256, R264: a place, the turn, staged operands and free rows. -/
theorem View.startMultiply_of_ready {op : MatOp} {ba bb mt : List Byte} {ops : List (Nat × SMap Byte)}
    (hplace : v.hasPlace = true ∨ v.co.mq.length < 8) (hturn : (v.takePlace op).myTurn = true)
    (hgo : (v.takePlace op).stageAll (v.mmaTiles ba bb) = .go w ops) (hx : w.matrixReady (tileHas (w.crow d)) = some x) :
    v.startMultiply c sparse d op ba bb mt = x.enqueue c ops (x.fedOp op sparse mt ops) := by
  have hroom : (!v.hasPlace && decide (8 ≤ v.co.mq.length)) = false := by
    rcases hplace with h | h
    · simp [h]
    · simp [Nat.not_le.2 h]
  rw [← View.mmaTiles_takePlace op] at hgo
  simp only [View.startMultiply, hroom, hturn, hgo, hx, Bool.not_true, Bool.false_eq_true, if_false]

theorem View.rowsFree_takePlace {rows : Nat → Bool} (op : MatOp) (hf : v.rowsFree rows) : (v.takePlace op).rowsFree rows := by
  obtain ⟨hpk, hsp⟩ := v.takePlace_eq op
  rwa [View.rowsFree, View.joined, View.joins, hpk, hsp]

/-- Staged operands and free rows are there at once. -/
theorem View.ready_of_staged {op : MatOp} {ba bb : List Byte} (ha : v.staged (stageFor v.pk.asid ba)) (hb : v.staged (stageFor v.pk.asid bb))
    (hf : v.rowsFree (tileHas (v.crow d))) :
    ∃ ops x, (v.takePlace op).stageAll (v.mmaTiles ba bb) = .go (v.takePlace op) ops ∧
      (v.takePlace op).matrixReady (tileHas (v.crow d)) = some x := by
  obtain ⟨ops, hgo⟩ := View.stageAll_of_staged (v := v.takePlace op) (ws := v.mmaTiles ba bb)
    (by simpa [View.mmaTiles] using ⟨View.staged_takePlace op ha, View.staged_takePlace op hb⟩)
  obtain ⟨x, hx⟩ := View.matrixReady_of_rowsFree (View.rowsFree_takePlace op hf)
  exact ⟨ops, x, hgo, hx⟩

end

/-- R256, R261-R264: MMA and MMAS with sound records, a place, the turn, staged operands and free rows. -/
theorem exec_multiply_of_ready {sparse z h : Bool} {d : CReg} {a b : SReg} {ao bo : BitVec 20} {ba bb : List Byte}
    {ops : List (Nat × SMap Byte)} (hi : Issues c [(c.guard, [.s 1 a, .s 2 b])] 0 (fun _ => [.dc d]) true s v m)
    (hm : v.missingLane m = none) (hta : v.tileAt (((v.rs a).toNat + ao.toNat) % 2 ^ 32) = .ok ba)
    (htb : v.tileAt (((v.rs b).toNat + bo.toNat) % 2 ^ 32) = .ok bb) (hra : recordFlaw ba (.a sparse) = none)
    (hrb : recordFlaw bb (.b sparse) = none) (hpair : pairFlaw (tileRec ba) (tileRec bb) sparse h = false)
    (hmeta : sparse = true → v.metaSound (tileRec ba)) (hplace : v.hasPlace = true ∨ v.co.mq.length < 8)
    (hturn : (v.takePlace (v.mmaOp sparse z h d ba bb m)).myTurn = true)
    (hgo : (v.takePlace (v.mmaOp sparse z h d ba bb m)).stageAll (v.mmaTiles ba bb) = .go w ops)
    (hx : w.matrixReady (tileHas (w.crow d)) = some x) :
    exec (if sparse then .mmas c z h d a ao b bo else .mma c z h d a ao b bo) s =
      .next ((x.enqueue c ops (x.fedOp (v.mmaOp sparse z h d ba bb m) sparse (v.metaBytes (tileRec ba)) ops)).placed s) := by
  rw [exec_multiply_of_issues hi, View.multiply_of_sound rfl rfl hm hta htb hra hrb hpair hmeta,
    View.startMultiply_of_ready hplace hturn hgo hx, View.answer_enqueue]

/-! ### MSCALE, MZERO and MCVT (R257, R272, R273) -/

/-- R272: MSCALE takes its scale bytes. -/
theorem exec_mscale_of_ready {z i : Bool} {d p : CReg} {rs : VSrc} {ss : SReg} {soff : BitVec 20}
    (hi : Issues c [(c.guard, [.s 3 ss])] 0 (fun _ => [.dc d, .c 1 p, useV 2 false rs]) true s v m) :
    let so := ((v.rs ss).toNat + soff.toNat) % 2 ^ 32
    v.missingLane m = none → v.scaleFault so = none → v.co.mq.length < 8 →
    v.matrixReady (fun n => tileHas (v.crow d) n || tileHas (v.crow p) n || n == v.vrow rs.reg) = some x →
    exec (.mscale c z i d p rs ss soff) s = .next ((x.enqueue c [] { (matOp (.mscale z i) (x.crow d)) with
      arow := x.crow p, brow := x.vrow rs.reg, scale := x.spMap so 512, act := m }).placed s) := by
  intro so hm hscale hq hx
  change execMscale c z i d p rs ss soff s = _
  simp only [execMscale, issueG_of_issues _ hi, hm, hscale, if_neg (Nat.not_le.2 hq), hx, View.answer_enqueue, so]

/-- R273: MZERO asks no more than its own lanes. -/
theorem exec_mzero_of_ready {d : CReg} (hi : Issues c [(c.guard, [])] 0 (fun _ => [.dc d]) false s v m) (hq : v.co.mq.length < 8)
    (hx : v.matrixReady (tileHas (v.crow d)) = some x) :
    exec (.mzero c d) s = .next ((x.enqueue c [] (matOp (.mzero m) (x.crow d))).placed s) := by
  change execMzero c d s = _
  simp only [execMzero, issueG_of_issues _ hi, if_neg (Nat.not_le.2 hq), hx, View.answer_enqueue]

/-- R273, R317: MCVT takes its key, and FPF.SATF as it stands at issue. -/
theorem exec_mcvt_of_ready {h : Bool} {ty : Ty} {r : Rnd} {d : VReg} {a : CReg} {key : SReg}
    (hi : Issues c [(c.guard, if r = .sr then [.s 2 key] else [])] 0 (fun _ => [.dvs d (mcvtRows ty), .c 1 a]) true s v m)
    (hm : v.missingLane m = none) (hq : v.co.mq.length < 8)
    (hx : v.matrixReady (fun n => tileHas (v.crow a) n || (decide (v.vrow d ≤ n) && decide (n < v.vrow d + mcvtRows ty))) = some x) :
    exec (.mcvt c h ty r d a key) s =
      .next ((x.enqueue c [] { (matOp (.mcvt h ty r (x.rs key) (bit (x.pk.special sprFpf) 16)) (x.vrow d)) with
        arow := x.crow a, act := m }).placed s) := by
  change execMcvt c h ty r d a key s = _
  simp only [execMcvt, issueG_of_issues _ hi, hm, if_neg (Nat.not_le.2 hq), hx, View.answer_enqueue]

end

/-- Settles O40: MMA and MMAS by their first missing lane, their records, and then their place, turn, operands and rows; staged operands and
free rows are there at once (`View.stageAll_of_staged`, `View.matrixReady_of_rowsFree`). The others by their rows. -/
theorem matrixIssue : Obligations.MatrixIssue := by
  refine fun c s v m => ⟨fun sparse z h d a b ao bo hi => ⟨fun f => exec_multiply_of_missing hi, ?_, ?_, ?_⟩,
    fun z i d p rs ss soff x hi => exec_mscale_of_ready hi, fun z i d p rs ss soff hi => ?_,
    fun d x hi => exec_mzero_of_ready hi, fun d hi hq hf => ?_,
    fun h ty r d a key x hi => exec_mcvt_of_ready hi, fun h ty r d a key hi => ?_⟩
  · intro ba bb r hm hta htb hr
    refine (exec_multiply_of_issues hi).trans ?_
    rw [View.multiply_of_flaw rfl rfl hm hta htb hr]
    rfl
  · intro ba bb w x ops ra rb mt hm hta htb hra hrb hpair op hmeta hplace hturn hgo hx
    exact exec_multiply_of_ready hi hm hta htb hra hrb hpair hmeta hplace hturn hgo hx
  · intro ba bb ra rb mt hm hta htb hra hrb hpair op hmeta hplace hturn ha hb hf
    obtain ⟨ops, x, hgo, hx⟩ := View.ready_of_staged (op := op) ha hb hf
    exact ⟨ops, x, hgo, hx,
      exec_multiply_of_ready hi hm hta htb hra hrb hpair hmeta hplace hturn hgo (by rwa [View.crow_takePlace])⟩
  · intro so rows hm hscale hq hf
    obtain ⟨x, hx⟩ := View.matrixReady_of_rowsFree hf
    exact ⟨x, hx, exec_mscale_of_ready hi hm hscale hq hx⟩
  · obtain ⟨x, hx⟩ := View.matrixReady_of_rowsFree hf
    exact ⟨x, hx, exec_mzero_of_ready hi hq hx⟩
  · intro rows hm hq hf
    obtain ⟨x, hx⟩ := View.matrixReady_of_rowsFree hf
    exact ⟨x, hx, exec_mcvt_of_ready hi hm hq hx⟩

end Sys2Proof.Machine
end

section
/-! SRES, PSTOP, PCTXSV, PCTXLD and TLBINV of a service core (R341, R346, R360, R363-R366). -/

namespace Sys2Proof.Machine

section
variable {c : Ctl} {d a b : SReg} {s t : State} {v w : View} {m : Mask}

/-! ### SRES (R346, R363) -/

/-- SRES may deliver the lanes of `g` to entry `e` (R363): it holds an SVC record, the lanes call and have no results yet, and SRES.M names a
saved one. -/
def Core.awaits (q : Core) (e : Nat) (g : Mask) (mark : Bool) : Prop :=
  q.kfield e 0 1 = 1 ∧ g &&& ~~~(q.klanes e &&& ~~~(q.kdone e)) = 0 ∧ (q.kfield e 1 1 / 2 % 2 = 1 ↔ mark = true)

/-- A result of a lane of `g` in the staging block of entry `e` is poisoned (R34, R362). -/
def Core.stagedPoison (q : Core) (e : Nat) (g : Mask) : Bool :=
  lanes.any (fun L => g.getLsbD L && (List.range 3).any (fun r =>
    q.spPoison (q.sysBase + 0x800 + 1152 * (e - 24) + 384 * r + 4 * L) 4 false))

theorem Core.refuses_iff {q : Core} {e : Nat} {g : Mask} {mark : Bool} :
    (decide (q.kfield e 0 1 ≠ 1) || decide (g &&& ~~~(q.klanes e &&& ~~~(q.kdone e)) ≠ 0) || (q.kfield e 1 1 / 2 % 2 == 1) != mark) = true ↔
      ¬ q.awaits e g mark := by
  have hmark : ((q.kfield e 1 1 / 2 % 2 == 1) != mark) = true ↔ ¬ (q.kfield e 1 1 / 2 % 2 = 1 ↔ mark = true) := by
    rw [bne_iff_ne, ne_eq, Bool.eq_iff_iff, beq_iff_eq]
  rw [Core.awaits, Bool.or_eq_true, Bool.or_eq_true, decide_eq_true_iff, decide_eq_true_iff, hmark, or_assoc,
    not_and_or, not_and_or]

/-- Without poison no result of the lanes is found poisoned. -/
theorem Core.find_poison_eq_none {q : Core} {e : Nat} {g : Mask} (h : q.stagedPoison e g = false) :
    ((List.range 3).flatMap (fun r => (lanesOf g).map (fun L => q.sysBase + 0x800 + 1152 * (e - 24) + 384 * r + 4 * L))).find?
      (fun x => q.spPoison x 4 false) = none := by
  refine List.find?_eq_none.2 fun x hx hp => ?_
  obtain ⟨r, hr, hx⟩ := List.mem_flatMap.1 hx
  obtain ⟨L, hL, rfl⟩ := List.mem_map.1 hx
  obtain ⟨hlane, hbit⟩ := List.mem_filter.1 hL
  refine Bool.false_ne_true (h.symm.trans (List.any_eq_true.2 ⟨L, hlane, ?_⟩))
  rw [hbit, Bool.true_and]
  exact List.any_eq_true.2 ⟨r, hr, hp⟩

section
variable {mark : Bool} (hi : IssuesW c [.s 1 a, .s 2 b, .s 2 (b + 1), .s 2 (b + 2)] false s v m)
include hi

/-- R363: SRES of lanes that entry does not wait for. -/
theorem exec_sres_of_refused
    (h : ¬ (v.s.core (v.mate ((v.rs a).toNat % 64 / 32))).awaits ((v.rs a).toNat % 32) (v.mask3 b) mark) :
    exec (.sres c mark a b) s = .next (v.raise (v.faultRec fcSvcRecord 0 0 0 0 127 0)) := by
  change execSres c mark a b s = _
  rw [execSres, issue_of_issues _ hi]
  dsimp only
  rw [Nat.mod_mod_of_dvd _ (by decide : 32 ∣ 64), if_pos (Core.refuses_iff.2 h)]
  rfl

/-- R346: SRES.M of a saved workgroup's record adds its lanes to DONE. -/
theorem exec_sres_of_saved
    (h : (v.s.core (v.mate ((v.rs a).toNat % 64 / 32))).awaits ((v.rs a).toNat % 32) (v.mask3 b) true) : exec (.sres c true a b) s =
    .next ((({ v with s := v.s.updCore (v.mate ((v.rs a).toNat % 64 / 32)) (fun k => k.addDone ((v.rs a).toNat % 32) (v.mask3 b)) } :
      View).tokenFor c 1).after c (v.succ c)) := by
  change execSres c true a b s = _
  rw [execSres, issue_of_issues _ hi]
  dsimp only
  rw [Nat.mod_mod_of_dvd _ (by decide : 32 ∣ 64), if_neg fun hr => Core.refuses_iff.1 hr h, if_neg (by simp), if_pos rfl]
  rfl

/-- R346, R363: SRES of a resident pack delivers the results once its release is over. -/
theorem exec_sres_of_resident
    (h : (v.s.core (v.mate ((v.rs a).toNat % 64 / 32))).awaits ((v.rs a).toNat % 32) (v.mask3 b) false)
    (hp : (v.s.core (v.mate ((v.rs a).toNat % 64 / 32))).stagedPoison ((v.rs a).toNat % 32) (v.mask3 b) = false)
    (hgo : v.release .device true = .go w) : exec (.sres c false a b) s =
    .next ((({ w with s := w.s.updCore (v.mate ((v.rs a).toNat % 64 / 32)) (fun k => k.deliver ((v.rs a).toNat % 32) (v.mask3 b)) } :
      View).tokenFor c 1).after c (v.succ c)) := by
  change execSres c false a b s = _
  rw [execSres, issue_of_issues _ hi]
  dsimp only
  rw [Nat.mod_mod_of_dvd _ (by decide : 32 ∣ 64), if_neg fun hr => Core.refuses_iff.1 hr h, Core.find_poison_eq_none hp,
    if_neg (by simp), if_neg (by simp), hgo]
  rfl

end

/-! ### PSTOP (R348, R360, R364) -/

section
variable (hi : IssuesW c [.ds d, .s 1 a] false s v m)
include hi

theorem exec_pstop_of_nothing (hp : v.handlePack (v.rs a) = none) : exec (.pstop c d a) s = .next ((v.landS c d 2).placed s) := by
  change execPstop c d a s = _
  simp only [execPstop, issue_of_issues _ hi, hp, View.answer_landS]

theorem exec_pstopGo_of_nothing (hp : v.handlePack (v.rs a) = none) : exec (.pstopGo c d a) s = .next ((v.landS c d 2).placed s) := by
  change execPstopGo c d a s = _
  simp only [execPstopGo, issue_of_issues _ hi, hp, View.answer_landS]

variable {n slot : Nat} {p : Pack} (hp : v.handlePack (v.rs a) = some (n, slot, p))
include hp

/-- R364: PSTOP of a stopped pack: its own stop has happened, or the pack was stopped before. -/
theorem exec_pstop_of_stopped (hs : p.stopped = true) :
    exec (.pstop c d a) s = .next ((v.landS c d (if v.sp.phase = 1 then 0 else 1)).placed s) := by
  change execPstop c d a s = _
  simp only [execPstop, issue_of_issues _ hi, hp, hs, if_true, View.answer_landS]

/-- R364: PSTOP asks for the stop of a running pack. -/
theorem exec_pstop_of_running (hs : p.stop = none) (hphase : v.sp.phase ≠ 1) : exec (.pstop c d a) s = .next ({ v with
    s := v.s.updCore n (fun k => k.updPack slot (fun p => { p with stop := some ⟨0, none, 0, false, false, false⟩ }))
    sp := { v.sp with phase := 1 } } : View).close := by
  have hrun : p.stopped = false := by
    rw [Pack.stopped, hs]
  change execPstop c d a s = _
  simp only [execPstop, issue_of_issues _ hi, hp, hrun, hs, hphase, Bool.false_eq_true, if_false, View.answer]

/-- R349, R364: PSTOP.GO resumes a stopped pack. -/
theorem exec_pstopGo_of_stopped (hs : p.stopped = true) : exec (.pstopGo c d a) s =
    .next ((({ v with s := v.s.resumePack n slot } : View).landS c d 0).placed s) := by
  change execPstopGo c d a s = _
  simp only [execPstopGo, issue_of_issues _ hi, hp, hs, if_true]
  rfl

theorem exec_pstopGo_of_running (hs : p.stopped = false) : exec (.pstopGo c d a) s = .next ((v.landS c d 2).placed s) := by
  change execPstopGo c d a s = _
  simp only [execPstopGo, issue_of_issues _ hi, hp, hs, Bool.false_eq_true, if_false, View.answer_landS]

end

section
variable (hi : IssuesW c [.ds d, .s 1 a, .s 2 b] false s v m)
include hi

theorem exec_pstopEnd_of_nothing (hphase : v.sp.phase ≠ 1) (hp : v.handlePack (v.rs a) = none) :
    exec (.pstopEnd c d a b) s = .next ((v.landS c d 2).placed s) := by
  change execPstopEnd c d a b s = _
  simp only [execPstopEnd, issue_of_issues _ hi, hphase, hp, if_false, View.answer_landS]

section
variable {n slot : Nat} {p : Pack} (hphase : v.sp.phase ≠ 1) (hp : v.handlePack (v.rs a) = some (n, slot, p))
include hphase hp

theorem exec_pstopEnd_of_running (hs : p.stopped = false) : exec (.pstopEnd c d a b) s = .next ((v.landS c d 2).placed s) := by
  change execPstopEnd c d a b s = _
  simp only [execPstopEnd, issue_of_issues _ hi, hphase, hp, hs, Bool.not_false, if_false, if_true, View.answer_landS]

/-- R364: PSTOP.END ends a stopped pack with its code. -/
theorem exec_pstopEnd_of_stopped (hs : p.stopped = true) : exec (.pstopEnd c d a b) s =
    .next ({ v with s := v.s.killPack n slot p (fld (v.rs b) 0 8), sp := { v.sp with phase := 1 } } : View).close := by
  change execPstopEnd c d a b s = _
  simp only [execPstopEnd, issue_of_issues _ hi, hphase, hp, hs, Bool.not_true, Bool.false_eq_true, if_false, View.answer]

end

/-- R289, R364: PSTOP.END is over once its pack has gone. -/
theorem exec_pstopEnd_of_gone {n slot : Nat} (hphase : v.sp.phase = 1) (hp : v.handle (v.rs a) = some (n, slot))
    (hgone : look (v.s.core n).packs slot = none) : exec (.pstopEnd c d a b) s = .next ((v.landS c d 0).placed s) := by
  change execPstopEnd c d a b s = _
  simp only [execPstopEnd, issue_of_issues _ hi, hphase, hp, hgone, if_true, View.answer_landS]

/-! ### PCTXSV and PCTXLD (R365) -/

theorem exec_pctxsv_of_nothing (hp : v.handlePack (v.rs a) = none) : exec (.pctxsv c d a b) s = .next ((v.landS c d 2).placed s) := by
  change execPctxsv c d a b s = _
  simp only [execPctxsv, issue_of_issues _ hi, hp, View.answer_landS]

/-- R365: the workgroup of a stopped pack is saved once its window is quiet. -/
theorem exec_pctxsv_of_saved {n slot : Nat} {p : Pack} (hp : v.handlePack (v.rs a) = some (n, slot, p)) (hal : (v.rs b).toNat % 4096 = 0)
    (hstop : ((v.s.core n).wgPacks p).any (fun q => !q.stopped) = false) (hquiet : v.s.windowQuiet p.launch p.wg = true)
    (hsave : v.close.saveWg (v.saver kWrite) n p (v.rs b) = .ok () t) :
    exec (.pctxsv c d a b) s = .next (((v.reopen t).landS c d 0).placed s) := by
  change execPctxsv c d a b s = _
  simp only [execPctxsv, issue_of_issues _ hi, hp, hal, hstop, hquiet, hsave, ne_eq, not_true_eq_false, Bool.not_true, Bool.false_eq_true,
    if_false]
  rfl

/-- R365: PCTXLD of an image without a bad byte gives its status. -/
theorem exec_pctxld_of_loaded {k : Nat} (hh : v.rs a &&& ~~~0x11F#64 = 0) (hal : (v.rs b).toNat % 4096 = 0)
    (hload : v.close.loadWg (v.saver kRead) (v.mate (fld (v.rs a) 8 1)) (v.rs b).toNat = .ok (.status k) t) :
    exec (.pctxld c d a b) s = .next (((v.reopen t).landS c d (BitVec.ofNat 64 k)).placed s) := by
  change execPctxld c d a b s = _
  simp only [execPctxld, issue_of_issues _ hi, hh, hal, hload, ne_eq, not_true_eq_false, if_false]
  rfl

end

/-! ### TLBINV (R366) -/

section
variable {mode : TlbMode} {hub : Bool} (hi : IssuesW c [.s 1 a, .s 2 b] false s v m)
include hi

/-- R366: TLBINV drops the translations first. -/
theorem exec_tlbinv_of_first (hphase : v.sp.phase = 0) :
    let t := v.close.dropTlb v.cluster hub mode ((v.rs b).toNat % 65536) (v.rs a).toNat
    exec (.tlbinv c mode hub a b) s = .next ({ v.reopen t with sp := { (v.reopen t).sp with phase := t.next + 1 } } : View).close :=
  (next_of_issue hi rfl (congrArg (v.answer c · s) (if_pos hphase)) : execTlbinv c mode hub a b s = _)

/-- An access that began before TLBINV is under way in the cluster. -/
def View.earlier (v : View) : Bool :=
  (clusterAgents v.cluster).any (fun n => (v.close.core n).ops.any (fun o => decide (o.id < v.sp.phase)) ||
    (v.close.core n).fetches.any (fun f => decide (f.id < v.sp.phase) && !f.todo.isEmpty && f.fault.isNone))

/-- R366: TLBINV completes after the accesses begun before it. -/
theorem exec_tlbinv_of_last (hphase : v.sp.phase ≠ 0) (h : v.earlier = false) :
    exec (.tlbinv c mode hub a b) s = .next ((v.tokenFor c 1).after c (v.succ c)) :=
  (next_of_issue hi rfl (congrArg (v.answer c · s) ((if_neg hphase).trans (if_neg (Bool.eq_false_iff.1 h)))) :
    execTlbinv c mode hub a b s = _)

end

end

end Sys2Proof.Machine
end

section
/-! MBXSEND, MBXRECV, ZAP and HALT (R67, R360, R361, R367-R369): O51. -/

namespace Sys2Proof.Machine

section
variable {c : Ctl} {d a b : SReg} {s : State} {v w : View} {m : Mask}

/-! ### MBXSEND (R368) -/

/-- The cluster belongs to another partition than the view's. -/
def View.away (w : View) (n : Nat) : Bool :=
  match w.close.partOfCluster n with | some q => w.close.partOfCluster w.cluster != some q | none => false

/-- No message goes to the target: it is no cluster, or a fenced one, its service core has failed, or it is another partition's. -/
def View.barred (w : View) (a : SReg) : Bool :=
  decide ((w.rs a).toNat / 32 ≠ 0) || w.close.clusterSt (fld (w.rs a) 0 5) == 3 ||
    (w.close.core (64 + fld (w.rs a) 0 5)).failed || w.away (fld (w.rs a) 0 5)

/-- The mailbox of a service core takes a message. -/
def State.mail (s : State) (n : Nat) (x : Mail) : State := s.updCore (64 + n) (fun k => { k with mailbox := k.mailbox ++ [x] })

/-- MBXSEND once its release is over: its status, and the message where it may go. -/
def View.sendMail (w : View) (c : Ctl) (d a b : SReg) : Res :=
  if w.barred a = true then w.landS c d 2
  else if 64 ≤ (w.close.core (64 + fld (w.rs a) 0 5)).mailbox.length then w.landS c d 1
  else (w.reopen ((w.close.mail (fld (w.rs a) 0 5) ⟨w.cluster, w.rs b, w.rs (b + 1), w.rs (b + 2)⟩).bootAnswer w.cluster
    (fld (w.rs a) 0 5))).landS c d 0

section
variable (hi : IssuesW c [.ds d, .s 1 a, .s 2 b, .s 2 (b + 1), .s 2 (b + 2)] false s v m) (hgo : v.release .device true = .go w)
include hi hgo

theorem exec_mbxsend_of_released : exec (.mbxsend c d a b) s = .next (v.answer c (w.sendMail c d a b) s) := by
  change execMbxsend c d a b s = _
  rw [execMbxsend, issue_of_issues _ hi]
  dsimp only
  rw [hgo]
  rfl

theorem exec_mbxsend_of_barred (hb : w.barred a = true) : exec (.mbxsend c d a b) s = .next ((w.landS c d 2).placed s) := by
  rw [exec_mbxsend_of_released hi hgo, View.sendMail, if_pos hb]
  rfl

variable (hb : w.barred a = false)
include hb

theorem exec_mbxsend_of_full (hfull : 64 ≤ (w.close.core (64 + fld (w.rs a) 0 5)).mailbox.length) :
    exec (.mbxsend c d a b) s = .next ((w.landS c d 1).placed s) := by
  rw [exec_mbxsend_of_released hi hgo, View.sendMail, if_neg (Bool.eq_false_iff.1 hb), if_pos hfull]
  rfl

/-- R368: the message joins the mailbox. -/
theorem exec_mbxsend_of_room (hroom : (w.close.core (64 + fld (w.rs a) 0 5)).mailbox.length < 64) : exec (.mbxsend c d a b) s =
    .next (((w.reopen ((w.close.mail (fld (w.rs a) 0 5) ⟨w.cluster, w.rs b, w.rs (b + 1), w.rs (b + 2)⟩).bootAnswer w.cluster
      (fld (w.rs a) 0 5))).landS c d 0).placed s) := by
  rw [exec_mbxsend_of_released hi hgo, View.sendMail, if_neg (Bool.eq_false_iff.1 hb), if_neg (Nat.not_le.2 hroom)]
  rfl

end

/-- A release changes no register of its split. -/
theorem View.Past.rs (h : v.Past w) (r : SReg) : w.rs r = v.rs r := by
  have hmask : w.sp.mask = v.sp.mask := by rw [h.sp]
  rw [View.rs, View.rs, View.svc, View.svc, h.ag, h.pk, hmask]

/-- Of a core, a release changes the L1 of its own alone. -/
theorem View.Past.core_close {α : Type} (h : v.Past w) {f : Core → α}
    (hf : ∀ (k : Core) l1 eco ldv packs, f { k with l1 := l1, eco := eco, ldv := ldv, packs := packs } = f k) (n : Nat) :
    f (w.close.core n) = f (v.close.core n) := by
  by_cases hn : n = v.ag
  · subst hn
    have hw : w.close.core v.ag = _ := h.ag ▸ w.core_close
    rw [hw, v.core_close, h.co]
    exact (hf v.co _ _ _ _).trans (hf v.co v.co.l1 v.co.eco v.co.ldv _).symm
  · rw [w.core_close_ne (by rwa [h.ag]), v.core_close_ne hn, h.s]

/-- The conditions of a message that may go hold after the release as they held before. -/
theorem View.Past.not_barred (h : v.Past w) (hlow : (v.rs a).toNat / 32 = 0) (hst : v.s.clusterSt (fld (v.rs a) 0 5) ≠ 3)
    (hfailed : (v.close.core (64 + fld (v.rs a) 0 5)).failed = false)
    (hpart : ∀ q, v.s.partOfCluster (fld (v.rs a) 0 5) = some q → v.s.partOfCluster v.cluster = some q) : w.barred a = false := by
  have hclu : w.close.clusterSt (fld (v.rs a) 0 5) = v.s.clusterSt (fld (v.rs a) 0 5) := by
    rw [← h.s]
    rfl
  have hof (n : Nat) : w.close.partOfCluster n = v.s.partOfCluster n := by
    rw [← h.s]
    rfl
  have hcluster : w.cluster = v.cluster := congrArg (· - 64) h.ag
  have haway : w.away (fld (v.rs a) 0 5) = false := by
    rw [View.away, hof, hof, hcluster]
    split
    · rw [hpart _ ‹_›, bne_self_eq_false]
    · rfl
  have hfail : (w.close.core (64 + fld (v.rs a) 0 5)).failed = false :=
    (h.core_close (f := Core.failed) (fun _ _ _ _ _ => rfl) _).trans hfailed
  rw [View.barred, h.rs, hclu, hfail, haway, hlow]
  simpa using hst

/-- R368: with nothing left for its release to wait for, a message that may go joins a mailbox with room. -/
theorem exec_mbxsend_of_releasable (hi : IssuesW c [.ds d, .s 1 a, .s 2 b, .s 2 (b + 1), .s 2 (b + 2)] false s v m)
    (hrel : v.releasable .device true) (hlow : (v.rs a).toNat / 32 = 0) (hst : v.s.clusterSt (fld (v.rs a) 0 5) ≠ 3)
    (hfailed : (v.close.core (64 + fld (v.rs a) 0 5)).failed = false)
    (hpart : ∀ q, v.s.partOfCluster (fld (v.rs a) 0 5) = some q → v.s.partOfCluster v.cluster = some q)
    (hroom : (v.close.core (64 + fld (v.rs a) 0 5)).mailbox.length < 64) :
    ∃ w, v.release .device true = .go w ∧ exec (.mbxsend c d a b) s =
      .next (((w.reopen ((w.close.mail (fld (v.rs a) 0 5) ⟨v.cluster, v.rs b, v.rs (b + 1), v.rs (b + 2)⟩).bootAnswer v.cluster
        (fld (v.rs a) 0 5))).landS c d 0).placed s) := by
  obtain ⟨w, hgo, hpast⟩ := View.release_of_releasable hrel
  have hcluster : w.cluster = v.cluster := congrArg (· - 64) hpast.ag
  have hbox := hpast.core_close (f := Core.mailbox) (fun _ _ _ _ _ => rfl) (64 + fld (v.rs a) 0 5)
  have hexec := exec_mbxsend_of_room hi hgo (hpast.not_barred hlow hst hfailed hpart) (by rwa [hpast.rs, hbox])
  rw [hpast.rs, hpast.rs, hpast.rs, hpast.rs, hcluster] at hexec
  exact ⟨w, hgo, hexec⟩

/-! ### MBXRECV (R368) -/

section
variable {nb : Bool} (hi : IssuesW c [.ds d, .ds (d + 1), .ds (d + 2), .ds (d + 3)] false s v m)
include hi

/-- R368: MBXRECV takes the first event. -/
theorem exec_mbxrecv_of_event {xs : List W64} {k : Core} (h : v.co.takeEvent = some (xs, k)) :
    let w := v.reopen (v.close.updCore v.ag (fun k => match k.takeEvent with | some r => r.2 | none => k))
    exec (.mbxrecv c nb d) s = .next ((((xs.zip (List.range 4)).foldl (fun (w : View) e =>
      w.ws (d + BitVec.ofNat 6 e.2) e.1 latU) w).tokenFor c latU).after c (v.succ c)) := by
  intro w
  change execMbxrecv c nb d s = _
  rw [execMbxrecv, issue_of_issues _ hi]
  dsimp only
  rw [h]
  rfl

variable (h : v.co.takeEvent = none)
include h

theorem exec_mbxrecv_of_nothing_nb : exec (.mbxrecv c true d) s = .next ((v.landS c d 0).placed s) := by
  change execMbxrecv c true d s = _
  rw [execMbxrecv, issue_of_issues _ hi]
  dsimp only
  rw [h]
  rfl

/-- R368: MBXRECV waits for an event. -/
theorem exec_mbxrecv_of_nothing : let w := (v.tokenV c).1.finish c ((v.tokenV c).1.succ c)
    exec (.mbxrecv c false d) s = .next ({ w with co := { w.co with mbwait := some (d, (v.tokenV c).2) } } : View).close := by
  change execMbxrecv c false d s = _
  rw [execMbxrecv, issue_of_issues _ hi]
  dsimp only
  rw [h]
  rfl

end

/-! ### ZAP (R367) -/

section
variable (hi : IssuesW c [.s 1 a, .s 2 b] false s v m)
include hi

theorem exec_zap_of_misaligned (h : (v.rs a).toNat % 4 ≠ 0 ∨ (v.rs b).toNat % 4 ≠ 0) : exec (.zap c a b) s =
    .next (v.raise (v.faultRec fcProtection (BitVec.ofNat 64 (v.rs a).toNat) 11 0 kWrite 127 0)) := by
  have hcond : (decide ((v.rs a).toNat % 4 ≠ 0) || decide ((v.rs b).toNat % 4 ≠ 0)) = true := by
    simpa using h
  exact (next_of_issue hi rfl (congrArg (v.answer c · s) (if_pos hcond)) : execZap c a b s = _)

variable (hpa : (v.rs a).toNat % 4 = 0)
include hpa

theorem exec_zap_of_empty (hn : (v.rs b).toNat = 0) : exec (.zap c a b) s = .next ((v.tokenFor c 1).after c (v.succ c)) := by
  have hcond : ¬ (decide ((v.rs a).toNat % 4 ≠ 0) || decide ((v.rs b).toNat % 4 ≠ 0)) = true := by
    simp [hpa, hn]
  exact (next_of_issue hi rfl (congrArg (v.answer c · s) ((if_neg hcond).trans (if_pos hn))) : execZap c a b s = _)

variable (hn : (v.rs b).toNat % 4 = 0) (hne : (v.rs b).toNat ≠ 0)
include hn hne

/-- The checks that lie before those of the range are met. -/
theorem exec_zap_of_aligned : exec (.zap c a b) s = .next (v.answer c
    (if (decide ((v.rs a).toNat / 2 ^ 16 ≠ ((v.rs a).toNat + (v.rs b).toNat - 1) / 2 ^ 16) || !isHbm (v.rs a).toNat ||
        !v.s.reachable (v.s.partOfAgent v.ag) (v.rs a).toNat) = true then v.protFault (v.rs a).toNat 7 kWrite
      else
        let ws := (List.range ((v.rs b).toNat / 4)).map (fun i => (v.rs a).toNat / 4 + i)
        v.begin c false (memOp .zap .n32 .none (ws.map (fun w => accOf ⟨127, 4 * w, 4 * w, 0, 0⟩ 4 [w])))
          (fun id s => ws.foldl (fun (s : State) w =>
            s.send v.ag (homeNode w) (.zapw w id (covers (v.rs a).toNat (v.rs b).toNat w))) s)) s) := by
  have hcond : ¬ (decide ((v.rs a).toNat % 4 ≠ 0) || decide ((v.rs b).toNat % 4 ≠ 0)) = true := by
    simp [hpa, hn]
  exact (next_of_issue hi rfl (congrArg (v.answer c · s) ((if_neg hcond).trans (if_neg hne))) : execZap c a b s = _)

/-- R367: a range that leaves its frame, HBM or the partition. -/
theorem exec_zap_of_outside (h : (v.rs a).toNat / 2 ^ 16 ≠ ((v.rs a).toNat + (v.rs b).toNat - 1) / 2 ^ 16 ∨
      isHbm (v.rs a).toNat = false ∨ v.s.reachable (v.s.partOfAgent v.ag) (v.rs a).toNat = false) : exec (.zap c a b) s =
    .next (v.raise (v.faultRec fcProtection (BitVec.ofNat 64 (v.rs a).toNat) 7 0 kWrite 127 0)) := by
  rw [exec_zap_of_aligned hi hpa hn hne, if_pos (by simpa [or_assoc] using h)]
  rfl

/-- R367: a ZAPW leaves for each word of the range. -/
theorem exec_zap_of_reachable (hframe : (v.rs a).toNat / 2 ^ 16 = ((v.rs a).toNat + (v.rs b).toNat - 1) / 2 ^ 16)
    (hhbm : isHbm (v.rs a).toNat = true) (hreach : v.s.reachable (v.s.partOfAgent v.ag) (v.rs a).toNat = true) :
    let ws := (List.range ((v.rs b).toNat / 4)).map (fun i => (v.rs a).toNat / 4 + i)
    exec (.zap c a b) s = .next ((v.begin c false (memOp .zap .n32 .none (ws.map (fun w => accOf ⟨127, 4 * w, 4 * w, 0, 0⟩ 4 [w])))
      (fun id s => ws.foldl (fun (s : State) w =>
        s.send v.ag (homeNode w) (.zapw w id (covers (v.rs a).toNat (v.rs b).toNat w))) s)).placed s) := by
  rw [exec_zap_of_aligned hi hpa hn hne, if_neg (by simpa [hhbm, hreach] using hframe)]
  rfl

end

/-! ### HALT (R67, R369) -/

theorem exec_halt_of_event (hi : IssuesW c [] false s v m) (h : v.co.pendingEvent = true) :
    exec (.halt c) s = .next ((v.tokenFor c 1).after c (v.succ c)) :=
  (next_of_issue hi rfl (congrArg (v.answer c · s) (if_pos h)) : execHalt c s = _)

/-- R67: without an event a drained core gives its words up, and its clock is gated. -/
theorem exec_halt_of_drained (hi : IssuesW c [] false s v m) (h : v.co.pendingEvent = false) (hd : v.co.drained = true) :
    exec (.halt c) s =
      .next ((((v.tokenFor c 1).after c (v.succ c)).giveUp v.ag).updCore v.ag (fun k => { k with halted := true })) :=
  (next_of_issue hi rfl (congrArg (v.answer c · s) ((if_neg (Bool.eq_false_iff.1 h)).trans (if_neg (by simp [hd])))) : execHalt c s = _)

end

/-- Settles O51: each instruction by the first of its checks that decides; a release with nothing left to wait for is over
(`View.release_of_releasable`), and areas that are reached are saved and loaded at once (`exec_pctxsv_pctxld_of_reaches`). Choices of the
assumption log stand in it: the byte places in the workgroup header that PCTXLD reads (entry 34), and a started shard's answer in what a
message does (`State.bootAnswer`, entry 8). -/
theorem serviceInstructions : Obligations.ServiceInstructions := by
  refine fun c d a b s v m => ⟨fun mark hi => ?_, fun hi => ⟨fun hp => ⟨exec_pstop_of_nothing hi hp, exec_pstopGo_of_nothing hi hp⟩,
      fun n slot p hp => ⟨fun hs => ⟨exec_pstop_of_stopped hi hp hs, exec_pstopGo_of_stopped hi hp hs⟩, exec_pstopGo_of_running hi hp,
        exec_pstop_of_running hi hp⟩⟩, fun hi => ⟨exec_pstopEnd_of_nothing hi, fun n slot p hphase hp =>
      ⟨exec_pstopEnd_of_running hi hphase hp, exec_pstopEnd_of_stopped hi hphase hp⟩, fun n slot => exec_pstopEnd_of_gone hi,
      exec_pctxsv_of_nothing hi, fun n slot p t => exec_pctxsv_of_saved hi, fun k t => exec_pctxld_of_loaded hi,
      exec_pctxsv_pctxld_of_reaches c d a b s v m hi⟩, fun mode hub hi => ⟨exec_tlbinv_of_first hi, exec_tlbinv_of_last hi⟩,
    fun w hi hgo => ⟨exec_mbxsend_of_barred hi hgo, exec_mbxsend_of_full hi hgo, exec_mbxsend_of_room hi hgo⟩,
    fun hi => exec_mbxsend_of_releasable hi, fun nb hi => ⟨fun xs k => exec_mbxrecv_of_event hi, ?_, ?_⟩,
    fun hi => ⟨exec_zap_of_misaligned hi, exec_zap_of_empty hi, exec_zap_of_outside hi, exec_zap_of_reachable hi⟩,
    fun hi => ⟨exec_halt_of_event hi, exec_halt_of_drained hi⟩⟩
  · refine ⟨exec_sres_of_refused hi, ?_, ?_, ?_⟩
    · rintro h rfl
      exact exec_sres_of_saved hi h
    · rintro w h rfl hp hgo
      exact exec_sres_of_resident hi h hp hgo
    · rintro h rfl hp hrel
      obtain ⟨w, hgo, -⟩ := View.release_of_releasable hrel
      exact ⟨w, hgo, exec_sres_of_resident hi h hp hgo⟩
  · rintro h rfl
    exact exec_mbxrecv_of_nothing_nb hi h
  · rintro h rfl
    exact exec_mbxrecv_of_nothing hi h

end Sys2Proof.Machine
end
